-- ==== Sys2Proof/Word.lean ====
section
/-! DEFINITION. Word.lean: the plain types the whole model shares: words, unit numbers (R21, R22), sparse tables. -/
namespace Sys2Proof

/-- One byte of memory or of a packet. -/
abbrev Byte := BitVec 8
/-- A 32-bit register or instruction word (R13, R73). -/
abbrev Word := BitVec 32
/-- A 64-bit register, counter or table entry (R13). -/
abbrev DWord := BitVec 64
/-- An iteration tag (R57). -/
abbrev Tag := BitVec 16
/-- A bind epoch (R211). -/
abbrev Epoch := BitVec 12
/-- A table that lists only the entries that differ from what an unlisted key reads as:
keys strictly rising, so equal tables are equal data. -/
abbrev Sparse (α : Type) := List (Nat × α)
/-- A package region number p (R21). -/
abbrev Region := Fin 16
/-- A context number, 0 to 30 (R386). -/
abbrev Ctx := Fin 31
/-- A function: 0 the physical function, 1 to 16 the virtual functions (R546). -/
abbrev Func := Fin 17

/-- A cluster: region p and cluster c within it (R21). -/
structure ClusterRef where
  p : Fin 16
  c : Fin 16
  deriving DecidableEq, Repr, Inhabited

/-- The package cluster number 16p + c (R21). -/
def ClusterRef.key (k : ClusterRef) : Nat := 16 * k.p.val + k.c.val

/-- A core by region, cluster and logical index (R22). -/
structure CoreRef where
  p : Fin 16
  c : Fin 16
  l : Fin 16
  deriving DecidableEq, Repr, Inhabited

/-- The window number 256p + 16c + l (R92, R94). -/
def CoreRef.key (k : CoreRef) : Nat := 256 * k.p.val + 16 * k.c.val + k.l.val

/-- The cluster of a core. -/
def CoreRef.cluster (k : CoreRef) : ClusterRef := ⟨k.p, k.c⟩

/-- Who issued a command: a context's submission ring, with the cookie and irq flag of its frame (R392), or a register,
on behalf of a context where its image names one. -/
inductive Issuer where
  | ring (ctx : Ctx) (cookie : DWord) (irq : Bool)
  | reg (ctx : Option Ctx)
  deriving DecidableEq, Repr

/-- The context an issuer acts for. -/
def Issuer.ctxNum : Issuer → Option Nat
  | .ring c _ _ => some c.val
  | .reg c => c.map (·.val)

/-- A leash's target as a command names it (R299, R308); `other`: kind 3, which no command may name, or a reserved kind. -/
inductive LeashDest where
  | fetcher (p : Region) (ch : Fin 16) (slot : Fin 16)
  | token (p : Region) (c : Fin 16) (l : Fin 16) (op : Fin 32) (port : Fin 8) (tag0 : Tag)
  | record (cookie : Word)
  | other
  deriving DecidableEq, Repr

/-- Who makes a memory access (R255, R259, R263): an agent of the spine acting for a context; an agent at the agent port of a
router of the mesh acting for a context; the host interface acting for a context (its accesses are free of the 64 B rule); a
spine engine acting for the device on pages its own command names, or on any other page. -/
inductive Requester where
  | agent (ctx : Ctx)
  | mesh (ctx : Ctx) (router : Fin 256)
  | host (ctx : Ctx)
  | engine
  | device
  deriving DecidableEq, Repr

/-- The context a requester acts for. -/
def Requester.ctxNum : Requester → Option Nat
  | .agent c => some c.val
  | .mesh c _ => some c.val
  | .host c => some c.val
  | .engine => none
  | .device => none
def Requester.isHost : Requester → Bool
  | .host _ => true
  | _ => false
/-- May the requester use something a context owns (R263, R266)? -/
def Requester.owns (r : Requester) (owner : Nat) : Bool :=
  match r with
  | .engine => true
  | .device => false
  | r => r.ctxNum = some owner

/-- A configuration request (R537, R546 to R549, R558): a read, with what configuration space holds where the spec does not give it;
a write that sets the number of virtual functions enabled, or the MSI-X enable and function mask bits; another write. -/
inductive ConfigReq where
  | read (offset : Nat) (value : Word)
  | vfs (n : Fin 17)
  | msix (enable mask : Bool)
  | write (offset : Nat) (value : Word)
  deriving DecidableEq, Repr

/-- A vote record (R327): step, vote word, votes, vote tick, layout epoch. -/
structure VoteRec where
  step : Nat
  word : Nat
  votes : Nat
  tick : Nat
  layout : Nat
  deriving DecidableEq, Repr, Inhabited

/-- Bytes to be written, and the bursts of them, counted from the first, whose stored bits flip afterwards (R267). -/
structure WriteData where
  bytes : List Byte
  flips : List Nat
  deriving DecidableEq, Repr

/-- An engine that ends a command (0 tensor, 1 vector, 2 movement), and the cycles in which a requester of its core lost a bank to
another meanwhile (R89). -/
structure EngineEnd where
  engine : Fin 3
  conflicts : Nat
  deriving DecidableEq, Repr

end Sys2Proof
end

