-- ==== Sys2Proof/Machine/Sparse.lean ====
section
/-! DEFINITION. Machine/Sparse.lean: the operations on tables that list only what differs from a default, in one canonical
form (keys strictly rising, no entry equal to the default), and on the one byte memory, which is such a table. -/

namespace Sys2Proof.Machine

/-- What key k reads as. -/
def spGet {α : Type} (d : α) : Sparse α → Nat → α
  | [], _ => d
  | (j, v) :: t, k => if k = j then v else spGet d t k

/-- Keys strictly rising and above `lo`, and no entry equal to the default. -/
def spWfFrom {α : Type} [DecidableEq α] (d : α) : Nat → Sparse α → Bool
  | _, [] => true
  | lo, (j, v) :: t => decide (lo ≤ j) && decide (v ≠ d) && spWfFrom d (j + 1) t

/-- The canonical form. -/
def spWf {α : Type} [DecidableEq α] (d : α) (m : Sparse α) : Bool := spWfFrom d 0 m

/-- Put an entry in its place among keys that rise. -/
def spInsert {α : Type} (k : Nat) (v : α) : Sparse α → Sparse α
  | [] => [(k, v)]
  | (j, w) :: t => if k < j then (k, v) :: (j, w) :: t else (j, w) :: spInsert k v t

/-- Write v at key k, keeping the canonical form. -/
def spSet {α : Type} [DecidableEq α] (d : α) (m : Sparse α) (k : Nat) (v : α) : Sparse α :=
  let rest := m.filter fun e => decide (e.1 ≠ k)
  if v = d then rest else spInsert k v rest

/-- Set every key of [lo, hi) to the default. -/
def spClear {α : Type} (m : Sparse α) (lo hi : Nat) : Sparse α :=
  m.filter fun e => decide (e.1 < lo ∨ hi ≤ e.1)

/-- Write consecutive bytes from address a. -/
def memStore (m : Sparse Byte) (a : Nat) : List Byte → Sparse Byte
  | [] => m
  | b :: bs => memStore (spSet 0#8 m a b) (a + 1) bs

/-- Read n consecutive bytes from address a. -/
def memLoad (m : Sparse Byte) (a : Nat) : Nat → List Byte
  | 0 => []
  | n + 1 => spGet 0#8 m a :: memLoad m (a + 1) n

/-- Write a list of cells. -/
def memPut (m : Sparse Byte) : List Host.Cell → Sparse Byte
  | [] => m
  | (a, b) :: t => memPut (spSet 0#8 m a b) t

/-- Copy n bytes from src to dst: the destination takes what the source range held before (listed cells alone move). -/
def memCopy (m : Sparse Byte) (src dst n : Nat) : Sparse Byte :=
  memPut (spClear m dst (dst + n))
    ((m.filter fun e => decide (src ≤ e.1 ∧ e.1 < src + n)).map fun e => (e.1 - src + dst, e.2))

/-- The memory's canonical form. -/
def memWf (m : Sparse Byte) : Bool := spWf 0#8 m

/-- A little-endian number from bytes (R12). -/
def leNat : List Byte → Nat
  | [] => 0
  | b :: bs => b.toNat + 256 * leNat bs

/-- n little-endian bytes of a number (R12). -/
def natLe : Nat → Nat → List Byte
  | 0, _ => []
  | n + 1, v => BitVec.ofNat 8 v :: natLe n (v / 256)

/-- Bits [hi:lo] of a number (R11). -/
def bits (v hi lo : Nat) : Nat := (v / 2 ^ lo) % 2 ^ (hi + 1 - lo)

/-- v with bits [hi:lo] replaced by f. -/
def putBits (v hi lo f : Nat) : Nat :=
  v - bits v hi lo * 2 ^ lo + (f % 2 ^ (hi + 1 - lo)) * 2 ^ lo

/-- Bit n of a number. -/
def bitAt (v n : Nat) : Bool := (v / 2 ^ n) % 2 = 1

/-- A number of w bits read as two's complement. -/
def sext (w v : Nat) : Int := if v % 2 ^ w < 2 ^ (w - 1) then (v % 2 ^ w : Nat) else (v % 2 ^ w : Nat) - (2 ^ w : Nat)

/-- An integer taken modulo 2^w. -/
def wrapInt (w : Nat) (i : Int) : Nat := (i % (2 ^ w : Nat)).toNat

/-- Ceiling division. -/
def ceilDiv (a b : Nat) : Nat := (a + b - 1) / b

/-- 16-bit iteration tags (R62): a is later than b within the window of 32,768. -/
def tagAfter (a b : Tag) : Bool := a - b ≠ 0 && (a - b).toNat < 32768
/-- 12-bit bind epochs (R211): window 2,048. -/
def epochAfter (a b : Epoch) : Bool := a - b ≠ 0 && (a - b).toNat < 2048
/-- 24-bit link sequence numbers: window 2^23. -/
def seqAfter (a b : BitVec 24) : Bool := a - b ≠ 0 && (a - b).toNat < 0x800000
/-- 32-bit lease terms (R488): window 2^31. -/
def termAfter (a b : Word) : Bool := a - b ≠ 0 && (a - b).toNat < 0x80000000

/-- The first entry of a list that satisfies p, replaced. -/
def replaceFirst {α : Type} (p : α → Bool) (f : α → α) : List α → List α
  | [] => []
  | a :: t => if p a then f a :: t else a :: replaceFirst p f t

/-- The list without its first entry that satisfies p. -/
def dropFirst {α : Type} (p : α → Bool) : List α → List α
  | [] => []
  | a :: t => if p a then t else a :: dropFirst p t

/-- Numbers 0 to n - 1. -/
def upto (n : Nat) : List Nat := List.range n

end Sys2Proof.Machine
end

