-- ==== Sys2Proof/Syntax.lean ====
section
/-! DEFINITION. Syntax.lean: the commands, one constructor for each row of spec/opcode_table.json. -/

namespace Sys2Proof

/-- A command. Units are named as R21 and R22 name them; readings that come from outside the package (replies, sensors,
results of tests) are operands. -/
inductive Instr where
  /-- R13: A 32-bit read of a counter's lower address captures bits [63:32] into the holding register for the next upper read. -/
  | counterSplitRead (fn : Func) (offset : Fin 67108864)
  /-- R19: A misaligned or wrong-width register access reads all ones or is discarded and HIF_BAD_ACCESS advances. -/
  | badRegisterAccess (fn : Func) (write : Bool) (offset width : Nat)
  /-- R15: A write to a register with no row of its own acts under its access type. -/
  | registerWrite (fn : Func) (offset : Fin 67108864) (wide : Bool) (value : DWord)
  /-- R171: A courier packet is routed in dimension order, or detoured on VC3, or discarded with FENCED if no path avoids fenced routers. -/
  | courierPacketRoute (n : Nat) (stalls : List (Fin 256 × Fin 5))
  /-- R177: A multicast branch holds a flit for more than 1 ms; the router records it and raises a class 11 STRAGGLER event. -/
  | stragglerTimeout (n : Nat)
  /-- R179: A contribution reaches a reduction node; the first is stored and the second is combined and sent on or delivered. -/
  | reductionContribution (n : Nat)
  /-- R183: When a port's slot frees, the reservoir empties into it in order. -/
  | reservoirDrain (core : CoreRef) (op : Fin 32) (port : Fin 8)
  /-- R184: As reservoir space frees, spilled data is read back from HBM in order. -/
  | spillReadback (core : CoreRef) (op : Fin 32) (port : Fin 8)
  /-- R185: Hold is released when staging falls below 8 KiB and the spill area has room. -/
  | holdRelease (core : CoreRef) (op : Fin 32) (port : Fin 8) (cycles : Nat)
  /-- R191: A write to NOC_SPILL_BASE or NOC_SPILL_SIZE is held until the next bind of the region. -/
  | nocSpillWrite (fn : Func) (p : Region) (size : Bool) (value : DWord)
  /-- R210: The bindery finishes loading the logical core's block into the spare, which then admits tokens from the saved base tag. -/
  | spareLoadComplete (core : CoreRef)
  /-- R201: A STAGE command copies a folio into the bindery store and checks signature, digests and static rules. -/
  | stage (iss : Issuer) (addr : BitVec 48) (dies : BitVec 4)
  /-- R202: STAGE completes with OK and a handle, or with the first failure in the order of R588. -/
  | stageComplete (n : Nat)
  /-- R203: RELEASE frees a staged folio's units and handle, or completes with BUSY while a region is bound from it. -/
  | release (iss : Issuer) (handle : Byte)
  /-- R205: A BIND is judged against ownership, reservation, state and fence map, and on success starts loading its bind set. -/
  | bind (iss : Issuer) (handle : Byte) (target : Region)
  /-- R208: At the first tick after the slowest load the new epoch is written, base tags set, cores start and completion is sampled. -/
  | bindStart (p : Region)
  /-- R208: At the first slot 0 after the start tick the new slot tables take effect in every router of the bind set. -/
  | slotTableActivation (p : Region)
  /-- R214: UNBIND stops the named regions in flush mode or freezes their windows in drain mode. -/
  | unbind (iss : Issuer) (regions : BitVec 16) (drain : Bool)
  /-- R219: REBIND unbinds the named regions and binds the new handle into them with no tick between. -/
  | rebind (iss : Issuer) (regions : BitVec 16) (drain : Bool) (handle : Byte)
  /-- R214: A flush-mode unbind completes at the first tick after its router clear with the region unbound. -/
  | flushComplete (p : Region)
  /-- R215: A draining region settles for 64 NCLK and at the next tick proceeds as in flush mode. -/
  | drainSettled (p : Region)
  /-- R216: A drain not settled by BND_DRAIN_TIMEOUT is cut to flush mode and the command completes with DRAIN_TIMEOUT. -/
  | drainTimeout (p : Region)
  /-- R220: A bind-family command waiting on a loading or draining region is applied at the first tick after that operation completes. -/
  | waitingBindCommand (p : Region)
  /-- R213: A seam-filter discard while bound is looked up in the epoch history and reported as a class 10 EPOCH_STALE event. -/
  | epochStaleReport (ctx : Ctx) (p : Region)
  /-- R240: An ARM written to FCH_SLOT_CMD loads FCH_SLOT_IMAGE into the slot or its shadow at the next tick, or is refused. -/
  | fchSlotArm (fn : Func) (p : Region) (ch : Fin 16) (slot : Fin 10)
  /-- R245: A CANCEL written to FCH_SLOT_CMD empties the shadow and the slot, letting a transfer in flight complete. -/
  | fchSlotCancel (fn : Func) (p : Region) (ch : Fin 16) (slot : Fin 10)
  /-- R240: The ring command FCH_ARM arms a fetcher slot with the image it carries. -/
  | fchArm (iss : Issuer) (p : Region) (ch : Fin 16) (slot : Fin 16) (img : List Byte)
  /-- R245: The ring command FCH_CANCEL cancels a fetcher slot. -/
  | fchCancel (iss : Issuer) (p : Region) (ch : Fin 16) (slot : Fin 16)
  /-- R234: A fetcher transfer starts once its trigger holds and the credit for its destination slot is held. -/
  | fetchTransferStart (p : Region) (ch : Fin 16) (slot : Fin 10) (waited : Nat)
  /-- R234: A transfer completes, writes its record if asked, increments done_tally, and follows a chain or shadow takeover. -/
  | fetchTransferComplete (p : Region) (ch : Fin 16) (slot : Fin 10)
  /-- R234: A read reply returns to a fetcher channel and is written by its own address. -/
  | fetchReadReply (p : Region) (ch : Fin 16) (slot : Fin 10) (n : Nat) (reply : Fin 5) (bad : Nat)
  /-- R248: Copy i of a pass-along transfer starts when copy i − 1 has completed and the entry's credit is held. -/
  | passAlongCopy (p : Region) (ch : Fin 16) (slot : Fin 10) (waited : Nat)
  /-- R251: A write to FCH_MODE switches normal and deadline mode at the next tick. -/
  | fchModeWrite (fn : Func) (value : Word)
  /-- R268: A memory port serves a read, retrying once on a detection-code failure. -/
  | memoryRead (req : Requester) (addr len : Nat) (bad : Nat) (fails : Fin 3)
  /-- R261: A memory port accepts a write and acknowledges it once in the controller's write queue. -/
  | memoryWrite (req : Requester) (addr : Nat) (data : WriteData)
  /-- R268: A twice-failed read is sampled as a class 5 event and its stack page is retired. -/
  | detectionAtRest (stack : Fin 16) (quad : Fin 24576)
  /-- R273: A stack is fenced for reaching the retire limit, a fatal condition, failed training or the fault manager. -/
  | stackFence (stack : Fin 16) (why : Fin 4)
  /-- R270: The controller reads every burst once per MEM_SCRUB_HOURS at lowest priority. -/
  | scrubRead (stack : Fin 16) (off : Nat) (fails : Fin 3)
  /-- R264: A physical-function write of a page owner takes effect under R264 and starts zeroing when set to 0x1F. -/
  | memPageOwnerWrite (fn : Func) (word : Fin 196608) (value : Word)
  /-- R264: Background zeroing of a released page ends and its zeroing bit clears. -/
  | pageZeroingComplete (page : Fin 393216)
  /-- R258: A write to MEM_QUAD_MODE changes a free quad's mode and is otherwise ignored. -/
  | memQuadModeWrite (fn : Func) (word : Fin 3072) (value : Word)
  /-- R273: A write lowering the retire limit to or below a stack's count fences the stack at the next tick. -/
  | memRetireLimitWrite (fn : Func) (value : Word)
  /-- R265: The power-up zeroing of every stack ends and MEM_STATUS.init_done sets. -/
  | hbmInitComplete
  /-- R279: An access to a CXL address is served from its pool slot or the port, or held while filling or evicting. -/
  | cxlAccess (req : Requester) (addr len : Nat) (data : Option (List Byte)) (poison : Bool)
  /-- R278: A write to TIR_POOL_BASE or TIR_POOL_COUNT takes effect only with no valid slot and free pages. -/
  | tirPoolWrite (fn : Func) (count : Bool) (value : Word)
  /-- R280: LOAD makes a CXL page resident, choosing a slot under R282. -/
  | tierLoad (iss : Issuer) (page : Fin 4194304)
  /-- R280: LOAD_PIN loads a CXL page and sets it pinned. -/
  | tierLoadPin (iss : Issuer) (page : Fin 4194304)
  /-- R280: UNPIN clears the pinned bit of a resident page. -/
  | tierUnpin (iss : Issuer) (page : Fin 4194304)
  /-- R280: EVICT writes back dirty sub-blocks and empties the slot, or completes with BUSY if pinned. -/
  | tierEvict (iss : Issuer) (page : Fin 4194304)
  /-- R280: FLUSH writes back dirty sub-blocks and keeps the page resident. -/
  | tierFlush (iss : Issuer) (page : Fin 4194304)
  /-- R280: The last fill data is written, the page becomes resident and held accesses are served. -/
  | tierFillComplete (page : Fin 4194304) (poison : Bool) (hold : Nat)
  /-- R283: The last write-back of an eviction or flush is acknowledged and the page leaves state evicting. -/
  | tierWritebackComplete (page : Fin 4194304) (hold : Nat)
  /-- R281: Every 1,024 ticks the age of every valid pool slot advances by one. -/
  | slotAgeAdvance
  /-- R275: The lead enumerates, trains and programs a far-memory port and reports it in TIR_PORT_STATUS. -/
  | cxlPortEnumerate (port : Fin 2) (rate : Fin 4) (width : Nat) (cxl2 : Bool) (capGib : Nat)
  /-- R277: A trained CXL port goes down; its accesses are refused with FENCED and fills complete with FENCED. -/
  | cxlPortDown (port : Fin 2)
  /-- R285: A CXL port comes up again and pending poison and write-backs are performed. -/
  | cxlPortUp (port : Fin 2)
  /-- R562: HIF_CONFIG.cxl_retrain retrains and re-enumerates a port with no owned extents or pool pages. -/
  | cxlRetrain (fn : Func) (port : Fin 2) (rate : Fin 4) (width : Nat) (cxl2 : Bool) (capGib : Nat)
  /-- R562: An access through HIF_CXL_CFG is forwarded as a CXL.io configuration request, with decoder writes discarded. -/
  | cxlConfigAccess (fn : Func) (port : Fin 2) (offset : Fin 4096) (write : Option Word) (decoder : Bool) (value : Word)
  /-- R291: CREATE allocates a tally on a home die and maps the identifier. -/
  | tallyCreate (iss : Issuer) (home : Fin 4) (vid : Fin 1048576) (value : Word) (share : BitVec 31)
  /-- R291: IMPORT maps an identifier to a tally shared by its owner. -/
  | tallyImport (iss : Issuer) (vid ownerVid : Fin 1048576) (owner : Fin 32)
  /-- R291: RELEASE removes a mapping and, for the owner, poisons the tally. -/
  | tallyRelease (iss : Issuer) (vid : Fin 1048576)
  /-- R292: ADD increments a tally, saturating at 0xFFFF_FFFF. -/
  | tallyAdd (iss : Issuer) (vid : Fin 1048576) (count : Word)
  /-- R292: SUB decrements a tally or is refused whole as an overdraw. -/
  | tallySub (iss : Issuer) (vid : Fin 1048576) (count : Word)
  /-- R291: READ returns the tally value in the completion. -/
  | tallyRead (iss : Issuer) (vid : Fin 1048576)
  /-- R296: LEASH_SET registers a leash on a tally and returns its handle. -/
  | leashSet (iss : Issuer) (vid : Fin 1048576) (cond : Fin 4) (rep : Bool) (step threshold : Word) (target : LeashDest)
  /-- R291: LEASH_CLEAR removes a leash, discarding any undelivered bark. -/
  | leashClear (iss : Issuer) (handle : Fin 32768)
  /-- R294: A HERD or agent operation reaches the tally's home unit, is applied, and its leashes are evaluated. -/
  | tallyOperationApply (n : Nat)
  /-- R299: A pending bark is delivered to a fetcher slot, core token, completion ring or spine engine once possible. -/
  | barkDelivery (handle : Fin 32768)
  /-- R293: A HERD whose translation fails or decrement overdraws halts its region at the next tick with NO_TALLY or OVERDRAW. -/
  | herdHalt (core : CoreRef)
  /-- R303: Herding units exchange wait relations each tick and test for standoff cycles as a class 11 event. -/
  | standoffCheck
  /-- R304: The spill writes end and the staging slot is marked as having finished sending. -/
  | standoffSpillComplete (entry : Fin 256)
  /-- R304: A spilled token is read back from the reserve once its credit arrives. -/
  | reserveReadback (entry : Fin 256)
  /-- R305: A standoff with no candidate halts the context's affected regions with STANDOFF at the next tick. -/
  | standoffFault
  /-- R306: A write of an HRD_RESERVE entry while the region is bound takes effect at the next bind. -/
  | hrdReserveWrite (fn : Func) (entry : Fin 256) (word : Fin 3) (value : DWord)
  /-- R312: A step record at the head of the ring is checked and, if accepted, starts the step at the next tick. -/
  | step (iss : Issuer) (record : List Byte)
  /-- R314: At the first tick after the step's work completes, the vote word is formed and the vote record sent. -/
  | stepVote (ctx : Ctx)
  /-- R315: deadline_us elapses with the work incomplete and the step closes incomplete, halting its regions. -/
  | stepDeadline (ctx : Ctx)
  /-- R328: A vote record arrives from a ring neighbour and is combined and passed on. -/
  | voteRecord (axis : Fin 4) (plus : Bool) (hop : Nat) (r : VoteRec)
  /-- R329: A shepherd holding the job's combined record decides commit or abort and sends the decision. -/
  | shepherdDecision (ctx : Ctx)
  /-- R330: A package receives its shepherd's decision, entering committing or applying an abort. -/
  | decisionRecord (step : DWord) (commit : Bool) (flip : DWord) (snap : Bool)
  /-- R330: At the flip tick sel toggles, STEP advances, shadow slots become current and the state becomes idle. -/
  | commitFlip (ctx : Ctx)
  /-- R332: A shepherd without the combined record within CTX_VOTE_TIMEOUT marks the step in doubt and raises the failure path. -/
  | voteTimeout (ctx : Ctx)
  /-- R332: After the torus is restored shepherds exchange decisions and every package commits or aborts the in-doubt step. -/
  | inDoubtResolution (ctx : Ctx) (anyCommit : Bool) (flip : DWord)
  /-- R338: A RESHARD record, once idle, rebinds regions with the move folio and enters state resharding. -/
  | reshard (iss : Issuer) (record : List Byte)
  /-- R339: A forced RESHARD sets the epoch bit and closes the running step incomplete. -/
  | reshardForce (iss : Issuer) (record : List Byte)
  /-- R338: At the tick after a re-shard commit the regions are rebound with the target folio and the state becomes idle. -/
  | reshardTargetBind (ctx : Ctx)
  /-- R343: A write to NUM_CTX_MAP_COUNT while idle starts a numerics map load at the next tick. -/
  | numMapLoad (fn : Func) (ctx : Ctx) (value : Word)
  /-- R343: The numerics map load ends with state ok or rejected. -/
  | numMapLoadComplete (ctx : Ctx)
  /-- R347: An AMAX report reaches the monitor and is merged into its entry or counted unmapped or infinite. -/
  | amaxReport (n : Nat)
  /-- R350: Once a microbatch's contributors have reported, the monitor writes its just-in-time scale to the work slot. -/
  | jitScalePublish (ctx : Ctx) (entry : Fin 4096)
  /-- R350: The scale write is acknowledged and jit_vid is incremented. -/
  | jitPublishComplete (ctx : Ctx) (entry : Fin 4096)
  /-- R357: A non-finite report is sampled in class 8, sets vote bit 0 and updates the pending record. -/
  | nonfiniteReportSampled (core : CoreRef)
  /-- R365: Writing 1 to NUM_CTX_NF_WHERE.valid clears the non-finite record. -/
  | nfRecordClear (fn : Func) (ctx : Ctx) (value : Word)
  /-- R356: A write to NUM_CTX_SEED is accepted while idle and journalled, else discarded. -/
  | numSeedWrite (fn : Func) (ctx : Ctx) (value : DWord)
  /-- R359: A ratio report reaches the monitor and is held or discarded. -/
  | ratioReport (n : Nat)
  /-- R367: A write to FIN_CTX_TABLE_COUNT while idle starts a coefficient table load. -/
  | finTableLoad (fn : Func) (ctx : Ctx) (value : Word)
  /-- R367: The coefficient table load ends with state ok or rejected. -/
  | finTableLoadComplete (ctx : Ctx)
  /-- R380: A state mover sends a chunk of committed state as a token once it holds the port's credit. -/
  | moverDeliver (ctx : Ctx) (entry : Fin 65536)
  /-- R381: A token from a finishing operation reaches the state mover and is written to the shadow bank. -/
  | moverCollect (n : Nat)
  /-- R381: A copy entry copies committed bytes to the shadow bank from the start tick. -/
  | moverCopy (ctx : Ctx) (entry : Fin 65536)
  /-- R382: When all of a die's collect and copy writes are acknowledged, its mover increments FIN_CTX_DONE_VID. -/
  | moverDone (ctx : Ctx) (die : Fin 4)
  /-- R383: A count report reaches the finishing counters and adds to FIN_SINGULAR_COUNT and FIN_ZERO_DENOM. -/
  | finCountReport (n : Nat)
  /-- R388: CTX_ADMIN CREATE creates a context and resets its windows, or completes with BUSY. -/
  | ctxCreate (fn : Func) (ctx function : Fin 32)
  /-- R388: CTX_ADMIN DESTROY unbinds the context's regions, discards saves, poisons tallies and disables its rings. -/
  | ctxDestroy (fn : Func) (ctx : Fin 32)
  /-- R391: Every poll ticks the context manager reads a ring's control block and fetches waiting cells. -/
  | ringPoll (ctx : Ctx)
  /-- R394: Up to 8 commands per context are taken per tick and each is applied at the next tick. -/
  | ringCommandTake (ctx : Ctx)
  /-- R393: The ring command NOP completes with OK and does nothing else. -/
  | nop (iss : Issuer)
  /-- R395: A completion record is written, cpl_tail advanced and MSI-X signalled if required. -/
  | completionRecordWrite (ctx : Ctx)
  /-- R400: For each microbatch the context manager arms each used batch item once its slot's shadow is empty. -/
  | batchItemArm (ctx : Ctx)
  /-- R402: A reservation write takes effect at the next tick only if the region is free or bound to that context. -/
  | ctxRegionReserveWrite (fn : Func) (p : Region) (value : Word)
  /-- R404: PREEMPT pre-empts the holders of the named regions or completes with BUSY. -/
  | preempt (iss : Issuer) (regions : BitVec 16)
  /-- R404: The physical function pre-empts a context through CTX_PREEMPT, ignoring priority. -/
  | ctxPreemptRequest (fn : Func) (ctx : Fin 32)
  /-- R408: All cores at rest for 64 NCLK; slot 8 writes the save area. -/
  | yieldPoint (ctx : Ctx)
  /-- R408: After the last save write is acknowledged the regions are unbound and a PREEMPTED record written. -/
  | preemptSaveComplete (ctx : Ctx)
  /-- R410: At CTX_PREEMPT_DEADLINE without a yield point every core stops with its state kept. -/
  | preemptDeadline (ctx : Ctx)
  /-- R410: At the first tick after in-flight traffic has landed the save engine begins the forced save. -/
  | forcedSaveStart (ctx : Ctx)
  /-- R411: The die's save engine finishes saving one region and starts the next. -/
  | forcedRegionSaved (ctx : Ctx) (die : Fin 4)
  /-- R413: A parked collective result is written into the saved image and its matcher entry marked landed. -/
  | parkedResultArrival (entry : Fin 1024)
  /-- R404: A pre-emption claim on a region ends 1,000 µs after completion. -/
  | claimExpiry (p : Region)
  /-- R414: When its regions are free and hold is 0 the context is rebound and its saved blocks restored. -/
  | contextResume (ctx : Ctx)
  /-- R414: Restore ends; epochs are rewritten, cores restarted, slots unparked, barks delivered, and an OK record written. -/
  | contextRestoreComplete (ctx : Ctx)
  /-- R415: Each tick the context manager adds to every context's accounting counters. -/
  | accountingTick
  /-- R418: A role write to LNK_PORT_CFG takes effect at the next tick, or is discarded as a duplicate. -/
  | portRoleWrite (fn : Func) (port : Fin 9) (value : Word)
  /-- R426: A port finishes training and exchanges identity flits. -/
  | portTrainingComplete (port : Fin 9) (lanes : Fin 16)
  /-- R426: An identity flit arrives and the port is admitted up or held. -/
  | identityFlit (port : Fin 9) (job coord : Word) (role : Fin 16) (digest : List Byte)
  /-- R424: A flit arrives and is accepted in order, or discarded with a nak and replay. -/
  | linkFlit (port : Fin 9) (cls : Fin 4) (seq : BitVec 24) (ack : Option (BitVec 24)) (good : Bool) (corrected uncorrected : Nat)
  /-- R424: A nak arrives and the sender replays from ack + 1. -/
  | linkNak (port : Fin 9) (ack : BitVec 24)
  /-- R427: Writing LNK_PORT_CFG.recal requests a recalibration of the port. -/
  | portRecalRequest (fn : Func) (port : Fin 9)
  /-- R427: LNK_RECAL_HOURS elapse and a port recalibration is requested. -/
  | recalTimerExpiry (port : Fin 9)
  /-- R427: A lane's corrected-symbol ratio over 1 s exceeds 10^-5 and recalibration is requested. -/
  | recalErrorThreshold (port : Fin 9) (lane : Fin 4)
  /-- R427: A lane finishes recalibration and returns; the next lane or port follows. -/
  | laneRecalComplete (pass : Bool)
  /-- R428: A lane losing lock or delivering 16 uncorrectable codewords in 1 ms is dropped; below two lanes the port goes down. -/
  | laneDrop (port : Fin 9) (lane : Fin 4)
  /-- R429: JOIN joins the package to the job with the configured identifier, dimensions, coordinate and context. -/
  | join (fn : Func)
  /-- R429: LEAVE removes the package from its job. -/
  | leave (fn : Func)
  /-- R432: Every 1,024 ticks the tick root floods a tick beacon. -/
  | beaconSend
  /-- R432: A beacon arrives and the package aligns its tick, or sets sync_lost if the correction exceeds 10 µs. -/
  | beaconReceive (count : DWord) (phase : Nat)
  /-- R433: A peer write arrives and is accepted and acknowledged, or refused with ADDR_FAULT. -/
  | peerWrite (src dst : Word) (addr : Nat) (bank : Fin 4) (data : List Byte)
  /-- R434: A write to COL_TABLE_COUNT while idle loads and checks the collective table. -/
  | colTableLoad (fn : Func) (value : Word)
  /-- R435: An entry's trigger leash barks; the engine subtracts trig_value and runs the collective. -/
  | collectiveRun (entry : Fin 1024)
  /-- R442: A collective chunk arrives, its digest and epoch are checked, and it is combined, relayed or delivered. -/
  | collectiveChunk (port : Fin 9) (dst : Word) (head payload : List Byte) (unitsDiffer : Bool)
  /-- R435: The result is delivered and acknowledged and done_vid is incremented. -/
  | collectiveComplete (entry : Fin 1024)
  /-- R450: Every 64 ticks the shepherd sends a heartbeat to its deputy. -/
  | shepherdHeartbeat
  /-- R450: The deputy receives no heartbeat for LNK_SHEPHERD_TIMEOUT and becomes shepherd. -/
  | shepherdTimeout
  /-- R469: A shepherd receives a member's failure record and orders it for a failure path. -/
  | failureRecord (row : Fin 16) (src other : Word) (srcStrikes otherStrikes : Nat)
  /-- R469: A PAUSE message sets FLT_JOB_STATE so that job step records wait. -/
  | pause (row : Fin 16)
  /-- R469: A RESUME message restores FLT_JOB_STATE to running once every path has finished. -/
  | resume (done : Option Word)
  /-- R452: TAKEOVER assigns a standby to a coordinate and neighbours move their port roles to port S. -/
  | takeover (coord : Word) (job : Option (Word × Word × Ctx))
  /-- R477: A shepherd receives the snapshot interval computed by the tick root. -/
  | cadenceRecord (interval : Fin 65536)
  /-- R457: A unit's fault report is sampled in its class and the unit is fenced with its rename, detour, retirement or fence. -/
  | faultReport (kind : Fin 8) (index : Nat) (cause : Fin 16)
  /-- R457: The fault manager writes the fault record to both NOR copies within 10 ms. -/
  | faultHistoryWrite
  /-- R459: A full fault log is compacted copy by copy. -/
  | faultLogCompact
  /-- R459: Once per service hour FLT_SERVICE_S is written to NOR. -/
  | serviceHour
  /-- R460: A core or router self-test ends and the unit is classified permanent or transient. -/
  | selfTestComplete (kind : Fin 8) (index : Nat) (pass : Bool)
  /-- R460: A transient unit's fence is lifted at the first tick its region is unbound. -/
  | fenceLift (kind : Fin 8) (index : Nat)
  /-- R462: FLT_CMD FENCE fences a unit with cause 0x0A. -/
  | softwareFence (fn : Func) (kind : Fin 16) (index : Fin 16777216)
  /-- R462: FLT_CMD RETEST runs a unit's self-test and classifies it without counting a strike. -/
  | retest (fn : Func) (kind : Fin 16) (index : Fin 16777216)
  /-- R463: A write to FLT_CTX_SENT_COUNT while idle loads and checks the sentinel list. -/
  | sentListLoad (fn : Func) (ctx : Ctx) (value : Word)
  /-- R465: The sampled instance becomes finish-ready and its tile is captured before its finish handler runs. -/
  | sentinelCapture (core : CoreRef)
  /-- R466: At the end-tally bark the fault manager runs each capture on a partner core. -/
  | sentinelPhaseStart (ctx : Ctx)
  /-- R467: A partner's output is compared with the original and the outcome decided. -/
  | sentinelCompare (core : CoreRef) (same : Bool) (second : Fin 3)
  /-- R470: No repaired folio is bound within FLT_REPAIR_TIMEOUT and the path becomes a takeover. -/
  | repairTimeout (src : Word)
  /-- R470: A port stays down for 1 s and one end of the link is taken over. -/
  | portDownTimeout (port : Fin 9)
  /-- R471: A package reports ready and the replicas push their parts of the committed bank. -/
  | fillReady (coord : Word) (live : List Word)
  /-- R471: The receiving package sets STEP, seed, tag base and layout epoch and checks the table digests. -/
  | fillValues (seed step : DWord) (tagBase : Tag) (layout : Word) (digests : List (List Byte))
  /-- R471: Every part is acknowledged and the fill completes. -/
  | fillComplete
  /-- R473: The drain of the committed bank ends and the slot's complete flag is set. -/
  | snapshotDrainComplete
  /-- R478: SNP_CMD RESTORE reads a slot, checks it and writes the committed bank, tables and values. -/
  | restore (fn : Func) (slot : Fin 64)
  /-- R478: A snapshot restore completes. -/
  | restoreComplete
  /-- R480: SNP_CMD REPLAY puts the package in replay mode up to SNP_REPLAY_END. -/
  | replay (fn : Func)
  /-- R494: Every 160 ns the sequencers close a tick and apply the sampled events in class order. -/
  | eventTick
  /-- R488: CLAIM(t) is granted if the lease is free or lapsed and t is later. -/
  | leaseClaim (half : Fin 2) (term : Word) (cyc : Fin 16)
  /-- R488: RENEW(t) extends the holder's expiry by 1 ms. -/
  | leaseRenew (half : Fin 2) (term : Word) (cyc : Fin 16)
  /-- R488: RELEASE makes the holder none. -/
  | leaseRelease (half : Fin 2)
  /-- R489: Every 100 µs the lead sends RENEW. -/
  | leaseRenewTimer (cyc : Fin 16)
  /-- R489: At its own expiry without a granted renewal the lead steps down. -/
  | leadExpiry
  /-- R489: Every 100 µs a non-lead half polls and claims a lapsed lease. -/
  | leasePoll (half : Fin 2) (cyc : Fin 16)
  /-- R490: A granted claim is sampled in class 3; the new lead takes the mirror and LEAD_W changes. -/
  | leadChange (half : Fin 2)
  /-- R491: A fatal management fault releases the lease and restarts the half. -/
  | mgmtFault (half : Fin 2)
  /-- R485: A controller watchdog not serviced for 250 µs raises a fatal management fault. -/
  | mgmtWatchdogExpiry (half : Fin 2)
  /-- R491: A restarted half becomes ready as follower. -/
  | halfReady (half : Fin 2)
  /-- R491: With no lead for 2 ms every bound region halts FENCED and FAULT_N asserts. -/
  | noLeadTimeout
  /-- R492: No half leads within 10 ms of leaving reset and FAULT_N asserts. -/
  | startupLeadTimeout
  /-- R487: The lead serves an MCTP or PLDM request, or answers ERROR_NOT_READY after a lead change. -/
  | mctpRequest (pcie : Bool) (body : List Byte) (term : Word) (update : Bool)
  /-- R501: UPDATE copies, verifies and installs a firmware image in both halves with a handover. -/
  | fwUpdate (fn : Func) (offline : Bool)
  /-- R501: HANDOVER makes the lead release and the follower claim. -/
  | handover (fn : Func)
  /-- R501: A half finishes writing and verifying its inactive slot and restarts into it. -/
  | fwCopyComplete (half : Fin 2) (good : Bool)
  /-- R502: A restarted half not ready within 200 ms falls back and the update fails. -/
  | fwReadyTimeout (half : Fin 2)
  /-- R502: A fatal fault within 10 s of readiness falls back and the update fails. -/
  | fwProbationFault (half : Fin 2)
  /-- R503: Every 128 ms one stack's PHY is recalibrated with its accesses held. -/
  | hbmPhyRecal (stack : Fin 16)
  /-- R503: Every service hour the follower controller self-tests. -/
  | followerSelfTest
  /-- R513: SEC_KEY_CMD ENROL enrols a folio-signing key while unlocked. -/
  | enrol (fn : Func)
  /-- R510: SEC_KEY_CMD SVN_COMMIT burns SVN fuses up to the running images' svn. -/
  | svnCommit (fn : Func)
  /-- R513: Setting SEC_STATUS.key_lock freezes the key set and extends M4. -/
  | keyLock (fn : Func)
  /-- R515: A write to SEC_EXPECT_COUNT loads the expected-identity table. -/
  | expectTableLoad (fn : Func) (value : Word)
  /-- R516: The shepherd sends a nonce to a package at JOIN, takeover or a new digest. -/
  | identityChallenge (coord : Word) (nonce : Option (List Byte))
  /-- R516: A challenge response arrives and the package is admitted or held with a reason. -/
  | challengeResponse (coord : Word) (digest : List Byte) (good : Bool)
  /-- R516: No response within 50 ms holds the package as silent. -/
  | challengeSilentTimeout (coord : Word)
  /-- R517: A class 1 violation erases derived keys, halts regions FENCED and asserts FAULT_N. -/
  | securityViolation (half : Fin 2)
  /-- R511: The lead answers SPDM GET_VERSION. -/
  | getVersion
  /-- R511: The lead answers SPDM GET_CAPABILITIES. -/
  | getCapabilities
  /-- R511: The lead negotiates ML-DSA-87 and SHA3-512. -/
  | negotiateAlgorithms (mldsa87 sha3_512 : Bool)
  /-- R511: The lead returns the certificate chain digests of slot 0. -/
  | getDigests
  /-- R511: The lead returns the certificate chain of slot 0. -/
  | getCertificate (slot offset len : Nat)
  /-- R511: The lead answers an SPDM CHALLENGE signed with the alias key. -/
  | challenge (slot : Nat) (req : List Byte)
  /-- R511: The lead returns measurements M0 to M5 signed with the alias key. -/
  | getMeasurements (index : Byte) (sign : Bool) (req : List Byte)
  /-- R522: A rail trip is sampled in class 0 and fences cores, a die, stacks or ports, or trips the package. -/
  | railTrip (rail : Fin 17)
  /-- R525: A reference clock is lost and the package trips, ports go down, or clocks fall back. -/
  | refclkLoss (ref : Fin 4)
  /-- R527: A sag sensor reads below threshold and the region's sag level falls to 22 or 16. -/
  | sagSensorLow (p : Region) (deep : Bool)
  /-- R527: Every 0.5 µs after recovery the sag level rises by one. -/
  | sagLevelRise (p : Region)
  /-- R528: SAG_IN_N falling caps every region at PWR_SAG.in_level. -/
  | sagInFall
  /-- R528: SAG_IN_N high for 1 µs begins the rise of the sag level. -/
  | sagInRise
  /-- R529: Package power over 3,600 W in 1 µs sets the peak level to 22. -/
  | peakPower
  /-- R529: Power below 3,400 W for 1 µs lets the peak level rise. -/
  | peakRecovery
  /-- R530: Every 1 ms the 10 ms mean is compared with PWR_TARGET and cap levels move. -/
  | powerTargetCompare (mean : Nat)
  /-- R531: The thermal level falls every 1 ms above target or rises every 10 ms below it. -/
  | thermalLevelUpdate (temps : List Byte)
  /-- R531: A die sensor at 110 °C or a stack at 100 °C trips the package with THERMTRIP_N. -/
  | thermalTrip (sensor : Fin 20) (reading : Byte)
  /-- R534: Each tick rail, package and region energy counters advance. -/
  | energyTick (rails core base : List Nat)
  /-- R537: Power-up starts: PLLs lock, fuses are sensed and boot, NOR load and HBM training begin. -/
  | pwrokRise
  /-- R535: A cold reset resets everything. -/
  | pwrokFall
  /-- R535: PERST_N low for 1 ms begins a package reset. -/
  | perstFall
  /-- R535: PWR_CMD RESET performs a package reset. -/
  | pwrReset (fn : Func)
  /-- R537: The fence map and fault history are loaded and applied and configuration requests are answered. -/
  | norLoadComplete (badA badB : List Nat)
  /-- R537: Stack training ends and HBM zeroing starts. -/
  | hbmTrainingComplete
  /-- R508: A half verifies its image, starts it and claims term 1. -/
  | halfBootComplete (half : Fin 2) (a b : Bool) (cyc : Fin 16)
  /-- R543: The host port trains to the highest common rate and width. -/
  | pcieLinkUp (rate : Fin 5) (width : Nat)
  /-- R544: The host link goes down; host windows are refused and MSI-X held. -/
  | pcieLinkDown
  /-- R545: A Hot Reset or Link Disable retrains the link only. -/
  | hotReset (rate : Fin 5) (width : Nat)
  /-- R550: A virtual-function FLR destroys its context and clears its host-interface state. -/
  | vfFlr (fn : Func)
  /-- R550: A physical-function FLR is a package reset. -/
  | pfFlr
  /-- R549: A function enters D3hot or returns to D0, sending held MSI-X on return. -/
  | powerStateChange (fn : Func) (d3 : Bool)
  /-- R537: A configuration request is answered, or retried with CRS during the NOR load. -/
  | configRequest (fn : Func) (req : ConfigReq)
  /-- R553: A host read through BAR2 reaches device memory or reads all ones. -/
  | apertureRead (fn : Func) (off : Fin 4294967296) (len bad : Nat) (fails : Fin 3) (poison : Bool)
  /-- R553: A host write through BAR2 is posted, with a read-merge-write for a partial line. -/
  | apertureWrite (fn : Func) (off : Fin 4294967296) (data : List Byte)
  /-- R555: A translation entry write applies to packets issued after it completes. -/
  | hifXlatWrite (who view : Func) (entry : Fin 16384) (value : DWord)
  /-- R556: A host completion returns for a device request, with errors mapped to ADDR_FAULT or MEM_ERROR. -/
  | dmaCompletion (p : Region) (ch : Fin 16) (slot : Fin 10) (n : Nat) (resp : Fin 3)
  /-- R556: No completion within 50 ms ends the request with MEM_ERROR. -/
  | dmaTimeout (p : Region) (ch : Fin 16) (slot : Fin 10) (n : Nat)
  /-- R560: An MSI-X message is sent after its record and cpl_tail. -/
  | msixSend
  /-- R559: Vector 0 fires when an alert, last-event valid bit or lead change sets. -/
  | packageEventVector
  /-- R561: An MCTP vendor-defined message is forwarded to the lead. -/
  | mctpPcieMessage (body : List Byte) (term : Word)
  /-- R561: A DOE object carrying SPDM is served by the lead. -/
  | doeObject (body : List Byte) (spdm : Bool) (term : Word)
  /-- R434: The collective table load ends within 10 µs with COL_STATUS ok or rejected. -/
  | colTableLoadComplete
  /-- R463: The sentinel list load ends with FLT_CTX_SENT_STATUS ok or rejected. -/
  | sentListLoadComplete (ctx : Ctx)
  /-- R515: The shepherd's expected-identity table load ends within 1 ms and held packages are re-judged at the next tick. -/
  | expectTableLoadComplete
  /-- R389: A write of CTX_RING_CONFIG either starts polling at the next tick or, with a size code above 8, leaves enable at 0 and sets CTX_PSTATE.ring_fault. -/
  | ctxRingConfigWrite (fn : Func) (ctx : Ctx) (value : Word)
  /-- R537: PERST_N rising starts power-up, or the package-reset sequence from fuse sensing, and drives THERMTRIP_N low again if the trip latch is set. -/
  | perstRise
  /-- R525: A lost reference clock returns, letting ports that went down with it retrain and the PCIe link retrain by itself. -/
  | refclkReturn (ref : Fin 4)
  /-- R544: AVDD_SD_E or AVDD_SD_W comes back into its range after a trip, and the ports and PCIe link of that side retrain. -/
  | avddSdReturn (side : Fin 2)
  /-- R525: SCLK, MCLK or HCLK finishes switching to REFCLK_SD_W within 50 µs, and the accesses held during the switch are released. -/
  | clockFallbackComplete (clock : Fin 3)
  /-- R503: A stack's PHY recalibration ends within 1 µs and the accesses held at its memory ports proceed. -/
  | hbmPhyRecalComplete (stack : Fin 16)
  /-- R470: A package whose tick sync is not regained within 1 s of sync_lost takes the fill-in-place failure path. -/
  | tickSyncTimeout
  /-- R558: Software clears a vector mask or the function mask and any pending MSI-X message for that vector is sent. -/
  | msixUnmask (fn : Func) (vector : Option (Fin 256))
  /-- R539: A TCK edge or TRST_N change moves the IEEE 1149.1 TAP, which drives TDO only in Shift-IR and Shift-DR while PWROK and PERST_N are high. -/
  | tapTckEdge (rising tms tdi trst : Bool)
  /-- R580: Pilot writes a + b modulo 2^32 to the destination register. -/
  | add (core : CoreRef)
  /-- R580: Pilot writes a − b modulo 2^32 to the destination register. -/
  | sub (core : CoreRef)
  /-- R580: Pilot writes the bitwise AND of two registers. -/
  | andInsn (core : CoreRef)
  /-- R580: Pilot writes the bitwise OR of two registers. -/
  | orInsn (core : CoreRef)
  /-- R580: Pilot writes the bitwise XOR of two registers. -/
  | xorInsn (core : CoreRef)
  /-- R580: Pilot shifts a left by b[4:0]. -/
  | shl (core : CoreRef)
  /-- R580: Pilot shifts a right logically by b[4:0]. -/
  | shr (core : CoreRef)
  /-- R580: Pilot shifts a right arithmetically by b[4:0]. -/
  | sra (core : CoreRef)
  /-- R580: Pilot writes 1 if a < b as signed integers, else 0. -/
  | slt (core : CoreRef)
  /-- R580: Pilot writes 1 if a < b as unsigned integers, else 0. -/
  | sltu (core : CoreRef)
  /-- R580: Pilot adds the sign-extended immediate to a. -/
  | addi (core : CoreRef)
  /-- R580: Pilot ANDs a with the zero-extended immediate. -/
  | andi (core : CoreRef)
  /-- R580: Pilot shifts a left by imm[4:0]. -/
  | shli (core : CoreRef)
  /-- R580: Pilot shifts a right logically by imm[4:0]. -/
  | shri (core : CoreRef)
  /-- R580: Pilot loads the zero-extended 16-bit immediate. -/
  | li (core : CoreRef)
  /-- R580: Pilot places the immediate in bits [31:16] and keeps a[15:0]. -/
  | lui (core : CoreRef)
  /-- R581: Pilot branches by a relative offset when two registers are equal. -/
  | beq (core : CoreRef)
  /-- R581: Pilot branches by a relative offset when two registers differ. -/
  | bne (core : CoreRef)
  /-- R581: Pilot branches when the first register is less as a signed integer. -/
  | blt (core : CoreRef)
  /-- R581: Pilot branches when the first register is less as an unsigned integer. -/
  | bltu (core : CoreRef)
  /-- R581: Pilot jumps to an absolute program-store index. -/
  | jmp (core : CoreRef)
  /-- R68: Handler ends; an issue handler moves its instance to in engines or finish-ready, and a finish handler retires it, releasing slots and credits. -/
  | done (core : CoreRef)
  /-- R581: Pilot loads an aligned 32-bit scratchpad word, faulting with bad_address if misaligned or out of range. -/
  | ldw (core : CoreRef)
  /-- R581: Pilot stores an aligned 32-bit scratchpad word, faulting with bad_address if misaligned or out of range. -/
  | stw (core : CoreRef)
  /-- R74: Pilot queues a tensor command naming a loop descriptor, operand formats and base registers. -/
  | tens (core : CoreRef)
  /-- R77: Pilot queues a vector command naming a descriptor, vector operation, result format and rounding. -/
  | vect (core : CoreRef)
  /-- R78: Pilot queues a data movement or fill command on the movement queue. -/
  | loop (core : CoreRef)
  /-- R79: Pilot sends one token on an output of the running instance, or faults with oversize or bad_address. -/
  | tsend (core : CoreRef)
  /-- R80: Pilot sends a tally increment to the herding unit without waiting. -/
  | herdIncrement (core : CoreRef)
  /-- R80: Pilot sends a tally decrement to the herding unit without waiting. -/
  | herdDecrement (core : CoreRef)
  /-- R293: Pilot sends a tally read and holds until the value arrives in s12. -/
  | herdRead (core : CoreRef)
  /-- R293: The tally value of a HERD read arrives in s12 and the pilot resumes. -/
  | herdReadReply (core : CoreRef)
  /-- R81: With a pre-emption pending the core stops dispatching, waits for its queues to empty and reports the manifest index; otherwise no effect. -/
  | yield (core : CoreRef)
  /-- R83: A handler reaches 4,096 instructions without DONE and the core takes a program fault with cause watchdog. -/
  | watchdog (core : CoreRef)
  /-- R61: A token header reaches a core and is admitted, held back, diverted, or discarded with a dup_token, bad_token or oversize fault. -/
  | tokenArrival (n : Nat)
  /-- R64: All data of a port has been written to its slot, setting the landed bit and possibly making the instance ready. -/
  | tokenDataLanded (n : Nat)
  /-- R66: With the pilot free, the matcher selects one dispatchable instance and starts its issue or finish handler. -/
  | matcherDispatch (core : CoreRef)
  /-- R63: The matcher retires an all-null dispatchable instance, sending null tokens on every output. -/
  | nullRetire (core : CoreRef)
  /-- R84: An engine takes the next queued command and begins its first group, element or beat. -/
  | engineCommandStart (core : CoreRef) (engine : Fin 3)
  /-- R68: The last engine command of an issue handler completes and the instance becomes finish-ready. -/
  | engineCommandComplete (core : CoreRef) (engine : EngineEnd)
  /-- R111: After a tile's last group the accumulator banks swap once the drain bank is empty and the drain begins. -/
  | accumulatorBankSwap (core : CoreRef)
  /-- R83: A program fault is sampled in class 6 at the next tick; the region halts, stops and reports PROGRAM_FAULT. -/
  | programFaultHalt (core : CoreRef)
  deriving DecidableEq, Repr

end Sys2Proof
end

