-- ==== Sys2Proof/Decode.lean ====
section
/-! DEFINITION. Decode.lean: the decoder the host asks for (no row of the command table has bits, so it answers none), and
the pilot's instruction words (R73, R580, R581, R74 to R81): decoder and encoder from the same encoding tables. -/

namespace Sys2Proof

/-- The register-form scalar instructions (R580). -/
inductive AluR where
  | add | sub | and | or | xor | shl | shr | sra | slt | sltu
  deriving DecidableEq, Repr

/-- The immediate-form scalar instructions with a source (R580). -/
inductive AluI where
  | addi | andi | shli | shri | lui
  deriving DecidableEq, Repr

/-- The branches (R581). -/
inductive Br where
  | beq | bne | blt | bltu
  deriving DecidableEq, Repr

/-- A pilot instruction, its fields pulled out. -/
inductive PilotInsn where
  | alu (f : AluR) (d a b : BitVec 4)
  | alui (f : AluI) (d a : BitVec 4) (imm : BitVec 16)
  | li (d : BitVec 4) (imm : BitVec 16)
  | br (f : Br) (a b : BitVec 4) (off : BitVec 12)
  | jmp (target : BitVec 10)
  | done
  | ldw (d a : BitVec 4) (imm : BitVec 16)
  | stw (v a : BitVec 4) (imm : BitVec 16)
  | tens (desc : BitVec 6) (fa fb sa sb sc : BitVec 4)
  | vect (desc vop : BitVec 6) (fmt : BitVec 4) (rnd : BitVec 2) (sn sd : BitVec 4)
  | loop (desc : BitVec 6) (kind width ss sd : BitVec 4)
  | tsend (out : BitVec 3) (null : BitVec 1) (delta : BitVec 2) (len addr : BitVec 4)
  | herd (act : BitVec 2) (cnt : BitVec 4) (vid : BitVec 20)
  | yield (manifest : BitVec 16)
  deriving DecidableEq, Repr

/-- Opcode of a register-form instruction (R580). -/
def AluR.code : AluR → Nat
  | .add => 0 | .sub => 1 | .and => 2 | .or => 3 | .xor => 4 | .shl => 5 | .shr => 6 | .sra => 7 | .slt => 8 | .sltu => 9

/-- Opcode of an immediate-form instruction (R580). -/
def AluI.code : AluI → Nat
  | .addi => 10 | .andi => 11 | .shli => 12 | .shri => 13 | .lui => 15

/-- Opcode of a branch (R73). -/
def Br.code : Br → Nat
  | .beq => 16 | .bne => 17 | .blt => 18 | .bltu => 19

/-- The fields of an instruction word as (number of places to the left, value). -/
def wordOf (fs : List (Nat × Nat)) : Word := BitVec.ofNat 32 ((fs.map fun f => f.2 * 2 ^ f.1).foldr (· + ·) 0)

/-- The word of a pilot instruction. -/
def encodePilot : PilotInsn → Word
  | .alu f d a b => wordOf [(26, f.code), (22, d.toNat), (18, a.toNat), (14, b.toNat)]
  | .alui f d a imm => wordOf [(26, f.code), (22, d.toNat), (18, a.toNat), (0, imm.toNat)]
  | .li d imm => wordOf [(26, 14), (22, d.toNat), (0, imm.toNat)]
  | .br f a b off => wordOf [(26, f.code), (22, a.toNat), (18, b.toNat), (0, off.toNat)]
  | .jmp t => wordOf [(26, 0x14), (0, t.toNat)]
  | .done => wordOf [(26, 0x17)]
  | .ldw d a imm => wordOf [(26, 0x18), (22, d.toNat), (18, a.toNat), (0, imm.toNat)]
  | .stw v a imm => wordOf [(26, 0x19), (22, v.toNat), (18, a.toNat), (0, imm.toNat)]
  | .tens desc fa fb sa sb sc =>
    wordOf [(26, 0x20), (20, desc.toNat), (16, fa.toNat), (12, fb.toNat), (8, sa.toNat), (4, sb.toNat), (0, sc.toNat)]
  | .vect desc vop fmt rnd sn sd =>
    wordOf [(26, 0x21), (20, desc.toNat), (14, vop.toNat), (10, fmt.toNat), (8, rnd.toNat), (4, sn.toNat), (0, sd.toNat)]
  | .loop desc kind width ss sd =>
    wordOf [(26, 0x22), (20, desc.toNat), (16, kind.toNat), (12, width.toNat), (4, ss.toNat), (0, sd.toNat)]
  | .tsend out null delta len addr =>
    wordOf [(26, 0x24), (23, out.toNat), (22, null.toNat), (20, delta.toNat), (4, len.toNat), (0, addr.toNat)]
  | .herd act cnt vid => wordOf [(26, 0x28), (24, act.toNat), (20, cnt.toNat), (0, vid.toNat)]
  | .yield m => wordOf [(26, 0x2C), (0, m.toNat)]

open Machine (bits) in
/-- A field of a word as a bit vector of n bits from place lo. -/
def fieldAt (w : Word) (n lo : Nat) : BitVec n := BitVec.ofNat n (bits w.toNat (lo + n - 1) lo)

open Machine (bits) in
/-- The pilot instruction of a word: none for a reserved opcode or a nonzero reserved field (R73, R82). Format, kind, width,
rnd and tally-operation codes are judged by the static rules, not here. -/
def decodePilot (w : Word) : Option PilotInsn :=
  let v := w.toNat
  let d := fieldAt w 4 22
  let a := fieldAt w 4 18
  let regForm (f : AluR) : Option PilotInsn := if bits v 13 0 = 0 then some (.alu f d a (fieldAt w 4 14)) else none
  let immForm (i : PilotInsn) : Option PilotInsn := if bits v 17 16 = 0 then some i else none
  let imm := fieldAt w 16 0
  let brForm (f : Br) : Option PilotInsn := if bits v 17 12 = 0 then some (.br f d a (fieldAt w 12 0)) else none
  match v / 2 ^ 26 with
  | 0 => regForm .add | 1 => regForm .sub | 2 => regForm .and | 3 => regForm .or | 4 => regForm .xor
  | 5 => regForm .shl | 6 => regForm .shr | 7 => regForm .sra | 8 => regForm .slt | 9 => regForm .sltu
  | 10 => immForm (.alui .addi d a imm) | 11 => immForm (.alui .andi d a imm)
  | 12 => immForm (.alui .shli d a imm) | 13 => immForm (.alui .shri d a imm)
  | 14 => if bits v 21 16 = 0 then some (.li d imm) else none
  | 15 => immForm (.alui .lui d a imm)
  | 16 => brForm .beq | 17 => brForm .bne | 18 => brForm .blt | 19 => brForm .bltu
  | 20 => if bits v 25 10 = 0 then some (.jmp (fieldAt w 10 0)) else none
  | 23 => if bits v 25 0 = 0 then some .done else none
  | 24 => immForm (.ldw d a imm)
  | 25 => immForm (.stw d a imm)
  | 32 => some (.tens (fieldAt w 6 20) (fieldAt w 4 16) (fieldAt w 4 12) (fieldAt w 4 8) (fieldAt w 4 4) (fieldAt w 4 0))
  | 33 => some (.vect (fieldAt w 6 20) (fieldAt w 6 14) (fieldAt w 4 10) (fieldAt w 2 8) (fieldAt w 4 4) (fieldAt w 4 0))
  | 34 => if bits v 11 8 = 0
    then some (.loop (fieldAt w 6 20) (fieldAt w 4 16) (fieldAt w 4 12) (fieldAt w 4 4) (fieldAt w 4 0)) else none
  | 36 => if bits v 19 8 = 0
    then some (.tsend (fieldAt w 3 23) (fieldAt w 1 22) (fieldAt w 2 20) (fieldAt w 4 4) (fieldAt w 4 0)) else none
  | 40 => some (.herd (fieldAt w 2 24) (fieldAt w 4 20) (fieldAt w 20 0))
  | 44 => if bits v 25 16 = 0 then some (.yield imm) else none
  | _ => none

/-- The command that a word spells by the bits of spec/opcode_table.json: no row gives bits. -/
def decodeTableWord (_nbits _w : Nat) : Option Instr := none

end Sys2Proof
end

