-- ==== Sys2Proof/Config.lean ====
section
/-! DEFINITION. Config.lean: what the spec names without giving its value: functions it takes from outside documents
(digests, signatures, check codes) and the free values. None has a body the kernel can open: a claim holds whatever they are. -/

namespace Sys2Proof.Config

/-- A value the spec leaves open, drawn by the counter `fresh` of the state (DESIGN CHOICE, log entry 3): nothing constrains it. -/
opaque freeValue (w : Nat) : Nat → BitVec w

/-- Where CVTMX writes the scale code of a block (DESIGN CHOICE, log entry 10): R99 says that the descriptor gives the scale array's
address, and no field of it does; the argument is the block's own result address. -/
opaque cvtmxScaleAddr : Nat → Nat

/-- Byte i of what a combine makes of the bytes beyond the whole elements of its two contributions (DESIGN CHOICE, log entry 145):
R179 gives the combine of whole elements alone. -/
opaque combineRest (op : Nat) (left right : List Byte) : Nat → Byte

/-- The INT32 that a result of a wire format gives where no INT32 is nearest to it (DESIGN CHOICE, log entry 167): a function of the
operand, since equal inputs give equal bits (R7, R440). -/
opaque int32Of (wire value : Nat) : Word

/-- SHA3-512 (R194, R195, R508): the manual names the function and does not give it. 64 bytes. -/
opaque sha3 : List Byte → List Byte
/-- ML-DSA-87 signature check of a digest under a public key (R195, R508). -/
opaque mldsaVerify (key digest signature : List Byte) : Bool
/-- ML-DSA-87 signature of a message under the key pair generated from a 32 B seed (R506, R511, R516). -/
opaque mldsaSign (seed message : List Byte) : List Byte
/-- The 2,592 B public key of the key pair generated from a 32 B seed (R506). -/
opaque mldsaPublic (seed : List Byte) : List Byte
/-- The alias certificate that the lead builds: the alias public key, the measurements, signed under a 32 B seed (R507). -/
opaque aliasCert (seed aliasKey measurements : List Byte) : List Byte
/-- What an SPDM 1.3 responder signs (R511): the transcript's form is that standard's. -/
opaque spdmTranscript (request response : List Byte) : List Byte
/-- Fields of a firmware image (R500, R508): their places in it are not given. -/
opaque imageSvn (image : List Byte) : Nat
opaque imageMirror (image : List Byte) : Nat
/-- The boot ROM, and the bytes of SVN and grade, that M0 and M3 are extended with (R509). -/
opaque bootRom : List Byte
opaque svnGradeBytes (svn grade : Nat) : List Byte
/-- The CRC-64 of a collective digest (R442): start value and reflection are not given. -/
opaque crc64 : List Byte → DWord
/-- The CRC-32C of a link or snapshot part (R424, R473): start value and reflection are not given. -/
opaque crc32c : List Byte → Word

end Sys2Proof.Config
end

