-- ==== Sys2Proof/Machine/Regs.lean ====
section
/-! DEFINITION. Machine/Regs.lean: every register of BAR0 (R20) with its place, width, fields, access types (R15), reset
values (R18) and who sees it, transcribed from the register tables of the chapters (the rule stands beside each). -/

namespace Sys2Proof.Machine

/-- The access types of R15. -/
inductive Access where
  | rw | ro | w1c | w1s | rc | wo
  deriving DecidableEq, Repr

/-- Who sees a register: every function (each its own copy or the shared one), the physical function alone, the virtual
function of the context it is a copy for, of the job's context, or of the context its region is bound to (R94, R190, R222,
R253; the fetcher block keeps slots 8 and 9 to the physical function). -/
inductive Vis where
  | all | pf | ctx | job | region | chan | noc | core | slot
  deriving DecidableEq, Repr

/-- The registers, by the names of their tables. -/
inductive Reg where
  | DEV_ID | HIF_STATUS | HIF_CONFIG | HIF_BAD_ACCESS | HIF_DMA_ERRORS | HIF_DMA_READ_BYTES | HIF_DMA_WRITE_BYTES
  | HIF_LINK_DOWNS | HIF_APERTURE | HIF_XLAT | HIF_MSIX_TABLE | HIF_MSIX_PBA | CTX_STATUS | CTX_ADMIN
  | CTX_ADMIN_STATUS | CTX_PREEMPT | CTX_REGION_RESERVE | CTX_CONFIG | CTX_RING_BASE | CTX_CPL_BASE | CTX_CTRL_BASE
  | CTX_RING_CONFIG | CTX_PSTATE | CTX_SAVE_BASE | CTX_SAVE_SIZE | CTX_MANIFEST_BASE | CTX_MANIFEST_COUNT
  | CTX_PREEMPT_DEADLINE | CTX_SUB_HEAD | CTX_CPL_TAIL | CTX_CPL_LOST | CTX_PREEMPTS | CTX_FORCED
  | CTX_LAST_PREEMPT_TICKS | CTX_ACC_REGION_TICKS | CTX_ACC_TENSOR | CTX_ACC_VECTOR | CTX_ACC_FETCH_BYTES
  | CTX_ACC_TIER_BYTES | CTX_ACC_LINK_BYTES | CTX_ACC_SAVE_BYTES | CTX_ACC_ENERGY_UJ | CTX_STEP | CTX_STEP_STATE
  | CTX_HEALTH | CTX_BANK_BASE | CTX_BANK_SIZE | CTX_BANK_DELTA | CTX_LAYOUT_EPOCH | CTX_PENDING_EPOCH
  | CTX_COMMIT_MARGIN | CTX_VOTE_TIMEOUT | CTX_STEP_START | CTX_VOTE_TICK | CTX_FLIP_TICK | CTX_COMMITS | CTX_ABORTS
  | CTX_LATE_FLIPS | CTX_IN_DOUBT | CTX_RESHARDS | CTX_TAG_BASE | MGT_STATUS | MGT_TERM | MGT_TICK | MGT_FW_IMAGE
  | MGT_FW_LEN | MGT_FW_CMD | MGT_FW_STATUS | MGT_SAT | MGT_LEAD_CHANGES | MGT_MGMT_FAULTS | MGT_TICK_OVERRUN
  | MGT_FW_UPDATES | MGT_CLASS_EVENTS | SEC_STATUS | SEC_KEY_CMD | SEC_KEY_STATUS | SEC_KEY_ADDR | SEC_EXPECT_BASE
  | SEC_EXPECT_COUNT | SEC_LAST_HELD | SEC_ID_DIGEST | SEC_MEAS | SEC_KEY_ID | SEC_FOLIO_CHECKS | SEC_AUTH_FAILS
  | SEC_CHALLENGES | SEC_HELD | SEC_VIOLATIONS | PWR_STATUS | PWR_CMD | PWR_TARGET | PWR_TJ | PWR_SAG | PWR_ALERT
  | PWR_POWER | PWR_PACKAGE_ENERGY_UJ | PWR_TEMP | PWR_REGION_ACLK | PWR_RAIL_ENERGY_UJ | PWR_REGION_ENERGY_UJ
  | PWR_REGION_SAG_EVENTS | PWR_REGION_STRETCH_TICKS | PWR_REGION_CAP_TICKS | FLT_STATUS | FLT_JOB_STATE | FLT_CMD
  | FLT_CMD_STATUS | FLT_REPAIR_TIMEOUT | FLT_SERVICE_S | FLT_LAST | FLT_CORE_FENCE | FLT_ROUTER_FENCE | FLT_STRIKES
  | FLT_TRANSIENT | FLT_PERMANENT | FLT_SELFTESTS | FLT_SENT_RUNS | FLT_SENT_MISMATCH | FLT_SENT_UNATTRIBUTED
  | FLT_SENT_SKIPPED | FLT_CTX_SENT_BASE | FLT_CTX_SENT_AREA | FLT_CTX_SENT_COUNT | FLT_CTX_SENT_STATUS
  | FLT_CTX_SENT_WINDOW | FLT_CTX_SENT_PERIOD | SNP_STATUS | SNP_CMD | SNP_CMD_STATUS | SNP_CONFIG | SNP_TARGET_BASE
  | SNP_SLOT_SIZE | SNP_SLOTS | SNP_PRIOR_FIT | SNP_COST_US | SNP_MAX_INTERVAL | SNP_INTERVAL | SNP_JOURNAL_COUNT
  | SNP_JOURNAL_BASE | SNP_NEWEST | SNP_ANCHOR | SNP_REPLAY_END | SNP_TAKEN | SNP_BYTES | SNP_STALL_TICKS
  | SNP_JOURNAL_MISMATCH | SNP_FILLS | SNP_RESTORES | SNP_SLOT_STEP | NUM_STATUS | NUM_AMAX_REPORTS | NUM_UNMAPPED
  | NUM_INF_AMAX | NUM_NF_REPORTS | NUM_RATIO_DISCARDS | NUM_OVER_SCALE | NUM_CTX_SEED | NUM_CTX_MAP_BASE
  | NUM_CTX_MAP_COUNT | NUM_CTX_MAP_STATUS | NUM_CTX_BLOCK_OFFSET | NUM_CTX_WORK_BASE | NUM_CTX_STATS_BASE
  | NUM_CTX_STATS_DEPTH | NUM_CTX_NF_WHERE | NUM_CTX_NF_TENSOR | NUM_CTX_NF_BATCH | NUM_CTX_NF_STEP | NUM_CTX_NF_TICK
  | NUM_CTX_NF_COUNT | FIN_STATUS | FIN_MOVED_BYTES | FIN_TRUNCATED | FIN_DISCARDS | FIN_CTX_TABLE_BASE
  | FIN_CTX_TABLE_COUNT | FIN_CTX_TABLE_STATUS | FIN_CTX_MOVER_BASE | FIN_CTX_MOVER_COUNT | FIN_CTX_DONE_VID
  | FIN_CTX_FALLBACK_BLOCKS | FIN_SINGULAR_COUNT | FIN_ZERO_DENOM | LNK_STATUS | LNK_JOB_CMD | LNK_JOB_ID
  | LNK_JOB_DIMS | LNK_JOB_COORD | LNK_JOB_CTX | LNK_FLOCK | LNK_SEGMENT | LNK_SHEPHERD_TIMEOUT | LNK_RECAL_HOURS
  | LNK_TICK | LNK_PORT_CFG | LNK_PORT_STATUS | LNK_TX_BYTES | LNK_RX_BYTES | LNK_REPLAYS | LNK_FEC_CORRECTED
  | LNK_FEC_UNCORRECTED | LNK_RECALS | LNK_LANE_DROPS | COL_STATUS | COL_TABLE_BASE | COL_TABLE_COUNT
  | COL_LAST_MISMATCH | COL_RUNS | COL_BYTES_SENT | COL_DIGEST_MISMATCH | COL_EPOCH_STALE | COL_PARKED | COL_OVERFLOW
  | MEM_STATUS | MEM_SCRUB_HOURS | MEM_RETIRE_LIMIT | MEM_LAST_DETECT | MEM_STACK_RETIRED | MEM_READ_BYTES
  | MEM_WRITE_BYTES | MEM_RETRY_OK | MEM_AT_REST | MEM_QUAD_MODE | MEM_PAGE | TIR_CONFIG | TIR_POOL_COUNT
  | TIR_POOL_BASE | TIR_PORT_STATUS | TIR_LOADS | TIR_EVICTIONS | TIR_LOAD_BYTES | TIR_WRITEBACK_BYTES | TIR_NO_SPACE
  | TIR_HOLD_NCLK | TIR_LOST_SUBBLOCKS | TIR_POISON_READS | TIR_CMD | TIR_CMD_STATUS | TIR_CTX_QUOTA | TIR_EXTENT
  | TIR_SLOT | TIR_SLOT_DIRTY | HRD_STATUS | HRD_STANDOFF_US | HRD_LAST_STANDOFF | HRD_CMD_IMAGE | HRD_CMD
  | HRD_CMD_STATUS | HRD_CMD_RESULT | HRD_OPS | HRD_BARKS | HRD_OVERDRAWS | HRD_SATURATIONS | HRD_ORPHAN_OPS
  | HRD_STANDOFF_BREAKS | HRD_STANDOFF_FAULTS | HRD_STANDOFF_SPILL_BYTES | HRD_RESERVE | HRD_RESERVE_BASE
  | HRD_RESERVE_SIZE | HRD_RESERVE_USED | HRD_TALLY | FCH_SLOT_IMAGE | FCH_SLOT_CMD | FCH_SLOT_STATUS | FCH_SLOT_DONE
  | FCH_SLOT_FAULT_ADDR | FCH_CH_BYTES_READ | FCH_CH_BYTES_WRITE | FCH_CH_BYTES_REMOTE | FCH_CH_REARM_OVERWRITE
  | FCH_CH_DEADLINE_MISS | FCH_CH_DISCARDS | FCH_CH_CREDIT_WAIT | FCH_MODE | BND_STATUS | BND_DRAIN_TIMEOUT
  | BND_EPOCH_NEXT | BND_LAST_REJECT | BND_STORE_FREE | BND_BINDS | BND_REJECTS | BND_DRAIN_TIMEOUTS
  | BND_REGION_STATE | BND_REGION_DISCARDS | BND_REGION_STALE | NOC_STATUS | NOC_REMAP | NOC_STREAM_FLITS
  | NOC_COURIER_FLITS | NOC_DETOURS | NOC_DISCARDS | NOC_STRAGGLER_COPIES | NOC_SKEW_DIVERT | NOC_SKEW_SPILL_BYTES
  | NOC_HOLD_CYCLES | NOC_STRAGGLER_EVENT | NOC_SPILL_BASE | NOC_SPILL_SIZE | NOC_REGION_SKEW_SPILL | NOC_SLOT
  | NOC_GROUP | NOC_NODE | CORE_STATUS | CORE_FAULT | CORE_FIRE_COUNT | CORE_NULL_COUNT | CORE_LATE_STALL
  | CORE_LATE_EVENT | CORE_ENGINE_STALL | CORE_BANK_CONFLICT | CORE_TENSOR_BUSY | CORE_VECTOR_BUSY | CORE_MATCH_ENTRY
  deriving DecidableEq, Repr

/-- A field of a register: bits [hi:lo], its access type and its reset value (R14). Values loaded from fuses or NOR are
zero here and come from State (DESIGN CHOICE, log entry 4). -/
structure Fld where
  reg : Reg
  hi : Nat
  lo : Nat
  acc : Access := .ro
  reset : Nat := 0
  deriving DecidableEq, Repr

/-- Where a register lies (R20): base offset, the copies (count and stride of each dimension, outermost first), whether each
function has its own copy, its width, who sees it, whether a row of the command table of its own writes it, its fields. -/
structure RegInfo where
  base : Nat
  dims : List (Nat × Nat)
  perFn : Bool
  wide : Bool
  vis : Vis
  own : Bool
  fields : List Fld

/-! Fields of the tables of R566. -/
abbrev DEV_ID.grade : Fld := { reg := .DEV_ID, hi := 7, lo := 4 }
abbrev DEV_ID.revision : Fld := { reg := .DEV_ID, hi := 15, lo := 8 }
abbrev DEV_ID.part : Fld := { reg := .DEV_ID, hi := 31, lo := 16, reset := 0x9716 }
abbrev HIF_STATUS.link_up : Fld := { reg := .HIF_STATUS, hi := 0, lo := 0 }
abbrev HIF_STATUS.rate : Fld := { reg := .HIF_STATUS, hi := 3, lo := 1 }
abbrev HIF_STATUS.width : Fld := { reg := .HIF_STATUS, hi := 8, lo := 4 }
abbrev HIF_STATUS.vfs : Fld := { reg := .HIF_STATUS, hi := 13, lo := 9 }
abbrev HIF_CONFIG.max_rate : Fld := { reg := .HIF_CONFIG, hi := 1, lo := 0, acc := .rw }
abbrev HIF_CONFIG.no_snoop : Fld := { reg := .HIF_CONFIG, hi := 2, lo := 2, acc := .rw }
abbrev HIF_CONFIG.relaxed : Fld := { reg := .HIF_CONFIG, hi := 3, lo := 3, acc := .rw }
abbrev HIF_CONFIG.cxl_retrain : Fld := { reg := .HIF_CONFIG, hi := 5, lo := 4, acc := .wo }
abbrev HIF_APERTURE.valid : Fld := { reg := .HIF_APERTURE, hi := 0, lo := 0, acc := .rw }
abbrev HIF_APERTURE.context : Fld := { reg := .HIF_APERTURE, hi := 5, lo := 1, acc := .rw, reset := 0x1F }
abbrev HIF_APERTURE.base : Fld := { reg := .HIF_APERTURE, hi := 47, lo := 28, acc := .rw }
abbrev HIF_XLAT.valid : Fld := { reg := .HIF_XLAT, hi := 0, lo := 0, acc := .rw }
abbrev HIF_XLAT.write : Fld := { reg := .HIF_XLAT, hi := 1, lo := 1, acc := .rw }
abbrev HIF_XLAT.host : Fld := { reg := .HIF_XLAT, hi := 63, lo := 21, acc := .rw }
/-! Fields of the tables of R417. -/
abbrev CTX_STATUS.contexts : Fld := { reg := .CTX_STATUS, hi := 4, lo := 0 }
abbrev CTX_STATUS.reserved_regions : Fld := { reg := .CTX_STATUS, hi := 20, lo := 5 }
abbrev CTX_ADMIN.op : Fld := { reg := .CTX_ADMIN, hi := 1, lo := 0, acc := .wo }
abbrev CTX_ADMIN.context : Fld := { reg := .CTX_ADMIN, hi := 6, lo := 2, acc := .wo }
abbrev CTX_ADMIN.function : Fld := { reg := .CTX_ADMIN, hi := 11, lo := 7, acc := .wo }
abbrev CTX_ADMIN_STATUS.status : Fld := { reg := .CTX_ADMIN_STATUS, hi := 7, lo := 0 }
abbrev CTX_ADMIN_STATUS.busy : Fld := { reg := .CTX_ADMIN_STATUS, hi := 8, lo := 8 }
abbrev CTX_PREEMPT.context : Fld := { reg := .CTX_PREEMPT, hi := 4, lo := 0, acc := .wo }
abbrev CTX_PREEMPT.go : Fld := { reg := .CTX_PREEMPT, hi := 5, lo := 5, acc := .wo }
abbrev CTX_REGION_RESERVE.context : Fld := { reg := .CTX_REGION_RESERVE, hi := 4, lo := 0, acc := .rw, reset := 0x1F }
abbrev CTX_REGION_RESERVE.claimed : Fld := { reg := .CTX_REGION_RESERVE, hi := 5, lo := 5 }
abbrev CTX_REGION_RESERVE.claimant : Fld := { reg := .CTX_REGION_RESERVE, hi := 10, lo := 6, reset := 0x1F }
abbrev CTX_CONFIG.function : Fld := { reg := .CTX_CONFIG, hi := 4, lo := 0 }
abbrev CTX_CONFIG.priority : Fld := { reg := .CTX_CONFIG, hi := 7, lo := 5, acc := .rw }
abbrev CTX_CONFIG.preemptible : Fld := { reg := .CTX_CONFIG, hi := 8, lo := 8, acc := .rw, reset := 1 }
abbrev CTX_CONFIG.hold : Fld := { reg := .CTX_CONFIG, hi := 9, lo := 9, acc := .rw }
abbrev CTX_CONFIG.exists : Fld := { reg := .CTX_CONFIG, hi := 10, lo := 10 }
abbrev CTX_RING_BASE.address : Fld := { reg := .CTX_RING_BASE, hi := 47, lo := 0, acc := .rw }
abbrev CTX_CPL_BASE.address : Fld := { reg := .CTX_CPL_BASE, hi := 47, lo := 0, acc := .rw }
abbrev CTX_CTRL_BASE.address : Fld := { reg := .CTX_CTRL_BASE, hi := 47, lo := 0, acc := .rw }
abbrev CTX_RING_CONFIG.sub_size : Fld := { reg := .CTX_RING_CONFIG, hi := 3, lo := 0, acc := .rw }
abbrev CTX_RING_CONFIG.cpl_size : Fld := { reg := .CTX_RING_CONFIG, hi := 7, lo := 4, acc := .rw }
abbrev CTX_RING_CONFIG.poll : Fld := { reg := .CTX_RING_CONFIG, hi := 19, lo := 8, acc := .rw, reset := 8 }
abbrev CTX_RING_CONFIG.enable : Fld := { reg := .CTX_RING_CONFIG, hi := 20, lo := 20, acc := .rw }
abbrev CTX_RING_CONFIG.vector : Fld := { reg := .CTX_RING_CONFIG, hi := 28, lo := 21, acc := .rw }
abbrev CTX_PSTATE.state : Fld := { reg := .CTX_PSTATE, hi := 2, lo := 0 }
abbrev CTX_PSTATE.forced : Fld := { reg := .CTX_PSTATE, hi := 3, lo := 3 }
abbrev CTX_PSTATE.ring_fault : Fld := { reg := .CTX_PSTATE, hi := 4, lo := 4 }
abbrev CTX_PSTATE.regions : Fld := { reg := .CTX_PSTATE, hi := 20, lo := 5 }
abbrev CTX_SAVE_BASE.address : Fld := { reg := .CTX_SAVE_BASE, hi := 47, lo := 0, acc := .rw }
abbrev CTX_SAVE_SIZE.size : Fld := { reg := .CTX_SAVE_SIZE, hi := 47, lo := 0, acc := .rw }
abbrev CTX_MANIFEST_BASE.address : Fld := { reg := .CTX_MANIFEST_BASE, hi := 47, lo := 0, acc := .rw }
abbrev CTX_MANIFEST_COUNT.count : Fld := { reg := .CTX_MANIFEST_COUNT, hi := 15, lo := 0, acc := .rw }
abbrev CTX_PREEMPT_DEADLINE.limit_us : Fld := { reg := .CTX_PREEMPT_DEADLINE, hi := 9, lo := 0, acc := .rw, reset := 40 }
/-! Fields of the tables of R341. -/
abbrev CTX_STEP_STATE.state : Fld := { reg := .CTX_STEP_STATE, hi := 2, lo := 0 }
abbrev CTX_STEP_STATE.sel : Fld := { reg := .CTX_STEP_STATE, hi := 3, lo := 3 }
abbrev CTX_STEP_STATE.reshard_held : Fld := { reg := .CTX_STEP_STATE, hi := 4, lo := 4 }
abbrev CTX_STEP_STATE.microbatches : Fld := { reg := .CTX_STEP_STATE, hi := 28, lo := 16 }
abbrev CTX_HEALTH.local_ : Fld := { reg := .CTX_HEALTH, hi := 8, lo := 0 }
abbrev CTX_HEALTH.job : Fld := { reg := .CTX_HEALTH, hi := 24, lo := 16 }
abbrev CTX_HEALTH.outcome : Fld := { reg := .CTX_HEALTH, hi := 29, lo := 28 }
abbrev CTX_BANK_BASE.value : Fld := { reg := .CTX_BANK_BASE, hi := 47, lo := 0, acc := .rw }
abbrev CTX_BANK_SIZE.value : Fld := { reg := .CTX_BANK_SIZE, hi := 47, lo := 0, acc := .rw }
abbrev CTX_BANK_DELTA.value : Fld := { reg := .CTX_BANK_DELTA, hi := 47, lo := 0, acc := .rw }
abbrev CTX_COMMIT_MARGIN.value : Fld := { reg := .CTX_COMMIT_MARGIN, hi := 15, lo := 0, acc := .rw, reset := 192 }
abbrev CTX_VOTE_TIMEOUT.value : Fld := { reg := .CTX_VOTE_TIMEOUT, hi := 15, lo := 0, acc := .rw, reset := 1000 }
abbrev CTX_TAG_BASE.base : Fld := { reg := .CTX_TAG_BASE, hi := 15, lo := 0 }
/-! Fields of the tables of R504. -/
abbrev MGT_STATUS.lead : Fld := { reg := .MGT_STATUS, hi := 0, lo := 0 }
abbrev MGT_STATUS.led : Fld := { reg := .MGT_STATUS, hi := 1, lo := 1 }
abbrev MGT_STATUS.west_ready : Fld := { reg := .MGT_STATUS, hi := 2, lo := 2 }
abbrev MGT_STATUS.east_ready : Fld := { reg := .MGT_STATUS, hi := 3, lo := 3 }
abbrev MGT_STATUS.west_slot : Fld := { reg := .MGT_STATUS, hi := 4, lo := 4 }
abbrev MGT_STATUS.east_slot : Fld := { reg := .MGT_STATUS, hi := 5, lo := 5 }
abbrev MGT_FW_IMAGE.address : Fld := { reg := .MGT_FW_IMAGE, hi := 47, lo := 0, acc := .rw }
abbrev MGT_FW_LEN.bytes : Fld := { reg := .MGT_FW_LEN, hi := 25, lo := 0, acc := .rw }
abbrev MGT_FW_CMD.op : Fld := { reg := .MGT_FW_CMD, hi := 1, lo := 0, acc := .wo }
abbrev MGT_FW_CMD.offline : Fld := { reg := .MGT_FW_CMD, hi := 2, lo := 2, acc := .wo }
abbrev MGT_FW_STATUS.status : Fld := { reg := .MGT_FW_STATUS, hi := 7, lo := 0 }
abbrev MGT_FW_STATUS.stage : Fld := { reg := .MGT_FW_STATUS, hi := 10, lo := 8 }
abbrev MGT_FW_STATUS.busy : Fld := { reg := .MGT_FW_STATUS, hi := 11, lo := 11 }
abbrev MGT_SAT.blocks : Fld := { reg := .MGT_SAT, hi := 17, lo := 0, acc := .w1c }
/-! Fields of the tables of R519. -/
abbrev SEC_STATUS.svn : Fld := { reg := .SEC_STATUS, hi := 6, lo := 0 }
abbrev SEC_STATUS.key_lock : Fld := { reg := .SEC_STATUS, hi := 7, lo := 7, acc := .w1s }
abbrev SEC_STATUS.keys : Fld := { reg := .SEC_STATUS, hi := 12, lo := 8 }
abbrev SEC_STATUS.fw_backup : Fld := { reg := .SEC_STATUS, hi := 13, lo := 13 }
abbrev SEC_STATUS.violated : Fld := { reg := .SEC_STATUS, hi := 14, lo := 14 }
abbrev SEC_KEY_CMD.op : Fld := { reg := .SEC_KEY_CMD, hi := 1, lo := 0, acc := .wo }
abbrev SEC_KEY_STATUS.status : Fld := { reg := .SEC_KEY_STATUS, hi := 7, lo := 0 }
abbrev SEC_KEY_STATUS.busy : Fld := { reg := .SEC_KEY_STATUS, hi := 8, lo := 8 }
abbrev SEC_KEY_ADDR.address : Fld := { reg := .SEC_KEY_ADDR, hi := 47, lo := 0, acc := .rw }
abbrev SEC_EXPECT_BASE.address : Fld := { reg := .SEC_EXPECT_BASE, hi := 47, lo := 0, acc := .rw }
abbrev SEC_EXPECT_COUNT.count : Fld := { reg := .SEC_EXPECT_COUNT, hi := 10, lo := 0, acc := .rw }
abbrev SEC_LAST_HELD.where_ : Fld := { reg := .SEC_LAST_HELD, hi := 31, lo := 0 }
abbrev SEC_LAST_HELD.reason : Fld := { reg := .SEC_LAST_HELD, hi := 34, lo := 32 }
abbrev SEC_LAST_HELD.valid : Fld := { reg := .SEC_LAST_HELD, hi := 63, lo := 63, acc := .w1c }
/-! Fields of the tables of R541. -/
abbrev PWR_STATUS.tj : Fld := { reg := .PWR_STATUS, hi := 7, lo := 0 }
abbrev PWR_STATUS.cap_active : Fld := { reg := .PWR_STATUS, hi := 8, lo := 8 }
abbrev PWR_STATUS.sag_in : Fld := { reg := .PWR_STATUS, hi := 9, lo := 9 }
abbrev PWR_STATUS.throttle : Fld := { reg := .PWR_STATUS, hi := 10, lo := 10 }
abbrev PWR_STATUS.peak : Fld := { reg := .PWR_STATUS, hi := 11, lo := 11 }
abbrev PWR_CMD.op : Fld := { reg := .PWR_CMD, hi := 1, lo := 0, acc := .wo }
abbrev PWR_TARGET.watts : Fld := { reg := .PWR_TARGET, hi := 11, lo := 0, acc := .rw, reset := 3000 }
abbrev PWR_TARGET.reserve_first : Fld := { reg := .PWR_TARGET, hi := 12, lo := 12, acc := .rw, reset := 1 }
abbrev PWR_TJ.target : Fld := { reg := .PWR_TJ, hi := 7, lo := 0, acc := .rw, reset := 100 }
abbrev PWR_TJ.alert : Fld := { reg := .PWR_TJ, hi := 15, lo := 8, acc := .rw, reset := 103 }
abbrev PWR_SAG.mv : Fld := { reg := .PWR_SAG, hi := 6, lo := 0, acc := .rw, reset := 35 }
abbrev PWR_SAG.in_level : Fld := { reg := .PWR_SAG, hi := 11, lo := 7, acc := .rw, reset := 22 }
abbrev PWR_ALERT.tj : Fld := { reg := .PWR_ALERT, hi := 0, lo := 0, acc := .w1c }
abbrev PWR_ALERT.cap : Fld := { reg := .PWR_ALERT, hi := 1, lo := 1, acc := .w1c }
abbrev PWR_ALERT.sag_in : Fld := { reg := .PWR_ALERT, hi := 2, lo := 2, acc := .w1c }
abbrev PWR_ALERT.peak : Fld := { reg := .PWR_ALERT, hi := 3, lo := 3, acc := .w1c }
abbrev PWR_POWER.watts : Fld := { reg := .PWR_POWER, hi := 12, lo := 0 }
abbrev PWR_TEMP.celsius : Fld := { reg := .PWR_TEMP, hi := 7, lo := 0 }
abbrev PWR_REGION_ACLK.level : Fld := { reg := .PWR_REGION_ACLK, hi := 5, lo := 0, reset := 16 }
abbrev PWR_REGION_ACLK.cap : Fld := { reg := .PWR_REGION_ACLK, hi := 11, lo := 6, reset := 32 }
abbrev PWR_REGION_ACLK.sag : Fld := { reg := .PWR_REGION_ACLK, hi := 17, lo := 12, reset := 32 }
abbrev PWR_REGION_ACLK.thermal : Fld := { reg := .PWR_REGION_ACLK, hi := 23, lo := 18, reset := 32 }
abbrev PWR_REGION_ACLK.peak : Fld := { reg := .PWR_REGION_ACLK, hi := 29, lo := 24, reset := 32 }
/-! Fields of the tables of R484. -/
abbrev FLT_STATUS.records : Fld := { reg := .FLT_STATUS, hi := 17, lo := 0 }
abbrev FLT_STATUS.compacting : Fld := { reg := .FLT_STATUS, hi := 18, lo := 18 }
abbrev FLT_STATUS.testing : Fld := { reg := .FLT_STATUS, hi := 19, lo := 19 }
abbrev FLT_JOB_STATE.state : Fld := { reg := .FLT_JOB_STATE, hi := 2, lo := 0 }
abbrev FLT_JOB_STATE.path : Fld := { reg := .FLT_JOB_STATE, hi := 7, lo := 3 }
abbrev FLT_CMD.op : Fld := { reg := .FLT_CMD, hi := 1, lo := 0, acc := .wo }
abbrev FLT_CMD.kind : Fld := { reg := .FLT_CMD, hi := 5, lo := 2, acc := .wo }
abbrev FLT_CMD.reserved : Fld := { reg := .FLT_CMD, hi := 7, lo := 6, acc := .wo }
abbrev FLT_CMD.index : Fld := { reg := .FLT_CMD, hi := 31, lo := 8, acc := .wo }
abbrev FLT_CMD_STATUS.status : Fld := { reg := .FLT_CMD_STATUS, hi := 7, lo := 0 }
abbrev FLT_CMD_STATUS.busy : Fld := { reg := .FLT_CMD_STATUS, hi := 8, lo := 8 }
abbrev FLT_REPAIR_TIMEOUT.seconds : Fld := { reg := .FLT_REPAIR_TIMEOUT, hi := 15, lo := 0, acc := .rw, reset := 60 }
abbrev FLT_LAST.kind : Fld := { reg := .FLT_LAST, hi := 3, lo := 0 }
abbrev FLT_LAST.index : Fld := { reg := .FLT_LAST, hi := 27, lo := 4 }
abbrev FLT_LAST.cause : Fld := { reg := .FLT_LAST, hi := 43, lo := 28 }
abbrev FLT_LAST.valid : Fld := { reg := .FLT_LAST, hi := 63, lo := 63, acc := .w1c }
abbrev FLT_CTX_SENT_BASE.address : Fld := { reg := .FLT_CTX_SENT_BASE, hi := 47, lo := 0, acc := .rw }
abbrev FLT_CTX_SENT_AREA.address : Fld := { reg := .FLT_CTX_SENT_AREA, hi := 47, lo := 0, acc := .rw }
abbrev FLT_CTX_SENT_COUNT.count : Fld := { reg := .FLT_CTX_SENT_COUNT, hi := 11, lo := 0, acc := .rw }
abbrev FLT_CTX_SENT_STATUS.state : Fld := { reg := .FLT_CTX_SENT_STATUS, hi := 1, lo := 0 }
abbrev FLT_CTX_SENT_STATUS.entry : Fld := { reg := .FLT_CTX_SENT_STATUS, hi := 13, lo := 2 }
abbrev FLT_CTX_SENT_WINDOW.offset : Fld := { reg := .FLT_CTX_SENT_WINDOW, hi := 13, lo := 0, acc := .rw }
abbrev FLT_CTX_SENT_WINDOW.size : Fld := { reg := .FLT_CTX_SENT_WINDOW, hi := 27, lo := 14, acc := .rw }
abbrev FLT_CTX_SENT_PERIOD.period : Fld := { reg := .FLT_CTX_SENT_PERIOD, hi := 10, lo := 0, acc := .rw, reset := 32 }
abbrev SNP_STATUS.state : Fld := { reg := .SNP_STATUS, hi := 1, lo := 0 }
abbrev SNP_STATUS.diverged : Fld := { reg := .SNP_STATUS, hi := 2, lo := 2, acc := .w1c }
abbrev SNP_STATUS.complete : Fld := { reg := .SNP_STATUS, hi := 9, lo := 3 }
abbrev SNP_CMD.op : Fld := { reg := .SNP_CMD, hi := 1, lo := 0, acc := .wo }
abbrev SNP_CMD.slot : Fld := { reg := .SNP_CMD, hi := 7, lo := 2, acc := .wo }
abbrev SNP_CMD_STATUS.status : Fld := { reg := .SNP_CMD_STATUS, hi := 7, lo := 0 }
abbrev SNP_CMD_STATUS.busy : Fld := { reg := .SNP_CMD_STATUS, hi := 8, lo := 8 }
abbrev SNP_CONFIG.replica_axes : Fld := { reg := .SNP_CONFIG, hi := 3, lo := 0, acc := .rw, reset := 3 }
abbrev SNP_CONFIG.copies : Fld := { reg := .SNP_CONFIG, hi := 4, lo := 4, acc := .rw, reset := 1 }
abbrev SNP_CONFIG.rate_gbs : Fld := { reg := .SNP_CONFIG, hi := 17, lo := 8, acc := .rw, reset := 100 }
abbrev SNP_TARGET_BASE.value : Fld := { reg := .SNP_TARGET_BASE, hi := 47, lo := 0, acc := .rw }
abbrev SNP_SLOT_SIZE.value : Fld := { reg := .SNP_SLOT_SIZE, hi := 47, lo := 0, acc := .rw }
abbrev SNP_SLOTS.slots : Fld := { reg := .SNP_SLOTS, hi := 6, lo := 0, acc := .rw, reset := 2 }
abbrev SNP_MAX_INTERVAL.steps : Fld := { reg := .SNP_MAX_INTERVAL, hi := 15, lo := 0, acc := .rw, reset := 1024 }
abbrev SNP_INTERVAL.steps : Fld := { reg := .SNP_INTERVAL, hi := 15, lo := 0, reset := 1 }
abbrev SNP_JOURNAL_COUNT.entries : Fld := { reg := .SNP_JOURNAL_COUNT, hi := 23, lo := 0, acc := .rw, reset := 65536 }
abbrev SNP_JOURNAL_BASE.value : Fld := { reg := .SNP_JOURNAL_BASE, hi := 47, lo := 0, acc := .rw }
/-! Fields of the tables of R364. -/
abbrev NUM_STATUS.entries : Fld := { reg := .NUM_STATUS, hi := 14, lo := 0 }
abbrev NUM_CTX_MAP_COUNT.count : Fld := { reg := .NUM_CTX_MAP_COUNT, hi := 12, lo := 0, acc := .rw }
abbrev NUM_CTX_MAP_STATUS.state : Fld := { reg := .NUM_CTX_MAP_STATUS, hi := 1, lo := 0 }
abbrev NUM_CTX_MAP_STATUS.entry : Fld := { reg := .NUM_CTX_MAP_STATUS, hi := 14, lo := 2 }
abbrev NUM_CTX_STATS_DEPTH.depth : Fld := { reg := .NUM_CTX_STATS_DEPTH, hi := 15, lo := 0, acc := .rw, reset := 1 }
abbrev NUM_CTX_NF_WHERE.region : Fld := { reg := .NUM_CTX_NF_WHERE, hi := 3, lo := 0 }
abbrev NUM_CTX_NF_WHERE.cluster : Fld := { reg := .NUM_CTX_NF_WHERE, hi := 7, lo := 4 }
abbrev NUM_CTX_NF_WHERE.core : Fld := { reg := .NUM_CTX_NF_WHERE, hi := 11, lo := 8 }
abbrev NUM_CTX_NF_WHERE.op : Fld := { reg := .NUM_CTX_NF_WHERE, hi := 16, lo := 12 }
abbrev NUM_CTX_NF_WHERE.valid : Fld := { reg := .NUM_CTX_NF_WHERE, hi := 31, lo := 31, acc := .w1c }
abbrev NUM_CTX_NF_BATCH.microbatch : Fld := { reg := .NUM_CTX_NF_BATCH, hi := 15, lo := 0 }
abbrev NUM_CTX_NF_BATCH.tag : Fld := { reg := .NUM_CTX_NF_BATCH, hi := 31, lo := 16 }
/-! Fields of the tables of R385. -/
abbrev FIN_STATUS.busy : Fld := { reg := .FIN_STATUS, hi := 3, lo := 0 }
abbrev FIN_CTX_TABLE_BASE.address : Fld := { reg := .FIN_CTX_TABLE_BASE, hi := 47, lo := 0, acc := .rw }
abbrev FIN_CTX_TABLE_COUNT.count : Fld := { reg := .FIN_CTX_TABLE_COUNT, hi := 10, lo := 0, acc := .rw }
abbrev FIN_CTX_TABLE_STATUS.state : Fld := { reg := .FIN_CTX_TABLE_STATUS, hi := 1, lo := 0 }
abbrev FIN_CTX_TABLE_STATUS.entry : Fld := { reg := .FIN_CTX_TABLE_STATUS, hi := 11, lo := 2 }
abbrev FIN_CTX_MOVER_BASE.address : Fld := { reg := .FIN_CTX_MOVER_BASE, hi := 47, lo := 0, acc := .rw }
abbrev FIN_CTX_MOVER_COUNT.count : Fld := { reg := .FIN_CTX_MOVER_COUNT, hi := 16, lo := 0, acc := .rw }
abbrev FIN_CTX_DONE_VID.vid : Fld := { reg := .FIN_CTX_DONE_VID, hi := 19, lo := 0, acc := .rw }
/-! Fields of the tables of R455. -/
abbrev LNK_STATUS.joined : Fld := { reg := .LNK_STATUS, hi := 0, lo := 0 }
abbrev LNK_STATUS.shepherd : Fld := { reg := .LNK_STATUS, hi := 1, lo := 1 }
abbrev LNK_STATUS.deputy : Fld := { reg := .LNK_STATUS, hi := 2, lo := 2 }
abbrev LNK_STATUS.tick_root : Fld := { reg := .LNK_STATUS, hi := 3, lo := 3 }
abbrev LNK_STATUS.sync_lost : Fld := { reg := .LNK_STATUS, hi := 4, lo := 4 }
abbrev LNK_JOB_CMD.op : Fld := { reg := .LNK_JOB_CMD, hi := 1, lo := 0, acc := .wo }
abbrev LNK_JOB_CTX.context : Fld := { reg := .LNK_JOB_CTX, hi := 4, lo := 0, acc := .rw, reset := 0x1F }
abbrev LNK_SEGMENT.axis : Fld := { reg := .LNK_SEGMENT, hi := 1, lo := 0, acc := .rw, reset := 3 }
abbrev LNK_SEGMENT.length : Fld := { reg := .LNK_SEGMENT, hi := 6, lo := 2, acc := .rw, reset := 1 }
abbrev LNK_SHEPHERD_TIMEOUT.us : Fld := { reg := .LNK_SHEPHERD_TIMEOUT, hi := 15, lo := 0, acc := .rw, reset := 1000 }
abbrev LNK_RECAL_HOURS.hours : Fld := { reg := .LNK_RECAL_HOURS, hi := 15, lo := 0, acc := .rw, reset := 24 }
abbrev LNK_PORT_CFG.role : Fld := { reg := .LNK_PORT_CFG, hi := 3, lo := 0, acc := .rw }
abbrev LNK_PORT_CFG.mode : Fld := { reg := .LNK_PORT_CFG, hi := 5, lo := 4, acc := .rw }
abbrev LNK_PORT_CFG.vlan : Fld := { reg := .LNK_PORT_CFG, hi := 6, lo := 6, acc := .rw }
abbrev LNK_PORT_CFG.recal : Fld := { reg := .LNK_PORT_CFG, hi := 7, lo := 7, acc := .wo }
abbrev LNK_PORT_CFG.ethertype : Fld := { reg := .LNK_PORT_CFG, hi := 31, lo := 16, acc := .rw, reset := 0x88B5 }
abbrev LNK_PORT_STATUS.state : Fld := { reg := .LNK_PORT_STATUS, hi := 2, lo := 0 }
abbrev LNK_PORT_STATUS.lanes : Fld := { reg := .LNK_PORT_STATUS, hi := 6, lo := 3 }
abbrev COL_STATUS.state : Fld := { reg := .COL_STATUS, hi := 1, lo := 0 }
abbrev COL_STATUS.entry : Fld := { reg := .COL_STATUS, hi := 11, lo := 2 }
abbrev COL_TABLE_BASE.address : Fld := { reg := .COL_TABLE_BASE, hi := 47, lo := 0, acc := .rw }
abbrev COL_TABLE_COUNT.count : Fld := { reg := .COL_TABLE_COUNT, hi := 10, lo := 0, acc := .rw }
abbrev COL_LAST_MISMATCH.entry : Fld := { reg := .COL_LAST_MISMATCH, hi := 9, lo := 0 }
abbrev COL_LAST_MISMATCH.segment : Fld := { reg := .COL_LAST_MISMATCH, hi := 25, lo := 10 }
abbrev COL_LAST_MISMATCH.sender : Fld := { reg := .COL_LAST_MISMATCH, hi := 57, lo := 26 }
abbrev COL_LAST_MISMATCH.valid : Fld := { reg := .COL_LAST_MISMATCH, hi := 63, lo := 63, acc := .w1c }
/-! Fields of the tables of R287. -/
abbrev MEM_STATUS.fenced : Fld := { reg := .MEM_STATUS, hi := 15, lo := 0 }
abbrev MEM_STATUS.init_done : Fld := { reg := .MEM_STATUS, hi := 16, lo := 16 }
abbrev MEM_SCRUB_HOURS.value : Fld := { reg := .MEM_SCRUB_HOURS, hi := 15, lo := 0, acc := .rw, reset := 24 }
abbrev MEM_RETIRE_LIMIT.value : Fld := { reg := .MEM_RETIRE_LIMIT, hi := 15, lo := 0, acc := .rw, reset := 256 }
abbrev MEM_LAST_DETECT.offset : Fld := { reg := .MEM_LAST_DETECT, hi := 35, lo := 0 }
abbrev MEM_LAST_DETECT.stack : Fld := { reg := .MEM_LAST_DETECT, hi := 39, lo := 36 }
abbrev MEM_LAST_DETECT.at_rest : Fld := { reg := .MEM_LAST_DETECT, hi := 40, lo := 40 }
abbrev MEM_LAST_DETECT.scrub : Fld := { reg := .MEM_LAST_DETECT, hi := 41, lo := 41 }
abbrev MEM_LAST_DETECT.valid : Fld := { reg := .MEM_LAST_DETECT, hi := 63, lo := 63, acc := .w1c }
abbrev MEM_STACK_RETIRED.pages : Fld := { reg := .MEM_STACK_RETIRED, hi := 10, lo := 0 }
abbrev MEM_PAGE.owner : Fld := { reg := .MEM_PAGE, hi := 4, lo := 0, acc := .rw, reset := 0x1F }
abbrev MEM_PAGE.pool : Fld := { reg := .MEM_PAGE, hi := 5, lo := 5 }
abbrev MEM_PAGE.zeroing : Fld := { reg := .MEM_PAGE, hi := 6, lo := 6 }
abbrev MEM_PAGE.retired : Fld := { reg := .MEM_PAGE, hi := 7, lo := 7 }
abbrev MEM_PAGE.owner1 : Fld := { reg := .MEM_PAGE, hi := 20, lo := 16, acc := .rw, reset := 0x1F }
abbrev MEM_PAGE.pool1 : Fld := { reg := .MEM_PAGE, hi := 21, lo := 21 }
abbrev MEM_PAGE.zeroing1 : Fld := { reg := .MEM_PAGE, hi := 22, lo := 22 }
abbrev MEM_PAGE.retired1 : Fld := { reg := .MEM_PAGE, hi := 23, lo := 23 }
abbrev TIR_CONFIG.interleave : Fld := { reg := .TIR_CONFIG, hi := 0, lo := 0, acc := .rw }
abbrev TIR_POOL_COUNT.slots : Fld := { reg := .TIR_POOL_COUNT, hi := 14, lo := 0, acc := .rw }
abbrev TIR_POOL_BASE.page : Fld := { reg := .TIR_POOL_BASE, hi := 18, lo := 0, acc := .rw }
abbrev TIR_PORT_STATUS.up : Fld := { reg := .TIR_PORT_STATUS, hi := 0, lo := 0 }
abbrev TIR_PORT_STATUS.rate : Fld := { reg := .TIR_PORT_STATUS, hi := 2, lo := 1 }
abbrev TIR_PORT_STATUS.cxl2 : Fld := { reg := .TIR_PORT_STATUS, hi := 3, lo := 3 }
abbrev TIR_PORT_STATUS.width : Fld := { reg := .TIR_PORT_STATUS, hi := 8, lo := 4 }
abbrev TIR_PORT_STATUS.capacity_gib : Fld := { reg := .TIR_PORT_STATUS, hi := 28, lo := 16 }
abbrev TIR_CMD.page : Fld := { reg := .TIR_CMD, hi := 21, lo := 0, acc := .wo }
abbrev TIR_CMD.op : Fld := { reg := .TIR_CMD, hi := 24, lo := 22, acc := .wo }
abbrev TIR_CMD_STATUS.status : Fld := { reg := .TIR_CMD_STATUS, hi := 7, lo := 0 }
abbrev TIR_CMD_STATUS.busy : Fld := { reg := .TIR_CMD_STATUS, hi := 8, lo := 8 }
abbrev TIR_CTX_QUOTA.slots : Fld := { reg := .TIR_CTX_QUOTA, hi := 14, lo := 0, acc := .rw, reset := 16384 }
abbrev TIR_EXTENT.owner0 : Fld := { reg := .TIR_EXTENT, hi := 4, lo := 0, acc := .rw, reset := 0x1F }
abbrev TIR_EXTENT.owner1 : Fld := { reg := .TIR_EXTENT, hi := 12, lo := 8, acc := .rw, reset := 0x1F }
abbrev TIR_EXTENT.owner2 : Fld := { reg := .TIR_EXTENT, hi := 20, lo := 16, acc := .rw, reset := 0x1F }
abbrev TIR_EXTENT.owner3 : Fld := { reg := .TIR_EXTENT, hi := 28, lo := 24, acc := .rw, reset := 0x1F }
abbrev TIR_SLOT.page : Fld := { reg := .TIR_SLOT, hi := 21, lo := 0 }
abbrev TIR_SLOT.owner : Fld := { reg := .TIR_SLOT, hi := 26, lo := 22, reset := 0x1F }
abbrev TIR_SLOT.valid : Fld := { reg := .TIR_SLOT, hi := 27, lo := 27 }
abbrev TIR_SLOT.pinned : Fld := { reg := .TIR_SLOT, hi := 28, lo := 28 }
abbrev TIR_SLOT.state : Fld := { reg := .TIR_SLOT, hi := 30, lo := 29 }
abbrev TIR_SLOT.age : Fld := { reg := .TIR_SLOT, hi := 47, lo := 32 }
abbrev TIR_SLOT_DIRTY.dirty : Fld := { reg := .TIR_SLOT_DIRTY, hi := 31, lo := 0 }
/-! Fields of the tables of R308. -/
abbrev HRD_STATUS.tallies : Fld := { reg := .HRD_STATUS, hi := 14, lo := 0 }
abbrev HRD_STATUS.translations : Fld := { reg := .HRD_STATUS, hi := 29, lo := 15 }
abbrev HRD_STANDOFF_US.limit : Fld := { reg := .HRD_STANDOFF_US, hi := 13, lo := 0, acc := .rw, reset := 1000 }
abbrev HRD_LAST_STANDOFF.region : Fld := { reg := .HRD_LAST_STANDOFF, hi := 3, lo := 0 }
abbrev HRD_LAST_STANDOFF.cluster : Fld := { reg := .HRD_LAST_STANDOFF, hi := 7, lo := 4 }
abbrev HRD_LAST_STANDOFF.core : Fld := { reg := .HRD_LAST_STANDOFF, hi := 11, lo := 8 }
abbrev HRD_LAST_STANDOFF.op : Fld := { reg := .HRD_LAST_STANDOFF, hi := 16, lo := 12 }
abbrev HRD_LAST_STANDOFF.out : Fld := { reg := .HRD_LAST_STANDOFF, hi := 19, lo := 17 }
abbrev HRD_LAST_STANDOFF.context : Fld := { reg := .HRD_LAST_STANDOFF, hi := 24, lo := 20 }
abbrev HRD_LAST_STANDOFF.fault : Fld := { reg := .HRD_LAST_STANDOFF, hi := 25, lo := 25 }
abbrev HRD_LAST_STANDOFF.streams : Fld := { reg := .HRD_LAST_STANDOFF, hi := 30, lo := 26 }
abbrev HRD_LAST_STANDOFF.valid : Fld := { reg := .HRD_LAST_STANDOFF, hi := 63, lo := 63, acc := .w1c }
abbrev HRD_CMD.go : Fld := { reg := .HRD_CMD, hi := 0, lo := 0, acc := .wo }
abbrev HRD_CMD_STATUS.status : Fld := { reg := .HRD_CMD_STATUS, hi := 7, lo := 0 }
abbrev HRD_CMD_STATUS.busy : Fld := { reg := .HRD_CMD_STATUS, hi := 8, lo := 8 }
abbrev HRD_RESERVE.region : Fld := { reg := .HRD_RESERVE, hi := 3, lo := 0, acc := .rw }
abbrev HRD_RESERVE.cluster : Fld := { reg := .HRD_RESERVE, hi := 7, lo := 4, acc := .rw }
abbrev HRD_RESERVE.core : Fld := { reg := .HRD_RESERVE, hi := 11, lo := 8, acc := .rw }
abbrev HRD_RESERVE.op : Fld := { reg := .HRD_RESERVE, hi := 16, lo := 12, acc := .rw }
abbrev HRD_RESERVE.out : Fld := { reg := .HRD_RESERVE, hi := 19, lo := 17, acc := .rw }
abbrev HRD_RESERVE.priority : Fld := { reg := .HRD_RESERVE, hi := 22, lo := 20, acc := .rw }
abbrev HRD_RESERVE.valid : Fld := { reg := .HRD_RESERVE, hi := 23, lo := 23, acc := .rw }
abbrev HRD_RESERVE_BASE.base : Fld := { reg := .HRD_RESERVE_BASE, hi := 47, lo := 0, acc := .rw }
abbrev HRD_RESERVE_SIZE.size : Fld := { reg := .HRD_RESERVE_SIZE, hi := 31, lo := 0, acc := .rw }
abbrev HRD_RESERVE_USED.used : Fld := { reg := .HRD_RESERVE_USED, hi := 31, lo := 0 }
abbrev HRD_TALLY.value : Fld := { reg := .HRD_TALLY, hi := 31, lo := 0 }
abbrev HRD_TALLY.owner : Fld := { reg := .HRD_TALLY, hi := 36, lo := 32, reset := 0x1F }
abbrev HRD_TALLY.poison : Fld := { reg := .HRD_TALLY, hi := 37, lo := 37 }
abbrev HRD_TALLY.overdraw : Fld := { reg := .HRD_TALLY, hi := 38, lo := 38 }
abbrev HRD_TALLY.sat : Fld := { reg := .HRD_TALLY, hi := 39, lo := 39 }
/-! Fields of the tables of R253. -/
abbrev FCH_SLOT_CMD.cmd : Fld := { reg := .FCH_SLOT_CMD, hi := 1, lo := 0, acc := .wo }
abbrev FCH_SLOT_STATUS.state : Fld := { reg := .FCH_SLOT_STATUS, hi := 2, lo := 0 }
abbrev FCH_SLOT_STATUS.shadow : Fld := { reg := .FCH_SLOT_STATUS, hi := 3, lo := 3 }
abbrev FCH_SLOT_STATUS.credit_wait : Fld := { reg := .FCH_SLOT_STATUS, hi := 4, lo := 4 }
abbrev FCH_SLOT_STATUS.last_status : Fld := { reg := .FCH_SLOT_STATUS, hi := 15, lo := 8 }
abbrev FCH_MODE.deadline : Fld := { reg := .FCH_MODE, hi := 0, lo := 0, acc := .rw, reset := 1 }
/-! Fields of the tables of R222. -/
abbrev BND_STATUS.staging : Fld := { reg := .BND_STATUS, hi := 3, lo := 0 }
abbrev BND_STATUS.handles : Fld := { reg := .BND_STATUS, hi := 10, lo := 4 }
abbrev BND_DRAIN_TIMEOUT.limit_us : Fld := { reg := .BND_DRAIN_TIMEOUT, hi := 13, lo := 0, acc := .rw, reset := 100 }
abbrev BND_EPOCH_NEXT.epoch : Fld := { reg := .BND_EPOCH_NEXT, hi := 11, lo := 0, reset := 1 }
abbrev BND_LAST_REJECT.reason : Fld := { reg := .BND_LAST_REJECT, hi := 7, lo := 0 }
abbrev BND_LAST_REJECT.leaf : Fld := { reg := .BND_LAST_REJECT, hi := 11, lo := 8 }
abbrev BND_LAST_REJECT.cluster : Fld := { reg := .BND_LAST_REJECT, hi := 15, lo := 12 }
abbrev BND_LAST_REJECT.core : Fld := { reg := .BND_LAST_REJECT, hi := 19, lo := 16 }
abbrev BND_LAST_REJECT.handle : Fld := { reg := .BND_LAST_REJECT, hi := 27, lo := 20 }
abbrev BND_LAST_REJECT.valid : Fld := { reg := .BND_LAST_REJECT, hi := 31, lo := 31, acc := .w1c }
abbrev BND_STORE_FREE.units : Fld := { reg := .BND_STORE_FREE, hi := 10, lo := 0, reset := 1536 }
abbrev BND_REGION_STATE.state : Fld := { reg := .BND_REGION_STATE, hi := 2, lo := 0 }
abbrev BND_REGION_STATE.portable : Fld := { reg := .BND_REGION_STATE, hi := 3, lo := 3 }
abbrev BND_REGION_STATE.epoch : Fld := { reg := .BND_REGION_STATE, hi := 15, lo := 4 }
abbrev BND_REGION_STATE.context : Fld := { reg := .BND_REGION_STATE, hi := 20, lo := 16, reset := 0x1F }
abbrev BND_REGION_STATE.handle : Fld := { reg := .BND_REGION_STATE, hi := 27, lo := 21 }
abbrev BND_REGION_STATE.waiting : Fld := { reg := .BND_REGION_STATE, hi := 28, lo := 28 }
abbrev BND_REGION_STATE.step : Fld := { reg := .BND_REGION_STATE, hi := 29, lo := 29 }
/-! Fields of the tables of R190. -/
abbrev NOC_STATUS.fenced : Fld := { reg := .NOC_STATUS, hi := 0, lo := 0 }
abbrev NOC_STATUS.bound : Fld := { reg := .NOC_STATUS, hi := 1, lo := 1 }
abbrev NOC_STATUS.good : Fld := { reg := .NOC_STATUS, hi := 6, lo := 2 }
abbrev NOC_STATUS.spares : Fld := { reg := .NOC_STATUS, hi := 8, lo := 7 }
abbrev NOC_STATUS.spill : Fld := { reg := .NOC_STATUS, hi := 9, lo := 9 }
abbrev NOC_STATUS.hold : Fld := { reg := .NOC_STATUS, hi := 10, lo := 10 }
abbrev NOC_STATUS.straggler_full : Fld := { reg := .NOC_STATUS, hi := 11, lo := 11 }
abbrev NOC_STATUS.epoch : Fld := { reg := .NOC_STATUS, hi := 23, lo := 12 }
abbrev NOC_REMAP.phys : Fld := { reg := .NOC_REMAP, hi := 59, lo := 0 }
abbrev NOC_REMAP.spare : Fld := { reg := .NOC_REMAP, hi := 63, lo := 60 }
abbrev NOC_STRAGGLER_EVENT.group : Fld := { reg := .NOC_STRAGGLER_EVENT, hi := 7, lo := 0 }
abbrev NOC_STRAGGLER_EVENT.branch : Fld := { reg := .NOC_STRAGGLER_EVENT, hi := 10, lo := 8 }
abbrev NOC_STRAGGLER_EVENT.core : Fld := { reg := .NOC_STRAGGLER_EVENT, hi := 14, lo := 11 }
abbrev NOC_STRAGGLER_EVENT.valid : Fld := { reg := .NOC_STRAGGLER_EVENT, hi := 31, lo := 31, acc := .w1c }
abbrev NOC_SPILL_BASE.value : Fld := { reg := .NOC_SPILL_BASE, hi := 47, lo := 0, acc := .rw }
abbrev NOC_SPILL_SIZE.value : Fld := { reg := .NOC_SPILL_SIZE, hi := 47, lo := 0, acc := .rw }
abbrev NOC_SLOT.even : Fld := { reg := .NOC_SLOT, hi := 15, lo := 0 }
abbrev NOC_SLOT.odd : Fld := { reg := .NOC_SLOT, hi := 31, lo := 16 }
/-! Fields of the tables of R94. -/
abbrev CORE_STATUS.bound : Fld := { reg := .CORE_STATUS, hi := 0, lo := 0 }
abbrev CORE_STATUS.idle : Fld := { reg := .CORE_STATUS, hi := 1, lo := 1, reset := 1 }
abbrev CORE_STATUS.short : Fld := { reg := .CORE_STATUS, hi := 2, lo := 2 }
abbrev CORE_STATUS.phys : Fld := { reg := .CORE_STATUS, hi := 6, lo := 3 }
abbrev CORE_STATUS.live : Fld := { reg := .CORE_STATUS, hi := 15, lo := 8 }
abbrev CORE_STATUS.base_tag : Fld := { reg := .CORE_STATUS, hi := 31, lo := 16 }
abbrev CORE_FAULT.bad_address : Fld := { reg := .CORE_FAULT, hi := 0, lo := 0, acc := .w1c }
abbrev CORE_FAULT.watchdog : Fld := { reg := .CORE_FAULT, hi := 1, lo := 1, acc := .w1c }
abbrev CORE_FAULT.dup_token : Fld := { reg := .CORE_FAULT, hi := 2, lo := 2, acc := .w1c }
abbrev CORE_FAULT.oversize : Fld := { reg := .CORE_FAULT, hi := 3, lo := 3, acc := .w1c }
abbrev CORE_FAULT.bad_token : Fld := { reg := .CORE_FAULT, hi := 4, lo := 4, acc := .w1c }
abbrev CORE_FAULT.first_pc : Fld := { reg := .CORE_FAULT, hi := 25, lo := 16 }

/-- The register tables. -/
def Reg.info : Reg → RegInfo
  | .DEV_ID => ⟨0x0, [], false, false, .all, false, [DEV_ID.grade, DEV_ID.revision, DEV_ID.part]⟩ -- R566
  | .HIF_STATUS => ⟨0x4, [], false, false, .pf, false, [HIF_STATUS.link_up, HIF_STATUS.rate, HIF_STATUS.width, HIF_STATUS.vfs]⟩ -- R566
  | .HIF_CONFIG => ⟨0x8, [], false, false, .pf, false, [HIF_CONFIG.max_rate, HIF_CONFIG.no_snoop, HIF_CONFIG.relaxed, HIF_CONFIG.cxl_retrain]⟩ -- R566
  | .HIF_BAD_ACCESS => ⟨0x10, [], true, true, .all, false, [{ reg := .HIF_BAD_ACCESS, hi := 63, lo := 0 }]⟩ -- R566
  | .HIF_DMA_ERRORS => ⟨0x18, [], true, true, .all, false, [{ reg := .HIF_DMA_ERRORS, hi := 63, lo := 0 }]⟩ -- R566
  | .HIF_DMA_READ_BYTES => ⟨0x20, [], true, true, .all, false, [{ reg := .HIF_DMA_READ_BYTES, hi := 63, lo := 0 }]⟩ -- R566
  | .HIF_DMA_WRITE_BYTES => ⟨0x28, [], true, true, .all, false, [{ reg := .HIF_DMA_WRITE_BYTES, hi := 63, lo := 0 }]⟩ -- R566
  | .HIF_LINK_DOWNS => ⟨0x30, [], false, true, .pf, false, [{ reg := .HIF_LINK_DOWNS, hi := 63, lo := 0 }]⟩ -- R566
  | .HIF_APERTURE => ⟨0x100, [(16, 8)], true, true, .all, false, [HIF_APERTURE.valid, HIF_APERTURE.context, HIF_APERTURE.base]⟩ -- R566
  | .HIF_XLAT => ⟨0x10000, [(16384, 8)], true, true, .all, true, [HIF_XLAT.valid, HIF_XLAT.write, HIF_XLAT.host]⟩ -- R566
  | .HIF_MSIX_TABLE => ⟨0x40000, [(256, 16), (2, 8)], true, true, .all, false, [{ reg := .HIF_MSIX_TABLE, hi := 63, lo := 0, acc := .rw }]⟩ -- R566
  | .HIF_MSIX_PBA => ⟨0x50000, [(4, 8)], true, true, .all, false, [{ reg := .HIF_MSIX_PBA, hi := 63, lo := 0 }]⟩ -- R566
  | .CTX_STATUS => ⟨0x100000, [], false, false, .pf, false, [CTX_STATUS.contexts, CTX_STATUS.reserved_regions]⟩ -- R417
  | .CTX_ADMIN => ⟨0x100004, [], false, false, .pf, true, [CTX_ADMIN.op, CTX_ADMIN.context, CTX_ADMIN.function]⟩ -- R417
  | .CTX_ADMIN_STATUS => ⟨0x100008, [], false, false, .pf, false, [CTX_ADMIN_STATUS.status, CTX_ADMIN_STATUS.busy]⟩ -- R417
  | .CTX_PREEMPT => ⟨0x10000C, [], false, false, .pf, true, [CTX_PREEMPT.context, CTX_PREEMPT.go]⟩ -- R417
  | .CTX_REGION_RESERVE => ⟨0x100100, [(16, 4)], false, false, .pf, true, [CTX_REGION_RESERVE.context, CTX_REGION_RESERVE.claimed, CTX_REGION_RESERVE.claimant]⟩ -- R417
  | .CTX_CONFIG => ⟨0x100200, [(31, 4)], false, false, .pf, false, [CTX_CONFIG.function, CTX_CONFIG.priority, CTX_CONFIG.preemptible, CTX_CONFIG.hold, CTX_CONFIG.exists]⟩ -- R417
  | .CTX_RING_BASE => ⟨0x104000, [(31, 0x100)], false, true, .ctx, false, [CTX_RING_BASE.address]⟩ -- R417
  | .CTX_CPL_BASE => ⟨0x104008, [(31, 0x100)], false, true, .ctx, false, [CTX_CPL_BASE.address]⟩ -- R417
  | .CTX_CTRL_BASE => ⟨0x104010, [(31, 0x100)], false, true, .ctx, false, [CTX_CTRL_BASE.address]⟩ -- R417
  | .CTX_RING_CONFIG => ⟨0x104018, [(31, 0x100)], false, false, .ctx, true, [CTX_RING_CONFIG.sub_size, CTX_RING_CONFIG.cpl_size, CTX_RING_CONFIG.poll, CTX_RING_CONFIG.enable, CTX_RING_CONFIG.vector]⟩ -- R417
  | .CTX_PSTATE => ⟨0x10401C, [(31, 0x100)], false, false, .ctx, false, [CTX_PSTATE.state, CTX_PSTATE.forced, CTX_PSTATE.ring_fault, CTX_PSTATE.regions]⟩ -- R417
  | .CTX_SAVE_BASE => ⟨0x104020, [(31, 0x100)], false, true, .ctx, false, [CTX_SAVE_BASE.address]⟩ -- R417
  | .CTX_SAVE_SIZE => ⟨0x104028, [(31, 0x100)], false, true, .ctx, false, [CTX_SAVE_SIZE.size]⟩ -- R417
  | .CTX_MANIFEST_BASE => ⟨0x104030, [(31, 0x100)], false, true, .ctx, false, [CTX_MANIFEST_BASE.address]⟩ -- R417
  | .CTX_MANIFEST_COUNT => ⟨0x104038, [(31, 0x100)], false, false, .ctx, false, [CTX_MANIFEST_COUNT.count]⟩ -- R417
  | .CTX_PREEMPT_DEADLINE => ⟨0x10403C, [(31, 0x100)], false, false, .ctx, false, [CTX_PREEMPT_DEADLINE.limit_us]⟩ -- R417
  | .CTX_SUB_HEAD => ⟨0x104040, [(31, 0x100)], false, true, .ctx, false, [{ reg := .CTX_SUB_HEAD, hi := 63, lo := 0 }]⟩ -- R417
  | .CTX_CPL_TAIL => ⟨0x104048, [(31, 0x100)], false, true, .ctx, false, [{ reg := .CTX_CPL_TAIL, hi := 63, lo := 0 }]⟩ -- R417
  | .CTX_CPL_LOST => ⟨0x104050, [(31, 0x100)], false, true, .ctx, false, [{ reg := .CTX_CPL_LOST, hi := 63, lo := 0 }]⟩ -- R417
  | .CTX_PREEMPTS => ⟨0x104058, [(31, 0x100)], false, true, .ctx, false, [{ reg := .CTX_PREEMPTS, hi := 63, lo := 0 }]⟩ -- R417
  | .CTX_FORCED => ⟨0x104060, [(31, 0x100)], false, true, .ctx, false, [{ reg := .CTX_FORCED, hi := 63, lo := 0 }]⟩ -- R417
  | .CTX_LAST_PREEMPT_TICKS => ⟨0x104068, [(31, 0x100)], false, true, .ctx, false, [{ reg := .CTX_LAST_PREEMPT_TICKS, hi := 63, lo := 0 }]⟩ -- R417
  | .CTX_ACC_REGION_TICKS => ⟨0x104080, [(31, 0x100)], false, true, .ctx, false, [{ reg := .CTX_ACC_REGION_TICKS, hi := 63, lo := 0 }]⟩ -- R417
  | .CTX_ACC_TENSOR => ⟨0x104088, [(31, 0x100)], false, true, .ctx, false, [{ reg := .CTX_ACC_TENSOR, hi := 63, lo := 0 }]⟩ -- R417
  | .CTX_ACC_VECTOR => ⟨0x104090, [(31, 0x100)], false, true, .ctx, false, [{ reg := .CTX_ACC_VECTOR, hi := 63, lo := 0 }]⟩ -- R417
  | .CTX_ACC_FETCH_BYTES => ⟨0x104098, [(31, 0x100)], false, true, .ctx, false, [{ reg := .CTX_ACC_FETCH_BYTES, hi := 63, lo := 0 }]⟩ -- R417
  | .CTX_ACC_TIER_BYTES => ⟨0x1040A0, [(31, 0x100)], false, true, .ctx, false, [{ reg := .CTX_ACC_TIER_BYTES, hi := 63, lo := 0 }]⟩ -- R417
  | .CTX_ACC_LINK_BYTES => ⟨0x1040A8, [(31, 0x100)], false, true, .ctx, false, [{ reg := .CTX_ACC_LINK_BYTES, hi := 63, lo := 0 }]⟩ -- R417
  | .CTX_ACC_SAVE_BYTES => ⟨0x1040B0, [(31, 0x100)], false, true, .ctx, false, [{ reg := .CTX_ACC_SAVE_BYTES, hi := 63, lo := 0 }]⟩ -- R417
  | .CTX_ACC_ENERGY_UJ => ⟨0x1040B8, [(31, 0x100)], false, true, .ctx, false, [{ reg := .CTX_ACC_ENERGY_UJ, hi := 63, lo := 0 }]⟩ -- R417
  | .CTX_STEP => ⟨0x108000, [(31, 0x80)], false, true, .ctx, false, [{ reg := .CTX_STEP, hi := 63, lo := 0 }]⟩ -- R341
  | .CTX_STEP_STATE => ⟨0x108008, [(31, 0x80)], false, false, .ctx, false, [CTX_STEP_STATE.state, CTX_STEP_STATE.sel, CTX_STEP_STATE.reshard_held, CTX_STEP_STATE.microbatches]⟩ -- R341
  | .CTX_HEALTH => ⟨0x10800C, [(31, 0x80)], false, false, .ctx, false, [CTX_HEALTH.local_, CTX_HEALTH.job, CTX_HEALTH.outcome]⟩ -- R341
  | .CTX_BANK_BASE => ⟨0x108010, [(31, 0x80)], false, true, .ctx, false, [CTX_BANK_BASE.value]⟩ -- R341
  | .CTX_BANK_SIZE => ⟨0x108018, [(31, 0x80)], false, true, .ctx, false, [CTX_BANK_SIZE.value]⟩ -- R341
  | .CTX_BANK_DELTA => ⟨0x108020, [(31, 0x80)], false, true, .ctx, false, [CTX_BANK_DELTA.value]⟩ -- R341
  | .CTX_LAYOUT_EPOCH => ⟨0x108028, [(31, 0x80)], false, false, .ctx, false, [{ reg := .CTX_LAYOUT_EPOCH, hi := 31, lo := 0 }]⟩ -- R341
  | .CTX_PENDING_EPOCH => ⟨0x10802C, [(31, 0x80)], false, false, .ctx, false, [{ reg := .CTX_PENDING_EPOCH, hi := 31, lo := 0 }]⟩ -- R341
  | .CTX_COMMIT_MARGIN => ⟨0x108030, [(31, 0x80)], false, false, .ctx, false, [CTX_COMMIT_MARGIN.value]⟩ -- R341
  | .CTX_VOTE_TIMEOUT => ⟨0x108034, [(31, 0x80)], false, false, .ctx, false, [CTX_VOTE_TIMEOUT.value]⟩ -- R341
  | .CTX_STEP_START => ⟨0x108038, [(31, 0x80)], false, true, .ctx, false, [{ reg := .CTX_STEP_START, hi := 63, lo := 0 }]⟩ -- R341
  | .CTX_VOTE_TICK => ⟨0x108040, [(31, 0x80)], false, true, .ctx, false, [{ reg := .CTX_VOTE_TICK, hi := 63, lo := 0 }]⟩ -- R341
  | .CTX_FLIP_TICK => ⟨0x108048, [(31, 0x80)], false, true, .ctx, false, [{ reg := .CTX_FLIP_TICK, hi := 63, lo := 0 }]⟩ -- R341
  | .CTX_COMMITS => ⟨0x108050, [(31, 0x80)], false, true, .ctx, false, [{ reg := .CTX_COMMITS, hi := 63, lo := 0 }]⟩ -- R341
  | .CTX_ABORTS => ⟨0x108058, [(31, 0x80)], false, true, .ctx, false, [{ reg := .CTX_ABORTS, hi := 63, lo := 0 }]⟩ -- R341
  | .CTX_LATE_FLIPS => ⟨0x108060, [(31, 0x80)], false, true, .ctx, false, [{ reg := .CTX_LATE_FLIPS, hi := 63, lo := 0 }]⟩ -- R341
  | .CTX_IN_DOUBT => ⟨0x108068, [(31, 0x80)], false, true, .ctx, false, [{ reg := .CTX_IN_DOUBT, hi := 63, lo := 0 }]⟩ -- R341
  | .CTX_RESHARDS => ⟨0x108070, [(31, 0x80)], false, true, .ctx, false, [{ reg := .CTX_RESHARDS, hi := 63, lo := 0 }]⟩ -- R341
  | .CTX_TAG_BASE => ⟨0x108078, [(31, 0x80)], false, false, .ctx, false, [CTX_TAG_BASE.base]⟩ -- R341
  | .MGT_STATUS => ⟨0x200000, [], false, false, .pf, false, [MGT_STATUS.lead, MGT_STATUS.led, MGT_STATUS.west_ready, MGT_STATUS.east_ready, MGT_STATUS.west_slot, MGT_STATUS.east_slot]⟩ -- R504
  | .MGT_TERM => ⟨0x200004, [], false, false, .pf, false, [{ reg := .MGT_TERM, hi := 31, lo := 0 }]⟩ -- R504
  | .MGT_TICK => ⟨0x200008, [], false, true, .pf, false, [{ reg := .MGT_TICK, hi := 63, lo := 0 }]⟩ -- R504
  | .MGT_FW_IMAGE => ⟨0x200010, [], false, true, .pf, false, [MGT_FW_IMAGE.address]⟩ -- R504
  | .MGT_FW_LEN => ⟨0x200018, [], false, false, .pf, false, [MGT_FW_LEN.bytes]⟩ -- R504
  | .MGT_FW_CMD => ⟨0x20001C, [], false, false, .pf, true, [MGT_FW_CMD.op, MGT_FW_CMD.offline]⟩ -- R504
  | .MGT_FW_STATUS => ⟨0x200020, [], false, false, .pf, false, [MGT_FW_STATUS.status, MGT_FW_STATUS.stage, MGT_FW_STATUS.busy]⟩ -- R504
  | .MGT_SAT => ⟨0x200024, [], false, false, .pf, false, [MGT_SAT.blocks]⟩ -- R504
  | .MGT_LEAD_CHANGES => ⟨0x200040, [], false, true, .pf, false, [{ reg := .MGT_LEAD_CHANGES, hi := 63, lo := 0 }]⟩ -- R504
  | .MGT_MGMT_FAULTS => ⟨0x200048, [], false, true, .pf, false, [{ reg := .MGT_MGMT_FAULTS, hi := 63, lo := 0 }]⟩ -- R504
  | .MGT_TICK_OVERRUN => ⟨0x200050, [], false, true, .pf, false, [{ reg := .MGT_TICK_OVERRUN, hi := 63, lo := 0 }]⟩ -- R504
  | .MGT_FW_UPDATES => ⟨0x200058, [], false, true, .pf, false, [{ reg := .MGT_FW_UPDATES, hi := 63, lo := 0 }]⟩ -- R504
  | .MGT_CLASS_EVENTS => ⟨0x200100, [(13, 8)], false, true, .pf, false, [{ reg := .MGT_CLASS_EVENTS, hi := 63, lo := 0 }]⟩ -- R504
  | .SEC_STATUS => ⟨0x300000, [], false, false, .pf, true, [SEC_STATUS.svn, SEC_STATUS.key_lock, SEC_STATUS.keys, SEC_STATUS.fw_backup, SEC_STATUS.violated]⟩ -- R519
  | .SEC_KEY_CMD => ⟨0x300004, [], false, false, .pf, true, [SEC_KEY_CMD.op]⟩ -- R519
  | .SEC_KEY_STATUS => ⟨0x300008, [], false, false, .pf, false, [SEC_KEY_STATUS.status, SEC_KEY_STATUS.busy]⟩ -- R519
  | .SEC_KEY_ADDR => ⟨0x300010, [], false, true, .pf, false, [SEC_KEY_ADDR.address]⟩ -- R519
  | .SEC_EXPECT_BASE => ⟨0x300018, [], false, true, .pf, false, [SEC_EXPECT_BASE.address]⟩ -- R519
  | .SEC_EXPECT_COUNT => ⟨0x300020, [], false, false, .pf, true, [SEC_EXPECT_COUNT.count]⟩ -- R519
  | .SEC_LAST_HELD => ⟨0x300028, [], false, true, .pf, false, [SEC_LAST_HELD.where_, SEC_LAST_HELD.reason, SEC_LAST_HELD.valid]⟩ -- R519
  | .SEC_ID_DIGEST => ⟨0x300040, [(16, 4)], false, false, .pf, false, [{ reg := .SEC_ID_DIGEST, hi := 31, lo := 0 }]⟩ -- R519
  | .SEC_MEAS => ⟨0x300100, [(8, 0x40), (16, 4)], false, false, .pf, false, [{ reg := .SEC_MEAS, hi := 31, lo := 0 }]⟩ -- R519
  | .SEC_KEY_ID => ⟨0x300400, [(16, 0x40), (14, 4)], false, false, .pf, false, [{ reg := .SEC_KEY_ID, hi := 31, lo := 0 }]⟩ -- R519
  | .SEC_FOLIO_CHECKS => ⟨0x300800, [], false, true, .pf, false, [{ reg := .SEC_FOLIO_CHECKS, hi := 63, lo := 0 }]⟩ -- R519
  | .SEC_AUTH_FAILS => ⟨0x300808, [], false, true, .pf, false, [{ reg := .SEC_AUTH_FAILS, hi := 63, lo := 0 }]⟩ -- R519
  | .SEC_CHALLENGES => ⟨0x300810, [], false, true, .pf, false, [{ reg := .SEC_CHALLENGES, hi := 63, lo := 0 }]⟩ -- R519
  | .SEC_HELD => ⟨0x300818, [], false, true, .pf, false, [{ reg := .SEC_HELD, hi := 63, lo := 0 }]⟩ -- R519
  | .SEC_VIOLATIONS => ⟨0x300820, [], false, true, .pf, false, [{ reg := .SEC_VIOLATIONS, hi := 63, lo := 0 }]⟩ -- R519
  | .PWR_STATUS => ⟨0x400000, [], false, false, .pf, false, [PWR_STATUS.tj, PWR_STATUS.cap_active, PWR_STATUS.sag_in, PWR_STATUS.throttle, PWR_STATUS.peak]⟩ -- R541
  | .PWR_CMD => ⟨0x400004, [], false, false, .pf, true, [PWR_CMD.op]⟩ -- R541
  | .PWR_TARGET => ⟨0x400008, [], false, false, .pf, false, [PWR_TARGET.watts, PWR_TARGET.reserve_first]⟩ -- R541
  | .PWR_TJ => ⟨0x40000C, [], false, false, .pf, false, [PWR_TJ.target, PWR_TJ.alert]⟩ -- R541
  | .PWR_SAG => ⟨0x400010, [], false, false, .pf, false, [PWR_SAG.mv, PWR_SAG.in_level]⟩ -- R541
  | .PWR_ALERT => ⟨0x400014, [], false, false, .pf, false, [PWR_ALERT.tj, PWR_ALERT.cap, PWR_ALERT.sag_in, PWR_ALERT.peak]⟩ -- R541
  | .PWR_POWER => ⟨0x400018, [], false, false, .pf, false, [PWR_POWER.watts]⟩ -- R541
  | .PWR_PACKAGE_ENERGY_UJ => ⟨0x400020, [], false, true, .pf, false, [{ reg := .PWR_PACKAGE_ENERGY_UJ, hi := 63, lo := 0 }]⟩ -- R541
  | .PWR_TEMP => ⟨0x400040, [(20, 4)], false, false, .pf, false, [PWR_TEMP.celsius]⟩ -- R541
  | .PWR_REGION_ACLK => ⟨0x400100, [(16, 4)], false, false, .pf, false, [PWR_REGION_ACLK.level, PWR_REGION_ACLK.cap, PWR_REGION_ACLK.sag, PWR_REGION_ACLK.thermal, PWR_REGION_ACLK.peak]⟩ -- R541
  | .PWR_RAIL_ENERGY_UJ => ⟨0x400200, [(17, 8)], false, true, .pf, false, [{ reg := .PWR_RAIL_ENERGY_UJ, hi := 63, lo := 0 }]⟩ -- R541
  | .PWR_REGION_ENERGY_UJ => ⟨0x400400, [(16, 32)], false, true, .pf, false, [{ reg := .PWR_REGION_ENERGY_UJ, hi := 63, lo := 0 }]⟩ -- R541
  | .PWR_REGION_SAG_EVENTS => ⟨0x400408, [(16, 32)], false, true, .pf, false, [{ reg := .PWR_REGION_SAG_EVENTS, hi := 63, lo := 0 }]⟩ -- R541
  | .PWR_REGION_STRETCH_TICKS => ⟨0x400410, [(16, 32)], false, true, .pf, false, [{ reg := .PWR_REGION_STRETCH_TICKS, hi := 63, lo := 0 }]⟩ -- R541
  | .PWR_REGION_CAP_TICKS => ⟨0x400418, [(16, 32)], false, true, .pf, false, [{ reg := .PWR_REGION_CAP_TICKS, hi := 63, lo := 0 }]⟩ -- R541
  | .FLT_STATUS => ⟨0x500000, [], false, false, .pf, false, [FLT_STATUS.records, FLT_STATUS.compacting, FLT_STATUS.testing]⟩ -- R484
  | .FLT_JOB_STATE => ⟨0x500004, [], false, false, .pf, false, [FLT_JOB_STATE.state, FLT_JOB_STATE.path]⟩ -- R484
  | .FLT_CMD => ⟨0x500008, [], false, true, .pf, true, [FLT_CMD.op, FLT_CMD.kind, FLT_CMD.reserved, FLT_CMD.index]⟩ -- R484
  | .FLT_CMD_STATUS => ⟨0x500010, [], false, false, .pf, false, [FLT_CMD_STATUS.status, FLT_CMD_STATUS.busy]⟩ -- R484
  | .FLT_REPAIR_TIMEOUT => ⟨0x500014, [], false, false, .pf, false, [FLT_REPAIR_TIMEOUT.seconds]⟩ -- R484
  | .FLT_SERVICE_S => ⟨0x500018, [], false, true, .pf, false, [{ reg := .FLT_SERVICE_S, hi := 63, lo := 0 }]⟩ -- R484
  | .FLT_LAST => ⟨0x500020, [], false, true, .pf, false, [FLT_LAST.kind, FLT_LAST.index, FLT_LAST.cause, FLT_LAST.valid]⟩ -- R484
  | .FLT_CORE_FENCE => ⟨0x500100, [(128, 4)], false, false, .pf, false, [{ reg := .FLT_CORE_FENCE, hi := 31, lo := 0 }]⟩ -- R484
  | .FLT_ROUTER_FENCE => ⟨0x500300, [(8, 4)], false, false, .pf, false, [{ reg := .FLT_ROUTER_FENCE, hi := 31, lo := 0 }]⟩ -- R484
  | .FLT_STRIKES => ⟨0x500400, [], false, true, .pf, false, [{ reg := .FLT_STRIKES, hi := 63, lo := 0 }]⟩ -- R484
  | .FLT_TRANSIENT => ⟨0x500408, [], false, true, .pf, false, [{ reg := .FLT_TRANSIENT, hi := 63, lo := 0 }]⟩ -- R484
  | .FLT_PERMANENT => ⟨0x500410, [], false, true, .pf, false, [{ reg := .FLT_PERMANENT, hi := 63, lo := 0 }]⟩ -- R484
  | .FLT_SELFTESTS => ⟨0x500418, [], false, true, .pf, false, [{ reg := .FLT_SELFTESTS, hi := 63, lo := 0 }]⟩ -- R484
  | .FLT_SENT_RUNS => ⟨0x500420, [], false, true, .pf, false, [{ reg := .FLT_SENT_RUNS, hi := 63, lo := 0 }]⟩ -- R484
  | .FLT_SENT_MISMATCH => ⟨0x500428, [], false, true, .pf, false, [{ reg := .FLT_SENT_MISMATCH, hi := 63, lo := 0 }]⟩ -- R484
  | .FLT_SENT_UNATTRIBUTED => ⟨0x500430, [], false, true, .pf, false, [{ reg := .FLT_SENT_UNATTRIBUTED, hi := 63, lo := 0 }]⟩ -- R484
  | .FLT_SENT_SKIPPED => ⟨0x500438, [], false, true, .pf, false, [{ reg := .FLT_SENT_SKIPPED, hi := 63, lo := 0 }]⟩ -- R484
  | .FLT_CTX_SENT_BASE => ⟨0x501000, [(31, 0x100)], false, true, .ctx, false, [FLT_CTX_SENT_BASE.address]⟩ -- R484
  | .FLT_CTX_SENT_AREA => ⟨0x501008, [(31, 0x100)], false, true, .ctx, false, [FLT_CTX_SENT_AREA.address]⟩ -- R484
  | .FLT_CTX_SENT_COUNT => ⟨0x501010, [(31, 0x100)], false, false, .ctx, true, [FLT_CTX_SENT_COUNT.count]⟩ -- R484
  | .FLT_CTX_SENT_STATUS => ⟨0x501014, [(31, 0x100)], false, false, .ctx, false, [FLT_CTX_SENT_STATUS.state, FLT_CTX_SENT_STATUS.entry]⟩ -- R484
  | .FLT_CTX_SENT_WINDOW => ⟨0x501018, [(31, 0x100)], false, false, .ctx, false, [FLT_CTX_SENT_WINDOW.offset, FLT_CTX_SENT_WINDOW.size]⟩ -- R484
  | .FLT_CTX_SENT_PERIOD => ⟨0x50101C, [(31, 0x100)], false, false, .ctx, false, [FLT_CTX_SENT_PERIOD.period]⟩ -- R484
  | .SNP_STATUS => ⟨0x600000, [], false, false, .pf, false, [SNP_STATUS.state, SNP_STATUS.diverged, SNP_STATUS.complete]⟩ -- R484
  | .SNP_CMD => ⟨0x600004, [], false, false, .pf, true, [SNP_CMD.op, SNP_CMD.slot]⟩ -- R484
  | .SNP_CMD_STATUS => ⟨0x600008, [], false, false, .pf, false, [SNP_CMD_STATUS.status, SNP_CMD_STATUS.busy]⟩ -- R484
  | .SNP_CONFIG => ⟨0x60000C, [], false, false, .pf, false, [SNP_CONFIG.replica_axes, SNP_CONFIG.copies, SNP_CONFIG.rate_gbs]⟩ -- R484
  | .SNP_TARGET_BASE => ⟨0x600010, [], false, true, .pf, false, [SNP_TARGET_BASE.value]⟩ -- R484
  | .SNP_SLOT_SIZE => ⟨0x600018, [], false, true, .pf, false, [SNP_SLOT_SIZE.value]⟩ -- R484
  | .SNP_SLOTS => ⟨0x600020, [], false, false, .pf, false, [SNP_SLOTS.slots]⟩ -- R484
  | .SNP_PRIOR_FIT => ⟨0x600024, [], false, false, .pf, false, [{ reg := .SNP_PRIOR_FIT, hi := 31, lo := 0, acc := .rw, reset := 20000 }]⟩ -- R484
  | .SNP_COST_US => ⟨0x600028, [], false, false, .pf, false, [{ reg := .SNP_COST_US, hi := 31, lo := 0, acc := .rw, reset := 1000 }]⟩ -- R484
  | .SNP_MAX_INTERVAL => ⟨0x60002C, [], false, false, .pf, false, [SNP_MAX_INTERVAL.steps]⟩ -- R484
  | .SNP_INTERVAL => ⟨0x600030, [], false, false, .pf, false, [SNP_INTERVAL.steps]⟩ -- R484
  | .SNP_JOURNAL_COUNT => ⟨0x600034, [], false, false, .pf, false, [SNP_JOURNAL_COUNT.entries]⟩ -- R484
  | .SNP_JOURNAL_BASE => ⟨0x600038, [], false, true, .pf, false, [SNP_JOURNAL_BASE.value]⟩ -- R484
  | .SNP_NEWEST => ⟨0x600040, [], false, true, .pf, false, [{ reg := .SNP_NEWEST, hi := 63, lo := 0 }]⟩ -- R484
  | .SNP_ANCHOR => ⟨0x600048, [], false, true, .pf, false, [{ reg := .SNP_ANCHOR, hi := 63, lo := 0 }]⟩ -- R484
  | .SNP_REPLAY_END => ⟨0x600050, [], false, true, .pf, false, [{ reg := .SNP_REPLAY_END, hi := 63, lo := 0, acc := .rw }]⟩ -- R484
  | .SNP_TAKEN => ⟨0x600060, [], false, true, .pf, false, [{ reg := .SNP_TAKEN, hi := 63, lo := 0 }]⟩ -- R484
  | .SNP_BYTES => ⟨0x600068, [], false, true, .pf, false, [{ reg := .SNP_BYTES, hi := 63, lo := 0 }]⟩ -- R484
  | .SNP_STALL_TICKS => ⟨0x600070, [], false, true, .pf, false, [{ reg := .SNP_STALL_TICKS, hi := 63, lo := 0 }]⟩ -- R484
  | .SNP_JOURNAL_MISMATCH => ⟨0x600078, [], false, true, .pf, false, [{ reg := .SNP_JOURNAL_MISMATCH, hi := 63, lo := 0 }]⟩ -- R484
  | .SNP_FILLS => ⟨0x600080, [], false, true, .pf, false, [{ reg := .SNP_FILLS, hi := 63, lo := 0 }]⟩ -- R484
  | .SNP_RESTORES => ⟨0x600088, [], false, true, .pf, false, [{ reg := .SNP_RESTORES, hi := 63, lo := 0 }]⟩ -- R484
  | .SNP_SLOT_STEP => ⟨0x600100, [(64, 8)], false, true, .pf, false, [{ reg := .SNP_SLOT_STEP, hi := 63, lo := 0 }]⟩ -- R484
  | .NUM_STATUS => ⟨0x700000, [], false, false, .pf, false, [NUM_STATUS.entries]⟩ -- R364
  | .NUM_AMAX_REPORTS => ⟨0x700008, [], false, true, .pf, false, [{ reg := .NUM_AMAX_REPORTS, hi := 63, lo := 0 }]⟩ -- R364
  | .NUM_UNMAPPED => ⟨0x700010, [], false, true, .pf, false, [{ reg := .NUM_UNMAPPED, hi := 63, lo := 0 }]⟩ -- R364
  | .NUM_INF_AMAX => ⟨0x700018, [], false, true, .pf, false, [{ reg := .NUM_INF_AMAX, hi := 63, lo := 0 }]⟩ -- R364
  | .NUM_NF_REPORTS => ⟨0x700020, [], false, true, .pf, false, [{ reg := .NUM_NF_REPORTS, hi := 63, lo := 0 }]⟩ -- R364
  | .NUM_RATIO_DISCARDS => ⟨0x700028, [], false, true, .pf, false, [{ reg := .NUM_RATIO_DISCARDS, hi := 63, lo := 0 }]⟩ -- R364
  | .NUM_OVER_SCALE => ⟨0x700030, [], false, true, .pf, false, [{ reg := .NUM_OVER_SCALE, hi := 63, lo := 0 }]⟩ -- R364
  | .NUM_CTX_SEED => ⟨0x701000, [(31, 0x100)], false, true, .ctx, true, [{ reg := .NUM_CTX_SEED, hi := 63, lo := 0, acc := .rw }]⟩ -- R364
  | .NUM_CTX_MAP_BASE => ⟨0x701008, [(31, 0x100)], false, true, .ctx, false, [{ reg := .NUM_CTX_MAP_BASE, hi := 63, lo := 0, acc := .rw }]⟩ -- R364
  | .NUM_CTX_MAP_COUNT => ⟨0x701010, [(31, 0x100)], false, false, .ctx, true, [NUM_CTX_MAP_COUNT.count]⟩ -- R364
  | .NUM_CTX_MAP_STATUS => ⟨0x701014, [(31, 0x100)], false, false, .ctx, false, [NUM_CTX_MAP_STATUS.state, NUM_CTX_MAP_STATUS.entry]⟩ -- R364
  | .NUM_CTX_BLOCK_OFFSET => ⟨0x701018, [(31, 0x100)], false, true, .ctx, false, [{ reg := .NUM_CTX_BLOCK_OFFSET, hi := 63, lo := 0, acc := .rw }]⟩ -- R364
  | .NUM_CTX_WORK_BASE => ⟨0x701020, [(31, 0x100)], false, true, .ctx, false, [{ reg := .NUM_CTX_WORK_BASE, hi := 63, lo := 0, acc := .rw }]⟩ -- R364
  | .NUM_CTX_STATS_BASE => ⟨0x701028, [(31, 0x100)], false, true, .ctx, false, [{ reg := .NUM_CTX_STATS_BASE, hi := 63, lo := 0, acc := .rw }]⟩ -- R364
  | .NUM_CTX_STATS_DEPTH => ⟨0x701030, [(31, 0x100)], false, false, .ctx, false, [NUM_CTX_STATS_DEPTH.depth]⟩ -- R364
  | .NUM_CTX_NF_WHERE => ⟨0x701034, [(31, 0x100)], false, false, .ctx, true, [NUM_CTX_NF_WHERE.region, NUM_CTX_NF_WHERE.cluster, NUM_CTX_NF_WHERE.core, NUM_CTX_NF_WHERE.op, NUM_CTX_NF_WHERE.valid]⟩ -- R364
  | .NUM_CTX_NF_TENSOR => ⟨0x701038, [(31, 0x100)], false, false, .ctx, false, [{ reg := .NUM_CTX_NF_TENSOR, hi := 31, lo := 0 }]⟩ -- R364
  | .NUM_CTX_NF_BATCH => ⟨0x70103C, [(31, 0x100)], false, false, .ctx, false, [NUM_CTX_NF_BATCH.microbatch, NUM_CTX_NF_BATCH.tag]⟩ -- R364
  | .NUM_CTX_NF_STEP => ⟨0x701040, [(31, 0x100)], false, true, .ctx, false, [{ reg := .NUM_CTX_NF_STEP, hi := 63, lo := 0 }]⟩ -- R364
  | .NUM_CTX_NF_TICK => ⟨0x701048, [(31, 0x100)], false, true, .ctx, false, [{ reg := .NUM_CTX_NF_TICK, hi := 63, lo := 0 }]⟩ -- R364
  | .NUM_CTX_NF_COUNT => ⟨0x701050, [(31, 0x100)], false, true, .ctx, false, [{ reg := .NUM_CTX_NF_COUNT, hi := 63, lo := 0 }]⟩ -- R364
  | .FIN_STATUS => ⟨0x800000, [], false, false, .pf, false, [FIN_STATUS.busy]⟩ -- R385
  | .FIN_MOVED_BYTES => ⟨0x800008, [(4, 8)], false, true, .pf, false, [{ reg := .FIN_MOVED_BYTES, hi := 63, lo := 0 }]⟩ -- R385
  | .FIN_TRUNCATED => ⟨0x800028, [], false, true, .pf, false, [{ reg := .FIN_TRUNCATED, hi := 63, lo := 0 }]⟩ -- R385
  | .FIN_DISCARDS => ⟨0x800030, [], false, true, .pf, false, [{ reg := .FIN_DISCARDS, hi := 63, lo := 0 }]⟩ -- R385
  | .FIN_CTX_TABLE_BASE => ⟨0x801000, [(31, 0x8000)], false, true, .ctx, false, [FIN_CTX_TABLE_BASE.address]⟩ -- R385
  | .FIN_CTX_TABLE_COUNT => ⟨0x801008, [(31, 0x8000)], false, false, .ctx, true, [FIN_CTX_TABLE_COUNT.count]⟩ -- R385
  | .FIN_CTX_TABLE_STATUS => ⟨0x80100C, [(31, 0x8000)], false, false, .ctx, false, [FIN_CTX_TABLE_STATUS.state, FIN_CTX_TABLE_STATUS.entry]⟩ -- R385
  | .FIN_CTX_MOVER_BASE => ⟨0x801010, [(31, 0x8000)], false, true, .ctx, false, [FIN_CTX_MOVER_BASE.address]⟩ -- R385
  | .FIN_CTX_MOVER_COUNT => ⟨0x801018, [(31, 0x8000)], false, false, .ctx, false, [FIN_CTX_MOVER_COUNT.count]⟩ -- R385
  | .FIN_CTX_DONE_VID => ⟨0x80101C, [(31, 0x8000)], false, false, .ctx, false, [FIN_CTX_DONE_VID.vid]⟩ -- R385
  | .FIN_CTX_FALLBACK_BLOCKS => ⟨0x801020, [(31, 0x8000)], false, true, .ctx, false, [{ reg := .FIN_CTX_FALLBACK_BLOCKS, hi := 63, lo := 0 }]⟩ -- R385
  | .FIN_SINGULAR_COUNT => ⟨0x802000, [(31, 0x8000), (1024, 8)], false, true, .ctx, false, [{ reg := .FIN_SINGULAR_COUNT, hi := 63, lo := 0 }]⟩ -- R385
  | .FIN_ZERO_DENOM => ⟨0x804000, [(31, 0x8000), (1024, 8)], false, true, .ctx, false, [{ reg := .FIN_ZERO_DENOM, hi := 63, lo := 0 }]⟩ -- R385
  | .LNK_STATUS => ⟨0x900000, [], false, false, .pf, false, [LNK_STATUS.joined, LNK_STATUS.shepherd, LNK_STATUS.deputy, LNK_STATUS.tick_root, LNK_STATUS.sync_lost]⟩ -- R455
  | .LNK_JOB_CMD => ⟨0x900004, [], false, false, .pf, true, [LNK_JOB_CMD.op]⟩ -- R455
  | .LNK_JOB_ID => ⟨0x900008, [], false, false, .pf, false, [{ reg := .LNK_JOB_ID, hi := 31, lo := 0, acc := .rw }]⟩ -- R455
  | .LNK_JOB_DIMS => ⟨0x90000C, [], false, false, .pf, false, [{ reg := .LNK_JOB_DIMS, hi := 31, lo := 0, acc := .rw }]⟩ -- R455
  | .LNK_JOB_COORD => ⟨0x900010, [], false, false, .pf, false, [{ reg := .LNK_JOB_COORD, hi := 31, lo := 0, acc := .rw }]⟩ -- R455
  | .LNK_JOB_CTX => ⟨0x900014, [], false, false, .pf, false, [LNK_JOB_CTX.context]⟩ -- R455
  | .LNK_FLOCK => ⟨0x900018, [], false, false, .pf, false, [{ reg := .LNK_FLOCK, hi := 31, lo := 0, acc := .rw }]⟩ -- R455
  | .LNK_SEGMENT => ⟨0x90001C, [], false, false, .pf, false, [LNK_SEGMENT.axis, LNK_SEGMENT.length]⟩ -- R455
  | .LNK_SHEPHERD_TIMEOUT => ⟨0x900020, [], false, false, .pf, false, [LNK_SHEPHERD_TIMEOUT.us]⟩ -- R455
  | .LNK_RECAL_HOURS => ⟨0x900024, [], false, false, .pf, false, [LNK_RECAL_HOURS.hours]⟩ -- R455
  | .LNK_TICK => ⟨0x900028, [], false, true, .pf, false, [{ reg := .LNK_TICK, hi := 63, lo := 0 }]⟩ -- R455
  | .LNK_PORT_CFG => ⟨0x900100, [(9, 0x40)], false, false, .pf, true, [LNK_PORT_CFG.role, LNK_PORT_CFG.mode, LNK_PORT_CFG.vlan, LNK_PORT_CFG.recal, LNK_PORT_CFG.ethertype]⟩ -- R455
  | .LNK_PORT_STATUS => ⟨0x900104, [(9, 0x40)], false, false, .pf, false, [LNK_PORT_STATUS.state, LNK_PORT_STATUS.lanes]⟩ -- R455
  | .LNK_TX_BYTES => ⟨0x900108, [(9, 0x40)], false, true, .pf, false, [{ reg := .LNK_TX_BYTES, hi := 63, lo := 0 }]⟩ -- R455
  | .LNK_RX_BYTES => ⟨0x900110, [(9, 0x40)], false, true, .pf, false, [{ reg := .LNK_RX_BYTES, hi := 63, lo := 0 }]⟩ -- R455
  | .LNK_REPLAYS => ⟨0x900118, [(9, 0x40)], false, true, .pf, false, [{ reg := .LNK_REPLAYS, hi := 63, lo := 0 }]⟩ -- R455
  | .LNK_FEC_CORRECTED => ⟨0x900120, [(9, 0x40)], false, true, .pf, false, [{ reg := .LNK_FEC_CORRECTED, hi := 63, lo := 0 }]⟩ -- R455
  | .LNK_FEC_UNCORRECTED => ⟨0x900128, [(9, 0x40)], false, true, .pf, false, [{ reg := .LNK_FEC_UNCORRECTED, hi := 63, lo := 0 }]⟩ -- R455
  | .LNK_RECALS => ⟨0x900130, [(9, 0x40)], false, true, .pf, false, [{ reg := .LNK_RECALS, hi := 63, lo := 0 }]⟩ -- R455
  | .LNK_LANE_DROPS => ⟨0x900138, [(9, 0x40)], false, true, .pf, false, [{ reg := .LNK_LANE_DROPS, hi := 63, lo := 0 }]⟩ -- R455
  | .COL_STATUS => ⟨0xA00000, [], false, false, .job, false, [COL_STATUS.state, COL_STATUS.entry]⟩ -- R455
  | .COL_TABLE_BASE => ⟨0xA00008, [], false, true, .job, false, [COL_TABLE_BASE.address]⟩ -- R455
  | .COL_TABLE_COUNT => ⟨0xA00010, [], false, false, .job, true, [COL_TABLE_COUNT.count]⟩ -- R455
  | .COL_LAST_MISMATCH => ⟨0xA00018, [], false, true, .job, false, [COL_LAST_MISMATCH.entry, COL_LAST_MISMATCH.segment, COL_LAST_MISMATCH.sender, COL_LAST_MISMATCH.valid]⟩ -- R455
  | .COL_RUNS => ⟨0xA00020, [], false, true, .job, false, [{ reg := .COL_RUNS, hi := 63, lo := 0 }]⟩ -- R455
  | .COL_BYTES_SENT => ⟨0xA00028, [], false, true, .job, false, [{ reg := .COL_BYTES_SENT, hi := 63, lo := 0 }]⟩ -- R455
  | .COL_DIGEST_MISMATCH => ⟨0xA00030, [], false, true, .job, false, [{ reg := .COL_DIGEST_MISMATCH, hi := 63, lo := 0 }]⟩ -- R455
  | .COL_EPOCH_STALE => ⟨0xA00038, [], false, true, .job, false, [{ reg := .COL_EPOCH_STALE, hi := 63, lo := 0 }]⟩ -- R455
  | .COL_PARKED => ⟨0xA00040, [], false, true, .job, false, [{ reg := .COL_PARKED, hi := 63, lo := 0 }]⟩ -- R455
  | .COL_OVERFLOW => ⟨0xA00048, [], false, true, .job, false, [{ reg := .COL_OVERFLOW, hi := 63, lo := 0 }]⟩ -- R455
  | .MEM_STATUS => ⟨0xB00000, [], false, false, .pf, false, [MEM_STATUS.fenced, MEM_STATUS.init_done]⟩ -- R287
  | .MEM_SCRUB_HOURS => ⟨0xB00004, [], false, false, .pf, false, [MEM_SCRUB_HOURS.value]⟩ -- R287
  | .MEM_RETIRE_LIMIT => ⟨0xB00008, [], false, false, .pf, true, [MEM_RETIRE_LIMIT.value]⟩ -- R287
  | .MEM_LAST_DETECT => ⟨0xB00010, [], false, true, .pf, false, [MEM_LAST_DETECT.offset, MEM_LAST_DETECT.stack, MEM_LAST_DETECT.at_rest, MEM_LAST_DETECT.scrub, MEM_LAST_DETECT.valid]⟩ -- R287
  | .MEM_STACK_RETIRED => ⟨0xB00100, [(16, 4)], false, false, .pf, false, [MEM_STACK_RETIRED.pages]⟩ -- R287
  | .MEM_READ_BYTES => ⟨0xB00200, [(16, 32)], false, true, .pf, false, [{ reg := .MEM_READ_BYTES, hi := 63, lo := 0 }]⟩ -- R287
  | .MEM_WRITE_BYTES => ⟨0xB00208, [(16, 32)], false, true, .pf, false, [{ reg := .MEM_WRITE_BYTES, hi := 63, lo := 0 }]⟩ -- R287
  | .MEM_RETRY_OK => ⟨0xB00210, [(16, 32)], false, true, .pf, false, [{ reg := .MEM_RETRY_OK, hi := 63, lo := 0 }]⟩ -- R287
  | .MEM_AT_REST => ⟨0xB00218, [(16, 32)], false, true, .pf, false, [{ reg := .MEM_AT_REST, hi := 63, lo := 0 }]⟩ -- R287
  | .MEM_QUAD_MODE => ⟨0xB10000, [(3072, 4)], false, false, .pf, true, [{ reg := .MEM_QUAD_MODE, hi := 31, lo := 0, acc := .rw }]⟩ -- R287
  | .MEM_PAGE => ⟨0xB40000, [(196608, 4)], false, false, .pf, true, [MEM_PAGE.owner, MEM_PAGE.pool, MEM_PAGE.zeroing, MEM_PAGE.retired, MEM_PAGE.owner1, MEM_PAGE.pool1, MEM_PAGE.zeroing1, MEM_PAGE.retired1]⟩ -- R287
  | .TIR_CONFIG => ⟨0xC00000, [], false, false, .pf, false, [TIR_CONFIG.interleave]⟩ -- R287
  | .TIR_POOL_COUNT => ⟨0xC00004, [], false, false, .pf, true, [TIR_POOL_COUNT.slots]⟩ -- R287
  | .TIR_POOL_BASE => ⟨0xC00008, [], false, false, .pf, true, [TIR_POOL_BASE.page]⟩ -- R287
  | .TIR_PORT_STATUS => ⟨0xC00010, [(2, 4)], false, false, .pf, false, [TIR_PORT_STATUS.up, TIR_PORT_STATUS.rate, TIR_PORT_STATUS.cxl2, TIR_PORT_STATUS.width, TIR_PORT_STATUS.capacity_gib]⟩ -- R287
  | .TIR_LOADS => ⟨0xC00020, [], false, true, .pf, false, [{ reg := .TIR_LOADS, hi := 63, lo := 0 }]⟩ -- R287
  | .TIR_EVICTIONS => ⟨0xC00028, [], false, true, .pf, false, [{ reg := .TIR_EVICTIONS, hi := 63, lo := 0 }]⟩ -- R287
  | .TIR_LOAD_BYTES => ⟨0xC00030, [], false, true, .pf, false, [{ reg := .TIR_LOAD_BYTES, hi := 63, lo := 0 }]⟩ -- R287
  | .TIR_WRITEBACK_BYTES => ⟨0xC00038, [], false, true, .pf, false, [{ reg := .TIR_WRITEBACK_BYTES, hi := 63, lo := 0 }]⟩ -- R287
  | .TIR_NO_SPACE => ⟨0xC00040, [], false, true, .pf, false, [{ reg := .TIR_NO_SPACE, hi := 63, lo := 0 }]⟩ -- R287
  | .TIR_HOLD_NCLK => ⟨0xC00048, [], false, true, .pf, false, [{ reg := .TIR_HOLD_NCLK, hi := 63, lo := 0 }]⟩ -- R287
  | .TIR_LOST_SUBBLOCKS => ⟨0xC00050, [], false, true, .pf, false, [{ reg := .TIR_LOST_SUBBLOCKS, hi := 63, lo := 0 }]⟩ -- R287
  | .TIR_POISON_READS => ⟨0xC00058, [], false, true, .pf, false, [{ reg := .TIR_POISON_READS, hi := 63, lo := 0 }]⟩ -- R287
  | .TIR_CMD => ⟨0xC00060, [], false, true, .pf, true, [TIR_CMD.page, TIR_CMD.op]⟩ -- R287
  | .TIR_CMD_STATUS => ⟨0xC00068, [], false, false, .pf, false, [TIR_CMD_STATUS.status, TIR_CMD_STATUS.busy]⟩ -- R287
  | .TIR_CTX_QUOTA => ⟨0xC00100, [(31, 4)], false, false, .pf, false, [TIR_CTX_QUOTA.slots]⟩ -- R287
  | .TIR_EXTENT => ⟨0xC01000, [(2048, 4)], false, false, .pf, false, [TIR_EXTENT.owner0, TIR_EXTENT.owner1, TIR_EXTENT.owner2, TIR_EXTENT.owner3]⟩ -- R287
  | .TIR_SLOT => ⟨0xC40000, [(16384, 16)], false, true, .pf, false, [TIR_SLOT.page, TIR_SLOT.owner, TIR_SLOT.valid, TIR_SLOT.pinned, TIR_SLOT.state, TIR_SLOT.age]⟩ -- R287
  | .TIR_SLOT_DIRTY => ⟨0xC40008, [(16384, 16)], false, true, .pf, false, [TIR_SLOT_DIRTY.dirty]⟩ -- R287
  | .HRD_STATUS => ⟨0xD00000, [], false, false, .pf, false, [HRD_STATUS.tallies, HRD_STATUS.translations]⟩ -- R308
  | .HRD_STANDOFF_US => ⟨0xD00004, [], false, false, .pf, false, [HRD_STANDOFF_US.limit]⟩ -- R308
  | .HRD_LAST_STANDOFF => ⟨0xD00008, [], false, true, .pf, false, [HRD_LAST_STANDOFF.region, HRD_LAST_STANDOFF.cluster, HRD_LAST_STANDOFF.core, HRD_LAST_STANDOFF.op, HRD_LAST_STANDOFF.out, HRD_LAST_STANDOFF.context, HRD_LAST_STANDOFF.fault, HRD_LAST_STANDOFF.streams, HRD_LAST_STANDOFF.valid]⟩ -- R308
  | .HRD_CMD_IMAGE => ⟨0xD00020, [(8, 4)], false, false, .pf, false, [{ reg := .HRD_CMD_IMAGE, hi := 31, lo := 0, acc := .rw }]⟩ -- R308
  | .HRD_CMD => ⟨0xD00040, [], false, false, .pf, true, [HRD_CMD.go]⟩ -- R308
  | .HRD_CMD_STATUS => ⟨0xD00044, [], false, false, .pf, false, [HRD_CMD_STATUS.status, HRD_CMD_STATUS.busy]⟩ -- R308
  | .HRD_CMD_RESULT => ⟨0xD00048, [], false, false, .pf, false, [{ reg := .HRD_CMD_RESULT, hi := 31, lo := 0 }]⟩ -- R308
  | .HRD_OPS => ⟨0xD00100, [], false, true, .pf, false, [{ reg := .HRD_OPS, hi := 63, lo := 0 }]⟩ -- R308
  | .HRD_BARKS => ⟨0xD00108, [], false, true, .pf, false, [{ reg := .HRD_BARKS, hi := 63, lo := 0 }]⟩ -- R308
  | .HRD_OVERDRAWS => ⟨0xD00110, [], false, true, .pf, false, [{ reg := .HRD_OVERDRAWS, hi := 63, lo := 0 }]⟩ -- R308
  | .HRD_SATURATIONS => ⟨0xD00118, [], false, true, .pf, false, [{ reg := .HRD_SATURATIONS, hi := 63, lo := 0 }]⟩ -- R308
  | .HRD_ORPHAN_OPS => ⟨0xD00120, [], false, true, .pf, false, [{ reg := .HRD_ORPHAN_OPS, hi := 63, lo := 0 }]⟩ -- R308
  | .HRD_STANDOFF_BREAKS => ⟨0xD00128, [], false, true, .pf, false, [{ reg := .HRD_STANDOFF_BREAKS, hi := 63, lo := 0 }]⟩ -- R308
  | .HRD_STANDOFF_FAULTS => ⟨0xD00130, [], false, true, .pf, false, [{ reg := .HRD_STANDOFF_FAULTS, hi := 63, lo := 0 }]⟩ -- R308
  | .HRD_STANDOFF_SPILL_BYTES => ⟨0xD00138, [], false, true, .pf, false, [{ reg := .HRD_STANDOFF_SPILL_BYTES, hi := 63, lo := 0 }]⟩ -- R308
  | .HRD_RESERVE => ⟨0xD01000, [(256, 32)], false, true, .pf, true, [HRD_RESERVE.region, HRD_RESERVE.cluster, HRD_RESERVE.core, HRD_RESERVE.op, HRD_RESERVE.out, HRD_RESERVE.priority, HRD_RESERVE.valid]⟩ -- R308
  | .HRD_RESERVE_BASE => ⟨0xD01008, [(256, 32)], false, true, .pf, true, [HRD_RESERVE_BASE.base]⟩ -- R308
  | .HRD_RESERVE_SIZE => ⟨0xD01010, [(256, 32)], false, true, .pf, true, [HRD_RESERVE_SIZE.size]⟩ -- R308
  | .HRD_RESERVE_USED => ⟨0xD01018, [(256, 32)], false, true, .pf, false, [HRD_RESERVE_USED.used]⟩ -- R308
  | .HRD_TALLY => ⟨0xD10000, [(16384, 8)], false, true, .pf, false, [HRD_TALLY.value, HRD_TALLY.owner, HRD_TALLY.poison, HRD_TALLY.overdraw, HRD_TALLY.sat]⟩ -- R308
  | .FCH_SLOT_IMAGE => ⟨0xE00000, [(16, 0x10000), (16, 0x1000), (10, 0x100), (32, 4)], false, false, .slot, false, [{ reg := .FCH_SLOT_IMAGE, hi := 31, lo := 0, acc := .rw }]⟩ -- R253
  | .FCH_SLOT_CMD => ⟨0xE00080, [(16, 0x10000), (16, 0x1000), (10, 0x100)], false, false, .slot, true, [FCH_SLOT_CMD.cmd]⟩ -- R253
  | .FCH_SLOT_STATUS => ⟨0xE00084, [(16, 0x10000), (16, 0x1000), (10, 0x100)], false, false, .slot, false, [FCH_SLOT_STATUS.state, FCH_SLOT_STATUS.shadow, FCH_SLOT_STATUS.credit_wait, FCH_SLOT_STATUS.last_status]⟩ -- R253
  | .FCH_SLOT_DONE => ⟨0xE00088, [(16, 0x10000), (16, 0x1000), (10, 0x100)], false, true, .slot, false, [{ reg := .FCH_SLOT_DONE, hi := 63, lo := 0 }]⟩ -- R253
  | .FCH_SLOT_FAULT_ADDR => ⟨0xE00090, [(16, 0x10000), (16, 0x1000), (10, 0x100)], false, true, .slot, false, [{ reg := .FCH_SLOT_FAULT_ADDR, hi := 63, lo := 0 }]⟩ -- R253
  | .FCH_CH_BYTES_READ => ⟨0xE00C00, [(16, 0x10000), (16, 0x1000)], false, true, .chan, false, [{ reg := .FCH_CH_BYTES_READ, hi := 63, lo := 0 }]⟩ -- R253
  | .FCH_CH_BYTES_WRITE => ⟨0xE00C08, [(16, 0x10000), (16, 0x1000)], false, true, .chan, false, [{ reg := .FCH_CH_BYTES_WRITE, hi := 63, lo := 0 }]⟩ -- R253
  | .FCH_CH_BYTES_REMOTE => ⟨0xE00C10, [(16, 0x10000), (16, 0x1000)], false, true, .chan, false, [{ reg := .FCH_CH_BYTES_REMOTE, hi := 63, lo := 0 }]⟩ -- R253
  | .FCH_CH_REARM_OVERWRITE => ⟨0xE00C18, [(16, 0x10000), (16, 0x1000)], false, true, .chan, false, [{ reg := .FCH_CH_REARM_OVERWRITE, hi := 63, lo := 0 }]⟩ -- R253
  | .FCH_CH_DEADLINE_MISS => ⟨0xE00C20, [(16, 0x10000), (16, 0x1000)], false, true, .chan, false, [{ reg := .FCH_CH_DEADLINE_MISS, hi := 63, lo := 0 }]⟩ -- R253
  | .FCH_CH_DISCARDS => ⟨0xE00C28, [(16, 0x10000), (16, 0x1000)], false, true, .chan, false, [{ reg := .FCH_CH_DISCARDS, hi := 63, lo := 0 }]⟩ -- R253
  | .FCH_CH_CREDIT_WAIT => ⟨0xE00C30, [(16, 0x10000), (16, 0x1000)], false, true, .chan, false, [{ reg := .FCH_CH_CREDIT_WAIT, hi := 63, lo := 0 }]⟩ -- R253
  | .FCH_MODE => ⟨0xE00F00, [], false, false, .pf, true, [FCH_MODE.deadline]⟩ -- R253
  | .BND_STATUS => ⟨0xF00000, [], false, false, .pf, false, [BND_STATUS.staging, BND_STATUS.handles]⟩ -- R222
  | .BND_DRAIN_TIMEOUT => ⟨0xF00004, [], false, false, .pf, false, [BND_DRAIN_TIMEOUT.limit_us]⟩ -- R222
  | .BND_EPOCH_NEXT => ⟨0xF00008, [], false, false, .pf, false, [BND_EPOCH_NEXT.epoch]⟩ -- R222
  | .BND_LAST_REJECT => ⟨0xF0000C, [], false, false, .pf, false, [BND_LAST_REJECT.reason, BND_LAST_REJECT.leaf, BND_LAST_REJECT.cluster, BND_LAST_REJECT.core, BND_LAST_REJECT.handle, BND_LAST_REJECT.valid]⟩ -- R222
  | .BND_STORE_FREE => ⟨0xF00010, [(4, 4)], false, false, .pf, false, [BND_STORE_FREE.units]⟩ -- R222
  | .BND_BINDS => ⟨0xF00020, [], false, true, .pf, false, [{ reg := .BND_BINDS, hi := 63, lo := 0 }]⟩ -- R222
  | .BND_REJECTS => ⟨0xF00028, [], false, true, .pf, false, [{ reg := .BND_REJECTS, hi := 63, lo := 0 }]⟩ -- R222
  | .BND_DRAIN_TIMEOUTS => ⟨0xF00030, [], false, true, .pf, false, [{ reg := .BND_DRAIN_TIMEOUTS, hi := 63, lo := 0 }]⟩ -- R222
  | .BND_REGION_STATE => ⟨0xF00100, [(16, 4)], false, false, .region, false, [BND_REGION_STATE.state, BND_REGION_STATE.portable, BND_REGION_STATE.epoch, BND_REGION_STATE.context, BND_REGION_STATE.handle, BND_REGION_STATE.waiting, BND_REGION_STATE.step]⟩ -- R222
  | .BND_REGION_DISCARDS => ⟨0xF00200, [(16, 16)], false, true, .region, false, [{ reg := .BND_REGION_DISCARDS, hi := 63, lo := 0 }]⟩ -- R222
  | .BND_REGION_STALE => ⟨0xF00208, [(16, 16)], false, true, .region, false, [{ reg := .BND_REGION_STALE, hi := 63, lo := 0 }]⟩ -- R222
  | .NOC_STATUS => ⟨0x1000000, [(256, 0x10000)], false, false, .noc, false, [NOC_STATUS.fenced, NOC_STATUS.bound, NOC_STATUS.good, NOC_STATUS.spares, NOC_STATUS.spill, NOC_STATUS.hold, NOC_STATUS.straggler_full, NOC_STATUS.epoch]⟩ -- R190
  | .NOC_REMAP => ⟨0x1000008, [(256, 0x10000)], false, true, .noc, false, [NOC_REMAP.phys, NOC_REMAP.spare]⟩ -- R190
  | .NOC_STREAM_FLITS => ⟨0x1000010, [(256, 0x10000)], false, true, .noc, false, [{ reg := .NOC_STREAM_FLITS, hi := 63, lo := 0 }]⟩ -- R190
  | .NOC_COURIER_FLITS => ⟨0x1000018, [(256, 0x10000)], false, true, .noc, false, [{ reg := .NOC_COURIER_FLITS, hi := 63, lo := 0 }]⟩ -- R190
  | .NOC_DETOURS => ⟨0x1000020, [(256, 0x10000)], false, true, .noc, false, [{ reg := .NOC_DETOURS, hi := 63, lo := 0 }]⟩ -- R190
  | .NOC_DISCARDS => ⟨0x1000028, [(256, 0x10000)], false, true, .noc, false, [{ reg := .NOC_DISCARDS, hi := 63, lo := 0 }]⟩ -- R190
  | .NOC_STRAGGLER_COPIES => ⟨0x1000030, [(256, 0x10000)], false, true, .noc, false, [{ reg := .NOC_STRAGGLER_COPIES, hi := 63, lo := 0 }]⟩ -- R190
  | .NOC_SKEW_DIVERT => ⟨0x1000038, [(256, 0x10000)], false, true, .noc, false, [{ reg := .NOC_SKEW_DIVERT, hi := 63, lo := 0 }]⟩ -- R190
  | .NOC_SKEW_SPILL_BYTES => ⟨0x1000040, [(256, 0x10000)], false, true, .noc, false, [{ reg := .NOC_SKEW_SPILL_BYTES, hi := 63, lo := 0 }]⟩ -- R190
  | .NOC_HOLD_CYCLES => ⟨0x1000048, [(256, 0x10000)], false, true, .noc, false, [{ reg := .NOC_HOLD_CYCLES, hi := 63, lo := 0 }]⟩ -- R190
  | .NOC_STRAGGLER_EVENT => ⟨0x1000050, [(256, 0x10000)], false, false, .noc, false, [NOC_STRAGGLER_EVENT.group, NOC_STRAGGLER_EVENT.branch, NOC_STRAGGLER_EVENT.core, NOC_STRAGGLER_EVENT.valid]⟩ -- R190
  | .NOC_SPILL_BASE => ⟨0x1000100, [(16, 0x100000)], false, true, .region, true, [NOC_SPILL_BASE.value]⟩ -- R190
  | .NOC_SPILL_SIZE => ⟨0x1000108, [(16, 0x100000)], false, true, .region, true, [NOC_SPILL_SIZE.value]⟩ -- R190
  | .NOC_REGION_SKEW_SPILL => ⟨0x1000110, [(16, 0x100000)], false, true, .region, false, [{ reg := .NOC_REGION_SKEW_SPILL, hi := 63, lo := 0 }]⟩ -- R190
  | .NOC_SLOT => ⟨0x1004000, [(256, 0x10000), (3072, 4)], false, false, .noc, false, [NOC_SLOT.even, NOC_SLOT.odd]⟩ -- R190
  | .NOC_GROUP => ⟨0x1008000, [(256, 0x10000), (256, 4)], false, false, .noc, false, [{ reg := .NOC_GROUP, hi := 31, lo := 0 }]⟩ -- R190
  | .NOC_NODE => ⟨0x1009000, [(256, 0x10000), (64, 8)], false, true, .noc, false, [{ reg := .NOC_NODE, hi := 63, lo := 0 }]⟩ -- R190
  | .CORE_STATUS => ⟨0x2000000, [(4096, 0x2000)], false, false, .core, false, [CORE_STATUS.bound, CORE_STATUS.idle, CORE_STATUS.short, CORE_STATUS.phys, CORE_STATUS.live, CORE_STATUS.base_tag]⟩ -- R94
  | .CORE_FAULT => ⟨0x2000008, [(4096, 0x2000)], false, false, .core, false, [CORE_FAULT.bad_address, CORE_FAULT.watchdog, CORE_FAULT.dup_token, CORE_FAULT.oversize, CORE_FAULT.bad_token, CORE_FAULT.first_pc]⟩ -- R94
  | .CORE_FIRE_COUNT => ⟨0x2000010, [(4096, 0x2000)], false, true, .core, false, [{ reg := .CORE_FIRE_COUNT, hi := 63, lo := 0 }]⟩ -- R94
  | .CORE_NULL_COUNT => ⟨0x2000018, [(4096, 0x2000)], false, true, .core, false, [{ reg := .CORE_NULL_COUNT, hi := 63, lo := 0 }]⟩ -- R94
  | .CORE_LATE_STALL => ⟨0x2000020, [(4096, 0x2000)], false, true, .core, false, [{ reg := .CORE_LATE_STALL, hi := 63, lo := 0 }]⟩ -- R94
  | .CORE_LATE_EVENT => ⟨0x2000028, [(4096, 0x2000)], false, true, .core, false, [{ reg := .CORE_LATE_EVENT, hi := 63, lo := 0 }]⟩ -- R94
  | .CORE_ENGINE_STALL => ⟨0x2000030, [(4096, 0x2000)], false, true, .core, false, [{ reg := .CORE_ENGINE_STALL, hi := 63, lo := 0 }]⟩ -- R94
  | .CORE_BANK_CONFLICT => ⟨0x2000038, [(4096, 0x2000)], false, true, .core, false, [{ reg := .CORE_BANK_CONFLICT, hi := 63, lo := 0 }]⟩ -- R94
  | .CORE_TENSOR_BUSY => ⟨0x2000040, [(4096, 0x2000)], false, true, .core, false, [{ reg := .CORE_TENSOR_BUSY, hi := 63, lo := 0 }]⟩ -- R94
  | .CORE_VECTOR_BUSY => ⟨0x2000048, [(4096, 0x2000)], false, true, .core, false, [{ reg := .CORE_VECTOR_BUSY, hi := 63, lo := 0 }]⟩ -- R94
  | .CORE_MATCH_ENTRY => ⟨0x2000400, [(4096, 0x2000), (128, 8)], false, true, .core, false, [{ reg := .CORE_MATCH_ENTRY, hi := 63, lo := 0 }]⟩ -- R94

/-- Registers, part 0. -/
def regs0 : List Reg :=
  [.DEV_ID, .HIF_STATUS, .HIF_CONFIG, .HIF_BAD_ACCESS, .HIF_DMA_ERRORS, .HIF_DMA_READ_BYTES,
   .HIF_DMA_WRITE_BYTES, .HIF_LINK_DOWNS, .HIF_APERTURE, .HIF_XLAT, .HIF_MSIX_TABLE, .HIF_MSIX_PBA,
   .CTX_STATUS, .CTX_ADMIN, .CTX_ADMIN_STATUS, .CTX_PREEMPT, .CTX_REGION_RESERVE, .CTX_CONFIG,
   .CTX_RING_BASE, .CTX_CPL_BASE, .CTX_CTRL_BASE, .CTX_RING_CONFIG, .CTX_PSTATE, .CTX_SAVE_BASE,
   .CTX_SAVE_SIZE, .CTX_MANIFEST_BASE, .CTX_MANIFEST_COUNT, .CTX_PREEMPT_DEADLINE, .CTX_SUB_HEAD, .CTX_CPL_TAIL,
   .CTX_CPL_LOST, .CTX_PREEMPTS, .CTX_FORCED, .CTX_LAST_PREEMPT_TICKS, .CTX_ACC_REGION_TICKS, .CTX_ACC_TENSOR,
   .CTX_ACC_VECTOR, .CTX_ACC_FETCH_BYTES, .CTX_ACC_TIER_BYTES, .CTX_ACC_LINK_BYTES]
/-- Registers, part 1. -/
def regs1 : List Reg :=
  [.CTX_ACC_SAVE_BYTES, .CTX_ACC_ENERGY_UJ, .CTX_STEP, .CTX_STEP_STATE, .CTX_HEALTH, .CTX_BANK_BASE,
   .CTX_BANK_SIZE, .CTX_BANK_DELTA, .CTX_LAYOUT_EPOCH, .CTX_PENDING_EPOCH, .CTX_COMMIT_MARGIN, .CTX_VOTE_TIMEOUT,
   .CTX_STEP_START, .CTX_VOTE_TICK, .CTX_FLIP_TICK, .CTX_COMMITS, .CTX_ABORTS, .CTX_LATE_FLIPS,
   .CTX_IN_DOUBT, .CTX_RESHARDS, .CTX_TAG_BASE, .MGT_STATUS, .MGT_TERM, .MGT_TICK,
   .MGT_FW_IMAGE, .MGT_FW_LEN, .MGT_FW_CMD, .MGT_FW_STATUS, .MGT_SAT, .MGT_LEAD_CHANGES,
   .MGT_MGMT_FAULTS, .MGT_TICK_OVERRUN, .MGT_FW_UPDATES, .MGT_CLASS_EVENTS, .SEC_STATUS, .SEC_KEY_CMD,
   .SEC_KEY_STATUS, .SEC_KEY_ADDR, .SEC_EXPECT_BASE, .SEC_EXPECT_COUNT]
/-- Registers, part 2. -/
def regs2 : List Reg :=
  [.SEC_LAST_HELD, .SEC_ID_DIGEST, .SEC_MEAS, .SEC_KEY_ID, .SEC_FOLIO_CHECKS, .SEC_AUTH_FAILS,
   .SEC_CHALLENGES, .SEC_HELD, .SEC_VIOLATIONS, .PWR_STATUS, .PWR_CMD, .PWR_TARGET,
   .PWR_TJ, .PWR_SAG, .PWR_ALERT, .PWR_POWER, .PWR_PACKAGE_ENERGY_UJ, .PWR_TEMP,
   .PWR_REGION_ACLK, .PWR_RAIL_ENERGY_UJ, .PWR_REGION_ENERGY_UJ, .PWR_REGION_SAG_EVENTS, .PWR_REGION_STRETCH_TICKS, .PWR_REGION_CAP_TICKS,
   .FLT_STATUS, .FLT_JOB_STATE, .FLT_CMD, .FLT_CMD_STATUS, .FLT_REPAIR_TIMEOUT, .FLT_SERVICE_S,
   .FLT_LAST, .FLT_CORE_FENCE, .FLT_ROUTER_FENCE, .FLT_STRIKES, .FLT_TRANSIENT, .FLT_PERMANENT,
   .FLT_SELFTESTS, .FLT_SENT_RUNS, .FLT_SENT_MISMATCH, .FLT_SENT_UNATTRIBUTED]
/-- Registers, part 3. -/
def regs3 : List Reg :=
  [.FLT_SENT_SKIPPED, .FLT_CTX_SENT_BASE, .FLT_CTX_SENT_AREA, .FLT_CTX_SENT_COUNT, .FLT_CTX_SENT_STATUS, .FLT_CTX_SENT_WINDOW,
   .FLT_CTX_SENT_PERIOD, .SNP_STATUS, .SNP_CMD, .SNP_CMD_STATUS, .SNP_CONFIG, .SNP_TARGET_BASE,
   .SNP_SLOT_SIZE, .SNP_SLOTS, .SNP_PRIOR_FIT, .SNP_COST_US, .SNP_MAX_INTERVAL, .SNP_INTERVAL,
   .SNP_JOURNAL_COUNT, .SNP_JOURNAL_BASE, .SNP_NEWEST, .SNP_ANCHOR, .SNP_REPLAY_END, .SNP_TAKEN,
   .SNP_BYTES, .SNP_STALL_TICKS, .SNP_JOURNAL_MISMATCH, .SNP_FILLS, .SNP_RESTORES, .SNP_SLOT_STEP,
   .NUM_STATUS, .NUM_AMAX_REPORTS, .NUM_UNMAPPED, .NUM_INF_AMAX, .NUM_NF_REPORTS, .NUM_RATIO_DISCARDS,
   .NUM_OVER_SCALE, .NUM_CTX_SEED, .NUM_CTX_MAP_BASE, .NUM_CTX_MAP_COUNT]
/-- Registers, part 4. -/
def regs4 : List Reg :=
  [.NUM_CTX_MAP_STATUS, .NUM_CTX_BLOCK_OFFSET, .NUM_CTX_WORK_BASE, .NUM_CTX_STATS_BASE, .NUM_CTX_STATS_DEPTH, .NUM_CTX_NF_WHERE,
   .NUM_CTX_NF_TENSOR, .NUM_CTX_NF_BATCH, .NUM_CTX_NF_STEP, .NUM_CTX_NF_TICK, .NUM_CTX_NF_COUNT, .FIN_STATUS,
   .FIN_MOVED_BYTES, .FIN_TRUNCATED, .FIN_DISCARDS, .FIN_CTX_TABLE_BASE, .FIN_CTX_TABLE_COUNT, .FIN_CTX_TABLE_STATUS,
   .FIN_CTX_MOVER_BASE, .FIN_CTX_MOVER_COUNT, .FIN_CTX_DONE_VID, .FIN_CTX_FALLBACK_BLOCKS, .FIN_SINGULAR_COUNT, .FIN_ZERO_DENOM,
   .LNK_STATUS, .LNK_JOB_CMD, .LNK_JOB_ID, .LNK_JOB_DIMS, .LNK_JOB_COORD, .LNK_JOB_CTX,
   .LNK_FLOCK, .LNK_SEGMENT, .LNK_SHEPHERD_TIMEOUT, .LNK_RECAL_HOURS, .LNK_TICK, .LNK_PORT_CFG,
   .LNK_PORT_STATUS, .LNK_TX_BYTES, .LNK_RX_BYTES, .LNK_REPLAYS]
/-- Registers, part 5. -/
def regs5 : List Reg :=
  [.LNK_FEC_CORRECTED, .LNK_FEC_UNCORRECTED, .LNK_RECALS, .LNK_LANE_DROPS, .COL_STATUS, .COL_TABLE_BASE,
   .COL_TABLE_COUNT, .COL_LAST_MISMATCH, .COL_RUNS, .COL_BYTES_SENT, .COL_DIGEST_MISMATCH, .COL_EPOCH_STALE,
   .COL_PARKED, .COL_OVERFLOW, .MEM_STATUS, .MEM_SCRUB_HOURS, .MEM_RETIRE_LIMIT, .MEM_LAST_DETECT,
   .MEM_STACK_RETIRED, .MEM_READ_BYTES, .MEM_WRITE_BYTES, .MEM_RETRY_OK, .MEM_AT_REST, .MEM_QUAD_MODE,
   .MEM_PAGE, .TIR_CONFIG, .TIR_POOL_COUNT, .TIR_POOL_BASE, .TIR_PORT_STATUS, .TIR_LOADS,
   .TIR_EVICTIONS, .TIR_LOAD_BYTES, .TIR_WRITEBACK_BYTES, .TIR_NO_SPACE, .TIR_HOLD_NCLK, .TIR_LOST_SUBBLOCKS,
   .TIR_POISON_READS, .TIR_CMD, .TIR_CMD_STATUS, .TIR_CTX_QUOTA]
/-- Registers, part 6. -/
def regs6 : List Reg :=
  [.TIR_EXTENT, .TIR_SLOT, .TIR_SLOT_DIRTY, .HRD_STATUS, .HRD_STANDOFF_US, .HRD_LAST_STANDOFF,
   .HRD_CMD_IMAGE, .HRD_CMD, .HRD_CMD_STATUS, .HRD_CMD_RESULT, .HRD_OPS, .HRD_BARKS,
   .HRD_OVERDRAWS, .HRD_SATURATIONS, .HRD_ORPHAN_OPS, .HRD_STANDOFF_BREAKS, .HRD_STANDOFF_FAULTS, .HRD_STANDOFF_SPILL_BYTES,
   .HRD_RESERVE, .HRD_RESERVE_BASE, .HRD_RESERVE_SIZE, .HRD_RESERVE_USED, .HRD_TALLY, .FCH_SLOT_IMAGE,
   .FCH_SLOT_CMD, .FCH_SLOT_STATUS, .FCH_SLOT_DONE, .FCH_SLOT_FAULT_ADDR, .FCH_CH_BYTES_READ, .FCH_CH_BYTES_WRITE,
   .FCH_CH_BYTES_REMOTE, .FCH_CH_REARM_OVERWRITE, .FCH_CH_DEADLINE_MISS, .FCH_CH_DISCARDS, .FCH_CH_CREDIT_WAIT, .FCH_MODE,
   .BND_STATUS, .BND_DRAIN_TIMEOUT, .BND_EPOCH_NEXT, .BND_LAST_REJECT]
/-- Registers, part 7. -/
def regs7 : List Reg :=
  [.BND_STORE_FREE, .BND_BINDS, .BND_REJECTS, .BND_DRAIN_TIMEOUTS, .BND_REGION_STATE, .BND_REGION_DISCARDS,
   .BND_REGION_STALE, .NOC_STATUS, .NOC_REMAP, .NOC_STREAM_FLITS, .NOC_COURIER_FLITS, .NOC_DETOURS,
   .NOC_DISCARDS, .NOC_STRAGGLER_COPIES, .NOC_SKEW_DIVERT, .NOC_SKEW_SPILL_BYTES, .NOC_HOLD_CYCLES, .NOC_STRAGGLER_EVENT,
   .NOC_SPILL_BASE, .NOC_SPILL_SIZE, .NOC_REGION_SKEW_SPILL, .NOC_SLOT, .NOC_GROUP, .NOC_NODE,
   .CORE_STATUS, .CORE_FAULT, .CORE_FIRE_COUNT, .CORE_NULL_COUNT, .CORE_LATE_STALL, .CORE_LATE_EVENT,
   .CORE_ENGINE_STALL, .CORE_BANK_CONFLICT, .CORE_TENSOR_BUSY, .CORE_VECTOR_BUSY, .CORE_MATCH_ENTRY]
/-- Every register. -/
def Reg.all : List Reg := regs0 ++ regs1 ++ regs2 ++ regs3 ++ regs4 ++ regs5 ++ regs6 ++ regs7

/-- The number of a register, below 512. -/
def Reg.num (r : Reg) : Nat := r.ctorIdx

/-- The key of copy i of a register in the register file. -/
def Reg.key (r : Reg) (i : Nat) : Nat := i * 512 + r.num

/-- The block a register belongs to, by its MGT_SAT bit (R20). -/
def Reg.block (r : Reg) : Nat :=
  let b := r.info.base
  if b < 0x1000000 then b / 0x100000 else if b < 0x2000000 then 16 else 17

/-- How many copies a register has (functions, then the dimensions). -/
def Reg.copies (r : Reg) : Nat :=
  (if r.info.perFn then 17 else 1) * (r.info.dims.map (·.1)).foldl (· * ·) 1

/-- The reset value of copy i (R18): the fields' reset values; a masked MSI-X entry (PRESUMED, log entry 7); port k's role k (R418). What
fuses and NOR give is a whole package of grade F, stepping B0, with an empty fence map (DESIGN CHOICE, log entry 4). -/
def Reg.reset (r : Reg) (i : Nat) : DWord :=
  match r with
  | .HIF_MSIX_TABLE => if i % 2 = 1 then 0x100000000#64 else 0#64
  | .LNK_PORT_CFG => BitVec.ofNat 64 (0x88B50000 + i)
  | .DEV_ID => 0x97162010#64
  | .NOC_STATUS => 0xC0#64
  | .NOC_REMAP => 0xFEDCBA9876543210#64
  | .CORE_STATUS => BitVec.ofNat 64 (2 + 8 * (i % 16))
  | _ => BitVec.ofNat 64 ((r.info.fields.map fun f => f.reset * 2 ^ f.lo).foldl (· + ·) 0)

end Sys2Proof.Machine
end

