-- ==== Sys2Proof/Machine/State.lean ====
section
/-! DEFINITION. Machine/State.lean: everything the spec gives the package, as plain data. The registers of BAR0 stand in one
register file (Machine/Regs.lean names them); what is no register stands in the structures below. -/

namespace Sys2Proof.Machine

/-- No rule of the spec stops the block: every command has an effect, a status or is ignored. The type has no
constructor, so no meaning can answer a fault. -/
inductive Fault where
  deriving DecidableEq, Repr

/-- Why a command has no meaning in the model. -/
inductive Refusal where
  /-- Raised by Machine/Dispatch.lean for a command that has no meaning yet: safe, since nothing is claimed of it. -/
  | notModelled (mnemonic : String)
  deriving DecidableEq, Repr

/-! ## Cores (02, 03, 04) -/

/-- What the bindery loaded into one core (R198): raw table entries as the leaf holds them. -/
structure CoreBlock where
  ops : List DWord := []        -- R55
  ports : List Word := []       -- R56, entry 8n + k
  routes : List DWord := []     -- R167, entry 8n + j
  resv : List Word := []        -- R182, entry 8n + k
  prog : List Word := []        -- R73
  descs : List (List Word) := []  -- R131, 54 words each
  deriving DecidableEq, Repr, Inhabited

/-- The state of a matcher entry (R64). -/
inductive MState where
  | gathering | ready | issuing | inEngines | finishReady | finishing | nullRetire
  deriving DecidableEq, Repr, Inhabited

/-- A valid matcher entry (R64). -/
structure MEntry where
  op : Nat
  tag : Tag
  arrived : BitVec 8 := 0#8
  landed : BitVec 8 := 0#8
  nulls : BitVec 8 := 0#8
  state : MState := .gathering
  late : Bool := false
  epoch : Epoch := 0#12
  deriving DecidableEq, Repr, Inhabited

/-- What the pilot waits for: nothing, the value of a HERD read (R293), or the drain of its queues after a YIELD (R81). -/
inductive PWait where
  | none | herd | yielding (manifest : BitVec 16)
  deriving DecidableEq, Repr, Inhabited

/-- The handler the pilot runs (R66, R68): its instance, its pc, how many instructions it has executed (R83) and the index
of the last of them. -/
structure Handler where
  op : Nat
  tag : Tag
  finish : Bool := false
  pc : Nat := 0
  count : Nat := 0
  last : Nat := 0
  wait : PWait := .none
  deriving DecidableEq, Repr, Inhabited

/-- A queued engine command: the instruction word, the registers captured at issue, the instance that issued it (R84). -/
structure EngCmd where
  word : Word
  regs : List Word
  op : Nat
  tag : Tag
  finish : Bool := false
  pc : Nat := 0
  deriving DecidableEq, Repr, Inhabited

/-- The tensor command that fills (R111): its unmasked tiles that remain, the first one filling; `bad`: the bitmap byte of the
next tile of the walk lies outside the scratchpad. -/
structure TensRun where
  cmd : EngCmd
  tiles : List (List Nat) := []
  bad : Bool := false
  deriving DecidableEq, Repr, Inhabited

/-- The tile in the drain bank (R111): its command and place in the walk, the rows written (R114), whether it is its command's
last. -/
structure Drain where
  cmd : EngCmd
  tile : List Nat
  rows : Nat := 0
  last : Bool := false
  deriving DecidableEq, Repr, Inhabited

/-- The dynamic state of a logical core. A bind clears it (R206, R208); a rename discards it (R26, R160). -/
structure CoreState where
  block : CoreBlock := {}              -- what the bindery loaded (R198)
  hasBlock : Bool := false             -- it has a block (R197)
  base : Tag := 0#16                      -- R60
  frozen : Option Tag := none             -- R215
  entries : List MEntry := []             -- R64
  retired : List (Nat × Tag) := []        -- instances retired in the live window (R60)
  regs : List Word := []                  -- s0 to s15 (R71)
  handler : Option Handler := none        -- R66
  tq : List EngCmd := []                  -- R84
  vq : List EngCmd := []               -- R84
  mq : List EngCmd := []               -- R84
  tx : Option TensRun := none          -- the tensor command that fills (R111)
  dx : Option Drain := none            -- the tile that drains (R111)
  vx : Option (EngCmd × Option Nat) := none   -- with the AMAX result it will report (R346)
  mx : Option EngCmd := none           -- executing movement command (R84)
  fillOne : Bool := false                 -- bank 1 is the fill bank (R110)
  bank0 : Sparse (BitVec 48) := []     -- accumulator bank 0: those of its 256 entries that are not +0, row-major (R110)
  bank1 : Sparse (BitVec 48) := []     -- accumulator bank 1 (R110)
  faulted : Bool := false                 -- a program fault waits for its tick (R83)
  stuck : List Nat := []               -- engines whose executing command made a faulting access (R83): 0, 1, 2
  yielded : Option (BitVec 16) := none    -- manifest index reported (R81)
  reported : List (Nat × Tag) := []       -- instances that raised a non-finite report (R118)
  loading : Bool := false                 -- the spare behind it is not loaded yet (R160)
  stopped : Bool := false                 -- forced stop with its state kept (R410)
  deriving DecidableEq, Repr, Inhabited

/-! ## Networks (05) -/

/-- Who sent a token. -/
inductive TokSrc where
  | core (key op out slot : Nat)
  | fetcher (slot : Nat)
  | mover (die : Nat)
  | spine
  deriving DecidableEq, Repr, Inhabited

/-- How a token travels (R167). -/
inductive TokMode where
  | unicast
  | multicast (group : Nat)
  | reduction (router node leaf redOp : Nat)
  deriving DecidableEq, Repr, Inhabited

/-- Where a token is: with its sender, on its way, its header admitted and its data landing, or diverted (R183). -/
inductive TokPhase where
  | waiting | flying | admitted | diverted
  deriving DecidableEq, Repr, Inhabited

/-- A token: the header of R58, its sender and where its data lies. The data of a core's token stands in its staging slot at
`addr` until it leaves (R79); then it is on its way (`data`), or, in this order, already in the input slot, in the skew
reservoir, in the spill area, in the router's spill staging, still with the sender (R183, R184). -/
structure Token where
  epoch : Epoch
  tag : Tag
  dst : Nat              -- destination core window number
  op : Nat
  port : Nat
  null : Bool := false
  courier : Bool := true
  length : Nat := 0      -- 64 B units
  addr : Nat := 0        -- byte address in the sending core's scratchpad (R79)
  data : List Byte := []
  cls : Nat := 2
  src : TokSrc := .spine
  from_ : Nat := 0       -- cluster of the sending router
  mode : TokMode := .unicast
  phase : TokPhase := .waiting
  inSlot : Nat := 0              -- bytes of a stream token that stand in the input slot
  resvAt : Nat := 0              -- offset of its bytes in the reservoir, which is written round its end
  inResv : Nat := 0              -- bytes in the reservoir
  area : List Nat := []          -- device addresses of its 64 B units in the spill area
  staged : List Byte := []       -- bytes in spill staging
  unsent : Nat := 0              -- bytes of a stream token that has begun and that its sender still holds (R185)
  detour : Bool := false         -- travels y-then-x (R173)
  stalled : Option (Nat × Nat) := none   -- router and branch of a fork that holds it (R176): 0 N, 1 E, 2 S, 3 W, 4 core
  buffered : List (Nat × Nat × Nat) := []  -- of a packet held at forks: router, branch, flits copied for the branch (R176)
  group : Option Nat := none     -- of a multicast copy: its group (R174)
  deriving DecidableEq, Repr, Inhabited

/-- A stored first arrival at a reduction node (R179). -/
structure Combine where
  router : Nat
  node : Nat
  tag : Tag
  leaf : Nat
  epoch : Epoch
  data : List Byte
  deriving DecidableEq, Repr, Inhabited

/-- A port whose stream route is held (R185), and the tick since which. -/
structure Hold where
  core : Nat
  op : Nat
  port : Nat
  since : Nat := 0
  deriving DecidableEq, Repr, Inhabited

/-- The networks' state beside the NOC registers: tokens in the order they were sent, combine slots, ports on hold. -/
structure NocState where
  tokens : List Token := []            -- in the order they were sent (R168)
  combine : List Combine := []         -- combine slots in use (R179)
  holds : List Hold := []              -- R185
  spillBase : Sparse Nat := []         -- in force, per region (R191)
  spillSize : Sparse Nat := []         -- in force, per region (R191)
  fenced : Sparse Nat := []                 -- per sending region, packets refused with FENCED since the last tick (R173)
  spilled : List (Nat × Nat) := []          -- (region, context) that have reported a spill in the running step (R187)
  deriving DecidableEq, Repr, Inhabited

/-! ## Binding (06) -/

/-- One cluster section of a leaf (R196, R197): tables listing their nonzero entries, and the cores of its mask. -/
structure ClusterSec where
  c : Nat
  mask : Nat
  size : Nat := 0
  slots : Sparse (BitVec 16) := []
  groups : Sparse Word := []
  nodes : Sparse DWord := []
  cores : List (Nat × CoreBlock × Nat × List Byte) := []   -- l, tables, init address, init bytes
  deriving DecidableEq, Repr, Inhabited

/-- A leaf (R194, R196). -/
structure Leaf where
  region : Nat
  use_ : Nat
  initTag : Tag := 0#16
  length : Nat := 0
  secs : List ClusterSec := []
  deriving DecidableEq, Repr, Inhabited

/-- A staged folio (R193, R201). -/
structure Folio where
  handle : Nat
  ctx : Nat
  minRev : Nat := 0x10
  lcores : Nat := 15
  portable : Bool := false
  step : Bool := false
  epoch : Word := 0#32        -- layout epoch
  folioId : DWord := 0#64
  dies : Nat := 0             -- dies whose stores hold it
  leaves : List Leaf := []
  digests : List (List Byte) := []
  deriving DecidableEq, Repr, Inhabited

/-- A STAGE in progress (R201). -/
structure StageOp where
  iss : Issuer
  addr : Nat
  dies : Nat
  on : Nat := 0               -- dies whose stores it stages into (R222)
  deriving DecidableEq, Repr

/-- What a bind-family operation is doing: loading, clearing routers on the way to unbound, or draining (R208, R214, R215). -/
inductive BindPhase where
  | loading | clearing | draining
  deriving DecidableEq, Repr

/-- A bind-family command (R204, R214, R219): opcode 4 BIND, 5 UNBIND, 6 REBIND; `iss` none for the package's own (a
re-shard's rebind, a resume, the unbind of a save or of DESTROY). -/
structure BindReq where
  iss : Option Issuer := none
  ctx : Nat
  opcode : Nat
  named : List Nat := []                 -- regions of an UNBIND or REBIND
  drain : Bool := false
  handle : Nat := 0
  target : Nat := 0                      -- region for a portable folio
  reshard : Bool := false
  resume : Bool := false
  on : List Nat := []                    -- loading or draining regions it waits for (R220)
  deriving DecidableEq, Repr, Inhabited

/-- A bind-family command in progress (R208, R214, R215). -/
structure BindOp where
  req : BindReq
  phase : BindPhase
  regions : List Nat                     -- that it loads, clears, or still drains
  t0 : Nat := 0                          -- tick of application, or of the end of the drain
  timedOut : Bool := false
  deriving DecidableEq, Repr

/-- The binderies' state beside the BND registers. -/
structure BndState where
  folios : List Folio := []            -- the staged folios (R201)
  staging : List StageOp := []         -- STAGEs in progress (R201)
  ops : List BindOp := []              -- binds, clears and drains in progress (R208, R215)
  waits : List BindReq := []                  -- commands that wait for a loading or draining region (R220)
  history : List (Epoch × Nat) := []          -- newest first, 64 entries (R211)
  stale : List (Nat × Nat × Nat) := []        -- (context, region, count) not yet reported (R213)
  keys : Sparse Nat := []                     -- generator key per region (R355)
  slotsOn : List Nat := []                    -- regions whose slot tables are in force (R208)
  everBound : Bool := false                   -- a bind has completed since reset (R251)
  leafOf : Sparse Nat := []            -- per bound region: 1 + index of its leaf in its folio (R194)
  deriving DecidableEq, Repr, Inhabited
/-! ## Herding (09) -/

/-- A tally operation on its way to its home unit (R80, R293, R294): act 0 increment, 1 decrement, 2 read. `core` is the core's
window number, or for an agent's operation the slot number of the fetcher that sent it. -/
structure HerdMsg where
  core : Nat
  op : Nat
  ctx : Nat
  vid : Nat
  act : Nat
  count : Nat
  agent : Bool := false
  deriving DecidableEq, Repr, Inhabited

/-- Who a bark of kind 3 wakes (R299): a context's step (R313), or an entry of the collective table (R435). -/
inductive SpineTarget where
  | step (ctx : Nat)
  | collective (entry : Nat)
  deriving DecidableEq, Repr, Inhabited

/-- Where a bark goes (R299). -/
inductive LeashTarget where
  | fetcher (slot : Nat)
  | token (dst op port : Nat) (tag0 : Tag) (epoch : Epoch)
  | record (cookie : Word)
  | spine (t : SpineTarget)
  deriving DecidableEq, Repr, Inhabited

/-- A leash (R296). -/
structure Leash where
  handle : Nat
  tally : Nat
  ctx : Nat
  vid : Nat
  cond : Nat
  rep : Bool
  step : Nat
  threshold : Nat
  target : LeashTarget
  status : Nat := 0                 -- of the pending bark
  count : Nat := 0                  -- its coalesced count, 0 when none is pending
  value : Nat := 0
  last : Bool := false              -- removed once the pending bark is delivered
  barks : Nat := 0                  -- barks delivered
  deriving DecidableEq, Repr, Inhabited

/-! ## Contexts (13) -/

/-- A command taken from a ring and not yet applied (R392, R394). -/
structure TakenCmd where
  opcode : Nat
  cookie : DWord
  irq : Bool
  fence : Bool := false
  body : List Byte := []
  tick : Nat := 0
  deriving DecidableEq, Repr, Inhabited

/-- A completion record waiting to be written (R395, R396). -/
structure CplRec where
  kind : Nat
  status : Nat
  count : Nat := 0
  aux : Nat := 0
  tag : Nat := 0
  value : Nat := 0
  irq : Bool := false
  deriving DecidableEq, Repr, Inhabited

/-- What the context manager holds of one context's rings beside their registers. -/
structure RingState where
  cells : List Byte := []          -- fetched and not yet taken (R391)
  taken : List TakenCmd := []      -- taken, not applied (R394)
  inflight : Nat := 0              -- applied, not completed
  queue : List CplRec := []        -- R398
  cplHead : Nat := 0               -- last read (R391)
  lastPoll : Nat := 0              -- tick of the last control-block read, before the first of the ring's enabling
  polled : Bool := false           -- the control block has been read since the ring was enabled
  takeTick : Nat := 0              -- tick of the last take, and how many were taken at it (R394)
  takeCount : Nat := 0
  deriving DecidableEq, Repr, Inhabited


/-! ## Memory tiers (08) -/

/-- An access held at the tier mover because its page is filling or evicting (R284). -/
structure Held where
  req : Requester
  addr : Nat
  len : Nat
  data : Option (List Byte)     -- the bytes of a write
  since : Nat := 0              -- tick at which it was held
  shadow : Bool := false        -- a write through the shadow bank field (R322)
  engine : Bool := false        -- of an engine of the spine, which no reply leaves the package for
  deriving DecidableEq, Repr

/-- What a page move does (R280, R283): a fill, an eviction that empties the slot, the write-back of a FLUSH. -/
inductive MoveKind where
  | fill | evict | flush
  deriving DecidableEq, Repr

/-- A page move of the tier mover, from its application to its end. -/
structure Move where
  kind : MoveKind
  page : Nat
  slot : Nat
  cmds : List (Issuer × Nat) := []     -- commands that complete with it, with their TIR_CMD op
  started : Bool := false              -- among the eight a port carries (R280)
  filling : Bool := false              -- a fill whose slot holds the page, in state filling (R279)
  pin : Bool := false
  subs : Nat := 0                      -- sub-blocks written back
  deriving DecidableEq, Repr

/-- The memory's and the tier mover's state beside their registers. -/
structure MemState where
  trained : Bool := false                -- the stacks have trained since the last power-up (R265)
  recal : List Nat := []                 -- stacks whose PHY is recalibrated (R503)
  retired : List (Nat × Nat) := []       -- retired stack pages (stack, quad), R272
  bad : List Nat := []                   -- bursts whose check bits do not fit their data (R267): memory key over 32
  interleave : Bool := false             -- TIR_CONFIG.interleave as of the last training of the ports (R276)
  moves : List Move := []                -- in order of application (R280)
  held : List Held := []                 -- in order of arrival (R284)
  portHeld : List Held := []             -- held at the memory ports (R503, R525), in order of arrival
  poison : List (Nat × Nat) := []        -- poisoned ranges of the CXL tier, first byte and end (R285)
  poisonDue : List (Nat × Nat) := []     -- page and sub-block to poison when its port is up (R285)
  deriving DecidableEq, Repr, Inhabited

/-! ## Fetchers (07) -/

/-- A descriptor in a slot: its 128 bytes (R228) and the tick of its ARM. -/
structure FchDesc where
  img : List Byte
  armTick : Nat := 0
  deriving DecidableEq, Repr, Inhabited

/-- The transfer in flight of a slot (R234). -/
structure FchXfer where
  x : Nat                          -- transfer number
  srcOff : Nat := 0                -- bank offsets sampled at its start (R232)
  dstOff : Nat := 0
  epoch : Epoch := 0#12            -- bind epoch stamped (R238)
  copy : Nat := 0                  -- pass-along copy (R248)
  started : Bool := true           -- a pass-along copy after the first waits for its credit
  issued : Nat := 0                -- packets issued
  hosts : List (Nat × Nat × Nat) := []  -- issued packets that read a host window: packet, function, translated address (R555)
  done : List Nat := []            -- packets whose reply has been written
  held : List (Nat × List Byte) := []  -- replies that came while the slot is parked, in the read buffer (R246)
  data : Sparse Byte := []         -- bytes gathered for the token it sends
  headed : Bool := false           -- the token's first packet has left
  deriving DecidableEq, Repr, Inhabited

/-- One descriptor slot of a channel (R226). -/
structure FchSlot where
  active : Option FchDesc := none
  shadow : Option FchDesc := none
  xfer : Option FchXfer := none
  next : Nat := 0                  -- next transfer to start
  fired : Bool := false            -- the trigger holds
  leash : Option Nat := none       -- handle of its trigger leash (R241)
  cancel : Bool := false           -- cancelled with a transfer in flight (R245)
  parked : Bool := false           -- R246
  failed : Option (Nat × Nat) := none  -- status and address of an invalid packet: the slot enters error once its packets end (R236)
  error : Bool := false            -- R236
  lost : Bool := false             -- a token of it failed the seam filter: its credit never returns (R252)
  stray : Nat := 0                 -- packets whose replies are to be discarded (R252)
  strayHost : List (Nat × Bool) := []  -- the same of reads of host windows: function, does its reset count them (R550)?
  deriving DecidableEq, Repr, Inhabited

/-- How a channel shares its egress (R249), by class: 0 read, 1 write, 2 remote. -/
structure FchChan where
  pos : Nat := 0                       -- flit cycles of the window of 16 that have passed
  ahead : List Int := [0, 0, 0]        -- flits by which each class runs ahead of its share: its deficit count
  last : List Nat := [9, 9, 9]         -- slot that each class served last
  deriving DecidableEq, Repr, Inhabited

/-- The fetchers' state beside their registers: slots by 160p + 10c + s, channels by 16p + c. -/
structure FchState where
  slots : Sparse FchSlot := []         -- R226
  chans : Sparse FchChan := []         -- R249
  lost : List (Nat × Nat × Nat × Nat) := []   -- core, op, port, port slot: credits that do not return before a bind (R239)
  deriving DecidableEq, Repr, Inhabited


/-! ## Herding units (09) -/

/-- A token spilled to a reserve (R304), and where it lies in it. -/
structure Reserved where
  entry : Nat
  at_ : Nat
  token : Token
  deriving DecidableEq, Repr, Inhabited

/-- The herding units' state beside their registers. -/
structure HrdState where
  msgs : List HerdMsg := []                 -- operations on their way (R293, R294)
  replies : List (Nat × Word) := []    -- values on their way back to s12 of a core (R293)
  alloc : List Nat := []                    -- physical tallies in use (R289)
  shares : Sparse Nat := []            -- share masks by tally (R291)
  trans : Sparse Nat := []                  -- translation: ctx × 2^20 + vid to 1 + tally (R290)
  leashes : List Leash := []           -- R296
  orphans : List (Nat × Nat × Nat × Nat) := []   -- (context, region, vid, tally) to report at the tick (R301)
  dead : List Nat := []                     -- dies whose herding unit is lost (R307)
  fires : Sparse Nat := []                  -- CORE_FIRE_COUNT at the last tick (R302)
  waits : Sparse Nat := []             -- 1 + tick since which a stream waits, by 256 core + 8 op + out (R302)
  spilling : List (Nat × Nat) := []         -- (reserve entry, stream) being spilled (R304)
  reserved : List Reserved := []       -- tokens in reserves, oldest first (R304)
  tails : Sparse Nat := []             -- bytes ever written to a reserve since its last clearing (R304)
  reserves : Sparse (Nat × Nat × Nat) := [] -- entries in force: word 0, base, size (R306)
  deriving DecidableEq, Repr, Inhabited

/-! ## Numerics (11) -/

/-- An AMAX report on its way to the monitor (R346). -/
structure AmaxReport where
  core : Nat
  tensor : Nat
  tag : Tag
  value : Nat          -- FP32 encoding
  deriving DecidableEq, Repr, Inhabited

/-- What the monitor has merged into an amax entry for a step (R347, R350). -/
structure AmaxAcc where
  value : Nat := 0                            -- step amax, FP32 encoding
  reports : Nat := 0
  nan : Bool := false
  mbs : Sparse (Nat × Nat) := []              -- per microbatch: reports counted, their maximum
  published : Nat := 0                        -- microbatches published
  writing : Bool := false                     -- a scale write is not yet acknowledged
  prev : Option Nat := none                   -- scale last published
  deriving DecidableEq, Repr, Inhabited

/-- A pending non-finite record (R357). -/
structure NfPend where
  core : Nat
  op : Nat
  tag : Tag
  tensor : Nat
  mb : Nat
  tick : Nat
  count : Nat := 1
  deriving DecidableEq, Repr, Inhabited

/-- The monitor's state of one context. -/
structure CtxNum where
  map : List (List Byte) := []                -- the directory: entries of a map in state ok (R342, R343)
  off : Bool := false                         -- the step in progress runs with an empty directory (R343)
  acc : Sparse AmaxAcc := []                  -- by map entry
  ratios : Sparse (List (Nat × List Byte)) := []  -- by map entry: contributor index, report (R359)
  merged : Nat := 0                           -- amax reports merged, and unmapped or infinite, since the last vote
  bad : Nat := 0
  nf : Option NfPend := none                  -- pending record of the step in progress or to start
  nfVoted : Option NfPend := none             -- of the step that has voted
  deriving DecidableEq, Repr, Inhabited

/-- The numerics monitor's state beside its registers. -/
structure NumState where
  amax : List AmaxReport := []         -- reports on their way (R346)
  ctx : Sparse CtxNum := []            -- R343
  deriving DecidableEq, Repr, Inhabited

/-! ## The finishing stage (12) -/

/-- An entry of the mover list in a step (R379 to R381): its 32 bytes, the die whose mover carries it, its progress. -/
structure Mover where
  img : List Byte
  die : Nat
  frozen : Bool := false
  sent : Nat := 0                             -- tokens sent (deliver)
  got : List Nat := []                        -- chunks whose tokens have come (collect)
  done : Bool := false
  deriving DecidableEq, Repr, Inhabited

/-- The state movers of one context: its coefficient table, and its mover list and step sizes in a step. -/
structure CtxFin where
  table : List (List Byte) := []
  sizes : List (List Byte) := []
  movers : List Mover := []
  dies : List Nat := []                       -- dies whose completion has been counted in FIN_CTX_DONE_VID (R382)
  deriving DecidableEq, Repr, Inhabited

/-- The finishing stage's state beside its registers. -/
structure FinState where
  ctx : Sparse CtxFin := []            -- R367, R380
  deriving DecidableEq, Repr, Inhabited

/-- One region of a saved context (R412): header words and the state its records hold; `blocks`: the bytes of SRAM each core
saved (space, start, length in bytes). -/
structure SavedRegion where
  region : Nat
  handle : Nat := 0
  leaf : Nat := 0
  step : Bool := false
  halted : Bool := false           -- it was halted
  key : Nat := 0
  bytes : Nat := 0
  cores : List (Nat × CoreState) := []
  blocks : List (Nat × List (Nat × Nat × Nat)) := []
  holds : List Hold := []
  tokens : List Token := []
  combine : List Combine := []
  replies : List (Nat × Word) := []
  slots : List (Nat × FchSlot) := []
  slotRegs : Sparse DWord := []                -- FCH_SLOT registers of the slots
  deriving DecidableEq, Repr, Inhabited

/-- A pre-emption of a context (R404 to R414), from its request until the context has resumed. -/
structure Preempt where
  ctx : Nat
  regions : List Nat := []         -- held at T0
  t0 : Nat := 0
  forced : Option Nat := none      -- TF
  saved : List SavedRegion := []
  lost : List Nat := []            -- cores whose blocks were lost before they were written (R416)
  gone : Bool := false             -- its regions are unbound, its record not yet written (R408)
  deriving DecidableEq, Repr, Inhabited

/-- A request for pre-emption that waits for its holders (R404); no issuer: CTX_PREEMPT. -/
structure PreReq where
  iss : Option Issuer := none
  claimant : Option Nat := none
  named : List Nat := []
  holders : List Nat := []         -- contexts not yet saved
  deriving DecidableEq, Repr, Inhabited

/-- A region's claim (R404). -/
structure Claim where
  region : Nat
  ctx : Nat
  until_ : Nat := 0                -- tick at which it ends; 0: its request is not complete
  deriving DecidableEq, Repr, Inhabited

/-- The context manager's state beside its registers. -/
structure CtxState where
  rings : Sparse RingState := []       -- R389
  preempts : List Preempt := []        -- R407
  reqs : List PreReq := []             -- R404
  claims : List Claim := []            -- R404
  acc : Sparse (Nat × Nat) := []               -- per core: CORE_TENSOR_BUSY and CORE_VECTOR_BUSY already accounted (R415)
  accE : Sparse Nat := []                      -- per region: energy already accounted (R415)
  deriving DecidableEq, Repr, Inhabited

/-! ## The training step (10) -/

/-- Where a re-shard stands (R338): held, rebinding to the move folio, moving, rebinding to the target. -/
inductive ReshardPhase where
  | held | binding | moving | target
  deriving DecidableEq, Repr

/-- A re-shard taken from the ring and not finished (R337). -/
structure Reshard where
  iss : Issuer
  move : Nat
  target : Nat
  regions : Nat
  step : Nat
  endVid : Nat
  endCount : Nat
  phase : ReshardPhase := .held
  deriving DecidableEq, Repr

/-- A decision held (R329, R330): outcome, flip tick, snapshot flag (R477), the tick from which an abort is applied. -/
structure Decision where
  commit : Bool
  flip : Nat := 0
  snap : Bool := false
  tick : Nat := 0
  late : Bool := false
  deriving DecidableEq, Repr, Inhabited

/-- A context's step state beside its registers. -/
structure StepState where
  layout : Bool := false               -- CTX_LAYOUT_EPOCH has been taken (R336)
  next : Nat := 0                      -- vote bits [3:0] kept for the next step (R326)
  record : List Byte := []             -- the step record (R311)
  digests : List Byte := []            -- of the batch descriptors and the step-size table (R479)
  leash : Option Nat := none           -- handle of the end-tally leash (R313)
  deadline : Option Nat := none        -- tick at which an unfinished step closes (R315)
  margin : Nat := 192                  -- CTX_COMMIT_MARGIN and CTX_VOTE_TIMEOUT in force (R341)
  timeout : Nat := 1000                -- R341
  barked : Bool := false               -- the end-tally leash has barked (R314)
  readyTick : Nat := 0                 -- tick of the last thing the work waited for (R314)
  closed : Bool := false               -- closed incomplete (R315)
  items : List (List Byte) := []       -- items of the batch list not yet armed (R399, R400)
  item : Nat := 0                      -- number of the first of them (R399)
  got : List (Nat × Nat × VoteRec) := []   -- records that reached this package: axis, offset along it (R328)
  voteTick : Nat := 0                  -- MGT_TICK of its own vote (R332)
  own : List (Nat × VoteRec) := []     -- its input to each axis of the all-reduce (R328)
  combined : Option VoteRec := none    -- the job's combined record (R328)
  decision : Option Decision := none   -- R330
  sent : Option (Nat × Bool) := none   -- a shepherd's own decision: step, commit (R329)
  reshard : Option Reshard := none     -- R337
  deriving DecidableEq, Repr, Inhabited


/-! ## Fault history, snapshots (15) -/

/-- A record of the fault history (R459); its check code is a function of the other bytes. -/
structure FaultRec where
  kind : Nat
  action : Nat
  cause : Nat
  index : Nat
  service : Nat
  step : Nat
  deriving DecidableEq, Repr, Inhabited

/-- A sampled instance of a sentinel step and its capture (R464, R465). -/
structure Capture where
  core : Nat
  op : Nat
  tag : Tag
  seq : Nat                              -- TENS of the issue handler
  hash : Nat                             -- (h >> 32): its tile is this modulo the tiles of the walk
  seen : Nat := 0                        -- TENS issued so far by the instance
  cmd : Option EngCmd := none            -- the command, once issued
  taken : Bool := false                  -- the capture has been read
  bytes : List Byte := []
  deriving DecidableEq, Repr, Inhabited

/-- A failure path in progress or waiting at the shepherd (R469, R470). -/
structure FailPath where
  row : Nat                        -- row of R470, counted from 1
  src : Nat                        -- coordinate that reported it
  other : Nat := 0                 -- rows 10 and 11: the other end of the link, the package lost
  tick : Nat := 0                  -- tick at which it was received
  takeover : Option Nat := none    -- the coordinate to take over
  deriving DecidableEq, Repr, Inhabited

/-- A restore in progress (R478): the slot, its values, the parts that wait for their other copy, the job's state before. -/
structure RestoreOp where
  slot : Nat
  values : List Byte
  damaged : List Nat := []
  was : Nat := 0
  deriving DecidableEq, Repr, Inhabited

/-- The fault manager's and the snapshot engine's state beside their registers. -/
structure FltState where
  queue : List FaultRec := []              -- decided, not yet in NOR (R457)
  testing : List (Nat × Nat) := []     -- units in self-test (R460)
  retests : List (Nat × Nat) := []         -- of these, tested by RETEST (R462)
  failing : List (Nat × Nat) := []         -- units classified failing (R462): kind, index
  again : List (Nat × Nat) := []           -- of these, struck again meanwhile (R460)
  lifts : List (Nat × Nat) := []           -- transient units whose region is still bound (R460)
  retry0 : Sparse Nat := []                -- MEM_RETRY_OK at the start of the service hour (R462)
  sent : Sparse (List (List Byte)) := [] -- loaded sentinel lists (R463)
  captures : List Capture := []        -- R464
  phase : List Nat := []                   -- contexts in their sentinel phase (R466)
  paths : List FailPath := []          -- R469
  resumeHeld : Bool := false               -- a RESUME waits for the paths to finish (R483)
  restore : Option RestoreOp := none   -- R478
  fill : Option Nat := none            -- tick at which a fill started (R471)
  fillValues : Bool := false               -- the values of the fill have arrived (R471)
  fillBad : Bool := false              -- a digest of the fill differs (R471)
  drain : Option (Nat × List Byte × Nat) := none   -- slot, values of R472, tick of a snapshot drain
  slotsDone : Sparse Nat := []         -- complete slots: 1 + STEP (R473)
  slotJournal : Sparse Nat := []           -- journal position at a slot's snapshot (R479)
  capBank : Nat := 0                   -- bank a drain reads (R474)
  interval : Nat := 1                      -- interval in force, and the one after the next snapshot (R477)
  nextInterval : Nat := 1              -- R477
  journal : Nat := 0                   -- journal entries written (R479)
  replay : Bool := false               -- replay mode (R480)
  lastSnap : Nat := 0                      -- STEP of the job's last snapshot (R477)
  flips : List Nat := []                   -- job ticks of the last commits, newest first (R476)
  drainTicks : Nat := 0                -- ticks of the last drain (R476)
  joinTick : Nat := 0                  -- tick of JOIN (R476)
  failTicks : List Nat := []               -- ticks of the paths that caused a rollback or a takeover (R476)
  deriving DecidableEq, Repr, Inhabited

/-- NOR flash (R5, R459, R500): what survives every reset. -/
structure NorState where
  logA : List FaultRec := []           -- fault history, copy A (R459)
  logB : List FaultRec := []           -- fault history, copy B (R459)
  service : Nat := 0                   -- seconds of powered life (R459)
  violations : Nat := 0                -- R517
  slots : List (List Byte) := [[], [], [], []] -- image slots: MC-W A, B, MC-E A, B (R500)
  active : Nat × Nat := (0, 0)         -- active slot of each half (R500)
  factory : List Byte := []            -- factory fence map and calibration (R500, R571)
  chain : List Byte := []              -- certificate chain (R507)
  deriving DecidableEq, Repr, Inhabited
/-! ## Scale-out (14) -/

/-- A port's state beside its registers (R421, R424, R426, R427). -/
structure PortState where
  mode : Nat := 0                 -- mode in force since its last training
  trained : Bool := false         -- trained, its identity flit awaited
  rxNext : BitVec 24 := 0#24      -- next sequence number expected
  discarding : Bool := false      -- a nak has been sent and its replay has not come
  txNext : BitVec 24 := 0#24      -- next sequence number to send
  txAck : BitVec 24 := 0#24       -- first sequence number not acknowledged
  wait : List Nat := [0, 0, 0]    -- flits of class C, K and P that have not left (R423)
  unacked : List Nat := []        -- classes of the flits that have left and are not acknowledged, oldest first (R424)
  turn : Nat := 0                 -- cycle of the pattern of four (R423)
  down : Option Nat := none       -- tick at which it went down
  deriving DecidableEq, Repr, Inhabited

/-- One stage of a collective at this package (R438, R439): a scatter or gather along an axis with n positions, this package at
position p, over a sequence of values. -/
structure ColStage where
  axis : Nat
  gather : Bool
  n : Nat
  p : Nat
  width : Nat                     -- bits of a value on the wire
  vals : List Nat := []           -- scatter: this package's contributions; gather: what is known
  res : List Nat := []            -- scatter: results of the segments it owns
  done : List (Nat × Nat) := []   -- chunks taken: segment, chunk
  deriving DecidableEq, Repr, Inhabited

/-- A run of a collective entry (R435). -/
structure ColRun where
  entry : Nat
  img : List Byte
  step : Nat
  epoch : Nat                     -- layout epoch of its contributions
  plan : List (Nat × Bool) := []  -- stages not begun: axis, gather
  stages : List ColStage := []    -- stages begun, the newest last
  counts : List (Nat × Nat) := []                  -- all-to-all: member, units it sends
  units : List (Nat × Nat × List Byte) := []       -- all-to-all: member, chunk, bytes
  out : Option (List Byte) := none                 -- the result
  delivered : Bool := false
  parked : Bool := false          -- R413
  deriving DecidableEq, Repr, Inhabited

/-- A chunk that came before its stage began: header, payload. -/
structure ColEarly where
  head : List Byte
  payload : List Byte
  deriving DecidableEq, Repr, Inhabited

/-- The link complex and the collective engine beside the LNK and COL registers. -/
structure LnkState where
  table : List (List Byte) := []           -- the collective table in state ok (R434)
  barks : List Nat := []                   -- entries of the collective table whose start leash has barked (R435)
  ports : Sparse PortState := []       -- R424
  recal : Option (Nat × List Nat) := none  -- port in recalibration, its lanes still to do, the first one out (R427)
  recalWait : List Nat := []           -- ports whose recalibration waits (R427)
  aligned : Bool := false                  -- the tick count has been aligned since JOIN (R432)
  lostTick : Nat := 0                  -- tick at which sync was lost (R432)
  runs : List ColRun := []             -- R435
  early : List ColEarly := []          -- chunks before their stage (R442)
  deriving DecidableEq, Repr, Inhabited

/-! ## Identity (17) -/

/-- What the last identity flit of a port said (R426, R516), and the digest last admitted on it. -/
structure PortId where
  fits : Bool := false                 -- its job and coordinate are those the role expects
  coord : Nat := 0
  digest : List Byte := []
  admitted : Option (List Byte) := none
  deriving DecidableEq, Repr, Inhabited

/-- A package that the shepherd holds (R516), with the response it gave. -/
structure HeldPkg where
  coord : Nat
  digest : List Byte
  good : Bool                          -- chain and signature passed
  deriving DecidableEq, Repr, Inhabited

/-- The security subsystem's state beside the SEC registers. -/
structure SecState where
  keys : List (List Byte) := []        -- enrolled folio-signing keys (R513)
  keyDigest : List Byte := []          -- of the key set at lock (R509)
  measW : List (List Byte) := []       -- M0 to M7 of each half; none is zero (R509)
  measE : List (List Byte) := []       -- R509
  aliasSeed : List Byte := []          -- of the alias key, from a lead change to the next or reset (R506)
  aliasMeas : List Byte := []          -- M0 to M5 in the alias certificate (R507)
  transcript : Bool := false           -- an SPDM requester has begun a transcript (R512)
  spans : Bool := false                -- it spans a lead change (R512)
  erased : Bool := false               -- derived keys erased (R517)
  expect : List (List Byte) := []      -- the expected-identity table in force (R515)
  loading : Bool := false              -- the table loads (R515)
  rejudge : Bool := false              -- held packages are judged again at the next tick (R516)
  admitted : List (Nat × List Byte) := [] -- coordinates admitted, with their digests (R516)
  taken : List Nat := []               -- coordinates given to a standby (R452)
  held : List HeldPkg := []            -- R516
  asked : List Nat := []               -- coordinates challenged, the response awaited (R516)
  ports : Sparse PortId := []          -- R516
  deriving DecidableEq, Repr, Inhabited

/-! ## Management controllers (16): half 0 is west, half 1 east -/

/-- A firmware update in progress (R501). -/
structure FwUpdate where
  mctp : Bool := false
  image : List Byte
  offline : Bool := false
  written : List Nat := []             -- offline: halves that have written their slot
  first : Nat                          -- the half that did not lead at its start
  prev : List (Nat × Nat × Nat) := []  -- halves restarted into the image, the slot before, the tick of the restart
  deriving DecidableEq, Repr, Inhabited

/-- The lease, the halves and updates beside the MGT registers. Times of the lease count TCLK cycles (R488). -/
structure MgtState where
  holder : Option Nat := none          -- the arbiter's holder (R488)
  expiry : Nat := 0                    -- the arbiter's expiry (R488)
  leadExpiry : Nat := 0                -- the lead's own expiry (R489)
  renewSent : Nat := 0                 -- when the lead last sent RENEW (R489)
  up : List Nat := []                  -- halves that have left reset (R492)
  upTick : Nat := 0                    -- tick at which the later of the two left it (R492)
  idle : Nat := 0                      -- tick since which no half leads (R491)
  noLead : Bool := false               -- R491 or R492 is in force: FAULT_N is low for it
  readyTick : Sparse Nat := []         -- per half, 1 + the tick at which it last became ready (R502)
  update : Option FwUpdate := none     -- R501
  updated : List (Nat × Nat) := []     -- halves of the last update, with the slot before (R502)
  deriving DecidableEq, Repr, Inhabited

/-! ## The host interface (19) -/

/-- The host interface's state beside the HIF registers. -/
structure HifState where
  d3 : List Nat := []                  -- functions in D3hot (R549)
  msixOn : List Nat := []              -- functions whose MSI-X enable bit is set (R558)
  msixMask : List Nat := []            -- functions whose function mask is set (R558)
  due : List (Nat × Nat) := []         -- messages due, oldest first: function, vector (R560)
  hold : Sparse (Nat × Nat) := []      -- holding register of R13 per function: 1 + lower offset, captured upper half
  deriving DecidableEq, Repr, Inhabited

/-! ## Power, clocks and reset (18) -/

/-- The states of the IEEE 1149.1 TAP (R539). -/
inductive TapState where
  | testLogicReset | runTestIdle | selectDR | captureDR | shiftDR | exit1DR | pauseDR | exit2DR | updateDR
  | selectIR | captureIR | shiftIR | exit1IR | pauseIR | exit2IR | updateIR
  deriving DecidableEq, Repr, Inhabited

/-- The power manager's state beside the PWR registers, and the pins. -/
structure PwrState where
  pwrok : Bool := true                 -- the pin PWROK (R535)
  perst : Bool := true                 -- the pin PERST_N, high (R535)
  tripped : Bool := false              -- a package trip stands (R532)
  therm : Bool := false                -- the thermal-trip latch (R536)
  norDone : Bool := false              -- the NOR load has ended (R537)
  released : Bool := false             -- ACLK has been released from level 16 (R537)
  rails : List Nat := []               -- rails of R520 that have tripped
  refs : List Nat := []                -- references lost (R525): 0 REFCLK_SD_W, 1 REFCLK_SD_E, 2 PCIe, 3 TCLK
  fallen : List Nat := []              -- clocks that run from REFCLK_SD_W since a loss (R525): 0 SCLK, 1 MCLK, 2 HCLK
  switching : List Nat := []           -- clocks that are switching to it (R525)
  portsOff : List Nat := []            -- ports whose rail or reference is gone (R522, R525)
  underMs : Nat := 0                   -- comparisons in a row below 98 % of the target (R530)
  capMs : Sparse Nat := []             -- per region, comparisons in a row with its cap level below 32 (R530)
  coolMs : Sparse Nat := []            -- per die, readings in a row below target − 2 °C (R531)
  inForce : Nat × Nat × Nat := (7096, 26468, 2851)  -- PWR_TARGET, PWR_TJ and PWR_SAG as of the last event tick (R542)
  tap : TapState := .testLogicReset    -- R539
  tdo : Bool := false                  -- TDO is driven (R539)
  deriving DecidableEq, Repr, Inhabited

/-! ## The event sequencers (16) -/

/-- What an event sampled for a tick does when it is handled (R46, R495). -/
inductive EvKind where
  | programFault (core : Nat)                                      -- R83
  | skewSpill (region : Nat)                                         -- R187
  | nonfinite (core op : Nat) (tag : Tag) (tensor : Nat)           -- R118, R357
  | herdHalt (core status : Nat)                                   -- R293
  | standoff (regions : List Nat)                                  -- R305
  | detection (stack off : Nat)                                    -- R268
  | stackFence (stack cause : Nat)                                 -- R273
  | unit (kind index cause : Nat)                                  -- R457
  | straggler (cl group branch core : Nat)                         -- R177
  | digest (ctx port : Nat)                                        -- R442
  | sentinel (ctx region : Nat)                                    -- R467
  | leadChange (half : Nat)                                        -- R490
  | mgmtFault (half : Nat)                                         -- R485
  | violation (half : Nat)                                         -- R517
  | port (port st : Nat)                                            -- R426, R432: a port's state; lost tick sync (port 9)
  | arm (slot : Nat) (img : List Byte)                             -- R240: an ARM written to FCH_SLOT_CMD, with its image
  | done (iss : Option Issuer) (opcode status : Nat)               -- R208: the completion of a bind
  | badItem (ctx region item : Nat)                                -- R400: a batch item that is refused
  | preempted (ctx : Nat)                                          -- R408: the end of a pre-empted context's unbind
  | row (c : Instr)                                                -- R46: a command that takes effect at the tick
  deriving DecidableEq, Repr

/-- A sampled event: class, source index, the die whose sequencer has it, what it does (R493, R495). -/
structure Sampled where
  cls : Nat
  src : Nat
  die : Nat
  ev : EvKind
  deriving DecidableEq, Repr

/-- The sample queues of the four sequencers: new events, those carried from an overrun tick, and those that found their
sequencer's queue of 4,096 full and are offered again at the next tick (R494). -/
structure SeqState where
  sampled : List Sampled := []         -- new events (R493)
  carried : List Sampled := []         -- carried from an overrun tick (R494)
  offered : List Sampled := []         -- pending at their sources (R494)
  turned : Bool := false               -- the lead changed before the commands of this tick: they reached the old one (R47)
  deriving DecidableEq, Repr, Inhabited

/-- What the half that does not lead holds of the package-wide state of the fault manager, the security subsystem and the power,
clock and thermal manager (R49). -/
structure Mirror where
  flt : FltState := {}
  sec : SecState := {}
  pwr : PwrState := {}
  deriving DecidableEq, Repr, Inhabited

/-- A message the package sends out: the model's own record of it (DESIGN CHOICE, log entry 2). -/
inductive Output where
  | msix (fn vector : Nat)                                                       -- R560
  | memReply (req : Requester) (addr status : Nat) (data : List Byte)            -- an access answered (R261, R268)
  | peerWrite (coord addr bank : Nat) (data : List Byte)                         -- a peer write (R235, R433)
  | cxlConfig (port offset : Nat) (write : Option Word) (value : Word)            -- R562
  | vote (axis : Nat) (plus : Bool) (hop : Nat) (r : VoteRec)                    -- a vote record to a ring neighbour (R328)
  | decision (coord step : Nat) (commit : Bool) (flip : Nat) (snap : Bool)       -- a decision record to a flock member (R329)
  | inDoubt (coord step : Nat)                                                   -- an in-doubt record to a flock member (R332)
  | cadence (coord interval : Nat)                                               -- a cadence record to a shepherd (R477)
  | failure (row coord : Nat)                                                    -- a failure record to the shepherd (R469)
  | identity (port job coord role : Nat) (digest : List Byte)                    -- an identity flit (R426)
  | nak (port ack : Nat)                                                         -- a nak (R424)
  | replay (port first : Nat)                                                    -- a replay from a sequence number (R424)
  | beacon (count : Nat)                                                         -- a tick beacon (R432)
  | heartbeat (coord : Nat)                                                      -- to the deputy (R450)
  | newShepherd (coord : Nat)                                                    -- a deputy announces itself (R450)
  | takeover (coord job dims ctx : Nat)                                          -- TAKEOVER to the standby (R452)
  | relayed (role : Nat)                                                         -- a message sent on towards its coordinate (R431)
  | chunk (role : Nat) (head payload : List Byte)                                -- a collective chunk to a neighbour (R442)
  | chunkTo (coord role : Nat) (head payload : List Byte)                        -- an all-to-all chunk (R445)
  | peerAck (coord status : Nat)                                                 -- the answer to a peer write (R433)
  | nonce (coord : Nat) (bytes : List Byte)                                      -- a challenge to a package (R516)
  | identityResponse (chain signature : List Byte)                               -- its answer; both empty: an error (R516, R517)
  | heldReport (coord reason : Nat)                                              -- to the host cluster (R516)
  | spdm (code : Nat) (body : List Byte)                                         -- an SPDM response (R511): its request's row, or 0xFF
  | mctp (body : List Byte)                                                      -- a request that the lead serves (R487)
  | mctpNotReady                                                                 -- ERROR_NOT_READY (R487)
  | pause (coord : Nat) (on : Bool)                                              -- PAUSE and RESUME (R469)
  | fillPart (coord first count : Nat)                                           -- a part of a committed bank, in 64 KiB units (R471)
  | fillValues (coord : Nat) (bytes : List Byte)                                 -- values and digests of a fill (R471)
  | fillResult (coord status : Nat)                                              -- the end of a fill (R471)
  | ready (coord : Nat)                                                          -- a package reports ready to its shepherd (R471)
  | fetchPart (coord slot part : Nat)                                            -- a damaged part is fetched (R478)
  | lostReport (coord : Nat)                                                     -- a path has nothing to go on from (R482)
  | configReply (fn offset : Nat) (value : Option Word)                          -- an answer to a configuration request; none: CRS (R537)
  | aperture (fn : Nat) (data : List Byte)                                       -- the answer to an aperture read (R553)
  | doe (body : List Byte)                                                       -- an SPDM object handed to the lead (R561)
  | regRead (fn offset : Nat) (value : DWord)                                    -- the answer to a register read (R13, R19)
  deriving DecidableEq, Repr

/-- Fuses (R3, R505, R510, R564): what is burnt into the package. -/
structure FuseState where
  grade : Nat := 1                     -- R3
  revision : Nat := 0x20               -- R564
  svn : Nat := 0                       -- R505
  seed : List Byte := []               -- the 256-bit identity seed (R505)
  root : List Byte := []               -- digest of the Pothar root public key (R505)
  fwKeys : List Byte × List Byte := ([], []) -- digests of the primary and the backup firmware key (R505)
  revoked : Bool × Bool := (false, false) -- their revocation fuses (R505)
  deriving DecidableEq, Repr, Inhabited

/-- The package. -/
structure State where
  regs : Sparse DWord := []           -- the register file: copies that differ from their reset value
  mem : Sparse Byte := []             -- one memory (DESIGN CHOICE, log entry 6): HBM, CXL media, SRAM of physical cores, host memory
  cores : Sparse CoreState := []
  noc : NocState := {}
  mt : MemState := {}
  fch : FchState := {}
  bnd : BndState := {}
  step : Sparse StepState := []
  flt : FltState := {}
  nor : NorState := {}
  ctx : CtxState := {}
  hrd : HrdState := {}
  num : NumState := {}
  fin : FinState := {}
  lnk : LnkState := {}
  sec : SecState := {}
  mgt : MgtState := {}
  pwr : PwrState := {}
  hif : HifState := {}
  seq : SeqState := {}
  mirror : Mirror := {}                -- R49
  fuse : FuseState := {}
  pkgEvent : Bool := false            -- a package event waits for vector 0 (R559)
  out : List Output := []
  fresh : Nat := 0
  pending : List Instr := []
  deriving DecidableEq, Repr

/-- Reset: PWROK and PERST_N are high, the fuses are sensed, the sequencers start to count (R537). -/
def State.reset : State := {}

end Sys2Proof.Machine
end

