-- ==== Sys2Proof/Machine/Ops.lean ====
section
/-! DEFINITION. Machine/Ops.lean: the named operations over the register file, the memory, the cores and the queues that
every meaning is built from. -/

namespace Sys2Proof.Machine

/-! ## Registers (R13 to R18) -/

/-- Read copy i of a register. -/
def State.rd (s : State) (r : Reg) (i : Nat := 0) : DWord := spGet (r.reset i) s.regs (r.key i)

/-- Write copy i of a register. -/
def State.wr (s : State) (r : Reg) (i : Nat) (v : DWord) : State :=
  { s with regs := spSet (r.reset i) s.regs (r.key i) v }

/-- Read copy i of a register as a number. -/
def State.rn (s : State) (r : Reg) (i : Nat := 0) : Nat := (s.rd r i).toNat

/-- Write copy i of a register from a number. -/
def State.wn (s : State) (r : Reg) (i : Nat) (v : Nat) : State := s.wr r i (BitVec.ofNat 64 v)

/-- Read a field. -/
def State.get (s : State) (f : Fld) (i : Nat := 0) : Nat := bits (s.rn f.reg i) f.hi f.lo

/-- Write a field, leaving the register's other bits. -/
def State.put (s : State) (f : Fld) (i : Nat) (v : Nat) : State := s.wn f.reg i (putBits (s.rn f.reg i) f.hi f.lo v)

/-- Is a one-bit field set? -/
def State.flag (s : State) (f : Fld) (i : Nat := 0) : Bool := s.get f i = 1

/-- Set a block's bit in MGT_SAT (R498). -/
def State.setSat (s : State) (block : Nat) : State :=
  s.wn .MGT_SAT 0 (s.rn .MGT_SAT ||| 2 ^ block)

/-- Advance a 64-bit counter by n: it stops at its largest value and its first saturation is reported (R498). -/
def State.bump (s : State) (r : Reg) (i : Nat := 0) (n : Nat := 1) : State :=
  let v := s.rn r i + n
  if v < 2 ^ 64 - 1 then s.wn r i v else (s.wn r i (2 ^ 64 - 1)).setSat r.block

/-- Clear every copy of a register in an index range to its reset value. -/
def State.clearRegs (s : State) (p : Reg → Nat → Bool) : State :=
  { s with regs := s.regs.filter fun e => !((Reg.all.find? fun r => r.num = e.1 % 512).elim false fun r => p r (e.1 / 512)) }

/-- A free value of w bits (DESIGN CHOICE, log entry 3): the counter advances, so each draw is a fresh one. -/
def State.draw (s : State) : State := { s with fresh := s.fresh + 1 }

/-- Send a message out of the package (DESIGN CHOICE, log entry 2). -/
def State.emit (s : State) (o : Output) : State := { s with out := s.out ++ [o] }

/-- The sequencer that samples an event (R493, R495): that of the die of its unit; a half's and the host's go to the first die
of their half, events of the package to die 0 (DEDUCED, log entry 43). -/
def dieOf (cls src : Nat) : Nat :=
  match cls with
  | 0 => src % 4
  | 1 | 2 => 2 * (src % 2)
  | 5 => if src < 393216 then src / 98304 else (src - 393216) / 4 % 4
  | 6 => if src < 4096 then src / 1024 else (src - 4096) / 64 % 4
  | 7 => if 9 ≤ src then (src - 9) / 4 % 4 else 0
  | 8 => src / 1024 % 4
  | 10 => src % 16 / 4
  | 11 => if src < 16 then src / 4 else if src < 272 then (src - 16) / 64 else 0
  | 12 => if src < 16 then src / 4 else 0
  | _ => 0

/-- An event reaches its sequencer: into the sample queue, or, where that is full, it stays pending at its source (R494). -/
def SeqState.add (q : SeqState) (e : Sampled) : SeqState :=
  if ((q.sampled ++ q.carried).filter fun x => x.die = e.die).length < 4096 then { q with sampled := q.sampled ++ [e] }
  else { q with offered := q.offered ++ [e] }

/-- Sample an event for the next tick (R493). -/
def State.sample (s : State) (cls src : Nat) (ev : EvKind) : State :=
  { s with seq := s.seq.add ⟨cls, src, dieOf cls src, ev⟩ }

/-- Among events of one class and source, a hardware fault of a core comes first (R495). -/
def EvKind.rank : EvKind → Nat
  | .programFault _ | .herdHalt .. => 1
  | _ => 0

/-- Does an event come before another: by class, then by source (R494, R495)? -/
def Sampled.before (a b : Sampled) : Bool :=
  decide (a.cls < b.cls) || (a.cls = b.cls && (decide (a.src < b.src) || (a.src = b.src && decide (a.ev.rank < b.ev.rank))))

/-- Put an event behind those that do not come after it. -/
def insertEvent (e : Sampled) : List Sampled → List Sampled
  | [] => [e]
  | x :: t => if e.before x then e :: x :: t else x :: insertEvent e t

/-- Events in their order; equal ones as sampled. -/
def sortEvents (l : List Sampled) : List Sampled := l.foldl (fun m e => insertEvent e m) []

/-- The order in which the waiting events are handled (R494): new ones of class 0, those carried, the other new ones. -/
def SeqState.order (q : SeqState) : List Sampled :=
  let l := sortEvents q.sampled
  (l.filter fun e => e.cls = 0) ++ q.carried ++ l.filter fun e => e.cls ≠ 0

/-- Does the package act: PWROK and PERST_N are high, no package trip stands (R532, R535, R538)? -/
def State.live (s : State) : Bool := s.pwr.pwrok && s.pwr.perst && !s.pwr.tripped

/-- The outcome of a command: a package that does not act changes nothing (R532, R538) (DEDUCED, log entry 102). -/
def State.act (s t : State) : Host.Outcome State Fault Refusal := .next (if s.live then t else s)

/-- Does a half lead? A command that reaches none completes with NOT_LEAD (R41, R489). -/
def State.led (s : State) : Bool := s.flag MGT_STATUS.led

/-- Does a command that the tick handles find the lead it reached? Where the lead has changed in this tick it reached the half that
lost the lease, and completes with NOT_LEAD (R47, R489). -/
def State.leads (s : State) : Bool := s.led && !s.seq.turned

/-- The tick now (R493). -/
def State.now (s : State) : Nat := s.rn .MGT_TICK

/-- Ticks in a time of n µs: one tick is 160 ns (R10), a limit ends at the first tick at or after it
(DESIGN CHOICE, log entry 44). -/
def usTicks (us : Nat) : Nat := ceilDiv (us * 1000) 160

/-! ## Status codes (R496) -/

def stOK : Nat := 0x00
def stPREEMPTED : Nat := 0x01
def stBUSY : Nat := 0x02
def stNO_SPACE : Nat := 0x03
def stBAD_DESCRIPTOR : Nat := 0x04
def stBAD_FOLIO : Nat := 0x05
def stAUTH_FAIL : Nat := 0x06
def stNO_TALLY : Nat := 0x07
def stADDR_FAULT : Nat := 0x08
def stMEM_ERROR : Nat := 0x09
def stFENCED : Nat := 0x0A
def stEPOCH_STALE : Nat := 0x0B
def stSTEP_MISMATCH : Nat := 0x0C
def stJOURNAL_MISMATCH : Nat := 0x0D
def stORPHANED : Nat := 0x0E
def stOVERDRAW : Nat := 0x0F
def stSTANDOFF : Nat := 0x10
def stPROGRAM_FAULT : Nat := 0x11
def stDRAIN_TIMEOUT : Nat := 0x12
def stREARM_OVERWRITE : Nat := 0x13
def stFLUSHED : Nat := 0x14
def stSKEW_SPILL : Nat := 0x15
def stNONFINITE_ABORT : Nat := 0x16
def stDIGEST_MISMATCH : Nat := 0x17
def stSENTINEL_MISMATCH : Nat := 0x18
def stINCOMPLETE : Nat := 0x19
def stIN_DOUBT : Nat := 0x1A
def stNOT_LEAD : Nat := 0x1B
def stUPDATE_FAIL : Nat := 0x1C
def stSTRAGGLER : Nat := 0x1D

/-! ## Cores and clusters -/

/-- The dynamic state of a logical core, by its window number. -/
def State.core (s : State) (k : Nat) : CoreState := spGet {} s.cores k

/-- Replace it. -/
def State.setCore (s : State) (k : Nat) (c : CoreState) : State := { s with cores := spSet {} s.cores k c }

/-- The engine commands that a core executes (R84, R111). -/
def CoreState.executing (c : CoreState) : List EngCmd :=
  (c.tx.map (·.cmd)).toList ++ (c.dx.map (·.cmd)).toList ++ (c.vx.map (·.1)).toList ++ c.mx.toList
/-- Engine commands of an instance's issue handler that have not completed (R68). -/
def CoreState.outstanding (c : CoreState) (n : Nat) (t : Tag) : Bool :=
  (c.tq ++ c.vq ++ c.mq ++ c.executing).any fun q => q.op = n && q.tag = t && !q.finish

/-- Change it. -/
def State.modCore (s : State) (k : Nat) (f : CoreState → CoreState) : State := s.setCore k (f (s.core k))

/-- The package cluster of a core window number. -/
def clusterOf (k : Nat) : Nat := k / 16
/-- The region of a core window number. -/
def regionOf (k : Nat) : Nat := k / 256
/-- The logical index of a core window number. -/
def lcoreOf (k : Nat) : Nat := k % 16

/-- Is physical core p of package cluster cl fenced? -/
def State.fencedCore (s : State) (cl p : Nat) : Bool := bitAt (s.rn .FLT_CORE_FENCE ((16 * cl + p) / 32)) ((16 * cl + p) % 32)

/-- Is a cluster's router fenced (R173)? -/
def State.fencedRouter (s : State) (cl : Nat) : Bool := bitAt (s.rn .FLT_ROUTER_FENCE (cl / 32)) (cl % 32)

/-- The physical core that NOC_REMAP names behind a logical index (R159). -/
def State.phys (s : State) (k : Nat) : Nat := bits (s.rn .NOC_REMAP (clusterOf k)) (4 * lcoreOf k + 3) (4 * lcoreOf k)

/-- Has the logical index a good physical core behind it? The code 0xF of NOC_REMAP stands for physical core 15 as well as
for none, so CORE_STATUS.short decides (DEDUCED, log entry 8). -/
def State.hasCore (s : State) (k : Nat) : Bool := !s.flag CORE_STATUS.short k && decide (lcoreOf k < 15)

/-- The physical cores of a cluster that are not fenced, ascending; a router's fence takes all sixteen (R29). -/
def State.goodCores (s : State) (cl : Nat) : List Nat := if s.fencedRouter cl then [] else (upto 16).filter fun p => !s.fencedCore cl p

/-- Logical cores per cluster that the grade presents (R3, R21): 15 on F and S, 14 on L. -/
def State.gradeCores (s : State) : Nat := if s.fuse.grade = 3 then 14 else 15

/-- The good physical cores that no logical index names (R159), ascending; with fewer than 14 good cores all are out of use (R30). -/
def State.spares (s : State) (cl : Nat) : List Nat :=
  if (s.goodCores cl).length < 14 then [] else (s.goodCores cl).filter fun p => (upto 15).all fun l => !(s.hasCore (16 * cl + l) && s.phys (16 * cl + l) = p)

/-- Write the counts of a cluster's good cores and spares and its spare (R159, R190). -/
def State.countCluster (s : State) (cl : Nat) : State :=
  let sp := s.spares cl
  ((s.put NOC_STATUS.good cl (s.goodCores cl).length).put NOC_STATUS.spares cl (min 3 sp.length)).put
    NOC_REMAP.spare cl (sp.headD 15)

/-- Put a physical core, or none, behind a logical index (R159, R160). -/
def State.setPhys (s : State) (k : Nat) (p : Option Nat) : State :=
  let s := s.wn .NOC_REMAP (clusterOf k)
    (putBits (s.rn .NOC_REMAP (clusterOf k)) (4 * lcoreOf k + 3) (4 * lcoreOf k) (p.getD 15))
  (s.put CORE_STATUS.phys k (p.getD 15)).put CORE_STATUS.short k (if p.isSome then 0 else 1)

/-- Take logical cores of a cluster out of use. -/
def State.unmap (s : State) (cl : Nat) (ls : List Nat) : State := ls.foldl (fun (s : State) l => s.setPhys (16 * cl + l) none) s

/-- Put the good cores of a cluster behind the logical indices of the grade that have none, lowest first (R30, R460)
(DEDUCED, log entry 161). -/
def State.refill (s : State) (cl : Nat) : State :=
  ((upto s.gradeCores).foldl (fun (s : State) l =>
    if s.hasCore (16 * cl + l) then s
    else match s.spares cl with
      | p :: _ => s.setPhys (16 * cl + l) (some p)
      | [] => s) s).countCluster cl

/-! ## The one memory (R255, R92, R275, R554): where each address of the model's memory lies (DESIGN CHOICE, log entry 6) -/

/-- First byte of the SRAM window of a physical core (scratchpad at 0, under-store at 0x10_0000, R92). -/
def sramBase (cl p : Nat) : Nat := 0x7F0000000000 + (16 * cl + p) * 0x200000
/-- First byte of the media of CXL port k. -/
def cxlBase (k : Nat) : Nat := 0x400000000000 + k * 0x40000000000
/-- First byte of host memory. -/
def hostBase : Nat := 2 ^ 52
/-- Bytes of scratchpad and of under-store of a core. -/
def spadSize : Nat := 786432
def ustoreSize : Nat := 1048576
/-- First byte of the scratchpad, and of the under-store, behind a logical core. -/
def State.spad (s : State) (k : Nat) : Nat := sramBase (clusterOf k) (s.phys k)
def State.ustore (s : State) (k : Nat) : Nat := sramBase (clusterOf k) (s.phys k) + 0x100000

def gib : Nat := 2 ^ 30
def mib2 : Nat := 2 ^ 21
def hbmEnd : Nat := 768 * gib

/-- A range of bytes cut at multiples of u: (first byte, length). -/
def cutAt (u a n : Nat) : List (Nat × Nat) :=
  if n = 0 then []
  else (upto ((a + n - 1) / u + 1 - a / u)).map fun j =>
    let b := max a ((a / u + j) * u)
    (b, min (a + n) ((a / u + j + 1) * u) - b)

/-- Is a quad interleaved (R256, R257)? Global quad: the device page's number over four. -/
def State.quadMode (s : State) (q : Nat) : Bool := bitAt (s.rn .MEM_QUAD_MODE (q / 32)) (q % 32)

/-- Stack and stack offset of an HBM address (R256). -/
def hbmLocate (a : Nat) (interleaved : Bool) : Nat × Nat :=
  let d := a / (192 * gib)
  let o := a % (192 * gib)
  let q := o / 2 ^ 23
  let i := o / 2 ^ 21 % 4
  let b := o % 2 ^ 21
  if !interleaved then (4 * d + i, q * 2 ^ 21 + b)
  else
    let ch := b / 1024
    (4 * d + ch % 4, q * 2 ^ 21 + i * 2 ^ 19 + ch / 4 * 1024 + b % 1024)

def State.locate (s : State) (a : Nat) : Nat × Nat := hbmLocate a (s.quadMode (a / 2 ^ 23))

/-- Where the byte at an offset of a stack lies in the model's memory: at the device address that a local quad gives it. -/
def stackKey (k off : Nat) : Nat := k / 4 * (192 * gib) + off / mib2 * 2 ^ 23 + k % 4 * mib2 + off % mib2

/-- Where the byte of an address lies in the model's memory: for HBM its place on the stacks, which a change of a quad's mode does
not move (R258). -/
def State.memKey (s : State) (a : Nat) : Nat :=
  if a < hbmEnd ∧ s.quadMode (a / 2 ^ 23) then stackKey (s.locate a).1 (s.locate a).2 else a

/-- Does a range touch an interleaved quad? -/
def State.spread (s : State) (a n : Nat) : Bool :=
  decide (a < hbmEnd) && (cutAt (2 ^ 23) a n).any fun c => s.quadMode (c.1 / 2 ^ 23)

/-- Read n bytes of the memory. -/
def State.load (s : State) (a n : Nat) : List Byte :=
  if s.spread a n then (cutAt 1024 a n).flatMap fun c => memLoad s.mem (s.memKey c.1) c.2 else memLoad s.mem a n
/-- Write bytes into the memory. -/
def State.store (s : State) (a : Nat) (bs : List Byte) : State :=
  if s.spread a bs.length then
    { s with mem := (cutAt 1024 a bs.length).foldl (fun m c => memStore m (s.memKey c.1) ((bs.drop (c.1 - a)).take c.2)) s.mem }
  else { s with mem := memStore s.mem a bs }
/-- Zero n bytes of the memory. -/
def State.zero (s : State) (a n : Nat) : State :=
  if s.spread a n then
    { s with mem := (cutAt 1024 a n).foldl (fun m c => spClear m (s.memKey c.1) (s.memKey c.1 + c.2)) s.mem }
  else { s with mem := spClear s.mem a (a + n) }
/-- Copy n bytes of the memory. -/
def State.copy (s : State) (src dst n : Nat) : State :=
  if s.spread src n || s.spread dst n then s.store dst (s.load src n) else { s with mem := memCopy s.mem src dst n }
/-- Read n bytes as a little-endian number (R12). -/
def State.loadN (s : State) (a n : Nat) : Nat := leNat (s.load a n)
/-- Write a number as n little-endian bytes (R12). -/
def State.storeN (s : State) (a n v : Nat) : State := s.store a (natLe n v)

/-! ## Rings and completions (R394 to R398) -/

/-- A context's ring state. -/
def State.ring (s : State) (c : Nat) : RingState := spGet {} s.ctx.rings c
/-- Replace it. -/
def State.setRing (s : State) (c : Nat) (r : RingState) : State := { s with ctx := { s.ctx with rings := spSet {} s.ctx.rings c r } }

/-- Queue a completion record for a context; a record of kind 3 or 4 that finds the queue of 256 full is discarded and
counted (R398). -/
def State.post (s : State) (c : Nat) (r : CplRec) : State :=
  let q := s.ring c
  if (r.kind = 3 ∨ r.kind = 4) ∧ 256 ≤ q.queue.length then s.bump .CTX_CPL_LOST c
  else s.setRing c { q with queue := q.queue ++ [r] }

/-- Complete a command: a ring command with its kind 0 record (R396); a register command leaves its status to its own
status register. -/
def State.complete (s : State) (iss : Issuer) (opcode status : Nat) (value : Nat := 0) : State :=
  match iss with
  | .ring c cookie irq =>
    let q := s.ring c.val
    (s.setRing c.val { q with inflight := q.inflight - 1 }).post c.val
      { kind := 0, status := status, aux := opcode, tag := cookie.toNat, value := value, irq := irq }
  | .reg _ => s

/-- The command leaves the list of commands taken from its ring and counts as applied (R394)
(DESIGN CHOICE, log entry 54). -/
def State.began (s : State) (iss : Issuer) (opcode : Nat) : State :=
  match iss with
  | .ring c cookie _ =>
    let q := s.ring c.val
    s.setRing c.val { q with
      taken := dropFirst (fun t => t.opcode = opcode && t.cookie = cookie) q.taken, inflight := q.inflight + 1 }
  | .reg _ => s

/-- The context a region is reserved for, 0x1F if none (R403). -/
def State.reserver (s : State) (p : Nat) : Nat := s.get CTX_REGION_RESERVE.context p

/-- The source index of a context's commands (R394): its number if it holds a reserved region, else 32 more. -/
def State.ctxSrc (s : State) (c : Nat) : Nat := if (upto 16).any fun p => s.reserver p = c then c else 32 + c

/-- The source index of a host command (R394, R495). -/
def State.hostSrc (s : State) : Issuer → Nat
  | .ring c _ _ => s.ctxSrc c.val
  | .reg _ => 64

/-- The issuer and the opcode of a command that a submission ring may bring (R393). -/
def hostCmd : Instr → Option (Issuer × Nat)
  | .step i _ => some (i, 0x01) | .reshard i _ => some (i, 0x02) | .reshardForce i _ => some (i, 0x02)
  | .stage i .. => some (i, 0x03) | .bind i .. => some (i, 0x04) | .unbind i .. => some (i, 0x05) | .rebind i .. => some (i, 0x06)
  | .release i _ => some (i, 0x07) | .fchArm i .. => some (i, 0x08) | .fchCancel i .. => some (i, 0x09)
  | .tallyCreate i .. => some (i, 0x0A) | .tallyImport i .. => some (i, 0x0A) | .tallyRelease i _ => some (i, 0x0A)
  | .tallyAdd i .. => some (i, 0x0A) | .tallySub i .. => some (i, 0x0A) | .tallyRead i _ => some (i, 0x0A)
  | .leashSet i .. => some (i, 0x0A) | .leashClear i _ => some (i, 0x0A)
  | .tierLoad i _ => some (i, 0x0B) | .tierLoadPin i _ => some (i, 0x0B) | .tierUnpin i _ => some (i, 0x0B)
  | .tierEvict i _ => some (i, 0x0B) | .tierFlush i _ => some (i, 0x0B)
  | .preempt i _ => some (i, 0x0C) | .nop i => some (i, 0x0D)
  | _ => none

/-- A command whose effect comes at an event tick is sampled (R46). -/
def State.sampleRow (s : State) (cls src : Nat) (c : Instr) : State := s.sample cls src (.row c)
/-- A host command is sampled in class 9 (R394, R495). -/
def State.sampleHost (s : State) (iss : Issuer) (c : Instr) : State := s.sampleRow 9 (s.hostSrc iss) c

/-- A ring command that needs a region waits while its context is pre-empting or pre-empted (R409). -/
def State.ringHeld (s : State) (iss : Issuer) : Bool :=
  match iss with
  | .ring c .. => decide (2 ≤ s.get CTX_PSTATE.state c.val)
  | .reg _ => false

/-- The job tick count of a context (R313, R333): LNK_TICK in a joined job, else MGT_TICK. -/
def State.jobTick (s : State) (c : Nat) : Nat :=
  if s.flag LNK_STATUS.joined ∧ s.get LNK_JOB_CTX.context = c then s.rn .LNK_TICK else s.rn .MGT_TICK

/-- A kind 3 record (R396): the context is pre-empted, resumed, halted or its ring fails. -/
def State.postCtx (s : State) (c status mask : Nat) : State :=
  s.post c { kind := 3, status := status, aux := mask, value := s.jobTick c }

/-- A kind 4 record (R396): an event of a region; its count stops at its largest value, which is reported (R498). -/
def State.postEvent (s : State) (c status region : Nat) (count : Nat := 1) (value : Nat := 0) : State :=
  let s := if count < 0xFFFF then s else s.setSat 1
  s.post c { kind := 4, status := status, count := min count 0xFFFF, aux := region, value := value }

/-- A kind 5 record (R396): a fetcher descriptor's completion. -/
def State.postFetch (s : State) (c status region ch slot value : Nat) (irq : Bool) : State :=
  s.post c { kind := 5, status := status, tag := region + 16 * ch + 256 * slot, value := value, irq := irq }

/-! ## Regions (R31, R222) -/

/-- The states of BND_REGION_STATE. -/
def rsUnbound : Nat := 0
def rsLoading : Nat := 1
def rsBound : Nat := 2
def rsDraining : Nat := 3
def rsHalted : Nat := 4

/-- Insert before the first element that is not smaller. -/
def insertBy {α : Type} (le : α → α → Bool) (x : α) : List α → List α
  | [] => [x]
  | y :: t => if le x y then x :: y :: t else y :: insertBy le x t
/-- Sort; equal elements keep their order. -/
def sortBy {α : Type} (le : α → α → Bool) (l : List α) : List α := l.foldr (insertBy le) []

/-- State of a region. -/
def State.rstate (s : State) (p : Nat) : Nat := s.get BND_REGION_STATE.state p
/-- The context a region is bound to, 0x1F if none. -/
def State.rctx (s : State) (p : Nat) : Nat := s.get BND_REGION_STATE.context p
/-- Its bind epoch. -/
def State.repoch (s : State) (p : Nat) : Nat := s.get BND_REGION_STATE.epoch p
/-- Does the region compute (bound or draining)? -/
def State.runs (s : State) (p : Nat) : Bool := s.rstate p = rsBound || s.rstate p = rsDraining
/-- The staged folio of a handle. -/
def State.folio (s : State) (h : Nat) : Option Folio := s.bnd.folios.find? fun f => f.handle = h
/-- The folio a region is bound from. -/
def State.rfolio (s : State) (p : Nat) : Option Folio := s.folio (s.get BND_REGION_STATE.handle p)
/-- The regions bound to a context. -/
def State.regionsOf (s : State) (c : Nat) : List Nat := (upto 16).filter fun p => s.rctx p = c ∧ s.rstate p ≠ rsUnbound
/-- Does the context exist? -/
def State.ctxExists (s : State) (c : Nat) : Bool := s.flag CTX_CONFIG.exists c
/-- A mask with one bit per listed number. -/
def maskOf (l : List Nat) : Nat := l.foldl (fun m p => m ||| 2 ^ p) 0
/-- The numbers below n whose bit is set. -/
def unmask (n m : Nat) : List Nat := (upto n).filter fun p => bitAt m p

/-! ## Fetcher slots (R226, R253) -/

/-- A slot, by 160p + 10c + s, and its change; FCH_SLOT_STATUS follows it. -/
def State.fslot (s : State) (i : Nat) : FchSlot := spGet {} s.fch.slots i
def FchSlot.code (f : FchSlot) : Nat :=
  if f.error then 4 else if f.active.isNone then 0 else if f.parked then 3 else if f.fired then 2 else 1
def State.setFslot (s : State) (i : Nat) (f : FchSlot) : State :=
  let s := { s with fch := { s.fch with slots := spSet {} s.fch.slots i f } }
  (s.put FCH_SLOT_STATUS.state i f.code).put FCH_SLOT_STATUS.shadow i (if f.shadow.isSome then 1 else 0)

end Sys2Proof.Machine
end

