-- ==== Sys2Proof/Machine/Operands.lean ====
section
/-! DEFINITION. Machine/Operands.lean: the forms an operand takes: table entries of a core (R55, R56, R167, R182), loop
descriptors (R131 to R134), the walk and its addresses (R135), and the edges and masks of a walk (R139, R145). -/

namespace Sys2Proof.Machine

/-! ## Table entries -/

/-- Number of operations of a core (R198). -/
def CoreBlock.opCount (b : CoreBlock) : Nat := b.ops.length
/-- The operation table entry (R55). -/
def CoreBlock.op (b : CoreBlock) (n : Nat) : Nat := (b.ops.getD n 0#64).toNat
def opIssuePc (e : Nat) : Nat := bits e 63 54
def opFinishPc (e : Nat) : Nat := bits e 53 44
def opPorts (e : Nat) : Nat := bits e 43 41 + 1
def opOuts (e : Nat) : Nat := bits e 40 37
def opOrdered (e : Nat) : Bool := bitAt e 36
def opDepth (e : Nat) : Nat := 2 ^ bits e 35 34
def opOutBase (e : Nat) : Nat := bits e 31 16
def opOutSlot (e : Nat) : Nat := bits e 15 0
/-- All ports of an operation as a mask. -/
def opPortMask (e : Nat) : BitVec 8 := BitVec.ofNat 8 (2 ^ opPorts e - 1)

/-- The port table entry of port k of operation n (R56). -/
def CoreBlock.port (b : CoreBlock) (n k : Nat) : Nat := (b.ports.getD (8 * n + k) 0#32).toNat
/-- Scratchpad byte address of slot s of a port (R56). -/
def portSlotAddr (e s : Nat) : Nat := bits e 15 0 * 64 + s * bits e 31 16 * 64
/-- Slot size of a port in 64 B units. -/
def portSlotSize (e : Nat) : Nat := bits e 31 16

/-- The route table entry of output j of operation n (R167). -/
def CoreBlock.route (b : CoreBlock) (n j : Nat) : Nat := (b.routes.getD (8 * n + j) 0#64).toNat
def rtCourier (e : Nat) : Bool := bitAt e 63
def rtMode (e : Nat) : Nat := bits e 62 61
def rtClass (e : Nat) : Nat := bits e 60 59
def rtRegion (e : Nat) : Nat := bits e 58 55
def rtCluster (e : Nat) : Nat := bits e 54 51
def rtCore (e : Nat) : Nat := bits e 50 47
def rtOp (e : Nat) : Nat := bits e 46 42
def rtPort (e : Nat) : Nat := bits e 41 39
def rtGroup (e : Nat) : Nat := bits e 38 31
def rtNode (e : Nat) : Nat := bits e 36 31
def rtLeaf (e : Nat) : Nat := bits e 30 27
def rtRedOp (e : Nat) : Nat := bits e 26 24
def rtLane (e : Nat) : Nat := bits e 23 22

/-- Reservoir of port k of operation n: base and size in bytes (R182). -/
def CoreBlock.resvBase (b : CoreBlock) (n k : Nat) : Nat := bits (b.resv.getD (8 * n + k) 0#32).toNat 13 0 * 64
def CoreBlock.resvSize (b : CoreBlock) (n k : Nat) : Nat := bits (b.resv.getD (8 * n + k) 0#32).toNat 27 14 * 64

/-- Scratchpad address of an instance's output staging slot (R57). -/
def stagingAddr (e : Nat) (t : Tag) : Nat := opOutBase e * 64 + (t.toNat % opDepth e) * opOutSlot e * 64

/-! ## Formats (R75, R96) -/

/-- Adder-tree group size of a format code, 0 for a code the tensor unit does not take (R75). -/
def fmtGroup (c : Nat) : Nat := if c < 2 then 4 else if c < 8 then 8 else if c = 8 then 16 else 0
/-- Is the code an MX format? -/
def fmtMx (c : Nat) : Bool := decide (4 ≤ c ∧ c ≤ 8)
/-- Bits of one element of a format code. -/
def fmtBits (c : Nat) : Nat :=
  match c with
  | 0 => 16 | 1 => 16 | 2 => 8 | 3 => 8 | 4 => 8 | 5 => 8 | 6 => 6 | 7 => 6 | 8 => 4 | _ => 32

/-! ## Loop descriptors (R131 to R133) -/

/-- A loop descriptor as its 54 words. -/
abbrev Desc := List Word

def Desc.w (d : Desc) (i : Nat) : Nat := (d.getD i 0#32).toNat
def Desc.engine (d : Desc) : Nat := bits (d.w 0) 1 0
def Desc.levels (d : Desc) : Nat := bits (d.w 0) 4 2
def Desc.clear (d : Desc) : Nat := bits (d.w 0) 6 5
def Desc.pass (d : Desc) : Bool := bitAt (d.w 0) 7
def Desc.drainFmt (d : Desc) : Nat := bits (d.w 0) 10 8
def Desc.drainRnd (d : Desc) : Nat := bits (d.w 0) 12 11
def Desc.sat (d : Desc) : Bool := bitAt (d.w 0) 13
def Desc.infOk (d : Desc) : Bool := bitAt (d.w 0) 14
def Desc.maskMode (d : Desc) : Nat := bits (d.w 0) 16 15
def Desc.maskLevel (d : Desc) : Nat := bits (d.w 0) 19 17
def Desc.maskCount (d : Desc) : Nat := bits (d.w 1) 23 0
def Desc.topk (d : Desc) : Nat := bits (d.w 1) 26 24 + 1
def Desc.mTail (d : Desc) : Nat := bits (d.w 2) 4 0
def Desc.nTail (d : Desc) : Nat := bits (d.w 2) 9 5
def Desc.kTail (d : Desc) : Nat := bits (d.w 2) 14 10
def Desc.bufLevel (d : Desc) : Nat := bits (d.w 2) 17 15
def Desc.bufCount (d : Desc) : Nat := 2 ^ bits (d.w 2) 19 18
def Desc.bufSlots (d : Desc) : Nat := bits (d.w 2) 24 20
def Desc.srcFmt (d : Desc) : Nat := bits (d.w 2) 28 25
def Desc.bufStride (d : Desc) : Int := sext 32 (d.w 3)
def Desc.tensorId (d : Desc) : Nat := d.w 4
def Desc.elemBase (d : Desc) : Nat := d.w 5
def Desc.off (d : Desc) (s : Nat) : Int := sext 32 (d.w (6 + s))
def Desc.pitch (d : Desc) (s : Nat) : Nat := d.w (11 + s)
def Desc.ldAddr (d : Desc) : Nat := d.w 16
def Desc.ldPitch (d : Desc) : Nat := d.w 17
/-- Level entry fields (R133): bound, role (0 repeat, 1 M, 2 N, 3 K), nesting position, stride of a slot. -/
def Desc.bound (d : Desc) (l : Nat) : Nat := bits (d.w (18 + 6 * l)) 23 0 + 1
def Desc.role (d : Desc) (l : Nat) : Nat := bits (d.w (18 + 6 * l)) 25 24
def Desc.order (d : Desc) (l : Nat) : Nat := bits (d.w (18 + 6 * l)) 28 26
def Desc.stride (d : Desc) (l s : Nat) : Int := sext 32 (d.w (18 + 6 * l + 1 + s))

/-- The level slot at a nesting position (R135). -/
def Desc.levelAt (d : Desc) (pos : Nat) : Nat := ((upto d.levels).find? fun l => d.order l = pos).getD 0

/-- An index vector: the iteration of each level slot. -/
abbrev IVec := List Nat

/-- All iterations of a list of level slots, outermost first, the last varying fastest (R135). -/
def walkOver (d : Desc) : List Nat → List (List (Nat × Nat))
  | [] => [[]]
  | l :: ls => (upto (d.bound l)).flatMap fun j => (walkOver d ls).map fun rest => (l, j) :: rest

/-- An assignment of iterations as an index vector by level slot; levels not named are at zero. -/
def ivecOf (d : Desc) (as : List (Nat × Nat)) : IVec :=
  (upto d.levels).map fun l => ((as.find? fun a => a.1 = l).map (·.2)).getD 0

/-- Level slots in nesting order, outermost first, of the levels that satisfy p. -/
def Desc.nest (d : Desc) (p : Nat → Bool) : List Nat :=
  ((upto d.levels).reverse.map d.levelAt).filter p

/-- The index vectors of the levels that satisfy p, in walk order. -/
def Desc.walk (d : Desc) (p : Nat → Bool) : List IVec := (walkOver d (d.nest p)).map (ivecOf d)

/-- Two index vectors over disjoint levels, joined. -/
def ivecAdd (a b : IVec) : IVec := List.zipWith (· + ·) a b

/-- The address of operand slot s at an index vector (R135), modulo 2^32. -/
def Desc.addr (d : Desc) (s : Nat) (reg : Word) (i : IVec) : Nat :=
  let a := (reg.toNat : Int) + d.off s
    + ((upto d.levels).map fun l => (i.getD l 0 : Int) * d.stride l s).foldl (· + ·) 0
    + (if bitAt d.bufSlots s then ((i.getD d.bufLevel 0 % d.bufCount : Nat) : Int) * d.bufStride else 0)
  wrapInt 32 a

/-- Is iteration j of the mask level masked in count mode (R145)? Bitmap mode reads `bit`. -/
def Desc.masked (d : Desc) (j : Nat) (bit : Nat → Bool) : Bool :=
  match d.maskMode with
  | 1 => decide (d.maskCount ≤ j)
  | 2 => !bit j
  | _ => false

/-- Are all levels of a role at their last values (R139)? -/
def Desc.atLast (d : Desc) (role : Nat) (i : IVec) : Bool :=
  (upto d.levels).all fun l => d.role l ≠ role || i.getD l 0 + 1 = d.bound l

/-- Rows of a tile inside the bound of M, and columns inside the bound of N (R139). -/
def Desc.rows (d : Desc) (i : IVec) : Nat := if d.mTail ≠ 0 ∧ d.atLast 1 i then min 16 d.mTail else 16
def Desc.cols (d : Desc) (i : IVec) : Nat := if d.nTail ≠ 0 ∧ d.atLast 2 i then min 16 d.nTail else 16

end Sys2Proof.Machine
end

