-- ==== Sys2Proof/Machine/Arith.lean ====
section
/-! DEFINITION. Machine/Arith.lean: numbers and their formats (R96 to R106), exact sums and the one rounding (R103 to R107),
the arithmetic of the vector unit (R117 to R125) and its correctly rounded special functions (R122). -/

namespace Sys2Proof.Machine

/-- An exact value: NaN, an infinity, or ±m·2^e with the sign of a zero kept. -/
inductive FVal where
  | nan
  | inf (neg : Bool)
  | fin (neg : Bool) (m : Nat) (e : Int)
  deriving DecidableEq, Repr, Inhabited

/-- A storage format (R96): exponent and fraction widths, bias, and the kind of its special encodings: 0 infinity and NaN at
the all-ones exponent; 1 E4M3, one NaN; 2 none. -/
structure Fmt where
  ew : Nat
  fw : Nat
  bias : Int
  kind : Nat
  deriving DecidableEq, Repr

def fmtFP32 : Fmt := ⟨8, 23, 127, 0⟩
def fmtBF16 : Fmt := ⟨8, 7, 127, 0⟩
def fmtFP16 : Fmt := ⟨5, 10, 15, 0⟩
def fmtE4M3 : Fmt := ⟨4, 3, 7, 1⟩
def fmtE5M2 : Fmt := ⟨5, 2, 15, 0⟩
def fmtE3M2 : Fmt := ⟨3, 2, 3, 2⟩
def fmtE2M3 : Fmt := ⟨2, 3, 1, 2⟩
def fmtE2M1 : Fmt := ⟨2, 1, 1, 2⟩
def fmtFA48 : Fmt := ⟨10, 37, 511, 0⟩

/-- The element format of a format code (R75). -/
def fmtOf (c : Nat) : Fmt :=
  match c with
  | 0 => fmtBF16 | 1 => fmtFP16 | 2 => fmtE4M3 | 3 => fmtE5M2 | 4 => fmtE4M3 | 5 => fmtE5M2
  | 6 => fmtE3M2 | 7 => fmtE2M3 | 8 => fmtE2M1 | _ => fmtFP32

/-- The drain format of a descriptor (R132), raw FA48 for code 5. -/
def drainFmtOf (c : Nat) : Fmt :=
  match c with
  | 0 => fmtBF16 | 1 => fmtFP16 | 2 => fmtFP32 | 3 => fmtE4M3 | 4 => fmtE5M2 | _ => fmtFA48

/-- Bits of a format. -/
def Fmt.width (f : Fmt) : Nat := 1 + f.ew + f.fw

/-- Exponent of the last place of the subnormals. -/
def Fmt.emin (f : Fmt) : Int := 1 - f.bias - f.fw

/-- The value of an encoding (R96). -/
def Fmt.dec (f : Fmt) (v : Nat) : FVal :=
  let neg := bitAt v (f.ew + f.fw)
  let e := bits v (f.ew + f.fw - 1) f.fw
  let m := v % 2 ^ f.fw
  if f.kind = 0 ∧ e = 2 ^ f.ew - 1 then (if m = 0 then .inf neg else .nan)
  else if f.kind = 1 ∧ e = 2 ^ f.ew - 1 ∧ m = 2 ^ f.fw - 1 then .nan
  else if e = 0 then .fin neg m f.emin
  else .fin neg (2 ^ f.fw + m) (f.emin + (e - 1))

/-- The canonical NaN (R97); the element formats without NaN are never asked for one. -/
def Fmt.qnan (f : Fmt) : Nat :=
  match f.kind with
  | 0 => (2 ^ f.ew - 1) * 2 ^ f.fw + 2 ^ (f.fw - 1)
  | _ => 2 ^ (f.ew + f.fw) - 1

/-- The largest finite magnitude: significand and exponent (R96). -/
def Fmt.maxM (f : Fmt) : Nat := if f.kind = 1 then 2 ^ (f.fw + 1) - 2 else 2 ^ (f.fw + 1) - 1
def Fmt.maxE (f : Fmt) : Int := f.emin + ((2 ^ f.ew : Nat) - (if f.kind = 0 then 3 else 2 : Nat))

/-- The encoding of the largest finite magnitude. -/
def Fmt.maxBits (f : Fmt) : Nat :=
  match f.kind with
  | 0 => (2 ^ f.ew - 1) * 2 ^ f.fw - 1
  | 1 => 2 ^ (f.ew + f.fw) - 2
  | _ => 2 ^ (f.ew + f.fw) - 1

/-- m1·2^e1 ≤ m2·2^e2. -/
def dyLe (m1 : Nat) (e1 : Int) (m2 : Nat) (e2 : Int) : Bool :=
  decide (m1 * 2 ^ (e1 - min e1 e2).toNat ≤ m2 * 2 ^ (e2 - min e1 e2).toNat)

/-- The rounding modes (R77, R103). -/
inductive Rnd where
  | rne | stoch (r : Nat) | zero
  deriving DecidableEq, Repr

/-- Round a positive magnitude m·2^e to the format's grid (R103): significand and exponent of the last place. -/
def Fmt.roundMag (f : Fmt) (mode : Rnd) (m : Nat) (e : Int) : Nat × Int :=
  let q := max f.emin (e + m.log2 - f.fw)
  if q ≤ e then (m * 2 ^ (e - q).toNat, q)
  else
    let sh := (q - e).toNat
    let lo := m / 2 ^ sh
    let rem := m % 2 ^ sh
    let up : Bool :=
      match mode with
      | .rne => decide (2 ^ sh < 2 * rem) || (decide (2 * rem = 2 ^ sh) && lo % 2 = 1)
      | .stoch r => decide (65536 ≤ rem * 65536 / 2 ^ sh + r)
      | .zero => false
    (if rem ≠ 0 ∧ up then lo + 1 else lo, q)

/-- The encoding of a significand on the grid. -/
def Fmt.pack (f : Fmt) (n : Nat) (q : Int) : Nat :=
  let (n, q) := if 2 ^ (f.fw + 1) ≤ n then (n / 2, q + 1) else (n, q)
  if n < 2 ^ f.fw then n else ((q - f.emin).toNat + 1) * 2 ^ f.fw + (n - 2 ^ f.fw)

/-- Convert an exact value (R103 to R105): round once, keep the sign, saturate or overflow by R104. -/
def Fmt.enc (f : Fmt) (mode : Rnd) (sat : Bool) (x : FVal) : Nat :=
  let sign (neg : Bool) : Nat := if neg then 2 ^ (f.ew + f.fw) else 0
  match x with
  | .nan => f.qnan
  | .inf neg =>
    match f.kind with
    | 0 => sign neg + (2 ^ f.ew - 1) * 2 ^ f.fw
    | 1 => f.qnan
    | _ => sign neg + f.maxBits
  | .fin neg m e =>
    if m = 0 then sign neg
    else if mode ≠ .zero && dyLe (2 * f.maxM + 1) (f.maxE - 1) m e then
      match f.kind with
      | 0 => if sat then sign neg + f.maxBits else sign neg + (2 ^ f.ew - 1) * 2 ^ f.fw
      | 1 => if sat then sign neg + f.maxBits else f.qnan
      | _ => sign neg + f.maxBits
    else if dyLe f.maxM f.maxE m e then sign neg + f.maxBits
    else
      let (n, q) := f.roundMag mode m e
      sign neg + f.pack n q

/-- One E8M0 scale (R98). -/
def e8m0 (c : Nat) : FVal := if c = 255 then .nan else .fin false 1 ((c : Int) - 127)

/-! ## Exact operations -/

def FVal.neg : FVal → FVal
  | .nan => .nan
  | .inf n => .inf !n
  | .fin n m e => .fin (!n) m e

def FVal.abs : FVal → FVal
  | .nan => .nan
  | .inf _ => .inf false
  | .fin _ m e => .fin false m e

def FVal.isNan : FVal → Bool
  | .nan => true
  | _ => false

def FVal.isInf : FVal → Bool
  | .inf _ => true
  | _ => false

def FVal.isZero : FVal → Bool
  | .fin _ 0 _ => true
  | _ => false

/-- Exact product (R105, R116, R117). -/
def FVal.mul : FVal → FVal → FVal
  | .fin a m e, .fin b n f => .fin (a != b) (m * n) (e + f)
  | .inf a, .inf b => .inf (a != b)
  | .inf a, .fin b n _ => if n = 0 then .nan else .inf (a != b)
  | .fin a m _, .inf b => if m = 0 then .nan else .inf (a != b)
  | _, _ => .nan

/-- A finite value as an integer at exponent e0. -/
def atExp (neg : Bool) (m : Nat) (e e0 : Int) : Int :=
  let v : Int := (m * 2 ^ (e - e0).toNat : Nat)
  if neg then -v else v

/-- Exact sum; a zero sum is −0 only when both terms are −0 (R105). -/
def FVal.add : FVal → FVal → FVal
  | .fin a m e, .fin b n f =>
    let e0 := min e f
    let v := atExp a m e e0 + atExp b n f e0
    if v = 0 then .fin (a && b && m = 0) 0 0 else .fin (decide (v < 0)) v.natAbs e0
  | .inf a, .inf b => if a = b then .inf a else .nan
  | .inf a, .fin .. => .inf a
  | .fin .., .inf b => .inf b
  | _, _ => .nan

def FVal.sub (a b : FVal) : FVal := a.add b.neg

/-- a < b, false with a NaN. -/
def FVal.lt (a b : FVal) : Bool :=
  match a, b with
  | .nan, _ => false
  | _, .nan => false
  | .inf x, .inf y => x && !y
  | .inf x, .fin .. => x
  | .fin .., .inf y => !y
  | .fin x m e, .fin y n f => let e0 := min e f; decide (atExp x m e e0 < atExp y n f e0)

/-- a = b as numbers, false with a NaN. -/
def FVal.eq (a b : FVal) : Bool := !a.isNan && !b.isNan && !a.lt b && !b.lt a

/-- The exact sum of a nonempty group (R107). -/
def sumAll : List FVal → FVal
  | [] => .fin false 0 0
  | [x] => x
  | x :: xs => x.add (sumAll xs)

/-- Round to FP32 by round to nearest even, or to FA48. -/
def r32 (x : FVal) : FVal := fmtFP32.dec (fmtFP32.enc .rne false x)
def r48 (x : FVal) : FVal := fmtFA48.dec (fmtFA48.enc .rne false x)

/-- RNE_FA48(left + right) of two raw FA48 values (R107, R116, R179). -/
def fa48Add (a b : BitVec 48) : BitVec 48 :=
  BitVec.ofNat 48 (fmtFA48.enc .rne false ((fmtFA48.dec a.toNat).add (fmtFA48.dec b.toNat)))

/-- MIN and MAX (R117): NaN if either operand is; MIN(−0, +0) is −0 and MAX(−0, +0) is +0. -/
def fvMin (a b : FVal) : FVal :=
  if a.isNan || b.isNan then .nan
  else match a, b with
    | .fin x 0 e, .fin y 0 _ => .fin (x || y) 0 e
    | _, _ => if b.lt a then b else a
def fvMax (a b : FVal) : FVal :=
  if a.isNan || b.isNan then .nan
  else match a, b with
    | .fin x 0 e, .fin y 0 _ => .fin (x && y) 0 e
    | _, _ => if a.lt b then b else a

/-- A quotient whose last place is sticky: enough places for one rounding to FP32. -/
def stickyDiv (n d : Nat) : Nat × Int :=
  let k := 80 + d.log2
  let q := n * 2 ^ k / d
  (2 * q + (if n * 2 ^ k % d = 0 then 0 else 1), -(k : Int) - 1)

/-- Exact division, to be rounded once (R117, R124). -/
def fvDiv (a b : FVal) : FVal :=
  match a, b with
  | .fin x m e, .fin y n f =>
    if n = 0 then (if m = 0 then .nan else .inf (x != y))
    else
      let (q, k) := stickyDiv m n
      .fin (x != y) q (e - f + k)
  | .inf x, .fin y _ _ => .inf (x != y)
  | .fin x _ _, .inf y => .fin (x != y) 0 0
  | _, _ => .nan

/-! ## Special functions (R122): fixed-point evaluation far beyond the places a rounding needs (DEDUCED, log entry 9) -/

/-- Places of the fixed-point evaluation. -/
def fxP : Nat := 400
def fxOne : Nat := 2 ^ fxP

/-- Integer square root by places, from place b down. -/
def isqrtGo (n : Nat) : Nat → Nat → Nat
  | 0, r => if (r + 1) * (r + 1) ≤ n then r + 1 else r
  | b + 1, r => isqrtGo n b (if (r + 2 ^ (b + 1)) * (r + 2 ^ (b + 1)) ≤ n then r + 2 ^ (b + 1) else r)
/-- The largest r with r² ≤ n. -/
def isqrt (n : Nat) : Nat := isqrtGo n (n.log2 / 2 + 1) 0

/-- Σ z^(2i+1)/(2i+1), the inverse hyperbolic tangent of z, from term i. -/
def atanhGo (z2 : Nat) : Nat → Nat → Nat → Nat
  | 0, _, _ => 0
  | f + 1, i, p => p / (2 * i + 1) + atanhGo z2 f (i + 1) (p * z2 / fxOne)
def atanhFx (z : Nat) : Nat := atanhGo (z * z / fxOne) 140 0 z

/-- Σ (−1)^i z^(2i+1)/(2i+1), the inverse tangent. -/
def atanGo (z2 : Nat) : Nat → Nat → Int → Int
  | 0, _, _ => 0
  | f + 1, i, p => p / ((2 * i + 1 : Nat) : Int) + atanGo z2 f (i + 1) (-(p * z2 / fxOne))
def atanFx (z : Nat) : Int := atanGo (z * z / fxOne) 140 0 z

/-- ln 2 and π. -/
def fxLn2 : Nat := 2 * atanhFx (fxOne / 3)
def fxPi : Nat := (16 * atanFx (fxOne / 5) - 4 * atanFx (fxOne / 239)).toNat

/-- Σ z^i/i! from term i, for 0 ≤ z < 1. -/
def expGo (z : Nat) : Nat → Nat → Nat → Nat
  | 0, _, _ => 0
  | f + 1, i, p => p + expGo z f (i + 1) (p * z / fxOne / (i + 1))
def expFx (z : Nat) : Nat := expGo z 120 0 fxOne

/-- e^z for a fixed-point z, as a significand at exponent k − fxP. -/
def expAny (z : Int) : Nat × Int :=
  let k := z / (fxLn2 : Int)
  (expFx (z - k * fxLn2).toNat, k)

/-- ±m·2^e as fixed point. -/
def toFx (neg : Bool) (m : Nat) (e : Int) : Int :=
  let v : Int := ((if 0 ≤ e + fxP then m * 2 ^ (e + fxP).toNat else m / 2 ^ (-(e + fxP)).toNat : Nat) : Int)
  if neg then -v else v
/-- A fixed-point value. -/
def ofFx (v : Int) : FVal := .fin (decide (v < 0)) v.natAbs (-(fxP : Int))
/-- A positive value below every rounding boundary of FP32, and one beyond its range. -/
def fvTiny : FVal := .fin false 1 (-1000)
def fvHuge : FVal := .fin false 1 1000
def fvOne : FVal := .fin false 1 0
def fvZero : FVal := .fin false 0 0

def fvExp2 : FVal → FVal
  | .nan => .nan
  | .inf neg => if neg then fvZero else .inf false
  | .fin neg m e =>
    if m = 0 then fvOne
    else if dyLe 512 0 m e then (if neg then fvTiny else fvHuge)
    else
      let x := toFx neg m e
      let k := x / (fxOne : Int)
      .fin false (expFx ((x - k * fxOne).toNat * fxLn2 / fxOne)) (k - fxP)

def fvLog2 : FVal → FVal
  | .nan => .nan
  | .inf neg => if neg then .nan else .inf false
  | .fin neg m e =>
    if m = 0 then .inf true
    else if neg then .nan
    else
      let nb := m.log2
      let ln := 2 * atanhFx ((m - 2 ^ nb) * fxOne / (m + 2 ^ nb))
      let v := (e + nb) * (fxOne : Int) + (ln * fxOne / fxLn2 : Nat)
      if v = 0 then fvZero else ofFx v

def fvSqrt : FVal → FVal
  | .nan => .nan
  | .inf neg => if neg then .nan else .inf false
  | .fin neg m e =>
    if m = 0 then .fin neg 0 0
    else if neg then .nan
    else
      let (m, e) := if e % 2 = 0 then (m, e) else (2 * m, e - 1)
      let r := isqrt (m * 2 ^ 120)
      .fin false (2 * r + (if r * r = m * 2 ^ 120 then 0 else 1)) (e / 2 - 61)

def fvRsqrt : FVal → FVal
  | .nan => .nan
  | .inf neg => if neg then .nan else fvZero
  | .fin neg m e =>
    if m = 0 then .inf neg
    else if neg then .nan
    else
      let (m, e) := if e % 2 = 0 then (m, e) else (2 * m, e - 1)
      let r := isqrt (2 ^ 240 / m)
      .fin false (2 * r + (if r * r * m = 2 ^ 240 then 0 else 1)) (-(e / 2) - 121)

def fvTanh : FVal → FVal
  | .nan => .nan
  | .inf neg => .fin neg 1 0
  | .fin neg m e =>
    if m = 0 then .fin neg 0 0
    else if !dyLe 1 (-20) m e then .fin neg m e
    else if dyLe 64 0 m e then .fin neg 1 0
    else
      let (p, k) := expAny (-(2 * toFx false m e))
      let t := p / 2 ^ (-k).toNat
      .fin neg ((fxOne - t) * fxOne / (fxOne + t)) (-(fxP : Int))

def fvSigmoid : FVal → FVal
  | .nan => .nan
  | .inf neg => if neg then fvZero else fvOne
  | .fin neg m e =>
    if m = 0 then .fin false 1 (-1)
    else if dyLe 128 0 m e then (if neg then fvTiny else fvOne)
    else
      let (p, k) := expAny (-(toFx false m e))
      let t := p / 2 ^ (-k).toNat
      .fin false ((if neg then t else fxOne) * fxOne / (fxOne + t)) (-(fxP : Int))

/-- Σ (−1)^i x^(2i+1)/(i!(2i+1)) from term i; p is x^(2i+1)/i! with its sign. -/
def erfGo (x2 : Nat) : Nat → Nat → Int → Int
  | 0, _, _ => 0
  | f + 1, i, p => p / ((2 * i + 1 : Nat) : Int) + erfGo x2 f (i + 1) (-(p * x2 / fxOne / ((i + 1 : Nat) : Int)))

def fvErf : FVal → FVal
  | .nan => .nan
  | .inf neg => .fin neg 1 0
  | .fin neg m e =>
    let c := 2 * fxOne * fxOne / isqrt (fxPi * fxOne)      -- 2/√π
    if m = 0 then .fin neg 0 0
    else if dyLe 4 0 m e then .fin neg 1 0
    else if !dyLe 1 (-60) m e then .fin neg (m * c) (e - fxP)
    else
      let x := (toFx false m e).toNat
      .fin neg ((erfGo (x * x / fxOne) 300 0 x).toNat * c / fxOne) (-(fxP : Int))

def fvRcp (a : FVal) : FVal := fvDiv fvOne a

/-- The elementwise operations of R86 on FP32 values: the exact result to be rounded (R120), or the exact FP32 value.
`none` for the codes that are no elementwise operation. -/
def vopVal (op : Nat) (a b c : FVal) : Option FVal :=
  match op with
  | 0x00 => some (a.add b)
  | 0x01 => some (a.sub b)
  | 0x02 => some (a.mul b)
  | 0x03 => some ((a.mul b).add c)
  | 0x04 => some (fvMin a b)
  | 0x05 => some (fvMax a b)
  | 0x06 => some a.abs
  | 0x07 => some a.neg
  | 0x08 => some (if a.lt b then fvOne else fvZero)
  | 0x09 => some (if a.eq b then fvOne else fvZero)
  | 0x0A => some (if c.isZero then b else a)
  | 0x10 => some a
  | 0x18 => some (r32 (fvExp2 a))
  | 0x19 => some (r32 (fvLog2 a))
  | 0x1A => some (r32 (fvRcp a))
  | 0x1B => some (r32 (fvRsqrt a))
  | 0x1C => some (r32 (fvSqrt a))
  | 0x1D => some (r32 (fvTanh a))
  | 0x1E => some (r32 (fvSigmoid a))
  | 0x1F => some (r32 (fvErf a))
  | _ => none

/-- Convert a result to out_fmt (R120): once with the mode in rnd to FP32, where an overflow gives ∞ whatever sat says (R117),
else first to FP32 and then with the mode. -/
def vecOut (fmt : Nat) (mode : Rnd) (sat : Bool) (x : FVal) : Nat :=
  if fmt = 9 then fmtFP32.enc mode false x else (fmtOf fmt).enc mode sat (r32 x)

/-! ## Reductions (R123, R124) -/

/-- fma32: a × b + c with one rounding. -/
def fma32 (a b c : FVal) : FVal := r32 ((a.mul b).add c)

/-- Combine adjacent results level by level, lower index first (R123). -/
def pairUp {α : Type} (f : α → α → α) : List α → List α
  | a :: b :: t => f a b :: pairUp f t
  | l => l
/-- The tree of six levels over 64 partials. -/
def tree6 {α : Type} (f : α → α → α) (d : α) (l : List α) : α :=
  (pairUp f (pairUp f (pairUp f (pairUp f (pairUp f (pairUp f l)))))).headD d

/-- The elements of lane j, in ascending order (R123). -/
def laneOf (xs : List (Nat × FVal)) (j : Nat) : List FVal := (xs.filter fun x => x.1 % 64 = j).map (·.2)

def redSum (xs : List (Nat × FVal)) : FVal :=
  tree6 (fun a b => r32 (a.add b)) fvZero
    ((upto 64).map fun j => (laneOf xs j).foldl (fun p a => r32 (p.add a)) fvZero)

def redSumSq (xs : List (Nat × FVal)) : FVal :=
  tree6 (fun a b => r32 (a.add b)) fvZero
    ((upto 64).map fun j => (laneOf xs j).foldl (fun q a => fma32 a a q) fvZero)

/-- The lane state of MEANVAR: count, mean, sum of squared deviations (R124). -/
abbrev MVar := Nat × FVal × FVal
def fvNat (n : Nat) : FVal := .fin false n 0
def div32 (a b : FVal) : FVal := r32 (fvDiv a b)
def mvStep (st : MVar) (a : FVal) : MVar :=
  let k := st.1 + 1
  let d := r32 (a.sub st.2.1)
  let m := r32 (st.2.1.add (div32 d (r32 (fvNat k))))
  let e := r32 (a.sub m)
  (k, m, fma32 d e st.2.2)
def mvJoin (l r : MVar) : MVar :=
  if l.1 = 0 then r
  else if r.1 = 0 then l
  else
    let k := l.1 + r.1
    let kR := r32 (fvNat r.1)
    let kF := r32 (fvNat k)
    let del := r32 (r.2.1.sub l.2.1)
    let m := r32 (l.2.1.add (r32 (del.mul (div32 kR kF))))
    let w := div32 (r32 ((r32 (fvNat l.1)).mul kR)) kF
    (k, m, fma32 (r32 (del.mul del)) w (r32 (l.2.2.add r.2.2)))
/-- Mean and variance; NaN for both when every element is masked (R125). -/
def redMeanVar (xs : List (Nat × FVal)) : FVal × FVal :=
  let st := tree6 mvJoin (0, fvZero, fvZero) ((upto 64).map fun j => (laneOf xs j).foldl mvStep (0, fvZero, fvZero))
  if st.1 = 0 then (.nan, .nan) else (st.2.1, div32 st.2.2 (r32 (fvNat st.1)))

/-- The maximum magnitude; NaN if any element is; +0 of none (R117, R125). -/
def redAmax (xs : List (Nat × FVal)) : FVal := xs.foldl (fun a x => fvMax a x.2.abs) fvZero

/-- Does a rank above b for TOPK (R87, R117): NaN above +∞, equal ranks by ascending index? -/
def rankBefore (a b : Nat × FVal) : Bool :=
  match a.2.isNan, b.2.isNan with
  | true, true => decide (a.1 < b.1)
  | true, false => true
  | false, true => false
  | false, false => b.2.lt a.2 || (a.2.eq b.2 && decide (a.1 < b.1))
/-- Insert into a ranked list. -/
def rankInsert (x : Nat × FVal) : List (Nat × FVal) → List (Nat × FVal)
  | [] => [x]
  | y :: t => if rankBefore x y then x :: y :: t else y :: rankInsert x t
/-- The k elements that rank first. -/
def topk (k : Nat) (xs : List (Nat × FVal)) : List (Nat × FVal) := (xs.foldl (fun l x => rankInsert x l) []).take k

/-! ## MX blocks (R99, R121) -/

/-- Bits of element j of a packed run. -/
def mxElem (c : Nat) (bs : List Byte) (j : Nat) : Nat :=
  match c with
  | 6 | 7 => bits (leNat ((bs.drop (3 * (j / 4))).take 3)) (6 * (j % 4) + 5) (6 * (j % 4))
  | 8 => bits (bs.getD (j / 2) 0#8).toNat (4 * (j % 2) + 3) (4 * (j % 2))
  | _ => (bs.getD j 0#8).toNat

/-- Bytes of n elements of an MX code. -/
def mxBytes (c n : Nat) : Nat :=
  match c with
  | 6 | 7 => 3 * ceilDiv n 4
  | 8 => ceilDiv n 2
  | _ => n

/-- Pack elements of an MX code (R99). -/
def mxPack (c : Nat) (es : List Nat) : List Byte :=
  natLe (mxBytes c es.length) ((es.zipIdx.map fun x => x.1 * 2 ^ (fmtBits c * x.2)).foldl (· + ·) 0)

/-- The largest normal exponent of an element format (R121). -/
def mxEmax (c : Nat) : Int :=
  match c with
  | 4 => 8 | 5 => 15 | 6 => 4 | _ => 2

/-- CVTMX (R121): the scale code and the element encodings of one block of values. -/
def cvtMx (c : Nat) (mode : Nat → Rnd) (vs : List FVal) : Nat × List Nat :=
  if vs.any fun v => v.isNan || v.isInf then (255, vs.map fun _ => 0)
  else
    match vs.foldl (fun a v => fvMax a v.abs) fvZero with
    | .fin _ m e =>
      if m = 0 then (0, vs.map fun v => (fmtOf c).enc .rne true v)
      else
        let x := max (-127) (min 127 (e + m.log2 - mxEmax c))
        ((x + 127).toNat, vs.zipIdx.map fun v => (fmtOf c).enc (mode v.2) true (v.1.mul (.fin false 1 (-x))))
    | _ => (255, vs.map fun _ => 0)

/-! ## Combines of the network and the collectives (R179) -/

/-- Split bytes into words of n bytes. -/
def chunks (n : Nat) : Nat → List Byte → List (List Byte)
  | 0, _ => []
  | f + 1, bs => if bs.length < n then [] else bs.take n :: chunks n f (bs.drop n)

/-- Saturating 32-bit two's-complement addition. -/
def satAdd32 (a b : Nat) : Nat :=
  wrapInt 32 (max (-(2 ^ 31 : Nat)) (min (2 ^ 31 - 1 : Nat) (sext 32 a + sext 32 b)))

/-- One element of a combine, left first (R178, R179). -/
def combine1 (op : Nat) (l r : List Byte) : List Byte :=
  match op with
  | 0 => natLe 6 (fa48Add (BitVec.ofNat 48 (leNat l)) (BitVec.ofNat 48 (leNat r))).toNat
  | 1 => natLe 4 (fmtFP32.enc .rne false ((fmtFP32.dec (leNat l)).add (fmtFP32.dec (leNat r))))
  | 2 => natLe 4 (fmtFP32.enc .rne false (fvMax (fmtFP32.dec (leNat l)) (fmtFP32.dec (leNat r))))
  | 3 => natLe 4 (fmtFP32.enc .rne false (fvMin (fmtFP32.dec (leNat l)) (fmtFP32.dec (leNat r))))
  | _ => natLe 4 (satAdd32 (leNat l) (leNat r))

/-- Combine two contributions element by element; bytes beyond the whole elements that both have come from a free function
(DESIGN CHOICE, log entry 145). -/
def combineBytes (op : Nat) (l r : List Byte) : List Byte :=
  let n := if op = 0 then 6 else 4
  let m := n * (min (l.length / n) (r.length / n))
  (List.zipWith (combine1 op) (chunks n l.length l) (chunks n r.length r)).flatten ++
    (upto (max l.length r.length - m)).map (Config.combineRest op (l.drop m) (r.drop m))

end Sys2Proof.Machine
end

