-- ==== Sys2Proof/Machine/Pilot.lean ====
section
/-! DEFINITION. Machine/Pilot.lean: the pilot's instructions (R71 to R83, R580 to R583), one command each: the pilot of a
core executes the instruction at its pc when that is the instruction the command names. -/

namespace Sys2Proof.Machine

/-! ## What the instructions share -/

/-- Class and source of a core's program fault or HERD halt: the unit index of the physical core behind it (R83, R495). -/
def State.coreUnit (s : State) (k : Nat) : Nat := 16 * clusterOf k + s.phys k

/-- No cause bit of CORE_FAULT is set. -/
def State.noFault (s : State) (k : Nat) : Bool := s.rn .CORE_FAULT k % 32 = 0

/-- A program fault (R83): the cause is recorded, the core stops dispatching and finishes no further instance, and the halt
is sampled for the next tick in class 6. `pc` is the index of the instruction, zero for an arriving token (R94). -/
def State.programFault (s : State) (k : Nat) (cause : Fld) (pc : Nat) : State :=
  let s1 := if s.noFault k then s.put CORE_FAULT.first_pc k pc else s
  let s2 := s1.put cause k 1
  if (s.core k).faulted then s2
  else (s2.modCore k fun c => { c with faulted := true }).sample 6 (s.coreUnit k) (.programFault k)

/-- Read a scalar register: s0 is zero (R71). -/
def CoreState.sreg (c : CoreState) (i : BitVec 4) : Word := if i = 0 then 0#32 else c.regs.getD i.toNat 0#32

/-- Write a scalar register: a write to s0 is discarded (R581). -/
def CoreState.setSreg (c : CoreState) (i : BitVec 4) (v : Word) : CoreState :=
  if i = 0 then c else { c with regs := (c.regs ++ List.replicate (16 - c.regs.length) 0#32).set i.toNat v }

/-- The handler after an instruction: the pc moves to `pc`, the instruction counts (R72, R83). -/
def Handler.next (h : Handler) (pc : Nat) : Handler := { h with pc := pc % 1024, count := h.count + 1, last := h.pc }

/-- May the pilot of the core execute an instruction: its region computes, the core has neither faulted nor been stopped, a
handler runs that waits for nothing and has executed fewer than 4,096 instructions (R66, R83, R410). -/
def State.pilotReady (s : State) (k : Nat) : Option Handler :=
  let c := s.core k
  if s.runs (regionOf k) && !c.faulted && !c.stopped then
    c.handler.filter fun h => h.wait = .none && decide (h.count < 4096)
  else none

/-- The instruction at the pilot's pc. -/
def State.pilotInsn (s : State) (k : Nat) : Option (Handler × PilotInsn) :=
  (s.pilotReady k).bind fun h => (decodePilot ((s.core k).block.prog.getD h.pc 0#32)).map fun i => (h, i)

/-- Run `f` on the instruction at the pc of a core; where `f` does not apply (another instruction stands there, or the pilot
cannot execute), nothing happens (DESIGN CHOICE, log entry 1). -/
def State.onInsn (s : State) (k : Nat) (f : CoreState → Handler → PilotInsn → Option State) : State :=
  match s.pilotInsn k with
  | some (h, i) => (f (s.core k) h i).getD s
  | none => s

/-- The core with its handler moved to pc. -/
def CoreState.advance (c : CoreState) (h : Handler) (pc : Nat) : CoreState := { c with handler := some (h.next pc) }

/-! ## Scalar arithmetic (R580) -/

/-- The result of a register-form instruction. -/
def aluRVal : AluR → Word → Word → Word
  | .add, a, b => a + b
  | .sub, a, b => a - b
  | .and, a, b => a &&& b
  | .or, a, b => a ||| b
  | .xor, a, b => a ^^^ b
  | .shl, a, b => a <<< (b.toNat % 32)
  | .shr, a, b => a >>> (b.toNat % 32)
  | .sra, a, b => a.sshiftRight (b.toNat % 32)
  | .slt, a, b => if a.slt b then 1#32 else 0#32
  | .sltu, a, b => if a.ult b then 1#32 else 0#32

/-- The result of an immediate-form instruction. -/
def aluIVal : AluI → Word → BitVec 16 → Word
  | .addi, a, imm => a + imm.signExtend 32
  | .andi, a, imm => a &&& imm.zeroExtend 32
  | .shli, a, imm => a <<< (imm.toNat % 32)
  | .shri, a, imm => a >>> (imm.toNat % 32)
  | .lui, a, imm => BitVec.ofNat 32 (imm.toNat * 65536 + a.toNat % 65536)

/-- A register-form instruction. -/
def State.aluR (s : State) (f : AluR) (k : Nat) : State :=
  s.onInsn k fun c h i =>
    match i with
    | .alu g d a b =>
      if g = f then some (s.setCore k ((c.setSreg d (aluRVal f (c.sreg a) (c.sreg b))).advance h (h.pc + 1))) else none
    | _ => none

/-- An immediate-form instruction. -/
def State.aluI (s : State) (f : AluI) (k : Nat) : State :=
  s.onInsn k fun c h i =>
    match i with
    | .alui g d a imm =>
      if g = f then some (s.setCore k ((c.setSreg d (aluIVal f (c.sreg a) imm)).advance h (h.pc + 1))) else none
    | _ => none

def execAdd (core : CoreRef) (s : State) : Host.Outcome State Fault Refusal := s.act (s.aluR .add core.key)
def execSub (core : CoreRef) (s : State) : Host.Outcome State Fault Refusal := s.act (s.aluR .sub core.key)
def execAndInsn (core : CoreRef) (s : State) : Host.Outcome State Fault Refusal := s.act (s.aluR .and core.key)
def execOrInsn (core : CoreRef) (s : State) : Host.Outcome State Fault Refusal := s.act (s.aluR .or core.key)
def execXorInsn (core : CoreRef) (s : State) : Host.Outcome State Fault Refusal := s.act (s.aluR .xor core.key)
def execShl (core : CoreRef) (s : State) : Host.Outcome State Fault Refusal := s.act (s.aluR .shl core.key)
def execShr (core : CoreRef) (s : State) : Host.Outcome State Fault Refusal := s.act (s.aluR .shr core.key)
def execSra (core : CoreRef) (s : State) : Host.Outcome State Fault Refusal := s.act (s.aluR .sra core.key)
def execSlt (core : CoreRef) (s : State) : Host.Outcome State Fault Refusal := s.act (s.aluR .slt core.key)
def execSltu (core : CoreRef) (s : State) : Host.Outcome State Fault Refusal := s.act (s.aluR .sltu core.key)
def execAddi (core : CoreRef) (s : State) : Host.Outcome State Fault Refusal := s.act (s.aluI .addi core.key)
def execAndi (core : CoreRef) (s : State) : Host.Outcome State Fault Refusal := s.act (s.aluI .andi core.key)
def execShli (core : CoreRef) (s : State) : Host.Outcome State Fault Refusal := s.act (s.aluI .shli core.key)
def execShri (core : CoreRef) (s : State) : Host.Outcome State Fault Refusal := s.act (s.aluI .shri core.key)
def execLui (core : CoreRef) (s : State) : Host.Outcome State Fault Refusal := s.act (s.aluI .lui core.key)

/-- LI (R580): the immediate, zero-extended. -/
def State.pilotLi (s : State) (k : Nat) : State :=
  s.onInsn k fun c h i =>
    match i with
    | .li d imm => some (s.setCore k ((c.setSreg d (imm.zeroExtend 32)).advance h (h.pc + 1)))
    | _ => none

def execLi (core : CoreRef) (s : State) : Host.Outcome State Fault Refusal := s.act (s.pilotLi core.key)

/-! ## Control (R581) -/

/-- Does the branch go? -/
def brTaken : Br → Word → Word → Bool
  | .beq, a, b => a = b
  | .bne, a, b => a ≠ b
  | .blt, a, b => a.slt b
  | .bltu, a, b => a.ult b

/-- The index a branch reaches: its own plus the signed offset. -/
def brTarget (pc : Nat) (off : BitVec 12) : Nat := (pc + (off.signExtend 32).toNat) % 1024

/-- A branch. -/
def State.branch (s : State) (f : Br) (k : Nat) : State :=
  s.onInsn k fun c h i =>
    match i with
    | .br g a b off =>
      if g = f then
        some (s.setCore k (c.advance h (if brTaken f (c.sreg a) (c.sreg b) then brTarget h.pc off else h.pc + 1)))
      else none
    | _ => none

def execBeq (core : CoreRef) (s : State) : Host.Outcome State Fault Refusal := s.act (s.branch .beq core.key)
def execBne (core : CoreRef) (s : State) : Host.Outcome State Fault Refusal := s.act (s.branch .bne core.key)
def execBlt (core : CoreRef) (s : State) : Host.Outcome State Fault Refusal := s.act (s.branch .blt core.key)
def execBltu (core : CoreRef) (s : State) : Host.Outcome State Fault Refusal := s.act (s.branch .bltu core.key)

/-- JMP: to an absolute index. -/
def State.pilotJmp (s : State) (k : Nat) : State :=
  s.onInsn k fun c h i =>
    match i with
    | .jmp t => some (s.setCore k (c.advance h t.toNat))
    | _ => none

def execJmp (core : CoreRef) (s : State) : Host.Outcome State Fault Refusal := s.act (s.pilotJmp core.key)

/-! ## Scalar memory (R581, R83) -/

/-- May LDW or STW access the address: aligned and within the scratchpad. -/
def spadWordOk (a : Nat) : Bool := a % 4 = 0 && decide (a + 4 ≤ spadSize)

/-- The byte address of LDW and STW (R581). -/
def ldwAddr (c : CoreState) (a : BitVec 4) (imm : BitVec 16) : Nat := (c.sreg a + imm.signExtend 32).toNat

def State.pilotLdw (s : State) (k : Nat) : State :=
  s.onInsn k fun c h i =>
    match i with
    | .ldw d a imm =>
      let at_ := ldwAddr c a imm
      if spadWordOk at_ then
        some (s.setCore k ((c.setSreg d (BitVec.ofNat 32 (s.loadN (s.spad k + at_) 4))).advance h (h.pc + 1)))
      else some (s.programFault k CORE_FAULT.bad_address h.pc)
    | _ => none

def State.pilotStw (s : State) (k : Nat) : State :=
  s.onInsn k fun c h i =>
    match i with
    | .stw v a imm =>
      let at_ := ldwAddr c a imm
      if spadWordOk at_ then
        some ((s.setCore k (c.advance h (h.pc + 1))).storeN (s.spad k + at_) 4 (c.sreg v).toNat)
      else some (s.programFault k CORE_FAULT.bad_address h.pc)
    | _ => none

def execLdw (core : CoreRef) (s : State) : Host.Outcome State Fault Refusal := s.act (s.pilotLdw core.key)
def execStw (core : CoreRef) (s : State) : Host.Outcome State Fault Refusal := s.act (s.pilotStw core.key)

/-! ## Engine starts (R72, R74, R77, R78, R84) -/

/-- The command that the instruction at the pc queues. -/
def engCmdOf (c : CoreState) (h : Handler) : EngCmd :=
  { word := c.block.prog.getD h.pc 0#32, regs := c.regs, op := h.op, tag := h.tag, finish := h.finish, pc := h.pc }

/-- Queue an engine command; a full queue of four holds the pilot and CORE_ENGINE_STALL advances (R72). -/
def State.startEngine (s : State) (k : Nat) (h : Handler) (q : List EngCmd) (put : List EngCmd → CoreState → CoreState) : State :=
  let c := s.core k
  if q.length < 4 then s.setCore k (put (q ++ [engCmdOf c h]) (c.advance h (h.pc + 1)))
  else s.bump .CORE_ENGINE_STALL k

/-- A TENS issued by a sampled instance is counted; the listed one is kept for its capture (R463, R465). -/
def State.noteTens (s : State) (k : Nat) (q : EngCmd) : State :=
  if q.finish then s
  else
    let cs := s.flt.captures.map fun x =>
      if x.core = k ∧ x.op = q.op ∧ x.tag = q.tag ∧ x.taken = false then
        { x with seen := x.seen + 1, cmd := if x.seen = x.seq then some q else x.cmd }
      else x
    { s with flt := { s.flt with captures := cs } }

def State.pilotTens (s : State) (k : Nat) : State :=
  s.onInsn k fun c h i =>
    match i with
    | .tens .. =>
      let s' := s.startEngine k h c.tq fun q c => { c with tq := q }
      some (if c.tq.length < 4 then s'.noteTens k (engCmdOf c h) else s')
    | _ => none

def State.pilotVect (s : State) (k : Nat) : State :=
  s.onInsn k fun c h i =>
    match i with
    | .vect .. => some (s.startEngine k h c.vq fun q c => { c with vq := q })
    | _ => none

def State.pilotLoop (s : State) (k : Nat) : State :=
  s.onInsn k fun c h i =>
    match i with
    | .loop .. => some (s.startEngine k h c.mq fun q c => { c with mq := q })
    | _ => none

def execTens (core : CoreRef) (s : State) : Host.Outcome State Fault Refusal := s.act (s.pilotTens core.key)
def execVect (core : CoreRef) (s : State) : Host.Outcome State Fault Refusal := s.act (s.pilotVect core.key)
def execLoop (core : CoreRef) (s : State) : Host.Outcome State Fault Refusal := s.act (s.pilotLoop core.key)

/-! ## Tokens (R79, R583) -/

/-- Put a token on output j of an instance (R79, R167): its route names the plane, the destination or the group or node; its
`len` units of data stand at `addr` of the scratchpad until it leaves. -/
def State.sendOut (s : State) (k op : Nat) (slot : Nat) (t : Tag) (j : Nat) (null : Bool) (len addr : Nat) : State :=
  let e := (s.core k).block.route op j
  let tok : Token :=
    { epoch := BitVec.ofNat 12 (s.repoch (regionOf k)), tag := t,
      dst := 256 * rtRegion e + 16 * rtCluster e + rtCore e, op := rtOp e, port := rtPort e, null := null,
      courier := rtCourier e, length := len, addr := addr, cls := rtClass e,
      src := .core k op j slot, from_ := clusterOf k,
      mode := if rtMode e = 1 then .multicast (rtGroup e)
        else if rtMode e = 2 then .reduction (16 * rtRegion e + rtCluster e) (rtNode e) (rtLeaf e) (rtRedOp e)
        else .unicast }
  { s with noc := { s.noc with tokens := s.noc.tokens ++ [tok] } }

/-- Staging slot of an instance: t mod depth (R57). -/
def slotOf (b : CoreBlock) (op : Nat) (t : Tag) : Nat := t.toNat % opDepth (b.op op)

def State.pilotTsend (s : State) (k : Nat) : State :=
  s.onInsn k fun c h i =>
    match i with
    | .tsend out null delta len addr =>
      let n := (c.sreg len).toNat
      let a := (c.sreg addr).toNat
      let t := h.tag + delta.zeroExtend 16
      let s' := s.setCore k (c.advance h (h.pc + 1))
      let slot := slotOf c.block h.op h.tag
      if null = 1 then some (s'.sendOut k h.op slot t out.toNat true 0 0)
      else if 16383 < n then some (s.programFault k CORE_FAULT.oversize h.pc)
      else if a % 64 ≠ 0 ∨ spadSize < a + 64 * n then some (s.programFault k CORE_FAULT.bad_address h.pc)
      else some (s'.sendOut k h.op slot t out.toNat false n a)
    | _ => none

def execTsend (core : CoreRef) (s : State) : Host.Outcome State Fault Refusal := s.act (s.pilotTsend core.key)

/-! ## Herding (R80, R293) -/

/-- HERD with tally operation `act`: the operation leaves for the herding unit; a read holds the pilot until its value
arrives in s12 (R293). -/
def State.pilotHerd (s : State) (act : BitVec 2) (k : Nat) : State :=
  s.onInsn k fun c h i =>
    match i with
    | .herd a cnt vid =>
      if a = act then
        let h' := if act = 2 then { h.next (h.pc + 1) with wait := .herd } else h.next (h.pc + 1)
        let s' := s.setCore k { c with handler := some h' }
        some { s' with hrd := { s'.hrd with msgs := s'.hrd.msgs ++
          [{ core := k, op := h.op, ctx := s.rctx (regionOf k), vid := vid.toNat, act := act.toNat,
             count := (c.sreg cnt).toNat }] } }
      else none
    | _ => none

def execHerdIncrement (core : CoreRef) (s : State) : Host.Outcome State Fault Refusal := s.act (s.pilotHerd 0 core.key)
def execHerdDecrement (core : CoreRef) (s : State) : Host.Outcome State Fault Refusal := s.act (s.pilotHerd 1 core.key)
def execHerdRead (core : CoreRef) (s : State) : Host.Outcome State Fault Refusal := s.act (s.pilotHerd 2 core.key)

/-- The value of a HERD read arrives in s12 and the pilot resumes (R293). -/
def State.herdReply (s : State) (k : Nat) : State :=
  let c := s.core k
  match s.hrd.replies.find? (fun r => r.1 = k), c.handler with
  | some r, some h =>
    if h.wait = .herd then
      let s' := s.setCore k { c.setSreg 12 r.2 with handler := some { h with wait := .none } }
      { s' with hrd := { s'.hrd with replies := dropFirst (fun x => x.1 = k) s'.hrd.replies } }
    else s
  | _, _ => s

def execHerdReadReply (core : CoreRef) (s : State) : Host.Outcome State Fault Refusal := s.act (s.herdReply core.key)

/-! ## YIELD (R81) and the watchdog (R83) -/

/-- Is a pre-emption request pending for the region (R81, R407)? -/
def State.preemptPending (s : State) (p : Nat) : Bool :=
  s.ctx.preempts.any fun q => decide (p ∈ q.regions) && s.get CTX_PSTATE.state q.ctx = 2

/-- No engine command waits or executes (R84). -/
def CoreState.enginesIdle (c : CoreState) : Bool :=
  c.tq.isEmpty && c.vq.isEmpty && c.mq.isEmpty && c.tx.isNone && c.dx.isNone && c.vx.isNone && c.mx.isNone

/-- A pilot that waits in YIELD reports its manifest index once its queues are empty (R81). -/
def CoreState.reportYield (c : CoreState) : CoreState :=
  match c.handler with
  | some h =>
    match h.wait with
    | .yielding m => if c.enginesIdle then { c with yielded := some m } else c
    | _ => c
  | none => c

def State.pilotYield (s : State) (k : Nat) : State :=
  s.onInsn k fun c h i =>
    match i with
    | .yield m =>
      if s.preemptPending (regionOf k) then
        some (s.setCore k ({ c with handler := some { h.next (h.pc + 1) with wait := .yielding m } } : CoreState).reportYield)
      else some (s.setCore k (c.advance h (h.pc + 1)))
    | _ => none

def execYield (core : CoreRef) (s : State) : Host.Outcome State Fault Refusal := s.act (s.pilotYield core.key)

/-- A handler that has executed 4,096 instructions without DONE (R83): the fault names the last of them (R94). -/
def State.watchdog (s : State) (k : Nat) : State :=
  let c := s.core k
  match c.handler with
  | some h =>
    if s.runs (regionOf k) && !c.faulted && decide (4096 ≤ h.count) then s.programFault k CORE_FAULT.watchdog h.last else s
  | none => s

def execWatchdog (core : CoreRef) (s : State) : Host.Outcome State Fault Refusal := s.act (s.watchdog core.key)

end Sys2Proof.Machine
end

