-- ==== Sys2Proof/Machine/Tokens.lean ====
section
/-! DEFINITION. Machine/Tokens.lean: the matcher: admission (R57 to R62), landing (R64), dispatch (R65 to R69), retirement (R60, R68)
and null retirement (R63). -/

namespace Sys2Proof.Machine

/-! ## Entries of the matcher -/

/-- Every port of the operation is covered by the mask. -/
def covers (e : Nat) (m : BitVec 8) : Bool := m &&& opPortMask e = opPortMask e

/-- Bit of a port. -/
def portBit (k : Nat) : BitVec 8 := BitVec.ofNat 8 (2 ^ k)

/-- The entry of operation n and tag t (R64). -/
def CoreState.entry (c : CoreState) (n : Nat) (t : Tag) : Option MEntry := c.entries.find? fun m => m.op = n && m.tag = t

/-- Replace the entry of an instance. -/
def CoreState.putEntry (c : CoreState) (m : MEntry) : CoreState :=
  if (c.entry m.op m.tag).isSome then
    { c with entries := replaceFirst (fun x => x.op = m.op && x.tag = m.tag) (fun _ => m) c.entries }
  else { c with entries := c.entries ++ [m] }

/-- Remove it. -/
def CoreState.dropEntry (c : CoreState) (n : Nat) (t : Tag) : CoreState :=
  { c with entries := dropFirst (fun x => x.op = n && x.tag = t) c.entries }

/-- Advance the window base past tags that every operation has retired (R60); at most the four live tags. -/
def CoreState.advanceBase (c : CoreState) : Nat → CoreState
  | 0 => c
  | f + 1 =>
    if c.block.opCount ≠ 0 && (upto c.block.opCount).all fun n => decide ((n, c.base) ∈ c.retired) then
      ({ c with base := c.base + 1, retired := c.retired.filter fun r => r.2 ≠ c.base } : CoreState).advanceBase f
    else c

/-- Retire an instance (R68): its entry is cleared, its input slots and credits are free again, the base may move. -/
def CoreState.retire (c : CoreState) (n : Nat) (t : Tag) : CoreState :=
  let c := c.dropEntry n t
  ({ c with retired := c.retired ++ [(n, t)], reported := c.reported.filter fun r => r ≠ (n, t) } : CoreState).advanceBase 4

/-! ## Admission (R60 to R62) -/

/-- What becomes of a token at its core's matcher. -/
inductive Admit where
  | stale     -- dup_token (R62)
  | bad       -- bad_token (R62)
  | oversize  -- longer than its slot (R83)
  | wait      -- no free slot (R61)
  | ok
  deriving DecidableEq, Repr

/-- Judge a token against the core's tables and window; the order of these checks is the model's (DESIGN CHOICE, log entry 144). -/
def CoreState.entrance (c : CoreState) (t : Token) : Admit :=
  let e := c.block.op t.op
  if c.block.opCount ≤ t.op ∨ opPorts e ≤ t.port then .bad
  else if tagAfter c.base t.tag then .stale
  else if ((c.entry t.op t.tag).map fun m => decide (m.arrived &&& portBit t.port ≠ 0#8)).getD false
      || decide ((t.op, t.tag) ∈ c.retired) then .stale
  else if portSlotSize (c.block.port t.op t.port) < t.length then .oversize
  else if 3 < (t.tag - c.base).toNat
      || c.entries.any fun m => m.op = t.op && m.tag ≠ t.tag && m.tag.toNat % opDepth e = t.tag.toNat % opDepth e then .wait
  else .ok

/-- Record an admitted header (R64): the port has arrived, a null port counts as landed, an armed instance with data
outstanding is late. -/
def MEntry.arrive (m : MEntry) (e : Nat) (t : Token) : MEntry :=
  let m := { m with arrived := m.arrived ||| portBit t.port }
  let m := if t.null then { m with landed := m.landed ||| portBit t.port, nulls := m.nulls ||| portBit t.port } else m
  if covers e m.arrived then
    if covers e m.landed then { m with state := .ready } else { m with late := true }
  else m

/-- Put the header of an admitted token into the matcher; the entry takes the region's epoch at the first token. -/
def State.admitHeader (s : State) (t : Token) : State :=
  let c := s.core t.dst
  let m := (c.entry t.op t.tag).getD { op := t.op, tag := t.tag, epoch := BitVec.ofNat 12 (s.repoch (regionOf t.dst)) }
  let m' := m.arrive (c.block.op t.op) t
  let s1 := s.setCore t.dst (c.putEntry m')
  if m'.late && !m.late then s1.bump .CORE_LATE_EVENT t.dst else s1

/-- The token list with entry n replaced or removed. -/
def State.setTok (s : State) (n : Nat) (t : Token) : State := { s with noc := { s.noc with tokens := s.noc.tokens.set n t } }
def State.dropTok (s : State) (n : Nat) : State := { s with noc := { s.noc with tokens := s.noc.tokens.eraseIdx n } }

/-- Data of a port has been written to its slot (R64). -/
def MEntry.land (m : MEntry) (e k : Nat) : MEntry :=
  let m := { m with landed := m.landed ||| portBit k }
  if covers e m.arrived && covers e m.landed && decide (m.state = .gathering) then { m with state := .ready } else m

/-! ## Dispatch (R65 to R69, R71) -/

/-- May a token name the logical core (R591): below the folio's lcores, with a good physical core behind it? -/
def State.nameable (s : State) (k : Nat) : Bool :=
  s.hasCore k && decide (lcoreOf k < ((s.rfolio (regionOf k)).map (·.lcores)).getD 0)

/-- Is an output staging slot of the core still sending (R65): data of a token of it has not left? -/
def State.stagingBusy (s : State) (k n slot : Nat) : Bool :=
  s.noc.tokens.any fun t => decide (0 < t.length) && (t.phase = .waiting || decide (0 < t.unsent)) &&
    match t.src with
    | .core a b _ d => a = k && b = n && d = slot
    | _ => false

/-- The ordered condition (R65): the instance of tag t − 1 is in engines or later, or t − 1 precedes the base. -/
def CoreState.orderOk (c : CoreState) (n : Nat) (t : Tag) : Bool :=
  !opOrdered (c.block.op n) || tagAfter c.base (t - 1) || decide ((n, t - 1) ∈ c.retired) ||
    ((c.entry n (t - 1)).map fun m => m.state = .inEngines || m.state = .finishReady || m.state = .finishing).getD false

/-- Every port of the instance is null (R63). -/
def CoreState.allNull (c : CoreState) (m : MEntry) : Bool := covers (c.block.op m.op) m.nulls

/-- Is the instance sampled and its capture not yet read (R465)? Its finish handler then waits. -/
def State.captureDue (s : State) (k op : Nat) (tag : Tag) : Bool :=
  s.flt.captures.any fun x => x.core = k && x.op = op && x.tag = tag && !x.taken

/-- May the instance go (R65, R465)? -/
def State.dispatchable (s : State) (k : Nat) (m : MEntry) : Bool :=
  let c := s.core k
  (m.state = .finishReady && !s.captureDue k m.op m.tag) ||
    (m.state = .ready && !s.stagingBusy k m.op (slotOf c.block m.op m.tag) && c.orderOk m.op m.tag)

/-- Does entry a go before entry b (R66): finish-ready, then the oldest tag, then the lowest operation? -/
def entryBefore (base : Tag) (a b : MEntry) : Bool :=
  let fa := if a.state = .finishReady then 0 else 1
  let fb := if b.state = .finishReady then 0 else 1
  let ta := (a.tag - base).toNat
  let tb := (b.tag - base).toNat
  decide (fa < fb) || (fa = fb && (decide (ta < tb) || (ta = tb && decide (a.op < b.op))))

/-- The entry that goes first. -/
def firstEntry (base : Tag) : List MEntry → Option MEntry
  | [] => none
  | m :: t =>
    match firstEntry base t with
    | none => some m
    | some x => if entryBefore base x m then some x else some m

/-- The registers at dispatch (R71). -/
def CoreState.dispatchRegs (c : CoreState) (m : MEntry) (finish : Bool) : List Word :=
  let e := c.block.op m.op
  let slot := m.tag.toNat % opDepth e
  let port (k : Nat) : Word :=
    if opPorts e ≤ k ∨ m.nulls &&& portBit k ≠ 0#8 then 0xFFFFFFFF#32
    else BitVec.ofNat 32 (portSlotAddr (c.block.port m.op k) slot)
  [0#32] ++ (upto 8).map port ++ [m.tag.zeroExtend 32,
    BitVec.ofNat 32 (m.nulls.toNat + m.op * 256 + m.tag.toNat % 4 * 8192 + (if finish then 32768 else 0)),
    BitVec.ofNat 32 (stagingAddr e m.tag), 0#32, 0#32, 0#32, 0#32]

/-- May the core's matcher select (R66, R81, R83, R410)? -/
def State.matcherOn (s : State) (k : Nat) : Bool :=
  let c := s.core k
  s.runs (regionOf k) && !c.faulted && !c.stopped && !c.loading && c.yielded.isNone

/-- MATCHER_DISPATCH: with the pilot free, the first dispatchable instance starts its issue or finish handler; if none is
dispatchable and some instance is armed but not ready, the pilot waits and CORE_LATE_STALL advances (R69). -/
def execMatcherDispatch (core : CoreRef) (s : State) : Host.Outcome State Fault Refusal :=
  let k := core.key
  let c := s.core k
  s.act (if s.matcherOn k && c.handler.isNone then
      match firstEntry c.base (c.entries.filter fun m => s.dispatchable k m && !(m.state = .ready && c.allNull m)) with
      | some m =>
        let fin := decide (m.state = .finishReady)
        let e := c.block.op m.op
        let h : Handler := { op := m.op, tag := m.tag, finish := fin, pc := if fin then opFinishPc e else opIssuePc e }
        let c1 := c.putEntry { m with state := if fin then MState.finishing else MState.issuing }
        let s := s.setCore k { c1 with regs := c.dispatchRegs m fin, handler := some h }
        if fin then s else s.bump .CORE_FIRE_COUNT k
      | none =>
        if (c.entries.any fun m => m.state = .gathering && covers (c.block.op m.op) m.arrived) &&
            !(c.entries.any fun m => s.dispatchable k m) then s.bump .CORE_LATE_STALL k
        else s
    else s)

/-- DONE (R68): an issue handler's instance enters in engines, or finish-ready if it started no command still running; a
finish handler's instance retires. -/
def State.pilotDone (s : State) (k : Nat) : State :=
  s.onInsn k fun c h i =>
    match i with
    | .done =>
      let c := { c with handler := none }
      if h.finish then some (s.setCore k (c.retire h.op h.tag))
      else
        match c.entry h.op h.tag with
        | some m => some (s.setCore k (c.putEntry
            { m with state := if c.outstanding h.op h.tag then .inEngines else .finishReady }))
        | none => some (s.setCore k c)
    | _ => none

def execDone (core : CoreRef) (s : State) : Host.Outcome State Fault Refusal := s.act (s.pilotDone core.key)

/-- NULL_RETIRE (R63): the first dispatchable all-null instance retires: a null token on every output in order, its slots
released, counted. -/
def execNullRetire (core : CoreRef) (s : State) : Host.Outcome State Fault Refusal :=
  let k := core.key
  let c := s.core k
  s.act (if s.matcherOn k then
      match firstEntry c.base (c.entries.filter fun m => m.state = .ready && c.allNull m && s.dispatchable k m) with
      | some m =>
        let s1 := (upto (opOuts (c.block.op m.op))).foldl
          (fun s j => s.sendOut k m.op (slotOf c.block m.op m.tag) m.tag j true 0 0) s
        (s1.setCore k (c.retire m.op m.tag)).bump .CORE_NULL_COUNT k
      | none => s
    else s)

end Sys2Proof.Machine
end

