-- ==== Sys2Proof/Machine/Engine.lean ====
section
/-! DEFINITION. Machine/Engine.lean: the tensor, vector and movement engines (R84 to R91, R107 to R126, R135 to R146, R582 to
R589): taking a queued command, the accumulator banks, completion. -/

namespace Sys2Proof.Machine

/-! ## Runs over elements: a fault stops a command at the access that makes it, earlier writes stand (R83) -/

/-- Apply f to each item until one faults. -/
def runList {α σ : Type} (f : σ → α → Option σ) : List α → σ → σ × Bool
  | [], s => (s, true)
  | a :: t, s =>
    match f s a with
    | some s' => runList f t s'
    | none => (s, false)

/-- Read n scratchpad bytes of a core, if they lie within the scratchpad. -/
def State.rdSpad (s : State) (k a n : Nat) : Option (List Byte) :=
  if a + n ≤ spadSize then some (s.load (s.spad k + a) n) else none
/-- Write scratchpad bytes of a core. -/
def State.wrSpad (s : State) (k a : Nat) (bs : List Byte) : Option State :=
  if a + bs.length ≤ spadSize then some (s.store (s.spad k + a) bs) else none

/-! ## The stochastic generator (R354) -/

def m64 (v : Nat) : Nat := v % 2 ^ 64
def nmMix (x : Nat) : Nat :=
  let x := m64 ((x ^^^ x / 2 ^ 32) * 0xB5C18E6A3D2704F1)
  let x := m64 ((x ^^^ x / 2 ^ 29) * 0x8F1D37C4A9E26B5D)
  x ^^^ x / 2 ^ 32
def nmGen (seed step tensor q : Nat) : Nat :=
  let c := m64 (tensor * 2 ^ 32) ||| q
  let x := nmMix (c ^^^ seed)
  let x := nmMix (x ^^^ step)
  nmMix (x ^^^ seed ^^^ 0x7C3E91A5D4286F0B)
def nmR (seed step tensor e : Nat) : Nat := nmGen seed step tensor (e % 2 ^ 32 / 4) / 2 ^ (16 * (e % 4)) % 65536

/-- The rounding mode of a code (R77) for one element: the region's key gives r under stochastic rounding (R355). -/
def State.rndOf (s : State) (k code tensor e : Nat) : Rnd :=
  match code with
  | 1 => let key := spGet 0 s.bnd.keys (regionOf k); .stoch (nmR (key % 2 ^ 64) (key / 2 ^ 64) tensor e)
  | 2 => .zero
  | _ => .rne

/-- The element index of R146: elem_base plus the signed byte offset from the output base in elements of the output's width,
modulo 2³² (R354). -/
def elemIndex (d : Desc) (base addr wbits : Nat) : Nat :=
  wrapInt 32 ((d.elemBase : Int) + (BitVec.ofNat 32 (wrapInt 32 ((addr : Int) - base))).toInt * 8 / wbits)

/-! ## Non-finite reports (R118) -/

/-- Does a written encoding raise a report? A NaN always, an infinity unless inf_ok. -/
def nfWrite (f : Fmt) (v : Nat) (infOk : Bool) : Bool := (f.dec v).isNan || ((f.dec v).isInf && !infOk)

/-- Raise a report, at most one per instance; it is sampled in class 8 with source index 16 × cluster + core. -/
def State.reportNf (s : State) (k : Nat) (q : EngCmd) (tensor : Nat) : State :=
  let c := s.core k
  if (q.op, q.tag) ∈ c.reported then s
  else (s.setCore k { c with reported := c.reported ++ [(q.op, q.tag)] }).sample 8 k (.nonfinite k q.op q.tag tensor)

/-! ## Tensor commands (R107 to R113, R136 to R141) -/

/-- A bank as its 256 entries, row-major, and back (R110). -/
def bankList (b : Sparse (BitVec 48)) : List (BitVec 48) := (upto 256).map (spGet 0#48 b)
def bankOf (l : List (BitVec 48)) : Sparse (BitVec 48) := l.zipIdx.foldl (fun b x => spSet 0#48 b x.2 x.1) []

/-- Write the accumulator bank being filled, and read the other (R110). -/
def CoreState.setFill (c : CoreState) (b : List (BitVec 48)) : CoreState :=
  if c.fillOne then { c with bank1 := bankOf b } else { c with bank0 := bankOf b }
def CoreState.drainBank (c : CoreState) : List (BitVec 48) := bankList (if c.fillOne then c.bank0 else c.bank1)

/-- Read element j of a group stored at an address (R99, R137). -/
def grpElem (fmt : Nat) (bs : List Byte) (j : Nat) : FVal :=
  (fmtOf fmt).dec (match fmt with
    | 0 | 1 => leNat ((bs.drop (2 * j)).take 2)
    | _ => mxElem fmt bs j)

/-- Bytes of one group (R137). -/
def grpBytes (fmt : Nat) : Nat := if fmt = 6 ∨ fmt = 7 then 6 else 8

/-- The bit of a bitmap mask for iteration j of the mask level (R145): the string lies at the slot-4 address with that
level's index at zero. -/
def State.maskBit (s : State) (k : Nat) (d : Desc) (reg : Word) (i : IVec) (j : Nat) : Option Bool :=
  (s.rdSpad k (d.addr 4 reg (i.set d.maskLevel 0) + j / 8) 1).map fun b => bitAt (leNat b) (j % 8)

/-- Is an index vector masked? `none` when the bitmap lies outside the scratchpad. -/
def State.isMasked (s : State) (k : Nat) (d : Desc) (reg : Word) (i : IVec) : Option Bool :=
  if d.maskMode = 2 then (s.maskBit k d reg i (i.getD d.maskLevel 0)).map fun b => !b
  else some (d.masked (i.getD d.maskLevel 0) fun _ => true)

/-- The pieces of a TENS: descriptor, formats, captured base registers. -/
structure TensArgs where
  d : Desc
  fa : Nat
  fb : Nat
  a : Word
  b : Word
  c : Word

/-- Decode a queued TENS. -/
def tensArgs (c : CoreState) (q : EngCmd) : Option TensArgs :=
  match decodePilot q.word with
  | some (.tens desc fa fb sa sb sc) =>
    let r (i : BitVec 4) : Word := if i = 0 then 0#32 else q.regs.getD i.toNat 0#32
    some ⟨c.block.descs.getD desc.toNat [], fa.toNat, fb.toNat, r sa, r sb, r sc⟩
  | _ => none

/-- The unmasked tiles of a TENS, in walk order (R136, R145), up to the first whose bitmap byte lies outside the scratchpad:
that access faults (R83). The bitmap is read once, when the command starts (DESIGN CHOICE, log entry 138). -/
def State.tiles (s : State) (k : Nat) (t : TensArgs) : List IVec × Bool :=
  let w := (t.d.walk fun l => t.d.role l ≠ 3).map fun i => (i, s.isMasked k t.d t.b i)
  let ok := w.takeWhile fun x => x.2.isSome
  ((ok.filter fun x => x.2 = some false).map (·.1), decide (ok.length < w.length))

/-- The initial entries of a tile (R112, R140), row-major 16 × 16; rows and columns outside the bound are not read. -/
def State.tileInit (s : State) (k : Nat) (t : TensArgs) (i : IVec) : Option (List (BitVec 48)) :=
  if t.d.clear = 0 then some (List.replicate 256 0#48)
  else
    let n := if t.d.clear = 1 then 6 else 4
    let disp := ((upto t.d.levels).map fun l => (i.getD l 0 : Int) * t.d.stride l 2).foldl (· + ·) 0
    let row (r : Nat) : Nat :=
      if t.d.pass then wrapInt 32 ((t.d.addr 0 t.a i : Int) + r * t.d.pitch 0)
      else wrapInt 32 ((t.d.ldAddr : Int) + r * t.d.ldPitch + disp)
    ((upto 256).mapM fun x =>
      let (r, c) := (x / 16, x % 16)
      if t.d.rows i ≤ r ∨ t.d.cols i ≤ c then some 0#48
      else (s.rdSpad k (row r + n * c) n).map fun bs =>
        if n = 6 then BitVec.ofNat 48 (leNat bs)
        else BitVec.ofNat 48 (fmtFA48.enc .rne false (fmtFP32.dec (leNat bs))))

/-- The operand elements of one row or column of a group, each under its scale: elements outside the bound of K are +0
(R107, R109, R138, R139). The group is read whole, the bytes of the missing elements with it (DESIGN CHOICE, log entry 139). -/
def State.grpRow (s : State) (k fmt : Nat) (addr : Nat) (scale : Option Nat) (valid : Nat) : Option (List FVal) :=
  (s.rdSpad k addr (grpBytes fmt)).bind fun bs =>
    (match scale with
      | some a => (s.rdSpad k a 1).map fun b => e8m0 (leNat b)
      | none => some fvOne).map fun sc =>
      (upto (fmtGroup fmt)).map fun j => if j < valid then (grpElem fmt bs j).mul sc else fvZero

/-- One group added to every entry of the tile (R107, R137): the exact sum of the group, then one rounding. -/
def State.tileGroup (s : State) (k : Nat) (t : TensArgs) (i : IVec) (lastGroup : Bool) (acc : List (BitVec 48)) :
    Option (List (BitVec 48)) :=
  let g := fmtGroup t.fa
  let valid := if lastGroup ∧ t.d.kTail ≠ 0 then t.d.kTail else g
  let sc (fmt slot : Nat) (reg : Word) (r : Nat) : Option Nat :=
    if fmtMx fmt then some (wrapInt 32 ((t.d.addr slot reg i : Int) + r * t.d.pitch slot)) else none
  ((upto (t.d.rows i)).mapM fun (r : Nat) =>
    s.grpRow k t.fa (wrapInt 32 ((t.d.addr 0 t.a i : Int) + (r * t.d.pitch 0 : Nat))) (sc t.fa 3 t.a r) valid).bind fun as =>
  ((upto (t.d.cols i)).mapM fun (c : Nat) =>
    s.grpRow k t.fb (wrapInt 32 ((t.d.addr 1 t.b i : Int) + (c * t.d.pitch 1 : Nat))) (sc t.fb 4 t.b c) valid).map fun bs =>
  acc.zipIdx.map fun x =>
    let (r, c) := (x.2 / 16, x.2 % 16)
    if t.d.rows i ≤ r ∨ t.d.cols i ≤ c then x.1
    else
      let gsum := sumAll (List.zipWith FVal.mul (as.getD r []) (bs.getD c []))
      BitVec.ofNat 48 (fmtFA48.enc .rne false ((fmtFA48.dec x.1.toNat).add gsum))

/-- Fill a tile (R107, R112, R140): the initial load, then every group in the order of the K levels. -/
def State.fillTile (s : State) (k : Nat) (t : TensArgs) (i : IVec) : Option (List (BitVec 48)) :=
  (s.tileInit k t i).bind fun init =>
    if t.d.pass then some init
    else
      let ks := t.d.walk fun l => t.d.role l = 3
      ks.zipIdx.foldlM (fun acc x => s.tileGroup k t (ivecAdd i x.1) (x.2 + 1 = ks.length) acc) init

/-- Groups per tile: the CORE_TENSOR_BUSY cycles of a tile (R94, R141). -/
def tileGroups (t : TensArgs) : Nat := if t.d.pass then 0 else (t.d.walk fun l => t.d.role l = 3).length

/-- Drain one entry (R113, R146): converted once and written; the flag says whether it raises a report. -/
def State.drainEntry (s : State) (k : Nat) (t : TensArgs) (i : IVec) (v : BitVec 48) (x : Nat) : Option (State × Bool) :=
  let f := drainFmtOf t.d.drainFmt
  let n := f.width / 8
  let base := t.d.addr 2 t.c []
  let a := wrapInt 32 ((t.d.addr 2 t.c i : Int) + (x / 16 : Nat) * t.d.pitch 2 + (n * (x % 16) : Nat))
  let out := if t.d.drainFmt = 5 then v.toNat
    else f.enc (s.rndOf k t.d.drainRnd t.d.tensorId (elemIndex t.d base a f.width)) t.d.sat (fmtFA48.dec v.toNat)
  (s.wrSpad k a (natLe n out)).map fun s' => (s', nfWrite f out t.d.infOk)

/-- Drain the rows of a tile that are not written yet, row by row; entries outside the bound are not written. -/
def State.drainTile (s : State) (k : Nat) (x : Drain) (t : TensArgs) (bank : List (BitVec 48)) : State × Bool :=
  runList (fun (s : State) r =>
    let w := runList (fun (s : State) n =>
      if t.d.rows x.tile ≤ r ∨ t.d.cols x.tile ≤ n then some s
      else (s.drainEntry k t x.tile (bank.getD (16 * r + n) 0#48) (16 * r + n)).map fun y =>
        if y.2 then y.1.reportNf k x.cmd t.d.tensorId else y.1) (upto 16) s
    if w.2 then some (w.1.modCore k fun c => { c with dx := some { x with rows := r + 1 } }) else none)
    ((upto 16).drop x.rows) s

/-- An engine's command makes a faulting access: the engine stops at it (R83). -/
def State.engFault (s : State) (k engine pc : Nat) : State :=
  (s.modCore k fun c => { c with stuck := c.stuck ++ [engine] }).programFault k CORE_FAULT.bad_address pc

/-- A command has completed: its instance is finish-ready when it was the last of its issue handler (R68), and a pilot that
waits in YIELD may report (R81). -/
def CoreState.cmdDone (c : CoreState) (q : EngCmd) : CoreState :=
  (match c.entry q.op q.tag with
  | some m => if m.state = MState.inEngines && !c.outstanding q.op q.tag then c.putEntry { m with state := .finishReady } else c
  | none => c).reportYield

/-- The tile in the drain bank is written out (R113), and the bank is empty again; with its last tile a command completes. In
the model a tile is drained when its bank is wanted or its command completes, so after the next tile has read its operands
(DESIGN CHOICE, log entry 69). -/
def State.endDrain (s : State) (k : Nat) : State :=
  let c := s.core k
  match c.dx with
  | some x =>
    match tensArgs c x.cmd with
    | some t =>
      let r := s.drainTile k x t c.drainBank
      if r.2 then r.1.modCore k fun c =>
          let c := { c with dx := none }
          if x.last then c.cmdDone x.cmd else c
      else r.1.engFault k 0 x.cmd.pc
    | none => s
  | none => s

/-- The first tile of the run fills the fill bank, or the command faults at its first bad access; a bad bitmap byte faults
where its tile would be taken. -/
def State.takeTile (s : State) (k : Nat) (r : TensRun) : State :=
  let s := s.modCore k fun c => { c with tx := some r }
  match tensArgs (s.core k) r.cmd, r.tiles with
  | some t, i :: _ =>
    match s.fillTile k t i with
    | some b => (s.modCore k fun c => c.setFill b).bump .CORE_TENSOR_BUSY k (tileGroups t)
    | none => s.engFault k 0 r.cmd.pc
  | _, _ => if r.bad then s.engFault k 0 r.cmd.pc else s

/-- The tensor unit takes the next command: its first unmasked tile fills; with none it takes no group (R586). -/
def State.startTensor (s : State) (k : Nat) (q : EngCmd) (rest : List EngCmd) : State :=
  let s := s.modCore k fun c => { c with tq := rest }
  match tensArgs (s.core k) q with
  | some t => s.takeTile k ⟨q, (s.tiles k t).1, (s.tiles k t).2⟩
  | none => s.takeTile k ⟨q, [], false⟩

/-- The engine is not stopped at a faulting access (R83). -/
def State.engOk (s : State) (k engine : Nat) : Bool := !decide (engine ∈ (s.core k).stuck)

/-- ACCUMULATOR_BANK_SWAP (R111): the tile in the fill bank is complete. Once the drain bank is empty the banks swap, the tile
begins to drain, and the next tile of the command fills. -/
def State.swapBanks (s : State) (k : Nat) : State :=
  match (s.core k).tx with
  | some r =>
    match r.tiles with
    | i :: rest =>
      let s := s.endDrain k
      if s.engOk k 0 then
        let last := rest.isEmpty && !r.bad
        let s := s.modCore k fun c => { c with fillOne := !c.fillOne, dx := some ⟨r.cmd, i, 0, last⟩, tx := none }
        if last then s else s.takeTile k { r with tiles := rest }
      else s
    | [] => s
  | none => s

/-! ## Vector commands (R86, R117 to R126, R142 to R146, R584, R585, R589) -/

/-- The pieces of a VECT. -/
structure VecArgs where
  d : Desc
  vop : Nat
  fmt : Nat
  rnd : Nat
  a : Word
  b : Word
  c : Word
  dst : Word

def vecArgs (c : CoreState) (q : EngCmd) : Option VecArgs :=
  match decodePilot q.word with
  | some (.vect desc vop fmt rnd sn sd) =>
    let r (i : Nat) : Word := if i % 16 = 0 then 0#32 else q.regs.getD (i % 16) 0#32
    some ⟨c.block.descs.getD desc.toNat [], vop.toNat, fmt.toNat, rnd.toNat, r sn.toNat, r (sn.toNat + 1),
      r (sn.toNat + 2), r sd.toNat⟩
  | _ => none

/-- Is the code a reduction (R143)? -/
def vopReduces (op : Nat) : Bool := op = 0x20 || op = 0x21 || op = 0x22 || op = 0x23 || op = 0x28
/-- Does the code read source B, source C? -/
def vopReadsB (op : Nat) : Bool := decide (op ≤ 0x05) || op = 0x08 || op = 0x09 || op = 0x0A
def vopReadsC (op : Nat) : Bool := op = 0x03 || op = 0x0A
/-- Elements per ACLK of the table of R86. -/
def vopRate (op : Nat) : Nat :=
  if 0x18 ≤ op ∧ op ≤ 0x1C then 32
  else if (0x1D ≤ op ∧ op ≤ 0x1F) ∨ op = 0x28 ∨ op = 0x29 ∨ op = 0x2A then 16
  else 64

/-- Read a source element and widen it (R106, R585). -/
def State.vecSrc (s : State) (k : Nat) (v : VecArgs) (slot : Nat) (reg : Word) (i : IVec) : Option FVal :=
  let f := v.d.srcFmt
  if fmtMx f then
    let j := i.getD (v.d.levelAt 0) 0
    let n := mxBytes f 32
    (s.rdSpad k (v.d.addr slot reg i + j / 32 * n) n).bind fun bs =>
      (s.rdSpad k (v.d.addr 4 v.a i + j / 32) 1).map fun sc =>
        r32 (((fmtOf f).dec (mxElem f bs (j % 32))).mul (e8m0 (leNat sc)))
  else (s.rdSpad k (v.d.addr slot reg i) (fmtBits f / 8)).map fun bs => (fmtOf f).dec (leNat bs)

/-- Write one result element at an address (R120, R146). -/
def State.vecPut (s : State) (k : Nat) (q : EngCmd) (v : VecArgs) (addr : Nat) (x : FVal) : Option State :=
  let w := fmtBits v.fmt
  let mode := s.rndOf k v.rnd v.d.tensorId (elemIndex v.d (v.d.addr 3 v.dst []) addr w)
  let out := vecOut v.fmt mode v.d.sat x
  (s.wrSpad k addr (natLe (w / 8) out)).map fun s' =>
    if nfWrite (fmtOf v.fmt) out v.d.infOk then s'.reportNf k q v.d.tensorId else s'

/-- The index vector with every K level at zero, and the K extent (R143). -/
def Desc.kZero (d : Desc) (i : IVec) : IVec := (upto d.levels).map fun l => if d.role l = 3 then 0 else i.getD l 0
def Desc.kExtent (d : Desc) : Nat := (((upto d.levels).filter fun l => d.role l = 3).map d.bound).foldl (· * ·) 1

/-- One element of an operation that is no reduction; n is its position in the walk (R584). -/
def State.vecElem (s : State) (k : Nat) (q : EngCmd) (v : VecArgs) (i : IVec) (n : Nat) : Option State :=
  (s.isMasked k v.d v.a i).bind fun masked =>
  if masked then some s
  else if v.vop = 0x2B then
    -- IOTA: the integer converts once, directly
    let a := v.d.addr 3 v.dst i
    let mode := s.rndOf k v.rnd v.d.tensorId (elemIndex v.d (v.d.addr 3 v.dst []) a (fmtBits v.fmt))
    let out := (fmtOf v.fmt).enc mode v.d.sat (fvNat (n % 2 ^ 32))
    (s.wrSpad k a (natLe (fmtBits v.fmt / 8) out)).map fun s' =>
      if nfWrite (fmtOf v.fmt) out v.d.infOk then s'.reportNf k q v.d.tensorId else s'
  else if v.vop = 0x29 ∨ v.vop = 0x2A then
    (s.rdSpad k (v.d.addr 1 v.b i) 4).bind fun ib =>
      let j := leNat ib
      if v.d.kExtent ≤ j then none
      else if v.vop = 0x29 then
        let f := v.d.srcFmt
        let a := wrapInt 32 ((v.d.addr 0 v.a (v.d.kZero i) : Int) + j * (fmtBits f / 8 : Nat))
        (s.rdSpad k a (fmtBits f / 8)).bind fun bs => s.vecPut k q v (v.d.addr 3 v.dst i) ((fmtOf f).dec (leNat bs))
      else
        (s.vecSrc k v 0 v.a i).bind fun x =>
          s.vecPut k q v (wrapInt 32 ((v.d.addr 3 v.dst (v.d.kZero i) : Int) + j * (fmtBits v.fmt / 8 : Nat))) x
  else
    (s.vecSrc k v 0 v.a i).bind fun a =>
    (if vopReadsB v.vop then s.vecSrc k v 1 v.b i else some fvZero).bind fun b =>
    (if vopReadsC v.vop then s.vecSrc k v 2 v.c i else some fvZero).bind fun c =>
      match vopVal v.vop a b c with
      | some x => s.vecPut k q v (v.d.addr 3 v.dst i) x
      | none => some s

/-- One block of CVTMX (R121): 32 consecutive elements of the walk, written packed at the first one's result address; masked
elements keep their bits and do not count for the scale, a block of masked elements alone takes scale 0, and the last elements
of a walk that is no multiple of 32 are packed as a shorter block (DESIGN CHOICE, log entry 140). The scale goes where
`Config.cvtmxScaleAddr` says (DESIGN CHOICE, log entry 10). -/
def State.vecBlock (s : State) (k : Nat) (q : EngCmd) (v : VecArgs) (is : List IVec) : Option State :=
  (is.mapM fun i => (s.isMasked k v.d v.a i).bind fun m =>
    if m then some (none : Option FVal) else (s.vecSrc k v 0 v.a i).map fun x => some (r32 x)).bind fun xs =>
  let addr := v.d.addr 3 v.dst (is.headD [])
  let w := fmtBits v.fmt
  let base := v.d.addr 3 v.dst []
  let live := xs.filterMap id
  let modes (j : Nat) : Rnd := s.rndOf k v.rnd v.d.tensorId (elemIndex v.d base addr w + j)
  let (sc, _) := cvtMx v.fmt modes live
  -- element j of the block takes the r of its own index
  let elems := xs.zipIdx.map fun x =>
    match x.1 with
    | some y =>
      if sc = 255 then some 0
      else if live.all (·.isZero) then some ((fmtOf v.fmt).enc .rne true y)
      else some ((fmtOf v.fmt).enc (modes x.2) true (y.mul (.fin false 1 (127 - (sc : Int)))))
    | none => none
  (s.rdSpad k addr (mxBytes v.fmt is.length)).bind fun old =>
  let new := mxPack v.fmt (elems.zipIdx.map fun e => e.1.getD (mxElem v.fmt old e.2))
  (s.wrSpad k addr new).map fun s =>
    let s := (s.store (s.spad k + Config.cvtmxScaleAddr addr % spadSize) [BitVec.ofNat 8 sc])
    if sc = 255 then s.reportNf k q v.d.tensorId else s

/-- The elements of one reduction (R123, R143): index i of the K walk and value, masked ones skipped. -/
def State.redElems (s : State) (k : Nat) (v : VecArgs) (o : IVec) : Option (List (Nat × FVal)) :=
  ((v.d.walk fun l => v.d.role l = 3).zipIdx.mapM fun x =>
    let i := ivecAdd o x.1
    (s.isMasked k v.d v.a i).bind fun m =>
      if m then some none else (s.vecSrc k v 0 v.a i).map fun y => some (x.2, y)).map fun l => l.filterMap id

/-- One reduction: its results at the slot-3 address (R143), and what an AMAX command carries on (R346). A reduction whose
outer iteration is masked is written nowhere (DEDUCED, log entry 11). -/
def State.vecReduce (s : State) (k : Nat) (q : EngCmd) (v : VecArgs) (acc : FVal) (o : IVec) : Option (State × FVal) :=
  let outer := v.d.role v.d.maskLevel ≠ 3
  (if outer then s.isMasked k v.d v.a o else some false).bind fun gone =>
  if gone then some (s, acc)
  else
    (s.redElems k v o).bind fun xs =>
    let a := v.d.addr 3 v.dst o
    let w := fmtBits v.fmt / 8
    match v.vop with
    | 0x20 => (s.vecPut k q v a (redSum xs)).map fun s => (s, acc)
    | 0x21 => (s.vecPut k q v a (redSumSq xs)).map fun s => (s, acc)
    | 0x22 =>
      let r := redMeanVar xs
      ((s.vecPut k q v a r.1).bind fun s => s.vecPut k q v (a + w) r.2).map fun s => (s, acc)
    | 0x23 =>
      let r := redAmax xs
      (s.vecPut k q v a r).map fun s => (s, fvMax acc r)
    | _ =>
      let t := topk v.d.topk xs
      let ai := v.d.addr 2 v.c o
      ((upto v.d.topk).foldlM (fun (s : State) j =>
        match t[j]? with
        | some e => (s.vecPut k q v (a + w * j) e.2).bind fun s => s.wrSpad k (ai + 4 * j) (natLe 4 e.1)
        | none => (s.wrSpad k (a + w * j) (natLe w 0)).bind fun s => s.wrSpad k (ai + 4 * j) (natLe 4 0xFFFFFFFF)) s).map
        fun s => (s, acc)

/-- Is the result of a CVTMX written as contiguous blocks of R99 (R142): at every 32nd element of its walk the result address
has moved by the bytes of one block? -/
def VecArgs.mxRun (v : VecArgs) : Bool :=
  let w := v.d.walk fun _ => true
  w.zipIdx.all fun x => x.2 % 32 ≠ 0 ||
    v.d.addr 3 v.dst x.1 = wrapInt 32 ((v.d.addr 3 v.dst (w.headD []) : Int) + (x.2 / 32 * mxBytes v.fmt 32 : Nat))

/-- The ACLK cycles in which the command produces results (R86, R142): the element rate needs, at nesting position 0, every
slot in use to step by its element's width; a run that ends in a partial beat costs a full cycle. -/
def vecCycles (v : VecArgs) : Nat :=
  let l := v.d.levelAt 0
  let src := fmtBits v.d.srcFmt / 8
  let fastSrc (slot : Nat) : Bool := fmtMx v.d.srcFmt || v.d.stride l slot = (src : Int)
  let fast :=
    (v.vop = 0x2B || (v.vop = 0x29 || fastSrc 0)) &&
    (!vopReadsB v.vop || fastSrc 1) && (!vopReadsC v.vop || fastSrc 2) &&
    (!(v.vop = 0x29 || v.vop = 0x2A) || v.d.stride l 1 = 4) &&
    (vopReduces v.vop || v.vop = 0x2A || (v.vop = 0x11 && v.mxRun) || v.d.stride l 3 = ((fmtBits v.fmt / 8 : Nat) : Int))
  let rate := if fast then vopRate v.vop else min 16 (vopRate v.vop)
  let outer := (((upto v.d.levels).filter fun x => x ≠ l).map v.d.bound).foldl (· * ·) 1
  outer * ceilDiv (v.d.bound l) rate

/-- Split a list into runs of n. -/
def runsOf {α : Type} (n : Nat) : Nat → List α → List (List α)
  | 0, _ => []
  | _ + 1, [] => []
  | f + 1, l => l.take n :: runsOf n f (l.drop n)

/-- The vector unit takes the next command and walks it; an AMAX command keeps its result for its report (R346). -/
def State.startVector (s : State) (k : Nat) (q : EngCmd) (rest : List EngCmd) : State :=
  let s := s.modCore k fun c => { c with vq := rest, vx := some (q, none) }
  match vecArgs (s.core k) q with
  | some v =>
    let s := s.bump .CORE_VECTOR_BUSY k (vecCycles v)
    let fin (r : State × Bool) : State := if r.2 then r.1 else r.1.engFault k 1 q.pc
    if vopReduces v.vop then
      let ((s, m), ok) := runList (fun (st : State × FVal) o => st.1.vecReduce k q v st.2 o)
        (v.d.walk fun l => v.d.role l ≠ 3) (s, fvZero)
      let s := if v.vop = 0x23 then
          s.modCore k fun c => { c with vx := some (q, some (fmtFP32.enc .rne false m)) }
        else s
      fin (s, ok)
    else
      let w := v.d.walk fun _ => true
      if v.vop = 0x11 then fin (runList (fun s b => s.vecBlock k q v b) (runsOf 32 w.length w) s)
      else fin (runList (fun s (x : IVec × Nat) => s.vecElem k q v x.1 x.2) w.zipIdx s)
  | none => s

/-! ## Movement commands (R78, R144, R582) -/

/-- Element width of a LOOP in bytes (R78). -/
def loopWidth (code : Nat) : Nat := match code with | 0 => 1 | 1 => 2 | 2 => 4 | _ => 6

/-- Read or write the scratchpad or, on the other side of kinds 1 and 2, the under-store. -/
def State.rdMove (s : State) (k : Nat) (under : Bool) (a n : Nat) : Option (List Byte) :=
  if under then (if a + n ≤ ustoreSize then some (s.load (s.ustore k + a) n) else none) else s.rdSpad k a n
def State.wrMove (s : State) (k : Nat) (under : Bool) (a : Nat) (bs : List Byte) : Option State :=
  if under then (if a + bs.length ≤ ustoreSize then some (s.store (s.ustore k + a) bs) else none) else s.wrSpad k a bs

/-- The movement engine takes the next command: one element per index vector, from slot 0 to slot 3. -/
def State.startEngMove (s : State) (k : Nat) (q : EngCmd) (rest : List EngCmd) : State :=
  let s := s.modCore k fun c => { c with mq := rest, mx := some q }
  match decodePilot q.word with
  | some (.loop desc kind width ss sd) =>
    let d : Desc := (s.core k).block.descs.getD desc.toNat []
    let r (i : BitVec 4) : Word := if i = 0 then 0#32 else q.regs.getD i.toNat 0#32
    let n := loopWidth width.toNat
    let res := runList (fun s i =>
      (if kind = 4 then some (natLe n (r ss).toNat) else s.rdMove k (kind = 2) (d.addr 0 (r ss) i) n).bind fun bs =>
        s.wrMove k (kind = 1) (d.addr 3 (r sd) i) bs) (d.walk fun _ => true) s
    if res.2 then res.1 else res.1.engFault k 2 q.pc
  | _ => s

/-! ## The rows -/

/-- May an engine of the core go on: until the halt of a program fault, an engine that did not make the faulting access does
(R83)? -/
def State.engineOn (s : State) (k engine : Nat) : Bool :=
  s.runs (regionOf k) && !(s.core k).stopped && s.engOk k engine

/-- ENGINE_COMMAND_START (R84): the engine (0 tensor, 1 vector, 2 movement) is free and takes the next command of its queue; the
tensor unit may still drain the last tile of an earlier one (R111) (DESIGN CHOICE, log entry 69). -/
def execEngineCommandStart (core : CoreRef) (engine : Fin 3) (s : State) : Host.Outcome State Fault Refusal :=
  let k := core.key
  let c := s.core k
  s.act (if s.engineOn k engine.val then
      match engine.val, c.tq, c.vq, c.mq with
      | 0, q :: rest, _, _ => if c.tx.isNone then s.startTensor k q rest else s
      | 1, _, q :: rest, _ => if c.vx.isNone then s.startVector k q rest else s
      | 2, _, _, q :: rest => if c.mx.isNone then s.startEngMove k q rest else s
      | _, _, _, _ => s
    else s)

def execAccumulatorBankSwap (core : CoreRef) (s : State) : Host.Outcome State Fault Refusal :=
  s.act (if s.engineOn core.key 0 then s.swapBanks core.key else s)

/-- The tensor unit completes a command: the one whose last tile drains (R111), else one without a tile to take (R586). -/
def State.endTensor (s : State) (k : Nat) : State :=
  let c := s.core k
  match c.dx, c.tx with
  | some x, _ => if x.last then s.endDrain k else s
  | none, some r => if r.tiles.isEmpty then s.setCore k (({ c with tx := none } : CoreState).cmdDone r.cmd) else s
  | none, none => s

/-- The executing command of an engine completes (R84); an AMAX command sends its report (R346). -/
def State.endCommand (s : State) (k engine : Nat) : State :=
  let c := s.core k
  match engine, c.vx, c.mx with
  | 0, _, _ => s.endTensor k
  | 1, some (q, r), _ =>
    let s1 := s.setCore k (({ c with vx := none } : CoreState).cmdDone q)
    match r, vecArgs c q with
    | some v, some a => { s1 with num := { s1.num with amax := s1.num.amax ++ [⟨k, a.d.tensorId, q.tag, v⟩] } }
    | _, _ => s1
  | 2, _, some q => s.setCore k (({ c with mx := none } : CoreState).cmdDone q)
  | _, _, _ => s

/-- ENGINE_COMMAND_COMPLETE: the executing command of the engine has done its work. `conflicts`: the cycles of its execution in
which a requester of the core lost a bank (R89); they are an operand, since the model holds no cycles. -/
def execEngineCommandComplete (core : CoreRef) (engine : EngineEnd) (s : State) : Host.Outcome State Fault Refusal :=
  let k := core.key
  let e := engine.engine.val
  s.act (if s.engineOn k e then (s.bump .CORE_BANK_CONFLICT k engine.conflicts).endCommand k e else s)

end Sys2Proof.Machine
end

