-- ==== Sys2Proof/Machine/Mesh.lean ====
section
/-! DEFINITION. Machine/Mesh.lean: router positions (R155), the courier plane's paths (R171, R173), the stream plane's next
router (R156, R164). -/

namespace Sys2Proof.Machine

/-- Router position of a package cluster (R155). -/
def clX (cl : Nat) : Nat :=
  let d := cl / 64
  let q := cl / 16 % 4
  8 * (if d = 2 ∨ d = 3 then 1 else 0) + 4 * (q % 2) + cl % 4
def clY (cl : Nat) : Nat :=
  let d := cl / 64
  let q := cl / 16 % 4
  8 * (if d = 1 ∨ d = 2 then 1 else 0) + 4 * (q / 2) + cl % 16 / 4

/-- The package cluster at a position. -/
def clAt (x y : Nat) : Nat :=
  let d := if x < 8 then (if y < 8 then 0 else 1) else (if y < 8 then 3 else 2)
  let q := x / 4 % 2 + 2 * (y / 4 % 2)
  64 * d + 16 * q + x % 4 + 4 * (y % 4)

/-- Positions from a to b, without a. -/
def steps (a b : Nat) : List Nat :=
  if a ≤ b then (upto (b - a)).map (a + 1 + ·) else (upto (a - b)).map (a - 1 - ·)

/-- Routers entered on the way from one cluster to another, x first or y first (R171, R173). -/
def pathXY (a b : Nat) : List Nat :=
  ((steps (clX a) (clX b)).map fun x => clAt x (clY a)) ++ (steps (clY a) (clY b)).map fun y => clAt (clX b) y
def pathYX (a b : Nat) : List Nat :=
  ((steps (clY a) (clY b)).map fun y => clAt (clX a) y) ++ (steps (clX a) (clX b)).map fun x => clAt x (clY b)

/-- The way of a courier packet (R171, R173): the routers it enters, and whether it is detoured; none if neither path avoids
the fenced routers. -/
def State.courierPath (s : State) (a b : Nat) : Option (List Nat × Bool) :=
  let ok (l : List Nat) : Bool := l.all fun r => !s.fencedRouter r
  if s.fencedRouter b then none
  else if ok (pathXY a b) then some (pathXY a b, false) else if ok (pathYX a b) then some (pathYX a b, true) else none

/-! ## Courier packets (R58, R168, R169) -/

/-- The header of a token (R58). -/
def tokenHeader (t : Token) : Nat :=
  t.epoch.toNat * 2 ^ 52 + t.tag.toNat * 2 ^ 36 + t.dst * 2 ^ 24 + t.op * 2 ^ 19 + t.port * 2 ^ 16 +
    (if t.null then 2 ^ 15 else 0) + (if t.courier then 2 ^ 14 else 0) + t.length

/-- A courier packet (R168): kind 0 token-first, 1 token-continue, 2 memory write, 3 memory read request, 4 read reply,
5 reduction contribution, 6 control; source and destination as cluster and unit, unit 15 the agent port. -/
structure Packet where
  kind : Nat
  cls : Nat
  detour : Bool
  dst : Nat × Nat
  src : Nat × Nat
  group : Nat := 0
  leaf : Nat := 0
  redOp : Nat := 0
  flits : Nat
  epoch : Nat := 0
  word1 : Nat := 0
  deriving DecidableEq, Repr

/-- Header word 0 of a packet. -/
def Packet.word0 (p : Packet) : Nat :=
  p.kind * 2 ^ 61 + p.cls * 2 ^ 59 + (if p.detour then 2 ^ 58 else 0) + clX p.dst.1 * 2 ^ 54 + clY p.dst.1 * 2 ^ 50 +
    p.dst.2 * 2 ^ 46 + clX p.src.1 * 2 ^ 42 + clY p.src.1 * 2 ^ 38 + p.src.2 * 2 ^ 34 + p.group * 2 ^ 26 + p.leaf * 2 ^ 22 +
    p.redOp * 2 ^ 19 + p.flits * 2 ^ 12 + p.epoch

/-- The virtual channel of a packet: its class's own, VC3 for every detoured one (R169); the bridge lane it crosses on (R157). -/
def Packet.vc (p : Packet) : Nat := if p.detour then 3 else p.cls
def Packet.bridgeLane (p : Packet) : Nat := p.vc % 2

/-- Who sends a token, as a unit of its router: a logical core, or the agent port. -/
def Token.srcUnit (t : Token) : Nat := match t.src with | .core k .. => lcoreOf k | _ => 15

/-- The packets of a token (R168): a first one and, beyond 2,048 B, a train of token-continue packets. A multicast packet names
its source router; a contribution carries its node, leaf and operation. -/
def Token.train (t : Token) : List Packet :=
  let (dst, kind, group, leaf, op) := match t.mode with
    | .unicast => ((clusterOf t.dst, lcoreOf t.dst), 0, t.group.getD 0, 0, 0)
    | .multicast g => ((t.from_, lcoreOf t.dst), 0, g, 0, 0)
    | .reduction r n l o => ((r, lcoreOf t.dst), 5, n, l, o)
  (match cutAt 2048 0 (64 * t.length) with | [] => [(0, 0)] | l => l).map fun (c : Nat × Nat) =>
    { kind := if c.1 = 0 then kind else 1, cls := t.cls, detour := t.detour, dst := dst, src := (t.from_, t.srcUnit),
      group := group, leaf := leaf, redOp := op, flits := ceilDiv c.2 32,
      epoch := (match t.src with | .core .. => t.epoch.toNat | _ => 0),
      word1 := if c.1 = 0 then tokenHeader t else c.1 }

/-- Packets and flits of a token on the courier plane. -/
def Token.packets (t : Token) : Nat := t.train.length
def Token.flits (t : Token) : Nat := (t.train.map (·.flits)).foldl (· + ·) 0
/-- Stream beats of a token (R158): its header needs one. -/
def Token.beats (t : Token) : Nat := max 1 t.length

/-- The slot of the stream plane at an event tick (R162): the NCLK count modulo 512, 256 NCLK to a tick. -/
def State.slotCount (s : State) : Nat := 256 * s.now % 512

/-- Count flits at every router of a path (R190). -/
def State.countFlits (s : State) (reg : Reg) (path : List Nat) (n : Nat) : State :=
  path.foldl (fun (s : State) cl => s.bump reg cl n) s

/-- Put a token of an agent on its way (R173): none where its source router discards it with FENCED. -/
def State.launch (s : State) (t : Token) (cl : Nat) : Option State :=
  (s.courierPath t.from_ cl).map fun x =>
    let s := s.countFlits .NOC_COURIER_FLITS (t.from_ :: x.1) t.flits
    let s := if x.2 then s.bump .NOC_DETOURS t.from_ t.packets else s
    { s with noc := { s.noc with tokens := s.noc.tokens ++ [{ t with phase := .flying, detour := x.2 }] } }

/-- The neighbour on a side (0 N, 1 E, 2 S, 3 W) and whether a bridge is crossed. -/
def neighbour (cl side : Nat) : Option (Nat × Bool) :=
  let (x, y) := (clX cl, clY cl)
  match side with
  | 0 => if y = 0 then none else some (clAt x (y - 1), y = 8)
  | 1 => if x = 15 then none else some (clAt (x + 1) y, x = 7)
  | 2 => if y = 15 then none else some (clAt x (y + 1), y = 7)
  | _ => if x = 0 then none else some (clAt (x - 1) y, x = 8)

/-- The sides on which a border router faces a bridge (R156, R157); a corner router faces two. -/
def bridgeSides (cl : Nat) : List Nat :=
  let (x, y) := (clX cl, clY cl)
  (if x = 7 then [1] else if x = 8 then [3] else []) ++ (if y = 7 then [2] else if y = 8 then [0] else [])

/-- Where a stream output leads (R156, R190): the router, the in_sel code under which the beat stands there, and the slots until
then (R164). Outputs 0 to 3 are N, E, S, W; 8 to 11 are B0 to B3; 4 to 7 are L lanes and end here. The B lanes of a corner router
lead over both of its bridges (DEDUCED, log entry 12). -/
def streamNext (cl out : Nat) : List (Nat × Nat × Nat) :=
  if out < 4 then
    match neighbour cl out with
    | some (n, false) => [(n, (out + 2) % 4 + 1, 3)]
    | _ => []
  else if 8 ≤ out then (bridgeSides cl).filterMap fun sd => (neighbour cl sd).map fun n => (n.1, 9 + (out - 8), 8)
  else []

/-- An entry of a slot table: output o, slot t (R163, R190). -/
def slotIdx (o t : Nat) : Nat := 512 * o + t % 512

/-- The output of a router whose table selects an input in a slot (R163). -/
def selects (tab : Nat → Nat → Nat) (n sel t : Nat) : Option Nat :=
  (upto 12).find? fun o => bits (tab n (slotIdx o t)) 3 0 = sel

/-- Follow a beat from output o of a router in slot t: the routers it leaves, and the router and logical core it reaches or
the router that drops it (R164, R590). -/
def follow (tab : Nat → Nat → Nat) : Nat → Nat → Nat → Nat → List Nat × Nat × Option Nat
  | 0, cl, _, _ => ([], cl, none)
  | f + 1, cl, o, t =>
    let e := tab cl (slotIdx o t)
    if 4 ≤ o ∧ o < 8 then ([cl], cl, some (bits e 11 8))
    else
      match (streamNext cl o).findSome? fun x => (selects tab x.1 x.2.1 (t + x.2.2)).map fun o' => (x.1, o', t + x.2.2) with
      | none => ([cl], ((streamNext cl o).head?.map (·.1)).getD cl, none)
      | some (n, o', t') =>
        let r := follow tab f n o' t'
        (cl :: r.1, r.2)

/-- The slots and outputs of a router that an L lane and a logical core feed (R163). -/
def feeds (tab : Nat → Nat → Nat) (cl lane core : Nat) : List (Nat × Nat) :=
  (upto 12).flatMap fun o => ((upto 512).filter fun t =>
    let e := tab cl (slotIdx o t)
    bits e 3 0 = 5 + lane && bits e 7 4 = core).map fun t => (o, t)

/-- The slot tables in force, as NOC_SLOT holds them (R190). -/
def State.slotTab (s : State) (cl i : Nat) : Nat :=
  if cl / 16 ∈ s.bnd.slotsOn then bits (s.rn .NOC_SLOT (3072 * cl + i / 2)) (16 * (i % 2) + 15) (16 * (i % 2)) else 0

end Sys2Proof.Machine
end

