-- ==== Sys2Proof/Machine/Folio.lean ====
section
/-! DEFINITION. Machine/Folio.lean: the folio image (R192 to R198) and the static rules the bindery applies at staging
(R82, R100, R125, R147, R165, R175, R180, R182, R199), in the order of R588. -/

namespace Sys2Proof.Machine

/-- A failed check: status, reason of BND_LAST_REJECT, leaf, cluster, core (R222). -/
structure Reject where
  status : Nat
  reason : Nat
  leaf : Nat := 0
  cluster : Nat := 0
  core : Nat := 15
  deriving DecidableEq, Repr

/-- No byte of a range differs from zero. -/
def State.allZero (s : State) (a n : Nat) : Bool :=
  if s.spread a n then (s.load a n).all fun b => b = 0#8 else s.mem.all fun c => decide (c.1 < a ∨ a + n ≤ c.1)

/-- The sparse table of n entries of w bytes at an address. -/
def State.readTab (s : State) (a w n : Nat) : List (Nat × Nat) :=
  (upto n).filterMap fun i => let v := s.loadN (a + w * i) w; if v = 0 then none else some (i, v)

/-- n words of w bytes at an address. -/
def State.readWords (s : State) (a w n : Nat) : List Nat := (upto n).map fun i => s.loadN (a + w * i) w

def pad64 (n : Nat) : Nat := ceilDiv n 64 * 64

/-! ## Reading a leaf (R196 to R198) -/

/-- Bytes of a core table block (R198). -/
def coreBlockSize (s : State) (a : Nat) : Nat :=
  let (pl, oc, dc) := (s.loadN a 2, s.loadN (a + 2) 1, s.loadN (a + 3) 1)
  64 + pad64 (8 * oc) + pad64 (32 * oc) + pad64 (64 * oc) + pad64 (32 * oc) + pad64 (4 * pl) + pad64 (216 * dc)

/-- One core table block. -/
def State.readCore (s : State) (a : Nat) : CoreBlock :=
  let (pl, oc, dc) := (s.loadN a 2, s.loadN (a + 2) 1, s.loadN (a + 3) 1)
  let o := a + 64
  let p := o + pad64 (8 * oc)
  let r := p + pad64 (32 * oc)
  let v := r + pad64 (64 * oc)
  let g := v + pad64 (32 * oc)
  let d := g + pad64 (4 * pl)
  { ops := (s.readWords o 8 oc).map (BitVec.ofNat 64 ·), ports := (s.readWords p 4 (8 * oc)).map (BitVec.ofNat 32 ·),
    routes := (s.readWords r 8 (8 * oc)).map (BitVec.ofNat 64 ·), resv := (s.readWords v 4 (8 * oc)).map (BitVec.ofNat 32 ·),
    prog := (s.readWords g 4 pl).map (BitVec.ofNat 32 ·),
    descs := (upto dc).map fun i => (s.readWords (d + 216 * i) 4 54).map (BitVec.ofNat 32 ·) }

/-- The addresses of the core table blocks of a section, for the logical cores listed, from address a. -/
def blockAddrs (s : State) : List Nat → Nat → List (Nat × Nat)
  | [], _ => []
  | l :: ls, a => (l, a) :: blockAddrs s ls (a + coreBlockSize s a)

/-- The cores of a section with their init segments, the segments lying behind the blocks in the same order (R197). -/
def readCores (s : State) : List (Nat × Nat) → Nat → List (Nat × CoreBlock × Nat × List Byte)
  | [], _ => []
  | (l, a) :: t, i =>
    let n := s.loadN (a + 4) 2
    (l, s.readCore a, 64 * s.loadN (a + 6) 2, s.load i n) :: readCores s t (i + n)

/-- The end of the core table blocks. -/
def blocksEnd (s : State) (bs : List (Nat × Nat)) (start : Nat) : Nat :=
  (bs.getLast?.map fun b => b.2 + coreBlockSize s b.2).getD start

/-- Cluster section c of a leaf at address a. -/
def State.readSec (s : State) (a c : Nat) : ClusterSec :=
  let dir := a + 64 + 16 * c
  let sec := a + s.loadN dir 4
  let mask := s.loadN (dir + 8) 2
  let bs := blockAddrs s (unmask 16 mask) (sec + 13888)
  { c := c, mask := mask, size := s.loadN (dir + 4) 4,
    slots := (s.readTab (sec + 64) 2 6144).map fun e => (e.1, BitVec.ofNat 16 e.2),
    groups := (s.readTab (sec + 12352) 4 256).map fun e => (e.1, BitVec.ofNat 32 e.2),
    nodes := (s.readTab (sec + 13376) 8 64).map fun e => (e.1, BitVec.ofNat 64 e.2),
    cores := readCores s bs (blocksEnd s bs (sec + 13888)) }

/-- Leaf i of the image at address a (R194). -/
def State.readLeaf (s : State) (a i : Nat) : Leaf :=
  let e := a + 128 + 128 * i
  let at_ := a + s.loadN (e + 8) 8
  { region := s.loadN e 1, use_ := s.loadN (e + 2) 2, initTag := BitVec.ofNat 16 (s.loadN (e + 4) 2),
    length := s.loadN (e + 16) 8, secs := (unmask 16 (s.loadN (e + 2) 2)).map fun c => s.readSec at_ c }

/-! ## Header, leaf table and layout (R192 to R200) -/

/-- The first header or leaf-table rule broken (R200, R588 item 2) (DEDUCED, log entry 50). -/
def State.headerReject (s : State) (a : Nat) : Option Reject :=
  let bad (r : Nat) (leaf : Nat := 0) : Option Reject := some ⟨stBAD_FOLIO, r, leaf, 0, 15⟩
  let n := s.loadN (a + 10) 1
  let len := s.loadN (a + 24) 8
  let sig := s.loadN (a + 32) 8
  let lc := s.loadN (a + 9) 1
  let rev := s.loadN (a + 8) 1
  let entry (i : Nat) : Nat := a + 128 + 128 * i
  let entryBad (i : Nat) : Bool :=
    let e := entry i
    if n ≤ i then !s.allZero e 128
    else
      let off := s.loadN (e + 8) 8
      decide (16 ≤ s.loadN e 1) || s.loadN (e + 1) 1 ≠ 0 || !s.allZero (e + 6) 2 || !s.allZero (e + 24) 40
        || off % 64 ≠ 0 || decide (off < 2176) || decide (sig < off + s.loadN (e + 16) 8) || decide (s.loadN (e + 16) 8 < 320)
        || (upto i).any fun j =>
          let o' := s.loadN (entry j + 8) 8
          s.loadN (entry j) 1 = s.loadN e 1 ||
            decide (off < o' + s.loadN (entry j + 16) 8 ∧ o' < off + s.loadN (e + 16) 8)
  if s.loadN a 4 ≠ 0x4F465854 then bad 1
  else if s.loadN (a + sig) 4 ≠ 0x47535854 then bad 1
  else if s.loadN (a + 4) 2 ≠ 0x0200 then bad 1
  else if s.loadN (a + 6) 2 ≠ 0x9716 then bad 2
  else if !(rev = 0x10 || rev = 0x20) || decide (s.fuse.revision < rev) then bad 2
  else if !(lc = 14 || lc = 15) || (lc = 15 && s.fuse.grade = 3) then bad 3
  else if n = 0 ∨ 16 < n ∨ 4 ≤ s.loadN (a + 11) 1 ∨ !s.allZero (a + 40) 88 then bad 4
  else if sig % 64 ≠ 0 ∨ len ≠ sig + 4736 ∨ !s.allZero (a + sig + 4691) 45 then bad 4
  else
    match (upto 16).find? entryBad with
    | some i => bad 4 i
    | none => none

/-- Does core block l at address a break R198? -/
def State.coreLayoutBad (s : State) (a : Nat) : Bool :=
  let (pl, oc, dc, il, ia) := (s.loadN a 2, s.loadN (a + 2) 1, s.loadN (a + 3) 1, s.loadN (a + 4) 2, s.loadN (a + 6) 2)
  pl = 0 || decide (1024 < pl) || decide (32 < oc) || decide (64 < dc) || il % 64 ≠ 0 || decide (4096 < il)
    || decide (spadSize < 64 * ia + il) || !s.allZero (a + 8) 56

/-- The first layout rule of R196 to R198 broken within leaf i (R588 item 6). -/
def State.layoutReject (s : State) (a i : Nat) : Option Reject :=
  let bad (c : Nat := 0) (l : Nat := 15) : Option Reject := some ⟨stBAD_FOLIO, 4, i, c, l⟩
  let e := a + 128 + 128 * i
  let at_ := a + s.loadN (e + 8) 8
  let len := s.loadN (e + 16) 8
  let use_ := s.loadN (e + 2) 2
  let lc := s.loadN (a + 9) 1
  if s.loadN at_ 8 ≠ len ∨ !s.allZero (at_ + 8) 56 then bad
  else
    ((upto 16).findSome? fun c =>
      let dir := at_ + 64 + 16 * c
      let (off, sl, mask) := (s.loadN dir 4, s.loadN (dir + 4) 4, s.loadN (dir + 8) 2)
      if !bitAt use_ c then (if s.allZero dir 16 then none else bad c)
      else if !s.allZero (dir + 10) 6 || off % 64 ≠ 0 || decide (off < 320) || decide (len < off + sl)
          || decide (2 ^ lc ≤ mask) || !s.allZero (at_ + off) 64 then bad c
      else
        let bs := blockAddrs s (unmask 16 mask) (at_ + off + 13888)
        match bs.find? fun b => s.coreLayoutBad b.2 with
        | some b => bad c b.1
        | none =>
          if blocksEnd s bs (at_ + off + 13888) + ((bs.map fun b => s.loadN (b.2 + 4) 2).foldl (· + ·) 0) ≠ at_ + off + sl
          then bad c else none)

/-! ## Programs and tables (R82) -/

/-- The program's instruction at an index. -/
def CoreBlock.insn (b : CoreBlock) (i : Nat) : Option PilotInsn := (b.prog[i]?).bind decodePilot

/-- Is an instruction free of reserved codes (R82), beside what the decoder refuses? -/
def insnCodesOk (i : PilotInsn) : Bool :=
  match i with
  | .tens _ fa fb _ _ _ => fmtGroup fa.toNat ≠ 0 && fmtGroup fa.toNat = fmtGroup fb.toNat
  | .vect _ vop fmt rnd sn _ =>
    ((vopVal vop.toNat fvZero fvZero fvZero).isSome || vopReduces vop.toNat || vop = 0x11 || vop = 0x29 || vop = 0x2A
      || vop = 0x2B) && decide (fmt.toNat ≤ 9) && rnd ≠ 3 && decide (1 ≤ sn.toNat ∧ sn.toNat ≤ 13)
      && (fmtMx fmt.toNat == decide (vop = 0x11))
  | .loop _ kind width _ _ => decide (kind.toNat ≤ 4 ∧ width.toNat ≤ 3)
  | .herd act _ _ => act ≠ 3
  | _ => true

/-- The descriptor an instruction names. -/
def insnDesc (i : PilotInsn) : Option Nat :=
  match i with
  | .tens d .. => some d.toNat
  | .vect d .. => some d.toNat
  | .loop d .. => some d.toNat
  | _ => none

/-- Indices that may follow an instruction (R82): the next, a branch target, a JMP target; none after DONE. -/
def insnNext (i : PilotInsn) (pc : Nat) : List Nat :=
  match i with
  | .done => []
  | .jmp t => [t.toNat]
  | .br _ _ _ off => [pc + 1, brTarget pc off]
  | _ => [pc + 1]

/-- Is a branch or JMP target within the program? -/
def targetOk (len pc : Nat) (i : PilotInsn) : Bool :=
  match i with
  | .jmp t => decide (t.toNat < len)
  | .br _ _ _ off => decide (0 ≤ (pc : Int) + off.toInt ∧ (pc : Int) + off.toInt < len)
  | _ => true

/-- The instructions reachable from those listed. -/
def CoreBlock.reach (b : CoreBlock) : Nat → List Nat → List Nat → List Nat
  | 0, _, seen => seen
  | _ + 1, [], seen => seen
  | f + 1, pc :: rest, seen =>
    if pc ∈ seen ∨ b.prog.length ≤ pc then b.reach f rest seen
    else b.reach f (((b.insn pc).map (insnNext · pc)).getD [] ++ rest) (pc :: seen)
def CoreBlock.reachFrom (b : CoreBlock) (pc : Nat) : List Nat := b.reach (3 * b.prog.length + 1) [pc] []

/-- Do a core's program and tables keep R82 (descriptor engines aside, which carry reason 0x08), and its routes R167 and
R378? -/
def CoreBlock.progOk (b : CoreBlock) : Bool :=
  let len := b.prog.length
  (upto len).all (fun pc => match b.insn pc with
    | some i => insnCodesOk i && targetOk len pc i && ((insnDesc i).map fun d => decide (d < b.descs.length)).getD true
    | none => false) &&
  (upto b.opCount).all (fun n =>
    let e := b.op n
    bits e 35 34 ≠ 3 && bits e 33 32 = 0 && decide (opOuts e ≤ 8) && decide (opIssuePc e < len) && decide (opFinishPc e < len) &&
    (b.reachFrom (opIssuePc e) ++ b.reachFrom (opFinishPc e)).all (fun pc => match b.insn pc with
      | some (.tsend out ..) => decide (out.toNat < opOuts e ∧ pc + 1 < len)
      | some .done => true
      | some (.jmp _) => true
      | some _ => decide (pc + 1 < len)
      | none => false) &&
    (upto 8).all fun j =>
      let r := b.route n j
      bits r 21 0 = 0 && rtMode r ≠ 3 && (rtCore r ≠ 15 || (rtCourier r && decide (29 ≤ rtOp r))) && (if rtCourier r then rtClass r = 1 || rtClass r = 2 else rtClass r = 0 && rtMode r = 0)
        && (rtMode r ≠ 2 || decide (rtRedOp r ≤ 4)))

/-! ## Descriptors (R100, R125, R138, R147) -/

/-- How a program uses a descriptor. -/
def CoreBlock.users (b : CoreBlock) (d : Nat) : List PilotInsn :=
  b.prog.filterMap fun w => (decodePilot w).filter fun i => insnDesc i = some d

/-- A slot with zero offset, pitch and strides (R134). -/
def Desc.slotZero (d : Desc) (s : Nat) : Bool := d.off s = 0 && d.pitch s = 0 && (upto 6).all fun l => d.stride l s = 0

/-- Slots an instruction uses (R134). A LOOP uses its source slot even where a fill ignores it (R582). -/
def slotsUsed (d : Desc) (i : PilotInsn) : List Nat :=
  match i with
  | .tens _ fa fb .. => (if d.pass then [0, 2] else [0, 1, 2]) ++ (if fmtMx fa.toNat then [3] else [])
      ++ (if fmtMx fb.toNat ∨ d.maskMode = 2 then [4] else [])
  | .vect _ vop .. =>
    let v := vop.toNat
    (if v = 0x2B then [] else [0]) ++ (if vopReadsB v ∨ v = 0x29 ∨ v = 0x2A then [1] else [])
      ++ (if vopReadsC v ∨ v = 0x28 then [2] else []) ++ [3] ++ (if d.maskMode = 2 ∨ fmtMx d.srcFmt then [4] else [])
  | .loop .. => [0, 3]
  | _ => []

/-- Slots an engine uses at all (R134): those of a descriptor that no instruction names (DESIGN CHOICE, log entry 142). -/
def engineSlots (e : Nat) : List Nat := if e = 2 then [0, 3] else upto 5

/-- The engine field an instruction needs (R82). -/
def insnEngine (i : PilotInsn) : Nat := match i with | .tens .. => 0 | .vect .. => 1 | _ => 2

/-- Levels of role K occupy the positions below every other (R136, R143). -/
def Desc.kLowest (d : Desc) : Bool :=
  (upto d.levels).all fun l => (upto d.levels).all fun m =>
    !(d.role l = 3 && d.role m ≠ 3) || decide (d.order l < d.order m)

/-- Does an MX operand with its scales in slot sc keep R138: in its innermost K level a bound of 32 / g and no scale stride? -/
def Desc.mxOk (d : Desc) (g sc : Nat) : Bool :=
  let l := d.levelAt 0
  d.role l = 3 && d.bound l * g = 32 && d.stride l sc = 0

/-- Does an operand of a TENS break R100 and R138: an MX one by its levels or by a K extent that is no multiple of 32, another by
using its scale slot, which in slot 4 a bitmap may do? -/
def Desc.operandBad (d : Desc) (fmt sc : Nat) : Bool :=
  if fmtMx fmt then !d.mxOk (fmtGroup fmt) sc || decide (0 < d.kTail ∧ d.kTail < fmtGroup fmt)
  else !(sc = 4 && d.maskMode = 2) && !d.slotZero sc

/-- Does MX source A keep the layout of R585? -/
def Desc.mxSrcOk (d : Desc) : Bool :=
  let l := d.levelAt 0
  let blk : Int := (mxBytes d.srcFmt 32 : Nat)
  d.bound l % 32 = 0 && d.stride l 0 = 0 && d.stride l 4 = 0 &&
    (upto d.levels).all fun m => m = l || (d.stride m 0 % blk = 0 && d.stride m 0 / blk = d.stride m 4)

/-- Does the descriptor of index n break R100 and R138, given the instructions that name it? -/
def CoreBlock.mxBad (b : CoreBlock) (n : Nat) : Bool :=
  let d : Desc := b.descs.getD n []
  (b.users n).any fun i => match i with
    | .tens _ fa fb .. => !d.pass && (d.operandBad fa.toNat 3 || d.operandBad fb.toNat 4)
    | _ => false

/-- Does it break R125? -/
def CoreBlock.meanVarBad (b : CoreBlock) (n : Nat) : Bool :=
  let d : Desc := b.descs.getD n []
  (b.users n).any fun i => match i with
    | .vect _ vop .. => vop = 0x22 && decide (16777216 < d.kExtent)
    | _ => false

/-- Does it break R147? -/
def CoreBlock.descBad (b : CoreBlock) (n : Nat) : Bool :=
  let d : Desc := b.descs.getD n []
  let us := b.users n
  let tail (role t : Nat) : Bool := t ≠ 0 && !((upto d.levels).any fun l => d.role l = role)
  let mx := fmtMx d.srcFmt
  decide (d.levels = 0 ∨ 6 < d.levels) || d.engine = 3 || d.clear = 3 || decide (5 < d.drainFmt) || d.drainRnd = 3 ||
  d.maskMode = 3 || bits (d.w 0) 31 20 ≠ 0 || bits (d.w 1) 31 27 ≠ 0 || bits (d.w 2) 31 29 ≠ 0 ||
  (upto d.levels).any (fun l => bits (d.w (18 + 6 * l)) 31 29 ≠ 0) ||
  !((upto d.levels).all fun p => (upto d.levels).any fun l => d.order l = p) ||
  (upto 6).any (fun l => decide (d.levels ≤ l) && (upto 6).any fun x => d.w (18 + 6 * l + x) ≠ 0) ||
  (d.engine = 0 && !d.kLowest) || tail 1 d.mTail || tail 2 d.nTail || tail 3 d.kTail ||
  decide (15 < d.mTail) || decide (15 < d.nTail) ||
  us.any (fun i => match i with | .tens _ fa .. => decide (fmtGroup fa.toNat < d.kTail) | _ => false) ||
  (d.pass && (d.engine ≠ 0 || d.clear = 0 || (upto d.levels).any fun l => d.role l = 3)) ||
  us.any (fun i => decide (insnEngine i ≠ d.engine)) ||
  ((upto 5).any fun sl => !(if us.isEmpty then decide (sl ∈ engineSlots d.engine) else us.any fun i => sl ∈ slotsUsed d i) &&
    !d.slotZero sl) ||
  (us.any (fun i => match i with | .vect _ vop .. => vopReduces vop.toNat | _ => false) &&
    (!d.kLowest || (upto d.levels).any fun l => d.role l = 3 && d.stride l 3 ≠ 0)) ||
  (d.engine ≠ 1 && d.srcFmt ≠ 0) || decide (9 < d.srcFmt) ||
  (mx && us.any fun i => match i with
    | .vect _ vop .. => vopReadsB vop.toNat || vop = 0x29 || vop = 0x2A
    | _ => false) ||
  (mx && !d.mxSrcOk) || (d.engine = 2 && d.maskMode ≠ 0) || (d.maskMode ≠ 0 && decide (d.levels ≤ d.maskLevel)) ||
  (d.maskMode = 2 && (mx || us.any fun i => match i with | .tens _ _ fb .. => fmtMx fb.toNat | _ => false)) ||
  (d.engine = 0 && d.maskMode ≠ 0 && d.role d.maskLevel = 3) || decide (d.levels ≤ d.bufLevel)

/-! ## Slot tables, groups, nodes, reservoirs (R165, R175, R180, R182, R199) -/

/-- The section of a package cluster in a folio. -/
def secOf (ls : List Leaf) (cl : Nat) : Option ClusterSec :=
  (ls.find? fun l => l.region = cl / 16).bind fun l => l.secs.find? fun c => c.c = cl % 16

/-- The folio's own slot tables. -/
def folioTab (ls : List Leaf) (cl i : Nat) : Nat := ((secOf ls cl).map fun c => (spGet 0#16 c.slots i).toNat).getD 0

/-- Is a package cluster in a region that the folio has a leaf for? -/
def inFolio (ls : List Leaf) (cl : Nat) : Bool := ls.any fun l => l.region = cl / 16

/-- Do the slot tables of a cluster break R165 (seam and fence clauses aside)? -/
def slotsBad (ls : List Leaf) (cl : Nat) (sec : ClusterSec) : Bool :=
  let tab := folioTab ls
  let used := sec.slots.map fun e => (e.1 / 512, e.1 % 512, e.2.toNat)
  used.any fun (o, t, e) =>
    let sel := bits e 3 0
    decide (12 < sel) || bits e 15 12 ≠ 0 ||
    (sel ≠ 0 && used.any fun (o', t', e') => o' ≠ o && t' = t && bits e' 3 0 = sel) ||
    (sel ≠ 0 && !(4 ≤ o && o < 8) &&
      !((streamNext cl o).any fun x => !inFolio ls x.1 || (selects tab x.1 x.2.1 (t + x.2.2)).isSome)) ||
    (decide (5 ≤ sel ∧ sel ≤ 8) &&
      let r := follow tab 64 cl o t
      let hops := r.1.length - 1
      let bridges := (List.zipWith (fun a b => decide (clX a / 8 ≠ clX b / 8 ∨ clY a / 8 ≠ clY b / 8)) r.1 (r.1.drop 1)).count true
      decide (128 < 10 + 3 * hops + 5 * bridges)) ||
    (sel ≠ 0 && !(5 ≤ sel && sel ≤ 8) &&
      -- the wanted beat is present: some router sends to this input in the slot before it
      !((upto 256).any fun n => (secOf ls n).isSome && (upto 12).any fun o' =>
        (streamNext n o').any fun x => x.1 = cl && x.2.1 = sel && bits (tab n (slotIdx o' (t + 512 - x.2.2))) 3 0 ≠ 0))

/-- Do the entries of a group reach each router of `ours` by one path, and only valid entries, from the routers still to visit,
with those seen? A branch out of `ours` ends. -/
def groupTree (ours : Nat → Bool) (ent : Nat → Nat → Nat) (g : Nat) : Nat → List Nat → List Nat → Bool
  | 0, _, _ => false
  | _ + 1, [], _ => true
  | f + 1, cl :: rest, seen =>
    let e := ent cl g
    if !ours cl then groupTree ours ent g f rest seen
    else if cl ∈ seen ∨ !bitAt e 31 then false
    else
      let ds := (upto 4).filter fun d => bitAt e (30 - d)
      ds.all (fun d => (neighbour cl d).isSome) &&
        groupTree ours ent g f (ds.filterMap (fun d => (neighbour cl d).map (·.1)) ++ rest) (cl :: seen)

def folioGroup (ls : List Leaf) (cl g : Nat) : Nat := ((secOf ls cl).map fun c => (spGet 0#32 c.groups g).toNat).getD 0

/-- The groups that cores of a cluster send to. -/
def groupsSent (sec : ClusterSec) : List Nat :=
  sec.cores.flatMap fun c => (upto c.2.1.opCount).flatMap fun n => (upto (opOuts (c.2.1.op n))).filterMap fun j =>
    let r := c.2.1.route n j
    if rtMode r = 1 then some (rtGroup r) else none

/-- Do the groups of a cluster break R175 (seam and fence clauses aside)? A branch out of the folio is the seam's. Within it a
branch reaches a valid entry, no entry is reached by two others or again from itself, and a group that is sent has an entry
(DEDUCED, log entry 51). -/
def groupsBad (ls : List Leaf) (cl : Nat) (sec : ClusterSec) : Bool :=
  let ent := folioGroup ls
  sec.groups.any (fun e => bits e.2.toNat 26 15 ≠ 0 ||
    (bitAt e.2.toNat 31 &&
      !groupTree (inFolio ls) ent e.1 2048 [cl] [] ||
      decide (2 ≤ ((upto 4).filter fun d => match neighbour cl d with
        | some (n, _) => bitAt (ent n e.1) 31 && bitAt (ent n e.1) (30 - (d + 2) % 4)
        | none => false).length))) ||
  (groupsSent sec).any fun g => !bitAt (ent cl g) 31

/-- The reduction node entry of a folio. -/
def folioNode (ls : List Leaf) (cl n : Nat) : Nat := ((secOf ls cl).map fun c => (spGet 0#64 c.nodes n).toNat).getD 0
def ndOp (e : Nat) : Nat := bits e 3 1
def ndSplit (e : Nat) : Nat := bits e 7 4
def ndDepth (e : Nat) : Nat := 2 ^ bits e 9 8
def ndRoot (e : Nat) : Bool := bitAt e 10
def ndNext (e : Nat) : Nat := clAt (bits e 14 11) (bits e 18 15)
def ndNextNode (e : Nat) : Nat := bits e 24 19
def ndFlits (e : Nat) : Nat := bits e 30 25

/-- The children of a node: (red_op, destination bits of a contribution route) of routes, and child nodes. -/
def nodeRoutes (ls : List Leaf) (cl n : Nat) : List Nat :=
  ls.flatMap fun l => l.secs.flatMap fun sec => sec.cores.flatMap fun c =>
    (upto c.2.1.opCount).flatMap fun o => (upto (opOuts (c.2.1.op o))).filterMap fun j =>
      let r := c.2.1.route o j
      if rtMode r = 2 ∧ 16 * rtRegion r + rtCluster r = cl ∧ rtNode r = n then some r else none
def nodeKids (ls : List Leaf) (cl n : Nat) : List (Nat × Nat) :=
  ls.flatMap fun l => l.secs.flatMap fun sec => sec.nodes.filterMap fun e =>
    let v := e.2.toNat
    if bitAt v 0 ∧ !ndRoot v ∧ ndNext v = cl ∧ ndNextNode v = n then some (16 * l.region + sec.c, e.1) else none

/-- All contribution routes of the tree under a node. -/
def treeRoutes (ls : List Leaf) : Nat → Nat → Nat → List Nat
  | 0, _, _ => []
  | f + 1, cl, n => nodeRoutes ls cl n ++ (nodeKids ls cl n).flatMap fun k => treeRoutes ls f k.1 k.2

/-- Do the nodes of a cluster break R180 (seam clause aside)? -/
def nodesBad (ls : List Leaf) (cl : Nat) (sec : ClusterSec) : Bool :=
  let vs := sec.nodes.filter fun e => bitAt e.2.toNat 0
  decide (32 < (vs.map fun e => ndDepth e.2.toNat).foldl (· + ·) 0) ||
  sec.nodes.any fun e =>
    let v := e.2.toNat
    bits v 63 31 ≠ 0 || decide (4 < ndOp v) || bits v 9 8 = 3 ||
    (bitAt v 0 &&
      let rs := nodeRoutes ls cl e.1
      let ks := nodeKids ls cl e.1
      decide (rs.length + ks.length ≠ 2) || decide (ndFlits v = 0 ∨ 48 < ndFlits v) || rs.any (fun r => rtRedOp r ≠ ndOp v) ||
      ks.any (fun k => let c := folioNode ls k.1 k.2; ndOp c ≠ ndOp v || ndFlits c ≠ ndFlits v) ||
      (ndRoot v && match treeRoutes ls 16 cl e.1 with
        | [] => true
        | r :: t => t.any fun x => rtCore x ≠ rtCore r || rtOp x ≠ rtOp r || rtPort x ≠ rtPort r))

/-- Do a core's reservoirs overlap or run past the under-store (R182)? -/
def CoreBlock.resvBad (b : CoreBlock) : Bool :=
  let rs := (upto (8 * b.opCount)).filterMap fun i =>
    let v := (b.resv.getD i 0#32).toNat
    if bits v 27 14 = 0 then none else some (bits v 13 0, bits v 27 14)
  b.resv.any (fun w => bits w.toNat 31 28 ≠ 0) || rs.any (fun r => decide (16384 < r.1 + r.2)) ||
  rs.zipIdx.any fun x => rs.zipIdx.any fun y => decide (x.2 < y.2 ∧ x.1.1 < y.1.1 + y.1.2 ∧ y.1.1 < x.1.1 + x.1.2)

/-- Does route 8n + j of a core name a region (R167): it is one of its operation's outputs, and no multicast route
(DEDUCED, log entry 143)? -/
def CoreBlock.namesRegion (b : CoreBlock) (i : Nat) : Bool :=
  decide (i % 8 < opOuts (b.op (i / 8))) && rtMode (b.route (i / 8) (i % 8)) ≠ 1

/-- The first break of R199 in a portable folio: cluster, and core or 15 for a router block. -/
def portableBad (ls : List Leaf) : Option (Nat × Nat) :=
  match ls with
  | [l] =>
    let away (cl d : Nat) : Bool := match neighbour cl d with
      | some (n, _) => decide (n / 16 ≠ l.region)
      | none => true
    l.secs.findSome? fun sec =>
      let cl := 16 * l.region + sec.c
      let core := sec.cores.find? fun c => (upto (8 * c.2.1.opCount)).any fun i =>
        c.2.1.namesRegion i && rtRegion (c.2.1.route (i / 8) (i % 8)) ≠ l.region
      let router := sec.slots.any (fun e => bits e.2.toNat 3 0 ≠ 0 &&
          (streamNext cl (e.1 / 512)).any fun x => decide (x.1 / 16 ≠ l.region)) ||
        sec.groups.any (fun e => bitAt e.2.toNat 31 && (upto 4).any fun d => bitAt e.2.toNat (30 - d) && away cl d) ||
        sec.nodes.any fun e => bitAt e.2.toNat 0 && !ndRoot e.2.toNat && decide (ndNext e.2.toNat / 16 ≠ l.region)
      match core with
      | some c => some (sec.c, c.1)
      | none => if router then some (sec.c, 15) else none
  | _ => some (0, 15)

/-- The first static rule broken, in the order of R201 and R588: lowest leaf, cluster, core within one rule. -/
def staticReject (portable : Bool) (ls : List Leaf) : Option Reject :=
  let perCore (reason : Nat) (bad : CoreBlock → Bool) : Option Reject :=
    ls.zipIdx.findSome? fun l => l.1.secs.findSome? fun sec => sec.cores.findSome? fun c =>
      if bad c.2.1 then some ⟨stBAD_FOLIO, reason, l.2, sec.c, c.1⟩ else none
  let perCluster (reason : Nat) (bad : Nat → ClusterSec → Bool) : Option Reject :=
    ls.zipIdx.findSome? fun l => l.1.secs.findSome? fun sec =>
      if bad (16 * l.1.region + sec.c) sec then some ⟨stBAD_FOLIO, reason, l.2, sec.c, 15⟩ else none
  (perCore 7 fun b => !b.progOk) <|>
  (perCore 8 fun b => (upto b.descs.length).any fun n => b.mxBad n) <|>
  (perCore 8 fun b => (upto b.descs.length).any fun n => b.meanVarBad n) <|>
  (perCore 8 fun b => (upto b.descs.length).any fun n => b.descBad n) <|>
  (perCluster 9 (slotsBad ls)) <|> (perCluster 10 (groupsBad ls)) <|> (perCluster 11 (nodesBad ls)) <|>
  (perCore 12 fun b => b.resvBad) <|>
  (if portable then (portableBad ls).map fun x => ⟨stBAD_FOLIO, 13, 0, x.1, x.2⟩ else none)

end Sys2Proof.Machine
end

