-- ==== Sys2Proof/Machine/Region.lean ====
section
/-! DEFINITION. Machine/Region.lean: what stops, halts and fences share: the vote word of a step in progress (R325, R326), the
close of a step (R315), the halt of a region (R70, R83, R210), valid bits that signal package events (R559). -/

namespace Sys2Proof.Machine

/-! ## The vote word (R325, R326) -/

/-- A context's step state, and its change. -/
def State.stp (s : State) (c : Nat) : StepState := spGet {} s.step c
def State.setStp (s : State) (c : Nat) (t : StepState) : State := { s with step := spSet {} s.step c t }

/-- The states of CTX_STEP_STATE. -/
def ssIdle : Nat := 0
def ssRunning : Nat := 1
def ssVoted : Nat := 2
def ssCommitting : Nat := 3
def ssInDoubt : Nat := 4
def ssResharding : Nat := 5

def State.sstate (s : State) (c : Nat) : Nat := s.get CTX_STEP_STATE.state c

/-- Is a step or a move in progress that has not voted? -/
def State.stepOpen (s : State) (c : Nat) : Bool := s.sstate c = ssRunning || s.sstate c = ssResharding

/-- Set a vote bit (R326): in the step in progress; bits 0 to 3 outside one are kept for the next step; bit 4 only while the
state is running. -/
def State.voteBit (s : State) (c b : Nat) : State :=
  if b = 4 then (if s.sstate c = ssRunning then s.put CTX_HEALTH.local_ c (s.get CTX_HEALTH.local_ c ||| 16) else s)
  else if s.stepOpen c then s.put CTX_HEALTH.local_ c (s.get CTX_HEALTH.local_ c ||| 2 ^ b)
  else if b ≤ 3 then s.setStp c { s.stp c with next := (s.stp c).next ||| 2 ^ b }
  else s

/-- The vote bits of R325. -/
def vbNonfinite : Nat := 0
def vbDigest : Nat := 1
def vbSentinel : Nat := 2
def vbFence : Nat := 3
def vbEpoch : Nat := 4
def vbIncomplete : Nat := 8

/-! ## Stopping (R70) -/

/-- A core stops: its handler is abandoned, its engine commands are discarded, its matcher entries cleared (R70); the contents of
both accumulator banks are discarded, the fill bank undrained (R115). -/
def CoreState.stop (c : CoreState) : CoreState :=
  { c with
    entries := [], handler := none, tq := [], vq := [], mq := [], tx := none, dx := none, vx := none, mx := none
    bank0 := [], bank1 := [], fillOne := false, stuck := [], reported := [], yielded := none, stopped := false }

/-- The core window numbers of a region. -/
def coresOf (p : Nat) : List Nat := (upto 16).flatMap fun c => (upto 15).map fun l => 256 * p + 16 * c + l

/-- Every core of a region stops. -/
def State.stopRegion (s : State) (p : Nat) : State :=
  { s with cores := s.cores.filterMap fun e =>
      if e.1 / 256 = p then (if e.2.stop = {} then none else some (e.1, e.2.stop)) else some e }

/-- A region enters state halted and stops. -/
def State.haltCores (s : State) (p : Nat) : State := (s.stopRegion p).put BND_REGION_STATE.state p rsHalted

/-- Close a context's step incomplete at this tick (R315): the vote bit sets and every region of the step bind set that still
computes halts. -/
def State.closeStep (s : State) (c : Nat) : State :=
  if s.stepOpen c && !(s.stp c).closed then
    let s := (s.voteBit c vbIncomplete).setStp c { (s.stp c) with closed := true }
    (upto 16).foldl (fun (s : State) p =>
      if s.rctx p = c && s.flag BND_REGION_STATE.step p && s.runs p then s.haltCores p else s) s
  else s

/-- A region that computes halts, and the step of its bind set closes (R83, R210, R293, R305, R315). -/
def State.halt (s : State) (p : Nat) : State :=
  if s.runs p then
    let c := s.rctx p
    let s := s.haltCores p
    if s.flag BND_REGION_STATE.step p then s.closeStep c else s
  else s

/-- A halt reported as an event of the region (kind 4, R83, R293, R305) (DEDUCED, log entry 18). -/
def State.haltEvent (s : State) (p status : Nat) : State :=
  if s.runs p then (s.halt p).postEvent (s.rctx p) status p else s

/-- A halt reported to the context (kind 3, R210, R491). -/
def State.haltCtx (s : State) (p status : Nat) : State :=
  if s.runs p then (s.halt p).postCtx (s.rctx p) status (2 ^ p) else s

/-! ## Package events (R559) -/

/-- Set a bit that signals a package event on vector 0. -/
def State.signal (s : State) (f : Fld) (i : Nat := 0) : State :=
  if s.flag f i then s else { s.put f i 1 with pkgEvent := true }

/-! ## Sampled events -/

/-- The event that the sequencers handle next, where it satisfies p (R46, R494). -/
def State.findEvent (s : State) (p : EvKind → Bool) : Option Sampled := s.seq.order.head?.filter fun e => p e.ev

/-- It leaves the queue. -/
def State.dropEvent (s : State) (p : EvKind → Bool) : State :=
  match s.findEvent p with
  | some e =>
    { s with seq :=
      if (s.seq.carried = [] ∨ e.cls = 0) ∧ e ∈ s.seq.sampled then { s.seq with sampled := s.seq.sampled.erase e }
      else { s.seq with carried := s.seq.carried.erase e } }
  | none => s

/-- The tick handles the event that is next, alone: it leaves the queue and counts in its class (R46, R494, R495); while another
event comes before it nothing happens (DEDUCED, log entry 40). -/
def State.handleOne (s : State) (p : EvKind → Bool) (f : State → Sampled → State) : State :=
  match s.findEvent p with
  | some e => (f (s.dropEvent p) e).bump .MGT_CLASS_EVENTS e.cls
  | none => s

/-! ## Program faults and HERD halts (R83, R293) -/

/-- The halt of a program fault: the region stops and reports PROGRAM_FAULT. -/
def State.applyProgramFault (s : State) (k : Nat) : State := s.haltEvent (regionOf k) stPROGRAM_FAULT

def execProgramFaultHalt (core : CoreRef) (s : State) : Host.Outcome State Fault Refusal :=
  s.act (s.handleOne (fun e => e = .programFault core.key) fun s _ => s.applyProgramFault core.key)

/-- The halt of a HERD that failed (R293). -/
def State.applyHerdHalt (s : State) (k status : Nat) : State := s.haltEvent (regionOf k) status

def execHerdHalt (core : CoreRef) (s : State) : Host.Outcome State Fault Refusal :=
  s.act (s.handleOne (fun e => match e with | .herdHalt k _ => decide (k = core.key) | _ => false) fun s e =>
    match e.ev with
    | .herdHalt k st => s.applyHerdHalt k st
    | _ => s)

end Sys2Proof.Machine
end

