-- ==== Sys2Proof/Machine/Access.lean ====
section
/-! DEFINITION. Machine/Access.lean: the device address space (R92, R93, R255 to R279, R322, R554): which range an address
lies in, whether a requester may use it, where its bytes lie, and one access served. -/

namespace Sys2Proof.Machine

/-! ## HBM (R256, R257) -/

/-- Entry n of MEM_PAGE: the fields of the half it lies in. -/
def pgOwner (n : Nat) : Fld := if n % 2 = 0 then MEM_PAGE.owner else MEM_PAGE.owner1
def pgPool (n : Nat) : Fld := if n % 2 = 0 then MEM_PAGE.pool else MEM_PAGE.pool1
def pgZeroing (n : Nat) : Fld := if n % 2 = 0 then MEM_PAGE.zeroing else MEM_PAGE.zeroing1
def pgRetired (n : Nat) : Fld := if n % 2 = 0 then MEM_PAGE.retired else MEM_PAGE.retired1
def State.pageOwner (s : State) (n : Nat) : Nat := s.get (pgOwner n) (n / 2)
def State.pagePool (s : State) (n : Nat) : Bool := s.flag (pgPool n) (n / 2)
def State.pageZeroing (s : State) (n : Nat) : Bool := s.flag (pgZeroing n) (n / 2)
def State.pageRetired (s : State) (n : Nat) : Bool := s.flag (pgRetired n) (n / 2)

/-- Device pages that use a stack page (R257): one in a local quad, four in an interleaved quad. -/
def State.pagesOf (s : State) (stack q : Nat) : List Nat :=
  let base := 98304 * (stack / 4) + 4 * q
  if s.quadMode (24576 * (stack / 4) + q) then (upto 4).map (base + ·) else [base + stack % 4]

/-- Stacks that a device page lies on. -/
def State.stacksOf (s : State) (n : Nat) : List Nat :=
  if s.quadMode (n / 4) then (upto 4).map (4 * (n / 98304) + ·) else [4 * (n / 98304) + n % 4]

/-- Is a stack fenced (R273)? -/
def State.stackFenced (s : State) (k : Nat) : Bool := bitAt (s.get MEM_STATUS.fenced) k

/-- Does a device page refuse with FENCED (R272, R273)? -/
def State.pageFenced (s : State) (n : Nat) : Bool := s.pageRetired n || (s.stacksOf n).any s.stackFenced

/-- The pages a range touches. -/
def pagesIn (a n : Nat) : List Nat := (upto ((a + n - 1) / mib2 + 1 - a / mib2)).map (a / mib2 + ·)

/-! ## CXL (R275, R276, R279) -/

def cxlStart : Nat := 0x400000000000
def cxlEnd : Nat := 0x480000000000

/-- Capacity a port contributes, in bytes (R275). -/
def State.cxlCap (s : State) (k : Nat) : Nat := s.get TIR_PORT_STATUS.capacity_gib k * gib
/-- Is a port up? -/
def State.cxlUp (s : State) (k : Nat) : Bool := s.flag TIR_PORT_STATUS.up k
/-- Is the tier offset populated (R275, R276)? -/
def State.cxlPopulated (s : State) (o : Nat) : Bool :=
  if s.mt.interleave then decide (o < 2 * min (s.cxlCap 0) (s.cxlCap 1)) else decide (o % 2 ^ 42 < s.cxlCap (o / 2 ^ 42))
/-- Are the ports that serve a tier offset up (R276, R277)? -/
def State.cxlPortUp (s : State) (o : Nat) : Bool :=
  if s.mt.interleave then s.cxlUp 0 && s.cxlUp 1 else s.cxlUp (o / 2 ^ 42)
/-- Does a page lie on a port? -/
def State.pageOnPort (s : State) (pg k : Nat) : Bool := s.mt.interleave || decide (pg / 2 ^ 21 = k)
/-- Where a byte of the tier lies in the model's memory (R276). -/
def State.cxlKey (s : State) (o : Nat) : Nat :=
  if s.mt.interleave then cxlBase (o / 4096 % 2) + (o / 8192 * 4096 + o % 4096) else cxlBase (o / 2 ^ 42) + o % 2 ^ 42

/-- The owner of the extent of a tier offset (R266). -/
def State.extentOwner (s : State) (o : Nat) : Nat :=
  let e := o / gib
  bits (s.rn .TIR_EXTENT (e / 4)) (8 * (e % 4) + 4) (8 * (e % 4))

/-- The pool slot that holds a CXL page (R279): its register is valid. -/
def State.poolSlots (s : State) : Nat := s.get TIR_POOL_COUNT.slots
def State.slotOfPage (s : State) (pg : Nat) : Option Nat :=
  (upto s.poolSlots).find? fun i => s.flag TIR_SLOT.valid i && s.get TIR_SLOT.page i = pg
/-- First byte of a pool slot's HBM page (R278). -/
def State.slotBase (s : State) (i : Nat) : Nat := (s.get TIR_POOL_BASE.page + i) * mib2
/-- Is a CXL page filling or evicting (R283, R284)? -/
def State.pageBusy (s : State) (pg : Nat) : Bool :=
  s.mt.moves.any fun m => m.page = pg && (m.kind = .evict || (m.kind = .fill && m.filling))

/-! ## Ranges of addresses (R285) -/

/-- A range taken out of a list of ranges. -/
def cutRange (l : List (Nat × Nat)) (a e : Nat) : List (Nat × Nat) :=
  l.flatMap fun r =>
    if e ≤ r.1 ∨ r.2 ≤ a then [r]
    else (if r.1 < a then [(r.1, a)] else []) ++ (if e < r.2 then [(e, r.2)] else [])
/-- Does a range meet any of the list? -/
def meetsRange (l : List (Nat × Nat)) (a e : Nat) : Bool := l.any fun r => decide (r.1 < e ∧ a < r.2)

/-! ## The detection code (R267) -/

/-- One bit of CRC-32C, polynomial 0x1EDC_6F41, most significant bit first. -/
def crcBit (r : Nat) (b : Bool) : Nat :=
  (if bitAt r 31 = b then 2 * r else (2 * r) ^^^ 0x1EDC6F41) % 2 ^ 32
/-- CRC-32C of a string of bits; initial value, bit order and final inversion are the common ones (PRESUMED, log entry 141). -/
def crc32c (bs : List Bool) : Nat :=
  let r := bs.foldl crcBit 0xFFFFFFFF
  ((upto 32).map fun i => if bitAt r (31 - i) then 0 else 2 ^ i).foldl (· + ·) 0
/-- The check bits of a burst: its 32 bytes, then bits [35:5] of its stack offset. -/
def burstCode (data : List Byte) (off : Nat) : Nat :=
  crc32c ((data.flatMap fun b => (upto 8).map fun i => bitAt b.toNat i) ++ (upto 31).map fun i => bitAt (off / 32) i)

/-- The check bits that the stack holds beside a burst, by its key over 32: the code that the last write of the burst computed,
or, where bits have flipped since, none that fits its data. -/
def State.checkBits (s : State) (b : Nat) : Option Nat :=
  if b ∈ s.mt.bad then none
  else some (burstCode (memLoad s.mem (32 * b) 32) ((hbmLocate (32 * b) false).2))

/-- The bursts of an HBM range, by key over 32, that fail their check. -/
def State.badBursts (s : State) (a n : Nat) : List Nat :=
  s.mt.bad.filter fun b => (cutAt 1024 a n).any fun c =>
    decide (s.memKey c.1 / 32 ≤ b ∧ 32 * b < s.memKey c.1 + c.2)

/-- The whole bursts of a range are written anew: their check bits fit their data (R267). -/
def State.mend (s : State) (a n : Nat) : State :=
  { s with mt := { s.mt with bad := s.mt.bad.filter fun b => !((cutAt 1024 a n).any fun c =>
      decide (s.memKey c.1 ≤ 32 * b ∧ 32 * b + 32 ≤ s.memKey c.1 + c.2)) } }

/-- A write of bytes to HBM: it computes the code of the bursts it writes whole (R267). -/
def State.hbmStore (s : State) (a : Nat) (bs : List Byte) : State := (s.store a bs).mend a bs.length

/-- Zeros with valid check bits over an HBM range (R264). -/
def State.hbmZero (s : State) (a n : Nat) : State :=
  let b := s.badBursts a n
  let s := s.zero a n
  { s with mt := { s.mt with bad := s.mt.bad.filter fun x => x ∉ b } }

/-! ## Where an address leads -/

/-- Where the bytes of a permitted access lie. -/
inductive Place where
  | hbm (addr : Nat)
  | sram (key : Nat)
  | far (off : Nat)                               -- tier offset: in the pool, page by page, or on the media (R279)
  | host (fn : Nat) (key : Nat)
  deriving DecidableEq, Repr

/-- The outcome of the checks on an access. -/
inductive Route where
  | refuse (status : Nat)
  | hold (page : Nat)
  | to (p : Place)
  deriving DecidableEq, Repr

/-- Is a range inside either bank of a context (R320)? -/
def State.inBanks (s : State) (c a n : Nat) : Bool :=
  let b := s.rn .CTX_BANK_BASE c
  let z := s.rn .CTX_BANK_SIZE c
  let d := s.rn .CTX_BANK_DELTA c
  decide (a < b + z ∧ b < a + n) || decide (a < b + d + z ∧ b + d < a + n)

/-- Is a write into the bank pair refused (R322)? A write through the shadow bank field passes. -/
def State.bankRefused (s : State) (r : Requester) (a n : Nat) (shadow : Bool) : Bool :=
  match r.ctxNum with
  | some c => s.sstate c ≠ ssIdle && !shadow && s.inBanks c a n
  | none => false

/-- May a requester use a device page (R263)? The device itself uses the pages of the pool. -/
def State.mayUse (s : State) (r : Requester) (g : Nat) : Bool :=
  r.owns (s.pageOwner g) || (r = .device && s.pagePool g)

/-- An access to the HBM tier (R255, R263, R265, R272, R273, R322) (DEDUCED, log entry 13). -/
def State.routeHbm (s : State) (r : Requester) (a n : Nat) (write shadow : Bool) : Route :=
  if !s.flag MEM_STATUS.init_done then .refuse stADDR_FAULT
  else if !r.isHost && (a % 64 ≠ 0 || n % 64 ≠ 0) then .refuse stADDR_FAULT
  else if hbmEnd < a + n then .refuse stADDR_FAULT
  else if (pagesIn a n).any fun g => !s.mayUse r g then .refuse stADDR_FAULT
  else if write && s.bankRefused r a n shadow then .refuse stADDR_FAULT
  else if (pagesIn a n).any s.pageFenced then .refuse stFENCED
  else .to (.hbm a)

/-- An access to the CXL tier (R255, R266, R276, R277, R279, R284): with the ports interleaved and one down all of it is refused;
an address that is neither resident nor moving is refused while its port is down; CXL.mem traffic is held while HCLK switches
(R525). -/
def State.routeCxl (s : State) (r : Requester) (a n : Nat) : Route :=
  let o := a - cxlStart
  let pgs := pagesIn o n
  let away (pg : Nat) : Bool := !s.pageBusy pg && (s.slotOfPage pg).isNone
  if !r.isHost && (a % 64 ≠ 0 || n % 64 ≠ 0) then .refuse stADDR_FAULT
  else if !(s.cxlPopulated o && s.cxlPopulated (o + n - 1) && pgs.all fun pg => s.cxlPopulated (pg * mib2)) then .refuse stADDR_FAULT
  else if pgs.any fun pg => !r.owns (s.extentOwner (pg * mib2)) then .refuse stADDR_FAULT
  else if s.mt.interleave && !s.cxlPortUp o then .refuse stFENCED
  else if pgs.any fun pg => away pg && !s.cxlPortUp (pg * mib2) then .refuse stFENCED
  else
    match pgs.find? s.pageBusy with
    | some pg => .hold pg
    | none => if decide (2 ∈ s.pwr.switching) && pgs.any away then .hold (o / mib2) else .to (.far o)

/-- An access to a core window (R92, R93). -/
def State.routeCore (s : State) (r : Requester) (a n : Nat) : Route :=
  let w := a - 0x7F0000000000
  let k := w / 0x200000
  let o := w % 0x200000
  let p := regionOf k
  let inside := decide (o + n ≤ spadSize) || decide (0x100000 ≤ o ∧ o + n ≤ 0x200000)
  if inside && r.owns (s.rctx p) && (s.runs p || s.rstate p = rsHalted) && s.nameable k then
    .to (.sram (sramBase (clusterOf k) (s.phys k) + o))
  else .refuse stADDR_FAULT

/-- Translation entries per function of the revision (R564). -/
def State.xlatCount (s : State) : Nat := if s.fuse.revision < 0x20 then 4096 else 16384

/-- An access to a host-memory window (R544, R554). -/
def State.routeHost (s : State) (r : Requester) (a n : Nat) (write : Bool) : Route :=
  let w := a - 0x800000000000
  let f := w / 0x1000000000
  let x := w % 0x1000000000
  let i := x / mib2
  let e := 16384 * f + i
  match r.ctxNum with
  | some c =>
    if r.isHost = false ∧ f = s.get CTX_CONFIG.function c ∧ f ≤ 16 ∧ i < s.xlatCount ∧ s.flag HIF_XLAT.valid e = true ∧
        (write = false ∨ s.flag HIF_XLAT.write e = true) ∧ (x + n - 1) / mib2 = i then
      if s.flag HIF_STATUS.link_up then .to (.host f (hostBase + s.get HIF_XLAT.host e * mib2 + x % mib2))
      else .refuse stFENCED
    else .refuse stADDR_FAULT
  | none => .refuse stADDR_FAULT

/-- The router of the mesh that a requester at the mesh sends a packet for an address to: memory port (off >> 11) & 15 of the stack
that holds its first byte (R259), port (A >> 11) & 15 of its own region for the CXL tier (R260), the router of a core window's core
(R92). Host memory is reached from its own router over the spine. -/
def State.portRouter (s : State) (r : Requester) (a : Nat) : Option (Nat × Nat) :=
  match r with
  | .mesh _ m =>
    if a < hbmEnd then some (m.val, 16 * (s.locate a).1 + (s.locate a).2 / 2048 % 16)
    else if cxlStart ≤ a ∧ a < cxlEnd then some (m.val, 16 * (m.val / 16) + a / 2048 % 16)
    else if 0x7F0000000000 ≤ a ∧ a < 0x7F0200000000 then some (m.val, clusterOf ((a - 0x7F0000000000) / 0x200000))
    else none
  | _ => none

/-- Is a packet discarded with FENCED at its source router (R173)? -/
def State.meshFenced (s : State) (r : Requester) (a : Nat) : Bool :=
  match s.portRouter r a with
  | some (x, y) => (s.courierPath x y).isNone
  | none => false

/-- The checks on an access of n bytes at a device address (R255). -/
def State.route (s : State) (r : Requester) (a n : Nat) (write : Bool) (shadow : Bool := false) : Route :=
  if s.meshFenced r a then .refuse stFENCED
  else if a < hbmEnd then s.routeHbm r a n write shadow
  else if cxlStart ≤ a ∧ a < cxlEnd then s.routeCxl r a n
  else if 0x7F0000000000 ≤ a ∧ a < 0x7F0200000000 then s.routeCore r a n
  else if 0x800000000000 ≤ a then s.routeHost r a n write
  else .refuse stADDR_FAULT

/-! ## Serving an access -/

/-- Count bytes served by the stacks (R287). -/
def State.countHbm (s : State) (reg : Reg) (a n : Nat) : State :=
  (cutAt 1024 a n).foldl (fun (s : State) c => s.bump reg (s.locate c.1).1 c.2) s

/-- Bytes of the CXL media. -/
def State.cxlLoad (s : State) (o n : Nat) : List Byte := (cutAt 4096 o n).flatMap fun c => s.load (s.cxlKey c.1) c.2
def State.cxlStore (s : State) (o : Nat) (bs : List Byte) : State :=
  (cutAt 4096 o bs.length).foldl (fun (s : State) c => s.store (s.cxlKey c.1) ((bs.drop (c.1 - o)).take c.2)) s

/-- The pieces of a range of the CXL tier, cut at its pages: first byte, length, the pool slot that holds it (R279). -/
def State.farPieces (s : State) (o n : Nat) : List (Nat × Nat × Option Nat) :=
  (cutAt mib2 o n).map fun c => (c.1, c.2, s.slotOfPage (c.1 / mib2))

/-- The HBM address of a byte of a page in a slot. -/
def State.slotAddr (s : State) (i o : Nat) : Nat := s.slotBase i + o % mib2

/-- The bytes at a place. -/
def State.peek (s : State) (p : Place) (n : Nat) : List Byte :=
  match p with
  | .hbm a => s.load a n
  | .sram k => s.load k n
  | .far o => (s.farPieces o n).flatMap fun c => match c.2.2 with
    | some i => s.load (s.slotAddr i c.1) c.2.1
    | none => s.cxlLoad c.1 c.2.1
  | .host _ k => s.load k n

/-- The HBM ranges that serve an access at a place. -/
def State.hbmRanges (s : State) (p : Place) (n : Nat) : List (Nat × Nat) :=
  match p with
  | .hbm a => [(a, n)]
  | .far o => (s.farPieces o n).filterMap fun c => c.2.2.map fun i => (s.slotAddr i c.1, c.2.1)
  | _ => []

/-- The ranges of the media that serve it, as tier offsets (first byte, end). -/
def State.mediaRanges (s : State) (p : Place) (n : Nat) : List (Nat × Nat) :=
  match p with
  | .far o => ((s.farPieces o n).filter fun c => c.2.2.isNone).map fun c => (c.1, c.1 + c.2.1)
  | _ => []

/-- An access served from a pool slot sets its age to 0 (R281). -/
def State.touchSlot (s : State) (i : Nat) : State := s.put TIR_SLOT.age i 0
def State.touchSlots (s : State) (p : Place) (n : Nat) : State :=
  match p with
  | .far o => (s.farPieces o n).foldl (fun (s : State) c => c.2.2.elim s s.touchSlot) s
  | _ => s

/-- The counts of a read (R281, R287, R566). -/
def State.countRead (s : State) (p : Place) (n : Nat) : State :=
  let s := (s.hbmRanges p n).foldl (fun (s : State) c => s.countHbm .MEM_READ_BYTES c.1 c.2) s
  match p with
  | .host f _ => s.bump .HIF_DMA_READ_BYTES f n
  | p => s.touchSlots p n

/-- Sub-blocks of 64 KiB that a range of a page touches, as a mask (R279). -/
def subMask (o n : Nat) : Nat := maskOf ((cutAt 65536 (o % mib2) n).map fun c => c.1 / 65536)

/-- Write bytes at a place (R279, R285: a write replaces poison). -/
def State.poke (s : State) (p : Place) (bs : List Byte) : State :=
  match p with
  | .hbm a => (s.hbmStore a bs).countHbm .MEM_WRITE_BYTES a bs.length
  | .sram k => s.store k bs
  | .far o => (s.farPieces o bs.length).foldl (fun (s : State) c =>
      let part := (bs.drop (c.1 - o)).take c.2.1
      match c.2.2 with
      | some i =>
        (((s.hbmStore (s.slotAddr i c.1) part).countHbm .MEM_WRITE_BYTES (s.slotAddr i c.1) part.length).touchSlot i).put
          TIR_SLOT_DIRTY.dirty i (s.get TIR_SLOT_DIRTY.dirty i ||| subMask c.1 part.length)
      | none => { s.cxlStore c.1 part with mt := { s.mt with poison := cutRange s.mt.poison c.1 (c.1 + part.length) } }) s
  | .host f k => (s.store k bs).bump .HIF_DMA_WRITE_BYTES f bs.length

/-- The outcome of an access. -/
inductive Reply where
  | data (bs : List Byte)
  | ack
  | failed (status : Nat)
  | held
  deriving DecidableEq, Repr

/-- Is a detection of the burst waiting for its tick (R286)? -/
def State.detected (s : State) (stack off : Nat) : Bool :=
  (s.seq.sampled ++ s.seq.carried ++ s.seq.offered).any fun e => e.ev = .detection stack off

/-- Record a failed read of HBM (R268), once for a burst until its page is retired (R286): the register holds the first until
software clears it; the event is class 5. -/
def State.detect (s : State) (stack off : Nat) (scrub : Bool) : State :=
  let b := stackKey stack off / 32
  let s : State := if b ∈ s.mt.bad then s else { s with mt := { s.mt with bad := s.mt.bad ++ [b] } }
  if s.detected stack off then s
  else
    let s := if s.flag MEM_LAST_DETECT.valid then s else
      ((((s.put MEM_LAST_DETECT.offset 0 off).put MEM_LAST_DETECT.stack 0 stack).put MEM_LAST_DETECT.at_rest 0 1).put
        MEM_LAST_DETECT.scrub 0 (if scrub then 1 else 0)).signal MEM_LAST_DETECT.valid
    (s.bump .MEM_AT_REST stack).sample 5 (24576 * stack + off / mib2) (.detection stack off)

/-- Every burst of the HBM ranges that fails its check is read again and detected (R268). -/
def State.detectIn (s : State) (l : List (Nat × Nat)) : State :=
  (l.flatMap fun c => s.badBursts c.1 c.2).foldl (fun (s : State) b =>
    s.detect (hbmLocate (32 * b) false).1 (hbmLocate (32 * b) false).2 false) s
def State.badIn (s : State) (l : List (Nat × Nat)) : Bool := l.any fun c => !(s.badBursts c.1 c.2).isEmpty

/-- The HBM address of the burst that stands `bad` bursts into an access. -/
def State.burstAt (s : State) (p : Place) (bad : Nat) : Option Nat :=
  match p with
  | .hbm h => some (h / 32 * 32 + 32 * bad)
  | .far o =>
    let x := o / 32 * 32 + 32 * bad
    (s.slotOfPage (x / mib2)).map fun i => s.slotAddr i x
  | _ => none

/-- A burst fails its check once, and passes on retry, or twice (R268). -/
def State.readCheck (s : State) (a fails : Nat) : State :=
  let l := s.locate a
  if fails = 0 then s else if fails = 1 then s.bump .MEM_RETRY_OK l.1 else s.detect l.1 l.2 false

/-- Count the flits of a packet and its reply, and their detours, between a requester at the mesh and the memory side (R168, R190). -/
def State.countMesh (s : State) (r : Requester) (a out back : Nat) : State :=
  match s.portRouter r a with
  | some (x, y) =>
    let leg (s : State) (x y n : Nat) : State :=
      match s.courierPath x y with
      | some (path, det) =>
        let s := s.countFlits .NOC_COURIER_FLITS (x :: path) n
        if det then s.bump .NOC_DETOURS x else s
      | none => s
    leg (leg s x y out) y x back
  | none => s

/-- Serve a read of n bytes. `bad` and `fails`: the burst of 32 B that fails the detection code, and how often (R268);
`poison`: the CXL device returns poison (R277). -/
def State.serveRead (s : State) (r : Requester) (a n : Nat) (bad fails : Nat := 0) (poison : Bool := false) : State × Reply :=
  match s.route r a n false with
  | .refuse st => (s, .failed st)
  | .hold _ => (s, .held)
  | .to p =>
    let s1 := match s.burstAt p bad with
      | some h => (s.countRead p n).readCheck h fails
      | none => s.countRead p n
    let twice := (s.burstAt p bad).isSome && decide (2 ≤ fails)
    if s.badIn (s.hbmRanges p n) || twice then (s1.detectIn (s.hbmRanges p n), .failed stMEM_ERROR)
    else if (s.mediaRanges p n).any fun c => poison || meetsRange s.mt.poison c.1 c.2 then
      (s1.bump .TIR_POISON_READS, .failed stMEM_ERROR)
    else (s1.countMesh r a 0 (ceilDiv n 32), .data (s.peek p n))

/-- Serve a write. -/
def State.serveWrite (s : State) (r : Requester) (a : Nat) (bs : List Byte) (shadow : Bool := false) : State × Reply :=
  match s.route r a bs.length true shadow with
  | .refuse st => (s, .failed st)
  | .hold _ => (s, .held)
  | .to p => ((s.poke p bs).countMesh r a (ceilDiv bs.length 32) 0, .ack)

end Sys2Proof.Machine
end

