-- ==== Sys2Proof/Machine/Torus.lean ====
section
/-! DEFINITION. Machine/Torus.lean: coordinates of the job torus (R429 to R431, R437), flocks (R449), ports by role (R418). -/

namespace Sys2Proof.Machine

/-- Byte a of a coordinate word: X, Y, Z, W for 0 to 3 (R455). -/
def coordOf (c a : Nat) : Nat := bits c (8 * a + 7) (8 * a)
/-- A coordinate word with byte a replaced. -/
def setCoord (c a v : Nat) : Nat := putBits c (8 * a + 7) (8 * a) v
/-- Ring size of an axis (R429, R455). -/
def State.ring_ (s : State) (a : Nat) : Nat := coordOf (s.rn .LNK_JOB_DIMS) a + 1
/-- Packages of the job. -/
def State.jobSize (s : State) : Nat := ((upto 4).map s.ring_).foldl (· * ·) 1
/-- This package's coordinate. -/
def State.coord (s : State) : Nat := s.rn .LNK_JOB_COORD
/-- Linear position of a coordinate, X varying fastest (R445). -/
def State.linear (s : State) (c : Nat) : Nat :=
  coordOf c 0 + s.ring_ 0 * (coordOf c 1 + s.ring_ 1 * (coordOf c 2 + s.ring_ 2 * coordOf c 3))
/-- The coordinate of a linear position. -/
def State.unlinear (s : State) (n : Nat) : Nat :=
  n % s.ring_ 0 + 256 * (n / s.ring_ 0 % s.ring_ 1) + 65536 * (n / (s.ring_ 0 * s.ring_ 1) % s.ring_ 2) +
    16777216 * (n / (s.ring_ 0 * s.ring_ 1 * s.ring_ 2))
/-- Is a coordinate within the ring sizes? -/
def State.coordOk (s : State) (c : Nat) : Bool := (upto 4).all fun a => decide (coordOf c a < s.ring_ a)
/-- The neighbour along an axis (R430). -/
def State.nbr (s : State) (c a : Nat) (plus : Bool) : Nat :=
  let n := s.ring_ a
  setCoord c a ((coordOf c a + (if plus then 1 else n - 1)) % n)

/-- Is the job one of this package? -/
def State.joined (s : State) : Bool := s.flag LNK_STATUS.joined

/-! ## Ports -/

/-- The port that holds a role. -/
def State.portOf (s : State) (role : Nat) : Option Nat := (upto 9).find? fun k => s.get LNK_PORT_CFG.role k = role
/-- Is a port up (recalibrating counts, R427)? -/
def State.portUp (s : State) (k : Nat) : Bool := s.get LNK_PORT_STATUS.state k = 2 || s.get LNK_PORT_STATUS.state k = 4
/-- A port's state, and its change. -/
def State.port (s : State) (k : Nat) : PortState := spGet {} s.lnk.ports k
def State.setPort (s : State) (k : Nat) (p : PortState) : State := { s with lnk := { s.lnk with ports := spSet {} s.lnk.ports k p } }
/-- Does a port run an Ethernet mode (R419), the mode taken at its last training (R421)? -/
def State.portEth (s : State) (k : Nat) : Bool := decide (2 ≤ (s.port k).mode)
/-- Credits of class C, K and P at the receiver, in flits of 256 B: 16, 512 and 256 KiB (R423). -/
def linkCredits (cls : Nat) : Nat := match cls with | 0 => 64 | 1 => 2048 | _ => 1024

/-- May a flit of a class leave: one waits, its class has a credit, the replay buffer holds fewer than 1,024 flits (R423, R424)? An
acknowledgement returns a flit's credit (DESIGN CHOICE, log entry 165). -/
def PortState.canSend (p : PortState) (cls : Nat) : Bool :=
  decide (0 < p.wait.getD cls 0) && decide ((p.unacked.filter (· = cls)).length < linkCredits cls) && decide (p.unacked.length < 1024)

/-- The class of the next flit (R423): C whenever it has any; else K in three cycles of four and P in the fourth, a cycle that its
class cannot use going to the other. -/
def PortState.nextClass (p : PortState) : Option Nat :=
  let own := if p.turn < 3 then 1 else 2
  if p.canSend 0 then some 0 else if p.canSend own then some own else if p.canSend (3 - own) then some (3 - own) else none

/-- One flit leaves. -/
def PortState.sendFlit (p : PortState) (cls : Nat) : PortState :=
  { p with
    wait := p.wait.set cls (p.wait.getD cls 0 - 1), unacked := p.unacked ++ [cls], txNext := p.txNext + 1
    turn := if cls = 0 then p.turn else (p.turn + 1) % 4 }

/-- Flits leave until none may; how many did. -/
def PortState.sendAll (p : PortState) : Nat → PortState × Nat
  | 0 => (p, 0)
  | f + 1 =>
    match p.nextClass with
    | some cls =>
      let r := (p.sendFlit cls).sendAll f
      (r.1, r.2 + 1)
    | none => (p, 0)

/-- A port sends what it may. -/
def State.drainPort (s : State) (k : Nat) : State :=
  let r := (s.port k).sendAll (1024 - (s.port k).unacked.length)
  (s.setPort k r.1).bump .LNK_TX_BYTES k (240 * r.2)

/-- n flits of a class, of 240 B payload each, are handed to a port (R422). -/
def State.txFlits (s : State) (k n : Nat) (cls : Nat := 0) : State :=
  let p := s.port k
  (s.setPort k { p with wait := p.wait.set cls (p.wait.getD cls 0 + n) }).drainPort k

/-- The neighbour has received in order every flit up to ack (R422, R424). -/
def State.ackFlits (s : State) (k : Nat) (ack : BitVec 24) : State :=
  let p := s.port k
  if seqAfter (ack + 1) p.txAck then
    (s.setPort k { p with txAck := ack + 1, unacked := p.unacked.drop (ack + 1 - p.txAck).toNat }).drainPort k
  else s

/-- Flits on the port that holds a role, if that is up. -/
def State.txRole (s : State) (role : Nat) (n : Nat := 1) (cls : Nat := 0) : State :=
  match s.portOf role with
  | some k => if s.portUp k then s.txFlits k n cls else s
  | none => s

/-- The role of the first hop towards a coordinate (R431): axes in the order X, Y, Z, W, the shorter way round, + when equal;
none when it is this package's own. -/
def State.firstHop (s : State) (c : Nat) : Option Nat :=
  ((upto 4).find? fun a => coordOf c a ≠ coordOf s.coord a).map fun a =>
    let n := s.ring_ a
    let up := (coordOf c a + n - coordOf s.coord a) % n
    2 * a + if up ≤ n - up then 0 else 1

/-- A message of n flits leaves for a coordinate on the first port of its path (R431). -/
def State.sendTo (s : State) (c : Nat) (o : Output) (n : Nat := 1) (cls : Nat := 0) : State :=
  match s.firstHop c with
  | some r => (s.emit o).txRole r n cls
  | none => s.emit o

/-- May a peer write leave for a coordinate (R235, R433): joined, and the first port on its path in a Sutorun mode? -/
def State.peerPath (s : State) (c : Nat) : Bool :=
  s.joined && s.coordOk c &&
    match s.firstHop c with
    | none => true
    | some r => ((s.portOf r).map fun k => !s.portEth k).getD false

/-! ## Flocks (R449) -/

/-- Block size of an axis. -/
def State.blk (s : State) (a : Nat) : Nat := coordOf (s.rn .LNK_FLOCK) a + 1
/-- The first coordinate of a coordinate's flock. -/
def State.flockBase (s : State) (c : Nat) : Nat :=
  (upto 4).foldl (fun m a => setCoord m a (coordOf c a / s.blk a * s.blk a)) 0
/-- Offset of the shepherd along an axis. -/
def State.shepOff (s : State) (a : Nat) : Nat := s.blk a / 2
/-- The shepherd of a coordinate's flock. -/
def State.shepherdOf (s : State) (c : Nat) : Nat :=
  (upto 4).foldl (fun m a => setCoord m a (coordOf (s.flockBase c) a + s.shepOff a)) 0
/-- The deputy: along the first axis with a block above one, one position before the shepherd; none in a flock of one. -/
def State.deputyOf (s : State) (c : Nat) : Option Nat :=
  ((upto 4).find? fun a => decide (1 < s.blk a)).map fun a =>
    setCoord (s.shepherdOf c) a (coordOf (s.flockBase c) a + (s.shepOff a + s.blk a - 1) % s.blk a)
/-- Is a coordinate in the flock of another? -/
def State.sameFlock (s : State) (c d : Nat) : Bool := s.flockBase c = s.flockBase d

/-- A failure record goes to the shepherd of the package's flock (R450, R469). -/
def State.sendFailure (s : State) (row : Nat) : State := s.sendTo (s.shepherdOf s.coord) (.failure row s.coord)

end Sys2Proof.Machine
end

