-- ==== Sys2Proof/Machine/Memory.lean ====
section
/-! DEFINITION. Machine/Memory.lean: the HBM tier (R255 to R273, R286): reads and writes at the memory ports, the detection
code, retirement and stack fences, page ownership, zeroing, quad modes; and the fault records that fences write (R457 to R462). -/

namespace Sys2Proof.Machine

/-! ## Registers of one function alone (R19, R552) -/

/-- An access that R19 completes with all ones or discards. -/
def State.badAccess (s : State) (fn : Func) : State := s.bump .HIF_BAD_ACCESS fn.val

/-- Do the function's BARs decode (R549)? -/
def State.decodes (s : State) (fn : Func) : Bool := decide (fn.val ∉ s.hif.d3)

/-- A write to a register that the physical function alone sees. -/
def State.pfWrite (s : State) (fn : Func) (f : State → State) : State :=
  if !s.decodes fn then s else if fn.val = 0 then f s else s.badAccess fn

/-- A write of a command register of the physical function is sampled (R46, R495: class 9, source 64) (DEDUCED, log entry 101). -/
def State.pfSample (s : State) (fn : Func) (c : Instr) : State := s.pfWrite fn fun s => s.sampleRow 9 64 c

/-! ## Fault records (R457 to R462) -/

/-- The job's context, if the package serves one (R429, R455) (DEDUCED, log entry 81). -/
def State.jobCtx (s : State) : Option Nat :=
  let c := s.get LNK_JOB_CTX.context
  if c < 31 ∧ s.ctxExists c then some c else none

/-- Decide a record of the fault history; FAULT_HISTORY_WRITE puts it into NOR (R457, R459). -/
def State.recordFault (s : State) (kind action cause index : Nat) : State :=
  { s with flt := { s.flt with queue := s.flt.queue ++
      [{ kind := kind, action := action, cause := cause, index := index, service := s.rn .FLT_SERVICE_S,
         step := (s.jobCtx.map fun c => s.rn .CTX_STEP c).getD 0 }] } }

/-- A strike against a unit (R460); FLT_LAST holds the first until software clears it (DEDUCED, log entry 17). -/
def State.strike (s : State) (kind index cause : Nat) : State :=
  let s := if s.flag FLT_LAST.valid then s else
    (((s.put FLT_LAST.kind 0 kind).put FLT_LAST.index 0 index).put FLT_LAST.cause 0 cause).signal FLT_LAST.valid
  (s.bump .FLT_STRIKES).recordFault kind 1 cause index

/-- Strikes of the last 720 service hours against units that satisfy p. -/
def State.strikes (s : State) (kind : Nat) (p : Nat → Bool) : Nat :=
  ((s.nor.logA ++ s.flt.queue).filter fun r =>
    r.kind = kind && r.action = 1 && p r.index && decide (s.rn .FLT_SERVICE_S < r.service + 720 * 3600)).length

/-- Classify a unit as failing (R462). -/
def State.classify (s : State) (kind index : Nat) : State :=
  if (kind, index) ∈ s.flt.failing then s
  else { s with flt := { s.flt with failing := s.flt.failing ++ [(kind, index)] } }

/-- Sample an event unless the same one is sampled already. -/
def State.sampleOnce (s : State) (cls src : Nat) (ev : EvKind) : State :=
  if (s.seq.sampled ++ s.seq.carried ++ s.seq.offered).any fun e => e.ev = ev then s else s.sample cls src ev

/-! ## Pool slots (R278, R279, R285) -/

/-- Empty a slot: its registers read as reset. -/
def State.emptySlot (s : State) (i : Nat) : State := (s.wr .TIR_SLOT i (Reg.reset .TIR_SLOT i)).wn .TIR_SLOT_DIRTY i 0

/-- End a tier command: its status goes to its issuer (R280). -/
def State.endTier (s : State) (cmds : List (Issuer × Nat)) (status : Nat) : State :=
  cmds.foldl (fun (s : State) c =>
    match c.1 with
    | .ring .. => s.complete c.1 0x0B status
    | .reg _ => (s.put TIR_CMD_STATUS.status 0 status).put TIR_CMD_STATUS.busy 0 0) s

/-- Answer an access. -/
def State.answer (s : State) (r : Requester) (a : Nat) (rep : Reply) : State :=
  match rep with
  | .data bs => s.emit (.memReply r a stOK bs)
  | .ack => s.emit (.memReply r a stOK [])
  | .failed st => s.emit (.memReply r a st [])
  | .held => s

/-- Are a stack's accesses held at its memory port: its PHY is recalibrated, or its MCLK switches (R503, R525)? -/
def State.stackHeld (s : State) (k : Nat) : Bool := decide (k ∈ s.mt.recal) || (decide (8 ≤ k) && decide (1 ∈ s.pwr.switching))

/-- Does a stack that serves one of the HBM ranges hold its accesses? -/
def State.rangesHeld (s : State) (l : List (Nat × Nat)) : Bool :=
  l.any fun c => (cutAt 1024 c.1 c.2).any fun x => s.stackHeld (s.locate x.1).1

/-- Would an access reach a stack whose port holds it? (DEDUCED, log entry 132). -/
def State.portHolds (s : State) (r : Requester) (a n : Nat) (write : Bool) : Bool :=
  match s.route r a n write with
  | .to p => s.rangesHeld (s.hbmRanges p n)
  | _ => false

/-- Serve a read, or a write, that waits with its agent where a memory port holds it (R261, R503, R525). -/
def State.readNow (s : State) (r : Requester) (a n : Nat) (bad fails : Nat := 0) (poison : Bool := false) : State × Reply :=
  if s.portHolds r a n false then (s, .held) else s.serveRead r a n bad fails poison
def State.writeNow (s : State) (r : Requester) (a : Nat) (bs : List Byte) (shadow : Bool := false) : State × Reply :=
  if s.portHolds r a bs.length true then (s, .held) else s.serveWrite r a bs shadow

/-- Serve an access, or hold it at the tier mover (R284) or at a memory port (R503, R525). -/
def State.serve (s : State) (h : Held) (bad fails : Nat := 0) (poison : Bool := false) : State :=
  if s.portHolds h.req h.addr h.len h.data.isSome then { s with mt := { s.mt with portHeld := s.mt.portHeld ++ [h] } }
  else
    let (s', rep) := match h.data with
      | none => s.serveRead h.req h.addr h.len bad fails poison
      | some bs => s.serveWrite h.req h.addr bs h.shadow
    match rep with
    | .held => { s with mt := { s.mt with held := s.mt.held ++ [h] } }
    | rep => if h.engine then s' else s'.answer h.req h.addr rep
def State.access (s : State) (r : Requester) (a n : Nat) (data : Option (List Byte)) (bad fails : Nat := 0)
    (poison : Bool := false) : State :=
  s.serve { req := r, addr := a, len := n, data := data, since := s.now } bad fails poison

/-- The pages of a held access. -/
def Held.pages (h : Held) : List Nat := pagesIn (h.addr - cxlStart) h.len

/-- Is a held access free to go: none of its pages moves, and HCLK does not switch (R284, R525)? -/
def State.heldFree (s : State) (h : Held) : Bool := (h.pages.all fun pg => !s.pageBusy pg) && decide (2 ∉ s.pwr.switching)

/-- Serve the accesses that were held for a page and now may go, in order of arrival (R284). -/
def State.serveHeld (s : State) (pg : Nat) : State :=
  let go (h : Held) : Bool := decide (pg ∈ h.pages) && s.heldFree h
  (s.mt.held.filter go).foldl (fun (s : State) h => s.serve h)
    { s with mt := { s.mt with held := s.mt.held.filter fun h => !go h } }

/-- The same where another event ends the holding: TIR_HOLD_NCLK advances by the ticks since its first held access came, at 256
NCLK each (DESIGN CHOICE, log entry 149). -/
def State.endHeld (s : State) (pg : Nat) : State :=
  match s.mt.held.find? fun h => decide (pg ∈ h.pages) && s.heldFree h with
  | some h => (s.bump .TIR_HOLD_NCLK 0 (256 * (s.now - h.since))).serveHeld pg
  | none => s

/-- Accesses held at memory ports that hold them no longer are served, in order of arrival (R503, R525). -/
def State.servePorts (s : State) : State :=
  s.mt.portHeld.foldl (fun (s : State) h => s.serve h)
    { s with mt := { s.mt with portHeld := [] } }

/-- Poison a sub-block of a CXL page (R285), at once or when its port is up. -/
def State.poisonSub (s : State) (pg sub : Nat) : State :=
  let o := pg * mib2 + sub * 65536
  if s.cxlPortUp o then { s with mt := { s.mt with poison := cutRange s.mt.poison o (o + 65536) ++ [(o, o + 65536)] } }
  else { s with mt := { s.mt with poisonDue := s.mt.poisonDue ++ [(pg, sub)] } }

/-- A pool slot's data is lost (R285, R286): dirty sub-blocks are poisoned, a fill into it completes with FENCED, the slot is
emptied; an eviction or flush that had not begun has nothing left to write. -/
def State.poolLoss (s : State) (i : Nat) : State :=
  if !s.flag TIR_SLOT.valid i && !s.mt.moves.any (fun m => m.slot = i) then s
  else
    let pg := s.get TIR_SLOT.page i
    let subs := unmask 32 (s.get TIR_SLOT_DIRTY.dirty i)
    let s := (subs.foldl (fun (s : State) b => s.poisonSub pg b) s).bump .TIR_LOST_SUBBLOCKS 0 subs.length
    let ended (m : Move) : Bool := m.slot = i && (m.kind = .fill || !m.started)
    let gone := s.mt.moves.filter ended
    let s := ({ s with mt := { s.mt with moves := s.mt.moves.filter fun m => !ended m } } : State).emptySlot i
    let s := gone.foldl (fun (s : State) m => s.endTier m.cmds (if m.kind = .fill then stFENCED else stOK)) s
    gone.foldl (fun (s : State) m => s.endHeld m.page) s

/-- Writes to pool slots that satisfy p and that a memory port holds are discarded, refused with FENCED; their sub-blocks count as
dirty, so the loss of the slot poisons them (R286). -/
def State.discardPoolWrites (s : State) (p : Nat → Bool) : State :=
  let hit (h : Held) : Bool := h.data.isSome && decide (cxlStart ≤ h.addr ∧ h.addr < cxlEnd) &&
    (s.farPieces (h.addr - cxlStart) h.len).any fun c => c.2.2.elim false p
  let l := s.mt.portHeld.filter hit
  let s : State := { s with mt := { s.mt with portHeld := s.mt.portHeld.filter fun h => !hit h } }
  l.foldl (fun (s : State) h =>
    ((s.farPieces (h.addr - cxlStart) h.len).foldl (fun (s : State) c => match c.2.2 with
      | some i => s.put TIR_SLOT_DIRTY.dirty i (s.get TIR_SLOT_DIRTY.dirty i ||| subMask c.1 c.2.1)
      | none => s) s).answer h.req h.addr (.failed stFENCED)) s

/-- Pool slots whose page satisfies p. -/
def State.slotsOn (s : State) (p : Nat → Bool) : List Nat :=
  (upto s.poolSlots).filter fun i => p (s.get TIR_POOL_BASE.page + i)

/-! ## Owners (R263, R269) -/

/-- The device pages that MEM_PAGE lists with an owner. -/
def State.ownedPages (s : State) : List Nat :=
  (s.regs.filter fun e => e.1 % 512 = Reg.num .MEM_PAGE).flatMap fun e =>
    [2 * (e.1 / 512), 2 * (e.1 / 512) + 1].filter fun n => s.pageOwner n ≠ 0x1F

/-- Set the fence bit of every owner of a page that satisfies p (R269), and report the failure path of R470: relocation where
the page is of the committed bank of the job's context. -/
def State.lostPages (s : State) (p : Nat → Bool) : State :=
  let ns := s.ownedPages.filter p
  let os := (upto 31).filter fun c => ns.any fun n => s.pageOwner n = c
  let s := os.foldl (fun (s : State) c => s.voteBit c vbFence) s
  match s.jobCtx with
  | some c =>
    let b := s.rn .CTX_BANK_BASE c + s.get CTX_STEP_STATE.sel c * s.rn .CTX_BANK_DELTA c
    if ns.any fun n => s.pageOwner n = c && decide (n * mib2 < b + s.rn .CTX_BANK_SIZE c ∧ b < (n + 1) * mib2) then
      s.sendFailure 4
    else s
  | none => s

/-- The pages of a pool range (R278). -/
def poolPages (base count : Nat) : List Nat := (upto count).map (base + ·)

/-! ## Stack fences and retirement (R272, R273) -/

/-- Fence a stack (R273): its pages are refused from now on, pool slots on it are lost (R285), the owners' vote bits set
(R269), the history records it. -/
def State.fenceStack (s : State) (k cause : Nat) : State :=
  if s.stackFenced k then s
  else
    let s := s.put MEM_STATUS.fenced 0 (s.get MEM_STATUS.fenced ||| 2 ^ k)
    let on (n : Nat) : Bool := decide (k ∈ s.stacksOf n)
    let s := s.discardPoolWrites fun i => on (s.get TIR_POOL_BASE.page + i)
    let s := (s.slotsOn on).foldl (fun (s : State) i => s.poolLoss i) s
    let s := if cause = 0x05 then s.classify 3 k else s
    (s.lostPages on).recordFault 3 2 cause k

/-- The limit in force (R287). -/
def State.retireLimit (s : State) : Nat := s.rn .MEM_RETIRE_LIMIT

/-- Retire a stack page (R272): the device pages that use it are retired, the history records it, and a stack that reaches the
limit is fenced at this tick (R273). -/
def State.retirePage (s : State) (k q : Nat) : State :=
  if (k, q) ∈ s.mt.retired then s
  else
    let pages := s.pagesOf k q
    let s := { s with mt := { s.mt with retired := s.mt.retired ++ [(k, q)] } }
    let s := s.put MEM_STACK_RETIRED.pages k (s.get MEM_STACK_RETIRED.pages k + 1)
    let s := pages.foldl (fun (s : State) n => s.put (pgRetired n) (n / 2) 1) s
    let s := (s.slotsOn fun n => decide (n ∈ pages)).foldl (fun (s : State) i => s.poolLoss i) s
    let s := (s.lostPages fun n => decide (n ∈ pages)).recordFault 2 5 0x04 (24576 * k + q)
    if s.retireLimit ≤ s.get MEM_STACK_RETIRED.pages k then s.fenceStack k 0x04 else s

/-- A detection at rest is handled (R268, R269, R272, R462): a strike of the stack page, retirement, and the fence of a stack
with eight detections in 720 service hours (DEDUCED, log entry 135). -/
def State.applyDetection (s : State) (k off : Nat) : State :=
  let s := (s.strike 2 (24576 * k + off / mib2) 0x04).retirePage k (off / mib2)
  if 8 ≤ s.strikes 2 (fun i => i / 24576 = k) then (s.classify 3 k).fenceStack k 0x04 else s

def execDetectionAtRest (stack : Fin 16) (quad : Fin 24576) (s : State) : Host.Outcome State Fault Refusal :=
  s.act (s.handleOne (fun e => match e with
      | .detection k o => decide (k = stack.val ∧ o / mib2 = quad.val)
      | _ => false) fun s e => match e.ev with
    | .detection k o => s.applyDetection k o
    | _ => s)

/-- Cause code of a stack fence (R459, R273): the limit, a fatal condition, failed training, the fault manager
(DEDUCED, log entry 15). -/
def stackCause (why : Fin 4) : Nat := match why with | 0 => 0x04 | 1 => 0x01 | 2 => 0x09 | 3 => 0x0A

/-- STACK_FENCE: the fence of a stack is sampled in class 5 (R46, R273, R495). -/
def execStackFence (stack : Fin 16) (why : Fin 4) (s : State) : Host.Outcome State Fault Refusal :=
  s.act (s.sampleOnce 5 (393216 + stack.val) (.stackFence stack.val (stackCause why)))

/-! ## Reads and writes -/

/-- A stack whose retries reach 64 in a service hour is classified failing (R462). -/
def State.checkRetry (s : State) (k : Nat) : State :=
  if 64 ≤ s.rn .MEM_RETRY_OK k - spGet 0 s.flt.retry0 k ∧ s.stackFenced k = false then
    s.sampleOnce 5 (393216 + k) (.stackFence k 0x05)
  else s

/-- MEMORY_READ: a read of n bytes; burst `bad` fails the detection code `fails` times (R268). -/
def execMemoryRead (req : Requester) (addr len : Nat) (bad : Nat) (fails : Fin 3) (s : State) :
    Host.Outcome State Fault Refusal :=
  s.act ((s.access req addr len none bad fails.val).checkRetry (s.locate (addr + 32 * bad)).1)

/-- Bursts of an access, counted from its first, whose stored bits flip after the write: reads of them fail the detection code
(R267, R268) (DESIGN CHOICE, log entry 151). -/
def State.flipBursts (s : State) (req : Requester) (addr n : Nat) (flips : List Nat) : State :=
  match s.route req addr n true with
  | .to p =>
    let ks := flips.filterMap fun f => if 32 * f < n then (s.burstAt p f).map fun a => s.memKey a / 32 else none
    { s with mt := { s.mt with bad := s.mt.bad ++ (ks.filter fun b => b ∉ s.mt.bad) } }
  | _ => s

/-- MEMORY_WRITE: a write; it is acknowledged in the controller's queue and every later read returns it (R261). -/
def execMemoryWrite (req : Requester) (addr : Nat) (data : WriteData) (s : State) : Host.Outcome State Fault Refusal :=
  let n := data.bytes.length
  s.act ((s.access req addr n (some data.bytes)).flipBursts req addr n data.flips)

/-- SCRUB_READ (R270): the burst at a stack offset. -/
def execScrubRead (stack : Fin 16) (off : Nat) (fails : Fin 3) (s : State) : Host.Outcome State Fault Refusal :=
  s.act (if s.rn .MEM_SCRUB_HOURS = 0 ∨ s.stackFenced stack.val ∨ (stack.val, off / mib2) ∈ s.mt.retired ∨ 48 * gib ≤ off then s
    else if fails = 2 ∨ stackKey stack.val off / 32 ∈ s.mt.bad then s.detect stack.val (off / 32 * 32) true
    else if fails = 1 then (s.bump .MEM_RETRY_OK stack.val).checkRetry stack.val
    else s)

/-! ## Ownership, zeroing, modes (R258, R263 to R265) -/

/-- Write one page's owner (R264). -/
def State.setOwner (s : State) (n o : Nat) : State :=
  let old := s.pageOwner n
  if s.pagePool n || s.pageZeroing n then s
  else if old = 0x1F ∧ o ≠ 0x1F then (if s.pageRetired n then s else s.put (pgOwner n) (n / 2) o)
  else if old ≠ 0x1F ∧ o = 0x1F then
    let s := s.put (pgOwner n) (n / 2) 0x1F
    if s.pageRetired n then s else s.put (pgZeroing n) (n / 2) 1
  else s

/-- MEM_PAGE_OWNER_WRITE: a word of MEM_PAGE holds two entries; it is written at the tick (R286). -/
def State.applyMemPageOwnerWrite (word : Nat) (value : Word) (s : State) : State :=
  (s.setOwner (2 * word) (bits value.toNat 4 0)).setOwner (2 * word + 1) (bits value.toNat 20 16)
def execMemPageOwnerWrite (fn : Func) (word : Fin 196608) (value : Word) (s : State) : Host.Outcome State Fault Refusal :=
  s.act (s.pfSample fn (.memPageOwnerWrite fn word value))

/-- PAGE_ZEROING_COMPLETE: the page holds zeros and the bit clears; a page retired meanwhile is not written. -/
def execPageZeroingComplete (page : Fin 393216) (s : State) : Host.Outcome State Fault Refusal :=
  let n := page.val
  s.act (if s.pageZeroing n then
      let s := if s.pageRetired n then s else s.hbmZero (n * mib2) mib2
      s.put (pgZeroing n) (n / 2) 0
    else s)

/-- May the quad's mode change: four pages free, none of the pool, none zeroing (R258)? (DEDUCED, log entry 14). -/
def State.quadFree (s : State) (q : Nat) : Bool :=
  (upto 4).all fun i => s.pageOwner (4 * q + i) = 0x1F && !s.pagePool (4 * q + i) && !s.pageZeroing (4 * q + i)

/-- Set a quad's mode; retired stack pages under it retire every device page that now uses them (R257, R272). -/
def State.setQuadMode (s : State) (q : Nat) (m : Bool) : State :=
  if s.quadFree q then
    let w := s.rn .MEM_QUAD_MODE (q / 32)
    let s := s.wn .MEM_QUAD_MODE (q / 32) (putBits w (q % 32) (q % 32) (if m then 1 else 0))
    let ks := s.mt.retired.filter fun r => 24576 * (r.1 / 4) + r.2 = q
    (ks.flatMap fun r => s.pagesOf r.1 r.2).foldl (fun (s : State) n => s.put (pgRetired n) (n / 2) 1) s
  else s

/-- MEM_QUAD_MODE_WRITE: the quads whose bit differs, judged at the tick. -/
def State.applyMemQuadModeWrite (word : Nat) (value : Word) (s : State) : State :=
  (upto 32).foldl (fun (s : State) i =>
    if bitAt value.toNat i = s.quadMode (32 * word + i) then s else s.setQuadMode (32 * word + i) (bitAt value.toNat i)) s
def execMemQuadModeWrite (fn : Func) (word : Fin 3072) (value : Word) (s : State) : Host.Outcome State Fault Refusal :=
  s.act (s.pfSample fn (.memQuadModeWrite fn word value))

/-- MEM_RETIRE_LIMIT_WRITE: the value is taken within 1 to 1,024; it is in force from the next tick, at which stacks at or over it
are fenced as events of class 5 (R273), those that reach it at that very tick with the write. -/
def limitOf (value : Word) : Nat := max 1 (min 1024 (bits value.toNat 15 0))
def State.overLimit (s : State) (v : Nat) : List Nat :=
  (upto 16).filter fun k => decide (v ≤ s.get MEM_STACK_RETIRED.pages k) && !s.stackFenced k
def State.applyMemRetireLimitWrite (value : Word) (s : State) : State :=
  (s.overLimit (limitOf value)).foldl (fun (s : State) k => s.fenceStack k 0x04) (s.wn .MEM_RETIRE_LIMIT 0 (limitOf value))
def execMemRetireLimitWrite (fn : Func) (value : Word) (s : State) : Host.Outcome State Fault Refusal :=
  s.act (s.pfWrite fn fun s =>
    ((s.overLimit (limitOf value)).foldl (fun (s : State) k => s.sampleOnce 5 (393216 + k) (.stackFence k 0x04)) s).sampleRow 9 64
      (.memRetireLimitWrite fn value))

/-- Set the retired bits of the device pages over the retired stack pages (R265). -/
def State.markRetired (s : State) : State :=
  (s.mt.retired.flatMap fun r => s.pagesOf r.1 r.2).foldl (fun (s : State) n => s.put (pgRetired n) (n / 2) 1) s

/-- Stack and quad of a key of the model's memory below the end of HBM. -/
def keyPage (k : Nat) : Nat × Nat := (4 * (k / (192 * gib)) + k / mib2 % 4, k % (192 * gib) / 2 ^ 23)

/-- HBM_INIT_COMPLETE (R265): the stacks have trained; every stack page that is not retired and on no fenced stack holds zeros with
valid check bits, no page has an owner. -/
def execHbmInitComplete (s : State) : Host.Outcome State Fault Refusal :=
  s.act (if s.mt.trained && !s.flag MEM_STATUS.init_done then
      let left (k : Nat) : Bool := s.stackFenced (keyPage k).1 || decide (keyPage k ∈ s.mt.retired)
      let s := (s.clearRegs fun r _ => r = .MEM_PAGE).markRetired
      let s := (poolPages (s.get TIR_POOL_BASE.page) s.poolSlots).foldl (fun (s : State) g => s.put (pgPool g) (g / 2) 1) s
      let s := { s with
        mem := s.mem.filter fun e => decide (hbmEnd ≤ e.1) || left e.1
        mt := { s.mt with bad := s.mt.bad.filter fun b => left (32 * b) } }
      s.put MEM_STATUS.init_done 0 1
    else s)

end Sys2Proof.Machine
end

