-- ==== Sys2Proof/Machine/Skew.lean ====
section
/-! DEFINITION. Machine/Skew.lean: tokens at the consumer's side of the networks: the seam filter (R59, R212, R213), arrival at a core
(R61, R62, R160, R591), skew reservoirs, spill and hold (R183 to R187), and the landing of data (R64). -/

namespace Sys2Proof.Machine

/-- The stream of a token that has not left, or not wholly: 256 core + 8 op + out (R302). -/
def streamOf (t : Token) : Option Nat :=
  match t.src with
  | .core k op out _ => if t.phase = .waiting ∨ 0 < t.unsent then some (256 * k + 8 * op + out) else none
  | _ => none

/-- Streams that do not wait any more: their waiting times end (R302). -/
def State.endWait (s : State) (l : List Nat) : State :=
  { s with hrd := { s.hrd with waits := s.hrd.waits.filter fun e => e.1 ∉ l } }

/-! ## Discards (R59, R160, R212, R213, R215, R591) -/

/-- A discard at a router, counted (R190). -/
def State.discard (s : State) (cl : Nat) (n : Nat := 1) : State := s.bump .NOC_DISCARDS cl n

/-- What a token counts for where it is discarded: its packets, or its beats on the stream plane (R190). -/
def Token.pieces (t : Token) : Nat := if t.courier then t.packets else t.beats

/-- Count n stale packets for their report (R213): the epoch's context from the history, one report per context and region. -/
def State.noteStale (s : State) (p : Nat) (e : Epoch) (n : Nat) : State :=
  match s.bnd.history.find? fun h => h.1 = e with
  | some h =>
    let old := s.bnd.stale.find? fun x => x.1 = h.2 && x.2.1 = p
    let m := (old.map fun x => x.2.2).getD 0
    { s with bnd := { s.bnd with stale := (s.bnd.stale.filter fun x => !(x.1 = h.2 && x.2.1 = p)) ++ [(h.2, p, m + n)] } }
  | none => s

/-- n packets discarded by the seam filter of region p (R212, R213). -/
def State.seamDiscard (s : State) (p cl : Nat) (e : Epoch) (n : Nat) : State :=
  let s := s.discard cl n
  let s := if s.rstate p = rsUnbound ∨ s.rstate p = rsLoading then s.bump .BND_REGION_DISCARDS p n
    else s.bump .BND_REGION_STALE p n
  s.noteStale p e n

/-- A token that fails the seam filter takes its sender's credit with it, where a fetcher sent it (R252). -/
def State.loseCredit (s : State) (t : Token) : State :=
  match t.src with
  | .fetcher i => s.setFslot i { s.fslot i with lost := true }
  | _ => s

/-- The port slot of a token: no instance will retire that gives the credit of a discarded one back (R239). -/
def State.loseSlot (s : State) (t : Token) : State :=
  if match t.src with | .fetcher _ => true | .mover _ => true | _ => false then
    let d := opDepth ((s.core t.dst).block.op t.op)
    { s with fch := { s.fch with lost := s.fch.lost ++ [(t.dst, t.op, t.port, t.tag.toNat % d)] } }
  else s

/-- Does the seam filter pass the packet (R212): the region is bound and the epoch is its own? -/
def State.seamPass (s : State) (p : Nat) (e : Epoch) : Bool :=
  (s.rstate p = rsBound || s.rstate p = rsDraining || s.rstate p = rsHalted) && e.toNat = s.repoch p

/-- Is the tag beyond a draining core's frozen window (R215)? -/
def CoreState.beyond (c : CoreState) (t : Tag) : Bool := (c.frozen.map fun f => decide (3 < (t - f).toNat)).getD false

/-- A token for a later tag than a draining region admits is discarded by the seam filter (R213, R215). -/
def State.discardLate (s : State) (t : Token) : State :=
  ((s.discard (clusterOf t.dst) t.pieces).bump .BND_REGION_STALE (regionOf t.dst) t.pieces).noteStale (regionOf t.dst) t.epoch
    t.pieces

/-! ## Reservoirs, spill areas, staging (R182 to R185) -/

/-- Bytes of a token in the spill area and in spill staging. -/
def Token.spilt (t : Token) : Nat := 64 * t.area.length + t.staged.length

/-- The stream tokens that have reached a port and are not landed, in order, with their places in the token list. -/
def State.portTokens (s : State) (k op port : Nat) : List (Token × Nat) :=
  s.noc.tokens.zipIdx.filter fun x =>
    !x.1.courier && x.1.dst = k && x.1.op = op && x.1.port = port && (x.1.phase = .diverted || x.1.phase = .admitted)

/-- Is the port in spill state (R184)? -/
def State.inSpill (s : State) (k op port : Nat) : Bool := (s.portTokens k op port).any fun x => decide (0 < x.1.spilt)

/-- Must new beats of a port queue (R183): a token is diverted, or spilled data is to come first? -/
def State.backlog (s : State) (k op port : Nat) : Bool :=
  (s.portTokens k op port).any fun x => x.1.phase = .diverted || decide (0 < x.1.spilt + x.1.unsent)

/-- Bytes of a port's reservoir in use. -/
def State.resvUsed (s : State) (k op port : Nat) : Nat := ((s.portTokens k op port).map fun x => x.1.inResv).foldl (· + ·) 0

/-- Where the next byte of a port goes in its reservoir, which is written round its end (DESIGN CHOICE, log entry 146). -/
def State.resvTail (s : State) (k op port : Nat) : Nat :=
  match (s.portTokens k op port).find? fun x => decide (0 < x.1.inResv) with
  | some x => (x.1.resvAt + s.resvUsed k op port) % (s.core k).block.resvSize op port
  | none => 0

/-- The pieces of n bytes at an offset of a reservoir: under-store address, length. -/
def State.resvPieces (s : State) (k op port at_ n : Nat) : List (Nat × Nat) :=
  let b := (s.core k).block
  let z := b.resvSize op port
  let m := min n (z - at_)
  [(s.ustore k + b.resvBase op port + at_, m), (s.ustore k + b.resvBase op port, n - m)]

/-- Write bytes into a reservoir (R183). -/
def State.resvWrite (s : State) (k op port at_ : Nat) (bs : List Byte) : State :=
  match s.resvPieces k op port at_ bs.length with
  | [x, y] => (s.store x.1 (bs.take x.2)).store y.1 (bs.drop x.2)
  | _ => s
/-- Read them. -/
def State.resvRead (s : State) (k op port at_ n : Nat) : List Byte :=
  (s.resvPieces k op port at_ n).flatMap fun x => s.load x.1 x.2

/-- Bytes of a router's spill staging in use, of 32 KiB (R184). -/
def State.stagingUsed (s : State) (cl : Nat) : Nat :=
  ((s.noc.tokens.filter fun t => clusterOf t.dst = cl).map fun t => t.staged.length).foldl (· + ·) 0

/-- 64 B units of a region's spill area that are in use, and how many it has. -/
def State.areaUsed (s : State) (p : Nat) : List Nat := (s.noc.tokens.filter fun t => regionOf t.dst = p).flatMap (·.area)
def State.areaUnits (s : State) (p : Nat) : Nat := spGet 0 s.noc.spillSize p / 64

/-- The lowest n units that are free, from unit i of an area (DESIGN CHOICE, log entry 146). -/
def freeUnits (base : Nat) (used : List Nat) : Nat → Nat → Nat → List Nat
  | 0, _, _ => []
  | _ + 1, _, 0 => []
  | f + 1, i, n + 1 =>
    if base + 64 * i ∈ used then freeUnits base used f (i + 1) (n + 1)
    else (base + 64 * i) :: freeUnits base used f (i + 1) n
def State.areaFree (s : State) (p n : Nat) : List Nat :=
  let used := s.areaUsed p
  freeUnits (spGet 0 s.noc.spillBase p) used (min (s.areaUnits p) (used.length + n)) 0 n

/-- Is the spill area of a region full, or of size zero? -/
def State.areaFull (s : State) (p : Nat) : Bool := decide (s.areaUnits p ≤ (s.areaUsed p).length)

/-- The requester as which the router of a core moves spilled data (R184, R263): for the region's context, from its agent port. -/
def State.spillReq (s : State) (k : Nat) : Requester := .mesh (Fin.ofNat 31 (s.rctx (regionOf k))) (Fin.ofNat 256 (clusterOf k))

/-- Write bytes to the spill area, unit by unit, as far as the memory takes them: the state, the units written
(R184, R263, R271) (DESIGN CHOICE, log entry 147). -/
def State.writeUnits (s : State) (r : Requester) : List Nat → List Byte → State × List Nat
  | [], _ => (s, [])
  | a :: t, bs =>
    if bs = [] then (s, [])
    else if s.portHolds r a 64 true then (s, [])
    else
      match s.serveWrite r a (bs.take 64) with
      | (s', .ack) =>
        let (s'', l) := s'.writeUnits r t (bs.drop 64)
        (s'', a :: l)
      | _ => (s, [])

/-- Spill staging of a router empties into the spill area as far as it can (R184): oldest first. -/
def State.drainStaging (s : State) (cl : Nat) : State :=
  (upto s.noc.tokens.length).foldl (fun (s : State) n =>
    match s.noc.tokens[n]? with
    | some t =>
      if clusterOf t.dst ≠ cl ∨ t.staged = [] then s
      else
        let (s', l) := s.writeUnits (s.spillReq t.dst) (s.areaFree (regionOf t.dst) (t.staged.length / 64)) t.staged
        s'.setTok n { t with area := t.area ++ l, staged := t.staged.drop (64 * l.length) }
    | none => s) s

/-- Show spill and hold of a cluster's ports in NOC_STATUS (R190). -/
def State.showSpill (s : State) (cl : Nat) : State :=
  (s.put NOC_STATUS.spill cl (if s.noc.tokens.any fun t => clusterOf t.dst = cl && decide (0 < t.spilt) then 1 else 0)).put
    NOC_STATUS.hold cl (if s.noc.holds.any fun h => clusterOf h.core = cl then 1 else 0)

/-- Is a port's route held (R185)? -/
def State.onHold (s : State) (k op port : Nat) : Bool := s.noc.holds.any fun h => h.core = k && h.op = op && h.port = port

/-- Assert hold on a port in spill state: 16 KiB of staging, or the spill area full or of size zero (R185). -/
def State.assertHold (s : State) (k op port : Nat) : State :=
  if !s.onHold k op port && s.inSpill k op port && (s.areaFull (regionOf k) || decide (16384 ≤ s.stagingUsed (clusterOf k))) then
    { s with noc := { s.noc with holds := s.noc.holds ++ [⟨k, op, port, s.now⟩] } }
  else s

/-- A port enters spill state: counted, and reported once in a step (R187). -/
def State.enterSpill (s : State) (k op port : Nat) : State :=
  let p := regionOf k
  if s.inSpill k op port then s
  else
    let s := s.bump .NOC_REGION_SKEW_SPILL p
    if (p, s.rctx p) ∈ s.noc.spilled then s
    else ({ s with noc := { s.noc with spilled := s.noc.spilled ++ [(p, s.rctx p)] } } : State).sample 12 p (.skewSpill p)

/-- The next n bytes of a stream token leave their sender's scratchpad (R79). -/
def State.egress (s : State) (t : Token) (n : Nat) : List Byte :=
  match t.src with
  | .core k .. => s.load (s.spad k + t.addr + (64 * t.length - t.unsent)) n
  | _ => []

/-! ## Beats that cannot go to the slot (R183 to R185) -/

/-- The next n bytes of token i go into its port's reservoir. -/
def State.intoResv (s : State) (i : Nat) (t : Token) (n : Nat) : State :=
  let tail := s.resvTail t.dst t.op t.port
  let s' := (s.resvWrite t.dst t.op t.port tail (s.egress t n)).bump .NOC_SKEW_DIVERT (clusterOf t.dst) n
  s'.setTok i { t with resvAt := if t.inResv = 0 then tail else t.resvAt, inResv := t.inResv + n, unsent := t.unsent - n }

/-- The next n bytes of token i, all that its port takes, go to spill staging and from there to the spill area. -/
def State.intoSpill (s : State) (i : Nat) (t : Token) (n : Nat) : State :=
  let s := (s.enterSpill t.dst t.op t.port).bump .NOC_SKEW_SPILL_BYTES (clusterOf t.dst) n
  (s.setTok i { t with staged := t.staged ++ s.egress t n, unsent := t.unsent - n }).drainStaging (clusterOf t.dst)

/-- The part of the unsent bytes of a token that its port's spill path takes before hold stops the route (R185): what the area has
room for, or one beat where it has none; where the memory refuses the area, until staging holds 16 KiB. -/
def State.spillRoom (s : State) (t : Token) : Nat :=
  let p := regionOf t.dst
  let free := 64 * (s.areaUnits p - (s.areaUsed p).length)
  let stg := s.stagingUsed (clusterOf t.dst)
  if stg = 0 then min t.unsent (if free = 0 then 64 else free)
  else min t.unsent (if stg < 16384 ∧ free ≠ 0 then 16384 - stg else if stg < 32768 then 64 else 0)

/-- Beats of token i, of which some are unsent, leave their sender (R79, R183 to R185): to the slot where nothing waits before them, else
to the reservoir, and what would overrun it to the spill path, until the route is held. -/
def State.pour (s : State) (i : Nat) : State :=
  match s.noc.tokens[i]? with
  | none => s
  | some t =>
    if t.phase = .admitted ∧ t.spilt = 0 then s.setTok i { t with data := t.data ++ s.egress t t.unsent, unsent := 0 }
    else
      let r := if s.inSpill t.dst t.op t.port ∨ t.phase = .admitted then 0
        else min t.unsent ((s.core t.dst).block.resvSize t.op t.port - s.resvUsed t.dst t.op t.port)
      let s := if r = 0 then s else s.intoResv i t r
      let s := match s.noc.tokens[i]? with
        | some t => if t.unsent = 0 then s else s.intoSpill i t (s.spillRoom t)
        | none => s
      (s.assertHold t.dst t.op t.port).showSpill (clusterOf t.dst)

/-- Divert stream token i (R183). -/
def State.divert (s : State) (i : Nat) (t : Token) : State := (s.setTok i { t with phase := .diverted }).pour i

/-! ## The arrival of a token -/

/-- Token n reaches its core: it is admitted, held back, diverted, or discarded with a program fault. `stream`: a token
that finds no free slot is diverted (R61), as is one behind data of its port that waits (R183). -/
def State.arrive (s : State) (n : Nat) (t : Token) (stream : Bool) : State :=
  let p := regionOf t.dst
  let cl := clusterOf t.dst
  let c := s.core t.dst
  if !s.seamPass p t.epoch then ((s.seamDiscard p cl t.epoch t.pieces).loseCredit t).dropTok n
  else if !s.nameable t.dst || c.loading || !s.runs p then ((s.discard cl t.pieces).loseSlot t).dropTok n
  else if c.beyond t.tag then ((s.discardLate t).loseSlot t).dropTok n
  else if stream && s.backlog t.dst t.op t.port then s.divert n t
  else
    match c.entrance t with
    | .bad => (s.programFault t.dst CORE_FAULT.bad_token 0).dropTok n
    | .stale => (s.programFault t.dst CORE_FAULT.dup_token 0).dropTok n
    | .oversize => (s.programFault t.dst CORE_FAULT.oversize 0).dropTok n
    | .wait => if stream then s.divert n t else s
    | .ok =>
      let s := s.admitHeader t
      if t.null then s.dropTok n
      else s.setTok n { t with
        phase := .admitted, stalled := none, buffered := [], unsent := 0, data := if stream then s.egress t t.unsent else t.data }

/-! ## The rows -/

/-- Scratchpad address of the input slot of a token. -/
def State.slotOfTok (s : State) (t : Token) : Nat :=
  let b := (s.core t.dst).block
  s.spad t.dst + portSlotAddr (b.port t.op t.port) (t.tag.toNat % opDepth (b.op t.op))

/-- All data of an admitted token is in its slot: the bytes are written, the landed bit sets, the token is gone. -/
def State.landToken (s : State) (n : Nat) (t : Token) : State :=
  let c := s.core t.dst
  match c.entry t.op t.tag with
  | some m => ((s.setCore t.dst (c.putEntry (m.land (c.block.op t.op) t.port))).store (s.slotOfTok t + t.inSlot) t.data).dropTok n
  | none => s.dropTok n

/-- TOKEN_DATA_LANDED: the data of admitted token n, all of which has been sent and read back, is in its slot (R64, R184). -/
def execTokenDataLanded (n : Nat) (s : State) : Host.Outcome State Fault Refusal :=
  s.act (match s.noc.tokens[n]? with
    | some t =>
      if t.phase = .admitted && decide (t.inSlot + t.data.length = 64 * t.length) && decide (t.spilt + t.unsent = 0) then
        s.landToken n t
      else s
    | none => s)

/-- The diverted token at the front of a port; none while a token before it has data to come. -/
def State.frontDiverted (s : State) (k op port : Nat) : Option (Token × Nat) :=
  match (s.portTokens k op port).filter fun x => x.1.phase = .diverted || decide (0 < x.1.spilt + x.1.unsent) with
  | x :: _ => if x.1.phase = .diverted then some x else none
  | [] => none

/-- RESERVOIR_DRAIN: the port's slot is free and the oldest diverted token goes to it: its header is admitted as its first beat
reaches the slot, its bytes leave the reservoir (R183). -/
def execReservoirDrain (core : CoreRef) (op : Fin 32) (port : Fin 8) (s : State) : Host.Outcome State Fault Refusal :=
  s.act (match s.frontDiverted core.key op.val port.val with
    | some (t, n) =>
      let c := s.core core.key
      if !s.runs (regionOf core.key) then s
      else if c.beyond t.tag then ((s.discardLate t).loseSlot t).dropTok n
      else if t.length ≠ 0 ∧ t.inResv = 0 ∧ c.block.resvSize op.val port.val ≠ 0 then s
      else
        match c.entrance t with
        | .ok =>
          let s := s.admitHeader t
          if t.null then s.dropTok n
          else
            let bs := s.resvRead t.dst t.op t.port t.resvAt t.inResv
            (s.store (s.slotOfTok t) bs).setTok n { t with phase := .admitted, inSlot := t.inResv, inResv := 0 }
        | .wait => s
        | .bad => (s.programFault t.dst CORE_FAULT.bad_token 0).dropTok n
        | .stale => (s.programFault t.dst CORE_FAULT.dup_token 0).dropTok n
        | .oversize => (s.programFault t.dst CORE_FAULT.oversize 0).dropTok n
    | none => s)

/-- Read units of the spill area back, as far as the memory answers (R184, R268) (DESIGN CHOICE, log entry 147). -/
def State.readUnits (s : State) (r : Requester) : List Nat → State × List Byte
  | [] => (s, [])
  | a :: t =>
    if s.portHolds r a 64 false then (s, [])
    else
      match s.serveRead r a 64 with
      | (s', .data bs) =>
        let (s'', l) := s'.readUnits r t
        (s'', bs ++ l)
      | (s', _) => (s', [])

/-- SPILL_READBACK: as reservoir space frees, the oldest spilled bytes of the port are read back, the area's before those in
staging (R184); those of a token whose header is admitted pass through the reservoir to its slot. -/
def execSpillReadback (core : CoreRef) (op : Fin 32) (port : Fin 8) (s : State) : Host.Outcome State Fault Refusal :=
  let k := core.key
  let room := (s.core k).block.resvSize op.val port.val - s.resvUsed k op.val port.val
  s.act (match (s.portTokens k op.val port.val).find? fun x => decide (0 < x.1.spilt) with
    | some (t, n) =>
      let want := if t.phase = .admitted then t.spilt else min t.spilt (room / 64 * 64)
      let (s, bs) := s.readUnits (s.spillReq k) (t.area.take (want / 64))
      let area := t.area.drop (bs.length / 64)
      let stg := if area = [] then t.staged.take (want - bs.length) else []
      let bs := bs ++ stg
      let t' := { t with area := area, staged := t.staged.drop stg.length }
      let s := if t.phase = .admitted then
          (s.store (s.slotOfTok t + t.inSlot) bs).setTok n { t' with inSlot := t.inSlot + bs.length }
        else
          let tail := s.resvTail k op.val port.val
          (s.resvWrite k op.val port.val tail bs).setTok n
            { t' with resvAt := if t.inResv = 0 then tail else t.resvAt, inResv := t.inResv + bs.length }
      (s.drainStaging (clusterOf k)).showSpill (clusterOf k)
    | none => s)

/-- A hold ends after so many NCLK cycles (R185), and the waiting of its streams with it. -/
def State.endHold (s : State) (h : Hold) (cycles : Nat) : State :=
  let l := (s.noc.tokens.filter fun t => t.dst = h.core && t.op = h.op && t.port = h.port).filterMap streamOf
  (({ s with noc := { s.noc with holds := s.noc.holds.filter (· ≠ h) } } : State).endWait l).bump .NOC_HOLD_CYCLES
    (clusterOf h.core) cycles

/-- HOLD_RELEASE: staging is below 8 KiB and the spill area has room again; with an area of size zero staging alone decides
(DESIGN CHOICE, log entry 148). The hold lasted the given NCLK cycles (R185). -/
def execHoldRelease (core : CoreRef) (op : Fin 32) (port : Fin 8) (cycles : Nat) (s : State) :
    Host.Outcome State Fault Refusal :=
  let k := core.key
  s.act (match s.noc.holds.find? fun h => h.core = k && h.op = op.val && h.port = port.val with
    | some h =>
      let s := s.drainStaging (clusterOf k)
      if s.stagingUsed (clusterOf k) < 8192 ∧ (s.areaUnits (regionOf k) = 0 ∨ s.areaFull (regionOf k) = false) then
        (s.endHold h cycles).showSpill (clusterOf k)
      else s.showSpill (clusterOf k)
    | none => s)

end Sys2Proof.Machine
end

