-- ==== Sys2Proof/Machine/Herding.lean ====
section
/-! DEFINITION. Machine/Herding.lean: tallies, leashes, barks and standoffs (R289 to R309). -/

namespace Sys2Proof.Machine

/-! ## Tallies (R289, R290) -/

/-- The tally an identifier of a context names (R290). -/
def State.tallyOf (s : State) (c vid : Nat) : Option Nat :=
  let t := spGet 0 s.hrd.trans (c * 2 ^ 20 + vid)
  if t = 0 then none else some (t - 1)

/-- Replace the herding state. -/
def State.setHrd (s : State) (h : HrdState) : State := { s with hrd := h }

/-- Show the counts of HRD_STATUS (R308). -/
def State.showHrd (s : State) : State :=
  (s.put HRD_STATUS.tallies 0 s.hrd.alloc.length).put HRD_STATUS.translations 0 s.hrd.trans.length

/-- Map an identifier. -/
def State.mapVid (s : State) (c vid t : Nat) : State :=
  s.setHrd { s.hrd with trans := spSet 0 s.hrd.trans (c * 2 ^ 20 + vid) (t + 1) }

/-- Remove a mapping; a tally whose owner has released it and that nothing names returns to its die (R291). -/
def State.unmapVid (s : State) (c vid t : Nat) : State :=
  let s := s.setHrd { s.hrd with trans := spSet 0 s.hrd.trans (c * 2 ^ 20 + vid) 0 }
  if s.flag HRD_TALLY.poison t && !(s.hrd.trans.any fun e => e.2 = t + 1) then
    let h := { s.hrd with alloc := s.hrd.alloc.filter (· ≠ t), shares := spSet 0 s.hrd.shares t 0 }
    (s.wr .HRD_TALLY t (Reg.reset .HRD_TALLY t)).setHrd h
  else s

/-- A die whose herding unit is lost (R307). -/
def State.hrdDead (s : State) (t : Nat) : Bool := decide (t / 4096 ∈ s.hrd.dead)

/-! ## Leashes (R296, R297) -/

/-- Does the condition hold for a value? `applied`: an operation has just been applied. -/
def Leash.holds (l : Leash) (v : Nat) (applied : Bool) : Bool :=
  match l.cond with
  | 0 => decide (l.threshold ≤ v)
  | 1 => v = l.threshold
  | 2 => decide (v ≤ l.threshold)
  | _ => applied

/-- Add to the pending bark (R297): its count saturates at 65,535. -/
def Leash.bark (l : Leash) (status n v : Nat) : Leash :=
  { l with status := status, count := min 65535 (l.count + n), value := v }

/-- Evaluate a leash (R297). A repeated threshold counts how often the step can be added while the condition still holds
(DEDUCED, log entry 20). -/
def Leash.eval (l : Leash) (v : Nat) (applied : Bool) : Leash :=
  if l.last || !l.holds v applied then l
  else if !l.rep then { l.bark stOK 1 v with last := true }
  else if l.cond = 0 then
    let k := (v - l.threshold) / l.step + 1
    { l.bark stOK k v with threshold := min 0xFFFFFFFF (l.threshold + k * l.step) }
  else l.bark stOK 1 v

/-- Poisoning replaces a leash's bark by one with status ORPHANED (R301). -/
def Leash.orphan (l : Leash) (v : Nat) : Leash := { l with status := stORPHANED, count := 1, value := v, last := true }

/-- Did the coalesced count reach its largest value (R498)? -/
def leashSat (a b : List Leash) : Bool := (a.zip b).any fun x => x.1.count ≠ 65535 && x.2.count = 65535

/-- Evaluate every leash of a tally, in ascending handle order (they are kept so). -/
def State.evalLeashes (s : State) (t : Nat) (applied : Bool) : State :=
  let v := s.get HRD_TALLY.value t
  let ls := s.hrd.leashes.map fun l => if l.tally = t then l.eval v applied else l
  let s' := s.setHrd { s.hrd with leashes := ls }
  if leashSat s.hrd.leashes ls then s'.setSat 13 else s'

/-- Insert a leash in ascending handle order. -/
def insertLeash (l : Leash) : List Leash → List Leash
  | [] => [l]
  | x :: t => if l.handle < x.handle then l :: x :: t else x :: insertLeash l t

/-- The lowest free handle of a home die: 8,192 leashes each (R291). -/
def State.freeHandle (s : State) (d : Nat) : Option Nat :=
  ((upto 8192).find? fun i => !(s.hrd.leashes.any fun l => l.handle = 8192 * d + i)).map (8192 * d + ·)

/-- Register a leash (R296, R297, R301): evaluated at once; a poisoned tally barks ORPHANED. -/
def State.addLeash (s : State) (l : Leash) : State :=
  let v := s.get HRD_TALLY.value l.tally
  let l := if s.flag HRD_TALLY.poison l.tally then l.orphan v else l.eval v false
  s.setHrd { s.hrd with leashes := insertLeash l s.hrd.leashes }

/-- Register a leash on an identifier, if it is mapped and its die has room: its handle. -/
def State.setLeash (s : State) (c vid cond : Nat) (rep : Bool) (step threshold : Nat) (target : LeashTarget) :
    State × Nat × Option Nat :=
  match s.tallyOf c vid with
  | none => (s, stNO_TALLY, none)
  | some t =>
    if s.hrdDead t then (s, stFENCED, none)
    else
      match s.freeHandle (t / 4096) with
      | none => (s, stNO_SPACE, none)
      | some h =>
        let l : Leash := ⟨h, t, c, vid, cond, rep, step, threshold, target, 0, 0, 0, false, 0⟩
        (s.addLeash l, stOK, some h)

/-- Remove a leash. -/
def State.dropLeash (s : State) (h : Nat) : State :=
  s.setHrd { s.hrd with leashes := s.hrd.leashes.filter fun l => l.handle ≠ h }

/-! ## Operations (R292, R301) -/

/-- What an operation on a tally came to: status, and the value of a read. -/
abbrev TallyOut := Nat × Nat

/-- Apply an operation to a tally: 0 increment, 1 decrement, 2 read. -/
def State.tallyApply (s : State) (t act n : Nat) : State × TallyOut :=
  let v := s.get HRD_TALLY.value t
  if s.flag HRD_TALLY.poison t then
    if act = 2 then (s.bump .HRD_OPS, stORPHANED, 0xFFFFFFFF) else (s.bump .HRD_ORPHAN_OPS, stORPHANED, 0)
  else if act = 1 ∧ v < n then ((s.put HRD_TALLY.overdraw t 1).bump .HRD_OVERDRAWS, stOVERDRAW, 0)
  else
    let s := s.bump .HRD_OPS
    if act = 0 then
      let s := if 0xFFFFFFFF < v + n then (s.put HRD_TALLY.sat t 1).bump .HRD_SATURATIONS else s
      ((s.put HRD_TALLY.value t (min 0xFFFFFFFF (v + n))).evalLeashes t true, stOK, 0)
    else if act = 1 then ((s.put HRD_TALLY.value t (v - n)).evalLeashes t true, stOK, 0)
    else (s.evalLeashes t true, stOK, v)

/-- Poison a tally (R301): the value freezes, every leash on it barks ORPHANED once. -/
def State.poisonTally (s : State) (t : Nat) : State :=
  let v := s.get HRD_TALLY.value t
  let s := s.put HRD_TALLY.poison t 1
  s.setHrd { s.hrd with leashes := s.hrd.leashes.map fun l => if l.tally = t then l.orphan v else l }

/-- The tallies of a context are poisoned, its translations and leashes removed without barks (R301, R388). -/
def State.dropTallies (s : State) (c : Nat) : State :=
  let mine := s.hrd.alloc.filter fun t => s.get HRD_TALLY.owner t = c && !s.flag HRD_TALLY.poison t
  let s := s.setHrd { s.hrd with leashes := s.hrd.leashes.filter fun l => l.ctx ≠ c }
  let s := mine.foldl (fun (s : State) t => s.poisonTally t) s
  let vids := s.hrd.trans.filter fun e => e.1 / 2 ^ 20 = c
  (vids.foldl (fun (s : State) e => s.unmapVid c (e.1 % 2 ^ 20) (e.2 - 1)) s).showHrd

/-! ## Commands (R291) -/

/-- Finish a herding command: a ring's completion with its value, or HRD_CMD_STATUS and HRD_CMD_RESULT (R308). -/
def State.endHerd (s : State) (iss : Issuer) (status : Nat) (value : Nat := 0) : State :=
  match iss with
  | .ring .. => s.complete iss 0x0A status value
  | .reg _ => ((s.put HRD_CMD_STATUS.status 0 status).put HRD_CMD_STATUS.busy 0 0).wn .HRD_CMD_RESULT 0 value

/-- Apply a herding command for the context it acts for; a register command without one has none to act for. -/
def State.herdCmd (s : State) (iss : Issuer) (f : State → Nat → State) : State :=
  match iss, iss.ctxNum with
  | .reg _, some c => if s.leads then f s c else s.endHerd iss stNOT_LEAD
  | .ring .., some c => f (s.began iss 0x0A) c
  | _, none => s.endHerd iss stNO_TALLY

/-- A herding command is sampled for the next event tick (R291, R308); HRD_CMD is ignored while busy. -/
def State.herdSample (s : State) (iss : Issuer) (c : Instr) : State :=
  match iss with
  | .reg _ => if s.flag HRD_CMD_STATUS.busy then s else (s.put HRD_CMD_STATUS.busy 0 1).sampleHost iss c
  | .ring .. => s.sampleHost iss c

/-- CREATE. -/
def State.applyTallyCreate (iss : Issuer) (home : Fin 4) (vid : Fin 1048576) (value : Word) (share : BitVec 31) (s : State) : State :=
  s.herdCmd iss fun s c =>
    if (s.tallyOf c vid.val).isSome then s.endHerd iss stBUSY
    else if home.val ∈ s.hrd.dead then s.endHerd iss stFENCED
    else
      match (upto 4096).find? fun i => decide (4096 * home.val + i ∉ s.hrd.alloc) with
      | none => s.endHerd iss stNO_SPACE
      | some i =>
        if 16384 ≤ s.hrd.trans.length then s.endHerd iss stNO_SPACE
        else
          let t := 4096 * home.val + i
          let s := ((s.wn .HRD_TALLY t 0).put HRD_TALLY.value t value.toNat).put HRD_TALLY.owner t c
          let s := s.setHrd { s.hrd with alloc := s.hrd.alloc ++ [t], shares := spSet 0 s.hrd.shares t share.toNat }
          ((s.mapVid c vid.val t).showHrd).endHerd iss stOK
def execTallyCreate (iss : Issuer) (home : Fin 4) (vid : Fin 1048576) (value : Word) (share : BitVec 31) (s : State) : Host.Outcome State Fault Refusal :=
  s.act (s.herdSample iss (.tallyCreate iss home vid value share))

/-- IMPORT: the tally that the owner context's identifier names, if its share bit is set (DEDUCED, log entry 52). -/
def State.applyTallyImport (iss : Issuer) (vid ownerVid : Fin 1048576) (owner : Fin 32) (s : State) : State :=
  s.herdCmd iss fun s c =>
    if (s.tallyOf c vid.val).isSome then s.endHerd iss stBUSY
    else
      match s.tallyOf owner.val ownerVid.val with
      | none => s.endHerd iss stNO_TALLY
      | some t =>
        if bitAt (spGet 0 s.hrd.shares t) c = false then s.endHerd iss stNO_TALLY
        else if s.hrdDead t then s.endHerd iss stFENCED
        else if 16384 ≤ s.hrd.trans.length then s.endHerd iss stNO_SPACE
        else ((s.mapVid c vid.val t).showHrd).endHerd iss stOK
def execTallyImport (iss : Issuer) (vid ownerVid : Fin 1048576) (owner : Fin 32) (s : State) : Host.Outcome State Fault Refusal :=
  s.act (s.herdSample iss (.tallyImport iss vid ownerVid owner))

/-- RELEASE: the owner's release poisons the tally. -/
def State.applyTallyRelease (iss : Issuer) (vid : Fin 1048576) (s : State) : State :=
  s.herdCmd iss fun s c =>
    match s.tallyOf c vid.val with
    | none => s.endHerd iss stNO_TALLY
    | some t =>
      let s := if s.get HRD_TALLY.owner t = c then s.poisonTally t else s
      ((s.unmapVid c vid.val t).showHrd).endHerd iss stOK
def execTallyRelease (iss : Issuer) (vid : Fin 1048576) (s : State) : Host.Outcome State Fault Refusal :=
  s.act (s.herdSample iss (.tallyRelease iss vid))

/-- ADD, SUB and READ. -/
def State.tallyCmd (s : State) (iss : Issuer) (vid act n : Nat) : State :=
  s.herdCmd iss fun s c =>
    match s.tallyOf c vid with
    | none => s.endHerd iss stNO_TALLY
    | some t =>
      if s.hrdDead t then s.endHerd iss stFENCED
      else
        let (s, st, v) := s.tallyApply t act n
        s.endHerd iss st (if st = stOK then v else 0)

def State.applyTallyAdd (iss : Issuer) (vid : Fin 1048576) (count : Word) (s : State) : State :=
  s.tallyCmd iss vid.val 0 count.toNat
def execTallyAdd (iss : Issuer) (vid : Fin 1048576) (count : Word) (s : State) : Host.Outcome State Fault Refusal :=
  s.act (s.herdSample iss (.tallyAdd iss vid count))
def State.applyTallySub (iss : Issuer) (vid : Fin 1048576) (count : Word) (s : State) : State :=
  s.tallyCmd iss vid.val 1 count.toNat
def execTallySub (iss : Issuer) (vid : Fin 1048576) (count : Word) (s : State) : Host.Outcome State Fault Refusal :=
  s.act (s.herdSample iss (.tallySub iss vid count))
def State.applyTallyRead (iss : Issuer) (vid : Fin 1048576) (s : State) : State :=
  s.tallyCmd iss vid.val 2 0
def execTallyRead (iss : Issuer) (vid : Fin 1048576) (s : State) : Host.Outcome State Fault Refusal :=
  s.act (s.herdSample iss (.tallyRead iss vid))

/-- The target of a command, with the epoch that a token target's region holds now (R299). -/
def State.leashTarget (s : State) : LeashDest → Option LeashTarget
  | .fetcher p ch slot => if slot.val < 8 then some (.fetcher (160 * p.val + 10 * ch.val + slot.val)) else none
  | .token p c l op port tag0 =>
    some (.token (256 * p.val + 16 * c.val + l.val) op.val port.val tag0 (BitVec.ofNat 12 (s.repoch p.val)))
  | .record cookie => some (.record cookie)
  | .other => none

/-- LEASH_SET: repeat goes with conditions 0 and 3 alone, with a step from 1 on. -/
def State.applyLeashSet (iss : Issuer) (vid : Fin 1048576) (cond : Fin 4) (rep : Bool) (step threshold : Word)
    (target : LeashDest) (s : State) : State :=
  s.herdCmd iss fun s c =>
    match s.leashTarget target with
    | none => s.endHerd iss stBAD_DESCRIPTOR
    | some tg =>
      if rep && (cond = 1 || cond = 2 || (cond = 0 && step = 0#32)) then s.endHerd iss stBAD_DESCRIPTOR
      else
        let (s, st, h) := s.setLeash c vid.val cond.val rep step.toNat threshold.toNat tg
        s.endHerd iss st (h.getD 0)
def execLeashSet (iss : Issuer) (vid : Fin 1048576) (cond : Fin 4) (rep : Bool) (step threshold : Word) (target : LeashDest)
    (s : State) : Host.Outcome State Fault Refusal :=
  s.act (s.herdSample iss (.leashSet iss vid cond rep step threshold target))

/-- LEASH_CLEAR: the handle must be the issuer's. -/
def State.applyLeashClear (iss : Issuer) (handle : Fin 32768) (s : State) : State :=
  s.herdCmd iss fun s c =>
    if s.hrd.leashes.any fun l => l.handle = handle.val && l.ctx = c then (s.dropLeash handle.val).endHerd iss stOK
    else s.endHerd iss stBAD_DESCRIPTOR
def execLeashClear (iss : Issuer) (handle : Fin 32768) (s : State) : Host.Outcome State Fault Refusal :=
  s.act (s.herdSample iss (.leashClear iss handle))

/-! ## Operations of cores and agents (R293, R294) -/

/-- Operation n is the oldest of its source and tally (R294). -/
def State.firstOfSource (s : State) (n : Nat) (m : HerdMsg) : Bool :=
  !((s.hrd.msgs.take n).any fun x => x.core = m.core && x.agent = m.agent && s.tallyOf x.ctx x.vid = s.tallyOf m.ctx m.vid)

/-- The region that an operation comes from: the core's, or the channel's. -/
def HerdMsg.region (m : HerdMsg) : Nat := if m.agent then m.core / 160 else regionOf m.core

/-- Does it come from an engine of the spine, which has no region? Sources above the fetcher slots stand for engines. -/
def HerdMsg.engine (m : HerdMsg) : Bool := m.agent && decide (2560 ≤ m.core)

/-- A HERD that fails halts its region at the next tick, in class 6 (R293). -/
def State.herdFail (s : State) (m : HerdMsg) (status : Nat) : State :=
  if m.agent then s else s.sample 6 (s.coreUnit m.core) (.herdHalt m.core status)

/-- The answer to a HERD read goes back to s12. -/
def State.herdValue (s : State) (m : HerdMsg) (v : Nat) : State :=
  if m.act = 2 && !m.agent then s.setHrd { s.hrd with replies := s.hrd.replies ++ [(m.core, BitVec.ofNat 32 v)] } else s

/-- ORPHANED is reported once per tick and tally (R301) (DEDUCED, log entry 53). -/
def State.noteOrphan (s : State) (m : HerdMsg) (t : Nat) : State :=
  if m.act = 2 || m.engine || s.hrd.orphans.any fun o => o.1 = m.ctx && o.2.2.2 = t then s
  else s.setHrd { s.hrd with orphans := s.hrd.orphans ++ [(m.ctx, m.region, m.vid, t)] }

/-- TALLY_OPERATION_APPLY: operation n reaches its home unit (R290 to R294, R301, R307). A core's AMAX reports are applied before
its operations (R346) (DEDUCED, log entry 76). -/
def execTallyOperationApply (n : Nat) (s : State) : Host.Outcome State Fault Refusal :=
  s.act (match s.hrd.msgs[n]? with
    | none => s
    | some m =>
      if !s.firstOfSource n m || (!m.agent && s.num.amax.any fun r => r.core = m.core) then s
      else
        let s := s.setHrd { s.hrd with msgs := s.hrd.msgs.eraseIdx n }
        match s.tallyOf m.ctx m.vid with
        | none => s.herdFail m stNO_TALLY
        | some t =>
          if s.hrdDead t then (if m.engine then s else s.postEvent m.ctx stFENCED m.region)
          else
            let (s, st, v) := s.tallyApply t m.act m.count
            if st = stOVERDRAW then s.herdFail m stOVERDRAW
            else if st = stORPHANED then (s.herdValue m v).noteOrphan m t
            else s.herdValue m v)

/-! ## Barks (R298 to R300) -/

/-- The record a core-token bark carries (R298). -/
def Leash.record (l : Leash) : List Byte :=
  natLe 4 l.value ++ natLe 1 l.status ++ [0#8] ++ natLe 2 l.count ++ natLe 4 l.vid ++ natLe 4 l.handle ++
    List.replicate 48 0#8

/-- Are a context's barks held (R300): it is pre-empted? -/
def State.barksHeld (s : State) (c : Nat) : Bool := decide (2 ≤ s.get CTX_PSTATE.state c)

/-- Is the port slot of a tag free of earlier tokens and entries, and the tag no later than the window admits (R61, R239): the credit
its sender holds (DEDUCED, log entry 19). -/
def State.credit (s : State) (k op port : Nat) (t : Tag) : Bool :=
  let c := s.core k
  let d := opDepth (c.block.op op)
  (tagAfter c.base t || decide ((t - c.base).toNat ≤ 3)) &&
  !(c.entries.any fun m => m.op = op && m.arrived &&& portBit port ≠ 0#8 && m.tag.toNat % d = t.toNat % d) &&
  !(s.noc.tokens.any fun x => x.dst = k && x.op = op && x.port = port && (x.phase = .flying || x.phase = .diverted) &&
    x.mode = .unicast && x.tag.toNat % d = t.toNat % d)

/-- The same for a token of an epoch: a token that the seam filter will discard waits for no credit. -/
def State.creditFor (s : State) (k op port : Nat) (t : Tag) (e : Epoch) : Bool :=
  !s.seamPass (regionOf k) e || s.credit k op port t

/-- May the bark of a leash go (R299)? -/
def State.barkReady (s : State) (l : Leash) : Bool :=
  match l.target with
  | .token dst op port tag0 e => s.creditFor dst op port (tag0 + BitVec.ofNat 16 l.barks) e
  | .record _ => decide ((s.ring l.ctx).queue.length < 256)
  | _ => true

/-- A bark starts a fetcher slot (R241, R299): the slot's own trigger leash ends with it; one of a command starts a slot that is
armed. -/
def State.barkFetcher (s : State) (i : Nat) (l : Leash) : State :=
  let f := s.fslot i
  if f.leash = some l.handle then
    s.setFslot i (if l.status = stOK then { f with fired := true, leash := none } else { f with leash := none })
  else if l.status = stOK ∧ f.code = 1 then
    (f.leash.elim s fun h => s.dropLeash h).setFslot i { f with fired := true, leash := none }
  else s

/-- Deliver it. -/
def State.barkTo (s : State) (l : Leash) : State :=
  match l.target with
  | .fetcher i => s.barkFetcher i l
  | .token dst op port tag0 epoch =>
    let t : Token := { epoch := epoch, tag := tag0 + BitVec.ofNat 16 l.barks, dst := dst, op := op, port := port, length := 1,
                       data := l.record, cls := 0, src := .spine, from_ := 64 * (l.tally / 4096) }
    (s.launch t (clusterOf dst)).getD (s.discard t.from_ t.packets)
  | .record cookie => s.post l.ctx
      { kind := 1, status := l.status, count := l.count, aux := l.handle, tag := cookie.toNat, value := l.value }
  | .spine (.step c) => if l.status = stOK then s.setStp c { s.stp c with barked := true, readyTick := s.now } else s
  | .spine (.collective e) =>
    if l.status = stOK then { s with lnk := { s.lnk with barks := s.lnk.barks ++ [e] } } else s

/-- Deliver the pending bark of a leash, if there is one and it can go; the leash then ends or goes on. -/
def State.deliverBark (s : State) (l : Leash) : State :=
  if l.count = 0 || s.barksHeld l.ctx || !s.barkReady l then s
  else
    let s := (s.barkTo l).bump .HRD_BARKS
    if l.last then s.dropLeash l.handle
    else
      let ls := replaceFirst (fun (x : Leash) => x.handle = l.handle)
        (fun x => { x with count := 0, barks := x.barks + 1 }) s.hrd.leashes
      s.setHrd { s.hrd with leashes := ls }

/-- BARK_DELIVERY: the pending bark of a leash. -/
def execBarkDelivery (handle : Fin 32768) (s : State) : Host.Outcome State Fault Refusal :=
  s.act (match s.hrd.leashes.find? fun l => l.handle = handle.val with
    | some l => s.deliverBark l
    | none => s)

/-- The barks of a context that resumes, in ascending handle order (R300). -/
def State.deliverHeld (s : State) (c : Nat) : State :=
  (sortBy (fun (a b : Leash) => decide (a.handle ≤ b.handle)) (s.hrd.leashes.filter fun l => l.ctx = c)).foldl (fun (s : State) l => s.deliverBark l) s

/-! ## Standoffs (R302 to R306) -/

/-- The routers that a group reaches from those to visit, each once. -/
def groupVisit (ent : Nat → Nat → Nat) (g : Nat) : Nat → List Nat → List Nat → List Nat
  | 0, _, seen => seen
  | _ + 1, [], seen => seen
  | f + 1, cl :: rest, seen =>
    if cl ∈ seen ∨ !bitAt (ent cl g) 31 then groupVisit ent g f rest seen
    else groupVisit ent g f
      (((upto 4).filter fun d => bitAt (ent cl g) (30 - d)).filterMap (fun d => (neighbour cl d).map (·.1)) ++ rest) (seen ++ [cl])

/-- The target cores of a token: a multicast names those that its group's entries reach. -/
def State.targets (s : State) (t : Token) : List Nat :=
  match t.mode with
  | .multicast g =>
    let ent (cl g : Nat) : Nat := s.rn .NOC_GROUP (256 * cl + g)
    (groupVisit ent g 2048 [t.from_] []).flatMap fun cl => (unmask 15 (ent cl g)).map (16 * cl + ·)
  | _ => [t.dst]

/-- Is a combine slot of a node free for a tag (R180)? One is held per tag whose first contribution is stored or on its way. -/
def State.nodeFree (s : State) (router node : Nat) (t : Tag) : Bool :=
  let e := s.rn .NOC_NODE (64 * router + node)
  let stored := (s.noc.combine.filter fun c => c.router = router && c.node = node).map (·.tag)
  let flying := (s.noc.tokens.filter fun x => x.phase = .flying && match x.mode with
    | .reduction r n .. => decide (r = router ∧ n = node)
    | _ => false).map (·.tag)
  let tags := (stored ++ flying).foldl (fun l x => if x ∈ l then l else x :: l) []
  decide (t ∈ tags ∨ tags.length < 2 ^ bits e 9 8)

/-- Does a courier token lack a credit from a destination (R61, R180)? An agent of a router (R378) holds none. -/
def State.lacksCredit (s : State) (t : Token) : Bool :=
  match t.mode with
  | .reduction r n _ _ => !s.nodeFree r n t.tag
  | _ => (s.targets t).any fun k => decide (lcoreOf k < 15) && !s.creditFor k t.op t.port t.tag t.epoch

/-- The waiting streams (R302), each with its oldest staged token: a courier token that lacks a credit, a stream-plane token
whose port is held. -/
def State.waitingStreams (s : State) : List (Nat × Token) :=
  (s.noc.tokens.zipIdx.filterMap fun x => (streamOf x.1).bind fun st =>
    if (s.noc.tokens.take x.2).any fun y => streamOf y = some st then none
    else if x.1.courier then (if s.lacksCredit x.1 then some (st, x.1) else none)
    else if s.onHold x.1.dst x.1.op x.1.port then some (st, x.1) else none)

/-- Streams in the order of R294 and R304: source, operation, output. -/
def sortStreams (l : List (Nat × Token)) : List (Nat × Token) := sortBy (fun a b => decide (a.1 ≤ b.1)) l

/-- A core is blocked: it dispatched no instance during the last tick (R302). -/
def State.blocked (s : State) (k : Nat) : Bool := s.rn .CORE_FIRE_COUNT k = spGet 0 s.hrd.fires k

/-- A shortest path of streams back to core `start`, from the cores to visit, each with the streams that led to it. -/
def cycleFrom (edges : List (Nat × Nat × Nat)) (start : Nat) : Nat → List (Nat × List Nat) → List Nat → Option (List Nat)
  | 0, _, _ => none
  | _ + 1, [], _ => none
  | f + 1, (k, path) :: q, seen =>
    let out := edges.filter fun e => e.1 = k
    match out.find? fun e => e.2.1 = start with
    | some e => some (path ++ [e.2.2])
    | none =>
      if k ∈ seen then cycleFrom edges start f q seen
      else cycleFrom edges start f (q ++ out.map fun e => (e.2.1, path ++ [e.2.2])) (k :: seen)

/-- A standoff: a cycle of two or more waiting streams, every core blocked, every stream waiting for at least the limit. A stream whose
token is being spilled waits no more. -/
def State.findStandoff (s : State) (ws : List (Nat × Token)) (lim : Nat) : Option (List Nat) :=
  let old := ws.filter fun w =>
    let t := spGet 0 s.hrd.waits w.1
    t ≠ 0 && decide (t - 1 + lim ≤ s.now) && !(s.hrd.spilling.any fun x => x.2 = w.1)
  let edges := old.flatMap fun w => ((s.targets w.2).filterMap fun c =>
    if s.blocked (w.1 / 256) && s.blocked c && w.1 / 256 ≠ c then some (w.1 / 256, c, w.1) else none)
  edges.findSome? fun e => cycleFrom edges e.1 (2 * edges.length + 2) [(e.1, [])] []

/-- The reserve entry in force for a stream (R304, R306). -/
def State.reserveOf (s : State) (st : Nat) : Option Nat :=
  (s.hrd.reserves.find? fun e =>
    bitAt e.2.1 23 && bits e.2.1 19 17 = st % 8 && bits e.2.1 16 12 = st / 8 % 32 &&
      256 * bits e.2.1 3 0 + 16 * bits e.2.1 7 4 + bits e.2.1 11 8 = st / 256).map (·.1)

/-- The stream to break: a courier stream whose reserve holds its token, of lowest priority, first in order (R304). -/
def State.breakChoice (s : State) (ws : List (Nat × Token)) (cyc : List Nat) : Option (Nat × Nat) :=
  let cand := ws.filterMap fun w =>
    if !decide (w.1 ∈ cyc) || !w.2.courier then none
    else (s.reserveOf w.1).bind fun k =>
      let r := spGet (0, 0, 0) s.hrd.reserves k
      if s.rn .HRD_RESERVE_USED k + 64 * w.2.length + 64 ≤ r.2.2 then some (bits r.1 22 20, w.1, k) else none
  (cand.foldl (fun (b : Option (Nat × Nat × Nat)) x => match b with
    | none => some x
    | some y => if x.1 < y.1 then some x else some y) none).map (·.2)

/-- Record a standoff (R305, R308). -/
def State.lastStandoff (s : State) (cyc : List Nat) (fault : Bool) : State :=
  let st := (sortBy (fun a b => decide (a ≤ b)) cyc).headD 0
  let k := st / 256
  if s.flag HRD_LAST_STANDOFF.valid then s
  else
    let s := (((s.wn .HRD_LAST_STANDOFF 0 0).put HRD_LAST_STANDOFF.region 0 (regionOf k)).put HRD_LAST_STANDOFF.cluster 0
      (clusterOf k)).put HRD_LAST_STANDOFF.core 0 (lcoreOf k)
    let s := (s.put HRD_LAST_STANDOFF.op 0 (st / 8 % 32)).put HRD_LAST_STANDOFF.out 0 (st % 8)
    let s := (s.put HRD_LAST_STANDOFF.context 0 (s.rctx (regionOf k))).put HRD_LAST_STANDOFF.fault 0 (if fault then 1 else 0)
    (s.put HRD_LAST_STANDOFF.streams 0 (min 31 cyc.length)).put HRD_LAST_STANDOFF.valid 0 1

/-- The wait times of the waiting streams, brought up to this tick: a stream that just began to wait begins now (R302). -/
def State.waitTimes (s : State) (ws : List (Nat × Token)) : Sparse Nat :=
  ws.foldl (fun (m : Sparse Nat) w =>
    let t := spGet 0 s.hrd.waits w.1
    spSet 0 m w.1 (if t = 0 then s.now + 1 else t)) []

/-- A standoff is broken, or faults (R304, R305); the waiting times of its streams restart. -/
def State.breakStandoff (s : State) (ws : List (Nat × Token)) (cyc : List Nat) : State :=
  let s := s.setHrd { s.hrd with waits := cyc.foldl (fun (m : Sparse Nat) st => spSet 0 m st (s.now + 1)) s.hrd.waits }
  match s.breakChoice ws cyc with
  | some (st, k) => (s.lastStandoff cyc false).setHrd { s.hrd with spilling := s.hrd.spilling ++ [(k, st)] }
  | none =>
    ((s.lastStandoff cyc true).bump .HRD_STANDOFF_FAULTS).sampleOnce 11 272
      (.standoff ((cyc.map fun st => regionOf (st / 256)).eraseDups))

/-- Every standoff that is recognised at this tick (R303). -/
def State.breakStandoffs (s : State) (ws : List (Nat × Token)) (lim : Nat) : Nat → State
  | 0 => s
  | f + 1 =>
    match s.findStandoff ws lim with
    | some cyc => (s.breakStandoff ws cyc).breakStandoffs ws lim f
    | none => s

/-- STANDOFF_CHECK (R302 to R305): at the tick, in class 11, the wait times are brought up to it and standoffs are broken or fault. -/
def State.applyStandoffCheck (s : State) : State :=
  let ws := sortStreams s.waitingStreams
  let s := s.setHrd { s.hrd with waits := s.waitTimes ws }
  let s := s.breakStandoffs ws (usTicks (max 10 (min 10000 (s.get HRD_STANDOFF_US.limit)))) ws.length
  s.setHrd { s.hrd with
    fires := (s.cores.map (·.1)).foldl (fun (m : Sparse Nat) k => spSet 0 m k (s.rn .CORE_FIRE_COUNT k)) [] }
def execStandoffCheck (s : State) : Host.Outcome State Fault Refusal := s.act (s.sampleRow 11 272 .standoffCheck)

/-- The 64 B units of a reserve from an offset on, round its end (R304) (DESIGN CHOICE, log entry 146). -/
def State.reserveUnits (s : State) (k at_ n : Nat) : List Nat :=
  let r := spGet (0, 0, 0) s.hrd.reserves k
  (upto (n / 64)).map fun i => r.2.1 + (at_ + 64 * i) % r.2.2

/-- The data of a token in its sender's staging, or with the token itself once it has left it. -/
def State.stagedData (s : State) (t : Token) : List Byte :=
  match t.src with
  | .core k .. => if t.phase = .waiting then s.load (s.spad k + t.addr) (64 * t.length) else t.data
  | _ => t.data

/-- STANDOFF_SPILL_COMPLETE (R304): the oldest token of the stream lies in the reserve; its staging slot has finished sending. Where
the memory refuses the reserve, the token stays in its slot (DESIGN CHOICE, log entry 147). -/
def execStandoffSpillComplete (entry : Fin 256) (s : State) : Host.Outcome State Fault Refusal :=
  let k := entry.val
  s.act (match s.hrd.spilling.find? fun x => x.1 = k with
    | some (_, st) =>
      let s := s.setHrd { s.hrd with spilling := dropFirst (fun x => x.1 = k) s.hrd.spilling }
      match s.noc.tokens.zipIdx.find? fun x => streamOf x.1 = some st with
      | some (t, n) =>
        let at_ := spGet 0 s.hrd.tails k
        let bytes := 64 * t.length + 64
        let units := s.reserveUnits k at_ bytes
        let (s', l) := s.writeUnits (s.spillReq (st / 256)) units (natLe 64 (tokenHeader t) ++ s.stagedData t)
        if l.length < units.length then s
        else
          let s := s'.dropTok n
          let s := s.setHrd { s.hrd with
            reserved := s.hrd.reserved ++ [{ entry := k, at_ := at_, token := t }],
            tails := spSet 0 s.hrd.tails k (at_ + bytes) }
          ((s.wn .HRD_RESERVE_USED k (s.rn .HRD_RESERVE_USED k + bytes)).bump .HRD_STANDOFF_BREAKS).bump
            .HRD_STANDOFF_SPILL_BYTES 0 bytes
      | none => s
    | none => s)

/-- STANDOFF_FAULT (R305): the regions of the cycle halt with STANDOFF. -/
def State.applyStandoff (s : State) (ps : List Nat) : State :=
  ps.foldl (fun (s : State) p => s.haltEvent p stSTANDOFF) s

def execStandoffFault (s : State) : Host.Outcome State Fault Refusal :=
  s.act (s.handleOne (fun e => match e with | .standoff _ => true | _ => false) fun s e =>
    match e.ev with
    | .standoff ps => s.applyStandoff ps
    | _ => s)

/-- Put an entry of HRD_RESERVE in force. -/
def State.loadReserve (s : State) (k : Nat) : State :=
  let e := (s.rn .HRD_RESERVE k, s.rn .HRD_RESERVE_BASE k, s.rn .HRD_RESERVE_SIZE k)
  s.setHrd { s.hrd with reserves := spSet (0, 0, 0) s.hrd.reserves k e }

/-- Is the region of the entry in force unbound, or none in force? -/
def State.reserveFree (s : State) (k : Nat) : Bool :=
  let r := spGet (0, 0, 0) s.hrd.reserves k
  !bitAt r.1 23 || s.rstate (bits r.1 3 0) = rsUnbound

/-- Word 0, 1 or 2 of an entry of HRD_RESERVE is written (R306); the entry takes effect now if the region of its stream, and that of
the stream it had, are unbound, else at the next bind. -/
def State.writeReserve (s : State) (k word v : Nat) : State :=
  let s := match word with
    | 0 => s.wn .HRD_RESERVE k (v % 2 ^ 24)
    | 1 => s.wn .HRD_RESERVE_BASE k (v % 2 ^ 48)
    | _ => s.wn .HRD_RESERVE_SIZE k (v % 2 ^ 32)
  if s.rstate (s.get HRD_RESERVE.region k) = rsUnbound ∧ s.reserveFree k then s.loadReserve k else s

/-- HRD_RESERVE_WRITE. -/
def execHrdReserveWrite (fn : Func) (entry : Fin 256) (word : Fin 3) (value : DWord) (s : State) :
    Host.Outcome State Fault Refusal :=
  s.act (s.pfWrite fn fun s => s.writeReserve entry.val word.val value.toNat)

/-- The reserves of a region's streams are discarded and counted, USED clears (R306, R309). -/
def State.clearReserves (s : State) (p : Nat) : State :=
  let ks := (upto 256).filter fun k => bits (spGet (0, 0, 0) s.hrd.reserves k).1 3 0 = p ∧
    bitAt (spGet (0, 0, 0) s.hrd.reserves k).1 23 = true
  let gone := s.hrd.reserved.filter fun r => r.entry ∈ ks
  let s := gone.foldl (fun (s : State) r => s.discard r.token.from_ r.token.packets) s
  let s := ks.foldl (fun (s : State) k => s.wn .HRD_RESERVE_USED k 0) s
  s.setHrd { s.hrd with
    reserved := s.hrd.reserved.filter fun r => r.entry ∉ ks
    spilling := s.hrd.spilling.filter fun x => x.1 ∉ ks
    tails := s.hrd.tails.filter fun e => e.1 ∉ ks }

end Sys2Proof.Machine
end

