-- ==== Sys2Proof/Machine/Visible.lean ====
section
/-! DEFINITION. Machine/Visible.lean: who sees which copy of a register (R19, R94, R190, R222, R253, R341, R385, R417, R455,
R551), and when a write is one that R19 discards. -/

namespace Sys2Proof.Machine

/-- Is fn the function of an existing context? -/
def State.isFnOf (s : State) (fn c : Nat) : Bool := decide (c < 31) && s.ctxExists c && s.get CTX_CONFIG.function c = fn

/-- Copies below the first dimension of a register. -/
def Reg.inner (r : Reg) : Nat := ((r.info.dims.drop 1).map (·.1)).foldl (· * ·) 1

/-- Does a function see a copy of a register? -/
def State.sees (s : State) (fn : Nat) (r : Reg) (i : Nat) : Bool :=
  let d := i / r.inner
  match r.info.vis with
  | .all => true
  | .pf => fn = 0
  | .ctx => fn = 0 || s.isFnOf fn d
  | .job => fn = 0 || s.isFnOf fn (s.get LNK_JOB_CTX.context)
  | .region => fn = 0 || s.isFnOf fn (s.rctx d)
  | .chan => fn = 0 || s.isFnOf fn (s.rctx d)
  | .noc => fn = 0 || s.isFnOf fn (s.rctx (d / 16))
  | .core => fn = 0 || s.isFnOf fn (s.rctx (d / 256))
  | .slot => fn = 0 || (decide (i / (r.inner / 160) % 10 < 8) && s.isFnOf fn (s.rctx d))

/-- A write by a function to a copy it sees; else R19 discards it. -/
def State.fnWrite (s : State) (fn : Func) (r : Reg) (i : Nat) (f : State → State) : State :=
  if !s.decodes fn then s else if s.sees fn.val r i then f s else s.badAccess fn

/-- Source index of a register command (R495): 64 from the physical function, the context's from its virtual function
(DEDUCED, log entry 150). -/
def State.fnSrc (s : State) (fn : Func) (c : Nat) : Nat := if fn.val = 0 then 64 else s.ctxSrc c

/-- A register command of a context that starts something at the next event tick (R46). -/
def State.fnSample (s : State) (fn : Func) (r : Reg) (i c : Nat) (cmd : Instr) : State :=
  s.fnWrite fn r i fun s => s.sampleRow 9 (s.fnSrc fn c) cmd

end Sys2Proof.Machine
end

