-- ==== Sys2Proof/Machine/Fetcher.lean ====
section
/-! DEFINITION. Machine/Fetcher.lean: the fetchers (R224 to R254): descriptors, arming, triggers and chains, transfers packet
by packet, tokens, pass-along copies, peer writes. -/

namespace Sys2Proof.Machine

/-! ## Slots -/

/-- Number of a slot: 160p + 10c + s. -/
def fslotIx (p ch sl : Nat) : Nat := 160 * p + 10 * ch + sl
def fslotRegion (i : Nat) : Nat := i / 160
def fslotCh (i : Nat) : Nat := i / 10
def fslotNo (i : Nat) : Nat := i % 10

/-! ## The descriptor (R228, R229) -/

/-- Bits of the image, numbered from bit 0 of byte 0. -/
def FchDesc.f (d : FchDesc) (hi lo : Nat) : Nat := bits (leNat d.img) hi lo
def FchDesc.kind (d : FchDesc) : Nat := d.f 1 0
def FchDesc.trigger (d : FchDesc) : Nat := d.f 3 2
def FchDesc.srcBank (d : FchDesc) : Nat := d.f 5 4
def FchDesc.dstBank (d : FchDesc) : Nat := d.f 7 6
def FchDesc.srcRing (d : FchDesc) : Nat := d.f 10 8
def FchDesc.dstRing (d : FchDesc) : Nat := d.f 13 11
def FchDesc.peerDst (d : FchDesc) : Bool := d.f 14 14 = 1
def FchDesc.recXfer (d : FchDesc) : Bool := d.f 15 15 = 1
def FchDesc.tallyDone (d : FchDesc) : Bool := d.f 16 16 = 1
def FchDesc.rearmJoin (d : FchDesc) : Bool := d.f 17 17 = 1
def FchDesc.nextSlot (d : FchDesc) : Nat := d.f 21 18
def FchDesc.chainEn (d : FchDesc) : Bool := d.f 22 22 = 1
def FchDesc.listLen (d : FchDesc) : Nat := d.f 26 23 + 1
def FchDesc.rowBytes (d : FchDesc) : Nat := d.f 55 32
def FchDesc.src (d : FchDesc) : Nat := d.f 111 64
def FchDesc.dst (d : FchDesc) : Nat := d.f 175 128
def FchDesc.rows (d : FchDesc) : Nat := d.f 207 192 + 1
def FchDesc.planes (d : FchDesc) : Nat := d.f 223 208 + 1
def FchDesc.xfers (d : FchDesc) : Nat := d.f 247 224 + 1
/-- The strides in order: src_row, src_plane, dst_row, dst_plane, src_xfer, dst_xfer. -/
def FchDesc.strideBits (d : FchDesc) (n : Nat) : Nat := d.f (256 + 32 * n + 31) (256 + 32 * n)
def FchDesc.stride (d : FchDesc) (n : Nat) : Int := sext 32 (d.strideBits n)
def FchDesc.deadline (d : FchDesc) : Nat := d.f 471 448
def FchDesc.trigTally (d : FchDesc) : Nat := d.f 499 480
def FchDesc.trigValue (d : FchDesc) : Nat := d.f 543 512
def FchDesc.doneTally (d : FchDesc) : Nat := d.f 563 544
/-- The token template (R58). -/
def FchDesc.token (d : FchDesc) : Nat := d.f 639 576
def FchDesc.tag0 (d : FchDesc) : Nat := bits d.token 51 36
def FchDesc.tokOp (d : FchDesc) : Nat := bits d.token 23 19
def FchDesc.tokPort (d : FchDesc) : Nat := bits d.token 18 16
def FchDesc.peer (d : FchDesc) : Nat := d.f 671 640
/-- Pass-along entry n: region, cluster, logical core, tag_delta. -/
def FchDesc.entry (d : FchDesc) (n : Nat) : Nat := d.f (704 + 16 * n + 15) (704 + 16 * n)
def FchDesc.entryCore (d : FchDesc) (n : Nat) : Nat :=
  256 * bits (d.entry n) 3 0 + 16 * bits (d.entry n) 7 4 + bits (d.entry n) 11 8
/-- Bytes of a transfer. -/
def FchDesc.bytes (d : FchDesc) : Nat := d.planes * d.rows * d.rowBytes
/-- The core that a token goes to. -/
def FchDesc.target (d : FchDesc) (copy : Nat) : Nat := if d.kind = 2 then d.entryCore copy else bits d.token 35 24

/-- The fields that R228 and R229 reserve are zero. -/
def FchDesc.reservedZero (d : FchDesc) : Bool :=
  d.f 31 27 = 0 && d.f 63 56 = 0 && d.f 127 112 = 0 && d.f 191 176 = 0 && d.f 255 248 = 0 && d.f 479 472 = 0 &&
    d.f 511 500 = 0 && d.f 575 564 = 0 && d.f 703 672 = 0 && d.f 1023 960 = 0 &&
    (upto 16).all fun n => bits (d.entry n) 15 14 = 0

/-- The rules of the token and pass-along kinds (R237). -/
def FchDesc.tokenOk (d : FchDesc) : Bool :=
  decide (d.dst < 2 ^ 21) && d.strideBits 2 = d.rowBytes && d.strideBits 3 = d.rows * d.rowBytes &&
    decide (d.bytes / 64 ≤ 16383) && bits d.token 63 52 = 0 && bits d.token 15 0 = 0

/-- Is the image accepted (R231)? -/
def FchDesc.ok (d : FchDesc) : Bool :=
  d.reservedZero && decide (d.kind ≠ 3) && decide (d.trigger ≠ 3) && decide (d.srcBank ≠ 3) && decide (d.dstBank ≠ 3) &&
    decide (d.srcRing ≤ 4) && decide (d.dstRing ≤ 4) && decide (d.nextSlot ≤ 9) && decide (d.rowBytes ≠ 0) &&
    d.rowBytes % 64 = 0 && d.src % 64 = 0 && d.dst % 64 = 0 && (upto 6).all (fun n => d.strideBits n % 64 = 0) &&
    (d.kind = 0 || d.tokenOk)

/-- An address of transfer x, plane q, row r (R230), before any bank offset. -/
def fchAddr (base : Nat) (rowS planeS xferS : Int) (ring q r x : Nat) : Nat :=
  wrapInt 64 (base + q * planeS + r * rowS + ((if ring = 0 then x else x % 2 ^ ring : Nat) : Int) * xferS)

/-- The packets of transfer x in issue order (R230, R234): source, destination, bytes; rows cut at every 2,048 B boundary of
the destination. -/
def FchDesc.packets (d : FchDesc) (x : Nat) : List (Nat × Nat × Nat) :=
  (upto d.planes).flatMap fun q => (upto d.rows).flatMap fun r =>
    let sa := fchAddr d.src (d.stride 0) (d.stride 1) (d.stride 4) d.srcRing q r x
    let da := fchAddr d.dst (d.stride 2) (d.stride 3) (d.stride 5) d.dstRing q r x
    (cutAt 2048 da d.rowBytes).map fun c => (sa + (c.1 - da), c.1, c.2)

/-- Where the bytes of a packet stand in the token it belongs to. -/
def FchDesc.tokenOff (d : FchDesc) (x n : Nat) : Nat :=
  (((d.packets x).take n).map fun p => p.2.2).foldl (· + ·) 0

/-- Does an address lie in the CXL tier or a host window (R233)? -/
def farAddr (a : Nat) : Bool := decide (cxlStart ≤ a ∧ a < cxlEnd) || decide (0x800000000000 ≤ a)

/-- The class of a transfer whose first packet moves between the two addresses (R233): 0 read, 1 write, 2 remote. -/
def FchDesc.cls (d : FchDesc) (sa da : Nat) : Nat :=
  if d.peerDst || farAddr sa || (d.kind = 0 && farAddr da) then 2 else if d.kind = 0 && decide (da < hbmEnd) then 1 else 0

/-- The byte counter of a class (R253). -/
def clsCounter (k : Nat) : Reg :=
  match k with
  | 2 => .FCH_CH_BYTES_REMOTE
  | 1 => .FCH_CH_BYTES_WRITE
  | _ => .FCH_CH_BYTES_READ

/-! ## Records and leashes -/

/-- A slot's completion (R236, R242, R243, R252): last_status, and for slots 0 to 7 a record of kind 5
(DEDUCED, log entry 58) (DEDUCED, log entry 59). -/
def State.fchRecord (s : State) (i status value : Nat) (irq : Bool) : State :=
  let s := s.put FCH_SLOT_STATUS.last_status i status
  let p := fslotRegion i
  if fslotNo i < 8 ∧ s.rctx p < 31 then s.postFetch (s.rctx p) status p (fslotCh i % 16) (fslotNo i) value irq else s

/-- Remove a slot's trigger leash: it has left the armed state (R296). -/
def State.unleash (s : State) (i : Nat) : State :=
  match (s.fslot i).leash with
  | some h => (s.dropLeash h).setFslot i { (s.dropLeash h).fslot i with leash := none }
  | none => s

/-- Is the context of a region being pre-empted or restored (R407)? -/
def State.preempting (s : State) (p : Nat) : Bool := s.ctx.preempts.any fun q => decide (p ∈ q.regions) && q.ctx = s.rctx p

/-- A descriptor becomes active (R240 to R242): DONE clears; its trigger is at arm, or waits for a chain or a leash. A
trigger tally that takes no leash leaves the slot armed (R299) (DEDUCED, log entry 56). -/
def State.activate (s : State) (i : Nat) (d : FchDesc) : State :=
  let f := s.fslot i
  let f' := { f with
    active := some d, xfer := none, next := 0, fired := decide (d.trigger = 0), leash := none, cancel := false, error := false
    failed := none
    parked := f.parked || (decide (fslotNo i < 8) && s.preempting (fslotRegion i)) }
  let s := ((s.setFslot i f').wn .FCH_SLOT_DONE i 0).put FCH_SLOT_STATUS.credit_wait i 0
  if d.trigger = 2 then
    let r := s.setLeash (s.rctx (fslotRegion i)) d.trigTally 0 false 0 d.trigValue (.fetcher i)
    r.1.setFslot i { r.1.fslot i with leash := r.2.2 }
  else s

/-- A slot becomes empty. -/
def State.emptyFslot (s : State) (i : Nat) : State :=
  let s := s.unleash i
  let f := s.fslot i
  let f' := { f with
    active := none, shadow := none, xfer := none, fired := false, cancel := false, error := false, parked := false, next := 0
    failed := none }
  (s.setFslot i f').put FCH_SLOT_STATUS.credit_wait i 0

/-! ## Arming and cancelling (R240 to R245) -/

/-- An ARM takes effect (R240 to R243): status of the command. A slot in error takes it as an empty one does
(DEDUCED, log entry 21); one that waits for a credit runs (DEDUCED, log entry 55). -/
def State.armSlot (s : State) (i : Nat) (img : List Byte) : State × Nat :=
  let d : FchDesc := { img := img, armTick := s.now }
  if !d.ok then (s.put FCH_SLOT_STATUS.last_status i stBAD_DESCRIPTOR, stBAD_DESCRIPTOR)
  else
    let f := s.fslot i
    let lose (o : FchDesc) : State := (s.bump .FCH_CH_REARM_OVERWRITE (fslotCh i)).fchRecord i stREARM_OVERWRITE 0 o.recXfer
    if f.code = 2 ∨ f.code = 3 then
      let s := f.shadow.elim s lose
      (s.setFslot i { s.fslot i with shadow := some d }, stOK)
    else if f.code = 1 then (((f.active.elim s lose).unleash i).activate i d, stOK)
    else (s.activate i d, stOK)

/-- Does the region take an ARM for the slot (R224)? -/
def State.armable (s : State) (i : Nat) : Bool :=
  decide (8 ≤ fslotNo i) || s.runs (fslotRegion i) || s.rstate (fslotRegion i) = rsHalted

/-- A CANCEL takes effect (R245): the slot's lost credit is software's to give back (R252). -/
def State.cancelSlot (s : State) (i : Nat) : State :=
  let f := s.fslot i
  if f.xfer.isSome then (s.setFslot i { f with shadow := none, cancel := true, lost := false })
  else (s.setFslot i { f with lost := false }).emptyFslot i

/-- The image in FCH_SLOT_IMAGE. -/
def State.slotImage (s : State) (i : Nat) : List Byte := (upto 32).flatMap fun w => natLe 4 (s.rn .FCH_SLOT_IMAGE (32 * i + w))

/-- Source index of a register command of a slot (R495): commands of one slot take effect in the order in which they reach the
channel (R240), so it is the region's context's (DEDUCED, log entry 150). -/
def State.slotSrc (s : State) (i : Nat) : Nat :=
  if fslotNo i < 8 ∧ s.rctx (fslotRegion i) < 31 then s.ctxSrc (s.rctx (fslotRegion i)) else 64

/-- FCH_SLOT_ARM: an ARM written to FCH_SLOT_CMD takes the image and waits for the next tick (R240). -/
def execFchSlotArm (fn : Func) (p : Region) (ch : Fin 16) (slot : Fin 10) (s : State) : Host.Outcome State Fault Refusal :=
  let i := fslotIx p.val ch.val slot.val
  s.act (s.fnWrite fn .FCH_SLOT_CMD i fun s => s.sample 9 (s.slotSrc i) (.arm i (s.slotImage i)))

/-- It takes effect. -/
def State.applyArm (i : Nat) (img : List Byte) (s : State) : State := if s.armable i then (s.armSlot i img).1 else s

/-- FCH_SLOT_CANCEL: a CANCEL written to FCH_SLOT_CMD (R245). -/
def State.applyFchSlotCancel (p : Region) (ch : Fin 16) (slot : Fin 10) (s : State) : State :=
  s.cancelSlot (fslotIx p.val ch.val slot.val)
def execFchSlotCancel (fn : Func) (p : Region) (ch : Fin 16) (slot : Fin 10) (s : State) : Host.Outcome State Fault Refusal :=
  let i := fslotIx p.val ch.val slot.val
  s.act (s.fnWrite fn .FCH_SLOT_CMD i fun s => s.sampleRow 9 (s.slotSrc i) (.fchSlotCancel fn p ch slot))

/-- Does the issuer hold the region (R393)? (DEDUCED, log entry 61). -/
def State.holds (s : State) (iss : Issuer) (p : Nat) : Bool := (iss.ctxNum.map fun c => decide (s.rctx p = c)).getD true

/-- FCH_ARM, a ring command with its own image. -/
def State.applyFchArm (iss : Issuer) (p : Region) (ch : Fin 16) (slot : Fin 16) (img : List Byte) (s : State) : State :=
  let i := fslotIx p.val ch.val slot.val
  let s := s.began iss 0x08
  if 8 ≤ slot.val ∨ img.length ≠ 128 then s.complete iss 0x08 stBAD_DESCRIPTOR
  else if s.holds iss p.val = true ∧ s.armable i = true then
    let r := s.armSlot i img
    r.1.complete iss 0x08 r.2
  else s.complete iss 0x08 stBUSY
def execFchArm (iss : Issuer) (p : Region) (ch : Fin 16) (slot : Fin 16) (img : List Byte) (s : State) :
    Host.Outcome State Fault Refusal :=
  s.act (if s.ringHeld iss then s else s.sampleHost iss (.fchArm iss p ch slot img))

/-- FCH_CANCEL. -/
def State.applyFchCancel (iss : Issuer) (p : Region) (ch : Fin 16) (slot : Fin 16) (s : State) : State :=
  let s := s.began iss 0x09
  if 8 ≤ slot.val then s.complete iss 0x09 stBAD_DESCRIPTOR
  else if s.holds iss p.val then (s.cancelSlot (fslotIx p.val ch.val slot.val)).complete iss 0x09 stOK
  else s.complete iss 0x09 stBUSY
def execFchCancel (iss : Issuer) (p : Region) (ch : Fin 16) (slot : Fin 16) (s : State) : Host.Outcome State Fault Refusal :=
  s.act (if s.ringHeld iss then s else s.sampleHost iss (.fchCancel iss p ch slot))

/-! ## Transfers (R232 to R239, R248) -/

/-- The requester a channel acts for (R224): at its router, for the context bound to the region. Slots 8 and 9 of an unbound
region move what the engine that armed them names (R226, R263). -/
def State.fchReq (s : State) (i : Nat) : Requester :=
  let c := s.rctx (fslotRegion i)
  if h : c < 31 then .mesh ⟨c, h⟩ (Fin.ofNat 256 (fslotCh i)) else .engine

/-- Offset of a bank field, the selector sampled now (R232, R320). -/
def State.bankOff (s : State) (c bank : Nat) : Nat :=
  let sel := s.get CTX_STEP_STATE.sel c
  let d := s.rn .CTX_BANK_DELTA c
  if bank = 1 then sel * d else if bank = 2 then (1 - sel) * d else 0

/-- Does a banked range lie within bank A before its offset (R320)? -/
def State.inBankA (s : State) (c a n : Nat) : Bool :=
  decide (s.rn .CTX_BANK_BASE c ≤ a ∧ a + n ≤ s.rn .CTX_BANK_BASE c + s.rn .CTX_BANK_SIZE c)

/-- The window of a core in the device address space (R92). -/
def coreWindow (k : Nat) : Nat := 0x7F0000000000 + k * 0x200000

/-- The source of a packet of a transfer: device address, and whether it may be read at all. Copies of a pass-along after the
first read the previous entry's window (R248). -/
def State.srcAt (s : State) (i : Nat) (d : FchDesc) (x : FchXfer) (pk : Nat × Nat × Nat) : Nat × Bool :=
  if x.copy = 0 then
    (pk.1 + x.srcOff, d.srcBank = 0 || s.inBankA (s.rctx (fslotRegion i)) pk.1 pk.2.2)
  else (coreWindow (d.entryCore (x.copy - 1)) + pk.2.1, true)

/-- The destination of a packet of the memory kind. -/
def State.dstAt (s : State) (i : Nat) (d : FchDesc) (x : FchXfer) (pk : Nat × Nat × Nat) : Nat × Bool :=
  (pk.2.1 + x.dstOff, d.dstBank = 0 || s.inBankA (s.rctx (fslotRegion i)) pk.2.1 pk.2.2)

/-- The check of one access of a packet: status and address of the failure (R236). -/
def State.packetFault (s : State) (i a n : Nat) (inside write shadow : Bool) : Option (Nat × Nat) :=
  if !inside then some (stADDR_FAULT, a)
  else
    match s.route (s.fchReq i) a n write shadow with
    | .refuse st => some (st, a)
    | _ => none

/-- The check of a token packet: its address in the core window, and its way (R93, R173, R236). Whether the core admits it is
judged at its router (R212, R591) (DEDUCED, log entry 57). -/
def State.tokenFault (s : State) (i : Nat) (d : FchDesc) (x : FchXfer) (pk : Nat × Nat × Nat) : Option (Nat × Nat) :=
  let a := coreWindow (d.target x.copy) + pk.2.1
  if !(decide (pk.2.1 + pk.2.2 ≤ spadSize) || decide (0x100000 ≤ pk.2.1 ∧ pk.2.1 + pk.2.2 ≤ 0x200000)) then some (stADDR_FAULT, a)
  else if s.courierPath (fslotCh i) (clusterOf (d.target x.copy)) = none then some (stFENCED, a)
  else none

/-- The first failure of a packet at its issue (DEDUCED, log entry 57). -/
def State.issueFault (s : State) (i : Nat) (d : FchDesc) (x : FchXfer) (pk : Nat × Nat × Nat) : Option (Nat × Nat) :=
  let (sa, sin) := s.srcAt i d x pk
  (s.packetFault i sa pk.2.2 sin false false) <|>
    (if d.kind ≠ 0 then s.tokenFault i d x pk
     else if d.peerDst then (if s.peerPath d.peer then none else some (stADDR_FAULT, pk.2.1))
     else
       let (da, din) := s.dstAt i d x pk
       s.packetFault i da pk.2.2 din true (d.dstBank = 2))

/-- The slot enters error once the packets it has issued have completed (R236, R268): the shadow discarded, the address recorded,
no chain, a record. A CANCEL that came meanwhile clears the error state (R245). -/
def State.settle (s : State) (i : Nat) : State :=
  let f := s.fslot i
  match f.failed, f.active with
  | some (st, a), some d =>
    if (f.xfer.map fun x => decide (x.done.length + x.held.length < x.issued)).getD false then s
    else
      let s := s.unleash i
      let f' := { s.fslot i with error := true, failed := none, shadow := none, xfer := none }
      let s := ((s.setFslot i f').wn .FCH_SLOT_FAULT_ADDR i (a % 2 ^ 48)).put FCH_SLOT_STATUS.credit_wait i 0
      let s := s.fchRecord i st (s.rn .FCH_SLOT_DONE i) d.recXfer
      if f.cancel then s.emptyFslot i else s
  | _, _ => s

/-- A packet of a slot is invalid: the first stops it (R236). -/
def State.fchError (s : State) (i status addr : Nat) : State :=
  let f := s.fslot i
  if f.error ∨ f.failed.isSome ∨ f.active.isNone then s
  else (s.setFslot i { f with failed := some (status, addr) }).settle i

/-! ## Sharing a channel (R227, R249 to R251) -/

/-- Requests a channel has outstanding, those of emptied slots among them (R227, R252). -/
def State.outstanding (s : State) (ch : Nat) : Nat :=
  ((upto 10).map fun sl =>
    let f := s.fslot (10 * ch + sl)
    f.stray + f.strayHost.length + (f.xfer.map fun x => x.issued - x.done.length).getD 0).foldl (· + ·) 0

/-- The class of a transfer (R233). -/
def State.classOf (s : State) (i : Nat) (d : FchDesc) (x : FchXfer) : Nat :=
  match (d.packets x.x).head? with
  | some pk => d.cls (pk.1 + x.srcOff) (s.dstAt i d x pk).1
  | none => 0

/-- The next packet of a slot: the transfer is in flight and may issue. -/
def State.nextPacket (s : State) (i : Nat) : Option (FchDesc × FchXfer × Nat × Nat × Nat) :=
  let f := s.fslot i
  match f.active, f.xfer with
  | some d, some x =>
    if f.error || f.failed.isSome || f.parked || !x.started then none
    else (d.packets x.x)[x.issued]?.map fun pk => (d, x, pk)
  | _, _ => none

/-- The class a cycle of the window of 16 belongs to (R249): nine, five and two in this order
(DESIGN CHOICE, log entry 152). -/
def cycleClass (pos : Nat) : Nat := if pos % 16 < 9 then 0 else if pos % 16 < 14 then 1 else 2

/-- Who owns a cycle: its class, or the first ready one in the order read, write, remote (R249). -/
def ownerOf (ready : List Nat) (pos : Nat) : Nat :=
  if cycleClass pos ∈ ready then cycleClass pos else ((upto 3).find? fun k => decide (k ∈ ready)).getD 0

/-- The deficit counts when some classes are ready: a class with nothing ready is owed nothing, and the ready ones count from the one
furthest behind (DESIGN CHOICE, log entry 152). -/
def settledAhead (ready : List Nat) (ahead : List Int) : List Int :=
  let a (k : Nat) : Int := if k ∈ ready then ahead.getD k 0 else max 0 (ahead.getD k 0)
  let m := (ready.map a).foldl min 64
  (upto 3).map fun k => if k ∈ ready then a k - max 0 m else a k

/-- The class that sends next: the owner of the cycle unless it runs ahead of its share, else the first ready class that does not;
so none runs ahead by more than the 64 flits of a packet (R249). -/
def pickClass (ready : List Nat) (g : FchChan) : Nat :=
  let a := settledAhead ready g.ahead
  let o := ownerOf ready g.pos
  if a.getD o 0 ≤ 0 then o else ((upto 3).find? fun k => decide (k ∈ ready ∧ a.getD k 0 ≤ 0)).getD o

/-- A class sends a packet of n flits: each cycle counts for its owner, every flit against the sender. -/
def FchChan.sent (g : FchChan) (ready : List Nat) (k n slot : Nat) : FchChan :=
  let own (j : Nat) : Nat := ((upto n).filter fun c => ownerOf ready (g.pos + c) = j).length
  { pos := (g.pos + n) % 16
    ahead := (settledAhead ready g.ahead).zipIdx.map fun x => x.1 + (if x.2 = k then (n : Int) else 0) - own x.2
    last := g.last.zipIdx.map fun x => if x.2 = k then slot else x.1 }

def State.chan (s : State) (ch : Nat) : FchChan := spGet {} s.fch.chans ch

/-- In deadline mode the earliest arm tick plus deadline goes first, deadline 0 last, then the lower slot (R250). -/
def dueBefore (a b : Nat × FchDesc) : Bool :=
  if a.2.deadline = 0 then b.2.deadline = 0 && decide (a.1 ≤ b.1)
  else b.2.deadline = 0 || decide (a.2.armTick + a.2.deadline < b.2.armTick + b.2.deadline) ||
    (a.2.armTick + a.2.deadline = b.2.armTick + b.2.deadline && decide (a.1 ≤ b.1))

/-- The slot of a channel that issues the next packet (R249, R250): slot 8 of a pre-empting region before every other (R408). -/
def State.pickSlot (s : State) (ch : Nat) : Option (Nat × FchChan) :=
  let l := (upto 10).filterMap fun sl => (s.nextPacket (10 * ch + sl)).map fun x => (sl, x.1, x.2.1, ceilDiv x.2.2.2.2 32)
  let g := s.chan ch
  let ready := (upto 3).filter fun k => l.any fun x => s.classOf (10 * ch + x.1) x.2.1 x.2.2.1 = k
  let sent (x : Nat × FchDesc × FchXfer × Nat) : Nat × FchChan :=
    (x.1, g.sent ready (s.classOf (10 * ch + x.1) x.2.1 x.2.2.1) x.2.2.2 x.1)
  let eight := if s.preempting (ch / 16) then l.find? fun x => x.1 = 8 else none
  match eight with
  | some x => some (sent x)
  | none =>
    if s.flag FCH_MODE.deadline then
      (l.find? fun x => l.all fun y => dueBefore (x.1, x.2.1) (y.1, y.2.1)).map sent
    else
      let k := pickClass ready g
      let m := l.filter fun x => s.classOf (10 * ch + x.1) x.2.1 x.2.2.1 = k
      let last := g.last.getD k 9
      ((m.find? fun x => decide (last < x.1)).or m.head?).map sent

/-- Issue the next packet of a channel, if one is ready and fewer than 32 requests are out (R227). -/
def State.issueOne (s : State) (ch : Nat) : State :=
  if 32 ≤ s.outstanding ch then s
  else
    match s.pickSlot ch with
    | none => s
    | some (sl, g) =>
      let i := 10 * ch + sl
      match s.nextPacket i with
      | none => s
      | some (d, x, pk) =>
        match s.issueFault i d x pk with
        | some (st, a) => s.fchError i st a
        | none =>
          let s := { s with fch := { s.fch with chans := spSet {} s.fch.chans ch g } }
          let host := match s.route (s.fchReq i) (s.srcAt i d x pk).1 pk.2.2 false with
            | .to (.host fn key) => [(x.issued, fn, key)]
            | _ => []
          s.setFslot i { s.fslot i with xfer := some { x with issued := x.issued + 1, hosts := x.hosts ++ host } }

/-- Issue what a channel may: at most 32 packets, and the fault of each of its slots. -/
def State.issueAll (s : State) (ch : Nat) : State := (upto 42).foldl (fun (s : State) _ => s.issueOne ch) s

/-! ## Credits (R239, R248) -/

/-- The tag of a copy (R238, R248). -/
def FchDesc.tagOf (d : FchDesc) (x copy : Nat) : Tag :=
  BitVec.ofNat 16 (d.tag0 + x + if d.kind = 2 then bits (d.entry copy) 13 12 else 0)

/-- The port slot a copy of a transfer goes to: core, op, port, slot (R238, R239). -/
def State.portSlot (s : State) (d : FchDesc) (x copy : Nat) : Nat × Nat × Nat × Nat :=
  let k := d.target copy
  (k, d.tokOp, d.tokPort, (d.tagOf x copy).toNat % opDepth ((s.core k).block.op d.tokOp))

/-- The port slots that another slot's transfer has taken a credit for and not yet sent to, or that its later copies still read
(R239, R248). -/
def State.slotsTaken (s : State) (d : FchDesc) (x : FchXfer) : List (Nat × Nat × Nat × Nat) :=
  if d.kind = 0 then []
  else
    (if x.started && !x.headed then [s.portSlot d x.x x.copy] else []) ++
      (if d.kind = 2 then ((upto (d.listLen - 1)).filter fun e => decide (x.copy ≤ e + 1)).map fun e => s.portSlot d x.x e else [])

/-- Does the channel hold the credit of a copy (R239)? A token that the seam filter will discard needs none until one is lost
(R252). -/
def State.fchCredit (s : State) (i : Nat) (d : FchDesc) (x copy : Nat) (e : Epoch) : Bool :=
  let ps := s.portSlot d x copy
  d.kind = 0 || (!(s.fslot i).lost && s.creditFor ps.1 d.tokOp d.tokPort (d.tagOf x copy) e && decide (ps ∉ s.fch.lost) &&
    (upto 10).all fun sl =>
      let j := 10 * fslotCh i + sl
      j = i || match (s.fslot j).active, (s.fslot j).xfer with
        | some d', some x' => decide (ps ∉ s.slotsTaken d' x')
        | _, _ => true)

/-- Is a slot ready to start its next transfer (R234, R241)? -/
def State.fchReady (s : State) (i : Nat) : Bool :=
  let f := s.fslot i
  f.code = 2 && f.xfer.isNone && s.armable i

/-- FETCH_TRANSFER_START: the slot's next transfer starts if the channel holds its credit; else the wait counts the given
NCLK cycles (R239). -/
def execFetchTransferStart (p : Region) (ch : Fin 16) (slot : Fin 10) (waited : Nat) (s : State) :
    Host.Outcome State Fault Refusal :=
  let i := fslotIx p.val ch.val slot.val
  let f := s.fslot i
  let e := BitVec.ofNat 12 (s.repoch p.val)
  s.act (match f.active with
    | some d =>
      if !s.fchReady i then s
      else if s.fchCredit i d f.next 0 e then
        let c := s.rctx p.val
        let x : FchXfer := { x := f.next, srcOff := s.bankOff c d.srcBank, dstOff := s.bankOff c d.dstBank, epoch := e }
        ((s.setFslot i { f with xfer := some x }).put FCH_SLOT_STATUS.credit_wait i 0).issueAll (fslotCh i)
      else (s.put FCH_SLOT_STATUS.credit_wait i 1).bump .FCH_CH_CREDIT_WAIT (fslotCh i) waited
    | none => s)

/-- PASS_ALONG_COPY: the next copy starts with its credit, once the copy before it stands in its window (R248). -/
def execPassAlongCopy (p : Region) (ch : Fin 16) (slot : Fin 10) (waited : Nat) (s : State) : Host.Outcome State Fault Refusal :=
  let i := fslotIx p.val ch.val slot.val
  let f := s.fslot i
  s.act (match f.active, f.xfer with
    | some d, some x =>
      if x.started || f.error || f.parked || s.noc.tokens.any (fun t => t.src = .fetcher i) then s
      else if s.fchCredit i d x.x x.copy x.epoch then
        ((s.setFslot i { f with xfer := some { x with started := true } }).put FCH_SLOT_STATUS.credit_wait i 0).issueAll (fslotCh i)
      else (s.put FCH_SLOT_STATUS.credit_wait i 1).bump .FCH_CH_CREDIT_WAIT (fslotCh i) waited
    | _, _ => s)

/-! ## Replies -/

/-- The token's header goes out with its first packet (R173, R238): none where its source router discards it with FENCED. -/
def State.fchHeader (s : State) (i : Nat) (d : FchDesc) (x : FchXfer) : Option State :=
  if x.headed then some s
  else
    s.launch { epoch := x.epoch, tag := d.tagOf x.x x.copy, dst := d.target x.copy, op := d.tokOp, port := d.tokPort,
               length := d.bytes / 64, src := .fetcher i, from_ := fslotCh i } (clusterOf (d.target x.copy))

/-- The bytes gathered for the token, once all have left. -/
def State.fchData (s : State) (i : Nat) (bs : List Byte) : State :=
  let ts := replaceFirst (fun (t : Token) => t.src = .fetcher i && t.data.isEmpty && decide (0 < t.length))
    (fun t => { t with data := bs }) s.noc.tokens
  { s with noc := { s.noc with tokens := ts } }

/-- Bytes moved (R253, R415). -/
def State.fchCount (s : State) (i : Nat) (d : FchDesc) (x : FchXfer) (n : Nat) : State :=
  let s := s.bump (clsCounter (s.classOf i d x)) (fslotCh i) n
  let s := if fslotNo i < 8 ∧ s.rctx (fslotRegion i) < 31 then s.bump .CTX_ACC_FETCH_BYTES (s.rctx (fslotRegion i)) n else s
  if d.peerDst ∧ s.rctx (fslotRegion i) < 31 then s.bump .CTX_ACC_LINK_BYTES (s.rctx (fslotRegion i)) n else s

/-- Packet n of a slot has completed. -/
def State.packetDone (s : State) (i n : Nat) (f : FchXfer → FchXfer) : State :=
  let g := s.fslot i
  s.setFslot i { g with xfer := g.xfer.map fun x => f { x with done := x.done ++ [n] } }

/-- The bytes of packet n are written by their own address (R172, R234): none where the target holds the write. -/
def State.putPacket (s : State) (i n : Nat) (d : FchDesc) (x : FchXfer) (pk : Nat × Nat × Nat) (bs : List Byte) (peerBad : Bool) :
    Option State :=
  if d.kind ≠ 0 then
    match if n = 0 then s.fchHeader i d x else some s with
    | none => some ((s.packetDone i n id).fchError i stFENCED (coreWindow (d.target x.copy) + pk.2.1))
    | some s =>
      let data := memStore x.data (d.tokenOff x.x n) bs
      let s := (s.packetDone i n fun x => { x with data := data, headed := x.headed || n = 0 }).fchCount i d x pk.2.2
      some (if x.done.length + 1 = (d.packets x.x).length then s.fchData i (memLoad data 0 d.bytes) else s)
  else if d.peerDst then
    let s := (s.packetDone i n id).fchCount i d x pk.2.2
    some (if peerBad then s.fchError i stADDR_FAULT pk.2.1 else s.sendTo d.peer (.peerWrite d.peer pk.2.1 d.dstBank bs) (ceilDiv bs.length 240) 2)
  else
    let a := (s.dstAt i d x pk).1
    match s.writeNow (s.fchReq i) a bs (d.dstBank = 2) with
    | (_, .held) => none
    | (s, .failed st) => some ((s.packetDone i n id).fchError i st a)
    | (s, _) => some ((s.packetDone i n id).fchCount i d x pk.2.2)

/-- A reply for a slot emptied since: discarded and counted (R252). -/
def State.discardReply (s : State) (i : Nat) : State :=
  let f := s.fslot i
  if 0 < f.stray then (s.setFslot i { f with stray := f.stray - 1 }).bump .FCH_CH_DISCARDS (fslotCh i) else s

/-- The reply of packet n has its data, or its failure: the packet completes, or waits in the read buffer of a parked slot (R246),
and the channel goes on. -/
def State.landPacket (s : State) (i n : Nat) (read : State → Nat → Nat → State × Reply) (peerBad : Bool) : State :=
  let f := s.fslot i
  let s := match f.active, f.xfer with
    | some d, some x =>
      match (d.packets x.x)[n]? with
      | some pk =>
        if x.issued ≤ n ∨ n ∈ x.done ∨ n ∈ x.held.map Prod.fst then s.discardReply i
        else
          match read s (s.srcAt i d x pk).1 pk.2.2 with
          | (s1, .data bs) =>
            if f.parked then s1.setFslot i { f with xfer := some { x with held := x.held ++ [(n, bs)] } }
            else (s1.putPacket i n d x pk bs peerBad).getD s
          | (s1, .failed st) => (s1.packetDone i n id).fchError i st (s.srcAt i d x pk).1
          | _ => s
      | none => s.discardReply i
    | _, _ => s.discardReply i
  (s.settle i).issueAll (fslotCh i)

/-- The replies held for a slot that goes on are written (R246). -/
def State.flushHeld (s : State) (i : Nat) : State :=
  match (s.fslot i).active, (s.fslot i).xfer with
  | some d, some x =>
    x.held.foldl (fun (s : State) h =>
      match (s.fslot i).xfer, (d.packets x.x)[h.1]? with
      | some y, some pk =>
        let s' := s.setFslot i { s.fslot i with xfer := some { y with held := y.held.filter fun g => g.1 ≠ h.1 } }
        ((s'.putPacket i h.1 d y pk h.2 false).getD s)
      | _, _ => s) s
  | _, _ => s

/-- The read of packet n of a slot: of host memory where its issue translated it to (R555), FENCED once the link is down (R565). -/
def State.fetchNow (s : State) (i n a k : Nat) (bad fails : Nat := 0) (poison : Bool := false) : State × Reply :=
  match (s.fslot i).xfer.bind fun x => x.hosts.find? fun h => h.1 = n with
  | some h =>
    if s.flag HIF_STATUS.link_up then (s.bump .HIF_DMA_READ_BYTES h.2.1 k, .data (s.load h.2.2 k)) else (s, .failed stFENCED)
  | none => s.readNow (s.fchReq i) a k bad fails poison

/-- FETCH_READ_REPLY: packet n of a slot's transfer. reply: 0 the data; 1 and 2 burst `bad` fails its check once or twice
(R268); 3 the CXL device returns poison (R277); 4 the peer, or a package on the way, refuses the write (R433)
(DESIGN CHOICE, log entry 60). -/
def execFetchReadReply (p : Region) (ch : Fin 16) (slot : Fin 10) (n : Nat) (reply : Fin 5) (bad : Nat) (s : State) :
    Host.Outcome State Fault Refusal :=
  let i := fslotIx p.val ch.val slot.val
  let fails := if reply.val = 1 ∨ reply.val = 2 then reply.val else 0
  s.act (s.landPacket i n (fun s a k => s.fetchNow i n a k bad fails (reply = 3)) (reply = 4))

/-- Does packet n of a slot read a host window? -/
def State.hostPacket (s : State) (i n : Nat) : Bool :=
  let f := s.fslot i
  match f.active, f.xfer with
  | some d, some x => ((d.packets x.x)[n]?.map fun pk => decide (0x800000000000 ≤ (s.srcAt i d x pk).1)).getD false
  | _, _ => false

/-- The function whose window holds a host address (R554). -/
def windowFn (a : Nat) : Nat := min 16 ((a - 0x800000000000) / 0x1000000000)

/-- A completion of a host read whose slot has been emptied since: discarded, and counted (R252); in HIF_DMA_ERRORS too where it
failed, or where its function has been reset since (R550). The oldest read is taken to end first
(DEDUCED, log entry 136). -/
def State.landStray (s : State) (i : Nat) (failed : Bool) : State :=
  match (s.fslot i).strayHost with
  | (fn, flr) :: t =>
    let s := (s.setFslot i { s.fslot i with strayHost := t }).bump .FCH_CH_DISCARDS (fslotCh i)
    if flr || failed then s.bump .HIF_DMA_ERRORS fn else s
  | [] => s

/-- DMA_COMPLETION: a host completion for a packet: 0 successful, 1 Unsupported Request or Completer Abort, 2 poisoned
(R556). -/
def execDmaCompletion (p : Region) (ch : Fin 16) (slot : Fin 10) (n : Nat) (resp : Fin 3) (s : State) :
    Host.Outcome State Fault Refusal :=
  let i := fslotIx p.val ch.val slot.val
  s.act (if s.hostPacket i n then
      s.landPacket i n (fun s a k =>
        if resp = 0 then s.fetchNow i n a k
        else (s.bump .HIF_DMA_ERRORS (windowFn a), .failed (if resp = 1 then stADDR_FAULT else stMEM_ERROR))) false
    else s.landStray i (resp ≠ 0))

/-- DMA_TIMEOUT: no completion within 50 ms (R556). -/
def execDmaTimeout (p : Region) (ch : Fin 16) (slot : Fin 10) (n : Nat) (s : State) : Host.Outcome State Fault Refusal :=
  let i := fslotIx p.val ch.val slot.val
  s.act (if s.hostPacket i n then
      s.landPacket i n (fun s a _ =>
        (s.bump .HIF_DMA_ERRORS (windowFn a), .failed stMEM_ERROR)) false
    else s.landStray i true)

/-! ## Completion, chains, shadow (R234, R241, R242, R250) -/

/-- Chain a slot of a channel (R241). -/
def State.chainSlot (s : State) (i : Nat) : State :=
  let f := s.fslot i
  if f.code = 1 ∧ (f.active.map (·.trigger)) = some 1 then s.setFslot i { f with fired := true } else s

/-- Increment done_tally: an operation of the channel's agent port on its way to the herding unit (R294). -/
def State.fchTally (s : State) (i : Nat) (d : FchDesc) : State :=
  if d.tallyDone ∧ s.rctx (fslotRegion i) < 31 then
    let m : HerdMsg := ⟨i, 0, s.rctx (fslotRegion i), d.doneTally, 0, 1, true⟩
    { s with hrd := { s.hrd with msgs := s.hrd.msgs ++ [m] } }
  else s

/-- FETCH_TRANSFER_COMPLETE: every packet of the transfer (of the copy, for a pass-along) has its reply. The transfer's last,
or its descriptor's end by a shadow, or rec_xfer writes a record, a CANCEL alone none (R229, R242, R245). -/
def execFetchTransferComplete (p : Region) (ch : Fin 16) (slot : Fin 10) (s : State) : Host.Outcome State Fault Refusal :=
  let i := fslotIx p.val ch.val slot.val
  let f := s.fslot i
  s.act (match f.active, f.xfer with
    | some d, some x =>
      if f.error || f.failed.isSome || f.parked || !x.started || decide (x.done.length < (d.packets x.x).length) then s
      else if d.kind = 2 ∧ x.copy + 1 < d.listLen then
        let x' := { x with copy := x.copy + 1, started := false, issued := 0, hosts := [], done := [], data := [], headed := false }
        s.setFslot i { f with xfer := some x' }
      else
        let s := (s.bump .FCH_SLOT_DONE i).fchTally i d
        let late := s.flag FCH_MODE.deadline && d.deadline ≠ 0 && decide (d.armTick + d.deadline < s.now)
        let s := if late then s.bump .FCH_CH_DEADLINE_MISS (fslotCh i) else s
        let last := decide (d.xfers ≤ x.x + 1)
        let swap := f.shadow.isSome && (last || !d.rearmJoin)
        let s := if d.recXfer || last || swap then s.fchRecord i stOK (s.rn .FCH_SLOT_DONE i) d.recXfer else s
        let s := s.setFslot i { f with xfer := none, next := x.x + 1 }
        if f.cancel then s.emptyFslot i
        else
          let s := if swap then
              f.shadow.elim s fun n => (s.setFslot i { s.fslot i with shadow := none }).activate i n
            else if last then s.emptyFslot i else s
          if last && d.chainEn then s.chainSlot (10 * fslotCh i + d.nextSlot) else s
    | _, _ => s)

/-! ## Unbind and bind (R252, R254), parking (R246), mode (R251) -/

/-- The slots 0 to 7 of a region. -/
def fslotsOf (p : Nat) : List Nat := (upto 16).flatMap fun ch => (upto 8).map fun sl => fslotIx p ch sl

/-- What stays of a slot that is emptied: the replies still to be discarded. -/
def FchSlot.strays (f : FchSlot) : FchSlot := { stray := f.stray, strayHost := f.strayHost }

/-- The packets of a slot whose replies are outstanding: those that read no host window, and the windows' functions of the others. -/
def State.openReads (s : State) (i : Nat) : Nat × List (Nat × Bool) :=
  match (s.fslot i).active, (s.fslot i).xfer with
  | some d, some x =>
    let l := (upto x.issued).filter fun n => n ∉ x.done && n ∉ x.held.map Prod.fst
    let addr (n : Nat) : Nat := ((d.packets x.x)[n]?.map fun pk => (s.srcAt i d x pk).1).getD 0
    ((l.filter fun n => s.hostPacket i n = false).length,
      (l.filter fun n => s.hostPacket i n).map fun n => (windowFn (addr n), false))
  | _, _ => (0, [])

/-- A flush of the region (R252): slots empty, each active descriptor writes a FLUSHED record, replies outstanding will be
discarded. -/
def State.flushFetchers (s : State) (p : Nat) : State :=
  (fslotsOf p).foldl (fun (s : State) i =>
    let f := s.fslot i
    if f = {} then s
    else
      let out := s.openReads i
      let s := match f.active with
        | some d => s.fchRecord i stFLUSHED (s.rn .FCH_SLOT_DONE i) d.recXfer
        | none => s
      let s := s.emptyFslot i
      s.setFslot i { s.fslot i with
        stray := f.stray + out.1, strayHost := f.strayHost ++ out.2, parked := false, lost := false }) s

/-- The slot registers of a bound region clear (R254). -/
def State.clearFetchers (s : State) (p : Nat) : State :=
  let s := (fslotsOf p).foldl (fun (s : State) i => s.setFslot i (s.fslot i).strays) s
  s.clearRegs fun r i =>
    match r with
    | .FCH_SLOT_IMAGE => i / 5120 = p && decide (i / 32 % 10 < 8)
    | .FCH_SLOT_STATUS => i / 160 = p && decide (i % 10 < 8)
    | .FCH_SLOT_DONE => i / 160 = p && decide (i % 10 < 8)
    | .FCH_SLOT_FAULT_ADDR => i / 160 = p && decide (i % 10 < 8)
    | _ => false

/-- The credits of a region's ports start anew at its bind (R239). -/
def State.freshCredits (s : State) (p : Nat) : State :=
  { s with fch := { s.fch with lost := s.fch.lost.filter fun x => regionOf x.1 ≠ p } }

/-- Park, or release, the slots of a region (R246). -/
def State.parkFetchers (s : State) (p : Nat) (on : Bool) : State :=
  (fslotsOf p).foldl (fun (s : State) i =>
    let f := s.fslot i
    if f.active.isSome then
      let s := s.setFslot i { f with parked := on }
      if on then s else ((s.flushHeld i).settle i).issueAll (fslotCh i)
    else s) s

/-- Have the replies of a region's parked slots all come (R246, R407)? -/
def State.fetchersStill (s : State) (p : Nat) : Bool :=
  (fslotsOf p).all fun i => ((s.fslot i).xfer.map fun x => decide (x.issued ≤ x.done.length + x.held.length)).getD true

/-- Is an admitted token the open one of a parked slot, whose packets go on after the resume (R246)? -/
def State.parkedToken (s : State) (t : Token) : Bool :=
  match t.src with
  | .fetcher i => (s.fslot i).parked && t.data.isEmpty
  | _ => false

/-- FCH_MODE_WRITE: the mode changes at the tick (R251). -/
def State.applyFchModeWrite (value : Word) (s : State) : State := s.put FCH_MODE.deadline 0 (value.toNat % 2)
def execFchModeWrite (fn : Func) (value : Word) (s : State) : Host.Outcome State Fault Refusal :=
  s.act (s.pfSample fn (.fchModeWrite fn value))

/-- The lead's choice (R251): deadline mode until the first bind, during self-tests and during a fill or a restore, else normal mode
(DEDUCED, log entry 116). -/
def State.leadMode (s : State) : State :=
  s.put FCH_MODE.deadline 0
    (if !s.bnd.everBound || !s.flt.testing.isEmpty || s.flt.fill.isSome || s.flt.restore.isSome then 1 else 0)

end Sys2Proof.Machine
end

