-- ==== Sys2Proof/Machine/Network.lean ====
section
/-! DEFINITION. Machine/Network.lean: tokens on their way (R160 to R191, R590, R591): stream routes, courier packets and detours,
multicast trees and stragglers, reduction nodes, the load of a spare. -/

namespace Sys2Proof.Machine

/-- FENCED for a packet (R173): a core's goes to its context, one record per tick and sending region; a fetcher's slot stops. The
spec names no sender for a node's result: it tells none (DESIGN CHOICE, log entry 153). -/
def State.tellFenced (s : State) (t : Token) : State :=
  match t.src with
  | .core k _ _ _ =>
    { s with noc := { s.noc with fenced := spSet 0 s.noc.fenced (regionOf k) (spGet 0 s.noc.fenced (regionOf k) + 1) } }
  | .fetcher i => s.fchError i stFENCED (coreWindow t.dst + ((s.fslot i).active.map (·.dst)).getD 0)
  | _ => s

/-- A token that is in no list is discarded with FENCED at a router. -/
def State.refuseTok (s : State) (t : Token) (cl : Nat) : State := (s.discard cl t.packets).tellFenced t

/-- Token n is discarded with FENCED at a router. -/
def State.dropFenced (s : State) (n : Nat) (t : Token) (cl : Nat) : State := (s.dropTok n).refuseTok t cl

/-- A token goes to the end of the list: tokens stand in the order in which they were sent (R172). -/
def State.pushTok (s : State) (t : Token) : State := { s with noc := { s.noc with tokens := s.noc.tokens ++ [t] } }

/-! ## Stream routes (R162 to R166, R590) -/

/-- The route-table entry by which a core's output sends. -/
def State.routeOf (s : State) (t : Token) : Nat :=
  match t.src with
  | .core k op out _ => (s.core k).block.route op out
  | _ => 0

/-- Where the slots of a token's route lead (R162 to R166): the routers passed and the core reached, or none. Slots that the lane and
core feed belong to the route whose destination they reach. -/
def State.streamPath (s : State) (t : Token) : Option (List Nat × Nat × Option Nat) :=
  match t.src with
  | .core k _ _ _ =>
    let ends := (feeds s.slotTab (clusterOf k) (rtLane (s.routeOf t)) (lcoreOf k)).map fun x =>
      follow s.slotTab 64 (clusterOf k) x.1 x.2
    (ends.find? fun r => r.2 = (clusterOf t.dst, some (lcoreOf t.dst))).or ends.head?
  | _ => none

/-- Bytes of token n that are still with its sender. -/
def State.unsentOf (s : State) (n : Nat) : Nat := (s.noc.tokens[n]?.map (·.unsent)).getD 0

/-- A stream token leaves on its route: its beats reach the core that the slot tables lead to as far as its port takes them (R185), or
are dropped where the tables end or at a fenced router. One row carries what the route's slots carry from then on
(DESIGN CHOICE, log entry 154). -/
def State.streamGo (s : State) (n : Nat) (t : Token) : State :=
  match s.streamPath t with
  | none => s
  | some r =>
    let s := (s.endWait (streamOf t).toList).dropTok n
    match (r.1 ++ [r.2.1]).find? s.fencedRouter with
    | some cl => (s.countFlits .NOC_STREAM_FLITS (r.1.takeWhile fun x => !s.fencedRouter x) t.beats).discard cl t.beats
    | none =>
      match r.2.2 with
      | some l =>
        let m := s.noc.tokens.length
        let t' := { t with dst := 16 * r.2.1 + l, unsent := 64 * t.length }
        let s := (s.pushTok t').arrive m t' true
        s.countFlits .NOC_STREAM_FLITS r.1 (t.beats - s.unsentOf m / 64)
      | none => (s.countFlits .NOC_STREAM_FLITS r.1 t.beats).discard r.2.1 t.beats

/-- The route of a token that has begun carries its beats again (R185). -/
def State.streamOn (s : State) (n : Nat) (t : Token) : State :=
  let s' := s.pour n
  s'.countFlits .NOC_STREAM_FLITS ((s.streamPath t).map (·.1) |>.getD []) ((t.unsent - s'.unsentOf n) / 64)

/-- Is token n the oldest that its stream has staged? -/
def State.oldestOfStream (s : State) (n : Nat) (t : Token) : Bool :=
  match streamOf t with
  | some st => !((s.noc.tokens.take n).any fun x => streamOf x = some st)
  | none => true

/-- Is a token of the stream in a reserve, or on its way there (R304)? Later tokens follow it. -/
def State.streamReserved (s : State) (t : Token) : Bool :=
  match streamOf t with
  | some st => (s.hrd.reserved.any fun r => streamOf r.token = some st) || s.hrd.spilling.any fun x => x.2 = st
  | none => false

/-- The unit a packet goes to: the router of a contribution's node, or a core. -/
def Token.goal (t : Token) : Nat × Nat := match t.mode with | .reduction r .. => (1, r) | _ => (0, t.dst)

/-- No earlier token of the same source, destination, class and detour bit is on its way (R172). -/
def State.inOrder (s : State) (n : Nat) (t : Token) : Bool :=
  !((s.noc.tokens.take n).any fun x =>
    x.phase = .flying && x.from_ = t.from_ && x.goal = t.goal && x.cls = t.cls && x.detour = t.detour &&
      match x.src, t.src with
      | .core a .., .core b .. => a = b
      | .fetcher a, .fetcher b => a / 10 = b / 10
      | .mover a, .mover b => a = b
      | .spine, .spine => true
      | _, _ => false)

/-- Has the sending core been stopped with its state kept (R410)? -/
def State.egressStopped (s : State) (t : Token) : Bool :=
  match t.src with
  | .core k .. => (s.core k).stopped
  | _ => false

/-! ## Straggler buffers (R176) -/

/-- Flits that the straggler buffer of a router holds. -/
def State.stragglerFlits (s : State) (cl : Nat) : Nat :=
  ((s.noc.tokens.flatMap fun t => t.buffered.filter fun x => x.1 = cl).map fun x => x.2.2).foldl (· + ·) 0

/-- Show a full straggler buffer (4 KiB, 128 flits). -/
def State.showStraggler (s : State) (cl : Nat) : State :=
  s.put NOC_STATUS.straggler_full cl (if 128 ≤ s.stragglerFlits cl then 1 else 0)

/-- Copies of one multicast packet. -/
def samePacket (x t : Token) : Bool := x.src = t.src && x.tag = t.tag && x.group = t.group && x.op = t.op && x.port = t.port

/-- May copy n leave the fork that holds it: no earlier packet waits for the branch, and no other branch of the fork has filled the
straggler buffer with this one? -/
def State.branchFree (s : State) (n : Nat) (t : Token) : Bool :=
  match t.stalled with
  | none => true
  | some (cl, br) =>
    !((s.noc.tokens.take n).any fun x => x.stalled = some (cl, br) && !samePacket x t) &&
      !(s.noc.tokens.any fun x => samePacket x t && x.buffered.any fun b =>
          decide (b.1 = cl ∧ b.2.1 ≠ br) && decide (b.2.2 < t.flits))

/-- A branch has taken a packet it held back: its copies go on, and the buffer is free of them. -/
def State.freeBranch (s : State) (t : Token) : State :=
  match t.stalled with
  | none => s
  | some (cl, br) =>
    let ts := s.noc.tokens.map fun x =>
      if samePacket x t && x.stalled = some (cl, br) then { x with stalled := none, buffered := [] } else x
    ({ s with noc := { s.noc with tokens := ts } } : State).showStraggler cl

/-- TOKEN_ARRIVAL: a stream token leaves its staging and reaches its core, or, where hold had stopped it, goes on; a courier token
that is on its way reaches its core. A token for an agent (R378) is taken by the agent's own row. -/
def execTokenArrival (n : Nat) (s : State) : Host.Outcome State Fault Refusal :=
  s.act (match s.noc.tokens[n]? with
    | some t =>
      if lcoreOf t.dst = 15 then s
      else if t.courier then
        (if t.phase = .flying && (match t.mode with | .unicast => true | _ => false) && s.inOrder n t && s.branchFree n t then
          (s.freeBranch t).arrive n { t with stalled := none, buffered := [] } false
        else s)
      else if s.egressStopped t || s.onHold t.dst t.op t.port then s
      else if t.phase = .waiting then (if s.oldestOfStream n t then s.streamGo n t else s)
      else if 0 < t.unsent then s.streamOn n t
      else s
    | none => s)

/-! ## Multicast (R174 to R177) -/

/-- How a router takes a multicast packet: it applies its entry; its seam filter discards the packet (R212); its entry is not valid; a
neighbour that its entry names is fenced (R173). -/
inductive TreeStep where
  | pass | seam | invalid | fenced
  deriving DecidableEq, Repr

/-- The routers a multicast packet enters from a router, each with what it does there and the forks and branches passed. -/
def State.tree (s : State) (e : Epoch) (g : Nat) : Nat → Nat → List (Nat × Nat) → List (Nat × TreeStep × List (Nat × Nat))
  | 0, _, _ => []
  | f + 1, cl, path =>
    let v := s.rn .NOC_GROUP (256 * cl + g)
    if !s.seamPass (cl / 16) e then [(cl, .seam, path)]
    else if !bitAt v 31 then [(cl, .invalid, path)]
    else (cl, .pass, path) :: ((upto 4).filter fun d => bitAt v (30 - d)).flatMap fun d =>
      match neighbour cl d with
      | some (m, _) => if s.fencedRouter m then [(cl, .fenced, path)] else s.tree e g f m (path ++ [(cl, d)])
      | none => [(cl, .invalid, path)]

/-- Does a router fork the packets of a group: two branches or more? -/
def State.forks (s : State) (cl g : Nat) : Bool :=
  let v := s.rn .NOC_GROUP (256 * cl + g)
  decide (2 ≤ ((upto 4).filter fun d => bitAt v (30 - d)).length + (if v % 2 ^ 15 = 0 then 0 else 1))

/-- The forks and branches on the ways of copies where they stop: those stalled now and those that earlier copies wait for. -/
def stops (stalls : List (Nat × Nat)) (path : List (Nat × Nat)) : Option (Nat × Nat) := path.find? fun x => decide (x ∈ stalls)

/-- The first copy held at a fork by a branch takes the branch's flits into the straggler buffer, as far as it has room (R176). -/
def State.bufferCopies (s : State) (g flits : Nat) (held : List (Nat × Nat)) : List (Nat × Nat × Nat) :=
  (held.foldl (fun (l : List (Nat × Nat × Nat)) x =>
    let used := s.stragglerFlits x.1 + ((l.filter fun y => y.1 = x.1).map fun y => y.2.2).foldl (· + ·) 0
    if s.forks x.1 g then l ++ [(x.1, x.2, min flits (128 - used))] else l) [])

/-- A multicast token leaves: a copy to every core of its tree. `stalls`: the routers and branches without credit; behind a fork
that cannot take all flits of a stalled branch the other branches stop too (R176) (DEDUCED, log entry 155). -/
def State.multicast (s : State) (t : Token) (g : Nat) (stalls : List (Nat × Nat)) : State :=
  let tr := s.tree t.epoch g 257 t.from_ []
  let cores := (tr.filter fun x => x.2.1 = .pass).flatMap fun x =>
    (unmask 15 (s.rn .NOC_GROUP (256 * x.1 + g))).map fun l => (16 * x.1 + l, x.2.2 ++ [(x.1, 4)])
  let stalls := stalls ++ s.noc.tokens.filterMap (·.stalled)
  let buf := s.bufferCopies g t.flits (cores.filterMap fun x => stops stalls x.2).eraseDups
  let full := (buf.filter fun x => decide (x.2.2 < t.flits)).map (·.1)
  let copies := cores.map fun x =>
    { t with dst := x.1, mode := .unicast, phase := .flying, group := some g
             stalled := (stops stalls x.2).or (x.2.find? fun y => decide (y.1 ∈ full)) }
  let first (b : Nat × Nat × Nat) : Option Nat := copies.findIdx? fun c => c.stalled = some (b.1, b.2.1)
  let copies := copies.zipIdx.map fun c => { c.1 with buffered := buf.filter fun b => first b = some c.2 }
  let s := s.countFlits .NOC_COURIER_FLITS ((tr.filter fun x => x.2.1 = .pass).map (·.1)) t.flits
  let s := tr.foldl (fun (s : State) x => match x.2.1 with
    | .pass => s
    | .seam => s.seamDiscard (x.1 / 16) x.1 t.epoch t.packets
    | .invalid => s.discard x.1 t.packets
    | .fenced => s.refuseTok t x.1) s
  let s := buf.foldl (fun (s : State) b => s.bump .NOC_STRAGGLER_COPIES b.1 b.2.2) s
  let s : State := { s with noc := { s.noc with tokens := s.noc.tokens ++ copies } }
  buf.foldl (fun (s : State) b => s.showStraggler b.1) s

/-! ## Courier packets leave (R61, R171 to R175, R180) -/

/-- A courier token leaves its source router: on its way, or discarded there with FENCED where no path avoids the fenced routers. -/
def State.sendCourier (s : State) (t : Token) (stalls : List (Nat × Nat)) : State :=
  match t.mode with
  | .multicast g => s.multicast t g stalls
  | .unicast => (s.launch t (clusterOf t.dst)).getD (s.refuseTok t t.from_)
  | .reduction r .. => (s.launch t r).getD (s.refuseTok t t.from_)

/-- May it leave: every credit it needs is held, or no credit is asked for since it will be discarded? -/
def State.mayLeave (s : State) (t : Token) : Bool :=
  !s.lacksCredit t || match t.mode with
    | .multicast _ => false
    | .unicast => (s.courierPath t.from_ (clusterOf t.dst)).isNone
    | .reduction r .. => (s.courierPath t.from_ r).isNone

/-- COURIER_PACKET_ROUTE: the oldest staged courier token of its stream leaves once every credit it needs is held; its data is read
from the sender's scratchpad then (R79). -/
def execCourierPacketRoute (n : Nat) (stalls : List (Fin 256 × Fin 5)) (s : State) : Host.Outcome State Fault Refusal :=
  s.act (match s.noc.tokens[n]? with
    | some t =>
      if !t.courier || t.phase ≠ .waiting || s.egressStopped t || !s.oldestOfStream n t || s.streamReserved t || !s.mayLeave t then s
      else
        ((s.endWait (streamOf t).toList).dropTok n).sendCourier { t with data := s.stagedData t }
          (stalls.map fun x => (x.1.val, x.2.val))
    | none => s)

/-- RESERVE_READBACK (R304): the oldest spilled token of the entry leaves once its credit is there, with the bytes that its reserve
holds. While the memory refuses the read it stays (DESIGN CHOICE, log entry 147). -/
def execReserveReadback (entry : Fin 256) (s : State) : Host.Outcome State Fault Refusal :=
  let k := entry.val
  s.act (match s.hrd.reserved.find? fun r => r.entry = k with
    | some r =>
      let t := r.token
      if s.egressStopped t || !s.mayLeave t then s
      else
        let units := s.reserveUnits k (r.at_ + 64) (64 * t.length)
        let (s', data) := s.readUnits (match t.src with | .core a .. => s.spillReq a | _ => .engine) units
        if data.length < 64 * t.length then s
        else
          let s := s'.setHrd { s'.hrd with reserved := dropFirst (fun x => x.entry = k) s'.hrd.reserved }
          (s.wn .HRD_RESERVE_USED k (s.rn .HRD_RESERVE_USED k - (64 * t.length + 64))).sendCourier { t with data := data } []
    | none => s)

/-- STRAGGLER_TIMEOUT: a branch has held token n for more than 1 ms (R177) (DEDUCED, log entry 72). -/
def execStragglerTimeout (n : Nat) (s : State) : Host.Outcome State Fault Refusal :=
  s.act (match s.noc.tokens[n]? with
    | some t =>
      match (if s.branchFree n t then t.stalled else none) with
      | some (cl, br) =>
        let g := t.group.getD 0
        let l := if br = 4 then lcoreOf t.dst else 0
        let s := if s.flag NOC_STRAGGLER_EVENT.valid cl then s else
          (((s.put NOC_STRAGGLER_EVENT.group cl g).put NOC_STRAGGLER_EVENT.branch cl br).put NOC_STRAGGLER_EVENT.core cl l).put
            NOC_STRAGGLER_EVENT.valid cl 1
        s.sampleOnce 11 (16 + cl) (.straggler cl g br l)
      | none => s
    | none => s)

/-- A straggler event is handled: a kind 4 record to the context that owns the group. -/
def State.applyStraggler (s : State) (cl g br l : Nat) : State :=
  if s.rctx (cl / 16) < 31 then s.postEvent (s.rctx (cl / 16)) stSTRAGGLER (cl / 16) 1 (g + 256 * br + 2048 * l) else s

/-! ## Reduction nodes (R178 to R181) -/

/-- What a node sends on: the combined contribution, or the root's token; it waits for its own credit (R61, R180). -/
def State.nodeOut (s : State) (cl nd : Nat) (t : Token) (leaf : Nat) (data : List Byte) : State :=
  let e := s.rn .NOC_NODE (64 * cl + nd)
  let t' : Token := { t with
    data := data, length := data.length / 64, src := .spine, from_ := cl, phase := .waiting, detour := false,
    mode := if ndRoot e then .unicast else .reduction (ndNext e) (ndNextNode e) leaf (ndOp e),
    dst := if ndRoot e then 16 * cl + lcoreOf t.dst else t.dst }
  { s with noc := { s.noc with tokens := s.noc.tokens ++ [t'] } }

/-- REDUCTION_CONTRIBUTION: token n, a contribution, reaches its node. -/
def execReductionContribution (n : Nat) (s : State) : Host.Outcome State Fault Refusal :=
  s.act (match s.noc.tokens[n]? with
    | some t =>
      match t.mode with
      | .reduction cl nd leaf _ =>
        if t.phase ≠ .flying || !s.inOrder n t then s
        else if !s.seamPass (cl / 16) t.epoch then (s.seamDiscard (cl / 16) cl t.epoch t.packets).dropTok n
        else
          let e := s.rn .NOC_NODE (64 * cl + nd)
          if !bitAt e 0 then (s.discard cl t.packets).dropTok n
          else
            match s.noc.combine.find? fun c => c.router = cl && c.node = nd && c.tag = t.tag with
            | some c =>
              let left := decide (leaf < ndSplit e)
              let data := if left then combineBytes (ndOp e) t.data c.data else combineBytes (ndOp e) c.data t.data
              let rest := s.noc.combine.filter fun x => !(x.router = cl && x.node = nd && x.tag = t.tag)
              let s := { s with noc := { s.noc with combine := rest } }
              (s.dropTok n).nodeOut cl nd t (if left then leaf else c.leaf) data
            | none =>
              let c : Combine := ⟨cl, nd, t.tag, leaf, t.epoch, t.data⟩
              ({ s with noc := { s.noc with combine := s.noc.combine ++ [c] } } : State).dropTok n
      | _ => s
    | none => s)

/-! ## Spill areas (R187, R191) -/

/-- The register of a region's spill area takes a value; it is in force from the next bind. -/
def State.writeSpill (s : State) (p : Nat) (size : Bool) (v : Nat) : State :=
  s.wn (if size then .NOC_SPILL_SIZE else .NOC_SPILL_BASE) p (v % 2 ^ 48)

/-- NOC_SPILL_WRITE. -/
def execNocSpillWrite (fn : Func) (p : Region) (size : Bool) (value : DWord) (s : State) : Host.Outcome State Fault Refusal :=
  s.act (s.fnWrite fn (if size then .NOC_SPILL_SIZE else .NOC_SPILL_BASE) p.val fun s => s.writeSpill p.val size value.toNat)

/-- A bind puts a region's spill area in force (R191). -/
def State.loadSpill (s : State) (p : Nat) : State :=
  { s with noc := { s.noc with
    spillBase := spSet 0 s.noc.spillBase p (s.rn .NOC_SPILL_BASE p),
    spillSize := spSet 0 s.noc.spillSize p (s.rn .NOC_SPILL_SIZE p) } }

/-! ## The spare (R160, R210) -/

/-- The leaf a bound region runs. -/
def State.leafOf (s : State) (p : Nat) : Option Leaf :=
  (s.rfolio p).bind fun f => f.leaves[spGet 0 s.bnd.leafOf p - 1]?

/-- The core block of a logical core in its leaf, with its init segment. -/
def State.coreSec (s : State) (k : Nat) : Option (Nat × CoreBlock × Nat × List Byte) :=
  (s.leafOf (regionOf k)).bind fun l => (l.secs.find? fun c => c.c = clusterOf k % 16).bind fun c =>
    c.cores.find? fun x => x.1 = lcoreOf k

/-- A core's tables with the region of a portable leaf written into every route that names one (R199) (DEDUCED, log entry 45). -/
def CoreBlock.retarget (b : CoreBlock) (p : Nat) : CoreBlock :=
  { b with routes := (upto (max b.routes.length (8 * b.opCount))).map fun i =>
      let r := b.route (i / 8) (i % 8)
      if b.namesRegion i then BitVec.ofNat 64 (putBits r 58 55 p) else BitVec.ofNat 64 r }

/-- Load a core's table block and init segment from its leaf. -/
def State.loadCore (s : State) (k : Nat) : State :=
  match s.coreSec k with
  | some (_, b, a, init) =>
    let b := if s.flag BND_REGION_STATE.portable (regionOf k) then b.retarget (regionOf k) else b
    (s.modCore k fun c => { c with block := b, hasBlock := true }).store (s.spad k + a) init
  | none => s

/-- SPARE_LOAD_COMPLETE: from now on the spare admits tokens from the base tag that its logical index held (R160). -/
def execSpareLoadComplete (core : CoreRef) (s : State) : Host.Outcome State Fault Refusal :=
  let k := core.key
  s.act (if (s.core k).loading then (s.loadCore k).modCore k fun c => { c with loading := false } else s)

end Sys2Proof.Machine
end

