-- ==== Sys2Proof/Machine/Spine.lean ====
section
/-! DEFINITION. Machine/Spine.lean: what the spine's engines share: their own reads and writes of a context's memory (R255,
R263), the job tick count (R313, R333, R432), tally increments of engines (R294), and the input journal (R479, R480). -/

namespace Sys2Proof.Machine

/-! ## Accesses of the engines: whole 64 B units on the mesh, the bytes asked for inside them -/

/-- Would a piece of a read, or of a write, be held on its way (R284, R503, R525)? What can wait for it waits. -/
def State.engHeld (s : State) (c a n : Nat) (write : Bool := false) : Bool :=
  if h : c < 31 then (cutAt 4096 a n).any fun p =>
    let lo := p.1 / 64 * 64
    let len := ceilDiv (p.1 + p.2) 64 * 64 - lo
    match s.route (.agent ⟨c, h⟩) lo len write with
    | .hold _ => true
    | .to pl => s.rangesHeld (s.hbmRanges pl len)
    | _ => false
  else false

/-- Read n bytes for a context, in pieces inside one 4 KiB page; none if a piece is refused or held for its page. -/
def State.engRead (s : State) (c a n : Nat) : State × Option (List Byte) :=
  if h : c < 31 then
    (cutAt 4096 a n).foldl (fun (x : State × Option (List Byte)) p =>
      match x.2 with
      | none => x
      | some bs =>
        let lo := p.1 / 64 * 64
        let len := ceilDiv (p.1 + p.2) 64 * 64 - lo
        match x.1.serveRead (.agent ⟨c, h⟩) lo len with
        | (s, .data d) => (s, some (bs ++ (d.drop (p.1 - lo)).take p.2))
        | (s, _) => (s, none)) (s, some [])
  else (s, none)

/-- Write bytes for a context; a piece that is refused writes nothing, one that is held waits its turn (R284). -/
def State.engWrite (s : State) (c a : Nat) (bs : List Byte) (shadow : Bool := false) : State :=
  if h : c < 31 then
    (cutAt 4096 a bs.length).foldl (fun (s : State) p =>
      let lo := p.1 / 64 * 64
      let len := ceilDiv (p.1 + p.2) 64 * 64 - lo
      if s.engHeld c p.1 p.2 true then
        s.serve { req := .host ⟨c, h⟩, addr := p.1, len := p.2, data := some ((bs.drop (p.1 - a)).take p.2), since := s.now
                  shadow := shadow, engine := true }
      else match s.route (.agent ⟨c, h⟩) lo len true shadow with
      | .to (.host f k) => s.poke (.host f (k + (p.1 - lo))) ((bs.drop (p.1 - a)).take p.2)
      | .to pl =>
        let old := s.peek pl len
        s.poke pl (old.take (p.1 - lo) ++ (bs.drop (p.1 - a)).take p.2 ++ old.drop (p.1 - lo + p.2))
      | _ => s) s
  else s

/-- Would the memory refuse a piece of a write (R263, R272, R277, R322)? -/
def State.engRefused (s : State) (c a n : Nat) : Bool :=
  if h : c < 31 then (cutAt 4096 a n).any fun p =>
    let lo := p.1 / 64 * 64
    match s.route (.agent ⟨c, h⟩) lo (ceilDiv (p.1 + p.2) 64 * 64 - lo) true with
    | .refuse _ => true
    | _ => false
  else true

/-- A number read for a context, zero where the read fails. -/
def State.engNum (s : State) (c a n : Nat) : Nat := leNat ((s.engRead c a n).2.getD [])

/-! ## The job -/

/-- Does a context train in a job of one package (R333)? -/
def State.solo (s : State) (c : Nat) : Bool := !(s.joined && s.get LNK_JOB_CTX.context = c)

/-- The address of a byte of bank A in the committed bank (1) or the shadow (2) (R320); none outside bank A. -/
def State.bankAddr (s : State) (c a n bank : Nat) : Option Nat := if s.inBankA c a n then some (a + s.bankOff c bank) else none

/-- An engine increments a tally of a context (R294); the source number stands for the engine (DEDUCED, log entry 67). -/
def State.herdAgent (s : State) (src c vid n : Nat) : State :=
  s.setHrd { s.hrd with msgs := s.hrd.msgs ++ [{ core := src, op := 0, ctx := c, vid := vid, act := 0, count := n, agent := true }] }

/-! ## The input journal (R479, R480) -/

/-- Entries of the ring. -/
def State.journalSize (s : State) : Nat := max 64 (s.rn .SNP_JOURNAL_COUNT)

/-- The journal position of the oldest complete snapshot. -/
def State.journalTail (s : State) : Option Nat :=
  (s.flt.slotsDone.map fun e => spGet 0 s.flt.slotJournal e.1).foldl (fun m x => some (min x (m.getD x))) none

/-- Entries that may be written before one newer than the oldest complete snapshot would be overwritten. -/
def State.journalFree (s : State) : Nat :=
  match s.journalTail with
  | none => s.journalSize
  | some t => s.journalSize - (s.flt.journal - t)

/-- Write an entry for the job context. -/
def State.journalWrite (s : State) (bs : List Byte) : State :=
  match s.jobCtx with
  | none => s
  | some c =>
    let a := s.rn .SNP_JOURNAL_BASE + 256 * (s.flt.journal % s.journalSize)
    let s := s.engWrite c a (bs.take 256 ++ List.replicate (256 - bs.length) 0#8)
    { s with flt := { s.flt with journal := s.flt.journal + 1 } }

/-- A step entry: kind 1. -/
def stepEntry (k : Nat) (record digests : List Byte) (vote flip : Nat) : List Byte :=
  [1#8] ++ List.replicate 7 0#8 ++ natLe 8 k ++ record.take 64 ++ List.replicate (64 - record.length) 0#8 ++
    digests.take 128 ++ List.replicate (128 - digests.length) 0#8 ++ natLe 2 vote ++ List.replicate 6 0#8 ++ natLe 8 flip

/-- A setting entry: kind 2; what: 0 seed, 1 numerics map, 2 coefficient table, 3 collective table. -/
def settingEntry (what k seed : Nat) (digest : List Byte) (tick : Nat) : List Byte :=
  [2#8, BitVec.ofNat 8 what] ++ List.replicate 6 0#8 ++ natLe 8 k ++ natLe 8 seed ++ List.replicate 56 0#8 ++
    digest.take 64 ++ List.replicate (64 - digest.length) 0#8 ++ List.replicate 72 0#8 ++ natLe 8 tick

/-- The newest journal entry of a kind for a step that satisfies p. -/
def State.journalFind (s : State) (c kind k : Nat) (p : List Byte → Bool) : Option (List Byte) :=
  (upto (min s.flt.journal s.journalSize)).findSome? fun i =>
    let e := ((s.engRead c (s.rn .SNP_JOURNAL_BASE + 256 * ((s.flt.journal - 1 - i) % s.journalSize)) 256).2).getD []
    if e.headD 0#8 = BitVec.ofNat 8 kind && leNat ((e.drop 8).take 8) = k && p e then some e else none

/-- Is the package in replay mode for a context (R480)? -/
def State.replaying (s : State) (c : Nat) : Bool := s.flt.replay && s.jobCtx = some c

/-- Journal an accepted setting of the job context. -/
def State.journalSetting (s : State) (c what seed : Nat) (digest : List Byte) : State :=
  if s.jobCtx = some c then s.journalWrite (settingEntry what (s.rn .CTX_STEP c) seed digest (s.jobTick c)) else s

/-- Does a setting differ from the journal's in replay mode (R480)? -/
def State.settingDiffers (s : State) (c what : Nat) (digest : List Byte) : Bool :=
  s.replaying c &&
    match s.journalFind c 2 (s.rn .CTX_STEP c) fun e => e.getD 1 0#8 = BitVec.ofNat 8 what with
    | some e => (e.drop 80).take 64 ≠ digest
    | none => false

end Sys2Proof.Machine
end

