-- ==== Sys2Proof/Machine/Saving.lean ====
section
/-! DEFINITION. Machine/Saving.lean: what a pre-emption saves and a resume restores (R246, R406 to R414). -/

namespace Sys2Proof.Machine

/-! ## The save area (R412) -/

def saveBlock : Nat := 432 * 2 ^ 20
/-- Offset of the core block of cluster c, logical core l. -/
def coreBlockOff (c l : Nat) : Nat := 0x300000 + 0x1C2000 * (15 * c + l)
/-- Offset of an image of a space in a core block: 0 scratchpad, 1 under-store. -/
def imageOff (space : Nat) : Nat := if space = 0 then 0x2000 else 0xC2000
/-- Bytes of a space. -/
def spaceSize (space : Nat) : Nat := if space = 0 then spadSize else ustoreSize
/-- The whole of both images. -/
def wholeCore : List (Nat × Nat × Nat) := [(0, 0, spadSize), (1, 0, ustoreSize)]

/-- First byte of a space behind a logical core. -/
def State.spaceAt (s : State) (k space : Nat) : Nat := if space = 0 then s.spad k else s.ustore k

/-- The ranges of entry m of a context's manifest (R406), in bytes: none where the index is beyond the table or the entry
breaks its limits. -/
def State.manifest (s : State) (c m : Nat) : Option (List (Nat × Nat × Nat)) :=
  if s.get CTX_MANIFEST_COUNT.count c ≤ m then none
  else
    match (s.engRead c (s.rn .CTX_MANIFEST_BASE c + 64 * m) 64).2 with
    | some bs =>
      let n := leNat (bs.take 1)
      let rs := (upto n).map fun r =>
        let v := leNat ((bs.drop (8 + 8 * r)).take 8)
        (v % 2, bits v 15 1, bits v 31 16, bits v 63 32)
      if n ≤ 7 ∧ rs.all (fun r => decide (1 ≤ r.2.2.1 ∧ r.2.2.1 ≤ 16384 ∧ r.2.2.2 = 0 ∧
          64 * (r.2.1 + r.2.2.1) ≤ spaceSize r.1)) = true then
        some (rs.map fun r => (r.1, 64 * r.2.1, 64 * r.2.2.1))
      else none
    | none => none

/-- The bytes of SRAM a core saves (R407, R408): its manifest's ranges if it has reported one; at rest, the input slots that
hold landed data; everything in a forced save. -/
def State.saveRanges (s : State) (c k : Nat) (forced : Bool) : List (Nat × Nat × Nat) :=
  let cs := s.core k
  if forced then wholeCore
  else
    match cs.yielded with
    | some m => (s.manifest c m.toNat).getD wholeCore
    | none => cs.entries.flatMap fun m => ((upto 8).filter fun q => m.landed &&& portBit q ≠ 0#8).map fun q =>
        let e := cs.block.port m.op q
        (0, portSlotAddr e (slotOf cs.block m.op m.tag), 64 * portSlotSize e)

/-- Bytes a saved core takes: its record, its images, and where it is saved whole its accumulator file (R412). -/
def coreBytes (rs : List (Nat × Nat × Nat)) : Nat :=
  2048 + (if rs = wholeCore then 3072 else 0) + (rs.map fun r => r.2.2).foldl (· + ·) 0

/-- Copy n bytes of SRAM into the save area, page by page; a page that refuses the write keeps its bytes. -/
def State.saveCopy (s : State) (c src dst n : Nat) : State :=
  if h : c < 31 then
    (cutAt mib2 dst n).foldl (fun (s : State) p =>
      match s.route (.agent ⟨c, h⟩) p.1 p.2 true with
      | .to (.hbm a) => ((s.copy (src + (p.1 - dst)) a p.2).mend a p.2).countHbm .MEM_WRITE_BYTES a p.2
      | _ => s) s
  else s

/-- Copy n bytes of the save area into SRAM, checked as any read of HBM (R271); the flag falls where a page is refused or fails. -/
def State.saveBack (s : State) (c src dst n : Nat) : State × Bool :=
  if h : c < 31 then
    (cutAt mib2 src n).foldl (fun (x : State × Bool) p =>
      match x.1.route (.agent ⟨c, h⟩) p.1 p.2 false with
      | .to (.hbm a) =>
        let s := x.1.countHbm .MEM_READ_BYTES a p.2
        if s.badIn [(a, p.2)] then (s.detectIn [(a, p.2)], false) else (s.copy a (dst + (p.1 - src)) p.2, x.2)
      | _ => (x.1, false)) (s, true)
  else (s, true)

/-- A core's block is lost: its region halts when its context resumes (R416). -/
def State.loseBlock (s : State) (c k : Nat) : State :=
  { s with ctx := { s.ctx with
    preempts := s.ctx.preempts.map fun q => if q.ctx = c ∧ k ∉ q.lost then { q with lost := q.lost ++ [k] } else q } }

/-- Write n bytes of a record whose layout the spec does not give: free values (DESIGN CHOICE, log entry 30). -/
def State.saveFree (s : State) (c a n : Nat) : State :=
  s.draw.engWrite c a (natLe n (Config.freeValue (8 * n) s.fresh).toNat)

/-- The 3 KiB image of an accumulator file: bank 0, then bank 1, row-major, raw FA48 (R114). -/
def CoreState.accImage (c : CoreState) : List Byte :=
  (bankList c.bank0 ++ bankList c.bank1).flatMap fun v => natLe 6 v.toNat
/-- A core with the accumulator file of an image. -/
def CoreState.withAccImage (c : CoreState) (bs : List Byte) : CoreState :=
  let bank (o : Nat) : List (BitVec 48) := (upto 256).map fun n => BitVec.ofNat 48 (leNat ((bs.drop (o + 6 * n)).take 6))
  { c with bank0 := bankOf (bank 0), bank1 := bankOf (bank 1536) }

/-- Write the block of a region, its index k in the save area (R412): the records, then every core's images. -/
def State.writeBlock (s : State) (c k p : Nat) (forced : Bool) : State × List (Nat × List (Nat × Nat × Nat)) :=
  let base := s.rn .CTX_SAVE_BASE c + saveBlock * k
  let s := s.saveFree c base 65536
  let s := (upto 16).foldl (fun (s : State) ch => s.saveFree c (base + 0x10000 + 0x11000 * ch) (if forced then 69632 else 4096)) s
  let s := (upto 16).foldl (fun (s : State) x => s.saveFree c (base + 0x120000 + 0x18000 * x) (if forced then 90112 else 4096)) s
  (upto 16).foldl (fun (a : State × List (Nat × List (Nat × Nat × Nat))) x =>
    (upto a.1.gradeCores).foldl (fun (a : State × List (Nat × List (Nat × Nat × Nat))) l =>
      let key := 256 * p + 16 * x + l
      let rs := a.1.saveRanges c key forced
      let at_ := base + coreBlockOff x l
      let s := a.1.saveFree c at_ 2048
      let s := if rs = wholeCore then s.engWrite c (at_ + 0x800) (s.core key).accImage else s
      let s := rs.foldl (fun (s : State) r =>
        s.saveCopy c (s.spaceAt key r.1 + r.2.1) (at_ + imageOff r.1 + r.2.1) r.2.2) s
      (s, a.2 ++ [(key, rs)])) a) (s, [])

/-! ## Saving a region -/

/-- Is a token of a region's own: staged by its cores, or at rest in it? -/
def ownToken (p : Nat) (t : Token) : Bool :=
  (match t.src with | .core k .. => regionOf k = p && t.phase = .waiting | _ => false) ||
    (regionOf t.dst = p && decide (lcoreOf t.dst < 15) && t.phase ≠ .waiting)

/-- Registers of the slots 0 to 7 of a region (R253). -/
def slotRegKey (p key : Nat) : Bool :=
  let i := key / 512
  let n := key % 512
  (n = Reg.num .FCH_SLOT_IMAGE && i / 5120 = p && decide (i / 32 % 10 < 8)) ||
    ((n = Reg.num .FCH_SLOT_STATUS || n = Reg.num .FCH_SLOT_DONE || n = Reg.num .FCH_SLOT_FAULT_ADDR) &&
      i / 160 = p && decide (i % 10 < 8))

/-- The record of a region as it stands, its block written. -/
def State.saveRegion (s : State) (c k p : Nat) (forced : Bool) : State × SavedRegion :=
  let r := s.writeBlock c k p forced
  let head := 65536 + 16 * (if forced then 69632 + 90112 else 8192)
  let bytes := head + (r.2.map fun x => coreBytes x.2).foldl (· + ·) 0
  (r.1, { region := p, handle := s.get BND_REGION_STATE.handle p, leaf := spGet 0 s.bnd.leafOf p, key := spGet 0 s.bnd.keys p
          step := s.flag BND_REGION_STATE.step p, halted := decide (s.rstate p = rsHalted), bytes := bytes, blocks := r.2
          cores := s.cores.filter fun e => e.1 / 256 = p
          tokens := s.noc.tokens.filter (ownToken p)
          combine := s.noc.combine.filter fun x => x.router / 16 = p
          holds := s.noc.holds.filter fun x => regionOf x.core = p
          replies := s.hrd.replies.filter fun x => regionOf x.1 = p
          slots := (fslotsOf p).map fun i => (i, s.fslot i)
          slotRegs := s.regs.filter fun e => slotRegKey p e.1 })

/-- Empty a saved region before its unbind: what is saved is neither discarded nor reported. -/
def State.emptyRegion (s : State) (p : Nat) : State :=
  let s := (fslotsOf p).foldl (fun (s : State) i => s.setFslot i (s.fslot i).strays) s
  let noc : NocState := { s.noc with
    tokens := s.noc.tokens.filter fun t => !ownToken p t
    combine := s.noc.combine.filter fun x => x.router / 16 ≠ p }
  ({ s with cores := s.cores.filter fun e => e.1 / 256 ≠ p, noc := noc } : State).put BND_REGION_STATE.step p 0

/-! ## Restoring a region (R414) -/

/-- A saved core in a region of epoch e, held until the restore ends, past the YIELD at which it was saved. -/
def CoreState.resumed (c : CoreState) (e : Epoch) : CoreState :=
  { c with
    entries := c.entries.map fun m => { m with epoch := e }
    yielded := none
    handler := c.handler.map fun h => match h.wait with | .yielding _ => { h with wait := .none } | _ => h
    loading := false
    stopped := true }

/-- A range of a core's block, or its accumulator image, cannot be read back: the block is lost (DEDUCED, log entry 164). -/
def State.backOrLose (x : State × Bool) (c k : Nat) : State := if x.2 then x.1 else x.1.loseBlock c k

/-- Put the saved state of a region back, with the new epoch e in entries, tokens, combine slots and transfers. -/
def State.restoreSaved (s : State) (c k e : Nat) (r : SavedRegion) : State :=
  let ep := BitVec.ofNat 12 e
  let at_ (key : Nat) : Nat := s.rn .CTX_SAVE_BASE c + saveBlock * k + coreBlockOff (clusterOf key % 16) (lcoreOf key)
  let s := r.blocks.foldl (fun (s : State) b =>
    b.2.foldl (fun (s : State) x =>
      State.backOrLose (s.saveBack c (at_ b.1 + imageOff x.1 + x.2.1) (s.spaceAt b.1 x.1 + x.2.1) x.2.2) c b.1) s) s
  let s := r.cores.foldl (fun (s : State) x => s.setCore x.1 (x.2.resumed ep)) s
  let s := (r.blocks.filter fun b => b.2 = wholeCore).foldl (fun (s : State) b =>
    match s.engRead c (at_ b.1 + 0x800) 3072 with
    | (s, some bs) => s.modCore b.1 fun x => x.withAccImage bs
    | (s, none) => s.loseBlock c b.1) s
  let noc : NocState := { s.noc with
    tokens := r.tokens.map (fun t => { t with epoch := ep }) ++ s.noc.tokens
    combine := r.combine.map (fun x => { x with epoch := ep }) ++ s.noc.combine
    holds := r.holds.map (fun x => { x with since := s.now }) ++ s.noc.holds }
  let s : State := { s with noc := noc, hrd := { s.hrd with replies := r.replies ++ s.hrd.replies } }
  let s := r.slots.foldl (fun (s : State) x =>
    let old := (s.fslot x.1).strays
    let f : FchSlot := { x.2 with xfer := x.2.xfer.map (fun f => { f with epoch := ep }) }
    s.setFslot x.1 { f with stray := old.stray, strayHost := old.strayHost }) s
  let s := r.slotRegs.foldl (fun (s : State) x => { s with regs := spSet 0#64 s.regs x.1 x.2 }) s
  let s := s.put BND_REGION_STATE.step r.region (if r.step then 1 else 0)
  { s with bnd := { s.bnd with keys := spSet 0 s.bnd.keys r.region r.key } }

/-- The region of a bind set that resumes (R414, steps 2 and 3). -/
def State.restoreRegion (s : State) (c p e : Nat) : State :=
  match s.ctx.preempts.find? fun q => q.ctx = c with
  | some q =>
    match q.saved.zipIdx.find? fun x => x.1.region = p with
    | some (r, k) => s.restoreSaved c k e r
    | none => s
  | none => s

end Sys2Proof.Machine
end

