-- ==== Sys2Proof/Machine/Binding.lean ====
section
/-! DEFINITION. Machine/Binding.lean: the binderies (R200 to R223): staging, release, bind, unbind, rebind, drain, waiting
commands, epochs, the step bind set (R310), claims and save space (R404, R405). -/

namespace Sys2Proof.Machine

/-! ## Staging (R201, R202, R513, R514, R588) -/

/-- Replace the binderies' state. -/
def State.setBnd (s : State) (b : BndState) : State := { s with bnd := b }

/-- Record a rejection (R222). -/
def State.reject (s : State) (r : Reject) (handle : Nat := 0) : State :=
  let s := s.bump .BND_REJECTS
  if s.flag BND_LAST_REJECT.valid then s
  else
    let s := (((s.put BND_LAST_REJECT.reason 0 r.reason).put BND_LAST_REJECT.leaf 0 r.leaf).put BND_LAST_REJECT.cluster 0
      r.cluster).put BND_LAST_REJECT.core 0 r.core
    (s.put BND_LAST_REJECT.handle 0 handle).put BND_LAST_REJECT.valid 0 1

/-- Show what BND_STATUS shows. -/
def State.showBnd (s : State) : State :=
  (s.put BND_STATUS.staging 0 (s.bnd.staging.foldl (fun m o => m ||| o.on) 0)).put BND_STATUS.handles 0 s.bnd.folios.length

/-- Units of 64 KiB of a leaf. -/
def leafUnits (n : Nat) : Nat := ceilDiv n 65536

/-- Units a folio takes on a die: each leaf in its own units, a portable leaf on every die of its mask (DEDUCED, log entry 22). -/
def unitsOn (portable : Bool) (dies : Nat) (leaves : List (Nat × Nat)) (d : Nat) : Nat :=
  ((leaves.filter fun l => if portable then bitAt dies d else l.1 / 4 = d).map fun l => leafUnits l.2).foldl (· + ·) 0

/-- Regions and lengths of the leaves an image's table names. -/
def State.leafTable (s : State) (a : Nat) : List (Nat × Nat) :=
  (upto (s.loadN (a + 10) 1)).map fun i => (s.loadN (a + 128 + 128 * i) 1, s.loadN (a + 128 + 128 * i + 16) 8)

/-- May the binderies read the image: it lies in HBM pages of the context (R201, R263), of which none is retired or fenced (R272, R273)
and no burst fails its check (R268) (DEDUCED, log entry 156)? -/
def State.imageStatus (s : State) (c a : Nat) : Nat :=
  let own (n : Nat) : Bool := decide (a + n ≤ hbmEnd) && (pagesIn a n).all fun g => s.pageOwner g = c
  let len := max 128 (s.loadN (a + 24) 8)
  if !(a % 64 = 0 && s.flag MEM_STATUS.init_done && own 128 && own len) then stADDR_FAULT
  else if (pagesIn a len).any s.pageFenced then stFENCED
  else if s.badIn [(a, len)] then stMEM_ERROR
  else stOK

/-- The check of a signature block (R514): a locked key set, an enrolled key of its key_id, a signature over the digest of the
header and leaf table (DEDUCED, log entry 64). -/
def State.sigOk (s : State) (a : Nat) : Bool :=
  let b := a + s.loadN (a + 32) 8
  s.flag SEC_STATUS.key_lock && !s.flag SEC_STATUS.violated && s.loadN (b + 4) 2 = 0x0087 && s.loadN (b + 6) 2 = 4627 &&
    match s.sec.keys.find? fun k => (Config.sha3 k).take 56 = s.load (b + 8) 56 with
    | some k => Config.mldsaVerify k (Config.sha3 (s.load a 2176)) (s.load (b + 64) 4627)
    | none => false

/-- The first leaf whose digest differs from its table entry (R194). -/
def State.badDigest (s : State) (a : Nat) : Option Nat :=
  (upto (s.loadN (a + 10) 1)).find? fun i =>
    let e := a + 128 + 128 * i
    Config.sha3 (s.load (a + s.loadN (e + 8) 8) (s.loadN (e + 16) 8)) ≠ s.load (e + 64) 64

/-- The lowest free handle (R201). -/
def State.freeFolio (s : State) : Option Nat := (upto 64).find? (fun h => (s.folio (h + 1)).isNone) |>.map (· + 1)

/-- The outcome of a STAGE, in the order of R588: a failure, or the folio. -/
def State.judgeStage (s : State) (c a dies : Nat) : Reject ⊕ Folio :=
  if s.imageStatus c a ≠ stOK then .inl ⟨s.imageStatus c a, 0x11, 0, 0, 15⟩
  else
    match s.headerReject a with
    | some r => .inl r
    | none =>
      let portable := bitAt (s.loadN (a + 11) 1) 0
      let tab := s.leafTable a
      if (upto 4).any fun d => decide (s.get BND_STORE_FREE.units d < unitsOn portable dies tab d) then
        .inl ⟨stNO_SPACE, 0x0E, 0, 0, 15⟩
      else
        match s.freeFolio with
        | none => .inl ⟨stNO_SPACE, 0x0E, 0, 0, 15⟩
        | some h =>
          if !s.sigOk a then .inl ⟨stAUTH_FAIL, 5, 0, 0, 15⟩
          else
            match s.badDigest a with
            | some i => .inl ⟨stAUTH_FAIL, 6, i, 0, 15⟩
            | none =>
              let n := s.loadN (a + 10) 1
              match (upto n).findSome? fun i => s.layoutReject a i with
              | some r => .inl r
              | none =>
                let ls := (upto n).map fun i => s.readLeaf a i
                match staticReject portable ls with
                | some r => .inl r
                | none => .inr
                    { handle := h, ctx := c, minRev := s.loadN (a + 8) 1, lcores := s.loadN (a + 9) 1, portable := portable,
                      step := bitAt (s.loadN (a + 11) 1) 1, epoch := BitVec.ofNat 32 (s.loadN (a + 12) 4),
                      folioId := BitVec.ofNat 64 (s.loadN (a + 16) 8), dies := dies, leaves := ls,
                      digests := (upto n).map fun i => s.load (a + 128 + 128 * i + 64) 64 }

/-- The dies whose stores a STAGE writes (R201): those of its leaves, for a portable folio those of its mask. -/
def State.stageDies (s : State) (c a dies : Nat) : Nat :=
  if s.imageStatus c a ≠ stOK then 0
  else if bitAt (s.loadN (a + 11) 1) 0 then dies
  else maskOf ((s.leafTable a).map fun l => l.1 / 4 % 4)

/-- STAGE: the copy begins. -/
def State.applyStage (iss : Issuer) (addr : BitVec 48) (dies : BitVec 4) (s : State) : State :=
  let o : StageOp := ⟨iss, addr.toNat, dies.toNat, s.stageDies (iss.ctxNum.getD 0x1F) addr.toNat dies.toNat⟩
  ((s.began iss 0x03).setBnd { s.bnd with staging := s.bnd.staging ++ [o] }).showBnd
def execStage (iss : Issuer) (addr : BitVec 48) (dies : BitVec 4) (s : State) : Host.Outcome State Fault Refusal :=
  s.act (s.sampleHost iss (.stage iss addr dies))

/-- Take or give back the store units of a folio. -/
def State.moveUnits (s : State) (f : Folio) (take : Bool) : State :=
  (upto 4).foldl (fun (s : State) d =>
    let n := unitsOn f.portable f.dies (f.leaves.map fun l => (l.region, l.length)) d
    let free := s.get BND_STORE_FREE.units d
    s.put BND_STORE_FREE.units d (if take then free - n else free + n)) s

/-- STAGE_COMPLETE: the n-th staging in progress ends with OK and a handle, or with its first failure. The image is judged as it
stands at the completion (DESIGN CHOICE, log entry 23). A read that a memory port holds keeps it waiting (R503, R525). -/
def execStageComplete (n : Nat) (s : State) : Host.Outcome State Fault Refusal :=
  s.act (match s.bnd.staging[n]? with
    | none => s
    | some o =>
      let len := max 128 (s.loadN (o.addr + 24) 8)
      if s.imageStatus (o.iss.ctxNum.getD 0x1F) o.addr = stOK ∧ s.rangesHeld [(o.addr, len)] then s else
      let s := if s.imageStatus (o.iss.ctxNum.getD 0x1F) o.addr = stMEM_ERROR then s.detectIn [(o.addr, len)] else s
      let s := (s.setBnd { s.bnd with staging := s.bnd.staging.eraseIdx n }).showBnd
      match s.judgeStage (o.iss.ctxNum.getD 0x1F) o.addr o.dies with
      | .inl r =>
        let s := if r.reason = 5 then (s.bump .SEC_FOLIO_CHECKS).bump .SEC_AUTH_FAILS
          else if r.reason = 6 ∨ (r.status = stBAD_FOLIO ∧ 7 ≤ r.reason) then s.bump .SEC_FOLIO_CHECKS else s
        (s.reject r).complete o.iss 0x03 r.status
      | .inr f =>
        let s := (s.bump .SEC_FOLIO_CHECKS).moveUnits f true
        ((s.setBnd { s.bnd with folios := s.bnd.folios ++ [f] }).showBnd).complete o.iss 0x03 stOK f.handle)

/-- Is a handle in use: bound from, loading, waited for, or saved (R203, R221, R409)? -/
def State.handleUsed (s : State) (h : Nat) : Bool :=
  ((upto 16).any fun p => s.rstate p ≠ rsUnbound && s.get BND_REGION_STATE.handle p = h) ||
    (s.bnd.waits.any fun w => w.handle = h) || (s.bnd.ops.any fun o => o.req.handle = h) ||
    s.ctx.preempts.any fun q => q.saved.any fun r => r.handle = h

/-- Remove a staged folio. -/
def State.dropFolio (s : State) (f : Folio) : State :=
  let s := s.moveUnits f false
  (s.setBnd { s.bnd with folios := s.bnd.folios.filter fun x => x.handle ≠ f.handle }).showBnd

/-- RELEASE (R203). -/
def State.applyRelease (iss : Issuer) (handle : Byte) (s : State) : State :=
  let s := s.began iss 0x07
  match s.folio handle.toNat with
  | some f =>
    if some f.ctx ≠ iss.ctxNum then s.complete iss 0x07 stBAD_DESCRIPTOR
    else if s.handleUsed f.handle then s.complete iss 0x07 stBUSY
    else (s.dropFolio f).complete iss 0x07 stOK
  | none => s.complete iss 0x07 stBAD_DESCRIPTOR
def execRelease (iss : Issuer) (handle : Byte) (s : State) : Host.Outcome State Fault Refusal :=
  s.act (s.sampleHost iss (.release iss handle))

/-! ## What a region shows -/

/-- CTX_PSTATE.regions and the states none and active (R417) (DEDUCED, log entry 65). -/
def State.showPstate (s : State) (c : Nat) : State :=
  if 31 ≤ c then s
  else
    let saved := (s.ctx.preempts.filter fun q => q.ctx = c).flatMap fun q => q.saved.map (·.region)
    let m := maskOf (s.regionsOf c) ||| maskOf saved
    let s := s.put CTX_PSTATE.regions c m
    if s.get CTX_PSTATE.state c < 2 then s.put CTX_PSTATE.state c (if m = 0 then 0 else 1) else s

/-- Write a region's state word. -/
def State.setRegion (s : State) (p state ctx epoch handle : Nat) (portable : Bool) : State :=
  let s := ((s.put BND_REGION_STATE.state p state).put BND_REGION_STATE.context p ctx).put BND_REGION_STATE.epoch p epoch
  (s.put BND_REGION_STATE.handle p handle).put BND_REGION_STATE.portable p (if portable then 1 else 0)

/-- Show state and epoch in the routers of a region (R190). -/
def State.showNoc (s : State) (p : Nat) : State :=
  (upto 16).foldl (fun (s : State) c =>
    (s.put NOC_STATUS.bound (16 * p + c) (if s.rstate p = rsUnbound ∨ s.rstate p = rsLoading then 0 else 1)).put
      NOC_STATUS.epoch (16 * p + c) (s.repoch p)) s

/-- End the step bind set of a context (R310). -/
def State.endStepSet (s : State) (c : Nat) : State :=
  (upto 16).foldl (fun (s : State) p => if s.rctx p = c then s.put BND_REGION_STATE.step p 0 else s) s

/-- The step bind set of a context. -/
def State.stepSet (s : State) (c : Nat) : List Nat := (s.regionsOf c).filter fun p => s.flag BND_REGION_STATE.step p

/-! ## The unbind half (R70, R181, R189, R214, R252) -/

/-- Tokens held in the matcher entries of a core. -/
def CoreState.heldTokens (c : CoreState) : Nat :=
  (c.entries.map fun m => ((upto 8).filter fun k => m.arrived &&& portBit k ≠ 0#8).length).foldl (· + ·) 0

/-- The router clear of a region (R208): slot outputs idle, groups, nodes, stored contributions, spill and holds gone. What a token
has in staging and spill area counts as one discard (R189) (DESIGN CHOICE, log entry 157). -/
def State.clearRouters (s : State) (p : Nat) : State :=
  let mine (t : Token) : Bool := regionOf t.dst = p && (t.phase = .diverted || (t.phase = .admitted && !t.courier))
  let s := ((s.noc.combine.filter fun c => c.router / 16 = p).foldl (fun (s : State) c => s.discard c.router) s)
  let s := ((s.noc.tokens.filter fun t => mine t && decide (0 < t.spilt)).foldl
    (fun (s : State) t => s.discard (clusterOf t.dst)) s)
  let s := s.clearRegs fun r i => match r with
    | .NOC_SLOT => i / 3072 / 16 = p
    | .NOC_GROUP => i / 256 / 16 = p
    | .NOC_NODE => i / 64 / 16 = p
    | _ => false
  let s := (s.noc.holds.filter fun h => regionOf h.core = p).foldl (fun (s : State) h => s.endHold h (256 * (s.now - h.since))) s
  let s : State := { s with noc := { s.noc with
    combine := s.noc.combine.filter fun c => c.router / 16 ≠ p
    tokens := s.noc.tokens.filter fun t => !mine t } }
  let s := s.setBnd { s.bnd with slotsOn := s.bnd.slotsOn.filter (· ≠ p) }
  (upto 16).foldl (fun (s : State) c => s.showSpill (16 * p + c)) s

/-- The region's cores and their staged tokens go: nothing of the old configuration remains but the registers. A stream token that its
sender had begun stays cut off in a region left behind (R219). -/
def State.dropCores (s : State) (p : Nat) : State :=
  let from_ (t : Token) : Bool := match t.src with | .core k .. => regionOf k = p | _ => false
  let gone (t : Token) : Bool := (from_ t && t.phase = .waiting) || (regionOf t.dst = p && t.phase = .admitted)
  let s := s.endWait ((s.noc.tokens.filter fun t => from_ t).filterMap streamOf)
  { s with
    cores := s.cores.filter fun e => e.1 / 256 ≠ p
    noc := { s.noc with
      tokens := (s.noc.tokens.filter fun t => !gone t).map fun t => if from_ t then { t with unsent := 0 } else t }
    hrd := { s.hrd with replies := s.hrd.replies.filter fun r => regionOf r.1 ≠ p } }

/-- A region becomes unbound at once, in flush mode (R214): its matcher-held and waiting tokens count once each
(DEDUCED, log entry 66) (DEDUCED, log entry 108). -/
def State.flushRegion (s : State) (p : Nat) : State :=
  let c := s.rctx p
  let held := (s.cores.filter fun e => e.1 / 256 = p).map fun e => e.2.heldTokens
  let waiting := (s.noc.tokens.filter fun t => regionOf t.dst = p && t.phase = .diverted).length
  let s := s.bump .BND_REGION_DISCARDS p (held.foldl (· + ·) 0 + waiting)
  let s := ((s.flushFetchers p).clearRouters p).dropCores p
  let s := s.clearReserves p
  let s := if s.flag BND_REGION_STATE.step p then s.endStepSet c else s
  let s := (s.setRegion p rsUnbound 0x1F 0 0 false).put BND_REGION_STATE.step p 0
  let s := s.setBnd { s.bnd with leafOf := spSet 0 s.bnd.leafOf p 0 }
  (s.showNoc p).showPstate c

/-! ## Judging (R205, R404, R405) -/

/-- The clusters of a bind, with their sections: (package cluster, leaf index, section). -/
def bindSecs (f : Folio) (target : Nat) : List (Nat × Nat × ClusterSec) :=
  f.leaves.zipIdx.flatMap fun l => l.1.secs.map fun sec =>
    (16 * (if f.portable then target else l.1.region) + sec.c, l.2, sec)

/-- Regions that a folio binds into. -/
def Folio.targets (f : Folio) (target : Nat) : List Nat := if f.portable then [target] else f.leaves.map (·.region)

/-- Package clusters that the tables of a section lead into. -/
def leadsTo (cl : Nat) (sec : ClusterSec) : List Nat :=
  (sec.slots.flatMap fun e =>
    let o := e.1 / 512
    if bits e.2.toNat 3 0 = 0 ∨ (4 ≤ o ∧ o < 8) then [] else (streamNext cl o).map (·.1)) ++
  (sec.groups.flatMap fun e =>
    if bitAt e.2.toNat 31 then ((upto 4).filter fun d => bitAt e.2.toNat (30 - d)).filterMap fun d => (neighbour cl d).map (·.1)
    else []) ++
  sec.nodes.filterMap fun e => if bitAt e.2.toNat 0 && !ndRoot e.2.toNat then some (ndNext e.2.toNat) else none

/-- The regions that a command loads: those of its folio; at a resume those that were saved (R414). -/
def BindReq.targets (r : BindReq) (f : Folio) : List Nat := if r.resume then r.named else f.targets r.target

/-- The fence checks of R205: fit, then seams and placement (DEDUCED, log entry 47). -/
def State.fenceReject (s : State) (f : Folio) (r : BindReq) : Option Reject :=
  let secs := (bindSecs f r.target).filter fun x => x.1 / 16 ∈ r.targets f
  let ts := f.targets r.target
  (secs.findSome? fun (cl, i, sec) =>
    if s.fencedRouter cl ∨ (sec.mask ≠ 0 ∧ (s.goodCores cl).length < f.lcores) then some ⟨stFENCED, 0x0F, i, cl % 16, 15⟩ else none) <|>
  (secs.findSome? fun (cl, i, sec) =>
    if (leadsTo cl sec).any s.fencedRouter then some ⟨stFENCED, 0x0F, i, cl % 16, 15⟩
    else if (leadsTo cl sec).any fun n => decide (n / 16 ∉ ts) then some ⟨stFENCED, 0x10, i, cl % 16, 15⟩ else none)

/-- Is a region claimed by another context (R404)? -/
def State.claimedByOther (s : State) (c p : Nat) : Bool := s.ctx.claims.any fun x => x.region = p && x.ctx ≠ c

/-- Is a region in the middle of a bind-family command (R220)? -/
def State.regionBusy (s : State) (p : Nat) : Bool :=
  s.rstate p = rsLoading || s.rstate p = rsDraining || s.bnd.ops.any fun o => decide (p ∈ o.regions) || decide (p ∈ o.req.named)

/-- Finish a bind-family command. -/
def State.endBind (s : State) (r : BindReq) (status : Nat) : State :=
  match r.iss with
  | some i => s.complete i r.opcode status
  | none => s

/-- The status on which the command fails before anything changes: the context manager's check of R405, then the bindery's. -/
def State.bindStatus (s : State) (r : BindReq) (f : Folio) : Nat :=
  let ts := r.targets f
  let after := ((s.regionsOf r.ctx).filter fun p => p ∉ r.named ∧ p ∉ ts) ++ ts
  if !r.resume && r.iss.isSome && s.flag CTX_CONFIG.preemptible r.ctx &&
      decide (s.rn .CTX_SAVE_SIZE r.ctx < 432 * 2 ^ 20 * after.length) then stNO_SPACE
  else if !(ts.all fun p => s.rstate p = rsUnbound || (s.rctx p = r.ctx && decide (p ∈ r.named))) ||
      !(r.named.all fun p => s.rctx p = r.ctx || s.rstate p = rsUnbound) then stBUSY
  else if ts.any fun p => (s.reserver p ≠ 0x1F && s.reserver p ≠ r.ctx) || s.claimedByOther r.ctx p then stBUSY
  else if (s.fenceReject f r).isSome then stFENCED
  else stOK

/-! ## The bind half (R206 to R211) -/

/-- Ticks from T0 until the load of a folio ends (R207, R208). -/
def loadTicks (f : Folio) : Nat :=
  let size := (f.leaves.flatMap fun l => l.secs.map fun x => x.size).foldl max 0
  ceilDiv (max 2720000 (160000 + (32 + ceilDiv size 64) * 625)) 160000

/-- T0 of the bind half: state loading, routers cleared, memories zeroed, counters cleared (R206, R208). -/
def State.startLoad (s : State) (r : BindReq) (f : Folio) (timedOut : Bool) : State :=
  let ts := r.targets f
  let s := ts.foldl (fun (s : State) p =>
    let s := (s.clearRouters p).setRegion p rsLoading r.ctx 0 r.handle f.portable
    let s := s.zero (sramBase (16 * p) 0) (256 * 0x200000)
    let s := s.clearRegs fun g i => match g with
      | .CORE_FAULT => i / 256 = p | .CORE_FIRE_COUNT => i / 256 = p | .CORE_NULL_COUNT => i / 256 = p
      | .CORE_LATE_STALL => i / 256 = p | .CORE_LATE_EVENT => i / 256 = p | .CORE_ENGINE_STALL => i / 256 = p
      | .CORE_BANK_CONFLICT => i / 256 = p | .CORE_TENSOR_BUSY => i / 256 = p | .CORE_VECTOR_BUSY => i / 256 = p
      | .NOC_REGION_SKEW_SPILL => i = p
      | _ => false
    let s : State := { s with ctx := { s.ctx with acc := spClear s.ctx.acc (256 * p) (256 * (p + 1)) } }
    (s.loadSpill p).showNoc p) s
  let o : BindOp := { req := r, phase := .loading, regions := ts, t0 := s.now, timedOut := timedOut }
  (s.setBnd { s.bnd with ops := s.bnd.ops ++ [o] }).showPstate r.ctx

/-- Reject for a fence and complete. -/
def State.fenceOut (s : State) (r : BindReq) (f : Folio) : State :=
  let s := match s.fenceReject f r with
    | some x => s.reject x r.handle
    | none => s
  s.endBind r stFENCED

/-- What follows the unbind half: nothing, or the bind half, for which the fence map is judged again after a drain
(DEDUCED, log entry 63). -/
def State.afterUnbind (s : State) (r : BindReq) (timedOut : Bool) : State :=
  if r.opcode = 5 then
    let o : BindOp := { req := r, phase := .clearing, regions := r.named, t0 := s.now, timedOut := timedOut }
    s.setBnd { s.bnd with ops := s.bnd.ops ++ [o] }
  else
    match s.folio r.handle with
    | some f => if (s.fenceReject f r).isSome then s.fenceOut r f else s.startLoad r f timedOut
    | none => s.endBind r stBAD_DESCRIPTOR

/-- Apply an accepted command: the unbind half in its mode (R214, R215), then the rest. -/
def State.applyBind (s : State) (r : BindReq) : State :=
  let held := r.named.filter fun p => s.rstate p ≠ rsUnbound
  if r.drain && !held.isEmpty then
    let s := held.foldl (fun (s : State) p =>
      let s := if s.rstate p = rsBound then s.put BND_REGION_STATE.state p rsDraining else s
      (coresOf p).foldl (fun (s : State) k => if s.core k = {} then s else s.modCore k fun c => { c with frozen := some c.base }) s) s
    let o : BindOp := { req := r, phase := .draining, regions := held, t0 := s.now }
    s.setBnd { s.bnd with ops := s.bnd.ops ++ [o] }
  else (held.foldl (fun (s : State) p => s.flushRegion p) s).afterUnbind r false

/-- Judge a command (R205, R220): it waits for a region in the middle of another, is refused, or is applied
(DEDUCED, log entry 46) (DEDUCED, log entry 62). -/
def State.bindCmd (s : State) (r : BindReq) : State :=
  let go (ts : List Nat) (k : State → State) : State :=
    let busy := (r.named ++ ts).filter s.regionBusy
    if busy.isEmpty then k s
    else if busy.any fun p => s.flag BND_REGION_STATE.waiting p then s.endBind r stBUSY
    else
      let s := busy.foldl (fun (s : State) p => s.put BND_REGION_STATE.waiting p 1) s
      s.setBnd { s.bnd with waits := s.bnd.waits ++ [{ r with on := busy }] }
  if r.opcode = 5 then
    go [] fun s => if r.named.all fun p => s.rctx p = r.ctx then s.applyBind r else s.endBind r stBUSY
  else
    match s.folio r.handle with
    | none => s.endBind r stBAD_DESCRIPTOR
    | some f =>
      if f.ctx ≠ r.ctx ∨ (f.portable = true ∧ bitAt f.dies (r.target / 4) = false) then s.endBind r stBAD_DESCRIPTOR
      else if s.bindStatus r f = stNO_SPACE then s.endBind r stNO_SPACE
      else go (r.targets f) fun s =>
        let st := s.bindStatus r f
        if st = stOK then s.applyBind r else if st = stFENCED then s.fenceOut r f else s.endBind r st

/-- BIND. -/
def State.applyBindCommand (iss : Issuer) (handle : Byte) (target : Region) (s : State) : State :=
  (s.began iss 0x04).bindCmd
    { iss := some iss, ctx := iss.ctxNum.getD 0x1F, opcode := 4, handle := handle.toNat, target := target.val }
def execBind (iss : Issuer) (handle : Byte) (target : Region) (s : State) : Host.Outcome State Fault Refusal :=
  s.act (if s.ringHeld iss then s else s.sampleHost iss (.bind iss handle target))

/-- UNBIND. -/
def State.applyUnbind (iss : Issuer) (regions : BitVec 16) (drain : Bool) (s : State) : State :=
  (s.began iss 0x05).bindCmd
    { iss := some iss, ctx := iss.ctxNum.getD 0x1F, opcode := 5, named := unmask 16 regions.toNat, drain := drain }
def execUnbind (iss : Issuer) (regions : BitVec 16) (drain : Bool) (s : State) : Host.Outcome State Fault Refusal :=
  s.act (if s.ringHeld iss then s else s.sampleHost iss (.unbind iss regions drain))

/-- REBIND: a portable folio goes into the lowest region named (DEDUCED, log entry 24). -/
def State.applyRebind (iss : Issuer) (regions : BitVec 16) (drain : Bool) (handle : Byte) (s : State) : State :=
  let named := unmask 16 regions.toNat
  (s.began iss 0x06).bindCmd
    { iss := some iss, ctx := iss.ctxNum.getD 0x1F, opcode := 6, named := named, handle := handle.toNat, drain := drain
      target := named.headD 0 }
def execRebind (iss : Issuer) (regions : BitVec 16) (drain : Bool) (handle : Byte) (s : State) :
    Host.Outcome State Fault Refusal :=
  s.act (if s.ringHeld iss then s else s.sampleHost iss (.rebind iss regions drain handle))

/-! ## The start (R208 to R211) -/

/-- Load the cores of a region (R206 to R208): every logical core below lcores has init_tag as its base; those with a block hold
its tables and its init segment. -/
def State.loadCores (s : State) (p : Nat) (f : Folio) (l : Leaf) : State :=
  let s := (upto 16).foldl (fun (s : State) c => (upto f.lcores).foldl (fun (s : State) i =>
    s.setCore (256 * p + 16 * c + i) { base := l.initTag }) s) s
  l.secs.foldl (fun (s : State) sec => sec.cores.foldl (fun (s : State) x =>
    let k := 256 * p + 16 * sec.c + x.1
    let b := if f.portable then x.2.1.retarget p else x.2.1
    (s.modCore k fun c => { c with block := b, hasBlock := true }).store (s.spad k + x.2.2.1) x.2.2.2) s) s

/-- Load the router tables of a region. -/
def State.loadRouters (s : State) (p : Nat) (l : Leaf) : State :=
  l.secs.foldl (fun (s : State) sec =>
    let cl := 16 * p + sec.c
    let s := sec.slots.foldl (fun (s : State) e =>
      let i := 3072 * cl + e.1 / 2
      s.wn .NOC_SLOT i (putBits (s.rn .NOC_SLOT i) (16 * (e.1 % 2) + 15) (16 * (e.1 % 2)) e.2.toNat)) s
    let s := sec.groups.foldl (fun (s : State) e => s.wn .NOC_GROUP (256 * cl + e.1) e.2.toNat) s
    sec.nodes.foldl (fun (s : State) e => s.wn .NOC_NODE (64 * cl + e.1) e.2.toNat) s) s

/-- The next epoch after one taken (R211): not 0, not one a region holds. -/
def nextEpoch (held : List Nat) : Nat → Nat → Nat
  | 0, e => e
  | f + 1, e =>
    let n := (e + 1) % 4096
    if n = 0 ∨ n ∈ held then nextEpoch held f n else n

/-- Take the bind epoch of a set. -/
def State.takeEpoch (s : State) (c : Nat) : State × Nat :=
  let e := s.rn .BND_EPOCH_NEXT
  let held := e :: (upto 16).map s.repoch
  let s := s.wn .BND_EPOCH_NEXT 0 (nextEpoch held 32 e)
  (s.setBnd { s.bnd with history := ((BitVec.ofNat 12 e, c) :: s.bnd.history).take 64 }, e)

/-- The generator key of a context now (R354, R355). -/
def State.genKey (s : State) (c : Nat) : Nat := s.rn .NUM_CTX_SEED c + 2 ^ 64 * s.rn .CTX_STEP c

/-- A step folio's set becomes the step bind set (R310, R316, R336). -/
def State.formStepSet (s : State) (c : Nat) (ts : List Nat) (f : Folio) : State :=
  let s := (s.endStepSet c)
  let s := ts.foldl (fun (s : State) p => s.put BND_REGION_STATE.step p 1) s
  let s := s.wn .CTX_TAG_BASE c ((f.leaves.head?.map fun l => l.initTag.toNat).getD 0)
  if (s.stp c).layout then s
  else (s.wn .CTX_LAYOUT_EPOCH c f.epoch.toNat).setStp c { s.stp c with layout := true }

/-- The bind set starts (R208, R209): epoch, base tags, tables, state bound; the completion is sampled in class 10 (R495). -/
def State.startSet (s : State) (o : BindOp) (f : Folio) : State :=
  let r := o.req
  let (s, e) := s.takeEpoch r.ctx
  let leaf (p : Nat) : Nat := if f.portable then 0 else ((upto f.leaves.length).find? fun i =>
    ((f.leaves[i]?).map (·.region)) = some p).getD 0
  let s := o.regions.foldl (fun (s : State) p =>
    let l := f.leaves.getD (leaf p) default
    let s := (s.setRegion p rsBound r.ctx e r.handle f.portable)
    let s := s.setBnd { s.bnd with leafOf := spSet 0 s.bnd.leafOf p (leaf p + 1), keys := spSet 0 s.bnd.keys p (s.genKey r.ctx) }
    let s := ((((s.loadCores p f l).loadRouters p l).clearFetchers p).freshCredits p).showNoc p
    let s := (upto 256).foldl (fun (s : State) k =>
      if s.get HRD_RESERVE.region k = p ∨ bits (spGet (0, 0, 0) s.hrd.reserves k).1 3 0 = p then s.loadReserve k else s) s
    if r.resume then s.restoreRegion r.ctx p e else s) s
  let s := if r.resume then s else if f.step then s.formStepSet r.ctx o.regions f else s
  let s : State := { s with ctx := { s.ctx with claims := s.ctx.claims.filter fun x => !(x.ctx = r.ctx && decide (x.region ∈ o.regions)) } }
  let s := s.setBnd { s.bnd with ops := s.bnd.ops.filter fun x => x ≠ o }
  let s := if s.bnd.everBound then s else (s.setBnd { s.bnd with everBound := true }).leadMode
  ((s.bump .BND_BINDS).showPstate r.ctx).sample 10 (o.regions.headD 0)
    (.done r.iss r.opcode (if o.timedOut then stDRAIN_TIMEOUT else stOK))

/-- The operation of a phase that acts on a region. -/
def State.opOn (s : State) (p : Nat) (ph : BindPhase) : Option BindOp :=
  s.bnd.ops.find? fun o => o.phase = ph && decide (p ∈ o.regions)

/-- Claims shown in CTX_REGION_RESERVE (R404). -/
def State.showClaims (s : State) : State :=
  (upto 16).foldl (fun (s : State) p =>
    match s.ctx.claims.find? fun x => x.region = p with
    | some x => (s.put CTX_REGION_RESERVE.claimed p 1).put CTX_REGION_RESERVE.claimant p x.ctx
    | none => (s.put CTX_REGION_RESERVE.claimed p 0).put CTX_REGION_RESERVE.claimant p 0x1F) s

/-- BIND_START: the load has ended, or ends by the next tick, at which the set starts. -/
def State.applyBindStart (p : Region) (s : State) : State :=
  match s.opOn p.val .loading with
  | some o =>
    match s.folio o.req.handle with
    | some f => if s.now < o.t0 + loadTicks f then s else (s.startSet o f).showClaims
    | none => s
  | none => s
def State.loadEnds (s : State) (p : Nat) : Bool :=
  match s.opOn p .loading with
  | some o => ((s.folio o.req.handle).map fun f => decide (o.t0 + loadTicks f ≤ s.now + 1)).getD false
  | none => false
def execBindStart (p : Region) (s : State) : Host.Outcome State Fault Refusal :=
  s.act (if s.loadEnds p.val then s.sampleOnce 10 p.val (.row (.bindStart p)) else s)

/-- SLOT_TABLE_ACTIVATION: the slot tables of the region's bind set take effect together (R208). -/
def execSlotTableActivation (p : Region) (s : State) : Host.Outcome State Fault Refusal :=
  s.act (if s.rstate p.val = rsBound ∧ p.val ∉ s.bnd.slotsOn then
      let set := (upto 16).filter fun q => s.rstate q ≠ rsUnbound ∧ s.rstate q ≠ rsLoading ∧ s.repoch q = s.repoch p.val ∧
        q ∉ s.bnd.slotsOn
      s.setBnd { s.bnd with slotsOn := s.bnd.slotsOn ++ set }
    else s)

/-! ## Ends of an unbind or drain (R214 to R216) -/

/-- FLUSH_COMPLETE: the router clear of an UNBIND has ended; it completes at the tick (class 10). -/
def State.applyFlushComplete (p : Region) (s : State) : State :=
  match s.opOn p.val .clearing with
  | some o =>
    if s.now < o.t0 + 1 then s
    else (s.setBnd { s.bnd with ops := s.bnd.ops.filter fun x => x ≠ o }).endBind o.req (if o.timedOut then stDRAIN_TIMEOUT else stOK)
  | none => s
def execFlushComplete (p : Region) (s : State) : Host.Outcome State Fault Refusal :=
  s.act (if (s.opOn p.val .clearing).isSome then s.sampleOnce 10 p.val (.row (.flushComplete p)) else s)

/-- Is a region settled (R215): nothing fires, runs or is on its way out or into a slot? -/
def State.settled (s : State) (p : Nat) : Bool :=
  (s.cores.all fun e => e.1 / 256 ≠ p || (e.2.enginesIdle && e.2.entries.all fun m => m.state = .gathering || m.state = .nullRetire)) &&
    s.noc.tokens.all fun t =>
      !(match t.src with | .core k .. => regionOf k = p && (t.phase = .waiting || decide (0 < t.unsent)) | _ => false) &&
        !(regionOf t.dst = p && (t.phase = .diverted || decide (0 < t.spilt)))

/-- Regions of a draining command go on in flush mode; with the last of them the rest of the command follows. -/
def State.drainOut (s : State) (o : BindOp) (ps : List Nat) (timedOut : Bool) : State :=
  let s := ps.foldl (fun (s : State) p => s.flushRegion p) s
  let left := o.regions.filter fun p => p ∉ ps
  let ops := s.bnd.ops.filter fun x => x ≠ o
  if left.isEmpty then (s.setBnd { s.bnd with ops := ops }).afterUnbind o.req timedOut
  else s.setBnd { s.bnd with ops := ops ++ [{ o with regions := left, timedOut := timedOut }] }

/-- DRAIN_SETTLED: the region has been settled for 64 NCLK; it goes on in flush mode at the tick. -/
def State.applyDrainSettled (p : Region) (s : State) : State :=
  match s.opOn p.val .draining with
  | some o => s.drainOut o [p.val] o.timedOut
  | none => s
def execDrainSettled (p : Region) (s : State) : Host.Outcome State Fault Refusal :=
  s.act (if (s.opOn p.val .draining).isSome && s.settled p.val then s.sampleOnce 10 p.val (.row (.drainSettled p)) else s)

/-- DRAIN_TIMEOUT: the limit has passed; the regions that have not settled are cut, each counted (R216). -/
def State.drainLimit (s : State) : Nat := usTicks (max 1 (min 10000 (s.get BND_DRAIN_TIMEOUT.limit_us)))
def State.applyDrainTimeout (p : Region) (s : State) : State :=
  match s.opOn p.val .draining with
  | some o =>
    if s.now < o.t0 + s.drainLimit then s
    else (s.bump .BND_DRAIN_TIMEOUTS 0 o.regions.length).drainOut o o.regions true
  | none => s
def execDrainTimeout (p : Region) (s : State) : Host.Outcome State Fault Refusal :=
  s.act (match s.opOn p.val .draining with
    | some o => if s.now + 1 < o.t0 + s.drainLimit then s else s.sampleOnce 11 p.val (.row (.drainTimeout p))
    | none => s)

/-- WAITING_BIND_COMMAND: the command that waits for region p is applied, as a command of its issuer, at the first tick after the
operation it waits for, once none of its regions is busy (R220). -/
def State.waitRegions (s : State) (r : BindReq) : List Nat := r.named ++ ((s.folio r.handle).map fun f => r.targets f).getD []
def State.applyWaitingBindCommand (p : Region) (s : State) : State :=
  match s.bnd.waits.find? fun r => p.val ∈ s.waitRegions r with
  | some r =>
    if (s.waitRegions r).any s.regionBusy then s
    else
      let left := dropFirst (· = r) s.bnd.waits
      let s := (r.on.filter fun q => !(left.any fun w => decide (q ∈ w.on))).foldl
        (fun (s : State) q => s.put BND_REGION_STATE.waiting q 0) s
      (s.setBnd { s.bnd with waits := left }).bindCmd { r with on := [] }
  | none => s
def execWaitingBindCommand (p : Region) (s : State) : Host.Outcome State Fault Refusal :=
  s.act (match s.bnd.waits.find? fun r => p.val ∈ s.waitRegions r with
    | some r => if (s.waitRegions r).any s.regionBusy then s else s.sampleOnce 9 (s.ctxSrc r.ctx) (.row (.waitingBindCommand p))
    | none => s)

/-- EPOCH_STALE for one pair of sending context and region (R213): one record with the count; the epoch-conflict bit. -/
def State.reportStale (s : State) (c p n : Nat) : State :=
  let s := s.setBnd { s.bnd with stale := s.bnd.stale.filter fun x => !(x.1 = c && x.2.1 = p) }
  (s.postEvent c stEPOCH_STALE p n).voteBit c vbEpoch

/-- EPOCH_STALE_REPORT. -/
def execEpochStaleReport (ctx : Ctx) (p : Region) (s : State) : Host.Outcome State Fault Refusal :=
  s.act (match s.bnd.stale.find? fun x => x.1 = ctx.val && x.2.1 = p.val with
    | some x => (s.reportStale x.1 x.2.1 x.2.2).bump .MGT_CLASS_EVENTS 10
    | none => s)

/-! ## Abandonment (R221) -/

/-- A bind-family command in progress is abandoned: its regions become unbound, it completes with the status; FENCED is a rejection
(R222). -/
def State.abandonLoad (s : State) (o : BindOp) (status : Nat) : State :=
  let s := s.setBnd { s.bnd with ops := s.bnd.ops.filter fun x => x ≠ o }
  let s := if status ≠ stFENCED ∨ o.req.opcode = 5 then s
    else match (s.folio o.req.handle).bind fun f => s.fenceReject f o.req with
      | some x => s.reject x o.req.handle
      | none => s.reject ⟨stFENCED, 0x0F, 0, 0, 15⟩ o.req.handle
  (o.regions.foldl (fun (s : State) p => s.flushRegion p) s).endBind o.req status

/-- A command in progress on a region is abandoned by a class 0 event: every region of it becomes unbound. -/
def State.abandonAll (s : State) (p : Nat) : State :=
  match s.bnd.ops.find? fun o => decide (p ∈ o.regions) || decide (p ∈ o.req.named) with
  | some o => s.abandonLoad o stFENCED
  | none => s

end Sys2Proof.Machine
end

