-- ==== Sys2Proof/Machine/Numerics.lean ====
section
/-! DEFINITION. Machine/Numerics.lean: the numerics monitor (R342 to R365): maps, amax reports, delayed and just-in-time scales,
the shadow block and the statistics block, the non-finite record, update-to-weight ratios. -/

namespace Sys2Proof.Machine

/-! ## The monitor's state of a context -/

def State.nm (s : State) (c : Nat) : CtxNum := spGet {} s.num.ctx c
def State.setNm (s : State) (c : Nat) (n : CtxNum) : State := { s with num := { s.num with ctx := spSet {} s.num.ctx c n } }

/-! ## The map (R342, R343) -/

def meId (e : List Byte) : Nat := leNat (e.take 4)
def meKind (e : List Byte) : Nat := leNat ((e.drop 4).take 1)
def meFmt (e : List Byte) : Nat := leNat ((e.drop 5).take 1)
def meHist (e : List Byte) : Nat := leNat ((e.drop 6).take 1)
def meMargin (e : List Byte) : Nat := leNat ((e.drop 7).take 1)
def meContrib (e : List Byte) : Nat := leNat ((e.drop 8).take 2)
def meRsv (e : List Byte) : Nat := leNat ((e.drop 10).take 2)
def meJit (e : List Byte) : Nat := leNat ((e.drop 12).take 4)

/-- Does an entry keep R342: its codes, ranges and reserved fields? An unused entry is all zero (DEDUCED, log entry 25). -/
def mapEntryOk (e : List Byte) : Bool :=
  match meKind e with
  | 0 => e.all (· = 0#8)
  | 1 => decide (1 ≤ meFmt e ∧ meFmt e ≤ 3) && decide (meHist e < 32) && decide (meMargin e < 16) &&
      decide (1 ≤ meContrib e ∧ meContrib e ≤ 4096) && meRsv e = 0 && decide (meJit e < 2 ^ 20)
  | 2 => meFmt e = 0 && meHist e = 0 && meMargin e = 0 && decide (1 ≤ meContrib e ∧ meContrib e ≤ 256) &&
      meRsv e = 0 && meJit e = 0
  | _ => false

/-- The first entry of a map that fails a check (R343): alone, as the second of its kind with its id, or beyond the free room. -/
def mapBad (es : List (List Byte)) (free : Nat) : Option Nat :=
  (upto es.length).find? fun i =>
    let e := es.getD i []
    !mapEntryOk e || decide (free ≤ i) ||
      (meKind e ≠ 0 && (es.take i).any fun x => meKind x = meKind e && meId x = meId e)

/-- Directory entries in use. -/
def State.mapUse (s : State) : Nat := (s.num.ctx.map fun e => e.2.map.length).foldl (· + ·) 0

/-- Show the directory's use, and load or empty a context's directory. -/
def State.setMap (s : State) (c : Nat) (m : List (List Byte)) : State :=
  let s := s.setNm c { s.nm c with map := m }
  s.put NUM_STATUS.entries 0 s.mapUse

/-- NUM_MAP_LOAD: a write while the state is idle sets the count; the load starts at the tick, with an empty directory (R343). -/
def State.applyNumMapLoad (ctx : Ctx) (s : State) : State :=
  let c := ctx.val
  ((s.setMap c []).put NUM_CTX_MAP_STATUS.state c 1).put NUM_CTX_MAP_STATUS.entry c 0
def execNumMapLoad (fn : Func) (ctx : Ctx) (value : Word) (s : State) : Host.Outcome State Fault Refusal :=
  let c := ctx.val
  s.act (s.fnWrite fn .NUM_CTX_MAP_COUNT c fun s =>
    if s.sstate c ≠ ssIdle then s
    else (s.wn .NUM_CTX_MAP_COUNT c (bits value.toNat 12 0)).sampleRow 9 (s.fnSrc fn c) (.numMapLoad fn ctx value))

/-- End a load of a map, a coefficient table or a collective table: the state register's fields. -/
def State.endLoad (s : State) (st en : Fld) (i : Nat) (bad : Option Nat) : State :=
  match bad with
  | some b => (s.put st i 3).put en i b
  | none => (s.put st i 2).put en i 0

/-- NUM_MAP_LOAD_COMPLETE (R343, R480): ok with the map in the directory, or rejected with the first entry that failed; a map of
more than 4,096 entries fails at entry 4,096, one that cannot be read at entry 0. -/
def execNumMapLoadComplete (ctx : Ctx) (s : State) : Host.Outcome State Fault Refusal :=
  let c := ctx.val
  let n := s.rn .NUM_CTX_MAP_COUNT c
  s.act (if s.get NUM_CTX_MAP_STATUS.state c ≠ 1 ∨ s.engHeld c (s.rn .NUM_CTX_MAP_BASE c) (16 * min n 4096) then s
    else
      let (s, d) := s.engRead c (s.rn .NUM_CTX_MAP_BASE c) (16 * min n 4096)
      let bad (b : Nat) := s.endLoad NUM_CTX_MAP_STATUS.state NUM_CTX_MAP_STATUS.entry c (some b)
      match d with
      | none => bad 0
      | some bs =>
        let es := chunks 16 (min n 4096) bs
        match mapBad es (16384 - s.mapUse) with
        | some b => bad b
        | none =>
          if 4096 < n then bad 4096
          else if s.settingDiffers c 1 (Config.sha3 bs) then (bad 0).bump .SNP_JOURNAL_MISMATCH
          else ((s.setMap c es).endLoad NUM_CTX_MAP_STATUS.state NUM_CTX_MAP_STATUS.entry c none).journalSetting c 1 0
            (Config.sha3 bs))

/-- The directory a report is looked up in: empty for a step that started while the map was loading or rejected (R343). -/
def State.directory (s : State) (c : Nat) : List (List Byte) := if (s.nm c).off then [] else (s.nm c).map

/-- The entry of a kind with an id. -/
def State.mapFind (s : State) (c kind id : Nat) : Option Nat :=
  let d := s.directory c
  (upto d.length).find? fun i => meKind (d.getD i []) = kind && meId (d.getD i []) = id

/-! ## The block (R344, R345) -/

/-- Address of a block entry in the committed bank (1) or the shadow (2): NUM_CTX_BLOCK_OFFSET is an address in bank A
(R320, R364; DEDUCED, log entry 26). -/
def State.blockAddr (s : State) (c i bank : Nat) : Option Nat := s.bankAddr c (s.rn .NUM_CTX_BLOCK_OFFSET c + 128 * i) 128 bank

/-- The committed block entry; all zero, an empty history, where it cannot be read. -/
def State.blockEntry (s : State) (c i : Nat) : List Byte :=
  match s.blockAddr c i 1 with
  | some a => ((s.engRead c a 128).2).getD (List.replicate 128 0#8)
  | none => List.replicate 128 0#8

def beWord (b : List Byte) (o : Nat) : Nat := leNat ((b.drop o).take 4)
def beCount (b : List Byte) : Nat := leNat ((b.drop 64).take 1)
def beHead (b : List Byte) : Nat := leNat ((b.drop 65).take 1) % 16

/-- Is an entry in just-in-time mode (R350): its committed count is 0? -/
def State.jitMode (s : State) (c i : Nat) : Bool := beCount (s.blockEntry c i) = 0

/-! ## Scales (R348, R349) -/

/-- The largest magnitude of a target format as m × 2^e with its leading bit's exponent (R96, R348). -/
def scaleTop (fmt : Nat) : Nat × Int × Int := match fmt with | 1 => (2047, 5, 15) | 2 => (7, 6, 8) | _ => (7, 13, 15)

/-- The scale exponent for a positive finite source amax m × 2^q (R348). -/
def scaleExp (fmt margin m : Nat) (q : Int) : Int :=
  let (tm, _, te) := scaleTop fmt
  let eh := q + (m.log2 : Nat)
  let past : Int := if tm * 2 ^ m.log2 < m * 2 ^ tm.log2 then 1 else 0
  max (-126) (min 127 (te - eh - past - (margin : Int)))

/-- The FP32 encoding of 2^e. -/
def pow2Bits (e : Int) : Nat := fmtFP32.enc .rne false (.fin false 1 e)
def oneBits : Nat := 0x3F800000
def nanBits : Nat := fmtFP32.qnan

/-- Scale and its inverse from a source amax (FP32 encoding): for +0 the previous values, 1.0 when there are none. -/
def scaleOf (fmt margin h : Nat) (prev : Option (Nat × Nat)) : Nat × Nat :=
  match fmtFP32.dec h with
  | .fin _ m q =>
    if m = 0 then prev.getD (oneBits, oneBits)
    else let e := scaleExp fmt margin m q; (pow2Bits e, pow2Bits (-e))
  | _ => (oneBits, oneBits)

/-- The source amax of a history (R349): the last `win` valid entries, their maximum or the most recent. -/
def histSource (hist : List Nat) (count head win alg : Nat) : Nat :=
  let w := min win count
  let at_ (i : Nat) : Nat := hist.getD ((head + 15 - i) % 16) 0
  if alg = 1 then at_ 0
  else (upto w).foldl (fun m i => fmtFP32.enc .rne false (fvMax (fmtFP32.dec m) (fmtFP32.dec (at_ i)))) 0

/-- MAX of two FP32 encodings (R117). -/
def max32 (a b : Nat) : Nat := fmtFP32.enc .rne false (fvMax (fmtFP32.dec a) (fmtFP32.dec b))

/-! ## Amax reports (R346, R347, R350) -/

/-- Change the merge state of an entry. -/
def State.modAcc (s : State) (c i : Nat) (f : AmaxAcc → AmaxAcc) : State :=
  let n := s.nm c
  s.setNm c { n with acc := spSet {} n.acc i (f (spGet {} n.acc i)) }

/-- A report's microbatch (R350, R357). -/
def State.mbOf (s : State) (c : Nat) (t : Tag) : Nat := (t - BitVec.ofNat 16 (s.rn .CTX_TAG_BASE c)).toNat

/-- Merge a report into an entry: a NaN sets the mark, a finite value enters the step amax; for a microbatch both count. -/
def AmaxAcc.merge (a : AmaxAcc) (v j : Nat) : AmaxAcc :=
  let nan := (fmtFP32.dec v).isNan
  let (n, m) := spGet (0, 0) a.mbs j
  let a := { a with mbs := spSet (0, 0) a.mbs j (n + 1, max32 m v) }
  if nan then { a with nan := true } else { a with value := max32 a.value v, reports := a.reports + 1 }

/-- A report of the microbatch that carries no value of its own: +∞ counts and merges nothing (R347). -/
def AmaxAcc.skip (a : AmaxAcc) (j : Nat) : AmaxAcc :=
  let (n, m) := spGet (0, 0) a.mbs j
  { a with mbs := spSet (0, 0) a.mbs j (n + 1, m) }

/-- AMAX_REPORT: report n reaches the monitor; a core's reports come in order. -/
def execAmaxReport (n : Nat) (s : State) : Host.Outcome State Fault Refusal :=
  s.act (match s.num.amax[n]? with
    | none => s
    | some r =>
      if (s.num.amax.take n).any fun x => x.core = r.core then s
      else
        let s : State := { s with num := { s.num with amax := s.num.amax.eraseIdx n } }
        let c := s.rctx (regionOf r.core)
        let bad (s : State) (g : Reg) : State := (s.bump g).setNm c { s.nm c with bad := (s.nm c).bad + 1 }
        match s.mapFind c 1 r.tensor with
        | none => bad s .NUM_UNMAPPED
        | some i =>
          let j := s.mbOf c r.tag
          if (fmtFP32.dec r.value).isInf then (bad s .NUM_INF_AMAX).modAcc c i fun a => a.skip j
          else
            let s := s.modAcc c i fun a => a.merge r.value j
            if (fmtFP32.dec r.value).isNan then s
            else (s.bump .NUM_AMAX_REPORTS).setNm c { s.nm c with merged := (s.nm c).merged + 1 })

/-- JIT_SCALE_PUBLISH (R350): the next microbatch's contributors have reported and the one before is published. -/
def execJitScalePublish (ctx : Ctx) (entry : Fin 4096) (s : State) : Host.Outcome State Fault Refusal :=
  let c := ctx.val
  let i := entry.val
  let e := (s.directory c).getD i []
  let a := spGet {} (s.nm c).acc i
  let j := a.published
  let (n, v) := spGet (0, 0) a.mbs j
  s.act (if meKind e = 1 && s.sstate c = ssRunning && s.jitMode c i && !a.writing && decide (j < s.get CTX_STEP_STATE.microbatches c) &&
      decide (meContrib e ≤ n) then
      let prev := a.prev.map fun x => (x, fmtFP32.enc .rne false (fvDiv fvOne (fmtFP32.dec x)))
      let (sc, inv) := scaleOf (meFmt e) (meMargin e) v prev
      let s := s.engWrite c (s.rn .NUM_CTX_WORK_BASE c + 8192 * i + 8 * (j % 4)) (natLe 4 sc ++ natLe 4 inv)
      s.modAcc c i fun a => { a with writing := true, prev := some sc }
    else s)

/-- JIT_PUBLISH_COMPLETE: the write is acknowledged; jit_vid goes up by one. -/
def execJitPublishComplete (ctx : Ctx) (entry : Fin 4096) (s : State) : Host.Outcome State Fault Refusal :=
  let c := ctx.val
  let a := spGet {} (s.nm c).acc entry.val
  s.act (if a.writing then
      (s.modAcc c entry.val fun a => { a with writing := false, published := a.published + 1 }).herdAgent (8192 + entry.val) c
        (bits (meJit ((s.directory c).getD entry.val [])) 19 0) 1
    else s)

/-! ## Ratio reports (R359, R360, R378, R383) -/

/-- The sender's region of a token for an agent (R378). -/
def senderRegion (t : Token) : Nat :=
  match t.src with
  | .core k .. => regionOf k
  | _ => t.from_ / 16

/-- Take a token for agent `op` off the network: a token whose epoch is not its sender's region's is discarded, counted in
FIN_DISCARDS and reported as EPOCH_STALE (R378, R384). -/
def State.agentToken (s : State) (n op : Nat) (f : State → Token → State) : State :=
  match s.noc.tokens[n]? with
  | some t =>
    if lcoreOf t.dst = 15 ∧ t.op = op ∧ t.phase = .flying ∧ s.inOrder n t = true then
      let p := senderRegion t
      let s := s.dropTok n
      if s.runs p && t.epoch.toNat = s.repoch p then f s t
      else ((s.bump .FIN_DISCARDS).bump .BND_REGION_STALE p t.packets).noteStale p t.epoch t.packets
    else s
  | none => s

/-- RATIO_REPORT: token n brings a report to the monitor of its die. -/
def execRatioReport (n : Nat) (s : State) : Host.Outcome State Fault Refusal :=
  s.act (s.agentToken n 30 fun s t =>
    let c := s.rctx (senderRegion t)
    match s.mapFind c 2 (leNat (t.data.take 4)) with
    | none => s.bump .NUM_RATIO_DISCARDS
    | some i =>
      let x := leNat ((t.data.drop 4).take 2)
      let rs := spGet [] (s.nm c).ratios i
      if meContrib ((s.directory c).getD i []) ≤ x ∨ rs.any (fun r => r.1 = x) then s.bump .NUM_RATIO_DISCARDS
      else
        let s := s.setNm c { s.nm c with ratios := spSet [] (s.nm c).ratios i (rs ++ [(x, t.data)]) }
        s.engWrite c (s.rn .NUM_CTX_WORK_BASE c + 8192 * i + 32 * x) ((t.data.drop 8).take 20 ++ List.replicate 12 0#8))

/-- Combine a group's reports in ascending contributor index (R360): n, Σw², ΣΔw², ratio, max|Δw|. -/
def ratioCombine (rs : List (Nat × List Byte)) : Nat × Nat × Nat × Nat × Nat :=
  let ds := (sortBy (fun a b => decide (a.1 ≤ b.1)) rs).map (·.2)
  let f (d : List Byte) (o : Nat) : FVal := fmtFP32.dec (beWord d o)
  let sum (o : Nat) : FVal := r32 (ds.foldl (fun a d => r48 (a.add (f d o))) fvZero)
  let w := sum 16
  let dw := sum 20
  let mx := ds.foldl (fun a d => fvMax a (f d 24)) fvZero
  let ratio := if w.isZero then (if fvZero.lt dw then .inf false else if dw.isNan then .nan else fvZero) else r32 (fvSqrt (div32 dw w))
  let enc := fmtFP32.enc .rne false
  ((ds.map fun d => leNat ((d.drop 8).take 8)).foldl (· + ·) 0 % 2 ^ 64, enc w, enc dw, enc ratio, enc mx)

/-! ## The vote tick (R352, R353, R360, R361) -/

/-- The new block entry of an amax entry, its step amax, and the scale the step used. -/
def amaxEntry (e b : List Byte) (a : AmaxAcc) (copy : Bool) : List Byte × Nat × Nat :=
  let jit := beCount b = 0
  let amax := if jit then a.mbs.foldl (fun m x => max32 m x.2.2) 0 else a.value
  let used := if jit then 0 else beWord b 68
  if copy || a.reports = 0 || a.nan then (b, amax, used)
  else
    let head := beHead b
    let hist := ((upto 16).map fun i => beWord b (4 * i)).set head amax
    let count := min 16 (beCount b + 1)
    let h := histSource hist count ((head + 1) % 16) (meHist e % 16 + 1) (meHist e / 16)
    let (sc, inv) := scaleOf (meFmt e) (meMargin e) h (if jit then none else some (beWord b 68, beWord b 72))
    let bs := hist.flatMap (natLe 4) ++ natLe 1 count ++ natLe 1 ((head + 1) % 16) ++ [0#8, 0#8] ++ natLe 4 sc ++ natLe 4 inv ++
      natLe 4 amax ++ List.replicate 48 0#8
    (bs, amax, used)

/-- Is the step amax times the scale used above the format's largest magnitude (R361)? -/
def overScale (fmt amax used : Nat) : Bool :=
  let (m, e, _) := scaleTop fmt
  FVal.lt (.fin false m e) ((fmtFP32.dec amax).mul (fmtFP32.dec used))

/-- What the monitor writes for map entry i: the block entry, its statistics record, whether it is over. -/
def State.voteEntry (s : State) (c i : Nat) (e : List Byte) (copy : Bool) : List Byte × List Byte × Bool :=
  let b := s.blockEntry c i
  match meKind e with
  | 1 =>
    let a := spGet {} (s.nm c).acc i
    let (nb, amax, used) := amaxEntry e b a copy
    let jit := beCount b = 0
    let past := !jit && overScale (meFmt e) amax used
    let fl := (if jit then 1 else 0) + (if a.nan then 2 else 0) + (if past then 4 else 0) + (if a.reports = 0 then 8 else 0)
    (nb, e.take 4 ++ natLe 1 fl ++ [0#8, 0#8, 0#8] ++ natLe 4 amax ++ natLe 4 used ++ natLe 4 (beWord nb 68) ++
      List.replicate 12 0#8, past)
  | 2 =>
    let rs := spGet [] (s.nm c).ratios i
    let (n, w, dw, ratio, mx) := ratioCombine rs
    let nb := List.replicate 80 0#8 ++ natLe 8 n ++ natLe 4 w ++ natLe 4 dw ++ natLe 4 ratio ++ List.replicate 28 0#8
    let fl := (if rs.length < meContrib e then 1 else 0) + (if rs.isEmpty then 2 else 0)
    (if copy || rs.isEmpty then b else nb, e.take 4 ++ natLe 1 fl ++ [0#8, 0#8, 0#8] ++ natLe 4 dw ++ natLe 4 w ++ natLe 4 ratio ++
      natLe 4 mx ++ natLe 8 n, false)
  | _ => (b, List.replicate 32 0#8, false)

/-- The monitor's work at a vote tick: the shadow block, the statistics block; merged values are consumed, the pending
non-finite record belongs to the step that has voted. -/
def State.numVote (s : State) (c k word voteTick : Nat) (copy : Bool) : State :=
  let d := s.directory c
  let outs := d.zipIdx.map fun e => (e.2, s.voteEntry c e.2 e.1 copy)
  let nm := s.nm c
  let jits := (d.zipIdx.filter fun e => meKind e.1 = 1 && s.jitMode c e.2).length
  let nfs := (nm.nf.map (·.count)).getD 0
  let head := natLe 8 k ++ natLe 2 word ++ natLe 2 (s.get CTX_STEP_STATE.microbatches c) ++ natLe 4 nfs ++ natLe 8 voteTick ++
    natLe 4 nm.merged ++ natLe 4 nm.bad ++ natLe 4 jits ++ List.replicate 28 0#8
  let s := outs.foldl (fun (s : State) o =>
    let s := match s.blockAddr c o.1 2 with
      | some a => s.engWrite c a o.2.1 true
      | none => s
    if o.2.2.2 then s.bump .NUM_OVER_SCALE else s) s
  let depth := max 1 (s.rn .NUM_CTX_STATS_DEPTH c)
  let base := s.rn .NUM_CTX_STATS_BASE c + k % depth * (64 + 32 * s.rn .NUM_CTX_MAP_COUNT c)
  let s := s.engWrite c base (head ++ outs.flatMap fun o => o.2.2.1)
  s.setNm c { s.nm c with acc := [], ratios := [], merged := 0, bad := 0, nf := none, nfVoted := nm.nf }

/-! ## The non-finite record (R357, R358, R365) -/

/-- A non-finite report is handled at its tick. -/
def State.applyNonfinite (s : State) (k op : Nat) (tag : Tag) (tensor : Nat) : State :=
  let c := s.rctx (regionOf k)
  let s := (s.bump .NUM_NF_REPORTS).voteBit c vbNonfinite
  if 31 ≤ c then s
  else
    let n := s.nm c
    match n.nf with
    | some r => s.setNm c { n with nf := some { r with count := r.count + 1 } }
    | none =>
      let r : NfPend := { core := k, op := op, tag := tag, tensor := tensor, mb := s.mbOf c tag, tick := s.jobTick c }
      s.setNm c { n with nf := some r }

/-- NONFINITE_REPORT_SAMPLED: the first report of a core in the queue, as it stands in class 8. -/
def execNonfiniteReportSampled (core : CoreRef) (s : State) : Host.Outcome State Fault Refusal :=
  s.act (s.handleOne (fun e => match e with | .nonfinite k .. => decide (k = core.key) | _ => false) fun s e =>
    match e.ev with
    | .nonfinite k op tag t => s.applyNonfinite k op tag t
    | _ => s)

/-- Clear the fields of the non-finite record. -/
def State.clearNf (s : State) (c : Nat) : State :=
  s.clearRegs fun r i => i = c && (r = .NUM_CTX_NF_WHERE || r = .NUM_CTX_NF_TENSOR || r = .NUM_CTX_NF_BATCH || r = .NUM_CTX_NF_STEP ||
    r = .NUM_CTX_NF_TICK || r = .NUM_CTX_NF_COUNT)

/-- A step is decided: on abort a valid pending record becomes the record (R358); it is gone either way. -/
def State.numDecided (s : State) (c k : Nat) (commit : Bool) : State :=
  let n := s.nm c
  let s := s.setNm c { n with nfVoted := none }
  match n.nfVoted with
  | none => s
  | some r =>
    if commit then s
    else
      let s := s.wn .NUM_CTX_NF_WHERE c (regionOf r.core + 16 * (clusterOf r.core % 16) + 256 * lcoreOf r.core + 4096 * r.op + 2 ^ 31)
      let s := (s.wn .NUM_CTX_NF_TENSOR c r.tensor).wn .NUM_CTX_NF_BATCH c (r.mb + 65536 * r.tag.toNat)
      ((s.wn .NUM_CTX_NF_STEP c k).wn .NUM_CTX_NF_TICK c r.tick).wn .NUM_CTX_NF_COUNT c r.count

/-- NF_RECORD_CLEAR. -/
def execNfRecordClear (fn : Func) (ctx : Ctx) (value : Word) (s : State) : Host.Outcome State Fault Refusal :=
  s.act (s.fnWrite fn .NUM_CTX_NF_WHERE ctx.val fun s => if bitAt value.toNat 31 then s.clearNf ctx.val else s)

/-! ## The seed (R356, R479) -/

/-- The seed of a context is written: accepted while the state is idle, and journalled. A replayed seed that differs from the
journal's is a setting that differs (R480). -/
def State.writeSeed (s : State) (c : Nat) (value : DWord) : State :=
  if s.sstate c ≠ ssIdle then s
  else
    let differs := s.replaying c && match s.journalFind c 2 (s.rn .CTX_STEP c) fun e => e.getD 1 0#8 = 0#8 with
      | some e => leNat ((e.drop 16).take 8) ≠ value.toNat
      | none => false
    let s := if differs then s.bump .SNP_JOURNAL_MISMATCH else s
    (s.wr .NUM_CTX_SEED c value).journalSetting c 0 value.toNat []

/-- NUM_SEED_WRITE. -/
def execNumSeedWrite (fn : Func) (ctx : Ctx) (value : DWord) (s : State) : Host.Outcome State Fault Refusal :=
  s.act (s.fnWrite fn .NUM_CTX_SEED ctx.val fun s => s.writeSeed ctx.val value)

end Sys2Proof.Machine
end

