-- ==== Sys2Proof/Machine/Finishing.lean ====
section
/-! DEFINITION. Machine/Finishing.lean: the finishing stage (R366 to R386): the coefficient table, the state movers, the reports
and counts, and the update recurrence as functions on values (R370 to R376). -/

namespace Sys2Proof.Machine

def State.fn (s : State) (c : Nat) : CtxFin := spGet {} s.fin.ctx c
def State.setFin (s : State) (c : Nat) (f : CtxFin) : State := { s with fin := { s.fin with ctx := spSet {} s.fin.ctx c f } }

/-! ## The coefficient table (R367, R368) -/

def ceByte (e : List Byte) (o : Nat) : Nat := leNat ((e.drop o).take 1)
def ceMode (e : List Byte) : Nat := ceByte e 0
def ceFlags (e : List Byte) : Nat := ceByte e 1
def ceMExp (e : List Byte) : Int := sext 8 (ceByte e 2)
def ceMFmt (e : List Byte) : Nat := bits (ceFlags e) 2 1
def ceF (e : List Byte) (o : Nat) : FVal := fmtFP32.dec (beWord e o)
def ceRowLen (e : List Byte) : Nat := beWord e 60

/-- The FP32 fields of an entry: c_g to pivot_floor. -/
def ceFloats (e : List Byte) : List FVal := ((upto 13).map fun i => ceF e (8 + 4 * i))

/-- The checks of R367 on one entry (DEDUCED, log entry 83). -/
def coefOk (e : List Byte) : Bool :=
  let fl := ceFlags e
  decide (ceMode e ≤ 3) && ceMFmt e ≠ 3 && decide (-64 ≤ ceMExp e ∧ ceMExp e ≤ 63) && ceByte e 3 = 0 &&
    (ceFloats e).all (fun x => !x.isNan && !x.isInf) &&
    !(ceF e 36).lt fvZero && !(ceF e 52).lt fvZero && !(ceF e 56).lt fvZero &&
    !(ceMode e = 2 && !bitAt fl 3) && (if ceMode e = 3 then ceRowLen e ≠ 0 else ceRowLen e = 0)

/-- FIN_TABLE_LOAD: a write of the count while idle; the load begins at the next event tick. -/
def State.applyFinTableLoad (ctx : Ctx) (s : State) : State :=
  let c := ctx.val
  ((s.setFin c { s.fn c with table := [] }).put FIN_CTX_TABLE_STATUS.state c 1).put FIN_CTX_TABLE_STATUS.entry c 0
def execFinTableLoad (fn : Func) (ctx : Ctx) (value : Word) (s : State) : Host.Outcome State Fault Refusal :=
  let c := ctx.val
  s.act (s.fnWrite fn .FIN_CTX_TABLE_COUNT c fun s =>
    if s.sstate c ≠ ssIdle then s
    else (s.wn .FIN_CTX_TABLE_COUNT c (bits value.toNat 10 0)).sampleRow 9 (s.fnSrc fn c) (.finTableLoad fn ctx value))

/-- FIN_TABLE_LOAD_COMPLETE (R367, R480). -/
def execFinTableLoadComplete (ctx : Ctx) (s : State) : Host.Outcome State Fault Refusal :=
  let c := ctx.val
  let n := s.rn .FIN_CTX_TABLE_COUNT c
  s.act (if s.get FIN_CTX_TABLE_STATUS.state c ≠ 1 ∨ s.engHeld c (s.rn .FIN_CTX_TABLE_BASE c) (64 * min n 1024) then s
    else
      let (s, d) := s.engRead c (s.rn .FIN_CTX_TABLE_BASE c) (64 * min n 1024)
      let bad (b : Nat) := s.endLoad FIN_CTX_TABLE_STATUS.state FIN_CTX_TABLE_STATUS.entry c (some b)
      match d with
      | none => bad 0
      | some bs =>
        let es := chunks 64 (min n 1024) bs
        match (upto es.length).find? fun i => !coefOk (es.getD i []) with
        | some b => bad b
        | none =>
          if 1024 < n then bad 1023
          else if s.settingDiffers c 2 (Config.sha3 bs) then (bad 0).bump .SNP_JOURNAL_MISMATCH
          else ((s.setFin c { s.fn c with table := es }).endLoad FIN_CTX_TABLE_STATUS.state FIN_CTX_TABLE_STATUS.entry c
            none).journalSetting c 2 0 (Config.sha3 bs))

/-! ## The mover list (R379 to R382) -/

def Mover.byte (m : Mover) (o n : Nat) : Nat := leNat ((m.img.drop o).take n)
def Mover.kind (m : Mover) : Nat := m.byte 0 1
def Mover.item (m : Mover) : Nat := m.byte 1 1
def Mover.group (m : Mover) : Nat := m.byte 2 2
def Mover.length (m : Mover) : Nat := m.byte 4 4
def Mover.off (m : Mover) : Nat := bits (m.byte 8 8) 47 0
/-- Core window number. -/
def Mover.core (m : Mover) : Nat := let w := m.byte 16 2; 256 * bits w 3 0 + 16 * bits w 7 4 + bits w 11 8
def Mover.op (m : Mover) : Nat := m.byte 18 1 % 32
def Mover.port (m : Mover) : Nat := m.byte 19 1 % 8
def Mover.chunk (m : Mover) : Nat := max 64 (m.byte 20 4)
def Mover.chunks (m : Mover) : Nat := if m.item = 4 ∧ m.kind = 1 then 1 else ceilDiv m.length m.chunk

/-- Bytes of the next chunk of a deliver entry. -/
def Mover.nextLen (m : Mover) : Nat := min m.chunk (m.length - m.chunk * m.sent)

/-- Does a collect entry act as a copy entry (R381)? -/
def Mover.copies (m : Mover) : Bool := m.kind = 3 || (m.kind = 2 && m.frozen)

/-- The die that carries out an entry: for a deliver entry the die of its destination, for a collect entry the die to which the
output's route leads, for a copy entry the die of its bytes (DEDUCED, log entry 84). -/
def State.moverDie (s : State) (m : Mover) : Nat :=
  match m.kind with
  | 1 => m.core / 1024
  | 2 => rtRegion ((s.core m.core).block.route m.op m.port) / 4
  | _ => (s.locate m.off).1 / 4

/-- Show FIN_STATUS: the dies whose movers have entries in progress. -/
def State.showFin (s : State) : State :=
  s.put FIN_STATUS.busy 0 (maskOf (s.fin.ctx.flatMap fun e => (e.2.movers.filter fun m => !m.done).map (·.die)).eraseDups)

/-- The step-size entry of a group: [0] of its flags freezes it (R369). -/
def CtxFin.frozen (f : CtxFin) (g : Nat) : Bool := bitAt (beWord (f.sizes.getD g []) 12) 0

/-- The movers start at the start tick of a step: mover list and step sizes are read (R369, R380, R381). `reshard`: every group is
frozen (R384). -/
def State.startMovers (s : State) (c sizesAt : Nat) (reshard : Bool) : State :=
  let n := (s.fn c).table.length
  let (s, z) := s.engRead c sizesAt (16 * n)
  let f := { s.fn c with sizes := chunks 16 n (z.getD (List.replicate (16 * n) 0#8)) }
  let cnt := s.rn .FIN_CTX_MOVER_COUNT c
  let (s, l) := s.engRead c (s.rn .FIN_CTX_MOVER_BASE c) (32 * cnt)
  let ms := (chunks 32 cnt (l.getD [])).filterMap fun img =>
    let m : Mover := { img := img, die := 0 }
    if m.kind = 0 ∨ 3 < m.kind then none
    else some { m with die := s.moverDie m, frozen := reshard || f.frozen m.group }
  (s.setFin c { f with movers := ms, dies := [] }).showFin

/-- The movers of a context stop with its step. -/
def State.stopMovers (s : State) (c : Nat) : State := (s.setFin c { s.fn c with movers := [] }).showFin

/-- Replace a mover. -/
def State.setMover (s : State) (c i : Nat) (m : Mover) : State := (s.setFin c { s.fn c with movers := (s.fn c).movers.set i m }).showFin

/-- The bytes of a coefficient token: the entry, its step sizes, 48 zeros (R380). -/
def CtxFin.coefToken (f : CtxFin) (g : Nat) : List Byte :=
  f.table.getD g (List.replicate 64 0#8) ++ f.sizes.getD g (List.replicate 16 0#8) ++ List.replicate 48 0#8

/-- The bytes of the next token of a deliver entry; none: a null token. A chunk that lies outside bank A or cannot be read is sent as a
null token (DESIGN CHOICE, log entry 158). -/
def State.moverData (s : State) (c : Nat) (m : Mover) : State × Option (List Byte) :=
  if m.frozen || decide (m.chunks ≤ m.sent) then (s, none)
  else if m.item = 4 then (s, some ((s.fn c).coefToken m.group))
  else match s.bankAddr c (m.off + m.chunk * m.sent) (m.nextLen) 1 with
    | some b =>
      let (s, d) := s.engRead c b m.nextLen
      (s.bump .FIN_MOVED_BYTES m.die m.nextLen, d)
    | none => (s, none)

/-- Must the next read of a mover wait on its way to the memory (R503, R525)? -/
def State.moverWaits (s : State) (c a n : Nat) : Bool := ((s.bankAddr c a n 1).map fun b => s.engHeld c b n).getD false

/-- May entry m send its next token: its context is not pre-empted, it holds the credit of the port's slot (R239, R380), and its chunk can
be read? -/
def State.mayDeliver (s : State) (c : Nat) (m : Mover) (t : Tag) : Bool :=
  let p := regionOf m.core
  m.kind = 1 && !m.done && !s.barksHeld c && s.rctx p = c && s.rstate p ≠ rsLoading &&
    s.creditFor m.core m.op m.port t (BitVec.ofNat 12 (s.repoch p)) &&
    decide ((m.core, m.op, m.port, t.toNat % opDepth ((s.core m.core).block.op m.op)) ∉ s.fch.lost) &&
    !s.moverWaits c (m.off + m.chunk * m.sent) m.nextLen

/-- MOVER_DELIVER: entry i of the list sends its next token, as courier packets from the agent port of its die (R173, R380); movers wait
while their context is pre-empted (R384) (DESIGN CHOICE, log entry 82). A token that its source router discards with FENCED is lost
and the mover goes on (DESIGN CHOICE, log entry 158). -/
def execMoverDeliver (ctx : Ctx) (entry : Fin 65536) (s : State) : Host.Outcome State Fault Refusal :=
  let c := ctx.val
  s.act (match (s.fn c).movers[entry.val]? with
    | some m =>
      let t := BitVec.ofNat 16 (s.rn .CTX_TAG_BASE c + m.sent)
      if s.mayDeliver c m t then
        let (s, data) := s.moverData c m
        let tok : Token :=
          { epoch := BitVec.ofNat 12 (s.repoch (regionOf m.core)), tag := t, dst := m.core, op := m.op, port := m.port
            null := data.isNone, length := ((data.map (·.length)).getD 0) / 64, data := data.getD [], src := .mover m.die
            from_ := 64 * m.die }
        let s := (s.launch tok (clusterOf m.core)).getD (s.refuseTok tok tok.from_)
        s.setMover c entry.val
          { m with sent := m.sent + 1, done := decide (s.get CTX_STEP_STATE.microbatches c ≤ m.sent + 1) }
      else s
    | none => s)

/-- Write a chunk to the shadow bank. -/
def State.shadowWrite (s : State) (c die a : Nat) (bs : List Byte) : State :=
  match s.bankAddr c a bs.length 2 with
  | some b => (s.engWrite c b bs true).bump .FIN_MOVED_BYTES die bs.length
  | none => s

/-- MOVER_COLLECT: token n reaches the state mover of its router's die (R378, R381) (DEDUCED, log entry 99). -/
def execMoverCollect (n : Nat) (s : State) : Host.Outcome State Fault Refusal :=
  s.act (s.agentToken n 31 fun s t =>
    match t.src with
    | .core k op out _ =>
      let c := s.rctx (regionOf k)
      match (s.fn c).movers.zipIdx.find? fun x => x.1.kind = 2 && x.1.core = k && x.1.op = op && x.1.port = out with
      | none => s
      | some (m, i) =>
        let j := (t.tag - BitVec.ofNat 16 (s.rn .CTX_TAG_BASE c)).toNat
        if m.chunks ≤ j then s
        else
          let long := decide (m.chunk < t.data.length)
          let s := if m.frozen || t.null then s
            else (if long then s.bump .FIN_TRUNCATED else s).shadowWrite c m.die (m.off + m.chunk * j) (t.data.take m.chunk)
          if m.frozen then s
          else
            let got := if j ∈ m.got then m.got else m.got ++ [j]
            s.setMover c i { m with got := got, done := decide (m.chunks ≤ got.length) }
    | _ => s)

/-- MOVER_COPY: entry i copies its bytes from the committed bank to the shadow bank; a frozen collect entry does the same. -/
def execMoverCopy (ctx : Ctx) (entry : Fin 65536) (s : State) : Host.Outcome State Fault Refusal :=
  let c := ctx.val
  s.act (match (s.fn c).movers[entry.val]? with
    | some m =>
      if m.done || !m.copies || s.barksHeld c || s.moverWaits c m.off m.length then s
      else
        let s := match s.bankAddr c m.off m.length 1 with
          | some b =>
            let (s, d) := s.engRead c b m.length
            ((s.bump .FIN_MOVED_BYTES m.die m.length).shadowWrite c m.die m.off (d.getD []))
          | none => s
        s.setMover c entry.val { m with done := true }
    | none => s)

/-- Does a write of an engine to a context's memory wait on its way, not yet acknowledged (R382)? -/
def State.writesWait (s : State) (c : Nat) : Bool :=
  (s.mt.held ++ s.mt.portHeld).any fun h => h.engine && h.data.isSome && h.req.ctxNum = some c

/-- MOVER_DONE: the die has no collect or copy entry left and all writes are acknowledged; its mover increments FIN_CTX_DONE_VID once
in the step (R382). -/
def execMoverDone (ctx : Ctx) (die : Fin 4) (s : State) : Host.Outcome State Fault Refusal :=
  let c := ctx.val
  let f := s.fn c
  s.act (if !s.stepOpen c || die.val ∈ f.dies || s.writesWait c || f.movers.any fun m => m.die = die.val && m.kind ≠ 1 && !m.done then s
    else (s.setFin c { f with dies := f.dies ++ [die.val] }).herdAgent (16384 + die.val) c (s.get FIN_CTX_DONE_VID.vid c) 1)

/-- FIN_COUNT_REPORT: token n brings a count report (R383); groups beyond the table have no counter. -/
def execFinCountReport (n : Nat) (s : State) : Host.Outcome State Fault Refusal :=
  s.act (s.agentToken n 29 fun s t =>
    let c := s.rctx (senderRegion t)
    let g := leNat (t.data.take 2)
    let fb := beWord t.data 4
    let s := s.bump .FIN_CTX_FALLBACK_BLOCKS c fb
    if 1024 ≤ g then s
    else (s.bump .FIN_SINGULAR_COUNT (1024 * c + g) fb).bump .FIN_ZERO_DENOM (1024 * c + g) (beWord t.data 8))

/-! ## The recurrence (R370 to R376): what a finishing operation computes, on values -/

/-- The reduced gradient of a sign vote (R371): the sign of the margin, or the margin over the voters. -/
def voteGrad (margin : Bool) (v : Int) (n : Nat) : FVal :=
  if margin then div32 (r32 (.fin (decide (v < 0)) v.natAbs 0)) (r32 (fvNat n))
  else if v = 0 then fvZero else .fin (decide (v < 0)) 1 0

/-- sgn of R372. -/
def fvSgn (u : FVal) : FVal :=
  if u.isNan then .nan else if fvZero.lt u then fvOne else if u.lt fvZero then fvOne.neg else fvZero

/-- One element's update (R370): new first and second moment and the new weight before its conversion. `blk`: its element of the
block solve (R375). -/
structure Update where
  m1 : FVal
  v1 : FVal
  w1 : FVal
  zeroDen : Bool := false
  deriving DecidableEq, Repr

/-- g and u of R370. -/
def stepG (e : List Byte) (G : FVal) : FVal := r32 ((ceF e 8).mul G)
def stepM (e : List Byte) (g m : FVal) : FVal := fma32 (ceF e 16) g (r32 ((ceF e 12).mul m))
def stepV (e : List Byte) (g v : FVal) : FVal := fma32 (r32 ((ceF e 24).mul g)) g (r32 ((ceF e 20).mul v))
def stepU (e : List Byte) (g m m1 : FVal) : FVal :=
  fma32 (ceF e 28) (if bitAt (ceFlags e) 7 then m1 else m) (r32 ((ceF e 32).mul g))

/-- The recurrence. -/
def recurrence (e : List Byte) (eta k1 k2 w m v G blk : FVal) : Update :=
  let m := if ceMFmt e = 0 then fvZero else m
  let v := if bitAt (ceFlags e) 3 then v else fvZero
  let g := stepG e G
  let m1 := stepM e g m
  let v1 := stepV e g v
  let u := stepU e g m m1
  let den := r32 ((r32 (fvSqrt (r32 (k2.mul v1)))).add (ceF e 36))
  let z := ceMode e = 2 && den.isZero
  let d := match ceMode e with
    | 0 => u
    | 1 => fvSgn u
    | 2 => if den.isZero then fvZero else div32 (r32 (k1.mul u)) den
    | _ => blk
  let t := fma32 (ceF e 40) w d
  { m1 := m1, v1 := v1, w1 := fma32 eta.neg t w, zeroDen := z }

/-- The damping of attempt j (R375). -/
def damping (e : List Byte) (j : Nat) : FVal := r32 ((ceF e 52).mul (.fin false 1 j))

/-- One row of column j' of the factor: x of R375 over the columns before. -/
def cholX (a : FVal) (li lj : List FVal) : FVal := (li.zip lj).foldl (fun x p => fma32 p.1.neg p.2 x) a

/-- The factor's rows, built column by column: row i holds L[i][0..]; none where a pivot fails. -/
def cholesky (floor : FVal) (A : List (List FVal)) : Option (List (List FVal)) :=
  (upto A.length).foldl (fun (L : Option (List (List FVal))) j =>
    L.bind fun L =>
      let lj := (L.getD j []).take j
      let piv := cholX ((A.getD j []).getD j fvZero) lj lj
      if !floor.lt piv then none
      else
        let dg := r32 (fvSqrt piv)
        some (L.zipIdx.map fun r =>
          if r.2 < j then r.1
          else if r.2 = j then r.1.take j ++ [dg]
          else r.1.take j ++ [div32 (cholX ((A.getD r.2 []).getD j fvZero) (r.1.take j) lj) dg]))
    (some (List.replicate A.length []))

/-- Forward substitution with L, then backward with its transpose (R375). -/
def cholSolve (L : List (List FVal)) (b : List FVal) : List FVal :=
  let n := L.length
  let at_ (i j : Nat) : FVal := (L.getD i []).getD j fvZero
  let y := (upto n).foldl (fun (y : List FVal) i =>
    y ++ [div32 ((upto i).foldl (fun x k => fma32 (at_ i k).neg (y.getD k fvZero) x) (b.getD i fvZero)) (at_ i i)]) []
  (upto n).foldl (fun (x : List FVal) r =>
    let i := n - 1 - r
    div32 (((upto n).filter fun k => decide (i < k)).foldl (fun a k => fma32 (at_ k i).neg (x.getD (k - i - 1) fvZero) a)
      (y.getD i fvZero)) (at_ i i) :: x) []

/-- The damping ladder (R375, R376): the factor of the first attempt that completes, none when all seven fail. -/
def ladder (e : List Byte) (S1 : List (List FVal)) : Option (List (List FVal)) :=
  (upto 7).findSome? fun j =>
    cholesky (ceF e 56) (S1.zipIdx.map fun r => r.1.zipIdx.map fun x => if x.2 = r.2 then r32 (x.1.add (damping e j)) else x.1)

end Sys2Proof.Machine
end

