-- ==== Sys2Proof/Machine/Sentinel.lean ====
section
/-! DEFINITION. Machine/Sentinel.lean: sentinel recomputation (R463 to R468): the list, sampling, captures, the sentinel phase and
the outcome of a comparison. -/

namespace Sys2Proof.Machine

/-! ## The list (R463) -/

def seCore (e : List Byte) : Nat := let w := leNat (e.take 2); 256 * bits w 3 0 + 16 * bits w 7 4 + bits w 11 8
def seOp (e : List Byte) : Nat := leNat ((e.drop 2).take 1)
def seSeq (e : List Byte) : Nat := leNat ((e.drop 3).take 1)
def sentEntryOk (e : List Byte) : Bool :=
  bits (leNat (e.take 2)) 15 12 = 0 && decide (seOp e < 32) && (e.drop 4).all (· = 0#8)

def State.setFlt (s : State) (f : FltState) : State := { s with flt := f }

/-- SENT_LIST_LOAD: a write of the count while idle; the load begins at the next event tick (R367, R463). -/
def State.applySentListLoad (ctx : Ctx) (s : State) : State :=
  let c := ctx.val
  ((s.setFlt { s.flt with sent := spSet [] s.flt.sent c [] }).put FLT_CTX_SENT_STATUS.state c 1).put FLT_CTX_SENT_STATUS.entry c 0
def execSentListLoad (fn : Func) (ctx : Ctx) (value : Word) (s : State) : Host.Outcome State Fault Refusal :=
  let c := ctx.val
  s.act (s.fnWrite fn .FLT_CTX_SENT_COUNT c fun s =>
    if s.sstate c ≠ ssIdle then s
    else (s.wn .FLT_CTX_SENT_COUNT c (bits value.toNat 11 0)).sampleRow 9 (s.fnSrc fn c) (.sentListLoad fn ctx value))

/-- SENT_LIST_LOAD_COMPLETE: ok, or rejected with the first entry that failed. -/
def execSentListLoadComplete (ctx : Ctx) (s : State) : Host.Outcome State Fault Refusal :=
  let c := ctx.val
  let n := s.rn .FLT_CTX_SENT_COUNT c
  s.act (if s.get FLT_CTX_SENT_STATUS.state c ≠ 1 ∨ s.engHeld c (s.rn .FLT_CTX_SENT_BASE c) (16 * min n 3840) then s
    else
      let (s, d) := s.engRead c (s.rn .FLT_CTX_SENT_BASE c) (16 * min n 3840)
      let fin (s : State) (b : Option Nat) := s.endLoad FLT_CTX_SENT_STATUS.state FLT_CTX_SENT_STATUS.entry c b
      match d with
      | none => fin s (some 0)
      | some bs =>
        let es := chunks 16 (min n 3840) bs
        match (upto es.length).find? fun i => !sentEntryOk (es.getD i []) with
        | some b => fin s (some b)
        | none => if 3840 < n then fin s (some 3840)
          else fin (s.setFlt { s.flt with sent := spSet [] s.flt.sent c es }) none)

/-! ## Sampling (R464) -/

/-- The size W of a capture window in bytes, and its place in the scratchpad. -/
def State.sentW (s : State) (c : Nat) : Nat := 64 * s.get FLT_CTX_SENT_WINDOW.size c
def State.sentOff (s : State) (c : Nat) : Nat := 64 * s.get FLT_CTX_SENT_WINDOW.offset c

/-- Is step k a sentinel step of a context? -/
def State.sentinelStep (s : State) (c k : Nat) : Bool :=
  let S := max 1 (min 1024 (s.get FLT_CTX_SENT_PERIOD.period c))
  decide (0 < s.sentW c) && k % S = S - 1

/-- The samples of step k with M microbatches from tag base B: one for each core of the list's entries. -/
def State.sampleCores (s : State) (c k M : Nat) (B : Tag) : List Capture :=
  let es := spGet [] s.flt.sent c
  ((es.map seCore).eraseDups).filterMap fun core =>
    let mine := es.filter fun e => seCore e = core
    if s.rctx (regionOf core) ≠ c then none
    else
      let h := nmGen (s.rn .NUM_CTX_SEED c) k (0xFFFFFF00 + regionOf core) (core % 256 / 16 * 16 + lcoreOf core)
      let e := mine.getD (h / 65536 % mine.length) []
      some { core := core, op := seOp e, tag := B + BitVec.ofNat 16 (h % M), seq := seSeq e, hash := h / 2 ^ 32 }

/-- Is a capture of context c? -/
def State.captureOf (s : State) (c : Nat) (x : Capture) : Bool := s.rctx (regionOf x.core) = c

/-- The samples of a step are drawn at its start tick. -/
def State.startSentinel (s : State) (c k M : Nat) (B : Tag) : State :=
  if s.sentinelStep c k then s.setFlt { s.flt with captures := s.flt.captures ++ s.sampleCores c k M B } else s

/-- The sentinel work of a context ends with its step. -/
def State.stopSentinel (s : State) (c : Nat) : State :=
  s.setFlt { s.flt with
    captures := s.flt.captures.filter fun x => !s.captureOf c x
    phase := s.flt.phase.filter (· ≠ c) }

/-! ## Captures (R465) -/

/-- Read a range of a core's scratchpad; nothing outside it. -/
def State.capRead (s : State) (k a n : Nat) : List Byte := (s.rdSpad k a n).getD []

/-- The bytes of a capture: the operand groups of A and of B with their scales, the initial load, the drained output
(DESIGN CHOICE, log entry 27: the order is the model's). -/
def State.captureBytes (s : State) (k : Nat) (t : TensArgs) (i : IVec) : List Byte :=
  let ks := if t.d.pass then [] else t.d.walk fun l => t.d.role l = 3
  let side (fmt slot sc : Nat) (reg : Word) (n : Nat) : List Byte :=
    ks.flatMap fun x => (upto n).flatMap fun r =>
      let j := ivecAdd i x
      let row := s.capRead k (wrapInt 32 ((t.d.addr slot reg j : Int) + (r * t.d.pitch slot : Nat))) (grpBytes fmt)
      if fmtMx fmt then row ++ s.capRead k (wrapInt 32 ((t.d.addr sc reg j : Int) + (r * t.d.pitch sc : Nat))) 1 else row
  let init := ((s.tileInit k t i).getD []).flatMap fun v => natLe 6 v.toNat
  let f := (drainFmtOf t.d.drainFmt).width / 8
  let out := (upto (t.d.rows i)).flatMap fun r =>
    s.capRead k (wrapInt 32 ((t.d.addr 2 t.c i : Int) + (r * t.d.pitch 2 : Nat))) (f * t.d.cols i)
  side t.fa 0 3 t.a (t.d.rows i) ++ side t.fb 1 4 t.b (t.d.cols i) ++ (if t.d.clear = 0 then [] else init) ++ out

/-- Change the captures. -/
def State.setCaptures (s : State) (f : List Capture → List Capture) : State := s.setFlt { s.flt with captures := f s.flt.captures }

/-- SENTINEL_CAPTURE: the sampled instance of the core is finish-ready; its tile is written to the capture slot, unless it is
larger than W; the finish handler may then go. -/
def execSentinelCapture (core : CoreRef) (s : State) : Host.Outcome State Fault Refusal :=
  let k := core.key
  let c := s.rctx (regionOf k)
  s.act (match s.flt.captures.find? fun x => x.core = k && !x.taken with
    | some x =>
      if !((s.core k).entries.any fun m => m.op = x.op && m.tag = x.tag && m.state = .finishReady) then s
      else
        let drop (s : State) : State := s.setCaptures fun l => dropFirst (· = x) l
        match x.cmd.bind fun q => (tensArgs (s.core k) q) with
        | none => drop s
        | some t =>
          let ts := (s.tiles k t).1
          match ts[x.hash % ts.length]? with
          | none => drop s
          | some i =>
            let bs := s.captureBytes k t i
            if s.sentW c < bs.length then (drop s).bump .FLT_SENT_SKIPPED
            else
              let s := s.engWrite c (s.rn .FLT_CTX_SENT_AREA c + k * s.sentW c) bs
              s.setCaptures fun l => replaceFirst (· = x) (fun y => { y with taken := true, bytes := bs }) l
    | none => s)

/-- The partner of a core: logical index l + n modulo lcores, or the next that is not short (R466, R467, R483)
(DEDUCED, log entry 80). -/
def State.partner (s : State) (k n : Nat) : Option Nat :=
  let L := ((s.rfolio (regionOf k)).map (·.lcores)).getD 0
  ((upto L).map fun i => 16 * clusterOf k + (lcoreOf k + n + i) % L).find? fun x => s.hasCore x && x ≠ k

/-- Put a capture into the window of a partner: the tile is recomputed there (R466). Of a window that does not lie in the scratchpad
nothing is written (DESIGN CHOICE, log entry 159). -/
def State.runPartner (s : State) (c : Nat) (x : Capture) (n : Nat) : State :=
  match s.partner x.core n with
  | some p => ((s.wrSpad p (s.sentOff c) x.bytes).getD s).bump .FLT_SENT_RUNS
  | none => s

/-- SENTINEL_PHASE_START: the end tally has barked; every capture goes to its partner. Samples whose instance never became
finish-ready are dropped. -/
def execSentinelPhaseStart (ctx : Ctx) (s : State) : Host.Outcome State Fault Refusal :=
  let c := ctx.val
  s.act (if !(s.stp c).barked || s.sstate c ≠ ssRunning || c ∈ s.flt.phase || s.barksHeld c then s
    else
      let s := s.setCaptures fun l => l.filter fun x => !s.captureOf c x || (x.taken && (s.partner x.core 1).isSome)
      let s := (s.flt.captures.filter fun x => s.captureOf c x).foldl (fun (s : State) x => s.runPartner c x 1) s
      s.setFlt { s.flt with phase := s.flt.phase ++ [c] })

/-- SENTINEL_COMPARE (R467): the partner's output equals the original or not; if not, the second partner's output equals the
original (0), the partner's (1), or neither (2). -/
def execSentinelCompare (core : CoreRef) (same : Bool) (second : Fin 3) (s : State) : Host.Outcome State Fault Refusal :=
  let k := core.key
  let p := regionOf k
  let c := s.rctx p
  s.act (match s.flt.captures.find? fun x => x.core = k && x.taken with
    | some x =>
      if c ∉ s.flt.phase ∨ s.barksHeld c = true then s
      else
        let s := (s.setCaptures fun l => dropFirst (· = x) l).setStp c { s.stp c with readyTick := s.now }
        if same then s
        else
          let s := s.runPartner c x 2
          let fault (s : State) (k : Nat) : State := (s.bump .FLT_SENT_MISMATCH).sampleOnce 6 (s.coreUnit k) (.unit 0 (s.coreUnit k) 0x02)
          let vote (s : State) : State := s.sample 7 (9 + p) (.sentinel c p)
          match second with
          | 0 => (match s.partner k 1 with | some q => fault s q | none => s)
          | 1 => vote (fault s k)
          | 2 => vote (s.bump .FLT_SENT_UNATTRIBUTED)
    | none => s)

/-- A sentinel outcome that sets vote bit 2 is handled (R467, R470): the job rolls back. -/
def State.applySentinel (s : State) (c : Nat) : State :=
  let s := s.voteBit c vbSentinel
  if s.jobCtx = some c then s.sendFailure 7 else s

end Sys2Proof.Machine
end

