-- ==== Sys2Proof/Machine/Snapshot.lean ====
section
/-! DEFINITION. Machine/Snapshot.lean: the snapshot engine (R472 to R477): captures at a flip, slots, drains, the interval. -/

namespace Sys2Proof.Machine

/-! ## Replicas and parts (R471, R473) -/

/-- The axes along which the banks of the job are replicas, within a joined job. -/
def State.replicaAxes (s : State) : List Nat := if s.joined then unmask 4 (s.get SNP_CONFIG.replica_axes) else []

/-- The coordinates that replicate this package's committed bank, by linear position. -/
def State.replicas (s : State) (c : Nat) : List Nat :=
  sortBy (fun a b => decide (s.linear a ≤ s.linear b))
    (s.replicaAxes.foldl (fun (l : List Nat) a => l.flatMap fun x => (upto (s.ring_ a)).map fun v => setCoord x a v) [c]).eraseDups

/-- First 64 KiB unit of part r of P. -/
def partFirst (units P r : Nat) : Nat := r * units / P

/-- Units of the bank. -/
def State.bankUnits (s : State) (c : Nat) : Nat := s.rn .CTX_BANK_SIZE c / 65536

/-- The bytes of part r of a bank: first address and length. -/
def State.partRange (s : State) (c r bank : Nat) : Nat × Nat :=
  let P := (s.replicas s.coord).length
  let u := s.bankUnits c
  let a := partFirst u P r
  (s.rn .CTX_BANK_BASE c + bank * s.rn .CTX_BANK_DELTA c + 65536 * a, 65536 * (partFirst u P (r + 1) - a))

/-- The parts a package drains: its own, and the next when two copies are kept. -/
def State.snapParts (s : State) : List Nat :=
  let rs := s.replicas s.coord
  let r := (rs.idxOf s.coord) % rs.length
  if s.flag SNP_CONFIG.copies then [r, (r + 1) % rs.length] else [r]

/-! ## Slots (R473, R475) -/

def State.snapSlots (s : State) : Nat := max 2 (min 64 (s.get SNP_SLOTS.slots))
def State.snapSlotAddr (s : State) (i : Nat) : Nat := s.rn .SNP_TARGET_BASE + i * s.rn .SNP_SLOT_SIZE
/-- STEP of a complete slot. -/
def State.slotStep (s : State) (i : Nat) : Option Nat :=
  let v := spGet 0 s.flt.slotsDone i
  if v = 0 ∨ s.snapSlots ≤ i then none else some (v - 1)
def State.fullSlots (s : State) : List Nat := (upto s.snapSlots).filter fun i => (s.slotStep i).isSome

/-- The slot with the extreme STEP among some. -/
def State.pickSnap (s : State) (newest : Bool) (l : List Nat) : Option Nat :=
  l.foldl (fun (m : Option Nat) i => match m with
    | none => some i
    | some j => if (if newest then decide ((s.slotStep j).getD 0 < (s.slotStep i).getD 0)
        else decide ((s.slotStep i).getD 0 < (s.slotStep j).getD 0)) then some i else some j) none

/-- The anchor: the newest complete snapshot whose STEP is at most CTX_STEP − S. -/
def State.anchor (s : State) (c : Nat) : Option Nat :=
  let S := max 1 (min 1024 (s.get FLT_CTX_SENT_PERIOD.period c))
  s.pickSnap true (s.fullSlots.filter fun i => decide ((s.slotStep i).getD 0 + S ≤ s.rn .CTX_STEP c))

/-- Where a new snapshot goes: an empty slot, else the oldest that is neither the anchor nor the only complete one. -/
def State.newSlot (s : State) (c : Nat) : Option Nat :=
  match (upto s.snapSlots).find? fun i => (s.slotStep i).isNone with
  | some i => some i
  | none => if s.fullSlots.length ≤ 1 then none else s.pickSnap false (s.fullSlots.filter fun i => some i ≠ s.anchor c)

/-- Show the slots: all ones for none (DEDUCED, log entry 85). -/
def State.showSlots (s : State) (c : Nat) : State :=
  let v (o : Option Nat) : Nat := (o.bind s.slotStep).getD (2 ^ 64 - 1)
  let s := (upto 64).foldl (fun (s : State) i => s.wn .SNP_SLOT_STEP i (v (some i))) s
  let s := (s.wn .SNP_NEWEST 0 (v (s.pickSnap true s.fullSlots))).wn .SNP_ANCHOR 0 (v (s.anchor c))
  s.put SNP_STATUS.complete 0 s.fullSlots.length

/-! ## The interval (R476, R477) -/

/-- Ticks in an hour. -/
def hourTicks : Nat := 22500000000

/-- The mean step time over the last 64 committed steps, as a sum of ticks and a count (DEDUCED, log entry 98). -/
def State.stepTime (s : State) : Option (Nat × Nat) :=
  match s.flt.flips with
  | a :: b :: l => some (a - (b :: l).getLastD b, (b :: l).length)
  | _ => none

/-- Squared mean time to failure, as 2 C Mt in µs² (numerator, denominator); none where no failure is expected. -/
def State.twoCM (s : State) : Option (Nat × Nat) :=
  let n := max 1 (if s.joined then s.jobSize else 1)
  let taken := max 1 (s.rn .SNP_TAKEN)
  -- C in units of 1 / (100 × taken) µs
  let c := 100 * taken * s.rn .SNP_COST_US + 16 * s.rn .SNP_STALL_TICKS
  let age := s.now - s.flt.joinTick
  if age < 24 * hourTicks then
    let fit := s.rn .SNP_PRIOR_FIT
    if fit = 0 then none else some (2 * c * 3600000000 * 1000000000, 100 * taken * n * fit)
  else
    let win := min age (720 * hourTicks)
    let f := (s.flt.failTicks.filter fun t => decide (s.now - win ≤ t)).length
    if f = 0 then none else some (2 * c * win * 16, 100 * taken * f * 100)

/-- The interval I of R476; T is in ticks of 0.16 µs. -/
def State.snapInterval (s : State) : Nat :=
  let cap := max 1 (s.rn .SNP_MAX_INTERVAL)
  match s.stepTime with
  | none => 1
  | some (sum, cnt) =>
    if sum = 0 then cap
    else
      let byCost := match s.twoCM with
        | none => cap
        | some (a, b) => min cap ((isqrt (4 * a * 10000 * cnt * cnt / (b * 256 * sum * sum)) + 1) / 2)
      max 1 (max (ceilDiv (s.flt.drainTicks * cnt) sum) byCost)

/-! ## Captures and drains (R472 to R474) -/

/-- The values of R472 at the capture. -/
def State.snapValues (s : State) (c : Nat) : List Byte :=
  natLe 4 (s.rn .LNK_JOB_ID) ++ natLe 4 s.coord ++ natLe 8 (s.rn .CTX_STEP c) ++ natLe 8 (s.rn .NUM_CTX_SEED c) ++
    natLe 4 (s.rn .CTX_TAG_BASE c) ++ natLe 4 (s.rn .CTX_LAYOUT_EPOCH c) ++ natLe 4 (s.rn .NUM_CTX_MAP_COUNT c) ++
    natLe 4 (s.rn .FIN_CTX_TABLE_COUNT c) ++ natLe 4 (s.rn .COL_TABLE_COUNT)

/-- The drain of a capture begins, in the slot R475 gives; while a drain is in progress or no slot may be taken, none does
(DEDUCED, log entry 38). -/
def State.beginDrain (s : State) (c : Nat) : State :=
  match if s.flt.drain.isSome then none else s.newSlot c with
  | none => s
  | some i =>
    let f := { s.flt with
      drain := some (i, s.snapValues c, s.now)
      capBank := s.get CTX_STEP_STATE.sel c
      slotsDone := spSet 0 s.flt.slotsDone i 0
      slotJournal := spSet 0 s.flt.slotJournal i s.flt.journal }
    ((s.setFlt f).put SNP_STATUS.state 0 1).showSlots c

/-- A snapshot of the job's context is captured at the flip tick: the drain begins; the job's last snapshot and its interval move
on (R472, R477). -/
def State.snapCapture (s : State) (c : Nat) : State :=
  let new := s.snapInterval
  let s := s.beginDrain c
  let s := (s.setFlt { s.flt with lastSnap := s.rn .CTX_STEP c, interval := s.flt.nextInterval }).wn .SNP_INTERVAL 0 s.flt.nextInterval
  if s.solo c then s.setFlt { s.flt with nextInterval := new }
  else if s.flag LNK_STATUS.tick_root then
    let shs := ((upto s.jobSize).map fun n => s.shepherdOf (s.unlinear n)).eraseDups
    let s := shs.foldl (fun (s : State) x => if x = s.coord then s else s.sendTo x (.cadence x new)) s
    s.setFlt { s.flt with nextInterval := new }
  else s

/-- CADENCE_RECORD: a shepherd takes the interval of the tick root. -/
def execCadenceRecord (interval : Fin 65536) (s : State) : Host.Outcome State Fault Refusal :=
  s.act (if s.led && s.joined && s.flag LNK_STATUS.shepherd then s.setFlt { s.flt with nextInterval := max 1 interval.val } else s)

/-- The header of a slot (R473; DEDUCED, log entry 28: offsets follow the order of the rule). -/
def slotHeader (values : List Byte) (parts : List Nat) (digests : List (List Byte)) : List Byte :=
  let h := natLe 4 0x4E535854 ++ natLe 2 0x0100 ++ values ++ (parts.flatMap fun r => natLe 4 r) ++ digests.flatten ++ [1#8]
  h ++ List.replicate (4096 - h.length) 0#8

/-- The tables a snapshot holds: address, entries' size, count, slot offset. -/
def State.snapTables (s : State) (c : Nat) : List (Nat × Nat × Nat) :=
  [(s.rn .NUM_CTX_MAP_BASE c, 16 * s.rn .NUM_CTX_MAP_COUNT c, 0x1000),
   (s.rn .FIN_CTX_TABLE_BASE c, 64 * s.rn .FIN_CTX_TABLE_COUNT c, 0x11000),
   (s.rn .COL_TABLE_BASE, 64 * s.rn .COL_TABLE_COUNT, 0x21000)]

/-- What a drain reads and where it writes it in its slot: address, length, offset: the tables, then the parts. -/
def State.drainPieces (s : State) (c : Nat) : List (Nat × Nat × Nat) :=
  s.snapTables c ++ (s.snapParts.foldl (fun (x : List (Nat × Nat × Nat) × Nat) r =>
    let (a, len) := s.partRange c r s.flt.capBank
    (x.1 ++ [(a, len, 0x40000 + x.2)], x.2 + len)) ([], 0)).1

/-- The end of a drain, its slot complete or not. -/
def State.finishDrain (s : State) (t0 : Nat) : State :=
  (s.setFlt { s.flt with drain := none, drainTicks := s.now - t0 }).put SNP_STATUS.state 0 (if s.flt.replay then 3 else 0)

/-- Copy the pieces into the slot: the digests; none where a read fails, or a write is refused: the slot is never completed
(R473, R483) (DEDUCED, log entry 160). -/
def State.drainCopy (s : State) (c base : Nat) (l : List (Nat × Nat × Nat)) : State × Option (List (List Byte)) :=
  l.foldl (fun (x : State × Option (List (List Byte))) p =>
    match x.2 with
    | none => x
    | some ds =>
      match x.1.engRead c p.1 p.2.1 with
      | (s, some bs) =>
        if s.engRefused c (base + p.2.2) bs.length then (s, none)
        else (s.engWrite c (base + p.2.2) bs, some (ds ++ [Config.sha3 bs]))
      | (s, none) => (s, none)) (s, some [])

/-- SNAPSHOT_DRAIN_COMPLETE: the parts and tables are in the slot and its complete flag is set; a drain whose bank has lost a
page ends without one (R483). A read that is held keeps it waiting. -/
def execSnapshotDrainComplete (s : State) : Host.Outcome State Fault Refusal :=
  s.act (match s.flt.drain, s.jobCtx with
    | some (i, values, t0), some c =>
      let ps := s.drainPieces c
      let lost := (pagesIn (s.rn .CTX_BANK_BASE c + s.flt.capBank * s.rn .CTX_BANK_DELTA c) (s.rn .CTX_BANK_SIZE c)).any s.pageFenced
      if ps.any fun p => s.engHeld c p.1 p.2.1 then s
      else
        let s := s.finishDrain t0
        let base := s.snapSlotAddr i
        if lost || s.snapSlots ≤ i || s.engRefused c base 4096 then s
        else
          match s.drainCopy c base ps with
          | (s, none) => s
          | (s, some ds) =>
            let s := s.engWrite c base (slotHeader values s.snapParts ds)
            let s := s.setFlt { s.flt with slotsDone := spSet 0 s.flt.slotsDone i (leNat ((values.drop 8).take 8) + 1) }
            let n := ((ps.drop 3).map (·.2.1)).foldl (· + ·) 0
            ((s.bump .SNP_TAKEN).bump .SNP_BYTES 0 n).showSlots c
    | _, _ => s)

end Sys2Proof.Machine
end

