-- ==== Sys2Proof/Machine/TrainStep.lean ====
section
/-! DEFINITION. Machine/TrainStep.lean: the training step (R310 to R341): step records, the vote, the all-reduce of vote records,
decisions, commit and abort, doubt, re-sharding. -/

namespace Sys2Proof.Machine

/-! ## Holding a command at the head of its ring (R312, R409, R469, R474, R479) -/

/-- Is the job's step record held by the job state (R469)? Replaying runs steps. -/
def State.jobHeld (s : State) (c : Nat) : Bool :=
  s.jobCtx = some c && !(s.get FLT_JOB_STATE.state = 0 || s.get FLT_JOB_STATE.state = 4)

/-- Would the step's shadow bank be the bank that a drain reads (R474)? -/
def State.drainHeld (s : State) (c : Nat) : Bool :=
  s.jobCtx = some c && s.flt.drain.isSome && s.flt.capBank = 1 - s.get CTX_STEP_STATE.sel c

/-- Are too few journal entries free (R479)? -/
def State.journalHeld (s : State) (c : Nat) : Bool := s.jobCtx = some c && decide (s.journalFree < 8)

/-- Does a step record wait at the head of its ring? -/
def State.stepHeld (s : State) (c : Nat) : Bool :=
  s.sstate c ≠ ssIdle || decide (2 ≤ s.get CTX_PSTATE.state c) || s.jobHeld c || s.drainHeld c || s.journalHeld c

/-! ## The step record (R311 to R313) -/

def recNum (r : List Byte) (o n : Nat) : Nat := leNat ((r.drop o).take n)
def recStep (r : List Byte) : Nat := recNum r 0 8
def recM (r : List Byte) : Nat := recNum r 8 2
def recEndVid (r : List Byte) : Nat := recNum r 12 4
def recEndCount (r : List Byte) : Nat := recNum r 16 4
def recDeadline (r : List Byte) : Nat := recNum r 20 4
def recLayout (r : List Byte) : Nat := recNum r 24 4
def recBatch (r : List Byte) : Nat := bits (recNum r 32 8) 47 0
def recSizes (r : List Byte) : Nat := bits (recNum r 40 8) 47 0
/-- Reserved fields (R311), the upper bits of both addresses with them. -/
def recRsv (r : List Byte) : Bool :=
  recNum r 10 2 = 0 && decide (recEndVid r < 2 ^ 20) && recNum r 28 4 = 0 && decide (recNum r 32 8 < 2 ^ 48) &&
    decide (recNum r 40 8 < 2 ^ 48) && recNum r 48 16 = 0

/-- The digests of the batch descriptors and of the step-size table (R479). -/
def State.stepDigests (s : State) (c : Nat) (r : List Byte) : List Byte :=
  Config.sha3 (((s.engRead c (recBatch r) (64 * recM r)).2).getD []) ++
    Config.sha3 (((s.engRead c (recSizes r) (16 * (s.fn c).table.length)).2).getD [])

/-- Does a replayed step record differ from the journal (R480)? A step without an entry differs. -/
def State.recordDiffers (s : State) (c : Nat) (r : List Byte) : Bool :=
  s.replaying c &&
    match s.journalFind c 1 (recStep r) fun _ => true with
    | some e => (e.drop 16).take 64 ≠ r || (e.drop 80).take 128 ≠ s.stepDigests c r
    | none => true

/-- The outcome of the checks on a step record, in the order of R312. -/
def State.judgeStep (s : State) (c : Nat) (r : List Byte) : Nat :=
  if !recRsv r || recM r = 0 || decide (4096 < recM r) then stBAD_DESCRIPTOR
  else if recStep r ≠ s.rn .CTX_STEP c then stSTEP_MISMATCH
  else if recLayout r ≠ s.rn .CTX_LAYOUT_EPOCH c then stEPOCH_STALE
  else
    match s.tallyOf c (recEndVid r) with
    | none => stNO_TALLY
    | some t =>
      if (s.stepSet c).isEmpty || (s.stepSet c).any (fun p => s.rstate p ≠ rsBound) || s.hrdDead t then stFENCED
      else if s.recordDiffers c r then stJOURNAL_MISMATCH
      else stOK

/-- Clear the vote word for a step that starts: bits [3:0] kept from before it are set (R313, R326). -/
def State.clearVote (s : State) (c : Nat) : State := s.put CTX_HEALTH.local_ c ((s.stp c).next % 16)

/-- Register a leash of the spine (R299, kind 3). -/
def State.spineLeash (s : State) (c vid threshold : Nat) (t : SpineTarget) : State × Nat × Option Nat :=
  s.setLeash c vid 0 false 0 threshold (.spine t)

/-- The leashes of the collective table and their barks go. -/
def State.dropColLeashes (s : State) : State :=
  let s := (s.hrd.leashes.filter fun l => match l.target with | .spine (.collective _) => true | _ => false).foldl
    (fun (s : State) l => s.dropLeash l.handle) s
  { s with lnk := { s.lnk with barks := [] } }

/-- The leashes of the collective table at a start tick (R435): for LNK_JOB_CTX alone (R333). What an earlier step left of them
goes first: an entry runs at most once a step, for that step. -/
def State.startCollectives (s : State) (c : Nat) : State :=
  if s.get LNK_JOB_CTX.context = c then
    let s := s.dropColLeashes
    s.lnk.table.zipIdx.foldl (fun (s : State) e =>
      (s.spineLeash c (bits (recNum e.1 12 4) 19 0) (recNum e.1 16 4) (.collective e.2)).1) s
  else s

/-- The items of a batch list (R399): used items in order, each with its number 4j + item. -/
def State.batchItems (s : State) (c : Nat) (r : List Byte) : List (List Byte) :=
  chunks 16 (4 * recM r) (((s.engRead c (recBatch r) (64 * recM r)).2).getD [])

/-- Commit margin and vote timeout as a step record takes them (R341). -/
def State.marginOf (s : State) (c : Nat) : Nat := max 64 (min 1024 (s.get CTX_COMMIT_MARGIN.value c))
def State.timeoutOf (s : State) (c : Nat) : Nat := max 100 (min 60000 (s.get CTX_VOTE_TIMEOUT.value c))

/-- A table that is loading or was rejected when a step record is applied halts the step bind set (R367, R434)
(DEDUCED, log entry 79). -/
def State.tableHalt (s : State) (c : Nat) : Bool :=
  let bad (n : Nat) : Bool := n = 1 || n = 3
  bad (s.get FIN_CTX_TABLE_STATUS.state c) || (s.get LNK_JOB_CTX.context = c && bad (s.get COL_STATUS.state))

/-- Halt every region of the step bind set; the step closes incomplete (R315). -/
def State.haltSet (s : State) (c : Nat) : State :=
  (s.stepSet c).foldl (fun (s : State) p => if s.runs p then s.haltCores p else s) (s.closeStep c)

/-- The start of a step (R313, R316, R355, R380, R399, R435, R464). -/
def State.startStep (s : State) (c : Nat) (r : List Byte) : State :=
  let M := recM r
  let k := s.rn .CTX_STEP c
  let s := (s.clearVote c).wn .CTX_STEP_START c (s.jobTick c)
  let s : State := { s with noc := { s.noc with spilled := s.noc.spilled.filter fun e => e.2 ≠ c } }
  let (s, _, h) := s.spineLeash c (recEndVid r) (recEndCount r) (.step c)
  let st := s.stp c
  let s := s.setStp c { st with
    next := 0, record := r, digests := s.stepDigests c r, leash := h
    deadline := if recDeadline r = 0 then none else some (s.now + usTicks (recDeadline r))
    margin := s.marginOf c, timeout := s.timeoutOf c
    barked := st.barked && h.isNone, readyTick := s.now, closed := false
    items := s.batchItems c r, item := 0, decision := none, combined := none, own := [] }
  let s := (s.put CTX_STEP_STATE.state c ssRunning).put CTX_STEP_STATE.microbatches c M
  let s := s.setBnd { s.bnd with keys := (s.regionsOf c).foldl (fun m p => spSet 0 m p (s.genKey c)) s.bnd.keys }
  let s := s.setNm c { s.nm c with off := s.get NUM_CTX_MAP_STATUS.state c ≠ 2 }
  let s := ((s.startMovers c (recSizes r) false).startSentinel c k M (BitVec.ofNat 16 (s.rn .CTX_TAG_BASE c))).startCollectives c
  if s.tableHalt c then (s.postEvent c stBAD_DESCRIPTOR ((s.stepSet c).headD 0)).haltSet c else s

/-- STEP: the record at the head of the ring is checked and applied at its tick, in class 9 (R312) (DEDUCED, log entry 75). -/
def State.applyStep (iss : Issuer) (record : List Byte) (s : State) : State :=
  let c := iss.ctxNum.getD 0x1F
  if s.stepHeld c then s
  else
    let st := s.judgeStep c record
    let s := s.began iss 0x01
    let s := if st = stJOURNAL_MISMATCH then s.bump .SNP_JOURNAL_MISMATCH else s
    (if st = stOK then s.startStep c record else s).complete iss 0x01 st
def execStep (iss : Issuer) (record : List Byte) (s : State) : Host.Outcome State Fault Refusal :=
  s.act (if s.stepHeld (iss.ctxNum.getD 0x1F) then s else s.sampleHost iss (.step iss record))

/-! ## The vote (R314, R315, R327, R333) -/

/-- Is the step's work complete (R314)? -/
def State.workDone (s : State) (c : Nat) : Bool :=
  (s.stp c).barked && !s.flt.captures.any fun x => s.captureOf c x && x.taken

/-- Is the work complete and its tick past, or is the step closed? (DEDUCED, log entry 74). -/
def State.voteReady (s : State) (c : Nat) : Bool :=
  (s.stp c).closed || (s.workDone c && decide ((s.stp c).readyTick < s.now))

/-- Combine two vote records (R327). -/
def joinVote (a b : VoteRec) : VoteRec :=
  let bad := a.step ≠ b.step || a.layout ≠ b.layout
  { a with word := a.word ||| b.word ||| (if bad then 16 else 0), votes := a.votes + b.votes, tick := max a.tick b.tick }

/-- Hops that a record travels in a direction of a ring of n: + takes half, − the rest (R328). -/
def voteHops (n : Nat) (plus : Bool) : Nat := if plus then n / 2 else (n - 1) / 2

/-- Send a package's input to an axis both ways. -/
def State.sendVote (s : State) (a : Nat) (r : VoteRec) : State :=
  let n := s.ring_ a
  let s := if voteHops n true = 0 then s else (s.emit (.vote a true 1 r)).txRole (2 * a)
  if voteHops n false = 0 then s else (s.emit (.vote a false 1 r)).txRole (2 * a + 1)

/-- Run the all-reduce on: an axis all of whose records are here gives the input to the next; after W the job's record is
complete (R328). -/
def State.reduceVotes (s : State) (c : Nat) : Nat → Nat → State
  | 0, _ => s
  | fuel + 1, a =>
    let t := s.stp c
    match (t.own.find? fun x => x.1 = a).map (·.2) with
    | none => s
    | some r =>
      let n := s.ring_ a
      let mine := t.got.filter fun g => g.1 = a
      let have_ (o : Nat) : Bool := mine.any fun g => g.2.1 = o
      if !((upto n).all fun o => o = 0 || have_ o) then s
      else
        let out := (upto n).foldl (fun (m : VoteRec) o => match mine.find? fun g => g.2.1 = o with
          | some g => if o = 0 then m else joinVote m g.2.2
          | none => m) r
        let t := { t with got := t.got.filter fun g => g.1 ≠ a, own := t.own.filter fun x => x.1 ≠ a }
        if a = 3 then s.setStp c { t with combined := some out }
        else ((s.setStp c { t with own := t.own ++ [(a + 1, out)] }).sendVote (a + 1) out).reduceVotes c fuel (a + 1)

/-- The status of a kind 2 record (R497) (DESIGN CHOICE, log entry 77). -/
def State.voteStatus (s : State) (word : Nat) : Nat :=
  let b (i : Nat) : Bool := bitAt word i
  if b vbFence then stFENCED else if b vbDigest then stDIGEST_MISMATCH else if b vbSentinel then stSENTINEL_MISMATCH
  else if b vbNonfinite then stNONFINITE_ABORT else if b vbEpoch then stEPOCH_STALE else if b vbIncomplete then stINCOMPLETE
  else (Config.freeValue 8 s.fresh).toNat

/-- The kind 2 record and CTX_HEALTH of a decision (R341, R396): outcome 1 commit, 2 abort, 3 in doubt. -/
def State.postStep (s : State) (c outcome : Nat) : State :=
  let local_ := s.get CTX_HEALTH.local_ c
  let word := ((s.stp c).combined.map (·.word)).getD local_
  let st := if outcome = 1 then stOK else if outcome = 3 then stIN_DOUBT else s.voteStatus word
  let s := (s.put CTX_HEALTH.outcome c outcome).put CTX_HEALTH.job c (if outcome = 3 then s.get CTX_HEALTH.job c else word)
  (s.draw).post c { kind := 2, status := st, aux := outcome, tag := s.rn .CTX_STEP c, value := word + 65536 * local_, irq := true }

/-- A decision reaches the package (R329, R330). -/
def State.takeDecision (s : State) (c : Nat) (commit : Bool) (flip : Nat) (snap : Bool) : State :=
  let s := s.postStep c (if commit then 1 else 2)
  let d : Decision := { commit := commit, flip := flip, snap := snap, tick := s.now, late := commit && decide (flip < s.jobTick c) }
  let s := s.setStp c { s.stp c with decision := some d }
  if commit then s.put CTX_STEP_STATE.state c ssCommitting else s

/-- Does the job's shepherd flag a snapshot for a commit of the step in progress (R477)? A re-shard takes none. -/
def State.snapFlag (s : State) (c : Nat) : Bool :=
  let i := max 1 s.flt.interval
  s.jobCtx = some c && (s.stp c).reshard.isNone && decide (s.flt.lastSnap < s.rn .CTX_STEP c + 1) &&
    (s.rn .CTX_STEP c + 1 - s.flt.lastSnap) % i = 0

/-- A shepherd decides, on the lead (R41, R329, R333): commit when the word is zero and every worker has voted. -/
def State.decide_ (s : State) (c : Nat) : State :=
  let t := s.stp c
  match t.combined with
  | none => s
  | some r =>
    if s.sstate c ≠ ssVoted ∨ t.decision.isSome ∨ s.led = false then s
    else
      let workers := if s.solo c then 1 else s.jobSize
      let commit := r.word = 0 && r.votes = workers
      let flip := r.tick + t.margin
      let snap := commit && s.snapFlag c
      let k := s.rn .CTX_STEP c
      let s := s.setStp c { t with sent := some (k, commit) }
      let s := if s.solo c then s
        else (((upto s.jobSize).map s.unlinear).filter fun x => x ≠ s.coord && s.sameFlock x s.coord).foldl
          (fun (s : State) x => s.sendTo x (.decision x k commit flip snap)) s
      s.takeDecision c commit flip snap

/-- STEP_VOTE: the vote word is formed; the vote record is sent, or, in a job of one package, decided at this tick
(DEDUCED, log entry 100). -/
def execStepVote (ctx : Ctx) (s : State) : Host.Outcome State Fault Refusal :=
  let c := ctx.val
  s.act (if !s.stepOpen c || !s.voteReady c then s
    else
      let t := s.stp c
      let reshard := decide (s.sstate c = ssResharding)
      let word := s.get CTX_HEALTH.local_ c
      let M := s.get CTX_STEP_STATE.microbatches c
      let s := match t.leash with | some h => s.dropLeash h | none => s
      let s := (s.wn .CTX_VOTE_TICK c (s.jobTick c)).numVote c (s.rn .CTX_STEP c) word (s.jobTick c) reshard
      let s := if bitAt word vbIncomplete || reshard then s else s.wn .CTX_TAG_BASE c ((s.rn .CTX_TAG_BASE c + M) % 65536)
      let s := ((s.stopMovers c).stopSentinel c).put CTX_STEP_STATE.state c ssVoted
      let layout := if reshard then s.rn .CTX_PENDING_EPOCH c else s.rn .CTX_LAYOUT_EPOCH c
      let r : VoteRec := { step := s.rn .CTX_STEP c, word := word, votes := 1, tick := s.jobTick c, layout := layout }
      let t := { s.stp c with leash := none, barked := false, items := [], deadline := none, voteTick := s.now }
      if s.solo c then (s.setStp c { t with combined := some r }).decide_ c
      else if s.flag LNK_STATUS.sync_lost || s.mgt.noLead then s.setStp c t
      else ((s.setStp c { t with own := [(0, r)] }).sendVote 0 r).reduceVotes c 4 0)

/-- STEP_DEADLINE (R315): the deadline passes with the work incomplete, a timer of class 11; a pre-empted step closes at its resume
(R416). -/
def State.applyStepDeadline (ctx : Ctx) (s : State) : State :=
  let c := ctx.val
  match (s.stp c).deadline with
  | some d =>
    if s.sstate c = ssRunning ∧ d ≤ s.now ∧ (s.stp c).closed = false ∧ s.workDone c = false ∧ s.barksHeld c = false then s.haltSet c
    else s
  | none => s
def execStepDeadline (ctx : Ctx) (s : State) : Host.Outcome State Fault Refusal :=
  s.act (if ((s.stp ctx.val).deadline.map fun d => decide (d ≤ s.now + 1)).getD false then
      s.sampleOnce 11 ((s.stepSet ctx.val).headD 0) (.row (.stepDeadline ctx))
    else s)

/-! ## Votes and decisions of a joined job (R328 to R330) -/

/-- VOTE_RECORD: a record that has made `hop` hops in a direction of an axis arrives; it is kept under its sender's offset, passed
on, and the reduction goes on. -/
def execVoteRecord (axis : Fin 4) (plus : Bool) (hop : Nat) (r : VoteRec) (s : State) : Host.Outcome State Fault Refusal :=
  s.act (match s.jobCtx with
    | some c =>
      let n := s.ring_ axis.val
      if !s.joined || hop = 0 || decide (voteHops n plus < hop) then s
      else
        let off := if plus then (n - hop) % n else hop % n
        let t := s.stp c
        if t.got.any fun g => g.1 = axis.val && g.2.1 = off then s
        else
          let s := s.setStp c { t with got := t.got ++ [(axis.val, off, r)] }
          let s := if hop < voteHops n plus then (s.emit (.vote axis.val plus (hop + 1) r)).txRole (2 * axis.val + if plus then 0 else 1) else s
          s.reduceVotes c 4 axis.val
    | none => s)

/-- SHEPHERD_DECISION. -/
def execShepherdDecision (ctx : Ctx) (s : State) : Host.Outcome State Fault Refusal :=
  let c := ctx.val
  s.act (if s.solo c || s.flag LNK_STATUS.shepherd then s.decide_ c else s)

/-- Back to idle after a decision. -/
def State.toIdle (s : State) (c : Nat) : State :=
  (s.setStp c { s.stp c with decision := none, combined := none, own := [], closed := false }).put CTX_STEP_STATE.state c ssIdle

/-- An abort is applied, at the first tick after it came (R330, R334, R338, R358, R480); collective runs of the step and chunks held for them end with it
(DEDUCED, log entry 36). -/
def State.applyAbort (s : State) (c : Nat) : State :=
  let k := s.rn .CTX_STEP c
  let s := (s.numDecided c k false).bump .CTX_ABORTS c
  let s := if s.replaying c then
      ((s.setFlt { s.flt with replay := false }).put SNP_STATUS.diverged 0 1).put SNP_STATUS.state 0 (if s.flt.drain.isSome then 1 else 0)
    else s
  let s := if s.get FLT_JOB_STATE.state = 4 ∧ s.flt.replay = false then s.put FLT_JOB_STATE.state 0 0 else s
  let t := s.stp c
  let s := match t.reshard with
    | some r => if r.phase = ReshardPhase.held then s else s.setStp c { t with reshard := none }
    | none => s
  let s := if s.get LNK_JOB_CTX.context = c then
      let s := s.dropColLeashes
      { s with lnk := { s.lnk with runs := [], early := [] } }
    else s
  (s.wn .CTX_PENDING_EPOCH c 0).toIdle c

/-- DECISION_RECORD: the decision of the package's own shepherd; an abort is applied at the first tick after it; one for another step is
discarded, and the package is filled in place (R330, R470) (DEDUCED, log entry 78). -/
def execDecisionRecord (step : DWord) (commit : Bool) (flip : DWord) (snap : Bool) (s : State) : Host.Outcome State Fault Refusal :=
  s.act (match s.jobCtx with
    | some c =>
      if !s.joined then s
      else if step.toNat ≠ s.rn .CTX_STEP c then s.sendFailure 12
      else if s.sstate c ≠ ssVoted ∨ (s.stp c).decision.isSome then s
      else
        s.takeDecision c commit flip.toNat snap
    | none => s)

/-! ## The flip (R330, R338, R472, R479, R480) -/

/-- The journal entry of a commit. -/
def State.journalStep (s : State) (c k flip : Nat) : State :=
  let t := s.stp c
  if s.jobCtx = some c then s.journalWrite (stepEntry k t.record t.digests ((t.combined.map (·.word)).getD 0) flip) else s

/-- The actions of the flip tick. -/
def State.flip (s : State) (c : Nat) (d : Decision) : State :=
  let k := s.rn .CTX_STEP c
  let s := s.put CTX_STEP_STATE.sel c (1 - s.get CTX_STEP_STATE.sel c)
  let s := ((s.numDecided c k true).bump .CTX_COMMITS c).wn .CTX_FLIP_TICK c (s.jobTick c)
  let s := if d.late then s.bump .CTX_LATE_FLIPS c else s
  match (s.stp c).reshard with
  | some r =>
    if r.phase = ReshardPhase.held then s
    else
      let s := ((s.wn .CTX_LAYOUT_EPOCH c (s.rn .CTX_PENDING_EPOCH c)).wn .CTX_PENDING_EPOCH c 0).bump .CTX_RESHARDS c
      s.setStp c { s.stp c with reshard := some { r with phase := .target }, decision := none, combined := none, voteTick := s.now }
  | none =>
    let s := (s.bump .CTX_STEP c).journalStep c k (s.jobTick c)
    let s := if s.jobCtx = some c then s.setFlt { s.flt with flips := (s.jobTick c :: s.flt.flips).take 65 } else s
    let s := if s.replaying c ∧ s.rn .SNP_REPLAY_END ≤ k + 1 then
        ((s.setFlt { s.flt with replay := false }).put SNP_STATUS.state 0 (if s.flt.drain.isSome then 1 else 0)).put FLT_JOB_STATE.state 0
          (if s.get FLT_JOB_STATE.state = 4 then 0 else s.get FLT_JOB_STATE.state)
      else s
    let s := s.toIdle c
    if d.snap then s.snapCapture c else s

/-- COMMIT_FLIP: at the flip tick, or at the first tick after a decision that came later (R330). -/
def execCommitFlip (ctx : Ctx) (s : State) : Host.Outcome State Fault Refusal :=
  let c := ctx.val
  s.act (match (s.stp c).decision with
    | some d =>
      if s.sstate c = ssCommitting ∧ d.commit = true ∧ d.flip ≤ s.jobTick c ∧ (d.late = false ∨ d.tick < s.now) then s.flip c d else s
    | none => s)

/-! ## Doubt (R332) -/

/-- A package is in doubt. -/
def State.doubt (s : State) (c : Nat) : State := (s.put CTX_STEP_STATE.state c ssInDoubt).postStep c 3

/-- VOTE_TIMEOUT: a shepherd without the combined record after CTX_VOTE_TIMEOUT; on another package, the in-doubt record of its
shepherd (DEDUCED, log entry 29). -/
def execVoteTimeout (ctx : Ctx) (s : State) : Host.Outcome State Fault Refusal :=
  let c := ctx.val
  let t := s.stp c
  s.act (if s.sstate c ≠ ssVoted || s.solo c || t.decision.isSome || !s.led then s
    else if s.flag LNK_STATUS.shepherd then
      (if t.combined.isSome ∨ s.now < t.voteTick + usTicks t.timeout then s
      else
        let k := s.rn .CTX_STEP c
        let fl := ((upto s.jobSize).map s.unlinear).filter fun x => x ≠ s.coord && s.sameFlock x s.coord
        let s := fl.foldl (fun (s : State) x => s.sendTo x (.inDoubt x k)) s
        (s.sendFailure 11).doubt c)
    else s.doubt c)

/-- IN_DOUBT_RESOLUTION: another shepherd decided commit (or this one did), or none did; packages still waiting act as those in
doubt. -/
def execInDoubtResolution (ctx : Ctx) (anyCommit : Bool) (flip : DWord) (s : State) : Host.Outcome State Fault Refusal :=
  let c := ctx.val
  let t := s.stp c
  s.act (if s.solo c || !s.led || !(s.sstate c = ssInDoubt || (s.sstate c = ssVoted && t.decision.isNone)) then s
    else
      let s := if s.sstate c = ssInDoubt then s.bump .CTX_IN_DOUBT c else s
      let commit := anyCommit || t.sent = some (s.rn .CTX_STEP c, true)
      s.takeDecision c commit flip.toNat false)

/-! ## Re-sharding (R337 to R339) -/

def State.setHeld (s : State) (c : Nat) (b : Bool) : State := s.put CTX_STEP_STATE.reshard_held c (if b then 1 else 0)

/-- The bytes of a RESHARD record (R337). -/
def parseReshard (iss : Issuer) (r : List Byte) : Reshard :=
  { iss := iss, move := recNum r 0 1, target := recNum r 1 1, regions := recNum r 4 2, step := recNum r 8 8
    endVid := recNum r 16 4, endCount := recNum r 20 4 }
def reshardRsv (r : List Byte) : Bool :=
  decide (recNum r 2 1 < 2) && recNum r 3 1 = 0 && recNum r 6 2 = 0 && decide (recNum r 16 4 < 2 ^ 20) && recNum r 24 8 = 0

/-- The bind-family command of a re-shard. -/
def reshardBind (c : Nat) (r : Reshard) (handle : Nat) : BindReq :=
  { ctx := c, opcode := 6, named := unmask 16 r.regions, handle := handle, target := (unmask 16 r.regions).headD 0, reshard := true }

/-- The checks of R338 on a re-shard, then those of its rebind and its end tally. -/
def State.judgeReshard (s : State) (c : Nat) (r : Reshard) : Nat :=
  match s.folio r.move, s.folio r.target with
  | some m, some t =>
    if m.ctx ≠ c ∨ t.ctx ≠ c then stBAD_DESCRIPTOR
    else if r.step ≠ s.rn .CTX_STEP c then stSTEP_MISMATCH
    else if m.step = false ∨ t.step = false ∨ m.epoch.toNat = s.rn .CTX_LAYOUT_EPOCH c ∨ t.epoch ≠ m.epoch then stBAD_FOLIO
    else if (s.tallyOf c r.endVid).isNone then stNO_TALLY
    else s.bindStatus (reshardBind c r r.move) m
  | _, _ => stBAD_DESCRIPTOR

/-- The re-shard begins (steps 1 and 2 of R338): the regions are rebound with the move folio. -/
def State.beginReshard (s : State) (c : Nat) (r : Reshard) : State :=
  let st := s.judgeReshard c r
  let s := (s.setHeld c false).setStp c { s.stp c with reshard := none }
  if st ≠ stOK then s.complete r.iss 0x02 st
  else
    let epoch := ((s.folio r.move).map fun f => f.epoch.toNat).getD 0
    let s := (s.clearVote c).wn .CTX_PENDING_EPOCH c epoch
    let (s, _, h) := s.spineLeash c r.endVid r.endCount (.step c)
    let s := s.setStp c { s.stp c with
      next := 0, leash := h, deadline := none, barked := false, readyTick := s.now, closed := false, items := []
      decision := none, combined := none, own := [], reshard := some { r with phase := .moving } }
    let s := (s.put CTX_STEP_STATE.state c ssResharding).complete r.iss 0x02 stOK
    (s.bindCmd (reshardBind c r r.move)).startMovers c 0 true

/-- A held re-shard proceeds once the state is idle. -/
def State.runHeld (s : State) (c : Nat) : State :=
  match (s.stp c).reshard with
  | some r => if r.phase = ReshardPhase.held ∧ s.sstate c = ssIdle ∧ s.jobHeld c = false then s.beginReshard c r else s
  | none => s

/-- Does a RESHARD wait at the head of its ring? -/
def State.reshardHeld (s : State) (iss : Issuer) : Bool :=
  s.sstate (iss.ctxNum.getD 0x1F) ≠ ssIdle || s.ringHeld iss || s.drainHeld (iss.ctxNum.getD 0x1F)

/-- RESHARD at its tick: one more than the one taken completes with BUSY; it waits for state idle (R338). -/
def State.applyReshard (iss : Issuer) (record : List Byte) (s : State) : State :=
  let c := iss.ctxNum.getD 0x1F
  if (s.stp c).reshard.isSome then (s.began iss 0x02).complete iss 0x02 stBUSY
  else if !reshardRsv record then (s.began iss 0x02).complete iss 0x02 stBAD_DESCRIPTOR
  else if s.reshardHeld iss then s.setHeld c true
  else (s.began iss 0x02).beginReshard c (parseReshard iss record)

/-- RESHARD: sampled once it waits no more. -/
def execReshard (iss : Issuer) (record : List Byte) (s : State) : Host.Outcome State Fault Refusal :=
  let c := iss.ctxNum.getD 0x1F
  s.act (if (s.stp c).reshard.isNone && reshardRsv record && s.reshardHeld iss then s.setHeld c true
    else s.sampleHost iss (.reshard iss record))

/-- RESHARD_FORCE at its tick (R339): while the state is running the step closes incomplete with bit 4 set, and the re-shard waits for
its decision; else the force flag has no effect. -/
def State.applyReshardForce (iss : Issuer) (record : List Byte) (s : State) : State :=
  let c := iss.ctxNum.getD 0x1F
  if (s.stp c).reshard.isNone && reshardRsv record && s.sstate c = ssRunning && !s.ringHeld iss then
    let s := ((s.began iss 0x02).voteBit c vbEpoch).haltSet c
    (s.setHeld c true).setStp c { s.stp c with reshard := some (parseReshard iss record) }
  else s.applyReshard iss record

/-- RESHARD_FORCE: sampled while the state is running, or once it waits no more. -/
def execReshardForce (iss : Issuer) (record : List Byte) (s : State) : Host.Outcome State Fault Refusal :=
  let c := iss.ctxNum.getD 0x1F
  s.act (if (s.stp c).reshard.isNone && reshardRsv record && s.reshardHeld iss && (s.sstate c ≠ ssRunning || s.ringHeld iss) then
      s.setHeld c true
    else s.sampleHost iss (.reshardForce iss record))

/-- RESHARD_TARGET_BIND (step 5 of R338): the tick after the commit; the regions are rebound with the target folio. -/
def execReshardTargetBind (ctx : Ctx) (s : State) : Host.Outcome State Fault Refusal :=
  let c := ctx.val
  s.act (match (s.stp c).reshard with
    | some r =>
      if r.phase = ReshardPhase.target ∧ (s.stp c).voteTick < s.now then
        ((s.setStp c { s.stp c with reshard := none }).bindCmd (reshardBind c r r.target)).toIdle c
      else s
    | none => s)

end Sys2Proof.Machine
end

