-- ==== Sys2Proof/Machine/Identity.lean ====
section
/-! DEFINITION. Machine/Identity.lean: keys, measurements and attestation (R505 to R514), the admission of packages to a job
(R515, R516), violations (R517, R518). -/

namespace Sys2Proof.Machine

def State.setSec (s : State) (x : SecState) : State := { s with sec := x }

/-- ASCII bytes of a label. -/
def label (t : String) : List Byte := t.toList.map fun c => BitVec.ofNat 8 c.toNat

/-! ## Keys and measurements (R506 to R509) -/

/-- The half that leads. -/
def State.leadHalf (s : State) : Nat := s.get MGT_STATUS.lead

/-- The running image of a half: its active NOR slot (R500). -/
def State.activeSlot (s : State) (h : Nat) : Nat := if h = 0 then s.nor.active.1 else s.nor.active.2
def State.image (s : State) (h : Nat) : List Byte := s.nor.slots.getD (2 * h + s.activeSlot h) []

/-- Measurement register m of a half. -/
def State.meas (s : State) (h m : Nat) : List Byte :=
  (if h = 0 then s.sec.measW else s.sec.measE).getD m (List.replicate 64 0#8)

/-- Extend a measurement register: M ← SHA3-512(M ‖ d) (R509). -/
def State.extend (s : State) (h m : Nat) (d : List Byte) : State :=
  let ms := ((upto 8).map fun i => s.meas h i).set m (Config.sha3 (s.meas h m ++ d))
  if h = 0 then s.setSec { s.sec with measW := ms } else s.setSec { s.sec with measE := ms }

/-- Show words of a digest in n registers from copy i. -/
def State.showWords (s : State) (r : Reg) (i n : Nat) (d : List Byte) : State :=
  (upto n).foldl (fun (s : State) w => s.wn r (i + w) (leNat ((d.drop (4 * w)).take 4))) s

/-- SEC_MEAS shows the measurements of the lead half; SEC_ID_DIGEST the identity digest (R506, R519). -/
def State.showMeas (s : State) : State :=
  (upto 8).foldl (fun (s : State) m => s.showWords .SEC_MEAS (16 * m) 16 (s.meas s.leadHalf m)) s

/-- The seed of the device key, and its public key (R506). -/
def State.deviceSeed (s : State) : List Byte := (Config.sha3 (label "TXDEV" ++ s.fuse.seed)).take 32
def State.identity (s : State) : List Byte := Config.sha3 (Config.mldsaPublic s.deviceSeed)
/-- M0 to M5 of the lead half. -/
def State.measAll (s : State) : List Byte := (upto 6).flatMap fun m => s.meas s.leadHalf m
/-- A half that comes to lead derives the alias key from its M1 and M4 and builds the alias certificate over M0 to M5; a transcript
begun before spans the change (R506, R507, R512). -/
def State.deriveAlias (s : State) : State :=
  s.setSec { s.sec with
    aliasSeed := (Config.sha3 (label "TXALIAS" ++ s.fuse.seed ++ s.meas s.leadHalf 1 ++ s.meas s.leadHalf 4)).take 32
    aliasMeas := s.measAll
    transcript := false
    spans := s.sec.transcript || s.sec.spans }
/-- The full certificate chain (R507): three certificates in NOR and the alias certificate. -/
def State.certChain (s : State) : List Byte :=
  s.nor.chain ++ Config.aliasCert s.deviceSeed (Config.mldsaPublic s.sec.aliasSeed) s.sec.aliasMeas

/-- A difference between the two halves' M0 or M3 is a security violation (R517), sampled at the half that has measured. -/
def State.compareMeas (s : State) (h : Nat) : State :=
  { s with seq :=
      if s.meas 0 0 = s.meas 1 0 ∧ s.meas 0 3 = s.meas 1 3 then s.seq else (s.sample 1 h (.violation h)).seq }

/-- What a half extends when it has verified its image (R508, R509): boot ROM, image, calibration, SVN and grade; the other
half's M1 as reported to it. -/
def State.measureBoot (s : State) (h : Nat) : State :=
  let s := (((s.extend h 0 (Config.sha3 Config.bootRom)).extend h 1 (Config.sha3 (s.image h))).extend h 2
    (Config.sha3 s.nor.factory)).extend h 3 (Config.sha3 (Config.svnGradeBytes s.fuse.svn s.fuse.grade))
  if 1 - h ∈ s.mgt.up then
    ((s.extend h 5 (Config.sha3 (s.meas (1 - h) 1))).extend (1 - h) 5 (Config.sha3 (s.meas h 1))).compareMeas h
  else s

/-- A half's measurements start from zero at its reset (R509). -/
def State.clearMeas (s : State) (h : Nat) : State :=
  if h = 0 then s.setSec { s.sec with measW := [] } else s.setSec { s.sec with measE := [] }

/-! ## SEC_KEY_CMD, key lock (R510, R513) -/

/-- A command of the security subsystem ends. -/
def State.endKey (s : State) (status : Nat) : State := (s.put SEC_KEY_STATUS.status 0 status).put SEC_KEY_STATUS.busy 0 0

/-- A write to SEC_KEY_CMD: ignored while a command is in progress (R519), else taken at the tick. -/
def State.keyCommand (s : State) (fn : Func) (cmd : Instr) : State :=
  s.pfWrite fn fun s => if s.flag SEC_KEY_STATUS.busy then s else (s.put SEC_KEY_STATUS.busy 0 1).sampleRow 9 64 cmd

/-- ENROL: a public key of 2,592 B in HBM; while its read is held the command waits. -/
def State.applyEnrol (fn : Func) (s : State) : State :=
  if !s.leads then s.endKey stNOT_LEAD
  else if s.flag SEC_STATUS.key_lock then s.endKey stBUSY
  else if 16 ≤ s.sec.keys.length then s.endKey stNO_SPACE
  else
    match s.readNow .engine (s.rn .SEC_KEY_ADDR) 2624 with
    | (s, .data bs) =>
      let key := bs.take 2592
      let n := s.sec.keys.length
      let s := (s.setSec { s.sec with keys := s.sec.keys ++ [key] }).put SEC_STATUS.keys 0 (n + 1)
      (s.showWords .SEC_KEY_ID (14 * n) 14 ((Config.sha3 key).take 56)).endKey stOK
    | (s, .failed st) => s.endKey st
    | (s, _) => s.sampleRow 9 64 (.enrol fn)
def execEnrol (fn : Func) (s : State) : Host.Outcome State Fault Refusal := s.act (s.keyCommand fn (.enrol fn))

/-- SVN_COMMIT: fuses are burnt up to the svn of the image that both halves run; never down. -/
def State.applySvnCommit (s : State) : State :=
  let w := Config.imageSvn (s.image 0)
  if !s.leads then s.endKey stNOT_LEAD
  else if w ≠ Config.imageSvn (s.image 1) then s.endKey stBUSY
  else
    let v := max s.fuse.svn (min 64 w)
    (({ s with fuse := { s.fuse with svn := v } } : State).put SEC_STATUS.svn 0 v).endKey stOK
def execSvnCommit (fn : Func) (s : State) : Host.Outcome State Fault Refusal := s.act (s.keyCommand fn (.svnCommit fn))

/-- KEY_LOCK: the key set is frozen until package reset; M4 is extended with its digest in both halves. -/
def State.applyKeyLock (s : State) : State :=
  if s.flag SEC_STATUS.key_lock then s
  else
    let d := Config.sha3 s.sec.keys.flatten
    let s := (s.put SEC_STATUS.key_lock 0 1).setSec { s.sec with keyDigest := d }
    ((s.extend 0 4 d).extend 1 4 d).showMeas
def execKeyLock (fn : Func) (s : State) : Host.Outcome State Fault Refusal := s.act (s.pfSample fn (.keyLock fn))

/-! ## SPDM (R511, R512) -/

/-- Does the responder answer: a half leads, no violation stands (R511, R517)? -/
def State.spdmOk (s : State) : Bool := s.led && !s.flag SEC_STATUS.violated && !s.sec.erased

/-- An answer of the responder: its body, or the error (DESIGN CHOICE, log entry 104). A transcript begins with it; one that spans a
lead change gets ERROR_NOT_READY until it restarts from GET_DIGESTS (R512). -/
def State.spdmReply (s : State) (code : Nat) (ok : Bool) (body : List Byte) : State :=
  if s.spdmOk && s.sec.spans && !(code = 0 || code = 3 || code = 0xFF) then s.emit .mctpNotReady
  else if s.spdmOk && ok then (s.setSec { s.sec with transcript := true, spans := false }).emit (.spdm code body)
  else s.emit (.spdm 0xFF [])

/-- Sign a response with the alias key. -/
def State.signed (s : State) (req body : List Byte) : List Byte :=
  body ++ Config.mldsaSign s.sec.aliasSeed (Config.spdmTranscript req body)

/-- GET_VERSION: SPDM 1.3. -/
def execGetVersion (s : State) : Host.Outcome State Fault Refusal := s.act (s.spdmReply 0 true [0x13#8])
/-- GET_CAPABILITIES: certificates, challenges, signed measurements; no key exchange, no secured sessions. -/
def execGetCapabilities (s : State) : Host.Outcome State Fault Refusal := s.act (s.spdmReply 1 true (label "CERT CHAL MEAS_SIG"))
/-- NEGOTIATE_ALGORITHMS: ML-DSA-87 and SHA3-512, the extended algorithms of Pothar's registry; an offer without both is an
error. -/
def execNegotiateAlgorithms (mldsa87 sha3_512 : Bool) (s : State) : Host.Outcome State Fault Refusal :=
  s.act (s.spdmReply 2 (mldsa87 && sha3_512) (label "ML-DSA-87 SHA3-512"))
/-- GET_DIGESTS: of the chain of slot 0. -/
def execGetDigests (s : State) : Host.Outcome State Fault Refusal := s.act (s.spdmReply 3 true (Config.sha3 s.certChain))
/-- GET_CERTIFICATE: a portion of the chain; slot 0 alone is there. -/
def execGetCertificate (slot offset len : Nat) (s : State) : Host.Outcome State Fault Refusal :=
  s.act (s.spdmReply 4 (slot = 0) ((s.certChain.drop offset).take len))
/-- CHALLENGE: signed with the alias key. -/
def execChallenge (slot : Nat) (req : List Byte) (s : State) : Host.Outcome State Fault Refusal :=
  s.act (s.spdmReply 5 (slot = 0) (s.signed req (Config.sha3 s.certChain ++ s.measAll)))
/-- GET_MEASUREMENTS: indices 1 to 6 give M0 to M5, 0xFF all six; signed if asked. -/
def execGetMeasurements (index : Byte) (sign : Bool) (req : List Byte) (s : State) : Host.Outcome State Fault Refusal :=
  let i := index.toNat
  let body := if i = 0xFF then s.measAll else s.meas s.leadHalf (i - 1)
  s.act (s.spdmReply 6 (decide (1 ≤ i ∧ i ≤ 6) || i = 0xFF) (if sign then s.signed req body else body))

/-! ## The expected-identity table (R515) -/

/-- Fields of an entry of 80 B. -/
def xeWhere (e : List Byte) : Nat := leNat (e.take 4)
def xeKind (e : List Byte) : Nat := leNat ((e.drop 4).take 1)
def xeDigest (e : List Byte) : List Byte := (e.drop 16).take 64

/-- EXPECT_TABLE_LOAD: a write to SEC_EXPECT_COUNT; the load starts at the tick. -/
def State.applyExpectTableLoad (s : State) : State := s.setSec { s.sec with loading := true }
def execExpectTableLoad (fn : Func) (value : Word) (s : State) : Host.Outcome State Fault Refusal :=
  s.act (s.pfWrite fn fun s => (s.put SEC_EXPECT_COUNT.count 0 (bits value.toNat 10 0)).sampleRow 9 64 (.expectTableLoad fn value))

/-- EXPECT_TABLE_LOAD_COMPLETE: held packages are judged again at the next tick (R516); a table that cannot be read leaves
the one in force. -/
def execExpectTableLoadComplete (s : State) : Host.Outcome State Fault Refusal :=
  s.act (if !s.sec.loading then s
    else
      let n := min 1024 (s.get SEC_EXPECT_COUNT.count)
      if n = 0 then s.setSec { s.sec with loading := false, expect := [], rejudge := true }
      else
        match s.readNow .engine (s.rn .SEC_EXPECT_BASE) (pad64 (80 * n)) with
        | (s, .data bs) => s.setSec { s.sec with loading := false, expect := chunks 80 n bs, rejudge := true }
        | (_, .held) => s
        | (s, _) => s.setSec { s.sec with loading := false })

/-! ## Admission (R516) -/

def State.portId (s : State) (k : Nat) : PortId := spGet {} s.sec.ports k
def State.setPortId (s : State) (k : Nat) (p : PortId) : State := s.setSec { s.sec with ports := spSet {} s.sec.ports k p }

/-- Is a digest on a port one that its package has still to be admitted with: other than the one last admitted there, or of a
held coordinate? -/
def State.identityHeld (s : State) (k coord : Nat) (digest : List Byte) : Bool :=
  ((s.portId k).admitted.any fun d => d ≠ digest && decide ((coord, digest) ∉ s.sec.admitted)) ||
    s.sec.held.any fun h => h.coord = coord && h.digest = digest

/-- The reason to hold a package that claims a coordinate (R516), 0 to take it: the worker's entry of the coordinate must show
its digest, or a standby's entry where the coordinate has been given to one (DEDUCED, log entry 103). -/
def State.holdReason (s : State) (coord : Nat) (digest : List Byte) (good : Bool) : Nat :=
  let own := s.sec.expect.find? fun e => xeKind e = 1 && xeWhere e = coord
  let fits := (own.any fun e => xeDigest e = digest) ||
    (decide (coord ∈ s.sec.taken) && s.sec.expect.any fun e => xeKind e = 2 && xeDigest e = digest)
  if !good then 1
  else if !fits then (if own.isSome || (s.sec.expect.any fun e => xeKind e ≠ 0 && xeDigest e = digest) then 2 else 3)
  else if s.sec.admitted.any fun a => a.1 ≠ coord && a.2 = digest then 4
  else 0

/-- A port's state changes, as part of the event that the tick handles (R426). -/
def State.setPortState (s : State) (k st : Nat) : State := s.put LNK_PORT_STATUS.state k st

/-- A port's state is to change: a class 4 event (R426). -/
def State.askPort (s : State) (k st : Nat) : State := s.sample 4 (36 + k) (.port k st)
/-- A held port comes up, or one that is up is held, at its tick. -/
def State.applyPort (s : State) (k st : Nat) : State :=
  if (st = 2 ∧ s.get LNK_PORT_STATUS.state k = 3) ∨ (st = 3 ∧ s.portUp k = true) then s.setPortState k st else s

/-- Ports to an admitted package come up: at this tick, or at the next. -/
def State.portsUp (s : State) (coord : Nat) (digest : List Byte) (now : Bool) : State :=
  (upto 9).foldl (fun (s : State) k =>
    let p := s.portId k
    if s.get LNK_PORT_STATUS.state k = 3 ∧ p.fits ∧ p.coord = coord ∧ p.digest = digest then
      let s := s.setPortId k { p with admitted := some digest }
      if now then s.setPortState k 2 else s.askPort k 2
    else s) s

/-- Ports to a held package are held. -/
def State.portsHold (s : State) (coord : Nat) : State :=
  (upto 9).foldl (fun (s : State) k => if s.portUp k = true ∧ (s.portId k).coord = coord then s.askPort k 3 else s) s

/-- Admit a package. -/
def State.admitPkg (s : State) (coord : Nat) (digest : List Byte) (now : Bool := false) : State :=
  let s := s.setSec { s.sec with
    admitted := (s.sec.admitted.filter fun a => a.1 ≠ coord) ++ [(coord, digest)]
    held := s.sec.held.filter fun h => h.coord ≠ coord }
  s.portsUp coord digest now

/-- Hold a package: counted, recorded while no hold stands recorded, reported to the host cluster. -/
def State.holdPkg (s : State) (coord : Nat) (digest : List Byte) (good : Bool) (reason : Nat) : State :=
  let s := s.bump .SEC_HELD
  let s := if s.flag SEC_LAST_HELD.valid then s else
    ((s.put SEC_LAST_HELD.where_ 0 coord).put SEC_LAST_HELD.reason 0 reason).signal SEC_LAST_HELD.valid
  let s := s.setSec { s.sec with
    admitted := s.sec.admitted.filter fun a => a.1 ≠ coord
    held := (s.sec.held.filter fun h => h.coord ≠ coord) ++ [⟨coord, digest, good⟩] }
  (s.portsHold coord).emit (.heldReport coord reason)

/-- Judge a response (R516). A duplicate holds both packages. -/
def State.judgePkg (s : State) (coord : Nat) (digest : List Byte) (good : Bool) : State :=
  match s.holdReason coord digest good with
  | 0 => s.admitPkg coord digest
  | 4 =>
    let s := (s.sec.admitted.filter fun a => a.1 ≠ coord ∧ a.2 = digest).foldl (fun (s : State) a => s.holdPkg a.1 a.2 true 4) s
    s.holdPkg coord digest good 4
  | r => s.holdPkg coord digest good r

/-- Held packages judged again against a new table, at the tick (R516); one that stays held is not counted again. -/
def State.rejudge (s : State) : State :=
  if s.sec.rejudge then
    let s := s.setSec { s.sec with rejudge := false }
    s.sec.held.foldl (fun (s : State) h =>
      if s.holdReason h.coord h.digest h.good = 0 then s.admitPkg h.coord h.digest true else s) s
  else s

/-- Does this package judge a coordinate's identity: is it the shepherd of its flock? -/
def State.judges (s : State) (coord : Nat) : Bool := s.flag LNK_STATUS.shepherd && s.sameFlock coord s.coord

/-- IDENTITY_CHALLENGE: the shepherd sends a nonce to a coordinate (`nonce` none), or a nonce reaches this package, which
answers with its chain and a signature of its device key over nonce ‖ job ‖ coordinate; after a violation, with an error. -/
def execIdentityChallenge (coord : Word) (nonce : Option (List Byte)) (s : State) : Host.Outcome State Fault Refusal :=
  let c := coord.toNat
  s.act (match nonce with
    | none =>
      if s.judges c && s.led then
        let n := natLe 32 (Config.freeValue 256 s.fresh).toNat
        let s := (s.draw.bump .SEC_CHALLENGES).sendTo c (.nonce c n)
        s.setSec { s.sec with asked := s.sec.asked.filter (· ≠ c) ++ [c] }
      else s
    | some n =>
      if s.spdmOk then
        let sig := Config.mldsaSign s.deviceSeed (n ++ natLe 4 (s.rn .LNK_JOB_ID) ++ natLe 4 s.coord)
        s.sendTo (s.shepherdOf s.coord) (.identityResponse s.nor.chain sig) (ceilDiv (s.nor.chain.length + sig.length) 240)
      else s.sendTo (s.shepherdOf s.coord) (.identityResponse [] []))

/-- CHALLENGE_RESPONSE: at the shepherd a package's response, with the outcome of the checks of chain and signature; at another
package of the flock, the shepherd's word that the coordinate is admitted with that digest (`good`), or held. -/
def execChallengeResponse (coord : Word) (digest : List Byte) (good : Bool) (s : State) : Host.Outcome State Fault Refusal :=
  let c := coord.toNat
  s.act (if s.judges c then
      if c ∈ s.sec.asked then
        (s.setSec { s.sec with asked := s.sec.asked.filter (· ≠ c) }).judgePkg c digest good
      else s
    else if good then s.admitPkg c digest
    else (s.setSec { s.sec with held := (s.sec.held.filter fun h => h.coord ≠ c) ++ [⟨c, digest, false⟩] }).portsHold c)

/-- CHALLENGE_SILENT_TIMEOUT: no response within 50 ms. -/
def execChallengeSilentTimeout (coord : Word) (s : State) : Host.Outcome State Fault Refusal :=
  let c := coord.toNat
  s.act (if c ∈ s.sec.asked then
      (s.setSec { s.sec with asked := s.sec.asked.filter (· ≠ c) }).holdPkg c [] false 5
    else s)

/-! ## Violations (R517, R518) -/

/-- A violation: derived keys erased in both halves, bound regions halt with FENCED, an update ends, folio checks fail; the
fault history in NOR holds the count. -/
def State.applyViolation (s : State) : State :=
  let s := (s.bump .SEC_VIOLATIONS).put SEC_STATUS.violated 0 1
  let s := s.setSec { s.sec with erased := true, aliasSeed := [] }
  let s : State := { s with nor := { s.nor with violations := s.nor.violations + 1 } }
  let s := (upto 16).foldl (fun (s : State) p => s.haltCtx p stFENCED) s
  let s := s.bnd.staging.foldl (fun (s : State) o => (s.complete o.iss 0x03 stAUTH_FAIL)) s
  let s := (s.setBnd { s.bnd with staging := [] }).showBnd
  match s.mgt.update with
  | some _ =>
    let s := ((s.put MGT_FW_STATUS.status 0 stUPDATE_FAIL).put MGT_FW_STATUS.stage 0 0).put MGT_FW_STATUS.busy 0 0
    { s with mgt := { s.mgt with update := none } }
  | none => s

/-- SECURITY_VIOLATION at a half: a class 1 event. -/
def execSecurityViolation (half : Fin 2) (s : State) : Host.Outcome State Fault Refusal :=
  s.act (s.sample 1 half.val (.violation half.val))

end Sys2Proof.Machine
end

