-- ==== Sys2Proof/Machine/Links.lean ====
section
/-! DEFINITION. Machine/Links.lean: ports and their link layer (R418 to R428), joining a job (R429 to R432), shepherds and
takeover (R449 to R453), peer writes (R433). -/

namespace Sys2Proof.Machine

def State.setLnk (s : State) (l : LnkState) : State := { s with lnk := l }

/-! ## Port states (R418, R426, R428) -/

/-- Does the axis of a role have one position, so that its ports are not trained (R430)? -/
def State.untrained (s : State) (role : Nat) : Bool := decide (role < 8) && s.ring_ (role / 2) = 1

/-- The next port whose recalibration waits begins, its lane 0 out first; lanes classified failing are not offered (R427,
R462). -/
def State.nextRecal (s : State) : List Nat → State
  | [] => s.setLnk { s.lnk with recal := none, recalWait := [] }
  | k :: rest =>
    let lanes := (upto 4).filter fun l => (6, 4 * k + l) ∉ s.flt.failing
    match lanes with
    | l :: _ =>
      if s.get LNK_PORT_STATUS.state k = 2 then
        let s := s.put LNK_PORT_STATUS.lanes k (putBits (s.get LNK_PORT_STATUS.lanes k) l l 0)
        (s.setPortState k 4).setLnk { (s.setPortState k 4).lnk with recal := some (k, lanes), recalWait := rest }
      else s.nextRecal rest
    | [] => s.nextRecal rest

/-- A recalibration is requested of a port in service; one port at a time (R427). -/
def State.requestRecal (s : State) (k : Nat) : State :=
  if s.get LNK_PORT_STATUS.state k ≠ 2 ∨ k ∈ s.lnk.recalWait then s
  else if s.lnk.recal.isSome then s.setLnk { s.lnk with recalWait := s.lnk.recalWait ++ [k] }
  else s.nextRecal [k]

/-- A port goes down: its replay buffer is discarded, its recalibration ends (R428, R454); a third strike in 720 service hours
keeps it from being retrained (R462). -/
def State.portDown (s : State) (k cause : Nat) : State :=
  if s.get LNK_PORT_STATUS.state k = 0 then s
  else
    let s := (s.put LNK_PORT_STATUS.lanes k 0).setPortState k 0
    let s := s.setPort k { mode := (s.port k).mode, down := some s.now }
    let s := if cause = 0 then s else s.strike 7 k cause
    let s := if cause ≠ 0 ∧ 3 ≤ s.strikes 7 (· = k) then s.classify 7 k else s
    match s.lnk.recal with
    | some (j, _) => if j = k then s.nextRecal s.lnk.recalWait else s
    | none => s

/-- PORT_ROLE_WRITE: LNK_PORT_CFG of a port; a role that another port holds, or a reserved one, discards the write (R418)
(DEDUCED, log entry 96). -/
def State.applyPortRoleWrite (port : Fin 9) (value : Word) (s : State) : State :=
  let k := port.val
  let v := value.toNat
  let r := bits v 3 0
  if (r ≠ 0xF ∧ (upto 9).any (fun j => j ≠ k && s.get LNK_PORT_CFG.role j = r) = true) ∨ (8 < r ∧ r < 0xF) then s
  else
    let s := s.wn .LNK_PORT_CFG k (bits v 6 0 + bits v 31 16 * 65536)
    if bitAt v 7 then s.requestRecal k else s
def execPortRoleWrite (fn : Func) (port : Fin 9) (value : Word) (s : State) : Host.Outcome State Fault Refusal :=
  s.act (s.pfSample fn (.portRoleWrite fn port value))

/-- PORT_TRAINING_COMPLETE: both ends have trained with these lanes, a class 4 event (R426); an identity flit goes out. -/
def State.applyPortTrainingComplete (port : Fin 9) (lanes : Fin 16) (s : State) : State :=
  let k := port.val
  let role := s.get LNK_PORT_CFG.role k
  let n := ((upto 4).filter fun l => bitAt lanes.val l).length
  if 2 ≤ s.get LNK_PORT_STATUS.state k ∨ s.led = false ∨ s.untrained role = true ∨ (7, k) ∈ s.flt.failing ∨
      k ∈ s.pwr.portsOff ∨ n < 2 then s
  else
    let s := (s.put LNK_PORT_STATUS.lanes k lanes.val).setPortState k 1
    let s := s.setPort k { mode := s.get LNK_PORT_CFG.mode k, trained := true, down := (s.port k).down }
    (s.emit (.identity k (s.rn .LNK_JOB_ID) s.coord role s.identity)).txFlits k 1
def execPortTrainingComplete (port : Fin 9) (lanes : Fin 16) (s : State) : Host.Outcome State Fault Refusal :=
  s.act (s.sampleRow 4 (36 + port.val) (.portTrainingComplete port lanes))

/-- The coordinate that a port's role expects (R430): the neighbour's; none for port S and for a port without a role. -/
def State.expectedCoord (s : State) (role : Nat) : Option Nat :=
  if role < 8 then some (s.nbr s.coord (role / 2) (role % 2 = 0)) else none

/-- IDENTITY_FLIT: the neighbour's job identifier, coordinate and digest: the port is admitted up, or held, a class 4 event (R426,
R516). -/
def State.applyIdentityFlit (port : Fin 9) (job coord : Word) (digest : List Byte) (s : State) : State :=
  let k := port.val
  if (s.port k).trained ∧ s.get LNK_PORT_STATUS.state k = 1 then
    let fits := job.toNat = s.rn .LNK_JOB_ID ∧ s.expectedCoord (s.get LNK_PORT_CFG.role k) = some coord.toNat
    let held := s.identityHeld k coord.toNat digest
    let s := s.setPortId k { s.portId k with fits := decide fits, coord := coord.toNat, digest := digest }
    if fits ∧ held = false then
      ((s.setPortId k { s.portId k with admitted := some digest }).setPort k { s.port k with down := none }).setPortState k 2
    else s.setPortState k 3
  else s
def execIdentityFlit (port : Fin 9) (job coord : Word) (role : Fin 16) (digest : List Byte) (s : State) :
    Host.Outcome State Fault Refusal :=
  s.act (s.sampleRow 4 (36 + port.val) (.identityFlit port job coord role digest))

/-! ## The link layer (R422 to R424) -/

/-- LINK_FLIT: a flit of a class with its sequence number; `good`: its CRC passes; codewords that the FEC corrected, or could
not, on the way. It is accepted in order, or discarded with a nak (DEDUCED, log entry 97). -/
def execLinkFlit (port : Fin 9) (cls : Fin 4) (seq : BitVec 24) (ack : Option (BitVec 24)) (good : Bool)
    (corrected uncorrected : Nat) (s : State) : Host.Outcome State Fault Refusal :=
  let k := port.val
  s.act (if s.get LNK_PORT_STATUS.state k = 0 then s
    else
      let s := (s.bump .LNK_FEC_CORRECTED k corrected).bump .LNK_FEC_UNCORRECTED k uncorrected
      let p := s.port k
      if !good || (cls.val ≠ 3 && seq ≠ p.rxNext) then
        if p.discarding then s
        else (s.setPort k { p with discarding := true }).emit (.nak k (p.rxNext - 1).toNat)
      else
        let s := match ack with
          | some a => s.ackFlits k a
          | none => s
        if cls.val = 3 then s
        else (s.setPort k { s.port k with rxNext := p.rxNext + 1, discarding := false }).bump .LNK_RX_BYTES k 240)

/-- LINK_NAK: the neighbour asks for replay from ack + 1 (R424). -/
def execLinkNak (port : Fin 9) (ack : BitVec 24) (s : State) : Host.Outcome State Fault Refusal :=
  let k := port.val
  s.act (if s.get LNK_PORT_STATUS.state k = 0 then s
    else
      ((s.ackFlits k ack).bump .LNK_REPLAYS k).emit (.replay k (ack + 1).toNat))

/-! ## Recalibration and lane drop (R427, R428) -/

def State.applyPortRecalRequest (port : Fin 9) (s : State) : State := s.requestRecal port.val
def execPortRecalRequest (fn : Func) (port : Fin 9) (s : State) : Host.Outcome State Fault Refusal :=
  s.act (s.pfSample fn (.portRecalRequest fn port))
/-- RECAL_TIMER_EXPIRY: LNK_RECAL_HOURS have gone by; 0 is never. -/
def State.applyRecalTimerExpiry (port : Fin 9) (s : State) : State :=
  if s.rn .LNK_RECAL_HOURS = 0 then s else s.requestRecal port.val
def execRecalTimerExpiry (port : Fin 9) (s : State) : Host.Outcome State Fault Refusal :=
  s.act (s.sampleOnce 4 (36 + port.val) (.row (.recalTimerExpiry port)))
/-- RECAL_ERROR_THRESHOLD: a lane's corrected-symbol ratio over 1 s is above 10⁻⁵. -/
def State.applyRecalErrorThreshold (port : Fin 9) (lane : Fin 4) (s : State) : State :=
  if bitAt (s.get LNK_PORT_STATUS.lanes port.val) lane.val then s.requestRecal port.val else s
def execRecalErrorThreshold (port : Fin 9) (lane : Fin 4) (s : State) : Host.Outcome State Fault Refusal :=
  s.act (s.sampleOnce 4 (36 + port.val) (.row (.recalErrorThreshold port lane)))

/-- A lane leaves service; below two lanes the port goes down (R428). -/
def State.takeLane (s : State) (k l : Nat) : State :=
  let s := s.put LNK_PORT_STATUS.lanes k (putBits (s.get LNK_PORT_STATUS.lanes k) l l 0)
  let s := s.bump .LNK_LANE_DROPS k
  let s := match s.lnk.recal with
    | some (j, x :: rest) => if j = k then s.setLnk { s.lnk with recal := some (j, x :: rest.filter (· ≠ l)) } else s
    | _ => s
  let out := match s.lnk.recal with | some (j, x :: _) => if j = k ∧ x ≠ l then 1 else 0 | _ => 0
  if ((upto 4).filter fun x => bitAt (s.get LNK_PORT_STATUS.lanes k) x).length + out < 2 then s.portDown k 0x08 else s

/-- A lane is dropped, which is a strike; a third in 720 service hours keeps it from recalibration (R462). -/
def State.dropLane (s : State) (k l : Nat) : State :=
  let s := s.strike 6 (4 * k + l) 0x07
  let s := if 3 ≤ s.strikes 6 (· = 4 * k + l) then s.classify 6 (4 * k + l) else s
  s.takeLane k l

/-- LANE_DROP: the lane loses signal or lock, or delivers 16 uncorrectable codewords within 1 ms; a class 4 event (R428). -/
def State.applyLaneDrop (port : Fin 9) (lane : Fin 4) (s : State) : State :=
  if s.get LNK_PORT_STATUS.state port.val ≠ 0 ∧ bitAt (s.get LNK_PORT_STATUS.lanes port.val) lane.val = true then
    s.dropLane port.val lane.val
  else s
def execLaneDrop (port : Fin 9) (lane : Fin 4) (s : State) : Host.Outcome State Fault Refusal :=
  s.act (s.sampleOnce 4 (4 * port.val + lane.val) (.row (.laneDrop port lane)))

/-- LANE_RECAL_COMPLETE: the lane that is out passes and returns, or does not; the next lane, or the next port, follows; a class 4
event (R427, R428). -/
def State.applyLaneRecalComplete (pass : Bool) (s : State) : State :=
  match s.lnk.recal with
  | some (k, l :: rest) =>
    let s := if pass then s.put LNK_PORT_STATUS.lanes k (putBits (s.get LNK_PORT_STATUS.lanes k) l l 1) else s
    match rest with
    | m :: _ =>
      (s.put LNK_PORT_STATUS.lanes k (putBits (s.get LNK_PORT_STATUS.lanes k) m m 0)).setLnk { s.lnk with recal := some (k, rest) }
    | [] =>
      let s := (s.bump .LNK_RECALS k).setPortState k 2
      let n := ((upto 4).filter fun x => bitAt (s.get LNK_PORT_STATUS.lanes k) x).length
      let s := s.setLnk { s.lnk with recal := none }
      let s := if n < 2 then s.portDown k 0x08 else s
      s.nextRecal s.lnk.recalWait
  | _ => s
def execLaneRecalComplete (pass : Bool) (s : State) : Host.Outcome State Fault Refusal :=
  s.act (match s.lnk.recal with
    | some (k, l :: _) => s.sampleOnce 4 (4 * k + l) (.row (.laneRecalComplete pass))
    | _ => s)

/-! ## The job (R429 to R432, R449) -/

/-- Show what the package is in its flock. -/
def State.showFlock (s : State) : State :=
  let b (f : Fld) (v : Bool) (s : State) : State := s.put f 0 (if v then 1 else 0)
  let on := s.joined
  let s := b LNK_STATUS.shepherd (on && s.shepherdOf s.coord = s.coord) s
  let s := b LNK_STATUS.deputy (on && s.deputyOf s.coord = some s.coord) s
  b LNK_STATUS.tick_root (on && s.shepherdOf 0 = s.coord) s

/-- The package joins: its tick count starts (R432); its own count is the job's at the tick root, others align to a beacon
(DEDUCED, log entry 94). -/
def State.join (s : State) : State :=
  let s := (((s.put LNK_STATUS.joined 0 1).put LNK_STATUS.sync_lost 0 0).wn .LNK_TICK 0 0).showFlock
  let s := s.setLnk { s.lnk with aligned := s.flag LNK_STATUS.tick_root, runs := [], early := [] }
  s.setFlt { s.flt with joinTick := s.now }

/-- JOIN: dimensions with a product above 65,536 are refused (R429) (DEDUCED, log entry 93). -/
def State.applyJoin (s : State) : State :=
  if s.leads = false ∨ s.joined ∨ 65536 < s.jobSize ∨ s.coordOk s.coord = false then s else s.join
def execJoin (fn : Func) (s : State) : Host.Outcome State Fault Refusal := s.act (s.pfSample fn (.join fn))

/-- LEAVE. -/
def State.applyLeave (s : State) : State :=
  if s.leads && s.joined then
    let s := ((s.put LNK_STATUS.joined 0 0).put LNK_STATUS.sync_lost 0 0).showFlock
    s.setLnk { s.lnk with aligned := false, runs := [], early := [] }
  else s
def execLeave (fn : Func) (s : State) : Host.Outcome State Fault Refusal := s.act (s.pfSample fn (.leave fn))

/-- BEACON_SEND: every 1,024 ticks of the job count, by the tick root. -/
def execBeaconSend (s : State) : Host.Outcome State Fault Refusal :=
  s.act (if s.joined && s.flag LNK_STATUS.tick_root && s.rn .LNK_TICK % 1024 = 0 then
      (upto 8).foldl (fun (s : State) r => s.txRole r) (s.emit (.beacon (s.rn .LNK_TICK)))
    else s)

/-- BEACON_RECEIVE: a beacon corrected for its path: the job's count at this tick, and the correction in ns of the tick's edge.
A correction above 10 µs loses sync until a later beacon finds the count realigned (R432). -/
def execBeaconReceive (count : DWord) (phase : Nat) (s : State) : Host.Outcome State Fault Refusal :=
  let n := count.toNat
  let own := s.rn .LNK_TICK
  let err := 160 * (if own ≤ n then n - own else own - n) + phase
  s.act (if s.joined && !s.flag LNK_STATUS.tick_root then
      let s := s.emit (.beacon n)
      if s.lnk.aligned && decide (10000 < err) then
        let s := s.wn .LNK_TICK 0 n
        if s.flag LNK_STATUS.sync_lost then s
        else ((s.put LNK_STATUS.sync_lost 0 1).setLnk { s.lnk with lostTick := s.now }).sample 4 45 (.port 9 0)
      else ((s.wn .LNK_TICK 0 n).put LNK_STATUS.sync_lost 0 0).setLnk { s.lnk with aligned := true }
    else s)

/-! ## Peer writes (R433) -/

/-- PEER_WRITE: a write from a peer for a coordinate; this package serves it, or sends it on, or refuses it
(DEDUCED, log entry 95); one that a memory port holds waits. -/
def execPeerWrite (src dst : Word) (addr : Nat) (bank : Fin 4) (data : List Byte) (s : State) :
    Host.Outcome State Fault Refusal :=
  let answer (s : State) (st : Nat) : State := s.sendTo src.toNat (.peerAck src.toNat st) 1 2
  s.act (if dst.toNat ≠ s.coord then
      match (s.firstHop dst.toNat).bind fun r => (s.portOf r).map fun k => (r, k) with
      | some (r, k) =>
        if s.portUp k && !s.portEth k then (s.txFlits k (ceilDiv data.length 240) 2).emit (.relayed r) else answer s stADDR_FAULT
      | none => answer s stADDR_FAULT
    else
      match s.jobCtx with
      | some c =>
        match if bank.val = 0 then some addr else s.bankAddr c addr data.length bank.val with
        | some a =>
          if h : c < 31 then
            if a < hbmEnd ∧ bank.val ≠ 3 then
              match s.writeNow (.agent ⟨c, h⟩) a data (bank.val = 2) with
              | (_, .held) => s
              | (s, .ack) => answer s stOK
              | (s, _) => answer s stADDR_FAULT
            else answer s stADDR_FAULT
          else answer s stADDR_FAULT
        | none => answer s stADDR_FAULT
      | none => answer s stADDR_FAULT)

/-! ## Shepherds and takeover (R450 to R453) -/

/-- SHEPHERD_HEARTBEAT: every 64 ticks, to the deputy, by the half that leads (R41). -/
def execShepherdHeartbeat (s : State) : Host.Outcome State Fault Refusal :=
  s.act (match s.deputyOf s.coord with
    | some d =>
      if s.led && s.flag LNK_STATUS.shepherd && s.rn .LNK_TICK % 64 = 0 && d ≠ s.coord then s.sendTo d (.heartbeat d) else s
    | none => s)

/-- SHEPHERD_TIMEOUT: at the next tick the deputy becomes shepherd, and tick root where the old shepherd was (R450, R454). -/
def State.applyShepherdTimeout (s : State) : State :=
  if s.led && s.flag LNK_STATUS.deputy && !s.flag LNK_STATUS.shepherd then
    let root := s.shepherdOf 0 = s.shepherdOf s.coord
    let s := (s.put LNK_STATUS.shepherd 0 1).put LNK_STATUS.deputy 0 0
    (if root then s.put LNK_STATUS.tick_root 0 1 else s).emit (.newShepherd s.coord)
  else s
def execShepherdTimeout (s : State) : Host.Outcome State Fault Refusal := s.act (s.sampleOnce 11 0 (.row .shepherdTimeout))

/-- A neighbour of the coordinate moves the role of its port that faced it to port S (R452). -/
def State.moveRole (s : State) (coord : Nat) : State :=
  match (upto 8).find? fun r => s.expectedCoord r = some coord && decide (1 < s.ring_ (r / 2)) && (s.portOf r).isSome with
  | some r =>
    match s.portOf r, s.portOf 8 with
    | some k, some z =>
      let s := (s.put LNK_PORT_CFG.role k 0xF).put LNK_PORT_CFG.role z r
      ((s.portDown k 0).portDown z 0).setPort z { (s.portDown z 0).port z with down := none }
    | _, _ => s
  | none => s

/-- TAKEOVER: a standby is assigned to a coordinate, at a tick (DEDUCED, log entry 166). At the standby, `job` brings the settings of R429: identifier, dimensions,
context; it joins with them. Its shepherd sends them; neighbours of the coordinate move a role to port S. -/
def State.applyTakeover (coord : Word) (job : Option (Word × Word × Ctx)) (s : State) : State :=
  match job with
  | some (id, dims, c) =>
    if s.joined then s
    else
      let s := ((s.wn .LNK_JOB_ID 0 id.toNat).wn .LNK_JOB_DIMS 0 dims.toNat).wn .LNK_JOB_COORD 0 coord.toNat
      let s := s.put LNK_JOB_CTX.context 0 c.val
      if 65536 < s.jobSize ∨ s.coordOk coord.toNat = false then s else s.join
  | none =>
    if s.joined = false ∨ coord.toNat = s.coord then s
    else
      let s := s.setSec { s.sec with
        taken := s.sec.taken.filter (· ≠ coord.toNat) ++ [coord.toNat]
        admitted := s.sec.admitted.filter fun a => a.1 ≠ coord.toNat }
      let s := if s.flag LNK_STATUS.shepherd && s.sameFlock coord.toNat s.coord then
          (s.emit (.takeover coord.toNat (s.rn .LNK_JOB_ID) (s.rn .LNK_JOB_DIMS) (s.get LNK_JOB_CTX.context))).txRole 8
        else s
      s.moveRole coord.toNat
def execTakeover (coord : Word) (job : Option (Word × Word × Ctx)) (s : State) : Host.Outcome State Fault Refusal :=
  s.act (if s.led then s.sampleOnce 4 36 (.row (.takeover coord job)) else s)

end Sys2Proof.Machine
end

