-- ==== Sys2Proof/Machine/Collective.lean ====
section
/-! DEFINITION. Machine/Collective.lean: the collective engine (R434 to R445, R413): the table, runs and their stages, chunks
with their digests and epochs, sign votes, all-to-all, delivery. -/

namespace Sys2Proof.Machine

/-! ## Entries (R436) -/

def clOp (e : List Byte) : Nat := recNum e 0 1
def clAxes (e : List Byte) : Nat := recNum e 1 1
def clIn (e : List Byte) : Nat := recNum e 2 1
def clWire (e : List Byte) : Nat := recNum e 3 1
def clOut (e : List Byte) : Nat := recNum e 4 1
def clRed (e : List Byte) : Nat := recNum e 5 1
def clToken (e : List Byte) : Bool := bitAt (recNum e 6 1) 0
def clElems (e : List Byte) : Nat := recNum e 8 4
def clTrigVid (e : List Byte) : Nat := recNum e 12 4
def clTrigValue (e : List Byte) : Nat := recNum e 16 4
def clDoneVid (e : List Byte) : Nat := recNum e 20 4
def clSrc (e : List Byte) : Nat := recNum e 24 8
def clDst (e : List Byte) : Nat := recNum e 32 8
def clTok (e : List Byte) : Nat := recNum e 40 8
def clAux (e : List Byte) : Nat := recNum e 48 8

/-- The combinations of wire and input format of R440. -/
def wirePermits (wire inFmt : Nat) : Bool :=
  match wire with
  | 0 => decide (inFmt ≤ 2)
  | 1 => decide (inFmt ≤ 1)
  | 2 => inFmt = 0
  | 3 => inFmt = 3
  | _ => false

/-- The checks of R434 on an entry. -/
def colEntryOk (e : List Byte) : Bool :=
  let op := clOp e
  let reduces := decide (op ≤ 1)
  decide (op ≤ 5) && decide (clAxes e < 16) && decide (clIn e ≤ 4) &&
    (if reduces then wirePermits (clWire e) (clIn e) else clWire e = 0) &&
    (if reduces then decide (clOut e ≤ 3) else if op = 5 then decide (clOut e ≤ 1) else clOut e = 0) &&
    (if reduces then decide (clRed e ≤ 2) else clRed e = 0) && decide (recNum e 6 1 ≤ 1) && recNum e 7 1 = 0 &&
    decide (1 ≤ clElems e ∧ clElems e ≤ 2 ^ 28) && decide (clTrigVid e < 2 ^ 20) && decide (1 ≤ clTrigValue e) &&
    decide (clDoneVid e < 2 ^ 20) && decide (clSrc e < 2 ^ 48) && decide (clDst e < 2 ^ 48) &&
    (if op = 3 then decide (clAux e < 2 ^ 32) else if op = 4 then decide (clAux e < 2 ^ 48) else true) && recNum e 56 8 = 0

/-- COL_TABLE_LOAD: a write to COL_TABLE_COUNT while the state is idle sets the count; the load begins at the tick. -/
def State.applyColTableLoad (s : State) : State :=
  ((s.setLnk { s.lnk with table := [] }).put COL_STATUS.state 0 1).put COL_STATUS.entry 0 0
def execColTableLoad (fn : Func) (value : Word) (s : State) : Host.Outcome State Fault Refusal :=
  let c := s.get LNK_JOB_CTX.context
  s.act (s.fnWrite fn .COL_TABLE_COUNT 0 fun s =>
    if s.sstate c ≠ ssIdle then s
    else (s.wn .COL_TABLE_COUNT 0 (bits value.toNat 10 0)).sampleRow 9 (s.fnSrc fn c) (.colTableLoad fn value))

/-- COL_TABLE_LOAD_COMPLETE (R434, R480). -/
def execColTableLoadComplete (s : State) : Host.Outcome State Fault Refusal :=
  let c := s.get LNK_JOB_CTX.context
  let n := s.rn .COL_TABLE_COUNT
  s.act (if s.get COL_STATUS.state ≠ 1 ∨ s.engHeld c (s.rn .COL_TABLE_BASE) (64 * min n 1024) = true then s
    else
      let (s, d) := s.engRead c (s.rn .COL_TABLE_BASE) (64 * min n 1024)
      let bad (b : Nat) := s.endLoad COL_STATUS.state COL_STATUS.entry 0 (some b)
      match d with
      | none => bad 0
      | some bs =>
        let es := chunks 64 (min n 1024) bs
        match (upto es.length).find? fun i => !colEntryOk (es.getD i []) with
        | some b => bad b
        | none =>
          if 1024 < n then bad 1023
          else if s.settingDiffers c 3 (Config.sha3 bs) then (bad 0).bump .SNP_JOURNAL_MISMATCH
          else ((s.setLnk { s.lnk with table := es }).endLoad COL_STATUS.state COL_STATUS.entry 0 none).journalSetting c 3 0
            (Config.sha3 bs))

/-! ## Values: packed codes of w bits (R436, R440, R444) -/

/-- n codes of w bits from bytes. -/
def unpackW (w n : Nat) (bs : List Byte) : List Nat :=
  (upto n).map fun i => leNat ((bs.drop (i * w / 8)).take (w / 8 + 1)) / 2 ^ (i * w % 8) % 2 ^ w
/-- Bytes from codes of w bits. -/
def packW (w : Nat) (vs : List Nat) : List Byte :=
  natLe (ceilDiv (vs.length * w) 8) (vs.foldr (fun v a => v % 2 ^ w + 2 ^ w * a) 0)

/-- Bits of an element of an input format. -/
def inBits (f : Nat) : Nat := match f with | 0 => 16 | 1 => 32 | 2 => 48 | 3 => 32 | _ => 1
/-- Bits of a value of a wire format, and of an output format. -/
def wireBits (f : Nat) : Nat := match f with | 0 => 48 | 1 => 32 | 2 => 16 | _ => 32
def outBits (f : Nat) : Nat := match f with | 0 => 16 | 1 => 32 | 2 => 48 | _ => 32

def wireFmt (f : Nat) : Fmt := match f with | 0 => fmtFA48 | 1 => fmtFP32 | _ => fmtBF16
def inFmtOf (f : Nat) : Fmt := match f with | 0 => fmtBF16 | 1 => fmtFP32 | _ => fmtFA48

/-- Widen an element to the wire format, exactly (R438). -/
def widen (wire inFmt v : Nat) : Nat :=
  if wire = 3 ∨ (wire = 0 ∧ inFmt = 2) ∨ (wire = 1 ∧ inFmt = 1) ∨ (wire = 2 ∧ inFmt = 0) then v
  else (wireFmt wire).enc .rne false ((inFmtOf inFmt).dec v)

/-- One combine (R440): the exact result, rounded once. -/
def combineWire (wire red a b : Nat) : Nat :=
  if wire = 3 then
    match red with
    | 0 => satAdd32 a b
    | 1 => if sext 32 a < sext 32 b then b else a
    | _ => if sext 32 b < sext 32 a then b else a
  else
    let f := wireFmt wire
    match red with
    | 0 => if wire = 0 then (fa48Add (BitVec.ofNat 48 a) (BitVec.ofNat 48 b)).toNat else f.enc .rne false ((f.dec a).add (f.dec b))
    | 1 => f.enc .rne false (fvMax (f.dec a) (f.dec b))
    | _ => f.enc .rne false (fvMin (f.dec a) (f.dec b))

/-- The nearest integer, ties to even, of a value in the range of INT32. -/
def rneInt (x : FVal) : Option Int :=
  match x with
  | .fin neg m e =>
    let n : Nat := if 0 ≤ e then m * 2 ^ e.toNat
      else
        let d := 2 ^ (-e).toNat
        let q := m / d
        let r := m % d
        if d < 2 * r ∨ (2 * r = d ∧ q % 2 = 1) then q + 1 else q
    let i : Int := if neg then -(n : Int) else n
    if -2147483648 ≤ i ∧ i ≤ 2147483647 then some i else none
  | _ => none

/-- One result converted to the output format, once (R439). -/
def outCode (wire out v : Nat) : Nat :=
  if out = 3 then
    if wire = 3 then v else ((rneInt ((wireFmt wire).dec v)).map (wrapInt 32)).getD (Config.int32Of wire v).toNat
  else
    let f := match out with | 0 => fmtBF16 | 1 => fmtFP32 | _ => fmtFA48
    if wire = 3 then
      let i := sext 32 v
      f.enc .rne false (.fin (decide (i < 0)) i.natAbs 0)
    else if (wire = 0 ∧ out = 2) ∨ (wire = 1 ∧ out = 1) ∨ (wire = 2 ∧ out = 0) then v
    else f.enc .rne false ((wireFmt wire).dec v)

/-! ## Segments and plans (R437 to R439) -/

/-- First value of segment i of L values over n positions. -/
def segLo (L n i : Nat) : Nat := i * L / (2 * n)
def segLen (L n i : Nat) : Nat := segLo L n (i + 1) - segLo L n i
/-- Owner of a segment; the position at which its chain starts; the position a chunk goes to next. -/
def segOwner (n i : Nat) : Nat := if i < n then i else i - n
def posNext (n i p : Nat) : Nat := if i < n then (p + 1) % n else (p + n - 1) % n
/-- The role of the port a segment's chunks leave by: + or − of the axis. -/
def segRole (axis n i : Nat) : Nat := 2 * axis + if i < n then 0 else 1
/-- Number of values the owner of both segments of position p holds. -/
def ownLen (L n p : Nat) : Nat := segLen L n p + segLen L n (n + p)

/-- Position of this package on an axis. -/
def State.pos (s : State) (a : Nat) : Nat := coordOf s.coord a
/-- Named axes with more than one position. -/
def State.clAxesOf (s : State) (e : List Byte) : List Nat := (upto 4).filter fun a => bitAt (clAxes e) a && decide (1 < s.ring_ a)
/-- Members of an entry's group. -/
def State.clMembers (s : State) (e : List Byte) : Nat := ((s.clAxesOf e).map s.ring_).foldl (· * ·) 1

/-- Lengths on entry to each scatter stage over a list of axes, the last one what is left. -/
def State.scatterLens (s : State) : List Nat → Nat → List Nat
  | [], L => [L]
  | a :: t, L => L :: s.scatterLens t (ownLen L (s.ring_ a) (s.pos a))

/-- Elements of the whole that an all-gather yields (R439): E on every package. -/
def State.gatherTotal (s : State) (e : List Byte) : Nat := clElems e * s.clMembers e

/-- Elements of src that an entry reads. -/
def State.clCount (s : State) (e : List Byte) : Nat :=
  match clOp e with
  | 2 => ((s.scatterLens (s.clAxesOf e) (s.gatherTotal e)).getLast?).getD 0
  | _ => clElems e

/-- Does this package take part in a broadcast along axis a: does it lie where the earlier axes have brought the data, at the
root's position on every later named axis (R439)? -/
def State.castHere (s : State) (e : List Byte) (a : Nat) : Bool :=
  (s.clAxesOf e).all fun b => decide (b ≤ a) || s.pos b = coordOf (clAux e) b

/-- Is this package the root of a broadcast? -/
def State.isRoot (s : State) (e : List Byte) : Bool := (s.clAxesOf e).all fun b => s.pos b = coordOf (clAux e) b

/-- The stages of an entry: (axis, gather). -/
def State.clPlan (s : State) (e : List Byte) : List (Nat × Bool) :=
  let as := s.clAxesOf e
  let sc := as.map fun a => (a, false)
  let ga := as.reverse.map fun a => (a, true)
  match clOp e with
  | 0 => sc ++ ga
  | 1 => sc
  | 2 => ga
  | 3 => (as.filter fun a => s.castHere e a).map fun a => (a, true)
  | 5 => sc ++ ga
  | _ => []

/-- Voters combined by the end of a scatter stage on axis a (R444), and the width of a count. -/
def State.voters (s : State) (e : List Byte) (a : Nat) : Nat := (((s.clAxesOf e).filter (· ≤ a)).map s.ring_).foldl (· * ·) 1
def countBits (n : Nat) : Nat := if n < 2 ^ 4 then 4 else if n < 2 ^ 8 then 8 else if n < 2 ^ 16 then 16 else 32

/-- Bits of a value at a stage. -/
def State.stageBits (s : State) (e : List Byte) (a : Nat) (gather : Bool) : Nat :=
  match clOp e with
  | 5 => if gather then (if clOut e = 0 then 2 else 32) else countBits (s.voters e a)
  | 2 => inBits (clIn e)
  | 3 => inBits (clIn e)
  | _ => wireBits (clWire e)

/-- A code or a margin from a count of negative votes (R444). -/
def voteCode (out N c : Nat) : Nat :=
  let m : Int := (N : Int) - 2 * (c : Int)
  if out = 0 then (if m = 0 then 0 else if 0 < m then 1 else 2) else wrapInt 32 m

/-- Combine two values at a scatter stage. -/
def clCombine (e : List Byte) (a b : Nat) : Nat := if clOp e = 5 then a + b else combineWire (clWire e) (clRed e) a b

/-! ## Chunks (R438, R442) -/

/-- Data bytes of a chunk beside its header. -/
def chunkData : Nat := 3808
def perChunk (w : Nat) : Nat := chunkData * 8 / w

/-- The header of a chunk, digest zero. -/
def State.chunkHead (s : State) (r : ColRun) (stage seg chunk : Nat) : List Byte :=
  natLe 4 (s.rn .LNK_JOB_ID) ++ natLe 2 r.entry ++ natLe 1 stage ++ [0#8] ++ natLe 4 r.step ++ natLe 4 r.epoch ++
    natLe 2 seg ++ natLe 2 chunk ++ natLe 4 s.coord

/-- A header with its digest. -/
def withDigest (head payload : List Byte) : List Byte :=
  head ++ natLe 8 (Config.crc64 (head ++ List.replicate 8 0#8 ++ payload)).toNat

/-- Count a chunk sent (R455, R415). -/
def State.countChunk (s : State) (role n : Nat) : State :=
  let s := (s.bump .COL_BYTES_SENT 0 (32 + n)).txRole role (ceilDiv (32 + n) 240) 1
  match s.jobCtx with
  | some c => s.bump .CTX_ACC_LINK_BYTES c (32 + n)
  | none => s

/-- Send values of a segment as chunk j of it. -/
def State.sendChunk (s : State) (r : ColRun) (g : ColStage) (seg j : Nat) (vs : List Nat) : State :=
  let payload := packW g.width vs
  let role := segRole g.axis g.n seg
  let head := s.chunkHead r (g.axis + if g.gather then 4 else 0) seg j
  (s.countChunk role payload.length).emit (.chunk role (withDigest head payload) payload)

/-- All chunks of a segment, from values. -/
def State.sendSeg (s : State) (r : ColRun) (g : ColStage) (seg : Nat) (vs : List Nat) : State :=
  let n := perChunk g.width
  (upto (ceilDiv vs.length n)).foldl (fun (s : State) j => s.sendChunk r g seg j ((vs.drop (n * j)).take n)) s

/-- Chunks of a segment of a stage. -/
def ColStage.nChunks (g : ColStage) (seg : Nat) : Nat := ceilDiv (segLen g.vals.length g.n seg) (perChunk g.width)

/-- The segments whose chunks this package must see before the stage is over: its own two of a scatter; every other of a
gather; in a broadcast every one, unless it holds them. -/
def ColStage.awaited (g : ColStage) (root : Nat → Nat) : List Nat :=
  (upto (2 * g.n)).filter fun i => if g.gather then root i ≠ g.p else segOwner g.n i = g.p

/-- Who sends a segment first at a gather: its owner, or the root of a broadcast. -/
def ColRun.source (r : ColRun) (g : ColStage) (i : Nat) : Nat :=
  if clOp r.img = 3 then coordOf (clAux r.img) g.axis else segOwner g.n i

/-- Has the stage seen all it awaits? -/
def ColStage.ended (g : ColStage) (r : ColRun) : Bool :=
  (g.awaited (r.source g)).all fun i => (upto (g.nChunks i)).all fun j => decide ((i, j) ∈ g.done)

/-! ## Runs -/

/-- A run's change. -/
def State.setRun (s : State) (r : ColRun) : State :=
  s.setLnk { s.lnk with runs := replaceFirst (fun x => x.entry = r.entry) (fun _ => r) s.lnk.runs }

/-- What stages hand on: the sequence held now. -/
def ColStage.held (g : ColStage) : List Nat := if g.gather then g.vals else g.res

/-- Results of the segments a scatter stage owns when nothing has arrived yet: places for them. -/
def ColStage.places (g : ColStage) : List Nat := List.replicate (ownLen g.vals.length g.n g.p) 0

/-- Begin the next stage with the values held: at a scatter the chain starts next to the owner; at a gather the owner, or the
root, sends what it holds. -/
def State.beginStage (s : State) (r : ColRun) (a : Nat) (gather : Bool) (len : Nat) (vs : List Nat) : State × ColStage :=
  let n := s.ring_ a
  let p := s.pos a
  let w := s.stageBits r.img a gather
  if gather then
    let cast := clOp r.img = 3
    let mine := List.replicate (segLo len n p) 0 ++ vs.take (segLen len n p) ++
      List.replicate (segLo len n (n + p) - segLo len n (p + 1)) 0 ++ vs.drop (segLen len n p) ++
      List.replicate (len - segLo len n (n + p + 1)) 0
    let g : ColStage := { axis := a, gather := true, n := n, p := p, width := w, vals := if cast then vs else mine }
    let segs := (upto (2 * n)).filter fun i => r.source g i = p
    (segs.foldl (fun (s : State) i => s.sendSeg r g i ((g.vals.drop (segLo len n i)).take (segLen len n i))) s, g)
  else
    let g : ColStage := { axis := a, gather := false, n := n, p := p, width := w, vals := vs }
    let g := { g with res := g.places }
    let segs := (upto (2 * n)).filter fun i => posNext n i (segOwner n i) = p
    (segs.foldl (fun (s : State) i => s.sendSeg r g i ((vs.drop (segLo len n i)).take (segLen len n i))) s, g)

/-- Lengths on entry to the scatter stage over an axis. -/
def State.lenAt (s : State) (e : List Byte) (a : Nat) : Nat :=
  let as := s.clAxesOf e
  let total := if clOp e = 2 then s.gatherTotal e else clElems e
  if clOp e = 3 then clElems e
  else ((as.zip (s.scatterLens as total)).find? fun x => x.1 = a).elim total (·.2)

/-- The bytes of a result (R439, R444). -/
def State.resultBytes (s : State) (e : List Byte) (vs : List Nat) : List Byte :=
  match clOp e with
  | 5 => natLe 4 (s.clMembers e) ++ natLe 4 (clElems e) ++ List.replicate 56 0#8 ++ packW (if clOut e = 0 then 2 else 32) vs
  | 2 => packW (inBits (clIn e)) vs
  | 3 => packW (inBits (clIn e)) vs
  | _ => packW (outBits (clOut e)) (vs.map (outCode (clWire e) (clOut e)))

/-- What the first stage begins with: the contribution in the form of the stage. -/
def firstVals (e : List Byte) (vs : List Nat) : List Nat :=
  match clOp e with
  | 0 => vs.map (widen (clWire e) (clIn e))
  | 1 => vs.map (widen (clWire e) (clIn e))
  | 5 => vs.map fun v => v / 2 ^ (inBits (clIn e) - 1) % 2
  | _ => vs

/-- Between scatter and gather of a sign vote, counts become codes or margins. -/
def State.turn (s : State) (r : ColRun) (was gather : Bool) (vs : List Nat) : List Nat :=
  if clOp r.img = 5 && !was && gather then vs.map (voteCode (clOut r.img) (s.clMembers r.img)) else vs

/-- Go on from what is held: the next stages, as far as they await nothing, or the result. `was`: the last stage was a gather. -/
def goOnFrom : List (Nat × Bool) → State → ColRun → Bool → List Nat → State
  | (a, gather) :: rest, s, r, was, vs =>
    let r := { r with plan := rest }
    let (s, g) := s.beginStage r a gather (s.lenAt r.img a) (s.turn r was gather vs)
    let r := { r with stages := r.stages ++ [g] }
    if g.ended r then goOnFrom rest (s.setRun r) r gather g.held else s.setRun r
  | [], s, r, _, vs =>
    let vs := if r.stages.isEmpty then s.turn r false true vs else vs
    s.setRun { r with plan := [], out := some (s.resultBytes r.img vs) }
def State.goOn (s : State) (r : ColRun) (was : Bool) (vs : List Nat) : State := goOnFrom r.plan s r was vs

/-- Take a chunk at a stage begun. -/
def State.feedStage (s : State) (r : ColRun) (g : ColStage) (seg j : Nat) (payload : List Byte) : State × ColStage :=
  let len := g.vals.length
  let n := perChunk g.width
  let lo := segLo len g.n seg + n * j
  let cnt := min n (segLen len g.n seg - n * j)
  let vs := unpackW g.width cnt payload
  if decide (2 * g.n ≤ seg) || decide ((seg, j) ∈ g.done) || decide (segLen len g.n seg ≤ n * j) then (s, g)
  else if g.gather then
    let g := { g with vals := g.vals.take lo ++ vs ++ g.vals.drop (lo + cnt), done := g.done ++ [(seg, j)] }
    (if posNext g.n seg g.p = r.source g seg then s else s.sendChunk r g seg j vs, g)
  else
    let sum := List.zipWith (clCombine r.img) vs ((g.vals.drop lo).take cnt)
    let g' := { g with done := g.done ++ [(seg, j)] }
    if segOwner g.n seg = g.p then
      let at_ := (if seg < g.n then 0 else segLen len g.n g.p) + n * j
      (s, { g' with res := g.res.take at_ ++ sum ++ g.res.drop (at_ + cnt) })
    else (s.sendChunk r g seg j sum, g')

/-- Header fields. -/
def hdEntry (h : List Byte) : Nat := recNum h 4 2
def hdStage (h : List Byte) : Nat := recNum h 6 1
def hdSeg (h : List Byte) : Nat := recNum h 16 2
def hdChunk (h : List Byte) : Nat := recNum h 18 2
def hdSender (h : List Byte) : Nat := recNum h 20 4

/-- Does a chunk belong to a stage? -/
def ColStage.takes (g : ColStage) (h : List Byte) : Bool := hdStage h = g.axis + if g.gather then 4 else 0

/-- Take a chunk in a run whose stage for it has begun; the run goes on as stages are over. -/
def State.feedRun (s : State) (r : ColRun) (h payload : List Byte) : State :=
  match r.stages.findIdx? fun g => g.takes h with
  | some i =>
    match r.stages[i]? with
    | some g =>
      let (s, g) := s.feedStage r g (hdSeg h) (hdChunk h) payload
      let r := { r with stages := r.stages.set i g }
      let s := s.setRun r
      if i + 1 = r.stages.length ∧ r.out = none ∧ g.ended r = true then s.goOn r g.gather g.held else s
    | none => s
  | none => s

/-- The run of an entry, and the stage that a header names, if begun. -/
def State.runOf (s : State) (entry : Nat) : Option ColRun := s.lnk.runs.find? fun r => r.entry = entry
def ColRun.begun (r : ColRun) (h : List Byte) : Bool := clOp r.img = 4 || r.stages.any fun g => g.takes h

/-! ## All-to-all (R445) -/

/-- Member number of a coordinate in this package's group, and the coordinate of a member. -/
def State.memberOf (s : State) (e : List Byte) (coord : Nat) : Nat :=
  ((s.clAxesOf e).foldl (fun (x : Nat × Nat) a => (x.1 + coordOf coord a * x.2, x.2 * s.ring_ a)) (0, 1)).1
def State.memberCoord (s : State) (e : List Byte) (q : Nat) : Nat :=
  ((s.clAxesOf e).foldl (fun (x : Nat × Nat) a => (setCoord x.1 a (x.2 % s.ring_ a), x.2 / s.ring_ a)) (s.coord, q)).1

/-- Units of 64 B in a data chunk. -/
def unitsPerChunk : Nat := 59

/-- Send a chunk towards a coordinate. -/
def State.sendPart (s : State) (r : ColRun) (dst seg j : Nat) (payload : List Byte) : State :=
  match s.firstHop dst with
  | some role => (s.countChunk role payload.length).emit (.chunkTo dst role (withDigest (s.chunkHead r 0 seg j) payload) payload)
  | none => s

/-- Have the counts and the units of every member come? -/
def State.exchanged (s : State) (r : ColRun) : Bool :=
  (upto (s.clMembers r.img)).all fun q =>
    match r.counts.find? fun x => x.1 = q with
    | some (_, n) => (upto (ceilDiv n unitsPerChunk)).all fun j => r.units.any fun u => u.1 = q && u.2.1 = j
    | none => false

/-- The data of a member. -/
def ColRun.unitsOf (r : ColRun) (q n : Nat) : List Byte :=
  ((upto (ceilDiv n unitsPerChunk)).flatMap fun j =>
    ((r.units.find? fun u => u.1 = q && u.2.1 = j).map fun u => u.2.2).getD []).take (64 * n)

/-- A digest mismatch (R442, R470). -/
def State.mismatch (s : State) (c port entry seg sender : Nat) : State :=
  let s := s.bump .COL_DIGEST_MISMATCH
  let s := if s.flag COL_LAST_MISMATCH.valid then s else
    (((s.put COL_LAST_MISMATCH.entry 0 entry).put COL_LAST_MISMATCH.segment 0 seg).put COL_LAST_MISMATCH.sender 0 sender).signal
      COL_LAST_MISMATCH.valid
  s.sample 7 port (.digest c port)

/-- An all-to-all whose data has come: the counts, padded, then the members' data in member order; what exceeds E units is
discarded. -/
def State.endExchange (s : State) (r : ColRun) (port : Nat) : State :=
  let N := s.clMembers r.img
  let n (q : Nat) : Nat := ((r.counts.find? fun x => x.1 = q).map (·.2)).getD 0
  let cb := (upto N).flatMap fun q => natLe 4 (n q)
  let head := cb ++ List.replicate (pad64 cb.length - cb.length) 0#8
  let data := (upto N).flatMap fun q => r.unitsOf q (n q)
  let room := 64 * clElems r.img - head.length
  let s := s.setRun { r with out := some (head ++ data.take room) }
  if room < data.length then
    let s := s.bump .COL_OVERFLOW
    s.mismatch (s.get LNK_JOB_CTX.context) port r.entry 0 s.coord
  else s

/-- Take a chunk of an all-to-all: chunk 0 is a member's count, later ones its data. -/
def State.feedExchange (s : State) (r : ColRun) (port : Nat) (h payload : List Byte) : State :=
  let q := s.memberOf r.img (hdSender h)
  let j := hdChunk h
  let r' := if j = 0 then
      (if r.counts.any fun x => x.1 = q then r else { r with counts := r.counts ++ [(q, leNat (payload.take 4))] })
    else if r.units.any fun u => u.1 = q && u.2.1 = j - 1 then r
    else { r with units := r.units ++ [(q, j - 1, payload)] }
  let s := s.setRun r'
  if r.out = none ∧ s.exchanged r' = true then s.endExchange r' port else s

/-- Begin an all-to-all: each member is sent its count, then its data. -/
def State.beginExchange (s : State) (r : ColRun) (counts : List Nat) (data : List Byte) : State :=
  let e := r.img
  let me := s.memberOf e s.coord
  let s := counts.zipIdx.foldl (fun (x : State × Nat) cq =>
    let (n, q) := cq
    let mine := (data.drop (64 * x.2)).take (64 * n)
    let s := x.1
    let s := if q = me then s
      else
        let dst := s.memberCoord e q
        let s := s.sendPart r dst q 0 (natLe 4 n)
        (upto (ceilDiv n unitsPerChunk)).foldl (fun (s : State) j =>
          s.sendPart r dst q (j + 1) ((mine.drop (64 * unitsPerChunk * j)).take (64 * unitsPerChunk))) s
    (s, x.2 + n)) (s, 0) |>.1
  let before := (counts.take me).foldl (· + ·) 0
  let n := counts.getD me 0
  let mine := (data.drop (64 * before)).take (64 * n)
  let r := { r with
    counts := [(me, n)]
    units := (upto (ceilDiv n unitsPerChunk)).map fun j => (me, j, (mine.drop (64 * unitsPerChunk * j)).take (64 * unitsPerChunk)) }
  let s := s.setRun r
  if s.exchanged r then s.endExchange r 0 else s

/-! ## The run of an entry (R435) -/

/-- Chunks that came before their stage began are taken as stages begin. -/
def State.takeEarly (s : State) : Nat → State
  | 0 => s
  | f + 1 =>
    match s.lnk.early.find? fun x => ((s.runOf (hdEntry x.head)).any fun r => r.begun x.head) with
    | some x =>
      let s := s.setLnk { s.lnk with early := dropFirst (fun y => y = x) s.lnk.early }
      match s.runOf (hdEntry x.head) with
      | some r => (if clOp r.img = 4 then s.feedExchange r 0 x.head x.payload else s.feedRun r x.head x.payload).takeEarly f
      | none => s
    | none => s

/-- The layout epoch that this package's contributions carry: that of the step folio bound (R336). -/
def State.sentEpoch (s : State) (c : Nat) : Nat :=
  ((((s.stepSet c).head?).bind fun p => s.rfolio p).map fun f => f.epoch.toNat).getD (s.rn .CTX_LAYOUT_EPOCH c)

/-- Must an entry's first read wait on its way to the memory (R284, R503, R525)? -/
def State.runWaits (s : State) (c : Nat) (e : List Byte) : Bool :=
  if clOp e = 4 then
    let N := s.clMembers e
    s.engHeld c (clAux e) (4 * N) ||
      s.engHeld c (clSrc e) (64 * (unpackW 32 N (((s.engRead c (clAux e) (4 * N)).2).getD [])).foldl (· + ·) 0)
  else if clOp e = 3 ∧ s.isRoot e = false then false
  else s.engHeld c (clSrc e) (ceilDiv (s.clCount e * inBits (clIn e)) 8)

/-- COLLECTIVE_RUN: the trigger leash of an entry has barked: trig_value is subtracted and the entry runs once. An input that
cannot be read starts no run. -/
def execCollectiveRun (entry : Fin 1024) (s : State) : Host.Outcome State Fault Refusal :=
  let c := s.get LNK_JOB_CTX.context
  s.act (match s.lnk.table[entry.val]? with
    | some e =>
      if entry.val ∉ s.lnk.barks ∨ s.runWaits c e = true then s
      else
        let s := s.setLnk { s.lnk with barks := s.lnk.barks.filter (· ≠ entry.val) }
        let s := s.setHrd { s.hrd with msgs := s.hrd.msgs ++
          [{ core := 24576, op := 0, ctx := c, vid := clTrigVid e, act := 1, count := clTrigValue e, agent := true }] }
        let s := s.bump .COL_RUNS
        let r : ColRun := { entry := entry.val, img := e, step := s.rn .CTX_STEP c % 2 ^ 32, epoch := s.sentEpoch c
                            plan := s.clPlan e }
        let s := s.setLnk { s.lnk with runs := (s.lnk.runs.filter fun x => x.entry ≠ entry.val) ++ [r] }
        let drop (s : State) : State := s.setLnk { s.lnk with runs := s.lnk.runs.filter fun x => x.entry ≠ entry.val }
        if clOp e = 4 then
          let N := s.clMembers e
          match s.engRead c (clAux e) (4 * N) with
          | (s, some cb) =>
            let counts := unpackW 32 N cb
            match s.engRead c (clSrc e) (64 * counts.foldl (· + ·) 0) with
            | (s, some data) => (s.beginExchange r counts data).takeEarly (s.lnk.early.length + 1)
            | (s, none) => drop s
          | (s, none) => drop s
        else if clOp e = 3 ∧ s.isRoot e = false then
          (s.goOn r true (List.replicate (clElems e) 0)).takeEarly (s.lnk.early.length + 1)
        else
          let n := s.clCount e
          match s.engRead c (clSrc e) (ceilDiv (n * inBits (clIn e)) 8) with
          | (s, some bs) => (s.goOn r false (firstVals e (unpackW (inBits (clIn e)) n bs))).takeEarly (s.lnk.early.length + 1)
          | (s, none) => drop s
    | none => s)

/-- COLLECTIVE_CHUNK: a chunk of the job arrives; its digest and epoch are checked; it is combined, passed on, delivered, or
relayed towards `dst` (R431, R442, R443). `unitsDiffer`: the two combine units disagree. -/
def execCollectiveChunk (port : Fin 9) (dst : Word) (head payload : List Byte) (unitsDiffer : Bool) (s : State) :
    Host.Outcome State Fault Refusal :=
  s.act (match s.jobCtx with
    | some c =>
      if s.joined = false ∨ recNum head 0 4 ≠ s.rn .LNK_JOB_ID then s
      else if dst.toNat ≠ s.coord then
        match s.firstHop dst.toNat with
        | some role => (s.countChunk role payload.length).emit (.chunkTo dst.toNat role head payload)
        | none => s
      else
        let good := recNum head 24 8 = (Config.crc64 (head.take 24 ++ List.replicate 8 0#8 ++ payload)).toNat
        let s := if good ∧ unitsDiffer = false then s else
          s.mismatch c port.val (hdEntry head % 1024) (hdSeg head) (hdSender head)
        let layout := if s.sstate c = ssResharding then s.rn .CTX_PENDING_EPOCH c else s.rn .CTX_LAYOUT_EPOCH c
        let ep := recNum head 12 4
        let stale := decide (recNum head 8 4 ≠ s.rn .CTX_STEP c % 2 ^ 32) || decide (ep ≠ layout)
        let quiet := s.sstate c = ssResharding ∧ ep = s.rn .CTX_LAYOUT_EPOCH c
        let s := if stale then (if quiet then s else s.voteBit c vbEpoch).bump .COL_EPOCH_STALE else s
        let payload := if stale then List.replicate payload.length 0#8 else payload
        match s.runOf (hdEntry head) with
        | some r =>
          if r.begun head && r.step = s.rn .CTX_STEP c % 2 ^ 32 then
            (if clOp r.img = 4 then s.feedExchange r port.val head payload else s.feedRun r head payload).takeEarly
              (s.lnk.early.length + 1)
          else s.setLnk { s.lnk with early := s.lnk.early ++ [⟨head, payload⟩] }
        | none => s.setLnk { s.lnk with early := s.lnk.early ++ [⟨head, payload⟩] }
    | none => s)

/-! ## Delivery (R435, R441, R413) -/

/-- The end of a run: done_vid goes up by one. -/
def State.endRun (s : State) (c : Nat) (r : ColRun) : State :=
  (s.setRun { r with delivered := true }).herdAgent 24576 c (clDoneVid r.img) 1

/-- The destination of a token result: core window number, operation, port, tag (R58, R441). -/
def State.clTarget (s : State) (c : Nat) (e : List Byte) : Nat × Nat × Nat × Tag :=
  let t := clTok e
  (bits t 35 24, bits t 23 19, bits t 18 16, BitVec.ofNat 16 (s.rn .CTX_TAG_BASE c + bits t 51 36))

/-- A result as a token of the spine (R441): it enters the mesh in the first router of its core's die (DESIGN CHOICE, log entry 168). -/
def State.resultToken (s : State) (c : Nat) (e bs : List Byte) : Token :=
  let (k, op, port, tag) := s.clTarget c e
  { epoch := BitVec.ofNat 12 (s.repoch (regionOf k)), tag := tag, dst := k, op := op, port := port
    length := ceilDiv bs.length 64, data := bs ++ List.replicate (pad64 bs.length - bs.length) 0#8
    src := .spine, from_ := 64 * (regionOf k / 4) }

/-- Does the engine hold the credit of a token's port slot (R239, R441)? -/
def State.resultCredit (s : State) (c : Nat) (t : Token) : Bool :=
  let p := regionOf t.dst
  s.rctx p = c && s.rstate p ≠ rsLoading && s.creditFor t.dst t.op t.port t.tag t.epoch &&
    decide ((t.dst, t.op, t.port, t.tag.toNat % opDepth ((s.core t.dst).block.op t.op)) ∉ s.fch.lost)

/-- COLLECTIVE_COMPLETE: the result is written to memory, or leaves as a token once the port's credit is held (R441); in a context that
is pre-empting or pre-empted a token result is parked. A result beyond 1,048,512 B fits no token and is not delivered; a token that its
router discards with FENCED is lost (DESIGN CHOICE, log entry 158). -/
def execCollectiveComplete (entry : Fin 1024) (s : State) : Host.Outcome State Fault Refusal :=
  let c := s.get LNK_JOB_CTX.context
  s.act (match s.runOf entry.val with
    | some r =>
      match r.out with
      | some bs =>
        if r.delivered then s
        else if !clToken r.img then
          (if s.engHeld c (clDst r.img) bs.length true then s else (s.engWrite c (clDst r.img) bs).endRun c r)
        else if s.barksHeld c then (if r.parked then s else (s.setRun { r with parked := true }).bump .COL_PARKED)
        else
          let t := s.resultToken c r.img bs
          if 1048512 < bs.length ∨ s.resultCredit c t = false then s
          else ((s.launch t (clusterOf t.dst)).getD (s.refuseTok t t.from_)).endRun c r
      | none => s
    | none => s)

/-- A saved entry with a parked result landed. -/
def SavedRegion.park (r : SavedRegion) (k op port : Nat) (tag : Tag) : SavedRegion :=
  { r with cores := r.cores.map fun x =>
      if x.1 = k then
        let m := ((x.2.entry op tag).getD { op := op, tag := tag })
        let m := { m with arrived := m.arrived ||| portBit port, landed := m.landed ||| portBit port }
        let m := if m.state = .gathering ∧ covers (x.2.block.op op) m.landed = true then { m with state := .ready } else m
        (k, x.2.putEntry m)
      else x }

/-- PARKED_RESULT_ARRIVAL: the parked result of a pre-empted context is written into the saved image of its slot, and the saved
entry is marked landed (R413). -/
def execParkedResultArrival (entry : Fin 1024) (s : State) : Host.Outcome State Fault Refusal :=
  let c := s.get LNK_JOB_CTX.context
  s.act (match s.runOf entry.val, s.ctx.preempts.find? fun q => q.ctx = c with
    | some r, some q =>
      let (k, op, port, tag) := s.clTarget c r.img
      match r.out, q.saved.zipIdx.find? fun x => x.1.region = regionOf k with
      | some bs, some (v, i) =>
        if r.delivered ∨ clToken r.img = false ∨ s.get CTX_PSTATE.state c ≠ 4 ∨ s.engHeld c (s.rn .CTX_SAVE_BASE c + saveBlock * i +
            coreBlockOff (clusterOf k % 16) (lcoreOf k)) 0xC2000 true = true then s
        else
          let cs := ((v.cores.find? fun x => x.1 = k).map (·.2)).getD {}
          let at_ := portSlotAddr (cs.block.port op port) (slotOf cs.block op tag)
          let base := s.rn .CTX_SAVE_BASE c + saveBlock * i + coreBlockOff (clusterOf k % 16) (lcoreOf k) + imageOff 0
          let s := if r.parked then s else s.bump .COL_PARKED
          let s := s.engWrite c (base + at_) (bs ++ List.replicate (pad64 bs.length - bs.length) 0#8)
          let v := v.park k op port tag
          let v := { v with blocks := v.blocks.map fun b => if b.1 = k ∧ b.2 ≠ wholeCore then (b.1, b.2 ++ [(0, at_, pad64 bs.length)]) else b }
          let q' := { q with saved := q.saved.set i v }
          let s : State := { s with ctx := { s.ctx with preempts := replaceFirst (fun x => x.ctx = c) (fun _ => q') s.ctx.preempts } }
          s.endRun c { r with parked := true }
      | _, _ => s
    | _, _ => s)

end Sys2Proof.Machine
end

