-- ==== Sys2Proof/Machine/Msix.lean ====
section
/-! DEFINITION. Machine/Msix.lean: MSI-X messages (R544, R549, R558 to R560). -/

namespace Sys2Proof.Machine

/-- Vectors of a function (R558). -/
def vectorsOf (fn : Nat) : Nat := if fn = 0 then 256 else 16

/-- Is a vector masked: the mask bit of its table entry (the upper half of its second word), the function mask, or an MSI-X
capability that is not enabled? -/
def State.vectorMasked (s : State) (fn v : Nat) : Bool :=
  bitAt (s.rn .HIF_MSIX_TABLE (512 * fn + 2 * v + 1)) 32 || decide (fn ∈ s.hif.msixMask) || decide (fn ∉ s.hif.msixOn)

/-- Can a message of the function go now: the link is up (R544), the function in D0 (R549), the vector not masked? -/
def State.msixReady (s : State) (fn v : Nat) : Bool :=
  s.flag HIF_STATUS.link_up && decide (fn ∉ s.hif.d3) && !s.vectorMasked fn v

/-- Set or clear a pending bit. -/
def State.setPending (s : State) (fn v : Nat) (on : Bool) : State :=
  let i := 4 * fn + v / 64
  s.wn .HIF_MSIX_PBA i (putBits (s.rn .HIF_MSIX_PBA i) (v % 64) (v % 64) (if on then 1 else 0))

/-- A message: sent, or held as a pending bit; a vector beyond the table sends none (R558). -/
def State.sendMsix (s : State) (fn v : Nat) : State :=
  if vectorsOf fn ≤ v then s
  else if s.msixReady fn v then s.emit (.msix fn v)
  else s.setPending fn v true

/-- Send the pending messages of a function that can go. -/
def State.sendPending (s : State) (fn : Nat) : State :=
  (upto (vectorsOf fn)).foldl (fun (s : State) v =>
    if bitAt (s.rn .HIF_MSIX_PBA (4 * fn + v / 64)) (v % 64) && s.msixReady fn v then
      (s.setPending fn v false).emit (.msix fn v)
    else s) s

/-- MSIX_SEND: the oldest message due goes, after the record and the cpl_tail that caused it (R395, R560). -/
def execMsixSend (s : State) : Host.Outcome State Fault Refusal :=
  s.act (match s.hif.due with
    | (fn, v) :: t => ({ s with hif := { s.hif with due := t } } : State).sendMsix fn v
    | [] => s)

/-- MSIX_UNMASK: software clears a vector's mask bit, or the function mask; what is pending goes (R558). -/
def execMsixUnmask (fn : Func) (vector : Option (Fin 256)) (s : State) : Host.Outcome State Fault Refusal :=
  s.act (match vector with
    | some v =>
      if vectorsOf fn.val ≤ v.val then s
      else
        let i := 512 * fn.val + 2 * v.val + 1
        (s.wn .HIF_MSIX_TABLE i (putBits (s.rn .HIF_MSIX_TABLE i) 32 32 0)).sendPending fn.val
    | none =>
      ({ s with hif := { s.hif with msixMask := s.hif.msixMask.filter (· ≠ fn.val) } } : State).sendPending fn.val)

/-- PACKAGE_EVENT_VECTOR: an event bit has set; vector 0 of the physical function fires (R559). -/
def execPackageEventVector (s : State) : Host.Outcome State Fault Refusal :=
  s.act (if s.pkgEvent then ({ s with pkgEvent := false } : State).sendMsix 0 0 else s)

end Sys2Proof.Machine
end

