-- ==== Sys2Proof/Machine/Context.lean ====
section
/-! DEFINITION. Machine/Context.lean: contexts, their rings and completion records, batch descriptors, reservation, pre-emption
and accounting (R387 to R417). -/

namespace Sys2Proof.Machine

/-! ## Contexts (R387, R388) -/

def State.setCtx (s : State) (x : CtxState) : State := { s with ctx := x }

/-- Change a ring's enable bit. -/
def State.ringOn (s : State) (c : Nat) (b : Bool) : State := s.put CTX_RING_CONFIG.enable c (if b then 1 else 0)

/-- Show how many contexts exist (R417). -/
def State.showContexts (s : State) : State :=
  s.put CTX_STATUS.contexts 0 ((upto 31).filter s.ctxExists).length

/-- The structures of a context are as at reset, and so are its windows (R388, R484). -/
def State.resetWindows (s : State) (c : Nat) : State :=
  let s := s.clearRegs fun r i => r.info.vis = .ctx && i / r.inner = c
  let s := ((s.setStp c {}).setNm c {}).setFin c {}
  (s.setFlt { s.flt with sent := spSet [] s.flt.sent c [] }).setRing c {}

/-- End a CTX_ADMIN command. -/
def State.endAdmin (s : State) (status : Nat) : State :=
  (s.put CTX_ADMIN_STATUS.status 0 status).put CTX_ADMIN_STATUS.busy 0 0
/-- A write to CTX_ADMIN: ignored while a command is in progress (R417), else taken at the tick. -/
def State.admin (s : State) (fn : Func) (cmd : Instr) : State :=
  s.pfWrite fn fun s => if s.flag CTX_ADMIN_STATUS.busy then s else (s.put CTX_ADMIN_STATUS.busy 0 1).sampleRow 9 64 cmd

/-- CTX_CREATE: BUSY as R388 says; a number that is no context or no function is malformed (DEDUCED, log entry 31). -/
def State.applyCtxCreate (ctx function : Fin 32) (s : State) : State :=
  let c := ctx.val
  if !s.leads then s.endAdmin stNOT_LEAD
  else if c = 31 ∨ 16 < function.val then s.endAdmin stBAD_DESCRIPTOR
  else if s.ctxExists c || (decide (1 ≤ function.val) && (upto 31).any fun d => s.isFnOf function.val d) then s.endAdmin stBUSY
  else
    let s := s.resetWindows c
    ((s.put CTX_CONFIG.function c function.val).put CTX_CONFIG.exists c 1).showContexts.endAdmin stOK
def execCtxCreate (fn : Func) (ctx function : Fin 32) (s : State) : Host.Outcome State Fault Refusal :=
  s.act (s.admin fn (.ctxCreate fn ctx function))

/-- Claims shown and a request's end: its command completes with OK, its claims run for 1,000 µs more (R404). -/
def State.endRequest (s : State) (r : PreReq) : State :=
  let s := s.setCtx { s.ctx with
    reqs := dropFirst (fun x => x = r) s.ctx.reqs
    claims := s.ctx.claims.map fun x =>
      if x.until_ = 0 ∧ some x.ctx = r.claimant ∧ x.region ∈ r.named then { x with until_ := s.now + usTicks 1000 } else x }
  (match r.iss with
    | some i => s.complete i 0x0C stOK
    | none => s).showClaims

/-- Claim the regions named for a requester, as they are unbound; one already claimed keeps its claimant (DEDUCED, log entry 32). -/
def State.claim (s : State) (r : PreReq) (ps : List Nat) : State :=
  match r.claimant with
  | some c =>
    (ps.foldl (fun (s : State) p =>
      if p ∈ r.named ∧ !(s.ctx.claims.any fun x => x.region = p) = true then
        s.setCtx { s.ctx with claims := s.ctx.claims ++ [{ region := p, ctx := c }] }
      else s) s).showClaims
  | none => s

/-- A holder's regions are free: they are claimed, and the requests that waited for it alone end. -/
def State.holderFreed (s : State) (c : Nat) (ps : List Nat) : State :=
  s.ctx.reqs.foldl (fun (s : State) r =>
    if c ∈ r.holders then
      let r' : PreReq := { r with holders := r.holders.filter (· ≠ c) }
      let s := (s.setCtx { s.ctx with reqs := replaceFirst (fun x => x = r) (fun _ => r') s.ctx.reqs }).claim r ps
      if r'.holders.isEmpty then s.endRequest r' else s
    else s) s

/-- DESTROY (R388): regions flushed, saves discarded, tallies poisoned, rings disabled; page and extent owners stay. Commands of
the context that wait or run at the binderies go with it (DEDUCED, log entry 92). -/
def State.destroyCtx (s : State) (c : Nat) : State :=
  let s := (s.bnd.ops.filter fun o => o.req.ctx = c).foldl (fun (s : State) o => s.abandonLoad o stFLUSHED) s
  let s := s.setBnd { s.bnd with waits := s.bnd.waits.filter fun r => r.ctx ≠ c }
  let ps := s.regionsOf c
  let s := ps.foldl (fun (s : State) p => s.flushRegion p) s
  let s := s.setCtx { s.ctx with
    preempts := s.ctx.preempts.filter fun q => q.ctx ≠ c
    claims := s.ctx.claims.filter fun x => x.ctx ≠ c
    reqs := s.ctx.reqs.filter fun r => r.claimant ≠ some c }
  let s := (s.holderFreed c ps).showClaims
  let s := ((s.dropTallies c).stopSentinel c).stopMovers c
  let s := ((s.setStp c {}).put CTX_STEP_STATE.state c ssIdle).ringOn c false
  ((s.setRing c {}).wn .CTX_PSTATE c 0).put CTX_CONFIG.exists c 0 |>.showContexts

/-- CTX_DESTROY. -/
def State.applyCtxDestroy (ctx : Fin 32) (s : State) : State :=
  if !s.leads then s.endAdmin stNOT_LEAD
  else if ctx.val = 31 ∨ s.ctxExists ctx.val = false then s.endAdmin stBAD_DESCRIPTOR
  else (s.destroyCtx ctx.val).endAdmin stOK
def execCtxDestroy (fn : Func) (ctx : Fin 32) (s : State) : Host.Outcome State Fault Refusal :=
  s.act (s.admin fn (.ctxDestroy fn ctx))

/-! ## The rings (R389 to R394) -/

/-- CTX_RING_CONFIG_WRITE (R389): polling starts, and a size is judged, at the tick. -/
def State.applyCtxRingConfigWrite (ctx : Ctx) (value : Word) (s : State) : State :=
  let c := ctx.val
  let v := value.toNat
  let bad := decide (8 < bits v 3 0) || decide (8 < bits v 7 4)
  let was := s.flag CTX_RING_CONFIG.enable c
  let s := s.wn .CTX_RING_CONFIG c (v % 2 ^ 29)
  if bitAt v 20 then
    if bad then (s.ringOn c false).put CTX_PSTATE.ring_fault c 1
    else
      let s := s.put CTX_PSTATE.ring_fault c 0
      if was then s else s.setRing c { s.ring c with lastPoll := s.now, polled := false, cells := [] }
  else s
def execCtxRingConfigWrite (fn : Func) (ctx : Ctx) (value : Word) (s : State) : Host.Outcome State Fault Refusal :=
  s.act (s.fnSample fn .CTX_RING_CONFIG ctx.val ctx.val (.ctxRingConfigWrite fn ctx value))

/-- Is a context the reserving context of a region (R391, R402, R404) (DEDUCED, log entry 163)? -/
def State.holdsReserved (s : State) (c : Nat) : Bool := (upto 16).any fun p => s.reserver p = c

/-- Bytes of a context's rings, and records of its completion ring (R389). -/
def State.subBytes (s : State) (c : Nat) : Nat := 2 ^ (12 + s.get CTX_RING_CONFIG.sub_size c)
def State.cplRecords (s : State) (c : Nat) : Nat := 2 ^ (12 + s.get CTX_RING_CONFIG.cpl_size c) / 32

/-- Would a read of n bytes of the submission ring from offset o be held (R284, R503, R525)? -/
def State.ringBlocked (s : State) (c o n : Nat) : Bool :=
  let size := s.subBytes c
  let base := s.rn .CTX_RING_BASE c
  let first := min n (size - o % size)
  s.engHeld c (base + o % size) first || s.engHeld c base (n - first)

/-- Read n bytes of the submission ring from offset o, wrapping at its end. -/
def State.readRing (s : State) (c o n : Nat) : State × Option (List Byte) :=
  let size := s.subBytes c
  let base := s.rn .CTX_RING_BASE c
  let first := min n (size - o % size)
  match s.engRead c (base + o % size) first with
  | (s, some a) =>
    match s.engRead c base (n - first) with
    | (s, some b) => (s, some (a ++ b))
    | (s, none) => (s, none)
  | (s, none) => (s, none)

/-- RING_POLL: the control block is read, first at the tick after the ring is enabled; waiting cells are fetched, up to 4 KiB (R391).
A read that fails, as over a link that is down (R544), fetches nothing; while one is held the poll waits (R284). -/
def execRingPoll (ctx : Ctx) (s : State) : Host.Outcome State Fault Refusal :=
  let c := ctx.val
  let q := s.ring c
  let gap := if s.holdsReserved c || !q.polled then 1 else max 1 (s.get CTX_RING_CONFIG.poll c)
  s.act (if s.ctxExists c && s.flag CTX_RING_CONFIG.enable c && decide (q.lastPoll + gap ≤ s.now) &&
        !s.engHeld c (s.rn .CTX_CTRL_BASE c) 64 then
      match (s.setRing c { q with lastPoll := s.now, polled := true }).engRead c (s.rn .CTX_CTRL_BASE c) 64 with
      | (t, some cb) =>
        let tail := leNat (cb.take 8)
        let t := t.setRing c { t.ring c with cplHead := leNat ((cb.drop 16).take 8) }
        let have_ := t.rn .CTX_SUB_HEAD c + q.cells.length / 64
        let n := 64 * min (tail - have_) (min 64 (t.subBytes c / 64))
        if t.ringBlocked c (64 * have_) n then s
        else match t.readRing c (64 * have_) n with
        | (t, some bs) => t.setRing c { t.ring c with cells := (t.ring c).cells ++ bs }
        | (t, none) => t
      | (t, none) => t
    else s)

/-- Cells of each command (R393). -/
def cmdCells (op : Nat) : Nat := if op = 1 then 2 else if op = 8 then 3 else 1

/-- Commands that need a region (R409). -/
def needsRegion (op : Nat) : Bool := op = 1 || op = 2 || op = 4 || op = 5 || op = 6 || op = 8 || op = 9 || op = 0x0C

/-- Is the command at the head of the ring held there (R312, R338, R409)? -/
def State.headHeld (s : State) (c op : Nat) (record : List Byte) : Bool :=
  (needsRegion op && decide (2 ≤ s.get CTX_PSTATE.state c)) || (op = 1 && s.stepHeld c) ||
    (op = 2 && (s.stp c).reshard.isNone && s.sstate c ≠ ssIdle &&
      !(bitAt (recNum record 2 1) 0 && s.sstate c = ssRunning))

/-- Take the command at the head of the ring (R392, R394); none if the ring moves no further now (DEDUCED, log entry 91). -/
def State.takeOne (s : State) (c : Nat) : Option State :=
  let q := s.ring c
  let n := leNat ((q.cells.drop 1).take 1)
  if s.flag CTX_RING_CONFIG.enable c = false ∨ q.cells.length < 64 ∨ (q.takeTick = s.now ∧ 8 ≤ q.takeCount) then none
  else if n = 0 ∨ 4 < n then
    some ((((s.setRing c { q with cells := [] }).ringOn c false).put CTX_PSTATE.ring_fault c 1).postCtx c stBAD_DESCRIPTOR
      (maskOf (s.regionsOf c)))
  else
    let frame := q.cells.take (64 * n)
    let op := leNat (frame.take 1)
    let flags := leNat ((frame.drop 2).take 1)
    let body := frame.drop 16
    if q.cells.length < 64 * n ∨ 256 ≤ q.inflight + q.taken.length ∨ s.cplRecords c ≤ s.rn .CTX_CPL_TAIL c - q.cplHead ∨
        (bitAt flags 1 = true ∧ q.inflight + q.taken.length ≠ 0) ∨ s.headHeld c op body = true then none
    else
      let t : TakenCmd := { opcode := op, cookie := BitVec.ofNat 64 (leNat ((frame.drop 8).take 8)), irq := bitAt flags 0
                            fence := bitAt flags 1, body := body, tick := s.now }
      let q' : RingState := { q with
        cells := q.cells.drop (64 * n), takeTick := s.now, takeCount := (if q.takeTick = s.now then q.takeCount else 0) + 1 }
      let s := s.bump .CTX_SUB_HEAD c n
      if op = 0 ∨ 0x0D < op ∨ n ≠ cmdCells op ∨ 4 ≤ flags ∨ leNat ((frame.drop 3).take 5) ≠ 0 then
        some ((s.setRing c q').post c
          { kind := 0, status := stBAD_DESCRIPTOR, aux := op, tag := t.cookie.toNat, irq := t.irq })
      else if !s.led then
        some ((s.setRing c q').post c { kind := 0, status := stNOT_LEAD, aux := op, tag := t.cookie.toNat, irq := t.irq })
      else some (s.setRing c { q' with taken := q'.taken ++ [t] })

/-- Take commands until the ring moves no further. -/
def State.takeAll (s : State) (c : Nat) : Nat → State
  | 0 => s
  | f + 1 =>
    match s.takeOne c with
    | some s' => s'.takeAll c f
    | none => s

/-- RING_COMMAND_TAKE: up to 8 commands; sub_head goes back to the control block. -/
def execRingCommandTake (ctx : Ctx) (s : State) : Host.Outcome State Fault Refusal :=
  let c := ctx.val
  s.act (let s' := s.takeAll c 9
    if s'.rn .CTX_SUB_HEAD c = s.rn .CTX_SUB_HEAD c then s'
    else s'.engWrite c (s.rn .CTX_CTRL_BASE c + 8) (natLe 8 (s'.rn .CTX_SUB_HEAD c)))

/-- NOP. -/
def State.applyNop (iss : Issuer) (s : State) : State := (s.began iss 0x0D).complete iss 0x0D stOK
def execNop (iss : Issuer) (s : State) : Host.Outcome State Fault Refusal := s.act (s.sampleHost iss (.nop iss))

/-! ## Completion records (R395 to R398) -/

/-- The 32 bytes of a record with its phase. -/
def CplRec.bytes (r : CplRec) (phase : Nat) : List Byte :=
  natLe 8 r.tag ++ natLe 1 r.kind ++ natLe 1 r.status ++ natLe 2 r.count ++ natLe 4 r.aux ++ natLe 8 r.value ++ natLe 7 0 ++
    natLe 1 phase

/-- May the engine write n bytes at an address for a context? -/
def State.writable (s : State) (c a n : Nat) : Bool :=
  if h : c < 31 then
    match s.route (.agent ⟨c, h⟩) (a / 64 * 64) (ceilDiv (a + n) 64 * 64 - a / 64 * 64) true with
    | .to _ => true
    | _ => false
  else false

/-- COMPLETION_RECORD_WRITE: the oldest record goes to the ring, then cpl_tail, then the message falls due; while the ring is
full or its memory is out of reach the record stays queued (R398, R544). -/
def execCompletionRecordWrite (ctx : Ctx) (s : State) : Host.Outcome State Fault Refusal :=
  let c := ctx.val
  let q := s.ring c
  let n := s.cplRecords c
  let tail := s.rn .CTX_CPL_TAIL c
  let at_ := s.rn .CTX_CPL_BASE c + 32 * (tail % n)
  s.act (match q.queue with
    | r :: rest =>
      if n ≤ tail - q.cplHead ∨ s.writable c at_ 32 = false ∨ s.writable c (s.rn .CTX_CTRL_BASE c + 24) 8 = false then s
      else
        let s := (s.setRing c { q with queue := rest }).engWrite c at_ (r.bytes (1 - tail / n % 2))
        let s := (s.bump .CTX_CPL_TAIL c).engWrite c (s.rn .CTX_CTRL_BASE c + 24) (natLe 8 (tail + 1))
        if r.irq ∨ r.kind = 2 ∨ r.kind = 3 then
          let m := (s.get CTX_CONFIG.function c, s.get CTX_RING_CONFIG.vector c)
          { s with hif := { s.hif with due := s.hif.due ++ [m] } }
        else s
    | [] => s)

/-! ## Batch descriptors (R399, R400) -/

/-- The image of a batch arm. -/
def batchImage (img : List Byte) (src tag : Nat) : List Byte :=
  let v := putBits (putBits (leNat img) 111 64 src) 17 17 1
  let d : FchDesc := { img := img }
  natLe 128 (if d.kind = 1 ∨ d.kind = 2 then putBits v 627 612 tag else v)

/-- An item that is refused, or is none of the step bind set's: at the next tick its record, and the set halts (R400). -/
def State.badItem (s : State) (c p n : Nat) : State := s.sample 9 (s.ctxSrc c) (.badItem c p n)
def State.applyBadItem (s : State) (c p n : Nat) : State := (s.postEvent c stBAD_DESCRIPTOR (p % 16) 1 n).haltSet c

/-- Drop the unused items at the head of the list. -/
def skipUnused : List (List Byte) → Nat → List (List Byte) × Nat
  | e :: t, n => if leNat ((e.drop 10).take 1) = 0xFF then skipUnused t (n + 1) else (e :: t, n)
  | [], n => ([], n)

/-- BATCH_ITEM_ARM: the next used item arms its slot once the slot's shadow is empty. -/
def execBatchItemArm (ctx : Ctx) (s : State) : Host.Outcome State Fault Refusal :=
  let c := ctx.val
  let (l, n) := skipUnused (s.stp c).items (s.stp c).item
  s.act (match l with
    | e :: rest =>
      let src := leNat (e.take 8)
      let p := leNat ((e.drop 8).take 1)
      let ch := leNat ((e.drop 9).take 1)
      let sl := leNat ((e.drop 10).take 1)
      let i := fslotIx p ch sl
      if s.sstate c ≠ ssRunning || decide (2 ≤ s.get CTX_PSTATE.state c) then s
      else if 16 ≤ p ∨ 16 ≤ ch ∨ 8 ≤ sl ∨ 2 ^ 48 ≤ src ∨ leNat (e.drop 11) ≠ 0 ∨ p ∉ s.stepSet c then
        (s.setStp c { s.stp c with items := [], item := n }).badItem c p n
      else if (s.fslot i).shadow.isSome then s.setStp c { s.stp c with items := l, item := n }
      else
        let img := batchImage (s.slotImage i) src ((s.rn .CTX_TAG_BASE c + n / 4) % 65536)
        let r := s.armSlot i img
        if r.2 = stOK then r.1.setStp c { r.1.stp c with items := rest, item := n + 1 }
        else (r.1.setStp c { r.1.stp c with items := [], item := n }).badItem c p n
    | [] => s.setStp c { s.stp c with items := l, item := n })

/-! ## Reservation (R402) -/

/-- CTX_REGION_RESERVE_WRITE, judged at the tick. -/
def State.applyCtxRegionReserveWrite (p : Region) (value : Word) (s : State) : State :=
  let v := value.toNat % 32
  if v = 0x1F ∨ s.rstate p.val = rsUnbound ∨ s.rctx p.val = v then
    let s := s.put CTX_REGION_RESERVE.context p.val v
    s.put CTX_STATUS.reserved_regions 0 (maskOf ((upto 16).filter fun q => s.reserver q ≠ 0x1F))
  else s
def execCtxRegionReserveWrite (fn : Func) (p : Region) (value : Word) (s : State) : Host.Outcome State Fault Refusal :=
  s.act (s.pfSample fn (.ctxRegionReserveWrite fn p value))

/-! ## Pre-emption (R403 to R411) -/

/-- Start the pre-emption of a holder at T0 (R407); one in progress goes on. -/
def State.startPreempt (s : State) (c : Nat) : State :=
  if s.ctx.preempts.any fun q => q.ctx = c then s
  else
    let ps := s.regionsOf c
    let s := s.setCtx { s.ctx with preempts := s.ctx.preempts ++ [{ ctx := c, regions := ps, t0 := s.now }] }
    ps.foldl (fun (s : State) p => s.parkFetchers p true) (s.put CTX_PSTATE.state c 2)

/-- The contexts that hold any of the regions. -/
def State.holdersOf (s : State) (ps : List Nat) : List Nat :=
  (upto 31).filter fun c => ps.any fun p => s.rctx p = c && s.rstate p ≠ rsUnbound

/-- Must a pre-emption of a holder wait: a bind-family command runs on a region of it, which completes first (R416), or it is being
restored (DEDUCED, log entry 86)? -/
def State.preemptWaits (s : State) (c : Nat) : Bool := (s.regionsOf c).any s.regionBusy || s.get CTX_PSTATE.state c = 5

/-- PREEMPT (R403, R404): every holder is pre-empted whole, in every region it holds. One that must wait is judged again at the next
tick. -/
def State.applyPreempt (iss : Issuer) (regions : BitVec 16) (s : State) : State :=
  let ps := unmask 16 regions.toNat
  let hs := s.holdersOf ps
  let me := iss.ctxNum.getD 0x1F
  let prio (c : Nat) : Nat := s.get CTX_CONFIG.priority c
  if hs.any s.preemptWaits then s.sampleHost iss (.preempt iss regions)
  else
    let s := s.began iss 0x0C
    if hs.any fun c => s.holdsReserved c || decide (prio me ≤ prio c) || !s.flag CTX_CONFIG.preemptible c then
      s.complete iss 0x0C stBUSY
    else
      let r : PreReq := { iss := some iss, claimant := some me, named := ps, holders := hs }
      let s := s.setCtx { s.ctx with reqs := s.ctx.reqs ++ [r] }
      let s := (hs.foldl (fun (s : State) c => s.startPreempt c) s).claim r (ps.filter fun p => s.rstate p = rsUnbound)
      if hs.isEmpty then s.endRequest r else s
def execPreempt (iss : Issuer) (regions : BitVec 16) (s : State) : Host.Outcome State Fault Refusal :=
  s.act (if s.ringHeld iss then s else s.sampleHost iss (.preempt iss regions))

/-- CTX_PREEMPT_REQUEST: the physical function pre-empts a context, unless that holds a reserved region (R404); only a lead
accepts it (R41). -/
def State.applyCtxPreemptRequest (fn : Func) (ctx : Fin 32) (s : State) : State :=
  let c := ctx.val
  if s.leads = false ∨ s.ctxExists c = false ∨ c = 31 ∨ (s.regionsOf c).isEmpty ∨ s.holdsReserved c = true then s
  else if s.preemptWaits c then s.sampleRow 9 64 (.ctxPreemptRequest fn ctx)
  else s.startPreempt c
def execCtxPreemptRequest (fn : Func) (ctx : Fin 32) (s : State) : Host.Outcome State Fault Refusal :=
  s.act (s.pfSample fn (.ctxPreemptRequest fn ctx))

/-- The pre-emption of a context, and its change. -/
def State.preOf (s : State) (c : Nat) : Option Preempt := s.ctx.preempts.find? fun q => q.ctx = c
def State.setPre (s : State) (q : Preempt) : State :=
  s.setCtx { s.ctx with preempts := replaceFirst (fun x => x.ctx = q.ctx) (fun _ => q) s.ctx.preempts }

/-- Is a core at rest (R407): it has yielded, or nothing of it issues, runs or finishes; its staging has been sent? -/
def State.atRest (s : State) (k : Nat) : Bool :=
  let c := s.core k
  (c.yielded.isSome || (c.handler.isNone && c.enginesIdle &&
      c.entries.all fun m => m.state = .gathering || m.state = .ready || m.state = .nullRetire)) &&
    !(s.noc.tokens.any fun t => match t.src with
      | .core j .. => j = k && (t.phase = .waiting || decide (0 < t.unsent))
      | _ => false)

/-- Is a token of a region under way (R407)? After a forced stop not one whose bytes stay with its sender, in the spill area or in
staging, nor a packet that a fork holds (R410). -/
def State.underWay (s : State) (p : Nat) (forced : Bool) (t : Token) : Bool :=
  (regionOf t.dst = p || (match t.src with | .core k .. => regionOf k = p | _ => false)) &&
    ((t.phase = .flying && (!forced || t.stalled.isNone)) ||
      (t.phase = .admitted && !s.parkedToken t && (!forced || decide (t.spilt + t.unsent = 0))))

/-- Has the traffic of a region landed: no token on its way, no packet out, no tally operation of its cores (R407, R410)? -/
def State.landed (s : State) (p : Nat) (forced : Bool) : Bool :=
  !(s.noc.tokens.any (s.underWay p forced)) && s.fetchersStill p && !(s.hrd.msgs.any fun m => !m.agent && regionOf m.core = p)

/-- The yield-point condition (R407); its 64 NCLK are the row's (DEDUCED, log entry 87). -/
def State.yieldReady (s : State) (q : Preempt) : Bool :=
  q.regions.all fun p => s.landed p false && (s.cores.all fun e => e.1 / 256 ≠ p || s.atRest e.1) &&
    !(s.noc.combine.any fun x => x.router / 16 = p) &&
    !(s.noc.tokens.any fun t => regionOf t.dst = p && !t.staged.isEmpty)

/-- Every core of a region is held with its state kept. -/
def State.holdCores (s : State) (p : Nat) (on : Bool) : State :=
  { s with cores := s.cores.map fun e => if e.1 / 256 = p then (e.1, { e.2 with stopped := on }) else e }

/-- The yield point: slot 8 of each channel begins to write (R408). -/
def State.takeYield (s : State) (q : Preempt) : State :=
  (q.regions.foldl (fun (s : State) p => s.holdCores p true) (s.put CTX_PSTATE.state q.ctx 3)).put CTX_PSTATE.forced q.ctx 0

/-- YIELD_POINT: every core at rest. -/
def execYieldPoint (ctx : Ctx) (s : State) : Host.Outcome State Fault Refusal :=
  s.act (match s.preOf ctx.val with
    | some q => if s.get CTX_PSTATE.state ctx.val = 2 ∧ q.forced = none ∧ s.yieldReady q = true then s.takeYield q else s
    | none => s)

/-- The tick of CTX_PREEMPT_DEADLINE. -/
def State.preemptLimit (s : State) (q : Preempt) : Nat :=
  q.t0 + usTicks (max 1 (min 1000 (s.get CTX_PREEMPT_DEADLINE.limit_us q.ctx)))

/-- PREEMPT_DEADLINE: the forced tick, a timer of class 11; the yield point is taken if its condition holds at that tick (R410)
(DEDUCED, log entry 88). -/
def State.applyPreemptDeadline (ctx : Ctx) (s : State) : State :=
  match s.preOf ctx.val with
  | some q =>
    if s.get CTX_PSTATE.state ctx.val = 2 ∧ q.forced = none ∧ s.preemptLimit q ≤ s.now then
      if s.yieldReady q then s.takeYield q
      else q.regions.foldl (fun (s : State) p => s.holdCores p true) (s.setPre { q with forced := some s.now })
    else s
  | none => s
def execPreemptDeadline (ctx : Ctx) (s : State) : Host.Outcome State Fault Refusal :=
  s.act (match s.preOf ctx.val with
    | some q => if s.preemptLimit q ≤ s.now + 1 then s.sampleOnce 11 (q.regions.headD 0) (.row (.preemptDeadline ctx)) else s
    | none => s)

/-- FORCED_SAVE_START: the first tick after the traffic has landed (R410). -/
def execForcedSaveStart (ctx : Ctx) (s : State) : Host.Outcome State Fault Refusal :=
  let c := ctx.val
  s.act (match s.preOf c with
    | some q =>
      if s.get CTX_PSTATE.state c = 2 ∧ ((q.forced.map fun t => decide (t < s.now)).getD false) = true ∧
          q.regions.all (fun p => s.landed p true) = true then
        ((s.put CTX_PSTATE.state c 3).put CTX_PSTATE.forced c 1).bump .CTX_FORCED c
      else s
    | none => s)

/-- Save one region of a pre-emption. -/
def State.saveOne (s : State) (q : Preempt) (p : Nat) : State × Preempt :=
  let k := (q.regions.filter fun x => decide (x < p)).length
  let r := s.saveRegion q.ctx k p q.forced.isSome
  let q' : Preempt := { q with saved := q.saved ++ [r.2] }
  ((r.1.setPre q').bump .CTX_ACC_SAVE_BYTES q.ctx r.2.bytes, q')

/-- Does a memory port hold a page of a region's save block (R503, R525)? Its save goes on later. -/
def State.saveHeld (s : State) (q : Preempt) (p : Nat) : Bool :=
  (!s.mt.recal.isEmpty || decide (1 ∈ s.pwr.switching)) &&
    s.rangesHeld [(s.rn .CTX_SAVE_BASE q.ctx + saveBlock * (q.regions.filter fun x => decide (x < p)).length, saveBlock)]

/-- FORCED_REGION_SAVED: a die saves its regions one at a time, in ascending number (R411). -/
def execForcedRegionSaved (ctx : Ctx) (die : Fin 4) (s : State) : Host.Outcome State Fault Refusal :=
  s.act (match s.preOf ctx.val with
    | some q =>
      let left := q.regions.filter fun p => p / 4 = die.val && !(q.saved.any fun r => r.region = p)
      match left with
      | p :: _ =>
        if s.get CTX_PSTATE.state ctx.val = 3 ∧ q.forced.isSome = true ∧ s.saveHeld q p = false then (s.saveOne q p).1 else s
      | [] => s
    | none => s)

/-- PREEMPT_SAVE_COMPLETE: the last write is acknowledged; at the tick the regions are unbound in flush mode, and claimed for the
requests that waited (R404, R408) (DEDUCED, log entry 89). -/
def State.applyPreemptSaveComplete (ctx : Ctx) (s : State) : State :=
  match s.preOf ctx.val with
  | some q =>
    if s.get CTX_PSTATE.state ctx.val ≠ 3 ∨ q.gone = true ∨ (q.forced.isSome = true ∧ q.saved.length < q.regions.length) then s
    else
      let r := if q.forced.isSome then (s, q) else q.regions.foldl (fun (x : State × Preempt) p => x.1.saveOne x.2 p) (s, q)
      let s := r.1.setPre { r.2 with gone := true }
      let s := q.regions.foldl (fun (s : State) p => (s.emptyRegion p).flushRegion p) s
      ((s.ctx.reqs.filter fun x => q.ctx ∈ x.holders).foldl (fun (s : State) x => s.claim x q.regions) s).sample 10
        (q.regions.headD 0) (.preempted q.ctx)
  | none => s
def execPreemptSaveComplete (ctx : Ctx) (s : State) : Host.Outcome State Fault Refusal :=
  s.act (match s.preOf ctx.val with
    | some q =>
      if s.get CTX_PSTATE.state ctx.val = 3 ∧ q.gone = false ∧
          (if q.forced.isSome then decide (q.regions.length ≤ q.saved.length) else !(q.regions.any (s.saveHeld q))) = true then
        s.sampleOnce 10 (q.regions.headD 0) (.row (.preemptSaveComplete ctx))
      else s
    | none => s)

/-- The router clear has ended: the record of kind 3, the requests that waited for the context alone complete (R404, R408). -/
def State.applyPreempted (s : State) (c : Nat) : State :=
  match s.preOf c with
  | some q =>
    let s := ((s.put CTX_PSTATE.state c 4).showPstate c).wn .CTX_LAST_PREEMPT_TICKS c (s.now - q.t0)
    ((s.postCtx c stPREEMPTED (maskOf q.regions)).bump .CTX_PREEMPTS c).holderFreed c q.regions
  | none => s

/-- CLAIM_EXPIRY: 1,000 µs after the completion (R404). -/
def State.applyClaimExpiry (p : Region) (s : State) : State :=
  (s.setCtx { s.ctx with
    claims := s.ctx.claims.filter fun x => !(x.region = p.val && x.until_ ≠ 0 && decide (x.until_ ≤ s.now)) }).showClaims
def execClaimExpiry (p : Region) (s : State) : Host.Outcome State Fault Refusal :=
  s.act (if s.ctx.claims.any fun x => x.region = p.val && x.until_ ≠ 0 && decide (x.until_ ≤ s.now + 1) then
      s.sampleOnce 11 p.val (.row (.claimExpiry p))
    else s)

/-! ## Resume (R414) -/

/-- The bind commands of a resume: one for each handle, for a portable folio one for each region. -/
def State.resumeCmds (s : State) (q : Preempt) : List BindReq :=
  let portable (h : Nat) : Bool := ((s.folio h).map (·.portable)).getD false
  let first := q.saved.zipIdx.filter fun r => portable r.1.handle || !((q.saved.take r.2).any fun x => x.handle = r.1.handle)
  first.map fun r =>
    let ps := if portable r.1.handle then [r.1.region] else (q.saved.filter fun x => x.handle = r.1.handle).map (·.region)
    { ctx := q.ctx, opcode := 4, named := ps, handle := r.1.handle, target := r.1.region, resume := true }

/-- CONTEXT_RESUME: every region it held is free for it and hold is 0: the saved handle is bound again. A bind that a fence
refuses leaves the context pre-empted (DEDUCED, log entry 33). -/
def State.applyContextResume (ctx : Ctx) (s : State) : State :=
  let c := ctx.val
  match s.preOf c with
  | some q =>
    let cmds := s.resumeCmds q
    let ok (r : BindReq) : Bool := match s.folio r.handle with
      | some f => s.bindStatus r f = stOK && !(r.named.any s.regionBusy)
      | none => false
    if s.get CTX_PSTATE.state c = 4 ∧ s.flag CTX_CONFIG.hold c = false ∧ cmds.all ok = true ∧
        q.regions.all (fun p => s.rstate p = rsUnbound && (s.reserver p = 0x1F || s.reserver p = c) && !s.claimedByOther c p) = true
    then cmds.foldl (fun (s : State) r => s.bindCmd r) (s.put CTX_PSTATE.state c 5)
    else s
  | none => s
def execContextResume (ctx : Ctx) (s : State) : Host.Outcome State Fault Refusal :=
  s.act (if s.get CTX_PSTATE.state ctx.val = 4 then s.sampleOnce 9 (s.ctxSrc ctx.val) (.row (.contextResume ctx)) else s)

/-- A region that was halted enters halted again; one with a lost core block does so and reports FENCED (R416). -/
def State.haltLost (s : State) (q : Preempt) : State :=
  let s := (q.saved.filter fun r => r.halted).foldl (fun (s : State) r => s.haltCores r.region) s
  (q.regions.filter fun p => q.lost.any fun k => regionOf k = p).foldl (fun (s : State) p =>
    (s.haltCtx p stFENCED).voteBit q.ctx vbFence) s

/-- Is a context restored into every region it held? -/
def State.allRestored (s : State) (q : Preempt) : Bool :=
  s.get CTX_PSTATE.state q.ctx = 5 && q.regions.all fun p => s.rctx p = q.ctx && s.rstate p = rsBound

/-- CONTEXT_RESTORE_COMPLETE: cores restart, slots are unparked, held barks are delivered, a deadline that has passed closes the step,
then the record (R414, R416). -/
def State.applyContextRestoreComplete (ctx : Ctx) (s : State) : State :=
  let c := ctx.val
  match s.preOf c with
  | some q =>
    if s.allRestored q then
      let s := q.regions.foldl (fun (s : State) p => s.holdCores p false) s
      let s := s.setCtx { s.ctx with preempts := s.ctx.preempts.filter fun x => x.ctx ≠ c }
      let s := q.regions.foldl (fun (s : State) p => s.parkFetchers p false) (s.put CTX_PSTATE.state c 1)
      let s := s.bump .CTX_ACC_SAVE_BYTES c ((q.saved.map fun r => r.bytes).foldl (· + ·) 0)
      ((((s.haltLost q).deliverHeld c).applyStepDeadline ctx).showPstate c).postCtx c stOK (maskOf q.regions)
    else s
  | none => s
def execContextRestoreComplete (ctx : Ctx) (s : State) : Host.Outcome State Fault Refusal :=
  s.act (match s.preOf ctx.val with
    | some q => if s.allRestored q then s.sampleOnce 10 (q.regions.headD 0) (.row (.contextRestoreComplete ctx)) else s
    | none => s)

/-! ## Accounting (R415) -/

/-- Add what a core's busy counter has grown by since the last tick. -/
def State.accountCore (s : State) (k : Nat) : State :=
  let t := s.rn .CORE_TENSOR_BUSY k
  let v := s.rn .CORE_VECTOR_BUSY k
  let old := spGet (0, 0) s.ctx.acc k
  let c := s.rctx (regionOf k)
  if (t, v) = old then s
  else
    ((s.bump .CTX_ACC_TENSOR c (t - old.1)).bump .CTX_ACC_VECTOR c (v - old.2)).setCtx
      { s.ctx with acc := spSet (0, 0) s.ctx.acc k (t, v) }

/-- ACCOUNTING_TICK: what the tick adds; bytes are added as they move (DEDUCED, log entry 90). -/
def execAccountingTick (s : State) : Host.Outcome State Fault Refusal :=
  s.act ((upto 16).foldl (fun (s : State) p =>
    let e := s.rn .PWR_REGION_ENERGY_UJ p
    let d := e - spGet 0 s.ctx.accE p
    let s := s.setCtx { s.ctx with accE := spSet 0 s.ctx.accE p e }
    if s.rctx p < 31 then
      let s := (s.bump .CTX_ACC_REGION_TICKS (s.rctx p)).bump .CTX_ACC_ENERGY_UJ (s.rctx p) d
      (coresOf p).foldl (fun (s : State) k => s.accountCore k) s
    else s) s)

end Sys2Proof.Machine
end

