-- ==== Sys2Proof/Machine/Tier.lean ====
section
/-! DEFINITION. Machine/Tier.lean: the CXL tier (R274 to R286, R562): accesses, the shared pool and its commands, the ports. -/

namespace Sys2Proof.Machine

/-! ## Page moves (R280, R282, R283) -/

/-- Moves a port carries now. -/
def State.portLoad (s : State) (k : Nat) : Nat :=
  (s.mt.moves.filter fun m => m.started && s.pageOnPort m.page k).length

/-- May a waiting move start: every port it uses carries fewer than eight, a fill's slot has been read out, and the fill's own
page is not still being evicted (R280, R283); an eviction waits for its page's fill (R286)? -/
def State.mayStart (s : State) (m : Move) : Bool :=
  let before := s.mt.moves.takeWhile (· ≠ m)
  !m.started && ((upto 2).all fun k => !s.pageOnPort m.page k || decide (s.portLoad k < 8)) &&
  (match m.kind with
    | .fill => !(before.any fun x => x.kind = .evict && (x.page = m.page || (x.slot = m.slot && !x.started)))
    | _ => !(before.any fun x => x.kind = .fill && x.page = m.page))

/-- Write the dirty sub-blocks of a slot to its page, clearing each bit as its read is issued (R283), and count them; one whose read
fails the detection code stays dirty until its page is retired (R271, R285). -/
def State.writeBack (s : State) (i : Nat) : State × Nat :=
  let pg := s.get TIR_SLOT.page i
  (unmask 32 (s.get TIR_SLOT_DIRTY.dirty i)).foldl (fun (x : State × Nat) b =>
    let (s, n) := x
    let a := s.slotBase i + b * 65536
    let o := pg * mib2 + b * 65536
    let s := s.countHbm .MEM_READ_BYTES a 65536
    if s.badIn [(a, 65536)] then (s.detectIn [(a, 65536)], n)
    else
      let s := (cutAt 4096 o 65536).foldl (fun (s : State) c => s.copy (a + (c.1 - o)) (s.cxlKey c.1) c.2) s
      let s := s.put TIR_SLOT_DIRTY.dirty i (putBits (s.get TIR_SLOT_DIRTY.dirty i) b b 0)
      ({ s with mt := { s.mt with poison := cutRange s.mt.poison o (o + 65536) } }, n + 1)) (s, 0)

/-- Put a page into a slot in state filling (R279, R283). -/
def State.fillSlot (s : State) (i pg : Nat) : State :=
  let s := s.emptySlot i
  let s := (s.put TIR_SLOT.page i pg).put TIR_SLOT.owner i (s.extentOwner (pg * mib2))
  (s.put TIR_SLOT.valid i 1).put TIR_SLOT.state i 1

/-- Change a move, and end one. -/
def State.setMove (s : State) (m : Move) (f : Move → Move) : State :=
  { s with mt := { s.mt with moves := replaceFirst (· = m) f s.mt.moves } }
def State.dropMove (s : State) (m : Move) : State := { s with mt := { s.mt with moves := dropFirst (· = m) s.mt.moves } }

/-- An eviction or flush is over (R280, R283): counts, the bytes moved for its context (R415), its commands complete, held
accesses are served from the port. -/
def State.endWriteBack (s : State) (m : Move) : State :=
  let s := s.dropMove m
  let s := s.bump .TIR_WRITEBACK_BYTES 0 (65536 * m.subs)
  let s := if m.kind = .evict then s.bump .TIR_EVICTIONS else s
  let s := match (m.cmds.head?.bind fun c => c.1.ctxNum) with
    | some c => s.bump .CTX_ACC_TIER_BYTES c (65536 * m.subs)
    | none => s
  let s := if m.kind = .evict && decide (s.slotOfPage m.page = some m.slot) then s.emptySlot m.slot else s
  (s.endTier m.cmds stOK).endHeld m.page

/-- Start one move. An eviction or flush reads its dirty sub-blocks. An eviction that waited for its page's fill finds it pinned, or
the slot emptied, as the fill left it (R286). -/
def State.startMove (s : State) (m : Move) : State :=
  match m.kind with
  | .fill => (s.setMove m fun m => { m with started := true, filling := true }).fillSlot m.slot m.page
  | _ =>
    let lost := decide (s.slotOfPage m.page ≠ some m.slot)
    if m.kind = .evict && s.flag TIR_SLOT.pinned m.slot && !lost then ((s.dropMove m).endTier m.cmds stBUSY).endHeld m.page
    else
      let (s, n) := if lost then (s, 0) else (if m.kind = .evict then s.put TIR_SLOT.state m.slot 2 else s).writeBack m.slot
      let m' := { m with started := true, subs := n }
      let s := s.setMove m fun _ => m'
      if n = 0 ∧ (lost ∨ s.get TIR_SLOT_DIRTY.dirty m.slot = 0) then s.endWriteBack m' else s

/-- Start every move that may start, in order of application. -/
def State.startMoves : Nat → State → State
  | 0, s => s
  | f + 1, s =>
    match s.mt.moves.find? s.mayStart with
    | some m => (s.startMove m).startMoves f
    | none => s

def State.runMoves (s : State) : State := s.startMoves (2 * s.mt.moves.length + 2)

/-- Add a move in order of application. -/
def State.addMove (s : State) (m : Move) : State := ({ s with mt := { s.mt with moves := s.mt.moves ++ [m] } } : State)

/-! ## Commands (R280 to R282) -/

/-- The context whose pages a command touches: the issuer's; for the physical function the owner of the page's extent. -/
def State.tierCtx (s : State) (iss : Issuer) (pg : Nat) : Option Nat :=
  let o := s.extentOwner (pg * mib2)
  match iss with
  | .ring c _ _ => if o = c.val then some o else none
  | .reg _ => if o < 31 then some o else none

/-- May a slot be evicted (R282)? -/
def State.victim (s : State) (i : Nat) : Bool :=
  let pg := s.get TIR_SLOT.page i
  s.flag TIR_SLOT.valid i && !s.flag TIR_SLOT.pinned i && s.get TIR_SLOT.state i = 0 && !s.pageBusy pg
    && s.cxlPortUp (pg * mib2)

/-- The slot of greatest age, lower index first. -/
def State.oldest (s : State) : List Nat → Option Nat
  | [] => none
  | i :: t =>
    match s.oldest t with
    | none => some i
    | some j => if s.get TIR_SLOT.age i < s.get TIR_SLOT.age j then some j else some i

/-- The slot a LOAD takes (R282); one whose HBM page is retired or fenced takes none (R272; DEDUCED, log entry 16). -/
def State.chooseSlot (s : State) (c : Nat) : Option Nat :=
  let slots := (upto s.poolSlots).filter fun i => !s.pageFenced (s.get TIR_POOL_BASE.page + i)
  let taken (i : Nat) : Bool := s.mt.moves.any fun m => m.kind = .fill && m.slot = i
  let mine := slots.filter fun i => s.flag TIR_SLOT.valid i && s.get TIR_SLOT.owner i = c && s.get TIR_SLOT.state i = 0
  let under := decide (mine.length < s.get TIR_CTX_QUOTA.slots c)
  match if under then slots.find? fun i => !s.flag TIR_SLOT.valid i && !taken i else none with
  | some i => some i
  | none =>
    match if under then none else s.oldest (mine.filter s.victim) with
    | some i => some i
    | none => s.oldest (slots.filter s.victim)

/-- The eviction of a clean slot frees it at once (R283). -/
def State.freeSlot (s : State) (i : Nat) : State := (s.bump .TIR_EVICTIONS).emptySlot i

/-- LOAD and LOAD_PIN (R280, R282, R286). -/
def State.tierLoad (s : State) (iss : Issuer) (op pg c : Nat) : State :=
  let pin := decide (op = 1)
  match s.mt.moves.find? fun m => m.kind = .fill && m.page = pg with
  | some m => s.setMove m fun m => { m with cmds := m.cmds ++ [(iss, op)], pin := m.pin || pin }
  | none =>
    match if s.pageBusy pg then none else s.slotOfPage pg with
    | some i => (if pin then s.put TIR_SLOT.pinned i 1 else s).endTier [(iss, op)] stOK
    | none =>
      if !s.cxlPortUp (pg * mib2) then s.endTier [(iss, op)] stFENCED
      else
        match s.chooseSlot c with
        | none => (s.bump .TIR_NO_SPACE).endTier [(iss, op)] stNO_SPACE
        | some i =>
          let m : Move := { kind := .fill, page := pg, slot := i, cmds := [(iss, op)], pin := pin }
          let s := if s.flag TIR_SLOT.valid i && s.get TIR_SLOT_DIRTY.dirty i = 0 then s.freeSlot i else s
          (if s.flag TIR_SLOT.valid i then
            ((s.put TIR_SLOT.state i 2).addMove { kind := .evict, page := s.get TIR_SLOT.page i, slot := i }).addMove m
          else (s.fillSlot i pg).addMove { m with filling := true }).runMoves

/-- EVICT (R280, R286): a page being filled is evicted after its fill. -/
def State.tierEvict (s : State) (iss : Issuer) (pg : Nat) : State :=
  match s.mt.moves.find? fun m => m.kind = .evict && m.page = pg with
  | some m => s.setMove m fun m => { m with cmds := m.cmds ++ [(iss, 3)] }
  | none =>
    match s.mt.moves.find? fun m => m.kind = .fill && m.page = pg with
    | some m => s.addMove { kind := .evict, page := pg, slot := m.slot, cmds := [(iss, 3)] }
    | none =>
      match s.slotOfPage pg with
      | none => s.endTier [(iss, 3)] stOK
      | some i =>
        if s.flag TIR_SLOT.pinned i then s.endTier [(iss, 3)] stBUSY
        else if s.get TIR_SLOT_DIRTY.dirty i = 0 ∧ s.get TIR_SLOT.state i = 0 then (s.freeSlot i).endTier [(iss, 3)] stOK
        else ((s.put TIR_SLOT.state i 2).addMove { kind := .evict, page := pg, slot := i, cmds := [(iss, 3)] }).runMoves

/-- FLUSH (R280): it completes when every write-back it issued is acknowledged, at once where nothing is dirty. -/
def State.tierFlush (s : State) (iss : Issuer) (pg : Nat) : State :=
  match s.slotOfPage pg with
  | none => s.endTier [(iss, 4)] stOK
  | some i =>
    if s.get TIR_SLOT_DIRTY.dirty i = 0 then s.endTier [(iss, 4)] stOK
    else (s.addMove { kind := .flush, page := pg, slot := i, cmds := [(iss, 4)] }).runMoves

/-- UNPIN (R280). -/
def State.tierUnpin (s : State) (iss : Issuer) (pg : Nat) : State :=
  ((s.slotOfPage pg).elim s fun i => s.put TIR_SLOT.pinned i 0).endTier [(iss, 2)] stOK

/-- A tier command is applied: a page its issuer may not access is refused with ADDR_FAULT (R280). -/
def State.tierCmd (s : State) (iss : Issuer) (pg : Nat) (f : State → Nat → State) : State :=
  let go (s : State) : State := match s.tierCtx iss pg with
    | some c => if s.cxlPopulated (pg * mib2) then f s c else s.endTier [(iss, 0)] stADDR_FAULT
    | none => s.endTier [(iss, 0)] stADDR_FAULT
  match iss with
  | .reg _ =>
    if !s.leads then s.endTier [(iss, 0)] stNOT_LEAD else go s
  | .ring .. => go (s.began iss 0x0B)

def State.applyTierLoad (iss : Issuer) (page : Nat) (s : State) : State := s.tierCmd iss page fun s c => s.tierLoad iss 0 page c
def State.applyTierLoadPin (iss : Issuer) (page : Nat) (s : State) : State := s.tierCmd iss page fun s c => s.tierLoad iss 1 page c
def State.applyTierUnpin (iss : Issuer) (page : Nat) (s : State) : State := s.tierCmd iss page fun s _ => s.tierUnpin iss page
def State.applyTierEvict (iss : Issuer) (page : Nat) (s : State) : State := s.tierCmd iss page fun s _ => s.tierEvict iss page
def State.applyTierFlush (iss : Issuer) (page : Nat) (s : State) : State := s.tierCmd iss page fun s _ => s.tierFlush iss page

/-- Tier commands are applied at event ticks in class 9 order (R280); a write to TIR_CMD while busy has no effect (R287). -/
def State.tierSample (s : State) (iss : Issuer) (c : Instr) : State :=
  match iss with
  | .reg _ => if s.flag TIR_CMD_STATUS.busy then s else (s.put TIR_CMD_STATUS.busy 0 1).sampleHost iss c
  | .ring .. => s.sampleHost iss c

def execTierLoad (iss : Issuer) (page : Fin 4194304) (s : State) : Host.Outcome State Fault Refusal :=
  s.act (s.tierSample iss (.tierLoad iss page))
def execTierLoadPin (iss : Issuer) (page : Fin 4194304) (s : State) : Host.Outcome State Fault Refusal :=
  s.act (s.tierSample iss (.tierLoadPin iss page))
def execTierUnpin (iss : Issuer) (page : Fin 4194304) (s : State) : Host.Outcome State Fault Refusal :=
  s.act (s.tierSample iss (.tierUnpin iss page))
def execTierEvict (iss : Issuer) (page : Fin 4194304) (s : State) : Host.Outcome State Fault Refusal :=
  s.act (s.tierSample iss (.tierEvict iss page))
def execTierFlush (iss : Issuer) (page : Fin 4194304) (s : State) : Host.Outcome State Fault Refusal :=
  s.act (s.tierSample iss (.tierFlush iss page))

/-- TIER_FILL_COMPLETE (R280, R277): the page is resident and held accesses are served; `poison`: the device returned poison,
and the slot is emptied; `hold`: NCLK cycles accesses were held (R284). -/
def execTierFillComplete (page : Fin 4194304) (poison : Bool) (hold : Nat) (s : State) : Host.Outcome State Fault Refusal :=
  let pg := page.val
  s.act (match s.mt.moves.find? fun m => m.kind = .fill && m.page = pg && m.started with
    | some m =>
      let o := pg * mib2
      let bad := poison || meetsRange s.mt.poison o (o + mib2)
      let s := (s.dropMove m).bump .TIR_HOLD_NCLK 0 hold
      let s := if bad then ((s.bump .TIR_POISON_READS).emptySlot m.slot).endTier m.cmds stMEM_ERROR
        else
          let s := (cutAt 4096 o mib2).foldl (fun (s : State) c =>
            s.copy (s.cxlKey c.1) (s.slotBase m.slot + (c.1 - o)) c.2) s
          let s := ((s.countHbm .MEM_WRITE_BYTES (s.slotBase m.slot) mib2).bump .TIR_LOADS).bump .TIR_LOAD_BYTES 0 mib2
          let s := match (m.cmds.head?.bind fun c => c.1.ctxNum) with
            | some c => s.bump .CTX_ACC_TIER_BYTES c mib2
            | none => s
          let s := s.put TIR_SLOT.state m.slot 0
          (if m.pin then s.put TIR_SLOT.pinned m.slot 1 else s).endTier m.cmds stOK
      (s.serveHeld pg).runMoves
    | none => s)

/-- TIER_WRITEBACK_COMPLETE (R283): the last write-back is acknowledged. -/
def execTierWritebackComplete (page : Fin 4194304) (hold : Nat) (s : State) : Host.Outcome State Fault Refusal :=
  s.act (match s.mt.moves.find? fun m => m.kind ≠ .fill && m.page = page.val && m.started with
    | some m => if s.cxlPortUp (page.val * mib2) && (m.kind = .flush || s.slotOfPage m.page ≠ some m.slot || s.get TIR_SLOT_DIRTY.dirty m.slot = 0) then ((s.bump .TIR_HOLD_NCLK 0 hold).endWriteBack m).runMoves else s
    | none => s)

/-- CXL_ACCESS (R279, R284): an access to a CXL address; `poison`: the device returns poison to a read from the port. -/
def execCxlAccess (req : Requester) (addr len : Nat) (data : Option (List Byte)) (poison : Bool) (s : State) :
    Host.Outcome State Fault Refusal :=
  s.act (s.access req addr (data.elim len List.length) data 0 0 poison)

/-- SLOT_AGE_ADVANCE (R281). -/
def execSlotAgeAdvance (s : State) : Host.Outcome State Fault Refusal :=
  s.act ((upto s.poolSlots).foldl (fun (s : State) i =>
    if s.flag TIR_SLOT.valid i then s.put TIR_SLOT.age i (min 0xFFFF (s.get TIR_SLOT.age i + 1)) else s) s)

/-! ## The pool (R278) -/

/-- TIR_POOL_WRITE: `count` selects TIR_POOL_COUNT, else TIR_POOL_BASE; judged at the tick. -/
def State.applyTirPoolWrite (count : Bool) (value : Word) (s : State) : State :=
  let v := value.toNat
  let oldB := s.get TIR_POOL_BASE.page
  let oldC := s.poolSlots
  let base := if count then oldB else bits v 18 0
  let n := if count then bits v 14 0 else oldC
  let own (g : Nat) : Bool := decide (oldB ≤ g ∧ g < oldB + oldC)
  if decide (n ≤ 16384 ∧ base + n ≤ 393216) && ((upto oldC).all fun i => !s.flag TIR_SLOT.valid i) &&
      (poolPages base n).all (fun g => s.pageOwner g = 0x1F && !s.pageRetired g && !s.pageZeroing g &&
        (own g || !s.pagePool g)) then
    let s := (poolPages oldB oldC).foldl (fun (s : State) g => s.put (pgPool g) (g / 2) 0) s
    let s := (poolPages base n).foldl (fun (s : State) g => s.put (pgPool g) (g / 2) 1) s
    (s.put TIR_POOL_BASE.page 0 base).put TIR_POOL_COUNT.slots 0 n
  else s
def execTirPoolWrite (fn : Func) (count : Bool) (value : Word) (s : State) : Host.Outcome State Fault Refusal :=
  s.act (s.pfSample fn (.tirPoolWrite fn count value))

/-- A slot's owner is the owner of the extent that holds its page (R266). -/
def State.showSlotOwners (s : State) : State :=
  (upto s.poolSlots).foldl (fun (s : State) i =>
    if s.flag TIR_SLOT.valid i then s.put TIR_SLOT.owner i (s.extentOwner (s.get TIR_SLOT.page i * mib2)) else s) s

/-! ## The ports (R274 to R277, R285, R562) -/

/-- Does a training result keep the port up (R274): ×16 or ×8, at 64 or 32 GT/s? CXL 2.0 runs at 32 GT/s alone. -/
def cxlTrains (rate width : Nat) (cxl2 : Bool) : Bool :=
  (width = 16 || width = 8) && (rate = 2 || (rate = 3 && !cxl2))

/-- Training and enumeration of a port (R275): rate code, lanes, CXL 2.0, the device's capacity in GiB. -/
def State.trainCxl (s : State) (k rate width : Nat) (cxl2 : Bool) (cap : Nat) : State :=
  let s := { s with mt := { s.mt with interleave := s.flag TIR_CONFIG.interleave } }
  if cxlTrains rate width cxl2 then
    let s := (((s.wn .TIR_PORT_STATUS k 0).put TIR_PORT_STATUS.up k 1).put TIR_PORT_STATUS.rate k rate).put
      TIR_PORT_STATUS.width k width
    (s.put TIR_PORT_STATUS.cxl2 k (if cxl2 then 1 else 0)).put TIR_PORT_STATUS.capacity_gib k (min cap 4096)
  else s.wn .TIR_PORT_STATUS k 0

/-- Class and source of what happens to a CXL port: after the scale-out ports (DEDUCED, log entry 170). -/
def State.sampleCxl (s : State) (k : Nat) (c : Instr) : State := s.sampleOnce 4 (45 + k) (.row c)

def State.applyCxlPortEnumerate (port : Fin 2) (rate : Fin 4) (width : Nat) (cxl2 : Bool) (capGib : Nat) (s : State) : State :=
  s.trainCxl port.val rate.val width cxl2 capGib
def execCxlPortEnumerate (port : Fin 2) (rate : Fin 4) (width : Nat) (cxl2 : Bool) (capGib : Nat) (s : State) :
    Host.Outcome State Fault Refusal :=
  s.act (s.sampleCxl port.val (.cxlPortEnumerate port rate width cxl2 capGib))

/-- A port goes down (R277, R286): fills on it complete with FENCED and empty their slots, write-backs stay pending. -/
def State.cxlDown (s : State) (k : Nat) : State :=
  if s.cxlUp k then
    let s := s.put TIR_PORT_STATUS.up k 0
    let fills := s.mt.moves.filter fun m => m.kind = .fill && s.pageOnPort m.page k
    let s := { s with mt := { s.mt with moves := s.mt.moves.filter fun m => !(m.kind = .fill && s.pageOnPort m.page k) } }
    fills.foldl (fun (s : State) m =>
      ((if m.filling then s.emptySlot m.slot else s).endTier m.cmds stFENCED).endHeld m.page) s
  else s

def State.applyCxlPortDown (port : Fin 2) (s : State) : State := s.cxlDown port.val
def execCxlPortDown (port : Fin 2) (s : State) : Host.Outcome State Fault Refusal := s.act (s.sampleCxl port.val (.cxlPortDown port))

/-- CXL_PORT_UP (R285, R286): a port that trained before is up again; poison that waited is written, then held accesses of
its pages are served. -/
def State.applyCxlPortUp (port : Fin 2) (s : State) : State :=
  let k := port.val
  if s.get TIR_PORT_STATUS.rate k ≠ 0 ∧ s.cxlUp k = false then
    let s := s.put TIR_PORT_STATUS.up k 1
    let due := s.mt.poisonDue.filter fun d => s.cxlPortUp (d.1 * mib2)
    let s := { s with mt := { s.mt with poisonDue := s.mt.poisonDue.filter fun d => !s.cxlPortUp (d.1 * mib2) } }
    let s := due.foldl (fun (s : State) d => s.poisonSub d.1 d.2) s
    ((due.map (·.1)).foldl (fun (s : State) g => s.endHeld g) s).runMoves
  else s
def execCxlPortUp (port : Fin 2) (s : State) : Host.Outcome State Fault Refusal := s.act (s.sampleCxl port.val (.cxlPortUp port))

/-- Extents and pool slots of a port (R562): with interleave both ports share them. -/
def State.portInUse (s : State) (k : Nat) : Bool :=
  ((upto 8192).any fun e => (s.mt.interleave || decide (e / 4096 = k)) && s.extentOwner (e * gib) ≠ 0x1F) ||
  (upto s.poolSlots).any fun i => s.flag TIR_SLOT.valid i && s.pageOnPort (s.get TIR_SLOT.page i) k

/-- CXL_RETRAIN (R562): HIF_CONFIG.cxl_retrain of a port in no use retrains it with the result given. -/
def State.applyCxlRetrain (k rate width : Nat) (cxl2 : Bool) (capGib : Nat) (s : State) : State :=
  if s.portInUse k then s else s.trainCxl k rate width cxl2 capGib
def execCxlRetrain (fn : Func) (port : Fin 2) (rate : Fin 4) (width : Nat) (cxl2 : Bool) (capGib : Nat) (s : State) :
    Host.Outcome State Fault Refusal :=
  s.act (s.pfSample fn (.cxlRetrain fn port rate width cxl2 capGib))

/-- CXL_CONFIG_ACCESS (R562): a configuration access to the device on a port. `decoder`: the offset is the device's HDM decoder
or memory-enable bits, which the lead owns; `value`: what the device answers to a read. -/
def execCxlConfigAccess (fn : Func) (port : Fin 2) (offset : Fin 4096) (write : Option Word) (decoder : Bool) (value : Word)
    (s : State) : Host.Outcome State Fault Refusal :=
  s.act (s.pfWrite fn fun s =>
    match write with
    | some v => if decoder || !s.cxlUp port.val then s else s.emit (.cxlConfig port.val offset.val (some v) 0#32)
    | none => s.emit (.cxlConfig port.val offset.val none (if s.cxlUp port.val then value else 0xFFFFFFFF#32)))

end Sys2Proof.Machine
end

