-- ==== Sys2Proof/Machine/Fences.lean ====
section
/-! DEFINITION. Machine/Fences.lean: fences of cores, routers, dies and ports, the renames and halts that belong to them (R23 to
R30, R39, R159 to R161, R173, R210, R221), strikes and self-tests (R456 to R462), package trips (R532). -/

namespace Sys2Proof.Machine

/-! ## What every fence of a region's unit does -/

/-- A fence in a step bind set sets the fence bit of its context (R26, R326). -/
def State.fenceBit (s : State) (p : Nat) : State :=
  if s.rctx p ≠ 0x1F ∧ s.flag BND_REGION_STATE.step p = true then s.voteBit (s.rctx p) vbFence else s

/-- A region that computes halts with FENCED (R210, R29); in the job's step bind set that is a failure of the second row of
R470. -/
def State.fenceHalt (s : State) (p : Nat) : State :=
  if s.runs p && s.flag BND_REGION_STATE.step p && s.jobCtx = some (s.rctx p) then (s.haltCtx p stFENCED).sendFailure 2
  else s.haltCtx p stFENCED

/-- A rail of a die is lost: the fence bit of the package's health word, and the failure path of R470 (R39). -/
def State.dieHealth (s : State) : State :=
  match s.jobCtx with
  | some c => (s.voteBit c vbFence).sendFailure 3
  | none => s

/-- Loads that the fence map no longer fits are abandoned at the tick of the fence (R221). -/
def State.abandonUnfit (s : State) : State :=
  (s.bnd.ops.filter fun o => o.phase = .loading).foldl (fun (s : State) o =>
    match s.folio o.req.handle with
    | some f =>
      if (s.fenceReject f o.req).isSome then
        let s := s.abandonLoad o stFENCED
        if o.req.reshard then s.closeStep o.req.ctx else s
      else s
    | none => s) s

/-- Logical cores per cluster of the leaf a region is bound from, or loads. -/
def State.regionLcores (s : State) (p : Nat) : Nat :=
  ((s.rfolio p).map fun f => f.lcores).getD 0

/-- A block of a saving context is lost before it is written (R416). -/
def State.loseSaving (s : State) (k : Nat) : State :=
  (s.ctx.preempts.filter fun q => decide (regionOf k ∈ q.regions) && decide (s.get CTX_PSTATE.state q.ctx = 3) &&
    !(q.saved.any fun r => decide (r.region = regionOf k))).foldl (fun (s : State) q => s.loseBlock q.ctx k) s

/-! ## Cores (R23 to R27, R30, R159, R160, R210) -/

/-- The port slots whose tokens an entry of a core holds: their credits do not return (R239). -/
def CoreState.heldSlots (c : CoreState) (k : Nat) : List (Nat × Nat × Nat × Nat) :=
  c.entries.flatMap fun m => ((upto 8).filter fun q => m.arrived &&& portBit q ≠ 0#8).map fun q =>
    (k, m.op, q, m.tag.toNat % opDepth (c.block.op m.op))

/-- What a logical core held is gone; what was on its way inside the switch is discarded and counted (R160). `load`: a spare
waits for its part of the leaf. -/
def State.discardCore (s : State) (k : Nat) (load : Bool) : State :=
  let gone (t : Token) : Bool := t.dst = k && (t.phase = .admitted || (t.phase = .diverted && decide (0 < t.inResv)))
  let from_ (t : Token) : Bool := match t.src with | .core j .. => j = k | _ => false
  let ts := s.noc.tokens.filter gone
  let s := s.endWait ((s.noc.tokens.filter fun t => gone t || from_ t).filterMap streamOf)
  let s := s.discard (clusterOf k) ((ts.map Token.pieces).foldl (· + ·) 0)
  let s := ts.foldl (fun (s : State) t => s.loseSlot t) s
  let noc := { s.noc with
    tokens := (s.noc.tokens.filter fun t => !gone t && !(from_ t && t.phase = .waiting)).map fun t =>
      if from_ t then { t with unsent := 0 } else t }
  let s : State := { s with
    noc := noc, fch := { s.fch with lost := s.fch.lost ++ (s.core k).heldSlots k }
    hrd := { s.hrd with replies := s.hrd.replies.filter fun r => r.1 ≠ k } }
  let s := s.setCaptures fun l => l.filter fun x => x.core ≠ k
  let base := (s.core k).base
  (s.loseSaving k).setCore k { base := base, loading := load }

/-- What the logical cores of a cluster held is gone. -/
def State.discardCores (s : State) (cl : Nat) : State := (upto 15).foldl (fun (s : State) l => s.discardCore (16 * cl + l) false) s

/-- The core of a cluster that a logical index which lost its own may take: the spare; else, while 14 good cores are left, the
core of the highest logical index above it (R25, R30), with that index (DEDUCED, log entry 107). -/
def State.substitute (s : State) (cl l : Nat) : Option (Nat × Option Nat) :=
  match s.spares cl with
  | p :: _ => some (p, none)
  | [] =>
    if 14 ≤ (s.goodCores cl).length then
      (((upto 15).reverse.filter fun m => decide (l < m) && s.hasCore (16 * cl + m)).head?).map fun m =>
        (s.phys (16 * cl + m), some m)
    else none

/-- Put another core behind logical index l of a cluster, which has lost its own (R25), or none. -/
def State.rename (s : State) (cl l : Nat) (load : Bool) : State :=
  let k := 16 * cl + l
  match s.substitute cl l with
  | some (q, some m) => (((s.discardCore (16 * cl + m) false).unmap cl [m]).discardCore k load).setPhys k (some q)
  | some (q, none) => (s.discardCore k load).setPhys k (some q)
  | none => (s.discardCore k false).unmap cl [l]

/-- A physical core is fenced (R23): the logical index behind which it lay is renamed (R25), or its region halts where the good
cores no longer reach the leaf's (R210) (DEDUCED, log entry 48); with fewer than 14 good cores the whole cluster is out of use
(R30). -/
def State.fenceCore (s : State) (u cause : Nat) : State :=
  let cl := u / 16
  let ph := u % 16
  if s.fencedCore cl ph then s
  else
    let p := cl / 16
    let s := s.wn .FLT_CORE_FENCE (u / 32) (putBits (s.rn .FLT_CORE_FENCE (u / 32)) (u % 32) (u % 32) 1)
    let s := (s.recordFault 0 2 cause u).fenceBit p
    let s :=
      if (s.goodCores cl).length < 14 then (s.discardCores cl).unmap cl (upto 15)
      else match (upto 15).find? fun l => s.hasCore (16 * cl + l) && s.phys (16 * cl + l) = ph with
        | some l => s.rename cl l (s.runs p || s.rstate p = rsLoading)
        | none => s
    let s := s.countCluster cl
    let s := if (s.goodCores cl).length < s.regionLcores p then s.fenceHalt p else s
    s.abandonUnfit

/-! ## Routers (R29, R173) -/

/-- The routers of a multicast copy's way from one router to another, along its group's tree (DEDUCED, log entry 71). -/
def State.treeWay (s : State) (g dest : Nat) : Nat → Nat → Option (List Nat)
  | 0, _ => none
  | f + 1, cl =>
    if cl = dest then some [cl]
    else ((upto 4).filter fun d => bitAt (s.rn .NOC_GROUP (256 * cl + g)) (30 - d)).findSome? fun d =>
      (neighbour cl d).bind fun m => (s.treeWay g dest f m.1).map (cl :: ·)

/-- The way of a courier packet in flight, from its source router, or from the fork that holds it. -/
def State.wayOf (s : State) (t : Token) : List Nat :=
  let dest := match t.mode with | .reduction r .. => r | _ => clusterOf t.dst
  match t.group with
  | some g => (s.treeWay g dest 257 ((t.stalled.map (·.1)).getD t.from_)).getD []
  | none => t.from_ :: (if t.detour then pathYX t.from_ dest else pathXY t.from_ dest)

/-- Packets in flight whose next router is fenced are discarded, with FENCED, by the router that holds them (R173); a packet
with the fenced router on its way is taken to be in front of it (DEDUCED, log entry 35). -/
def State.loseFlying (s : State) (cl : Nat) : State :=
  s.noc.tokens.zipIdx.reverse.foldl (fun (s : State) x =>
    if x.1.courier ∧ x.1.phase = .flying then
      let way := s.wayOf x.1
      match (way.zip way.tail).find? fun y => y.2 = cl with
      | some (a, _) => s.dropFenced x.2 x.1 a
      | none => s
    else s) s

/-- What a fenced router and its cluster held: tokens at its cores, contributions and results at its nodes, its spill and holds
(DEDUCED, log entry 70). -/
def State.clearRouter (s : State) (cl : Nat) : State :=
  let gone (t : Token) : Bool :=
    clusterOf t.dst = cl && lcoreOf t.dst < 15 && (t.phase = .admitted || t.phase = .diverted) ||
      (t.src = .spine && t.from_ = cl && t.phase = .waiting)
  let n := ((s.noc.tokens.filter gone).map Token.pieces).foldl (· + ·) 0 + (s.noc.combine.filter fun x => x.router = cl).length
  let s := (s.discard cl n).endWait ((s.noc.tokens.filter gone).filterMap streamOf)
  let s : State := { s with noc := { s.noc with
    tokens := s.noc.tokens.filter fun t => !gone t
    combine := s.noc.combine.filter fun x => x.router ≠ cl } }
  ((s.noc.holds.filter fun h => clusterOf h.core = cl).foldl (fun (s : State) h =>
    s.endHold h (256 * (s.now - h.since))) s).showSpill cl

/-- A router is fenced with its cluster (R29): none of its logical cores has a core, its region halts. -/
def State.fenceRouter (s : State) (cl cause : Nat) : State :=
  if s.fencedRouter cl then s
  else
    let p := cl / 16
    let s := s.wn .FLT_ROUTER_FENCE (cl / 32) (putBits (s.rn .FLT_ROUTER_FENCE (cl / 32)) (cl % 32) (cl % 32) 1)
    let s := ((s.put NOC_STATUS.fenced cl 1).recordFault 1 2 cause cl).fenceBit p
    let s := (((s.loseFlying cl).clearRouter cl).discardCores cl).unmap cl (upto 15)
    ((s.countCluster cl).fenceHalt p).abandonUnfit

/-! ## Ports that go down with a side (R522, R525, R544) -/

/-- The host link goes down: counted once per loss; host reads on their way are answered FENCED by DMA_COMPLETION (R544, R565). -/
def State.hostLinkDown (s : State) : State :=
  if s.flag HIF_STATUS.link_up then
    (((s.put HIF_STATUS.link_up 0 0).put HIF_STATUS.rate 0 0).put HIF_STATUS.width 0 0).bump .HIF_LINK_DOWNS
  else s

/-- Ports, CXL port and host link of a side of the package: 0 west, 1 east. -/
def sidePorts (side : Nat) : List Nat := if side = 0 then [0, 1, 2, 3, 4] else [5, 6, 7, 8]

/-- Ports whose rail or reference is gone go down and stay so until it returns. -/
def State.sideDown (s : State) (side : Nat) : State :=
  let s := (sidePorts side).foldl (fun (s : State) k => s.portDown k 0) s
  let s : State := { s with pwr := { s.pwr with portsOff := s.pwr.portsOff.filter (· ∉ sidePorts side) ++ sidePorts side } }
  s.cxlDown side

/-! ## Dies (R39, R522) -/

/-- Every core of a die is fenced at once: no spare is left to rename to. -/
def State.fenceDieCores (s : State) (d : Nat) : State :=
  let s := (upto 32).foldl (fun (s : State) i => s.wn .FLT_CORE_FENCE (32 * d + i) (2 ^ 32 - 1)) s
  let s := (upto 4).foldl (fun (s : State) q => s.fenceBit (4 * d + q)) s
  let s := (upto 64).foldl (fun (s : State) c =>
    ((s.discardCores (64 * d + c)).unmap (64 * d + c) (upto 15)).countCluster (64 * d + c)) s
  let s := (upto 4).foldl (fun (s : State) q => s.haltCtx (4 * d + q) stFENCED) s
  s.abandonUnfit

/-- The loss of VDD_CORE of a die (DEDUCED, log entry 109). -/
def State.loseDieCore (s : State) (d : Nat) : State := (s.recordFault 4 2 0x06 d).dieHealth.fenceDieCores d

/-- A herding unit is lost with its tallies and leashes (R307). -/
def State.loseHerding (s : State) (d : Nat) : State :=
  if d ∈ s.hrd.dead then s
  else
    let s := s.setHrd { s.hrd with
      dead := s.hrd.dead ++ [d]
      leashes := s.hrd.leashes.filter fun l => l.tally / 4096 ≠ d }
    s.showHrd

/-- The loss of VDD_BASE of a die: the whole die is fenced, its stacks and spine share with it. -/
def State.loseDieBase (s : State) (d : Nat) : State :=
  let s := (s.recordFault 5 2 0x06 d).dieHealth.fenceDieCores d
  let s := (upto 64).foldl (fun (s : State) c => s.fenceRouter (64 * d + c) 0x06) s
  let s := (upto 4).foldl (fun (s : State) k => s.fenceStack (4 * d + k) 0x06) s
  s.loseHerding d

/-! ## Package trips (R532, R533) -/

/-- A region stops and is unbound in a trip, without reports. -/
def State.dropRegion (s : State) (p : Nat) : State :=
  let s := (s.stopRegion p).clearRouters p
  ((s.dropCores p).setRegion p rsUnbound 0x1F 0 0 false).put BND_REGION_STATE.step p 0

/-- The package trips: regions stop and are unbound, ports go down, what was in progress is abandoned, and from this tick the
package does nothing until PWROK falls. -/
def State.trip (s : State) (therm : Bool) : State :=
  let s := s.setBnd { s.bnd with ops := [], waits := [], staging := [] }
  let s := s.setCtx { s.ctx with preempts := [], reqs := [], claims := [] }
  let s := s.setFlt { s.flt with drain := none, fill := none, restore := none, testing := [] }
  let s := (upto 16).foldl (fun (s : State) p => if s.rstate p = rsUnbound then s else s.dropRegion p) s
  let s := (upto 9).foldl (fun (s : State) k => s.portDown k 0) s
  let s := (s.cxlDown 0).cxlDown 1
  let s : State := { s with seq := {}, mt := { s.mt with moves := [], held := [], portHeld := [] } }
  { s with pwr := { s.pwr with tripped := true, therm := s.pwr.therm || therm } }

/-! ## Strikes and self-tests (R460 to R462) -/

/-- A command of FLT_CMD ends with a status. -/
def State.endFlt (s : State) (status : Nat) : State := (s.put FLT_CMD_STATUS.busy 0 0).put FLT_CMD_STATUS.status 0 status

/-- Show whether a self-test runs; deadline mode is set while one does (R251). -/
def State.showTesting (s : State) : State := (s.put FLT_STATUS.testing 0 (if s.flt.testing.isEmpty then 0 else 1)).leadMode

/-- A unit's self-test begins. -/
def State.beginTest (s : State) (kind index : Nat) : State :=
  ((s.bump .FLT_SELFTESTS).setFlt { s.flt with testing := s.flt.testing ++ [(kind, index)] }).showTesting

/-- Is a unit within the package (R456)? -/
def unitOk (kind index : Nat) : Bool :=
  match kind with
  | 0 => decide (index < 4096)
  | 1 => decide (index < 256)
  | 2 => decide (index < 393216)
  | 3 => decide (index < 16)
  | 4 => decide (index < 4)
  | 5 => decide (index < 4)
  | 6 => decide (index < 36)
  | 7 => decide (index < 9)
  | _ => false

/-- Is a unit fenced, retired or out of service? -/
def State.unitFenced (s : State) (kind index : Nat) : Bool :=
  match kind with
  | 0 => s.fencedCore (index / 16) (index % 16)
  | 1 => s.fencedRouter index
  | 2 => decide ((index / 24576, index % 24576) ∈ s.mt.retired)
  | 3 => s.stackFenced index
  | 4 => (upto 1024).all fun i => s.fencedCore (64 * index + i / 16) (i % 16)
  | 5 => (upto 64).all fun i => s.fencedRouter (64 * index + i)
  | 6 => decide ((6, index) ∈ s.flt.failing)
  | _ => decide ((7, index) ∈ s.flt.failing)

/-- Fence a unit by its kind: the fence effect of R456. -/
def State.fenceUnit (s : State) (kind index cause : Nat) : State :=
  match kind with
  | 0 => s.fenceCore index cause
  | 1 => s.fenceRouter index cause
  | 2 => s.retirePage (index / 24576) (index % 24576)
  | 3 => s.fenceStack index cause
  | 4 => s.loseDieCore index
  | 5 => s.loseDieBase index
  | 6 =>
    let k := index / 4
    let l := index % 4
    let s := (s.classify 6 index).recordFault 6 2 cause index
    if bitAt (s.get LNK_PORT_STATUS.lanes k) l then s.takeLane k l else s
  | _ => ((s.classify 7 index).recordFault 7 2 cause index).portDown index 0

/-- A fault report (R457, R460): a strike against its unit, the fence, and for cores and routers the self-test; a strike during
it makes the unit permanent (DEDUCED, log entry 122). -/
def State.applyUnit (s : State) (kind index cause : Nat) : State :=
  if !unitOk kind index then s
  else
    match kind with
    | 2 => (s.applyDetection (index / 24576) (index % 24576 * mib2))
    | 6 => s.dropLane (index / 4) (index % 4)
    | 7 => s.portDown index cause
    | _ =>
      let s := s.strike kind index cause
      if (kind, index) ∈ s.flt.testing then s.setFlt { s.flt with again := s.flt.again ++ [(kind, index)] }
      else if s.unitFenced kind index then s
      else
        let s := s.fenceUnit kind index cause
        if kind ≤ 1 then s.beginTest kind index else s

/-- Class and source index of a unit's events (R457, R495). -/
def unitEvent (kind index : Nat) : Nat × Nat :=
  match kind with
  | 0 => (6, index)
  | 1 => (6, 4096 + index)
  | 2 => (5, index)
  | 3 => (5, 393216 + index)
  | 4 => (0, index)
  | 5 => (0, index)
  | 6 => (4, index)
  | _ => (4, 36 + index)

/-- An event of a unit is sampled. -/
def State.sampleUnit (s : State) (kind index : Nat) (e : EvKind) : State :=
  if unitOk kind index then s.sampleOnce (unitEvent kind index).1 (unitEvent kind index).2 e else s

/-- FAULT_REPORT: the report of a unit is sampled in its class (R457); one that is sampled already is the same report
(DEDUCED, log entry 122). -/
def execFaultReport (kind : Fin 8) (index : Nat) (cause : Fin 16) (s : State) : Host.Outcome State Fault Refusal :=
  s.act (s.sampleUnit kind.val index (.unit kind.val index cause.val))

/-- The regions that a unit's fence waits for before it is lifted. -/
def unitRegion (kind index : Nat) : Nat := if kind = 0 then index / 256 else index / 16

/-- Lift a fence (R460): a core becomes a spare of its cluster, which a logical index without a core takes at once
(DEDUCED, log entry 161); a router returns its cluster; a stack, lane or port returns to service (R462). -/
def State.liftUnit (s : State) (kind index : Nat) : State :=
  let s := s.recordFault kind 3 0x09 index
  let s := s.setFlt { s.flt with
    failing := s.flt.failing.filter (· ≠ (kind, index)), lifts := s.flt.lifts.filter (· ≠ (kind, index)) }
  match kind with
  | 0 =>
    (s.wn .FLT_CORE_FENCE (index / 32) (putBits (s.rn .FLT_CORE_FENCE (index / 32)) (index % 32) (index % 32) 0)).refill
      (index / 16)
  | 1 =>
    ((s.wn .FLT_ROUTER_FENCE (index / 32) (putBits (s.rn .FLT_ROUTER_FENCE (index / 32)) (index % 32) (index % 32) 0)).put
      NOC_STATUS.fenced index 0).refill index
  | 3 => s.put MEM_STATUS.fenced 0 (putBits (s.get MEM_STATUS.fenced) index index 0)
  | _ => s

/-- SELF_TEST_COMPLETE: the unit is classified (R460, R462); a stack page is always permanent, and so is a die rail
(DEDUCED, log entry 37). -/
def State.applySelfTestComplete (kind : Fin 8) (index : Nat) (pass : Bool) (s : State) : State :=
  let k := kind.val
  if (k, index) ∉ s.flt.testing then s
  else
    let permanent := !pass || k = 2 || k = 4 || k = 5 || decide ((k, index) ∈ s.flt.again) || decide (3 ≤ s.strikes k (· = index))
    let asked := (k, index) ∈ s.flt.retests
    let s := s.setFlt { s.flt with
      testing := s.flt.testing.filter (· ≠ (k, index)), again := s.flt.again.filter (· ≠ (k, index))
      retests := s.flt.retests.filter (· ≠ (k, index)) }
    let s := s.showTesting
    let s := if asked then s.endFlt stOK else s
    if permanent then
      let s := (s.bump .FLT_PERMANENT).recordFault k 4 0x09 index
      if s.unitFenced k index then s else s.fenceUnit k index 0x09
    else
      let s := s.bump .FLT_TRANSIENT
      if !s.unitFenced k index then s
      else if k ≤ 1 ∧ s.rstate (unitRegion k index) ≠ rsUnbound then
        s.setFlt { s.flt with lifts := s.flt.lifts ++ [(k, index)] }
      else s.liftUnit k index
def execSelfTestComplete (kind : Fin 8) (index : Nat) (pass : Bool) (s : State) : Host.Outcome State Fault Refusal :=
  s.act (if (kind.val, index) ∈ s.flt.testing then
      s.sampleUnit kind.val index (.row (.selfTestComplete kind index pass))
    else s)

/-- FENCE_LIFT: at the first tick at which the region of a transient unit is unbound. -/
def State.applyFenceLift (kind : Fin 8) (index : Nat) (s : State) : State :=
  if (kind.val, index) ∈ s.flt.lifts ∧ s.rstate (unitRegion kind.val index) = rsUnbound then s.liftUnit kind.val index else s
def execFenceLift (kind : Fin 8) (index : Nat) (s : State) : Host.Outcome State Fault Refusal :=
  s.act (if (kind.val, index) ∈ s.flt.lifts ∧ s.rstate (unitRegion kind.val index) = rsUnbound then
      s.sampleUnit kind.val index (.row (.fenceLift kind index))
    else s)

/-! ## FLT_CMD (R460, R462, R484) -/

/-- A command written to FLT_CMD waits for its tick; it is ignored while one is busy (R46, R484). -/
def State.fltCommand (s : State) (fn : Func) (cmd : Instr) : State :=
  s.pfWrite fn fun s => if s.flag FLT_CMD_STATUS.busy then s else (s.put FLT_CMD_STATUS.busy 0 1).sampleRow 9 64 cmd

/-- A command of the fault manager at its tick, and the status of one it turns away. -/
def State.fltCmd (s : State) (kind index : Nat) (f : State → State) : State :=
  if !s.leads then s.endFlt stNOT_LEAD else if !unitOk kind index then s.endFlt stBAD_DESCRIPTOR else f s

/-- SOFTWARE_FENCE: cause 0x0A, no strike, no self-test. -/
def State.applySoftwareFence (kind : Fin 16) (index : Fin 16777216) (s : State) : State :=
  s.fltCmd kind.val index.val fun s => (s.fenceUnit kind.val index.val 0x0A).endFlt stOK
def execSoftwareFence (fn : Func) (kind : Fin 16) (index : Fin 16777216) (s : State) : Host.Outcome State Fault Refusal :=
  s.act (s.fltCommand fn (.softwareFence fn kind index))

/-- RETEST: the unit's self-test runs and classifies it without a strike; one that is being tested already is busy
(DEDUCED, log entry 110). -/
def State.applyRetest (kind : Fin 16) (index : Fin 16777216) (s : State) : State :=
  s.fltCmd kind.val index.val fun s =>
    if (kind.val, index.val) ∈ s.flt.testing then s.endFlt stBUSY
    else (s.setFlt { s.flt with retests := s.flt.retests ++ [(kind.val, index.val)] }).beginTest kind.val index.val
def execRetest (fn : Func) (kind : Fin 16) (index : Fin 16777216) (s : State) : Host.Outcome State Fault Refusal :=
  s.act (s.fltCommand fn (.retest fn kind index))

/-! ## The fault history (R457, R459) -/

/-- Records that a copy of the log holds. -/
def logSize : Nat := 131072

/-- Show how many are in use. -/
def State.showLog (s : State) : State := s.put FLT_STATUS.records 0 s.nor.logA.length

/-- FAULT_HISTORY_WRITE: the oldest record decided goes to both copies; a full log is compacted first. -/
def execFaultHistoryWrite (s : State) : Host.Outcome State Fault Refusal :=
  s.act (match s.flt.queue with
    | r :: rest =>
      if logSize ≤ s.nor.logA.length then s.put FLT_STATUS.compacting 0 1
      else
        let s := s.setFlt { s.flt with queue := rest }
        ({ s with nor := { s.nor with logA := s.nor.logA ++ [r], logB := s.nor.logB ++ [r] } } : State).showLog
    | [] => s)

/-- Is a record the last of its unit among those with an action of 2 to 6? -/
def lastOf : List FaultRec → FaultRec → Bool
  | [], _ => true
  | x :: t, r => !(x.kind = r.kind && x.index = r.index && decide (2 ≤ x.action ∧ x.action ≤ 6)) && lastOf t r

/-- The records that a compaction keeps: each unit's latest of actions 2 to 6, and the strikes of the last 720 hours. -/
def compactLog (now : Nat) : List FaultRec → List FaultRec
  | [] => []
  | r :: t =>
    if (decide (2 ≤ r.action ∧ r.action ≤ 6) && lastOf t r) || (r.action = 1 && decide (now < r.service + 720 * 3600)) then
      r :: compactLog now t
    else compactLog now t

/-- FAULT_LOG_COMPACT: a full log is compacted, one copy after the other. -/
def execFaultLogCompact (s : State) : Host.Outcome State Fault Refusal :=
  s.act (if logSize ≤ s.nor.logA.length then
      let l := compactLog (s.rn .FLT_SERVICE_S) s.nor.logA
      (({ s with nor := { s.nor with logA := l, logB := l } } : State).showLog).put FLT_STATUS.compacting 0 0
    else s.put FLT_STATUS.compacting 0 0)

/-- SERVICE_HOUR: the seconds of powered life are written to NOR; retries are counted anew (R459, R462). -/
def execServiceHour (s : State) : Host.Outcome State Fault Refusal :=
  s.act (
    let s : State := { s with nor := { s.nor with service := s.rn .FLT_SERVICE_S } }
    s.setFlt { s.flt with retry0 := (upto 16).foldl (fun m k => spSet 0 m k (s.rn .MEM_RETRY_OK k)) [] })

end Sys2Proof.Machine
end

