-- ==== Sys2Proof/Machine/Flags.lean ====
section
/-! DEFINITION. Machine/Flags.lean: the output pins as functions of the state (R539): each is released or driven low. -/

namespace Sys2Proof.Machine

/-- Is the package powered and out of package reset? -/
def State.awake (s : State) : Bool := s.pwr.pwrok && s.pwr.perst

/-- FAULT_N is low (R491, R492, R517, R532). -/
def State.faultLow (s : State) : Bool := s.awake && (s.mgt.noLead || s.sec.erased || s.pwr.tripped)

/-- ALERT_N is low: a bit of PWR_ALERT is set, once a half has led (R539). -/
def State.alertLow (s : State) : Bool := s.awake && decide (0 < s.rn .MGT_LEAD_CHANGES) && s.rn .PWR_ALERT % 16 ≠ 0

/-- THERMTRIP_N is low: the thermal-trip latch is set (R536). -/
def State.thermtripLow (s : State) : Bool := s.awake && s.pwr.therm

/-- LEAD_W is low: the east half leads (R490). -/
def State.leadWLow (s : State) : Bool := s.awake && s.led && s.leadHalf = 1

/-- LINK_ACT[k] is low: port k is up. -/
def State.linkActLow (s : State) (k : Nat) : Bool := s.awake && (s.get LNK_PORT_STATUS.state k = 2 || s.get LNK_PORT_STATUS.state k = 4)

end Sys2Proof.Machine
end

