-- ==== Sys2Proof/Machine/Stretch.lean ====
section
/-! DEFINITION. Machine/Stretch.lean: ACLK levels (R526 to R531), package power and temperature, energy (R534). -/

namespace Sys2Proof.Machine

def State.setPwr (s : State) (x : PwrState) : State := { s with pwr := x }

/-! ## Limits (R542) -/

/-- A field of PWR_TARGET, PWR_TJ or PWR_SAG as in force: what the last event tick found in the register (R542). -/
def State.limit (s : State) (f : Fld) : Nat :=
  let w := s.pwr.inForce
  bits (match f.reg with | .PWR_TARGET => w.1 | .PWR_TJ => w.2.1 | _ => w.2.2) f.hi f.lo

/-! ## Levels (R526) -/

/-- The level in force of a region: the least of its four levels; 16 until ACLK is released (R526, R537). -/
def State.showLevel (s : State) (p : Nat) : State :=
  let l := min (min (s.get PWR_REGION_ACLK.sag p) (s.get PWR_REGION_ACLK.cap p))
    (min (s.get PWR_REGION_ACLK.thermal p) (s.get PWR_REGION_ACLK.peak p))
  s.put PWR_REGION_ACLK.level p (if s.pwr.released then l else 16)

/-- Change one level of a region. -/
def State.setLevel (s : State) (f : Fld) (p v : Nat) : State := (s.put f p v).showLevel p

/-- Is cycle i of a frame of level L long: two PLL periods (R526)? -/
def longCycle (L i : Nat) : Bool := decide (i * (32 - L) / L < (i + 1) * (32 - L) / L)

/-- A bit for a condition. -/
def State.putFlag (s : State) (f : Fld) (b : Bool) : State := s.put f 0 (if b then 1 else 0)

/-- Show whether a cap, a thermal or a peak level is below 32. -/
def State.showThrottle (s : State) : State :=
  let low (f : Fld) : Bool := (upto 16).any fun p => decide (s.get f p < 32)
  ((s.putFlag PWR_STATUS.cap_active (low PWR_REGION_ACLK.cap)).putFlag PWR_STATUS.throttle
    (low PWR_REGION_ACLK.thermal)).putFlag PWR_STATUS.peak (low PWR_REGION_ACLK.peak)

/-! ## Sag (R527, R528) -/

/-- The largest sag level allowed: PWR_SAG.in_level while SAG_IN_N is low. -/
def State.sagTop (s : State) : Nat :=
  if s.flag PWR_STATUS.sag_in then max 16 (min 31 (s.limit PWR_SAG.in_level)) else 32

/-- The sag level of a region falls to v; a fall is counted. -/
def State.sagFall (s : State) (p v : Nat) : State :=
  if v < s.get PWR_REGION_ACLK.sag p then (s.setLevel PWR_REGION_ACLK.sag p v).bump .PWR_REGION_SAG_EVENTS p else s

/-- SAG_SENSOR_LOW: a sensor of the region reads below V − m, or below V − 2m. -/
def execSagSensorLow (p : Region) (deep : Bool) (s : State) : Host.Outcome State Fault Refusal :=
  s.act (s.sagFall p.val (if deep then 16 else 22))

/-- SAG_LEVEL_RISE: 0.5 µs of the rise (DEDUCED, log entry 117). -/
def execSagLevelRise (p : Region) (s : State) : Host.Outcome State Fault Refusal :=
  s.act (
    let l := s.get PWR_REGION_ACLK.sag p.val
    if l < s.sagTop then s.setLevel PWR_REGION_ACLK.sag p.val (l + 1) else s)

/-- SAG_IN_FALL. -/
def execSagInFall (s : State) : Host.Outcome State Fault Refusal :=
  s.act (
    let s := (s.put PWR_STATUS.sag_in 0 1).signal PWR_ALERT.sag_in
    (upto 16).foldl (fun (s : State) p => s.sagFall p s.sagTop) s)

/-- At an event tick, writes of PWR_TARGET, PWR_TJ and PWR_SAG take effect (R542); while SAG_IN_N is low, sag levels obey the new
limit. -/
def State.latchLimits (s : State) : State :=
  let s := s.setPwr { s.pwr with inForce := (s.rn .PWR_TARGET, s.rn .PWR_TJ, s.rn .PWR_SAG) }
  if s.flag PWR_STATUS.sag_in then (upto 16).foldl (fun (s : State) p => s.sagFall p s.sagTop) s else s

/-- SAG_IN_RISE: SAG_IN_N has been high for 1 µs; the rise of R527 may begin. -/
def execSagInRise (s : State) : Host.Outcome State Fault Refusal := s.act (s.put PWR_STATUS.sag_in 0 0)

/-! ## Peak power (R529) -/

/-- PEAK_POWER. -/
def execPeakPower (s : State) : Host.Outcome State Fault Refusal :=
  s.act (
    let s := (upto 16).foldl (fun (s : State) p =>
      s.setLevel PWR_REGION_ACLK.peak p (min 22 (s.get PWR_REGION_ACLK.peak p))) s
    (s.signal PWR_ALERT.peak).showThrottle)

/-- PEAK_RECOVERY: the average has stayed below 3,400 W for 1 µs, or 0.5 µs more: every peak level rises by one. -/
def execPeakRecovery (s : State) : Host.Outcome State Fault Refusal :=
  s.act ((upto 16).foldl (fun (s : State) p =>
    s.setLevel PWR_REGION_ACLK.peak p (min 32 (s.get PWR_REGION_ACLK.peak p + 1))) s).showThrottle

/-! ## The power target (R530) -/

/-- The regions whose cap falls: with reserve_first the unreserved ones, until all of them stand at 16. -/
def State.cappedRegions (s : State) : List Nat :=
  let free := (upto 16).filter fun p => s.reserver p = 0x1F
  if s.limit PWR_TARGET.reserve_first = 0 ∨ (free.all fun p => s.get PWR_REGION_ACLK.cap p = 16) = true then upto 16 else free

/-- POWER_TARGET_COMPARE: each 1 ms, with the 10 ms mean in watts. -/
def execPowerTargetCompare (mean : Nat) (s : State) : Host.Outcome State Fault Refusal :=
  s.act (
    let t := max 1800 (min 3200 (s.limit PWR_TARGET.watts))
    let s := s.put PWR_POWER.watts 0 (min 8191 mean)
    let under := if 100 * mean < 98 * t then s.pwr.underMs + 1 else 0
    let cap (s : State) (p v : Nat) : State := s.setLevel PWR_REGION_ACLK.cap p v
    let s := s.setPwr { s.pwr with underMs := min 10 under }
    let s := if t < mean then
        s.cappedRegions.foldl (fun (s : State) p => cap s p (max 16 (s.get PWR_REGION_ACLK.cap p - 1))) s
      else if 10 ≤ under then (upto 16).foldl (fun (s : State) p => cap s p (min 32 (s.get PWR_REGION_ACLK.cap p + 1))) s
      else s
    let s := s.showThrottle
    (upto 16).foldl (fun (s : State) p =>
      let n := if s.get PWR_REGION_ACLK.cap p < 32 then spGet 0 s.pwr.capMs p + 1 else 0
      let s := s.setPwr { s.pwr with capMs := spSet 0 s.pwr.capMs p n }
      if n = 1000 then s.signal PWR_ALERT.cap else s) s)

/-! ## Temperature (R531) -/

/-- A reading in °C, two's complement. -/
def celsius (b : Byte) : Int := b.toInt

/-- The thermal level of a die's regions moves by its highest reading; rises take ten readings of 1 ms. -/
def State.thermalStep (s : State) (d : Nat) (t target : Int) : State :=
  let regs := (upto 4).map fun q => 4 * d + q
  let move (s : State) (f : Nat → Nat) : State :=
    regs.foldl (fun (s : State) p => s.setLevel PWR_REGION_ACLK.thermal p (f (s.get PWR_REGION_ACLK.thermal p))) s
  let cool (s : State) (n : Nat) : State := s.setPwr { s.pwr with coolMs := spSet 0 s.pwr.coolMs d n }
  if target ≤ t then move (cool s 0) fun l => max 16 (l - 1)
  else if t < target - 2 then
    let n := spGet 0 s.pwr.coolMs d + 1
    if 10 ≤ n then move (cool s 0) fun l => min 32 (l + 1) else cool s n
  else cool s 0

/-- THERMAL_LEVEL_UPDATE: each 1 ms, with the highest reading of dies 0 to 3 and the readings of stacks 0 to 15. -/
def execThermalLevelUpdate (temps : List Byte) (s : State) : Host.Outcome State Fault Refusal :=
  s.act (
    let t (i : Nat) : Byte := temps.getD i 0#8
    let s := (upto 20).foldl (fun (s : State) i => s.put PWR_TEMP.celsius i (t i).toNat) s
    let top := (upto 4).foldl (fun (m : Byte) d => if celsius m < celsius (t d) then t d else m) (t 0)
    let s := s.put PWR_STATUS.tj 0 top.toNat
    let target : Int := Int.ofNat (max 85 (min 103 (s.limit PWR_TJ.target)))
    let alert : Int := Int.ofNat (max 90 (min 105 (s.limit PWR_TJ.alert)))
    let s := (upto 4).foldl (fun (s : State) d => s.thermalStep d (celsius (t d)) target) s
    let s := s.showThrottle
    if (upto 20).any fun i => decide (alert ≤ celsius (t i)) then s.signal PWR_ALERT.tj else s)

/-! ## Energy (R534, R540) -/

/-- ENERGY_TICK: µJ of each rail, and of the VDD_CORE and VDD_BASE sectors of each region, since the last tick. -/
def execEnergyTick (rails core base : List Nat) (s : State) : Host.Outcome State Fault Refusal :=
  s.act (
    let s := (upto 17).foldl (fun (s : State) r => s.bump .PWR_RAIL_ENERGY_UJ r (rails.getD r 0)) s
    let s := s.bump .PWR_PACKAGE_ENERGY_UJ 0 (((upto 17).map fun r => rails.getD r 0).foldl (· + ·) 0)
    (upto 16).foldl (fun (s : State) p =>
      let c := if p / 4 ∈ s.pwr.rails then 0 else core.getD p 0
      s.bump .PWR_REGION_ENERGY_UJ p (c + base.getD p 0)) s)

/-- A tick counts in a region whose levels are below 32 (R541). -/
def State.countLevels (s : State) : State :=
  (upto 16).foldl (fun (s : State) p =>
    let low (f : Fld) : Bool := decide (s.get f p < 32)
    let s := if low PWR_REGION_ACLK.sag || low PWR_REGION_ACLK.peak then s.bump .PWR_REGION_STRETCH_TICKS p else s
    if low PWR_REGION_ACLK.cap || low PWR_REGION_ACLK.thermal then s.bump .PWR_REGION_CAP_TICKS p else s) s

end Sys2Proof.Machine
end

