-- ==== Sys2Proof/Machine/Management.lean ====
section
/-! DEFINITION. Machine/Management.lean: the lease and the lead (R487 to R492), management faults (R485, R491), firmware updates
(R500 to R502), recalibration in service (R503). -/

namespace Sys2Proof.Machine

def State.setMgt (s : State) (x : MgtState) : State := { s with mgt := x }

/-! ## Halves -/

/-- Ready bit of a half. -/
def readyBit (h : Nat) : Fld := if h = 0 then MGT_STATUS.west_ready else MGT_STATUS.east_ready
def slotBit (h : Nat) : Fld := if h = 0 then MGT_STATUS.west_slot else MGT_STATUS.east_slot
def State.ready (s : State) (h : Nat) : Bool := s.flag (readyBit h)

/-- A half's active slot, and its change (R500, R504). -/
def State.setSlot (s : State) (h v : Nat) : State :=
  let s : State := { s with nor := { s.nor with active := if h = 0 then (v, s.nor.active.2) else (s.nor.active.1, v) } }
  s.put (slotBit h) 0 v

/-- Put an image into a half's slot; none is erased. -/
def State.writeSlot (s : State) (h v : Nat) (img : List Byte) : State :=
  { s with nor := { s.nor with slots := s.nor.slots.set (2 * h + v) img } }

/-- TCLK cycles since reset: 16 to a tick (R493), and how many into the tick a request falls (DEDUCED, log entry 120). -/
def State.tclk (s : State) (cyc : Nat) : Nat := 16 * s.now + cyc

/-- One millisecond of TCLK. -/
def leaseTime : Nat := 100000

/-! ## The arbiter (R488) -/

/-- The arbiter works while VDD_BASE of die 1 or of die 2 is up (R488, R522). -/
def State.arbiterUp (s : State) : Bool := decide (5 ∉ s.pwr.rails) || decide (6 ∉ s.pwr.rails)

/-- Is the lease free or lapsed? -/
def State.leaseFree (s : State) (cyc : Nat) : Bool := s.mgt.holder.isNone || decide (s.mgt.expiry ≤ s.tclk cyc)

/-- Does a claim of a half in the cycle of another's grant win over it: its term is later, or the same and it is west (R488)? Claims
of one TCLK cycle are taken to meet in one SCLK cycle (DEDUCED, log entry 120). -/
def State.claimTies (s : State) (h : Nat) (t : Word) (cyc : Nat) : Bool :=
  let now := BitVec.ofNat 32 (s.rn .MGT_TERM)
  s.mgt.holder.isSome && s.mgt.holder ≠ some h && s.mgt.expiry = s.tclk cyc + leaseTime &&
    (s.seq.sampled.any fun e => e.ev = .leadChange (1 - h)) && (termAfter t now || (t = now && h = 0))

/-- CLAIM(t) of a half. -/
def State.claimLease (s : State) (h : Nat) (t : Word) (cyc : Nat) : State :=
  if s.arbiterUp && (s.claimTies h t cyc || (s.leaseFree cyc && termAfter t (BitVec.ofNat 32 (s.rn .MGT_TERM)))) then
    let e := s.tclk cyc + leaseTime
    let s := s.setMgt { s.mgt with holder := some h, expiry := e, leadExpiry := e, renewSent := s.tclk cyc }
    let s : State := { s with seq := { s.seq with sampled := s.seq.sampled.filter fun e => e.ev ≠ .leadChange (1 - h) } }
    (s.wn .MGT_TERM 0 t.toNat).sample 3 0 (.leadChange h)
  else s

/-- LEASE_CLAIM: a half that is ready claims. -/
def execLeaseClaim (half : Fin 2) (term : Word) (cyc : Fin 16) (s : State) : Host.Outcome State Fault Refusal :=
  s.act (if s.ready half.val then s.claimLease half.val term cyc.val else s)

/-- LEASE_RENEW: the holder's own expiry counts from when it sent the request (R489). -/
def execLeaseRenew (half : Fin 2) (term : Word) (cyc : Fin 16) (s : State) : Host.Outcome State Fault Refusal :=
  s.act (if s.arbiterUp ∧ s.mgt.holder = some half.val ∧ term.toNat = s.rn .MGT_TERM then
      s.setMgt { s.mgt with expiry := s.tclk cyc.val + leaseTime, leadExpiry := s.mgt.renewSent + leaseTime }
    else s)

/-- Is a command that a ring has handed over sampled already, so that it waits for its tick (R46)? -/
def State.waitsForTick (s : State) (c : Nat) (t : TakenCmd) : Bool :=
  (s.seq.sampled ++ s.seq.carried ++ s.seq.offered).any fun e => match e.ev with
    | .row i => match hostCmd i with
      | some (.ring d k _, op) => d.val = c && k = t.cookie && op = t.opcode
      | _ => false
    | _ => false

/-- The lead steps down (R489): every command that it holds completes with NOT_LEAD, those taken from the rings at once, those the
sequencers have sampled at their tick. -/
def State.stepDown (s : State) : State :=
  if s.led then
    let s := (s.put MGT_STATUS.led 0 0).setMgt { s.mgt with idle := s.now }
    (upto 31).foldl (fun (s : State) c =>
      let l := (s.ring c).taken.filter fun t => !s.waitsForTick c t
      let s := s.setRing c { s.ring c with taken := (s.ring c).taken.filter (s.waitsForTick c) }
      l.foldl (fun (s : State) t =>
        s.post c { kind := 0, status := stNOT_LEAD, aux := t.opcode, tag := t.cookie.toNat, irq := t.irq }) s) s
  else s

/-- RELEASE of a half: the holder becomes none, the term stays; a lead that released steps down. -/
def State.releaseLease (s : State) (h : Nat) : State :=
  if s.mgt.holder = some h then
    let s := s.setMgt { s.mgt with holder := none }
    if s.leadHalf = h then s.stepDown else s
  else s

def execLeaseRelease (half : Fin 2) (s : State) : Host.Outcome State Fault Refusal :=
  s.act (if s.arbiterUp then s.releaseLease half.val else s)

/-- LEASE_RENEW_TIMER: the lead sends RENEW. -/
def execLeaseRenewTimer (cyc : Fin 16) (s : State) : Host.Outcome State Fault Refusal :=
  s.act (if s.led then s.setMgt { s.mgt with renewSent := s.tclk cyc.val } else s)

/-- LEAD_EXPIRY: the first tick at or after the lead's own expiry. -/
def execLeadExpiry (s : State) : Host.Outcome State Fault Refusal :=
  s.act (if s.led ∧ s.mgt.leadExpiry ≤ s.tclk 0 then s.stepDown else s)

/-- LEASE_POLL: a half that does not lead claims a lapsed lease with the current term + 1. -/
def execLeasePoll (half : Fin 2) (cyc : Fin 16) (s : State) : Host.Outcome State Fault Refusal :=
  s.act (if s.ready half.val ∧ ¬(s.led = true ∧ s.leadHalf = half.val) then
      s.claimLease half.val (BitVec.ofNat 32 (s.rn .MGT_TERM) + 1) cyc.val
    else s)

/-! ## The lead change (R490, R537) -/

/-- The half that does not lead mirrors the package-wide state of the lead (R49). -/
def State.takeMirror (s : State) : State := { s with mirror := { flt := s.flt, sec := s.sec, pwr := s.pwr } }

/-- The new lead takes over the mirror (R49, R490); commands sampled for this tick reached the old one (R47). The first lead
releases ACLK from level 16 (R537). -/
def State.applyLeadChange (s : State) (h : Nat) : State :=
  let s := s.bump .MGT_LEAD_CHANGES
  if s.mgt.holder ≠ some h then s
  else
    let changed := s.leadHalf ≠ h
    let s : State := { s with flt := s.mirror.flt, sec := s.mirror.sec, pwr := s.mirror.pwr, seq := { s.seq with turned := true } }
    let s := ((s.put MGT_STATUS.lead 0 h).put MGT_STATUS.led 0 1).setMgt { s.mgt with noLead := false }
    let s : State := if changed then { s with pkgEvent := true } else s
    let s := s.deriveAlias.showMeas
    let s := s.setPwr { s.pwr with released := true }
    let s := (upto 16).foldl (fun (s : State) p => s.showLevel p) s
    if s.get MGT_FW_STATUS.stage = 3 then
      if s.mgt.update.isSome then s.put MGT_FW_STATUS.stage 0 4
      else ((s.put MGT_FW_STATUS.stage 0 0).put MGT_FW_STATUS.busy 0 0).put MGT_FW_STATUS.status 0 stOK
    else s

/-- LEAD_CHANGE: the granted claim of a half is handled. -/
def execLeadChange (half : Fin 2) (s : State) : Host.Outcome State Fault Refusal :=
  s.act (s.handleOne (fun e => e = .leadChange half.val) fun s _ => s.takeMirror.applyLeadChange half.val)

/-! ## Firmware updates: their ends (R502) -/

/-- An UPDATE or HANDOVER ends. -/
def State.endFw (s : State) (status : Nat) : State :=
  ((s.put MGT_FW_STATUS.status 0 status).put MGT_FW_STATUS.stage 0 0).put MGT_FW_STATUS.busy 0 0

/-- A half restarts: not ready; its measurements begin anew (R509), the key set's with them (DEDUCED, log entry 119). -/
def State.restartHalf (s : State) (h : Nat) : State :=
  let s := (s.put (readyBit h) 0 0).clearMeas h
  let s := s.measureBoot h
  let s := if s.flag SEC_STATUS.key_lock then s.extend h 4 s.sec.keyDigest else s
  s.showMeas

/-- A half falls back to the slot it had before an update. -/
def State.fallBack (s : State) (h v : Nat) : State :=
  let s := (s.setSlot h v).restartHalf h
  let s := s.setMgt { s.mgt with update := none, updated := s.mgt.updated.filter fun u => u.1 ≠ h }
  s.endFw stUPDATE_FAIL

/-- The slot a half falls back to if it faults now: within 10 s of becoming ready after an update (R502)
(DEDUCED, log entry 133). -/
def State.probation (s : State) (h : Nat) : Option Nat :=
  let r := spGet 0 s.mgt.readyTick h
  let l := (((s.mgt.update.map fun u => u.prev.map fun x => (x.1, x.2.1)).getD []) ++ s.mgt.updated).find? fun x => x.1 = h
  if r ≠ 0 ∧ s.now ≤ r - 1 + 62500000 then l.map (·.2) else none

/-! ## Management faults (R485, R491) -/

/-- A fatal management fault: the half releases the lease if it holds it, and restarts; during the 10 s after an update it falls
back. -/
def State.applyMgmtFault (s : State) (h : Nat) : State :=
  let s := (s.bump .MGT_MGMT_FAULTS).releaseLease h
  match s.probation h with
  | some v => s.fallBack h v
  | none => s.restartHalf h

/-- MGMT_FAULT at a half: a class 2 event. -/
def execMgmtFault (half : Fin 2) (s : State) : Host.Outcome State Fault Refusal :=
  s.act (s.sampleOnce 2 half.val (.mgmtFault half.val))

/-- MGMT_WATCHDOG_EXPIRY: the watchdog has not been serviced for 250 µs: a fatal management fault is sampled. -/
def execMgmtWatchdogExpiry (half : Fin 2) (s : State) : Host.Outcome State Fault Refusal :=
  s.act (if s.ready half.val then s.sampleOnce 2 half.val (.mgmtFault half.val) else s)

/-- HALF_READY: a restarted half is ready as follower; in an update the next step of R501 follows. -/
def execHalfReady (half : Fin 2) (s : State) : Host.Outcome State Fault Refusal :=
  let h := half.val
  s.act (if h ∉ s.mgt.up ∨ s.ready h = true then s
    else
      let s := (s.put (readyBit h) 0 1).setMgt { s.mgt with readyTick := spSet 0 s.mgt.readyTick h (s.now + 1) }
      match s.mgt.update with
      | some u =>
        let all := u.prev.length = 2 && s.ready 0 && s.ready 1
        if all then
          let s := s.setMgt { s.mgt with update := none, updated := u.prev.map fun x => (x.1, x.2.1) }
          (s.bump .MGT_FW_UPDATES).endFw stOK
        else if !u.offline ∧ s.get MGT_FW_STATUS.stage = 2 ∧ h = u.first then
          (s.put MGT_FW_STATUS.stage 0 3).releaseLease (1 - u.first)
        else s
      | none => s)

/-- Does the 60 ms of an offline update run (R501)? -/
def State.offlineRestart (s : State) : Bool :=
  match s.mgt.update with
  | some u => u.offline && u.prev.length = 2 && decide (s.now < s.mgt.idle + 375000)
  | none => false

/-- NO_LEAD_TIMEOUT: no half has led for 2 ms; at the next tick, a timer of class 11, bound regions halt (R491). -/
def State.noLeadDue (s : State) : Bool :=
  !s.led && decide (0 < s.rn .MGT_LEAD_CHANGES) && decide (s.mgt.idle + 12500 ≤ s.now) && !s.offlineRestart && !s.mgt.noLead
def State.applyNoLeadTimeout (s : State) : State :=
  if s.noLeadDue then (upto 16).foldl (fun (s : State) p => s.haltCtx p stFENCED) (s.setMgt { s.mgt with noLead := true }) else s
def execNoLeadTimeout (s : State) : Host.Outcome State Fault Refusal :=
  s.act (if s.noLeadDue then s.sampleOnce 11 0 (.row .noLeadTimeout) else s)

/-- STARTUP_LEAD_TIMEOUT: no half leads within 10 ms after both have left reset (R492). -/
def execStartupLeadTimeout (s : State) : Host.Outcome State Fault Refusal :=
  s.act (if s.led = false ∧ s.rn .MGT_LEAD_CHANGES = 0 ∧ 0 ∈ s.mgt.up ∧ 1 ∈ s.mgt.up ∧ s.mgt.upTick + 62500 ≤ s.now then
      s.setMgt { s.mgt with noLead := true }
    else s)

/-! ## Updates (R500 to R502) -/

/-- Begin an update with an image; its mirror_format must be the running one, except offline with no region bound. -/
def State.beginUpdate (s : State) (mctp offline : Bool) (img : List Byte) : State :=
  let bound := (upto 16).any fun p => s.rstate p ≠ rsUnbound
  if Config.imageMirror img ≠ Config.imageMirror (s.image s.leadHalf) ∧ (offline = false ∨ bound = true) then s.endFw stBUSY
  else
    let u : FwUpdate := { mctp := mctp, image := img, offline := offline && !bound, first := 1 - s.leadHalf }
    ((s.setMgt { s.mgt with update := some u }).put MGT_FW_STATUS.stage 0 1).put MGT_FW_STATUS.busy 0 1

/-- A write to MGT_FW_CMD: ignored while a command is in progress (R504), else taken at the tick. -/
def State.fwCommand (s : State) (fn : Func) (cmd : Instr) : State :=
  s.pfWrite fn fun s => if s.flag MGT_FW_STATUS.busy then s else (s.put MGT_FW_STATUS.busy 0 1).sampleRow 9 64 cmd

/-- FW_UPDATE: UPDATE in MGT_FW_CMD; while the read of its image is held the command waits. -/
def State.applyFwUpdate (fn : Func) (offline : Bool) (s : State) : State :=
  let n := s.get MGT_FW_LEN.bytes
  if !s.leads then s.endFw stNOT_LEAD
  else if s.flag SEC_STATUS.violated then s.endFw stUPDATE_FAIL
  else if n = 0 ∨ 33554432 < n then s.endFw stBAD_DESCRIPTOR
  else
    match s.readNow .engine (s.rn .MGT_FW_IMAGE) (ceilDiv n 64 * 64) with
    | (s, .data bs) => s.beginUpdate false offline (bs.take n)
    | (s, .failed st) => s.endFw st
    | (s, _) => s.sampleRow 9 64 (.fwUpdate fn offline)
def execFwUpdate (fn : Func) (offline : Bool) (s : State) : Host.Outcome State Fault Refusal :=
  s.act (s.fwCommand fn (.fwUpdate fn offline))

/-- HANDOVER: the lead releases, the follower claims (DEDUCED, log entry 118). -/
def State.applyHandover (s : State) : State :=
  if !s.leads then s.endFw stNOT_LEAD
  else if !s.ready (1 - s.leadHalf) then s.endFw stBUSY
  else ((s.put MGT_FW_STATUS.stage 0 3).put MGT_FW_STATUS.busy 0 1).releaseLease s.leadHalf
def execHandover (fn : Func) (s : State) : Host.Outcome State Fault Refusal := s.act (s.fwCommand fn (.handover fn))

/-- A half restarts into the slot it has written. -/
def State.intoSlot (s : State) (u : FwUpdate) (h : Nat) : State × FwUpdate :=
  let v := s.activeSlot h
  let u := { u with prev := u.prev ++ [(h, v, s.now)] }
  let s := ((s.setSlot h (1 - v)).releaseLease h).restartHalf h
  (s.setMgt { s.mgt with update := some u }, u)

/-- FW_COPY_COMPLETE: the half has written its inactive slot; `good`: the image's signature verifies; else the slot is erased. -/
def execFwCopyComplete (half : Fin 2) (good : Bool) (s : State) : Host.Outcome State Fault Refusal :=
  let h := half.val
  s.act (match s.mgt.update with
    | some u =>
      let due := if u.offline then decide (h ∉ u.written)
        else (s.get MGT_FW_STATUS.stage = 1 && h = u.first) || (s.get MGT_FW_STATUS.stage = 4 && h = 1 - u.first &&
          u.prev.length = 1)
      if !due then s
      else
        let slot := 1 - s.activeSlot h
        let s := s.writeSlot h slot u.image
        if !good then
          (s.writeSlot h slot []).setMgt { s.mgt with update := none } |>.endFw stAUTH_FAIL
        else if u.offline then
          let u := { u with written := u.written ++ [h] }
          if u.written.length < 2 then s.setMgt { s.mgt with update := some u }
          else
            let (s, u) := s.intoSlot u 0
            ((s.intoSlot u 1).1).put MGT_FW_STATUS.stage 0 2
        else
          let s := (s.intoSlot u h).1
          if s.get MGT_FW_STATUS.stage = 1 then s.put MGT_FW_STATUS.stage 0 2 else s
    | none => s)

/-- FW_READY_TIMEOUT: a half restarted into the image is not ready within 200 ms. -/
def execFwReadyTimeout (half : Fin 2) (s : State) : Host.Outcome State Fault Refusal :=
  let h := half.val
  s.act (match s.mgt.update.bind fun u => u.prev.find? fun x => x.1 = h with
    | some x => if s.ready h = false ∧ x.2.2 + 1250000 ≤ s.now then s.fallBack h x.2.1 else s
    | none => s)

/-- FW_PROBATION_FAULT: a fatal management fault within 10 s of readiness. -/
def execFwProbationFault (half : Fin 2) (s : State) : Host.Outcome State Fault Refusal :=
  s.act (if (s.probation half.val).isSome then s.sampleOnce 2 half.val (.mgmtFault half.val) else s)

/-! ## MCTP (R487, R501) -/

/-- A PLDM firmware update that the lead has taken, at its tick; ERROR_NOT_READY once the lead has changed since (R487). -/
def State.applyMctpRequest (body : List Byte) (term : Word) (s : State) : State :=
  if !s.leads ∨ term.toNat ≠ s.rn .MGT_TERM then (s.put MGT_FW_STATUS.busy 0 0).emit .mctpNotReady
  else if s.flag SEC_STATUS.violated then s.endFw stUPDATE_FAIL
  else if body.isEmpty ∨ 33554432 < body.length then s.endFw stBAD_DESCRIPTOR
  else s.beginUpdate true false body

/-- MCTP_REQUEST over PCIe or SMBus, taken under a lease term: the lead serves it, or ERROR_NOT_READY once the lead has changed
since. A PLDM firmware update brings its image and takes effect at the next tick in class 9, source 65 (R495, R501). -/
def execMctpRequest (pcie : Bool) (body : List Byte) (term : Word) (update : Bool) (s : State) : Host.Outcome State Fault Refusal :=
  s.act (if pcie && !s.flag HIF_STATUS.link_up then s
    else if !s.led ∨ term.toNat ≠ s.rn .MGT_TERM then s.emit .mctpNotReady
    else if !update then s.emit (.mctp body)
    else if s.flag MGT_FW_STATUS.busy then s
    else (s.put MGT_FW_STATUS.busy 0 1).sampleRow 9 65 (.mctpRequest pcie body term update))

/-! ## Recalibration while the rest works (R503) -/

/-- HBM_PHY_RECAL: one stack at a time; its accesses are held at its memory ports. -/
def execHbmPhyRecal (stack : Fin 16) (s : State) : Host.Outcome State Fault Refusal :=
  s.act (if s.mt.recal.isEmpty then { s with mt := { s.mt with recal := [stack.val] } } else s)

/-- HBM_PHY_RECAL_COMPLETE: the accesses held proceed. -/
def execHbmPhyRecalComplete (stack : Fin 16) (s : State) : Host.Outcome State Fault Refusal :=
  s.act (if stack.val ∈ s.mt.recal then
      ({ s with mt := { s.mt with recal := s.mt.recal.filter (· ≠ stack.val) } } : State).servePorts
    else s)

/-- FOLLOWER_SELF_TEST: it has no effect while it runs. -/
def execFollowerSelfTest (s : State) : Host.Outcome State Fault Refusal := s.act s

end Sys2Proof.Machine
end

