-- ==== Sys2Proof/Machine/Power.lean ====
section
/-! DEFINITION. Machine/Power.lean: rail trips and lost references (R522, R525, R531 to R533), reset and power-up (R458, R508,
R535 to R537), the TAP (R539). -/

namespace Sys2Proof.Machine

/-! ## The scopes of reset (R535, R536) -/

/-- What the fuses show (R3, R505, R510, R564); the backup firmware key is in use once the primary one is revoked (R508). -/
def State.senseFuses (s : State) : State :=
  let s := ((s.put DEV_ID.revision 0 s.fuse.revision).put DEV_ID.grade 0 s.fuse.grade).put SEC_STATUS.svn 0 s.fuse.svn
  let s := s.put SEC_STATUS.fw_backup 0 (if s.fuse.revoked.1 then 1 else 0)
  if s.fuse.grade = 3 then
    (upto 256).foldl (fun (s : State) cl => (s.setPhys (16 * cl + 14) none).countCluster cl) s
  else s

/-- What both scopes keep: the NOR flash, burnt fuses, the model's own fields; the memory of hosts and CXL devices with its poison. -/
def State.cleared (s : State) (cold : Bool) : State :=
  let mem := if cold then s.mem.filter fun e => (decide (cxlBase 0 ≤ e.1) && decide (e.1 < sramBase 0 0)) || decide (hostBase ≤ e.1)
    else s.mem
  { State.reset with
    mem := mem, mt := { poison := s.mt.poison }, nor := s.nor, fuse := s.fuse, out := s.out, fresh := s.fresh, pending := s.pending }

/-- A cold reset: everything but the NOR flash and the fuses; a package without PWROK does nothing (R535). -/
def State.coldReset (s : State) : State :=
  (({ s.cleared true with pwr := { pwrok := false, perst := s.pwr.perst } } : State)).senseFuses

/-- A package reset keeps the rails, the PLLs, a trip and its latch; a violation lasts until power goes (R517, R532, R535). -/
def State.packageReset (s : State) : State :=
  let z := s.cleared false
  let pwr : PwrState := {
    pwrok := s.pwr.pwrok, perst := s.pwr.perst, tripped := s.pwr.tripped, therm := s.pwr.therm, rails := s.pwr.rails
    refs := s.pwr.refs, portsOff := s.pwr.portsOff }
  let z : State := { z with pwr := pwr, sec := { z.sec with erased := s.sec.erased } }
  (if s.sec.erased then z.put SEC_STATUS.violated 0 1 else z).senseFuses

/-- PWROK_RISE: power-up starts (DEDUCED, log entry 5). -/
def execPwrokRise (s : State) : Host.Outcome State Fault Refusal :=
  .next (if s.pwr.pwrok then s else s.setPwr { s.pwr with pwrok := true })

/-- PWROK_FALL: a cold reset. -/
def execPwrokFall (s : State) : Host.Outcome State Fault Refusal := .next (if s.pwr.pwrok then s.coldReset else s)

/-- PERST_FALL: PERST_N has been low for 1 ms. -/
def execPerstFall (s : State) : Host.Outcome State Fault Refusal :=
  .next (if s.pwr.perst then (s.setPwr { s.pwr with perst := false }).packageReset else s)

/-- PERST_RISE: the sequence of R537 goes on from fuse sensing. -/
def execPerstRise (s : State) : Host.Outcome State Fault Refusal :=
  .next (if s.pwr.perst then s else (s.setPwr { s.pwr with perst := true }).senseFuses)

/-- PWR_RESET: RESET in PWR_CMD, at its tick. -/
def State.applyPwrReset (s : State) : State := s.packageReset
def execPwrReset (fn : Func) (s : State) : Host.Outcome State Fault Refusal := s.act (s.pfSample fn (.pwrReset fn))

/-! ## Power-up (R458, R508, R537) -/

/-- The fault history at power-up: copy A, copy B where the check code of a record of A fails, nothing where both fail. -/
def State.history (s : State) (badA badB : List Nat) : List FaultRec :=
  (upto s.nor.logA.length).filterMap fun i =>
    if i ∉ badA then s.nor.logA[i]? else if i ∉ badB then s.nor.logB[i]? else none

/-- The latest action of each unit among fences, lifts, classifications and retirements. -/
def latestActions (l : List FaultRec) : List (Nat × Nat × Nat) :=
  l.foldl (fun m r =>
    if 2 ≤ r.action ∧ r.action ≤ 6 then (m.filter fun x => !(x.1 = r.kind && x.2.1 = r.index)) ++ [(r.kind, r.index, r.action)]
    else m) []

/-- A core of the fence map: the logical index in front of it is renamed, or left without a core (R159); with fewer than 14 good
cores the cluster is out of use (R30) (DEDUCED, log entry 73). -/
def State.mapCore (s : State) (u : Nat) : State :=
  let cl := u / 16
  let s := s.wn .FLT_CORE_FENCE (u / 32) (putBits (s.rn .FLT_CORE_FENCE (u / 32)) (u % 32) (u % 32) 1)
  let s :=
    if (s.goodCores cl).length < 14 then s.unmap cl (upto 15)
    else match (upto 15).find? fun l => s.hasCore (16 * cl + l) && s.phys (16 * cl + l) = u % 16 with
      | some l =>
        match s.substitute cl l with
        | some (q, some m) => (s.unmap cl [m]).setPhys (16 * cl + l) (some q)
        | some (q, none) => s.setPhys (16 * cl + l) (some q)
        | none => s.unmap cl [l]
      | none => s
  s.countCluster cl

/-- A router of the fence map. -/
def State.mapRouter (s : State) (cl : Nat) : State :=
  let s := s.wn .FLT_ROUTER_FENCE (cl / 32) (putBits (s.rn .FLT_ROUTER_FENCE (cl / 32)) (cl % 32) (cl % 32) 1)
  ((s.put NOC_STATUS.fenced cl 1).unmap cl (upto 15)).countCluster cl

/-- A stack of the fence map. -/
def State.mapStack (s : State) (k : Nat) : State := s.put MEM_STATUS.fenced 0 (s.get MEM_STATUS.fenced ||| 2 ^ k)

/-- Load one unit of the fence map (R458). -/
def State.mapUnit (s : State) (kind index : Nat) : State :=
  let cores (s : State) : State := (upto 1024).foldl (fun (s : State) i => s.mapCore (1024 * index + i)) s
  match kind with
  | 0 => s.mapCore index
  | 1 => s.mapRouter index
  | 2 =>
    let k := index / 24576
    let s : State := { s with mt := { s.mt with retired := s.mt.retired ++ [(k, index % 24576)] } }
    s.put MEM_STACK_RETIRED.pages k (s.get MEM_STACK_RETIRED.pages k + 1)
  | 3 => s.mapStack index
  | 4 => cores s
  | 5 =>
    let s := (upto 64).foldl (fun (s : State) i => s.mapRouter (64 * index + i)) (cores s)
    ((upto 4).foldl (fun (s : State) i => s.mapStack (4 * index + i)) s).loseHerding index
  | _ => s.classify kind index

/-- NOR_LOAD_COMPLETE: fence map and fault history are applied; `badA`, `badB`: records of each copy whose check code fails. -/
def execNorLoadComplete (badA badB : List Nat) (s : State) : Host.Outcome State Fault Refusal :=
  s.act (if s.pwr.norDone then s
    else
      let units := (latestActions (s.history badA badB)).filter fun x => x.2.2 ≠ 3 && unitOk x.1 x.2.1
      let s := (units.foldl (fun (s : State) x => s.mapUnit x.1 x.2.1) s).markRetired
      let s := (s.wn .FLT_SERVICE_S 0 s.nor.service).wn .SEC_VIOLATIONS 0 s.nor.violations
      let s := (s.put MGT_STATUS.west_slot 0 s.nor.active.1).put MGT_STATUS.east_slot 0 s.nor.active.2
      s.showLog.setPwr { s.showLog.pwr with norDone := true })

/-- HBM_TRAINING_COMPLETE: the stacks have trained; zeroing starts. -/
def execHbmTrainingComplete (s : State) : Host.Outcome State Fault Refusal :=
  s.act ({ s with mt := { s.mt with trained := true } })

/-- HALF_BOOT_COMPLETE: the boot ROM has checked the half's slots: `a`, `b`: does the image in slot A, in slot B, pass (R508)? The
active one is started, else the other; the half measures it, leaves reset and claims with term 1
(DEDUCED, log entry 123). -/
def execHalfBootComplete (half : Fin 2) (a b : Bool) (cyc : Fin 16) (s : State) : Host.Outcome State Fault Refusal :=
  let h := half.val
  s.act (
    let v := s.activeSlot h
    let ok (v : Nat) : Bool := if v = 0 then a else b
    if h ∈ s.mgt.up ∨ (ok v = false ∧ ok (1 - v) = false) then s
    else
      let s := if ok v then s else s.setSlot h (1 - v)
      let s := s.measureBoot h
      let both := 1 - h ∈ s.mgt.up
      let s := s.setMgt { s.mgt with
        up := s.mgt.up ++ [h], upTick := if both then s.now else s.mgt.upTick
        readyTick := spSet 0 s.mgt.readyTick h (s.now + 1) }
      let s := ((s.put (readyBit h) 0 1).showMeas).showWords .SEC_ID_DIGEST 0 16 s.identity
      s.claimLease h 1#32 cyc.val)

/-! ## Rails and references (R522, R525) -/

/-- Class 0 source of a rail (R495): its die, or 4. -/
def railSrc (r : Nat) : Nat := if r < 12 then r % 4 else 4

/-- A rail of a die is lost: what its regions load or drain is abandoned (R221) (DEDUCED, log entry 109). -/
def State.abandonDie (s : State) (d : Nat) : State := (upto 4).foldl (fun (s : State) q => s.abandonAll (4 * d + q)) s

/-- RAIL_TRIP, a class 0 event (R522). -/
def State.applyRailTrip (rail : Fin 17) (s : State) : State :=
  let r := rail.val
  if r ∈ s.pwr.rails then s
  else
    let s := s.setPwr { s.pwr with rails := s.pwr.rails ++ [r] }
    if r < 4 then (s.loseDieCore r).abandonDie r
    else if r < 8 then (s.loseDieBase (r - 4)).abandonDie (r - 4)
    else if r < 12 then ((upto 4).foldl (fun (s : State) k => s.fenceStack (4 * (r - 8) + k) 0x06) s).abandonDie (r - 8)
    else if r = 12 then ((upto 16).foldl (fun (s : State) k => s.recordFault 3 2 0x06 k) s).trip false
    else
      let s := s.sideDown (r - 13)
      if r = 14 then s.hostLinkDown else s
/-- Without VDD_MGT18 or VDD_MGT33 nothing is sampled: the package is unpowered (R538). -/
def execRailTrip (rail : Fin 17) (s : State) : Host.Outcome State Fault Refusal :=
  s.act (if rail.val ∈ s.pwr.rails then s
    else if 15 ≤ rail.val then s.coldReset
    else s.sampleOnce 0 (railSrc rail.val) (.row (.railTrip rail)))

/-- THERMAL_TRIP: a die sensor at 110 °C, or a stack at 100 °C (sensors 4 to 19); class 0, source 4 (R532). -/
def State.applyThermalTrip (s : State) : State := s.trip true
def execThermalTrip (sensor : Fin 20) (reading : Byte) (s : State) : Host.Outcome State Fault Refusal :=
  s.act (if (sensor.val < 4 ∧ 110 ≤ celsius reading) ∨ (4 ≤ sensor.val ∧ 100 ≤ celsius reading) then
      s.sampleOnce 0 4 (.row (.thermalTrip sensor reading))
    else s)

/-- A clock falls back to REFCLK_SD_W, where it stays: 0 SCLK, 1 MCLK of stacks 8 to 15, 2 HCLK. -/
def State.fallBackClock (s : State) (c : Nat) : State :=
  if c ∈ s.pwr.fallen then s
  else s.setPwr { s.pwr with fallen := s.pwr.fallen ++ [c], switching := s.pwr.switching ++ [c] }

/-- REFCLK_LOSS: 0 REFCLK_SD_W, 1 REFCLK_SD_E, 2 the PCIe reference, 3 TCLK. -/
def State.applyRefclkLoss (ref : Fin 4) (s : State) : State :=
  let r := ref.val
  if r ∈ s.pwr.refs then s
  else
    let s := s.setPwr { s.pwr with refs := s.pwr.refs ++ [r] }
    match r with
    | 1 => ((s.sideDown 1).fallBackClock 0).fallBackClock 1
    | 2 => s.hostLinkDown.fallBackClock 2
    | _ => s.trip false
/-- A trip is a class 0 event, ports that go down are class 4 events; the host link waits for no tick. -/
def execRefclkLoss (ref : Fin 4) (s : State) : Host.Outcome State Fault Refusal :=
  s.act (match ref.val with
    | 1 => s.sampleOnce 4 41 (.row (.refclkLoss ref))
    | 2 => s.applyRefclkLoss ref
    | _ => s.sampleOnce 0 4 (.row (.refclkLoss ref)))

/-- CLOCK_FALLBACK_COMPLETE: the accesses held for the clock are served. -/
def execClockFallbackComplete (clock : Fin 3) (s : State) : Host.Outcome State Fault Refusal :=
  let c := clock.val
  s.act (if c ∈ s.pwr.switching then
      let s := s.setPwr { s.pwr with switching := s.pwr.switching.filter (· ≠ c) }
      match c with
      | 1 => s.servePorts
      | 2 => ((s.mt.held.flatMap Held.pages).eraseDups.foldl (fun (s : State) g => s.endHeld g) s).runMoves
      | _ => s
    else s)

/-- The ports of a side may train again once its rail and its reference are both there. -/
def State.sideBack (s : State) (side : Nat) : State :=
  if 13 + side ∈ s.pwr.rails ∨ (side = 1 ∧ 1 ∈ s.pwr.refs) then s
  else s.setPwr { s.pwr with portsOff := s.pwr.portsOff.filter (· ∉ sidePorts side) }

/-- REFCLK_RETURN; a clock that has fallen back stays where it is. -/
def execRefclkReturn (ref : Fin 4) (s : State) : Host.Outcome State Fault Refusal :=
  s.act ((s.setPwr { s.pwr with refs := s.pwr.refs.filter (· ≠ ref.val) }).sideBack 1)

/-- AVDD_SD_RETURN of the west (0) or east (1) side. -/
def execAvddSdReturn (side : Fin 2) (s : State) : Host.Outcome State Fault Refusal :=
  s.act ((s.setPwr { s.pwr with rails := s.pwr.rails.filter (· ≠ 13 + side.val) }).sideBack side.val)

/-! ## The TAP (R539) -/

/-- The next state of the TAP of IEEE 1149.1 at a rising edge of TCK (PRESUMED, log entry 124). -/
def TapState.next : TapState → Bool → TapState
  | .testLogicReset, true => .testLogicReset
  | .testLogicReset, false => .runTestIdle
  | .runTestIdle, true => .selectDR
  | .runTestIdle, false => .runTestIdle
  | .selectDR, true => .selectIR
  | .selectDR, false => .captureDR
  | .captureDR, true => .exit1DR
  | .captureDR, false => .shiftDR
  | .shiftDR, true => .exit1DR
  | .shiftDR, false => .shiftDR
  | .exit1DR, true => .updateDR
  | .exit1DR, false => .pauseDR
  | .pauseDR, true => .exit2DR
  | .pauseDR, false => .pauseDR
  | .exit2DR, true => .updateDR
  | .exit2DR, false => .shiftDR
  | .updateDR, true => .selectDR
  | .updateDR, false => .runTestIdle
  | .selectIR, true => .testLogicReset
  | .selectIR, false => .captureIR
  | .captureIR, true => .exit1IR
  | .captureIR, false => .shiftIR
  | .shiftIR, true => .exit1IR
  | .shiftIR, false => .shiftIR
  | .exit1IR, true => .updateIR
  | .exit1IR, false => .pauseIR
  | .pauseIR, true => .exit2IR
  | .pauseIR, false => .pauseIR
  | .exit2IR, true => .updateIR
  | .exit2IR, false => .shiftIR
  | .updateIR, true => .selectDR
  | .updateIR, false => .runTestIdle

/-- Is TDO driven in a state? -/
def TapState.shifts (t : TapState) : Bool := t = .shiftDR || t = .shiftIR

/-- TAP_TCK_EDGE: an edge of TCK with TMS and TDI, or TRST_N low. Rising edges move the TAP, falling ones drive or release TDO. -/
def execTapTckEdge (rising tms _tdi trst : Bool) (s : State) : Host.Outcome State Fault Refusal :=
  .next (if s.awake then
      let t := if trst then TapState.testLogicReset else if rising then s.pwr.tap.next tms else s.pwr.tap
      let d := if trst then false else if rising then s.pwr.tdo && t.shifts else t.shifts
      s.setPwr { s.pwr with tap := t, tdo := d }
    else s)

end Sys2Proof.Machine
end

