-- ==== Sys2Proof/Machine/HostIf.lean ====
section
/-! DEFINITION. Machine/HostIf.lean: the host interface (R13, R15 to R19, R543 to R555, R561, R565 to R567): register accesses,
the PCIe link, functions, apertures. -/

namespace Sys2Proof.Machine

def State.setHif (s : State) (x : HifState) : State := { s with hif := x }

/-! ## Finding a register (R19, R20) -/

/-- Copies in one function's view. -/
def RegInfo.count (i : RegInfo) : Nat := (i.dims.map (·.1)).foldl (· * ·) 1

/-- The copy that an offset from the register's base falls in, and the bytes that remain. -/
def walkDims : List (Nat × Nat) → Nat → Option (Nat × Nat)
  | [], o => some (0, o)
  | (n, st) :: t, o =>
    if o / st < n then
      (walkDims t (o % st)).map fun x => (o / st * (t.map (·.1)).foldl (· * ·) 1 + x.1, x.2)
    else none

/-- Bytes of a register. -/
def RegInfo.bytes (i : RegInfo) : Nat := if i.wide then 8 else 4

/-- The register, copy and byte within it at an offset of a function's BAR0 (DEDUCED, log entry 125). -/
def findReg (fn off : Nat) : Option (Reg × Nat × Nat) :=
  Reg.all.findSome? fun r =>
    if r.info.base ≤ off then
      match walkDims r.info.dims (off - r.info.base) with
      | some (i, b) => if b < r.info.bytes then some (r, (if r.info.perFn then fn * r.info.count else 0) + i, b) else none
      | none => none
    else none

/-! ## Accesses (R13, R15, R17, R19) -/

/-- Bits of the fields of some access types. -/
def accMask (r : Reg) (p : Access → Bool) : Nat :=
  (r.info.fields.filter fun f => p f.acc).foldl (fun m f => m ||| (2 ^ (f.hi + 1) - 2 ^ f.lo)) 0

/-- What a write of v to the bits of a mask leaves (R15). -/
def Reg.written (r : Reg) (old v mask : DWord) : DWord :=
  let m (p : Access → Bool) : DWord := BitVec.ofNat 64 (accMask r p) &&& mask
  let rw := m fun a => a = .rw
  ((((old &&& ~~~rw) ||| (v &&& rw)) &&& ~~~(v &&& m fun a => a = .w1c)) ||| (v &&& m fun a => a = .w1s))

/-- Fields whose values outside a range are taken as the nearer limit (R331, R332, R404, R455, R484, R541)
(DEDUCED, log entry 126). -/
def clampOf : Reg → List (Fld × Nat × Nat)
  | .CTX_COMMIT_MARGIN => [(CTX_COMMIT_MARGIN.value, 64, 1024)]
  | .CTX_VOTE_TIMEOUT => [(CTX_VOTE_TIMEOUT.value, 100, 60000)]
  | .CTX_PREEMPT_DEADLINE => [(CTX_PREEMPT_DEADLINE.limit_us, 1, 1000)]
  | .LNK_SHEPHERD_TIMEOUT => [(LNK_SHEPHERD_TIMEOUT.us, 100, 60000)]
  | .FLT_REPAIR_TIMEOUT => [(FLT_REPAIR_TIMEOUT.seconds, 1, 3600)]
  | .FLT_CTX_SENT_PERIOD => [(FLT_CTX_SENT_PERIOD.period, 1, 1024)]
  | .SNP_SLOTS => [(SNP_SLOTS.slots, 2, 64)]
  | .PWR_TARGET => [(PWR_TARGET.watts, 1800, 3200)]
  | .PWR_TJ => [(PWR_TJ.target, 85, 103), (PWR_TJ.alert, 90, 105)]
  | .PWR_SAG => [(PWR_SAG.mv, 20, 80), (PWR_SAG.in_level, 16, 31)]
  | _ => []

/-- Is a write discarded by its register's own rule: the step state is not idle (R324, R343, R364, R385, R434, R484), or the package
has joined (R455)? -/
def State.writeLocked (s : State) (r : Reg) (i : Nat) : Bool :=
  let busy (c : Nat) : Bool := s.sstate c ≠ ssIdle
  match r with
  | .CTX_BANK_BASE | .CTX_BANK_SIZE | .CTX_BANK_DELTA => busy i
  | .NUM_CTX_MAP_BASE | .NUM_CTX_BLOCK_OFFSET | .NUM_CTX_WORK_BASE | .NUM_CTX_STATS_BASE => busy i
  | .FIN_CTX_TABLE_BASE | .FIN_CTX_MOVER_BASE | .FIN_CTX_MOVER_COUNT => busy i
  | .FLT_CTX_SENT_BASE | .FLT_CTX_SENT_AREA => busy i
  | .COL_TABLE_BASE => busy (s.get LNK_JOB_CTX.context)
  | .LNK_JOB_ID | .LNK_JOB_DIMS | .LNK_JOB_COORD => s.flag LNK_STATUS.joined
  | _ => false

/-- Entry i of HIF_XLAT, over all functions, takes a value; entries beyond the revision's count take nothing (R566). -/
def State.writeXlat (s : State) (i : Nat) (v : DWord) : State :=
  if s.xlatCount ≤ i % 16384 then s else s.wr .HIF_XLAT i (Reg.written .HIF_XLAT (s.rd .HIF_XLAT i) v (BitVec.allOnes 64))

/-- A write to a register that a row of its own writes: what the row does where halves can be written (R15); a command register takes
its commands by their rows (DEDUCED, log entry 127). -/
def State.writeOwn (s : State) (r : Reg) (i : Nat) (v : DWord) : State :=
  match r with
  | .HIF_XLAT => s.writeXlat i v
  | .HRD_RESERVE => s.writeReserve i 0 v.toNat
  | .HRD_RESERVE_BASE => s.writeReserve i 1 v.toNat
  | .HRD_RESERVE_SIZE => s.writeReserve i 2 v.toNat
  | .NOC_SPILL_BASE => s.writeSpill i false v.toNat
  | .NOC_SPILL_SIZE => s.writeSpill i true v.toNat
  | .NUM_CTX_SEED => s.writeSeed i v
  | _ => s

/-- A write of some bits of a register that has no row of its own (DEDUCED, log entry 127). -/
def State.writeReg (s : State) (fn : Func) (r : Reg) (i : Nat) (v mask : DWord) : State :=
  if !s.sees fn.val r i then s.badAccess fn
  else if r.info.own then s.writeOwn r i (r.written (s.rd r i) v mask)
  else if s.writeLocked r i then s
  else
    let s := s.wr r i (r.written (s.rd r i) v mask)
    let s := (clampOf r).foldl (fun (s : State) c => s.put c.1 i (max c.2.1 (min c.2.2 (s.get c.1 i)))) s
    match r with
    | .HIF_MSIX_TABLE => s.sendPending (i / 512)
    | .LNK_FLOCK => if s.joined then s.showFlock else s
    | .TIR_EXTENT => s.showSlotOwners
    | _ => s

/-- REGISTER_WRITE: an aligned 32-bit or 64-bit write; what lies at no register is reserved (R17). -/
def execRegisterWrite (fn : Func) (offset : Fin 67108864) (wide : Bool) (value : DWord) (s : State) :
    Host.Outcome State Fault Refusal :=
  let o := offset.val
  let part (s : State) (o : Nat) (w : DWord) : State :=
    match findReg fn.val o with
    | some (r, i, 0) => s.writeReg fn r i w 0xFFFFFFFF#64
    | some (r, i, _) => s.writeReg fn r i (w <<< 32) (0xFFFFFFFF#64 <<< 32)
    | none => s
  s.act (if !s.decodes fn then s
    else if o % (if wide then 8 else 4) ≠ 0 then s.badAccess fn
    else if wide then
      match findReg fn.val o with
      | some (r, i, 0) => if r.info.wide then s.writeReg fn r i value (BitVec.allOnes 64)
          else part (part s o (value &&& 0xFFFFFFFF#64)) (o + 4) (value >>> 32)
      | _ => part (part s o (value &&& 0xFFFFFFFF#64)) (o + 4) (value >>> 32)
    else part s o (value &&& 0xFFFFFFFF#64))

/-- BAD_REGISTER_ACCESS: a misaligned access, or one that is neither 32 nor 64 bits wide (R19, R552). -/
def execBadRegisterAccess (fn : Func) (write : Bool) (offset width : Nat) (s : State) : Host.Outcome State Fault Refusal :=
  s.act (if s.decodes fn ∧ ((width ≠ 4 ∧ width ≠ 8) ∨ offset % width ≠ 0) then
      let s := s.badAccess fn
      if write then s else s.emit (.regRead fn.val offset (BitVec.allOnes 64))
    else s)

/-- The code of a matcher entry's state (R64). -/
def MState.code : MState → Nat
  | .gathering => 1 | .ready => 2 | .issuing => 3 | .inEngines => 4 | .finishReady => 5 | .finishing => 6 | .nullRetire => 7

/-- The 64 bits of a matcher entry (R64). -/
def MEntry.word (m : MEntry) : Nat :=
  2 ^ 63 + m.op * 2 ^ 58 + m.tag.toNat % 4 * 2 ^ 56 + m.tag.toNat * 2 ^ 40 + m.arrived.toNat * 2 ^ 32 + m.landed.toNat * 2 ^ 24 +
    m.nulls.toNat * 2 ^ 16 + m.state.code * 2 ^ 13 + (if m.late then 2 ^ 12 else 0) + m.epoch.toNat

/-- No entry and no engine command (R84, R94). -/
def CoreState.atIdle (c : CoreState) : Bool :=
  c.entries.isEmpty && c.tq.isEmpty && c.vq.isEmpty && c.mq.isEmpty && c.executing.isEmpty

/-- What a read of a register returns: the file's value, but for what a core shows of itself (R64, R94, R95)
(DEDUCED, log entry 169). -/
def State.view (s : State) (r : Reg) (i : Nat) : Nat :=
  match r with
  | .CORE_STATUS =>
    let c := s.core i
    let p := regionOf i
    let b := decide (s.rstate p ≠ rsUnbound ∧ s.rstate p ≠ rsLoading ∧ lcoreOf i < s.regionLcores p)
    let w := putBits (putBits (s.rn r i) 0 0 (if b then 1 else 0)) 1 1 (if c.atIdle then 1 else 0)
    putBits (putBits w 15 8 c.entries.length) 31 16 c.base.toNat
  | .CORE_MATCH_ENTRY =>
    (((s.core (i / 128)).entries.find? fun m => 4 * m.op + m.tag.toNat % 4 = i % 128).map MEntry.word).getD 0
  | r => s.rn r i

/-- COUNTER_SPLIT_READ: an aligned 32-bit read. Of a register of 64 bits the lower address captures bits [63:32] for the function's
next read of the upper address (R13, R551). A function has one holding register, which the latest lower read overwrites; an upper read
with no capture of its own returns the live half (DESIGN CHOICE, log entry 130). What lies at no register reads as zero (R17). -/
def execCounterSplitRead (fn : Func) (offset : Fin 67108864) (s : State) : Host.Outcome State Fault Refusal :=
  let o := offset.val
  let put (s : State) (v : Nat) : State := s.emit (.regRead fn.val o (BitVec.ofNat 64 v))
  s.act (if !s.decodes fn then s
    else if o % 4 ≠ 0 then put (s.badAccess fn) 0xFFFFFFFF
    else
      match findReg fn.val o with
      | some (r, i, b) =>
        let v := s.view r i
        if !s.sees fn.val r i then put (s.badAccess fn) 0xFFFFFFFF
        else if !r.info.wide then put s v
        else if b = 0 then put (s.setHif { s.hif with hold := spSet (0, 0) s.hif.hold fn.val (o + 1, v / 2 ^ 32) }) (v % 2 ^ 32)
        else
          let h := spGet (0, 0) s.hif.hold fn.val
          if h.1 = o - 4 + 1 then put (s.setHif { s.hif with hold := spSet (0, 0) s.hif.hold fn.val (0, 0) }) h.2
          else put s (v / 2 ^ 32)
      | none => put s 0)

/-! ## The PCIe link (R543 to R545) -/

/-- The trained link: rate code at most HIF_CONFIG.max_rate allows; ×16, ×8 or ×4, else the port stays down. -/
def State.linkTrained (s : State) (rate width : Nat) : State :=
  let r := min rate (4 - s.get HIF_CONFIG.max_rate)
  let w := if 16 ≤ width then 16 else if 8 ≤ width then 8 else if 4 ≤ width then 4 else 0
  if r = 0 ∨ w = 0 then ((s.put HIF_STATUS.link_up 0 0).put HIF_STATUS.rate 0 0).put HIF_STATUS.width 0 0
  else ((s.put HIF_STATUS.link_up 0 1).put HIF_STATUS.rate 0 r).put HIF_STATUS.width 0 w

/-- PCIE_LINK_UP: what the other end offers; messages held go. -/
def execPcieLinkUp (rate : Fin 5) (width : Nat) (s : State) : Host.Outcome State Fault Refusal :=
  s.act (if s.flag HIF_STATUS.link_up ∨ 14 ∈ s.pwr.rails ∨ 2 ∈ s.pwr.refs then s
    else (upto 17).foldl (fun (s : State) f => s.sendPending f) (s.linkTrained rate.val width))

/-- PCIE_LINK_DOWN. -/
def execPcieLinkDown (s : State) : Host.Outcome State Fault Refusal := s.act s.hostLinkDown

/-- HOT_RESET: the link retrains; nothing else is reset. -/
def execHotReset (rate : Fin 5) (width : Nat) (s : State) : Host.Outcome State Fault Refusal :=
  s.act (if s.flag HIF_STATUS.link_up then s.linkTrained rate.val width else s)

/-! ## Functions (R535, R546, R549, R550) -/

/-- A register of a function's host-interface state (R550, R567). -/
def flrReg (r : Reg) : Bool :=
  match r with
  | .HIF_APERTURE | .HIF_XLAT | .HIF_MSIX_TABLE | .HIF_MSIX_PBA | .HIF_BAD_ACCESS | .HIF_DMA_ERRORS | .HIF_DMA_READ_BYTES
  | .HIF_DMA_WRITE_BYTES => true
  | _ => false

/-- VF_FLR: the function's context is destroyed and its host-interface state cleared. -/
def execVfFlr (fn : Func) (s : State) : Host.Outcome State Fault Refusal :=
  let f := fn.val
  s.act (if f = 0 then s
    else
      let s := match (upto 31).find? fun c => s.isFnOf f c with
        | some c => s.destroyCtx c
        | none => s
      let s := s.clearRegs fun r i => flrReg r && decide (i / r.info.count = f)
      let slots := s.fch.slots.map fun e =>
        (e.1, { e.2 with strayHost := e.2.strayHost.map fun x => if x.1 = f then (f, true) else x })
      let s : State := { s with fch := { s.fch with slots := slots } }
      s.setHif { s.hif with
        d3 := s.hif.d3.filter (· ≠ f), msixOn := s.hif.msixOn.filter (· ≠ f), msixMask := s.hif.msixMask.filter (· ≠ f)
        due := s.hif.due.filter fun x => x.1 ≠ f, hold := s.hif.hold.filter fun x => x.1 ≠ f })

/-- PF_FLR: a package reset. -/
def execPfFlr (s : State) : Host.Outcome State Fault Refusal := s.act s.packageReset

/-- POWER_STATE_CHANGE: D3hot, or back to D0 with its held messages sent. -/
def execPowerStateChange (fn : Func) (d3 : Bool) (s : State) : Host.Outcome State Fault Refusal :=
  let f := fn.val
  s.act (
    let l := s.hif.d3.filter (· ≠ f)
    if d3 then s.setHif { s.hif with d3 := l ++ [f] }
    else (s.setHif { s.hif with d3 := l }).sendPending f)

/-- A word of configuration space that the spec gives (R546) (PRESUMED, log entry 128). -/
def State.configWord (s : State) (fn offset : Nat) (value : Word) : Word :=
  if offset = 0 then (if fn = 0 then 0x97161FD7#32 else 0x97171FD7#32)
  else if offset = 8 then BitVec.ofNat 32 (0x12000000 + s.get DEV_ID.revision)
  else value

/-- CONFIG_REQUEST: retried (CRS) until the NOR load has ended; a function that is not enabled answers all ones. -/
def execConfigRequest (fn : Func) (req : ConfigReq) (s : State) : Host.Outcome State Fault Refusal :=
  let f := fn.val
  let offset : Nat := match req with | .read o _ => o | .write o _ => o | _ => 0
  s.act (if s.pwr.norDone = false then s.emit (.configReply f offset none)
    else if s.get HIF_STATUS.vfs < f then s.emit (.configReply f offset (some 0xFFFFFFFF#32))
    else
      match req with
      | .read o v => s.emit (.configReply f o (some (s.configWord f o v)))
      | .vfs n => if f = 0 then s.put HIF_STATUS.vfs 0 n.val else s
      | .msix en mask =>
        let on := s.hif.msixOn.filter (· ≠ f) ++ (if en then [f] else [])
        let ms := s.hif.msixMask.filter (· ≠ f) ++ (if mask then [f] else [])
        (s.setHif { s.hif with msixOn := on, msixMask := ms }).sendPending f
      | .write _ _ => s)

/-! ## The aperture (R553) -/

/-- The context and device address that an offset of BAR2 reaches. -/
def State.segment (s : State) (fn off : Nat) : Option (Ctx × Nat) :=
  let i := 16 * fn + off / 2 ^ 28
  let c := if fn = 0 then s.get HIF_APERTURE.context i else ((upto 31).find? fun c => s.isFnOf fn c).getD 31
  if h : c < 31 then
    if s.flag HIF_APERTURE.valid i ∧ s.ctxExists c = true then
      some (⟨c, h⟩, s.get HIF_APERTURE.base i * 2 ^ 28 + off % 2 ^ 28)
    else none
  else none

/-- Would an access wait at the tier mover or a memory port? -/
def State.waits (s : State) (r : Requester) (a n : Nat) (write : Bool) : Bool :=
  s.portHolds r a n write || match s.route r a n write with | .hold _ => true | _ => false

/-- APERTURE_READ: len bytes at an offset of BAR2; all ones where it is invalid. -/
def execApertureRead (fn : Func) (off : Fin 4294967296) (len bad : Nat) (fails : Fin 3) (poison : Bool) (s : State) :
    Host.Outcome State Fault Refusal :=
  let ones (s : State) : State := (s.badAccess fn).emit (.aperture fn.val (List.replicate len 0xFF#8))
  s.act (if !s.decodes fn then s
    else
      match s.segment fn.val off.val with
      | none => ones s
      | some (c, a) =>
        if s.waits (.host c) a len false then s.access (.host c) a len none bad fails.val poison
        else
          match s.serveRead (.host c) a len bad fails.val poison with
          | (s, .data bs) => s.emit (.aperture fn.val bs)
          | (s, _) => ones s)

/-- APERTURE_WRITE: a write to part of an HBM or CXL line is one read-merge-write of its lines; an invalid one writes nothing. -/
def execApertureWrite (fn : Func) (off : Fin 4294967296) (data : List Byte) (s : State) : Host.Outcome State Fault Refusal :=
  s.act (if !s.decodes fn then s
    else
      match s.segment fn.val off.val with
      | none => s.badAccess fn
      | some (c, a) =>
        let n := data.length
        let lo := a / 64 * 64
        let len := ceilDiv (a + n) 64 * 64 - lo
        if s.waits (.host c) a n true then s.access (.host c) a n (some data)
        else if (a % 64 = 0 ∧ n % 64 = 0) ∨ 0x7F0000000000 ≤ a then
          match s.serveWrite (.host c) a data with
          | (s, .ack) => s
          | (s, _) => s.badAccess fn
        else
          match s.route (.host c) lo len true with
          | .to _ =>
            match s.serveRead (.host c) lo len with
            | (s, .data old) =>
              (s.serveWrite (.host c) lo (old.take (a - lo) ++ data ++ old.drop (a - lo + n))).1
            | (s, _) => s.badAccess fn
          | _ => s.badAccess fn)

/-! ## Host-memory windows (R555) -/

/-- HIF_XLAT_WRITE: a function writes its own entries, the physical function those of every function; entries beyond the revision's
count take nothing (R566). -/
def execHifXlatWrite (who view : Func) (entry : Fin 16384) (value : DWord) (s : State) : Host.Outcome State Fault Refusal :=
  s.act (if !s.decodes who then s
    else if who.val ≠ 0 ∧ who ≠ view then s.badAccess who
    else s.writeXlat (16384 * view.val + entry.val) value)

/-! ## MCTP and DOE (R487, R512, R561) -/

/-- MCTP_PCIE_MESSAGE: a message of Type 1 to the physical function, taken under a lease term. -/
def execMctpPcieMessage (body : List Byte) (term : Word) (s : State) : Host.Outcome State Fault Refusal :=
  s.act (if !s.flag HIF_STATUS.link_up then s
    else if !s.led ∨ term.toNat ≠ s.rn .MGT_TERM then s.emit .mctpNotReady
    else s.emit (.mctp body))

/-- DOE_OBJECT: an object in the mailbox of the physical function; SPDM objects alone are served
(DEDUCED, log entry 129). -/
def execDoeObject (body : List Byte) (spdm : Bool) (term : Word) (s : State) : Host.Outcome State Fault Refusal :=
  s.act (if !s.flag HIF_STATUS.link_up ∨ !spdm then s
    else if !s.led ∨ term.toNat ≠ s.rn .MGT_TERM ∨ s.spdmOk = false then s.spdmReply 0xFF false []
    else s.emit (.doe body))

end Sys2Proof.Machine
end

