-- ==== Sys2Proof/Machine/Resilience.lean ====
section
/-! DEFINITION. Machine/Resilience.lean: failure paths at the shepherd (R469, R470, R482, R483), fill (R471), restore (R478),
replay (R480). -/

namespace Sys2Proof.Machine

/-! ## Failure paths (R469, R470) -/

/-- Ticks in a second: one tick is 160 ns (R10). -/
def secTicks : Nat := 6250000

/-- Precedence class of a failure (R46, R450): 0 power, 4 links, 5 memory, 6 cores and routers, 7 step health; rows by number. -/
def pathClass (row : Nat) : Nat :=
  match row with
  | 3 => 0
  | 9 | 10 | 11 | 12 => 4
  | 4 | 5 => 5
  | 1 | 2 => 6
  | _ => 7

/-- Does a row of R470 pause the job? -/
def pathPauses (row : Nat) : Bool := row = 2 || row = 3 || row = 4 || row = 7 || row = 10 || row = 11 || row = 12
/-- Does it cause a rollback or a takeover from its start (R476)? (DEDUCED, log entry 113). -/
def pathCounts (row : Nat) : Bool := row = 3 || row = 7 || row = 10 || row = 11

/-- Put a path in its place: by class, then by the linear position of its source. -/
def State.insertPath (s : State) (p : FailPath) : List FailPath → List FailPath
  | [] => [p]
  | q :: t =>
    if pathClass p.row < pathClass q.row ∨ (pathClass p.row = pathClass q.row ∧ s.linear p.src < s.linear q.src) then p :: q :: t
    else q :: s.insertPath p t

/-- The job's state as the paths leave it: running or replaying once none is in progress (R484). -/
def State.idleJob (s : State) : Nat := if s.flt.replay then 4 else 0

/-- Send PAUSE or RESUME: the handling shepherd to the other shepherds, each of them to its flock. -/
def State.sendPause (s : State) (on handling : Bool) : State :=
  let l := (upto s.jobSize).map s.unlinear
  let l := l.filter fun x => x ≠ s.coord && (s.sameFlock x s.coord || (handling && s.shepherdOf x = x))
  l.foldl (fun (s : State) x => s.sendTo x (.pause x on)) s

/-- The job pauses for a path; a fill or a restore under way stays shown. -/
def State.setPaused (s : State) (row : Nat) : State :=
  let s := if s.get FLT_JOB_STATE.state = 2 ∨ s.get FLT_JOB_STATE.state = 3 then s else s.put FLT_JOB_STATE.state 0 1
  let s := s.put FLT_JOB_STATE.path 0 row
  if pathCounts row then s.setFlt { s.flt with failTicks := s.now :: s.flt.failTicks } else s

/-- The job runs again. -/
def State.setResumed (s : State) : State :=
  let s := if s.get FLT_JOB_STATE.state = 1 then s.put FLT_JOB_STATE.state 0 s.idleJob else s
  s.put FLT_JOB_STATE.path 0 0

/-- The neighbours of a coordinate. -/
def State.neighbours (s : State) (c : Nat) : List Nat :=
  ((upto 4).filter fun a => decide (1 < s.ring_ a)).flatMap fun a => [s.nbr c a true, s.nbr c a false]

/-- Has every neighbour of a coordinate reported its port to it down (R470, row 11)? -/
def State.lostPackage (s : State) (ps : List FailPath) (c : Nat) : Bool :=
  (s.neighbours c).all fun n => ps.any fun p => p.row = 10 && p.src = n && p.other = c

/-- FAILURE_RECORD: a member's record reaches its shepherd. For a port that is down `other` is the other end of the link, with
the strikes of both ports within 720 service hours; for a package lost it is that package (DEDUCED, log entry 112). -/
def execFailureRecord (row : Fin 16) (src other : Word) (srcStrikes otherStrikes : Nat) (s : State) :
    Host.Outcome State Fault Refusal :=
  let r := row.val
  let a := src.toNat
  let b := other.toNat
  s.act (if s.led = false ∨ s.joined = false ∨ s.flag LNK_STATUS.shepherd = false ∨ s.coordOk a = false ∨ s.sameFlock a s.coord = false ∨
      pathPauses r = false then s
    else if s.flt.paths.any fun p => p.row = r && p.src = a && p.other = b then s
    else
      let target : Option Nat :=
        match r with
        | 3 => some a
        | 11 => some b
        | 10 =>
          if s.flt.paths.any (fun p => p.row = 10 && p.src = b && p.other = a) then none
          else if otherStrikes < srcStrikes ∨ (srcStrikes = otherStrikes ∧ s.linear b < s.linear a) then some a
          else some b
        | _ => none
      let p : FailPath := { row := r, src := a, other := b, tick := s.now, takeover := target }
      let ps := s.insertPath p s.flt.paths
      let ps := if r = 10 ∧ s.lostPackage ps b = true then
          s.insertPath { row := 11, src := a, other := b, tick := s.now, takeover := some b }
            (ps.filter fun q => !(q.row = 10 && (q.other = b || q.src = b)))
        else ps
      let first := s.flt.paths.isEmpty
      let s := (s.setFlt { s.flt with paths := ps }).setPaused r
      let s := s.put FLT_JOB_STATE.path 0 ((ps.head?.map fun q => q.row).getD 0)
      if first then s.sendPause true true else s)

/-- PAUSE: a PAUSE message of a handling shepherd, with the path's row; a shepherd forwards it to its flock. -/
def execPause (row : Fin 16) (s : State) : Host.Outcome State Fault Refusal :=
  s.act (if s.led && s.joined then
      let s := s.setPaused row.val
      if s.flag LNK_STATUS.shepherd then s.sendPause true false else s
    else s)

/-- RESUME: `done`, the source of a path of this shepherd that has finished; none: a RESUME message of another one. It is held
until every path has finished (R483). -/
def execResume (done : Option Word) (s : State) : Host.Outcome State Fault Refusal :=
  s.act (if s.led = false ∨ s.joined = false then s
    else
      match done with
      | none =>
        if s.flt.paths.isEmpty then
          let s := s.setResumed
          if s.flag LNK_STATUS.shepherd then s.sendPause false false else s
        else s.setFlt { s.flt with resumeHeld := true }
      | some a =>
        if s.flt.paths.any fun p => p.src = a.toNat then
          let ps := dropFirst (fun p => decide (p.src = a.toNat)) s.flt.paths
          let s := s.setFlt { s.flt with paths := ps }
          match ps with
          | p :: _ => (s.setFlt { s.flt with resumeHeld := true }).put FLT_JOB_STATE.path 0 p.row
          | [] => ((s.setFlt { s.flt with resumeHeld := false }).setResumed).sendPause false true
        else s)

/-- Has FLT_REPAIR_TIMEOUT gone by at a tick for the local repair of a coordinate (R470)? -/
def State.repairDue (s : State) (src tick : Nat) (p : FailPath) : Bool :=
  p.row = 2 && p.src = src && p.takeover.isNone &&
    decide (p.tick + secTicks * max 1 (min 3600 (s.get FLT_REPAIR_TIMEOUT.seconds)) ≤ tick)

/-- REPAIR_TIMEOUT: FLT_REPAIR_TIMEOUT has gone by since a local repair began: it becomes a takeover. -/
def State.applyRepairTimeout (src : Word) (s : State) : State :=
  let due := s.repairDue src.toNat s.now
  let turn (p : FailPath) : FailPath := if due p then { p with takeover := some p.src } else p
  if s.led && s.flt.paths.any due then
    s.setFlt { s.flt with paths := s.flt.paths.map turn, failTicks := s.now :: s.flt.failTicks }
  else s
def execRepairTimeout (src : Word) (s : State) : Host.Outcome State Fault Refusal :=
  s.act (if s.led && s.flt.paths.any (s.repairDue src.toNat (s.now + 1)) then s.sampleOnce 11 0 (.row (.repairTimeout src)) else s)

/-- PORT_DOWN_TIMEOUT: a port with a role of the torus has been down for 1 s: a failure record goes to the shepherd. -/
def execPortDownTimeout (port : Fin 9) (s : State) : Host.Outcome State Fault Refusal :=
  let k := port.val
  let role := s.get LNK_PORT_CFG.role k
  s.act (match (s.port k).down with
    | some t =>
      if s.led ∧ s.joined ∧ role < 8 ∧ s.untrained role = false ∧ s.portUp k = false ∧ t + secTicks ≤ s.now then
        (s.setPort k { s.port k with down := none }).sendFailure 10
      else s
    | none => s)

/-- TICK_SYNC_TIMEOUT: tick sync has not come back for 1 s: fill in place. -/
def execTickSyncTimeout (s : State) : Host.Outcome State Fault Refusal :=
  s.act (if s.led && s.joined && s.flag LNK_STATUS.sync_lost && decide (s.lnk.lostTick + secTicks ≤ s.now) then
      (s.setLnk { s.lnk with lostTick := s.now }).sendFailure 12
    else s)

/-! ## Fill (R471, R482) -/

/-- The live replica that pushes a part: its own position's, else the next live one. -/
def pusher (rs live : List Nat) (r : Nat) : Option Nat :=
  ((upto rs.length).map fun i => rs.getD ((r + i) % rs.length) 0).find? fun x => x ∈ live

/-- The digests of the four tables: numerics map, coefficient table, collective table, mover list. -/
def State.tableDigests (s : State) (c : Nat) : List (List Byte) :=
  let ml := ((s.engRead c (s.rn .FIN_CTX_MOVER_BASE c) (32 * s.rn .FIN_CTX_MOVER_COUNT c)).2).getD []
  [Config.sha3 (s.nm c).map.flatten, Config.sha3 (s.fn c).table.flatten, Config.sha3 s.lnk.table.flatten, Config.sha3 ml]

/-- Is the read of the mover list, whose digest a fill carries, held? -/
def State.listHeld (s : State) (c : Nat) : Bool := s.engHeld c (s.rn .FIN_CTX_MOVER_BASE c) (32 * s.rn .FIN_CTX_MOVER_COUNT c)

/-- The values that the replica at the lowest live position sends. -/
def State.fillBytes (s : State) (c : Nat) : List Byte :=
  natLe 8 (s.rn .NUM_CTX_SEED c) ++ natLe 8 (s.rn .CTX_STEP c) ++ natLe 4 (s.rn .CTX_TAG_BASE c) ++
    natLe 4 (s.rn .CTX_LAYOUT_EPOCH c) ++ (s.tableDigests c).flatten

/-- FILL_READY: the package of a coordinate reports ready; `live`: its replicas that are live at its STEP. The package filled
begins, each pusher sends its parts; with no live replica the job rolls back, or stays paused where no snapshot is complete
(DESIGN CHOICE, log entry 111). -/
def execFillReady (coord : Word) (live : List Word) (s : State) : Host.Outcome State Fault Refusal :=
  let C := coord.toNat
  s.act (match s.jobCtx with
    | some c =>
      if s.led = false ∨ s.joined = false ∨ s.coordOk C = false ∨ s.sstate c ≠ ssIdle ∨ s.listHeld c = true then s
      else
        let rs := s.replicas C
        let lv := (rs.filter fun x => decide (x ∈ live.map BitVec.toNat)).filter (· ≠ C)
        if lv.isEmpty then
          if s.judges C then
            let s := s.setFlt { s.flt with failTicks := s.now :: s.flt.failTicks }
            if s.fullSlots.isEmpty then s.emit (.lostReport C) else s
          else s
        else if C = s.coord then
          let s := s.setFlt { s.flt with fill := some s.now, fillValues := false, fillBad := false }
          ((s.put FLT_JOB_STATE.state 0 2).leadMode).sendTo (s.shepherdOf C) (.ready (s.shepherdOf C))
        else if s.coord ∈ lv then
          let u := s.bankUnits c
          let push (s : State) (r : Nat) : State :=
            let n := partFirst u rs.length (r + 1) - partFirst u rs.length r
            if pusher rs lv r = some s.coord then s.sendTo C (.fillPart C (partFirst u rs.length r) n) (ceilDiv (65536 * n) 240) 2
            else s
          let s := (upto rs.length).foldl push s
          let bs := s.fillBytes c
          if lv.head? = some s.coord then s.sendTo C (.fillValues C bs) (ceilDiv bs.length 240) else s
        else s
    | none => s)

/-- End a fill: back to the paused job. -/
def State.endFill (s : State) (status : Nat) : State :=
  let s := s.setFlt { s.flt with fill := none, fillValues := false, fillBad := false }
  ((s.put FLT_JOB_STATE.state 0 1).leadMode).sendTo (s.shepherdOf s.coord) (.fillResult s.coord status)

/-- Set the four values of a fill or a restore: the restore setting of CTX_STEP. -/
def State.setValues (s : State) (c seed step tagBase layout : Nat) : State :=
  let s := (s.wn .NUM_CTX_SEED c seed).wn .CTX_STEP c step
  let s := (s.put CTX_TAG_BASE.base c tagBase).wn .CTX_LAYOUT_EPOCH c layout
  s.setStp c { s.stp c with layout := true }

/-- FILL_VALUES: the values and digests reach the package that is filled. -/
def execFillValues (seed step : DWord) (tagBase : Tag) (layout : Word) (digests : List (List Byte)) (s : State) :
    Host.Outcome State Fault Refusal :=
  s.act (match s.flt.fill, s.jobCtx with
    | some _, some c =>
      if !s.led || s.listHeld c then s
      else
      let s := s.setValues c seed.toNat step.toNat tagBase.toNat layout.toNat
      if digests = s.tableDigests c then s.setFlt { s.flt with fillValues := true } else s.endFill stBAD_DESCRIPTOR
    | _, _ => s)

/-- FILL_COMPLETE: every part has been acknowledged. -/
def execFillComplete (s : State) : Host.Outcome State Fault Refusal :=
  s.act (if s.led && s.flt.fill.isSome && s.flt.fillValues then (s.bump .SNP_FILLS).endFill stOK else s)

/-! ## Restore (R478) -/

/-- The parts of a slot's header (R473; DEDUCED, log entry 28). -/
def hdValues (h : List Byte) : List Byte := (h.drop 6).take 44
def hdDigest (h : List Byte) (parts i : Nat) : List Byte := (h.drop (50 + 4 * parts + 64 * i)).take 64
def hdOk (h : List Byte) (parts job coord : Nat) : Bool :=
  leNat (h.take 4) = 0x4E535854 && leNat ((h.drop 4).take 2) = 0x0100 && leNat ((h.drop 6).take 4) = job &&
    leNat ((h.drop 10).take 4) = coord && leNat ((h.drop (50 + 4 * parts + 64 * (3 + parts))).take 1) = 1

/-- Tables of a slot: bytes by the counts of its values, and offset. -/
def slotTables (v : List Byte) : List (Nat × Nat) :=
  [(16 * leNat ((v.drop 32).take 4), 0x1000), (64 * leNat ((v.drop 36).take 4), 0x11000), (64 * leNat ((v.drop 40).take 4), 0x21000)]

/-- Check the tables of a slot against their digests. -/
def State.slotTablesOk (s : State) (c base : Nat) (h : List Byte) (parts : Nat) : Bool :=
  ((slotTables (hdValues h)).zip [0, 1, 2]).all fun t =>
    match (s.engRead c (base + t.1.2) t.1.1).2 with
    | some bs => Config.sha3 bs = hdDigest h parts t.2
    | none => false

/-- End SNP_CMD with a status. -/
def State.endSnp (s : State) (status : Nat) : State := (s.put SNP_CMD_STATUS.status 0 status).put SNP_CMD_STATUS.busy 0 0

/-- SNP_CMD is written: the command waits for its tick; it is ignored while one is busy (R46, R484). -/
def State.snpCommand (s : State) (fn : Func) (cmd : Instr) : State :=
  s.pfWrite fn fun s => if s.flag SNP_CMD_STATUS.busy then s else (s.put SNP_CMD_STATUS.busy 0 1).sampleRow 9 64 cmd

/-- The own part of a slot: position, first byte in bank 0, length. -/
def State.ownPart (s : State) (c : Nat) : Nat × Nat × Nat :=
  let rs := s.replicas s.coord
  let r := (rs.idxOf s.coord) % rs.length
  (r, s.partRange c r 0)

/-- What a RESTORE reads of a slot: its header, its tables, its own part: address, length. -/
def State.slotPieces (s : State) (c base : Nat) (values : List Byte) : List (Nat × Nat) :=
  (base, 4096) :: (base + 0x40000, (s.ownPart c).2.2) :: (slotTables values).map fun t => (base + t.2, t.1)

/-- Does the part of a slot fit its digest? -/
def State.partGood (s : State) (c base : Nat) (h : List Byte) (parts : Nat) : Bool :=
  match (s.engRead c (base + 0x40000) (s.ownPart c).2.2).2 with
  | some bs => decide (Config.sha3 bs = hdDigest h parts 3)
  | none => false

/-- A restore from a slot begins: what is damaged is fetched from the package at position r − 1. -/
def State.beginRestore (s : State) (c i : Nat) (values : List Byte) (good : Bool) : State :=
  let rs := s.replicas s.coord
  let r := (s.ownPart c).1
  let bad : List Nat := if good then [] else [r]
  let op : RestoreOp := { slot := i, values := values, damaged := bad, was := s.get FLT_JOB_STATE.state }
  let s := s.setFlt { s.flt with restore := some op }
  let s := ((s.put SNP_STATUS.state 0 2).put FLT_JOB_STATE.state 0 3).leadMode
  let s := s.put CTX_STEP_STATE.sel c 0
  let other := rs.getD ((r + rs.length - 1) % rs.length) 0
  if good then s else s.sendTo other (.fetchPart other i r)

/-- RESTORE: the slot is read and checked; a part that is damaged is fetched from the package at position r − 1; while a read is held
the command stays for the next tick (DEDUCED, log entry 114) (DEDUCED, log entry 131). -/
def State.applyRestore (fn : Func) (slot : Fin 64) (s : State) : State :=
  let i := slot.val
  if !s.leads then s.endSnp stNOT_LEAD
  else
    match s.jobCtx with
    | none => s.endSnp stBAD_DESCRIPTOR
    | some c =>
      if s.sstate c ≠ ssIdle ∨ s.flt.drain.isSome then s.endSnp stBUSY
      else if (s.slotStep i).isNone then s.endSnp stBAD_DESCRIPTOR
      else
        let base := s.snapSlotAddr i
        let ps := s.snapParts
        let head := s.engRead c base 4096
        let held := s.engHeld c base 4096 ||
          (s.slotPieces c base (hdValues (head.2.getD []))).any fun p => s.engHeld c p.1 p.2
        if held then s.sampleRow 9 64 (.restore fn slot)
        else
          match head with
          | (s, none) => s.endSnp stMEM_ERROR
          | (s, some h) =>
            if !hdOk h ps.length (s.rn .LNK_JOB_ID) s.coord then s.endSnp stBAD_DESCRIPTOR
            else if !s.slotTablesOk c base h ps.length then s.endSnp stAUTH_FAIL
            else
              let good := s.partGood c base h ps.length
              if good = false ∧ ((s.replicas s.coord).length ≤ 1 ∨ s.flag SNP_CONFIG.copies = false) then s.endSnp stAUTH_FAIL
              else s.beginRestore c i (hdValues h) good
def execRestore (fn : Func) (slot : Fin 64) (s : State) : Host.Outcome State Fault Refusal :=
  s.act (s.snpCommand fn (.restore fn slot))

/-- Start the loads of the three tables with the counts of a snapshot. -/
def State.startLoads (s : State) (c nm ct cl : Nat) : State :=
  let s := (s.wn .NUM_CTX_MAP_COUNT c nm).setMap c []
  let s := (s.put NUM_CTX_MAP_STATUS.state c 1).put NUM_CTX_MAP_STATUS.entry c 0
  let s := (s.wn .FIN_CTX_TABLE_COUNT c ct).setFin c { s.fn c with table := [] }
  let s := (s.put FIN_CTX_TABLE_STATUS.state c 1).put FIN_CTX_TABLE_STATUS.entry c 0
  let s := (s.wn .COL_TABLE_COUNT 0 cl).setLnk { s.lnk with table := [] }
  (s.put COL_STATUS.state 0 1).put COL_STATUS.entry 0 0

/-- A restore is over: SNP_CMD ends with a status, the job's state is as before. -/
def State.endRestore (s : State) (op : RestoreOp) (status : Nat) : State :=
  let s := s.setFlt { s.flt with restore := none }
  let s := ((s.put SNP_STATUS.state 0 (if s.flt.replay then 3 else 0)).put FLT_JOB_STATE.state 0 op.was).leadMode
  s.endSnp status

/-- Copy ranges (source, destination, length) for a context; the flag falls where a read fails. -/
def State.engCopy (s : State) (c : Nat) (l : List (Nat × Nat × Nat)) : State × Bool :=
  l.foldl (fun (x : State × Bool) p =>
    match x.1.engRead c p.1 p.2.2 with
    | (s, some bs) => (s.engWrite c p.2.1 bs, x.2)
    | (s, none) => (s, false)) (s, true)

/-- RESTORE_COMPLETE: the part is in the committed bank with sel = 0, the tables are at their registered addresses and load, the
values of the capture are set; a slot that cannot be read any more ends it with MEM_ERROR (DEDUCED, log entry 114). -/
def execRestoreComplete (s : State) : Host.Outcome State Fault Refusal :=
  s.act (match s.flt.restore, s.jobCtx with
    | some op, some c =>
      let v := op.values
      let num (o n : Nat) : Nat := leNat ((v.drop o).take n)
      let base := s.snapSlotAddr op.slot
      let (r, a, len) := s.ownPart c
      let part := if r ∈ op.damaged then [] else [(base + 0x40000, a, len)]
      let tables := ((slotTables v).zip [s.rn .NUM_CTX_MAP_BASE c, s.rn .FIN_CTX_TABLE_BASE c, s.rn .COL_TABLE_BASE]).map
        fun t => (base + t.1.2, t.2, t.1.1)
      if (part ++ tables).any fun p => s.engHeld c p.1 p.2.2 then s
      else
        let (s, ok) := s.engCopy c (part ++ tables)
        if ok then
          let s := s.setValues c (num 16 8) (num 8 8) (num 24 4) (num 28 4)
          let s := s.startLoads c (num 32 4) (num 36 4) (num 40 4)
          (((s.bump .SNP_RESTORES).bump .SNP_BYTES 0 len).showSlots c).endRestore op stOK
        else s.endRestore op stMEM_ERROR
    | _, _ => s)

/-! ## Replay (R480) -/

/-- REPLAY: the package is in replay mode until the commit of the end step; a paused job replays once it resumes
(DEDUCED, log entry 115). -/
def State.applyReplay (s : State) : State :=
  if !s.leads then s.endSnp stNOT_LEAD
  else
    let s := (s.setFlt { s.flt with replay := true }).put SNP_STATUS.state 0 3
    (if s.get FLT_JOB_STATE.state = 0 then s.put FLT_JOB_STATE.state 0 4 else s).endSnp stOK
def execReplay (fn : Func) (s : State) : Host.Outcome State Fault Refusal := s.act (s.snpCommand fn (.replay fn))

end Sys2Proof.Machine
end

