-- ==== Sys2Proof/Machine/Sequencer.lean ====
section
/-! DEFINITION. Machine/Sequencer.lean: the event sequencers (R46, R493 to R495): what each sampled event does, and one tick. -/

namespace Sys2Proof.Machine

/-! ## What each event does -/

/-- A digest mismatch: the step's digest bit, a strike of the receiving port (R442, R470) (DEDUCED, log entry 121). -/
def State.applyDigest (s : State) (c port : Nat) : State := (s.voteBit c vbDigest).strike 7 port 0x03

/-- What a command that waited for its tick does there (R46); the others wait for none. -/
def State.applyRow (c : Instr) (s : State) : State :=
  match c with
  | .stage iss addr dies => State.applyStage iss addr dies s
  | .release iss handle => State.applyRelease iss handle s
  | .bind iss handle target => State.applyBindCommand iss handle target s
  | .unbind iss regions drain => State.applyUnbind iss regions drain s
  | .rebind iss regions drain handle => State.applyRebind iss regions drain handle s
  | .bindStart p => State.applyBindStart p s
  | .flushComplete p => State.applyFlushComplete p s
  | .drainSettled p => State.applyDrainSettled p s
  | .drainTimeout p => State.applyDrainTimeout p s
  | .waitingBindCommand p => State.applyWaitingBindCommand p s
  | .colTableLoad _ _ => State.applyColTableLoad s
  | .ctxCreate _ ctx function => State.applyCtxCreate ctx function s
  | .ctxDestroy _ ctx => State.applyCtxDestroy ctx s
  | .ctxRingConfigWrite _ ctx value => State.applyCtxRingConfigWrite ctx value s
  | .nop iss => State.applyNop iss s
  | .ctxRegionReserveWrite _ p value => State.applyCtxRegionReserveWrite p value s
  | .preempt iss regions => State.applyPreempt iss regions s
  | .ctxPreemptRequest fn ctx => State.applyCtxPreemptRequest fn ctx s
  | .preemptDeadline ctx => State.applyPreemptDeadline ctx s
  | .preemptSaveComplete ctx => State.applyPreemptSaveComplete ctx s
  | .claimExpiry p => State.applyClaimExpiry p s
  | .contextResume ctx => State.applyContextResume ctx s
  | .contextRestoreComplete ctx => State.applyContextRestoreComplete ctx s
  | .selfTestComplete kind index pass => State.applySelfTestComplete kind index pass s
  | .fenceLift kind index => State.applyFenceLift kind index s
  | .softwareFence _ kind index => State.applySoftwareFence kind index s
  | .retest _ kind index => State.applyRetest kind index s
  | .fchSlotCancel _ p ch slot => State.applyFchSlotCancel p ch slot s
  | .fchArm iss p ch slot img => State.applyFchArm iss p ch slot img s
  | .fchCancel iss p ch slot => State.applyFchCancel iss p ch slot s
  | .fchModeWrite _ value => State.applyFchModeWrite value s
  | .finTableLoad _ ctx _ => State.applyFinTableLoad ctx s
  | .tallyCreate iss home vid value share => State.applyTallyCreate iss home vid value share s
  | .tallyImport iss vid ownerVid owner => State.applyTallyImport iss vid ownerVid owner s
  | .tallyRelease iss vid => State.applyTallyRelease iss vid s
  | .tallyAdd iss vid count => State.applyTallyAdd iss vid count s
  | .tallySub iss vid count => State.applyTallySub iss vid count s
  | .tallyRead iss vid => State.applyTallyRead iss vid s
  | .leashSet iss vid cond rep step threshold target => State.applyLeashSet iss vid cond rep step threshold target s
  | .leashClear iss handle => State.applyLeashClear iss handle s
  | .standoffCheck => State.applyStandoffCheck s
  | .enrol fn => State.applyEnrol fn s
  | .svnCommit _ => State.applySvnCommit s
  | .keyLock _ => State.applyKeyLock s
  | .expectTableLoad _ _ => State.applyExpectTableLoad s
  | .portRoleWrite _ port value => State.applyPortRoleWrite port value s
  | .portTrainingComplete port lanes => State.applyPortTrainingComplete port lanes s
  | .identityFlit port job coord _ digest => State.applyIdentityFlit port job coord digest s
  | .portRecalRequest _ port => State.applyPortRecalRequest port s
  | .recalTimerExpiry port => State.applyRecalTimerExpiry port s
  | .recalErrorThreshold port lane => State.applyRecalErrorThreshold port lane s
  | .laneDrop port lane => State.applyLaneDrop port lane s
  | .laneRecalComplete pass => State.applyLaneRecalComplete pass s
  | .join _ => State.applyJoin s
  | .leave _ => State.applyLeave s
  | .shepherdTimeout => State.applyShepherdTimeout s
  | .takeover coord job => State.applyTakeover coord job s
  | .noLeadTimeout => State.applyNoLeadTimeout s
  | .fwUpdate fn offline => State.applyFwUpdate fn offline s
  | .handover _ => State.applyHandover s
  | .mctpRequest _ body term _ => State.applyMctpRequest body term s
  | .memPageOwnerWrite _ word value => State.applyMemPageOwnerWrite word value s
  | .memQuadModeWrite _ word value => State.applyMemQuadModeWrite word value s
  | .memRetireLimitWrite _ value => State.applyMemRetireLimitWrite value s
  | .numMapLoad _ ctx _ => State.applyNumMapLoad ctx s
  | .pwrReset _ => State.applyPwrReset s
  | .railTrip rail => State.applyRailTrip rail s
  | .thermalTrip _ _ => State.applyThermalTrip s
  | .refclkLoss ref => State.applyRefclkLoss ref s
  | .repairTimeout src => State.applyRepairTimeout src s
  | .restore fn slot => State.applyRestore fn slot s
  | .replay _ => State.applyReplay s
  | .sentListLoad _ ctx _ => State.applySentListLoad ctx s
  | .tierLoad iss page => State.applyTierLoad iss page s
  | .tierLoadPin iss page => State.applyTierLoadPin iss page s
  | .tierUnpin iss page => State.applyTierUnpin iss page s
  | .tierEvict iss page => State.applyTierEvict iss page s
  | .tierFlush iss page => State.applyTierFlush iss page s
  | .tirPoolWrite _ count value => State.applyTirPoolWrite count value s
  | .cxlPortEnumerate port rate width cxl2 capGib => State.applyCxlPortEnumerate port rate width cxl2 capGib s
  | .cxlPortDown port => State.applyCxlPortDown port s
  | .cxlPortUp port => State.applyCxlPortUp port s
  | .step iss record => State.applyStep iss record s
  | .stepDeadline ctx => State.applyStepDeadline ctx s
  | .reshard iss record => State.applyReshard iss record s
  | .reshardForce iss record => State.applyReshardForce iss record s
  | .cxlRetrain _ port rate width cxl2 capGib => State.applyCxlRetrain port.val rate.val width cxl2 capGib s
  | _ => s

/-- A command comes to its tick: one of a ring whose context is being pre-empted stays in the ring's hands (R409); one that finds no
lead, or reached the half that has lost the lease, completes with NOT_LEAD (R41, R47, R489). -/
def State.handleRow (s : State) (c : Instr) : State :=
  match hostCmd c with
  | some (.ring x cookie irq, op) =>
    if needsRegion op && s.ringHeld (.ring x cookie irq) then s
    else if s.leads then s.applyRow c
    else (s.began (.ring x cookie irq) op).complete (.ring x cookie irq) op stNOT_LEAD
  | _ => s.applyRow c

/-- Is an event counted in its class (R495)? The end of a load, a drain or a save is not: the completion that follows it is. -/
def EvKind.counted : EvKind → Bool
  | .row (.bindStart _) | .row (.drainSettled _) | .row (.preemptSaveComplete _) | .row (.contextRestoreComplete _) => false
  | _ => true

/-- What an event does (R46). -/
def State.applyEvent (s : State) (e : EvKind) : State :=
  match e with
  | .programFault k => s.applyProgramFault k
  | .skewSpill p => if s.rctx p < 31 then s.postEvent (s.rctx p) stSKEW_SPILL p else s
  | .nonfinite k op tag t => s.applyNonfinite k op tag t
  | .herdHalt k st => s.applyHerdHalt k st
  | .standoff ps => s.applyStandoff ps
  | .detection k off => s.applyDetection k off
  | .stackFence k cause => s.fenceStack k cause
  | .unit kind i cause => s.applyUnit kind i cause
  | .straggler cl g br l => s.applyStraggler cl g br l
  | .digest c port => s.applyDigest c port
  | .sentinel c _ => s.applySentinel c
  | .leadChange h => s.takeMirror.applyLeadChange h
  | .mgmtFault h => s.applyMgmtFault h
  | .violation _ => s.applyViolation
  | .port k st => if k < 9 then s.applyPort k st else s
  | .arm i img => s.applyArm i img
  | .done iss op st => match iss with
    | some i => s.complete i op st
    | none => s
  | .badItem c p n => s.applyBadItem c p n
  | .preempted c => s.applyPreempted c
  | .row c => s.handleRow c

/-- Handle one event (R46): it counts in its class. -/
def State.handleEvent (s : State) (e : Sampled) : State :=
  let s := s.applyEvent e.ev
  if e.ev.counted then s.bump .MGT_CLASS_EVENTS e.cls else s

/-! ## Reports gathered over a tick -/

/-- FENCED for courier packets of a region (R173, R396). -/
def State.reportFenced (s : State) : State :=
  let l := s.noc.fenced
  let s : State := { s with noc := { s.noc with fenced := [] } }
  l.foldl (fun (s : State) e => if s.rctx e.1 < 31 then s.postEvent (s.rctx e.1) stFENCED e.1 e.2 else s) s

/-- ORPHANED, once per tick and tally (R301). -/
def State.reportOrphans (s : State) : State :=
  let l := s.hrd.orphans
  let s := s.setHrd { s.hrd with orphans := [] }
  l.foldl (fun (s : State) o => s.postEvent o.1 stORPHANED o.2.1 1 o.2.2.1) s

/-- EPOCH_STALE pairs (R213): class 10. -/
def State.reportAllStale (s : State) : State :=
  s.bnd.stale.foldl (fun (s : State) x => (s.reportStale x.1 x.2.1 x.2.2).bump .MGT_CLASS_EVENTS 10) s

/-! ## The tick (R493, R494) -/

/-- Counts that advance with every tick: the tick itself, the job's, the seconds of powered life. -/
def State.countTick (s : State) : State :=
  let s := s.bump .MGT_TICK
  let s := if s.flag LNK_STATUS.joined then s.bump .LNK_TICK else s
  let s := if s.now % 6250000 = 0 then s.bump .FLT_SERVICE_S else s
  s.countLevels

/-- Is a step record at the head of the job's ring kept waiting by a drain (R474)? -/
def State.drainStalls (s : State) : Bool :=
  match s.jobCtx with
  | some c => s.drainHeld c && leNat ((s.ring c).cells.take 1) = 1
  | none => false

/-- The events that the four sequencers handle in a tick, at most 256 each, and those they carry to the next (R494); `used`: how
many each die has handled. -/
def shareTick : List Sampled → List Nat → List Sampled × List Sampled
  | [], _ => ([], [])
  | e :: t, used =>
    let n := used.getD e.die 0
    if n < 256 then
      let r := shareTick t (used.set e.die (n + 1))
      (e :: r.1, r.2)
    else
      let r := shareTick t used
      (r.1, e :: r.2)

/-- Handle the next n events of the tick; a reset or a trip leaves none (R532). -/
def State.handleAll : Nat → State → State
  | 0, s => s
  | n + 1, s =>
    match s.seq.carried with
    | e :: t => State.handleAll n (({ s with seq := { s.seq with carried := t } } : State).handleEvent e)
    | [] => s

/-- Events that found a full queue are offered again (R494). -/
def SeqState.offer (q : SeqState) : SeqState := q.offered.foldl (fun (q : SeqState) e => q.add e) { q with offered := [] }

/-- The end of a tick: gathered reports, judged packages, aborts and held re-shards; the mirror follows (R49). -/
def State.endTick (s : State) : State :=
  let s := (((s.reportFenced.reportOrphans).reportAllStale).rejudge)
  let s := if s.drainStalls then s.bump .SNP_STALL_TICKS else s
  let s := (upto 31).foldl (fun (s : State) c =>
    let s := match (s.stp c).decision with
      | some d => if d.commit = false ∧ d.tick < s.now then s.applyAbort c else s
      | none => s
    s.runHeld c) s
  ({ s with seq := s.seq.offer } : State).takeMirror

/-- EVENT_TICK: each sequencer handles up to 256 events in order, the others are carried (R494); then the reports, aborts and held
commands of the tick (DEDUCED, log entry 43). -/
def execEventTick (s : State) : Host.Outcome State Fault Refusal :=
  s.act (
    let s := s.countTick.latchLimits
    let l := shareTick s.seq.order [0, 0, 0, 0]
    let s : State := { s with seq := { s.seq with
      sampled := [], carried := l.1 ++ l.2, turned := s.seq.turned && !s.seq.carried.isEmpty } }
    let s := if l.2.isEmpty then s else s.bump .MGT_TICK_OVERRUN
    let s := State.handleAll l.1.length s
    if s.live then s.endTick else s)

end Sys2Proof.Machine
end

