-- ==== Sys2Proof/Machine/Dispatch.lean ====
section
/-! DEFINITION. Machine/Dispatch.lean: one arm per command, each a direct call of its meaning. -/

namespace Sys2Proof.Machine

def exec (i : Instr) (s : State) : Host.Outcome State Fault Refusal :=
  match i with
  | .counterSplitRead fn offset => Sys2Proof.Machine.execCounterSplitRead fn offset s
  | .badRegisterAccess fn write offset width => Sys2Proof.Machine.execBadRegisterAccess fn write offset width s
  | .registerWrite fn offset wide value => Sys2Proof.Machine.execRegisterWrite fn offset wide value s
  | .courierPacketRoute n stalls => Sys2Proof.Machine.execCourierPacketRoute n stalls s
  | .stragglerTimeout n => Sys2Proof.Machine.execStragglerTimeout n s
  | .reductionContribution n => Sys2Proof.Machine.execReductionContribution n s
  | .reservoirDrain core op port => Sys2Proof.Machine.execReservoirDrain core op port s
  | .spillReadback core op port => Sys2Proof.Machine.execSpillReadback core op port s
  | .holdRelease core op port cycles => Sys2Proof.Machine.execHoldRelease core op port cycles s
  | .nocSpillWrite fn p size value => Sys2Proof.Machine.execNocSpillWrite fn p size value s
  | .spareLoadComplete core => Sys2Proof.Machine.execSpareLoadComplete core s
  | .stage iss addr dies => Sys2Proof.Machine.execStage iss addr dies s
  | .stageComplete n => Sys2Proof.Machine.execStageComplete n s
  | .release iss handle => Sys2Proof.Machine.execRelease iss handle s
  | .bind iss handle target => Sys2Proof.Machine.execBind iss handle target s
  | .bindStart p => Sys2Proof.Machine.execBindStart p s
  | .slotTableActivation p => Sys2Proof.Machine.execSlotTableActivation p s
  | .unbind iss regions drain => Sys2Proof.Machine.execUnbind iss regions drain s
  | .rebind iss regions drain handle => Sys2Proof.Machine.execRebind iss regions drain handle s
  | .flushComplete p => Sys2Proof.Machine.execFlushComplete p s
  | .drainSettled p => Sys2Proof.Machine.execDrainSettled p s
  | .drainTimeout p => Sys2Proof.Machine.execDrainTimeout p s
  | .waitingBindCommand p => Sys2Proof.Machine.execWaitingBindCommand p s
  | .epochStaleReport ctx p => Sys2Proof.Machine.execEpochStaleReport ctx p s
  | .fchSlotArm fn p ch slot => Sys2Proof.Machine.execFchSlotArm fn p ch slot s
  | .fchSlotCancel fn p ch slot => Sys2Proof.Machine.execFchSlotCancel fn p ch slot s
  | .fchArm iss p ch slot img => Sys2Proof.Machine.execFchArm iss p ch slot img s
  | .fchCancel iss p ch slot => Sys2Proof.Machine.execFchCancel iss p ch slot s
  | .fetchTransferStart p ch slot waited => Sys2Proof.Machine.execFetchTransferStart p ch slot waited s
  | .fetchTransferComplete p ch slot => Sys2Proof.Machine.execFetchTransferComplete p ch slot s
  | .fetchReadReply p ch slot n reply bad => Sys2Proof.Machine.execFetchReadReply p ch slot n reply bad s
  | .passAlongCopy p ch slot waited => Sys2Proof.Machine.execPassAlongCopy p ch slot waited s
  | .fchModeWrite fn value => Sys2Proof.Machine.execFchModeWrite fn value s
  | .memoryRead req addr len bad fails => Sys2Proof.Machine.execMemoryRead req addr len bad fails s
  | .memoryWrite req addr data => Sys2Proof.Machine.execMemoryWrite req addr data s
  | .detectionAtRest stack quad => Sys2Proof.Machine.execDetectionAtRest stack quad s
  | .stackFence stack why => Sys2Proof.Machine.execStackFence stack why s
  | .scrubRead stack off fails => Sys2Proof.Machine.execScrubRead stack off fails s
  | .memPageOwnerWrite fn word value => Sys2Proof.Machine.execMemPageOwnerWrite fn word value s
  | .pageZeroingComplete page => Sys2Proof.Machine.execPageZeroingComplete page s
  | .memQuadModeWrite fn word value => Sys2Proof.Machine.execMemQuadModeWrite fn word value s
  | .memRetireLimitWrite fn value => Sys2Proof.Machine.execMemRetireLimitWrite fn value s
  | .hbmInitComplete => Sys2Proof.Machine.execHbmInitComplete s
  | .cxlAccess req addr len data poison => Sys2Proof.Machine.execCxlAccess req addr len data poison s
  | .tirPoolWrite fn count value => Sys2Proof.Machine.execTirPoolWrite fn count value s
  | .tierLoad iss page => Sys2Proof.Machine.execTierLoad iss page s
  | .tierLoadPin iss page => Sys2Proof.Machine.execTierLoadPin iss page s
  | .tierUnpin iss page => Sys2Proof.Machine.execTierUnpin iss page s
  | .tierEvict iss page => Sys2Proof.Machine.execTierEvict iss page s
  | .tierFlush iss page => Sys2Proof.Machine.execTierFlush iss page s
  | .tierFillComplete page poison hold => Sys2Proof.Machine.execTierFillComplete page poison hold s
  | .tierWritebackComplete page hold => Sys2Proof.Machine.execTierWritebackComplete page hold s
  | .slotAgeAdvance => Sys2Proof.Machine.execSlotAgeAdvance s
  | .cxlPortEnumerate port rate width cxl2 capGib => Sys2Proof.Machine.execCxlPortEnumerate port rate width cxl2 capGib s
  | .cxlPortDown port => Sys2Proof.Machine.execCxlPortDown port s
  | .cxlPortUp port => Sys2Proof.Machine.execCxlPortUp port s
  | .cxlRetrain fn port rate width cxl2 capGib => Sys2Proof.Machine.execCxlRetrain fn port rate width cxl2 capGib s
  | .cxlConfigAccess fn port offset write decoder value => Sys2Proof.Machine.execCxlConfigAccess fn port offset write decoder value s
  | .tallyCreate iss home vid value share => Sys2Proof.Machine.execTallyCreate iss home vid value share s
  | .tallyImport iss vid ownerVid owner => Sys2Proof.Machine.execTallyImport iss vid ownerVid owner s
  | .tallyRelease iss vid => Sys2Proof.Machine.execTallyRelease iss vid s
  | .tallyAdd iss vid count => Sys2Proof.Machine.execTallyAdd iss vid count s
  | .tallySub iss vid count => Sys2Proof.Machine.execTallySub iss vid count s
  | .tallyRead iss vid => Sys2Proof.Machine.execTallyRead iss vid s
  | .leashSet iss vid cond rep step threshold target => Sys2Proof.Machine.execLeashSet iss vid cond rep step threshold target s
  | .leashClear iss handle => Sys2Proof.Machine.execLeashClear iss handle s
  | .tallyOperationApply n => Sys2Proof.Machine.execTallyOperationApply n s
  | .barkDelivery handle => Sys2Proof.Machine.execBarkDelivery handle s
  | .herdHalt core => Sys2Proof.Machine.execHerdHalt core s
  | .standoffCheck => Sys2Proof.Machine.execStandoffCheck s
  | .standoffSpillComplete entry => Sys2Proof.Machine.execStandoffSpillComplete entry s
  | .reserveReadback entry => Sys2Proof.Machine.execReserveReadback entry s
  | .standoffFault => Sys2Proof.Machine.execStandoffFault s
  | .hrdReserveWrite fn entry word value => Sys2Proof.Machine.execHrdReserveWrite fn entry word value s
  | .step iss record => Sys2Proof.Machine.execStep iss record s
  | .stepVote ctx => Sys2Proof.Machine.execStepVote ctx s
  | .stepDeadline ctx => Sys2Proof.Machine.execStepDeadline ctx s
  | .voteRecord axis plus hop r => Sys2Proof.Machine.execVoteRecord axis plus hop r s
  | .shepherdDecision ctx => Sys2Proof.Machine.execShepherdDecision ctx s
  | .decisionRecord step commit flip snap => Sys2Proof.Machine.execDecisionRecord step commit flip snap s
  | .commitFlip ctx => Sys2Proof.Machine.execCommitFlip ctx s
  | .voteTimeout ctx => Sys2Proof.Machine.execVoteTimeout ctx s
  | .inDoubtResolution ctx anyCommit flip => Sys2Proof.Machine.execInDoubtResolution ctx anyCommit flip s
  | .reshard iss record => Sys2Proof.Machine.execReshard iss record s
  | .reshardForce iss record => Sys2Proof.Machine.execReshardForce iss record s
  | .reshardTargetBind ctx => Sys2Proof.Machine.execReshardTargetBind ctx s
  | .numMapLoad fn ctx value => Sys2Proof.Machine.execNumMapLoad fn ctx value s
  | .numMapLoadComplete ctx => Sys2Proof.Machine.execNumMapLoadComplete ctx s
  | .amaxReport n => Sys2Proof.Machine.execAmaxReport n s
  | .jitScalePublish ctx entry => Sys2Proof.Machine.execJitScalePublish ctx entry s
  | .jitPublishComplete ctx entry => Sys2Proof.Machine.execJitPublishComplete ctx entry s
  | .nonfiniteReportSampled core => Sys2Proof.Machine.execNonfiniteReportSampled core s
  | .nfRecordClear fn ctx value => Sys2Proof.Machine.execNfRecordClear fn ctx value s
  | .numSeedWrite fn ctx value => Sys2Proof.Machine.execNumSeedWrite fn ctx value s
  | .ratioReport n => Sys2Proof.Machine.execRatioReport n s
  | .finTableLoad fn ctx value => Sys2Proof.Machine.execFinTableLoad fn ctx value s
  | .finTableLoadComplete ctx => Sys2Proof.Machine.execFinTableLoadComplete ctx s
  | .moverDeliver ctx entry => Sys2Proof.Machine.execMoverDeliver ctx entry s
  | .moverCollect n => Sys2Proof.Machine.execMoverCollect n s
  | .moverCopy ctx entry => Sys2Proof.Machine.execMoverCopy ctx entry s
  | .moverDone ctx die => Sys2Proof.Machine.execMoverDone ctx die s
  | .finCountReport n => Sys2Proof.Machine.execFinCountReport n s
  | .ctxCreate fn ctx function => Sys2Proof.Machine.execCtxCreate fn ctx function s
  | .ctxDestroy fn ctx => Sys2Proof.Machine.execCtxDestroy fn ctx s
  | .ringPoll ctx => Sys2Proof.Machine.execRingPoll ctx s
  | .ringCommandTake ctx => Sys2Proof.Machine.execRingCommandTake ctx s
  | .nop iss => Sys2Proof.Machine.execNop iss s
  | .completionRecordWrite ctx => Sys2Proof.Machine.execCompletionRecordWrite ctx s
  | .batchItemArm ctx => Sys2Proof.Machine.execBatchItemArm ctx s
  | .ctxRegionReserveWrite fn p value => Sys2Proof.Machine.execCtxRegionReserveWrite fn p value s
  | .preempt iss regions => Sys2Proof.Machine.execPreempt iss regions s
  | .ctxPreemptRequest fn ctx => Sys2Proof.Machine.execCtxPreemptRequest fn ctx s
  | .yieldPoint ctx => Sys2Proof.Machine.execYieldPoint ctx s
  | .preemptSaveComplete ctx => Sys2Proof.Machine.execPreemptSaveComplete ctx s
  | .preemptDeadline ctx => Sys2Proof.Machine.execPreemptDeadline ctx s
  | .forcedSaveStart ctx => Sys2Proof.Machine.execForcedSaveStart ctx s
  | .forcedRegionSaved ctx die => Sys2Proof.Machine.execForcedRegionSaved ctx die s
  | .parkedResultArrival entry => Sys2Proof.Machine.execParkedResultArrival entry s
  | .claimExpiry p => Sys2Proof.Machine.execClaimExpiry p s
  | .contextResume ctx => Sys2Proof.Machine.execContextResume ctx s
  | .contextRestoreComplete ctx => Sys2Proof.Machine.execContextRestoreComplete ctx s
  | .accountingTick => Sys2Proof.Machine.execAccountingTick s
  | .portRoleWrite fn port value => Sys2Proof.Machine.execPortRoleWrite fn port value s
  | .portTrainingComplete port lanes => Sys2Proof.Machine.execPortTrainingComplete port lanes s
  | .identityFlit port job coord role digest => Sys2Proof.Machine.execIdentityFlit port job coord role digest s
  | .linkFlit port cls seq ack good corrected uncorrected => Sys2Proof.Machine.execLinkFlit port cls seq ack good corrected uncorrected s
  | .linkNak port ack => Sys2Proof.Machine.execLinkNak port ack s
  | .portRecalRequest fn port => Sys2Proof.Machine.execPortRecalRequest fn port s
  | .recalTimerExpiry port => Sys2Proof.Machine.execRecalTimerExpiry port s
  | .recalErrorThreshold port lane => Sys2Proof.Machine.execRecalErrorThreshold port lane s
  | .laneRecalComplete pass => Sys2Proof.Machine.execLaneRecalComplete pass s
  | .laneDrop port lane => Sys2Proof.Machine.execLaneDrop port lane s
  | .join fn => Sys2Proof.Machine.execJoin fn s
  | .leave fn => Sys2Proof.Machine.execLeave fn s
  | .beaconSend => Sys2Proof.Machine.execBeaconSend s
  | .beaconReceive count phase => Sys2Proof.Machine.execBeaconReceive count phase s
  | .peerWrite src dst addr bank data => Sys2Proof.Machine.execPeerWrite src dst addr bank data s
  | .colTableLoad fn value => Sys2Proof.Machine.execColTableLoad fn value s
  | .collectiveRun entry => Sys2Proof.Machine.execCollectiveRun entry s
  | .collectiveChunk port dst head payload unitsDiffer => Sys2Proof.Machine.execCollectiveChunk port dst head payload unitsDiffer s
  | .collectiveComplete entry => Sys2Proof.Machine.execCollectiveComplete entry s
  | .shepherdHeartbeat => Sys2Proof.Machine.execShepherdHeartbeat s
  | .shepherdTimeout => Sys2Proof.Machine.execShepherdTimeout s
  | .failureRecord row src other srcStrikes otherStrikes => Sys2Proof.Machine.execFailureRecord row src other srcStrikes otherStrikes s
  | .pause row => Sys2Proof.Machine.execPause row s
  | .resume done => Sys2Proof.Machine.execResume done s
  | .takeover coord job => Sys2Proof.Machine.execTakeover coord job s
  | .cadenceRecord interval => Sys2Proof.Machine.execCadenceRecord interval s
  | .faultReport kind index cause => Sys2Proof.Machine.execFaultReport kind index cause s
  | .faultHistoryWrite => Sys2Proof.Machine.execFaultHistoryWrite s
  | .faultLogCompact => Sys2Proof.Machine.execFaultLogCompact s
  | .serviceHour => Sys2Proof.Machine.execServiceHour s
  | .selfTestComplete kind index pass => Sys2Proof.Machine.execSelfTestComplete kind index pass s
  | .fenceLift kind index => Sys2Proof.Machine.execFenceLift kind index s
  | .softwareFence fn kind index => Sys2Proof.Machine.execSoftwareFence fn kind index s
  | .retest fn kind index => Sys2Proof.Machine.execRetest fn kind index s
  | .sentListLoad fn ctx value => Sys2Proof.Machine.execSentListLoad fn ctx value s
  | .sentinelCapture core => Sys2Proof.Machine.execSentinelCapture core s
  | .sentinelPhaseStart ctx => Sys2Proof.Machine.execSentinelPhaseStart ctx s
  | .sentinelCompare core same second => Sys2Proof.Machine.execSentinelCompare core same second s
  | .repairTimeout src => Sys2Proof.Machine.execRepairTimeout src s
  | .portDownTimeout port => Sys2Proof.Machine.execPortDownTimeout port s
  | .fillReady coord live => Sys2Proof.Machine.execFillReady coord live s
  | .fillValues seed step tagBase layout digests => Sys2Proof.Machine.execFillValues seed step tagBase layout digests s
  | .fillComplete => Sys2Proof.Machine.execFillComplete s
  | .snapshotDrainComplete => Sys2Proof.Machine.execSnapshotDrainComplete s
  | .restore fn slot => Sys2Proof.Machine.execRestore fn slot s
  | .restoreComplete => Sys2Proof.Machine.execRestoreComplete s
  | .replay fn => Sys2Proof.Machine.execReplay fn s
  | .eventTick => Sys2Proof.Machine.execEventTick s
  | .leaseClaim half term cyc => Sys2Proof.Machine.execLeaseClaim half term cyc s
  | .leaseRenew half term cyc => Sys2Proof.Machine.execLeaseRenew half term cyc s
  | .leaseRelease half => Sys2Proof.Machine.execLeaseRelease half s
  | .leaseRenewTimer cyc => Sys2Proof.Machine.execLeaseRenewTimer cyc s
  | .leadExpiry => Sys2Proof.Machine.execLeadExpiry s
  | .leasePoll half cyc => Sys2Proof.Machine.execLeasePoll half cyc s
  | .leadChange half => Sys2Proof.Machine.execLeadChange half s
  | .mgmtFault half => Sys2Proof.Machine.execMgmtFault half s
  | .mgmtWatchdogExpiry half => Sys2Proof.Machine.execMgmtWatchdogExpiry half s
  | .halfReady half => Sys2Proof.Machine.execHalfReady half s
  | .noLeadTimeout => Sys2Proof.Machine.execNoLeadTimeout s
  | .startupLeadTimeout => Sys2Proof.Machine.execStartupLeadTimeout s
  | .mctpRequest pcie body term update => Sys2Proof.Machine.execMctpRequest pcie body term update s
  | .fwUpdate fn offline => Sys2Proof.Machine.execFwUpdate fn offline s
  | .handover fn => Sys2Proof.Machine.execHandover fn s
  | .fwCopyComplete half good => Sys2Proof.Machine.execFwCopyComplete half good s
  | .fwReadyTimeout half => Sys2Proof.Machine.execFwReadyTimeout half s
  | .fwProbationFault half => Sys2Proof.Machine.execFwProbationFault half s
  | .hbmPhyRecal stack => Sys2Proof.Machine.execHbmPhyRecal stack s
  | .followerSelfTest => Sys2Proof.Machine.execFollowerSelfTest s
  | .enrol fn => Sys2Proof.Machine.execEnrol fn s
  | .svnCommit fn => Sys2Proof.Machine.execSvnCommit fn s
  | .keyLock fn => Sys2Proof.Machine.execKeyLock fn s
  | .expectTableLoad fn value => Sys2Proof.Machine.execExpectTableLoad fn value s
  | .identityChallenge coord nonce => Sys2Proof.Machine.execIdentityChallenge coord nonce s
  | .challengeResponse coord digest good => Sys2Proof.Machine.execChallengeResponse coord digest good s
  | .challengeSilentTimeout coord => Sys2Proof.Machine.execChallengeSilentTimeout coord s
  | .securityViolation half => Sys2Proof.Machine.execSecurityViolation half s
  | .getVersion => Sys2Proof.Machine.execGetVersion s
  | .getCapabilities => Sys2Proof.Machine.execGetCapabilities s
  | .negotiateAlgorithms mldsa87 sha3_512 => Sys2Proof.Machine.execNegotiateAlgorithms mldsa87 sha3_512 s
  | .getDigests => Sys2Proof.Machine.execGetDigests s
  | .getCertificate slot offset len => Sys2Proof.Machine.execGetCertificate slot offset len s
  | .challenge slot req => Sys2Proof.Machine.execChallenge slot req s
  | .getMeasurements index sign req => Sys2Proof.Machine.execGetMeasurements index sign req s
  | .railTrip rail => Sys2Proof.Machine.execRailTrip rail s
  | .refclkLoss ref => Sys2Proof.Machine.execRefclkLoss ref s
  | .sagSensorLow p deep => Sys2Proof.Machine.execSagSensorLow p deep s
  | .sagLevelRise p => Sys2Proof.Machine.execSagLevelRise p s
  | .sagInFall => Sys2Proof.Machine.execSagInFall s
  | .sagInRise => Sys2Proof.Machine.execSagInRise s
  | .peakPower => Sys2Proof.Machine.execPeakPower s
  | .peakRecovery => Sys2Proof.Machine.execPeakRecovery s
  | .powerTargetCompare mean => Sys2Proof.Machine.execPowerTargetCompare mean s
  | .thermalLevelUpdate temps => Sys2Proof.Machine.execThermalLevelUpdate temps s
  | .thermalTrip sensor reading => Sys2Proof.Machine.execThermalTrip sensor reading s
  | .energyTick rails core base => Sys2Proof.Machine.execEnergyTick rails core base s
  | .pwrokRise => Sys2Proof.Machine.execPwrokRise s
  | .pwrokFall => Sys2Proof.Machine.execPwrokFall s
  | .perstFall => Sys2Proof.Machine.execPerstFall s
  | .pwrReset fn => Sys2Proof.Machine.execPwrReset fn s
  | .norLoadComplete badA badB => Sys2Proof.Machine.execNorLoadComplete badA badB s
  | .hbmTrainingComplete => Sys2Proof.Machine.execHbmTrainingComplete s
  | .halfBootComplete half a b cyc => Sys2Proof.Machine.execHalfBootComplete half a b cyc s
  | .pcieLinkUp rate width => Sys2Proof.Machine.execPcieLinkUp rate width s
  | .pcieLinkDown => Sys2Proof.Machine.execPcieLinkDown s
  | .hotReset rate width => Sys2Proof.Machine.execHotReset rate width s
  | .vfFlr fn => Sys2Proof.Machine.execVfFlr fn s
  | .pfFlr => Sys2Proof.Machine.execPfFlr s
  | .powerStateChange fn d3 => Sys2Proof.Machine.execPowerStateChange fn d3 s
  | .configRequest fn req => Sys2Proof.Machine.execConfigRequest fn req s
  | .apertureRead fn off len bad fails poison => Sys2Proof.Machine.execApertureRead fn off len bad fails poison s
  | .apertureWrite fn off data => Sys2Proof.Machine.execApertureWrite fn off data s
  | .hifXlatWrite who view entry value => Sys2Proof.Machine.execHifXlatWrite who view entry value s
  | .dmaCompletion p ch slot n resp => Sys2Proof.Machine.execDmaCompletion p ch slot n resp s
  | .dmaTimeout p ch slot n => Sys2Proof.Machine.execDmaTimeout p ch slot n s
  | .msixSend => Sys2Proof.Machine.execMsixSend s
  | .packageEventVector => Sys2Proof.Machine.execPackageEventVector s
  | .mctpPcieMessage body term => Sys2Proof.Machine.execMctpPcieMessage body term s
  | .doeObject body spdm term => Sys2Proof.Machine.execDoeObject body spdm term s
  | .colTableLoadComplete => Sys2Proof.Machine.execColTableLoadComplete s
  | .sentListLoadComplete ctx => Sys2Proof.Machine.execSentListLoadComplete ctx s
  | .expectTableLoadComplete => Sys2Proof.Machine.execExpectTableLoadComplete s
  | .ctxRingConfigWrite fn ctx value => Sys2Proof.Machine.execCtxRingConfigWrite fn ctx value s
  | .perstRise => Sys2Proof.Machine.execPerstRise s
  | .refclkReturn ref => Sys2Proof.Machine.execRefclkReturn ref s
  | .avddSdReturn side => Sys2Proof.Machine.execAvddSdReturn side s
  | .clockFallbackComplete clock => Sys2Proof.Machine.execClockFallbackComplete clock s
  | .hbmPhyRecalComplete stack => Sys2Proof.Machine.execHbmPhyRecalComplete stack s
  | .tickSyncTimeout => Sys2Proof.Machine.execTickSyncTimeout s
  | .msixUnmask fn vector => Sys2Proof.Machine.execMsixUnmask fn vector s
  | .tapTckEdge rising tms tdi trst => Sys2Proof.Machine.execTapTckEdge rising tms tdi trst s
  | .add core => Sys2Proof.Machine.execAdd core s
  | .sub core => Sys2Proof.Machine.execSub core s
  | .andInsn core => Sys2Proof.Machine.execAndInsn core s
  | .orInsn core => Sys2Proof.Machine.execOrInsn core s
  | .xorInsn core => Sys2Proof.Machine.execXorInsn core s
  | .shl core => Sys2Proof.Machine.execShl core s
  | .shr core => Sys2Proof.Machine.execShr core s
  | .sra core => Sys2Proof.Machine.execSra core s
  | .slt core => Sys2Proof.Machine.execSlt core s
  | .sltu core => Sys2Proof.Machine.execSltu core s
  | .addi core => Sys2Proof.Machine.execAddi core s
  | .andi core => Sys2Proof.Machine.execAndi core s
  | .shli core => Sys2Proof.Machine.execShli core s
  | .shri core => Sys2Proof.Machine.execShri core s
  | .li core => Sys2Proof.Machine.execLi core s
  | .lui core => Sys2Proof.Machine.execLui core s
  | .beq core => Sys2Proof.Machine.execBeq core s
  | .bne core => Sys2Proof.Machine.execBne core s
  | .blt core => Sys2Proof.Machine.execBlt core s
  | .bltu core => Sys2Proof.Machine.execBltu core s
  | .jmp core => Sys2Proof.Machine.execJmp core s
  | .done core => Sys2Proof.Machine.execDone core s
  | .ldw core => Sys2Proof.Machine.execLdw core s
  | .stw core => Sys2Proof.Machine.execStw core s
  | .tens core => Sys2Proof.Machine.execTens core s
  | .vect core => Sys2Proof.Machine.execVect core s
  | .loop core => Sys2Proof.Machine.execLoop core s
  | .tsend core => Sys2Proof.Machine.execTsend core s
  | .herdIncrement core => Sys2Proof.Machine.execHerdIncrement core s
  | .herdDecrement core => Sys2Proof.Machine.execHerdDecrement core s
  | .herdRead core => Sys2Proof.Machine.execHerdRead core s
  | .herdReadReply core => Sys2Proof.Machine.execHerdReadReply core s
  | .yield core => Sys2Proof.Machine.execYield core s
  | .watchdog core => Sys2Proof.Machine.execWatchdog core s
  | .tokenArrival n => Sys2Proof.Machine.execTokenArrival n s
  | .tokenDataLanded n => Sys2Proof.Machine.execTokenDataLanded n s
  | .matcherDispatch core => Sys2Proof.Machine.execMatcherDispatch core s
  | .nullRetire core => Sys2Proof.Machine.execNullRetire core s
  | .engineCommandStart core engine => Sys2Proof.Machine.execEngineCommandStart core engine s
  | .engineCommandComplete core engine => Sys2Proof.Machine.execEngineCommandComplete core engine s
  | .accumulatorBankSwap core => Sys2Proof.Machine.execAccumulatorBankSwap core s
  | .programFaultHalt core => Sys2Proof.Machine.execProgramFaultHalt core s

end Sys2Proof.Machine
end

