-- ==== Sys2Proof/WellFormed.lean ====
section
/-! DEFINITION. WellFormed.lean: which commands the outside can give: bounds that the operand types do not carry. No meaning
relies on them: a command outside them still has an effect or is ignored, as its meaning says. -/

namespace Sys2Proof

/-- A core's logical index is 0 to 14 (R21, R22). -/
def CoreRef.wf (k : CoreRef) : Bool := decide (k.l.val ≤ 14)

/-- The core a command names, if it names one. -/
def Instr.core? : Instr → Option CoreRef
  | .add k | .sub k | .andInsn k | .orInsn k | .xorInsn k | .shl k | .shr k | .sra k | .slt k | .sltu k | .addi k | .andi k
  | .shli k | .shri k | .li k | .lui k | .beq k | .bne k | .blt k | .bltu k | .jmp k | .done k | .ldw k | .stw k | .tens k
  | .vect k | .loop k | .tsend k | .herdIncrement k | .herdDecrement k | .herdRead k | .herdReadReply k | .yield k
  | .watchdog k | .matcherDispatch k | .nullRetire k | .engineCommandStart k _ | .engineCommandComplete k _
  | .accumulatorBankSwap k | .programFaultHalt k | .reservoirDrain k _ _ | .spillReadback k _ _ | .holdRelease k _ _ _
  | .spareLoadComplete k | .herdHalt k | .nonfiniteReportSampled k | .sentinelCapture k | .sentinelCompare k _ _ => some k
  | _ => none

/-- Units of each kind of R456. -/
def unitCount : Nat → Nat
  | 0 => 4096 | 1 => 256 | 2 => 393216 | 3 => 16 | 4 => 4 | 5 => 4 | 6 => 36 | 7 => 9 | _ => 0

/-- Bounds of the other operands. -/
def Instr.operandsWf : Instr → Bool
  | .registerWrite _ offset wide _ => decide (offset.val % (if wide then 8 else 4) = 0)            -- R19
  | .counterSplitRead _ offset => decide (offset.val % 4 = 0)                                       -- R13
  | .badRegisterAccess _ _ offset width => decide ((width ≠ 4 ∧ width ≠ 8) ∨ offset % width ≠ 0)     -- R19
  | .fchArm _ _ _ slot img => decide (slot.val < 8 ∧ img.length = 128)                               -- R228, R393
  | .fchCancel _ _ _ slot => decide (slot.val < 8)                                                  -- R393
  | .memoryRead _ _ len _ _ => decide (0 < len)
  | .cxlAccess _ _ len data _ => decide (0 < len) && data.elim true fun d => decide (d.length = len)
  | .memoryWrite _ _ data => !data.bytes.isEmpty
  | .apertureRead _ _ len _ _ _ => decide (0 < len)
  | .apertureWrite _ _ data => !data.isEmpty
  | .peerWrite _ _ _ _ data => !data.isEmpty
  | .step _ record => decide (record.length = 64)                                                   -- R311
  | .reshard _ record | .reshardForce _ record => decide (record.length = 32)                       -- R337
  | .identityFlit _ _ _ _ digest | .challengeResponse _ digest _ => decide (digest.length = 64)     -- R426, R516
  | .identityChallenge _ nonce => nonce.elim true fun n => decide (n.length = 32)                   -- R516
  | .failureRecord row _ _ _ _ | .pause row => decide (1 ≤ row.val ∧ row.val ≤ 12)                  -- R470
  | .faultReport kind index _ | .selfTestComplete kind index _ | .fenceLift kind index =>
    decide (index < unitCount kind.val)                                                             -- R456
  | .thermalLevelUpdate temps => decide (temps.length = 20)                                         -- R531
  | .energyTick rails core base => decide (rails.length = 17 ∧ core.length = 16 ∧ base.length = 16) -- R534
  | .vfFlr fn => decide (fn.val ≠ 0)                                                                -- R550
  | _ => true

/-- Is a command well formed? -/
def Instr.wf (i : Instr) : Bool := (i.core?.elim true CoreRef.wf) && i.operandsWf

end Sys2Proof
end

