-- ==== Sys2Proof/Safety.lean ====
section
/-! DEFINITION. Safety.lean: the terms claims are stated in. -/

namespace Sys2Proof.Machine

/-- Command c completes at s with a next state of which P holds. -/
def Completes (c : Instr) (s : State) (P : State → Prop) : Prop := ∃ t, exec c s = .next t ∧ P t

/-- Command c, given at s, is sampled in a class from a source (R46, R493), and what the sequencer does with it at its event tick,
where it finds the package as s is, satisfies P (`handleRow`, R494). -/
def AtTick (c : Instr) (s : State) (cls src : Nat) (P : State → Prop) : Prop :=
  exec c s = .next (s.sampleRow cls src c) ∧ P (s.handleRow c)

/-- The same, where an event that waits already is not sampled twice. -/
def OnceAtTick (c : Instr) (s : State) (cls src : Nat) (P : State → Prop) : Prop :=
  exec c s = .next (s.sampleOnce cls src (.row c)) ∧ P (s.handleRow c)

/-- A run is safe when no step faults or is refused: k steps from s end in a next state. -/
def SafeRun (k : Nat) (s : State) : Prop := ∃ t, core.run k s = .next t

end Sys2Proof.Machine
end

