-- ==== Sys2Proof/Certificates/Slice0/Obligations.lean ====
section
/-! DEFINITION. Certificates/Slice0/Obligations.lean: the statements for the provers. -/

open Sys2Proof Sys2Proof.Machine

/-! ## The machine -/

/-- A step runs the command at the front of the queue on the state that holds the queue's rest; with an empty queue the block
idles, which is the model's choice (DESIGN CHOICE, log entry 34). -/
def Obligations.StepRunsFrontCommand : Prop :=
  (∀ (c : Instr) (rest : List Instr) (s : State), step { s with pending := c :: rest } = exec c { s with pending := rest }) ∧
  (∀ s : State, s.pending = [] → step s = .next s)

/-- R222, R417, R537, R541: after reset every region is unbound, no context exists, no half leads, ACLK stands at level 16, the
limits hold their reset values; no command waits and memory lists nothing. Clauses that rest on the model's own choices follow
log entries 4, 5, 6. -/
def Obligations.ResetStateHoldsItsValues : Prop :=
  let s := State.reset
  s.live = true ∧ s.pending = [] ∧ memWf s.mem = true ∧ s.led = false ∧ s.now = 0 ∧
  (∀ p, p < 16 → s.rstate p = 0 ∧ s.rctx p = 31 ∧ s.repoch p = 0 ∧ s.get PWR_REGION_ACLK.level p = 16 ∧
    s.get PWR_REGION_ACLK.sag p = 32 ∧ s.get CTX_REGION_RESERVE.context p = 31) ∧
  (∀ c, c < 31 → s.ctxExists c = false ∧ s.get CTX_PREEMPT_DEADLINE.limit_us c = 40) ∧
  s.get PWR_TARGET.watts = 3000 ∧ s.get PWR_TJ.target = 100 ∧ s.get PWR_TJ.alert = 103 ∧ s.get PWR_SAG.in_level = 22 ∧
  s.rn .MGT_TERM = 0

/-- The memory keeps its canonical form: addresses strictly rising, no byte listed that reads as an unlisted one would. Clauses
that rest on the model's own choices follow log entry 6. -/
def Obligations.StepKeepsMemoryCanonical : Prop :=
  ∀ s t : State, memWf s.mem = true → step s = .next t → memWf t.mem = true

/-- No command stops the machine: every command answers a next state, and every run is safe. While the package is unpowered, in
reset or tripped, only PWROK, PERST_N and the TAP change anything (R532, R538). Clauses that rest on the model's own choices
follow log entries 1, 102. -/
def Obligations.CommandsAnswerAndDeadPackageKeepsState : Prop :=
  (∀ (c : Instr) (s : State), ∃ t, exec c s = .next t) ∧
  (∀ (k : Nat) (s : State), SafeRun k s) ∧
  (∀ (c : Instr) (s : State), s.live = false → c ≠ .pwrokRise → c ≠ .pwrokFall → c ≠ .perstFall → c ≠ .perstRise →
    (∀ r m d t, c ≠ .tapTckEdge r m d t) → exec c s = .next s)

/-- R12: a load gives the bytes last stored and a store leaves every other byte; a copy moves its range, also where source and
destination meet, and a cleared range reads zero. Clauses that rest on the model's own choices follow log entry 6. -/
def Obligations.MemoryReadsBack : Prop :=
  (∀ (m : Sparse Byte) (a : Nat) (bs : List Byte), memLoad (memStore m a bs) a bs.length = bs ∧
    (∀ b, b < a ∨ a + bs.length ≤ b → spGet 0#8 (memStore m a bs) b = spGet 0#8 m b)) ∧
  (∀ (m : Sparse Byte) (src dst n b : Nat), memWf m = true → spGet 0#8 (memCopy m src dst n) b =
    if dst ≤ b ∧ b < dst + n then spGet 0#8 m (b - dst + src) else spGet 0#8 m b) ∧
  (∀ (m : Sparse Byte) (lo hi b : Nat), spGet 0#8 (spClear m lo hi) b = if lo ≤ b ∧ b < hi then 0#8 else spGet 0#8 m b) ∧
  (∀ (n v : Nat), leNat (natLe n v) = v % 2 ^ (8 * n))

/-- R73, R74 to R81, R580, R581: the pilot's decoder reads back every instruction that the encoder writes, and every word that it
reads is the word of its instruction: no bit is dropped. -/
def Obligations.PilotDecodeOfEncode : Prop :=
  (∀ i : PilotInsn, decodePilot (encodePilot i) = some i) ∧
  (∀ (w : Word) (i : PilotInsn), decodePilot w = some i → encodePilot i = w)

/-- R73, R580, R581, R79 to R81: words written out from the encoding tables; a reserved opcode and a nonzero reserved field decode
to nothing. -/
def Obligations.PilotWordsDecode : Prop :=
  decodePilot 0b000000_0001_0010_0011_00000000000000#32 = some (.alu .add 1 2 3) ∧
  decodePilot 0b001001_1111_1110_0001_00000000000000#32 = some (.alu .sltu 15 14 1) ∧
  decodePilot 0b001010_0100_0101_00_1111111111111111#32 = some (.alui .addi 4 5 0xFFFF) ∧
  decodePilot 0b001110_0110_0000_00_0000000000000101#32 = some (.li 6 5) ∧
  decodePilot 0b010010_0001_0010_000000_111111111110#32 = some (.br .blt 1 2 0xFFE) ∧
  decodePilot 0b010100_0000000000000000_0000001001#32 = some (.jmp 9) ∧
  decodePilot 0b010111_00000000000000000000000000#32 = some .done ∧
  decodePilot 0b011001_0011_0100_00_0000000000001000#32 = some (.stw 3 4 8) ∧
  decodePilot 0b100000_000101_0010_0011_0110_0111_1000#32 = some (.tens 5 2 3 6 7 8) ∧
  decodePilot 0b100001_000001_000010_0011_01_0101_0110#32 = some (.vect 1 2 3 1 5 6) ∧
  decodePilot 0b100100_101_0_01_000000000000_0011_0100#32 = some (.tsend 5 0 1 3 4) ∧
  decodePilot 0b101000_10_0111_00000000000000010001#32 = some (.herd 2 7 17) ∧
  decodePilot 0b101100_0000000000_0000000000000011#32 = some (.yield 3) ∧
  decodePilot 0b111111_00000000000000000000000000#32 = none ∧
  decodePilot 0b000000_0001_0010_0011_00000000000001#32 = none

/-! ## The core (R54 to R94, R580 to R583) -/

/-- R580: each scalar arithmetic instruction writes its table's result to the destination and moves on; nothing else changes.
`pilotInsn` answers the instruction at the pc of a pilot that may execute. Completion stated of: ADD, SUB, AND, OR, XOR, SHL,
SHR, SRA, SLT, SLTU, ADDI, ANDI, SHLI, SHRI, LI, LUI. -/
def Obligations.PilotScalarArithmeticResults : Prop :=
  ∀ (k : CoreRef) (s : State) (h : Handler) (i : PilotInsn), s.live = true → s.pilotInsn k.key = some (h, i) →
    let c := s.core k.key
    let writes (d : BitVec 4) (v : Word) : Host.Outcome State Fault Refusal :=
      .next (s.setCore k.key ((c.setSreg d v).advance h (h.pc + 1)))
    (∀ d a b, i = .alu .add d a b → exec (.add k) s = writes d (c.sreg a + c.sreg b)) ∧
    (∀ d a b, i = .alu .sub d a b → exec (.sub k) s = writes d (c.sreg a - c.sreg b)) ∧
    (∀ d a b, i = .alu .and d a b → exec (.andInsn k) s = writes d (c.sreg a &&& c.sreg b)) ∧
    (∀ d a b, i = .alu .or d a b → exec (.orInsn k) s = writes d (c.sreg a ||| c.sreg b)) ∧
    (∀ d a b, i = .alu .xor d a b → exec (.xorInsn k) s = writes d (c.sreg a ^^^ c.sreg b)) ∧
    (∀ d a b, i = .alu .shl d a b → exec (.shl k) s = writes d (c.sreg a <<< ((c.sreg b).toNat % 32))) ∧
    (∀ d a b, i = .alu .shr d a b → exec (.shr k) s = writes d (c.sreg a >>> ((c.sreg b).toNat % 32))) ∧
    (∀ d a b, i = .alu .sra d a b → exec (.sra k) s = writes d ((c.sreg a).sshiftRight ((c.sreg b).toNat % 32))) ∧
    (∀ d a b, i = .alu .slt d a b →
      exec (.slt k) s = writes d (if (c.sreg a).toInt < (c.sreg b).toInt then 1#32 else 0#32)) ∧
    (∀ d a b, i = .alu .sltu d a b →
      exec (.sltu k) s = writes d (if (c.sreg a).toNat < (c.sreg b).toNat then 1#32 else 0#32)) ∧
    (∀ d a imm, i = .alui .addi d a imm → exec (.addi k) s = writes d (c.sreg a + imm.signExtend 32)) ∧
    (∀ d a imm, i = .alui .andi d a imm → exec (.andi k) s = writes d (c.sreg a &&& imm.zeroExtend 32)) ∧
    (∀ d a imm, i = .alui .shli d a imm → exec (.shli k) s = writes d (c.sreg a <<< (imm.toNat % 32))) ∧
    (∀ d a imm, i = .alui .shri d a imm → exec (.shri k) s = writes d (c.sreg a >>> (imm.toNat % 32))) ∧
    (∀ d imm, i = .li d imm → exec (.li k) s = writes d (imm.zeroExtend 32)) ∧
    (∀ d a imm, i = .alui .lui d a imm → exec (.lui k) s = writes d (imm ++ (c.sreg a).extractLsb' 0 16)) ∧
    (∀ (w : Word) f d a b, decodePilot w = some (.alu f d a b) → w.toNat / 2 ^ 26 = f.code) ∧
    (∀ (w : Word) f d a imm, decodePilot w = some (.alui f d a imm) → w.toNat / 2 ^ 26 = f.code) ∧
    (∀ (w : Word) d imm, decodePilot w = some (.li d imm) → w.toNat / 2 ^ 26 = 0x0E) ∧
    [AluR.add, .sub, .and, .or, .xor, .shl, .shr, .sra, .slt, .sltu].map AluR.code = [0, 1, 2, 3, 4, 5, 6, 7, 8, 9] ∧
    [AluI.addi, .andi, .shli, .shri, .lui].map AluI.code = [0x0A, 0x0B, 0x0C, 0x0D, 0x0F]

/-- R581: a write to s0 is discarded, s0 reads zero, and any other register reads what was last written to it. R581: a branch goes
to its own index plus the signed offset when its condition holds, else to the next index; JMP goes to its absolute index.
Nothing but the handler changes. R581, R83: LDW writes the aligned scratchpad word to its register, STW stores it; outside the
scratchpad or unaligned the core takes a program fault with cause bad_address and no register or byte of memory changes.
Completion stated of: BEQ, BNE, BLT, BLTU, JMP, LDW, STW. -/
def Obligations.PilotRegistersBranchesAndMemory : Prop :=
  (∀ (c : CoreState) (i j : BitVec 4) (v : Word),
    (c.setSreg i v).sreg 0 = 0#32 ∧ c.setSreg 0 v = c ∧ (i ≠ 0 → (c.setSreg i v).sreg i = v) ∧
    (j ≠ i → (c.setSreg i v).sreg j = c.sreg j) ∧ (c.setSreg i v).handler = c.handler ∧ (c.setSreg i v).block = c.block) ∧
  (∀ (k : CoreRef) (s : State) (h : Handler) (i : PilotInsn), s.live = true → s.pilotInsn k.key = some (h, i) →
    let c := s.core k.key
    let goes (taken : Bool) (off : BitVec 12) : Host.Outcome State Fault Refusal :=
      .next (s.setCore k.key (c.advance h (if taken then (((h.pc : Int) + off.toInt) % 1024).toNat else h.pc + 1)))
    (∀ a b off, i = .br .beq a b off → exec (.beq k) s = goes (c.sreg a = c.sreg b) off) ∧
    (∀ a b off, i = .br .bne a b off → exec (.bne k) s = goes (c.sreg a ≠ c.sreg b) off) ∧
    (∀ a b off, i = .br .blt a b off → exec (.blt k) s = goes ((c.sreg a).toInt < (c.sreg b).toInt) off) ∧
    (∀ a b off, i = .br .bltu a b off → exec (.bltu k) s = goes ((c.sreg a).toNat < (c.sreg b).toNat) off) ∧
    (∀ t, i = .jmp t → exec (.jmp k) s = .next (s.setCore k.key (c.advance h t.toNat)))) ∧
  (∀ (k : CoreRef) (s : State) (h : Handler) (d a : BitVec 4) (imm : BitVec 16), s.live = true →
    let c := s.core k.key
    let at_ := (c.sreg a + imm.signExtend 32).toNat
    (s.pilotInsn k.key = some (h, .ldw d a imm) →
      (at_ % 4 = 0 ∧ at_ + 4 ≤ 786432 → exec (.ldw k) s =
        .next (s.setCore k.key ((c.setSreg d (BitVec.ofNat 32 (s.loadN (s.spad k.key + at_) 4))).advance h (h.pc + 1)))) ∧
      (¬ (at_ % 4 = 0 ∧ at_ + 4 ≤ 786432) → exec (.ldw k) s = .next (s.programFault k.key CORE_FAULT.bad_address h.pc))) ∧
    (s.pilotInsn k.key = some (h, .stw d a imm) →
      (at_ % 4 = 0 ∧ at_ + 4 ≤ 786432 → exec (.stw k) s =
        .next ((s.setCore k.key (c.advance h (h.pc + 1))).storeN (s.spad k.key + at_) 4 (c.sreg d).toNat)) ∧
      (¬ (at_ % 4 = 0 ∧ at_ + 4 ≤ 786432) → exec (.stw k) s = .next (s.programFault k.key CORE_FAULT.bad_address h.pc))) ∧
    (s.programFault k.key CORE_FAULT.bad_address h.pc).mem = s.mem ∧
    ((s.programFault k.key CORE_FAULT.bad_address h.pc).core k.key).regs = c.regs)

/-- R79, R583: TSEND sends one token of the instance's tag plus tag_delta on its output, null or with the data that stands at its
address when it leaves; a length above 16,383 and an address that is unaligned or not within the scratchpad are program faults
and send nothing. Completion stated of: TSEND. -/
def Obligations.TsendSendsOrFaults : Prop :=
  ∀ (k : CoreRef) (s : State) (h : Handler) (out : BitVec 3) (null : BitVec 1) (delta : BitVec 2) (len addr : BitVec 4),
    s.live = true → s.pilotInsn k.key = some (h, .tsend out null delta len addr) →
    let c := s.core k.key
    let n := (c.sreg len).toNat
    let a := (c.sreg addr).toNat
    let sends (len addr : Nat) : Prop := Completes (.tsend k) s fun t =>
      ∃ tok : Token, t = { s.setCore k.key (c.advance h (h.pc + 1)) with noc := { s.noc with tokens := s.noc.tokens ++ [tok] } } ∧
        tok.tag = h.tag + delta.zeroExtend 16 ∧ tok.null = decide (null = 1) ∧ tok.length = len ∧ tok.addr = addr ∧ tok.data = [] ∧
        tok.op = rtOp (c.block.route h.op out.toNat) ∧
        tok.port = rtPort (c.block.route h.op out.toNat) ∧ tok.epoch.toNat = s.repoch (k.p.val) ∧ tok.phase = .waiting ∧
        s.stagedData tok = s.load (s.spad k.key + addr) (64 * len)
    (null = 1 → sends 0 0) ∧
    (null = 0 → 16383 < n → exec (.tsend k) s = .next (s.programFault k.key CORE_FAULT.oversize h.pc)) ∧
    (null = 0 → n ≤ 16383 → (a % 64 ≠ 0 ∨ 786432 < a + 64 * n) →
      exec (.tsend k) s = .next (s.programFault k.key CORE_FAULT.bad_address h.pc)) ∧
    (null = 0 → n ≤ 16383 → a % 64 = 0 → a + 64 * n ≤ 786432 → sends n a) ∧
    (∀ cause ∈ [CORE_FAULT.oversize, CORE_FAULT.bad_address],
      (s.programFault k.key cause h.pc).noc = s.noc ∧ (s.programFault k.key cause h.pc).flag cause k.key = true ∧
      (s.noFault k.key = true → (s.programFault k.key cause h.pc).get CORE_FAULT.first_pc k.key = h.pc % 1024))

/-- R72, R84: an engine start appends its word and the registers to its queue of four; a full queue holds the pilot and
CORE_ENGINE_STALL advances. R68, R84, R89, R111: an engine that is free takes the oldest command of its queue; a finished tile
swaps the accumulator banks once the drain bank is empty; a command that has done its work leaves its engine and its instance
moves on, and the cycles in which its core's requesters lost a bank are counted. Clauses that rest on the model's own choices
follow log entries 69, 134. Completion stated of: TENS, VECT, LOOP, ENGINE_COMMAND_START, ENGINE_COMMAND_COMPLETE,
ACCUMULATOR_BANK_SWAP. -/
def Obligations.EnginesQueueAndRunCommands : Prop :=
  (∀ (k : CoreRef) (s : State) (h : Handler) (i : PilotInsn), s.live = true → s.pilotInsn k.key = some (h, i) →
    let c := s.core k.key
    let cmd : EngCmd :=
      { word := c.block.prog.getD h.pc 0#32, regs := c.regs, op := h.op, tag := h.tag, finish := h.finish, pc := h.pc }
    (∀ desc fa fb sa sb sc, i = .tens desc fa fb sa sb sc →
      (c.tq.length < 4 → Completes (.tens k) s fun t =>
        t.core k.key = { c.advance h (h.pc + 1) with tq := c.tq ++ [cmd] } ∧ t.mem = s.mem ∧ t.regs = s.regs) ∧
      (4 ≤ c.tq.length → exec (.tens k) s = .next (s.bump .CORE_ENGINE_STALL k.key))) ∧
    (∀ desc vop fmt rnd sn sd, i = .vect desc vop fmt rnd sn sd →
      (c.vq.length < 4 → exec (.vect k) s = .next (s.setCore k.key { c.advance h (h.pc + 1) with vq := c.vq ++ [cmd] })) ∧
      (4 ≤ c.vq.length → exec (.vect k) s = .next (s.bump .CORE_ENGINE_STALL k.key))) ∧
    (∀ desc kind width ss sd, i = .loop desc kind width ss sd →
      (c.mq.length < 4 → exec (.loop k) s = .next (s.setCore k.key { c.advance h (h.pc + 1) with mq := c.mq ++ [cmd] })) ∧
      (4 ≤ c.mq.length → exec (.loop k) s = .next (s.bump .CORE_ENGINE_STALL k.key)))) ∧
  (∀ (k : CoreRef) (s : State), s.live = true →
    let c := s.core k.key
    (s.engineOn k.key 0 = true → ∀ q rest, c.tq = q :: rest → c.tx = none → Completes (.engineCommandStart k 0) s fun u =>
      (u.core k.key).tq = rest ∧ ((u.core k.key).tx.map fun r => r.cmd) = some q ∧ u.mem = s.mem) ∧
    (s.engineOn k.key 1 = true → ∀ q rest, c.vq = q :: rest → c.vx = none → Completes (.engineCommandStart k 1) s fun u =>
      (u.core k.key).vq = rest ∧ ((u.core k.key).vx.map fun r => r.1) = some q) ∧
    (s.engineOn k.key 2 = true → ∀ q rest, c.mq = q :: rest → c.mx = none → Completes (.engineCommandStart k 2) s fun u =>
      (u.core k.key).mq = rest ∧ (u.core k.key).mx = some q) ∧
    (s.engineOn k.key 0 = true → ∀ r i rest, c.tx = some r → r.tiles = i :: rest → c.dx = none →
      Completes (.accumulatorBankSwap k) s fun u =>
        (u.core k.key).fillOne = !c.fillOne ∧ (u.core k.key).tq = c.tq ∧ u.mem = s.mem ∧
        (u.core k.key).dx = some ⟨r.cmd, i, 0, rest.isEmpty && !r.bad⟩ ∧
        (u.core k.key).tx = if rest.isEmpty && !r.bad then none else some { r with tiles := rest }) ∧
    (∀ (e : Fin 3) (n : Nat), s.engineOn k.key e.val = true → Completes (.engineCommandComplete k ⟨e, n⟩) s fun u =>
      u.rn .CORE_BANK_CONFLICT k.key = min (s.rn .CORE_BANK_CONFLICT k.key + n) (2 ^ 64 - 1)) ∧
    (∀ n, let s0 := s.bump .CORE_BANK_CONFLICT k.key n
      (s.engineOn k.key 0 = true → ∀ x a, c.dx = some x → x.last = true → tensArgs c x.cmd = some a →
        (s0.drainTile k.key x a c.drainBank).2 = true →
        exec (.engineCommandComplete k ⟨0, n⟩) s = .next ((s0.drainTile k.key x a c.drainBank).1.modCore k.key fun c =>
          ({ c with dx := none } : CoreState).cmdDone x.cmd)) ∧
      (s.engineOn k.key 0 = true → ∀ r, c.dx = none → c.tx = some r → r.tiles = [] →
        exec (.engineCommandComplete k ⟨0, n⟩) s = .next (s0.setCore k.key (({ c with tx := none } : CoreState).cmdDone r.cmd))) ∧
      (s.engineOn k.key 1 = true → ∀ q, c.vx = some (q, none) → exec (.engineCommandComplete k ⟨1, n⟩) s =
        .next (s0.setCore k.key (({ c with vx := none } : CoreState).cmdDone q))) ∧
      (s.engineOn k.key 1 = true → ∀ q v a, c.vx = some (q, some v) → vecArgs c q = some a →
        Completes (.engineCommandComplete k ⟨1, n⟩) s fun u =>
          u.core k.key = ({ c with vx := none } : CoreState).cmdDone q ∧
          u.num.amax = s.num.amax ++ [⟨k.key, a.d.tensorId, q.tag, v⟩] ∧ u.mem = s.mem) ∧
      (s.engineOn k.key 2 = true → ∀ q, c.mx = some q → exec (.engineCommandComplete k ⟨2, n⟩) s =
        .next (s0.setCore k.key (({ c with mx := none } : CoreState).cmdDone q)))))

/-- R80, R293: HERD sends its operation without waiting, except that a read holds the pilot until its value arrives in s12; R81:
YIELD waits and reports its manifest index only when a pre-emption is pending; R83: a handler that has executed 4,096
instructions takes a program fault with cause watchdog. R70, R83, R293: a sampled program fault or failed HERD halts the
region of its core: every core of the region stops, the region is halted and its context gets a kind 4 record with the status;
memory and the other regions' cores keep their state. Clauses that rest on the model's own choices follow log entries 18, 40,
134. Completion stated of: HERD_HALT, HERD_INCREMENT, HERD_DECREMENT, HERD_READ, HERD_READ_REPLY, YIELD, WATCHDOG,
PROGRAM_FAULT_HALT. -/
def Obligations.HerdYieldWatchdogAndHalts : Prop :=
  (∀ (k : CoreRef) (s : State) (h : Handler), s.live = true →
    let c := s.core k.key
    let sends (a : BitVec 2) (vid : BitVec 20) (cnt : BitVec 4) (w : PWait) : Host.Outcome State Fault Refusal :=
      let t := s.setCore k.key { c with handler := some { h.next (h.pc + 1) with wait := w } }
      let m : HerdMsg :=
        { core := k.key, op := h.op, ctx := s.rctx k.p.val, vid := vid.toNat, act := a.toNat, count := (c.sreg cnt).toNat }
      .next { t with hrd := { t.hrd with msgs := t.hrd.msgs ++ [m] } }
    (∀ cnt vid, s.pilotInsn k.key = some (h, .herd 0 cnt vid) → exec (.herdIncrement k) s = sends 0 vid cnt h.wait) ∧
    (∀ cnt vid, s.pilotInsn k.key = some (h, .herd 1 cnt vid) → exec (.herdDecrement k) s = sends 1 vid cnt h.wait) ∧
    (∀ cnt vid, s.pilotInsn k.key = some (h, .herd 2 cnt vid) → exec (.herdRead k) s = sends 2 vid cnt .herd) ∧
    (∀ v, c.handler = some h → h.wait = .herd → s.hrd.replies.find? (fun r => r.1 = k.key) = some (k.key, v) →
      Completes (.herdReadReply k) s fun t =>
        (t.core k.key).sreg 12 = v ∧ (t.core k.key).handler = some { h with wait := .none } ∧
        t.hrd.replies = dropFirst (fun x => x.1 = k.key) s.hrd.replies ∧ t.mem = s.mem ∧ t.regs = s.regs) ∧
    (∀ m, s.pilotInsn k.key = some (h, .yield m) →
      (s.preemptPending k.p.val = false → exec (.yield k) s = .next (s.setCore k.key (c.advance h (h.pc + 1)))) ∧
      (s.preemptPending k.p.val = true → Completes (.yield k) s fun t =>
        (t.core k.key).handler = some { h.next (h.pc + 1) with wait := .yielding m } ∧
        (t.core k.key).yielded = (if c.enginesIdle then some m else c.yielded) ∧ t.mem = s.mem ∧ t.regs = s.regs)) ∧
    (c.handler = some h → s.runs k.p.val = true → c.faulted = false → 4096 ≤ h.count →
      exec (.watchdog k) s = .next (s.programFault k.key CORE_FAULT.watchdog h.last))) ∧
  (∀ (k : CoreRef) (s : State), s.live = true → s.runs k.p.val = true → s.flag BND_REGION_STATE.step k.p.val = false →
    let halted (cmd : Instr) (status : Nat) : Prop := Completes cmd s fun u =>
      u.rstate k.p.val = 4 ∧ u.mem = s.mem ∧
      (∀ j : CoreRef, j.p = k.p → (u.core j.key).handler = none ∧ (u.core j.key).entries = [] ∧ (u.core j.key).tx = none) ∧
      (∀ j : CoreRef, j.p ≠ k.p → u.core j.key = s.core j.key) ∧
      ((s.ring (s.rctx k.p.val)).queue.length < 256 → ∃ r, (u.ring (s.rctx k.p.val)).queue =
        (s.ring (s.rctx k.p.val)).queue ++ [r] ∧ r.kind = 4 ∧ r.status = status ∧ r.aux = k.p.val)
    ((∃ e, s.findEvent (fun e => e = .programFault k.key) = some e) → halted (.programFaultHalt k) 0x11) ∧
    (∀ e st, s.findEvent (fun e => match e with | .herdHalt j _ => decide (j = k.key) | _ => false) = some e →
      e.ev = .herdHalt k.key st → halted (.herdHalt k) st))

/-! ## Tokens, matcher and network -/

/-- R61, R62, R64, R79, R83, R212, R215, R591: a courier token that is on its way, in order and held by no branch is discarded by
the seam filter, where its core may not be named, or beyond a draining core's window; else it is admitted, waits, or is
discarded with the program fault that the matcher finds. A stream token whose route leads past no fenced router to a core that
admits it stands in its slot's matcher with the bytes read from its sender's scratchpad. R57, R64, R183 to R185: landing
writes the data to slot t mod depth of the port, behind the bytes that came through the reservoir, and nowhere else, sets the
landed bit and removes the token; a diverted token whose slot is free is admitted and the reservoir's bytes go to its slot;
spilled bytes, those of the area before those in staging, are read back into the reservoir; a hold ends once staging, after
its drain, is below 8 KiB and the area has room. Clauses that rest on the model's own choices follow log entries 49, 144, 146,
147, 148. Completion stated of: RESERVOIR_DRAIN, SPILL_READBACK, HOLD_RELEASE, TOKEN_ARRIVAL, TOKEN_DATA_LANDED. -/
def Obligations.TokensArriveAndLand : Prop :=
  (∀ (n : Nat) (s : State) (t : Token), s.live = true → s.noc.tokens[n]? = some t → lcoreOf t.dst ≠ 15 →
    (t.courier = true → t.phase = .flying → t.mode = .unicast → s.inOrder n t = true → s.branchFree n t = true →
      let p := regionOf t.dst
      let cl := clusterOf t.dst
      let c := s.core t.dst
      let e := c.block.op t.op
      let v := s.freeBranch t
      (s.seamPass p t.epoch = false →
        exec (.tokenArrival n) s = .next (((v.seamDiscard p cl t.epoch t.pieces).loseCredit t).dropTok n)) ∧
      (s.seamPass p t.epoch = true → (s.nameable t.dst = false ∨ c.loading = true ∨ s.runs p = false) →
        exec (.tokenArrival n) s = .next (((v.discard cl t.pieces).loseSlot t).dropTok n)) ∧
      (s.seamPass p t.epoch = true → s.nameable t.dst = true → c.loading = false → s.runs p = true →
        (c.beyond t.tag = true → exec (.tokenArrival n) s = .next (((v.discardLate t).loseSlot t).dropTok n)) ∧
        (c.beyond t.tag = false →
          let gone (cause : Fld) : Prop := exec (.tokenArrival n) s = .next ((v.programFault t.dst cause 0).dropTok n)
          (c.block.opCount ≤ t.op ∨ opPorts e ≤ t.port → gone CORE_FAULT.bad_token) ∧
          (t.op < c.block.opCount → t.port < opPorts e →
            (tagAfter c.base t.tag = true → gone CORE_FAULT.dup_token) ∧
            (∀ m, c.entry t.op t.tag = some m → m.arrived &&& portBit t.port ≠ 0#8 → gone CORE_FAULT.dup_token) ∧
            (tagAfter c.base t.tag = false → (t.op, t.tag) ∉ c.retired → c.entry t.op t.tag = none →
              (portSlotSize (c.block.port t.op t.port) < t.length → gone CORE_FAULT.oversize) ∧
              (t.length ≤ portSlotSize (c.block.port t.op t.port) →
                (3 < (t.tag - c.base).toNat → exec (.tokenArrival n) s = .next v) ∧
                ((t.tag - c.base).toNat ≤ 3 → c.entries = [] → Completes (.tokenArrival n) s fun u =>
                  ∃ m, (u.core t.dst).entry t.op t.tag = some m ∧ m.arrived = portBit t.port ∧
                    m.nulls = (if t.null then portBit t.port else 0#8) ∧ m.landed = m.nulls ∧ u.mem = s.mem ∧
                    u.noc.tokens = (if t.null then v.noc.tokens.eraseIdx n
                      else v.noc.tokens.set n { t with phase := .admitted, stalled := none, buffered := [], unsent := 0 })))))))) ∧
    (t.courier = false → t.phase = .waiting → s.egressStopped t = false → s.onHold t.dst t.op t.port = false →
      s.oldestOfStream n t = true → t.null = false → ∀ (a b d f : Nat) (r : List Nat × Nat × Option Nat) (l : Nat),
      t.src = .core a b d f → s.streamPath t = some r → r.2.2 = some l → (∀ x ∈ r.1 ++ [r.2.1], s.fencedRouter x = false) →
      let k := 16 * r.2.1 + l
      let c := s.core k
      s.seamPass (regionOf k) t.epoch = true → s.nameable k = true → c.loading = false → s.runs (regionOf k) = true →
      c.beyond t.tag = false → s.backlog k t.op t.port = false → c.entries = [] →
      c.entrance { t with dst := k, unsent := 64 * t.length } = .ok → Completes (.tokenArrival n) s fun u =>
        (∃ m, (u.core k).entry t.op t.tag = some m ∧ m.arrived = portBit t.port ∧ m.landed = 0#8) ∧ u.mem = s.mem ∧
        ∃ x, u.noc.tokens = s.noc.tokens.eraseIdx n ++ [x] ∧ x.phase = .admitted ∧ x.dst = k ∧ x.unsent = 0 ∧
          x.data = s.load (s.spad a + t.addr) (64 * t.length))) ∧
  (∀ (s : State), s.live = true →
    (∀ (n : Nat) (t : Token) (m : MEntry), s.noc.tokens[n]? = some t → t.phase = .admitted →
      t.inSlot + t.data.length = 64 * t.length → t.area = [] → t.staged = [] → t.unsent = 0 →
      (s.core t.dst).entry t.op t.tag = some m →
      let e := (s.core t.dst).block.op t.op
      let a := s.spad t.dst + portSlotAddr ((s.core t.dst).block.port t.op t.port) (t.tag.toNat % opDepth e) + t.inSlot
      exec (.tokenDataLanded n) s =
        .next (((s.setCore t.dst ((s.core t.dst).putEntry (m.land e t.port))).store a t.data).dropTok n) ∧
      (m.land e t.port).landed = m.landed ||| portBit t.port) ∧
    (∀ (k : CoreRef) (op : Fin 32) (port : Fin 8) (n : Nat) (t : Token),
      s.frontDiverted k.key op.val port.val = some (t, n) → s.runs k.p.val = true → (s.core k.key).beyond t.tag = false →
      0 < t.inResv → (s.core k.key).entrance t = .ok → t.null = false →
      exec (.reservoirDrain k op port) s =
        .next (((s.admitHeader t).store ((s.admitHeader t).slotOfTok t)
          ((s.admitHeader t).resvRead t.dst t.op t.port t.resvAt t.inResv)).setTok n
            { t with phase := .admitted, inSlot := t.inResv, inResv := 0 })) ∧
    (∀ (k : CoreRef) (op : Fin 32) (port : Fin 8) (n : Nat) (t : Token),
      (s.portTokens k.key op.val port.val).find? (fun x => decide (0 < x.1.spilt)) = some (t, n) → t.phase = .diverted →
      s.stagingUsed (clusterOf k.key) = t.staged.length → ∀ (v : State) (bs : List Byte),
      s.readUnits (s.spillReq k.key) t.area = (v, bs) → bs.length = 64 * t.area.length →
      t.spilt ≤ ((s.core k.key).block.resvSize op.val port.val - s.resvUsed k.key op.val port.val) / 64 * 64 →
      Completes (.spillReadback k op port) s fun u =>
        (∃ x, u.noc.tokens = s.noc.tokens.set n x ∧ x.staged = [] ∧ x.area = [] ∧ x.inResv = t.inResv + t.spilt ∧
          x.phase = .diverted) ∧
        u.mem = (v.resvWrite k.key op.val port.val (s.resvTail k.key op.val port.val) (bs ++ t.staged)).mem ∧ u.cores = s.cores) ∧
    (∀ (k : CoreRef) (op : Fin 32) (port : Fin 8) (cycles : Nat) (h : Hold),
      s.noc.holds.find? (fun h => h.core = k.key && h.op = op.val && h.port = port.val) = some h →
      let v := s.drainStaging (clusterOf k.key)
      v.stagingUsed (clusterOf k.key) < 8192 → (v.areaUnits k.p.val = 0 ∨ v.areaFull k.p.val = false) →
      Completes (.holdRelease k op port cycles) s fun u =>
        u.noc.holds = s.noc.holds.filter (· ≠ h) ∧ u.mem = v.mem ∧ u.cores = s.cores ∧
        u.rn .NOC_HOLD_CYCLES (clusterOf k.key) = min (s.rn .NOC_HOLD_CYCLES (clusterOf k.key) + cycles) (2 ^ 64 - 1)))

/-- R71: what the registers hold at dispatch, whatever earlier handlers left in them. R63, R65, R66, R68: the matcher starts the
handler of the instance it selects; DONE moves an issue handler's instance on and retires a finish handler's; an all-null
instance retires with a null token on every output. Completion stated of: DONE, MATCHER_DISPATCH, NULL_RETIRE. -/
def Obligations.HandlersDispatchAndRetire : Prop :=
  (∀ (c : CoreState) (m : MEntry) (finish : Bool), m.op < 32 →
    let r := c.dispatchRegs m finish
    let e := c.block.op m.op
    r.length = 16 ∧ r[0]? = some 0#32 ∧
    (∀ k : Fin 8, r[1 + k.val]? = some (if opPorts e ≤ k.val ∨ m.nulls.getLsbD k.val = true then 0xFFFFFFFF#32
      else BitVec.ofNat 32 (portSlotAddr (c.block.port m.op k.val) (m.tag.toNat % opDepth e)))) ∧
    r[9]? = some (m.tag.zeroExtend 32) ∧
    (∃ w : Word, r[10]? = some w ∧ w.extractLsb' 0 8 = m.nulls ∧ (w.extractLsb' 8 5).toNat = m.op ∧
      w.extractLsb' 13 2 = m.tag.extractLsb' 0 2 ∧ w.getLsbD 15 = finish ∧ w.extractLsb' 16 16 = 0#16) ∧
    r[11]? = some (BitVec.ofNat 32 (opOutBase e * 64 + (m.tag.toNat % opDepth e) * (opOutSlot e * 64))) ∧
    r[12]? = some 0#32 ∧ r[13]? = some 0#32 ∧ r[14]? = some 0#32 ∧ r[15]? = some 0#32) ∧
  (∀ (k : CoreRef) (s : State), s.live = true →
    let c := s.core k.key
    (∀ m, s.matcherOn k.key = true → c.handler = none →
      firstEntry c.base (c.entries.filter fun x => s.dispatchable k.key x && !(x.state = .ready && c.allNull x)) = some m →
      Completes (.matcherDispatch k) s fun u =>
        let fin := decide (m.state = .finishReady)
        (u.core k.key).regs = c.dispatchRegs m fin ∧
        (∃ h, (u.core k.key).handler = some h ∧ h.op = m.op ∧ h.tag = m.tag ∧ h.finish = fin ∧ h.count = 0 ∧
          h.pc = if fin then opFinishPc (c.block.op m.op) else opIssuePc (c.block.op m.op)) ∧
        u.rn .CORE_FIRE_COUNT k.key = (if fin then s.rn .CORE_FIRE_COUNT k.key
          else min (s.rn .CORE_FIRE_COUNT k.key + 1) (2 ^ 64 - 1)) ∧ u.mem = s.mem) ∧
    (∀ h m, s.pilotInsn k.key = some (h, .done) → h.finish = false → c.entry h.op h.tag = some m →
      exec (.done k) s = .next (s.setCore k.key (({ c with handler := none } : CoreState).putEntry
        { m with state := if c.outstanding h.op h.tag then .inEngines else .finishReady }))) ∧
    (∀ h, s.pilotInsn k.key = some (h, .done) → h.finish = true →
      exec (.done k) s = .next (s.setCore k.key (({ c with handler := none } : CoreState).retire h.op h.tag))) ∧
    (∀ m, s.matcherOn k.key = true →
      firstEntry c.base (c.entries.filter fun x => x.state = .ready && c.allNull x && s.dispatchable k.key x) = some m →
      Completes (.nullRetire k) s fun u =>
        u.core k.key = c.retire m.op m.tag ∧ u.mem = s.mem ∧
        u.rn .CORE_NULL_COUNT k.key = min (s.rn .CORE_NULL_COUNT k.key + 1) (2 ^ 64 - 1) ∧
        ∃ sent : List Token, u.noc.tokens = s.noc.tokens ++ sent ∧ sent.length = opOuts (c.block.op m.op) ∧
          ∀ x ∈ sent, x.null = true ∧ x.tag = m.tag ∧ x.length = 0))

/-- R79, R171, R173, R175, R190: a staged courier token leaves on its path with its bytes, x first, or y first where only that
avoids fenced routers, its flits are counted at the routers it passes, and it is discarded with FENCED where no path does.
R177, R179, R187, R191, R210: a straggler is recorded and sampled; a reduction node stores a first contribution and sends the
combination of two on; a spill register reads what was written; a loaded spare admits tokens again. Clauses that rest on the
model's own choices follow log entries 12, 40, 49, 68, 72, 145, 153, 154, 155. Completion stated of: COURIER_PACKET_ROUTE,
STRAGGLER_TIMEOUT, REDUCTION_CONTRIBUTION, NOC_SPILL_WRITE, SPARE_LOAD_COMPLETE. -/
def Obligations.CouriersNodesAndSpares : Prop :=
  (∀ (n : Nat) (s : State) (t : Token), s.live = true → s.noc.tokens[n]? = some t → t.courier = true → t.phase = .waiting →
    t.mode = .unicast → s.egressStopped t = false → s.oldestOfStream n t = true → s.streamReserved t = false →
    let b := clusterOf t.dst
    let v := (s.endWait (streamOf t).toList).dropTok n
    let free (l : List Nat) : Prop := ∀ r ∈ l, s.fencedRouter r = false
    let leaves (path : List Nat) (detour : Bool) : Prop := s.lacksCredit t = false → (t.from_ :: path).Nodup →
      Completes (.courierPacketRoute n []) s fun u =>
        u.noc.tokens = v.noc.tokens ++ [{ t with phase := .flying, detour := detour, data := s.stagedData t }] ∧ u.mem = s.mem ∧
        u.cores = s.cores ∧ ∀ r ∈ t.from_ :: path, u.rn .NOC_COURIER_FLITS r =
          min (s.rn .NOC_COURIER_FLITS r + t.flits) (2 ^ 64 - 1)
    let lost : Prop :=
      exec (.courierPacketRoute n []) s = .next (v.refuseTok { t with data := s.stagedData t } t.from_)
    (s.fencedRouter b = false → free (pathXY t.from_ b) → leaves (pathXY t.from_ b) false) ∧
    (s.fencedRouter b = false → ¬ free (pathXY t.from_ b) → free (pathYX t.from_ b) → leaves (pathYX t.from_ b) true) ∧
    (s.fencedRouter b = true → lost) ∧
    (¬ free (pathXY t.from_ b) → ¬ free (pathYX t.from_ b) → lost)) ∧
  (∀ (s : State), s.live = true →
    (∀ (n : Nat) (t : Token) (cl br : Nat), s.noc.tokens[n]? = some t → t.stalled = some (cl, br) → s.branchFree n t = true →
      s.flag NOC_STRAGGLER_EVENT.valid cl = false → br < 8 → Completes (.stragglerTimeout n) s fun u =>
        u.flag NOC_STRAGGLER_EVENT.valid cl = true ∧ u.get NOC_STRAGGLER_EVENT.branch cl = br ∧ u.noc = s.noc ∧
        u.mem = s.mem ∧ ∃ e ∈ u.seq.sampled ++ u.seq.carried ++ u.seq.offered, ∃ g l, e.ev = .straggler cl g br l) ∧
    (∀ (n : Nat) (t : Token) (cl nd leaf op : Nat), s.noc.tokens[n]? = some t → t.mode = .reduction cl nd leaf op →
      t.phase = .flying → s.inOrder n t = true → s.seamPass (cl / 16) t.epoch = true →
      bitAt (s.rn .NOC_NODE (64 * cl + nd)) 0 = true →
      (s.noc.combine.find? (fun c => c.router = cl && c.node = nd && c.tag = t.tag) = none →
        Completes (.reductionContribution n) s fun u =>
          u.noc.combine = s.noc.combine ++ [⟨cl, nd, t.tag, leaf, t.epoch, t.data⟩] ∧
          u.noc.tokens = s.noc.tokens.eraseIdx n ∧ u.mem = s.mem ∧ u.regs = s.regs) ∧
      (∀ c, s.noc.combine.find? (fun c => c.router = cl && c.node = nd && c.tag = t.tag) = some c →
        let e := s.rn .NOC_NODE (64 * cl + nd)
        Completes (.reductionContribution n) s fun u => ∃ x, u.noc.tokens = s.noc.tokens.eraseIdx n ++ [x] ∧
          x.data = (if leaf < ndSplit e then combineBytes (ndOp e) t.data c.data else combineBytes (ndOp e) c.data t.data) ∧
          x.tag = t.tag ∧ x.phase = .waiting ∧ u.mem = s.mem ∧ u.regs = s.regs)) ∧
    (∀ (p : Region) (value : DWord), s.decodes 0 = true →
      exec (.nocSpillWrite 0 p false value) s = .next (s.wn .NOC_SPILL_BASE p.val (value.toNat % 2 ^ 48)) ∧
      exec (.nocSpillWrite 0 p true value) s = .next (s.wn .NOC_SPILL_SIZE p.val (value.toNat % 2 ^ 48))) ∧
    (∀ k : CoreRef, (s.core k.key).loading = true → Completes (.spareLoadComplete k) s fun u =>
      (u.core k.key).loading = false ∧ u.regs = s.regs ∧ u.noc = s.noc))

/-! ## Memory tiers -/

/-- R12, R261, R267, R268: an access of an owned page of HBM whose stack serves it: a write stores its bytes, and nothing else in
memory, and is acknowledged; a read whose bursts fit their check bits answers the bytes of its range; one failed check is
retried, two answer MEM_ERROR; bursts whose stored bits flip have no check bits that fit, and a read of such a burst answers
MEM_ERROR. R173, R255, R259, R263, R265, R272, R273: which accesses of HBM are refused, and with what; one from the mesh goes
to memory port (off >> 11) & 15 of its stack and is FENCED where no path to it avoids the fenced routers. Clauses that rest on
the model's own choices follow log entries 13, 41, 132, 141, 151. Completion stated of: MEMORY_READ, MEMORY_WRITE. -/
def Obligations.HbmReadsWritesAndRefusals : Prop :=
  (∀ (s : State) (req : Requester) (a : Nat), s.live = true →
    (∀ (data : List Byte) (flips : List Nat), s.route req a data.length true = .to (.hbm a) →
      s.portHolds req a data.length true = false → Completes (.memoryWrite req a ⟨data, flips⟩) s fun u =>
        u.mem = (s.store a data).mem ∧ u.out = s.out ++ [.memReply req a 0 []] ∧ u.cores = s.cores ∧
        ∀ f ∈ flips, 32 * f < data.length → u.checkBits (s.memKey (a / 32 * 32 + 32 * f) / 32) = none) ∧
    (∀ n, s.route req a n false = .to (.hbm a) → s.portHolds req a n false = false →
      let answers (u : State) (status : Nat) (data : List Byte) : Prop :=
        u.mem = s.mem ∧ u.out = s.out ++ [.memReply req a status data] ∧ u.cores = s.cores
      (s.badBursts a n = [] →
        (∀ bad, Completes (.memoryRead req a n bad 0) s fun u => answers u 0 (s.load a n)) ∧
        (∀ bad, Completes (.memoryRead req a n bad 1) s fun u => answers u 0 (s.load a n)) ∧
        (∀ bad, Completes (.memoryRead req a n bad 2) s fun u => answers u 9 [])) ∧
      (s.badBursts a n ≠ [] → ∀ bad fails, Completes (.memoryRead req a n bad fails) s fun u => answers u 9 []))) ∧
  (∀ (s : State) (c : Ctx) (a n : Nat) (write : Bool), a < hbmEnd →
    let r := Requester.agent c
    (s.flag MEM_STATUS.init_done = false → s.route r a n write = .refuse 8) ∧
    (a % 64 ≠ 0 ∨ n % 64 ≠ 0 → s.route r a n write = .refuse 8) ∧
    (hbmEnd < a + n → s.route r a n write = .refuse 8) ∧
    (∀ g ∈ pagesIn a n, s.pageOwner g ≠ c.val → s.route r a n write = .refuse 8) ∧
    (s.flag MEM_STATUS.init_done = true → a % 64 = 0 → n % 64 = 0 → a + n ≤ hbmEnd →
      (∀ g ∈ pagesIn a n, s.pageOwner g = c.val) → (write = true → s.bankRefused r a n false = false) →
      ((∃ g ∈ pagesIn a n, s.pageFenced g = true) → s.route r a n write = .refuse 10) ∧
      ((∀ g ∈ pagesIn a n, s.pageFenced g = false) → s.route r a n write = .to (.hbm a))) ∧
    (∀ m : Fin 256, s.courierPath m.val (16 * (s.locate a).1 + (s.locate a).2 / 2048 % 16) = none →
      s.route (.mesh c m) a n write = .refuse 10))

/-- R257, R258, R264, R265, R273: page owners, zeroing, the retire limit, quad modes and the end of the power-up zeroing; the
writes of the registers take their effect at the event tick. R268, R270, R272, R273, R286: scrubbing counts a retry and
samples a detection, once for a burst; a handled detection retires its stack page; a fence of a stack is sampled and sets its
bit at the tick. Clauses that rest on the model's own choices follow log entries 15, 40, 101, 135, 149. Completion stated of:
DETECTION_AT_REST, STACK_FENCE, SCRUB_READ, MEM_PAGE_OWNER_WRITE, PAGE_ZEROING_COMPLETE, MEM_QUAD_MODE_WRITE,
MEM_RETIRE_LIMIT_WRITE, HBM_INIT_COMPLETE. -/
def Obligations.PagesOwnersAndDetections : Prop :=
  (∀ (s : State), s.live = true → s.decodes 0 = true →
    (∀ (w : Fin 196608) (v : Word), s.pagePool (2 * w.val) = false → s.pageZeroing (2 * w.val) = false →
      s.pageRetired (2 * w.val) = false → s.pagePool (2 * w.val + 1) = true →
      (s.pageOwner (2 * w.val) = 0x1F → bits v.toNat 4 0 ≠ 0x1F → AtTick (.memPageOwnerWrite 0 w v) s 9 64 fun u =>
        u.pageOwner (2 * w.val) = bits v.toNat 4 0 ∧ u.mem = s.mem ∧ u.cores = s.cores) ∧
      (s.pageOwner (2 * w.val) ≠ 0x1F → bits v.toNat 4 0 = 0x1F → AtTick (.memPageOwnerWrite 0 w v) s 9 64 fun u =>
        u.pageOwner (2 * w.val) = 0x1F ∧ u.pageZeroing (2 * w.val) = true ∧ u.mem = s.mem ∧ u.cores = s.cores)) ∧
    (∀ p : Fin 393216, s.pageZeroing p.val = true → s.pageRetired p.val = false →
      Completes (.pageZeroingComplete p) s fun u => u.pageZeroing p.val = false ∧ u.cores = s.cores ∧
        u.mem = (s.zero (p.val * 2097152) 2097152).mem) ∧
    (∀ v : Word,
      (s.overLimit (limitOf v) = [] → AtTick (.memRetireLimitWrite 0 v) s 9 64 fun u =>
        u.rn .MEM_RETIRE_LIMIT = max 1 (min 1024 (bits v.toNat 15 0)) ∧ u.mem = s.mem ∧ u.cores = s.cores) ∧
      (∀ k ∈ s.overLimit (limitOf v), Completes (.memRetireLimitWrite 0 v) s fun u =>
        ∃ e ∈ u.seq.sampled ++ u.seq.carried ++ u.seq.offered, e.ev = .stackFence k 0x04) ∧
      (∀ k ∈ s.overLimit (limitOf v), (s.handleRow (.memRetireLimitWrite 0 v)).stackFenced k = true)) ∧
    (s.mt.trained = true → s.flag MEM_STATUS.init_done = false → Completes .hbmInitComplete s fun u =>
      u.flag MEM_STATUS.init_done = true ∧
      (∀ a, a < hbmEnd → s.stackFenced (keyPage a).1 = false → keyPage a ∉ s.mt.retired → spGet 0#8 u.mem a = 0#8) ∧
      (∀ a, hbmEnd ≤ a → spGet 0#8 u.mem a = spGet 0#8 s.mem a)) ∧
    (∀ (w : Fin 3072) (v : Word) (i : Fin 32), s.quadFree (32 * w.val + i.val) = true → s.mt.retired = [] →
      v.toNat = s.rn .MEM_QUAD_MODE w.val ^^^ 2 ^ i.val → AtTick (.memQuadModeWrite 0 w v) s 9 64 fun u =>
        u.quadMode (32 * w.val + i.val) = !s.quadMode (32 * w.val + i.val) ∧ u.mem = s.mem ∧ u.cores = s.cores)) ∧
  (∀ (s : State) (k : Fin 16), s.live = true → s.stackFenced k.val = false →
    (∀ off, s.rn .MEM_SCRUB_HOURS ≠ 0 → (k.val, off / 2097152) ∉ s.mt.retired → off < 48 * gib →
      (stackKey k.val off / 32 ∉ s.mt.bad → Completes (.scrubRead k off 1) s fun u =>
        u.rn .MEM_RETRY_OK k.val = min (s.rn .MEM_RETRY_OK k.val + 1) (2 ^ 64 - 1) ∧ u.mem = s.mem ∧ u.cores = s.cores) ∧
      (s.detected k.val (off / 32 * 32) = false → ∀ fails, (fails = 2 ∨ stackKey k.val off / 32 ∈ s.mt.bad) →
        Completes (.scrubRead k off fails) s fun u =>
        u.rn .MEM_AT_REST k.val = min (s.rn .MEM_AT_REST k.val + 1) (2 ^ 64 - 1) ∧
        u.detected k.val (off / 32 * 32) = true ∧ u.mem = s.mem ∧ u.cores = s.cores) ∧
      (s.detected k.val (off / 32 * 32) = true → Completes (.scrubRead k off 2) s fun u =>
        u.rn .MEM_AT_REST k.val = s.rn .MEM_AT_REST k.val ∧ u.seq = s.seq)) ∧
    (∀ (q : Fin 24576) (e : Sampled) (o : Nat), e.ev = .detection k.val o → o / 2097152 = q.val →
      s.findEvent (fun e => match e with
        | .detection j o => decide (j = k.val ∧ o / mib2 = q.val)
        | _ => false) = some e →
      Completes (.detectionAtRest k q) s fun u => (k.val, q.val) ∈ u.mt.retired) ∧
    (∀ why, exec (.stackFence k why) s = .next (s.sampleOnce 5 (393216 + k.val) (.stackFence k.val (stackCause why))) ∧
      (s.applyEvent (.stackFence k.val (stackCause why))).stackFenced k.val = true))

/-- R41, R280, R282: the five page commands on a resident page of the issuing context are sampled in class 9 and act at their
tick: LOAD and UNPIN complete at once, LOAD_PIN pins, EVICT of a pinned page is BUSY, EVICT and FLUSH of a clean page complete
with OK. R260, R277, R279, R280, R283, R284: a fill that ends makes its page resident; a write-back ends its move, an
eviction's with its slot; an access is served page by page from the pool or the port, answers MEM_ERROR for poison, or is held
while a page of it moves; one from the mesh goes through port (A >> 11) & 15 of its own region. R274 to R278, R281, R285,
R562: slot ages, the pool registers, the ports' training, loss and return, which come at an event tick, and configuration
accesses. Clauses that rest on the model's own choices follow log entries 16, 101, 149, 170. Completion stated of: CXL_ACCESS,
TIR_POOL_WRITE, TIER_LOAD, TIER_LOAD_PIN, TIER_UNPIN, TIER_EVICT, TIER_FLUSH, TIER_FILL_COMPLETE, TIER_WRITEBACK_COMPLETE,
SLOT_AGE_ADVANCE, CXL_PORT_ENUMERATE, CXL_PORT_DOWN, CXL_PORT_UP, CXL_RETRAIN, CXL_CONFIG_ACCESS. -/
def Obligations.TierCommandsPagesAndPorts : Prop :=
  (∀ (s : State) (c : Ctx) (cookie : DWord) (irq : Bool) (pg : Fin 4194304) (i : Nat), s.live = true → s.leads = true →
    s.extentOwner (pg.val * mib2) = c.val → s.cxlPopulated (pg.val * mib2) = true → s.mt.moves = [] →
    s.slotOfPage pg.val = some i →
    let iss := Issuer.ring c cookie irq
    let src := s.ctxSrc c.val
    let done (u : State) (status : Nat) : Prop := u.mt.moves = [] ∧ u.mem = s.mem ∧ u.cores = s.cores ∧
      ∃ r, (u.ring c.val).queue = (s.ring c.val).queue ++ [r] ∧ r.kind = 0 ∧ r.status = status ∧ r.tag = cookie.toNat
    (AtTick (.tierLoad iss pg) s 9 src fun u => done u 0 ∧ u.get TIR_SLOT.pinned i = s.get TIR_SLOT.pinned i) ∧
    (AtTick (.tierLoadPin iss pg) s 9 src fun u => done u 0 ∧ u.flag TIR_SLOT.pinned i = true) ∧
    (AtTick (.tierUnpin iss pg) s 9 src fun u => done u 0 ∧ u.flag TIR_SLOT.pinned i = false) ∧
    (s.flag TIR_SLOT.pinned i = true → AtTick (.tierEvict iss pg) s 9 src fun u => done u 2) ∧
    (s.flag TIR_SLOT.pinned i = false → s.get TIR_SLOT_DIRTY.dirty i = 0 → s.get TIR_SLOT.state i = 0 →
      AtTick (.tierEvict iss pg) s 9 src fun u => done u 0 ∧ u.flag TIR_SLOT.valid i = false) ∧
    (s.get TIR_SLOT_DIRTY.dirty i = 0 → AtTick (.tierFlush iss pg) s 9 src fun u => done u 0 ∧ u.flag TIR_SLOT.valid i = true)) ∧
  (∀ (s : State), s.live = true →
    (∀ (pg : Fin 4194304) (m : Move) (hold : Nat), s.mt.moves = [m] → m.kind = .fill → m.page = pg.val → m.started = true →
      m.cmds = [] → s.mt.held = [] → s.mt.poison = [] → Completes (.tierFillComplete pg false hold) s fun u =>
        u.mt.moves = [] ∧ u.get TIR_SLOT.state m.slot = 0 ∧
        u.rn .TIR_LOADS = min (s.rn .TIR_LOADS + 1) (2 ^ 64 - 1) ∧ u.cores = s.cores) ∧
    (∀ (pg : Fin 4194304) (m : Move) (hold : Nat), s.mt.moves = [m] → m.page = pg.val → m.started = true →
      m.cmds = [] → s.mt.held = [] → s.cxlPortUp (pg.val * mib2) = true →
      let ends (u : State) : Prop := u.mt.moves = [] ∧
        u.rn .TIR_WRITEBACK_BYTES = min (s.rn .TIR_WRITEBACK_BYTES + 65536 * m.subs) (2 ^ 64 - 1) ∧
        u.mem = s.mem ∧ u.cores = s.cores
      (m.kind = .flush → Completes (.tierWritebackComplete pg hold) s ends) ∧
      (m.kind = .evict → s.slotOfPage pg.val = some m.slot → s.get TIR_SLOT_DIRTY.dirty m.slot = 0 →
        Completes (.tierWritebackComplete pg hold) s fun u => ends u ∧ u.flag TIR_SLOT.valid m.slot = false)) ∧
    (∀ (req : Requester) (a n o : Nat), s.route req a n false = .to (.far o) → s.portHolds req a n false = false →
      s.badIn (s.hbmRanges (.far o) n) = false →
      let answers (u : State) (status : Nat) (data : List Byte) : Prop :=
        u.mem = s.mem ∧ u.out = s.out ++ [.memReply req a status data] ∧ u.cores = s.cores
      ((s.mediaRanges (.far o) n).any (fun c => meetsRange s.mt.poison c.1 c.2) = false →
        Completes (.cxlAccess req a n none false) s fun u => answers u 0 (s.peek (.far o) n)) ∧
      (s.mediaRanges (.far o) n ≠ [] → Completes (.cxlAccess req a n none true) s fun u => answers u 9 [])) ∧
    (∀ (req : Requester) (a n o : Nat) (data : List Byte), s.route req a data.length true = .to (.far o) →
      s.portHolds req a data.length true = false → Completes (.cxlAccess req a n (some data) false) s fun u =>
        u.mem = (s.poke (.far o) data).mem ∧ u.out = s.out ++ [.memReply req a 0 []] ∧ u.cores = s.cores) ∧
    (∀ (req : Requester) (a n pg : Nat), s.route req a n false = .hold pg → Completes (.cxlAccess req a n none false) s fun u =>
      (∃ h : Held, u.mt.held = s.mt.held ++ [h] ∧ h.req = req ∧ h.addr = a ∧ h.len = n ∧ h.data = none) ∧
      u.out = s.out ∧ u.mem = s.mem ∧ u.regs = s.regs ∧ u.cores = s.cores) ∧
    (∀ (c : Ctx) (m : Fin 256) (a n : Nat) (write : Bool), cxlStart ≤ a → a < cxlEnd →
      s.courierPath m.val (16 * (m.val / 16) + a / 2048 % 16) = none → s.route (.mesh c m) a n write = .refuse 10)) ∧
  (∀ (s : State), s.live = true → s.decodes 0 = true →
    (∀ i, i < s.poolSlots → i < 16384 → s.flag TIR_SLOT.valid i = true → Completes .slotAgeAdvance s fun u =>
      u.get TIR_SLOT.age i = min 0xFFFF (s.get TIR_SLOT.age i + 1) ∧ u.mem = s.mem ∧ u.cores = s.cores) ∧
    (∀ v : Word, s.poolSlots = 0 → bits v.toNat 18 0 ≤ 393216 → AtTick (.tirPoolWrite 0 false v) s 9 64 fun u =>
      u.get TIR_POOL_BASE.page = bits v.toNat 18 0 ∧ u.poolSlots = 0 ∧ u.mem = s.mem ∧ u.cores = s.cores) ∧
    (∀ (k : Fin 2) (rate : Fin 4) (width cap : Nat) (cxl2 : Bool), width < 32 →
      let trained (u : State) : Prop := u.cxlUp k.val = cxlTrains rate.val width cxl2 ∧
        (u.cxlUp k.val = true → u.get TIR_PORT_STATUS.rate k.val = rate.val ∧
          u.get TIR_PORT_STATUS.capacity_gib k.val = min cap 4096) ∧ u.mem = s.mem ∧ u.cores = s.cores
      (OnceAtTick (.cxlPortEnumerate k rate width cxl2 cap) s 4 (45 + k.val) trained) ∧
      (s.portInUse k.val = false → AtTick (.cxlRetrain 0 k rate width cxl2 cap) s 9 64 trained) ∧
      (s.portInUse k.val = true → AtTick (.cxlRetrain 0 k rate width cxl2 cap) s 9 64 fun u => u = s)) ∧
    (∀ k : Fin 2, s.cxlUp k.val = true → s.mt.moves = [] → OnceAtTick (.cxlPortDown k) s 4 (45 + k.val) fun u =>
      u = s.put TIR_PORT_STATUS.up k.val 0) ∧
    (∀ k : Fin 2, s.cxlUp k.val = false → s.get TIR_PORT_STATUS.rate k.val ≠ 0 → s.mt.poisonDue = [] → s.mt.moves = [] →
      OnceAtTick (.cxlPortUp k) s 4 (45 + k.val) fun u => u.cxlUp k.val = true ∧ u.mem = s.mem ∧ u.cores = s.cores) ∧
    (∀ (k : Fin 2) (o : Fin 4096) (v w : Word),
      (s.cxlUp k.val = true →
        exec (.cxlConfigAccess 0 k o (some w) false v) s = .next (s.emit (.cxlConfig k.val o.val (some w) 0#32)) ∧
        exec (.cxlConfigAccess 0 k o none false v) s = .next (s.emit (.cxlConfig k.val o.val none v))) ∧
      exec (.cxlConfigAccess 0 k o (some w) true v) s = .next s ∧
      (s.cxlUp k.val = false →
        exec (.cxlConfigAccess 0 k o none false v) s = .next (s.emit (.cxlConfig k.val o.val none 0xFFFFFFFF#32)))))

/-! ## Synchronisation -/

/-- R41, R290 to R292, R301: the tally commands of a context's ring on a live home die: sampled in class 9, they act at their
tick, with the completion record of each. Clauses that rest on the model's own choices follow log entry 54. Completion stated
of: TALLY_CREATE, TALLY_IMPORT, TALLY_RELEASE, TALLY_ADD, TALLY_SUB, TALLY_READ. -/
def Obligations.TallyCommandResults : Prop :=
  ∀ (s : State) (c : Ctx) (cookie : DWord) (irq : Bool) (vid : Fin 1048576), s.live = true → s.leads = true →
    let iss := Issuer.ring c cookie irq
    let src := s.ctxSrc c.val
    let done (u : State) (status value : Nat) : Prop := u.mem = s.mem ∧ u.cores = s.cores ∧
      ∃ r, (u.ring c.val).queue = (s.ring c.val).queue ++ [r] ∧ r.kind = 0 ∧ r.status = status ∧ r.aux = 0x0A ∧
        r.tag = cookie.toNat ∧ r.value = value
    (∀ t count, s.tallyOf c.val vid.val = some t → s.hrdDead t = false → s.flag HRD_TALLY.poison t = false →
      let v := s.get HRD_TALLY.value t
      (AtTick (.tallyAdd iss vid count) s 9 src fun u =>
        done u 0 0 ∧ u.get HRD_TALLY.value t = min 0xFFFFFFFF (v + count.toNat)) ∧
      (count.toNat ≤ v → AtTick (.tallySub iss vid count) s 9 src fun u =>
        done u 0 0 ∧ u.get HRD_TALLY.value t = v - count.toNat) ∧
      (v < count.toNat → AtTick (.tallySub iss vid count) s 9 src fun u =>
        done u 0x0F 0 ∧ u.get HRD_TALLY.value t = v ∧ u.flag HRD_TALLY.overdraw t = true) ∧
      (AtTick (.tallyRead iss vid) s 9 src fun u => done u 0 v ∧ u.get HRD_TALLY.value t = v)) ∧
    (∀ (home : Fin 4) (value : Word) (share : BitVec 31) (i : Nat), s.tallyOf c.val vid.val = none →
      home.val ∉ s.hrd.dead → (upto 4096).find? (fun i => decide (4096 * home.val + i ∉ s.hrd.alloc)) = some i →
      s.hrd.trans.length < 16384 → AtTick (.tallyCreate iss home vid value share) s 9 src fun u =>
        done u 0 0 ∧ u.tallyOf c.val vid.val = some (4096 * home.val + i) ∧
        u.get HRD_TALLY.value (4096 * home.val + i) = value.toNat ∧ u.get HRD_TALLY.owner (4096 * home.val + i) = c.val) ∧
    (∀ (owner : Fin 32) (ownerVid : Fin 1048576) (t : Nat), s.tallyOf c.val vid.val = none →
      s.tallyOf owner.val ownerVid.val = some t →
      bitAt (spGet 0 s.hrd.shares t) c.val = true → s.hrdDead t = false → s.hrd.trans.length < 16384 →
      AtTick (.tallyImport iss vid ownerVid owner) s 9 src fun u => done u 0 0 ∧ u.tallyOf c.val vid.val = some t) ∧
    (∀ t, s.tallyOf c.val vid.val = some t → AtTick (.tallyRelease iss vid) s 9 src fun u =>
      done u 0 0 ∧ u.tallyOf c.val vid.val = none) ∧
    (s.tallyOf c.val vid.val = none → ∀ count, AtTick (.tallyAdd iss vid count) s 9 src fun u => done u 0x07 0)

/-- R293, R294, R296, R297, R299: leashes are set and cleared, a core's operation is applied or halts its region, a bark for a
completion ring becomes a kind 1 record. Clauses that rest on the model's own choices follow log entries 18, 40, 54.
Completion stated of: LEASH_SET, LEASH_CLEAR, TALLY_OPERATION_APPLY, BARK_DELIVERY. -/
def Obligations.LeashesBarksAndCoreOperations : Prop :=
  ∀ (s : State), s.live = true →
    (∀ (c : Ctx) (cookie : DWord) (irq : Bool) (vid : Fin 1048576) (cond : Fin 4) (rep : Bool) (step threshold : Word)
        (target : LeashDest) (tg : LeashTarget) (t h : Nat), s.leashTarget target = some tg →
      (rep = true → cond = 3 ∨ (cond = 0 ∧ step ≠ 0#32)) → s.tallyOf c.val vid.val = some t → s.hrdDead t = false →
      s.freeHandle (t / 4096) = some h → s.leads = true →
      AtTick (.leashSet (.ring c cookie irq) vid cond rep step threshold target) s 9 (s.ctxSrc c.val) fun u =>
        (∃ l ∈ u.hrd.leashes, l.handle = h ∧ l.tally = t ∧ l.ctx = c.val ∧ l.vid = vid.val ∧ l.cond = cond.val ∧
          l.rep = rep ∧ l.target = tg) ∧ u.hrd.leashes.length = s.hrd.leashes.length + 1 ∧
        (∃ r, (u.ring c.val).queue = (s.ring c.val).queue ++ [r] ∧ r.status = 0 ∧ r.value = h) ∧ u.mem = s.mem) ∧
    (∀ (c : Ctx) (cookie : DWord) (irq : Bool) (h : Fin 32768) (l : Leash), l ∈ s.hrd.leashes → l.handle = h.val →
      l.ctx = c.val → s.leads = true → AtTick (.leashClear (.ring c cookie irq) h) s 9 (s.ctxSrc c.val) fun u =>
        u.hrd.leashes = s.hrd.leashes.filter (fun l => l.handle ≠ h.val) ∧
        (∃ r, (u.ring c.val).queue = (s.ring c.val).queue ++ [r] ∧ r.status = 0) ∧ u.mem = s.mem) ∧
    (∀ (n : Nat) (m : HerdMsg), s.hrd.msgs[n]? = some m → s.firstOfSource n m = true → m.agent = false →
      (∀ r ∈ s.num.amax, r.core ≠ m.core) →
      (∀ t, s.tallyOf m.ctx m.vid = some t → s.hrdDead t = false → s.flag HRD_TALLY.poison t = false →
        let v := s.get HRD_TALLY.value t
        (m.act = 0 → Completes (.tallyOperationApply n) s fun u => u.hrd.msgs = s.hrd.msgs.eraseIdx n ∧
          u.get HRD_TALLY.value t = min 0xFFFFFFFF (v + m.count) ∧ u.mem = s.mem) ∧
        (m.act = 1 → m.count ≤ v → Completes (.tallyOperationApply n) s fun u => u.hrd.msgs = s.hrd.msgs.eraseIdx n ∧
          u.get HRD_TALLY.value t = v - m.count ∧ u.mem = s.mem) ∧
        (m.act = 1 → v < m.count → Completes (.tallyOperationApply n) s fun u => u.hrd.msgs = s.hrd.msgs.eraseIdx n ∧
          u.get HRD_TALLY.value t = v ∧ ∃ e ∈ u.seq.sampled ++ u.seq.offered, e.ev = .herdHalt m.core 0x0F) ∧
        (m.act = 2 → Completes (.tallyOperationApply n) s fun u => u.hrd.msgs = s.hrd.msgs.eraseIdx n ∧
          u.hrd.replies = s.hrd.replies ++ [(m.core, BitVec.ofNat 32 v)] ∧ u.mem = s.mem)) ∧
      (s.tallyOf m.ctx m.vid = none → Completes (.tallyOperationApply n) s fun u =>
        ∃ e ∈ u.seq.sampled ++ u.seq.offered, e.ev = .herdHalt m.core 0x07)) ∧
    (∀ (h : Fin 32768) (l : Leash) (cookie : Word), s.hrd.leashes.find? (fun l => l.handle = h.val) = some l →
      l.target = .record cookie → l.count ≠ 0 → s.barksHeld l.ctx = false → (s.ring l.ctx).queue.length < 256 →
      Completes (.barkDelivery h) s fun u =>
        (∃ r, (u.ring l.ctx).queue = (s.ring l.ctx).queue ++ [r] ∧ r.kind = 1 ∧ r.status = l.status ∧ r.count = l.count ∧
          r.aux = l.handle ∧ r.tag = cookie.toNat ∧ r.value = l.value) ∧
        (l.last = true → u.hrd.leashes = s.hrd.leashes.filter (fun x => x.handle ≠ l.handle)) ∧
        u.rn .HRD_BARKS = min (s.rn .HRD_BARKS + 1) (2 ^ 64 - 1) ∧ u.mem = s.mem)

/-- R302 to R306: at its tick a check times the waiting streams and breaks a standoff, or has it fault; a broken standoff's token
goes to its reserve as far as the memory takes it and comes back; a fault halts its regions; a reserve entry is in force at
once only while its region, and that of the entry it had, is unbound. Clauses that rest on the model's own choices follow log
entries 40, 146, 147, 171. Completion stated of: STANDOFF_CHECK, STANDOFF_SPILL_COMPLETE, RESERVE_READBACK, STANDOFF_FAULT,
HRD_RESERVE_WRITE. -/
def Obligations.StandoffsAndReserves : Prop :=
  ∀ (s : State), s.live = true →
    let ws := sortStreams s.waitingStreams
    let lim := usTicks (max 10 (min 10000 (s.get HRD_STANDOFF_US.limit)))
    ((∀ w ∈ s.waitingStreams, spGet 0 s.hrd.waits w.1 ≠ 0 → s.now < spGet 0 s.hrd.waits w.1 - 1 + lim) →
      AtTick .standoffCheck s 11 272 fun u => (∀ w ∈ s.waitingStreams, spGet 0 u.hrd.waits w.1 =
          if spGet 0 s.hrd.waits w.1 = 0 then s.now + 1 else spGet 0 s.hrd.waits w.1) ∧
        u.hrd.spilling = s.hrd.spilling ∧ u.seq = s.seq ∧ u.regs = s.regs ∧ u.noc = s.noc ∧ u.mem = s.mem ∧ u.cores = s.cores) ∧
    (∀ cyc, let s0 := s.setHrd { s.hrd with waits := s.waitTimes ws }
      s0.findStandoff ws lim = some cyc → (s0.breakStandoff ws cyc).findStandoff ws lim = none →
      (∀ st k, s.breakChoice ws cyc = some (st, k) → AtTick .standoffCheck s 11 272 fun u =>
        u.hrd.spilling = s.hrd.spilling ++ [(k, st)] ∧ u.flag HRD_LAST_STANDOFF.valid = true ∧ u.noc = s.noc ∧ u.mem = s.mem) ∧
      (s.breakChoice ws cyc = none → AtTick .standoffCheck s 11 272 fun u =>
        (∃ e ∈ u.seq.sampled ++ u.seq.carried ++ u.seq.offered,
          e.ev = .standoff ((cyc.map fun st => regionOf (st / 256)).eraseDups)) ∧
        u.flag HRD_LAST_STANDOFF.valid = true ∧ u.hrd.spilling = s.hrd.spilling ∧ u.noc = s.noc ∧ u.mem = s.mem)) ∧
    (∀ (k : Fin 256) (st n : Nat) (t : Token) (v : State) (l : List Nat),
      s.hrd.spilling.find? (fun x => x.1 = k.val) = some (k.val, st) →
      s.noc.tokens.zipIdx.find? (fun x => streamOf x.1 = some st) = some (t, n) →
      let s0 := s.setHrd { s.hrd with spilling := dropFirst (fun x => x.1 = k.val) s.hrd.spilling }
      let units := s0.reserveUnits k.val (spGet 0 s.hrd.tails k.val) (64 * t.length + 64)
      s0.writeUnits (s0.spillReq (st / 256)) units (natLe 64 (tokenHeader t) ++ s0.stagedData t) = (v, l) →
      (l.length < units.length → exec (.standoffSpillComplete k) s = .next s0) ∧
      (units.length ≤ l.length → Completes (.standoffSpillComplete k) s fun u =>
        u.noc.tokens = s.noc.tokens.eraseIdx n ∧
        u.hrd.reserved = s.hrd.reserved ++ [{ entry := k.val, at_ := spGet 0 s.hrd.tails k.val, token := t }] ∧
        u.hrd.spilling = dropFirst (fun x => x.1 = k.val) s.hrd.spilling ∧
        u.rn .HRD_RESERVE_USED k.val = (s.rn .HRD_RESERVE_USED k.val + (64 * t.length + 64)) % 2 ^ 64 ∧ u.mem = v.mem)) ∧
    (∀ (k : Fin 256) (r : Reserved) (v : State) (data : List Byte) (path : List Nat) (det : Bool),
      s.hrd.reserved.find? (fun r => r.entry = k.val) = some r → s.egressStopped r.token = false →
      s.lacksCredit r.token = false → r.token.mode = .unicast → ∀ a b d f, r.token.src = .core a b d f →
      s.readUnits (s.spillReq a) (s.reserveUnits k.val (r.at_ + 64) (64 * r.token.length)) = (v, data) →
      64 * r.token.length ≤ data.length → s.courierPath r.token.from_ (clusterOf r.token.dst) = some (path, det) →
      Completes (.reserveReadback k) s fun u =>
        u.noc.tokens = s.noc.tokens ++ [{ r.token with data := data, phase := .flying, detour := det }] ∧
        u.hrd.reserved = dropFirst (fun r => r.entry = k.val) s.hrd.reserved ∧ u.mem = v.mem) ∧
    (∀ e ps, s.findEvent (fun e => match e with | .standoff _ => true | _ => false) = some e → e.ev = .standoff ps →
      Completes .standoffFault s fun u => (∀ p ∈ ps, s.runs p = true → u.rstate p = 4) ∧ u.mem = s.mem) ∧
    (∀ (k : Fin 256) (v : DWord), s.decodes 0 = true →
      (Completes (.hrdReserveWrite 0 k 0 v) s fun u => u.rn .HRD_RESERVE k.val = v.toNat % 2 ^ 24) ∧
      (Completes (.hrdReserveWrite 0 k 2 v) s fun u => u.rn .HRD_RESERVE_SIZE k.val = v.toNat % 2 ^ 32)) ∧
    (∀ (k : Fin 256) (v : DWord), s.decodes 0 = true → Completes (.hrdReserveWrite 0 k 1 v) s fun u =>
      u.rn .HRD_RESERVE_BASE k.val = v.toNat % 2 ^ 48 ∧
      u.hrd.reserves = (if s.rstate (s.get HRD_RESERVE.region k.val) = 0 ∧ s.reserveFree k.val = true then
        spSet (0, 0, 0) s.hrd.reserves k.val (s.rn .HRD_RESERVE k.val, v.toNat % 2 ^ 48, s.rn .HRD_RESERVE_SIZE k.val)
        else s.hrd.reserves) ∧ u.mem = s.mem ∧ u.cores = s.cores)

/-- R558 to R560: the oldest message due goes, or is held as a pending bit; clearing a mask bit sends what is pending for the
vector; a package event fires vector 0 of the physical function. Clauses that rest on the model's own choices follow log entry
7. Completion stated of: MSIX_SEND, PACKAGE_EVENT_VECTOR, MSIX_UNMASK. -/
def Obligations.MsixMessages : Prop :=
  ∀ (s : State), s.live = true →
    (∀ fn v rest, s.hif.due = (fn, v) :: rest → v < vectorsOf fn →
      (s.msixReady fn v = true → Completes .msixSend s fun u =>
        u.hif.due = rest ∧ u.out = s.out ++ [.msix fn v] ∧ u.regs = s.regs ∧ u.mem = s.mem) ∧
      (s.msixReady fn v = false → v < 256 → Completes .msixSend s fun u =>
        u.hif.due = rest ∧ u.out = s.out ∧ bitAt (u.rn .HIF_MSIX_PBA (4 * fn + v / 64)) (v % 64) = true ∧ u.mem = s.mem)) ∧
    (∀ (fn : Func) (v : Fin 256), v.val < vectorsOf fn.val → Completes (.msixUnmask fn (some v)) s fun u =>
      bitAt (u.rn .HIF_MSIX_TABLE (512 * fn.val + 2 * v.val + 1)) 32 = false ∧ u.mem = s.mem ∧ u.cores = s.cores ∧
      (s.hif.msixMask = [] → fn.val ∈ s.hif.msixOn → s.flag HIF_STATUS.link_up = true → fn.val ∉ s.hif.d3 →
        bitAt (s.rn .HIF_MSIX_PBA (4 * fn.val + v.val / 64)) (v.val % 64) = true → .msix fn.val v.val ∈ u.out)) ∧
    (∀ fn : Func, Completes (.msixUnmask fn none) s fun u =>
      fn.val ∉ u.hif.msixMask ∧ u.mem = s.mem ∧ u.cores = s.cores) ∧
    (s.pkgEvent = true → s.msixReady 0 0 = true →
      exec .packageEventVector s = .next ({ s with pkgEvent := false, out := s.out ++ [.msix 0 0] }))

/-! ## Fetchers -/

/-- R224, R226, R231, R240 to R245, R251: an ARM, a CANCEL and a mode write wait for their tick. There an ARM of a bad descriptor
leaves the slot and sets BAD_DESCRIPTOR; of a good one it makes it the active descriptor of a slot that is empty or armed and
the shadow of one that is active or parked; a CANCEL empties a slot without a transfer in flight and else drops the shadow and
lets the transfer end. R234 to R239, R246, R252, R433, R556: the data of a packet is written by its own address, put into the
token whose header its first packet sends, or sent to the peer; a parked slot keeps it; a packet that fails stops its slot
with the status and the address once the issued packets are done; a DMA error is counted; a reply to an emptied slot is
discarded. Clauses that rest on the model's own choices follow log entries 21, 54, 55, 57, 60, 61, 116, 150. Completion stated
of: FCH_SLOT_ARM, FCH_SLOT_CANCEL, FCH_ARM, FCH_CANCEL, FETCH_READ_REPLY, FCH_MODE_WRITE, DMA_COMPLETION, DMA_TIMEOUT. -/
def Obligations.FetcherArmCancelAndReplies : Prop :=
  (∀ (s : State) (p : Region) (ch : Fin 16), s.live = true →
    let none_ (t : State) (i : Nat) : Prop := (t.fslot i).active = none ∧ (t.fslot i).shadow = none ∧ (t.fslot i).code = 0
    (∀ (slot : Fin 10), s.decodes 0 = true →
      let i := fslotIx p.val ch.val slot.val
      exec (.fchSlotArm 0 p ch slot) s = .next (s.sample 9 (s.slotSrc i) (.arm i (s.slotImage i))) ∧
      ((s.fslot i).xfer = none → AtTick (.fchSlotCancel 0 p ch slot) s 9 (s.slotSrc i) fun u => none_ u i ∧ u.mem = s.mem) ∧
      (∀ x, (s.fslot i).xfer = some x → AtTick (.fchSlotCancel 0 p ch slot) s 9 (s.slotSrc i) fun u =>
        u.fslot i = { s.fslot i with shadow := none, cancel := true, lost := false } ∧ u.mem = s.mem)) ∧
    (∀ (slot : Fin 10) (img : List Byte),
      let i := fslotIx p.val ch.val slot.val
      let u := s.applyEvent (.arm i img)
      let d : FchDesc := { img := img, armTick := s.now }
      (s.armable i = false → u = s) ∧
      (s.armable i = true → d.ok = false → u.fch = s.fch ∧ u.get FCH_SLOT_STATUS.last_status i = 0x04 ∧ u.mem = s.mem) ∧
      (s.armable i = true → d.ok = true → (s.fslot i).code = 0 ∨ (s.fslot i).code = 1 →
        (u.fslot i).active = some d ∧ (u.fslot i).xfer = none ∧ (u.fslot i).fired = decide (d.trigger = 0) ∧
          (u.fslot i).next = 0 ∧ u.rn .FCH_SLOT_DONE i = 0 ∧ (∀ j, j ≠ i → u.fslot j = s.fslot j) ∧ u.mem = s.mem) ∧
      (s.armable i = true → d.ok = true → (s.fslot i).code = 2 ∨ (s.fslot i).code = 3 →
        u.fslot i = { s.fslot i with shadow := some d } ∧ (∀ j, j ≠ i → u.fslot j = s.fslot j) ∧ u.mem = s.mem)) ∧
    (∀ (c : Ctx) (cookie : DWord) (irq : Bool) (slot : Fin 16) (img : List Byte),
      s.ringHeld (.ring c cookie irq) = false → s.leads = true → slot.val < 8 → s.rctx p.val = c.val →
      let i := fslotIx p.val ch.val slot.val
      let d : FchDesc := { img := img, armTick := s.now }
      let done (u : State) (opcode status : Nat) : Prop := u.mem = s.mem ∧ ∃ r,
        (u.ring c.val).queue = (s.ring c.val).queue ++ [r] ∧ r.kind = 0 ∧ r.status = status ∧ r.aux = opcode ∧ r.tag = cookie.toNat
      (s.armable i = true → img.length = 128 → d.ok = true → (s.fslot i).code = 0 →
        AtTick (.fchArm (.ring c cookie irq) p ch slot img) s 9 (s.ctxSrc c.val) fun u =>
          done u 0x08 0 ∧ (u.fslot i).active = some d) ∧
      (s.armable i = true → img.length = 128 → d.ok = false →
        AtTick (.fchArm (.ring c cookie irq) p ch slot img) s 9 (s.ctxSrc c.val) fun u => done u 0x08 0x04 ∧ u.fch = s.fch) ∧
      ((s.fslot i).xfer = none → AtTick (.fchCancel (.ring c cookie irq) p ch slot) s 9 (s.ctxSrc c.val) fun u =>
        done u 0x09 0 ∧ none_ u i)) ∧
    (∀ value : Word, s.decodes 0 = true → AtTick (.fchModeWrite 0 value) s 9 64 fun u =>
      u.get FCH_MODE.deadline = value.toNat % 2 ∧ u.fch = s.fch ∧ u.mem = s.mem)) ∧
  (∀ (s : State) (p : Region) (ch : Fin 16) (slot : Fin 10) (n bad : Nat), s.live = true →
    let i := fslotIx p.val ch.val slot.val
    let f := s.fslot i
    (f.active = none → 0 < f.stray → Completes (.fetchReadReply p ch slot n 0 bad) s fun u =>
      u.fslot i = { f with stray := f.stray - 1 } ∧ u.mem = s.mem ∧
      u.rn .FCH_CH_DISCARDS (fslotCh i) = min (s.rn .FCH_CH_DISCARDS (fslotCh i) + 1) (2 ^ 64 - 1)) ∧
    (∀ (d : FchDesc) (x : FchXfer) (pk : Nat × Nat × Nat), f.active = some d → f.xfer = some x → f.error = false →
      f.failed = none → f.cancel = false → (d.packets x.x)[n]? = some pk → n < x.issued → n ∉ x.done →
      n ∉ x.held.map Prod.fst →
      let src := (s.srcAt i d x pk).1
      let lands (c : Instr) (b : Nat) : Prop := ∀ s1 bs, s.fetchNow i n src pk.2.2 b 0 false = (s1, .data bs) →
        s1.fch = s.fch →
        (f.parked = true → Completes c s fun u => u.mem = s1.mem ∧
          u.fslot i = { f with xfer := some { x with held := x.held ++ [(n, bs)] } }) ∧
        (f.parked = false →
          (d.kind = 0 → d.peerDst = false → ∀ s2, s2.fch = s.fch →
            s1.writeNow (s.fchReq i) (s.dstAt i d x pk).1 bs (d.dstBank = 2) = (s2, .ack) →
            s1.fchReq i = s.fchReq i → s1.dstAt i d x pk = s.dstAt i d x pk →
            Completes c s fun u => u.mem = s2.mem ∧ u.noc = s2.noc ∧
              ((u.fslot i).error = true ∨ ∃ y, (u.fslot i).xfer = some y ∧ y.x = x.x ∧ y.done = x.done ++ [n])) ∧
          (d.kind = 0 → d.peerDst = true → Completes c s fun u =>
            .peerWrite d.peer pk.2.1 d.dstBank bs ∈ u.out ∧ u.mem = s1.mem) ∧
          (d.kind ≠ 0 → n = 0 → x.headed = false → ∀ way, s1.courierPath (fslotCh i) (clusterOf (d.target x.copy)) = some way →
            Completes c s fun u => u.mem = s1.mem ∧
              ∃ t ∈ u.noc.tokens, t.src = .fetcher i ∧ t.tag = d.tagOf x.x x.copy ∧ t.dst = d.target x.copy ∧ t.op = d.tokOp ∧
                t.port = d.tokPort ∧ t.epoch = x.epoch ∧ t.length = d.bytes / 64 ∧ t.phase = .flying))
      let stops (c : Instr) (st a : Nat) : Prop := Completes c s fun u =>
        (x.done.length + 1 + x.held.length < x.issued → (u.fslot i).failed = some (st, a)) ∧
        (x.issued ≤ x.done.length + 1 + x.held.length → (u.fslot i).error = true ∧
          u.rn .FCH_SLOT_FAULT_ADDR i = a % 2 ^ 48 ∧ u.get FCH_SLOT_STATUS.last_status i = st)
      lands (.fetchReadReply p ch slot n 0 bad) bad ∧
      (s.hostPacket i n = true →
        lands (.dmaCompletion p ch slot n 0) 0 ∧ stops (.dmaCompletion p ch slot n 1) 0x08 src ∧
        stops (.dmaCompletion p ch slot n 2) 0x09 src ∧ stops (.dmaTimeout p ch slot n) 0x09 src)))

/-- R234, R239, R248: a slot's next transfer, or a pass-along's next copy once the one before it has landed, starts once its
credit is held, with the bank offsets and the epoch of that moment; without credit the wait is counted. R227, R232 to R236,
R250, R408: a channel with fewer than 32 requests out issues the next packet of the slot whose turn it is, if it may be
accessed; else the slot fails with that status and address, and stops in error once the packets it has issued are done. In
deadline mode no ready slot's deadline comes before the one that goes; slot 8 of a pre-empting region goes before every other.
R229, R234, R241, R242, R245, R250: a finished transfer counts in DONE; the slot goes on with its next transfer, with its
shadow, or becomes empty and chains the slot it names; the last transfer and every one of a rec_xfer descriptor writes a
record; a cancelled slot becomes empty; a pass-along with entries left goes on to its next copy. Clauses that rest on the
model's own choices follow log entries 19, 57, 150, 152. Completion stated of: FETCH_TRANSFER_START, FETCH_TRANSFER_COMPLETE,
PASS_ALONG_COPY. -/
def Obligations.FetcherTransfersRun : Prop :=
  (∀ (s : State) (p : Region) (ch : Fin 16) (slot : Fin 10) (waited : Nat) (d : FchDesc), s.live = true →
    let i := fslotIx p.val ch.val slot.val
    let f := s.fslot i
    let e : Epoch := BitVec.ofNat 12 (s.repoch p.val)
    let waits : State := (s.put FCH_SLOT_STATUS.credit_wait i 1).bump .FCH_CH_CREDIT_WAIT (fslotCh i) waited
    f.active = some d →
    (s.fchReady i = true → f.cancel = false → s.fchCredit i d f.next 0 e = true →
      Completes (.fetchTransferStart p ch slot waited) s fun u =>
        ((u.fslot i).error = true ∨ ∃ x, (u.fslot i).xfer = some x ∧ x.x = f.next ∧
          x.srcOff = s.bankOff (s.rctx p.val) d.srcBank ∧ x.dstOff = s.bankOff (s.rctx p.val) d.dstBank ∧
          x.epoch.toNat = s.repoch p.val % 4096) ∧ u.get FCH_SLOT_STATUS.credit_wait i = 0 ∧ u.mem = s.mem ∧ u.noc = s.noc) ∧
    (s.fchReady i = true → s.fchCredit i d f.next 0 e = false → exec (.fetchTransferStart p ch slot waited) s = .next waits) ∧
    (∀ x, f.xfer = some x → x.started = false → f.error = false → f.parked = false →
      ((∃ t ∈ s.noc.tokens, t.src = .fetcher i) → exec (.passAlongCopy p ch slot waited) s = .next s) ∧
      ((∀ t ∈ s.noc.tokens, t.src ≠ .fetcher i) →
        (f.cancel = false → s.fchCredit i d x.x x.copy x.epoch = true → Completes (.passAlongCopy p ch slot waited) s fun u =>
          ((u.fslot i).error = true ∨ ∃ y, (u.fslot i).xfer = some y ∧ y.x = x.x ∧ y.copy = x.copy ∧ y.started = true) ∧
          u.get FCH_SLOT_STATUS.credit_wait i = 0 ∧ u.mem = s.mem ∧ u.noc = s.noc) ∧
        (s.fchCredit i d x.x x.copy x.epoch = false → exec (.passAlongCopy p ch slot waited) s = .next waits)))) ∧
  (∀ (s : State) (ch : Fin 256),
    (32 ≤ s.outstanding ch.val → s.issueOne ch.val = s) ∧
    (∀ sl g, s.pickSlot ch.val = some (sl, g) →
      (s.preempting (ch.val / 16) = true → (s.nextPacket (10 * ch.val + 8)).isSome = true → sl = 8) ∧
      (s.preempting (ch.val / 16) = false → s.flag FCH_MODE.deadline = true → ∀ d x pk, s.nextPacket (10 * ch.val + sl) = some (d, x, pk) →
        ∀ sl' d' x' pk', sl' < 10 → s.nextPacket (10 * ch.val + sl') = some (d', x', pk') → dueBefore (sl, d) (sl', d') = true)) ∧
    (∀ sl g d x pk, s.outstanding ch.val < 32 → s.pickSlot ch.val = some (sl, g) →
      let i := 10 * ch.val + sl
      let u := s.issueOne ch.val
      s.nextPacket i = some (d, x, pk) →
      (s.issueFault i d x pk = none → (∃ h, u.fslot i = { s.fslot i with
          xfer := some { x with issued := x.issued + 1, hosts := x.hosts ++ h } }) ∧ u.chan ch.val = g ∧ u.mem = s.mem) ∧
      (∀ st a, s.issueFault i d x pk = some (st, a) → u.mem = s.mem ∧
        (x.done.length + x.held.length < x.issued → u.fslot i = { s.fslot i with failed := some (st, a) }) ∧
        (x.issued ≤ x.done.length + x.held.length → (s.fslot i).cancel = false →
          (u.fslot i).error = true ∧ (u.fslot i).shadow = none ∧ u.rn .FCH_SLOT_FAULT_ADDR i = a % 2 ^ 48 ∧
          (st < 256 → u.get FCH_SLOT_STATUS.last_status i = st))))) ∧
  (∀ (s : State) (p : Region) (ch : Fin 16) (slot : Fin 10) (d : FchDesc) (x : FchXfer), s.live = true →
    let i := fslotIx p.val ch.val slot.val
    let f := s.fslot i
    f.active = some d → f.xfer = some x → f.error = false → f.failed = none → f.parked = false → x.started = true →
    (d.packets x.x).length ≤ x.done.length →
    let c : Instr := .fetchTransferComplete p ch slot
    let counted (u : State) : Prop := u.mem = s.mem ∧ u.rn .FCH_SLOT_DONE i = min (s.rn .FCH_SLOT_DONE i + 1) (2 ^ 64 - 1)
    (d.kind = 2 → x.copy + 1 < d.listLen → Completes c s fun u =>
      (∃ y, u.fslot i = { f with xfer := some y } ∧ y.x = x.x ∧ y.copy = x.copy + 1 ∧ y.started = false ∧ y.issued = 0 ∧
        y.done = [] ∧ y.hosts = []) ∧ u.mem = s.mem) ∧
    (d.kind ≠ 2 ∨ d.listLen ≤ x.copy + 1 →
      (f.cancel = true → Completes c s fun u => counted u ∧ (u.fslot i).active = none ∧ (u.fslot i).xfer = none) ∧
      (f.cancel = false → f.shadow = none → x.x + 1 < d.xfers → Completes c s fun u => counted u ∧
        u.fslot i = { f with xfer := none, next := x.x + 1 } ∧
        (d.recXfer = false → ∀ k, u.ring k = s.ring k) ∧
        (d.recXfer = true → slot.val < 8 → s.rctx p.val < 31 → ∃ r, (u.ring (s.rctx p.val)).queue =
          (s.ring (s.rctx p.val)).queue ++ [r] ∧ r.kind = 5 ∧ r.status = 0)) ∧
      (f.cancel = false → f.shadow = none → d.xfers ≤ x.x + 1 → Completes c s fun u => counted u ∧
        (u.fslot i).active = none ∧ u.get FCH_SLOT_STATUS.last_status i = 0 ∧
        (∀ j, j = 10 * fslotCh i + d.nextSlot → j ≠ i → d.chainEn = true → (s.fslot j).code = 1 →
          ((s.fslot j).active.map (·.trigger)) = some 1 → (u.fslot j).fired = true)) ∧
      (∀ e, f.cancel = false → f.shadow = some e → d.xfers ≤ x.x + 1 ∨ d.rearmJoin = false → Completes c s fun u =>
        (u.fslot i).active = some e ∧ (u.fslot i).shadow = none ∧ u.mem = s.mem)))

/-! ## Binding -/

/-- R201 to R203, R222, R268, R588: a STAGE begins a copy at its tick; its completion adds the folio under its handle or reports
its first failure, and waits while a memory port holds the image; a RELEASE removes an unused folio of the issuer and refuses
one in use with BUSY. R213 to R216, R220: at its tick a settled or timed-out draining region goes on in flush mode; an UNBIND
completes when its router clear has ended; a command that waited is applied once none of its regions is busy; stale epochs are
reported with their count. Clauses that rest on the model's own choices follow log entries 22, 23, 42, 54, 66, 156, 157.
Completion stated of: STAGE, STAGE_COMPLETE, RELEASE, FLUSH_COMPLETE, DRAIN_SETTLED, DRAIN_TIMEOUT, WAITING_BIND_COMMAND,
EPOCH_STALE_REPORT. -/
def Obligations.BinderyStagingDrainsAndWaits : Prop :=
  (∀ (s : State) (c : Ctx) (cookie : DWord) (irq : Bool), s.live = true → s.leads = true →
    let iss := Issuer.ring c cookie irq
    let done (u : State) (opcode status value : Nat) : Prop := u.mem = s.mem ∧ u.cores = s.cores ∧ ∃ r,
      (u.ring c.val).queue = (s.ring c.val).queue ++ [r] ∧ r.kind = 0 ∧ r.status = status ∧ r.aux = opcode ∧
        r.tag = cookie.toNat ∧ r.value = value
    (∀ addr dies, AtTick (.stage iss addr dies) s 9 (s.ctxSrc c.val) fun u => u.bnd.folios = s.bnd.folios ∧ u.mem = s.mem ∧
      u.bnd.staging = s.bnd.staging ++ [⟨iss, addr.toNat, dies.toNat, s.stageDies c.val addr.toNat dies.toNat⟩] ∧
      u.cores = s.cores ∧
      (u.ring c.val).queue = (s.ring c.val).queue) ∧
    (∀ (n : Nat) (o : StageOp), s.bnd.staging[n]? = some o → o.iss = iss →
      let image := [(o.addr, max 128 (s.loadN (o.addr + 24) 8))]
      let st := s.imageStatus c.val o.addr
      let s1 := if st = 0x09 then s.detectIn image else s
      let s0 := (s1.setBnd { s1.bnd with staging := s1.bnd.staging.eraseIdx n }).showBnd
      (st = 0 → s.rangesHeld image = true → exec (.stageComplete n) s = .next s) ∧
      (st ≠ 0 ∨ s.rangesHeld image = false → Completes (.stageComplete n) s fun u => u.bnd.staging = s.bnd.staging.eraseIdx n ∧
        match s0.judgeStage c.val o.addr o.dies with
        | .inl r => done u 0x03 r.status 0 ∧ u.bnd.folios = s.bnd.folios ∧ u.flag BND_LAST_REJECT.valid = true
        | .inr f => done u 0x03 0 f.handle ∧ u.bnd.folios = s.bnd.folios ++ [f])) ∧
    (∀ (handle : Byte) (f : Folio), s.folio handle.toNat = some f → f.ctx = c.val →
      (s.handleUsed f.handle = false → AtTick (.release iss handle) s 9 (s.ctxSrc c.val) fun u =>
        done u 0x07 0 0 ∧ u.bnd.folios = s.bnd.folios.filter (fun x => x.handle ≠ f.handle)) ∧
      (s.handleUsed f.handle = true → AtTick (.release iss handle) s 9 (s.ctxSrc c.val) fun u => done u 0x07 0x02 0 ∧ u.bnd = s.bnd))) ∧
  (∀ (s : State) (p : Region), s.live = true →
    (∀ (o : BindOp) (c : Ctx) (cookie : DWord) (irq : Bool), s.opOn p.val .clearing = some o →
      o.req.iss = some (.ring c cookie irq) → o.t0 + 1 ≤ s.now → OnceAtTick (.flushComplete p) s 10 p.val fun u =>
        u.bnd.ops = s.bnd.ops.filter (fun x => x ≠ o) ∧ u.mem = s.mem ∧ u.cores = s.cores ∧
        ∃ r, (u.ring c.val).queue = (s.ring c.val).queue ++ [r] ∧ r.kind = 0 ∧ r.aux = o.req.opcode ∧ r.tag = cookie.toNat ∧
          r.status = if o.timedOut then 0x12 else 0) ∧
    (∀ o : BindOp, s.opOn p.val .draining = some o → o.req.opcode = 5 →
      (s.settled p.val = true → o.regions = [p.val] → OnceAtTick (.drainSettled p) s 10 p.val fun u =>
        u.rstate p.val = 0 ∧ u.mem = s.mem ∧ ∃ x, u.bnd.ops = s.bnd.ops.filter (fun x => x ≠ o) ++ [x] ∧ x.phase = .clearing ∧
          x.timedOut = o.timedOut) ∧
      (s.settled p.val = false → exec (.drainSettled p) s = .next s) ∧
      (o.t0 + usTicks (max 1 (min 10000 (s.get BND_DRAIN_TIMEOUT.limit_us))) ≤ s.now → OnceAtTick (.drainTimeout p) s 11 p.val fun u =>
        (∀ q ∈ o.regions, u.rstate q = 0) ∧ u.mem = s.mem ∧
        u.rn .BND_DRAIN_TIMEOUTS = min (s.rn .BND_DRAIN_TIMEOUTS + o.regions.length) (2 ^ 64 - 1) ∧
        ∃ x, u.bnd.ops = s.bnd.ops.filter (fun x => x ≠ o) ++ [x] ∧ x.phase = .clearing ∧ x.timedOut = true)) ∧
    (∀ r : BindReq, s.bnd.waits.find? (fun r => decide (p.val ∈ s.waitRegions r)) = some r →
      ((∃ q ∈ s.waitRegions r, s.regionBusy q = true) → exec (.waitingBindCommand p) s = .next s) ∧
      (r.opcode = 5 → r.drain = false → (∀ q ∈ s.waitRegions r, s.regionBusy q = false) → (∀ q ∈ r.named, s.rctx q = r.ctx) →
        OnceAtTick (.waitingBindCommand p) s 9 (s.ctxSrc r.ctx) fun u => (∀ q ∈ r.named, u.rstate q = 0) ∧
          u.bnd.waits = dropFirst (fun x => x = r) s.bnd.waits ∧ u.mem = s.mem)) ∧
    (∀ (c : Ctx) (n : Nat), s.bnd.stale.find? (fun x => x.1 = c.val && x.2.1 = p.val) = some (c.val, p.val, n) →
      (s.ring c.val).queue.length < 256 → Completes (.epochStaleReport c p) s fun u =>
        (∃ r, (u.ring c.val).queue = (s.ring c.val).queue ++ [r] ∧ r.kind = 4 ∧ r.status = 0x0B ∧ r.count = min n 0xFFFF ∧
          r.aux = p.val) ∧ (∀ x ∈ u.bnd.stale, ¬ (x.1 = c.val ∧ x.2.1 = p.val)) ∧ u.mem = s.mem))

/-- R204 to R206, R214, R220: at its tick a BIND or REBIND that is accepted puts its regions in state loading, zeroes their
memories and leaves every other byte; an UNBIND in flush mode leaves its regions unbound at once, one in drain mode lets the
bound ones drain; a handle that names no folio is a bad descriptor. R207 to R211, R495: once its load ends by the next tick a
bind set's start is sampled in class 10; there its regions are bound with the next epoch, and its command's completion is
sampled, which posts the record; before it nothing changes. Its slot tables are then activated together. Clauses that rest on
the model's own choices follow log entries 24, 40, 46, 47, 54, 61, 62, 63. Completion stated of: BIND, BIND_START,
SLOT_TABLE_ACTIVATION, UNBIND, REBIND. -/
def Obligations.BindCommandsAndStarts : Prop :=
  (∀ (s : State) (c : Ctx) (cookie : DWord) (irq : Bool), s.live = true → s.ringHeld (.ring c cookie irq) = false →
    s.leads = true →
    let iss := Issuer.ring c cookie irq
    let done (u : State) (opcode status : Nat) : Prop := u.mem = s.mem ∧ u.bnd = s.bnd ∧ ∃ r,
      (u.ring c.val).queue = (s.ring c.val).queue ++ [r] ∧ r.kind = 0 ∧ r.status = status ∧ r.aux = opcode ∧ r.tag = cookie.toNat
    let loads (u : State) (r : BindReq) (ts : List Nat) : Prop :=
      (∀ p ∈ ts, u.rstate p = 1 ∧ u.rctx p = c.val) ∧
      (∀ a, (∀ p ∈ ts, a < sramBase (16 * p) 0 ∨ sramBase (16 * p) 0 + 256 * 0x200000 ≤ a) → u.load a 1 = s.load a 1) ∧
      ∃ o, u.bnd.ops = s.bnd.ops ++ [o] ∧ o.req = r ∧ o.phase = .loading ∧ o.regions = ts ∧ o.t0 = s.now
    (∀ (handle : Byte) (target : Region) (f : Folio),
      let s0 := s.began iss 0x04
      let r : BindReq := { iss := some iss, ctx := c.val, opcode := 4, handle := handle.toNat, target := target.val }
      s.folio handle.toNat = some f → f.ctx = c.val → (f.portable = true → bitAt f.dies (target.val / 4) = true) →
      ((f.targets target.val).all fun p => !s.regionBusy p) = true →
      (s0.bindStatus r f = 0 → AtTick (.bind iss handle target) s 9 (s.ctxSrc c.val) fun u => loads u r (f.targets target.val)) ∧
      (s0.bindStatus r f = 0x02 ∨ s0.bindStatus r f = 0x03 → AtTick (.bind iss handle target) s 9 (s.ctxSrc c.val) fun u =>
        done u 0x04 (s0.bindStatus r f))) ∧
    (∀ (handle : Byte) (target : Region), s.folio handle.toNat = none →
      AtTick (.bind iss handle target) s 9 (s.ctxSrc c.val) fun u => done u 0x04 0x04) ∧
    (∀ (handle : Byte) (regions : BitVec 16) (drain : Bool) (f : Folio),
      let named := unmask 16 regions.toNat
      let r : BindReq := { iss := some iss, ctx := c.val, opcode := 6, named := named, handle := handle.toNat, drain := drain,
                           target := named.headD 0 }
      let s0 := s.began iss 0x06
      let held := named.filter fun p => s.rstate p ≠ 0
      s.folio handle.toNat = some f → f.ctx = c.val → (f.portable = true → bitAt f.dies (r.target / 4) = true) →
      ((named ++ f.targets r.target).all fun p => !s.regionBusy p) = true → s0.bindStatus r f = 0 →
      drain = false ∨ held = [] → (held.foldl (fun (x : State) p => x.flushRegion p) s0).fenceReject f r = none →
      AtTick (.rebind iss regions drain handle) s 9 (s.ctxSrc c.val) fun u => loads u r (f.targets r.target)) ∧
    (∀ regions : BitVec 16, (∀ p ∈ unmask 16 regions.toNat, s.rctx p = c.val ∧ s.regionBusy p = false) →
      (AtTick (.unbind iss regions false) s 9 (s.ctxSrc c.val) fun u => (∀ p ∈ unmask 16 regions.toNat, u.rstate p = 0) ∧
        (∀ p, p ∉ unmask 16 regions.toNat → u.rstate p = s.rstate p ∧ u.rctx p = s.rctx p) ∧ u.mem = s.mem ∧
        ∃ o, u.bnd.ops = s.bnd.ops ++ [o] ∧ o.phase = .clearing ∧ o.regions = unmask 16 regions.toNat ∧ o.t0 = s.now) ∧
      ((∃ p ∈ unmask 16 regions.toNat, s.rstate p ≠ 0) → AtTick (.unbind iss regions true) s 9 (s.ctxSrc c.val) fun u =>
        (∀ p ∈ unmask 16 regions.toNat, s.rstate p = 2 → u.rstate p = 3) ∧ u.mem = s.mem ∧
        ∃ o, u.bnd.ops = s.bnd.ops ++ [o] ∧ o.phase = .draining ∧ o.t0 = s.now))) ∧
  (∀ (s : State) (p : Region), s.live = true →
    (∀ (o : BindOp) (f : Folio), s.opOn p.val .loading = some o →
      s.folio o.req.handle = some f →
      (s.now + 1 < o.t0 + loadTicks f → exec (.bindStart p) s = .next s) ∧
      (o.t0 + loadTicks f ≤ s.now → o.req.resume = false → o.req.ctx < 31 → OnceAtTick (.bindStart p) s 10 p.val fun u =>
        (∀ q ∈ o.regions, u.rstate q = 2 ∧ u.rctx q = o.req.ctx ∧ u.repoch q = s.rn .BND_EPOCH_NEXT % 4096) ∧
        u.bnd.ops = s.bnd.ops.filter (fun x => x ≠ o) ∧ u.bnd.everBound = true ∧
        (∀ a, a < 0x7F0000000000 → u.load a 1 = s.load a 1) ∧
        ∃ e ∈ u.seq.sampled ++ u.seq.carried ++ u.seq.offered, e.cls = 10 ∧
          e.ev = .done o.req.iss o.req.opcode (if o.timedOut then 0x12 else 0))) ∧
    (∀ (c : Ctx) (cookie : DWord) (irq : Bool) (opcode status : Nat), ∃ r,
      ((s.applyEvent (.done (some (.ring c cookie irq)) opcode status)).ring c.val).queue = (s.ring c.val).queue ++ [r] ∧
      r.kind = 0 ∧ r.aux = opcode ∧ r.tag = cookie.toNat ∧ r.status = status) ∧
    (s.rstate p.val = 2 → p.val ∉ s.bnd.slotsOn → Completes (.slotTableActivation p) s fun u =>
      p.val ∈ u.bnd.slotsOn ∧ (∀ q ∈ u.bnd.slotsOn, q ∈ s.bnd.slotsOn ∨ s.repoch q = s.repoch p.val) ∧
      u.regs = s.regs ∧ u.mem = s.mem ∧ u.cores = s.cores ∧ u.noc = s.noc))

/-! ## Numerics, finishing and sentinel -/

/-- R342, R343, R356, R358, R479: a map load starts at the tick after its count is written, and ends with the directory or the
first bad entry; a seed is taken while the step state is idle; a write of a 1 to the valid bit clears the non-finite record.
Clauses that rest on the model's own choices follow log entries 25, 26, 127. Completion stated of: NUM_MAP_LOAD,
NUM_MAP_LOAD_COMPLETE, NF_RECORD_CLEAR, NUM_SEED_WRITE. -/
def Obligations.NumericsMapsSeedsAndRecords : Prop :=
  ∀ (s : State) (c : Ctx), s.live = true →
    (∀ value : Word, s.decodes 0 = true → s.sstate c.val = 0 → exec (.numMapLoad 0 c value) s =
      .next ((s.wn .NUM_CTX_MAP_COUNT c.val (value.toNat % 8192)).sampleRow 9 64 (.numMapLoad 0 c value))) ∧
    (∀ value : Word, let u := s.handleRow (.numMapLoad 0 c value)
      u.get NUM_CTX_MAP_STATUS.state c.val = 1 ∧ u.get NUM_CTX_MAP_STATUS.entry c.val = 0 ∧
      u.rn .NUM_CTX_MAP_COUNT c.val = s.rn .NUM_CTX_MAP_COUNT c.val ∧ (u.nm c.val).map = [] ∧ u.mem = s.mem ∧ u.cores = s.cores) ∧
    (∀ value : Word, s.decodes 0 = true → s.sstate c.val ≠ 0 → exec (.numMapLoad 0 c value) s = .next s) ∧
    (s.get NUM_CTX_MAP_STATUS.state c.val = 1 → ∀ s1 d,
      let n := s.rn .NUM_CTX_MAP_COUNT c.val
      s.engHeld c.val (s.rn .NUM_CTX_MAP_BASE c.val) (16 * min n 4096) = false →
      s.engRead c.val (s.rn .NUM_CTX_MAP_BASE c.val) (16 * min n 4096) = (s1, d) →
      (d = none → Completes (.numMapLoadComplete c) s fun u => u.get NUM_CTX_MAP_STATUS.state c.val = 3 ∧
        u.get NUM_CTX_MAP_STATUS.entry c.val = 0 ∧ u.num = s1.num ∧ u.mem = s.mem) ∧
      (∀ bs b, d = some bs → mapBad (chunks 16 (min n 4096) bs) (16384 - s1.mapUse) = some b →
        Completes (.numMapLoadComplete c) s fun u => u.get NUM_CTX_MAP_STATUS.state c.val = 3 ∧
          u.get NUM_CTX_MAP_STATUS.entry c.val = b % 8192 ∧ u.num = s1.num ∧ u.mem = s.mem) ∧
      (∀ bs, d = some bs → mapBad (chunks 16 (min n 4096) bs) (16384 - s1.mapUse) = none → n ≤ 4096 →
        s1.settingDiffers c.val 1 (Config.sha3 bs) = false → Completes (.numMapLoadComplete c) s fun u =>
          u.get NUM_CTX_MAP_STATUS.state c.val = 2 ∧ (u.nm c.val).map = chunks 16 (min n 4096) bs)) ∧
    (∀ value : DWord, s.decodes 0 = true →
      (s.sstate c.val = 0 → Completes (.numSeedWrite 0 c value) s fun u => u.rd .NUM_CTX_SEED c.val = value ∧
        (s.jobCtx ≠ some c.val → u.mem = s.mem)) ∧
      (s.sstate c.val ≠ 0 → exec (.numSeedWrite 0 c value) s = .next s)) ∧
    (∀ value : Word, s.decodes 0 = true → bitAt value.toNat 31 = true → Completes (.nfRecordClear 0 c value) s fun u =>
      u.rn .NUM_CTX_NF_WHERE c.val = 0 ∧ u.rn .NUM_CTX_NF_TENSOR c.val = 0 ∧ u.rn .NUM_CTX_NF_BATCH c.val = 0 ∧
      u.rn .NUM_CTX_NF_STEP c.val = 0 ∧ u.rn .NUM_CTX_NF_TICK c.val = 0 ∧ u.rn .NUM_CTX_NF_COUNT c.val = 0 ∧ u.mem = s.mem)

/-- R346, R347, R350, R357, R359: an amax report merges into its entry, is counted as unmapped or as infinite; a just-in-time
scale is written to the work area and its tally goes up when the write is acknowledged; the first non-finite report of a step
is kept. Clauses that rest on the model's own choices follow log entries 26, 40. Completion stated of: AMAX_REPORT,
JIT_SCALE_PUBLISH, JIT_PUBLISH_COMPLETE, NONFINITE_REPORT_SAMPLED, RATIO_REPORT. -/
def Obligations.NumericsReportsAndScales : Prop :=
  ∀ (s : State), s.live = true →
    (∀ (n : Nat) (r : AmaxReport), s.num.amax[n]? = some r → (∀ x ∈ s.num.amax.take n, x.core ≠ r.core) →
      let c := s.rctx (regionOf r.core)
      (s.mapFind c 1 r.tensor = none → Completes (.amaxReport n) s fun u => u.num.amax = s.num.amax.eraseIdx n ∧
        u.rn .NUM_UNMAPPED = min (s.rn .NUM_UNMAPPED + 1) (2 ^ 64 - 1) ∧ (u.nm c).bad = (s.nm c).bad + 1 ∧ u.mem = s.mem) ∧
      (∀ i, s.mapFind c 1 r.tensor = some i → (fmtFP32.dec r.value).isInf = true → Completes (.amaxReport n) s fun u =>
        u.num.amax = s.num.amax.eraseIdx n ∧ u.rn .NUM_INF_AMAX = min (s.rn .NUM_INF_AMAX + 1) (2 ^ 64 - 1) ∧
        (u.nm c).bad = (s.nm c).bad + 1 ∧
        (spGet {} (u.nm c).acc i).value = (spGet {} (s.nm c).acc i).value ∧ u.mem = s.mem) ∧
      (∀ i, s.mapFind c 1 r.tensor = some i → (fmtFP32.dec r.value).isInf = false → Completes (.amaxReport n) s fun u =>
        u.num.amax = s.num.amax.eraseIdx n ∧
        spGet {} (u.nm c).acc i = (spGet {} (s.nm c).acc i).merge r.value (s.mbOf c r.tag) ∧
        (u.nm c).merged = (s.nm c).merged + (if (fmtFP32.dec r.value).isNan then 0 else 1) ∧ u.mem = s.mem)) ∧
    (∀ (c : Ctx) (i : Fin 4096) (n v : Nat),
      let e := (s.directory c.val).getD i.val []
      let a := spGet {} (s.nm c.val).acc i.val
      let sc := scaleOf (meFmt e) (meMargin e) v
        (a.prev.map fun x => (x, fmtFP32.enc .rne false (fvDiv fvOne (fmtFP32.dec x))))
      (meKind e = 1 → s.sstate c.val = 1 → s.jitMode c.val i.val = true → a.writing = false →
        a.published < s.get CTX_STEP_STATE.microbatches c.val → spGet (0, 0) a.mbs a.published = (n, v) → meContrib e ≤ n →
        Completes (.jitScalePublish c i) s fun u =>
          (spGet {} (u.nm c.val).acc i.val).writing = true ∧ (spGet {} (u.nm c.val).acc i.val).prev = some sc.1 ∧
          u.mem = (s.engWrite c.val (s.rn .NUM_CTX_WORK_BASE c.val + 8192 * i.val + 8 * (a.published % 4))
            (natLe 4 sc.1 ++ natLe 4 sc.2)).mem) ∧
      (a.writing = true → Completes (.jitPublishComplete c i) s fun u =>
        (spGet {} (u.nm c.val).acc i.val).writing = false ∧ (spGet {} (u.nm c.val).acc i.val).published = a.published + 1 ∧
        (∃ m, u.hrd.msgs = s.hrd.msgs ++ [m] ∧ m.ctx = c.val ∧ m.vid = meJit e % 2 ^ 20 ∧ m.act = 0 ∧ m.count = 1) ∧
        u.mem = s.mem ∧ u.regs = s.regs)) ∧
    (∀ (n : Nat) (t : Token), s.noc.tokens[n]? = some t → lcoreOf t.dst = 15 → t.op = 30 → t.phase = .flying →
      s.inOrder n t = true →
      let p := senderRegion t
      let c := s.rctx p
      (s.runs p = false ∨ t.epoch.toNat ≠ s.repoch p → Completes (.ratioReport n) s fun u => u.noc.tokens = s.noc.tokens.eraseIdx n ∧
        u.rn .FIN_DISCARDS = min (s.rn .FIN_DISCARDS + 1) (2 ^ 64 - 1) ∧ u.num = s.num ∧ u.mem = s.mem) ∧
      (s.runs p = true → t.epoch.toNat = s.repoch p → s.mapFind c 2 (leNat (t.data.take 4)) = none →
        Completes (.ratioReport n) s fun u => u.noc.tokens = s.noc.tokens.eraseIdx n ∧ u.num = s.num ∧
          u.rn .NUM_RATIO_DISCARDS = min (s.rn .NUM_RATIO_DISCARDS + 1) (2 ^ 64 - 1)) ∧
      (∀ i, s.runs p = true → t.epoch.toNat = s.repoch p → s.mapFind c 2 (leNat (t.data.take 4)) = some i →
        leNat ((t.data.drop 4).take 2) < meContrib ((s.directory c).getD i []) →
        (∀ r ∈ spGet [] (s.nm c).ratios i, r.1 ≠ leNat ((t.data.drop 4).take 2)) → Completes (.ratioReport n) s fun u =>
          u.noc.tokens = s.noc.tokens.eraseIdx n ∧
          spGet [] (u.nm c).ratios i = spGet [] (s.nm c).ratios i ++ [(leNat ((t.data.drop 4).take 2), t.data)])) ∧
    (∀ (k : CoreRef) (e : Sampled) (op : Nat) (tag : Tag) (tensor : Nat),
      s.findEvent (fun e => match e with | .nonfinite j .. => decide (j = k.key) | _ => false) = some e →
      e.ev = .nonfinite k.key op tag tensor → s.rctx k.p.val < 31 → Completes (.nonfiniteReportSampled k) s fun u =>
        (s.stepOpen (s.rctx k.p.val) = true → bitAt (u.get CTX_HEALTH.local_ (s.rctx k.p.val)) 0 = true) ∧
        (∃ r, (u.nm (s.rctx k.p.val)).nf = some r ∧
          ((s.nm (s.rctx k.p.val)).nf = none → r.core = k.key ∧ r.tag = tag ∧ r.tensor = tensor ∧ r.op = op) ∧
          (∀ q, (s.nm (s.rctx k.p.val)).nf = some q → r = { q with count := q.count + 1 })) ∧ u.mem = s.mem)

/-- R348: for each target format and a source amax h that is positive and finite, with 2^E_h ≤ h < 2^(E_h + 1), the scale is 2^e
and inv_scale 2^−e, both exact in FP32, with e = E_M − E_h − (m_h > m_M ? 1 : 0) − margin clamped to −126 to 127; the first
three terms are the greatest f with h × 2^f ≤ M, and h × 2^e never exceeds M when margin is 0; for +0 the previous pair stays,
or both are 1.0. -/
def Obligations.ScaleExponentAndScales : Prop :=
  let scaled (m : Nat) (k : Int) (n : Nat) : Prop := m * 2 ^ k.toNat ≤ n * 2 ^ (-k).toNat
  let isPow (w : Nat) (e : Int) : Prop := ∃ a b, fmtFP32.dec w = .fin false a b ∧ 0 < a ∧ scaled a (b - e) 1 ∧ scaled 1 (e - b) a
  ∀ (fmt top : Nat) (eM : Int) (margin h : Nat) (prev : Option (Nat × Nat)),
    (fmt, top, eM) ∈ [(1, 65504, (15 : Int)), (2, 448, 8), (3, 57344, 15)] →
    (∀ (m : Nat) (q eh : Int), fmtFP32.dec h = .fin false m q → 0 < m → scaled 1 (eh - q) m → ¬ scaled 1 (eh + 1 - q) m →
      let f : Int := eM - eh - (if scaled m (q - eh + eM) top then 0 else 1)
      let e : Int := max (-126) (min 127 (f - margin))
      scaled m (q + f) top ∧ ¬ scaled m (q + f + 1) top ∧ (margin = 0 → scaled m (q + e) top) ∧
      isPow (scaleOf fmt margin h prev).1 e ∧ isPow (scaleOf fmt margin h prev).2 (-e)) ∧
    scaleOf fmt margin 0 prev = prev.getD (0x3F800000, 0x3F800000)

/-- R367, R383, R480: a coefficient table load starts at the tick after its count is written, and ends with the table or its first
bad entry; a count report of a running region is added to the context's counters. Clauses that rest on the model's own choices
follow log entry 83. Completion stated of: FIN_TABLE_LOAD, FIN_TABLE_LOAD_COMPLETE, FIN_COUNT_REPORT. -/
def Obligations.FinishingTableAndCounts : Prop :=
  ∀ (s : State) (c : Ctx), s.live = true →
    (∀ value : Word, s.decodes 0 = true → s.sstate c.val = 0 → exec (.finTableLoad 0 c value) s =
      .next ((s.wn .FIN_CTX_TABLE_COUNT c.val (value.toNat % 2048)).sampleRow 9 64 (.finTableLoad 0 c value))) ∧
    (∀ value : Word, let u := s.handleRow (.finTableLoad 0 c value)
      u.get FIN_CTX_TABLE_STATUS.state c.val = 1 ∧ u.rn .FIN_CTX_TABLE_COUNT c.val = s.rn .FIN_CTX_TABLE_COUNT c.val ∧
      (u.fn c.val).table = [] ∧ u.mem = s.mem ∧ u.cores = s.cores) ∧
    (∀ value : Word, s.decodes 0 = true → s.sstate c.val ≠ 0 → exec (.finTableLoad 0 c value) s = .next s) ∧
    (s.get FIN_CTX_TABLE_STATUS.state c.val = 1 → ∀ s1 bs,
      let n := s.rn .FIN_CTX_TABLE_COUNT c.val
      let es := chunks 64 (min n 1024) bs
      s.engHeld c.val (s.rn .FIN_CTX_TABLE_BASE c.val) (64 * min n 1024) = false →
      s.engRead c.val (s.rn .FIN_CTX_TABLE_BASE c.val) (64 * min n 1024) = (s1, some bs) →
      (∀ b, (upto es.length).find? (fun i => !coefOk (es.getD i [])) = some b → Completes (.finTableLoadComplete c) s fun u =>
        u.get FIN_CTX_TABLE_STATUS.state c.val = 3 ∧ u.fin = s1.fin ∧ u.mem = s.mem) ∧
      ((upto es.length).find? (fun i => !coefOk (es.getD i [])) = none → n ≤ 1024 →
        s1.settingDiffers c.val 2 (Config.sha3 bs) = false → Completes (.finTableLoadComplete c) s fun u =>
          u.get FIN_CTX_TABLE_STATUS.state c.val = 2 ∧ (u.fn c.val).table = es)) ∧
    (∀ (n : Nat) (t : Token), s.noc.tokens[n]? = some t → lcoreOf t.dst = 15 → t.op = 29 → t.phase = .flying →
      s.inOrder n t = true →
      s.runs (senderRegion t) = true → t.epoch.toNat = s.repoch (senderRegion t) → Completes (.finCountReport n) s fun u =>
        u.noc.tokens = s.noc.tokens.eraseIdx n ∧ u.mem = s.mem ∧
        u.rn .FIN_CTX_FALLBACK_BLOCKS (s.rctx (senderRegion t)) =
          min (s.rn .FIN_CTX_FALLBACK_BLOCKS (s.rctx (senderRegion t)) + beWord t.data 4) (2 ^ 64 - 1))

/-- R173, R378 to R382: a deliver entry sends its next token with the port's credit, lost where its router discards it; a collect
entry writes the chunk that a token brings to the shadow bank; a copy entry copies its bytes; a mover without work left
reports once. Clauses that rest on the model's own choices follow log entries 82, 84, 99, 158. Completion stated of:
MOVER_DELIVER, MOVER_COLLECT, MOVER_COPY, MOVER_DONE. -/
def Obligations.StateMoversMove : Prop :=
  ∀ (s : State), s.live = true →
    (∀ (c : Ctx) (i : Fin 65536) (m : Mover), (s.fn c.val).movers[i.val]? = some m → m.done = false →
      (s.mayDeliver c.val m (BitVec.ofNat 16 (s.rn .CTX_TAG_BASE c.val + m.sent)) = true →
        let way := (s.moverData c.val m).1.courierPath (64 * m.die) (clusterOf m.core)
        let on (u : State) : Prop := u.mem = s.mem ∧ (u.fn c.val).movers[i.val]? =
          some { m with sent := m.sent + 1, done := decide (s.get CTX_STEP_STATE.microbatches c.val ≤ m.sent + 1) }
        (∀ w, way = some w → Completes (.moverDeliver c i) s fun u => on u ∧
          ∃ t, u.noc.tokens = s.noc.tokens ++ [t] ∧ t.dst = m.core ∧ t.op = m.op ∧ t.port = m.port ∧ t.phase = .flying ∧
            t.tag = BitVec.ofNat 16 (s.rn .CTX_TAG_BASE c.val + m.sent) ∧ t.epoch.toNat = s.repoch (regionOf m.core) % 4096 ∧
            (m.frozen = true → t.null = true)) ∧
        (way = none → Completes (.moverDeliver c i) s fun u => on u ∧ u.noc.tokens = s.noc.tokens)) ∧
      (s.mayDeliver c.val m (BitVec.ofNat 16 (s.rn .CTX_TAG_BASE c.val + m.sent)) = false →
        exec (.moverDeliver c i) s = .next s) ∧
      (m.copies = true → s.barksHeld c.val = false → s.moverWaits c.val m.off m.length = false → Completes (.moverCopy c i) s fun u =>
        (u.fn c.val).movers[i.val]? = some { m with done := true } ∧ u.noc = s.noc ∧
        (s.bankAddr c.val m.off m.length 1 = none → u.mem = s.mem) ∧
        (∀ b s1 d, s.bankAddr c.val m.off m.length 1 = some b → s.engRead c.val b m.length = (s1, d) →
          u.mem = ((s1.bump .FIN_MOVED_BYTES m.die m.length).shadowWrite c.val m.die m.off (d.getD [])).mem))) ∧
    (∀ (n : Nat) (t : Token) (k op out x : Nat) (m : Mover) (i : Nat), s.noc.tokens[n]? = some t →
      t.src = .core k op out x → lcoreOf t.dst = 15 → t.op = 31 → t.phase = .flying → s.inOrder n t = true → s.runs (regionOf k) = true →
      t.epoch.toNat = s.repoch (regionOf k) →
      let c := s.rctx (regionOf k)
      let j := (t.tag - BitVec.ofNat 16 (s.rn .CTX_TAG_BASE c)).toNat
      (s.fn c).movers.zipIdx.find? (fun x => x.1.kind = 2 && x.1.core = k && x.1.op = op && x.1.port = out) = some (m, i) →
      j < m.chunks → m.frozen = false → Completes (.moverCollect n) s fun u =>
        u.noc.tokens = s.noc.tokens.eraseIdx n ∧ (∃ y, (u.fn c).movers[i]? = some y ∧ j ∈ y.got ∧ y.img = m.img) ∧
        (t.null = true → u.mem = s.mem) ∧
        (t.null = false → t.data.length ≤ m.chunk → u.mem = ((s.dropTok n).shadowWrite c m.die (m.off + m.chunk * j) t.data).mem)) ∧
    (∀ (c : Ctx) (die : Fin 4), s.stepOpen c.val = true → die.val ∉ (s.fn c.val).dies →
      s.writesWait c.val = false →
      (∀ m ∈ (s.fn c.val).movers, m.die = die.val → m.kind = 1 ∨ m.done = true) → Completes (.moverDone c die) s fun u =>
        (u.fn c.val).dies = (s.fn c.val).dies ++ [die.val] ∧
        (∃ m, u.hrd.msgs = s.hrd.msgs ++ [m] ∧ m.ctx = c.val ∧ m.vid = s.get FIN_CTX_DONE_VID.vid c.val ∧ m.act = 0 ∧
          m.count = 1) ∧ u.mem = s.mem ∧ u.regs = s.regs)

/-- R463 to R467: the sentinel list loads; a sampled tile is captured, or skipped when it is larger than the window; the phase
sends every capture to its partner; a mismatch is counted and attributed, an agreement is not. Clauses that rest on the
model's own choices follow log entries 27, 80, 83, 159. Completion stated of: SENT_LIST_LOAD, SENTINEL_CAPTURE,
SENTINEL_PHASE_START, SENTINEL_COMPARE, SENT_LIST_LOAD_COMPLETE. -/
def Obligations.SentinelChecks : Prop :=
  ∀ (s : State) (c : Ctx), s.live = true →
    (∀ value : Word, s.decodes 0 = true → s.sstate c.val = 0 → exec (.sentListLoad 0 c value) s =
      .next ((s.wn .FLT_CTX_SENT_COUNT c.val (value.toNat % 4096)).sampleRow 9 64 (.sentListLoad 0 c value))) ∧
    (∀ value : Word, let u := s.handleRow (.sentListLoad 0 c value)
      u.get FLT_CTX_SENT_STATUS.state c.val = 1 ∧ spGet [] u.flt.sent c.val = [] ∧ u.mem = s.mem ∧ u.cores = s.cores) ∧
    (s.get FLT_CTX_SENT_STATUS.state c.val = 1 → ∀ s1 bs,
      let n := s.rn .FLT_CTX_SENT_COUNT c.val
      let es := chunks 16 (min n 3840) bs
      s.engHeld c.val (s.rn .FLT_CTX_SENT_BASE c.val) (16 * min n 3840) = false →
      s.engRead c.val (s.rn .FLT_CTX_SENT_BASE c.val) (16 * min n 3840) = (s1, some bs) →
      (∀ b, (upto es.length).find? (fun i => !sentEntryOk (es.getD i [])) = some b →
        Completes (.sentListLoadComplete c) s fun u => u.get FLT_CTX_SENT_STATUS.state c.val = 3 ∧ u.flt = s1.flt) ∧
      ((upto es.length).find? (fun i => !sentEntryOk (es.getD i [])) = none → n ≤ 3840 →
        Completes (.sentListLoadComplete c) s fun u =>
          u.get FLT_CTX_SENT_STATUS.state c.val = 2 ∧ spGet [] u.flt.sent c.val = es ∧ u.mem = s.mem)) ∧
    (∀ (k : CoreRef) (x : Capture) (q : EngCmd) (t : TensArgs) (i : IVec),
      s.flt.captures.find? (fun x => x.core = k.key && !x.taken) = some x → x.cmd = some q → tensArgs (s.core k.key) q = some t →
      (∃ m ∈ (s.core k.key).entries, m.op = x.op ∧ m.tag = x.tag ∧ m.state = .finishReady) →
      (s.tiles k.key t).1[x.hash % (s.tiles k.key t).1.length]? = some i →
      ((s.captureBytes k.key t i).length ≤ s.sentW (s.rctx k.p.val) → Completes (.sentinelCapture k) s fun u =>
        (∃ y ∈ u.flt.captures, y.core = k.key ∧ y.taken = true ∧ y.bytes = s.captureBytes k.key t i) ∧
        u.mem = (s.engWrite (s.rctx k.p.val) (s.rn .FLT_CTX_SENT_AREA (s.rctx k.p.val) + k.key * s.sentW (s.rctx k.p.val))
          (s.captureBytes k.key t i)).mem ∧ u.cores = s.cores) ∧
      (s.sentW (s.rctx k.p.val) < (s.captureBytes k.key t i).length → Completes (.sentinelCapture k) s fun u =>
        u.flt.captures = dropFirst (fun y => y = x) s.flt.captures ∧ u.mem = s.mem ∧
        u.rn .FLT_SENT_SKIPPED = min (s.rn .FLT_SENT_SKIPPED + 1) (2 ^ 64 - 1))) ∧
    ((s.stp c.val).barked = true → s.sstate c.val = 1 → c.val ∉ s.flt.phase → s.barksHeld c.val = false →
      Completes (.sentinelPhaseStart c) s fun u => u.flt.phase = s.flt.phase ++ [c.val] ∧
        u.flt.captures = s.flt.captures.filter
          (fun x => !s.captureOf c.val x || (x.taken && (s.partner x.core 1).isSome)) ∧ u.cores = s.cores) ∧
    (∀ (k : CoreRef) (x : Capture), s.flt.captures.find? (fun x => x.core = k.key && x.taken) = some x →
      s.rctx k.p.val ∈ s.flt.phase → s.barksHeld (s.rctx k.p.val) = false →
      (∀ second, Completes (.sentinelCompare k true second) s fun u => u.flt.captures = dropFirst (fun y => y = x) s.flt.captures ∧
        u.mem = s.mem ∧ u.regs = s.regs ∧ u.seq = s.seq) ∧
      (∀ q, s.partner k.key 1 = some q → Completes (.sentinelCompare k false 0) s fun u =>
        (∃ e ∈ u.seq.sampled ++ u.seq.carried ++ u.seq.offered, e.ev = .unit 0 (s.coreUnit q) 0x02) ∧
        u.rn .FLT_SENT_MISMATCH = min (s.rn .FLT_SENT_MISMATCH + 1) (2 ^ 64 - 1)) ∧
      (Completes (.sentinelCompare k false 1) s fun u =>
        (∃ e ∈ u.seq.sampled ++ u.seq.carried ++ u.seq.offered, e.ev = .unit 0 (s.coreUnit k.key) 0x02) ∧
        (∃ e ∈ u.seq.sampled ++ u.seq.offered, e.cls = 7 ∧ e.src = 9 + k.p.val ∧ e.ev = .sentinel (s.rctx k.p.val) k.p.val) ∧
        u.rn .FLT_SENT_MISMATCH = min (s.rn .FLT_SENT_MISMATCH + 1) (2 ^ 64 - 1)) ∧
      (Completes (.sentinelCompare k false 2) s fun u =>
        (∃ e ∈ u.seq.sampled ++ u.seq.offered, e.cls = 7 ∧ e.src = 9 + k.p.val ∧ e.ev = .sentinel (s.rctx k.p.val) k.p.val) ∧
        u.rn .FLT_SENT_UNATTRIBUTED = min (s.rn .FLT_SENT_UNATTRIBUTED + 1) (2 ^ 64 - 1)))

/-- R473, R474, R477, R483, R489: a finished drain completes its slot with the captured step, unless its bank lost a page or a
read or write of it was refused; it waits while the memory holds a read; the interval of the tick root is taken by a leading
shepherd of a joined job and by nobody else. R478, R480, R484: RESTORE and REPLAY wait for their tick and are ignored while a
command is busy; a restore of a complete slot begins while the state is idle, waits while a read is held, and is refused else;
at its end the values of the capture are in force and the tables load; REPLAY puts the package in replay mode. Clauses that
rest on the model's own choices follow log entries 28, 38, 81, 114, 115, 131, 160, 162. Completion stated of: CADENCE_RECORD,
SNAPSHOT_DRAIN_COMPLETE, RESTORE, RESTORE_COMPLETE, REPLAY. -/
def Obligations.SnapshotsRestoreAndReplay : Prop :=
  (∀ (s : State), s.live = true →
    (∀ (i t0 c : Nat) (values : List Byte), s.flt.drain = some (i, values, t0) → s.jobCtx = some c →
      let pages := pagesIn (s.rn .CTX_BANK_BASE c + s.flt.capBank * s.rn .CTX_BANK_DELTA c) (s.rn .CTX_BANK_SIZE c)
      let ps := s.drainPieces c
      let s0 := s.finishDrain t0
      let base := s.snapSlotAddr i
      ((∃ p ∈ ps, s.engHeld c p.1 p.2.1 = true) → exec .snapshotDrainComplete s = .next s) ∧
      ((∀ p ∈ ps, s.engHeld c p.1 p.2.1 = false) →
        (pages.any s.pageFenced = true → Completes .snapshotDrainComplete s fun u => u.flt.drain = none ∧
          u.flt.slotsDone = s.flt.slotsDone ∧ u.mem = s.mem ∧ u.rn .SNP_TAKEN = s.rn .SNP_TAKEN) ∧
        (pages.any s.pageFenced = false → i < s.snapSlots → s0.engRefused c base 4096 = false →
          (∀ s1 ds, s0.drainCopy c base ps = (s1, some ds) → Completes .snapshotDrainComplete s fun u =>
            u.flt.drain = none ∧ u.flt.drainTicks = s.now - t0 ∧
            spGet 0 u.flt.slotsDone i = leNat ((values.drop 8).take 8) + 1 ∧
            u.rn .SNP_TAKEN = min (s.rn .SNP_TAKEN + 1) (2 ^ 64 - 1) ∧ u.cores = s.cores) ∧
          (∀ s1, s0.drainCopy c base ps = (s1, none) → Completes .snapshotDrainComplete s fun u => u.flt.drain = none ∧
            u.flt.slotsDone = s.flt.slotsDone ∧ u.rn .SNP_TAKEN = s.rn .SNP_TAKEN)))) ∧
    (∀ interval : Fin 65536,
      (s.led = true → s.joined = true → s.flag LNK_STATUS.shepherd = true → exec (.cadenceRecord interval) s =
        .next { s with flt := { s.flt with nextInterval := max 1 interval.val } }) ∧
      (s.led = false ∨ s.joined = false ∨ s.flag LNK_STATUS.shepherd = false → exec (.cadenceRecord interval) s = .next s))) ∧
  (∀ (s : State), s.live = true →
    (s.decodes 0 = true → ∀ c, (∃ slot, c = .restore 0 slot) ∨ c = .replay 0 →
      (s.flag SNP_CMD_STATUS.busy = true → exec c s = .next s) ∧
      (s.flag SNP_CMD_STATUS.busy = false → exec c s = .next ((s.put SNP_CMD_STATUS.busy 0 1).sampleRow 9 64 c)) ∧
      (s.leads = false → (s.handleRow c).get SNP_CMD_STATUS.status = 0x1B ∧ (s.handleRow c).flag SNP_CMD_STATUS.busy = false ∧
        (s.handleRow c).flt = s.flt)) ∧
    (∀ slot : Fin 64, s.leads = true →
      let u := s.handleRow (.restore 0 slot)
      (s.jobCtx = none → u.get SNP_CMD_STATUS.status = 0x04 ∧ u.flt = s.flt) ∧
      (∀ c, s.jobCtx = some c →
        (s.sstate c ≠ 0 ∨ s.flt.drain ≠ none → u.get SNP_CMD_STATUS.status = 0x02 ∧ u.flt = s.flt) ∧
        (s.sstate c = 0 → s.flt.drain = none → s.slotStep slot.val = none →
          u.get SNP_CMD_STATUS.status = 0x04 ∧ u.flt = s.flt) ∧
        (s.sstate c = 0 → s.flt.drain = none → s.slotStep slot.val ≠ none →
          let base := s.snapSlotAddr slot.val
          let parts := s.snapParts.length
          (s.engHeld c base 4096 = true → u = s.sampleRow 9 64 (.restore 0 slot)) ∧
          (∀ s1 h, s.engRead c base 4096 = (s1, some h) → s.engHeld c base 4096 = false →
            let waits := (s.slotPieces c base (hdValues h)).any fun p => s.engHeld c p.1 p.2
            let rs := s1.replicas s1.coord
            let r := (rs.idxOf s1.coord) % rs.length
            let good : Bool := match (s1.engRead c (base + 0x40000) (s1.partRange c r 0).2).2 with
              | some bs => decide (Config.sha3 bs = hdDigest h parts 3)
              | none => false
            (waits = true → u = s.sampleRow 9 64 (.restore 0 slot)) ∧
            (waits = false → hdOk h parts (s1.rn .LNK_JOB_ID) s1.coord = false → u.get SNP_CMD_STATUS.status = 0x04 ∧ u.flt = s1.flt) ∧
            (waits = false → hdOk h parts (s1.rn .LNK_JOB_ID) s1.coord = true → u.mem = s1.mem ∧
              bif !s1.slotTablesOk c base h parts || (!good && (decide (rs.length ≤ 1) || !s1.flag SNP_CONFIG.copies)) then
                u.get SNP_CMD_STATUS.status = 0x06 ∧ u.flt = s1.flt
              else u.flt.restore = some { slot := slot.val, values := hdValues h, damaged := cond good [] [r], was := s1.get FLT_JOB_STATE.state } ∧
                u.flag SNP_CMD_STATUS.busy = s1.flag SNP_CMD_STATUS.busy ∧ u.get FLT_JOB_STATE.state = 3 ∧
                u.get CTX_STEP_STATE.sel c = 0))))) ∧
    (∀ (op : RestoreOp) (c : Nat), s.flt.restore = some op → s.jobCtx = some c →
      let base := s.snapSlotAddr op.slot
      let own := s.ownPart c
      let moves := (if own.1 ∈ op.damaged then [] else [(base + 0x40000, own.2.1, own.2.2)]) ++
        ((slotTables op.values).zip [s.rn .NUM_CTX_MAP_BASE c, s.rn .FIN_CTX_TABLE_BASE c, s.rn .COL_TABLE_BASE]).map fun t =>
          (base + t.1.2, t.2, t.1.1)
      let waits := moves.any fun p => s.engHeld c p.1 p.2.2
      (waits = true → exec .restoreComplete s = .next s) ∧
      (waits = false → Completes .restoreComplete s fun u => let s1 := (s.engCopy c moves).1
        u.mem = s1.mem ∧ u.flt.restore = none ∧ u.get FLT_JOB_STATE.state = op.was % 8 ∧ u.flag SNP_CMD_STATUS.busy = false ∧
        if (s.engCopy c moves).2 then
          u.rn .NUM_CTX_SEED c = leNat ((op.values.drop 16).take 8) ∧ u.rn .CTX_STEP c = leNat ((op.values.drop 8).take 8) ∧
          u.get NUM_CTX_MAP_STATUS.state c = 1 ∧ u.get FIN_CTX_TABLE_STATUS.state c = 1 ∧ u.get COL_STATUS.state = 1 ∧
          u.rn .SNP_RESTORES = min (s1.rn .SNP_RESTORES + 1) (2 ^ 64 - 1) ∧ u.get SNP_CMD_STATUS.status = 0
        else u.get SNP_CMD_STATUS.status = 0x09)) ∧
    (s.leads = true → let u := s.handleRow (.replay 0)
      u.flt = { s.flt with replay := true } ∧ u.get SNP_STATUS.state = 3 ∧ u.get SNP_CMD_STATUS.status = 0 ∧
      u.get FLT_JOB_STATE.state = (if s.get FLT_JOB_STATE.state = 0 then 4 else s.get FLT_JOB_STATE.state) ∧ u.mem = s.mem))

/-! ## The training step -/

/-- R312, R313, R316: at its tick a STEP record that is accepted starts the step: state running, its microbatches, its record and
start tick, completion OK; one that is refused completes with its status; a held one stays at the head of its ring. R41, R314,
R315, R327, R333: at its vote on a package with a lead a step of a job of one package commits with the flip tick its margin
past the vote when its word is zero and else aborts; a step past its deadline halts its regions and closes incomplete. Clauses
that rest on the model's own choices follow log entries 40, 74, 75, 77. Completion stated of: STEP, STEP_VOTE, STEP_DEADLINE. -/
def Obligations.StepStartsVotesAndEnds : Prop :=
  (∀ (s : State) (c : Ctx) (cookie : DWord) (irq : Bool) (record : List Byte), s.live = true → s.leads = true →
    let iss := Issuer.ring c cookie irq
    let done (u : State) (status : Nat) : Prop := u.mem = s.mem ∧ ∃ r,
      (u.ring c.val).queue = (s.ring c.val).queue ++ [r] ∧ r.kind = 0 ∧ r.status = status ∧ r.aux = 0x01 ∧ r.tag = cookie.toNat
    (s.stepHeld c.val = true → exec (.step iss record) s = .next s) ∧
    (s.stepHeld c.val = false → s.judgeStep c.val record = 0 → s.tableHalt c.val = false →
      AtTick (.step iss record) s 9 (s.ctxSrc c.val) fun u => done u 0 ∧ u.sstate c.val = 1 ∧
        u.get CTX_STEP_STATE.microbatches c.val = recM record ∧ (u.stp c.val).record = record ∧ (u.stp c.val).closed = false ∧
        u.rn .CTX_STEP_START c.val = s.jobTick c.val ∧ u.rn .CTX_STEP c.val = s.rn .CTX_STEP c.val ∧ u.cores = s.cores) ∧
    (s.stepHeld c.val = false → s.judgeStep c.val record ≠ 0 → AtTick (.step iss record) s 9 (s.ctxSrc c.val) fun u =>
      done u (s.judgeStep c.val record) ∧ u.sstate c.val = s.sstate c.val ∧ u.step = s.step ∧ u.cores = s.cores)) ∧
  (∀ (s : State) (c : Ctx), s.live = true →
    (s.sstate c.val = 1 → s.voteReady c.val = true → s.solo c.val = true → (s.stp c.val).decision = none →
      s.led = true →
      (s.get CTX_HEALTH.local_ c.val = 0 → Completes (.stepVote c) s fun u => u.sstate c.val = 3 ∧
        u.rn .CTX_VOTE_TICK c.val = s.jobTick c.val ∧
        (∃ d, (u.stp c.val).decision = some d ∧ d.commit = true ∧ d.flip = s.jobTick c.val + (s.stp c.val).margin) ∧
        u.rn .CTX_TAG_BASE c.val = (s.rn .CTX_TAG_BASE c.val + s.get CTX_STEP_STATE.microbatches c.val) % 65536 ∧
        ∃ r, (u.ring c.val).queue = (s.ring c.val).queue ++ [r] ∧ r.kind = 2 ∧ r.status = 0 ∧ r.aux = 1 ∧
          r.tag = s.rn .CTX_STEP c.val) ∧
      (s.get CTX_HEALTH.local_ c.val ≠ 0 → Completes (.stepVote c) s fun u => u.sstate c.val = 2 ∧
        (∃ d, (u.stp c.val).decision = some d ∧ d.commit = false) ∧
        ∃ r, (u.ring c.val).queue = (s.ring c.val).queue ++ [r] ∧ r.kind = 2 ∧ r.aux = 2 ∧ r.tag = s.rn .CTX_STEP c.val)) ∧
    (s.stepOpen c.val = true → s.voteReady c.val = false → exec (.stepVote c) s = .next s) ∧
    (∀ d, (s.stp c.val).deadline = some d →
      (s.now + 1 < d → exec (.stepDeadline c) s = .next s) ∧
      (s.sstate c.val = 1 → d ≤ s.now → s.voteReady c.val = false → (s.stp c.val).barked = false → s.barksHeld c.val = false →
        OnceAtTick (.stepDeadline c) s 11 ((s.stepSet c.val).headD 0) fun u => (u.stp c.val).closed = true ∧
          (∀ p ∈ s.stepSet c.val, s.runs p = true → u.rstate p = 4) ∧ u.mem = s.mem)))

/-- R41, R327 to R330, R470: a vote record is kept under its sender's offset and passed on; the last one of the last axis
completes the job's record; a shepherd commits when the word is zero and every worker voted; a package acts on its own
shepherd's decision alone and discards one for another step; it decides nothing without a lead; an abort is applied at a tick
after it came. Clauses that rest on the model's own choices follow log entries 78, 81, 162. Completion stated of: VOTE_RECORD,
SHEPHERD_DECISION, DECISION_RECORD. -/
def Obligations.VotesAndDecisionsOfAJob : Prop :=
  ∀ (s : State), s.live = true →
    (∀ (c : Nat) (axis : Fin 4) (plus : Bool) (hop : Nat) (r : VoteRec), s.jobCtx = some c → s.joined = true → 0 < hop →
      hop ≤ voteHops (s.ring_ axis.val) plus →
      let n := s.ring_ axis.val
      let off := if plus then (n - hop) % n else hop % n
      (∀ g ∈ (s.stp c).got, ¬ (g.1 = axis.val ∧ g.2.1 = off)) →
      ((∀ x ∈ (s.stp c).own, x.1 ≠ axis.val) → Completes (.voteRecord axis plus hop r) s fun u =>
        (u.stp c).got = (s.stp c).got ++ [(axis.val, off, r)] ∧ u.mem = s.mem ∧
        (hop < voteHops n plus → .vote axis.val plus (hop + 1) r ∈ u.out) ∧ (hop = voteHops n plus → u.out = s.out)) ∧
      (∀ r0, axis = 3 → n = 2 → (s.stp c).own.find? (fun x => x.1 = 3) = some (3, r0) → (∀ g ∈ (s.stp c).got, g.1 ≠ 3) →
        Completes (.voteRecord axis plus hop r) s fun u => (u.stp c).combined = some (joinVote r0 r) ∧ u.mem = s.mem)) ∧
    (∀ (c : Ctx) (r : VoteRec), s.solo c.val = true ∨ s.flag LNK_STATUS.shepherd = true → (s.stp c.val).combined = some r →
      s.sstate c.val = 2 → (s.stp c.val).decision = none →
      (s.led = false → exec (.shepherdDecision c) s = .next s) ∧ (s.led = true →
      let workers := if s.solo c.val then 1 else s.jobSize
      (r.word = 0 → r.votes = workers → Completes (.shepherdDecision c) s fun u => u.sstate c.val = 3 ∧ u.mem = s.mem ∧
        (∃ d, (u.stp c.val).decision = some d ∧ d.commit = true ∧ d.flip = r.tick + (s.stp c.val).margin) ∧
        (s.solo c.val = false → ∀ n, n < s.jobSize → s.unlinear n ≠ s.coord → s.sameFlock (s.unlinear n) s.coord = true →
          ∃ snap, .decision (s.unlinear n) (s.rn .CTX_STEP c.val) true (r.tick + (s.stp c.val).margin) snap ∈ u.out)) ∧
      (r.word ≠ 0 ∨ r.votes ≠ workers → Completes (.shepherdDecision c) s fun u => u.sstate c.val = 2 ∧ u.mem = s.mem ∧
        (∃ d, (u.stp c.val).decision = some d ∧ d.commit = false) ∧
        ∃ q, (u.ring c.val).queue = (s.ring c.val).queue ++ [q] ∧ q.kind = 2 ∧ q.aux = 2 ∧ q.status = s.voteStatus r.word))) ∧
    (∀ (c : Nat) (step flip : DWord) (snap : Bool), s.jobCtx = some c → s.joined = true →
      (∀ commit, step.toNat ≠ s.rn .CTX_STEP c → exec (.decisionRecord step commit flip snap) s =
        .next (s.sendFailure 12)) ∧ .failure 12 s.coord ∈ (s.sendFailure 12).out ∧
      (step.toNat = s.rn .CTX_STEP c → s.sstate c = 2 → (s.stp c).decision = none →
        (Completes (.decisionRecord step true flip snap) s fun u => u.sstate c = 3 ∧ u.mem = s.mem ∧
          ∃ d, (u.stp c).decision = some d ∧ d.commit = true ∧ d.flip = flip.toNat) ∧
        (Completes (.decisionRecord step false flip snap) s fun u => u.sstate c = 2 ∧ u.mem = s.mem ∧
          u.rn .CTX_STEP c = s.rn .CTX_STEP c ∧ ∃ d, (u.stp c).decision = some d ∧ d.commit = false ∧ d.tick = s.now))) ∧
    (∀ c : Ctx, let u := s.applyAbort c.val
      u.sstate c.val = 0 ∧ u.mem = s.mem ∧ (u.stp c.val).decision = none ∧
      u.rn .CTX_ABORTS c.val = min (s.rn .CTX_ABORTS c.val + 1) (2 ^ 64 - 1) ∧
      u.rn .CTX_STEP c.val = s.rn .CTX_STEP c.val ∧ u.get CTX_STEP_STATE.sel c.val = s.get CTX_STEP_STATE.sel c.val)

/-- R330, R332, R338: at the flip tick the selector toggles, STEP advances and the state is idle, or for a re-shard the layout
epoch moves; not before it. A vote timeout puts the package in doubt with its banks and step kept; the resolution decides
commit or abort. Clauses that rest on the model's own choices follow log entries 29, 36, 78, 162. Completion stated of:
COMMIT_FLIP, VOTE_TIMEOUT, IN_DOUBT_RESOLUTION. -/
def Obligations.CommitFlipAndDoubt : Prop :=
  ∀ (s : State) (c : Ctx), s.live = true →
    (∀ d, (s.stp c.val).decision = some d → s.sstate c.val = 3 → d.commit = true →
      d.late = false ∨ d.tick < s.now →
      (s.jobTick c.val < d.flip → exec (.commitFlip c) s = .next s) ∧
      (d.flip ≤ s.jobTick c.val → (s.stp c.val).reshard = none → Completes (.commitFlip c) s fun u => u.sstate c.val = 0 ∧
        u.get CTX_STEP_STATE.sel c.val = 1 - s.get CTX_STEP_STATE.sel c.val ∧
        u.rn .CTX_STEP c.val = min (s.rn .CTX_STEP c.val + 1) (2 ^ 64 - 1) ∧
        u.rn .CTX_COMMITS c.val = min (s.rn .CTX_COMMITS c.val + 1) (2 ^ 64 - 1) ∧
        u.rn .CTX_FLIP_TICK c.val = s.jobTick c.val ∧ (u.stp c.val).decision = none ∧ (s.jobCtx ≠ some c.val → u.mem = s.mem)) ∧
      (∀ r, d.flip ≤ s.jobTick c.val → (s.stp c.val).reshard = some r → r.phase = .moving → Completes (.commitFlip c) s fun u =>
        u.get CTX_STEP_STATE.sel c.val = 1 - s.get CTX_STEP_STATE.sel c.val ∧
        u.rn .CTX_LAYOUT_EPOCH c.val = s.rn .CTX_PENDING_EPOCH c.val ∧ u.rn .CTX_STEP c.val = s.rn .CTX_STEP c.val ∧
        u.rn .CTX_RESHARDS c.val = min (s.rn .CTX_RESHARDS c.val + 1) (2 ^ 64 - 1) ∧
        (u.stp c.val).reshard = some { r with phase := .target } ∧ u.mem = s.mem)) ∧
    (s.sstate c.val = 2 → s.solo c.val = false → (s.stp c.val).decision = none → s.led = true →
      let doubt (u : State) : Prop := u.sstate c.val = 4 ∧ u.rn .CTX_STEP c.val = s.rn .CTX_STEP c.val ∧
        u.get CTX_STEP_STATE.sel c.val = s.get CTX_STEP_STATE.sel c.val ∧ u.mem = s.mem ∧
        ∃ r, (u.ring c.val).queue = (s.ring c.val).queue ++ [r] ∧ r.kind = 2 ∧ r.status = 0x1A ∧ r.aux = 3
      (s.flag LNK_STATUS.shepherd = false → Completes (.voteTimeout c) s doubt) ∧
      (s.flag LNK_STATUS.shepherd = true → (s.stp c.val).combined = none →
        (s.stp c.val).voteTick + usTicks (s.stp c.val).timeout ≤ s.now → Completes (.voteTimeout c) s fun u => doubt u ∧
          .failure 11 s.coord ∈ u.out ∧ ∀ n, n < s.jobSize → s.unlinear n ≠ s.coord →
            s.sameFlock (s.unlinear n) s.coord = true → .inDoubt (s.unlinear n) (s.rn .CTX_STEP c.val) ∈ u.out)) ∧
    (s.sstate c.val = 4 → s.solo c.val = false → s.led = true → ∀ flip : DWord,
      (Completes (.inDoubtResolution c true flip) s fun u => u.sstate c.val = 3 ∧
        u.rn .CTX_IN_DOUBT c.val = min (s.rn .CTX_IN_DOUBT c.val + 1) (2 ^ 64 - 1) ∧ u.mem = s.mem ∧
        ∃ d, (u.stp c.val).decision = some d ∧ d.commit = true ∧ d.flip = flip.toNat) ∧
      ((s.stp c.val).sent ≠ some (s.rn .CTX_STEP c.val, true) → Completes (.inDoubtResolution c false flip) s fun u =>
        u.rn .CTX_IN_DOUBT c.val = min (s.rn .CTX_IN_DOUBT c.val + 1) (2 ^ 64 - 1) ∧ u.mem = s.mem ∧
        ∃ d, (u.stp c.val).decision = some d ∧ d.commit = false ∧ d.tick = s.now))

/-- R337 to R339: at its tick a RESHARD that is accepted puts the state to resharding with its pending epoch; it waits while the
state is not idle; a second one is BUSY; a forced one closes a running step with bit 4 and halts its regions; after the commit
the regions are rebound with the target folio and the state is idle. Clauses that rest on the model's own choices follow log
entry 75. Completion stated of: RESHARD, RESHARD_FORCE, RESHARD_TARGET_BIND. -/
def Obligations.ReshardBeginsForcesAndBinds : Prop :=
  ∀ (s : State) (c : Ctx) (cookie : DWord) (irq : Bool) (record : List Byte), s.live = true → s.leads = true →
    let iss := Issuer.ring c cookie irq
    let src := s.ctxSrc c.val
    let done (u : State) (status : Nat) : Prop := ∃ r l, (u.ring c.val).queue = (s.ring c.val).queue ++ r :: l ∧ r.kind = 0 ∧
      r.status = status ∧ r.aux = 0x02 ∧ r.tag = cookie.toNat
    let q := parseReshard iss record
    ((s.stp c.val).reshard ≠ none → s.ringHeld iss = false → AtTick (.reshard iss record) s 9 src fun u => done u 0x02 ∧ u.step = s.step ∧ u.mem = s.mem) ∧
    ((s.stp c.val).reshard = none → reshardRsv record = true →
      (s.reshardHeld iss = true → exec (.reshard iss record) s = .next (s.put CTX_STEP_STATE.reshard_held c.val 1)) ∧
      (s.reshardHeld iss = false →
        (∀ f, (s.began iss 0x02).judgeReshard c.val q = 0 → s.folio q.move = some f → AtTick (.reshard iss record) s 9 src fun u =>
          done u 0 ∧ u.sstate c.val = 5 ∧ u.rn .CTX_PENDING_EPOCH c.val = f.epoch.toNat ∧
          ∃ x, (u.stp c.val).reshard = some x ∧ x = { q with phase := .moving }) ∧
        ((s.began iss 0x02).judgeReshard c.val q ≠ 0 → AtTick (.reshard iss record) s 9 src fun u =>
          done u ((s.began iss 0x02).judgeReshard c.val q) ∧ u.sstate c.val = 0 ∧ u.mem = s.mem ∧ u.bnd = s.bnd)) ∧
      (s.sstate c.val = 1 → s.ringHeld iss = false → AtTick (.reshardForce iss record) s 9 src fun u =>
        (u.stp c.val).reshard = some q ∧ (u.stp c.val).closed = true ∧ bitAt (u.get CTX_HEALTH.local_ c.val) 4 = true ∧
        (∀ p ∈ s.stepSet c.val, s.runs p = true → u.rstate p = 4) ∧ u.mem = s.mem)) ∧
    (s.sstate c.val ≠ 1 ∨ s.ringHeld iss = true →
      s.handleRow (.reshardForce iss record) = s.handleRow (.reshard iss record) ∧
      ((s.stp c.val).reshard = none → reshardRsv record = true → s.reshardHeld iss = true →
        exec (.reshardForce iss record) s = .next (s.put CTX_STEP_STATE.reshard_held c.val 1)) ∧
      (s.reshardHeld iss = false → exec (.reshardForce iss record) s = .next (s.sampleRow 9 src (.reshardForce iss record)))) ∧
    ((s.stp c.val).reshard = none → reshardRsv record = false → s.ringHeld iss = false →
      AtTick (.reshard iss record) s 9 src fun u => done u 0x04 ∧ u.step = s.step ∧ u.mem = s.mem) ∧
    (∀ r : Reshard, (s.stp c.val).reshard = some r → r.phase = .target →
      (s.now ≤ (s.stp c.val).voteTick → exec (.reshardTargetBind c) s = .next s) ∧
      ((s.stp c.val).voteTick < s.now → ∀ f,
        let req := reshardBind c.val r r.target
        let s1 := s.setStp c.val { s.stp c.val with reshard := none }
        s.folio r.target = some f → f.ctx = c.val → (f.portable = true → bitAt f.dies (req.target / 4) = true) →
        ((req.named ++ f.targets req.target).all fun p => !s.regionBusy p) = true → s1.bindStatus req f = 0 →
        (((req.named.filter fun p => s.rstate p ≠ 0).foldl (fun (x : State) p => x.flushRegion p) s1).fenceReject f req) = none →
        Completes (.reshardTargetBind c) s fun u => u.sstate c.val = 0 ∧ (u.stp c.val).reshard = none ∧
          ∀ p ∈ f.targets req.target, u.rstate p = 1 ∧ u.rctx p = c.val))

/-! ## Contexts -/

/-- R41, R387, R388, R417: a CTX_ADMIN command is taken while none is in progress. At its tick CTX_CREATE makes a context with the
windows of reset for its function, or refuses with NOT_LEAD, BAD_DESCRIPTOR or BUSY; CTX_DESTROY unbinds its regions, empties
its rings and leaves every byte of memory. Clauses that rest on the model's own choices follow log entries 31, 40, 92.
Completion stated of: CTX_CREATE, CTX_DESTROY. -/
def Obligations.ContextsCreateAndDestroy : Prop :=
  ∀ (s : State), s.live = true → s.decodes 0 = true →
    (∀ (c f : Fin 32), ∀ cmd ∈ [(.ctxCreate 0 c f : Instr), .ctxDestroy 0 c],
      (s.flag CTX_ADMIN_STATUS.busy = true → exec cmd s = .next s) ∧
      (s.flag CTX_ADMIN_STATUS.busy = false → exec cmd s = .next ((s.put CTX_ADMIN_STATUS.busy 0 1).sampleRow 9 64 cmd))) ∧
    (∀ (c : Ctx) (f : Fin 32), s.leads = true → f.val ≤ 16 → s.ctxExists c.val = false →
      (f.val = 0 ∨ ∀ d, d < 31 → s.isFnOf f.val d = false) → let u := s.handleRow (.ctxCreate 0 ⟨c.val, by omega⟩ f)
        u.ctxExists c.val = true ∧ u.get CTX_CONFIG.function c.val = f.val ∧ u.ring c.val = {} ∧ u.stp c.val = {} ∧
        u.get CTX_ADMIN_STATUS.status = 0 ∧ u.flag CTX_ADMIN_STATUS.busy = false ∧ u.mem = s.mem ∧ u.cores = s.cores ∧
        (∀ d, d ≠ c.val → u.ring d = s.ring d)) ∧
    (∀ (c f : Fin 32),
      let u := s.handleRow (.ctxCreate 0 c f)
      let v := s.handleRow (.ctxDestroy 0 c)
      (s.leads = false → u.get CTX_ADMIN_STATUS.status = 0x1B ∧ u.ctx = s.ctx ∧ v.get CTX_ADMIN_STATUS.status = 0x1B ∧
        v.ctx = s.ctx) ∧
      (s.leads = true → c.val ≠ 31 → f.val ≤ 16 → s.ctxExists c.val = true →
        u.get CTX_ADMIN_STATUS.status = 0x02 ∧ u.ctx = s.ctx ∧ u.step = s.step) ∧
      (s.leads = true → c.val = 31 ∨ 16 < f.val → u.get CTX_ADMIN_STATUS.status = 0x04 ∧ u.ctx = s.ctx ∧ u.step = s.step) ∧
      (s.leads = true → c.val = 31 ∨ s.ctxExists c.val = false →
        v.get CTX_ADMIN_STATUS.status = 0x04 ∧ v.ctx = s.ctx ∧ v.step = s.step) ∧
      (s.leads = true → c.val ≠ 31 → s.ctxExists c.val = true →
        v.ctxExists c.val = false ∧ v.ring c.val = {} ∧ v.sstate c.val = 0 ∧ v.get CTX_ADMIN_STATUS.status = 0 ∧
        v.flag CTX_ADMIN_STATUS.busy = false ∧ v.mem = s.mem ∧
        (∀ p, p < 16 → s.rctx p = c.val → s.rstate p ≠ 0 → v.rstate p = 0)))

/-- R284, R389, R391, R394, R396: at its tick a ring is enabled with legal sizes and disabled with a fault otherwise; a poll that
is due appends what is waiting, and waits itself while its read is held; the command at the head is taken into the list of
commands; a NOP completes with OK and nothing else. R392 to R394: the head of an enabled ring with a whole well-formed NOP
frame, room for it, and a half that leads: it moves to the list of taken commands with its cookie and sub_head advances by its
cell. Clauses that rest on the model's own choices follow log entries 54, 91, 101. Completion stated of: RING_POLL,
RING_COMMAND_TAKE, NOP, CTX_RING_CONFIG_WRITE. -/
def Obligations.RingsPollTakeAndNop : Prop :=
  (∀ (s : State) (c : Ctx), s.live = true →
    (∀ value : Word, s.decodes 0 = true → bitAt value.toNat 20 = true →
      (value.toNat % 16 ≤ 8 → value.toNat / 16 % 16 ≤ 8 → AtTick (.ctxRingConfigWrite 0 c value) s 9 64 fun u =>
        u.rn .CTX_RING_CONFIG c.val = value.toNat % 2 ^ 29 ∧ u.flag CTX_PSTATE.ring_fault c.val = false ∧
        (s.flag CTX_RING_CONFIG.enable c.val = false → (u.ring c.val).cells = []) ∧ u.mem = s.mem) ∧
      (8 < value.toNat % 16 ∨ 8 < value.toNat / 16 % 16 → AtTick (.ctxRingConfigWrite 0 c value) s 9 64 fun u =>
        u.flag CTX_RING_CONFIG.enable c.val = false ∧ u.flag CTX_PSTATE.ring_fault c.val = true ∧ u.ctx = s.ctx ∧
        u.mem = s.mem)) ∧
    (let q := s.ring c.val
     let gap := if s.holdsReserved c.val || !q.polled then 1 else max 1 (s.get CTX_RING_CONFIG.poll c.val)
     let s0 := s.setRing c.val { q with lastPoll := s.now, polled := true }
     (s.now < q.lastPoll + gap ∨ s.engHeld c.val (s.rn .CTX_CTRL_BASE c.val) 64 = true → exec (.ringPoll c) s = .next s) ∧
     (∀ s1 cb s2 bs, s.ctxExists c.val = true → s.flag CTX_RING_CONFIG.enable c.val = true → q.lastPoll + gap ≤ s.now →
        s.engHeld c.val (s.rn .CTX_CTRL_BASE c.val) 64 = false →
        s0.engRead c.val (s.rn .CTX_CTRL_BASE c.val) 64 = (s1, some cb) →
        let head := s.rn .CTX_SUB_HEAD c.val + q.cells.length / 64
        let t := s1.setRing c.val { s1.ring c.val with cplHead := leNat ((cb.drop 16).take 8) }
        let n := 64 * min (leNat (cb.take 8) - head) (min 64 (s.subBytes c.val / 64))
        t.ringBlocked c.val (64 * head) n = false → t.readRing c.val (64 * head) n = (s2, some bs) →
        Completes (.ringPoll c) s fun u => (u.ring c.val).cells = q.cells ++ bs ∧ (u.ring c.val).lastPoll = s.now ∧
          (u.ring c.val).cplHead = leNat ((cb.drop 16).take 8) ∧ u.mem = s.mem ∧ u.cores = s.cores)) ∧
    (∀ s1, s.takeOne c.val = some s1 → s1.takeOne c.val = none → s1.rn .CTX_SUB_HEAD c.val ≠ s.rn .CTX_SUB_HEAD c.val →
      exec (.ringCommandTake c) s =
        .next (s1.engWrite c.val (s.rn .CTX_CTRL_BASE c.val + 8) (natLe 8 (s1.rn .CTX_SUB_HEAD c.val)))) ∧
    (∀ cookie irq, s.leads = true → AtTick (.nop (.ring c cookie irq)) s 9 (s.ctxSrc c.val) fun u => u.mem = s.mem ∧ u.cores = s.cores ∧ u.noc = s.noc ∧ ∃ r,
      (u.ring c.val).queue = (s.ring c.val).queue ++ [r] ∧ r.kind = 0 ∧ r.status = 0 ∧ r.aux = 0x0D ∧ r.tag = cookie.toNat)) ∧
  (∀ (s : State) (c : Nat) (cookie rest : List Byte), cookie.length = 8 →
    let q := s.ring c
    let frame : List Byte := [0x0D#8, 1#8, 0#8, 0#8, 0#8, 0#8, 0#8, 0#8] ++ cookie ++ List.replicate 48 0#8
    s.flag CTX_RING_CONFIG.enable c = true → s.led = true → q.cells = frame ++ rest → q.takeTick ≠ s.now →
    q.inflight + q.taken.length < 256 → s.rn .CTX_CPL_TAIL c - q.cplHead < s.cplRecords c →
    ∃ t u, s.takeOne c = some u ∧ (u.ring c).taken = q.taken ++ [t] ∧ t.opcode = 0x0D ∧ t.cookie = BitVec.ofNat 64 (leNat cookie) ∧
      (u.ring c).cells = rest ∧ u.rn .CTX_SUB_HEAD c = min (s.rn .CTX_SUB_HEAD c + 1) (2 ^ 64 - 1) ∧ u.mem = s.mem)

/-- R395, R398 to R402: the oldest completion record goes to its ring, and a message falls due where one is asked for; while the
ring is full it stays; the next batch item arms its slot, or a bad one halts the step's regions at the next tick; a
reservation, judged at its tick, is taken by the holder's context or for an unbound region only. Clauses that rest on the
model's own choices follow log entries 2, 163, 171. Completion stated of: COMPLETION_RECORD_WRITE, BATCH_ITEM_ARM,
CTX_REGION_RESERVE_WRITE. -/
def Obligations.CompletionsBatchesAndReservation : Prop :=
  ∀ (s : State), s.live = true →
    (∀ (c : Ctx) (r : CplRec) (rest : List CplRec), (s.ring c.val).queue = r :: rest →
      let n := s.cplRecords c.val
      let tail := s.rn .CTX_CPL_TAIL c.val
      let at_ := s.rn .CTX_CPL_BASE c.val + 32 * (tail % n)
      let s1 := (s.setRing c.val { s.ring c.val with queue := rest }).engWrite c.val at_ (r.bytes (1 - tail / n % 2))
      (n ≤ tail - (s.ring c.val).cplHead → exec (.completionRecordWrite c) s = .next s) ∧
      (tail - (s.ring c.val).cplHead < n → s.writable c.val at_ 32 = true →
        s.writable c.val (s.rn .CTX_CTRL_BASE c.val + 24) 8 = true → Completes (.completionRecordWrite c) s fun u =>
          (u.ring c.val).queue = rest ∧ u.rn .CTX_CPL_TAIL c.val = min (tail + 1) (2 ^ 64 - 1) ∧
          u.mem = ((s1.bump .CTX_CPL_TAIL c.val).engWrite c.val (s.rn .CTX_CTRL_BASE c.val + 24) (natLe 8 (tail + 1))).mem ∧
          u.hif.due = s.hif.due ++ (if r.irq = true ∨ r.kind = 2 ∨ r.kind = 3 then
            [(s.get CTX_CONFIG.function c.val, s.get CTX_RING_CONFIG.vector c.val)] else []) ∧ u.cores = s.cores)) ∧
    (∀ (c : Ctx) (e : List Byte) (rest : List (List Byte)) (n : Nat),
      skipUnused (s.stp c.val).items (s.stp c.val).item = (e :: rest, n) → s.sstate c.val = 1 → s.get CTX_PSTATE.state c.val < 2 →
      let p := leNat ((e.drop 8).take 1)
      let ch := leNat ((e.drop 9).take 1)
      let sl := leNat ((e.drop 10).take 1)
      let i := fslotIx p ch sl
      let good := p < 16 ∧ ch < 16 ∧ sl < 8 ∧ leNat (e.take 8) < 2 ^ 48 ∧ leNat (e.drop 11) = 0 ∧ p ∈ s.stepSet c.val
      (good → (s.fslot i).shadow ≠ none → Completes (.batchItemArm c) s fun u =>
        (u.stp c.val).items = e :: rest ∧ u.fch = s.fch ∧ u.mem = s.mem) ∧
      (∀ t, good → (s.fslot i).shadow = none → s.armSlot i (batchImage (s.slotImage i) (leNat (e.take 8))
          ((s.rn .CTX_TAG_BASE c.val + n / 4) % 65536)) = (t, 0) → Completes (.batchItemArm c) s fun u =>
        (u.stp c.val).items = rest ∧ (u.stp c.val).item = n + 1 ∧ u.fch = t.fch ∧ u.mem = t.mem) ∧
      (¬ good → Completes (.batchItemArm c) s fun u => (u.stp c.val).items = [] ∧ u.mem = s.mem ∧ u.cores = s.cores ∧
        ∃ e ∈ u.seq.sampled ++ u.seq.carried ++ u.seq.offered, e.cls = 9 ∧ e.ev = .badItem c.val p n)) ∧
    (∀ (c : Ctx) (p n : Nat), s.stepOpen c.val = true → let u := s.applyEvent (.badItem c.val p n)
      (u.stp c.val).closed = true ∧ (∀ q ∈ s.stepSet c.val, s.runs q = true → u.rstate q = 4) ∧ u.mem = s.mem) ∧
    (∀ (p : Region) (value : Word), s.decodes 0 = true →
      let v := value.toNat % 32
      (v = 31 ∨ s.rstate p.val = 0 ∨ s.rctx p.val = v → AtTick (.ctxRegionReserveWrite 0 p value) s 9 64 fun u =>
        u.reserver p.val = v ∧ (∀ q, q ≠ p.val → u.reserver q = s.reserver q) ∧ u.mem = s.mem ∧ u.ctx = s.ctx) ∧
      (v ≠ 31 → s.rstate p.val ≠ 0 → s.rctx p.val ≠ v → AtTick (.ctxRegionReserveWrite 0 p value) s 9 64 fun u => u = s))

/-- R404, R405, R407, R416: at its tick PREEMPT of free regions completes at once and claims them, of a holder that may not be
pre-empted is BUSY, of others starts their pre-emption and waits; while a bind-family command runs on a holder's region it is
judged again; the physical function pre-empts a context that holds no reserved region; a claim ends at its time. Clauses that
rest on the model's own choices follow log entries 32, 40, 86, 163. Completion stated of: PREEMPT, CTX_PREEMPT_REQUEST,
CLAIM_EXPIRY. -/
def Obligations.PreemptionRequestsAndClaims : Prop :=
  ∀ (s : State), s.live = true →
    (∀ (c : Ctx) (cookie : DWord) (irq : Bool) (regions : BitVec 16),
      let iss := Issuer.ring c cookie irq
      let ps := unmask 16 regions.toNat
      let hs := s.holdersOf ps
      let done (u : State) (status : Nat) : Prop := ∃ r, (u.ring c.val).queue = (s.ring c.val).queue ++ [r] ∧ r.kind = 0 ∧
        r.status = status ∧ r.aux = 0x0C ∧ r.tag = cookie.toNat
      let may (h : Nat) : Prop := s.holdsReserved h = false ∧ s.get CTX_CONFIG.priority h < s.get CTX_CONFIG.priority c.val ∧
        s.flag CTX_CONFIG.preemptible h = true
      s.ringHeld iss = false → s.leads = true →
      ((∃ h ∈ hs, s.preemptWaits h = true) → AtTick (.preempt iss regions) s 9 (s.ctxSrc c.val) fun u =>
        u = s.sampleRow 9 (s.ctxSrc c.val) (.preempt iss regions)) ∧
      ((∀ h ∈ hs, s.preemptWaits h = false) →
      (hs = [] → AtTick (.preempt iss regions) s 9 (s.ctxSrc c.val) fun u => done u 0 ∧ u.mem = s.mem ∧ u.cores = s.cores ∧
        ∀ p ∈ ps, s.rstate p = 0 → (∀ x ∈ s.ctx.claims, x.region ≠ p) →
          ∃ x ∈ u.ctx.claims, x.region = p ∧ x.ctx = c.val ∧ x.until_ = s.now + 6250) ∧
      ((∃ h ∈ hs, ¬ may h) → AtTick (.preempt iss regions) s 9 (s.ctxSrc c.val) fun u => done u 0x02 ∧ u.ctx.preempts = s.ctx.preempts ∧
        u.ctx.claims = s.ctx.claims ∧ u.mem = s.mem) ∧
      (hs ≠ [] → (∀ h ∈ hs, may h) → (∀ h ∈ hs, ∀ x ∈ s.ctx.preempts, x.ctx ≠ h) → AtTick (.preempt iss regions) s 9 (s.ctxSrc c.val) fun u =>
        (∀ h ∈ hs, u.get CTX_PSTATE.state h = 2 ∧ ∃ x ∈ u.ctx.preempts, x.ctx = h ∧ x.regions = s.regionsOf h ∧ x.t0 = s.now) ∧
        (∃ r, u.ctx.reqs = s.ctx.reqs ++ [r] ∧ r.claimant = some c.val ∧ r.named = ps ∧ r.holders = hs) ∧ u.mem = s.mem ∧
        (u.ring c.val).queue = (s.ring c.val).queue))) ∧
    (∀ (c : Fin 32), s.decodes 0 = true → s.leads = true → s.ctxExists c.val = true → c.val ≠ 31 → s.regionsOf c.val ≠ [] →
      s.holdsReserved c.val = false →
      (s.preemptWaits c.val = true → AtTick (.ctxPreemptRequest 0 c) s 9 64 fun u => u = s.sampleRow 9 64 (.ctxPreemptRequest 0 c)) ∧
      (s.preemptWaits c.val = false → (∀ x ∈ s.ctx.preempts, x.ctx ≠ c.val) → AtTick (.ctxPreemptRequest 0 c) s 9 64 fun u =>
        u.get CTX_PSTATE.state c.val = 2 ∧ u.mem = s.mem ∧
        ∃ x, u.ctx.preempts = s.ctx.preempts ++ [x] ∧ x.ctx = c.val ∧ x.regions = s.regionsOf c.val ∧ x.t0 = s.now)) ∧
    (∀ p : Region, ((∃ x ∈ s.ctx.claims, x.region = p.val ∧ x.until_ ≠ 0 ∧ x.until_ ≤ s.now + 1) →
        exec (.claimExpiry p) s = .next (s.sampleOnce 11 p.val (.row (.claimExpiry p)))) ∧
      ((∀ x ∈ s.ctx.claims, x.region = p.val → x.until_ = 0 ∨ s.now + 1 < x.until_) → exec (.claimExpiry p) s = .next s) ∧
      let u := s.handleRow (.claimExpiry p)
      u.mem = s.mem ∧ u.cores = s.cores ∧
      u.ctx.claims = s.ctx.claims.filter (fun x => !(x.region = p.val && x.until_ ≠ 0 && decide (x.until_ ≤ s.now))))

/-- R404, R407 to R411: at the yield point every core of the regions is held and the state is saving; at the deadline the pre-
emption is forced, and its saves start once the traffic has landed; the last save unbinds the regions at the next tick, and
the context is then pre-empted. R414 to R416: once its regions are free a pre-empted context's binds begin; when every region
is bound again its cores go on and it is active; a tick adds a region's tick and energy to the context that holds it. Clauses
that rest on the model's own choices follow log entries 30, 33, 65, 87, 88, 89, 90, 164. Completion stated of: YIELD_POINT,
PREEMPT_SAVE_COMPLETE, PREEMPT_DEADLINE, FORCED_SAVE_START, FORCED_REGION_SAVED, CONTEXT_RESUME, CONTEXT_RESTORE_COMPLETE,
ACCOUNTING_TICK. -/
def Obligations.PreemptionSavesAndResumes : Prop :=
  (∀ (s : State) (c : Ctx) (q : Preempt), s.live = true → s.preOf c.val = some q →
    let held (u : State) : Prop := ∀ e ∈ u.cores, e.1 / 256 ∈ q.regions → e.2.stopped = true
    (s.get CTX_PSTATE.state c.val = 2 → q.forced = none → s.yieldReady q = true → Completes (.yieldPoint c) s fun u =>
      u.get CTX_PSTATE.state c.val = 3 ∧ u.get CTX_PSTATE.forced c.val = 0 ∧ held u ∧ u.mem = s.mem ∧ u.noc = s.noc) ∧
    (s.now + 1 < s.preemptLimit q → exec (.preemptDeadline c) s = .next s) ∧
    (s.get CTX_PSTATE.state c.val = 2 → q.forced = none → s.preemptLimit q ≤ s.now →
      (s.yieldReady q = false → OnceAtTick (.preemptDeadline c) s 11 (q.regions.headD 0) fun u =>
        u.preOf c.val = some { q with forced := some s.now } ∧ held u ∧ u.mem = s.mem ∧ u.regs = s.regs) ∧
      (s.yieldReady q = true → OnceAtTick (.preemptDeadline c) s 11 (q.regions.headD 0) fun u =>
        u.get CTX_PSTATE.state c.val = 3 ∧ u.get CTX_PSTATE.forced c.val = 0 ∧ held u ∧ u.mem = s.mem)) ∧
    (∀ t, s.get CTX_PSTATE.state c.val = 2 → q.forced = some t → t < s.now → (∀ p ∈ q.regions, s.landed p true = true) →
      Completes (.forcedSaveStart c) s fun u => u.get CTX_PSTATE.state c.val = 3 ∧ u.get CTX_PSTATE.forced c.val = 1 ∧
        u.rn .CTX_FORCED c.val = min (s.rn .CTX_FORCED c.val + 1) (2 ^ 64 - 1) ∧ u.mem = s.mem ∧ u.cores = s.cores) ∧
    (∀ (die : Fin 4) (p : Nat) (l : List Nat), s.get CTX_PSTATE.state c.val = 3 → q.forced ≠ none →
      q.regions.filter (fun p => p / 4 = die.val && !(q.saved.any fun r => r.region = p)) = p :: l →
      s.saveHeld q p = false → Completes (.forcedRegionSaved c die) s fun u => ∃ y r, u.preOf c.val = some y ∧ y.regions = q.regions ∧
        y.saved = q.saved ++ [r] ∧ r.region = p) ∧
    (s.get CTX_PSTATE.state c.val = 3 → q.gone = false →
      (q.forced = none ∧ ∀ p ∈ q.regions, s.saveHeld q p = false) ∨ (q.forced ≠ none ∧ q.regions.length ≤ q.saved.length) →
      OnceAtTick (.preemptSaveComplete c) s 10 (q.regions.headD 0) fun u => (∀ p ∈ q.regions, u.rstate p = 0) ∧
        (∃ y, u.preOf c.val = some y ∧ y.gone = true ∧ y.regions = q.regions) ∧
        ∃ e ∈ u.seq.sampled ++ u.seq.carried ++ u.seq.offered, e.cls = 10 ∧ e.ev = .preempted q.ctx) ∧
    (let u := s.applyEvent (.preempted c.val)
     u.get CTX_PSTATE.state c.val = 4 ∧ u.rn .CTX_PREEMPTS c.val = min (s.rn .CTX_PREEMPTS c.val + 1) (2 ^ 64 - 1) ∧
        u.rn .CTX_LAST_PREEMPT_TICKS c.val = (s.now - q.t0) % 2 ^ 64 ∧ u.mem = s.mem ∧
        ((s.ring c.val).queue.length < 256 → ∃ r ∈ (u.ring c.val).queue, r.kind = 3 ∧ r.status = 0x01))) ∧
  (∀ (s : State), s.live = true →
    (∀ (c : Ctx) (q : Preempt), s.preOf c.val = some q →
      (∀ (r : BindReq) (f : Folio), s.get CTX_PSTATE.state c.val = 4 → s.flag CTX_CONFIG.hold c.val = false →
        s.resumeCmds q = [r] → s.folio r.handle = some f → f.ctx = c.val →
        (f.portable = true → bitAt f.dies (r.target / 4) = true) → s.bindStatus r f = 0 →
        (∀ p ∈ r.named, s.regionBusy p = false ∧ s.rstate p = 0) →
        (∀ p ∈ q.regions, s.rstate p = 0 ∧ (s.reserver p = 31 ∨ s.reserver p = c.val) ∧ s.claimedByOther c.val p = false) →
        OnceAtTick (.contextResume c) s 9 (s.ctxSrc c.val) fun u =>
          u.get CTX_PSTATE.state c.val = 5 ∧ ∀ p ∈ r.named, u.rstate p = 1 ∧ u.rctx p = c.val) ∧
      (s.flag CTX_CONFIG.hold c.val = true → s.handleRow (.contextResume c) = s) ∧
      (s.get CTX_PSTATE.state c.val ≠ 4 → exec (.contextResume c) s = .next s) ∧
      (s.get CTX_PSTATE.state c.val = 5 → (∀ p ∈ q.regions, s.rctx p = c.val ∧ s.rstate p = 2) → q.lost = [] →
        (∃ p ∈ q.regions, p < 16) → (∀ r ∈ q.saved, r.halted = false) → (s.stp c.val).deadline = none →
        OnceAtTick (.contextRestoreComplete c) s 10 (q.regions.headD 0) fun u =>
          u.get CTX_PSTATE.state c.val = 1 ∧ u.ctx.preempts = s.ctx.preempts.filter (fun x => x.ctx ≠ c.val) ∧
          (∀ e ∈ u.cores, e.1 / 256 ∈ q.regions → e.2.stopped = false) ∧
          ((∀ i x, (s.fslot i).xfer = some x → x.held = []) → u.mem = s.mem))) ∧
    (∀ (p : Region), s.rctx p.val < 31 → (∀ r : Region, r ≠ p → s.rctx r.val ≠ s.rctx p.val) →
      Completes .accountingTick s fun u => u.mem = s.mem ∧ u.cores = s.cores ∧
        u.rn .CTX_ACC_REGION_TICKS (s.rctx p.val) = min (s.rn .CTX_ACC_REGION_TICKS (s.rctx p.val) + 1) (2 ^ 64 - 1) ∧
        u.rn .CTX_ACC_ENERGY_UJ (s.rctx p.val) = min (s.rn .CTX_ACC_ENERGY_UJ (s.rctx p.val) +
          (s.rn .PWR_REGION_ENERGY_UJ p.val - spGet 0 s.ctx.accE p.val)) (2 ^ 64 - 1) ∧
        spGet 0 u.ctx.accE p.val = s.rn .PWR_REGION_ENERGY_UJ p.val))

/-! ## Scale-out -/

/-- R418, R422 to R426: at its tick a role that another port holds is not written, a trained port announces its identity, and a
port comes up when its neighbour's identity fits and is not held; a flit in order is taken and one that is not is discarded
with a nak; an acknowledgement moves the window; class C leaves before K and P, which share three cycles to one, each within
its credits. R427, R428: at its tick a recalibration asked for by a request, a timer or a lane's error ratio begins while no
other port is in one, and waits while one is; its lanes follow one another; a lane that leaves service is counted. Clauses
that rest on the model's own choices follow log entries 96, 97, 165. Completion stated of: PORT_ROLE_WRITE,
PORT_TRAINING_COMPLETE, IDENTITY_FLIT, LINK_FLIT, LINK_NAK, PORT_RECAL_REQUEST, RECAL_TIMER_EXPIRY, RECAL_ERROR_THRESHOLD,
LANE_RECAL_COMPLETE, LANE_DROP. -/
def Obligations.LinkPortsLanesAndFlits : Prop :=
  (∀ (s : State) (port : Fin 9), s.live = true →
    let k := port.val
    let p := s.port k
    (∀ value : Word, s.decodes 0 = true → value.toNat / 128 % 2 = 0 →
      let r := value.toNat % 16
      (r = 15 ∨ (r ≤ 8 ∧ ∀ j, j < 9 → j ≠ k → s.get LNK_PORT_CFG.role j ≠ r) → AtTick (.portRoleWrite 0 port value) s 9 64 fun u =>
        u.rn .LNK_PORT_CFG k = value.toNat % 128 + value.toNat / 65536 * 65536 ∧ u.lnk = s.lnk ∧ u.mem = s.mem) ∧
      (r ≠ 15 → (8 < r ∨ ∃ j, j < 9 ∧ j ≠ k ∧ s.get LNK_PORT_CFG.role j = r) → AtTick (.portRoleWrite 0 port value) s 9 64 fun u => u = s)) ∧
    (∀ lanes : Fin 16, s.get LNK_PORT_STATUS.state k < 2 → s.led = true → s.untrained (s.get LNK_PORT_CFG.role k) = false →
      (7, k) ∉ s.flt.failing → k ∉ s.pwr.portsOff → 2 ≤ ((upto 4).filter fun l => bitAt lanes.val l).length →
      AtTick (.portTrainingComplete port lanes) s 4 (36 + k) fun u => u.get LNK_PORT_STATUS.state k = 1 ∧
        u.get LNK_PORT_STATUS.lanes k = lanes.val ∧ (u.port k).trained = true ∧ (u.port k).mode = s.get LNK_PORT_CFG.mode k ∧
        u.out = s.out ++ [.identity k (s.rn .LNK_JOB_ID) s.coord (s.get LNK_PORT_CFG.role k) s.identity] ∧ u.mem = s.mem) ∧
    (∀ (job coord : Word) (role : Fin 16) (digest : List Byte), p.trained = true → s.get LNK_PORT_STATUS.state k = 1 →
      let fits := job.toNat = s.rn .LNK_JOB_ID ∧ s.expectedCoord (s.get LNK_PORT_CFG.role k) = some coord.toNat
      (fits → s.identityHeld k coord.toNat digest = false → AtTick (.identityFlit port job coord role digest) s 4 (36 + k) fun u =>
        u.get LNK_PORT_STATUS.state k = 2 ∧ (u.portId k).admitted = some digest ∧ u.mem = s.mem) ∧
      (¬ fits ∨ s.identityHeld k coord.toNat digest = true → AtTick (.identityFlit port job coord role digest) s 4 (36 + k) fun u =>
        u.get LNK_PORT_STATUS.state k = 3 ∧ (u.portId k).coord = coord.toNat ∧ (u.portId k).digest = digest ∧ u.mem = s.mem)) ∧
    (s.get LNK_PORT_STATUS.state k ≠ 0 → ∀ (cls : Fin 4) (seq : BitVec 24) (corrected uncorrected : Nat),
      (cls.val ≠ 3 → seq = p.rxNext → Completes (.linkFlit port cls seq none true corrected uncorrected) s fun u =>
        u.port k = { p with rxNext := p.rxNext + 1, discarding := false } ∧ u.out = s.out ∧
        u.rn .LNK_RX_BYTES k = min (s.rn .LNK_RX_BYTES k + 240) (2 ^ 64 - 1) ∧ u.mem = s.mem) ∧
      (∀ good, good = false ∨ (cls.val ≠ 3 ∧ seq ≠ p.rxNext) → Completes (.linkFlit port cls seq none good corrected uncorrected) s
        fun u => u.port k = { p with discarding := true } ∧ u.mem = s.mem ∧
          u.out = s.out ++ (if p.discarding then [] else [.nak k (p.rxNext - 1).toNat])) ∧
      (∀ a : BitVec 24, seqAfter (a + 1) p.txAck = true → Completes (.linkFlit port 3 seq (some a) true corrected uncorrected) s
        fun u => (u.port k).txAck = a + 1 ∧ (u.port k).rxNext = p.rxNext ∧ u.out = s.out ∧ u.mem = s.mem)) ∧
    (p.canSend 0 = true → p.nextClass = some 0) ∧
    (p.canSend 0 = false → (p.turn < 3 → p.canSend 1 = true → p.nextClass = some 1) ∧
      (3 ≤ p.turn → p.canSend 2 = true → p.nextClass = some 2)) ∧
    (∀ n cls c, cls < 3 → c < 3 → p.wait.length = 3 → (p.unacked.filter (· = c)).length ≤ linkCredits c →
      ((((s.txFlits k n cls).port k).unacked).filter (· = c)).length ≤ linkCredits c) ∧
    (∀ ack : BitVec 24, s.get LNK_PORT_STATUS.state k ≠ 0 → Completes (.linkNak port ack) s fun u =>
      u.out = s.out ++ [.replay k (ack + 1).toNat] ∧ u.rn .LNK_REPLAYS k = min (s.rn .LNK_REPLAYS k + 1) (2 ^ 64 - 1) ∧
      (u.port k).txAck = (if seqAfter (ack + 1) p.txAck then ack + 1 else p.txAck) ∧ u.mem = s.mem)) ∧
  (∀ (s : State) (port : Fin 9), s.live = true →
    let k := port.val
    let begins (c : Instr) : Prop := s.get LNK_PORT_STATUS.state k = 2 → k ∉ s.lnk.recalWait →
      (∀ l rest, s.lnk.recal = none → (upto 4).filter (fun l => (6, 4 * k + l) ∉ s.flt.failing) = l :: rest → let u := s.handleRow c
        u.get LNK_PORT_STATUS.state k = 4 ∧ u.lnk.recal = some (k, l :: rest) ∧
        bitAt (u.get LNK_PORT_STATUS.lanes k) l = false ∧ u.mem = s.mem) ∧
      (s.lnk.recal ≠ none → s.handleRow c = { s with lnk := { s.lnk with recalWait := s.lnk.recalWait ++ [k] } })
    let once (c : Instr) : Prop := exec c s = .next (s.sampleOnce 4 (36 + k) (.row c))
    begins (.portRecalRequest 0 port) ∧
    (s.decodes 0 = true → exec (.portRecalRequest 0 port) s = .next (s.sampleRow 9 64 (.portRecalRequest 0 port))) ∧
    once (.recalTimerExpiry port) ∧ (∀ lane, once (.recalErrorThreshold port lane)) ∧
    (s.rn .LNK_RECAL_HOURS ≠ 0 → begins (.recalTimerExpiry port)) ∧
    (∀ lane : Fin 4, bitAt (s.get LNK_PORT_STATUS.lanes k) lane.val = true → begins (.recalErrorThreshold port lane)) ∧
    (s.rn .LNK_RECAL_HOURS = 0 → s.handleRow (.recalTimerExpiry port) = s) ∧
    (∀ lane : Fin 4, s.get LNK_PORT_STATUS.state k ≠ 0 → bitAt (s.get LNK_PORT_STATUS.lanes k) lane.val = true →
      OnceAtTick (.laneDrop port lane) s 4 (4 * k + lane.val) fun u => bitAt (u.get LNK_PORT_STATUS.lanes k) lane.val = false ∧
        u.rn .LNK_LANE_DROPS k = min (s.rn .LNK_LANE_DROPS k + 1) (2 ^ 64 - 1) ∧ u.mem = s.mem) ∧
    (∀ (pass : Bool) (l m : Nat) (rest : List Nat), s.lnk.recal = some (k, l :: m :: rest) → l < 4 → m < 4 → l ≠ m →
      OnceAtTick (.laneRecalComplete pass) s 4 (4 * k + l) fun u => u.lnk.recal = some (k, m :: rest) ∧
        bitAt (u.get LNK_PORT_STATUS.lanes k) m = false ∧ u.mem = s.mem ∧
        (pass = true → bitAt (u.get LNK_PORT_STATUS.lanes k) l = true)) ∧
    (∀ l : Nat, s.lnk.recal = some (k, [l]) → s.lnk.recalWait = [] → l < 4 →
      2 ≤ ((upto 4).filter fun x => decide (x = l) || bitAt (s.get LNK_PORT_STATUS.lanes k) x).length →
      OnceAtTick (.laneRecalComplete true) s 4 (4 * k + l) fun u => u.lnk.recal = none ∧ u.get LNK_PORT_STATUS.state k = 2 ∧
        bitAt (u.get LNK_PORT_STATUS.lanes k) l = true ∧ u.rn .LNK_RECALS k = min (s.rn .LNK_RECALS k + 1) (2 ^ 64 - 1) ∧
        u.mem = s.mem))

/-- R41, R429, R432, R449 to R453: at its tick JOIN with legal dimensions starts the tick count and LEAVE ends the job; beacons
align the count or, past 10 us, lose sync; heartbeats, a deputy that takes over, and a standby that joins with the settings of
its coordinate. Clauses that rest on the model's own choices follow log entries 86, 93, 94, 162, 166, 171. Completion stated
of: JOIN, LEAVE, BEACON_SEND, BEACON_RECEIVE, SHEPHERD_HEARTBEAT, SHEPHERD_TIMEOUT, TAKEOVER. -/
def Obligations.JobMembershipAndTicks : Prop :=
  ∀ (s : State), s.live = true →
    (s.decodes 0 = true →
      (s.leads = true → s.joined = false → s.jobSize ≤ 65536 → s.coordOk s.coord = true → AtTick (.join 0) s 9 64 fun u => u.joined = true ∧
        u.rn .LNK_TICK = 0 ∧ u.flag LNK_STATUS.sync_lost = false ∧ u.lnk.runs = [] ∧ u.mem = s.mem ∧ u.cores = s.cores ∧
        u.flag LNK_STATUS.shepherd = decide (s.shepherdOf s.coord = s.coord) ∧
        u.flag LNK_STATUS.tick_root = decide (s.shepherdOf 0 = s.coord)) ∧
      (s.leads = false ∨ s.joined = true ∨ 65536 < s.jobSize ∨ s.coordOk s.coord = false → AtTick (.join 0) s 9 64 fun u => u = s) ∧
      (s.leads = false ∨ s.joined = false → AtTick (.leave 0) s 9 64 fun u => u = s) ∧
      (s.leads = true → s.joined = true → AtTick (.leave 0) s 9 64 fun u => u.joined = false ∧ u.flag LNK_STATUS.shepherd = false ∧
        u.flag LNK_STATUS.deputy = false ∧ u.flag LNK_STATUS.tick_root = false ∧ u.lnk.runs = [] ∧ u.mem = s.mem)) ∧
    (s.joined = true → s.flag LNK_STATUS.tick_root = true → s.rn .LNK_TICK % 1024 = 0 → Completes .beaconSend s fun u =>
      u.out = s.out ++ [.beacon (s.rn .LNK_TICK)] ∧ u.mem = s.mem ∧ u.rn .LNK_TICK = s.rn .LNK_TICK) ∧
    (s.rn .LNK_TICK % 1024 ≠ 0 → exec .beaconSend s = .next s) ∧
    (∀ (count : DWord) (phase : Nat), s.joined = true → s.flag LNK_STATUS.tick_root = false →
      let err := 160 * (if s.rn .LNK_TICK ≤ count.toNat then count.toNat - s.rn .LNK_TICK else s.rn .LNK_TICK - count.toNat) + phase
      (s.lnk.aligned = true → 10000 < err → Completes (.beaconReceive count phase) s fun u => u.rd .LNK_TICK = count ∧
        u.flag LNK_STATUS.sync_lost = true ∧ u.out = s.out ++ [.beacon count.toNat] ∧ u.mem = s.mem) ∧
      (s.lnk.aligned = false ∨ err ≤ 10000 → Completes (.beaconReceive count phase) s fun u => u.rd .LNK_TICK = count ∧
        u.flag LNK_STATUS.sync_lost = false ∧ u.lnk.aligned = true ∧ u.out = s.out ++ [.beacon count.toNat] ∧ u.mem = s.mem)) ∧
    (∀ d r, s.deputyOf s.coord = some d → s.flag LNK_STATUS.shepherd = true → s.rn .LNK_TICK % 64 = 0 → d ≠ s.coord →
      s.firstHop d = some r → s.led = true → Completes .shepherdHeartbeat s fun u => u.out = s.out ++ [.heartbeat d] ∧ u.mem = s.mem) ∧
    (s.flag LNK_STATUS.deputy = true → s.flag LNK_STATUS.shepherd = false → s.led = true → OnceAtTick .shepherdTimeout s 11 0 fun u =>
      u.flag LNK_STATUS.shepherd = true ∧ u.flag LNK_STATUS.deputy = false ∧ u.out = s.out ++ [.newShepherd s.coord] ∧
      (s.shepherdOf 0 = s.shepherdOf s.coord → u.flag LNK_STATUS.tick_root = true) ∧ u.mem = s.mem) ∧
    (∀ coord job, exec (.takeover coord job) s =
      .next (if s.led then s.sampleOnce 4 36 (.row (.takeover coord job)) else s)) ∧
    (∀ (coord id dims : Word) (c : Ctx),
      let s1 := (((s.wn .LNK_JOB_ID 0 id.toNat).wn .LNK_JOB_DIMS 0 dims.toNat).wn .LNK_JOB_COORD 0 coord.toNat).put
        LNK_JOB_CTX.context 0 c.val
      s.joined = false → s1.jobSize ≤ 65536 → s1.coordOk coord.toNat = true →
      let u := s.handleRow (.takeover coord (some (id, dims, c)))
      u.joined = true ∧ u.rn .LNK_JOB_ID = id.toNat ∧
        u.rn .LNK_JOB_DIMS = dims.toNat ∧ u.coord = coord.toNat ∧ u.get LNK_JOB_CTX.context = c.val ∧ u.rn .LNK_TICK = 0) ∧
    (∀ coord : Word, s.joined = true → coord.toNat ≠ s.coord → let u := s.handleRow (.takeover coord none)
      coord.toNat ∈ u.sec.taken ∧ (∀ a ∈ u.sec.admitted, a.1 ≠ coord.toNat) ∧ u.mem = s.mem)

/-- R433: a peer write for this package is written for the job's context and acknowledged, or refused with ADDR_FAULT and nothing
written, or waits while a memory port holds it; one for another coordinate is sent on by its first hop, or refused where that
port cannot carry it. R434, R435, R480: the collective table loads from the tick after its count is written, with its first
bad entry found; an entry whose leash has barked runs once: its trigger value is subtracted and the run counted. Clauses that
rest on the model's own choices follow log entries 83, 95, 106, 132. Completion stated of: PEER_WRITE, COL_TABLE_LOAD,
COLLECTIVE_RUN, COL_TABLE_LOAD_COMPLETE. -/
def Obligations.PeerWritesAndCollectiveRuns : Prop :=
  (∀ (s : State) (src dst : Word) (addr : Nat) (bank : Fin 4) (data : List Byte), s.live = true →
    let refused : Prop := Completes (.peerWrite src dst addr bank data) s fun u =>
      u.out = s.out ++ [.peerAck src.toNat 0x08] ∧ u.mem = s.mem ∧ u.regs = (s.sendTo src.toNat (.peerAck src.toNat 0x08) 1 2).regs
    (∀ (c : Nat) (h : c < 31) (a : Nat) (s1 : State), dst.toNat = s.coord → s.jobCtx = some c → bank.val ≠ 3 →
      (if bank.val = 0 then some addr else s.bankAddr c addr data.length bank.val) = some a → a < hbmEnd →
      let w := s.writeNow (.agent ⟨c, h⟩) a data (bank.val = 2)
      (w = (s1, .ack) → Completes (.peerWrite src dst addr bank data) s fun u =>
        u.mem = s1.mem ∧ u.out = s1.out ++ [.peerAck src.toNat 0]) ∧
      (w = (s1, .held) → exec (.peerWrite src dst addr bank data) s = .next s) ∧
      (∀ st, w = (s1, .failed st) → Completes (.peerWrite src dst addr bank data) s fun u =>
        u.mem = s.mem ∧ u.out = s1.out ++ [.peerAck src.toNat 0x08])) ∧
    (dst.toNat = s.coord → s.jobCtx = none ∨ bank.val = 3 ∨ (bank.val = 0 ∧ hbmEnd ≤ addr) → refused) ∧
    (∀ r k, dst.toNat ≠ s.coord → s.firstHop dst.toNat = some r → s.portOf r = some k →
      (s.portUp k = true → s.portEth k = false → Completes (.peerWrite src dst addr bank data) s fun u =>
        u.out = s.out ++ [.relayed r] ∧ u.mem = s.mem) ∧
      (s.portUp k = false ∨ s.portEth k = true → refused))) ∧
  (∀ (s : State), s.live = true →
    let c := s.get LNK_JOB_CTX.context
    (∀ value : Word, s.decodes 0 = true →
      (s.sstate c = 0 → exec (.colTableLoad 0 value) s =
        .next ((s.wn .COL_TABLE_COUNT 0 (value.toNat % 2048)).sampleRow 9 64 (.colTableLoad 0 value))) ∧
      (s.sstate c ≠ 0 → exec (.colTableLoad 0 value) s = .next s)) ∧
    (∀ value : Word, let u := s.handleRow (.colTableLoad 0 value)
      u.get COL_STATUS.state = 1 ∧ u.lnk.table = [] ∧ u.rn .COL_TABLE_COUNT = s.rn .COL_TABLE_COUNT ∧ u.mem = s.mem ∧
      u.cores = s.cores) ∧
    (s.get COL_STATUS.state = 1 → ∀ s1 bs,
      let n := s.rn .COL_TABLE_COUNT
      let es := chunks 64 (min n 1024) bs
      s.engHeld c (s.rn .COL_TABLE_BASE) (64 * min n 1024) = false →
      s.engRead c (s.rn .COL_TABLE_BASE) (64 * min n 1024) = (s1, some bs) →
      (∀ b, (upto es.length).find? (fun i => !colEntryOk (es.getD i [])) = some b → Completes .colTableLoadComplete s fun u =>
        u.get COL_STATUS.state = 3 ∧ u.lnk = s1.lnk ∧ u.mem = s.mem) ∧
      ((upto es.length).find? (fun i => !colEntryOk (es.getD i [])) = none → n ≤ 1024 →
        s1.settingDiffers c 3 (Config.sha3 bs) = false → Completes .colTableLoadComplete s fun u =>
          u.get COL_STATUS.state = 2 ∧ u.lnk.table = es)) ∧
    (∀ (entry : Fin 1024) (e : List Byte), s.lnk.table[entry.val]? = some e →
      (entry.val ∈ s.lnk.barks → s.runWaits c e = false → Completes (.collectiveRun entry) s fun u =>
        u.lnk.barks = s.lnk.barks.filter (fun x => x ≠ entry.val) ∧ u.lnk.table = s.lnk.table ∧
        u.rn .COL_RUNS = min (s.rn .COL_RUNS + 1) (2 ^ 64 - 1) ∧ u.mem = s.mem ∧
        ∃ m, u.hrd.msgs = s.hrd.msgs ++ [m] ∧ m.ctx = c ∧ m.vid = clTrigVid e ∧ m.act = 1 ∧ m.count = clTrigValue e) ∧
      (entry.val ∉ s.lnk.barks ∨ s.runWaits c e = true → exec (.collectiveRun entry) s = .next s)))

/-- R431, R435, R441 to R443, R413: a chunk for another coordinate is relayed; one whose digest fails is counted and reported; one
of another step is zeroed and counted; one before its run waits; a result is written to memory or sent as a token once credit
is held, and parked while its context is pre-empted. Clauses that rest on the model's own choices follow log entries 106, 158,
167, 168. Completion stated of: PARKED_RESULT_ARRIVAL, COLLECTIVE_CHUNK, COLLECTIVE_COMPLETE. -/
def Obligations.CollectiveChunksAndResults : Prop :=
  ∀ (s : State), s.live = true →
    (∀ (c : Nat) (port : Fin 9) (dst : Word) (head payload : List Byte) (differ : Bool), s.jobCtx = some c → s.joined = true →
      (recNum head 0 4 ≠ s.rn .LNK_JOB_ID → exec (.collectiveChunk port dst head payload differ) s = .next s) ∧
      (∀ role, recNum head 0 4 = s.rn .LNK_JOB_ID → dst.toNat ≠ s.coord → s.firstHop dst.toNat = some role →
        Completes (.collectiveChunk port dst head payload differ) s fun u =>
          u.out = s.out ++ [.chunkTo dst.toNat role head payload] ∧ u.mem = s.mem) ∧
      (recNum head 0 4 = s.rn .LNK_JOB_ID → dst.toNat = s.coord →
        let good : Bool := !differ &&
          decide (recNum head 24 8 = (Config.crc64 (head.take 24 ++ List.replicate 8 0#8 ++ payload)).toNat)
        let layout := if s.sstate c = 5 then s.rn .CTX_PENDING_EPOCH c else s.rn .CTX_LAYOUT_EPOCH c
        let stale : Bool := decide (recNum head 8 4 ≠ s.rn .CTX_STEP c % 2 ^ 32) || decide (recNum head 12 4 ≠ layout)
        (s.runOf (hdEntry head) = none → Completes (.collectiveChunk port dst head payload differ) s fun u => u.mem = s.mem ∧
          u.lnk.early = s.lnk.early ++ [⟨head, if stale then List.replicate payload.length 0#8 else payload⟩] ∧
          u.rn .COL_EPOCH_STALE = min (s.rn .COL_EPOCH_STALE + if stale then 1 else 0) (2 ^ 64 - 1) ∧
          u.rn .COL_DIGEST_MISMATCH = min (s.rn .COL_DIGEST_MISMATCH + if good then 0 else 1) (2 ^ 64 - 1) ∧
          (good = true ∨ (u.flag COL_LAST_MISMATCH.valid = true ∧ ∃ e ∈ u.seq.sampled ++ u.seq.offered, e.ev = .digest c port.val))) ∧
        (∀ r, stale = false → s.runOf (hdEntry head) = some r → r.begun head = true → r.step = s.rn .CTX_STEP c % 2 ^ 32 →
          let s1 := if good then s else s.mismatch c port.val (hdEntry head % 1024) (hdSeg head) (hdSender head)
          exec (.collectiveChunk port dst head payload differ) s = .next ((if clOp r.img = 4 then
            s1.feedExchange r port.val head payload else s1.feedRun r head payload).takeEarly (s.lnk.early.length + 1))))) ∧
    (∀ (entry : Fin 1024) (r : ColRun) (bs : List Byte), s.runOf entry.val = some r → r.out = some bs → r.delivered = false →
      let c := s.get LNK_JOB_CTX.context
      let ended (u : State) : Prop := (∃ x, u.runOf entry.val = some x ∧ x.delivered = true) ∧
        ∃ m, u.hrd.msgs = s.hrd.msgs ++ [m] ∧ m.ctx = c ∧ m.vid = clDoneVid r.img ∧ m.act = 0 ∧ m.count = 1
      (clToken r.img = false → s.engHeld c (clDst r.img) bs.length true = true → exec (.collectiveComplete entry) s = .next s) ∧
      (clToken r.img = false → s.engHeld c (clDst r.img) bs.length true = false → Completes (.collectiveComplete entry) s fun u => ended u ∧ u.noc = s.noc ∧
        u.mem = (s.engWrite c (clDst r.img) bs).mem) ∧
      (clToken r.img = true → s.barksHeld c = true → r.parked = false → Completes (.collectiveComplete entry) s fun u =>
        (∃ x, u.runOf entry.val = some x ∧ x.parked = true) ∧ u.hrd.msgs = s.hrd.msgs ∧ u.mem = s.mem ∧ u.noc = s.noc ∧
        u.rn .COL_PARKED = min (s.rn .COL_PARKED + 1) (2 ^ 64 - 1)) ∧
      (∀ k op port tag, clToken r.img = true → s.barksHeld c = false → s.clTarget c r.img = (k, op, port, tag) →
        bs.length ≤ 1048512 → s.resultCredit c (s.resultToken c r.img bs) = true →
        let way := s.courierPath (s.resultToken c r.img bs).from_ (clusterOf k)
        (∀ w, way = some w → Completes (.collectiveComplete entry) s fun u => ended u ∧ u.mem = s.mem ∧
          ∃ t, u.noc.tokens = s.noc.tokens ++ [t] ∧ t.dst = k ∧ t.op = op ∧ t.port = port ∧ t.tag = tag ∧ bs <+: t.data) ∧
        (way = none → Completes (.collectiveComplete entry) s fun u => ended u ∧ u.mem = s.mem ∧ u.noc.tokens = s.noc.tokens)) ∧
      (∀ q v i k op port tag, s.ctx.preempts.find? (fun q => q.ctx = c) = some q → clToken r.img = true →
        s.get CTX_PSTATE.state c = 4 → s.clTarget c r.img = (k, op, port, tag) →
        q.saved.zipIdx.find? (fun x => x.1.region = regionOf k) = some (v, i) →
        s.engHeld c (s.rn .CTX_SAVE_BASE c + saveBlock * i + coreBlockOff (clusterOf k % 16) (lcoreOf k)) 0xC2000 true = false →
        Completes (.parkedResultArrival entry) s fun u => ended u ∧ u.noc = s.noc ∧ u.cores = s.cores ∧
          (r.parked = false → u.rn .COL_PARKED = min (s.rn .COL_PARKED + 1) (2 ^ 64 - 1))))

/-! ## Resilience -/

/-- R23, R25, R272, R273, R428, R457, R460: a fault report is sampled in the class of its unit, once; at its tick it is a strike
of that unit and its fence: the core's or router's bit with its self-test, the page's retirement, the stack's bit, the cores
or routers of a die, the lane, the port. Another report while the unit is fenced is a strike alone. Clauses that rest on the
model's own choices follow log entries 17, 40, 48, 107, 122. Completion stated of: FAULT_REPORT. -/
def Obligations.FaultReportsFenceUnits : Prop :=
  ∀ (s : State) (index : Nat) (cause : Fin 16), s.live = true →
    let struck (u : State) : Prop := u.rn .FLT_STRIKES = min (s.rn .FLT_STRIKES + 1) (2 ^ 64 - 1)
    let fresh (kind : Nat) : Prop := (kind, index) ∉ s.flt.testing ∧ s.unitFenced kind index = false ∧ unitOk kind index = true
    let done (kind : Nat) : State := s.applyEvent (.unit kind index cause.val)
    (∀ kind : Fin 8, unitOk kind.val index = true → exec (.faultReport kind index cause) s =
      .next (s.sampleOnce (unitEvent kind.val index).1 (unitEvent kind.val index).2 (.unit kind.val index cause.val))) ∧
    (∀ kind : Fin 8, unitOk kind.val index = false → exec (.faultReport kind index cause) s = .next s) ∧
    (fresh 0 → (done 0).fencedCore (index / 16) (index % 16) = true ∧ (0, index) ∈ (done 0).flt.testing ∧ struck (done 0) ∧
      (done 0).mem = s.mem) ∧
    (fresh 1 → (done 1).fencedRouter index = true ∧ (1, index) ∈ (done 1).flt.testing ∧ struck (done 1) ∧ (done 1).mem = s.mem ∧
      (done 1).goodCores index = []) ∧
    (unitOk 2 index = true → (index / 24576, index % 24576) ∈ (done 2).mt.retired ∧ struck (done 2)) ∧
    (fresh 3 → (done 3).stackFenced index = true ∧ struck (done 3)) ∧
    (fresh 4 → (done 4).unitFenced 4 index = true ∧ struck (done 4)) ∧
    (fresh 5 → (done 5).unitFenced 5 index = true ∧ (done 5).unitFenced 4 index = true ∧
      (∀ k, k < 4 → (done 5).stackFenced (4 * index + k) = true) ∧ struck (done 5)) ∧
    (index < 36 → bitAt ((done 6).get LNK_PORT_STATUS.lanes (index / 4)) (index % 4) = false ∧
      (done 6).rn .LNK_LANE_DROPS (index / 4) = min (s.rn .LNK_LANE_DROPS (index / 4) + 1) (2 ^ 64 - 1) ∧ (done 6).mem = s.mem) ∧
    (index < 9 → s.get LNK_PORT_STATUS.state index ≠ 0 → (done 7).get LNK_PORT_STATUS.state index = 0 ∧
      (done 7).get LNK_PORT_STATUS.lanes index = 0 ∧ (done 7).mem = s.mem) ∧
    (∀ kind, kind < 6 → kind ≠ 2 → unitOk kind index = true → s.unitFenced kind index = true → (kind, index) ∉ s.flt.testing →
      struck (done kind) ∧ (done kind).cores = s.cores ∧ (done kind).flt.testing = s.flt.testing ∧ (done kind).mem = s.mem) ∧
    (∀ kind, kind < 2 → unitOk kind index = true → (kind, index) ∈ s.flt.testing →
      struck (done kind) ∧ (kind, index) ∈ (done kind).flt.again ∧ (done kind).cores = s.cores ∧ (done kind).mem = s.mem)

/-- R460, R462, R484: a self-test that passes lifts a transient unit's fence, at once where its region is unbound and else when it
is; one that fails makes the unit permanent; software may fence any unit without a strike and have it tested again, by
commands that wait for their tick and are ignored while one is busy. R457, R459, R462: a decided record goes to both copies of
the log; a full log waits for its compaction, which keeps each unit's latest and the strikes of 720 hours; each service hour
the powered life is written and retries are counted anew. Clauses that rest on the model's own choices follow log entries 37,
110, 161. Completion stated of: FAULT_HISTORY_WRITE, FAULT_LOG_COMPACT, SERVICE_HOUR, SELF_TEST_COMPLETE, FENCE_LIFT,
SOFTWARE_FENCE, RETEST. -/
def Obligations.SelfTestsLiftsAndHistory : Prop :=
  (∀ (s : State), s.live = true →
    (∀ index : Nat, index < 4096 → (0, index) ∈ s.flt.testing → (0, index) ∉ s.flt.again → s.strikes 0 (fun i => i = index) < 3 →
      s.fencedCore (index / 16) (index % 16) = true →
      (s.rstate (index / 256) = 0 → OnceAtTick (.selfTestComplete 0 index true) s 6 index fun u =>
        u.fencedCore (index / 16) (index % 16) = false ∧ (0, index) ∉ u.flt.testing ∧
        u.rn .FLT_TRANSIENT = min (s.rn .FLT_TRANSIENT + 1) (2 ^ 64 - 1) ∧ u.mem = s.mem) ∧
      (s.rstate (index / 256) ≠ 0 → OnceAtTick (.selfTestComplete 0 index true) s 6 index fun u =>
        u.fencedCore (index / 16) (index % 16) = true ∧ u.flt.lifts = s.flt.lifts ++ [(0, index)] ∧ u.mem = s.mem)) ∧
    (∀ (kind : Fin 8) (index : Nat), (kind.val, index) ∈ s.flt.testing → s.unitFenced kind.val index = true →
      unitOk kind.val index = true → OnceAtTick (.selfTestComplete kind index false) s (unitEvent kind.val index).1
        (unitEvent kind.val index).2 fun u => u.unitFenced kind.val index = true ∧ (kind.val, index) ∉ u.flt.testing ∧
        u.rn .FLT_PERMANENT = min (s.rn .FLT_PERMANENT + 1) (2 ^ 64 - 1) ∧ u.mem = s.mem ∧
        ((kind.val, index) ∈ s.flt.retests → u.flag FLT_CMD_STATUS.busy = false ∧ u.get FLT_CMD_STATUS.status = 0)) ∧
    (∀ (kind : Fin 8) (index : Nat) (pass : Bool), ((kind.val, index) ∉ s.flt.testing ∨ unitOk kind.val index = false) →
      exec (.selfTestComplete kind index pass) s = .next s) ∧
    (∀ index : Nat, index < 4096 → (0, index) ∈ s.flt.lifts → s.rstate (index / 256) = 0 →
      OnceAtTick (.fenceLift 0 index) s 6 index fun u =>
        u.fencedCore (index / 16) (index % 16) = false ∧ (0, index) ∉ u.flt.lifts ∧ u.mem = s.mem) ∧
    (∀ index : Nat, index < 256 → (1, index) ∈ s.flt.lifts → s.rstate (index / 16) = 0 →
      OnceAtTick (.fenceLift 1 index) s 6 (4096 + index) fun u =>
        u.fencedRouter index = false ∧ (1, index) ∉ u.flt.lifts ∧ u.mem = s.mem) ∧
    (∀ (kind : Fin 8) (index : Nat), (kind.val, index) ∉ s.flt.lifts ∨ s.rstate (unitRegion kind.val index) ≠ 0 →
      exec (.fenceLift kind index) s = .next s) ∧
    (∀ (kind : Fin 16) (index : Fin 16777216), s.decodes 0 = true →
      (∀ c, c = .softwareFence 0 kind index ∨ c = .retest 0 kind index →
        (s.flag FLT_CMD_STATUS.busy = true → exec c s = .next s) ∧
        (s.flag FLT_CMD_STATUS.busy = false → exec c s = .next ((s.put FLT_CMD_STATUS.busy 0 1).sampleRow 9 64 c)) ∧
        (s.leads = false → (s.handleRow c).get FLT_CMD_STATUS.status = 0x1B ∧ (s.handleRow c).flt = s.flt) ∧
        (s.leads = true → unitOk kind.val index.val = false →
          (s.handleRow c).get FLT_CMD_STATUS.status = 0x04 ∧ (s.handleRow c).flt = s.flt)) ∧
      (s.leads = true → unitOk kind.val index.val = true →
        (let u := s.handleRow (.softwareFence 0 kind index)
         u.unitFenced kind.val index.val = true ∧ u.get FLT_CMD_STATUS.status = 0 ∧ u.flag FLT_CMD_STATUS.busy = false ∧
          (kind.val ≠ 6 → u.rn .FLT_STRIKES = s.rn .FLT_STRIKES)) ∧
        (let u := s.handleRow (.retest 0 kind index)
         ((kind.val, index.val) ∉ s.flt.testing → u.flt.testing = s.flt.testing ++ [(kind.val, index.val)] ∧
            u.flt.retests = s.flt.retests ++ [(kind.val, index.val)] ∧
            u.rn .FLT_SELFTESTS = min (s.rn .FLT_SELFTESTS + 1) (2 ^ 64 - 1) ∧ u.rn .FLT_STRIKES = s.rn .FLT_STRIKES ∧
            u.mem = s.mem) ∧
          ((kind.val, index.val) ∈ s.flt.testing → u.get FLT_CMD_STATUS.status = 0x02 ∧ u.flt = s.flt))))) ∧
  (∀ (s : State), s.live = true →
    (∀ r rest, s.flt.queue = r :: rest →
      (s.nor.logA.length < 131072 → Completes .faultHistoryWrite s fun u => u.flt = { s.flt with queue := rest } ∧
        u.nor = { s.nor with logA := s.nor.logA ++ [r], logB := s.nor.logB ++ [r] } ∧ u.mem = s.mem ∧ u.cores = s.cores) ∧
      (131072 ≤ s.nor.logA.length → exec .faultHistoryWrite s = .next (s.put FLT_STATUS.compacting 0 1))) ∧
    (131072 ≤ s.nor.logA.length → Completes .faultLogCompact s fun u => u.flag FLT_STATUS.compacting = false ∧
      u.nor.logA = compactLog (s.rn .FLT_SERVICE_S) s.nor.logA ∧ u.nor.logB = u.nor.logA ∧ u.flt = s.flt ∧ u.mem = s.mem) ∧
    (Completes .serviceHour s fun u => u.nor = { s.nor with service := s.rn .FLT_SERVICE_S } ∧ u.regs = s.regs ∧ u.mem = s.mem ∧
      ∀ k, k < 16 → spGet 0 u.flt.retry0 k = s.rn .MEM_RETRY_OK k))

/-- R469, R470, R482, R483: a member's failure record is a path of its shepherd, which pauses the job; it resumes when every path
has finished; a repair that takes too long becomes a takeover; ports and tick sync that stay down are reported. R471, R482:
the package of a ready coordinate begins its fill and its replicas push; the values are taken, and the fill goes on only if
the table digests agree; its end counts and answers the shepherd. Clauses that rest on the model's own choices follow log
entries 111, 112, 113, 162, 171. Completion stated of: FAILURE_RECORD, PAUSE, RESUME, REPAIR_TIMEOUT, PORT_DOWN_TIMEOUT,
FILL_READY, FILL_VALUES, FILL_COMPLETE, TICK_SYNC_TIMEOUT. -/
def Obligations.FailurePathsAndFills : Prop :=
  (∀ (s : State), s.live = true → s.joined = true → s.led = true →
    let busy := s.get FLT_JOB_STATE.state = 2 ∨ s.get FLT_JOB_STATE.state = 3
    (∀ (row : Fin 16) (src other : Word) (x y : Nat), s.flag LNK_STATUS.shepherd = true → s.coordOk src.toNat = true →
      s.sameFlock src.toNat s.coord = true → pathPauses row.val = true → row.val ≠ 10 → s.flt.paths = [] →
      Completes (.failureRecord row src other x y) s fun u => ∃ p, u.flt.paths = [p] ∧ p.row = row.val ∧ p.src = src.toNat ∧
        p.other = other.toNat ∧ p.tick = s.now ∧ (row.val = 3 → p.takeover = some src.toNat) ∧
        (row.val = 11 → p.takeover = some other.toNat) ∧ (¬ busy → u.get FLT_JOB_STATE.state = 1) ∧
        u.get FLT_JOB_STATE.path = row.val ∧ u.mem = s.mem ∧
        ∀ n, n < s.jobSize → s.unlinear n ≠ s.coord → s.sameFlock (s.unlinear n) s.coord = true →
          .pause (s.unlinear n) true ∈ u.out) ∧
    (∀ row : Fin 16, Completes (.pause row) s fun u => u.get FLT_JOB_STATE.path = row.val ∧
      (¬ busy → u.get FLT_JOB_STATE.state = 1) ∧ u.flt.paths = s.flt.paths ∧ u.mem = s.mem) ∧
    (s.flt.paths = [] → Completes (.resume none) s fun u => u.get FLT_JOB_STATE.path = 0 ∧ u.mem = s.mem ∧
      (s.get FLT_JOB_STATE.state = 1 → u.get FLT_JOB_STATE.state = if s.flt.replay then 4 else 0)) ∧
    (s.flt.paths ≠ [] → exec (.resume none) s = .next { s with flt := { s.flt with resumeHeld := true } }) ∧
    (∀ (a : Word) (p : FailPath), s.flt.paths = [p] → p.src = a.toNat → Completes (.resume (some a)) s fun u =>
      u.flt.paths = [] ∧ u.flt.resumeHeld = false ∧ u.get FLT_JOB_STATE.path = 0 ∧ u.mem = s.mem) ∧
    (∀ (a : Word) (p q : FailPath) (l : List FailPath), s.flt.paths = p :: q :: l → p.src = a.toNat →
      Completes (.resume (some a)) s fun u => u.flt.paths = q :: l ∧ u.flt.resumeHeld = true ∧ u.mem = s.mem ∧
        u.get FLT_JOB_STATE.state = s.get FLT_JOB_STATE.state) ∧
    (∀ (src : Word) (p : FailPath), p ∈ s.flt.paths → p.row = 2 → p.src = src.toNat → p.takeover = none →
      let t := p.tick + 6250000 * max 1 (min 3600 (s.get FLT_REPAIR_TIMEOUT.seconds))
      (t ≤ s.now + 1 → exec (.repairTimeout src) s = .next (s.sampleOnce 11 0 (.row (.repairTimeout src)))) ∧
      (t ≤ s.now → let u := s.handleRow (.repairTimeout src)
        { p with takeover := some p.src } ∈ u.flt.paths ∧ u.flt.paths.length = s.flt.paths.length ∧ u.regs = s.regs ∧
        u.mem = s.mem)) ∧
    (∀ src : Word, (∀ p ∈ s.flt.paths, p.src ≠ src.toNat ∨ p.row ≠ 2) → exec (.repairTimeout src) s = .next s) ∧
    (∀ (port : Fin 9) (t : Nat), (s.port port.val).down = some t → s.get LNK_PORT_CFG.role port.val < 8 →
      s.untrained (s.get LNK_PORT_CFG.role port.val) = false → s.portUp port.val = false → t + 6250000 ≤ s.now →
      Completes (.portDownTimeout port) s fun u => u.out = s.out ++ [.failure 10 s.coord] ∧ (u.port port.val).down = none ∧
        u.flt = s.flt ∧ u.cores = s.cores ∧ u.mem = s.mem) ∧
    (s.flag LNK_STATUS.sync_lost = true → s.lnk.lostTick + 6250000 ≤ s.now → Completes .tickSyncTimeout s fun u =>
      u.lnk.lostTick = s.now ∧ u.out = s.out ++ [.failure 12 s.coord] ∧ u.flt = s.flt ∧ u.mem = s.mem)) ∧
  (∀ (s : State) (c : Nat), s.live = true → s.led = true → s.jobCtx = some c →
    (s.listHeld c = true → (∀ coord live, exec (.fillReady coord live) s = .next s) ∧
      (∀ seed step tagBase layout digests, exec (.fillValues seed step tagBase layout digests) s = .next s)) ∧
    (∀ (coord : Word) (live : List Word), s.joined = true → s.coordOk coord.toNat = true → s.sstate c = 0 → s.listHeld c = false →
      let lv := ((s.replicas coord.toNat).filter fun x => decide (x ∈ live.map BitVec.toNat)).filter (fun x => x ≠ coord.toNat)
      (lv ≠ [] → coord.toNat = s.coord → Completes (.fillReady coord live) s fun u => u.flt.fill = some s.now ∧
        u.flt.fillValues = false ∧ u.get FLT_JOB_STATE.state = 2 ∧ u.flag FCH_MODE.deadline = true ∧
        u.out = s.out ++ [.ready (s.shepherdOf coord.toNat)] ∧ u.mem = s.mem) ∧
      (lv.head? = some s.coord → coord.toNat ≠ s.coord → Completes (.fillReady coord live) s fun u =>
        .fillValues coord.toNat (s.fillBytes c) ∈ u.out ∧ u.flt = s.flt ∧ u.mem = s.mem) ∧
      (lv = [] → s.judges coord.toNat = true → s.fullSlots = [] → Completes (.fillReady coord live) s fun u =>
        u.out = s.out ++ [.lostReport coord.toNat] ∧ u.mem = s.mem)) ∧
    (∀ (t0 : Nat) (seed step : DWord) (tagBase : Tag) (layout : Word) (digests : List (List Byte)), s.flt.fill = some t0 → s.listHeld c = false →
      let s1 := s.setValues c seed.toNat step.toNat tagBase.toNat layout.toNat
      let set_ (u : State) : Prop := u.rd .NUM_CTX_SEED c = seed ∧ u.rd .CTX_STEP c = step ∧
        u.get CTX_TAG_BASE.base c = tagBase.toNat ∧ u.rn .CTX_LAYOUT_EPOCH c = layout.toNat ∧ u.mem = s.mem
      (digests = s1.tableDigests c → Completes (.fillValues seed step tagBase layout digests) s fun u => set_ u ∧
        u.flt.fillValues = true ∧ u.flt.fill = some t0) ∧
      (digests ≠ s1.tableDigests c → Completes (.fillValues seed step tagBase layout digests) s fun u => set_ u ∧
        u.flt.fill = none ∧ u.out = s.out ++ [.fillResult s.coord 0x04])) ∧
    (∀ t0, s.flt.fill = some t0 → s.flt.fillValues = true → Completes .fillComplete s fun u => u.flt.fill = none ∧
      u.get FLT_JOB_STATE.state = 1 ∧ u.rn .SNP_FILLS = min (s.rn .SNP_FILLS + 1) (2 ^ 64 - 1) ∧
      u.out = s.out ++ [.fillResult s.coord 0] ∧ u.mem = s.mem))

/-! ## Security -/

/-- R41, R510, R513, R517 to R519: a key command is taken while none is in progress. At its tick a key is enrolled while the key
set is open, refused once it is locked, and waits while its read is held; the lock extends M4 of both halves; SVN_COMMIT
raises the fuse to the images' version; a violation, handled in class 1, erases keys, halts what computes and ends staging.
Clauses that rest on the model's own choices follow log entries 40, 101, 105, 123, 171. Completion stated of: ENROL,
SVN_COMMIT, KEY_LOCK, SECURITY_VIOLATION. -/
def Obligations.SecurityKeysAndViolations : Prop :=
  ∀ (s : State), s.live = true → s.decodes 0 = true →
    (∀ cmd ∈ [(.enrol 0 : Instr), .svnCommit 0], (s.flag SEC_KEY_STATUS.busy = true → exec cmd s = .next s) ∧
      (s.flag SEC_KEY_STATUS.busy = false → exec cmd s = .next ((s.put SEC_KEY_STATUS.busy 0 1).sampleRow 9 64 cmd))) ∧
    (let u := s.handleRow (.enrol 0)
     (s.leads = false → u.get SEC_KEY_STATUS.status = 0x1B ∧ u.sec = s.sec) ∧
     (s.leads = true →
      (s.flag SEC_STATUS.key_lock = true → u.get SEC_KEY_STATUS.status = 0x02 ∧ u.sec = s.sec) ∧
      (s.flag SEC_STATUS.key_lock = false → 16 ≤ s.sec.keys.length → u.get SEC_KEY_STATUS.status = 0x03 ∧ u.sec = s.sec) ∧
      (∀ s1 bs, s.flag SEC_STATUS.key_lock = false → s.sec.keys.length < 16 →
        s.readNow .engine (s.rn .SEC_KEY_ADDR) 2624 = (s1, .data bs) →
          u.sec.keys = s.sec.keys ++ [bs.take 2592] ∧ u.get SEC_STATUS.keys = s.sec.keys.length + 1 ∧
          u.get SEC_KEY_STATUS.status = 0 ∧ u.flag SEC_KEY_STATUS.busy = false ∧ u.mem = s.mem ∧ u.cores = s.cores) ∧
      (∀ s1, s.flag SEC_STATUS.key_lock = false → s.sec.keys.length < 16 →
        s.readNow .engine (s.rn .SEC_KEY_ADDR) 2624 = (s1, .held) → u = s1.sampleRow 9 64 (.enrol 0)))) ∧
    (let u := s.handleRow (.svnCommit 0)
     s.leads = true → u.mem = s.mem ∧
        u.fuse = (if Config.imageSvn (s.image 0) = Config.imageSvn (s.image 1) then
          { s.fuse with svn := max s.fuse.svn (min 64 (Config.imageSvn (s.image 0))) } else s.fuse) ∧
        u.get SEC_KEY_STATUS.status = if Config.imageSvn (s.image 0) = Config.imageSvn (s.image 1) then 0x00 else 0x02) ∧
    (s.flag SEC_STATUS.key_lock = false → AtTick (.keyLock 0) s 9 64 fun u => u.flag SEC_STATUS.key_lock = true ∧
      u.sec.keys = s.sec.keys ∧ u.mem = s.mem ∧
      u.meas 0 4 = Config.sha3 (s.meas 0 4 ++ Config.sha3 s.sec.keys.flatten) ∧
      u.meas 1 4 = Config.sha3 (s.meas 1 4 ++ Config.sha3 s.sec.keys.flatten) ∧
      (∀ h m, h < 2 → m < 8 → m ≠ 4 → u.meas h m = s.meas h m)) ∧
    (s.flag SEC_STATUS.key_lock = true → AtTick (.keyLock 0) s 9 64 fun u => u = s) ∧
    (∀ half : Fin 2, exec (.securityViolation half) s = .next (s.sample 1 half.val (.violation half.val)) ∧
      let u := s.applyEvent (.violation half.val)
      u.flag SEC_STATUS.violated = true ∧ u.sec.erased = true ∧
      u.rn .SEC_VIOLATIONS = min (s.rn .SEC_VIOLATIONS + 1) (2 ^ 64 - 1) ∧
      u.nor.violations = s.nor.violations + 1 ∧ u.bnd.staging = [] ∧ u.mgt.update = none ∧ u.mem = s.mem ∧
      (∀ p : Region, s.runs p.val = true → u.rstate p.val = 4))

/-- R511, R512, R517: the responder of the lead half answers each request with its body, signed where the request asks for it; an
index, slot or offer it does not have, and every request after a violation, is an error; a transcript that spans a lead change
is not ready until it begins anew. Clauses that rest on the model's own choices follow log entries 104, 105. Completion stated
of: GET_VERSION, GET_CAPABILITIES, NEGOTIATE_ALGORITHMS, GET_DIGESTS, GET_CERTIFICATE, CHALLENGE, GET_MEASUREMENTS. -/
def Obligations.SpdmResponses : Prop :=
  ∀ (s : State), s.live = true →
    let sends (c : Instr) (o : Output) : Prop := exec c s = .next { s with out := s.out ++ [o] }
    let tells (c : Instr) (code : Nat) (ok : Bool) (body : List Byte) : Prop :=
      (s.spdmOk = false → sends c (.spdm 0xFF [])) ∧
      (s.spdmOk = true → s.sec.spans = true → code ≠ 0 → code ≠ 3 → sends c .mctpNotReady) ∧
      (s.spdmOk = true → s.sec.spans = false ∨ code = 0 ∨ code = 3 →
        (ok = true → exec c s = .next { s with
          sec := { s.sec with transcript := true, spans := false }, out := s.out ++ [.spdm code body] }) ∧
        (ok = false → sends c (.spdm 0xFF [])))
    tells .getVersion 0 true [0x13#8] ∧
    tells .getCapabilities 1 true (label "CERT CHAL MEAS_SIG") ∧
    (∀ a b, tells (.negotiateAlgorithms a b) 2 (a && b) (label "ML-DSA-87 SHA3-512")) ∧
    tells .getDigests 3 true (Config.sha3 s.certChain) ∧
    (∀ slot offset len, tells (.getCertificate slot offset len) 4 (decide (slot = 0)) ((s.certChain.drop offset).take len)) ∧
    (∀ slot req, tells (.challenge slot req) 5 (decide (slot = 0)) (s.signed req (Config.sha3 s.certChain ++ s.measAll))) ∧
    (∀ (i : Byte) req, 1 ≤ i.toNat → i.toNat ≤ 6 →
      tells (.getMeasurements i false req) 6 true (s.meas s.leadHalf (i.toNat - 1)) ∧
      tells (.getMeasurements i true req) 6 true (s.signed req (s.meas s.leadHalf (i.toNat - 1)))) ∧
    (∀ req, tells (.getMeasurements 0xFF#8 false req) 6 true s.measAll ∧
      tells (.getMeasurements 0xFF#8 true req) 6 true (s.signed req s.measAll)) ∧
    (∀ (i : Byte) sign req, i.toNat = 0 ∨ (6 < i.toNat ∧ i.toNat < 255) → tells (.getMeasurements i sign req) 6 false [])

/-- R515, R516: the expected-identity table is loaded at a tick, and waits while its read is held; a shepherd challenges a
coordinate with a nonce and admits or holds it by its answer; a package that stays silent is held with reason 5; a challenged
package answers with its chain and signature. Clauses that rest on the model's own choices follow log entries 3, 41, 103, 162.
Completion stated of: EXPECT_TABLE_LOAD, IDENTITY_CHALLENGE, CHALLENGE_RESPONSE, CHALLENGE_SILENT_TIMEOUT,
EXPECT_TABLE_LOAD_COMPLETE. -/
def Obligations.IdentityAdmission : Prop :=
  ∀ (s : State), s.live = true →
    (∀ value : Word, (s.decodes 0 = true → exec (.expectTableLoad 0 value) s =
        .next ((s.put SEC_EXPECT_COUNT.count 0 (value.toNat % 2048)).sampleRow 9 64 (.expectTableLoad 0 value))) ∧
      s.handleRow (.expectTableLoad 0 value) = { s with sec := { s.sec with loading := true } }) ∧
    (s.sec.loading = true →
      let n := min 1024 (s.get SEC_EXPECT_COUNT.count)
      (n = 0 → Completes .expectTableLoadComplete s fun u =>
        u.sec.expect = [] ∧ u.sec.loading = false ∧ u.sec.rejudge = true ∧ u.mem = s.mem) ∧
      (∀ s1 bs, n ≠ 0 → s.readNow .engine (s.rn .SEC_EXPECT_BASE) (pad64 (80 * n)) = (s1, .data bs) →
        Completes .expectTableLoadComplete s fun u =>
          u.sec.expect = chunks 80 n bs ∧ u.sec.loading = false ∧ u.sec.rejudge = true ∧ u.mem = s.mem) ∧
      (∀ s1, n ≠ 0 → s.readNow .engine (s.rn .SEC_EXPECT_BASE) (pad64 (80 * n)) = (s1, .held) →
        exec .expectTableLoadComplete s = .next s)) ∧
    (∀ coord : Word,
      let c := coord.toNat
      (s.judges c = true → s.led = true → Completes (.identityChallenge coord none) s fun u => c ∈ u.sec.asked ∧
        (∃ n, u.out = s.out ++ [.nonce c n] ∧ n.length = 32) ∧ u.fresh = s.fresh + 1 ∧
        u.rn .SEC_CHALLENGES = min (s.rn .SEC_CHALLENGES + 1) (2 ^ 64 - 1) ∧ u.mem = s.mem) ∧
      (∀ n, Completes (.identityChallenge coord (some n)) s fun u => u.mem = s.mem ∧ u.sec = s.sec ∧
        u.out = s.out ++ [if s.spdmOk then .identityResponse s.nor.chain
          (Config.mldsaSign s.deviceSeed (n ++ natLe 4 (s.rn .LNK_JOB_ID) ++ natLe 4 s.coord)) else .identityResponse [] []]) ∧
      (∀ digest good, s.judges c = true → c ∈ s.sec.asked →
        (s.holdReason c digest good = 0 → Completes (.challengeResponse coord digest good) s fun u =>
          (c, digest) ∈ u.sec.admitted ∧ (∀ h ∈ u.sec.held, h.coord ≠ c) ∧ c ∉ u.sec.asked ∧ u.mem = s.mem) ∧
        (s.holdReason c digest good ≠ 0 → Completes (.challengeResponse coord digest good) s fun u =>
          (∃ h ∈ u.sec.held, h.coord = c ∧ h.digest = digest ∧ h.good = good) ∧ (∀ a ∈ u.sec.admitted, a.1 ≠ c) ∧
          .heldReport c (s.holdReason c digest good) ∈ u.out ∧ u.flag SEC_LAST_HELD.valid = true ∧ u.mem = s.mem)) ∧
      (∀ digest good, s.judges c = true → c ∉ s.sec.asked → exec (.challengeResponse coord digest good) s = .next s) ∧
      (∀ digest, s.judges c = false →
        (Completes (.challengeResponse coord digest true) s fun u => (c, digest) ∈ u.sec.admitted ∧ u.mem = s.mem) ∧
        (Completes (.challengeResponse coord digest false) s fun u => ∃ h ∈ u.sec.held, h.coord = c ∧ h.digest = digest)) ∧
      (c ∈ s.sec.asked → Completes (.challengeSilentTimeout coord) s fun u => .heldReport c 5 ∈ u.out ∧
        (∀ a ∈ u.sec.admitted, a.1 ≠ c) ∧ (∃ h ∈ u.sec.held, h.coord = c ∧ h.good = false) ∧
        u.rn .SEC_HELD = min (s.rn .SEC_HELD + 1) (2 ^ 64 - 1) ∧ u.mem = s.mem))

/-! ## Power, management and host -/

/-- R526 to R531, R534: a sensor below its limit drops a region's sag level to 22 or 16 and half microseconds raise it; SAG_IN_N
bounds it; peak power drops every peak level to 22; the power target moves the caps by one each millisecond between 16 and 32;
a die at its target temperature loses one thermal level each reading; energies add up. The level in force is the least of the
four. Clauses that rest on the model's own choices follow log entries 41, 117. Completion stated of: SAG_SENSOR_LOW,
SAG_LEVEL_RISE, SAG_IN_FALL, SAG_IN_RISE, PEAK_POWER, PEAK_RECOVERY, POWER_TARGET_COMPARE, THERMAL_LEVEL_UPDATE, ENERGY_TICK. -/
def Obligations.StretchLevelsFollowReadings : Prop :=
  ∀ (s : State), s.live = true →
    let sag (u : State) (p : Nat) : Nat := u.get PWR_REGION_ACLK.sag p
    let least (u : State) (p : Nat) : Nat := min (min (u.get PWR_REGION_ACLK.sag p) (u.get PWR_REGION_ACLK.cap p))
      (min (u.get PWR_REGION_ACLK.thermal p) (u.get PWR_REGION_ACLK.peak p))
    let shown (u : State) (p : Nat) : Prop := u.get PWR_REGION_ACLK.level p = if s.pwr.released then least u p else 16
    let same (u : State) : Prop := u.mem = s.mem ∧ u.cores = s.cores ∧ u.mt = s.mt
    (∀ (p : Region) (deep : Bool),
      ((if deep then 16 else 22) < sag s p.val → Completes (.sagSensorLow p deep) s fun u =>
        sag u p.val = (if deep then 16 else 22) ∧ shown u p.val ∧ same u ∧
        u.rn .PWR_REGION_SAG_EVENTS p.val = min (s.rn .PWR_REGION_SAG_EVENTS p.val + 1) (2 ^ 64 - 1)) ∧
      (sag s p.val ≤ (if deep then 16 else 22) → exec (.sagSensorLow p deep) s = .next s) ∧
      (sag s p.val < s.sagTop → Completes (.sagLevelRise p) s fun u => sag u p.val = sag s p.val + 1 ∧ shown u p.val ∧ same u) ∧
      (s.sagTop ≤ sag s p.val → exec (.sagLevelRise p) s = .next s)) ∧
    (Completes .sagInFall s fun u => u.flag PWR_STATUS.sag_in = true ∧ u.flag PWR_ALERT.sag_in = true ∧ same u ∧
      ∀ p, p < 16 → sag u p = min (sag s p) (max 16 (min 31 (s.limit PWR_SAG.in_level)))) ∧
    (Completes .sagInRise s fun u => u.flag PWR_STATUS.sag_in = false ∧ same u ∧ ∀ p, sag u p = sag s p) ∧
    (Completes .peakPower s fun u => u.flag PWR_ALERT.peak = true ∧ u.flag PWR_STATUS.peak = true ∧ same u ∧
      ∀ p, p < 16 → u.get PWR_REGION_ACLK.peak p = min 22 (s.get PWR_REGION_ACLK.peak p) ∧ shown u p) ∧
    (Completes .peakRecovery s fun u => same u ∧
      ∀ p, p < 16 → u.get PWR_REGION_ACLK.peak p = min 32 (s.get PWR_REGION_ACLK.peak p + 1) ∧ shown u p) ∧
    (∀ mean : Nat, Completes (.powerTargetCompare mean) s fun u => u.get PWR_POWER.watts = min 8191 mean ∧ same u ∧
      ∀ p, p < 16 →
        (max 1800 (min 3200 (s.limit PWR_TARGET.watts)) < mean → s.limit PWR_TARGET.reserve_first = 0 →
          u.get PWR_REGION_ACLK.cap p = max 16 (s.get PWR_REGION_ACLK.cap p - 1) ∧ shown u p) ∧
        (100 * mean < 98 * max 1800 (min 3200 (s.limit PWR_TARGET.watts)) → 9 ≤ s.pwr.underMs →
          u.get PWR_REGION_ACLK.cap p = min 32 (s.get PWR_REGION_ACLK.cap p + 1) ∧ shown u p) ∧
        (mean ≤ max 1800 (min 3200 (s.limit PWR_TARGET.watts)) → 98 * max 1800 (min 3200 (s.limit PWR_TARGET.watts)) ≤ 100 * mean →
          u.get PWR_REGION_ACLK.cap p = s.get PWR_REGION_ACLK.cap p)) ∧
    (∀ temps : List Byte, Completes (.thermalLevelUpdate temps) s fun u => same u ∧
      (∀ i, i < 20 → u.get PWR_TEMP.celsius i = (temps.getD i 0#8).toNat) ∧
      ∀ p, p < 16 →
        let t := (temps.getD (p / 4) 0#8).toInt
        let target : Int := Int.ofNat (max 85 (min 103 (s.limit PWR_TJ.target)))
        (target ≤ t → u.get PWR_REGION_ACLK.thermal p = max 16 (s.get PWR_REGION_ACLK.thermal p - 1) ∧ shown u p) ∧
        (t < target - 2 → 9 ≤ spGet 0 s.pwr.coolMs (p / 4) →
          u.get PWR_REGION_ACLK.thermal p = min 32 (s.get PWR_REGION_ACLK.thermal p + 1) ∧ shown u p)) ∧
    (∀ rails core base : List Nat, Completes (.energyTick rails core base) s fun u => same u ∧
      (∀ r, r < 17 → u.rn .PWR_RAIL_ENERGY_UJ r = min (s.rn .PWR_RAIL_ENERGY_UJ r + rails.getD r 0) (2 ^ 64 - 1)) ∧
      (∀ p, p < 16 → p / 4 ∉ s.pwr.rails → u.rn .PWR_REGION_ENERGY_UJ p =
        min (s.rn .PWR_REGION_ENERGY_UJ p + (core.getD p 0 + base.getD p 0)) (2 ^ 64 - 1)))

/-- R485, R488 to R492: a claim with a later term takes a free or lapsed lease, a renewal extends it, a release or the lead's own
expiry ends the lead, whose commands complete with NOT_LEAD but for those that wait for their tick; a granted claim becomes a
lead change; a faulted half restarts; two milliseconds without a lead halt every region. Clauses that rest on the model's own
choices follow log entries 40, 119, 120, 137, 171. Completion stated of: LEASE_CLAIM, LEASE_RENEW, LEASE_RELEASE,
LEASE_RENEW_TIMER, LEAD_EXPIRY, LEASE_POLL, LEAD_CHANGE, MGMT_FAULT, MGMT_WATCHDOG_EXPIRY, HALF_READY, NO_LEAD_TIMEOUT,
STARTUP_LEAD_TIMEOUT. -/
def Obligations.LeaseAndLeadChange : Prop :=
  ∀ (s : State), s.live = true →
    let same (u : State) : Prop := u.mem = s.mem ∧ u.mt = s.mt
    let refused (u : State) : Prop := u.led = false ∧ ∀ c : Ctx,
      (u.ring c.val).taken = (s.ring c.val).taken.filter (s.waitsForTick c.val) ∧
      (u.ring c.val).queue = (s.ring c.val).queue ++ ((s.ring c.val).taken.filter fun t => !s.waitsForTick c.val t).map fun t =>
        { kind := 0, status := 0x1B, aux := t.opcode, tag := t.cookie.toNat, irq := t.irq }
    let granted (u : State) (half : Fin 2) (t : Word) (cyc : Fin 16) : Prop :=
      u.mgt.holder = some half.val ∧ u.mgt.expiry = s.tclk cyc.val + 100000 ∧ u.rn .MGT_TERM = t.toNat ∧
      u.seq = ({ s.seq with sampled := s.seq.sampled.filter fun e => e.ev ≠ .leadChange (1 - half.val) } : SeqState).add
        ⟨3, 0, dieOf 3 0, .leadChange half.val⟩ ∧ same u ∧ u.cores = s.cores
    (∀ (half : Fin 2) (term : Word) (cyc : Fin 16),
      (s.ready half.val = true → s.arbiterUp = true → s.leaseFree cyc.val = true →
        (termAfter term (BitVec.ofNat 32 (s.rn .MGT_TERM)) = true →
          Completes (.leaseClaim half term cyc) s fun u => granted u half term cyc) ∧
        (termAfter term (BitVec.ofNat 32 (s.rn .MGT_TERM)) = false → exec (.leaseClaim half term cyc) s = .next s) ∧
        ((s.led = false ∨ s.leadHalf ≠ half.val) → Completes (.leasePoll half cyc) s fun u =>
          granted u half (BitVec.ofNat 32 (s.rn .MGT_TERM) + 1) cyc)) ∧
      (s.ready half.val = true → s.arbiterUp = true → s.claimTies half.val term cyc.val = true →
        Completes (.leaseClaim half term cyc) s fun u => granted u half term cyc) ∧
      (s.leaseFree cyc.val = false → s.claimTies half.val term cyc.val = false → exec (.leaseClaim half term cyc) s = .next s) ∧
      (s.ready half.val = false ∨ s.arbiterUp = false → exec (.leaseClaim half term cyc) s = .next s ∧
        exec (.leasePoll half cyc) s = .next s) ∧
      (s.arbiterUp = true → s.mgt.holder = some half.val → term.toNat = s.rn .MGT_TERM →
        exec (.leaseRenew half term cyc) s = .next (s.setMgt { s.mgt with
          expiry := s.tclk cyc.val + 100000, leadExpiry := s.mgt.renewSent + 100000 })) ∧
      (s.led = true → exec (.leaseRenewTimer cyc) s = .next (s.setMgt { s.mgt with renewSent := s.tclk cyc.val }))) ∧
    (∀ half : Fin 2, s.arbiterUp = true → s.mgt.holder = some half.val → Completes (.leaseRelease half) s fun u =>
      u.mgt.holder = none ∧ u.rn .MGT_TERM = s.rn .MGT_TERM ∧ same u ∧
      (s.led = true → s.leadHalf = half.val → refused u)) ∧
    (s.led = true → s.mgt.leadExpiry ≤ s.tclk 0 → Completes .leadExpiry s fun u => refused u ∧ u.mgt.idle = s.now ∧ same u) ∧
    (s.tclk 0 < s.mgt.leadExpiry → exec .leadExpiry s = .next s) ∧
    (∀ (half : Fin 2) (d : Nat), s.seq = { sampled := [⟨3, 0, d, .leadChange half.val⟩] } → s.mgt.holder = some half.val →
      Completes (.leadChange half) s fun u => u.led = true ∧ u.leadHalf = half.val ∧ u.pwr.released = true ∧
        u.seq = { turned := true } ∧ u.flt = s.flt ∧ u.rn .MGT_LEAD_CHANGES = min (s.rn .MGT_LEAD_CHANGES + 1) (2 ^ 64 - 1) ∧
        u.rn .MGT_CLASS_EVENTS 3 = min (s.rn .MGT_CLASS_EVENTS 3 + 1) (2 ^ 64 - 1) ∧ same u) ∧
    (∀ (half : Fin 2) (d : Nat),
      exec (.mgmtFault half) s = .next (s.sampleOnce 2 half.val (.mgmtFault half.val)) ∧
      (s.ready half.val = true → exec (.mgmtWatchdogExpiry half) s = .next (s.sampleOnce 2 half.val (.mgmtFault half.val))) ∧
      (s.ready half.val = false → exec (.mgmtWatchdogExpiry half) s = .next s) ∧
      let u := s.handleEvent ⟨2, half.val, d, .mgmtFault half.val⟩
      u.ready half.val = false ∧ u.mgt.holder ≠ some half.val ∧
        u.rn .MGT_MGMT_FAULTS = min (s.rn .MGT_MGMT_FAULTS + 1) (2 ^ 64 - 1) ∧
        u.rn .MGT_CLASS_EVENTS 2 = min (s.rn .MGT_CLASS_EVENTS 2 + 1) (2 ^ 64 - 1) ∧ same u) ∧
    (∀ half : Fin 2, half.val ∈ s.mgt.up → s.ready half.val = false → s.mgt.update = none →
      Completes (.halfReady half) s fun u => u.ready half.val = true ∧ u.ready (1 - half.val) = s.ready (1 - half.val) ∧ same u) ∧
    (s.led = false → 0 < s.rn .MGT_LEAD_CHANGES → s.mgt.idle + 12500 ≤ s.now → s.offlineRestart = false → s.mgt.noLead = false →
      OnceAtTick .noLeadTimeout s 11 0 fun u => u.mgt.noLead = true ∧ same u ∧ ∀ p : Region, s.runs p.val = true → u.rstate p.val = 4) ∧
    (s.led = false → s.rn .MGT_LEAD_CHANGES = 0 → 0 ∈ s.mgt.up → 1 ∈ s.mgt.up → s.mgt.upTick + 62500 ≤ s.now →
      exec .startupLeadTimeout s = .next (s.setMgt { s.mgt with noLead := true }))

/-- R487, R500 to R503: an update is taken with a good image or turned away with its status; the half that did not lead writes its
other slot and restarts into it, a bad signature erases it, a half that is late or faults falls back; HANDOVER releases the
lease; an MCTP request reaches the lead of its term; a stack's PHY holds its port while it recalibrates. Clauses that rest on
the model's own choices follow log entries 40, 41, 101, 118, 129, 133. Completion stated of: MCTP_REQUEST, FW_UPDATE,
HANDOVER, FW_COPY_COMPLETE, FW_READY_TIMEOUT, FW_PROBATION_FAULT, HBM_PHY_RECAL, FOLLOWER_SELF_TEST, HBM_PHY_RECAL_COMPLETE. -/
def Obligations.FirmwareUpdatesAndRequests : Prop :=
  ∀ (s : State), s.live = true →
    (s.decodes 0 = true → ∀ c, (∃ off, c = .fwUpdate 0 off) ∨ c = .handover 0 →
      (s.flag MGT_FW_STATUS.busy = true → exec c s = .next s) ∧
      (s.flag MGT_FW_STATUS.busy = false → exec c s = .next ((s.put MGT_FW_STATUS.busy 0 1).sampleRow 9 64 c)) ∧
      (s.leads = false → (s.handleRow c).get MGT_FW_STATUS.status = 0x1B ∧ (s.handleRow c).flag MGT_FW_STATUS.busy = false ∧
        (s.handleRow c).mgt = s.mgt)) ∧
    (s.leads = true →
      let n := s.get MGT_FW_LEN.bytes
      (∀ off, let u := s.handleRow (.fwUpdate 0 off)
        (s.flag SEC_STATUS.violated = true → u.get MGT_FW_STATUS.status = 0x1C ∧ u.mgt = s.mgt) ∧
        (s.flag SEC_STATUS.violated = false → (n = 0 ∨ 33554432 < n) → u.get MGT_FW_STATUS.status = 0x04 ∧ u.mgt = s.mgt) ∧
        (∀ s1 r, s.flag SEC_STATUS.violated = false → 0 < n → n ≤ 33554432 →
          s.readNow .engine (s.rn .MGT_FW_IMAGE) (ceilDiv n 64 * 64) = (s1, r) →
          (∀ st, r = .failed st → u.get MGT_FW_STATUS.status = st % 256 ∧ u.mgt = s1.mgt) ∧
          (r = .held → u = s1.sampleRow 9 64 (.fwUpdate 0 off)) ∧
          (∀ bs, r = .data bs → Config.imageMirror (bs.take n) = Config.imageMirror (s1.image s1.leadHalf) →
            (∃ x, u.mgt.update = some x ∧ x.image = bs.take n ∧ x.first = 1 - s1.leadHalf ∧ x.mctp = false) ∧
            u.get MGT_FW_STATUS.stage = 1 ∧ u.flag MGT_FW_STATUS.busy = true ∧ u.nor = s1.nor ∧ u.mem = s1.mem))) ∧
      (let u := s.handleRow (.handover 0)
       (s.ready (1 - s.leadHalf) = false → u.get MGT_FW_STATUS.status = 0x02 ∧ u.mgt = s.mgt) ∧
       (s.ready (1 - s.leadHalf) = true → s.mgt.holder = some s.leadHalf →
        u.get MGT_FW_STATUS.stage = 3 ∧ u.flag MGT_FW_STATUS.busy = true ∧ u.mgt.holder = none ∧ u.led = false))) ∧
    (∀ (half : Fin 2) (x : FwUpdate), s.mgt.update = some x →
      let h := half.val
      (x.offline = false → s.get MGT_FW_STATUS.stage = 1 → h = x.first →
        (Completes (.fwCopyComplete half true) s fun u => u.get MGT_FW_STATUS.stage = 2 ∧ u.ready h = false ∧
          u.activeSlot h = 1 - s.activeSlot h ∧ u.activeSlot (1 - h) = s.activeSlot (1 - h) ∧
          u.nor.slots = s.nor.slots.set (2 * h + (1 - s.activeSlot h)) x.image ∧ u.mem = s.mem) ∧
        (Completes (.fwCopyComplete half false) s fun u => u.get MGT_FW_STATUS.status = 0x06 ∧ u.mgt.update = none ∧
          u.flag MGT_FW_STATUS.busy = false ∧ u.activeSlot h = s.activeSlot h ∧
          u.nor.slots = (s.nor.slots.set (2 * h + (1 - s.activeSlot h)) x.image).set (2 * h + (1 - s.activeSlot h)) [] ∧
          u.mem = s.mem)) ∧
      (∀ v t, x.prev = [(h, v, t)] → s.ready h = false → t + 1250000 ≤ s.now → Completes (.fwReadyTimeout half) s fun u =>
        u.activeSlot h = v ∧ u.mgt.update = none ∧ u.get MGT_FW_STATUS.status = 0x1C ∧ u.mem = s.mem)) ∧
    (∀ (half : Fin 2) v, s.probation half.val = some v →
      exec (.fwProbationFault half) s = .next (s.sampleOnce 2 half.val (.mgmtFault half.val)) ∧
      let u := s.applyEvent (.mgmtFault half.val)
      u.activeSlot half.val = v ∧ u.ready half.val = false ∧ u.mgt.update = none ∧ u.get MGT_FW_STATUS.status = 0x1C ∧ u.mem = s.mem) ∧
    (∀ half : Fin 2, s.probation half.val = none → exec (.fwProbationFault half) s = .next s) ∧
    (∀ (pcie : Bool) (body : List Byte) (term : Word), (pcie = true → s.flag HIF_STATUS.link_up = true) →
      ((s.led = false ∨ term.toNat ≠ s.rn .MGT_TERM) →
        ∀ up, exec (.mctpRequest pcie body term up) s = .next { s with out := s.out ++ [.mctpNotReady] }) ∧
      (s.led = true → term.toNat = s.rn .MGT_TERM →
        exec (.mctpRequest pcie body term false) s = .next (s.emit (.mctp body)) ∧
        (s.flag MGT_FW_STATUS.busy = true → exec (.mctpRequest pcie body term true) s = .next s) ∧
        (s.flag MGT_FW_STATUS.busy = false → exec (.mctpRequest pcie body term true) s =
          .next ((s.put MGT_FW_STATUS.busy 0 1).sampleRow 9 65 (.mctpRequest pcie body term true))) ∧
        (s.leads = true → s.flag SEC_STATUS.violated = false → body ≠ [] → body.length ≤ 33554432 →
          Config.imageMirror body = Config.imageMirror (s.image s.leadHalf) → let u := s.handleRow (.mctpRequest pcie body term true)
            (∃ x, u.mgt.update = some x ∧ x.image = body ∧ x.first = 1 - s.leadHalf ∧ x.mctp = true) ∧
            u.get MGT_FW_STATUS.stage = 1 ∧ u.flag MGT_FW_STATUS.busy = true ∧ u.mem = s.mem))) ∧
    (∀ stack : Fin 16,
      (s.mt.recal = [] → Completes (.hbmPhyRecal stack) s fun u => u.stackHeld stack.val = true ∧ u.mem = s.mem ∧ u.regs = s.regs) ∧
      (s.mt.recal ≠ [] → exec (.hbmPhyRecal stack) s = .next s) ∧
      (s.mt.recal = [stack.val] → s.mt.portHeld = [] →
        exec (.hbmPhyRecalComplete stack) s = .next { s with mt := { s.mt with recal := [] } }) ∧
      (∀ h, s.mt.recal = [stack.val] → s.mt.portHeld = [h] → exec (.hbmPhyRecalComplete stack) s =
        .next (({ s with mt := { s.mt with recal := [], portHeld := [] } } : State).serve h))) ∧
    exec .followerSelfTest s = .next s

/-- R458, R508, R535 to R538: PWROK starts and ends power; what a cold and a package reset clear and keep; the NOR load, training
and the boot of each half, which starts its active image or the other one and claims the lease. Clauses that rest on the
model's own choices follow log entries 4, 5, 39, 73. Completion stated of: PWROK_RISE, PWROK_FALL, PERST_FALL, PWR_RESET,
NOR_LOAD_COMPLETE, HBM_TRAINING_COMPLETE, HALF_BOOT_COMPLETE, PF_FLR, PERST_RISE. -/
def Obligations.ResetAndPowerUp : Prop :=
  ∀ (s : State),
    let kept (u : State) : Prop := u.nor = s.nor ∧ u.fuse = s.fuse ∧ u.cores = [] ∧ u.ctx = {} ∧ u.bnd = {} ∧ u.seq = {} ∧
      u.out = s.out ∧ u.pending = s.pending
    (s.pwr.pwrok = false → exec .pwrokRise s = .next { s with pwr := { s.pwr with pwrok := true } }) ∧
    (s.pwr.pwrok = true → exec .pwrokRise s = .next s) ∧
    (s.pwr.pwrok = true → Completes .pwrokFall s fun u => u.live = false ∧ u.pwr.pwrok = false ∧ u.pwr.perst = s.pwr.perst ∧
      u.pwr.tripped = false ∧ kept u ∧
      (∀ a, a < cxlBase 0 → spGet 0#8 u.mem a = 0#8) ∧ (∀ a, hostBase ≤ a → spGet 0#8 u.mem a = spGet 0#8 s.mem a)) ∧
    (s.pwr.perst = true → Completes .perstFall s fun u => u.pwr.perst = false ∧ u.pwr.pwrok = s.pwr.pwrok ∧
      u.pwr.tripped = s.pwr.tripped ∧ kept u ∧ u.mem = s.mem ∧ u.rn .DEV_ID = 0x97160000 + s.fuse.revision % 256 * 256 + s.fuse.grade % 16 * 16) ∧
    (s.pwr.perst = false → Completes .perstRise s fun u => u.pwr = { s.pwr with perst := true } ∧ u.mem = s.mem ∧
      u.get DEV_ID.revision = s.fuse.revision % 256 ∧ u.get DEV_ID.grade = s.fuse.grade % 16) ∧
    (s.live = true →
      (s.decodes 0 = true → AtTick (.pwrReset 0) s 9 64 fun u => u.live = true ∧ kept u ∧ u.mem = s.mem ∧ u.pwr.norDone = false) ∧
      (Completes .pfFlr s fun u => u.live = true ∧ kept u ∧ u.mem = s.mem ∧ u.pwr.norDone = false) ∧
      (∀ badA badB, s.pwr.norDone = false →
        (Completes (.norLoadComplete badA badB) s fun u => u.pwr.norDone = true) ∧
        (s.nor.logA = [] → Completes (.norLoadComplete badA badB) s fun u => u.pwr = { s.pwr with norDone := true } ∧
          u.rn .FLT_SERVICE_S = s.nor.service % 2 ^ 64 ∧ u.rn .SEC_VIOLATIONS = s.nor.violations % 2 ^ 64 ∧
          u.get MGT_STATUS.west_slot = s.nor.active.1 % 2 ∧ u.get MGT_STATUS.east_slot = s.nor.active.2 % 2 ∧ u.mem = s.mem)) ∧
      (exec .hbmTrainingComplete s = .next { s with mt := { s.mt with trained := true } }) ∧
      (∀ (half : Fin 2) (a b : Bool) (cyc : Fin 16), half.val ∉ s.mgt.up → s.activeSlot half.val < 2 →
        let ok (v : Nat) : Bool := if v = 0 then a else b
        (ok (s.activeSlot half.val) = true ∨ ok (1 - s.activeSlot half.val) = true →
          Completes (.halfBootComplete half a b cyc) s fun u => half.val ∈ u.mgt.up ∧ u.ready half.val = true ∧ u.mem = s.mem ∧
            u.activeSlot half.val = (if ok (s.activeSlot half.val) then s.activeSlot half.val else 1 - s.activeSlot half.val) ∧
            (s.arbiterUp = true → s.mgt.holder = none → s.rn .MGT_TERM = 0 →
              u.mgt.holder = some half.val ∧ u.rn .MGT_TERM = 1)) ∧
        (ok (s.activeSlot half.val) = false → ok (1 - s.activeSlot half.val) = false →
          exec (.halfBootComplete half a b cyc) s = .next s)))

/-- R522, R525, R531, R532, R539: a rail that trips takes its part of the package with it: cores, a die, stacks, a side's ports,
the whole package; a lost reference drops its side or link and moves its clocks to REFCLK_SD_W, or trips the package; the TAP
moves by TMS at rising edges of TCK. Clauses that rest on the model's own choices follow log entries 40, 102, 109, 124, 171.
Completion stated of: RAIL_TRIP, REFCLK_LOSS, THERMAL_TRIP, REFCLK_RETURN, AVDD_SD_RETURN, CLOCK_FALLBACK_COMPLETE,
TAP_TCK_EDGE. -/
def Obligations.RailsReferencesAndTrips : Prop :=
  ∀ (s : State),
    (s.live = true →
      (∀ rail : Fin 17, rail.val ∈ s.pwr.rails → exec (.railTrip rail) s = .next s) ∧
      (∀ rail : Fin 17, rail.val ∉ s.pwr.rails →
        (rail.val < 4 → OnceAtTick (.railTrip rail) s 0 (railSrc rail.val) fun u => u.unitFenced 4 rail.val = true) ∧
        (4 ≤ rail.val → rail.val < 8 → OnceAtTick (.railTrip rail) s 0 (railSrc rail.val) fun u =>
          u.unitFenced 4 (rail.val - 4) = true ∧ u.unitFenced 5 (rail.val - 4) = true ∧
          ∀ k, k < 4 → u.stackFenced (4 * (rail.val - 4) + k) = true) ∧
        (8 ≤ rail.val → rail.val < 12 → OnceAtTick (.railTrip rail) s 0 (railSrc rail.val) fun u =>
          ∀ k, k < 4 → u.stackFenced (4 * (rail.val - 8) + k) = true) ∧
        (rail.val = 12 → OnceAtTick (.railTrip rail) s 0 4 fun u => u.pwr.tripped = true ∧ u.live = false) ∧
        (rail.val = 13 → OnceAtTick (.railTrip rail) s 0 4 fun u => ∀ k, k < 5 → u.get LNK_PORT_STATUS.state k = 0) ∧
        (rail.val = 14 → OnceAtTick (.railTrip rail) s 0 4 fun u => u.flag HIF_STATUS.link_up = false ∧
          ∀ k, 5 ≤ k → k < 9 → u.get LNK_PORT_STATUS.state k = 0) ∧
        (15 ≤ rail.val → Completes (.railTrip rail) s fun u => u.pwr.pwrok = false ∧ u.nor = s.nor ∧ u.fuse = s.fuse)) ∧
      (∀ (sensor : Fin 20) (r : Byte),
        ((sensor.val < 4 ∧ 110 ≤ r.toInt) ∨ (4 ≤ sensor.val ∧ 100 ≤ r.toInt) → OnceAtTick (.thermalTrip sensor r) s 0 4 fun u =>
          u.pwr.tripped = true ∧ u.pwr.therm = true ∧ u.thermtripLow = true ∧ u.faultLow = true ∧ u.live = false) ∧
        (¬((sensor.val < 4 ∧ 110 ≤ r.toInt) ∨ (4 ≤ sensor.val ∧ 100 ≤ r.toInt)) → exec (.thermalTrip sensor r) s = .next s)) ∧
      (∀ ref : Fin 4, ref.val ∉ s.pwr.refs →
        (ref.val = 0 ∨ ref.val = 3 → OnceAtTick (.refclkLoss ref) s 0 4 fun u => u.pwr.tripped = true ∧ u.live = false) ∧
        (ref.val = 1 → OnceAtTick (.refclkLoss ref) s 4 41 fun u => 0 ∈ u.pwr.fallen ∧ 1 ∈ u.pwr.fallen ∧
          ∀ k, 5 ≤ k → k < 9 → u.get LNK_PORT_STATUS.state k = 0) ∧
        (ref.val = 2 → Completes (.refclkLoss ref) s fun u => 2 ∈ u.pwr.fallen ∧ 2 ∈ u.pwr.refs ∧
          u.flag HIF_STATUS.link_up = false ∧ u.mem = s.mem)) ∧
      (∀ clock : Fin 3, clock.val ∈ s.pwr.switching → s.mt.portHeld = [] → s.mt.held = [] → s.mt.moves = [] →
        exec (.clockFallbackComplete clock) s =
          .next { s with pwr := { s.pwr with switching := s.pwr.switching.filter (· ≠ clock.val) } }) ∧
      (∀ h, 1 ∈ s.pwr.switching → s.mt.portHeld = [h] → exec (.clockFallbackComplete 1) s =
        .next (({ s with
          pwr := { s.pwr with switching := s.pwr.switching.filter (· ≠ 1) }
          mt := { s.mt with portHeld := [] } } : State).serve h)) ∧
      (∀ h pg, 2 ∈ s.pwr.switching → s.mt.held = [h] → h.pages = [pg] →
        let t := s.setPwr { s.pwr with switching := s.pwr.switching.filter (· ≠ 2) }
        let u := t.bump .TIR_HOLD_NCLK 0 (256 * (s.now - h.since))
        t.heldFree h = true →
        exec (.clockFallbackComplete 2) s = .next ((({ u with mt := { s.mt with held := [] } } : State).serve h).runMoves)) ∧
      (∀ ref : Fin 4, Completes (.refclkReturn ref) s fun u => u.pwr.refs = s.pwr.refs.filter (· ≠ ref.val) ∧
        u.pwr.fallen = s.pwr.fallen ∧ u.regs = s.regs ∧ u.mem = s.mem ∧
        (14 ∉ s.pwr.rails → (ref.val = 1 ∨ 1 ∉ s.pwr.refs) → ∀ k ∈ u.pwr.portsOff, k < 5 ∨ 9 ≤ k)) ∧
      (∀ side : Fin 2, Completes (.avddSdReturn side) s fun u => u.pwr.rails = s.pwr.rails.filter (· ≠ 13 + side.val) ∧
        u.regs = s.regs ∧ u.mem = s.mem ∧ (side.val = 0 ∨ 1 ∉ s.pwr.refs → ∀ k ∈ u.pwr.portsOff, k ∉ sidePorts side.val))) ∧
    (s.awake = true → ∀ tms tdi : Bool,
      exec (.tapTckEdge true tms tdi false) s = .next { s with pwr := { s.pwr with
        tap := s.pwr.tap.next tms, tdo := s.pwr.tdo && (s.pwr.tap.next tms).shifts } } ∧
      exec (.tapTckEdge false tms tdi false) s = .next { s with pwr := { s.pwr with tdo := s.pwr.tap.shifts } } ∧
      (∀ rising, exec (.tapTckEdge rising tms tdi true) s = .next { s with pwr := { s.pwr with
        tap := .testLogicReset, tdo := false } }) ∧
      (∀ t : TapState, ((((t.next true).next true).next true).next true).next true = .testLogicReset))

/-- R41, R46, R47, R409, R489, R493 to R495, R542: a tick counts; its events are ordered by class and source, new ones of class 0
before those carried, the others behind; each sequencer handles up to 256 and carries the rest, with an overrun counted;
writes of the power limits take effect; a tick with one event does what the event does. A command of a ring that comes to its
tick without a lead completes with NOT_LEAD, and stays with the ring while its context is being pre-empted. Clauses that rest
on the model's own choices follow log entries 40, 42, 43, 78, 101, 137. Completion stated of: EVENT_TICK. -/
def Obligations.EventTickCountsAndOrders : Prop :=
  (∀ l : List Sampled, (sortEvents l).Perm l ∧ (sortEvents l).Pairwise fun a b => b.before a = false) ∧
  (∀ l : List Sampled, (∀ e ∈ l, e.die < 4) →
    let r := shareTick l [0, 0, 0, 0]
    (r.1 ++ r.2).Perm l ∧ r.1.Sublist l ∧ r.2.Sublist l ∧
    ∀ d, d < 4 → (r.1.filter fun e => e.die = d) = (l.filter fun e => e.die = d).take 256) ∧
  (∀ (s : State), s.live = true →
    let s0 := s.countTick.latchLimits
    (s.seq.order = [] → exec .eventTick s = .next
      ({ s0 with seq := { s.seq with sampled := [], carried := [], turned := false } } : State).endTick) ∧
    (∀ e, s.seq.order = [e] → e.die < 4 →
      let t := ({ s0 with seq := { s.seq with
        sampled := [], carried := [], turned := s.seq.turned && !s.seq.carried.isEmpty } } : State).handleEvent e
      exec .eventTick s = .next (if t.live then t.endTick else t))) ∧
  (∀ (s : State) (e : Sampled), s.handleEvent e =
    if e.ev.counted then (s.applyEvent e.ev).bump .MGT_CLASS_EVENTS e.cls else s.applyEvent e.ev) ∧
  (∀ (s : State) (c : Instr) x cookie irq op, hostCmd c = some (.ring x cookie irq, op) →
    (needsRegion op = true → 2 ≤ s.get CTX_PSTATE.state x.val → s.handleRow c = s) ∧
    ((needsRegion op = false ∨ s.get CTX_PSTATE.state x.val < 2) → s.leads = false →
      s.handleRow c = (s.began (.ring x cookie irq) op).complete (.ring x cookie irq) op 0x1B)) ∧
  (∀ (s : State), s.live = true → s.jobCtx = none → s.noc.fenced = [] → s.hrd.orphans = [] → s.bnd.stale = [] →
    s.sec.rejudge = false → (∀ c, c < 31 → (s.stp c).decision = none ∧ (s.stp c).reshard = none) → s.seq.offered = [] →
    (∀ e ∈ s.seq.order, e.die < 4 ∧ ((∃ op st, e.ev = .done none op st) ∨ ∃ k st, 9 ≤ k ∧ e.ev = .port k st)) →
    let r := shareTick s.seq.order [0, 0, 0, 0]
    Completes .eventTick s fun u => u.now = min (s.now + 1) (2 ^ 64 - 1) ∧
      u.seq.sampled = [] ∧ u.seq.carried = r.2 ∧
      u.rn .MGT_TICK_OVERRUN = (if r.2 = [] then s.rn .MGT_TICK_OVERRUN else min (s.rn .MGT_TICK_OVERRUN + 1) (2 ^ 64 - 1)) ∧
      u.pwr.inForce = (s.rn .PWR_TARGET, s.rn .PWR_TJ, s.rn .PWR_SAG) ∧
      u.rn .LNK_TICK = (if s.flag LNK_STATUS.joined then min (s.rn .LNK_TICK + 1) (2 ^ 64 - 1) else s.rn .LNK_TICK) ∧
      (∀ cls, cls < 13 → u.rn .MGT_CLASS_EVENTS cls =
        min (s.rn .MGT_CLASS_EVENTS cls + (r.1.filter fun e => e.cls = cls).length) (2 ^ 64 - 1)) ∧
      (∀ p, p < 16 → u.rn .PWR_REGION_STRETCH_TICKS p =
        (if s.get PWR_REGION_ACLK.sag p < 32 ∨ s.get PWR_REGION_ACLK.peak p < 32 then
          min (s.rn .PWR_REGION_STRETCH_TICKS p + 1) (2 ^ 64 - 1) else s.rn .PWR_REGION_STRETCH_TICKS p)) ∧
      u.mirror = { flt := u.flt, sec := u.sec, pwr := u.pwr } ∧ u.flt = s.flt ∧ u.sec = s.sec ∧
      u.mem = s.mem ∧ u.cores = s.cores)

/-- R13, R15, R17, R19, R64, R94, R404, R530, R551, REGISTER_WRITE, COUNTER_SPLIT_READ, BAD_REGISTER_ACCESS: a write changes the
fields software may write and no others, within their limits; a misaligned or hidden access is discarded, counted and reads
all ones; a counter's upper half is the one captured with its lower half; what lies at no register reads zero; a core's status
and matcher entries are read as they are. Clauses that rest on the model's own choices follow log entries 125, 126, 127, 130,
169. Completion stated of: COUNTER_SPLIT_READ, BAD_REGISTER_ACCESS, REGISTER_WRITE. -/
def Obligations.RegisterAccesses : Prop :=
  ∀ (s : State) (fn : Func) (off : Fin 67108864), s.live = true →
    let bad (t : State) (u : State) : Prop := u.rn .HIF_BAD_ACCESS fn.val = min (t.rn .HIF_BAD_ACCESS fn.val + 1) (2 ^ 64 - 1) ∧
      u.mem = t.mem ∧ u.cores = t.cores
    (s.decodes fn = false → (∀ wide v, exec (.registerWrite fn off wide v) s = .next s) ∧
      exec (.counterSplitRead fn off) s = .next s ∧ ∀ write o w, exec (.badRegisterAccess fn write o w) s = .next s) ∧
    (∀ (write : Bool) (o w : Nat), (w = 4 ∨ w = 8) → o % w = 0 → exec (.badRegisterAccess fn write o w) s = .next s) ∧
    (s.decodes fn = true →
      (∀ (v : DWord), off.val % 4 ≠ 0 → Completes (.registerWrite fn off false v) s fun u => bad s u ∧ u.out = s.out) ∧
      (∀ (v : DWord), off.val % 8 ≠ 0 → Completes (.registerWrite fn off true v) s fun u => bad s u ∧ u.out = s.out) ∧
      (∀ r i (v : DWord), off.val % 4 = 0 → findReg fn.val off.val = some (r, i, 0) →
        (s.sees fn.val r i = false → Completes (.registerWrite fn off false v) s fun u => bad s u) ∧
        (s.sees fn.val r i = true → r.info.own = true → exec (.registerWrite fn off false v) s =
          .next (s.writeOwn r i (r.written (s.rd r i) (v &&& 0xFFFFFFFF#64) 0xFFFFFFFF#64))) ∧
        (r = .HIF_XLAT → s.sees fn.val r i = true → i % 16384 < s.xlatCount → Completes (.registerWrite fn off false v) s fun u =>
          u.get HIF_XLAT.valid i = v.toNat % 2 ∧ u.get HIF_XLAT.write i = v.toNat / 2 % 2 ∧
          u.rn .HIF_XLAT i / 2 ^ 32 = s.rn .HIF_XLAT i / 2 ^ 32 ∧ u.mem = s.mem ∧ u.out = s.out) ∧
        (s.sees fn.val r i = true → r.info.own = false → s.writeLocked r i = true → exec (.registerWrite fn off false v) s = .next s) ∧
        (s.sees fn.val r i = true → r.info.own = false → s.writeLocked r i = false → clampOf r = [] →
          r ≠ .HIF_MSIX_TABLE → r ≠ .LNK_FLOCK → r ≠ .TIR_EXTENT → Completes (.registerWrite fn off false v) s fun u =>
            u = s.wr r i (r.written (s.rd r i) (v &&& 0xFFFFFFFF#64) 0xFFFFFFFF#64) ∧
            (∀ f ∈ r.info.fields, f.acc = .ro → f.hi < 64 → f.lo ≤ f.hi → u.get f i = s.get f i) ∧
            (∀ q j, Reg.key q j ≠ Reg.key r i → u.rn q j = s.rn q j)) ∧
        (s.sees fn.val r i = true →
          let t := s.wr r i (r.written (s.rd r i) (v &&& 0xFFFFFFFF#64) 0xFFFFFFFF#64)
          (r = .HIF_MSIX_TABLE → exec (.registerWrite fn off false v) s = .next (t.sendPending (i / 512))) ∧
          (r = .LNK_FLOCK → exec (.registerWrite fn off false v) s = .next (if t.joined then t.showFlock else t)) ∧
          (r = .TIR_EXTENT → exec (.registerWrite fn off false v) s = .next t.showSlotOwners)) ∧
        (r.info.wide = true → s.sees fn.val r i = true →
          exec (.counterSplitRead fn off) s = .next
            ((s.setHif { s.hif with hold := spSet (0, 0) s.hif.hold fn.val (off.val + 1, s.view r i / 2 ^ 32) }).emit
              (.regRead fn.val off.val (BitVec.ofNat 64 (s.view r i % 2 ^ 32))))) ∧
        (r.info.wide = false → s.sees fn.val r i = true →
          exec (.counterSplitRead fn off) s = .next (s.emit (.regRead fn.val off.val (BitVec.ofNat 64 (s.view r i))))) ∧
        (s.sees fn.val r i = false → Completes (.counterSplitRead fn off) s fun u => bad s u ∧
          u.out = s.out ++ [.regRead fn.val off.val 0xFFFFFFFF#64])) ∧
      (off.val % 4 ≠ 0 → Completes (.counterSplitRead fn off) s fun u => bad s u ∧
        u.out = s.out ++ [.regRead fn.val off.val 0xFFFFFFFF#64]) ∧
      (off.val % 4 = 0 → findReg fn.val off.val = none → (∀ v, exec (.registerWrite fn off false v) s = .next s) ∧
        exec (.counterSplitRead fn off) s = .next (s.emit (.regRead fn.val off.val 0#64))) ∧
      (∀ r i, r ≠ .CORE_STATUS → r ≠ .CORE_MATCH_ENTRY → s.view r i = s.rn r i) ∧
      (∀ k, k < 4096 → bits (s.view .CORE_STATUS k) 15 8 = (s.core k).entries.length % 256 ∧
        bits (s.view .CORE_STATUS k) 31 16 = (s.core k).base.toNat ∧
        bits (s.view .CORE_STATUS k) 1 1 = (if (s.core k).atIdle then 1 else 0) ∧
        (∀ j m, j < 128 → (s.core k).entries.find? (fun m => 4 * m.op + m.tag.toNat % 4 = j) = some m →
          s.view .CORE_MATCH_ENTRY (128 * k + j) = m.word) ∧
        (∀ j, j < 128 → (∀ m ∈ (s.core k).entries, 4 * m.op + m.tag.toNat % 4 ≠ j) → s.view .CORE_MATCH_ENTRY (128 * k + j) = 0)) ∧
      (∀ r i hi, off.val % 4 = 0 → 4 ≤ off.val → findReg fn.val off.val = some (r, i, 4) → r.info.wide = true →
        s.sees fn.val r i = true → spGet (0, 0) s.hif.hold fn.val = (off.val - 4 + 1, hi) →
        Completes (.counterSplitRead fn off) s fun u => u.out = s.out ++ [.regRead fn.val off.val (BitVec.ofNat 64 hi)] ∧
          spGet (0, 0) u.hif.hold fn.val = (0, 0) ∧ u.regs = s.regs ∧ u.mem = s.mem) ∧
      (∀ (v : DWord), fn.val = 0 → findReg 0 off.val = some (.PWR_TARGET, 0, 0) → off.val % 4 = 0 →
        Completes (.registerWrite fn off false v) s fun u =>
          u.get PWR_TARGET.watts = max 1800 (min 3200 (v.toNat % 4096)) ∧ u.mem = s.mem) ∧
      (∀ (write : Bool) (o w : Nat), ((w ≠ 4 ∧ w ≠ 8) ∨ o % w ≠ 0) → Completes (.badRegisterAccess fn write o w) s fun u => bad s u ∧
        u.out = s.out ++ (if write then [] else [.regRead fn.val o (BitVec.allOnes 64)])))

/-- R487, R535, R537, R543 to R550, R553, R555, R561, R565: the link comes up at the rate and width both ends have and goes down;
a function reset clears that function; D3hot; configuration requests; the aperture reads and writes device memory of its
context; windows; MCTP and DOE messages reach the lead. Clauses that rest on the model's own choices follow log entries 6,
128, 129. Completion stated of: PCIE_LINK_UP, PCIE_LINK_DOWN, HOT_RESET, VF_FLR, POWER_STATE_CHANGE, CONFIG_REQUEST,
APERTURE_READ, APERTURE_WRITE, HIF_XLAT_WRITE, MCTP_PCIE_MESSAGE, DOE_OBJECT. -/
def Obligations.LinkFunctionsAndApertures : Prop :=
  ∀ (s : State), s.live = true →
    (∀ (rate : Fin 5) (width : Nat),
      let r := min rate.val (4 - s.get HIF_CONFIG.max_rate)
      (s.flag HIF_STATUS.link_up = false → 14 ∉ s.pwr.rails → 2 ∉ s.pwr.refs → 0 < r → 4 ≤ width →
        Completes (.pcieLinkUp rate width) s fun u => u.flag HIF_STATUS.link_up = true ∧ u.get HIF_STATUS.rate = r ∧
          u.get HIF_STATUS.width = (if 16 ≤ width then 16 else if 8 ≤ width then 8 else 4) ∧ u.mem = s.mem ∧ u.cores = s.cores) ∧
      (s.flag HIF_STATUS.link_up = true → 0 < r → 4 ≤ width → Completes (.hotReset rate width) s fun u =>
        u.flag HIF_STATUS.link_up = true ∧ u.get HIF_STATUS.rate = r ∧
        u.get HIF_STATUS.width = (if 16 ≤ width then 16 else if 8 ≤ width then 8 else 4) ∧ u.mem = s.mem ∧ u.cores = s.cores)) ∧
    (s.flag HIF_STATUS.link_up = true → Completes .pcieLinkDown s fun u => u.flag HIF_STATUS.link_up = false ∧
      u.get HIF_STATUS.rate = 0 ∧ u.get HIF_STATUS.width = 0 ∧ u.mem = s.mem ∧ u.cores = s.cores ∧
      u.rn .HIF_LINK_DOWNS = min (s.rn .HIF_LINK_DOWNS + 1) (2 ^ 64 - 1)) ∧
    (∀ fn : Func, fn.val ≠ 0 → (∀ c, c < 31 → s.isFnOf fn.val c = false) → Completes (.vfFlr fn) s fun u =>
      fn.val ∉ u.hif.d3 ∧ fn.val ∉ u.hif.msixOn ∧ u.mem = s.mem ∧ u.rn .HIF_BAD_ACCESS fn.val = 0 ∧
      u.rn .HIF_DMA_ERRORS fn.val = 0 ∧ (∀ g : Func, g ≠ fn → u.rn .HIF_BAD_ACCESS g.val = s.rn .HIF_BAD_ACCESS g.val)) ∧
    (∀ (fn : Func) (c : Ctx), fn.val ≠ 0 → s.isFnOf fn.val c.val = true → (∀ d, d < c.val → s.isFnOf fn.val d = false) →
      Completes (.vfFlr fn) s fun u => u.ctxExists c.val = false) ∧
    (∀ fn : Func, (Completes (.powerStateChange fn true) s fun u => u.decodes fn = false ∧ u.regs = s.regs ∧ u.mem = s.mem) ∧
      (Completes (.powerStateChange fn false) s fun u => u.decodes fn = true ∧ u.mem = s.mem ∧ u.cores = s.cores)) ∧
    (∀ (fn : Func) (o : Nat) (v : Word),
      (s.pwr.norDone = false → exec (.configRequest fn (.read o v)) s = .next { s with out := s.out ++ [.configReply fn.val o none] }) ∧
      (s.pwr.norDone = true → s.get HIF_STATUS.vfs < fn.val → exec (.configRequest fn (.read o v)) s =
        .next { s with out := s.out ++ [.configReply fn.val o (some 0xFFFFFFFF#32)] }) ∧
      (s.pwr.norDone = true → fn.val ≤ s.get HIF_STATUS.vfs → exec (.configRequest fn (.read o v)) s =
        .next { s with out := s.out ++ [.configReply fn.val o (some (s.configWord fn.val o v))] }) ∧
      s.configWord 0 0 v = 0x97161FD7#32 ∧ (fn.val ≠ 0 → s.configWord fn.val 0 v = 0x97171FD7#32)) ∧
    (∀ fn : Func, s.decodes fn = true → ∀ off : Fin 4294967296,
      (s.segment fn.val off.val = none →
        (∀ len, Completes (.apertureRead fn off len 0 0 false) s fun u => u.mem = s.mem ∧
          u.out = s.out ++ [.aperture fn.val (List.replicate len 0xFF#8)] ∧
          u.rn .HIF_BAD_ACCESS fn.val = min (s.rn .HIF_BAD_ACCESS fn.val + 1) (2 ^ 64 - 1)) ∧
        (∀ data, Completes (.apertureWrite fn off data) s fun u => u.mem = s.mem ∧ u.out = s.out ∧
          u.rn .HIF_BAD_ACCESS fn.val = min (s.rn .HIF_BAD_ACCESS fn.val + 1) (2 ^ 64 - 1))) ∧
      (∀ c a, s.segment fn.val off.val = some (c, a) →
        (∀ len bad s1 bs, s.waits (.host c) a len false = false → s.serveRead (.host c) a len bad 0 false = (s1, .data bs) →
          exec (.apertureRead fn off len bad 0 false) s = .next (s1.emit (.aperture fn.val bs))) ∧
        (∀ data s1, s.waits (.host c) a data.length true = false → a % 64 = 0 → data.length % 64 = 0 →
          s.serveWrite (.host c) a data = (s1, .ack) → exec (.apertureWrite fn off data) s = .next s1))) ∧
    (∀ (who view : Func) (entry : Fin 16384) (v : DWord), s.decodes who = true →
      (who.val ≠ 0 → who ≠ view → Completes (.hifXlatWrite who view entry v) s fun u => u.mem = s.mem ∧
        u.rn .HIF_BAD_ACCESS who.val = min (s.rn .HIF_BAD_ACCESS who.val + 1) (2 ^ 64 - 1)) ∧
      (who.val = 0 ∨ who = view → entry.val < s.xlatCount → Completes (.hifXlatWrite who view entry v) s fun u =>
        let i := 16384 * view.val + entry.val
        u.get HIF_XLAT.valid i = v.toNat % 2 ∧ u.get HIF_XLAT.write i = v.toNat / 2 % 2 ∧
        u.get HIF_XLAT.host i = v.toNat / 2 ^ 21 ∧ u.mem = s.mem ∧ u.out = s.out)) ∧
    (∀ (body : List Byte) (term : Word), s.flag HIF_STATUS.link_up = true →
      (s.led = true → term.toNat = s.rn .MGT_TERM → exec (.mctpPcieMessage body term) s = .next (s.emit (.mctp body)) ∧
        (s.spdmOk = true → exec (.doeObject body true term) s = .next { s with out := s.out ++ [.doe body] })) ∧
      (s.led = false → exec (.mctpPcieMessage body term) s = .next { s with out := s.out ++ [.mctpNotReady] }) ∧
      exec (.doeObject body false term) s = .next s)
end

