-- ==== Sys2Proof/Laws/Sparse.lean ====
section
/-! SUPPORT. Laws/Sparse.lean: what the sparse tables and the byte memory satisfy: a read gives the last write, and every
operation keeps the canonical form. -/

namespace Sys2Proof.Machine

variable {α : Type}

theorem spGet_filter_ne (d : α) (m : Sparse α) (k j : Nat) (h : j ≠ k) :
    spGet d (m.filter fun e => decide (e.1 ≠ k)) j = spGet d m j := by
  induction m with
  | nil => rfl
  | cons e t ih =>
    obtain ⟨i, v⟩ := e
    by_cases hi : i = k
    · subst hi; simp [spGet, h]; simpa using ih
    · simp [hi, spGet]; split
      · rfl
      · simpa using ih

theorem spGet_filter_self (d : α) (m : Sparse α) (k : Nat) : spGet d (m.filter fun e => decide (e.1 ≠ k)) k = d := by
  induction m with
  | nil => rfl
  | cons e t ih =>
    obtain ⟨i, v⟩ := e
    by_cases hi : i = k
    · subst hi; simpa using ih
    · simp only [List.filter_cons, ne_eq, hi, not_false_eq_true, decide_true, ↓reduceIte, spGet, Ne.symm hi]
      simpa using ih

theorem spGet_spInsert_ne (d : α) (m : Sparse α) (k j : Nat) (v : α) (h : j ≠ k) :
    spGet d (spInsert k v m) j = spGet d m j := by
  induction m with
  | nil => simp [spInsert, spGet, h]
  | cons e t ih =>
    obtain ⟨i, w⟩ := e
    simp only [spInsert]; split <;> simp_all [spGet]

theorem spGet_spInsert_self (d : α) (m : Sparse α) (k : Nat) (v : α) (h : ∀ e ∈ m, e.1 ≠ k) :
    spGet d (spInsert k v m) k = v := by
  induction m with
  | nil => simp [spInsert, spGet]
  | cons e t ih =>
    obtain ⟨i, w⟩ := e
    simp only [List.mem_cons, forall_eq_or_imp] at h
    simp only [spInsert]; split
    · simp [spGet]
    · simp [spGet, Ne.symm h.1, ih h.2]

/-- Reading a table after a write. -/
theorem spGet_spSet [DecidableEq α] (d : α) (m : Sparse α) (k j : Nat) (v : α) :
    spGet d (spSet d m k v) j = if j = k then v else spGet d m j := by
  unfold spSet
  by_cases h : j = k
  · subst h; simp only [if_true]; split
    · rename_i hv; subst hv; exact spGet_filter_self _ m j
    · exact spGet_spInsert_self d _ j v (fun e he => by simpa using (List.mem_filter.mp he).2)
  · simp only [h, if_false]; split
    · exact spGet_filter_ne d m k j h
    · rw [spGet_spInsert_ne _ _ _ _ _ h, spGet_filter_ne _ _ _ _ h]

/-- A write leaves every other key alone, whatever default the reader takes. -/
theorem spGet_spSet_ne [DecidableEq α] (d e : α) (m : Sparse α) (k j : Nat) (v : α) (h : j ≠ k) :
    spGet d (spSet e m k v) j = spGet d m j := by
  unfold spSet
  dsimp only
  split
  · exact spGet_filter_ne d m k j h
  · rw [spGet_spInsert_ne _ _ _ _ _ h, spGet_filter_ne _ _ _ _ h]

theorem spWfFrom_mono [DecidableEq α] {d : α} {m : Sparse α} {lo lo' : Nat} (h : lo' ≤ lo) (w : spWfFrom d lo m = true) :
    spWfFrom d lo' m = true := by
  cases m with
  | nil => rfl
  | cons e t => obtain ⟨i, v⟩ := e; simp only [spWfFrom, Bool.and_eq_true, decide_eq_true_eq] at *; exact ⟨⟨by omega, w.1.2⟩, w.2⟩

theorem spWfFrom_filter [DecidableEq α] {d : α} (p : Nat × α → Bool) {m : Sparse α} {lo : Nat} (w : spWfFrom d lo m = true) :
    spWfFrom d lo (m.filter p) = true := by
  induction m generalizing lo with
  | nil => rfl
  | cons e t ih =>
    obtain ⟨i, v⟩ := e
    simp only [spWfFrom, Bool.and_eq_true, decide_eq_true_eq] at w
    simp only [List.filter_cons]; split
    · simp only [spWfFrom, Bool.and_eq_true, decide_eq_true_eq]; exact ⟨w.1, ih w.2⟩
    · exact spWfFrom_mono (by omega) (ih w.2)

theorem spWfFrom_spInsert [DecidableEq α] {d : α} {m : Sparse α} {lo k : Nat} {v : α} (hv : v ≠ d) (hlo : lo ≤ k)
    (hk : ∀ e ∈ m, e.1 ≠ k) (w : spWfFrom d lo m = true) : spWfFrom d lo (spInsert k v m) = true := by
  induction m generalizing lo with
  | nil => simp [spInsert, spWfFrom, hv, hlo]
  | cons e t ih =>
    obtain ⟨i, u⟩ := e
    simp only [List.mem_cons, forall_eq_or_imp] at hk
    simp only [spWfFrom, Bool.and_eq_true, decide_eq_true_eq] at w
    simp only [spInsert]; split
    · rename_i h; simp only [spWfFrom, Bool.and_eq_true, decide_eq_true_eq]
      exact ⟨⟨hlo, hv⟩, ⟨by omega, w.1.2⟩, w.2⟩
    · rename_i h; simp only [spWfFrom, Bool.and_eq_true, decide_eq_true_eq]
      have h1 : i ≠ k := hk.1
      exact ⟨w.1, ih (by omega) hk.2 w.2⟩

/-- A write keeps the canonical form. -/
theorem spWf_spSet [DecidableEq α] {d : α} {m : Sparse α} (k : Nat) (v : α) (w : spWf d m = true) :
    spWf d (spSet d m k v) = true := by
  unfold spSet spWf at *
  split
  · exact spWfFrom_filter _ w
  · rename_i hv
    exact spWfFrom_spInsert hv (Nat.zero_le _) (fun e he => by simpa using (List.mem_filter.mp he).2) (spWfFrom_filter _ w)

/-- Clearing a range keeps the canonical form. -/
theorem spWf_filter [DecidableEq α] {d : α} {m : Sparse α} (p : Nat × α → Bool) (w : spWf d m = true) :
    spWf d (m.filter p) = true := spWfFrom_filter p w

theorem memWf_memStore (bs : List Byte) : ∀ (m : Sparse Byte) (a : Nat), memWf m = true → memWf (memStore m a bs) = true := by
  induction bs with
  | nil => intro m a w; exact w
  | cons b t ih => intro m a w; exact ih _ _ (spWf_spSet _ _ w)

theorem memWf_memPut (cs : List Host.Cell) : ∀ m : Sparse Byte, memWf m = true → memWf (memPut m cs) = true := by
  induction cs with
  | nil => intro m w; exact w
  | cons c t ih => intro m w; exact ih _ (spWf_spSet _ _ w)

theorem memWf_spClear {m : Sparse Byte} (lo hi : Nat) (w : memWf m = true) : memWf (spClear m lo hi) = true :=
  spWf_filter _ w

theorem memWf_memCopy {m : Sparse Byte} (src dst n : Nat) (w : memWf m = true) : memWf (memCopy m src dst n) = true :=
  memWf_memPut _ _ (memWf_spClear _ _ w)

/-- A byte outside the bytes stored reads as before. -/
theorem spGet_memStore_out (bs : List Byte) : ∀ (m : Sparse Byte) (a j : Nat), (j < a ∨ a + bs.length ≤ j) →
    spGet 0#8 (memStore m a bs) j = spGet 0#8 m j := by
  induction bs with
  | nil => intro m a j _; rfl
  | cons b t ih =>
    intro m a j h
    simp only [memStore]
    rw [ih _ _ _ (by simp only [List.length_cons] at h; omega), spGet_spSet, if_neg (by simp only [List.length_cons] at h; omega)]

/-- Byte i of the bytes stored reads back. -/
theorem spGet_memStore_in (bs : List Byte) : ∀ (m : Sparse Byte) (a i : Nat) (h : i < bs.length),
    spGet 0#8 (memStore m a bs) (a + i) = bs[i] := by
  induction bs with
  | nil => intro m a i h; simp at h
  | cons b t ih =>
    intro m a i h
    simp only [memStore]
    cases i with
    | zero => rw [spGet_memStore_out _ _ _ _ (by omega), spGet_spSet]; simp
    | succ i =>
      have := ih (spSet 0#8 m a b) (a + 1) i (by simpa using h)
      rw [show a + (i + 1) = a + 1 + i by omega, this]; rfl

end Sys2Proof.Machine
end

