-- ==== Sys2Proof/Laws/State.lean ====
section
/-! SUPPORT. Laws/State.lean: what the named updates of the state leave alone, field by field, and what they read back. -/

namespace Sys2Proof.Machine

@[simp] theorem State.wr_mem (s : State) (r : Reg) (i : Nat) (v : DWord) : (s.wr r i v).mem = s.mem := rfl
@[simp] theorem State.wr_cores (s : State) (r : Reg) (i : Nat) (v : DWord) : (s.wr r i v).cores = s.cores := rfl
@[simp] theorem State.wr_noc (s : State) (r : Reg) (i : Nat) (v : DWord) : (s.wr r i v).noc = s.noc := rfl
@[simp] theorem State.wr_mt (s : State) (r : Reg) (i : Nat) (v : DWord) : (s.wr r i v).mt = s.mt := rfl
@[simp] theorem State.wr_fch (s : State) (r : Reg) (i : Nat) (v : DWord) : (s.wr r i v).fch = s.fch := rfl
@[simp] theorem State.wr_bnd (s : State) (r : Reg) (i : Nat) (v : DWord) : (s.wr r i v).bnd = s.bnd := rfl
@[simp] theorem State.wr_step (s : State) (r : Reg) (i : Nat) (v : DWord) : (s.wr r i v).step = s.step := rfl
@[simp] theorem State.wr_flt (s : State) (r : Reg) (i : Nat) (v : DWord) : (s.wr r i v).flt = s.flt := rfl
@[simp] theorem State.wr_nor (s : State) (r : Reg) (i : Nat) (v : DWord) : (s.wr r i v).nor = s.nor := rfl
@[simp] theorem State.wr_ctx (s : State) (r : Reg) (i : Nat) (v : DWord) : (s.wr r i v).ctx = s.ctx := rfl
@[simp] theorem State.wr_hrd (s : State) (r : Reg) (i : Nat) (v : DWord) : (s.wr r i v).hrd = s.hrd := rfl
@[simp] theorem State.wr_num (s : State) (r : Reg) (i : Nat) (v : DWord) : (s.wr r i v).num = s.num := rfl
@[simp] theorem State.wr_fin (s : State) (r : Reg) (i : Nat) (v : DWord) : (s.wr r i v).fin = s.fin := rfl
@[simp] theorem State.wr_lnk (s : State) (r : Reg) (i : Nat) (v : DWord) : (s.wr r i v).lnk = s.lnk := rfl
@[simp] theorem State.wr_sec (s : State) (r : Reg) (i : Nat) (v : DWord) : (s.wr r i v).sec = s.sec := rfl
@[simp] theorem State.wr_mgt (s : State) (r : Reg) (i : Nat) (v : DWord) : (s.wr r i v).mgt = s.mgt := rfl
@[simp] theorem State.wr_pwr (s : State) (r : Reg) (i : Nat) (v : DWord) : (s.wr r i v).pwr = s.pwr := rfl
@[simp] theorem State.wr_hif (s : State) (r : Reg) (i : Nat) (v : DWord) : (s.wr r i v).hif = s.hif := rfl
@[simp] theorem State.wr_seq (s : State) (r : Reg) (i : Nat) (v : DWord) : (s.wr r i v).seq = s.seq := rfl
@[simp] theorem State.wr_mirror (s : State) (r : Reg) (i : Nat) (v : DWord) : (s.wr r i v).mirror = s.mirror := rfl
@[simp] theorem State.wr_fuse (s : State) (r : Reg) (i : Nat) (v : DWord) : (s.wr r i v).fuse = s.fuse := rfl
@[simp] theorem State.wr_pkgEvent (s : State) (r : Reg) (i : Nat) (v : DWord) : (s.wr r i v).pkgEvent = s.pkgEvent := rfl
@[simp] theorem State.wr_out (s : State) (r : Reg) (i : Nat) (v : DWord) : (s.wr r i v).out = s.out := rfl
@[simp] theorem State.wr_fresh (s : State) (r : Reg) (i : Nat) (v : DWord) : (s.wr r i v).fresh = s.fresh := rfl
@[simp] theorem State.wr_pending (s : State) (r : Reg) (i : Nat) (v : DWord) : (s.wr r i v).pending = s.pending := rfl

@[simp] theorem State.wn_mem (s : State) (r : Reg) (i v : Nat) : (s.wn r i v).mem = s.mem := rfl
@[simp] theorem State.wn_cores (s : State) (r : Reg) (i v : Nat) : (s.wn r i v).cores = s.cores := rfl
@[simp] theorem State.wn_noc (s : State) (r : Reg) (i v : Nat) : (s.wn r i v).noc = s.noc := rfl
@[simp] theorem State.wn_mt (s : State) (r : Reg) (i v : Nat) : (s.wn r i v).mt = s.mt := rfl
@[simp] theorem State.wn_fch (s : State) (r : Reg) (i v : Nat) : (s.wn r i v).fch = s.fch := rfl
@[simp] theorem State.wn_bnd (s : State) (r : Reg) (i v : Nat) : (s.wn r i v).bnd = s.bnd := rfl
@[simp] theorem State.wn_step (s : State) (r : Reg) (i v : Nat) : (s.wn r i v).step = s.step := rfl
@[simp] theorem State.wn_flt (s : State) (r : Reg) (i v : Nat) : (s.wn r i v).flt = s.flt := rfl
@[simp] theorem State.wn_nor (s : State) (r : Reg) (i v : Nat) : (s.wn r i v).nor = s.nor := rfl
@[simp] theorem State.wn_ctx (s : State) (r : Reg) (i v : Nat) : (s.wn r i v).ctx = s.ctx := rfl
@[simp] theorem State.wn_hrd (s : State) (r : Reg) (i v : Nat) : (s.wn r i v).hrd = s.hrd := rfl
@[simp] theorem State.wn_num (s : State) (r : Reg) (i v : Nat) : (s.wn r i v).num = s.num := rfl
@[simp] theorem State.wn_fin (s : State) (r : Reg) (i v : Nat) : (s.wn r i v).fin = s.fin := rfl
@[simp] theorem State.wn_lnk (s : State) (r : Reg) (i v : Nat) : (s.wn r i v).lnk = s.lnk := rfl
@[simp] theorem State.wn_sec (s : State) (r : Reg) (i v : Nat) : (s.wn r i v).sec = s.sec := rfl
@[simp] theorem State.wn_mgt (s : State) (r : Reg) (i v : Nat) : (s.wn r i v).mgt = s.mgt := rfl
@[simp] theorem State.wn_pwr (s : State) (r : Reg) (i v : Nat) : (s.wn r i v).pwr = s.pwr := rfl
@[simp] theorem State.wn_hif (s : State) (r : Reg) (i v : Nat) : (s.wn r i v).hif = s.hif := rfl
@[simp] theorem State.wn_seq (s : State) (r : Reg) (i v : Nat) : (s.wn r i v).seq = s.seq := rfl
@[simp] theorem State.wn_mirror (s : State) (r : Reg) (i v : Nat) : (s.wn r i v).mirror = s.mirror := rfl
@[simp] theorem State.wn_fuse (s : State) (r : Reg) (i v : Nat) : (s.wn r i v).fuse = s.fuse := rfl
@[simp] theorem State.wn_pkgEvent (s : State) (r : Reg) (i v : Nat) : (s.wn r i v).pkgEvent = s.pkgEvent := rfl
@[simp] theorem State.wn_out (s : State) (r : Reg) (i v : Nat) : (s.wn r i v).out = s.out := rfl
@[simp] theorem State.wn_fresh (s : State) (r : Reg) (i v : Nat) : (s.wn r i v).fresh = s.fresh := rfl
@[simp] theorem State.wn_pending (s : State) (r : Reg) (i v : Nat) : (s.wn r i v).pending = s.pending := rfl

@[simp] theorem State.put_mem (s : State) (f : Fld) (i v : Nat) : (s.put f i v).mem = s.mem := rfl
@[simp] theorem State.put_cores (s : State) (f : Fld) (i v : Nat) : (s.put f i v).cores = s.cores := rfl
@[simp] theorem State.put_noc (s : State) (f : Fld) (i v : Nat) : (s.put f i v).noc = s.noc := rfl
@[simp] theorem State.put_mt (s : State) (f : Fld) (i v : Nat) : (s.put f i v).mt = s.mt := rfl
@[simp] theorem State.put_fch (s : State) (f : Fld) (i v : Nat) : (s.put f i v).fch = s.fch := rfl
@[simp] theorem State.put_bnd (s : State) (f : Fld) (i v : Nat) : (s.put f i v).bnd = s.bnd := rfl
@[simp] theorem State.put_step (s : State) (f : Fld) (i v : Nat) : (s.put f i v).step = s.step := rfl
@[simp] theorem State.put_flt (s : State) (f : Fld) (i v : Nat) : (s.put f i v).flt = s.flt := rfl
@[simp] theorem State.put_nor (s : State) (f : Fld) (i v : Nat) : (s.put f i v).nor = s.nor := rfl
@[simp] theorem State.put_ctx (s : State) (f : Fld) (i v : Nat) : (s.put f i v).ctx = s.ctx := rfl
@[simp] theorem State.put_hrd (s : State) (f : Fld) (i v : Nat) : (s.put f i v).hrd = s.hrd := rfl
@[simp] theorem State.put_num (s : State) (f : Fld) (i v : Nat) : (s.put f i v).num = s.num := rfl
@[simp] theorem State.put_fin (s : State) (f : Fld) (i v : Nat) : (s.put f i v).fin = s.fin := rfl
@[simp] theorem State.put_lnk (s : State) (f : Fld) (i v : Nat) : (s.put f i v).lnk = s.lnk := rfl
@[simp] theorem State.put_sec (s : State) (f : Fld) (i v : Nat) : (s.put f i v).sec = s.sec := rfl
@[simp] theorem State.put_mgt (s : State) (f : Fld) (i v : Nat) : (s.put f i v).mgt = s.mgt := rfl
@[simp] theorem State.put_pwr (s : State) (f : Fld) (i v : Nat) : (s.put f i v).pwr = s.pwr := rfl
@[simp] theorem State.put_hif (s : State) (f : Fld) (i v : Nat) : (s.put f i v).hif = s.hif := rfl
@[simp] theorem State.put_seq (s : State) (f : Fld) (i v : Nat) : (s.put f i v).seq = s.seq := rfl
@[simp] theorem State.put_mirror (s : State) (f : Fld) (i v : Nat) : (s.put f i v).mirror = s.mirror := rfl
@[simp] theorem State.put_fuse (s : State) (f : Fld) (i v : Nat) : (s.put f i v).fuse = s.fuse := rfl
@[simp] theorem State.put_pkgEvent (s : State) (f : Fld) (i v : Nat) : (s.put f i v).pkgEvent = s.pkgEvent := rfl
@[simp] theorem State.put_out (s : State) (f : Fld) (i v : Nat) : (s.put f i v).out = s.out := rfl
@[simp] theorem State.put_fresh (s : State) (f : Fld) (i v : Nat) : (s.put f i v).fresh = s.fresh := rfl
@[simp] theorem State.put_pending (s : State) (f : Fld) (i v : Nat) : (s.put f i v).pending = s.pending := rfl

@[simp] theorem State.setSat_mem (s : State) (b : Nat) : (s.setSat b).mem = s.mem := rfl
@[simp] theorem State.setSat_cores (s : State) (b : Nat) : (s.setSat b).cores = s.cores := rfl
@[simp] theorem State.setSat_noc (s : State) (b : Nat) : (s.setSat b).noc = s.noc := rfl
@[simp] theorem State.setSat_mt (s : State) (b : Nat) : (s.setSat b).mt = s.mt := rfl
@[simp] theorem State.setSat_fch (s : State) (b : Nat) : (s.setSat b).fch = s.fch := rfl
@[simp] theorem State.setSat_bnd (s : State) (b : Nat) : (s.setSat b).bnd = s.bnd := rfl
@[simp] theorem State.setSat_step (s : State) (b : Nat) : (s.setSat b).step = s.step := rfl
@[simp] theorem State.setSat_flt (s : State) (b : Nat) : (s.setSat b).flt = s.flt := rfl
@[simp] theorem State.setSat_nor (s : State) (b : Nat) : (s.setSat b).nor = s.nor := rfl
@[simp] theorem State.setSat_ctx (s : State) (b : Nat) : (s.setSat b).ctx = s.ctx := rfl
@[simp] theorem State.setSat_hrd (s : State) (b : Nat) : (s.setSat b).hrd = s.hrd := rfl
@[simp] theorem State.setSat_num (s : State) (b : Nat) : (s.setSat b).num = s.num := rfl
@[simp] theorem State.setSat_fin (s : State) (b : Nat) : (s.setSat b).fin = s.fin := rfl
@[simp] theorem State.setSat_lnk (s : State) (b : Nat) : (s.setSat b).lnk = s.lnk := rfl
@[simp] theorem State.setSat_sec (s : State) (b : Nat) : (s.setSat b).sec = s.sec := rfl
@[simp] theorem State.setSat_mgt (s : State) (b : Nat) : (s.setSat b).mgt = s.mgt := rfl
@[simp] theorem State.setSat_pwr (s : State) (b : Nat) : (s.setSat b).pwr = s.pwr := rfl
@[simp] theorem State.setSat_hif (s : State) (b : Nat) : (s.setSat b).hif = s.hif := rfl
@[simp] theorem State.setSat_seq (s : State) (b : Nat) : (s.setSat b).seq = s.seq := rfl
@[simp] theorem State.setSat_mirror (s : State) (b : Nat) : (s.setSat b).mirror = s.mirror := rfl
@[simp] theorem State.setSat_fuse (s : State) (b : Nat) : (s.setSat b).fuse = s.fuse := rfl
@[simp] theorem State.setSat_pkgEvent (s : State) (b : Nat) : (s.setSat b).pkgEvent = s.pkgEvent := rfl
@[simp] theorem State.setSat_out (s : State) (b : Nat) : (s.setSat b).out = s.out := rfl
@[simp] theorem State.setSat_fresh (s : State) (b : Nat) : (s.setSat b).fresh = s.fresh := rfl
@[simp] theorem State.setSat_pending (s : State) (b : Nat) : (s.setSat b).pending = s.pending := rfl

@[simp] theorem State.bump_mem (s : State) (r : Reg) (i n : Nat) : (s.bump r i n).mem = s.mem := by unfold State.bump; dsimp only; split <;> rfl
@[simp] theorem State.bump_cores (s : State) (r : Reg) (i n : Nat) : (s.bump r i n).cores = s.cores := by unfold State.bump; dsimp only; split <;> rfl
@[simp] theorem State.bump_noc (s : State) (r : Reg) (i n : Nat) : (s.bump r i n).noc = s.noc := by unfold State.bump; dsimp only; split <;> rfl
@[simp] theorem State.bump_mt (s : State) (r : Reg) (i n : Nat) : (s.bump r i n).mt = s.mt := by unfold State.bump; dsimp only; split <;> rfl
@[simp] theorem State.bump_fch (s : State) (r : Reg) (i n : Nat) : (s.bump r i n).fch = s.fch := by unfold State.bump; dsimp only; split <;> rfl
@[simp] theorem State.bump_bnd (s : State) (r : Reg) (i n : Nat) : (s.bump r i n).bnd = s.bnd := by unfold State.bump; dsimp only; split <;> rfl
@[simp] theorem State.bump_step (s : State) (r : Reg) (i n : Nat) : (s.bump r i n).step = s.step := by unfold State.bump; dsimp only; split <;> rfl
@[simp] theorem State.bump_flt (s : State) (r : Reg) (i n : Nat) : (s.bump r i n).flt = s.flt := by unfold State.bump; dsimp only; split <;> rfl
@[simp] theorem State.bump_nor (s : State) (r : Reg) (i n : Nat) : (s.bump r i n).nor = s.nor := by unfold State.bump; dsimp only; split <;> rfl
@[simp] theorem State.bump_ctx (s : State) (r : Reg) (i n : Nat) : (s.bump r i n).ctx = s.ctx := by unfold State.bump; dsimp only; split <;> rfl
@[simp] theorem State.bump_hrd (s : State) (r : Reg) (i n : Nat) : (s.bump r i n).hrd = s.hrd := by unfold State.bump; dsimp only; split <;> rfl
@[simp] theorem State.bump_num (s : State) (r : Reg) (i n : Nat) : (s.bump r i n).num = s.num := by unfold State.bump; dsimp only; split <;> rfl
@[simp] theorem State.bump_fin (s : State) (r : Reg) (i n : Nat) : (s.bump r i n).fin = s.fin := by unfold State.bump; dsimp only; split <;> rfl
@[simp] theorem State.bump_lnk (s : State) (r : Reg) (i n : Nat) : (s.bump r i n).lnk = s.lnk := by unfold State.bump; dsimp only; split <;> rfl
@[simp] theorem State.bump_sec (s : State) (r : Reg) (i n : Nat) : (s.bump r i n).sec = s.sec := by unfold State.bump; dsimp only; split <;> rfl
@[simp] theorem State.bump_mgt (s : State) (r : Reg) (i n : Nat) : (s.bump r i n).mgt = s.mgt := by unfold State.bump; dsimp only; split <;> rfl
@[simp] theorem State.bump_pwr (s : State) (r : Reg) (i n : Nat) : (s.bump r i n).pwr = s.pwr := by unfold State.bump; dsimp only; split <;> rfl
@[simp] theorem State.bump_hif (s : State) (r : Reg) (i n : Nat) : (s.bump r i n).hif = s.hif := by unfold State.bump; dsimp only; split <;> rfl
@[simp] theorem State.bump_seq (s : State) (r : Reg) (i n : Nat) : (s.bump r i n).seq = s.seq := by unfold State.bump; dsimp only; split <;> rfl
@[simp] theorem State.bump_mirror (s : State) (r : Reg) (i n : Nat) : (s.bump r i n).mirror = s.mirror := by unfold State.bump; dsimp only; split <;> rfl
@[simp] theorem State.bump_fuse (s : State) (r : Reg) (i n : Nat) : (s.bump r i n).fuse = s.fuse := by unfold State.bump; dsimp only; split <;> rfl
@[simp] theorem State.bump_pkgEvent (s : State) (r : Reg) (i n : Nat) : (s.bump r i n).pkgEvent = s.pkgEvent := by unfold State.bump; dsimp only; split <;> rfl
@[simp] theorem State.bump_out (s : State) (r : Reg) (i n : Nat) : (s.bump r i n).out = s.out := by unfold State.bump; dsimp only; split <;> rfl
@[simp] theorem State.bump_fresh (s : State) (r : Reg) (i n : Nat) : (s.bump r i n).fresh = s.fresh := by unfold State.bump; dsimp only; split <;> rfl
@[simp] theorem State.bump_pending (s : State) (r : Reg) (i n : Nat) : (s.bump r i n).pending = s.pending := by unfold State.bump; dsimp only; split <;> rfl

@[simp] theorem State.draw_regs (s : State) : (s.draw).regs = s.regs := rfl
@[simp] theorem State.draw_mem (s : State) : (s.draw).mem = s.mem := rfl
@[simp] theorem State.draw_cores (s : State) : (s.draw).cores = s.cores := rfl
@[simp] theorem State.draw_noc (s : State) : (s.draw).noc = s.noc := rfl
@[simp] theorem State.draw_mt (s : State) : (s.draw).mt = s.mt := rfl
@[simp] theorem State.draw_fch (s : State) : (s.draw).fch = s.fch := rfl
@[simp] theorem State.draw_bnd (s : State) : (s.draw).bnd = s.bnd := rfl
@[simp] theorem State.draw_step (s : State) : (s.draw).step = s.step := rfl
@[simp] theorem State.draw_flt (s : State) : (s.draw).flt = s.flt := rfl
@[simp] theorem State.draw_nor (s : State) : (s.draw).nor = s.nor := rfl
@[simp] theorem State.draw_ctx (s : State) : (s.draw).ctx = s.ctx := rfl
@[simp] theorem State.draw_hrd (s : State) : (s.draw).hrd = s.hrd := rfl
@[simp] theorem State.draw_num (s : State) : (s.draw).num = s.num := rfl
@[simp] theorem State.draw_fin (s : State) : (s.draw).fin = s.fin := rfl
@[simp] theorem State.draw_lnk (s : State) : (s.draw).lnk = s.lnk := rfl
@[simp] theorem State.draw_sec (s : State) : (s.draw).sec = s.sec := rfl
@[simp] theorem State.draw_mgt (s : State) : (s.draw).mgt = s.mgt := rfl
@[simp] theorem State.draw_pwr (s : State) : (s.draw).pwr = s.pwr := rfl
@[simp] theorem State.draw_hif (s : State) : (s.draw).hif = s.hif := rfl
@[simp] theorem State.draw_seq (s : State) : (s.draw).seq = s.seq := rfl
@[simp] theorem State.draw_mirror (s : State) : (s.draw).mirror = s.mirror := rfl
@[simp] theorem State.draw_fuse (s : State) : (s.draw).fuse = s.fuse := rfl
@[simp] theorem State.draw_pkgEvent (s : State) : (s.draw).pkgEvent = s.pkgEvent := rfl
@[simp] theorem State.draw_out (s : State) : (s.draw).out = s.out := rfl
@[simp] theorem State.draw_pending (s : State) : (s.draw).pending = s.pending := rfl

@[simp] theorem State.emit_regs (s : State) (o : Output) : (s.emit o).regs = s.regs := rfl
@[simp] theorem State.emit_mem (s : State) (o : Output) : (s.emit o).mem = s.mem := rfl
@[simp] theorem State.emit_cores (s : State) (o : Output) : (s.emit o).cores = s.cores := rfl
@[simp] theorem State.emit_noc (s : State) (o : Output) : (s.emit o).noc = s.noc := rfl
@[simp] theorem State.emit_mt (s : State) (o : Output) : (s.emit o).mt = s.mt := rfl
@[simp] theorem State.emit_fch (s : State) (o : Output) : (s.emit o).fch = s.fch := rfl
@[simp] theorem State.emit_bnd (s : State) (o : Output) : (s.emit o).bnd = s.bnd := rfl
@[simp] theorem State.emit_step (s : State) (o : Output) : (s.emit o).step = s.step := rfl
@[simp] theorem State.emit_flt (s : State) (o : Output) : (s.emit o).flt = s.flt := rfl
@[simp] theorem State.emit_nor (s : State) (o : Output) : (s.emit o).nor = s.nor := rfl
@[simp] theorem State.emit_ctx (s : State) (o : Output) : (s.emit o).ctx = s.ctx := rfl
@[simp] theorem State.emit_hrd (s : State) (o : Output) : (s.emit o).hrd = s.hrd := rfl
@[simp] theorem State.emit_num (s : State) (o : Output) : (s.emit o).num = s.num := rfl
@[simp] theorem State.emit_fin (s : State) (o : Output) : (s.emit o).fin = s.fin := rfl
@[simp] theorem State.emit_lnk (s : State) (o : Output) : (s.emit o).lnk = s.lnk := rfl
@[simp] theorem State.emit_sec (s : State) (o : Output) : (s.emit o).sec = s.sec := rfl
@[simp] theorem State.emit_mgt (s : State) (o : Output) : (s.emit o).mgt = s.mgt := rfl
@[simp] theorem State.emit_pwr (s : State) (o : Output) : (s.emit o).pwr = s.pwr := rfl
@[simp] theorem State.emit_hif (s : State) (o : Output) : (s.emit o).hif = s.hif := rfl
@[simp] theorem State.emit_seq (s : State) (o : Output) : (s.emit o).seq = s.seq := rfl
@[simp] theorem State.emit_mirror (s : State) (o : Output) : (s.emit o).mirror = s.mirror := rfl
@[simp] theorem State.emit_fuse (s : State) (o : Output) : (s.emit o).fuse = s.fuse := rfl
@[simp] theorem State.emit_pkgEvent (s : State) (o : Output) : (s.emit o).pkgEvent = s.pkgEvent := rfl
@[simp] theorem State.emit_fresh (s : State) (o : Output) : (s.emit o).fresh = s.fresh := rfl
@[simp] theorem State.emit_pending (s : State) (o : Output) : (s.emit o).pending = s.pending := rfl

@[simp] theorem State.sample_regs (s : State) (c i : Nat) (e : EvKind) : (s.sample c i e).regs = s.regs := rfl
@[simp] theorem State.sample_mem (s : State) (c i : Nat) (e : EvKind) : (s.sample c i e).mem = s.mem := rfl
@[simp] theorem State.sample_cores (s : State) (c i : Nat) (e : EvKind) : (s.sample c i e).cores = s.cores := rfl
@[simp] theorem State.sample_noc (s : State) (c i : Nat) (e : EvKind) : (s.sample c i e).noc = s.noc := rfl
@[simp] theorem State.sample_mt (s : State) (c i : Nat) (e : EvKind) : (s.sample c i e).mt = s.mt := rfl
@[simp] theorem State.sample_fch (s : State) (c i : Nat) (e : EvKind) : (s.sample c i e).fch = s.fch := rfl
@[simp] theorem State.sample_bnd (s : State) (c i : Nat) (e : EvKind) : (s.sample c i e).bnd = s.bnd := rfl
@[simp] theorem State.sample_step (s : State) (c i : Nat) (e : EvKind) : (s.sample c i e).step = s.step := rfl
@[simp] theorem State.sample_flt (s : State) (c i : Nat) (e : EvKind) : (s.sample c i e).flt = s.flt := rfl
@[simp] theorem State.sample_nor (s : State) (c i : Nat) (e : EvKind) : (s.sample c i e).nor = s.nor := rfl
@[simp] theorem State.sample_ctx (s : State) (c i : Nat) (e : EvKind) : (s.sample c i e).ctx = s.ctx := rfl
@[simp] theorem State.sample_hrd (s : State) (c i : Nat) (e : EvKind) : (s.sample c i e).hrd = s.hrd := rfl
@[simp] theorem State.sample_num (s : State) (c i : Nat) (e : EvKind) : (s.sample c i e).num = s.num := rfl
@[simp] theorem State.sample_fin (s : State) (c i : Nat) (e : EvKind) : (s.sample c i e).fin = s.fin := rfl
@[simp] theorem State.sample_lnk (s : State) (c i : Nat) (e : EvKind) : (s.sample c i e).lnk = s.lnk := rfl
@[simp] theorem State.sample_sec (s : State) (c i : Nat) (e : EvKind) : (s.sample c i e).sec = s.sec := rfl
@[simp] theorem State.sample_mgt (s : State) (c i : Nat) (e : EvKind) : (s.sample c i e).mgt = s.mgt := rfl
@[simp] theorem State.sample_pwr (s : State) (c i : Nat) (e : EvKind) : (s.sample c i e).pwr = s.pwr := rfl
@[simp] theorem State.sample_hif (s : State) (c i : Nat) (e : EvKind) : (s.sample c i e).hif = s.hif := rfl
@[simp] theorem State.sample_mirror (s : State) (c i : Nat) (e : EvKind) : (s.sample c i e).mirror = s.mirror := rfl
@[simp] theorem State.sample_fuse (s : State) (c i : Nat) (e : EvKind) : (s.sample c i e).fuse = s.fuse := rfl
@[simp] theorem State.sample_pkgEvent (s : State) (c i : Nat) (e : EvKind) : (s.sample c i e).pkgEvent = s.pkgEvent := rfl
@[simp] theorem State.sample_out (s : State) (c i : Nat) (e : EvKind) : (s.sample c i e).out = s.out := rfl
@[simp] theorem State.sample_fresh (s : State) (c i : Nat) (e : EvKind) : (s.sample c i e).fresh = s.fresh := rfl
@[simp] theorem State.sample_pending (s : State) (c i : Nat) (e : EvKind) : (s.sample c i e).pending = s.pending := rfl

@[simp] theorem State.setCore_regs (s : State) (k : Nat) (c : CoreState) : (s.setCore k c).regs = s.regs := rfl
@[simp] theorem State.setCore_mem (s : State) (k : Nat) (c : CoreState) : (s.setCore k c).mem = s.mem := rfl
@[simp] theorem State.setCore_noc (s : State) (k : Nat) (c : CoreState) : (s.setCore k c).noc = s.noc := rfl
@[simp] theorem State.setCore_mt (s : State) (k : Nat) (c : CoreState) : (s.setCore k c).mt = s.mt := rfl
@[simp] theorem State.setCore_fch (s : State) (k : Nat) (c : CoreState) : (s.setCore k c).fch = s.fch := rfl
@[simp] theorem State.setCore_bnd (s : State) (k : Nat) (c : CoreState) : (s.setCore k c).bnd = s.bnd := rfl
@[simp] theorem State.setCore_step (s : State) (k : Nat) (c : CoreState) : (s.setCore k c).step = s.step := rfl
@[simp] theorem State.setCore_flt (s : State) (k : Nat) (c : CoreState) : (s.setCore k c).flt = s.flt := rfl
@[simp] theorem State.setCore_nor (s : State) (k : Nat) (c : CoreState) : (s.setCore k c).nor = s.nor := rfl
@[simp] theorem State.setCore_ctx (s : State) (k : Nat) (c : CoreState) : (s.setCore k c).ctx = s.ctx := rfl
@[simp] theorem State.setCore_hrd (s : State) (k : Nat) (c : CoreState) : (s.setCore k c).hrd = s.hrd := rfl
@[simp] theorem State.setCore_num (s : State) (k : Nat) (c : CoreState) : (s.setCore k c).num = s.num := rfl
@[simp] theorem State.setCore_fin (s : State) (k : Nat) (c : CoreState) : (s.setCore k c).fin = s.fin := rfl
@[simp] theorem State.setCore_lnk (s : State) (k : Nat) (c : CoreState) : (s.setCore k c).lnk = s.lnk := rfl
@[simp] theorem State.setCore_sec (s : State) (k : Nat) (c : CoreState) : (s.setCore k c).sec = s.sec := rfl
@[simp] theorem State.setCore_mgt (s : State) (k : Nat) (c : CoreState) : (s.setCore k c).mgt = s.mgt := rfl
@[simp] theorem State.setCore_pwr (s : State) (k : Nat) (c : CoreState) : (s.setCore k c).pwr = s.pwr := rfl
@[simp] theorem State.setCore_hif (s : State) (k : Nat) (c : CoreState) : (s.setCore k c).hif = s.hif := rfl
@[simp] theorem State.setCore_seq (s : State) (k : Nat) (c : CoreState) : (s.setCore k c).seq = s.seq := rfl
@[simp] theorem State.setCore_mirror (s : State) (k : Nat) (c : CoreState) : (s.setCore k c).mirror = s.mirror := rfl
@[simp] theorem State.setCore_fuse (s : State) (k : Nat) (c : CoreState) : (s.setCore k c).fuse = s.fuse := rfl
@[simp] theorem State.setCore_pkgEvent (s : State) (k : Nat) (c : CoreState) : (s.setCore k c).pkgEvent = s.pkgEvent := rfl
@[simp] theorem State.setCore_out (s : State) (k : Nat) (c : CoreState) : (s.setCore k c).out = s.out := rfl
@[simp] theorem State.setCore_fresh (s : State) (k : Nat) (c : CoreState) : (s.setCore k c).fresh = s.fresh := rfl
@[simp] theorem State.setCore_pending (s : State) (k : Nat) (c : CoreState) : (s.setCore k c).pending = s.pending := rfl

@[simp] theorem State.modCore_regs (s : State) (k : Nat) (f : CoreState → CoreState) : (s.modCore k f).regs = s.regs := rfl
@[simp] theorem State.modCore_mem (s : State) (k : Nat) (f : CoreState → CoreState) : (s.modCore k f).mem = s.mem := rfl
@[simp] theorem State.modCore_noc (s : State) (k : Nat) (f : CoreState → CoreState) : (s.modCore k f).noc = s.noc := rfl
@[simp] theorem State.modCore_mt (s : State) (k : Nat) (f : CoreState → CoreState) : (s.modCore k f).mt = s.mt := rfl
@[simp] theorem State.modCore_fch (s : State) (k : Nat) (f : CoreState → CoreState) : (s.modCore k f).fch = s.fch := rfl
@[simp] theorem State.modCore_bnd (s : State) (k : Nat) (f : CoreState → CoreState) : (s.modCore k f).bnd = s.bnd := rfl
@[simp] theorem State.modCore_step (s : State) (k : Nat) (f : CoreState → CoreState) : (s.modCore k f).step = s.step := rfl
@[simp] theorem State.modCore_flt (s : State) (k : Nat) (f : CoreState → CoreState) : (s.modCore k f).flt = s.flt := rfl
@[simp] theorem State.modCore_nor (s : State) (k : Nat) (f : CoreState → CoreState) : (s.modCore k f).nor = s.nor := rfl
@[simp] theorem State.modCore_ctx (s : State) (k : Nat) (f : CoreState → CoreState) : (s.modCore k f).ctx = s.ctx := rfl
@[simp] theorem State.modCore_hrd (s : State) (k : Nat) (f : CoreState → CoreState) : (s.modCore k f).hrd = s.hrd := rfl
@[simp] theorem State.modCore_num (s : State) (k : Nat) (f : CoreState → CoreState) : (s.modCore k f).num = s.num := rfl
@[simp] theorem State.modCore_fin (s : State) (k : Nat) (f : CoreState → CoreState) : (s.modCore k f).fin = s.fin := rfl
@[simp] theorem State.modCore_lnk (s : State) (k : Nat) (f : CoreState → CoreState) : (s.modCore k f).lnk = s.lnk := rfl
@[simp] theorem State.modCore_sec (s : State) (k : Nat) (f : CoreState → CoreState) : (s.modCore k f).sec = s.sec := rfl
@[simp] theorem State.modCore_mgt (s : State) (k : Nat) (f : CoreState → CoreState) : (s.modCore k f).mgt = s.mgt := rfl
@[simp] theorem State.modCore_pwr (s : State) (k : Nat) (f : CoreState → CoreState) : (s.modCore k f).pwr = s.pwr := rfl
@[simp] theorem State.modCore_hif (s : State) (k : Nat) (f : CoreState → CoreState) : (s.modCore k f).hif = s.hif := rfl
@[simp] theorem State.modCore_seq (s : State) (k : Nat) (f : CoreState → CoreState) : (s.modCore k f).seq = s.seq := rfl
@[simp] theorem State.modCore_mirror (s : State) (k : Nat) (f : CoreState → CoreState) : (s.modCore k f).mirror = s.mirror := rfl
@[simp] theorem State.modCore_fuse (s : State) (k : Nat) (f : CoreState → CoreState) : (s.modCore k f).fuse = s.fuse := rfl
@[simp] theorem State.modCore_pkgEvent (s : State) (k : Nat) (f : CoreState → CoreState) : (s.modCore k f).pkgEvent = s.pkgEvent := rfl
@[simp] theorem State.modCore_out (s : State) (k : Nat) (f : CoreState → CoreState) : (s.modCore k f).out = s.out := rfl
@[simp] theorem State.modCore_fresh (s : State) (k : Nat) (f : CoreState → CoreState) : (s.modCore k f).fresh = s.fresh := rfl
@[simp] theorem State.modCore_pending (s : State) (k : Nat) (f : CoreState → CoreState) : (s.modCore k f).pending = s.pending := rfl

@[simp] theorem State.store_regs (s : State) (a : Nat) (bs : List Byte) : (s.store a bs).regs = s.regs := by unfold State.store; split <;> rfl
@[simp] theorem State.store_cores (s : State) (a : Nat) (bs : List Byte) : (s.store a bs).cores = s.cores := by unfold State.store; split <;> rfl
@[simp] theorem State.store_noc (s : State) (a : Nat) (bs : List Byte) : (s.store a bs).noc = s.noc := by unfold State.store; split <;> rfl
@[simp] theorem State.store_mt (s : State) (a : Nat) (bs : List Byte) : (s.store a bs).mt = s.mt := by unfold State.store; split <;> rfl
@[simp] theorem State.store_fch (s : State) (a : Nat) (bs : List Byte) : (s.store a bs).fch = s.fch := by unfold State.store; split <;> rfl
@[simp] theorem State.store_bnd (s : State) (a : Nat) (bs : List Byte) : (s.store a bs).bnd = s.bnd := by unfold State.store; split <;> rfl
@[simp] theorem State.store_step (s : State) (a : Nat) (bs : List Byte) : (s.store a bs).step = s.step := by unfold State.store; split <;> rfl
@[simp] theorem State.store_flt (s : State) (a : Nat) (bs : List Byte) : (s.store a bs).flt = s.flt := by unfold State.store; split <;> rfl
@[simp] theorem State.store_nor (s : State) (a : Nat) (bs : List Byte) : (s.store a bs).nor = s.nor := by unfold State.store; split <;> rfl
@[simp] theorem State.store_ctx (s : State) (a : Nat) (bs : List Byte) : (s.store a bs).ctx = s.ctx := by unfold State.store; split <;> rfl
@[simp] theorem State.store_hrd (s : State) (a : Nat) (bs : List Byte) : (s.store a bs).hrd = s.hrd := by unfold State.store; split <;> rfl
@[simp] theorem State.store_num (s : State) (a : Nat) (bs : List Byte) : (s.store a bs).num = s.num := by unfold State.store; split <;> rfl
@[simp] theorem State.store_fin (s : State) (a : Nat) (bs : List Byte) : (s.store a bs).fin = s.fin := by unfold State.store; split <;> rfl
@[simp] theorem State.store_lnk (s : State) (a : Nat) (bs : List Byte) : (s.store a bs).lnk = s.lnk := by unfold State.store; split <;> rfl
@[simp] theorem State.store_sec (s : State) (a : Nat) (bs : List Byte) : (s.store a bs).sec = s.sec := by unfold State.store; split <;> rfl
@[simp] theorem State.store_mgt (s : State) (a : Nat) (bs : List Byte) : (s.store a bs).mgt = s.mgt := by unfold State.store; split <;> rfl
@[simp] theorem State.store_pwr (s : State) (a : Nat) (bs : List Byte) : (s.store a bs).pwr = s.pwr := by unfold State.store; split <;> rfl
@[simp] theorem State.store_hif (s : State) (a : Nat) (bs : List Byte) : (s.store a bs).hif = s.hif := by unfold State.store; split <;> rfl
@[simp] theorem State.store_seq (s : State) (a : Nat) (bs : List Byte) : (s.store a bs).seq = s.seq := by unfold State.store; split <;> rfl
@[simp] theorem State.store_mirror (s : State) (a : Nat) (bs : List Byte) : (s.store a bs).mirror = s.mirror := by unfold State.store; split <;> rfl
@[simp] theorem State.store_fuse (s : State) (a : Nat) (bs : List Byte) : (s.store a bs).fuse = s.fuse := by unfold State.store; split <;> rfl
@[simp] theorem State.store_pkgEvent (s : State) (a : Nat) (bs : List Byte) : (s.store a bs).pkgEvent = s.pkgEvent := by unfold State.store; split <;> rfl
@[simp] theorem State.store_out (s : State) (a : Nat) (bs : List Byte) : (s.store a bs).out = s.out := by unfold State.store; split <;> rfl
@[simp] theorem State.store_fresh (s : State) (a : Nat) (bs : List Byte) : (s.store a bs).fresh = s.fresh := by unfold State.store; split <;> rfl
@[simp] theorem State.store_pending (s : State) (a : Nat) (bs : List Byte) : (s.store a bs).pending = s.pending := by unfold State.store; split <;> rfl

@[simp] theorem State.storeN_regs (s : State) (a n v : Nat) : (s.storeN a n v).regs = s.regs := State.store_regs s _ _
@[simp] theorem State.storeN_cores (s : State) (a n v : Nat) : (s.storeN a n v).cores = s.cores := State.store_cores s _ _
@[simp] theorem State.storeN_noc (s : State) (a n v : Nat) : (s.storeN a n v).noc = s.noc := State.store_noc s _ _
@[simp] theorem State.storeN_mt (s : State) (a n v : Nat) : (s.storeN a n v).mt = s.mt := State.store_mt s _ _
@[simp] theorem State.storeN_fch (s : State) (a n v : Nat) : (s.storeN a n v).fch = s.fch := State.store_fch s _ _
@[simp] theorem State.storeN_bnd (s : State) (a n v : Nat) : (s.storeN a n v).bnd = s.bnd := State.store_bnd s _ _
@[simp] theorem State.storeN_step (s : State) (a n v : Nat) : (s.storeN a n v).step = s.step := State.store_step s _ _
@[simp] theorem State.storeN_flt (s : State) (a n v : Nat) : (s.storeN a n v).flt = s.flt := State.store_flt s _ _
@[simp] theorem State.storeN_nor (s : State) (a n v : Nat) : (s.storeN a n v).nor = s.nor := State.store_nor s _ _
@[simp] theorem State.storeN_ctx (s : State) (a n v : Nat) : (s.storeN a n v).ctx = s.ctx := State.store_ctx s _ _
@[simp] theorem State.storeN_hrd (s : State) (a n v : Nat) : (s.storeN a n v).hrd = s.hrd := State.store_hrd s _ _
@[simp] theorem State.storeN_num (s : State) (a n v : Nat) : (s.storeN a n v).num = s.num := State.store_num s _ _
@[simp] theorem State.storeN_fin (s : State) (a n v : Nat) : (s.storeN a n v).fin = s.fin := State.store_fin s _ _
@[simp] theorem State.storeN_lnk (s : State) (a n v : Nat) : (s.storeN a n v).lnk = s.lnk := State.store_lnk s _ _
@[simp] theorem State.storeN_sec (s : State) (a n v : Nat) : (s.storeN a n v).sec = s.sec := State.store_sec s _ _
@[simp] theorem State.storeN_mgt (s : State) (a n v : Nat) : (s.storeN a n v).mgt = s.mgt := State.store_mgt s _ _
@[simp] theorem State.storeN_pwr (s : State) (a n v : Nat) : (s.storeN a n v).pwr = s.pwr := State.store_pwr s _ _
@[simp] theorem State.storeN_hif (s : State) (a n v : Nat) : (s.storeN a n v).hif = s.hif := State.store_hif s _ _
@[simp] theorem State.storeN_seq (s : State) (a n v : Nat) : (s.storeN a n v).seq = s.seq := State.store_seq s _ _
@[simp] theorem State.storeN_mirror (s : State) (a n v : Nat) : (s.storeN a n v).mirror = s.mirror := State.store_mirror s _ _
@[simp] theorem State.storeN_fuse (s : State) (a n v : Nat) : (s.storeN a n v).fuse = s.fuse := State.store_fuse s _ _
@[simp] theorem State.storeN_pkgEvent (s : State) (a n v : Nat) : (s.storeN a n v).pkgEvent = s.pkgEvent := State.store_pkgEvent s _ _
@[simp] theorem State.storeN_out (s : State) (a n v : Nat) : (s.storeN a n v).out = s.out := State.store_out s _ _
@[simp] theorem State.storeN_fresh (s : State) (a n v : Nat) : (s.storeN a n v).fresh = s.fresh := State.store_fresh s _ _
@[simp] theorem State.storeN_pending (s : State) (a n v : Nat) : (s.storeN a n v).pending = s.pending := State.store_pending s _ _

@[simp] theorem State.zero_regs (s : State) (a n : Nat) : (s.zero a n).regs = s.regs := by unfold State.zero; split <;> rfl
@[simp] theorem State.zero_cores (s : State) (a n : Nat) : (s.zero a n).cores = s.cores := by unfold State.zero; split <;> rfl
@[simp] theorem State.zero_noc (s : State) (a n : Nat) : (s.zero a n).noc = s.noc := by unfold State.zero; split <;> rfl
@[simp] theorem State.zero_mt (s : State) (a n : Nat) : (s.zero a n).mt = s.mt := by unfold State.zero; split <;> rfl
@[simp] theorem State.zero_fch (s : State) (a n : Nat) : (s.zero a n).fch = s.fch := by unfold State.zero; split <;> rfl
@[simp] theorem State.zero_bnd (s : State) (a n : Nat) : (s.zero a n).bnd = s.bnd := by unfold State.zero; split <;> rfl
@[simp] theorem State.zero_step (s : State) (a n : Nat) : (s.zero a n).step = s.step := by unfold State.zero; split <;> rfl
@[simp] theorem State.zero_flt (s : State) (a n : Nat) : (s.zero a n).flt = s.flt := by unfold State.zero; split <;> rfl
@[simp] theorem State.zero_nor (s : State) (a n : Nat) : (s.zero a n).nor = s.nor := by unfold State.zero; split <;> rfl
@[simp] theorem State.zero_ctx (s : State) (a n : Nat) : (s.zero a n).ctx = s.ctx := by unfold State.zero; split <;> rfl
@[simp] theorem State.zero_hrd (s : State) (a n : Nat) : (s.zero a n).hrd = s.hrd := by unfold State.zero; split <;> rfl
@[simp] theorem State.zero_num (s : State) (a n : Nat) : (s.zero a n).num = s.num := by unfold State.zero; split <;> rfl
@[simp] theorem State.zero_fin (s : State) (a n : Nat) : (s.zero a n).fin = s.fin := by unfold State.zero; split <;> rfl
@[simp] theorem State.zero_lnk (s : State) (a n : Nat) : (s.zero a n).lnk = s.lnk := by unfold State.zero; split <;> rfl
@[simp] theorem State.zero_sec (s : State) (a n : Nat) : (s.zero a n).sec = s.sec := by unfold State.zero; split <;> rfl
@[simp] theorem State.zero_mgt (s : State) (a n : Nat) : (s.zero a n).mgt = s.mgt := by unfold State.zero; split <;> rfl
@[simp] theorem State.zero_pwr (s : State) (a n : Nat) : (s.zero a n).pwr = s.pwr := by unfold State.zero; split <;> rfl
@[simp] theorem State.zero_hif (s : State) (a n : Nat) : (s.zero a n).hif = s.hif := by unfold State.zero; split <;> rfl
@[simp] theorem State.zero_seq (s : State) (a n : Nat) : (s.zero a n).seq = s.seq := by unfold State.zero; split <;> rfl
@[simp] theorem State.zero_mirror (s : State) (a n : Nat) : (s.zero a n).mirror = s.mirror := by unfold State.zero; split <;> rfl
@[simp] theorem State.zero_fuse (s : State) (a n : Nat) : (s.zero a n).fuse = s.fuse := by unfold State.zero; split <;> rfl
@[simp] theorem State.zero_pkgEvent (s : State) (a n : Nat) : (s.zero a n).pkgEvent = s.pkgEvent := by unfold State.zero; split <;> rfl
@[simp] theorem State.zero_out (s : State) (a n : Nat) : (s.zero a n).out = s.out := by unfold State.zero; split <;> rfl
@[simp] theorem State.zero_fresh (s : State) (a n : Nat) : (s.zero a n).fresh = s.fresh := by unfold State.zero; split <;> rfl
@[simp] theorem State.zero_pending (s : State) (a n : Nat) : (s.zero a n).pending = s.pending := by unfold State.zero; split <;> rfl

@[simp] theorem State.copy_regs (s : State) (a b n : Nat) : (s.copy a b n).regs = s.regs := by unfold State.copy; split <;> simp
@[simp] theorem State.copy_cores (s : State) (a b n : Nat) : (s.copy a b n).cores = s.cores := by unfold State.copy; split <;> simp
@[simp] theorem State.copy_noc (s : State) (a b n : Nat) : (s.copy a b n).noc = s.noc := by unfold State.copy; split <;> simp
@[simp] theorem State.copy_mt (s : State) (a b n : Nat) : (s.copy a b n).mt = s.mt := by unfold State.copy; split <;> simp
@[simp] theorem State.copy_fch (s : State) (a b n : Nat) : (s.copy a b n).fch = s.fch := by unfold State.copy; split <;> simp
@[simp] theorem State.copy_bnd (s : State) (a b n : Nat) : (s.copy a b n).bnd = s.bnd := by unfold State.copy; split <;> simp
@[simp] theorem State.copy_step (s : State) (a b n : Nat) : (s.copy a b n).step = s.step := by unfold State.copy; split <;> simp
@[simp] theorem State.copy_flt (s : State) (a b n : Nat) : (s.copy a b n).flt = s.flt := by unfold State.copy; split <;> simp
@[simp] theorem State.copy_nor (s : State) (a b n : Nat) : (s.copy a b n).nor = s.nor := by unfold State.copy; split <;> simp
@[simp] theorem State.copy_ctx (s : State) (a b n : Nat) : (s.copy a b n).ctx = s.ctx := by unfold State.copy; split <;> simp
@[simp] theorem State.copy_hrd (s : State) (a b n : Nat) : (s.copy a b n).hrd = s.hrd := by unfold State.copy; split <;> simp
@[simp] theorem State.copy_num (s : State) (a b n : Nat) : (s.copy a b n).num = s.num := by unfold State.copy; split <;> simp
@[simp] theorem State.copy_fin (s : State) (a b n : Nat) : (s.copy a b n).fin = s.fin := by unfold State.copy; split <;> simp
@[simp] theorem State.copy_lnk (s : State) (a b n : Nat) : (s.copy a b n).lnk = s.lnk := by unfold State.copy; split <;> simp
@[simp] theorem State.copy_sec (s : State) (a b n : Nat) : (s.copy a b n).sec = s.sec := by unfold State.copy; split <;> simp
@[simp] theorem State.copy_mgt (s : State) (a b n : Nat) : (s.copy a b n).mgt = s.mgt := by unfold State.copy; split <;> simp
@[simp] theorem State.copy_pwr (s : State) (a b n : Nat) : (s.copy a b n).pwr = s.pwr := by unfold State.copy; split <;> simp
@[simp] theorem State.copy_hif (s : State) (a b n : Nat) : (s.copy a b n).hif = s.hif := by unfold State.copy; split <;> simp
@[simp] theorem State.copy_seq (s : State) (a b n : Nat) : (s.copy a b n).seq = s.seq := by unfold State.copy; split <;> simp
@[simp] theorem State.copy_mirror (s : State) (a b n : Nat) : (s.copy a b n).mirror = s.mirror := by unfold State.copy; split <;> simp
@[simp] theorem State.copy_fuse (s : State) (a b n : Nat) : (s.copy a b n).fuse = s.fuse := by unfold State.copy; split <;> simp
@[simp] theorem State.copy_pkgEvent (s : State) (a b n : Nat) : (s.copy a b n).pkgEvent = s.pkgEvent := by unfold State.copy; split <;> simp
@[simp] theorem State.copy_out (s : State) (a b n : Nat) : (s.copy a b n).out = s.out := by unfold State.copy; split <;> simp
@[simp] theorem State.copy_fresh (s : State) (a b n : Nat) : (s.copy a b n).fresh = s.fresh := by unfold State.copy; split <;> simp
@[simp] theorem State.copy_pending (s : State) (a b n : Nat) : (s.copy a b n).pending = s.pending := by unfold State.copy; split <;> simp

@[simp] theorem State.setRing_regs (s : State) (c : Nat) (r : RingState) : (s.setRing c r).regs = s.regs := rfl
@[simp] theorem State.setRing_mem (s : State) (c : Nat) (r : RingState) : (s.setRing c r).mem = s.mem := rfl
@[simp] theorem State.setRing_cores (s : State) (c : Nat) (r : RingState) : (s.setRing c r).cores = s.cores := rfl
@[simp] theorem State.setRing_noc (s : State) (c : Nat) (r : RingState) : (s.setRing c r).noc = s.noc := rfl
@[simp] theorem State.setRing_mt (s : State) (c : Nat) (r : RingState) : (s.setRing c r).mt = s.mt := rfl
@[simp] theorem State.setRing_fch (s : State) (c : Nat) (r : RingState) : (s.setRing c r).fch = s.fch := rfl
@[simp] theorem State.setRing_bnd (s : State) (c : Nat) (r : RingState) : (s.setRing c r).bnd = s.bnd := rfl
@[simp] theorem State.setRing_step (s : State) (c : Nat) (r : RingState) : (s.setRing c r).step = s.step := rfl
@[simp] theorem State.setRing_flt (s : State) (c : Nat) (r : RingState) : (s.setRing c r).flt = s.flt := rfl
@[simp] theorem State.setRing_nor (s : State) (c : Nat) (r : RingState) : (s.setRing c r).nor = s.nor := rfl
@[simp] theorem State.setRing_hrd (s : State) (c : Nat) (r : RingState) : (s.setRing c r).hrd = s.hrd := rfl
@[simp] theorem State.setRing_num (s : State) (c : Nat) (r : RingState) : (s.setRing c r).num = s.num := rfl
@[simp] theorem State.setRing_fin (s : State) (c : Nat) (r : RingState) : (s.setRing c r).fin = s.fin := rfl
@[simp] theorem State.setRing_lnk (s : State) (c : Nat) (r : RingState) : (s.setRing c r).lnk = s.lnk := rfl
@[simp] theorem State.setRing_sec (s : State) (c : Nat) (r : RingState) : (s.setRing c r).sec = s.sec := rfl
@[simp] theorem State.setRing_mgt (s : State) (c : Nat) (r : RingState) : (s.setRing c r).mgt = s.mgt := rfl
@[simp] theorem State.setRing_pwr (s : State) (c : Nat) (r : RingState) : (s.setRing c r).pwr = s.pwr := rfl
@[simp] theorem State.setRing_hif (s : State) (c : Nat) (r : RingState) : (s.setRing c r).hif = s.hif := rfl
@[simp] theorem State.setRing_seq (s : State) (c : Nat) (r : RingState) : (s.setRing c r).seq = s.seq := rfl
@[simp] theorem State.setRing_mirror (s : State) (c : Nat) (r : RingState) : (s.setRing c r).mirror = s.mirror := rfl
@[simp] theorem State.setRing_fuse (s : State) (c : Nat) (r : RingState) : (s.setRing c r).fuse = s.fuse := rfl
@[simp] theorem State.setRing_pkgEvent (s : State) (c : Nat) (r : RingState) : (s.setRing c r).pkgEvent = s.pkgEvent := rfl
@[simp] theorem State.setRing_out (s : State) (c : Nat) (r : RingState) : (s.setRing c r).out = s.out := rfl
@[simp] theorem State.setRing_fresh (s : State) (c : Nat) (r : RingState) : (s.setRing c r).fresh = s.fresh := rfl
@[simp] theorem State.setRing_pending (s : State) (c : Nat) (r : RingState) : (s.setRing c r).pending = s.pending := rfl

@[simp] theorem State.setBnd_regs (s : State) (b : BndState) : (s.setBnd b).regs = s.regs := rfl
@[simp] theorem State.setBnd_mem (s : State) (b : BndState) : (s.setBnd b).mem = s.mem := rfl
@[simp] theorem State.setBnd_cores (s : State) (b : BndState) : (s.setBnd b).cores = s.cores := rfl
@[simp] theorem State.setBnd_noc (s : State) (b : BndState) : (s.setBnd b).noc = s.noc := rfl
@[simp] theorem State.setBnd_mt (s : State) (b : BndState) : (s.setBnd b).mt = s.mt := rfl
@[simp] theorem State.setBnd_fch (s : State) (b : BndState) : (s.setBnd b).fch = s.fch := rfl
@[simp] theorem State.setBnd_step (s : State) (b : BndState) : (s.setBnd b).step = s.step := rfl
@[simp] theorem State.setBnd_flt (s : State) (b : BndState) : (s.setBnd b).flt = s.flt := rfl
@[simp] theorem State.setBnd_nor (s : State) (b : BndState) : (s.setBnd b).nor = s.nor := rfl
@[simp] theorem State.setBnd_ctx (s : State) (b : BndState) : (s.setBnd b).ctx = s.ctx := rfl
@[simp] theorem State.setBnd_hrd (s : State) (b : BndState) : (s.setBnd b).hrd = s.hrd := rfl
@[simp] theorem State.setBnd_num (s : State) (b : BndState) : (s.setBnd b).num = s.num := rfl
@[simp] theorem State.setBnd_fin (s : State) (b : BndState) : (s.setBnd b).fin = s.fin := rfl
@[simp] theorem State.setBnd_lnk (s : State) (b : BndState) : (s.setBnd b).lnk = s.lnk := rfl
@[simp] theorem State.setBnd_sec (s : State) (b : BndState) : (s.setBnd b).sec = s.sec := rfl
@[simp] theorem State.setBnd_mgt (s : State) (b : BndState) : (s.setBnd b).mgt = s.mgt := rfl
@[simp] theorem State.setBnd_pwr (s : State) (b : BndState) : (s.setBnd b).pwr = s.pwr := rfl
@[simp] theorem State.setBnd_hif (s : State) (b : BndState) : (s.setBnd b).hif = s.hif := rfl
@[simp] theorem State.setBnd_seq (s : State) (b : BndState) : (s.setBnd b).seq = s.seq := rfl
@[simp] theorem State.setBnd_mirror (s : State) (b : BndState) : (s.setBnd b).mirror = s.mirror := rfl
@[simp] theorem State.setBnd_fuse (s : State) (b : BndState) : (s.setBnd b).fuse = s.fuse := rfl
@[simp] theorem State.setBnd_pkgEvent (s : State) (b : BndState) : (s.setBnd b).pkgEvent = s.pkgEvent := rfl
@[simp] theorem State.setBnd_out (s : State) (b : BndState) : (s.setBnd b).out = s.out := rfl
@[simp] theorem State.setBnd_fresh (s : State) (b : BndState) : (s.setBnd b).fresh = s.fresh := rfl
@[simp] theorem State.setBnd_pending (s : State) (b : BndState) : (s.setBnd b).pending = s.pending := rfl

@[simp] theorem State.setFlt_regs (s : State) (b : FltState) : (s.setFlt b).regs = s.regs := rfl
@[simp] theorem State.setFlt_mem (s : State) (b : FltState) : (s.setFlt b).mem = s.mem := rfl
@[simp] theorem State.setFlt_cores (s : State) (b : FltState) : (s.setFlt b).cores = s.cores := rfl
@[simp] theorem State.setFlt_noc (s : State) (b : FltState) : (s.setFlt b).noc = s.noc := rfl
@[simp] theorem State.setFlt_mt (s : State) (b : FltState) : (s.setFlt b).mt = s.mt := rfl
@[simp] theorem State.setFlt_fch (s : State) (b : FltState) : (s.setFlt b).fch = s.fch := rfl
@[simp] theorem State.setFlt_bnd (s : State) (b : FltState) : (s.setFlt b).bnd = s.bnd := rfl
@[simp] theorem State.setFlt_step (s : State) (b : FltState) : (s.setFlt b).step = s.step := rfl
@[simp] theorem State.setFlt_nor (s : State) (b : FltState) : (s.setFlt b).nor = s.nor := rfl
@[simp] theorem State.setFlt_ctx (s : State) (b : FltState) : (s.setFlt b).ctx = s.ctx := rfl
@[simp] theorem State.setFlt_hrd (s : State) (b : FltState) : (s.setFlt b).hrd = s.hrd := rfl
@[simp] theorem State.setFlt_num (s : State) (b : FltState) : (s.setFlt b).num = s.num := rfl
@[simp] theorem State.setFlt_fin (s : State) (b : FltState) : (s.setFlt b).fin = s.fin := rfl
@[simp] theorem State.setFlt_lnk (s : State) (b : FltState) : (s.setFlt b).lnk = s.lnk := rfl
@[simp] theorem State.setFlt_sec (s : State) (b : FltState) : (s.setFlt b).sec = s.sec := rfl
@[simp] theorem State.setFlt_mgt (s : State) (b : FltState) : (s.setFlt b).mgt = s.mgt := rfl
@[simp] theorem State.setFlt_pwr (s : State) (b : FltState) : (s.setFlt b).pwr = s.pwr := rfl
@[simp] theorem State.setFlt_hif (s : State) (b : FltState) : (s.setFlt b).hif = s.hif := rfl
@[simp] theorem State.setFlt_seq (s : State) (b : FltState) : (s.setFlt b).seq = s.seq := rfl
@[simp] theorem State.setFlt_mirror (s : State) (b : FltState) : (s.setFlt b).mirror = s.mirror := rfl
@[simp] theorem State.setFlt_fuse (s : State) (b : FltState) : (s.setFlt b).fuse = s.fuse := rfl
@[simp] theorem State.setFlt_pkgEvent (s : State) (b : FltState) : (s.setFlt b).pkgEvent = s.pkgEvent := rfl
@[simp] theorem State.setFlt_out (s : State) (b : FltState) : (s.setFlt b).out = s.out := rfl
@[simp] theorem State.setFlt_fresh (s : State) (b : FltState) : (s.setFlt b).fresh = s.fresh := rfl
@[simp] theorem State.setFlt_pending (s : State) (b : FltState) : (s.setFlt b).pending = s.pending := rfl

@[simp] theorem State.setMgt_regs (s : State) (b : MgtState) : (s.setMgt b).regs = s.regs := rfl
@[simp] theorem State.setMgt_mem (s : State) (b : MgtState) : (s.setMgt b).mem = s.mem := rfl
@[simp] theorem State.setMgt_cores (s : State) (b : MgtState) : (s.setMgt b).cores = s.cores := rfl
@[simp] theorem State.setMgt_noc (s : State) (b : MgtState) : (s.setMgt b).noc = s.noc := rfl
@[simp] theorem State.setMgt_mt (s : State) (b : MgtState) : (s.setMgt b).mt = s.mt := rfl
@[simp] theorem State.setMgt_fch (s : State) (b : MgtState) : (s.setMgt b).fch = s.fch := rfl
@[simp] theorem State.setMgt_bnd (s : State) (b : MgtState) : (s.setMgt b).bnd = s.bnd := rfl
@[simp] theorem State.setMgt_step (s : State) (b : MgtState) : (s.setMgt b).step = s.step := rfl
@[simp] theorem State.setMgt_flt (s : State) (b : MgtState) : (s.setMgt b).flt = s.flt := rfl
@[simp] theorem State.setMgt_nor (s : State) (b : MgtState) : (s.setMgt b).nor = s.nor := rfl
@[simp] theorem State.setMgt_ctx (s : State) (b : MgtState) : (s.setMgt b).ctx = s.ctx := rfl
@[simp] theorem State.setMgt_hrd (s : State) (b : MgtState) : (s.setMgt b).hrd = s.hrd := rfl
@[simp] theorem State.setMgt_num (s : State) (b : MgtState) : (s.setMgt b).num = s.num := rfl
@[simp] theorem State.setMgt_fin (s : State) (b : MgtState) : (s.setMgt b).fin = s.fin := rfl
@[simp] theorem State.setMgt_lnk (s : State) (b : MgtState) : (s.setMgt b).lnk = s.lnk := rfl
@[simp] theorem State.setMgt_sec (s : State) (b : MgtState) : (s.setMgt b).sec = s.sec := rfl
@[simp] theorem State.setMgt_pwr (s : State) (b : MgtState) : (s.setMgt b).pwr = s.pwr := rfl
@[simp] theorem State.setMgt_hif (s : State) (b : MgtState) : (s.setMgt b).hif = s.hif := rfl
@[simp] theorem State.setMgt_seq (s : State) (b : MgtState) : (s.setMgt b).seq = s.seq := rfl
@[simp] theorem State.setMgt_mirror (s : State) (b : MgtState) : (s.setMgt b).mirror = s.mirror := rfl
@[simp] theorem State.setMgt_fuse (s : State) (b : MgtState) : (s.setMgt b).fuse = s.fuse := rfl
@[simp] theorem State.setMgt_pkgEvent (s : State) (b : MgtState) : (s.setMgt b).pkgEvent = s.pkgEvent := rfl
@[simp] theorem State.setMgt_out (s : State) (b : MgtState) : (s.setMgt b).out = s.out := rfl
@[simp] theorem State.setMgt_fresh (s : State) (b : MgtState) : (s.setMgt b).fresh = s.fresh := rfl
@[simp] theorem State.setMgt_pending (s : State) (b : MgtState) : (s.setMgt b).pending = s.pending := rfl

@[simp] theorem State.setPwr_regs (s : State) (b : PwrState) : (s.setPwr b).regs = s.regs := rfl
@[simp] theorem State.setPwr_mem (s : State) (b : PwrState) : (s.setPwr b).mem = s.mem := rfl
@[simp] theorem State.setPwr_cores (s : State) (b : PwrState) : (s.setPwr b).cores = s.cores := rfl
@[simp] theorem State.setPwr_noc (s : State) (b : PwrState) : (s.setPwr b).noc = s.noc := rfl
@[simp] theorem State.setPwr_mt (s : State) (b : PwrState) : (s.setPwr b).mt = s.mt := rfl
@[simp] theorem State.setPwr_fch (s : State) (b : PwrState) : (s.setPwr b).fch = s.fch := rfl
@[simp] theorem State.setPwr_bnd (s : State) (b : PwrState) : (s.setPwr b).bnd = s.bnd := rfl
@[simp] theorem State.setPwr_step (s : State) (b : PwrState) : (s.setPwr b).step = s.step := rfl
@[simp] theorem State.setPwr_flt (s : State) (b : PwrState) : (s.setPwr b).flt = s.flt := rfl
@[simp] theorem State.setPwr_nor (s : State) (b : PwrState) : (s.setPwr b).nor = s.nor := rfl
@[simp] theorem State.setPwr_ctx (s : State) (b : PwrState) : (s.setPwr b).ctx = s.ctx := rfl
@[simp] theorem State.setPwr_hrd (s : State) (b : PwrState) : (s.setPwr b).hrd = s.hrd := rfl
@[simp] theorem State.setPwr_num (s : State) (b : PwrState) : (s.setPwr b).num = s.num := rfl
@[simp] theorem State.setPwr_fin (s : State) (b : PwrState) : (s.setPwr b).fin = s.fin := rfl
@[simp] theorem State.setPwr_lnk (s : State) (b : PwrState) : (s.setPwr b).lnk = s.lnk := rfl
@[simp] theorem State.setPwr_sec (s : State) (b : PwrState) : (s.setPwr b).sec = s.sec := rfl
@[simp] theorem State.setPwr_mgt (s : State) (b : PwrState) : (s.setPwr b).mgt = s.mgt := rfl
@[simp] theorem State.setPwr_hif (s : State) (b : PwrState) : (s.setPwr b).hif = s.hif := rfl
@[simp] theorem State.setPwr_seq (s : State) (b : PwrState) : (s.setPwr b).seq = s.seq := rfl
@[simp] theorem State.setPwr_mirror (s : State) (b : PwrState) : (s.setPwr b).mirror = s.mirror := rfl
@[simp] theorem State.setPwr_fuse (s : State) (b : PwrState) : (s.setPwr b).fuse = s.fuse := rfl
@[simp] theorem State.setPwr_pkgEvent (s : State) (b : PwrState) : (s.setPwr b).pkgEvent = s.pkgEvent := rfl
@[simp] theorem State.setPwr_out (s : State) (b : PwrState) : (s.setPwr b).out = s.out := rfl
@[simp] theorem State.setPwr_fresh (s : State) (b : PwrState) : (s.setPwr b).fresh = s.fresh := rfl
@[simp] theorem State.setPwr_pending (s : State) (b : PwrState) : (s.setPwr b).pending = s.pending := rfl

@[simp] theorem State.setSec_regs (s : State) (b : SecState) : (s.setSec b).regs = s.regs := rfl
@[simp] theorem State.setSec_mem (s : State) (b : SecState) : (s.setSec b).mem = s.mem := rfl
@[simp] theorem State.setSec_cores (s : State) (b : SecState) : (s.setSec b).cores = s.cores := rfl
@[simp] theorem State.setSec_noc (s : State) (b : SecState) : (s.setSec b).noc = s.noc := rfl
@[simp] theorem State.setSec_mt (s : State) (b : SecState) : (s.setSec b).mt = s.mt := rfl
@[simp] theorem State.setSec_fch (s : State) (b : SecState) : (s.setSec b).fch = s.fch := rfl
@[simp] theorem State.setSec_bnd (s : State) (b : SecState) : (s.setSec b).bnd = s.bnd := rfl
@[simp] theorem State.setSec_step (s : State) (b : SecState) : (s.setSec b).step = s.step := rfl
@[simp] theorem State.setSec_flt (s : State) (b : SecState) : (s.setSec b).flt = s.flt := rfl
@[simp] theorem State.setSec_nor (s : State) (b : SecState) : (s.setSec b).nor = s.nor := rfl
@[simp] theorem State.setSec_ctx (s : State) (b : SecState) : (s.setSec b).ctx = s.ctx := rfl
@[simp] theorem State.setSec_hrd (s : State) (b : SecState) : (s.setSec b).hrd = s.hrd := rfl
@[simp] theorem State.setSec_num (s : State) (b : SecState) : (s.setSec b).num = s.num := rfl
@[simp] theorem State.setSec_fin (s : State) (b : SecState) : (s.setSec b).fin = s.fin := rfl
@[simp] theorem State.setSec_lnk (s : State) (b : SecState) : (s.setSec b).lnk = s.lnk := rfl
@[simp] theorem State.setSec_mgt (s : State) (b : SecState) : (s.setSec b).mgt = s.mgt := rfl
@[simp] theorem State.setSec_pwr (s : State) (b : SecState) : (s.setSec b).pwr = s.pwr := rfl
@[simp] theorem State.setSec_hif (s : State) (b : SecState) : (s.setSec b).hif = s.hif := rfl
@[simp] theorem State.setSec_seq (s : State) (b : SecState) : (s.setSec b).seq = s.seq := rfl
@[simp] theorem State.setSec_mirror (s : State) (b : SecState) : (s.setSec b).mirror = s.mirror := rfl
@[simp] theorem State.setSec_fuse (s : State) (b : SecState) : (s.setSec b).fuse = s.fuse := rfl
@[simp] theorem State.setSec_pkgEvent (s : State) (b : SecState) : (s.setSec b).pkgEvent = s.pkgEvent := rfl
@[simp] theorem State.setSec_out (s : State) (b : SecState) : (s.setSec b).out = s.out := rfl
@[simp] theorem State.setSec_fresh (s : State) (b : SecState) : (s.setSec b).fresh = s.fresh := rfl
@[simp] theorem State.setSec_pending (s : State) (b : SecState) : (s.setSec b).pending = s.pending := rfl

@[simp] theorem State.setHif_regs (s : State) (b : HifState) : (s.setHif b).regs = s.regs := rfl
@[simp] theorem State.setHif_mem (s : State) (b : HifState) : (s.setHif b).mem = s.mem := rfl
@[simp] theorem State.setHif_cores (s : State) (b : HifState) : (s.setHif b).cores = s.cores := rfl
@[simp] theorem State.setHif_noc (s : State) (b : HifState) : (s.setHif b).noc = s.noc := rfl
@[simp] theorem State.setHif_mt (s : State) (b : HifState) : (s.setHif b).mt = s.mt := rfl
@[simp] theorem State.setHif_fch (s : State) (b : HifState) : (s.setHif b).fch = s.fch := rfl
@[simp] theorem State.setHif_bnd (s : State) (b : HifState) : (s.setHif b).bnd = s.bnd := rfl
@[simp] theorem State.setHif_step (s : State) (b : HifState) : (s.setHif b).step = s.step := rfl
@[simp] theorem State.setHif_flt (s : State) (b : HifState) : (s.setHif b).flt = s.flt := rfl
@[simp] theorem State.setHif_nor (s : State) (b : HifState) : (s.setHif b).nor = s.nor := rfl
@[simp] theorem State.setHif_ctx (s : State) (b : HifState) : (s.setHif b).ctx = s.ctx := rfl
@[simp] theorem State.setHif_hrd (s : State) (b : HifState) : (s.setHif b).hrd = s.hrd := rfl
@[simp] theorem State.setHif_num (s : State) (b : HifState) : (s.setHif b).num = s.num := rfl
@[simp] theorem State.setHif_fin (s : State) (b : HifState) : (s.setHif b).fin = s.fin := rfl
@[simp] theorem State.setHif_lnk (s : State) (b : HifState) : (s.setHif b).lnk = s.lnk := rfl
@[simp] theorem State.setHif_sec (s : State) (b : HifState) : (s.setHif b).sec = s.sec := rfl
@[simp] theorem State.setHif_mgt (s : State) (b : HifState) : (s.setHif b).mgt = s.mgt := rfl
@[simp] theorem State.setHif_pwr (s : State) (b : HifState) : (s.setHif b).pwr = s.pwr := rfl
@[simp] theorem State.setHif_seq (s : State) (b : HifState) : (s.setHif b).seq = s.seq := rfl
@[simp] theorem State.setHif_mirror (s : State) (b : HifState) : (s.setHif b).mirror = s.mirror := rfl
@[simp] theorem State.setHif_fuse (s : State) (b : HifState) : (s.setHif b).fuse = s.fuse := rfl
@[simp] theorem State.setHif_pkgEvent (s : State) (b : HifState) : (s.setHif b).pkgEvent = s.pkgEvent := rfl
@[simp] theorem State.setHif_out (s : State) (b : HifState) : (s.setHif b).out = s.out := rfl
@[simp] theorem State.setHif_fresh (s : State) (b : HifState) : (s.setHif b).fresh = s.fresh := rfl
@[simp] theorem State.setHif_pending (s : State) (b : HifState) : (s.setHif b).pending = s.pending := rfl

@[simp] theorem State.setLnk_regs (s : State) (b : LnkState) : (s.setLnk b).regs = s.regs := rfl
@[simp] theorem State.setLnk_mem (s : State) (b : LnkState) : (s.setLnk b).mem = s.mem := rfl
@[simp] theorem State.setLnk_cores (s : State) (b : LnkState) : (s.setLnk b).cores = s.cores := rfl
@[simp] theorem State.setLnk_noc (s : State) (b : LnkState) : (s.setLnk b).noc = s.noc := rfl
@[simp] theorem State.setLnk_mt (s : State) (b : LnkState) : (s.setLnk b).mt = s.mt := rfl
@[simp] theorem State.setLnk_fch (s : State) (b : LnkState) : (s.setLnk b).fch = s.fch := rfl
@[simp] theorem State.setLnk_bnd (s : State) (b : LnkState) : (s.setLnk b).bnd = s.bnd := rfl
@[simp] theorem State.setLnk_step (s : State) (b : LnkState) : (s.setLnk b).step = s.step := rfl
@[simp] theorem State.setLnk_flt (s : State) (b : LnkState) : (s.setLnk b).flt = s.flt := rfl
@[simp] theorem State.setLnk_nor (s : State) (b : LnkState) : (s.setLnk b).nor = s.nor := rfl
@[simp] theorem State.setLnk_ctx (s : State) (b : LnkState) : (s.setLnk b).ctx = s.ctx := rfl
@[simp] theorem State.setLnk_hrd (s : State) (b : LnkState) : (s.setLnk b).hrd = s.hrd := rfl
@[simp] theorem State.setLnk_num (s : State) (b : LnkState) : (s.setLnk b).num = s.num := rfl
@[simp] theorem State.setLnk_fin (s : State) (b : LnkState) : (s.setLnk b).fin = s.fin := rfl
@[simp] theorem State.setLnk_sec (s : State) (b : LnkState) : (s.setLnk b).sec = s.sec := rfl
@[simp] theorem State.setLnk_mgt (s : State) (b : LnkState) : (s.setLnk b).mgt = s.mgt := rfl
@[simp] theorem State.setLnk_pwr (s : State) (b : LnkState) : (s.setLnk b).pwr = s.pwr := rfl
@[simp] theorem State.setLnk_hif (s : State) (b : LnkState) : (s.setLnk b).hif = s.hif := rfl
@[simp] theorem State.setLnk_seq (s : State) (b : LnkState) : (s.setLnk b).seq = s.seq := rfl
@[simp] theorem State.setLnk_mirror (s : State) (b : LnkState) : (s.setLnk b).mirror = s.mirror := rfl
@[simp] theorem State.setLnk_fuse (s : State) (b : LnkState) : (s.setLnk b).fuse = s.fuse := rfl
@[simp] theorem State.setLnk_pkgEvent (s : State) (b : LnkState) : (s.setLnk b).pkgEvent = s.pkgEvent := rfl
@[simp] theorem State.setLnk_out (s : State) (b : LnkState) : (s.setLnk b).out = s.out := rfl
@[simp] theorem State.setLnk_fresh (s : State) (b : LnkState) : (s.setLnk b).fresh = s.fresh := rfl
@[simp] theorem State.setLnk_pending (s : State) (b : LnkState) : (s.setLnk b).pending = s.pending := rfl

@[simp] theorem State.setTok_regs (s : State) (n : Nat) (t : Token) : (s.setTok n t).regs = s.regs := rfl
@[simp] theorem State.setTok_mem (s : State) (n : Nat) (t : Token) : (s.setTok n t).mem = s.mem := rfl
@[simp] theorem State.setTok_cores (s : State) (n : Nat) (t : Token) : (s.setTok n t).cores = s.cores := rfl
@[simp] theorem State.setTok_mt (s : State) (n : Nat) (t : Token) : (s.setTok n t).mt = s.mt := rfl
@[simp] theorem State.setTok_fch (s : State) (n : Nat) (t : Token) : (s.setTok n t).fch = s.fch := rfl
@[simp] theorem State.setTok_bnd (s : State) (n : Nat) (t : Token) : (s.setTok n t).bnd = s.bnd := rfl
@[simp] theorem State.setTok_step (s : State) (n : Nat) (t : Token) : (s.setTok n t).step = s.step := rfl
@[simp] theorem State.setTok_flt (s : State) (n : Nat) (t : Token) : (s.setTok n t).flt = s.flt := rfl
@[simp] theorem State.setTok_nor (s : State) (n : Nat) (t : Token) : (s.setTok n t).nor = s.nor := rfl
@[simp] theorem State.setTok_ctx (s : State) (n : Nat) (t : Token) : (s.setTok n t).ctx = s.ctx := rfl
@[simp] theorem State.setTok_hrd (s : State) (n : Nat) (t : Token) : (s.setTok n t).hrd = s.hrd := rfl
@[simp] theorem State.setTok_num (s : State) (n : Nat) (t : Token) : (s.setTok n t).num = s.num := rfl
@[simp] theorem State.setTok_fin (s : State) (n : Nat) (t : Token) : (s.setTok n t).fin = s.fin := rfl
@[simp] theorem State.setTok_lnk (s : State) (n : Nat) (t : Token) : (s.setTok n t).lnk = s.lnk := rfl
@[simp] theorem State.setTok_sec (s : State) (n : Nat) (t : Token) : (s.setTok n t).sec = s.sec := rfl
@[simp] theorem State.setTok_mgt (s : State) (n : Nat) (t : Token) : (s.setTok n t).mgt = s.mgt := rfl
@[simp] theorem State.setTok_pwr (s : State) (n : Nat) (t : Token) : (s.setTok n t).pwr = s.pwr := rfl
@[simp] theorem State.setTok_hif (s : State) (n : Nat) (t : Token) : (s.setTok n t).hif = s.hif := rfl
@[simp] theorem State.setTok_seq (s : State) (n : Nat) (t : Token) : (s.setTok n t).seq = s.seq := rfl
@[simp] theorem State.setTok_mirror (s : State) (n : Nat) (t : Token) : (s.setTok n t).mirror = s.mirror := rfl
@[simp] theorem State.setTok_fuse (s : State) (n : Nat) (t : Token) : (s.setTok n t).fuse = s.fuse := rfl
@[simp] theorem State.setTok_pkgEvent (s : State) (n : Nat) (t : Token) : (s.setTok n t).pkgEvent = s.pkgEvent := rfl
@[simp] theorem State.setTok_out (s : State) (n : Nat) (t : Token) : (s.setTok n t).out = s.out := rfl
@[simp] theorem State.setTok_fresh (s : State) (n : Nat) (t : Token) : (s.setTok n t).fresh = s.fresh := rfl
@[simp] theorem State.setTok_pending (s : State) (n : Nat) (t : Token) : (s.setTok n t).pending = s.pending := rfl

@[simp] theorem State.dropTok_regs (s : State) (n : Nat) : (s.dropTok n).regs = s.regs := rfl
@[simp] theorem State.dropTok_mem (s : State) (n : Nat) : (s.dropTok n).mem = s.mem := rfl
@[simp] theorem State.dropTok_cores (s : State) (n : Nat) : (s.dropTok n).cores = s.cores := rfl
@[simp] theorem State.dropTok_mt (s : State) (n : Nat) : (s.dropTok n).mt = s.mt := rfl
@[simp] theorem State.dropTok_fch (s : State) (n : Nat) : (s.dropTok n).fch = s.fch := rfl
@[simp] theorem State.dropTok_bnd (s : State) (n : Nat) : (s.dropTok n).bnd = s.bnd := rfl
@[simp] theorem State.dropTok_step (s : State) (n : Nat) : (s.dropTok n).step = s.step := rfl
@[simp] theorem State.dropTok_flt (s : State) (n : Nat) : (s.dropTok n).flt = s.flt := rfl
@[simp] theorem State.dropTok_nor (s : State) (n : Nat) : (s.dropTok n).nor = s.nor := rfl
@[simp] theorem State.dropTok_ctx (s : State) (n : Nat) : (s.dropTok n).ctx = s.ctx := rfl
@[simp] theorem State.dropTok_hrd (s : State) (n : Nat) : (s.dropTok n).hrd = s.hrd := rfl
@[simp] theorem State.dropTok_num (s : State) (n : Nat) : (s.dropTok n).num = s.num := rfl
@[simp] theorem State.dropTok_fin (s : State) (n : Nat) : (s.dropTok n).fin = s.fin := rfl
@[simp] theorem State.dropTok_lnk (s : State) (n : Nat) : (s.dropTok n).lnk = s.lnk := rfl
@[simp] theorem State.dropTok_sec (s : State) (n : Nat) : (s.dropTok n).sec = s.sec := rfl
@[simp] theorem State.dropTok_mgt (s : State) (n : Nat) : (s.dropTok n).mgt = s.mgt := rfl
@[simp] theorem State.dropTok_pwr (s : State) (n : Nat) : (s.dropTok n).pwr = s.pwr := rfl
@[simp] theorem State.dropTok_hif (s : State) (n : Nat) : (s.dropTok n).hif = s.hif := rfl
@[simp] theorem State.dropTok_seq (s : State) (n : Nat) : (s.dropTok n).seq = s.seq := rfl
@[simp] theorem State.dropTok_mirror (s : State) (n : Nat) : (s.dropTok n).mirror = s.mirror := rfl
@[simp] theorem State.dropTok_fuse (s : State) (n : Nat) : (s.dropTok n).fuse = s.fuse := rfl
@[simp] theorem State.dropTok_pkgEvent (s : State) (n : Nat) : (s.dropTok n).pkgEvent = s.pkgEvent := rfl
@[simp] theorem State.dropTok_out (s : State) (n : Nat) : (s.dropTok n).out = s.out := rfl
@[simp] theorem State.dropTok_fresh (s : State) (n : Nat) : (s.dropTok n).fresh = s.fresh := rfl
@[simp] theorem State.dropTok_pending (s : State) (n : Nat) : (s.dropTok n).pending = s.pending := rfl
/-! ## Reading back -/

theorem Reg.key_inj {r q : Reg} {i j : Nat} (hr : r.num < 512) (hq : q.num < 512) (h : r.key i = q.key j) :
    r.num = q.num ∧ i = j := by
  unfold Reg.key at h; omega

/-- A register copy reads what was written to it. -/
@[simp] theorem State.rd_wr_self (s : State) (r : Reg) (i : Nat) (v : DWord) : (s.wr r i v).rd r i = v := by
  simp [State.rd, State.wr, spGet_spSet]

/-- A write leaves every other copy alone. -/
theorem State.rd_wr_ne (s : State) (r q : Reg) (i j : Nat) (v : DWord) (h : q.key j ≠ r.key i) :
    (s.wr r i v).rd q j = s.rd q j :=
  spGet_spSet_ne _ _ _ _ _ _ h

/-- A core reads what was written to it. -/
@[simp] theorem State.core_setCore_self (s : State) (k : Nat) (c : CoreState) : (s.setCore k c).core k = c := by
  simp [State.core, State.setCore, spGet_spSet]

/-- A write of a core leaves the others alone. -/
theorem State.core_setCore_ne (s : State) {k j : Nat} (c : CoreState) (h : j ≠ k) : (s.setCore k c).core j = s.core j := by
  simp [State.core, State.setCore, spGet_spSet, h]

/-- A context's ring reads what was written to it. -/
@[simp] theorem State.ring_setRing_self (s : State) (c : Nat) (r : RingState) : (s.setRing c r).ring c = r := by
  simp [State.ring, State.setRing, spGet_spSet]

/-- The outcome of a command on a package that acts. -/
theorem State.act_live {s : State} (t : State) (h : s.live = true) : s.act t = .next t := by simp [State.act, h]

/-- The outcome of a command on a package that does not act. -/
theorem State.act_dead {s : State} (t : State) (h : s.live = false) : s.act t = .next s := by simp [State.act, h]

/-! ## What the memory operations of the state do -/

/-- A fold of steps that each keep the canonical form keeps it. -/
theorem memWf_foldl {α : Type} (f : Sparse Byte → α → Sparse Byte) (h : ∀ m x, memWf m = true → memWf (f m x) = true) (l : List α) :
    ∀ m : Sparse Byte, memWf m = true → memWf (l.foldl f m) = true := by
  induction l with
  | nil => intro m w; exact w
  | cons x t ih => intro m w; exact ih _ (h m x w)

/-- Every memory operation of the state keeps the canonical form. -/
theorem State.memWf_store {s : State} (a : Nat) (bs : List Byte) (w : memWf s.mem = true) : memWf (s.store a bs).mem = true := by
  unfold State.store
  split
  · exact memWf_foldl _ (fun m c w => memWf_memStore _ m _ w) _ _ w
  · exact memWf_memStore _ _ _ w
theorem State.memWf_storeN {s : State} (a n v : Nat) (w : memWf s.mem = true) : memWf (s.storeN a n v).mem = true :=
  State.memWf_store a _ w
theorem State.memWf_zero {s : State} (a n : Nat) (w : memWf s.mem = true) : memWf (s.zero a n).mem = true := by
  unfold State.zero
  split
  · exact memWf_foldl _ (fun m c w => memWf_spClear _ _ w) _ _ w
  · exact memWf_spClear _ _ w
theorem State.memWf_copy {s : State} (a b n : Nat) (w : memWf s.mem = true) : memWf (s.copy a b n).mem = true := by
  unfold State.copy
  split
  · exact State.memWf_store _ _ w
  · exact memWf_memCopy _ _ _ w

/-- A sampled row comes after those already sampled before it (R46, R494). -/
theorem State.sampleRow_eq (s : State) (cls src : Nat) (c : Instr) :
    s.sampleRow cls src c = { s with seq := s.seq.add ⟨cls, src, dieOf cls src, .row c⟩ } := rfl

end Sys2Proof.Machine
end

