-- ==== Sys2Proof/Laws/Fields.lean ====
section
/-! SUPPORT. Laws/Fields.lean: a register's fields read back what was written to them, and disjoint fields do not disturb each
other. -/

namespace Sys2Proof.Machine

theorem splitf (v lo w : Nat) : ∃ a b c, v = a * (2 ^ lo * 2 ^ w) + b * 2 ^ lo + c ∧ b < 2 ^ w ∧ c < 2 ^ lo :=
  ⟨v / 2 ^ lo / 2 ^ w, v / 2 ^ lo % 2 ^ w, v % 2 ^ lo, by
    have h1 := Nat.div_add_mod v (2 ^ lo)
    have h2 := Nat.div_add_mod (v / 2 ^ lo) (2 ^ w)
    calc v = 2 ^ lo * (2 ^ w * (v / 2 ^ lo / 2 ^ w) + v / 2 ^ lo % 2 ^ w) + v % 2 ^ lo := by rw [h2, h1]
      _ = _ := by ring, Nat.mod_lt _ (by positivity), Nat.mod_lt _ (by positivity)⟩

theorem bits_of (a b c hi lo : Nat) (hb : b < 2 ^ (hi + 1 - lo)) (hc : c < 2 ^ lo) :
    bits (a * (2 ^ lo * 2 ^ (hi + 1 - lo)) + b * 2 ^ lo + c) hi lo = b := by
  unfold bits
  have h1 : (a * (2 ^ lo * 2 ^ (hi + 1 - lo)) + b * 2 ^ lo + c) / 2 ^ lo = a * 2 ^ (hi + 1 - lo) + b := by
    rw [show a * (2 ^ lo * 2 ^ (hi + 1 - lo)) + b * 2 ^ lo + c = c + 2 ^ lo * (a * 2 ^ (hi + 1 - lo) + b) by ring,
      Nat.add_mul_div_left _ _ (by positivity), Nat.div_eq_of_lt hc]; simp
  rw [h1, Nat.mul_comm a, Nat.mul_add_mod, Nat.mod_eq_of_lt hb]

theorem putBits_of (a b c hi lo f : Nat) (hb : b < 2 ^ (hi + 1 - lo)) (hc : c < 2 ^ lo) :
    putBits (a * (2 ^ lo * 2 ^ (hi + 1 - lo)) + b * 2 ^ lo + c) hi lo f =
      a * (2 ^ lo * 2 ^ (hi + 1 - lo)) + (f % 2 ^ (hi + 1 - lo)) * 2 ^ lo + c := by
  unfold putBits
  rw [bits_of a b c hi lo hb hc]; omega
/-- A field reads what was written to it. -/
theorem bits_putBits (v hi lo f : Nat) : bits (putBits v hi lo f) hi lo = f % 2 ^ (hi + 1 - lo) := by
  obtain ⟨a, b, c, rfl, hb, hc⟩ := splitf v lo (hi + 1 - lo)
  rw [putBits_of a b c hi lo f hb hc, bits_of _ _ _ _ _ (Nat.mod_lt _ (by positivity)) hc]
/-- Fields above and below it keep their bits. -/
theorem bits_putBits_above (v hi lo f hi' lo' : Nat) (h : lo ≤ hi) (hd : hi < lo') : bits (putBits v hi lo f) hi' lo' = bits v hi' lo' := by
  obtain ⟨a, b, c, rfl, hb, hc⟩ := splitf v lo (hi + 1 - lo)
  rw [putBits_of a b c hi lo f hb hc]
  have key : ∀ x < 2 ^ (hi + 1 - lo), (a * (2 ^ lo * 2 ^ (hi + 1 - lo)) + x * 2 ^ lo + c) / 2 ^ lo' = a / 2 ^ (lo' - (hi + 1)) := by
    intro x hx
    have e : 2 ^ lo' = (2 ^ lo * 2 ^ (hi + 1 - lo)) * 2 ^ (lo' - (hi + 1)) := by rw [← pow_add, ← pow_add]; congr 1; omega
    rw [e, ← Nat.div_div_eq_div_mul]
    congr 1
    have : x * 2 ^ lo + c < 2 ^ lo * 2 ^ (hi + 1 - lo) := by nlinarith
    rw [show a * (2 ^ lo * 2 ^ (hi + 1 - lo)) + x * 2 ^ lo + c = (x * 2 ^ lo + c) + (2 ^ lo * 2 ^ (hi + 1 - lo)) * a by ring,
      Nat.add_mul_div_left _ _ (by positivity), Nat.div_eq_of_lt this]; simp
  unfold bits
  rw [key _ (Nat.mod_lt _ (by positivity)), key _ hb]

theorem bits_putBits_below (v hi lo f hi' lo' : Nat) (hd : hi' < lo) : bits (putBits v hi lo f) hi' lo' = bits v hi' lo' := by
  obtain ⟨a, b, c, rfl, hb, hc⟩ := splitf v lo (hi + 1 - lo)
  rw [putBits_of a b c hi lo f hb hc]
  by_cases hl : lo' ≤ hi'
  · have key : ∀ x, (a * (2 ^ lo * 2 ^ (hi + 1 - lo)) + x * 2 ^ lo + c) / 2 ^ lo' % 2 ^ (hi' + 1 - lo') = c / 2 ^ lo' % 2 ^ (hi' + 1 - lo') := by
      intro x
      have e : 2 ^ lo = 2 ^ lo' * (2 ^ (hi' + 1 - lo') * 2 ^ (lo - (hi' + 1))) := by rw [← pow_add, ← pow_add]; congr 1; omega
      rw [show a * (2 ^ lo * 2 ^ (hi + 1 - lo)) + x * 2 ^ lo + c = c + 2 ^ lo * (a * 2 ^ (hi + 1 - lo) + x) by ring]
      rw [e, Nat.mul_assoc, Nat.add_mul_div_left _ _ (by positivity), Nat.mul_assoc, Nat.add_mul_mod_self_left]
    unfold bits; rw [key, key]
  · unfold bits; rw [show hi' + 1 - lo' = 0 by omega]; simp [Nat.mod_one]

theorem putBits_lt (v hi lo f : Nat) (h : lo ≤ hi) (hh : hi < 64) (hv : v < 2 ^ 64) : putBits v hi lo f < 2 ^ 64 := by
  obtain ⟨a, b, c, rfl, hb, hc⟩ := splitf v lo (hi + 1 - lo)
  rw [putBits_of a b c hi lo f hb hc]
  have e : 2 ^ 64 = (2 ^ lo * 2 ^ (hi + 1 - lo)) * 2 ^ (63 - hi) := by rw [← pow_add, ← pow_add]; congr 1; omega
  have hf : f % 2 ^ (hi + 1 - lo) < 2 ^ (hi + 1 - lo) := Nat.mod_lt _ (by positivity)
  set P := 2 ^ lo
  set W := 2 ^ (hi + 1 - lo)
  rw [e] at hv ⊢
  have ha : a < 2 ^ (63 - hi) := by
    by_contra hn; push Not at hn
    have : P * W * 2 ^ (63 - hi) ≤ a * (P * W) := by rw [Nat.mul_comm a]; exact Nat.mul_le_mul_left _ hn
    omega
  have h1 : f % W * P + c < P * W := by nlinarith
  have h2 : (a + 1) * (P * W) ≤ P * W * 2 ^ (63 - hi) := by rw [Nat.mul_comm (P * W)]; exact Nat.mul_le_mul_right _ ha
  nlinarith

/-- A register copy as a number reads what was written to it. -/
theorem State.rn_wn_self (s : State) (r : Reg) (i v : Nat) : (s.wn r i v).rn r i = v % 2 ^ 64 := by
  simp [State.rn, State.wn]

theorem State.rn_wn_ne (s : State) (r q : Reg) (i j v : Nat) (h : q.key j ≠ r.key i) : (s.wn r i v).rn q j = s.rn q j := by
  simp only [State.rn, State.wn]; rw [State.rd_wr_ne _ _ _ _ _ _ h]

theorem State.rn_lt (s : State) (r : Reg) (i : Nat) : s.rn r i < 2 ^ 64 := (s.rd r i).isLt

/-- A field of a register reads what was written to it. -/
theorem State.get_put_self (s : State) (f : Fld) (i v : Nat) (h : f.lo ≤ f.hi) (hh : f.hi < 64) :
    (s.put f i v).get f i = v % 2 ^ (f.hi + 1 - f.lo) := by
  unfold State.get State.put
  rw [State.rn_wn_self, Nat.mod_eq_of_lt (putBits_lt _ _ _ _ h hh (s.rn_lt f.reg i)), bits_putBits]

/-- A disjoint field of the same copy keeps its value. -/
theorem State.get_put_disjoint (s : State) (f g : Fld) (i v : Nat) (hr : g.reg = f.reg) (h : f.lo ≤ f.hi) (hh : f.hi < 64)
    (hd : f.hi < g.lo ∨ g.hi < f.lo) : (s.put f i v).get g i = s.get g i := by
  unfold State.get State.put
  rw [hr, State.rn_wn_self, Nat.mod_eq_of_lt (putBits_lt _ _ _ _ h hh (s.rn_lt f.reg i))]
  rcases hd with hd | hd
  · exact bits_putBits_above _ _ _ _ _ _ h hd
  · exact bits_putBits_below _ _ _ _ _ _ hd

/-- A field of another copy keeps its value. -/
theorem State.get_put_ne (s : State) (f g : Fld) (i j v : Nat) (h : g.reg.key j ≠ f.reg.key i) :
    (s.put f i v).get g j = s.get g j := by
  unfold State.get State.put
  rw [State.rn_wn_ne _ _ _ _ _ _ h]

/-- A counter after an advance: one more, or stopped at its largest value (R498). -/
theorem State.rn_bump_self (s : State) (r : Reg) (i n : Nat) (hs : r.key i ≠ Reg.key .MGT_SAT 0) :
    (s.bump r i n).rn r i = min (s.rn r i + n) (2 ^ 64 - 1) := by
  unfold State.bump; dsimp only; split
  · rw [State.rn_wn_self]; omega
  · unfold State.setSat; rw [State.rn_wn_ne _ _ _ _ _ _ hs, State.rn_wn_self]; omega

theorem State.rn_bump_ne (s : State) (r q : Reg) (i j n : Nat) (hs : q.key j ≠ Reg.key .MGT_SAT 0) (h : q.key j ≠ r.key i) :
    (s.bump r i n).rn q j = s.rn q j := by
  unfold State.bump; dsimp only; split
  · exact State.rn_wn_ne _ _ _ _ _ _ h
  · unfold State.setSat; rw [State.rn_wn_ne _ _ _ _ _ _ hs, State.rn_wn_ne _ _ _ _ _ _ h]

end Sys2Proof.Machine
end

