-- ==== Sys2Proof/Tests/Slice0.lean ====
section
/-! SUPPORT. Tests/Slice0.lean: checks of the model on small states: ill-formed commands are refused by WellFormed, instruction
words written out by hand decode, single steps have the effects the rules give, and each statement's hypotheses are met. -/

namespace Sys2Proof.Tests
open Sys2Proof Sys2Proof.Machine

set_option maxRecDepth 20000
set_option Elab.async false

/-- The state after one command and, where it is sampled, its event tick: what the sequencer does with it there. -/
def after (c : Instr) (s : State) : State :=
  match exec c s with
  | .next t => match t.seq.sampled.getLast? with
    | some ⟨_, _, _, .row d⟩ => if t.seq.sampled.length = s.seq.sampled.length then t else ({ t with seq := s.seq } : State).handleRow d
    | some ⟨_, _, _, .unit k i c⟩ => ({ t with seq := s.seq } : State).applyUnit k i c
    | some ⟨_, _, _, .arm i img⟩ => ({ t with seq := s.seq } : State).applyArm i img
    | some ⟨_, _, _, .stackFence k c⟩ => ({ t with seq := s.seq } : State).fenceStack k c
    | _ => t
  | _ => s
/-- The event that a command samples: its class and source. -/
def samples (c : Instr) (s : State) : List (Nat × Nat) :=
  match exec c s with | .next t => t.seq.sampled.map fun e => (e.cls, e.src) | _ => []
/-- A state with fields of registers written. -/
def withFields (l : List (Fld × Nat × Nat)) (s : State) : State := l.foldl (fun s f => s.put f.1 f.2.1 f.2.2) s
/-- Region p computes for context 1, at epoch 7. -/
def bound (p : Nat) (s : State) : State :=
  withFields [(BND_REGION_STATE.state, p, 2), (BND_REGION_STATE.context, p, 1), (BND_REGION_STATE.epoch, p, 7),
    (CTX_CONFIG.exists, 1, 1)] s
/-- A led package whose context 1 exists. -/
def ledState : State := withFields [(MGT_STATUS.led, 0, 1), (CTX_CONFIG.exists, 1, 1), (CTX_CONFIG.function, 1, 2)] {}
/-- The first core. -/
def k0 : CoreRef := ⟨0, 0, 0⟩
/-- The first core computes with a given state. -/
def coreState (c : CoreState) : State := (bound 0 {}).setCore 0 c
/-- Its pilot stands at one instruction, with registers. -/
def pilot (i : PilotInsn) (regs : List Word) : State :=
  coreState { block := { prog := [encodePilot i] }, regs := regs, handler := some { op := 0, tag := 5#16 } }
/-- The record that a ring command of context 1 leaves. -/
def iss1 : Issuer := .ring 1 0x55#64 true
/-- Status and value of the records in context 1's queue. -/
def q1 (s : State) : List (Nat × Nat) := (s.ring 1).queue.map fun r => (r.status, r.value)
/-! ## Well-formed commands (each check refuses an ill-formed one) -/

theorem test_wf_refuses_core : Instr.wf (.add ⟨0, 0, 15⟩) = false ∧ Instr.wf (.add ⟨0, 0, 14⟩) = true := by decide
theorem test_wf_refuses_operands :
    Instr.wf (.registerWrite 0 2 false 0) = false ∧ Instr.wf (.registerWrite 0 4 true 0) = false ∧
    Instr.wf (.counterSplitRead 0 2) = false ∧ Instr.wf (.badRegisterAccess 0 false 4 4) = false ∧
    Instr.wf (.fchArm iss1 0 0 8 []) = false ∧ Instr.wf (.fchCancel iss1 0 0 8) = false ∧
    Instr.wf (.apertureRead 0 0 0 0 0 false) = false ∧ Instr.wf (.apertureWrite 0 0 []) = false ∧
    Instr.wf (.step iss1 []) = false ∧ Instr.wf (.reshard iss1 []) = false ∧ Instr.wf (.reshardForce iss1 []) = false ∧
    Instr.wf (.challengeResponse 0 [] true) = false ∧ Instr.wf (.identityChallenge 0 (some [])) = false ∧
    Instr.wf (.failureRecord 0 0 0 0 0) = false ∧ Instr.wf (.faultReport 7 9 0) = false ∧
    Instr.wf (.thermalLevelUpdate []) = false ∧ Instr.wf (.energyTick [] [] []) = false ∧ Instr.wf (.vfFlr 0) = false := by decide
theorem test_wf_accepts :
    Instr.wf (.registerWrite 0 4 false 0) = true ∧ Instr.wf (.counterSplitRead 0 12) = true ∧
    Instr.wf (.badRegisterAccess 0 false 4 2) = true ∧ Instr.wf (.faultReport 7 8 0) = true ∧ Instr.wf (.vfFlr 1) = true := by decide

/-! ## The machine -/

theorem test_empty_queue_idles : step State.reset = .next State.reset := rfl
/-- Witness of StepKeepsMemoryCanonical and of the dead package: PWROK low. -/
theorem wit_dead_package :
    (({ pwr := { pwrok := false } } : State).live = false) ∧ memWf State.reset.mem = true ∧
    (after .pwrokRise { pwr := { pwrok := false } }).live = true ∧
    after .sagInFall { pwr := { pwrok := false } } = { pwr := { pwrok := false } } := by decide +kernel
theorem test_memory_canonical : memWf (memStore [] 5 [1#8, 0#8, 2#8]) = true ∧ (memStore [] 5 [1#8, 0#8, 2#8]).length = 2 ∧
    memCopy [(5, 1#8), (7, 2#8)] 5 6 3 = [(5, 1#8), (6, 1#8), (8, 2#8)] ∧
    memWf [(5, 1#8), (7, 2#8)] = true := by decide +kernel

/-! ## Words of the pilot, written out from R73 to R81, R580, R581 -/

theorem test_decode_register_forms :
    [0b000000, 0b000001, 0b000010, 0b000011, 0b000100, 0b000101, 0b000110, 0b000111, 0b001000, 0b001001].map
      (fun op => decodePilot (BitVec.ofNat 32 (op * 2 ^ 26 + 0b0001_0010_0011_00000000000000))) =
    [AluR.add, .sub, .and, .or, .xor, .shl, .shr, .sra, .slt, .sltu].map fun f => some (.alu f 1 2 3) := by decide +kernel
theorem test_decode_immediate_forms :
    decodePilot 0b001010_0001_0010_00_1000000000000001#32 = some (.alui .addi 1 2 0x8001) ∧
    decodePilot 0b001011_0001_0010_00_1000000000000001#32 = some (.alui .andi 1 2 0x8001) ∧
    decodePilot 0b001100_0001_0010_00_0000000000000011#32 = some (.alui .shli 1 2 3) ∧
    decodePilot 0b001101_0001_0010_00_0000000000000011#32 = some (.alui .shri 1 2 3) ∧
    decodePilot 0b001110_0001_0000_00_0000000000000011#32 = some (.li 1 3) ∧
    decodePilot 0b001110_0001_0001_00_0000000000000011#32 = none ∧
    decodePilot 0b001111_0001_0001_00_0000000000000011#32 = some (.alui .lui 1 1 3) ∧
    decodePilot 0b011000_0001_0010_00_0000000000000100#32 = some (.ldw 1 2 4) ∧
    decodePilot 0b011001_0001_0010_00_0000000000000100#32 = some (.stw 1 2 4) ∧
    decodePilot 0b011001_0001_0010_01_0000000000000100#32 = none := by decide +kernel
theorem test_decode_control :
    decodePilot 0b010000_0001_0010_000000_000000000001#32 = some (.br .beq 1 2 1) ∧
    decodePilot 0b010001_0001_0010_000000_000000000001#32 = some (.br .bne 1 2 1) ∧
    decodePilot 0b010011_0001_0010_000000_000000000001#32 = some (.br .bltu 1 2 1) ∧
    decodePilot 0b010011_0001_0010_000001_000000000001#32 = none ∧
    decodePilot 0b010100_0000000000000000_1111111111#32 = some (.jmp 1023) ∧
    decodePilot 0b100010_000011_0001_0010_0000_0100_0101#32 = some (.loop 3 1 2 4 5) := by decide +kernel

/-! ## Scalar instructions -/

theorem wit_PilotScalarArithmeticResults :
    (pilot (.alu .add 3 1 2) [0, 7, 9]).live = true ∧
    (pilot (.alu .add 3 1 2) [0, 7, 9]).pilotInsn k0.key = some ({ op := 0, tag := 5#16 }, .alu .add 3 1 2) ∧
    (∀ f : AluR × Word, f ∈ [(AluR.add, 16#32), (.sub, 0xFFFFFFFE#32), (.and, 1#32), (.or, 15#32), (.xor, 14#32),
      (.shl, 3584#32), (.shr, 0#32), (.sra, 0#32), (.slt, 1#32), (.sltu, 1#32)] → aluRVal f.1 7 9 = f.2) ∧
    ((after (.add k0) (pilot (.alu .add 3 1 2) [0, 7, 9])).core 0).sreg 3 = 16#32 ∧
    ((after (.sra k0) (pilot (.alu .sra 3 1 2) [0, 0x80000000, 33])).core 0).sreg 3 = 0xC0000000#32 ∧
    ((after (.slt k0) (pilot (.alu .slt 3 1 2) [0, 0xFFFFFFFF, 0])).core 0).sreg 3 = 1#32 ∧
    ((after (.sltu k0) (pilot (.alu .sltu 3 1 2) [0, 0xFFFFFFFF, 0])).core 0).sreg 3 = 0#32 := by decide +kernel
theorem test_immediates :
    ((after (.addi k0) (pilot (.alui .addi 3 1 0xFFFF) [0, 7])).core 0).sreg 3 = 6#32 ∧
    ((after (.andi k0) (pilot (.alui .andi 3 1 0xFFFF) [0, 0xFFFF0007])).core 0).sreg 3 = 7#32 ∧
    ((after (.shli k0) (pilot (.alui .shli 3 1 33) [0, 7])).core 0).sreg 3 = 14#32 ∧
    ((after (.shri k0) (pilot (.alui .shri 3 1 1) [0, 0x80000000])).core 0).sreg 3 = 0x40000000#32 ∧
    ((after (.li k0) (pilot (.li 3 0xFFFF) [])).core 0).sreg 3 = 0xFFFF#32 ∧
    ((after (.lui k0) (pilot (.alui .lui 3 3 0x1234) [0, 0, 0, 0xFFFF5678])).core 0).sreg 3 = 0x12345678#32 ∧
    ((after (.li k0) (pilot (.li 0 5) [])).core 0).sreg 0 = 0#32 := by decide +kernel
/-- A command for another instruction than the one at the pc changes nothing. -/
theorem test_other_instruction : after (.sub k0) (pilot (.alu .add 3 1 2) [0, 7, 9]) = pilot (.alu .add 3 1 2) [0, 7, 9] := by
  decide +kernel
/-- The pc of a handler. -/
def pcOf (s : State) : Option Nat := (s.core 0).handler.map (·.pc)
theorem wit_PilotRegistersBranchesAndMemory :
    (pilot (.ldw 3 1 4) [0, 8]).pilotInsn k0.key = some ({ op := 0, tag := 5#16 }, .ldw 3 1 4) ∧
    pcOf (after (.beq k0) (pilot (.br .beq 1 2 0xFFE) [0, 7, 7])) = some 1022 ∧
    pcOf (after (.beq k0) (pilot (.br .beq 1 2 0xFFE) [0, 7, 8])) = some 1 ∧
    pcOf (after (.bne k0) (pilot (.br .bne 1 2 3) [0, 7, 8])) = some 3 ∧
    pcOf (after (.blt k0) (pilot (.br .blt 1 2 3) [0, 0xFFFFFFFF, 0])) = some 3 ∧
    pcOf (after (.bltu k0) (pilot (.br .bltu 1 2 3) [0, 0xFFFFFFFF, 0])) = some 1 ∧
    pcOf (after (.jmp k0) (pilot (.jmp 1023) [])) = some 1023 := by decide +kernel
theorem test_scalar_memory :
    let s := (pilot (.ldw 3 1 4) [0, 786424]).storeN ((pilot (.ldw 3 1 4) []).spad 0 + 786428) 4 0x12345678
    ((after (.ldw k0) s).core 0).sreg 3 = 0x12345678#32 ∧
    (after (.ldw k0) (pilot (.ldw 3 1 4) [0, 786425])).flag CORE_FAULT.bad_address 0 = true ∧
    (after (.ldw k0) (pilot (.ldw 3 1 8) [0, 786424])).flag CORE_FAULT.bad_address 0 = true ∧
    (after (.stw k0) (pilot (.stw 3 1 0) [0, 8, 0, 0x01020304])).load ((pilot (.ldw 3 1 4) []).spad 0 + 8) 4 = [4, 3, 2, 1] ∧
    (after (.stw k0) (pilot (.stw 3 1 2) [0, 8, 0, 0x01020304])).mem = [] := by decide +kernel
theorem wit_TsendSendsOrFaults :
    let i : PilotInsn := .tsend 1 0 2 3 4
    (pilot i [0, 0, 0, 1, 64]).pilotInsn k0.key = some ({ op := 0, tag := 5#16 }, i) ∧
    (after (.tsend k0) (pilot i [0, 0, 0, 1, 64])).noc.tokens.map (fun t => (t.tag, t.length, t.null, t.epoch)) = [(7#16, 1, false, 7#12)] ∧
    (after (.tsend k0) (pilot i [0, 0, 0, 16384, 64])).flag CORE_FAULT.oversize 0 = true ∧
    (after (.tsend k0) (pilot i [0, 0, 0, 16384, 64])).noc.tokens = [] ∧
    (after (.tsend k0) (pilot i [0, 0, 0, 1, 786400])).flag CORE_FAULT.bad_address 0 = true ∧
    (after (.tsend k0) (pilot i [0, 0, 0, 1, 786368])).noc.tokens.length = 1 ∧
    (after (.tsend k0) (pilot (.tsend 1 1 0 3 4) [0, 0, 0, 16384, 1])).noc.tokens.map (fun t => (t.null, t.data)) = [(true, [])] := by
  decide +kernel
/-! ## Tokens, the matcher and the networks -/

/-- A block with one operation of one port, one output, depth 1, its port a slot of 64 B at unit 2. -/
def blk : CoreBlock := { ops := [BitVec.ofNat 64 (2 ^ 37)], ports := [0x00010002#32] }
/-- A courier token of one unit for it. -/
def tok : Token := { epoch := 7#12, tag := 0#16, dst := 0, op := 0, port := 0, length := 1, data := List.replicate 64 9#8, phase := .flying }
/-- The first core with that block, a folio behind its region and tokens on their way. -/
def tokState (c : CoreState) (ts : List Token) : State :=
  { coreState { c with block := blk } with noc := { tokens := ts }, bnd := { folios := [{ handle := 0, ctx := 1 }] } }
def gath : MEntry := { op := 0, tag := 0#16, arrived := 1#8, epoch := 7#12 }

theorem wit_TokensArriveAndLand :
    let s := tokState {} [tok]
    s.live = true ∧ s.inOrder 0 tok = true ∧ s.seamPass 0 7#12 = true ∧ s.nameable 0 = true ∧ s.runs 0 = true ∧
    tagAfter 0#16 tok.tag = false ∧ (s.core 0).entry 0 0 = none ∧
    ((after (.tokenArrival 0) s).core 0).entries = [{ gath with late := true }] ∧
    (after (.tokenArrival 0) s).noc.tokens = [{ tok with phase := .admitted }] := by decide +kernel
theorem test_token_faults :
    (after (.tokenArrival 0) (tokState {} [{ tok with op := 1 }])).flag CORE_FAULT.bad_token 0 = true ∧
    (after (.tokenArrival 0) (tokState {} [{ tok with port := 1 }])).flag CORE_FAULT.bad_token 0 = true ∧
    (after (.tokenArrival 0) (tokState { base := 1#16 } [tok])).flag CORE_FAULT.dup_token 0 = true ∧
    (after (.tokenArrival 0) (tokState { entries := [gath] } [tok])).flag CORE_FAULT.dup_token 0 = true ∧
    (after (.tokenArrival 0) (tokState {} [{ tok with length := 2 }])).flag CORE_FAULT.oversize 0 = true ∧
    (after (.tokenArrival 0) (tokState {} [{ tok with epoch := 6#12 }])).noc.tokens = [] ∧
    (after (.tokenArrival 0) (tokState {} [{ tok with epoch := 6#12 }])).rn .BND_REGION_STALE 0 = 1 := by decide +kernel
/-- A core that drains admits no tag past its frozen window; one whose slot is free for base + 4 alone waits. -/
theorem test_token_window :
    (after (.tokenArrival 0) (tokState { frozen := some 0#16 } [{ tok with tag := 4#16 }])).rn .BND_REGION_STALE 0 = 1 ∧
    (tokState { frozen := some 0#16 } []).regs ≠ [] ∧ ((tokState { frozen := some 0#16 } []).core 0).beyond 4#16 = true ∧
    (after (.tokenArrival 0) (tokState {} [{ tok with tag := 4#16 }])).noc.tokens = [{ tok with tag := 4#16 }] := by decide +kernel
theorem test_token_null : ((after (.tokenArrival 0) (tokState {} [{ tok with null := true, length := 0, data := [] }])).core 0).entries =
    [{ gath with landed := 1#8, nulls := 1#8, state := .ready }] := by decide +kernel
theorem test_token_lands :
    let s := tokState { entries := [gath] } [{ tok with phase := .admitted }]
    (after (.tokenDataLanded 0) s).load (s.spad 0 + 128) 64 = List.replicate 64 9#8 ∧
    ((after (.tokenDataLanded 0) s).core 0).entries = [{ gath with landed := 1#8, state := .ready }] ∧
    (after (.tokenDataLanded 0) s).noc.tokens = [] := by decide +kernel
/-- Slot 0 of output L0 takes what core 1 sends on lane 0 to core 0. -/
theorem wit_stream_arrives :
    let t : Token := { tok with courier := false, data := [], phase := .waiting, src := .core 1 0 0 0, addr := 192 }
    let s := (((tokState {} [t]).wn .NOC_SLOT 1024 0x15).setBnd { folios := [{ handle := 0, ctx := 1 }], slotsOn := [0] }).store
      ((tokState {} []).spad 1 + 192) (List.replicate 64 7#8)
    s.egressStopped t = false ∧ s.onHold 0 0 0 = false ∧ s.oldestOfStream 0 t = true ∧ s.streamPath t = some ([0], 0, some 0) ∧
    s.fencedRouter 0 = false ∧ s.seamPass 0 t.epoch = true ∧ s.nameable 0 = true ∧ s.runs 0 = true ∧ s.backlog 0 0 0 = false ∧
    (s.core 0).entrance { t with unsent := 64 } = .ok ∧
    (after (.tokenArrival 0) s).noc.tokens.map (fun x => (x.phase, x.dst, x.unsent, x.data)) =
      [(.admitted, 0, 0, List.replicate 64 7#8)] ∧ (after (.tokenArrival 0) s).rn .NOC_STREAM_FLITS 0 = 1 := by decide +kernel
/-- A reservoir of 4 KiB for the port. -/
def resvBlk : CoreBlock := { blk with resv := [BitVec.ofNat 32 (2 ^ 14)] }
def strTok : Token := { tok with courier := false, data := [], phase := .diverted, src := .core 1 0 0 0 }
theorem test_reservoir :
    let t := { strTok with inResv := 64 }
    let s := ((tokState {} [t]).setCore 0 { block := resvBlk }).store ((tokState {} []).ustore 0 + resvBlk.resvBase 0 0) (List.replicate 64 3#8)
    s.frontDiverted 0 0 0 = some (t, 0) ∧ (s.core 0).entrance t = .ok ∧ s.runs 0 = true ∧ (s.core 0).beyond t.tag = false ∧
    (after (.reservoirDrain k0 0 0) s).load (s.slotOfTok t) 64 = List.replicate 64 3#8 ∧
    (after (.reservoirDrain k0 0 0) s).noc.tokens = [{ t with phase := .admitted, inSlot := 64, inResv := 0 }] := by decide +kernel
theorem test_spill_readback :
    let t := { strTok with staged := List.replicate 64 9#8 }
    let s := (tokState {} [t]).setCore 0 { block := resvBlk }
    s.stagingUsed 0 = 64 ∧ (s.portTokens 0 0 0).length = 1 ∧
    (after (.spillReadback k0 0 0) s).load (s.ustore 0 + resvBlk.resvBase 0 0) 64 = List.replicate 64 9#8 ∧
    (after (.spillReadback k0 0 0) s).noc.tokens = [{ t with staged := [], inResv := 64 }] := by decide +kernel
theorem test_hold_release :
    let s : State := { tokState {} [] with noc := { holds := [⟨0, 0, 0, 0⟩] } }
    s.stagingUsed 0 < 8192 ∧ s.areaUnits 0 = 0 ∧ (after (.holdRelease k0 0 0 5) s).noc.holds = [] ∧
    (after (.holdRelease k0 0 0 5) s).rn .NOC_HOLD_CYCLES 0 = 5 := by decide +kernel
/-- R71: s1 the port's slot, s2 to s8 all ones, s9 the tag, s10 op, slot bits and the finish bit. -/
theorem wit_HandlersDispatchAndRetire :
    let m : MEntry := { gath with landed := 1#8, state := .ready }
    let s := tokState { entries := [m] } []
    s.matcherOn 0 = true ∧ firstEntry 0#16 ((s.core 0).entries.filter fun x => s.dispatchable 0 x && !(x.state = .ready && (s.core 0).allNull x)) = some m ∧
    ((after (.matcherDispatch k0) s).core 0).regs =
      [0#32, 128#32] ++ List.replicate 7 0xFFFFFFFF#32 ++ [0#32, 0#32, 0#32, 0#32, 0#32, 0#32, 0#32] ∧
    (after (.matcherDispatch k0) s).rn .CORE_FIRE_COUNT 0 = 1 ∧
    ((s.core 0).dispatchRegs { m with tag := 3#16, nulls := 1#8 } true).getD 10 0 = 0x0000E001#32 := by decide +kernel
theorem test_done :
    let s := (pilot .done []).modCore 0 fun c => { c with block := { c.block with ops := blk.ops }, entries := [{ gath with tag := 5#16, state := .issuing }] }
    s.pilotInsn 0 = some ({ op := 0, tag := 5#16 }, .done) ∧ (s.core 0).entry 0 5#16 ≠ none ∧
    ((after (.done k0) s).core 0).entries.map (·.state) = [.finishReady] ∧ ((after (.done k0) s).core 0).handler = none ∧
    ((after (.done k0) (s.modCore 0 fun c => { c with handler := c.handler.map fun h => { h with finish := true } })).core 0).entries = [] := by
  decide +kernel
theorem test_null_retire :
    let m : MEntry := { gath with landed := 1#8, nulls := 1#8, state := .ready }
    let s := tokState { entries := [m] } []
    (after (.nullRetire k0) s).noc.tokens.map (fun t => (t.null, t.tag)) = [(true, 0#16)] ∧
    (after (.nullRetire k0) s).rn .CORE_NULL_COUNT 0 = 1 ∧ ((after (.nullRetire k0) s).core 0).base = 1#16 := by decide +kernel
/-- From cluster 0 to cluster 5 (one column and one row away): x first; y first past a fenced router. -/
theorem wit_CouriersNodesAndSpares :
    let t : Token := { tok with phase := .waiting, dst := 80, src := .core 0 0 0 0 }
    let s := tokState {} [t]
    let fence (r : Nat) : State := s.wn .FLT_ROUTER_FENCE 0 (2 ^ r)
    pathXY 0 5 = [1, 5] ∧ pathYX 0 5 = [4, 5] ∧ s.egressStopped t = false ∧ s.oldestOfStream 0 t = true ∧
    s.streamReserved t = false ∧ s.lacksCredit t = false ∧
    (after (.courierPacketRoute 0 []) s).noc.tokens = [{ t with phase := .flying, data := s.stagedData t }] ∧
    (after (.courierPacketRoute 0 []) (fence 1)).noc.tokens = [{ t with phase := .flying, detour := true, data := s.stagedData t }] ∧
    (after (.courierPacketRoute 0 []) (fence 5)).noc.tokens = [] := by decide +kernel
theorem test_straggler :
    let s := tokState {} [{ tok with courier := false, mode := .multicast 3, stalled := some (2, 4) }]
    (after (.stragglerTimeout 0) s).flag NOC_STRAGGLER_EVENT.valid 2 = true ∧
    (after (.stragglerTimeout 0) s).get NOC_STRAGGLER_EVENT.branch 2 = 4 := by decide +kernel
theorem test_reduction :
    let t : Token := { tok with mode := .reduction 1 2 0 0, dst := 16, data := [1#8] }
    let s := (tokState {} [t]).wn .NOC_NODE (64 + 2) 1
    (after (.reductionContribution 0) s).noc.combine.map (fun c => (c.router, c.node, c.leaf, c.data)) = [(1, 2, 0, [1#8])] ∧
    (after (.reductionContribution 0) s).noc.tokens = [] ∧
    (after (.reductionContribution 0) { s with noc := { s.noc with combine := [⟨1, 2, 0#16, 1, 7#12, [2#8]⟩] } }).noc.tokens.length = 1 := by
  decide +kernel
theorem test_spill_and_spare :
    (after (.nocSpillWrite 0 3 true 0x10000) {}).rn .NOC_SPILL_SIZE 3 = 0x10000 ∧
    (after (.nocSpillWrite 0 3 false 0x20000) {}).rn .NOC_SPILL_BASE 3 = 0x20000 ∧
    ((after (.spareLoadComplete k0) (coreState { loading := true })).core 0).loading = false := by decide +kernel

/-! ## Engines and halts, memory -/

/-- A loop descriptor of one vector level of bound 1, all zero else. -/
def desc1 (w0 : Word) : Desc := w0 :: List.replicate 53 0#32
def cmd (i : PilotInsn) : EngCmd := { word := encodePilot i, regs := List.replicate 16 0#32, op := 0, tag := 0#16 }
theorem wit_EnginesQueueAndRunCommands :
    let q := cmd (.tens 0 0 0 0 0 0)
    let c : CoreState := { block := { descs := [desc1 0x84#32] }, tq := [q], vq := [q], mq := [q] }
    let s := coreState c
    s.live = true ∧ s.engineOn 0 0 = true ∧ s.engineOn 0 1 = true ∧ s.engineOn 0 2 = true ∧
    ((after (.engineCommandStart k0 0) s).core 0).tq = [] ∧
    ((after (.engineCommandStart k0 0) s).core 0).tx.map (fun r => (r.cmd, r.bad)) = some (q, false) ∧
    ((after (.engineCommandStart k0 1) s).core 0).vq = [] ∧ ((after (.engineCommandStart k0 1) s).core 0).vx.map (·.1) = some q ∧
    ((after (.engineCommandStart k0 2) s).core 0).mx = some q := by decide +kernel
/-- A tensor command with one tile and no group: the banks swap once, the tile drains, then the command completes; three cycles of
conflict are counted. -/
theorem test_bank_swap :
    let q := cmd (.tens 0 0 0 0 0 0)
    let c : CoreState := { block := { descs := [desc1 0x84#32] }, tx := some ⟨q, [[0]], false⟩, entries := [{ op := 0, tag := 0#16, state := .inEngines }] }
    let s := coreState c
    let t := after (.accumulatorBankSwap k0) s
    let u := after (.engineCommandComplete k0 ⟨0, 3⟩) t
    ((tensArgs c q).map fun a => ((s.tiles 0 a).1.length, (s.tiles 0 a).2)) = some (1, false) ∧
    (t.core 0).fillOne = true ∧ (t.core 0).tx = none ∧ (t.core 0).dx = some ⟨q, [0], 0, true⟩ ∧
    ((tensArgs c q).map fun a => (t.drainTile 0 ⟨q, [0], 0, true⟩ a (t.core 0).drainBank).2) = some true ∧
    (u.core 0).dx = none ∧ u.rn .CORE_BANK_CONFLICT 0 = 3 ∧ (u.core 0).entries.map (·.state) = [.finishReady] ∧
    ((after (.engineCommandComplete k0 ⟨0, 0⟩) (coreState { tx := some ⟨q, [], false⟩ })).core 0).tx = none := by decide +kernel
theorem test_engines_complete :
    let q := cmd (.vect 0 0 0 0 0 0)
    ((after (.engineCommandComplete k0 ⟨1, 0⟩) (coreState { vx := some (q, none) })).core 0).vx = none ∧
    ((after (.engineCommandComplete k0 ⟨2, 0⟩) (coreState { mx := some q })).core 0).mx = none ∧
    ((after (.engineCommandComplete k0 ⟨1, 0⟩) (coreState { vx := some (q, some 7), block := { descs := [desc1 0x84#32] } })).num.amax.map (·.value)) = [7] := by
  decide +kernel
theorem wit_HerdYieldWatchdogAndHalts :
    let s := { coreState { faulted := true, entries := [{ op := 0, tag := 0#16 }] } with seq := { sampled := [⟨7, 9, 0, .programFault 0⟩] } }
    let h := { s with seq := { sampled := [⟨7, 9, 0, .herdHalt 0 0x0F⟩] } }
    s.live = true ∧ s.runs 0 = true ∧ s.flag BND_REGION_STATE.step 0 = false ∧
    s.findEvent (fun e => e = .programFault 0) = some ⟨7, 9, 0, .programFault 0⟩ ∧
    (after (.programFaultHalt k0) s).rstate 0 = 4 ∧ ((after (.programFaultHalt k0) s).core 0).entries = [] ∧
    ((after (.programFaultHalt k0) s).ring 1).queue.map (fun r => (r.kind, r.status, r.aux)) = [(4, 0x11, 0)] ∧
    ((after (.herdHalt k0) h).ring 1).queue.map (·.status) = [0x0F] := by decide +kernel

/-- Initialised HBM; page 0 belongs to context 1. -/
def hbm : State := (withFields [(MEM_STATUS.init_done, 0, 1)] {}).put (pgOwner 0) 0 1
def ag1 : Requester := .agent 1
theorem wit_HbmReadsWritesAndRefusals :
    let d := List.replicate 64 7#8
    hbm.route ag1 64 64 true = .to (.hbm 64) ∧ hbm.portHolds ag1 64 64 true = false ∧ hbm.portHolds ag1 64 64 false = false ∧
    (after (.memoryWrite ag1 64 ⟨d, []⟩) hbm).load 64 64 = d ∧ (after (.memoryWrite ag1 64 ⟨d, []⟩) hbm).out = [.memReply ag1 64 0 []] ∧
    (after (.memoryRead ag1 64 64 0 0) (after (.memoryWrite ag1 64 ⟨d, []⟩) hbm)).out.getLast? = some (.memReply ag1 64 0 d) ∧
    (after (.memoryRead ag1 64 64 0 2) hbm).out = [.memReply ag1 64 9 []] := by decide +kernel
theorem test_hbm_refusals :
    State.route {} ag1 64 64 false = .refuse 8 ∧ hbm.route ag1 32 64 false = .refuse 8 ∧ hbm.route ag1 64 65 false = .refuse 8 ∧
    hbm.route ag1 2097152 64 false = .refuse 8 ∧ hbm.route ag1 (2097152 - 64) 128 false = .refuse 8 ∧
    hbm.route ag1 (hbmEnd - 64) 128 false = .refuse 8 ∧
    (hbm.put MEM_STATUS.fenced 0 1).route ag1 64 64 false = .refuse 10 := by decide +kernel
theorem wit_PagesOwnersAndDetections :
    let s := hbm.put (pgPool 1) 0 1
    s.decodes 0 = true ∧ s.pagePool 0 = false ∧ s.pageZeroing 0 = false ∧ s.pageRetired 0 = false ∧ s.pagePool 1 = true ∧
    s.pageOwner 0 = 1 ∧ (after (.memPageOwnerWrite 0 0 0x001F001F) s).pageOwner 0 = 0x1F ∧
    (after (.memPageOwnerWrite 0 0 0x001F001F) s).pageZeroing 0 = true ∧
    (after (.memPageOwnerWrite 0 0 0x001F0005) (s.put (pgOwner 0) 0 0x1F)).pageOwner 0 = 5 ∧
    (after (.memPageOwnerWrite 0 0 0x001F0005) s).pageOwner 0 = 1 := by decide +kernel
theorem test_zeroing :
    let s := { hbm.put (pgZeroing 0) 0 1 with mem := [(5, 1#8), (2097152, 2#8)] }
    (after (.pageZeroingComplete 0) s).mem = [(2097152, 2#8)] ∧ (after (.pageZeroingComplete 0) s).pageZeroing 0 = false ∧
    (after (.memRetireLimitWrite 0 0) s).rn .MEM_RETIRE_LIMIT = 1 ∧ (after (.memRetireLimitWrite 0 5000) s).rn .MEM_RETIRE_LIMIT = 1024 := by
  decide +kernel
theorem test_init_complete :
    let s : State := { mt := { trained := true }, mem := [(5, 1#8), (hbmEnd, 2#8)] }
    (after .hbmInitComplete s).flag MEM_STATUS.init_done = true ∧ (after .hbmInitComplete s).mem = [(hbmEnd, 2#8)] := by decide +kernel
theorem test_quad_mode :
    let s := hbm.put (pgOwner 0) 0 0x1F
    s.quadFree 0 = true ∧ s.quadMode 0 = (after (.memQuadModeWrite 0 0 (BitVec.ofNat 32 (s.rn .MEM_QUAD_MODE 0 ^^^ 1))) s |>.quadMode 0 |> not) ∧
    hbm.quadFree 0 = false := by decide +kernel
theorem test_detections :
    let s : State := { hbm with seq := { sampled := [⟨5, 0, 0, .detection 0 64⟩] } }
    (after (.scrubRead 0 64 1) hbm).rn .MEM_RETRY_OK = 1 ∧ (after (.scrubRead 0 64 2) hbm).rn .MEM_AT_REST = 1 ∧
    (after (.scrubRead 0 64 2) hbm).seq.sampled.map (·.ev) = [.detection 0 64] ∧
    (after (.detectionAtRest 0 0) s).mt.retired = [(0, 0)] ∧ (after (.detectionAtRest 0 0) s).seq.sampled = [] ∧
    (after (.stackFence 3 0) hbm).stackFenced 3 = true := by decide +kernel

/-! ## The CXL tier -/

/-- Port 0 up with 4 GiB, extent 0 of context 1, a pool of one slot that holds page 0. -/
def cxl : State := withFields [(TIR_PORT_STATUS.up, 0, 1), (TIR_PORT_STATUS.rate, 0, 2), (TIR_PORT_STATUS.width, 0, 16),
  (TIR_PORT_STATUS.capacity_gib, 0, 4), (TIR_EXTENT.owner0, 0, 1), (TIR_POOL_COUNT.slots, 0, 1), (TIR_SLOT.valid, 0, 1),
  (TIR_SLOT.owner, 0, 1), (MGT_STATUS.led, 0, 1)] {}
theorem wit_TierCommandsPagesAndPorts :
    let p := cxl.put TIR_SLOT.pinned 0 1
    cxl.extentOwner 0 = 1 ∧ cxl.cxlPopulated 0 = true ∧ cxl.slotOfPage 0 = some 0 ∧
    q1 (after (.tierLoad iss1 0) cxl) = [(0, 0)] ∧ (after (.tierLoadPin iss1 0) cxl).flag TIR_SLOT.pinned 0 = true ∧
    (after (.tierUnpin iss1 0) p).flag TIR_SLOT.pinned 0 = false ∧ q1 (after (.tierEvict iss1 0) p) = [(2, 0)] ∧
    q1 (after (.tierEvict iss1 0) cxl) = [(0, 0)] ∧ (after (.tierEvict iss1 0) cxl).flag TIR_SLOT.valid 0 = false ∧
    q1 (after (.tierFlush iss1 0) cxl) = [(0, 0)] := by decide +kernel
theorem test_fill_and_writeback :
    let s := { cxl.put TIR_SLOT.state 0 1 with mt := { moves := [{ kind := .fill, page := 0, slot := 0, started := true }] } }
    let w := { cxl with mt := { moves := [{ kind := .flush, page := 0, slot := 0, started := true, subs := 2 }] } }
    s.live = true ∧ s.mt.held = [] ∧ s.mt.poison = [] ∧ s.mt.poisonDue = [] ∧ w.cxlPortUp 0 = true ∧
    (after (.tierFillComplete 0 true 3) s).flag TIR_SLOT.valid 0 = false ∧
    (after (.tierWritebackComplete 0 0) w).mt.moves = [] ∧ (after (.tierWritebackComplete 0 0) w).rn .TIR_WRITEBACK_BYTES = 131072 := by
  decide +kernel
theorem test_cxl_access :
    cxl.route ag1 (cxlStart + 2097152) 64 false = .to (.far 2097152) ∧ meetsRange cxl.mt.poison 2097152 2097216 = false ∧
    cxl.route ag1 (cxlStart + 2097152) 64 true = .to (.far 2097152) := by decide +kernel
theorem test_cxl_write_read :
    ((after (.cxlAccess ag1 (cxlStart + 2097152) 64 none false) (after (.cxlAccess ag1 (cxlStart + 2097152) 0
      (some (List.replicate 64 7#8)) false) cxl)).out) = [.memReply ag1 (cxlStart + 2097152) 0 [],
      .memReply ag1 (cxlStart + 2097152) 0 (List.replicate 64 7#8)] := by decide +kernel
theorem test_pool_and_ports :
    let e : State := {}
    (after .slotAgeAdvance cxl).get TIR_SLOT.age 0 = 1 ∧ (after (.tirPoolWrite 0 false 7) e).get TIR_POOL_BASE.page = 7 ∧
    (after (.cxlPortEnumerate 1 3 16 false 5000) e).cxlUp 1 = true ∧
    (after (.cxlPortEnumerate 1 3 16 false 5000) e).get TIR_PORT_STATUS.capacity_gib 1 = 4096 ∧
    (after (.cxlPortEnumerate 1 3 16 true 5000) e).cxlUp 1 = false ∧
    (after (.cxlRetrain 0 1 2 8 true 1) e).cxlUp 1 = true ∧
    cxl.portInUse 0 = true ∧ after (.cxlRetrain 0 0 2 8 true 1) cxl = cxl ∧
    (after (.cxlPortDown 0) cxl).cxlUp 0 = false ∧ (after (.cxlPortUp 0) (after (.cxlPortDown 0) cxl)).cxlUp 0 = true ∧
    (after (.cxlConfigAccess 0 0 16 (some 9) false 0) cxl).out = [.cxlConfig 0 16 (some 9) 0] ∧
    (after (.cxlConfigAccess 0 0 16 (some 9) true 0) cxl).out = [] ∧
    (after (.cxlConfigAccess 0 0 16 none false 8) cxl).out = [.cxlConfig 0 16 none 8] := by decide +kernel

/-! ## Herding -/

/-- Context 1 owns tally 0 under identifier 5; it holds 10. -/
def herd : State := ({ withFields [(HRD_TALLY.owner, 0, 1), (HRD_TALLY.value, 0, 10), (MGT_STATUS.led, 0, 1)] {} with
  hrd := { alloc := [0], shares := [(0, 4)], trans := [(2 ^ 20 + 5, 1)] } } : State)
def hv (s : State) : Nat := s.get HRD_TALLY.value 0
theorem wit_TallyCommandResults :
    herd.tallyOf 1 5 = some 0 ∧ herd.hrdDead 0 = false ∧ herd.flag HRD_TALLY.poison 0 = false ∧
    hv (after (.tallyAdd iss1 5 3) herd) = 13 ∧ hv (after (.tallyAdd iss1 5 0xFFFFFFFF) herd) = 0xFFFFFFFF ∧
    hv (after (.tallySub iss1 5 10) herd) = 0 ∧ hv (after (.tallySub iss1 5 11) herd) = 10 ∧
    q1 (after (.tallySub iss1 5 11) herd) = [(0x0F, 0)] ∧ q1 (after (.tallyRead iss1 5) herd) = [(0, 10)] ∧
    herd.tallyOf 1 6 = none ∧ q1 (after (.tallyAdd iss1 6 1) herd) = [(7, 0)] ∧
    (after (.tallyCreate iss1 1 6 99 0) herd).tallyOf 1 6 = some 4096 ∧
    (after (.tallyCreate iss1 1 6 99 0) herd).get HRD_TALLY.value 4096 = 99 ∧
    herd.tallyOf 2 0 = none ∧ (after (.tallyImport (.ring 2 0 true) 0 5 1) herd).tallyOf 2 0 = some 0 ∧
    (after (.tallyImport (.ring 3 0 true) 0 5 1) herd).tallyOf 3 0 = none ∧
    (after (.tallyRelease iss1 5) herd).tallyOf 1 5 = none := by decide +kernel
def msg (act count : Nat) (s : State) : State := s.setHrd { s.hrd with msgs := [⟨0, 0, 1, 5, act, count, false⟩] }
def leash : Leash := ⟨0, 0, 1, 5, 0, true, 5, 20, .record 9, 0, 2, 10, false, 0⟩
theorem wit_LeashesBarksAndCoreOperations :
    let l := (after (.leashSet iss1 5 0 true 5 20 (.record 9)) herd)
    herd.leashTarget (.record 9) = some (.record 9) ∧ herd.freeHandle 0 = some 0 ∧
    l.hrd.leashes.map (fun l => (l.handle, l.threshold, l.count)) = [(0, 20, 0)] ∧ q1 l = [(0, 0)] ∧
    ((after (.tallyAdd iss1 5 16) l).hrd.leashes.map fun l => (l.threshold, l.count, l.value)) = [(30, 2, 26)] ∧
    (after (.leashClear iss1 0) l).hrd.leashes = [] ∧
    q1 (after (.leashSet iss1 5 1 true 5 20 (.record 9)) herd) = [(4, 0)] ∧
    hv (after (.tallyOperationApply 0) (msg 0 4 herd)) = 14 ∧ hv (after (.tallyOperationApply 0) (msg 1 4 herd)) = 6 ∧
    (after (.tallyOperationApply 0) (msg 1 11 herd)).seq.sampled.map (·.ev) = [.herdHalt 0 0x0F] ∧
    (after (.tallyOperationApply 0) (msg 2 0 herd)).hrd.replies = [(0, 10)] ∧
    (after (.tallyOperationApply 0) (msg 0 4 {})).seq.sampled.map (·.ev) = [.herdHalt 0 0x07] := by decide +kernel
theorem test_bark :
    let s := herd.setHrd { herd.hrd with leashes := [leash] }
    s.barksHeld 1 = false ∧ ((after (.barkDelivery 0) s).ring 1).queue.map (fun r => (r.kind, r.count, r.tag, r.value)) = [(1, 2, 9, 10)] ∧
    (after (.barkDelivery 0) s).hrd.leashes.map (fun l => (l.count, l.barks)) = [(0, 1)] ∧
    (after (.barkDelivery 0) (s.setHrd { s.hrd with leashes := [{ leash with last := true }] })).hrd.leashes = [] := by decide +kernel

/-- Two cores wait for a credit of each other: stream 0 of core 0 and stream 0 of core 1. -/
def stuck : State :=
  let c : CoreState := { block := blk, entries := [{ op := 0, tag := 0#16, arrived := 1#8, epoch := 7#12 }] }
  let t (k j : Nat) : Token := { tok with phase := .waiting, dst := j, src := .core k 0 0 0 }
  let s := (withFields [(MEM_STATUS.init_done, 0, 1), (pgOwner 0, 0, 1)] ((coreState c).setCore 1 c)).wn .MGT_TICK 0 1000000
  { s with noc := { tokens := [t 0 1, t 1 0] }, hrd := { waits := [(0, 1), (256, 1)] } }
/-- A reserve for the stream of core 0, in region 0's own memory. -/
def reserve (s : State) : State := s.setHrd { s.hrd with reserves := [(3, (2 ^ 23, 0x10000, 4096))] }
theorem wit_StandoffsAndReserves :
    stuck.waitingStreams.map (·.1) = [0, 256] ∧ (after .standoffCheck stuck).seq.sampled.map (·.ev) = [.standoff [0]] ∧
    (after .standoffCheck (reserve stuck)).hrd.spilling = [(3, 0)] ∧
    (after .standoffCheck (stuck.setHrd {})).hrd.waits = [(0, 1000001), (256, 1000001)] := by decide +kernel
theorem test_standoff_spill :
    let s := (reserve stuck).setHrd { (reserve stuck).hrd with spilling := [(3, 0)] }
    let u := after (.standoffSpillComplete 3) s
    s.noc.tokens.zipIdx.find? (fun x => streamOf x.1 = some 0) = some (s.noc.tokens.headD tok, 0) ∧
    u.noc.tokens.length = 1 ∧ u.hrd.reserved.map (·.at_) = [0] ∧ u.rn .HRD_RESERVE_USED 3 = 128 ∧
    u.load 0x10000 8 = natLe 8 (tokenHeader (s.noc.tokens.headD tok)) ∧
    (after (.reserveReadback 3) (u.modCore 1 fun c => { c with entries := [] })).noc.tokens.map (·.phase) = [.waiting, .flying] ∧
    (after (.reserveReadback 3) (u.modCore 1 fun c => { c with entries := [] })).hrd.reserved = [] := by decide +kernel
theorem test_standoff_fault :
    let s := { stuck with seq := { sampled := [⟨7, 9, 0, .standoff [0]⟩] } }
    (after .standoffFault s).rstate 0 = 4 ∧ ((after .standoffFault s).ring 1).queue.map (·.status) = [0x10] := by decide +kernel
theorem test_reserve_write :
    (after (.hrdReserveWrite 0 3 0 0xFFFFFFF) {}).rn .HRD_RESERVE 3 = 0xFFFFFF ∧
    (after (.hrdReserveWrite 0 3 1 0x10000) {}).hrd.reserves = [(3, (0, 0x10000, 0))] ∧
    (after (.hrdReserveWrite 0 3 1 0x10000) (bound 0 {})).hrd.reserves = [] ∧
    (after (.hrdReserveWrite 0 3 2 77) {}).rn .HRD_RESERVE_SIZE 3 = 77 := by decide +kernel

/-! ## MSI-X -/

theorem wit_MsixMessages :
    let s : State := { (withFields [(HIF_STATUS.link_up, 0, 1)] {}) with hif := { due := [(0, 3)], msixOn := [0] }, pkgEvent := true }
    let s := (s.wn .HIF_MSIX_TABLE 1 0).wn .HIF_MSIX_TABLE 7 0
    let b := s.setPending 0 3 true
    s.msixReady 0 3 = true ∧ (after .msixSend s).out = [.msix 0 3] ∧ (after .msixSend s).hif.due = [] ∧
    (after .packageEventVector s).out = [.msix 0 0] ∧
    (after .msixSend (s.put HIF_STATUS.link_up 0 0)).rn .HIF_MSIX_PBA 0 = 8 ∧
    (after (.msixUnmask 0 (some 3)) (b.wn .HIF_MSIX_TABLE 7 (2 ^ 32))).out = [.msix 0 3] ∧
    (after (.msixUnmask 0 (some 3)) (b.wn .HIF_MSIX_TABLE 7 (2 ^ 32))).rn .HIF_MSIX_PBA 0 = 0 := by decide +kernel

/-! ## Fetchers -/

/-- A descriptor image: kind and flags in the low word, 64 B a row, source 0, destination 4,096, n + 1 transfers. -/
def fdesc (low n extra : Nat) : FchDesc :=
  { img := natLe 128 (low + 64 * 2 ^ 32 + 4096 * 2 ^ 128 + n * 2 ^ 224 + extra) }
/-- Slot 0 of channel 0 in region 0 (context 1 owns device page 0). -/
def fslot (f : FchSlot) : State := ({ withFields [(MGT_STATUS.led, 0, 1)] (bound 0 hbm) with bnd := { folios := [{ handle := 0, ctx := 1 }] } } : State).setFslot 0 f
def fx : FchXfer := { x := 0, issued := 1, epoch := 7#12 }
/-- A token descriptor: kind 1 to port 0 of operation 0 of core 0. -/
def ftok (low : Nat) : FchDesc := fdesc (1 + low) 0 (64 * 2 ^ 320 + 64 * 2 ^ 352)
def withImage (d : FchDesc) (s : State) : State :=
  (upto 32).foldl (fun (s : State) w => s.wn .FCH_SLOT_IMAGE w (leNat ((d.img.drop (4 * w)).take 4))) s
theorem wit_FetcherArmCancelAndReplies :
    let d := fdesc 0 0 0
    let a : FchDesc := { d with armTick := 0 }
    let s := withImage d (fslot {})
    d.ok = true ∧ (fdesc 3 0 0).ok = false ∧ s.armable 0 = true ∧
    ((after (.fchSlotArm 0 0 0 0) s).fslot 0).active = some a ∧
    ((after (.fchSlotArm 0 0 0 0) (s.setFslot 0 { active := some d, fired := true })).fslot 0).shadow = some a ∧
    (after (.fchSlotArm 0 0 0 0) (withImage (fdesc 3 0 0) s)).get FCH_SLOT_STATUS.last_status 0 = 4 ∧
    (after (.fchSlotCancel 0 0 0 0) (fslot { active := some d })).fslot 0 = {} ∧
    ((after (.fchSlotCancel 0 0 0 0) (fslot { active := some d, xfer := some fx })).fslot 0).cancel = true ∧
    (after (.fchModeWrite 0 1) s).get FCH_MODE.deadline = 1 := by decide +kernel
theorem test_ring_arm_and_cancel :
    let d := fdesc 0 0 0
    (fslot {}).ringHeld iss1 = false ∧
    ((after (.fchArm iss1 0 0 0 d.img) (fslot {})).fslot 0).active = some d ∧ q1 (after (.fchArm iss1 0 0 0 d.img) (fslot {})) = [(0, 0)] ∧
    q1 (after (.fchArm iss1 0 0 0 (fdesc 3 0 0).img) (fslot {})) = [(4, 0)] ∧
    q1 (after (.fchCancel iss1 0 0 0) (fslot { active := some d })) = [(0, 0)] ∧
    ((after (.fchCancel iss1 0 0 0) (fslot { active := some d })).fslot 0).active = none := by decide +kernel
/-- A packet reads 64 bytes at 0 and writes them at 4,096. -/
theorem test_fetch_copy :
    let d := fdesc 0 0 0
    let s := (fslot { active := some d, fired := true, xfer := some fx }).store 0 (List.replicate 64 7#8)
    d.packets 0 = [(0, 4096, 64)] ∧ s.issueFault 0 d { fx with issued := 0 } (0, 4096, 64) = none ∧
    (s.serveRead (s.fchReq 0) 0 64).2 = .data (List.replicate 64 7#8) ∧
    (after (.fetchReadReply 0 0 0 0 0 0) s).load 4096 64 = List.replicate 64 7#8 ∧
    (((after (.fetchReadReply 0 0 0 0 0 0) s).fslot 0).xfer.map (·.done)) = some [0] ∧
    (((after (.fetchReadReply 0 0 0 0 0 0) s).fslot 0).error) = false := by decide +kernel
theorem test_fetch_token :
    let d := ftok 0
    let s := (fslot { active := some d, fired := true, xfer := some fx }).store 0 (List.replicate 64 7#8)
    d.ok = true ∧ (after (.fetchReadReply 0 0 0 0 0 0) s).noc.tokens.map (fun t => (t.dst, t.tag, t.epoch, t.length, t.data))
      = [(0, 0, 7, 1, List.replicate 64 7#8)] := by decide +kernel
/-- A source in host memory: a completion lands, an abort or a timeout stops the slot. -/
theorem test_dma :
    let d := fdesc 0 0 (0x801000000000 * 2 ^ 64)
    let s := withFields [(CTX_CONFIG.function, 1, 1), (HIF_XLAT.valid, 16384, 1), (HIF_STATUS.link_up, 0, 1)] (fslot { active := some d, fired := true, xfer := some fx })
    let stop (c : Instr) : Option Nat := let u := after c s
      if (u.fslot 0).error then some (u.get FCH_SLOT_STATUS.last_status 0) else none
    s.hostPacket 0 0 = true ∧ stop (.dmaCompletion 0 0 0 0 1) = some 8 ∧ stop (.dmaCompletion 0 0 0 0 2) = some 9 ∧
    stop (.dmaTimeout 0 0 0 0) = some 9 ∧ (after (.dmaTimeout 0 0 0 0) s).rn .FCH_SLOT_FAULT_ADDR 0 = 0x801000000000 ∧
    (after (.dmaCompletion 0 0 0 0 0) (s.store hostBase (List.replicate 64 7#8))).load 4096 64 = List.replicate 64 7#8 := by decide +kernel
/-- A parked slot keeps a reply (R246); one that comes for an emptied slot is discarded (R252); one that fails while others are out stops
its slot with the last of them (R236); a packet for a peer leaves. -/
theorem test_replies :
    let d := fdesc 0 1 0
    let d2 := fdesc 0 0 (2 ^ 192)
    let s := (fslot { active := some d, fired := true, parked := true, xfer := some fx }).store 0 (List.replicate 64 7#8)
    let t := fslot { stray := 1 }
    let f := withFields [(CTX_CONFIG.function, 1, 1), (HIF_XLAT.valid, 16384, 1), (HIF_STATUS.link_up, 0, 1)]
      (fslot { active := some (fdesc 0 0 (0x801000000000 * 2 ^ 64 + 2 ^ 192)), fired := true, xfer := some { fx with issued := 2 } })
    let q := (fslot { active := some (fdesc (2 ^ 14) 0 0), fired := true, xfer := some fx }).store 0 (List.replicate 64 7#8)
    d2.ok = true ∧ (((after (.fetchReadReply 0 0 0 0 0 0) s).fslot 0).xfer.map (·.held)) = some [(0, List.replicate 64 7#8)] ∧
    (after (.fetchReadReply 0 0 0 0 0 0) s).mem = s.mem ∧
    ((after (.fetchReadReply 0 0 0 0 0 0) t).fslot 0).stray = 0 ∧ (after (.fetchReadReply 0 0 0 0 0 0) t).rn .FCH_CH_DISCARDS 0 = 1 ∧
    f.hostPacket 0 0 = true ∧ ((after (.dmaTimeout 0 0 0 0) f).fslot 0).failed = some (9, 0x801000000000) ∧
    ((after (.dmaTimeout 0 0 0 0) f).fslot 0).error = false ∧
    (after (.fetchReadReply 0 0 0 0 0 0) q).out = [.peerWrite 0 4096 0 (List.replicate 64 7#8)] := by decide +kernel
/-- A ready slot issues its next packet; in deadline mode the earliest deadline goes first; a channel with 32 requests out waits. -/
theorem test_issue :
    let a := fdesc 0 0 (9 * 2 ^ 448)
    let b := fdesc 0 0 (5 * 2 ^ 448)
    let x : FchXfer := { fx with issued := 0 }
    let s := ((fslot { active := some a, fired := true, xfer := some x }).setFslot 3 { active := some b, fired := true, xfer := some x }).put FCH_MODE.deadline 0 0
    let m := s.put FCH_MODE.deadline 0 1
    (s.issueOne 0).fslot 0 = { active := some a, fired := true, xfer := some fx } ∧ (s.pickSlot 0).map (·.1) = some 0 ∧
    (m.pickSlot 0).map (·.1) = some 3 ∧ s.outstanding 0 = 0 ∧
    (s.setFslot 4 { stray := 32 }).outstanding 0 = 32 ∧
    ((s.setFslot 0 { active := some (fdesc 0 0 (2 ^ 85)), fired := true, xfer := some x }).issueOne 0).get FCH_SLOT_STATUS.last_status 0 = 8 := by
  decide +kernel
/-- R252, R550: a completion for an emptied slot is discarded and counted; an error too once its function has been reset. -/
theorem test_dma_discarded :
    let s := fslot { strayHost := [(2, false), (2, false)] }
    let u := after (.dmaCompletion 0 0 0 0 0) s
    let v := after (.dmaCompletion 0 0 0 0 0) (after (.vfFlr 2) u)
    u.rn .FCH_CH_DISCARDS 0 = 1 ∧ u.rn .HIF_DMA_ERRORS 2 = 0 ∧ v.rn .FCH_CH_DISCARDS 0 = 2 ∧ v.rn .HIF_DMA_ERRORS 2 = 1 ∧
    v.fslot 0 = {} := by decide +kernel
theorem wit_FetcherTransfersRun :
    let d := fdesc 0 1 0
    let s := fslot { active := some d, fired := true }
    let u := after (.fetchTransferStart 0 0 0 9) s
    s.fchReady 0 = true ∧ s.fchCredit 0 d 0 0 7#12 = true ∧ ((u.fslot 0).xfer.map fun x => (x.x, x.issued, x.epoch)) = some (0, 1, 7) ∧
    (u.fslot 0).error = false ∧
    (after (.fetchTransferStart 0 0 0 9) (fslot { active := some (fdesc 0 0 (2 ^ 85)), fired := true })).get FCH_SLOT_STATUS.last_status 0 = 8 := by
  decide +kernel
theorem test_fetch_waits_for_credit :
    let m : MEntry := { gath with arrived := 1#8 }
    let s := (fslot { active := some (ftok 0), fired := true }).setCore 0 { block := blk, entries := [m] }
    s.fchCredit 0 (ftok 0) 0 0 7#12 = false ∧ (after (.fetchTransferStart 0 0 0 9) s).rn .FCH_CH_CREDIT_WAIT 0 = 9 ∧
    (after (.passAlongCopy 0 0 0 9) (s.setFslot 0 { active := some (ftok 0), fired := true, xfer := some { fx with started := false } })).rn
      .FCH_CH_CREDIT_WAIT 0 = 9 := by decide +kernel
/-- A pass-along of two entries: its second copy starts. -/
def pass : FchDesc := fdesc (2 + 2 ^ 23) 0 (64 * 2 ^ 320 + 64 * 2 ^ 352)
theorem test_pass_along :
    let s := fslot { active := some pass, fired := true, xfer := some { fx with issued := 1, done := [0] } }
    let u := after (.fetchTransferComplete 0 0 0) s
    ((u.fslot 0).xfer.map fun x => (x.x, x.copy, x.started)) = some (0, 1, false) ∧
    (((after (.passAlongCopy 0 0 0 0) u).fslot 0).xfer.map fun x => (x.copy, x.started)) = some (1, true) := by decide +kernel
theorem test_fetch_complete :
    let x : FchXfer := { fx with done := [0] }
    let s := fslot { active := some (fdesc 0 1 0), fired := true, xfer := some x }
    let e := fslot { active := some (fdesc 0 0 0), fired := true, xfer := some x }
    let h := fslot { active := some (fdesc 0 0 0), fired := true, xfer := some x, shadow := some (fdesc 0 1 0) }
    ((after (.fetchTransferComplete 0 0 0) s).fslot 0).next = 1 ∧ (after (.fetchTransferComplete 0 0 0) s).rn .FCH_SLOT_DONE 0 = 1 ∧
    ((after (.fetchTransferComplete 0 0 0) e).fslot 0).active = none ∧
    ((after (.fetchTransferComplete 0 0 0) h).fslot 0).active = some (fdesc 0 1 0) := by decide +kernel
/-- A finished slot chains slot 1, armed with a chain trigger. -/
theorem test_chain :
    let s := (fslot { active := some (fdesc (2 ^ 22 + 2 ^ 18) 0 0), fired := true, xfer := some { fx with done := [0] } }).setFslot 1
      { active := some (fdesc 4 0 0) }
    (s.fslot 1).code = 1 ∧ ((after (.fetchTransferComplete 0 0 0) s).fslot 1).fired = true := by decide +kernel

/-! ## Binderies -/

/-- A folio of one leaf for region 0 that loads nothing. -/
def fol : Folio := { handle := 1, ctx := 1, dies := 1, leaves := [{ region := 0, use_ := 1 }] }
/-- Context 1 may not be pre-empted and holds the folio. -/
def bnd (b : BndState) : State := { withFields [(CTX_CONFIG.exists, 1, 1), (CTX_CONFIG.preemptible, 1, 0), (MGT_STATUS.led, 0, 1)] {} with bnd := b }
/-- The image at address 0 of `hbm` is no folio: its magic number is 0. -/
theorem wit_BinderyStagingDrainsAndWaits :
    let s := after (.stage iss1 0 1) (hbm.put MGT_STATUS.led 0 1)
    let h : State := { s with mem := [] }
    s.bnd.staging = [⟨iss1, 0, 1, hbm.stageDies 1 0 1⟩] ∧ (after (.stageComplete 0) (after (.stage iss1 (2 ^ 40) 1) (hbm.put MGT_STATUS.led 0 1))).bnd.staging = [] ∧
    q1 (after (.stageComplete 0) (after (.stage iss1 (2 ^ 40) 1) (hbm.put MGT_STATUS.led 0 1))) = [(8, 0)] ∧
    (after (.stageComplete 0) (after (.stage iss1 (2 ^ 40) 1) (hbm.put MGT_STATUS.led 0 1))).flag BND_LAST_REJECT.valid = true ∧
    h.bnd.folios = [] ∧ (bnd { folios := [fol] }).handleUsed 1 = false ∧
    q1 (after (.release iss1 1) (bnd { folios := [fol] })) = [(0, 0)] ∧ (after (.release iss1 1) (bnd { folios := [fol] })).bnd.folios = [] ∧
    q1 (after (.release iss1 1) (bnd { folios := [fol], waits := [{ ctx := 1, opcode := 4, handle := 1 }] })) = [(2, 0)] := by decide +kernel
theorem test_drain_and_waits :
    let r : BindReq := { iss := some iss1, ctx := 1, opcode := 5, named := [0] }
    let o (ph : BindPhase) : BindOp := { req := r, phase := ph, regions := [0] }
    let s (ph : BindPhase) : State := { bound 0 {} with bnd := { ops := [o ph] } }
    let d := (s .draining).put BND_REGION_STATE.state 0 3
    let w : State := { bound 0 {} with bnd := { waits := [r], stale := [(1, 0, 3)] } }
    q1 (after (.flushComplete 0) ((s .clearing).wn .MGT_TICK 0 1)) = [(0, 0)] ∧ (after (.flushComplete 0) (s .clearing)).bnd.ops = [o .clearing] ∧
    d.settled 0 = true ∧ (after (.drainSettled 0) d).rstate 0 = 0 ∧
    after (.drainSettled 0) (d.setCore 0 { entries := [{ gath with state := .ready }], block := blk, frozen := some 1#16 }) =
      d.setCore 0 { entries := [{ gath with state := .ready }], block := blk, frozen := some 1#16 } ∧
    (after (.drainTimeout 0) (d.wn .MGT_TICK 0 1000000)).rn .BND_DRAIN_TIMEOUTS = 1 ∧
    ((after (.drainTimeout 0) (d.wn .MGT_TICK 0 1000000)).bnd.ops.map fun o => (o.phase, o.timedOut)) = [(.clearing, true)] ∧
    (after (.waitingBindCommand 0) w).bnd.waits = [] ∧ (after (.waitingBindCommand 0) w).rstate 0 = 0 ∧
    ((after (.epochStaleReport 1 0) w).ring 1).queue.map (fun r => (r.status, r.count)) = [(0x0B, 3)] := by decide +kernel
theorem wit_BindCommandsAndStarts :
    let s := bnd { folios := [fol] }
    let r : BindReq := { iss := some iss1, ctx := 1, opcode := 4, handle := 1 }
    let u := after (.bind iss1 1 0) s
    s.ringHeld iss1 = false ∧ s.regionBusy 0 = false ∧ (s.began iss1 4).bindStatus r fol = 0 ∧
    u.rstate 0 = 1 ∧ u.rctx 0 = 1 ∧ (u.bnd.ops.map (·.phase)) = [.loading] ∧
    q1 (after (.bind iss1 2 0) s) = [(4, 0)] ∧
    q1 (after (.bind iss1 1 0) (s.put CTX_CONFIG.preemptible 1 1)) = [(3, 0)] ∧
    q1 (after (.bind iss1 1 0) (s.put CTX_REGION_RESERVE.context 0 2)) = [(2, 0)] ∧ loadTicks fol = 17 := by decide +kernel
theorem test_rebind_and_unbind :
    let s := { bound 0 (bnd { folios := [fol] }) with mem := [(sramBase 0 0, 1#8), (64, 2#8)] }
    let u := after (.rebind iss1 1 false 1) s
    u.rstate 0 = 1 ∧ u.mem = [(64, 2#8)] ∧
    (after (.unbind iss1 1 false) s).rstate 0 = 0 ∧ ((after (.unbind iss1 1 false) s).bnd.ops.map (·.phase)) = [.clearing] ∧
    (after (.unbind iss1 1 true) s).rstate 0 = 3 ∧ ((after (.unbind iss1 1 true) s).bnd.ops.map (·.phase)) = [.draining] := by decide +kernel
theorem test_bind_start :
    let s := (after (.bind iss1 1 0) (bnd { folios := [fol] })).wn .BND_EPOCH_NEXT 0 9
    let t := s.wn .MGT_TICK 0 17
    after (.bindStart 0) (s.wn .MGT_TICK 0 16) = s.wn .MGT_TICK 0 16 ∧
    (after (.bindStart 0) t).rstate 0 = 2 ∧ (after (.bindStart 0) t).repoch 0 = 9 ∧ (after (.bindStart 0) t).rn .BND_EPOCH_NEXT = 10 ∧
    (after (.bindStart 0) t).seq.sampled.map (fun e => (e.cls, e.ev)) = [(10, .done (some iss1) 4 0)] ∧
    q1 ((after (.bindStart 0) t).applyEvent (.done (some iss1) 4 0)) = [(0, 0)] ∧ samples (.bindStart 0) t = [(10, 0)] ∧
    (after (.slotTableActivation 0) (after (.bindStart 0) t)).bnd.slotsOn = [0] := by decide +kernel

/-! ## Numerics, finishing, sentinel, snapshots -/

/-- Context 1 with initialised HBM; bank A at 4,096, 8,192 bytes, bank B 16,384 above; page 0 is its own. -/
def num : State := withFields [(CTX_CONFIG.exists, 1, 1), (CTX_BANK_BASE.value, 1, 4096), (CTX_BANK_SIZE.value, 1, 8192),
  (CTX_BANK_DELTA.value, 1, 16384)] hbm
/-- A map entry: id, kind, format, history, margin, contributors, tally of its just-in-time scale. -/
def me (id kind fmt hist margin n jit : Nat) : List Byte := natLe 4 id ++ natLe 1 kind ++ natLe 1 fmt ++ natLe 1 hist ++ natLe 1 margin ++
  natLe 2 n ++ natLe 2 0 ++ natLe 4 jit
def mapping (st count : Nat) : State := (num.put NUM_CTX_MAP_STATUS.state 1 st).wn .NUM_CTX_MAP_COUNT 1 count
theorem wit_NumericsMapsSeedsAndRecords :
    let m := me 7 1 1 4 0 1 5 ++ me 9 2 0 0 0 4 0
    num.sstate 1 = 0 ∧ (after (.numMapLoad 0 1 2) num).get NUM_CTX_MAP_STATUS.state 1 = 1 ∧
    (after (.numMapLoad 0 1 2) num).rn .NUM_CTX_MAP_COUNT 1 = 2 ∧
    after (.numMapLoad 0 1 2) (num.put CTX_STEP_STATE.state 1 1) = num.put CTX_STEP_STATE.state 1 1 ∧
    (after (.numMapLoadComplete 1) ((mapping 1 2).store 0 m)).get NUM_CTX_MAP_STATUS.state 1 = 2 ∧
    ((after (.numMapLoadComplete 1) ((mapping 1 2).store 0 m)).nm 1).map = chunks 16 2 m ∧
    (after (.numMapLoadComplete 1) ((mapping 1 2).store 0 (m.take 16 ++ m.take 16))).get NUM_CTX_MAP_STATUS.entry 1 = 1 ∧
    (after (.numMapLoadComplete 1) ((mapping 1 2).wn .NUM_CTX_MAP_BASE 1 (2 ^ 22))).get NUM_CTX_MAP_STATUS.state 1 = 3 ∧
    (after (.numSeedWrite 0 1 77) num).rd .NUM_CTX_SEED 1 = 77 ∧
    after (.numSeedWrite 0 1 77) (num.put CTX_STEP_STATE.state 1 1) = num.put CTX_STEP_STATE.state 1 1 ∧
    (after (.nfRecordClear 0 1 0x80000000) (num.wn .NUM_CTX_NF_COUNT 1 4)).rn .NUM_CTX_NF_COUNT 1 = 0 := by decide +kernel
/-- The directory of context 1 holds an amax entry with id 7 and a ratio entry with id 9; its step runs 2 microbatches. -/
def dir : State := (withFields [(CTX_STEP_STATE.state, 1, 1), (CTX_STEP_STATE.microbatches, 1, 2)] (bound 0 num)).setNm 1
  { map := [me 7 1 2 4 0 1 5, me 9 2 0 0 0 4 0] }
def amax (tensor v : Nat) : State := { dir with num := { dir.num with amax := [⟨0, tensor, 0, v⟩] } }
theorem wit_NumericsReportsAndScales :
    dir.mapFind 1 1 8 = none ∧ dir.mapFind 1 1 7 = some 0 ∧ (fmtFP32.dec 0x7F800000).isInf = true ∧
    (after (.amaxReport 0) (amax 8 0x3F800000)).rn .NUM_UNMAPPED = 1 ∧ (after (.amaxReport 0) (amax 7 0x7F800000)).rn .NUM_INF_AMAX = 1 ∧
    (spGet {} ((after (.amaxReport 0) (amax 7 0x3F800000)).nm 1).acc 0).value = 0x3F800000 ∧
    (after (.amaxReport 0) (amax 7 0x3F800000)).num.amax = [] := by decide +kernel
/-- One report of amax 6 for microbatch 0: scale 2^6 for E4M3 (448 / 6 ≥ 64), its inverse 2^-6. -/
theorem test_jit_scale :
    let s := dir.setNm 1 { dir.nm 1 with acc := [(0, { value := 0x40C00000, reports := 1, mbs := [(0, (1, 0x40C00000))] })] }
    let u := after (.jitScalePublish 1 0) s
    dir.jitMode 1 0 = true ∧ (spGet {} (u.nm 1).acc 0).writing = true ∧ u.load 0 8 = natLe 4 0x42800000 ++ natLe 4 0x3C800000 ∧
    (after (.jitPublishComplete 1 0) u).hrd.msgs.map (fun m => (m.vid, m.act, m.count)) = [(5, 0, 1)] ∧
    (spGet {} ((after (.jitPublishComplete 1 0) u).nm 1).acc 0).published = 1 := by decide +kernel
/-- A token for the monitor of die 0. -/
def rep (op : Nat) (d : List Byte) : Token := { tok with dst := 15, op := op, data := d, src := .core 0 0 0 0 }
theorem test_ratio_reports :
    let s (t : Token) : State := { dir with noc := { tokens := [t] } }
    let d (id x : Nat) : List Byte := natLe 4 id ++ natLe 2 x ++ List.replicate 58 1#8
    spGet [] ((after (.ratioReport 0) (s (rep 30 (d 9 3)))).nm 1).ratios 0 = [] ∧
    spGet [] ((after (.ratioReport 0) (s (rep 30 (d 9 3)))).nm 1).ratios 1 = [(3, d 9 3)] ∧
    (after (.ratioReport 0) (s (rep 30 (d 8 3)))).rn .NUM_RATIO_DISCARDS = 1 ∧
    (after (.ratioReport 0) (s (rep 30 (d 9 4)))).rn .NUM_RATIO_DISCARDS = 1 ∧
    (after (.ratioReport 0) (s { rep 30 (d 9 3) with epoch := 6#12 })).rn .FIN_DISCARDS = 1 := by decide +kernel
theorem test_nonfinite_report :
    let e : EvKind := .nonfinite 0 3 5 9
    let s : State := { dir with seq := { sampled := [⟨8, 0, 0, e⟩] } }
    let u := after (.nonfiniteReportSampled k0) s
    bitAt (u.get CTX_HEALTH.local_ 1) 0 = true ∧ (u.nm 1).nf.map (fun r => (r.op, r.tag, r.tensor, r.count)) = some (3, 5, 9, 1) ∧
    ((after (.nonfiniteReportSampled k0) { u with seq := s.seq }).nm 1).nf.map (·.count) = some 2 := by decide +kernel
/-- A coefficient entry of zeros passes the checks; one of mode 3 without a row length does not. -/
theorem wit_FinishingTableAndCounts :
    let s := (num.put FIN_CTX_TABLE_STATUS.state 1 1).wn .FIN_CTX_TABLE_COUNT 1 1
    let c : State := { dir with noc := { tokens := [rep 29 (natLe 2 0 ++ natLe 2 0 ++ natLe 4 3 ++ natLe 4 2)] } }
    (after (.finTableLoad 0 1 1) num).get FIN_CTX_TABLE_STATUS.state 1 = 1 ∧
    after (.finTableLoad 0 1 1) (num.put CTX_STEP_STATE.state 1 1) = num.put CTX_STEP_STATE.state 1 1 ∧
    ((after (.finTableLoadComplete 1) s).fn 1).table = [List.replicate 64 0#8] ∧
    (after (.finTableLoadComplete 1) (s.store 0 [3])).get FIN_CTX_TABLE_STATUS.state 1 = 3 ∧
    (after (.finCountReport 0) c).rn .FIN_CTX_FALLBACK_BLOCKS 1 = 3 ∧ (after (.finCountReport 0) c).rn .FIN_SINGULAR_COUNT 1024 = 3 ∧
    (after (.finCountReport 0) c).rn .FIN_ZERO_DENOM 1024 = 2 := by decide +kernel
/-- A mover entry: kind, item, length, offset 4,096, core 0, operation 0, port 0, chunks of 64 B. -/
def mv (kind item length : Nat) : Mover :=
  { img := natLe 1 kind ++ natLe 1 item ++ natLe 2 0 ++ natLe 4 length ++ natLe 8 4096 ++ natLe 4 0 ++ natLe 4 64 ++ natLe 8 0, die := 0 }
def moving (m : Mover) (ts : List Token) : State :=
  (({ dir with noc := { tokens := ts } } : State).setFin 1 { movers := [m] }).store 4096 (List.replicate 64 5#8)
theorem wit_StateMoversMove :
    (moving (mv 1 0 64) []).credit 0 0 0 0 = true ∧
    (after (.moverDeliver 1 0) (moving (mv 1 0 64) [])).noc.tokens.map (fun t => (t.dst, t.tag, t.null, t.data)) = [(0, 0, false, List.replicate 64 5#8)] ∧
    (after (.moverDeliver 1 0) (moving { mv 1 0 64 with frozen := true } [])).noc.tokens.map (·.null) = [true] ∧
    (mv 3 0 64).copies = true ∧ (after (.moverCopy 1 0) (moving (mv 3 0 64) [])).load 20480 64 = List.replicate 64 5#8 ∧
    ((after (.moverCopy 1 0) (moving (mv 3 0 64) [])).fn 1).movers.map (·.done) = [true] ∧
    (after (.moverCollect 0) (moving (mv 2 0 64) [rep 31 (List.replicate 64 6#8)])).load 20480 64 = List.replicate 64 6#8 ∧
    ((after (.moverCollect 0) (moving (mv 2 0 64) [rep 31 (List.replicate 64 6#8)])).fn 1).movers.map (·.done) = [true] ∧
    (after (.moverDone 1 0) (moving { mv 3 0 64 with done := true } [])).hrd.msgs.length = 1 ∧
    (after (.moverDone 1 0) (moving (mv 3 0 64) [])).hrd.msgs = [] := by decide +kernel
/-- A sampled pass-through command of one tile, finish-ready. -/
def sent (x : Capture) : State :=
  let q := cmd (.tens 0 0 0 0 0 0)
  let s := dir.setCore 0 { block := { descs := [desc1 0x80#32] }, entries := [{ op := 0, tag := 0#16, state := .finishReady }] }
  let x : Capture := { x with cmd := some q }
  let s : State := { s with flt := { captures := [x] }, bnd := { folios := [{ handle := 0, ctx := 1 }] } }
  withFields [(FLT_CTX_SENT_WINDOW.size, 1, 16)] (s.setStp 1 { barked := true })
def cap : Capture := { core := 0, op := 0, tag := 0#16, seq := 0, hash := 0 }
theorem wit_SentinelChecks :
    let s := (num.put FLT_CTX_SENT_STATUS.state 1 1).wn .FLT_CTX_SENT_COUNT 1 1
    (after (.sentListLoad 0 1 1) num).get FLT_CTX_SENT_STATUS.state 1 = 1 ∧
    spGet [] (after (.sentListLoadComplete 1) s).flt.sent 1 = [List.replicate 16 0#8] ∧
    (after (.sentListLoadComplete 1) (s.store 0 [0, 0, 32])).get FLT_CTX_SENT_STATUS.state 1 = 3 ∧
    (after (.sentinelCapture k0) (sent cap)).flt.captures.map (·.taken) = [true] ∧
    (after (.sentinelCapture k0) ((sent cap).put FLT_CTX_SENT_WINDOW.size 1 0)).rn .FLT_SENT_SKIPPED = 1 ∧
    (after (.sentinelPhaseStart 1) (sent { cap with taken := true })).flt.phase = [1] ∧
    (after (.sentinelPhaseStart 1) (sent { cap with taken := true })).rn .FLT_SENT_RUNS = 1 := by decide +kernel
theorem test_sentinel_compare :
    let s := after (.sentinelPhaseStart 1) (sent { cap with taken := true })
    let u (same : Bool) (second : Fin 3) : State := after (.sentinelCompare k0 same second) s
    s.partner 0 1 = some 1 ∧ (u true 0).flt.captures = [] ∧ samples (.sentinelCompare k0 false 0) s = [(6, 1)] ∧
    (u false 1).seq.sampled.map (fun e => (e.cls, e.src)) = [(6, 0), (7, 9)] ∧ (u false 2).seq.sampled.map (·.ev) = [.sentinel 1 0] ∧
    (u false 2).rn .FLT_SENT_UNATTRIBUTED = 1 := by decide +kernel
/-- The job's context drains a snapshot of step 3 to slot 0. -/
def snap : State := { (num.put LNK_JOB_CTX.context 0 1) with flt := { drain := some (0, natLe 8 0 ++ natLe 8 3, 0) } }
theorem wit_SnapshotsRestoreAndReplay_drain :
    let pages := pagesIn (snap.rn .CTX_BANK_BASE 1) (snap.rn .CTX_BANK_SIZE 1)
    snap.jobCtx = some 1 ∧ pages.any snap.pageFenced = false ∧ 0 < snap.snapSlots ∧
    (pages.any (snap.put MEM_STATUS.fenced 0 1).pageFenced) = true ∧
    (after .snapshotDrainComplete (snap.put MEM_STATUS.fenced 0 1)).flt.slotsDone = [] ∧
    (after .snapshotDrainComplete (snap.put MEM_STATUS.fenced 0 1)).flt.drain = none := by decide +kernel
theorem test_cadence :
    let s := withFields [(LNK_STATUS.joined, 0, 1), (LNK_STATUS.shepherd, 0, 1), (MGT_STATUS.led, 0, 1)] {}
    s.led = true ∧
    s.joined = true ∧ (after (.cadenceRecord 9) s).flt.nextInterval = 9 ∧ (after (.cadenceRecord 0) s).flt.nextInterval = 1 ∧
    after (.cadenceRecord 9) {} = {} := by decide +kernel
theorem wit_ScaleExponentAndScales :
    let dec := fmtFP32.dec
    dec 0x3F800000 = .fin false 0x800000 (-23) ∧ 1 * 2 ^ 23 ≤ 0x800000 ∧ ¬ (1 * 2 ^ 24 ≤ 0x800000) ∧
    scaleOf 2 0 0x3F800000 none = (0x43800000, 0x3B800000) ∧ scaleOf 2 0 0x3FE00000 none = (0x43800000, 0x3B800000) ∧
    scaleOf 2 0 0x3FE00001 none = (0x43000000, 0x3C000000) ∧ scaleOf 1 3 0x477FE000 none = (0x3E000000, 0x41000000) ∧
    scaleOf 3 0 1 none = (0x7F000000, 0x00400000) ∧ scaleOf 3 15 0x7F7FFFFF none = (0x00800000, 0x7E800000) ∧
    scaleOf 3 0 0 none = (0x3F800000, 0x3F800000) ∧ scaleOf 3 0 0 (some (5, 6)) = (5, 6) := by decide +kernel

/-! ## The training step -/

/-- Context 1 computes in region 0 with a step folio; it owns tally 0 under identifier 5; folios 2 and 3 carry layout epoch 6. -/
def train : State :=
  let f (h e : Nat) : Folio := { handle := h, ctx := 1, dies := 1, step := true, epoch := BitVec.ofNat 32 e, leaves := [{ region := 0, use_ := 1 }] }
  let s := withFields [(BND_REGION_STATE.step, 0, 1), (HRD_TALLY.owner, 0, 1), (CTX_CONFIG.preemptible, 1, 0), (MGT_STATUS.led, 0, 1)] (bound 0 num)
  { s with hrd := { alloc := [0], trans := [(2 ^ 20 + 5, 1)] }, bnd := { folios := [f 1 0, f 2 6, f 3 6] } }
/-- A step record: step, microbatches, deadline in µs; its end tally has identifier 5 and count 9. -/
def srec (step m deadline : Nat) : List Byte :=
  natLe 8 step ++ natLe 2 m ++ natLe 2 0 ++ natLe 4 5 ++ natLe 4 9 ++ natLe 4 deadline ++ List.replicate 40 0#8
theorem wit_StepStartsVotesAndEnds :
    let u := after (.step iss1 (srec 0 4 50)) train
    train.stepHeld 1 = false ∧ train.judgeStep 1 (srec 0 4 50) = 0 ∧ train.tableHalt 1 = false ∧ q1 u = [(0, 0)] ∧ u.sstate 1 = 1 ∧
    u.get CTX_STEP_STATE.microbatches 1 = 4 ∧ (u.stp 1).deadline = some 313 ∧ u.hrd.leashes.map (fun l => (l.threshold, l.target)) =
      [(9, .spine (.step 1))] ∧
    after (.step iss1 (srec 0 4 50)) (train.put CTX_STEP_STATE.state 1 1) = train.put CTX_STEP_STATE.state 1 1 := by decide +kernel
/-- R312: the checks in their order. -/
theorem test_step_checks :
    let st (r : List Byte) (s : State) : List (Nat × Nat) := q1 (after (.step iss1 r) s)
    st (srec 0 0 0) train = [(4, 0)] ∧ st (srec 0 4097 0) train = [(4, 0)] ∧ st (srec 1 4 0) train = [(0x0C, 0)] ∧
    st (srec 0 4 0) (train.wn .CTX_LAYOUT_EPOCH 1 6) = [(0x0B, 0)] ∧ st (srec 0 4 0) (train.setHrd {}) = [(7, 0)] ∧
    st (srec 0 4 0) (train.put BND_REGION_STATE.state 0 4) = [(0x0A, 0)] := by decide +kernel
/-- Its step runs; the end tally has barked. -/
def voting (word : Nat) : State :=
  (withFields [(CTX_STEP_STATE.state, 1, 1), (CTX_STEP_STATE.microbatches, 1, 4), (CTX_HEALTH.local_, 1, word)] (train.wn .MGT_TICK 0 10)).setStp 1
    { barked := true }
theorem test_votes_and_deadline :
    let u := after (.stepVote 1) (voting 0)
    let a := after (.stepVote 1) (voting 8)
    let late := (voting 0).setStp 1 { deadline := some 10 }
    (voting 0).voteReady 1 = true ∧ (voting 0).solo 1 = true ∧ u.sstate 1 = 3 ∧ u.rn .CTX_TAG_BASE 1 = 4 ∧ u.rn .CTX_VOTE_TICK 1 = 10 ∧
    (u.stp 1).decision.map (fun d => (d.commit, d.flip)) = some (true, 202) ∧ (u.ring 1).queue.map (fun r => (r.kind, r.status, r.aux)) = [(2, 0, 1)] ∧
    a.sstate 1 = 2 ∧ (a.ring 1).queue.map (fun r => (r.kind, r.status, r.aux)) = [(2, 0x0A, 2)] ∧
    late.voteReady 1 = false ∧ after (.stepVote 1) late = late ∧ (after (.stepDeadline 1) late).rstate 0 = 4 ∧
    ((after (.stepDeadline 1) late).stp 1).closed = true := by decide +kernel
/-- A job of 2 packages along W; this one is at coordinate 0. -/
def job (s : State) : State := (withFields [(LNK_STATUS.joined, 0, 1), (LNK_JOB_CTX.context, 0, 1)] s).wn .LNK_JOB_DIMS 0 (2 ^ 24) |>.wn .LNK_FLOCK 0 (2 ^ 24)
def vrec (word : Nat) : VoteRec := { step := 0, word := word, votes := 1, tick := 20, layout := 0 }
def voted (t : StepState) : State := (job ((voting 0).put CTX_STEP_STATE.state 1 2)).setStp 1 t
theorem wit_VotesAndDecisionsOfAJob :
    let s := voted { own := [(3, vrec 0)] }
    let both (v : Nat) : State := (voted { combined := some { vrec v with votes := 2 } }).put LNK_STATUS.shepherd 0 1
    s.jobCtx = some 1 ∧ s.joined = true ∧ s.ring_ 3 = 2 ∧ s.jobSize = 2 ∧
    ((after (.voteRecord 3 true 1 (vrec 8)) s).stp 1).combined = some { vrec 8 with votes := 2 } ∧
    ((after (.voteRecord 3 true 1 (vrec 8)) (voted {})).stp 1).got = [(3, 1, vrec 8)] ∧
    (after (.shepherdDecision 1) (both 0)).sstate 1 = 3 ∧ (after (.shepherdDecision 1) (both 0)).out = [.decision 0x1000000 0 true 212 true] ∧
    ((after (.shepherdDecision 1) (both 1)).stp 1).decision.map (·.commit) = some false ∧
    ((after (.shepherdDecision 1) (voted { combined := some (vrec 0) } |>.put LNK_STATUS.shepherd 0 1)).stp 1).decision.map (·.commit) = some false ∧
    (after (.decisionRecord 3 true 99 false) (voted {})).out = [.failure 12 0] ∧
    (after (.decisionRecord 0 true 99 false) (voted {})).sstate 1 = 3 ∧ ((after (.decisionRecord 0 false 99 false) (voted {})).applyAbort 1).sstate 1 = 0 ∧
    ((after (.decisionRecord 0 false 99 false) (voted {})).applyAbort 1).rn .CTX_ABORTS 1 = 1 := by decide +kernel
def committing (r : Option Reshard) : State := ((voting 0).put CTX_STEP_STATE.state 1 3).setStp 1 { decision := some { commit := true, flip := 10 }, reshard := r }
/-- A re-shard of region 0 from move folio 2 to target folio 3. -/
def rs (ph : ReshardPhase) : Reshard := { iss := iss1, move := 2, target := 3, regions := 1, step := 0, endVid := 5, endCount := 9, phase := ph }
theorem wit_CommitFlipAndDoubt :
    let u := after (.commitFlip 1) (committing none)
    let m := after (.commitFlip 1) ((committing (some (rs .moving))).wn .CTX_PENDING_EPOCH 1 6)
    let e := (committing none).wn .MGT_TICK 0 9
    let d := after (.voteTimeout 1) (voted {})
    let w := (voted {}).put LNK_STATUS.shepherd 0 1
    u.sstate 1 = 0 ∧ u.get CTX_STEP_STATE.sel 1 = 1 ∧ u.rn .CTX_STEP 1 = 1 ∧ u.rn .CTX_COMMITS 1 = 1 ∧ after (.commitFlip 1) e = e ∧
    m.rn .CTX_LAYOUT_EPOCH 1 = 6 ∧ m.rn .CTX_STEP 1 = 0 ∧ (m.stp 1).reshard = some (rs .target) ∧
    d.sstate 1 = 4 ∧ (d.ring 1).queue.map (fun r => (r.kind, r.status, r.aux)) = [(2, 0x1A, 3)] ∧ after (.voteTimeout 1) w = w ∧
    (after (.voteTimeout 1) (w.wn .MGT_TICK 0 (usTicks 1000))).out = [.inDoubt 0x1000000 0, .failure 11 0] ∧
    (after (.inDoubtResolution 1 true 99) d).sstate 1 = 3 ∧ ((after (.inDoubtResolution 1 false 99) d).stp 1).decision.map (·.commit) = some false ∧
    (after (.inDoubtResolution 1 false 99) d).rn .CTX_IN_DOUBT 1 = 1 := by decide +kernel
/-- The bytes of that re-shard's record. -/
def rrec : List Byte := natLe 1 2 ++ natLe 1 3 ++ natLe 2 0 ++ natLe 2 1 ++ natLe 2 0 ++ natLe 8 0 ++ natLe 4 5 ++ natLe 4 9 ++ natLe 8 0
theorem wit_ReshardBeginsForcesAndBinds :
    let u := after (.reshard iss1 rrec) train
    let t := train.setStp 1 { reshard := some (rs .target) }
    parseReshard iss1 rrec = rs .held ∧ reshardRsv rrec = true ∧ (train.began iss1 2).judgeReshard 1 (rs .held) = 0 ∧
    train.drainHeld 1 = false ∧ u.sstate 1 = 5 ∧ u.rn .CTX_PENDING_EPOCH 1 = 6 ∧ q1 u = [(0, 0)] ∧ u.rstate 0 = 1 ∧
    q1 (after (.reshard iss1 rrec) t) = [(2, 0)] ∧ q1 (after (.reshard iss1 rrec) (train.wn .CTX_STEP 1 1)) = [(0x0C, 0)] ∧
    (after (.reshard iss1 rrec) (voting 0)).flag CTX_STEP_STATE.reshard_held 1 = true ∧
    bitAt ((after (.reshardForce iss1 rrec) (voting 0)).get CTX_HEALTH.local_ 1) 4 = true ∧
    ((after (.reshardForce iss1 rrec) (voting 0)).stp 1).closed = true ∧ (after (.reshardForce iss1 rrec) (voting 0)).rstate 0 = 4 ∧
    after (.reshardTargetBind 1) t = t ∧ (after (.reshardTargetBind 1) (t.wn .MGT_TICK 0 1)).sstate 1 = 0 ∧
    (after (.reshardTargetBind 1) (t.wn .MGT_TICK 0 1)).rstate 0 = 1 := by decide +kernel

/-! ## Contexts, rings, pre-emption -/

def admin (s : State) : Nat := s.get CTX_ADMIN_STATUS.status
theorem wit_ContextsCreateAndDestroy :
    let s := (withFields [(MGT_STATUS.led, 0, 1)] (bound 0 num))
    let u := after (.ctxCreate 0 2 3) s
    let d := after (.ctxDestroy 0 1) s
    s.led = true ∧ s.ctxExists 2 = false ∧ u.ctxExists 2 = true ∧ u.get CTX_CONFIG.function 2 = 3 ∧ admin u = 0 ∧
    admin (after (.ctxCreate 0 2 3) (s.put MGT_STATUS.led 0 0)) = 0x1B ∧ admin (after (.ctxCreate 0 1 3) s) = 2 ∧
    admin (after (.ctxCreate 0 4 3) u) = 2 ∧ admin (after (.ctxCreate 0 31 3) s) = 4 ∧ admin (after (.ctxCreate 0 2 17) s) = 4 ∧
    admin (after (.ctxDestroy 0 2) s) = 4 ∧ d.ctxExists 1 = false ∧ d.rstate 0 = 0 ∧ admin d = 0 := by decide +kernel
/-- Context 1 with a ring at 16,384, its control block at 8,192; one NOP cell waits. -/
def nopCell : List Byte := [0x0D#8, 1#8, 0#8, 0#8, 0#8, 0#8, 0#8, 0#8] ++ natLe 8 0x55 ++ List.replicate 48 0#8
def ringed : State :=
  let s := withFields [(CTX_RING_CONFIG.enable, 1, 1), (MGT_STATUS.led, 0, 1)] (num.wn .CTX_CTRL_BASE 1 8192 |>.wn .CTX_RING_BASE 1 16384 |>.wn .CTX_CPL_BASE 1 32768)
  ((s.store 8192 (natLe 8 1)).store 16384 nopCell).wn .MGT_TICK 0 1000
theorem wit_RingsPollTakeAndNop :
    let p := after (.ringPoll 1) ringed
    let t := after (.ringCommandTake 1) p
    (after (.ctxRingConfigWrite 0 1 0x100088) num).rn .CTX_RING_CONFIG 1 = 0x100088 ∧
    (after (.ctxRingConfigWrite 0 1 0x100009) num).flag CTX_PSTATE.ring_fault 1 = true ∧
    (after (.ctxRingConfigWrite 0 1 0x100009) num).flag CTX_RING_CONFIG.enable 1 = false ∧
    (p.ring 1).cells = nopCell ∧ after (.ringPoll 1) p = p ∧
    (t.ring 1).taken.map (fun t => (t.opcode, t.cookie)) = [(0x0D, 0x55)] ∧ t.rn .CTX_SUB_HEAD 1 = 1 ∧ t.load 8200 8 = natLe 8 1 ∧
    q1 (after (.nop iss1) t) = [(0, 0)] := by decide +kernel
theorem test_ring_head_not_led :
    let p := (after (.ringPoll 1) ringed).put MGT_STATUS.led 0 0
    ((after (.ringCommandTake 1) p).ring 1).taken = [] ∧ q1 (after (.ringCommandTake 1) p) = [(0x1B, 0)] := by decide +kernel
/-- A record of one NOP's completion: bytes in the ring, tail in the control block, message due. -/
theorem wit_CompletionsBatchesAndReservation :
    let r : CplRec := { kind := 0, status := 0, aux := 0x0D, tag := 0x55, irq := true }
    let s := ringed.setRing 1 { queue := [r] }
    let u := after (.completionRecordWrite 1) s
    let full := (s.wn .CTX_CPL_TAIL 1 128)
    s.writable 1 32768 32 = true ∧ s.writable 1 8216 8 = true ∧ s.cplRecords 1 = 128 ∧
    u.load 32768 32 = natLe 8 0x55 ++ [0, 0, 0, 0, 0x0D, 0, 0, 0] ++ List.replicate 15 0#8 ++ [1] ∧ u.load 8216 8 = natLe 8 1 ∧
    u.hif.due = [(0, 0)] ∧ (u.ring 1).queue = [] ∧ after (.completionRecordWrite 1) full = full ∧
    (after (.ctxRegionReserveWrite 0 3 1) s).reserver 3 = 1 ∧
    after (.ctxRegionReserveWrite 0 0 2) (bound 0 {}) = bound 0 {} := by decide +kernel
/-- A batch item for slot 0 of channel 0 in region 0 with source 0. -/
def batch (item : List Byte) (f : FchSlot) : State :=
  (withImage (fdesc 0 0 0) ((train.put CTX_STEP_STATE.state 1 1).setFslot 0 f)).setStp 1 { items := [List.replicate 10 0#8 ++ [0xFF#8], item] }
theorem test_batch_items :
    let item : List Byte := List.replicate 16 0#8
    let u := after (.batchItemArm 1) (batch item {})
    (u.stp 1).items = [] ∧ (u.stp 1).item = 2 ∧ (u.fslot 0).active.isSome = true ∧
    ((after (.batchItemArm 1) (batch item { active := some (fdesc 0 0 0), fired := true, shadow := some (fdesc 0 0 0) })).stp 1).items = [item] ∧
    samples (.batchItemArm 1) (batch (List.replicate 8 0#8 ++ [16#8]) {}) = [(9, 33)] ∧
    ((batch item {}).applyEvent (.badItem 1 16 1)).rstate 0 = 4 := by decide +kernel
/-- Context 2 holds region 0 with a lower priority than context 1. -/
def holder : State := withFields [(BND_REGION_STATE.context, 0, 2), (CTX_CONFIG.exists, 2, 1), (CTX_CONFIG.preemptible, 2, 1), (CTX_CONFIG.priority, 1, 3), (MGT_STATUS.led, 0, 1)] (bound 0 num)
theorem wit_PreemptionRequestsAndClaims :
    let u := after (.preempt iss1 1) holder
    let c : State := { num with ctx := { claims := [{ region := 1, ctx := 1, until_ := 5 }] } }
    holder.holdersOf [0] = [2] ∧ holder.ringHeld iss1 = false ∧ holder.regionBusy 0 = false ∧
    u.get CTX_PSTATE.state 2 = 2 ∧ u.ctx.preempts = [{ ctx := 2, regions := [0], t0 := 0 }] ∧ u.ctx.reqs.map (·.holders) = [[2]] ∧ q1 u = [] ∧
    q1 (after (.preempt iss1 1) (holder.put CTX_CONFIG.priority 2 3)) = [(2, 0)] ∧
    q1 (after (.preempt iss1 2) holder) = [(0, 0)] ∧ (after (.preempt iss1 2) holder).ctx.claims = [{ region := 1, ctx := 1, until_ := 6250 }] ∧
    (after (.ctxPreemptRequest 0 2) holder).ctx.preempts.length = 1 ∧
    (after (.claimExpiry 1) (c.wn .MGT_TICK 0 5)).ctx.claims = [] ∧ (after (.claimExpiry 1) c).ctx.claims.length = 1 := by decide +kernel
def preempting (st : Nat) (q : Preempt) : State := { holder.put CTX_PSTATE.state 2 st with ctx := { preempts := [q] } }
def pre2 : Preempt := { ctx := 2, regions := [0], t0 := 0 }
theorem wit_PreemptionSavesAndResumes :
    let k : CoreState := { entries := [{ gath with state := .inEngines }] }
    let s := (preempting 2 pre2).setCore 0 {}
    let busy := ((preempting 2 pre2).setCore 0 k).wn .MGT_TICK 0 100000
    let d := after (.preemptDeadline 2) busy
    s.yieldReady pre2 = true ∧ (after (.yieldPoint 2) s).get CTX_PSTATE.state 2 = 3 ∧
    busy.yieldReady pre2 = false ∧ d.preOf 2 = some { pre2 with forced := some 100000 } ∧ (d.core 0).stopped = true ∧
    (after (.forcedSaveStart 2) (d.wn .MGT_TICK 0 100001)).get CTX_PSTATE.state 2 = 3 ∧
    (after (.forcedSaveStart 2) (d.wn .MGT_TICK 0 100001)).rn .CTX_FORCED 2 = 1 ∧
    (preempting 3 { pre2 with forced := some 1 }).preOf 2 = some { pre2 with forced := some 1 } := by
  decide +kernel
/-- A saved context whose region is free again resumes; its cores go on once restored. -/
theorem test_resume :
    let q : Preempt := { pre2 with saved := [{ region := 0, handle := 1 }] }
    let f : Folio := { handle := 1, ctx := 2, dies := 1, leaves := [{ region := 0, use_ := 1 }] }
    let free := (({ preempting 4 q with bnd := { folios := [f] } } : State).put BND_REGION_STATE.state 0 0).put BND_REGION_STATE.context 0 31
    let back := ({ preempting 5 q with bnd := { folios := [f] } } : State).setCore 0 { stopped := true }
    (free.resumeCmds q).length = 1 ∧ (after (.contextResume 2) free).get CTX_PSTATE.state 2 = 5 ∧ (after (.contextResume 2) free).rstate 0 = 1 ∧
    after (.contextResume 2) (free.put CTX_CONFIG.hold 2 1) = free.put CTX_CONFIG.hold 2 1 ∧
    (after (.contextRestoreComplete 2) back).get CTX_PSTATE.state 2 = 1 ∧ ((after (.contextRestoreComplete 2) back).core 0).stopped = false := by
  decide +kernel
theorem test_accounting :
    let s := bound 0 ((num.wn .PWR_REGION_ENERGY_UJ 0 9).wn .CORE_TENSOR_BUSY 0 3)
    (after .accountingTick s).rn .CTX_ACC_REGION_TICKS 1 = 1 ∧ (after .accountingTick s).rn .CTX_ACC_ENERGY_UJ 1 = 9 ∧
    (after .accountingTick s).rn .CTX_ACC_TENSOR 1 = 3 := by decide +kernel

/-! ## Keys, attestation, admission -/

def keys (s : State) : Nat := s.get SEC_KEY_STATUS.status
theorem wit_SecurityKeysAndViolations :
    let s := withFields [(MGT_STATUS.led, 0, 1)] hbm
    let u := after (.enrol 0) s
    s.decodes 0 = true ∧ s.flag SEC_KEY_STATUS.busy = false ∧
    (s.readNow .engine (s.rn .SEC_KEY_ADDR) 2624).2 = .data (List.replicate 2624 0#8) ∧
    u.sec.keys = [List.replicate 2592 0#8] ∧ keys (after (.enrol 0) hbm) = 0x1B ∧
    keys (after (.enrol 0) (s.put SEC_STATUS.key_lock 0 1)) = 2 ∧
    keys (after (.enrol 0) { s with sec := { keys := List.replicate 16 [] } }) = 3 ∧
    s.flag SEC_STATUS.key_lock = false ∧
    (after (.keyLock 0) (s.put SEC_STATUS.key_lock 0 1)).sec = s.sec := by decide +kernel
theorem test_violation :
    let u := (bound 0 {}).applyEvent (.violation 0)
    samples (.securityViolation 0) (bound 0 {}) = [(1, 0)] ∧
    u.flag SEC_STATUS.violated = true ∧ u.sec.erased = true ∧ u.nor.violations = 1 ∧ u.rstate 0 = 4 ∧
    (u.ring 1).queue.map (·.status) = [0x0A] := by decide +kernel
theorem wit_SpdmResponses :
    let s := ledState
    s.spdmOk = true ∧ (after .getVersion s).out = [.spdm 0 [0x13]] ∧ (after (.negotiateAlgorithms true false) s).out = [.spdm 0xFF []] ∧
    (after (.getCertificate 1 0 4) s).out = [.spdm 0xFF []] ∧
    (after (.getMeasurements 1 false []) s).out = [.spdm 6 (List.replicate 64 0#8)] ∧
    (after (.getMeasurements 7 false []) s).out = [.spdm 0xFF []] ∧ (after .getVersion {}).out = [.spdm 0xFF []] := by decide +kernel
/-- A shepherd of a flock of two whose table expects digest 7… at coordinate 2^24. -/
def dig : List Byte := List.replicate 64 7#8
def shep (sec : SecState) : State := { withFields [(MGT_STATUS.led, 0, 1), (LNK_STATUS.shepherd, 0, 1)] (job hbm) with sec := sec }
def xentry (coord : Nat) : List Byte := natLe 4 coord ++ [1] ++ List.replicate 11 0#8 ++ dig
theorem wit_IdentityAdmission :
    let n : Nat := 2 ^ 24
    let asked : SecState := { asked := [n], expect := [xentry n] }
    (after (.expectTableLoad 0 3) (shep {})).sec.loading = true ∧ (after (.expectTableLoad 0 1500) (shep {})).get SEC_EXPECT_COUNT.count = 1500 ∧
    (after .expectTableLoadComplete (shep { loading := true })).sec.rejudge = true ∧
    (after .expectTableLoadComplete (((shep { loading := true }).put SEC_EXPECT_COUNT.count 0 1).store 0 (xentry n))).sec.expect = [xentry n] ∧
    (shep {}).judges n = true ∧ (after (.identityChallenge (BitVec.ofNat 32 n) none) (shep {})).sec.asked = [n] ∧
    (shep asked).holdReason n dig true = 0 ∧
    (after (.challengeResponse (BitVec.ofNat 32 n) dig true) (shep asked)).sec.admitted = [(n, dig)] ∧
    (after (.challengeResponse (BitVec.ofNat 32 n) dig false) (shep asked)).out = [.heldReport n 1] ∧
    (after (.challengeResponse (BitVec.ofNat 32 n) [] true) (shep asked)).out = [.heldReport n 2] ∧
    (after (.challengeResponse (BitVec.ofNat 32 n) dig true) (shep { asked := [n] })).out = [.heldReport n 3] ∧
    (after (.challengeResponse (BitVec.ofNat 32 n) dig true) (shep { asked with admitted := [(0, dig)] })).out = [.heldReport 0 4, .heldReport n 4] ∧
    (after (.challengeResponse (BitVec.ofNat 32 n) dig true) (shep {})).sec.admitted = [] ∧
    (after (.challengeResponse 0 dig true) {}).sec.admitted = [(0, dig)] ∧
    (after (.challengeResponse 0 dig false) {}).sec.held.map (·.coord) = [0] ∧
    (after (.challengeSilentTimeout (BitVec.ofNat 32 n)) (shep asked)).out = [.heldReport n 5] := by decide +kernel

/-! ## Links and jobs -/

theorem wit_LinkPortsLanesAndFlits :
    let e := ledState
    let t := after (.portTrainingComplete 6 0xF) (job e)
    (after (.portRoleWrite 0 6 0xF) e).get LNK_PORT_CFG.role 6 = 0xF ∧
    after (.portRoleWrite 0 6 (BitVec.ofNat 32 (e.get LNK_PORT_CFG.role 5))) e = e ∧
    (job e).untrained (e.get LNK_PORT_CFG.role 6) = false ∧ t.get LNK_PORT_STATUS.state 6 = 1 ∧ t.get LNK_PORT_STATUS.lanes 6 = 0xF ∧
    (t.port 6).trained = true ∧ t.expectedCoord (t.get LNK_PORT_CFG.role 6) = some (2 ^ 24) ∧
    (after (.identityFlit 6 0 (BitVec.ofNat 32 (2 ^ 24)) 7 dig) t).get LNK_PORT_STATUS.state 6 = 2 ∧
    (after (.identityFlit 6 0 0 7 dig) t).get LNK_PORT_STATUS.state 6 = 3 := by decide +kernel
/-- Port 6 up with flit 9 expected and 4 the first not acknowledged. -/
def up : State := { withFields [(LNK_PORT_STATUS.state, 6, 2), (LNK_PORT_STATUS.lanes, 6, 0xF)] (job ledState) with
  lnk := { ports := [(6, { rxNext := 9#24, txNext := 20#24, txAck := 4#24, trained := true })] } }
theorem test_flits :
    ((after (.linkFlit 6 0 9 none true 0 0) up).port 6).rxNext = 10 ∧ (after (.linkFlit 6 0 9 none true 0 0) up).rn .LNK_RX_BYTES 6 = 240 ∧
    (after (.linkFlit 6 0 10 none true 0 0) up).out = [.nak 6 8] ∧ ((after (.linkFlit 6 0 10 none true 0 0) up).port 6).discarding = true ∧
    (after (.linkFlit 6 0 9 none false 0 0) up).out = [.nak 6 8] ∧ seqAfter 8 4 = true ∧
    ((after (.linkFlit 6 3 0 (some 7) true 0 0) up).port 6).txAck = 8 ∧ (after (.linkNak 6 6) up).out = [.replay 6 7] ∧
    ((after (.linkNak 6 6) up).port 6).txAck = 7 := by decide +kernel
theorem test_recalibration :
    let r := after (.portRecalRequest 0 6) up
    r.get LNK_PORT_STATUS.state 6 = 4 ∧ r.lnk.recal = some (6, [0, 1, 2, 3]) ∧ r.get LNK_PORT_STATUS.lanes 6 = 0xE ∧
    (after (.recalTimerExpiry 6) (up.wn .LNK_RECAL_HOURS 0 1)).lnk.recal = some (6, [0, 1, 2, 3]) ∧
    (after (.recalTimerExpiry 6) (up.wn .LNK_RECAL_HOURS 0 0)).lnk.recal = none ∧
    (after (.recalErrorThreshold 6 2) up).lnk.recal = some (6, [0, 1, 2, 3]) ∧
    (after (.portRecalRequest 0 6) { up with lnk := { up.lnk with recal := some (3, [1]) } }).lnk.recalWait = [6] ∧
    (after (.laneRecalComplete true) r).lnk.recal = some (6, [1, 2, 3]) ∧ (after (.laneRecalComplete true) r).get LNK_PORT_STATUS.lanes 6 = 0xD ∧
    (after (.laneRecalComplete true) { r with lnk := { r.lnk with recal := some (6, [3]) } }).get LNK_PORT_STATUS.state 6 = 2 ∧
    (after (.laneDrop 6 1) up).get LNK_PORT_STATUS.lanes 6 = 0xD ∧ (after (.laneDrop 6 1) up).rn .LNK_LANE_DROPS 6 = 1 := by decide +kernel
def ticking (n : Nat) (root aligned : Bool) : State :=
  { (job {}).put LNK_STATUS.tick_root 0 (if root then 1 else 0) |>.wn .LNK_TICK 0 n with lnk := { aligned := aligned } }
theorem wit_JobMembershipAndTicks :
    let s := ((job {}).put LNK_STATUS.joined 0 0).put MGT_STATUS.led 0 1
    let u := after (.join 0) s
    let w := 2 ^ 24
    let dep := ((job {}).put LNK_STATUS.deputy 0 1).put MGT_STATUS.led 0 1
    u.joined = true ∧ u.rn .LNK_TICK = 0 ∧ u.flag LNK_STATUS.shepherd = false ∧ u.flag LNK_STATUS.deputy = true ∧
    (after (.join 0) (s.wn .LNK_JOB_COORD 0 w)).flag LNK_STATUS.shepherd = true ∧ (after (.join 0) (s.wn .LNK_JOB_COORD 0 1)).joined = false ∧
    (after (.leave 0) u).joined = false ∧ after .shepherdTimeout (job {}) = job {} ∧
    (after .beaconSend (ticking 2048 true true)).out = [.beacon 2048] ∧ after .beaconSend (ticking 2049 true true) = ticking 2049 true true ∧
    (after (.beaconReceive 2048 100) (ticking 2000 false true)).rn .LNK_TICK = 2048 ∧
    (after (.beaconReceive 2048 100) (ticking 2000 false true)).flag LNK_STATUS.sync_lost = false ∧
    (after (.beaconReceive 2048 100) (ticking 1900 false true)).flag LNK_STATUS.sync_lost = true ∧
    (after (.beaconReceive 2048 100) (ticking 1900 false false)).flag LNK_STATUS.sync_lost = false ∧
    dep.deputyOf 0 = some 0 ∧ (after .shepherdTimeout dep).flag LNK_STATUS.shepherd = true ∧
    (after .shepherdTimeout dep).out = [.newShepherd 0] := by decide +kernel
theorem test_heartbeat_and_takeover :
    let w := 2 ^ 24
    let s := (((job {}).put LNK_STATUS.shepherd 0 1).wn .LNK_JOB_COORD 0 w).put MGT_STATUS.led 0 1
    s.deputyOf s.coord = some 0 ∧ (s.firstHop 0).isSome = true ∧ (after .shepherdHeartbeat s).out = [.heartbeat 0] ∧
    (after (.takeover 0 none) s).sec.taken = [0] ∧
    (after (.takeover (BitVec.ofNat 32 w) (some (9, BitVec.ofNat 32 w, 3))) ledState).coord = w ∧
    (after (.takeover (BitVec.ofNat 32 w) (some (9, BitVec.ofNat 32 w, 3))) ledState).joined = true := by decide +kernel
def peered (s : State) : State := job (s.put CTX_CONFIG.exists 1 1)
theorem wit_PeerWritesAndCollectiveRuns :
    let d := List.replicate 64 7#8
    let s := peered num
    let w : Word := BitVec.ofNat 32 (2 ^ 24)
    let r := { s with lnk := { s.lnk with ports := [(6, { trained := true })] } }
    s.jobCtx = some 1 ∧ (after (.peerWrite w 0 4096 0 d) s).load 4096 64 = d ∧ (after (.peerWrite w 0 4096 0 d) s).out = [.peerAck (2 ^ 24) 0] ∧
    (after (.peerWrite w 0 4096 2 d) s).load 20480 64 = d ∧ (after (.peerWrite w 0 (2 ^ 22) 0 d) s).out = [.peerAck (2 ^ 24) 8] ∧
    (after (.peerWrite w 0 4096 3 d) s).out = [.peerAck (2 ^ 24) 8] ∧ s.firstHop (2 ^ 24) = some 6 ∧ s.portOf 6 = some 6 ∧
    (after (.peerWrite 0 w 4096 0 d) (r.put LNK_PORT_STATUS.state 6 2)).out = [.relayed 6] ∧
    (after (.peerWrite 0 w 4096 0 d) s).out = [.peerAck 0 8] := by decide +kernel
/-- A broadcast entry of 4 elements, trigger tally 5 at value 9, done tally 6, result at 4,096. -/
def clEntry (op flags : Nat) : List Byte := [BitVec.ofNat 8 op, 0, 0, 0, 0, 0, BitVec.ofNat 8 flags, 0] ++ natLe 4 4 ++ natLe 4 5 ++ natLe 4 9 ++
  natLe 4 6 ++ natLe 8 0 ++ natLe 8 4096 ++ natLe 8 0 ++ natLe 8 0 ++ natLe 8 0
theorem test_collective_table :
    let s := job (withFields [(CTX_CONFIG.exists, 1, 0), (COL_STATUS.state, 0, 1)] num |>.wn .COL_TABLE_COUNT 0 1)
    let r := { peered num with lnk := { table := [clEntry 3 0], barks := [0] } }
    colEntryOk (clEntry 3 0) = true ∧ (after (.colTableLoad 0 1) (peered num)).get COL_STATUS.state = 1 ∧
    after (.colTableLoad 0 1) ((peered num).put CTX_STEP_STATE.state 1 1) = (peered num).put CTX_STEP_STATE.state 1 1 ∧
    (after .colTableLoadComplete (s.store 0 (clEntry 3 0))).lnk.table = [clEntry 3 0] ∧
    (after .colTableLoadComplete (s.store 0 (clEntry 6 0))).get COL_STATUS.state = 3 ∧
    (after (.collectiveRun 0) r).hrd.msgs.map (fun m => (m.vid, m.act, m.count)) = [(5, 1, 9)] ∧ (after (.collectiveRun 0) r).rn .COL_RUNS = 1 ∧
    after (.collectiveRun 1) r = r := by decide +kernel

/-- A run of entry 0 whose result is 64 bytes. -/
def result (flags : Nat) (s : State) : State :=
  s.setLnk { s.lnk with runs := [{ entry := 0, img := clEntry 3 flags, step := 0, epoch := 0, out := some (List.replicate 64 8#8) }] }
/-- The header of a chunk of entry 0 at stage 1 of segment 0, from a sender. -/
def chHead (job step : Nat) : List Byte := natLe 4 job ++ [0, 0, 0, 0] ++ natLe 4 step ++ natLe 4 0 ++ natLe 4 0 ++ natLe 4 (2 ^ 24) ++ natLe 8 0
theorem wit_CollectiveChunksAndResults :
    let s := peered num
    let w : Word := BitVec.ofNat 32 (2 ^ 24)
    let d := List.replicate 64 7#8
    let t := result 1 ((moving (mv 1 0 64) []).put LNK_JOB_CTX.context 0 1)
    let p := result 1 (((peered num).put CTX_PSTATE.state 1 4).setCtx { preempts := [{ ctx := 1, saved := [{ region := 0 }] }] })
    let u := after (.collectiveComplete 0) t
    s.jobCtx = some 1 ∧ s.joined = true ∧ after (.collectiveChunk 6 0 (chHead 1 0) d false) s = s ∧
    (after (.collectiveChunk 6 w (chHead 0 0) d false) s).out = [.chunkTo (2 ^ 24) 6 (chHead 0 0) d] ∧
    s.runOf (hdEntry (chHead 0 0)) = none ∧
    (after (.collectiveComplete 0) (result 0 s)).load 4096 64 = List.replicate 64 8#8 ∧
    ((after (.collectiveComplete 0) (result 0 s)).hrd.msgs.map fun m => (m.vid, m.act, m.count)) = [(6, 0, 1)] ∧
    t.clTarget 1 (clEntry 3 1) = (0, 0, 0, 0) ∧ t.barksHeld 1 = false ∧ t.credit 0 0 0 0 = true ∧ t.rctx 0 = 1 ∧
    (u.noc.tokens.map fun t => (t.dst, t.op, t.port, t.tag, t.data)) = [(0, 0, 0, 0, List.replicate 64 8#8)] ∧
    ((after (.collectiveComplete 0) (t.put CTX_PSTATE.state 1 2)).lnk.runs.map fun r => (r.parked, r.delivered)) = [(true, false)] ∧
    (p.ctx.preempts.find? fun q => q.ctx = 1).isSome = true ∧ p.get CTX_PSTATE.state 1 = 4 ∧ regionOf 0 = 0 ∧
    (after (.parkedResultArrival 0) p).lnk.runs.map (·.delivered) = [true] ∧ (after (.parkedResultArrival 0) p).rn .COL_PARKED = 1 := by
  decide +kernel

/-! ## Faults, self-tests, the fault history -/

theorem wit_FaultReportsFenceUnits :
    let s := bound 0 {}
    let rep (k : Fin 8) (i : Nat) : State := after (.faultReport k i 3) s
    let up6 := s.put LNK_PORT_STATUS.state 6 2
    (0, 5) ∉ s.flt.testing ∧ s.unitFenced 0 5 = false ∧ unitOk 0 4095 = true ∧ unitOk 0 4096 = false ∧
    (rep 0 5).fencedCore 0 5 = true ∧ (rep 0 5).flt.testing = [(0, 5)] ∧ (rep 0 5).rn .FLT_STRIKES = 1 ∧ (rep 0 5).rstate 0 = 2 ∧
    (rep 0 5).phys 5 = 15 ∧
    s.unitFenced 1 0 = false ∧ (rep 1 0).fencedRouter 0 = true ∧ (rep 1 0).rstate 0 = 4 ∧
    unitOk 2 393215 = true ∧ (rep 2 24577).mt.retired = [(1, 1)] ∧
    s.unitFenced 3 15 = false ∧ unitOk 3 15 = true ∧ (rep 3 15).stackFenced 15 = true ∧
    s.unitFenced 4 3 = false ∧ unitOk 4 3 = true ∧ s.unitFenced 5 3 = false ∧ unitOk 5 3 = true ∧
    (after (.faultReport 6 25 3) (up6.put LNK_PORT_STATUS.lanes 6 0xF)).get LNK_PORT_STATUS.lanes 6 = 0xD ∧
    up6.get LNK_PORT_STATUS.state 6 ≠ 0 ∧ (after (.faultReport 7 6 3) up6).get LNK_PORT_STATUS.state 6 = 0 := by decide +kernel
def tested (k i : Nat) (s : State) : State := { s with flt := { s.flt with testing := [(k, i)] } }
theorem wit_SelfTestsLiftsAndHistory :
    let s := after (.faultReport 0 5 3) {}
    let b := after (.faultReport 0 5 3) (bound 0 {})
    let l (k i : Nat) (s : State) : State := { s with flt := { s.flt with lifts := [(k, i)] } }
    let r := (({} : State).wn .FLT_CORE_FENCE 0 32)
    (0, 5) ∈ s.flt.testing ∧ (0, 5) ∉ s.flt.again ∧ s.strikes 0 (fun i => i = 5) < 3 ∧ s.fencedCore 0 5 = true ∧ s.rstate 0 = 0 ∧
    (after (.selfTestComplete 0 5 true) s).fencedCore 0 5 = false ∧ (after (.selfTestComplete 0 5 true) s).rn .FLT_TRANSIENT = 1 ∧
    b.rstate 0 ≠ 0 ∧ (after (.selfTestComplete 0 5 true) b).flt.lifts = [(0, 5)] ∧
    (after (.selfTestComplete 0 5 false) s).rn .FLT_PERMANENT = 1 ∧ (after (.selfTestComplete 0 5 false) s).fencedCore 0 5 = true ∧
    r.fencedCore 0 5 = true ∧ (after (.fenceLift 0 5) (l 0 5 r)).fencedCore 0 5 = false ∧
    (after (.fenceLift 1 5) (l 1 5 (r.wn .FLT_ROUTER_FENCE 0 32))).fencedRouter 5 = false ∧
    ({} : State).decodes 0 = true ∧ (after (.softwareFence 0 0 5) {}).get FLT_CMD_STATUS.status = 0x1B ∧
    (after (.softwareFence 0 0 4096) ledState).get FLT_CMD_STATUS.status = 4 ∧
    (after (.softwareFence 0 0 5) ledState).fencedCore 0 5 = true ∧ (after (.softwareFence 0 0 5) ledState).rn .FLT_STRIKES = 0 ∧
    (after (.softwareFence 0 6 25) ledState).unitFenced 6 25 = true ∧
    (after (.retest 0 1 5) ledState).flt.testing = [(1, 5)] ∧ (after (.retest 0 1 5) ledState).rn .FLT_SELFTESTS = 1 := by decide +kernel
def frec (kind action index service : Nat) : FaultRec := { kind := kind, action := action, cause := 0, index := index, service := service, step := 0 }
/-- A full log of strikes of one unit. -/
def fullLog : State := { nor := { logA := List.replicate 131072 (frec 0 1 5 0) } }
theorem wit_fault_history :
    let s : State := { flt := { queue := [frec 0 2 5 0] } }
    (after .faultHistoryWrite s).nor.logB = [frec 0 2 5 0] ∧ s.nor.logA.length < 131072 ∧
    compactLog 2592001 [frec 0 1 5 0, frec 0 2 5 0, frec 0 1 5 2, frec 0 3 5 1, frec 1 2 5 0] = [frec 0 1 5 2, frec 0 3 5 1, frec 1 2 5 0] ∧
    (after .serviceHour (({} : State).wn .FLT_SERVICE_S 0 3600)).nor.service = 3600 := by decide +kernel
theorem wit_full_log : 131072 ≤ fullLog.nor.logA.length ∧ fullLog.live = true :=
  ⟨Nat.le_of_eq List.length_replicate.symm, rfl⟩

/-! ## Failure paths, fill, restore, replay -/

/-- The shepherd of a job of two packages, with failure paths. -/
def paths (l : List FailPath) : State := { ((job {}).put LNK_STATUS.shepherd 0 1).put MGT_STATUS.led 0 1 with flt := { paths := l } }
theorem wit_FailurePathsAndFills :
    let w : Word := BitVec.ofNat 32 (2 ^ 24)
    let p (r : Nat) : FailPath := { row := r, src := 2 ^ 24 }
    let s := paths []
    let u := after (.failureRecord 3 w 0 0 0) s
    let late := (paths [p 2]).wn .MGT_TICK 0 (62500000000)
    let k := (withFields [(LNK_PORT_CFG.role, 6, 6)] (s.wn .MGT_TICK 0 6250000)).setPort 6 { down := some 0 }
    s.coordOk (2 ^ 24) = true ∧ s.sameFlock (2 ^ 24) s.coord = true ∧ u.flt.paths.map (·.takeover) = [some (2 ^ 24)] ∧
    u.get FLT_JOB_STATE.state = 1 ∧ u.out = [.pause (2 ^ 24) true] ∧
    (after (.failureRecord 11 w w 0 0) s).flt.paths.map (·.takeover) = [some (2 ^ 24)] ∧
    (after (.failureRecord 2 w 0 0 0) s).flt.paths.map (·.takeover) = [none] ∧
    (after (.pause 4) s).get FLT_JOB_STATE.path = 4 ∧ (after (.resume none) (after (.pause 4) s)).get FLT_JOB_STATE.state = 0 ∧
    (after (.resume none) (paths [p 2])).flt.resumeHeld = true ∧
    (after (.resume (some w)) (paths [p 2])).flt.paths = [] ∧ (after (.resume (some w)) (paths [p 2, p 3])).flt.paths = [p 3] ∧
    (after (.repairTimeout w) late).flt.paths.map (·.takeover) = [some (2 ^ 24)] ∧
    k.untrained 6 = false ∧ k.portUp 6 = false ∧ (after (.portDownTimeout 6) k).out = [.failure 10 0] ∧
    (after .tickSyncTimeout (k.put LNK_STATUS.sync_lost 0 1)).out = [.failure 12 0] := by decide +kernel
/-- The same job, whose context 1 has banks; both packages are replicas along W. -/
def filling (f : Option Nat) (ok : Bool) : State :=
  { withFields [(LNK_STATUS.shepherd, 0, 1), (SNP_CONFIG.replica_axes, 0, 8), (MGT_STATUS.led, 0, 1)] (peered num) with flt := { fill := f, fillValues := ok } }
theorem wit_fill :
    let s := filling none false
    let w : Word := BitVec.ofNat 32 (2 ^ 24)
    s.jobCtx = some 1 ∧ s.sstate 1 = 0 ∧ s.replicas 0 = [0, 2 ^ 24] ∧
    (after (.fillReady 0 [w]) s).flt.fill = some 0 ∧ (after (.fillReady 0 [w]) s).out = [.ready (s.shepherdOf 0)] ∧
    (((s.replicas (2 ^ 24)).filter fun x => decide (x ∈ [0])).filter (fun x => x ≠ 2 ^ 24)).head? = some s.coord ∧
    (after (.fillReady w [w]) s).out = [.lostReport (2 ^ 24)] ∧ s.judges (2 ^ 24) = true ∧ s.fullSlots = [] ∧
    (after (.fillValues 7 5 3 6 []) (filling (some 0) false)).flt.fill = none ∧
    (after (.fillValues 7 5 3 6 []) (filling (some 0) false)).rd .NUM_CTX_SEED 1 = 7 ∧
    (after .fillComplete (filling (some 0) true)).rn .SNP_FILLS = 1 ∧
    (after .fillComplete (filling (some 0) true)).out = [.fillResult 0 0] := by decide +kernel
/-- The clause of equal digests: whatever the digest function is, the digests of the package itself are equal to its own. -/
theorem wit_fill_digests : ∃ d, d = ((filling (some 0) false).setValues 1 7 5 3 6).tableDigests 1 := ⟨_, rfl⟩
/-- Slot 0 at address 0 of the job's context is complete at step 4; its header is written out: magic, version, values, then a flag. -/
def slotHdr (job coord : Nat) : List Byte :=
  natLe 4 0x4E535854 ++ natLe 2 0x0100 ++ natLe 4 job ++ natLe 4 coord ++ natLe 8 4 ++ natLe 8 77 ++ natLe 4 3 ++ natLe 4 6 ++ List.replicate 12 0#8 ++
    List.replicate (8 + 64 * 5) 0#8 ++ [1]
def slotted (job coord : Nat) : State :=
  ({ (peered num).put MGT_STATUS.led 0 1 with flt := { slotsDone := [(0, 5)] } } : State).store 0 (slotHdr job coord)
def snpSt (s : State) : Nat := s.get SNP_CMD_STATUS.status
theorem wit_SnapshotsRestoreAndReplay_restore :
    let s := slotted 0 0
    let op : RestoreOp := { slot := 0, values := (slotHdr 0 0).drop 6 |>.take 44, was := 1 }
    let r := (slotted 0 0).setFlt { s.flt with restore := some op }
    let u := after .restoreComplete r
    let m := after (.replay 0) s
    s.decodes 0 = true ∧ s.flag SNP_CMD_STATUS.busy = false ∧ s.jobCtx = some 1 ∧ s.sstate 1 = 0 ∧ s.slotStep 0 = some 4 ∧
    (s.engRead 1 (s.snapSlotAddr 0) 4096).2 = some (s.load 0 4096) ∧
    hdOk (s.load 0 4096) s.snapParts.length (s.rn .LNK_JOB_ID) s.coord = true ∧
    hdOk ((slotted 1 0).load 0 4096) s.snapParts.length (s.rn .LNK_JOB_ID) s.coord = false ∧
    snpSt (after (.restore 0 0) (slotted 1 0)) = 4 ∧ snpSt (after (.restore 0 1) s) = 4 ∧ snpSt (after (.restore 0 0) {}) = 0x1B ∧
    snpSt (after (.restore 0 0) ledState) = 4 ∧ snpSt (after (.restore 0 0) (s.put CTX_STEP_STATE.state 1 1)) = 2 ∧
    u.rn .NUM_CTX_SEED 1 = 77 ∧ u.rn .CTX_STEP 1 = 4 ∧ u.rn .SNP_RESTORES = 1 ∧ u.get FLT_JOB_STATE.state = 1 ∧
    m.flt.replay = true ∧ m.get FLT_JOB_STATE.state = 4 := by decide +kernel

/-! ## Power and temperature -/

theorem wit_StretchLevelsFollowReadings :
    let s : State := State.reset.setPwr { State.reset.pwr with released := true }
    let sag (u : State) : Nat := u.get PWR_REGION_ACLK.sag 3
    let lo := after (.sagSensorLow 3 false) s
    let deep := after (.sagSensorLow 3 true) s
    let hot (t : Nat) (u : State) : State := after (.thermalLevelUpdate [BitVec.ofNat 8 t]) u
    sag s = 32 ∧ sag lo = 22 ∧ lo.get PWR_REGION_ACLK.level 3 = 22 ∧ lo.rn .PWR_REGION_SAG_EVENTS 3 = 1 ∧ sag deep = 16 ∧
    after (.sagSensorLow 3 false) deep = deep ∧ sag (after (.sagLevelRise 3) lo) = 23 ∧ after (.sagLevelRise 3) s = s ∧
    deep.sagTop = 32 ∧ sag (after .sagInFall s) = 22 ∧ (after .sagInFall s).sagTop = 22 ∧
    (after .peakPower s).get PWR_REGION_ACLK.peak 15 = 22 ∧ (after .peakRecovery (after .peakPower s)).get PWR_REGION_ACLK.level 15 = 23 ∧
    (after (.powerTargetCompare 3001) s).get PWR_REGION_ACLK.cap 0 = 31 ∧ (after (.powerTargetCompare 3000) s).get PWR_REGION_ACLK.cap 0 = 32 ∧
    (after (.powerTargetCompare 2939) ((s.put PWR_REGION_ACLK.cap 0 20).setPwr { s.pwr with underMs := 9 })).get PWR_REGION_ACLK.cap 0 = 21 ∧
    (hot 100 s).get PWR_REGION_ACLK.thermal 0 = 31 ∧ (hot 97 ((s.put PWR_REGION_ACLK.thermal 0 20).setPwr { s.pwr with coolMs := [(0, 9)] })).get
      PWR_REGION_ACLK.thermal 0 = 21 ∧ (hot 98 ((s.put PWR_REGION_ACLK.thermal 0 20).setPwr { s.pwr with coolMs := [(0, 9)] })).get
      PWR_REGION_ACLK.thermal 0 = 20 ∧
    (after (.energyTick [7] [1] [2]) s).rn .PWR_RAIL_ENERGY_UJ 0 = 7 ∧ (after (.energyTick [7] [1] [2]) s).rn .PWR_REGION_ENERGY_UJ 0 = 3 := by
  decide +kernel
/-- R526, worked through: the level falls to 22 and is back at 32 after ten half microseconds. -/
theorem test_sag_recovers :
    let lo := after (.sagSensorLow 3 false) State.reset
    ((List.replicate 10 ()).foldl (fun u _ => after (.sagLevelRise 3) u) lo).get PWR_REGION_ACLK.sag 3 = 32 := by decide +kernel

/-- R542: a write of the target and of the sag limit takes effect at the next tick. -/
theorem test_limits_at_the_tick :
    let s := after (.registerWrite 0 0x400008 false 1800) State.reset
    let z := after .eventTick (after (.registerWrite 0 0x400010 false (35 + 20 * 128)) (after .sagInFall State.reset))
    s.get PWR_TARGET.watts = 1800 ∧ s.limit PWR_TARGET.watts = 3000 ∧ (after .eventTick s).limit PWR_TARGET.watts = 1800 ∧
    z.get PWR_REGION_ACLK.sag 5 = 20 := by decide +kernel

/-! ## The lease, updates, requests -/

/-- Both halves up and ready; the lease as given. -/
def halves (m : MgtState) : State :=
  { withFields [(MGT_STATUS.west_ready, 0, 1), (MGT_STATUS.east_ready, 0, 1)] {} with mgt := { m with up := [0, 1] } }
/-- The west half leads with term 5; context 1 has a command taken. -/
def leading : State := ((halves { holder := some 0, expiry := 90, leadExpiry := 80 }).put MGT_STATUS.led 0 1).wn .MGT_TERM 0 5
def takenCmd : TakenCmd := { opcode := 0x0B, cookie := 9#64, irq := true }
theorem wit_LeaseAndLeadChange :
    let f := (halves {}).wn .MGT_TERM 0 5
    let l := leading.setRing 1 { taken := [takenCmd] }
    let h (e : EvKind) (s : State) : State := { s with seq := { sampled := [⟨3, 0, 0, e⟩] } }
    let refused (u : State) : Bool := !u.led && (u.ring 1).taken.isEmpty && decide ((u.ring 1).queue.map (fun r => (r.kind, r.status, r.aux, r.tag)) = [(0, 0x1B, 0x0B, 9)])
    let idle := (leading.put MGT_STATUS.led 0 0).wn .MGT_LEAD_CHANGES 0 1 |>.wn .MGT_TICK 0 12500
    f.ready 0 = true ∧ f.arbiterUp = true ∧ f.leaseFree 15 = true ∧ termAfter 6 5 = true ∧ termAfter 5 5 = false ∧
    (after (.leaseClaim 0 6 2) f).mgt.holder = some 0 ∧ (after (.leaseClaim 0 6 2) f).mgt.expiry = 100002 ∧ after (.leaseClaim 0 5 2) f = f ∧
    leading.leaseFree 0 = false ∧ (after (.leasePoll 1 3) (leading.wn .MGT_TICK 0 6)).rn .MGT_TERM = 6 ∧
    (after (.leaseRenew 0 5 1) leading).mgt.expiry = 100001 ∧ (after (.leaseRenewTimer 4) leading).mgt.renewSent = 4 ∧
    refused (after (.leaseRelease 0) l) = true ∧ refused (after .leadExpiry (l.wn .MGT_TICK 0 5)) = true ∧ after .leadExpiry l = l ∧
    (after (.leadChange 0) (h (.leadChange 0) (halves { holder := some 0 }))).led = true ∧
    (after (.mgmtWatchdogExpiry 1) leading).seq.sampled.map (·.ev) = [.mgmtFault 1] ∧
    (after (.halfReady 1) (leading.put MGT_STATUS.east_ready 0 0)).ready 1 = true ∧
    idle.offlineRestart = false ∧ idle.mgt.noLead = false ∧ (after .noLeadTimeout (bound 0 idle)).mgt.noLead = true ∧
    (after .noLeadTimeout (bound 0 idle)).rstate 0 = 4 ∧
    (after .startupLeadTimeout ((halves {}).wn .MGT_TICK 0 62500)).mgt.noLead = true := by decide +kernel
/-- An update with a one-byte image is under way. -/
def updating (x : FwUpdate) (stage : Nat) : State := withFields [(MGT_FW_STATUS.stage, 0, stage), (MGT_FW_STATUS.busy, 0, 1)] (leading.setMgt { leading.mgt with update := some x })
def upd : FwUpdate := { image := [9], first := 1 }
def fwSt (s : State) : Nat := s.get MGT_FW_STATUS.status
theorem wit_FirmwareUpdatesAndRequests :
    let e := after (.fwCopyComplete 1 false) (updating upd 1)
    let late := ((updating { upd with prev := [(1, 0, 0)] } 2).put MGT_STATUS.east_ready 0 0).wn .MGT_TICK 0 1250000
    let prob := (updating upd 1).setMgt { leading.mgt with updated := [(1, 0)], readyTick := [(1, 1)] }
    let held (h : Held) : State := { ({} : State) with mt := { recal := [3], portHeld := [h] } }
    leading.decodes 0 = true ∧ leading.flag MGT_FW_STATUS.busy = false ∧ fwSt (after (.fwUpdate 0 false) {}) = 0x1B ∧
    fwSt (after (.fwUpdate 0 false) (leading.put SEC_STATUS.violated 0 1)) = 0x1C ∧ fwSt (after (.fwUpdate 0 false) leading) = 4 ∧
    fwSt (after (.fwUpdate 0 false) (leading.put MGT_FW_LEN.bytes 0 33554433)) = 4 ∧
    fwSt (after (.handover 0) {}) = 0x1B ∧ fwSt (after (.handover 0) (leading.put MGT_STATUS.east_ready 0 0)) = 2 ∧
    (after (.handover 0) leading).get MGT_FW_STATUS.stage = 3 ∧ (after (.handover 0) leading).led = false ∧
    (updating upd 1).get MGT_FW_STATUS.stage = 1 ∧
    fwSt e = 6 ∧ e.activeSlot 1 = 0 ∧ e.nor.slots = [[], [], [], []] ∧ e.mgt.update = none ∧
    late.ready 1 = false ∧ late.mgt.update.map (·.prev) = some [(1, 0, 0)] ∧ prob.probation 1 = some 0 ∧
    (after (.mctpRequest false [1] 4 false) leading).out = [.mctpNotReady] ∧ (after (.mctpRequest false [1] 5 false) leading).out = [.mctp [1]] ∧
    (after (.hbmPhyRecal 3) {}).stackHeld 3 = true ∧ (after (.hbmPhyRecal 4) (held { req := .engine, addr := 0, len := 64, data := none })).mt.recal = [3] ∧
    (after (.hbmPhyRecalComplete 3) (held { req := .engine, addr := 0, len := 64, data := none })).mt.recal = [] := by decide +kernel
/-- An image that is the one that runs has its mirror format, whatever that function is: the hypotheses of a good update. -/
theorem wit_FirmwareUpdate_good :
    let s : State := { withFields [(MGT_STATUS.led, 0, 1), (MGT_FW_LEN.bytes, 0, 1)] hbm with nor := { slots := [[0#8], [], [], []] } }
    let r := s.readNow .engine (s.rn .MGT_FW_IMAGE) (ceilDiv 1 64 * 64)
    s.led = true ∧ s.get MGT_FW_LEN.bytes = 1 ∧ r.2 = .data (List.replicate 64 0#8) ∧ r.1.image r.1.leadHalf = [0#8] ∧
    (List.replicate 64 0#8).take 1 = [0#8] := by decide +kernel
theorem wit_FirmwareUpdate_mirror : Config.imageMirror [0#8] = Config.imageMirror [0#8] := rfl

/-! ## Reset and power-up -/

theorem wit_ResetAndPowerUp :
    let s := (bound 0 hbm).store 5 [1]
    (after .pwrokFall s).live = false ∧ (after .pwrokFall s).rstate 0 = 0 ∧ (after .pwrokFall s).load 5 1 = [0] ∧
    after .pwrokRise s = s ∧ (after .pwrokRise (after .pwrokFall s)).live = true ∧
    (after .perstFall s).load 5 1 = [1] ∧ (after .perstFall s).live = false ∧ (after .perstRise (after .perstFall s)).live = true ∧
    (after .perstFall s).rn .DEV_ID = 0x97162010 ∧ (after (.pwrReset 0) s).rstate 0 = 0 ∧ (after .pfFlr s).load 5 1 = [1] ∧
    (after (.norLoadComplete [] []) { s with nor := { service := 9, logA := [frec 0 2 5 0, frec 0 2 6 0, frec 0 3 6 1] } }).fencedCore 0 5 = true ∧
    (after (.norLoadComplete [] []) { s with nor := { service := 9, logA := [frec 0 2 5 0, frec 0 2 6 0, frec 0 3 6 1] } }).fencedCore 0 6 = false ∧
    (after (.norLoadComplete [0] []) { s with nor := { logA := [frec 0 2 5 0], logB := [frec 0 2 7 0] } }).fencedCore 0 7 = true ∧
    (after (.norLoadComplete [] []) { s with nor := { service := 9 } }).rn .FLT_SERVICE_S = 9 := by decide +kernel
theorem wit_half_boot :
    ({} : State).activeSlot 0 = 0 ∧ ({} : State).activeSlot 1 = 0 ∧ ({} : State).arbiterUp = true ∧ ({} : State).mgt.up = [] ∧
    ({} : State).rn .MGT_TERM = 0 ∧ after (.halfBootComplete 0 false false 0) {} = {} := by decide +kernel

/-! ## Rails, references, the TAP -/

theorem wit_RailsReferencesAndTrips :
    let s := withFields [(LNK_PORT_STATUS.state, 2, 2), (LNK_PORT_STATUS.state, 6, 2), (HIF_STATUS.link_up, 0, 1)] {}
    let m (x : MemState) (l : List Nat) : State := { ({} : State) with mt := x, pwr := { switching := l } }
    let g : Held := { req := .engine, addr := cxlStart, len := 64, data := none }
    let t (r : Bool) (m : Bool) (u : State) : State := after (.tapTckEdge r m false false) u
    (after (.railTrip 12) s).live = false ∧ (after (.railTrip 13) s).get LNK_PORT_STATUS.state 2 = 0 ∧
    (after (.railTrip 14) s).get LNK_PORT_STATUS.state 6 = 0 ∧ (after (.railTrip 14) s).flag HIF_STATUS.link_up = false ∧
    (after (.railTrip 15) s).pwr.pwrok = false ∧ after (.railTrip 12) { s with pwr := { rails := [12] } } = { s with pwr := { rails := [12] } } ∧
    (after (.railTrip 8) s).stackFenced 3 = true ∧
    (after (.thermalTrip 3 110) s).pwr.therm = true ∧ after (.thermalTrip 3 109) s = s ∧ (after (.thermalTrip 4 100) s).live = false ∧
    after (.thermalTrip 4 99) s = s ∧ (after (.refclkLoss 3) s).live = false ∧ (after (.refclkLoss 1) s).pwr.fallen = [0, 1] ∧
    (after (.refclkLoss 2) s).pwr.fallen = [2] ∧
    (after (.clockFallbackComplete 0) (m {} [0])).pwr.switching = [] ∧
    (after (.clockFallbackComplete 1) (m { portHeld := [g] } [1])).mt.portHeld = [] ∧
    g.pages = [0] ∧ (m { held := [g] } []).heldFree g = true ∧ (after (.clockFallbackComplete 2) (m { held := [g] } [2])).mt.held = [] ∧
    (after (.refclkReturn 1) (after (.refclkLoss 1) s)).pwr.portsOff = [] ∧ (after (.avddSdReturn 0) (after (.railTrip 13) s)).pwr.portsOff = [] ∧
    ({} : State).awake = true ∧ (t true false {}).pwr.tap = .runTestIdle ∧
    (t true false (t true false (t true true (t true false {})))).pwr.tap = .shiftDR ∧
    (t false false (t true false (t true false (t true true (t true false {}))))).pwr.tdo = true := by decide +kernel

/-! ## The tick -/

theorem wit_EventTickCountsAndOrders :
    let l : List Sampled := [⟨4, 2, 0, .port 9 0⟩, ⟨4, 1, 0, .done none 1 0⟩]
    let s : State := { seq := { sampled := l } }
    let u := after .eventTick s
    s.jobCtx = none ∧ ((upto 31).all fun c => (s.stp c).decision.isNone && (s.stp c).reshard.isNone) = true ∧
    s.seq.order = l.reverse ∧ u.now = 1 ∧ u.pwr.inForce = (7096, 26468, 2851) ∧ u.seq.carried = [] ∧ u.rn .MGT_CLASS_EVENTS 4 = 2 ∧
    (after .eventTick { seq := { sampled := List.replicate 257 ⟨4, 2, 0, .port 9 0⟩ } }).rn .MGT_TICK_OVERRUN = 1 ∧
    (after .eventTick { seq := { sampled := List.replicate 257 ⟨4, 2, 0, .port 9 0⟩ } }).seq.carried.length = 1 := by decide +kernel

/-! ## The host interface -/

/-- Context 1 belongs to virtual function 2, which is enabled. -/
def vf : State := withFields [(HIF_STATUS.vfs, 0, 16)] ledState
theorem wit_RegisterAccesses :
    let s := vf
    let w (fn : Func) (o : Fin 67108864) (wide : Bool) (v : DWord) : State := after (.registerWrite fn o wide v) s
    let cnt := s.wn .PWR_REGION_ENERGY_UJ 0 (2 ^ 33 + 5)
    let lo := after (.counterSplitRead 0 0x400400) cnt
    ({ s with hif := { d3 := [2] } } : State).decodes 2 = false ∧ s.decodes 2 = true ∧
    (w 2 6 false 0).rn .HIF_BAD_ACCESS 2 = 1 ∧ (w 2 4 true 0).rn .HIF_BAD_ACCESS 2 = 1 ∧
    s.sees 2 .PWR_TJ 0 = false ∧ (w 2 0x40000C false 0).rn .HIF_BAD_ACCESS 2 = 1 ∧
    s.sees 0 .MGT_FW_CMD 0 = true ∧ w 0 0x20001C false 1 = s ∧
    s.sees 0 .LNK_JOB_ID 0 = true ∧ s.writeLocked .LNK_JOB_ID 0 = false ∧
    (s.put LNK_STATUS.joined 0 1).writeLocked .LNK_JOB_ID 0 = true ∧ (w 0 0x900008 false 7).rn .LNK_JOB_ID = 7 ∧
    lo.out = [.regRead 0 0x400400 5] ∧
    (after (.counterSplitRead 0 0x400404) lo).out = [.regRead 0 0x400400 5, .regRead 0 0x400404 2] ∧
    (after (.counterSplitRead 2 0x400400) s).out = [.regRead 2 0x400400 0xFFFFFFFF] ∧
    (w 0 0x400008 false 0).get PWR_TARGET.watts = 1800 ∧
    (w 0 0x400008 false 4000).get PWR_TARGET.watts = 3200 ∧
    (after (.badRegisterAccess 2 false 0 2) s).out = [.regRead 2 0 (BitVec.allOnes 64)] := by decide +kernel
theorem wit_found_registers :
    findReg 2 0x40000C = some (.PWR_TJ, 0, 0) ∧
    findReg 0 0x20001C = some (.MGT_FW_CMD, 0, 0) ∧
    findReg 0 0x900008 = some (.LNK_JOB_ID, 0, 0) ∧
    findReg 0 0x400400 = some (.PWR_REGION_ENERGY_UJ, 0, 0) ∧
    findReg 0 0x400404 = some (.PWR_REGION_ENERGY_UJ, 0, 4) ∧
    findReg 2 0x400400 = some (.PWR_REGION_ENERGY_UJ, 0, 0) ∧
    findReg 0 0x400008 = some (.PWR_TARGET, 0, 0) :=
  ⟨rfl, rfl, rfl, rfl, rfl, rfl, rfl⟩
theorem wit_LinkFunctionsAndApertures :
    let s := vf
    let up_ := after (.pcieLinkUp 4 8) s
    let d3 := after (.powerStateChange 2 true) s
    let cfg (s : State) (fn : Func) (o : Nat) : List Output := (after (.configRequest fn (.read o 5)) s).out
    let b := ({ s with pwr := { norDone := true } } : State)
    let ap := (hbm.put CTX_CONFIG.exists 1 1).put CTX_CONFIG.function 1 2 |>.put HIF_APERTURE.valid 32 1
    let ld := leading.put HIF_STATUS.link_up 0 1
    up_.get HIF_STATUS.width = 8 ∧ up_.get HIF_STATUS.rate = 4 ∧ (after (.pcieLinkUp 4 3) s).flag HIF_STATUS.link_up = false ∧
    (after (.hotReset 1 16) up_).get HIF_STATUS.rate = 1 ∧ (after .pcieLinkDown up_).flag HIF_STATUS.link_up = false ∧
    s.isFnOf 2 1 = true ∧ ((upto 1).all fun d => !s.isFnOf 2 d) = true ∧ ((upto 31).all fun c => !s.isFnOf 3 c) = true ∧
    (after (.vfFlr 2) s).ctxExists 1 = false ∧ (after (.vfFlr 3) s).ctxExists 1 = true ∧
    d3.decodes 2 = false ∧ (after (.powerStateChange 2 false) d3).decodes 2 = true ∧
    cfg s 0 0 = [.configReply 0 0 none] ∧ cfg b 16 0 = [.configReply 16 0 (some 0x97171FD7)] ∧
    cfg b 0 0 = [.configReply 0 0 (some 0x97161FD7)] ∧ cfg (b.put HIF_STATUS.vfs 0 3) 16 0 = [.configReply 16 0 (some 0xFFFFFFFF)] ∧
    s.segment 2 0 = none ∧ (after (.apertureRead 2 0 4 0 0 false) s).out = [.aperture 2 [0xFF, 0xFF, 0xFF, 0xFF]] ∧
    ap.segment 2 4096 = some (1, 4096) ∧ ap.waits (.host 1) 4096 64 false = false ∧
    (ap.serveRead (.host 1) 4096 64 0 0 false).2 = .data (List.replicate 64 0) ∧
    ap.waits (.host 1) 4096 64 true = false ∧ (after (.apertureWrite 2 4096 (List.replicate 64 3)) ap).load 4096 64 = List.replicate 64 3 ∧
    (after (.hifXlatWrite 3 2 0 1) s).rn .HIF_BAD_ACCESS 3 = 1 ∧ (after (.hifXlatWrite 2 2 0 0x200003) s).get HIF_XLAT.host 32768 = 1 ∧
    0 < s.xlatCount ∧
    (after (.mctpPcieMessage [1] 5) ld).out = [.mctp [1]] ∧ ld.spdmOk = true ∧ (after (.doeObject [1] true 5) ld).out = [.doe [1]] ∧
    (after (.mctpPcieMessage [1] 5) up_).out = [.mctpNotReady] ∧ after (.doeObject [1] false 5) ld = ld := by decide +kernel

/-! ## The spec's worked examples -/

/-- 03: four BF16 pairs in one group: the exact sum is 1 + 2^-30, whose FA48 code is 0x3FE0_0000_0080; 1 + 2^-8 + 2^-30 is exact. -/
theorem test_example_group_sum :
    let g := sumAll [.fin false 1 40, .fin false 1 0, .fin true 1 40, .fin false 1 (-30)]
    fmtFA48.enc .rne false g = 0x3FE000000080 ∧
    fmtFA48.dec (fmtFA48.enc .rne false (g.add (.fin false 1 (-8)))) = .fin false (2 ^ 37 + 2 ^ 29 + 2 ^ 7) (-37) := by decide +kernel
/-- A coefficient entry: mode, flags, m_exp, then the FP32 values c_g, a1, b1, a2, b2, c1, c0, eps, wd. -/
def coef (mode flags mexp : Nat) (l : List FVal) : List Byte :=
  natLe 1 mode ++ natLe 1 flags ++ natLe 1 mexp ++ List.replicate 5 0#8 ++ (l.flatMap fun x => natLe 4 (fmtFP32.enc .rne false x)) ++ List.replicate 20 0#8
def fr (m : Int) (e : Int) : FVal := .fin (decide (m < 0)) m.natAbs e
/-- 12: sign mode with a vote margin of +40 over 64 voters. -/
theorem test_example_sign_mode :
    let e := coef 1 0x65 4 [fr 1 0, fr 7 (-3), fr 1 (-3), fr 0 0, fr 0 0, fr 3 (-2), fr 1 (-2), fr 0 0, fr 1 (-7)]
    let G := voteGrad true 40 64
    let u := recurrence e (fr 1 (-10)) fvZero fvZero (fmtBF16.dec 0x3F00) (fr (-1) (-2)) fvZero G fvZero
    G.eq (fr 5 (-3)) = true ∧ (stepU e (stepG e G) (fr (-1) (-2)) u.m1).eq (fr (-1) (-5)) = true ∧ u.m1.eq (fr (-9) (-6)) = true ∧
    fmtE4M3.enc .rne true (u.m1.mul (fr 1 (ceMExp e))) = 0xC1 ∧ u.w1.eq (fr 131327 (-18)) = true ∧
    fmtBF16.enc (.stoch 12345) false u.w1 = 0x3F00 ∧ fmtBF16.enc (.stoch 49215) false u.w1 = 0x3F00 ∧
    fmtBF16.enc (.stoch 49216) false u.w1 = 0x3F01 ∧ fmtBF16.enc (.stoch 50000) false u.w1 = 0x3F01 := by decide +kernel
/-- 12: normalise mode with eps = 0; a zero denominator takes no update and is counted. -/
theorem test_example_normalise_mode :
    let e := coef 2 0x8B 0 [fr 1 0, fr 7 (-3), fr 1 (-3), fr 15 (-4), fr 1 (-4), fr 1 0, fr 0 0, fr 0 0, fr 0 0]
    let u (G : FVal) : Update := recurrence e (fr 1 (-8)) (fr 2 0) (fr 4 0) (fr 1 0) (fr 1 (-3)) fvZero G fvZero
    (u (fr 1 (-2))).m1.eq (fr 9 (-6)) = true ∧ (u (fr 1 (-2))).v1.eq (fr 1 (-8)) = true ∧ (u (fr 1 (-2))).w1.eq (fr 1015 (-10)) = true ∧
    fmtBF16.enc (.stoch 20000) false (u (fr 1 (-2))).w1 = 0x3F7E ∧ fmtBF16.enc (.stoch 16383) false (u (fr 1 (-2))).w1 = 0x3F7D ∧
    (u (fr 1 (-2))).zeroDen = false ∧ (u fvZero).zeroDen = true ∧ (u fvZero).m1.eq (fr 7 (-6)) = true ∧ (u fvZero).w1.eq (fr 1 0) = true := by
  decide +kernel
/-- 11: E4M3 scales with margin 1: amax 3.2, 5.5, 3.6, 4.1 give 64, 32, 32, 32; a history of 16.0 gives 8. -/
theorem test_example_scales :
    [0x404CCCCD, 0x40B00000, 0x40666666, 0x40833333, 0x41800000].map (fun h => (scaleOf 2 1 h none).1) =
      [0x42800000, 0x42000000, 0x42000000, 0x42000000, 0x41000000] ∧ overScale 2 0x41800000 0x42000000 = true := by decide +kernel
/-- 04: the issue handler of the FS-94 projection, and its descriptor 5: two tiles of 1,152 groups with the addresses of W and A. -/
theorem test_example_projection :
    let d : Desc := [8, 0, 0, 0, 0, 0, 0, 0, 0, 0, 0, 0x2410, 0x2410, 0x40, 0, 0, 0, 0, 0x0300047F, 8, 8, 0, 0, 0,
      0x06000001, 0, 0x00024100, 0x20, 0, 0] ++ List.replicate 24 0#32
    encodePilot (.tens 5 2 2 1 0 11) = 0x8052210B#32 ∧ d.levels = 2 ∧ d.role 0 = 3 ∧ d.bound 0 = 1152 ∧ d.role 1 = 2 ∧ d.bound 1 = 2 ∧
    d.kExtent = 1152 ∧ d.nest (fun l => decide (d.role l ≠ 3)) = [1] ∧ d.addr 1 0 [0, 1, 0, 0, 0, 0] = 147712 := by decide +kernel
/-- 15: the cadence of FS-94: 6 steps in the first 24 hours, 9 after them with one failure. -/
theorem test_example_cadence :
    let s : State := (withFields [(LNK_STATUS.joined, 0, 1), (SNP_MAX_INTERVAL.steps, 0, 1024)] {})
    let s := ((s.wn .LNK_JOB_DIMS 0 0x07070707).wn .SNP_COST_US 0 1000).wn .SNP_PRIOR_FIT 0 20000
    let f (now : Nat) (t : List Nat) : State := (s.wn .MGT_TICK 0 now).setFlt { flips := [9375000, 0], drainTicks := 134218, failTicks := t }
    s.jobSize = 4096 ∧ (f 9375000 []).snapInterval = 6 ∧ (f (24 * hourTicks) [hourTicks]).snapInterval = 9 := by decide +kernel
/-- 19: the control block of virtual function 3 at window offset 0x40_1040. -/
theorem test_example_window :
    let s := (withFields [(CTX_CONFIG.exists, 1, 1), (CTX_CONFIG.function, 1, 3), (HIF_STATUS.link_up, 0, 1)] {}).wn .HIF_XLAT (16384 * 3 + 2) 0x1234600003
    s.route ag1 0x803000401040 8 true = .to (.host 3 (hostBase + 0x1234601040)) := by decide +kernel

/-! ## More hypotheses met: what waits, what is turned away, what comes to its tick -/

/-- Stack 0 recalibrates: reads of context 1's first page wait. -/
def stackHeld (s : State) : State := { s with mt := { s.mt with recal := [0] } }
theorem wit_reads_wait :
    (num.leads, num.decodes 0, num.led) = (false, true, false) ∧ num.engHeld 1 0 64 = false ∧ (stackHeld num).engHeld 1 0 64 = true ∧
    after (.numMapLoadComplete 1) (stackHeld (mapping 1 2)) = stackHeld (mapping 1 2) ∧
    ((mapping 1 2).engRead 1 0 32).2 = some (List.replicate 32 0#8) ∧
    after .snapshotDrainComplete (stackHeld (snap.wn .NUM_CTX_MAP_COUNT 1 4)) = stackHeld (snap.wn .NUM_CTX_MAP_COUNT 1 4) ∧
    ((snap.drainPieces 1).any fun p => snap.engHeld 1 p.1 p.2.1) = false ∧ ((snap.finishDrain 0).engRefused 1 (snap.snapSlotAddr 0) 4096) = false ∧
    (stackHeld ringed).engHeld 1 8192 64 = true ∧ after (.ringPoll 1) (stackHeld ringed) = stackHeld ringed := by decide +kernel
/-- A key at 4,096 is read while its stack is held; a led package keeps the command for the next tick. -/
theorem wit_key_read_waits :
    let s := stackHeld (withFields [(MGT_STATUS.led, 0, 1)] hbm)
    s.leads = true ∧ (s.readNow .engine (s.rn .SEC_KEY_ADDR) 2624).2 = .held ∧ (s.handleRow (.enrol 0)).seq.sampled.length = 1 ∧
    ((s.put MGT_FW_LEN.bytes 0 1).readNow .engine 0 64).2 = .held ∧
    after .expectTableLoadComplete (stackHeld ((shep { loading := true }).put SEC_EXPECT_COUNT.count 0 1)) =
      stackHeld ((shep { loading := true }).put SEC_EXPECT_COUNT.count 0 1) := by decide +kernel
theorem wit_movers_wait :
    let s := moving (mv 1 0 64) []
    let m := mv 1 0 64
    s.mayDeliver 1 m (BitVec.ofNat 16 (s.rn .CTX_TAG_BASE 1 + m.sent)) = true ∧
    ((s.moverData 1 m).1.courierPath 0 (clusterOf m.core)).isSome = true ∧
    (((s.wn .FLT_ROUTER_FENCE 0 1).moverData 1 m).1.courierPath 0 (clusterOf m.core)) = none ∧
    (s.put CTX_PSTATE.state 1 2).mayDeliver 1 m 0#16 = false ∧ (moving (mv 3 0 64) []).moverWaits 1 4096 64 = false ∧
    (moving (mv 3 0 64) []).writesWait 1 = false ∧ s.stepOpen 1 = true := by decide +kernel
/-- Hypotheses of the sampled rows of the training step, the re-shard and the contexts. -/
theorem wit_steps_at_their_tick :
    let run := train.put CTX_STEP_STATE.state 1 1
    train.leads = true ∧ train.ctxSrc 1 = 33 ∧ run.stepHeld 1 = true ∧ train.ringHeld iss1 = false ∧ (voting 0).reshardHeld iss1 = true ∧
    train.reshardHeld iss1 = false ∧ reshardRsv (rrec.set 3 1) = false ∧
    (after (.reshard iss1 (rrec.set 3 1)) train |> q1) = [(4, 0)] ∧
    (train.put CTX_PSTATE.state 1 2).ringHeld iss1 = true ∧
    ((voting 0).put MGT_STATUS.led 0 0).led = false ∧ ((voting 0).setStp 1 { deadline := some 12 }).now + 1 < 12 ∧
    after (.shepherdDecision 1) (((voted { combined := some (vrec 0) }).put LNK_STATUS.shepherd 0 1).put MGT_STATUS.led 0 0) =
      (((voted { combined := some (vrec 0) }).put LNK_STATUS.shepherd 0 1).put MGT_STATUS.led 0 0) := by decide +kernel
theorem wit_preemptions_wait :
    let s := (preempting 3 { pre2 with gone := false })
    let busy : State := { holder with bnd := { holder.bnd with ops := [{ req := { ctx := 2, opcode := 5, named := [0] }, phase := .draining, regions := [0] }] } }
    holder.preemptWaits 2 = false ∧ busy.preemptWaits 2 = true ∧ s.preOf 2 = some pre2 ∧ s.saveHeld pre2 0 = false ∧
    samples (.preemptSaveComplete 2) s = [(10, 0)] ∧ ((preempting 3 { pre2 with forced := some 1, saved := [{ region := 0 }] }).handleRow (.preemptSaveComplete 2)).rstate 0 = 0 ∧
    (s.applyEvent (.preempted 2)).get CTX_PSTATE.state 2 = 4 ∧ (preempting 4 pre2).get CTX_PSTATE.state 2 = 4 ∧
    (busy.handleRow (.preempt iss1 1)).seq.sampled.length = 1 := by decide +kernel
/-- A command of a ring whose context is being pre-empted, or that no half leads any more, at its tick. -/
theorem wit_rows_at_their_tick :
    let c : Instr := .preempt iss1 1
    hostCmd c = some (.ring 1 0x55#64 true, 0x0C) ∧ needsRegion 0x0D = false ∧
    q1 (num.handleRow (.nop iss1)) = [(0x1B, 0)] ∧ q1 (ledState.handleRow (.nop iss1)) = [(0, 0)] ∧
    (ledState.put CTX_PSTATE.state 1 2).ringHeld iss1 = true := by decide +kernel
/-- A tick with one event handles it: the port of a held package comes up, or is left where it is not held. -/
theorem wit_one_event :
    let e : Sampled := ⟨4, 42, 0, .port 6 2⟩
    let s : State := { (({} : State).put LNK_PORT_STATUS.state 6 3) with seq := { sampled := [e] } }
    s.live = true ∧ s.seq.order = [e] ∧ e.die < 4 ∧ ({} : State).seq.order = [] ∧
    (after .eventTick s).get LNK_PORT_STATUS.state 6 = 2 ∧ (after .eventTick s).rn .MGT_CLASS_EVENTS 4 = 1 ∧
    shareTick [⟨4, 42, 0, .port 9 0⟩, ⟨4, 43, 0, .port 9 0⟩] [255, 0, 0, 0] =
      ([⟨4, 42, 0, .port 9 0⟩], [⟨4, 43, 0, .port 9 0⟩]) := by decide +kernel
/-- Fault reports: a unit already fenced, one under test, one that is none. -/
theorem wit_fault_reports_again :
    let s := (({} : State).wn .FLT_CORE_FENCE 0 32)
    let t : State := { s with flt := { testing := [(0, 5)] } }
    s.unitFenced 0 5 = true ∧ (0, 5) ∉ s.flt.testing ∧ (s.applyEvent (.unit 0 5 3)).rn .FLT_STRIKES = 1 ∧
    (t.applyEvent (.unit 0 5 3)).flt.again = [(0, 5)] ∧ samples (.faultReport 0 4096 3) s = [] ∧
    samples (.faultReport 1 5 3) s = [(6, 4101)] ∧ samples (.selfTestComplete 0 5 true) t = [(6, 5)] ∧ samples (.selfTestComplete 0 6 true) t = [] ∧
    samples (.softwareFence 0 0 5) s = [(9, 64)] ∧ samples (.softwareFence 0 0 5) (s.put FLT_CMD_STATUS.busy 0 1) = [] := by decide +kernel
/-- The lease: a claim that ties, and the commands that wait for their tick. -/
theorem wit_lease_ties :
    let s := after (.leaseClaim 1 6 2) ((halves {}).wn .MGT_TERM 0 5)
    s.mgt.holder = some 1 ∧ s.leaseFree 2 = false ∧ s.claimTies 0 6 2 = true ∧ s.claimTies 0 6 3 = false ∧
    (after (.leaseClaim 0 6 2) s).mgt.holder = some 0 ∧ after (.leaseClaim 0 6 3) s = s ∧
    leading.ready 0 = true ∧ (after (.mgmtFault 0) leading).seq.sampled.length = 1 := by decide +kernel
/-- A register that a row of its own writes: half of a window entry; a core's status as it is. -/
theorem wit_own_registers :
    let s := vf
    Reg.HIF_XLAT.info.own = true ∧ s.sees 0 .HIF_XLAT 0 = true ∧ 0 < s.xlatCount ∧ (s.writeOwn .HIF_XLAT 0 3).get HIF_XLAT.valid 0 = 1 ∧
    (({} : State).setCore 0 { entries := [{ op := 3, tag := 5#16 }] }).view .CORE_STATUS 0 = 0x100 ∧
    bits ((({} : State).setCore 0 { entries := [{ op := 3, tag := 5#16 }] }).view .CORE_MATCH_ENTRY 13) 55 40 = 5 ∧
    (({} : State).setCore 0 { entries := [{ op := 3, tag := 5#16 }] }).view .CORE_MATCH_ENTRY 12 = 0 := by decide +kernel
/-- SPDM: a transcript that spans a lead change is not ready; a new one begins with GET_DIGESTS. -/
theorem wit_spanned_transcript :
    let s := ledState.setSec { spans := true }
    s.spdmOk = true ∧ s.sec.spans = true ∧ (after .getCapabilities s).out = [.mctpNotReady] ∧
    (after .getVersion s).sec.transcript = true ∧ (after .getVersion s).sec.spans = false := by decide +kernel
/-- The job: a deputy with the lead, a takeover at its tick, a heartbeat not due. -/
theorem wit_job_at_its_tick :
    let s := (job {}).put MGT_STATUS.led 0 1
    samples (.takeover 0 none) s = [(4, 36)] ∧ after (.takeover 0 none) (job {}) = job {} ∧
    samples .shepherdTimeout s = [(11, 0)] ∧ samples (.repairTimeout (BitVec.ofNat 32 (2 ^ 24))) s = [] ∧
    samples (.join 0) s = [(9, 64)] ∧ (job {}).listHeld 1 = false := by decide +kernel
/-- The class that leaves a port: C before K and P, K three times before P, each within its credits. -/
theorem wit_class_order :
    let p (t : Nat) (w : List Nat) : PortState := { turn := t, wait := w }
    (p 0 [1, 1, 1]).nextClass = some 0 ∧ (p 2 [0, 1, 1]).nextClass = some 1 ∧ (p 3 [0, 1, 1]).nextClass = some 2 ∧
    (p 0 [0, 0, 0]).nextClass = none ∧ (p 0 [1, 1, 1]).canSend 0 = true ∧ (p 0 [0, 1, 1]).canSend 0 = false := by decide +kernel

end Sys2Proof.Tests
end

