-- ==== Sys2Proof/Proofs/Memory.lean ====
section
/-! Loads, copies and cleared ranges of the byte memory, and the round trip of little-endian numbers. -/

namespace Sys2Proof.Machine
open Sys2Proof

@[simp] theorem length_memLoad (m : Sparse Byte) (a n : Nat) : (memLoad m a n).length = n := by
  induction n generalizing a with
  | zero => rfl
  | succ n ih => simp [memLoad, ih]

@[simp] theorem getElem_memLoad (m : Sparse Byte) (a n i : Nat) (h : i < (memLoad m a n).length) :
    (memLoad m a n)[i] = spGet 0#8 m (a + i) := by
  induction n generalizing a i with
  | zero => simp at h
  | succ n ih =>
    cases i with
    | zero => rfl
    | succ i =>
      simp only [memLoad, List.getElem_cons_succ, ih]
      congr 1
      omega

/-- A load gives the bytes last stored. -/
theorem memLoad_memStore (m : Sparse Byte) (a : Nat) (bs : List Byte) : memLoad (memStore m a bs) a bs.length = bs := by
  refine List.ext_getElem (length_memLoad _ _ _) fun i _ h => ?_
  rw [getElem_memLoad, spGet_memStore_in bs m a i h]

theorem spGet_spClear (m : Sparse Byte) (lo hi b : Nat) :
    spGet 0#8 (spClear m lo hi) b = if lo ≤ b ∧ b < hi then 0#8 else spGet 0#8 m b := by
  unfold spClear
  induction m with
  | nil => simp [spGet]
  | cons e t ih =>
    obtain ⟨i, v⟩ := e
    by_cases hi' : i < lo ∨ hi ≤ i
    · rw [List.filter_cons_of_pos (by simpa using hi')]
      by_cases hb : b = i
      · simp only [spGet, if_pos hb]
        rw [if_neg (by omega)]
      · simp only [spGet, if_neg hb, ih]
    · rw [List.filter_cons_of_neg (by simpa using hi'), ih]
      by_cases hb : b = i
      · rw [if_pos (by omega), if_pos (by omega)]
      · simp only [spGet, if_neg hb]

/-- A canonical table reads its default below its least key. -/
theorem spGet_of_lt_of_spWfFrom {d : Byte} {m : Sparse Byte} {lo k : Nat} (w : spWfFrom d lo m = true) (h : k < lo) :
    spGet d m k = d := by
  induction m generalizing lo with
  | nil => rfl
  | cons e t ih =>
    obtain ⟨i, v⟩ := e
    simp only [spWfFrom, Bool.and_eq_true, decide_eq_true_eq] at w
    obtain ⟨⟨hi, -⟩, ht⟩ := w
    rw [spGet, if_neg (by omega), ih ht (by omega)]

/-- The cells that a copy of `n` bytes from `src` to `dst` writes: the bytes of the source range that are listed. -/
def copyCells (m : Sparse Byte) (src dst n : Nat) : List Host.Cell :=
  (m.filter fun e => decide (src ≤ e.1 ∧ e.1 < src + n)).map fun e => (e.1 - src + dst, e.2)

theorem memCopy_eq_memPut_copyCells (m : Sparse Byte) (src dst n : Nat) :
    memCopy m src dst n = memPut (spClear m dst (dst + n)) (copyCells m src dst n) := rfl

/-- Writing the cells of a copy over any memory: a listed byte of the source range arrives, every other byte stays. -/
theorem spGet_memPut_copyCells {m : Sparse Byte} {lo : Nat} (w : spWfFrom 0#8 lo m = true) (m' : Sparse Byte) (src dst n b : Nat) :
    spGet 0#8 (memPut m' (copyCells m src dst n)) b =
      if (dst ≤ b ∧ b < dst + n) ∧ spGet 0#8 m (b - dst + src) ≠ 0#8 then spGet 0#8 m (b - dst + src) else spGet 0#8 m' b := by
  induction m generalizing lo m' with
  | nil => simp [copyCells, memPut, spGet]
  | cons e t ih =>
    obtain ⟨i, v⟩ := e
    simp only [spWfFrom, Bool.and_eq_true, decide_eq_true_eq] at w
    obtain ⟨⟨-, hv⟩, ht⟩ := w
    have hti : spGet 0#8 t i = 0#8 := spGet_of_lt_of_spWfFrom ht (Nat.lt_succ_self i)
    unfold copyCells at ih ⊢
    by_cases hin : src ≤ i ∧ i < src + n
    · rw [List.filter_cons_of_pos (by simpa using hin), List.map_cons, memPut, ih ht, spGet_spSet, spGet]
      by_cases hb : dst ≤ b ∧ b < dst + n
      · by_cases hbi : b - dst + src = i
        · rw [hbi, hti, if_neg (by simp), if_pos rfl, if_pos (show b = i - src + dst by omega), if_pos ⟨hb, hv⟩]
        · rw [if_neg hbi, if_neg (show ¬ b = i - src + dst by omega)]
      · rw [if_neg (show ¬ b = i - src + dst by omega), if_neg (fun h => hb h.1), if_neg (fun h => hb h.1)]
    · rw [List.filter_cons_of_neg (by simpa using hin), ih ht, spGet]
      by_cases hb : dst ≤ b ∧ b < dst + n
      · rw [if_neg (show ¬ b - dst + src = i by omega)]
      · rw [if_neg (fun h => hb h.1), if_neg (fun h => hb h.1)]

/-- A copy moves its range, also where source and destination meet. -/
theorem spGet_memCopy {m : Sparse Byte} (w : memWf m = true) (src dst n b : Nat) :
    spGet 0#8 (memCopy m src dst n) b =
      if dst ≤ b ∧ b < dst + n then spGet 0#8 m (b - dst + src) else spGet 0#8 m b := by
  rw [memCopy_eq_memPut_copyCells, spGet_memPut_copyCells w, spGet_spClear]
  by_cases hb : dst ≤ b ∧ b < dst + n
  · by_cases h0 : spGet 0#8 m (b - dst + src) = 0#8
    · rw [if_neg (fun h => h.2 h0), if_pos hb, if_pos hb, h0]
    · rw [if_pos ⟨hb, h0⟩, if_pos hb]
  · rw [if_neg (fun h => hb h.1), if_neg hb, if_neg hb]

/-- Little-endian bytes of a number give it back, cut to their width. -/
theorem leNat_natLe (n v : Nat) : leNat (natLe n v) = v % 2 ^ (8 * n) := by
  induction n generalizing v with
  | zero => simp [natLe, leNat, Nat.mod_one]
  | succ n ih =>
    rw [natLe, leNat, ih, BitVec.toNat_ofNat, Nat.mul_succ, Nat.add_comm (8 * n), Nat.pow_add, Nat.mod_mul]

/-- Settles O5: each clause is the reading rule of its operation on the byte memory. -/
theorem memoryReadsBack : Obligations.MemoryReadsBack := by
  unfold Obligations.MemoryReadsBack
  exact ⟨fun m a bs => ⟨memLoad_memStore m a bs, fun b h => spGet_memStore_out bs m a b h⟩,
    fun m src dst n b w => spGet_memCopy w src dst n b, spGet_spClear, leNat_natLe⟩

end Sys2Proof.Machine
end

