-- ==== Sys2Proof/Proofs/MemoryWf.lean ====
section
/-! What the ways of putting states together do to the memory: a branch, a fold, the first component of a pair, an option. Every
operation of the model below either leaves `State.mem` alone (`State.<op>_mem`) or keeps its canonical form (`State.memWf_<op>`);
an instruction's outcome is `NextWf`. -/

namespace Sys2Proof.Machine
open Sys2Proof

@[simp] theorem State.ite_mem (c : Prop) [Decidable c] (a b : State) : (if c then a else b).mem = if c then a.mem else b.mem :=
  apply_ite State.mem c a b

@[simp] theorem State.ite_fst_mem {α : Type} (c : Prop) [Decidable c] (a b : State × α) :
    (if c then a else b).1.mem = if c then a.1.mem else b.1.mem :=
  apply_ite (fun x => x.1.mem) c a b

@[simp] theorem State.foldl_mem {α : Type} {f : State → α → State} (h : ∀ s x, (f s x).mem = s.mem) (l : List α) (s : State) :
    (l.foldl f s).mem = s.mem := by
  induction l generalizing s with
  | nil => rfl
  | cons x t ih => rw [List.foldl_cons, ih, h]

@[simp] theorem State.foldl_fst_mem {α β : Type} {f : State × β → α → State × β} (h : ∀ s x, (f s x).1.mem = s.1.mem) (l : List α)
    (s : State × β) : (l.foldl f s).1.mem = s.1.mem := by
  induction l generalizing s with
  | nil => rfl
  | cons x t ih => rw [List.foldl_cons, ih, h]

@[simp] theorem State.elim_mem {α : Type} {f : α → State} {s : State} (o : Option α) (h : ∀ a, (f a).mem = s.mem) :
    (o.elim s f).mem = s.mem := by
  cases o with
  | none => rfl
  | some a => exact h a

theorem State.mem_of_fst {α : Type} {x : State × α} {t : State} {a : α} (h : x = (t, a)) : t.mem = x.1.mem := by rw [h]

theorem State.memWf_of_mem {s t : State} (h : t.mem = s.mem) (w : memWf s.mem = true) : memWf t.mem = true := by rwa [h]

theorem State.memWf_of_fst {α : Type} {x : State × α} {t : State} {a : α} (h : x = (t, a)) (w : memWf x.1.mem = true) :
    memWf t.mem = true :=
  State.memWf_of_mem (State.mem_of_fst h) w

/-- Names the state `t`, so that a step through its definition is a step at the type of states and not below `State.mem`, where
the kernel would run it. -/
theorem State.memWf_of_forall_eq {t : State} (h : ∀ u, t = u → memWf u.mem = true) : memWf t.mem = true := h t rfl

theorem State.memWf_getD {o : Option State} {u : State} (h : ∀ t, o = some t → memWf t.mem = true) (w : memWf u.mem = true) :
    memWf (o.getD u).mem = true := by
  cases o with
  | none => exact w
  | some t => exact h t rfl

theorem State.memWf_foldl {α : Type} {f : State → α → State} {l : List α} {s : State}
    (h : ∀ s x, memWf s.mem = true → memWf (f s x).mem = true) (w : memWf s.mem = true) : memWf (l.foldl f s).mem = true := by
  induction l generalizing s with
  | nil => exact w
  | cons x t ih => exact ih (h s x w)

theorem State.memWf_foldl_fst {α β : Type} {f : State × β → α → State × β} {l : List α} {s : State × β}
    (h : ∀ s x, memWf s.1.mem = true → memWf (f s x).1.mem = true) (w : memWf s.1.mem = true) :
    memWf (l.foldl f s).1.mem = true := by
  induction l generalizing s with
  | nil => exact w
  | cons x t ih => exact ih (h s x w)

theorem State.memWf_foldlM {α : Type} {f : State → α → Option State} {l : List α} {s t : State}
    (h : ∀ s a t, f s a = some t → memWf s.mem = true → memWf t.mem = true) (ht : l.foldlM f s = some t)
    (w : memWf s.mem = true) : memWf t.mem = true := by
  induction l generalizing s with
  | nil =>
    cases ht
    exact w
  | cons a l ih =>
    rw [List.foldlM_cons] at ht
    obtain ⟨u, hu, ht⟩ := Option.bind_eq_some_iff.mp ht
    exact ih ht (h _ _ _ hu w)

theorem State.memWf_runList {α : Type} {f : State → α → Option State} {l : List α} {s : State}
    (h : ∀ s a t, f s a = some t → memWf s.mem = true → memWf t.mem = true) (w : memWf s.mem = true) :
    memWf (runList f l s).1.mem = true := by
  induction l generalizing s with
  | nil => exact w
  | cons a l ih =>
    rw [runList]
    split
    · rename_i h'
      exact ih (h _ _ _ h' w)
    · exact w

theorem State.memWf_runList_fst {α β : Type} {f : State × β → α → Option (State × β)} {l : List α} {s : State × β}
    (h : ∀ s a t, f s a = some t → memWf s.1.mem = true → memWf t.1.mem = true) (w : memWf s.1.mem = true) :
    memWf (runList f l s).1.1.mem = true := by
  induction l generalizing s with
  | nil => exact w
  | cons a l ih =>
    rw [runList]
    split
    · rename_i h'
      exact ih (h _ _ _ h' w)
    · exact w

/-- Every state that an outcome gives has its memory in canonical form. -/
def NextWf (o : Host.Outcome State Fault Refusal) : Prop := ∀ t, o = .next t → memWf t.mem = true

theorem nextWf_next {t : State} (w : memWf t.mem = true) : NextWf (.next t) := by
  intro u h
  cases h
  exact w

theorem nextWf_act {s t : State} (w : memWf s.mem = true) (wt : memWf t.mem = true) : NextWf (s.act t) := by
  refine nextWf_next ?_
  split
  · exact wt
  · exact w

end Sys2Proof.Machine
end

