-- ==== Sys2Proof/Proofs/MemoryFrames.lean ====
section
/-! What each operation and each instruction of the model does to the memory, in the order of the model's files. A proof follows
the definition: what leaves the memory alone is rewritten away, a branch is split, a fold goes by its step. Where a frame lemma holds
by `rfl`, `simp` would leave the step to the kernel, which then runs the model under `State.mem`; `-implicitDefEqProofs` makes it cite
the lemma instead. -/

namespace Sys2Proof.Machine
open Sys2Proof

/-! ## Machine/Ops -/

@[simp] theorem State.clearRegs_mem (s : State) (p : Reg → Nat → Bool) : (s.clearRegs p).mem = s.mem := by simp [State.clearRegs]

@[simp] theorem State.countCluster_mem (s : State) (cl : Nat) :
    (s.countCluster cl).mem = s.mem := by simp -implicitDefEqProofs [State.countCluster]

@[simp] theorem State.setPhys_mem (s : State) (k : Nat) (p : Option Nat) : (s.setPhys k p).mem = s.mem := by simp [State.setPhys]

@[simp] theorem State.unmap_mem (s : State) (cl : Nat) (ls : List Nat) : (s.unmap cl ls).mem = s.mem := by simp [State.unmap]

@[simp] theorem State.refill_mem (s : State) (cl : Nat) : (s.refill cl).mem = s.mem := by
  unfold State.refill
  rw [State.countCluster_mem]
  refine (State.foldl_mem (fun s x => ?_) _ _).trans ?_
  · split
    · simp
    · split <;> simp
  · simp

@[simp] theorem State.post_mem (s : State) (c : Nat) (r : CplRec) : (s.post c r).mem = s.mem := by simp [State.post]

@[simp] theorem State.complete_mem (s : State) (iss : Issuer) (opcode status value : Nat) :
    (s.complete iss opcode status value).mem = s.mem := by
  unfold State.complete
  dsimp only
  split <;> simp

@[simp] theorem State.began_mem (s : State) (iss : Issuer) (opcode : Nat) : (s.began iss opcode).mem = s.mem := by
  unfold State.began
  dsimp only
  split <;> simp

@[simp] theorem State.sampleRow_mem (s : State) (cls src : Nat) (c : Instr) :
    (s.sampleRow cls src c).mem = s.mem := by simp [State.sampleRow]

@[simp] theorem State.sampleHost_mem (s : State) (iss : Issuer) (c : Instr) :
    (s.sampleHost iss c).mem = s.mem := by simp [State.sampleHost]

@[simp] theorem State.postCtx_mem (s : State) (c status mask : Nat) :
    (s.postCtx c status mask).mem = s.mem := by simp [State.postCtx]

@[simp] theorem State.postEvent_mem (s : State) (c status region count value : Nat) :
    (s.postEvent c status region count value).mem = s.mem := by simp [State.postEvent]

@[simp] theorem State.postFetch_mem (s : State) (c status region ch slot value : Nat) (irq : Bool) :
    (s.postFetch c status region ch slot value irq).mem = s.mem := by simp [State.postFetch]

@[simp] theorem State.setFslot_mem (s : State) (i : Nat) (f : FchSlot) : (s.setFslot i f).mem = s.mem := by simp [State.setFslot]

/-! ## Machine/Pilot -/

@[simp] theorem State.programFault_mem (s : State) (k : Nat) (cause : Fld) (pc : Nat) :
    (s.programFault k cause pc).mem = s.mem := by simp -implicitDefEqProofs [State.programFault]

@[simp] theorem State.onInsn_mem {s : State} {f : CoreState → Handler → PilotInsn → Option State} (k : Nat)
    (h : ∀ c g i, ((f c g i).getD s).mem = s.mem) : (s.onInsn k f).mem = s.mem := by
  unfold State.onInsn
  split
  · exact h _ _ _
  · rfl

theorem State.memWf_onInsn {s : State} {f : CoreState → Handler → PilotInsn → Option State} {k : Nat}
    (h : ∀ c g i, memWf ((f c g i).getD s).mem = true) (w : memWf s.mem = true) : memWf (s.onInsn k f).mem = true := by
  unfold State.onInsn
  split
  · exact h _ _ _
  · exact w

@[simp] theorem State.aluR_mem (s : State) (f : AluR) (k : Nat) : (s.aluR f k).mem = s.mem := by
  unfold State.aluR
  refine State.onInsn_mem _ ?_
  intro c g i
  split
  · split <;> simp
  · simp

@[simp] theorem State.aluI_mem (s : State) (f : AluI) (k : Nat) : (s.aluI f k).mem = s.mem := by
  unfold State.aluI
  refine State.onInsn_mem _ ?_
  intro c g i
  split
  · split <;> simp
  · simp

theorem nextWf_execAdd {core : CoreRef} {s : State} (w : memWf s.mem = true) : NextWf (execAdd core s) := by
  unfold execAdd
  refine nextWf_act w ?_
  simp [w]

theorem nextWf_execSub {core : CoreRef} {s : State} (w : memWf s.mem = true) : NextWf (execSub core s) := by
  unfold execSub
  refine nextWf_act w ?_
  simp [w]

theorem nextWf_execAndInsn {core : CoreRef} {s : State} (w : memWf s.mem = true) : NextWf (execAndInsn core s) := by
  unfold execAndInsn
  refine nextWf_act w ?_
  simp [w]

theorem nextWf_execOrInsn {core : CoreRef} {s : State} (w : memWf s.mem = true) : NextWf (execOrInsn core s) := by
  unfold execOrInsn
  refine nextWf_act w ?_
  simp [w]

theorem nextWf_execXorInsn {core : CoreRef} {s : State} (w : memWf s.mem = true) : NextWf (execXorInsn core s) := by
  unfold execXorInsn
  refine nextWf_act w ?_
  simp [w]

theorem nextWf_execShl {core : CoreRef} {s : State} (w : memWf s.mem = true) : NextWf (execShl core s) := by
  unfold execShl
  refine nextWf_act w ?_
  simp [w]

theorem nextWf_execShr {core : CoreRef} {s : State} (w : memWf s.mem = true) : NextWf (execShr core s) := by
  unfold execShr
  refine nextWf_act w ?_
  simp [w]

theorem nextWf_execSra {core : CoreRef} {s : State} (w : memWf s.mem = true) : NextWf (execSra core s) := by
  unfold execSra
  refine nextWf_act w ?_
  simp [w]

theorem nextWf_execSlt {core : CoreRef} {s : State} (w : memWf s.mem = true) : NextWf (execSlt core s) := by
  unfold execSlt
  refine nextWf_act w ?_
  simp [w]

theorem nextWf_execSltu {core : CoreRef} {s : State} (w : memWf s.mem = true) : NextWf (execSltu core s) := by
  unfold execSltu
  refine nextWf_act w ?_
  simp [w]

theorem nextWf_execAddi {core : CoreRef} {s : State} (w : memWf s.mem = true) : NextWf (execAddi core s) := by
  unfold execAddi
  refine nextWf_act w ?_
  simp [w]

theorem nextWf_execAndi {core : CoreRef} {s : State} (w : memWf s.mem = true) : NextWf (execAndi core s) := by
  unfold execAndi
  refine nextWf_act w ?_
  simp [w]

theorem nextWf_execShli {core : CoreRef} {s : State} (w : memWf s.mem = true) : NextWf (execShli core s) := by
  unfold execShli
  refine nextWf_act w ?_
  simp [w]

theorem nextWf_execShri {core : CoreRef} {s : State} (w : memWf s.mem = true) : NextWf (execShri core s) := by
  unfold execShri
  refine nextWf_act w ?_
  simp [w]

theorem nextWf_execLui {core : CoreRef} {s : State} (w : memWf s.mem = true) : NextWf (execLui core s) := by
  unfold execLui
  refine nextWf_act w ?_
  simp [w]

@[simp] theorem State.pilotLi_mem (s : State) (k : Nat) : (s.pilotLi k).mem = s.mem := by
  unfold State.pilotLi
  refine State.onInsn_mem _ ?_
  intro c g i
  split <;> simp

theorem nextWf_execLi {core : CoreRef} {s : State} (w : memWf s.mem = true) : NextWf (execLi core s) := by
  unfold execLi
  refine nextWf_act w ?_
  simp [w]

@[simp] theorem State.branch_mem (s : State) (f : Br) (k : Nat) : (s.branch f k).mem = s.mem := by
  unfold State.branch
  refine State.onInsn_mem _ ?_
  intro c g i
  split
  · split <;> simp
  · simp

theorem nextWf_execBeq {core : CoreRef} {s : State} (w : memWf s.mem = true) : NextWf (execBeq core s) := by
  unfold execBeq
  refine nextWf_act w ?_
  simp [w]

theorem nextWf_execBne {core : CoreRef} {s : State} (w : memWf s.mem = true) : NextWf (execBne core s) := by
  unfold execBne
  refine nextWf_act w ?_
  simp [w]

theorem nextWf_execBlt {core : CoreRef} {s : State} (w : memWf s.mem = true) : NextWf (execBlt core s) := by
  unfold execBlt
  refine nextWf_act w ?_
  simp [w]

theorem nextWf_execBltu {core : CoreRef} {s : State} (w : memWf s.mem = true) : NextWf (execBltu core s) := by
  unfold execBltu
  refine nextWf_act w ?_
  simp [w]

@[simp] theorem State.pilotJmp_mem (s : State) (k : Nat) : (s.pilotJmp k).mem = s.mem := by
  unfold State.pilotJmp
  refine State.onInsn_mem _ ?_
  intro c g i
  split <;> simp

theorem nextWf_execJmp {core : CoreRef} {s : State} (w : memWf s.mem = true) : NextWf (execJmp core s) := by
  unfold execJmp
  refine nextWf_act w ?_
  simp [w]

@[simp] theorem State.pilotLdw_mem (s : State) (k : Nat) : (s.pilotLdw k).mem = s.mem := by
  unfold State.pilotLdw
  dsimp only
  refine State.onInsn_mem _ ?_
  intro c g i
  split
  · split <;> simp
  · simp

theorem State.memWf_pilotStw {s : State} {k : Nat} (w : memWf s.mem = true) : memWf (s.pilotStw k).mem = true := by
  unfold State.pilotStw
  refine State.memWf_onInsn (fun c h i => State.memWf_getD (fun t ht => ?_) w) w
  split at ht
  · simp only at ht
    split at ht
    · cases ht
      exact State.memWf_storeN _ _ _ (State.memWf_of_mem (State.setCore_mem _ _ _) w)
    · cases ht
      exact State.memWf_of_mem (State.programFault_mem _ _ _ _) w
  · cases ht

theorem nextWf_execLdw {core : CoreRef} {s : State} (w : memWf s.mem = true) : NextWf (execLdw core s) := by
  unfold execLdw
  refine nextWf_act w ?_
  simp [w]

theorem nextWf_execStw {core : CoreRef} {s : State} (w : memWf s.mem = true) : NextWf (execStw core s) := by
  unfold execStw
  exact nextWf_act w (State.memWf_pilotStw w)

@[simp] theorem State.startEngine_mem (s : State) (k : Nat) (h : Handler) (q : List EngCmd)
    (put : List EngCmd → CoreState → CoreState) : (s.startEngine k h q put).mem = s.mem := by simp [State.startEngine]

@[simp] theorem State.noteTens_mem (s : State) (k : Nat) (q : EngCmd) : (s.noteTens k q).mem = s.mem := by simp [State.noteTens]

@[simp] theorem State.pilotTens_mem (s : State) (k : Nat) : (s.pilotTens k).mem = s.mem := by
  unfold State.pilotTens
  dsimp only
  refine State.onInsn_mem _ ?_
  intro c g i
  split <;> simp

@[simp] theorem State.pilotVect_mem (s : State) (k : Nat) : (s.pilotVect k).mem = s.mem := by
  unfold State.pilotVect
  refine State.onInsn_mem _ ?_
  intro c g i
  split <;> simp

@[simp] theorem State.pilotLoop_mem (s : State) (k : Nat) : (s.pilotLoop k).mem = s.mem := by
  unfold State.pilotLoop
  refine State.onInsn_mem _ ?_
  intro c g i
  split <;> simp

theorem nextWf_execTens {core : CoreRef} {s : State} (w : memWf s.mem = true) : NextWf (execTens core s) := by
  unfold execTens
  refine nextWf_act w ?_
  simp [w]

theorem nextWf_execVect {core : CoreRef} {s : State} (w : memWf s.mem = true) : NextWf (execVect core s) := by
  unfold execVect
  refine nextWf_act w ?_
  simp [w]

theorem nextWf_execLoop {core : CoreRef} {s : State} (w : memWf s.mem = true) : NextWf (execLoop core s) := by
  unfold execLoop
  refine nextWf_act w ?_
  simp [w]

@[simp] theorem State.sendOut_mem (s : State) (k op slot : Nat) (t : Tag) (j : Nat) (null : Bool) (len addr : Nat) :
    (s.sendOut k op slot t j null len addr).mem = s.mem := by simp [State.sendOut]

@[simp] theorem State.pilotTsend_mem (s : State) (k : Nat) : (s.pilotTsend k).mem = s.mem := by
  unfold State.pilotTsend
  dsimp only
  refine State.onInsn_mem _ ?_
  intro c g i
  split
  · split
    · simp
    · split
      · simp
      · split <;> simp
  · simp

theorem nextWf_execTsend {core : CoreRef} {s : State} (w : memWf s.mem = true) : NextWf (execTsend core s) := by
  unfold execTsend
  refine nextWf_act w ?_
  simp [w]

@[simp] theorem State.pilotHerd_mem (s : State) (act : BitVec 2) (k : Nat) : (s.pilotHerd act k).mem = s.mem := by
  unfold State.pilotHerd
  dsimp only
  refine State.onInsn_mem _ ?_
  intro c g i
  split
  · split <;> simp
  · simp

theorem nextWf_execHerdIncrement {core : CoreRef} {s : State} (w : memWf s.mem = true) : NextWf (execHerdIncrement core s) := by
  unfold execHerdIncrement
  refine nextWf_act w ?_
  simp [w]

theorem nextWf_execHerdDecrement {core : CoreRef} {s : State} (w : memWf s.mem = true) : NextWf (execHerdDecrement core s) := by
  unfold execHerdDecrement
  refine nextWf_act w ?_
  simp [w]

theorem nextWf_execHerdRead {core : CoreRef} {s : State} (w : memWf s.mem = true) : NextWf (execHerdRead core s) := by
  unfold execHerdRead
  refine nextWf_act w ?_
  simp [w]

@[simp] theorem State.herdReply_mem (s : State) (k : Nat) : (s.herdReply k).mem = s.mem := by
  unfold State.herdReply
  dsimp only
  split <;> simp

theorem nextWf_execHerdReadReply {core : CoreRef} {s : State} (w : memWf s.mem = true) : NextWf (execHerdReadReply core s) := by
  unfold execHerdReadReply
  refine nextWf_act w ?_
  simp [w]

@[simp] theorem State.pilotYield_mem (s : State) (k : Nat) : (s.pilotYield k).mem = s.mem := by
  unfold State.pilotYield
  dsimp only
  refine State.onInsn_mem _ ?_
  intro c g i
  split
  · split <;> simp
  · simp

theorem nextWf_execYield {core : CoreRef} {s : State} (w : memWf s.mem = true) : NextWf (execYield core s) := by
  unfold execYield
  refine nextWf_act w ?_
  simp [w]

@[simp] theorem State.watchdog_mem (s : State) (k : Nat) : (s.watchdog k).mem = s.mem := by
  unfold State.watchdog
  dsimp only
  split <;> simp

theorem nextWf_execWatchdog {core : CoreRef} {s : State} (w : memWf s.mem = true) : NextWf (execWatchdog core s) := by
  unfold execWatchdog
  refine nextWf_act w ?_
  simp [w]

/-! ## Machine/Tokens -/

@[simp] theorem State.admitHeader_mem (s : State) (t : Token) : (s.admitHeader t).mem = s.mem := by simp [State.admitHeader]

theorem nextWf_execMatcherDispatch {core : CoreRef} {s : State} (w : memWf s.mem = true) :
    NextWf (execMatcherDispatch core s) := by
  unfold execMatcherDispatch
  dsimp only
  refine nextWf_act w ?_
  split
  · split <;> simp [w]
  · exact w

@[simp] theorem State.pilotDone_mem (s : State) (k : Nat) : (s.pilotDone k).mem = s.mem := by
  unfold State.pilotDone
  dsimp only
  refine State.onInsn_mem _ ?_
  intro c g i
  split
  · split
    · simp
    · split <;> simp
  · simp

theorem nextWf_execDone {core : CoreRef} {s : State} (w : memWf s.mem = true) : NextWf (execDone core s) := by
  unfold execDone
  refine nextWf_act w ?_
  simp [w]

theorem nextWf_execNullRetire {core : CoreRef} {s : State} (w : memWf s.mem = true) : NextWf (execNullRetire core s) := by
  unfold execNullRetire
  dsimp only
  refine nextWf_act w ?_
  split
  · split
    · simp [w]
    · exact w
  · exact w

/-! ## Machine/Engine -/

theorem State.memWf_wrSpad {s : State} {k a : Nat} {bs : List Byte} {t : State} (h : s.wrSpad k a bs = some t)
    (w : memWf s.mem = true) : memWf t.mem = true := by
  unfold State.wrSpad at h
  split at h
  · cases h
    exact State.memWf_store _ _ w
  · cases h

@[simp] theorem State.reportNf_mem (s : State) (k : Nat) (q : EngCmd) (tensor : Nat) :
    (s.reportNf k q tensor).mem = s.mem := by simp [State.reportNf]

theorem State.memWf_drainEntry {s : State} {k : Nat} {t : TensArgs} {i : IVec} {v : BitVec 48} {x : Nat} {u : State} {nf : Bool}
    (h : s.drainEntry k t i v x = some (u, nf)) (w : memWf s.mem = true) : memWf u.mem = true := by
  unfold State.drainEntry at h
  obtain ⟨y, hy, he⟩ := Option.map_eq_some_iff.mp h
  cases he
  exact State.memWf_wrSpad hy w

theorem State.memWf_drainTile {s : State} {k : Nat} {x : Drain} {t : TensArgs} {bank : List (BitVec 48)}
    (w : memWf s.mem = true) : memWf (s.drainTile k x t bank).1.mem = true := by
  unfold State.drainTile
  refine State.memWf_runList (fun s r u hu w => ?_) w
  dsimp only at hu
  split at hu
  · cases hu
    refine State.memWf_of_mem (State.modCore_mem _ _ _) (State.memWf_runList (fun s n u hu w => ?_) w)
    split at hu
    · cases hu
      exact w
    · obtain ⟨y, hy, hu⟩ := Option.map_eq_some_iff.mp hu
      rw [← hu, State.ite_mem, State.reportNf_mem, ite_self]
      exact State.memWf_drainEntry hy w
  · cases hu

@[simp] theorem State.engFault_mem (s : State) (k engine pc : Nat) :
    (s.engFault k engine pc).mem = s.mem := by simp [State.engFault]

theorem State.memWf_endDrain {s : State} {k : Nat} (w : memWf s.mem = true) : memWf (s.endDrain k).mem = true := by
  unfold State.endDrain
  dsimp only
  split
  · split
    · split
      · rw [State.modCore_mem]
        exact State.memWf_drainTile w
      · rw [State.engFault_mem]
        exact State.memWf_drainTile w
    · exact w
  · exact w

@[simp] theorem State.takeTile_mem (s : State) (k : Nat) (r : TensRun) : (s.takeTile k r).mem = s.mem := by
  unfold State.takeTile
  dsimp only
  split
  · split <;> simp
  · simp

@[simp] theorem State.startTensor_mem (s : State) (k : Nat) (q : EngCmd) (rest : List EngCmd) :
    (s.startTensor k q rest).mem = s.mem := by
  unfold State.startTensor
  dsimp only
  split <;> simp

theorem State.memWf_swapBanks {s : State} {k : Nat} (w : memWf s.mem = true) : memWf (s.swapBanks k).mem = true := by
  unfold State.swapBanks
  dsimp only
  split
  · split
    · split
      · split
        · rw [State.modCore_mem]
          exact State.memWf_endDrain w
        · rw [State.takeTile_mem, State.modCore_mem]
          exact State.memWf_endDrain w
      · exact State.memWf_endDrain w
    · exact w
  · exact w

theorem State.memWf_vecPut {s : State} {k : Nat} {q : EngCmd} {v : VecArgs} {addr : Nat} {x : FVal} {t : State}
    (h : s.vecPut k q v addr x = some t) (w : memWf s.mem = true) : memWf t.mem = true := by
  unfold State.vecPut at h
  obtain ⟨u, hu, rfl⟩ := Option.map_eq_some_iff.mp h
  have wu := State.memWf_wrSpad hu w
  split
  · exact State.memWf_of_mem (State.reportNf_mem _ _ _ _) wu
  · exact wu

theorem State.memWf_vecElem {s : State} {k : Nat} {q : EngCmd} {v : VecArgs} {i : IVec} {n : Nat} {t : State}
    (h : s.vecElem k q v i n = some t) (w : memWf s.mem = true) : memWf t.mem = true := by
  unfold State.vecElem at h
  obtain ⟨masked, -, h⟩ := Option.bind_eq_some_iff.mp h
  split at h
  · cases h
    exact w
  · split at h
    · obtain ⟨u, hu, ht⟩ := Option.map_eq_some_iff.mp h
      rw [← ht, State.ite_mem, State.reportNf_mem, ite_self]
      exact State.memWf_wrSpad hu w
    · split at h
      · obtain ⟨ib, -, h⟩ := Option.bind_eq_some_iff.mp h
        dsimp only at h
        split at h
        · cases h
        · split at h
          · obtain ⟨bs, -, h⟩ := Option.bind_eq_some_iff.mp h
            exact State.memWf_vecPut h w
          · obtain ⟨x, -, h⟩ := Option.bind_eq_some_iff.mp h
            exact State.memWf_vecPut h w
      · obtain ⟨a, -, h⟩ := Option.bind_eq_some_iff.mp h
        obtain ⟨b, -, h⟩ := Option.bind_eq_some_iff.mp h
        obtain ⟨c, -, h⟩ := Option.bind_eq_some_iff.mp h
        split at h
        · exact State.memWf_vecPut h w
        · cases h
          exact w

theorem State.memWf_vecBlock {s : State} {k : Nat} {q : EngCmd} {v : VecArgs} {is : List IVec} {t : State}
    (h : s.vecBlock k q v is = some t) (w : memWf s.mem = true) : memWf t.mem = true := by
  unfold State.vecBlock at h
  obtain ⟨xs, -, h⟩ := Option.bind_eq_some_iff.mp h
  obtain ⟨old, -, h⟩ := Option.bind_eq_some_iff.mp h
  obtain ⟨u, hu, ht⟩ := Option.map_eq_some_iff.mp h
  dsimp only at ht
  rw [← ht, State.ite_mem, State.reportNf_mem, ite_self]
  exact State.memWf_store _ _ (State.memWf_wrSpad hu w)

theorem State.memWf_vecReduce {s : State} {k : Nat} {q : EngCmd} {v : VecArgs} {acc : FVal} {o : IVec} {t : State × FVal}
    (h : s.vecReduce k q v acc o = some t) (w : memWf s.mem = true) : memWf t.1.mem = true := by
  unfold State.vecReduce at h
  obtain ⟨gone, -, h⟩ := Option.bind_eq_some_iff.mp h
  split at h
  · cases h
    exact w
  · obtain ⟨xs, -, h⟩ := Option.bind_eq_some_iff.mp h
    dsimp only at h
    split at h
    · obtain ⟨u, hu, rfl⟩ := Option.map_eq_some_iff.mp h
      exact State.memWf_vecPut hu w
    · obtain ⟨u, hu, rfl⟩ := Option.map_eq_some_iff.mp h
      exact State.memWf_vecPut hu w
    · obtain ⟨u, hu, rfl⟩ := Option.map_eq_some_iff.mp h
      obtain ⟨u', hu', hu⟩ := Option.bind_eq_some_iff.mp hu
      exact State.memWf_vecPut hu (State.memWf_vecPut hu' w)
    · obtain ⟨u, hu, rfl⟩ := Option.map_eq_some_iff.mp h
      exact State.memWf_vecPut hu w
    · obtain ⟨u, hu, rfl⟩ := Option.map_eq_some_iff.mp h
      refine State.memWf_foldlM (fun s j t ht w => ?_) hu w
      split at ht
      · obtain ⟨u', hu', ht⟩ := Option.bind_eq_some_iff.mp ht
        exact State.memWf_wrSpad ht (State.memWf_vecPut hu' w)
      · obtain ⟨u', hu', ht⟩ := Option.bind_eq_some_iff.mp ht
        exact State.memWf_wrSpad ht (State.memWf_wrSpad hu' w)

theorem State.memWf_startVector {s : State} {k : Nat} {q : EngCmd} {rest : List EngCmd} (w : memWf s.mem = true) :
    memWf (s.startVector k q rest).mem = true := by
  refine State.memWf_of_forall_eq fun u hu => ?_
  unfold State.startVector at hu
  extract_lets s₁ fin at hu
  have h₁ : memWf s₁.mem = true := State.memWf_of_mem (State.modCore_mem _ _ _) w
  have hf : ∀ r : State × Bool, memWf r.1.mem = true → memWf (fin r).mem = true := fun r wr => by
    dsimp only [fin]
    rwa [State.ite_mem, State.engFault_mem, ite_self]
  clear_value s₁ fin
  split at hu
  · extract_lets s₂ wk at hu
    have h₂ : memWf s₂.mem = true := State.memWf_of_mem (State.bump_mem _ _ _ _) h₁
    clear_value s₂
    split at hu
    · split at hu
      rename_i v _ _ _ s₃ m ok h₃
      have w₃ : memWf s₃.mem = true := by
        have hw : memWf (runList (fun (st : State × FVal) o => st.1.vecReduce k q v st.2 o)
            (v.d.walk fun l => v.d.role l ≠ 3) (s₂, fvZero)).1.1.mem = true :=
          State.memWf_runList_fst (fun _ _ _ h w => State.memWf_vecReduce h w) h₂
        rwa [h₃] at hw
      rw [← hu]
      refine hf _ ?_
      rwa [State.ite_mem, State.modCore_mem, ite_self]
    · split at hu
      · rw [← hu]
        exact hf _ (State.memWf_runList (fun _ _ _ h w => State.memWf_vecBlock h w) h₂)
      · rw [← hu]
        exact hf _ (State.memWf_runList (fun _ _ _ h w => State.memWf_vecElem h w) h₂)
  · rw [← hu]
    exact h₁

theorem State.memWf_wrMove {s : State} {k : Nat} {under : Bool} {a : Nat} {bs : List Byte} {t : State}
    (h : s.wrMove k under a bs = some t) (w : memWf s.mem = true) : memWf t.mem = true := by
  unfold State.wrMove at h
  split at h
  · split at h
    · cases h
      exact State.memWf_store _ _ w
    · cases h
  · exact State.memWf_wrSpad h w

theorem State.memWf_startEngMove {s : State} {k : Nat} {q : EngCmd} {rest : List EngCmd} (w : memWf s.mem = true) :
    memWf (s.startEngMove k q rest).mem = true := by
  refine State.memWf_of_forall_eq fun u hu => ?_
  unfold State.startEngMove at hu
  extract_lets s₁ at hu
  have h₁ : memWf s₁.mem = true := State.memWf_of_mem (State.modCore_mem _ _ _) w
  clear_value s₁
  split at hu
  · extract_lets d n res at hu
    have hr : memWf res.1.mem = true := State.memWf_runList (fun s i t ht w => by
      obtain ⟨bs, -, ht⟩ := Option.bind_eq_some_iff.mp ht
      exact State.memWf_wrMove ht w) h₁
    rw [← hu, State.ite_mem, State.engFault_mem, ite_self]
    exact hr
  · rw [← hu]
    exact h₁

theorem nextWf_execEngineCommandStart {core : CoreRef} {engine : Fin 3} {s : State} (w : memWf s.mem = true) :
    NextWf (execEngineCommandStart core engine s) := by
  unfold execEngineCommandStart
  dsimp only
  refine nextWf_act w ?_
  split
  · split
    · simp [w]
    · split
      · exact State.memWf_startVector w
      · exact w
    · split
      · exact State.memWf_startEngMove w
      · exact w
    · exact w
  · exact w

theorem nextWf_execAccumulatorBankSwap {core : CoreRef} {s : State} (w : memWf s.mem = true) :
    NextWf (execAccumulatorBankSwap core s) := by
  unfold execAccumulatorBankSwap
  refine nextWf_act w ?_
  split
  · exact State.memWf_swapBanks w
  · exact w

theorem State.memWf_endTensor {s : State} {k : Nat} (w : memWf s.mem = true) : memWf (s.endTensor k).mem = true := by
  unfold State.endTensor
  dsimp only
  split
  · split
    · exact State.memWf_endDrain w
    · exact w
  · simp [w]
  · exact w

theorem State.memWf_endCommand {s : State} {k engine : Nat} (w : memWf s.mem = true) :
    memWf (s.endCommand k engine).mem = true := by
  unfold State.endCommand
  dsimp only
  split
  · exact State.memWf_endTensor w
  · split <;> simp [w]
  · simp [w]
  · exact w

theorem nextWf_execEngineCommandComplete {core : CoreRef} {engine : EngineEnd} {s : State} (w : memWf s.mem = true) :
    NextWf (execEngineCommandComplete core engine s) := by
  unfold execEngineCommandComplete
  dsimp only
  refine nextWf_act w ?_
  split
  · refine State.memWf_endCommand ?_
    simp [w]
  · exact w

/-! ## Machine/Mesh -/

@[simp] theorem State.countFlits_mem (s : State) (reg : Reg) (path : List Nat) (n : Nat) :
    (s.countFlits reg path n).mem = s.mem := by simp [State.countFlits]

theorem State.launch_mem {s : State} {t : Token} {cl : Nat} {u : State} (h : s.launch t cl = some u) : u.mem = s.mem := by
  simp only [State.launch, Option.map_eq_some_iff] at h
  obtain ⟨x, -, rfl⟩ := h
  simp

theorem State.launch_getD_mem {s : State} {t : Token} {cl : Nat} {u : State} (h : u.mem = s.mem) :
    ((s.launch t cl).getD u).mem = s.mem := by
  cases hl : s.launch t cl with
  | none => exact h
  | some v => exact State.launch_mem hl

/-! ## Machine/Region -/

@[simp] theorem State.setStp_mem (s : State) (c : Nat) (t : StepState) : (s.setStp c t).mem = s.mem := by simp [State.setStp]

@[simp] theorem State.voteBit_mem (s : State) (c b : Nat) : (s.voteBit c b).mem = s.mem := by simp [State.voteBit]

@[simp] theorem State.stopRegion_mem (s : State) (p : Nat) : (s.stopRegion p).mem = s.mem := by simp [State.stopRegion]

@[simp] theorem State.haltCores_mem (s : State) (p : Nat) : (s.haltCores p).mem = s.mem := by simp [State.haltCores]

@[simp] theorem State.closeStep_mem (s : State) (c : Nat) : (s.closeStep c).mem = s.mem := by simp [State.closeStep]

@[simp] theorem State.halt_mem (s : State) (p : Nat) : (s.halt p).mem = s.mem := by simp [State.halt]

@[simp] theorem State.haltEvent_mem (s : State) (p status : Nat) : (s.haltEvent p status).mem = s.mem := by simp [State.haltEvent]

@[simp] theorem State.haltCtx_mem (s : State) (p status : Nat) : (s.haltCtx p status).mem = s.mem := by simp [State.haltCtx]

@[simp] theorem State.signal_mem (s : State) (f : Fld) (i : Nat) : (s.signal f i).mem = s.mem := by simp [State.signal]

@[simp] theorem State.dropEvent_mem (s : State) (p : EvKind → Bool) : (s.dropEvent p).mem = s.mem := by
  unfold State.dropEvent
  dsimp only
  split <;> simp

@[simp] theorem State.handleOne_mem {f : State → Sampled → State} (s : State) (p : EvKind → Bool) (h : ∀ s e, (f s e).mem = s.mem)
    :
    (s.handleOne p f).mem = s.mem := by
  unfold State.handleOne
  split <;> simp [h]

theorem State.memWf_handleOne {s : State} {p : EvKind → Bool} {f : State → Sampled → State}
    (h : ∀ s e, memWf s.mem = true → memWf (f s e).mem = true) (w : memWf s.mem = true) : memWf (s.handleOne p f).mem = true := by
  unfold State.handleOne
  split
  · rw [State.bump_mem]
    exact h _ _ (by simpa using w)
  · exact w

@[simp] theorem State.applyProgramFault_mem (s : State) (k : Nat) :
    (s.applyProgramFault k).mem = s.mem := by simp [State.applyProgramFault]

theorem nextWf_execProgramFaultHalt {core : CoreRef} {s : State} (w : memWf s.mem = true) :
    NextWf (execProgramFaultHalt core s) := by
  unfold execProgramFaultHalt
  refine nextWf_act w ?_
  simp [w]

@[simp] theorem State.applyHerdHalt_mem (s : State) (k status : Nat) :
    (s.applyHerdHalt k status).mem = s.mem := by simp [State.applyHerdHalt]

theorem nextWf_execHerdHalt {core : CoreRef} {s : State} (w : memWf s.mem = true) : NextWf (execHerdHalt core s) := by
  unfold execHerdHalt
  refine nextWf_act w ?_
  refine State.memWf_handleOne ?_ ?_
  · intro s e w
    split
    · simp [w]
    · exact w
  · exact w

/-! ## Machine/Access -/

@[simp] theorem State.mend_mem (s : State) (a n : Nat) : (s.mend a n).mem = s.mem := by simp [State.mend]

theorem State.memWf_hbmStore {s : State} {a : Nat} {bs : List Byte} (w : memWf s.mem = true) :
    memWf (s.hbmStore a bs).mem = true := by
  unfold State.hbmStore
  rw [State.mend_mem]
  exact State.memWf_store _ _ w

theorem State.memWf_hbmZero {s : State} {a n : Nat} (w : memWf s.mem = true) : memWf (s.hbmZero a n).mem = true := by
  unfold State.hbmZero
  dsimp only
  exact State.memWf_zero _ _ w

@[simp] theorem State.countHbm_mem (s : State) (reg : Reg) (a n : Nat) :
    (s.countHbm reg a n).mem = s.mem := by simp [State.countHbm]

theorem State.memWf_cxlStore {s : State} {o : Nat} {bs : List Byte} (w : memWf s.mem = true) :
    memWf (s.cxlStore o bs).mem = true := by
  unfold State.cxlStore
  refine State.memWf_foldl (fun s x w => ?_) ?_
  · exact State.memWf_store _ _ w
  · exact w

@[simp] theorem State.touchSlot_mem (s : State) (i : Nat) : (s.touchSlot i).mem = s.mem := by rw [State.touchSlot, State.put_mem]

@[simp] theorem State.touchSlots_mem (s : State) (p : Place) (n : Nat) : (s.touchSlots p n).mem = s.mem := by
  unfold State.touchSlots
  split <;> simp

@[simp] theorem State.countRead_mem (s : State) (p : Place) (n : Nat) : (s.countRead p n).mem = s.mem := by
  unfold State.countRead
  dsimp only
  split <;> simp

theorem State.memWf_poke {s : State} {p : Place} {bs : List Byte} (w : memWf s.mem = true) : memWf (s.poke p bs).mem = true := by
  unfold State.poke
  dsimp only
  split
  · rw [State.countHbm_mem]
    exact State.memWf_hbmStore w
  · exact State.memWf_store _ _ w
  · refine State.memWf_foldl (fun s x w => ?_) ?_
    · split
      · rw [State.put_mem, State.touchSlot_mem, State.countHbm_mem]
        exact State.memWf_hbmStore w
      · dsimp only
        exact State.memWf_cxlStore w
    · exact w
  · rw [State.bump_mem]
    exact State.memWf_store _ _ w

@[simp] theorem State.detect_mem (s : State) (stack off : Nat) (scrub : Bool) :
    (s.detect stack off scrub).mem = s.mem := by simp -implicitDefEqProofs [State.detect]

@[simp] theorem State.detectIn_mem (s : State) (l : List (Nat × Nat)) : (s.detectIn l).mem = s.mem := by simp [State.detectIn]

@[simp] theorem State.readCheck_mem (s : State) (a fails : Nat) : (s.readCheck a fails).mem = s.mem := by simp [State.readCheck]

@[simp] theorem State.countMesh_mem (s : State) (r : Requester) (a out back : Nat) : (s.countMesh r a out back).mem = s.mem := by
  unfold State.countMesh
  dsimp only
  split
  · split
    · split
      · rw [State.bump_mem, State.countFlits_mem]
        split <;> simp
      · rw [State.countFlits_mem]
        split <;> simp
    · split <;> simp
  · simp

@[simp] theorem State.serveRead_mem (s : State) (r : Requester) (a n bad fails : Nat) (poison : Bool) :
    (s.serveRead r a n bad fails poison).1.mem = s.mem := by
  unfold State.serveRead
  dsimp only
  split
  · simp
  · simp
  · split
    · dsimp only
      rw [State.detectIn_mem]
      split <;> simp
    · split
      · dsimp only
        rw [State.bump_mem]
        split <;> simp
      · dsimp only
        rw [State.countMesh_mem]
        split <;> simp

theorem State.memWf_serveWrite {s : State} {r : Requester} {a : Nat} {bs : List Byte} {shadow : Bool} (w : memWf s.mem = true) :
    memWf (s.serveWrite r a bs shadow).1.mem = true := by
  unfold State.serveWrite
  split
  · exact w
  · exact w
  · dsimp only
    rw [State.countMesh_mem]
    exact State.memWf_poke w

/-! ## Machine/Torus -/

@[simp] theorem State.setPort_mem (s : State) (k : Nat) (p : PortState) : (s.setPort k p).mem = s.mem := by simp [State.setPort]

@[simp] theorem State.drainPort_mem (s : State) (k : Nat) : (s.drainPort k).mem = s.mem := by simp [State.drainPort]

@[simp] theorem State.txFlits_mem (s : State) (k n cls : Nat) : (s.txFlits k n cls).mem = s.mem := by simp [State.txFlits]

@[simp] theorem State.ackFlits_mem (s : State) (k : Nat) (ack : BitVec 24) :
    (s.ackFlits k ack).mem = s.mem := by simp [State.ackFlits]

@[simp] theorem State.txRole_mem (s : State) (role n cls : Nat) : (s.txRole role n cls).mem = s.mem := by
  unfold State.txRole
  split <;> simp

@[simp] theorem State.sendTo_mem (s : State) (c : Nat) (o : Output) (n cls : Nat) : (s.sendTo c o n cls).mem = s.mem := by
  unfold State.sendTo
  split <;> simp

@[simp] theorem State.sendFailure_mem (s : State) (row : Nat) : (s.sendFailure row).mem = s.mem := by simp [State.sendFailure]

/-! ## Machine/Memory -/

@[simp] theorem State.badAccess_mem (s : State) (fn : Func) : (s.badAccess fn).mem = s.mem := by simp [State.badAccess]

@[simp] theorem State.pfWrite_mem {s : State} {f : State → State} (fn : Func) (h : (f s).mem = s.mem) :
    (s.pfWrite fn f).mem = s.mem := by
  simp [State.pfWrite, h]

@[simp] theorem State.pfSample_mem (s : State) (fn : Func) (c : Instr) : (s.pfSample fn c).mem = s.mem := by simp [State.pfSample]

@[simp] theorem State.recordFault_mem (s : State) (kind action cause index : Nat) :
    (s.recordFault kind action cause index).mem = s.mem := by simp [State.recordFault]

@[simp] theorem State.strike_mem (s : State) (kind index cause : Nat) :
    (s.strike kind index cause).mem = s.mem := by simp -implicitDefEqProofs [State.strike]

@[simp] theorem State.classify_mem (s : State) (kind index : Nat) :
    (s.classify kind index).mem = s.mem := by simp [State.classify]

@[simp] theorem State.sampleOnce_mem (s : State) (cls src : Nat) (ev : EvKind) :
    (s.sampleOnce cls src ev).mem = s.mem := by simp [State.sampleOnce]

@[simp] theorem State.emptySlot_mem (s : State) (i : Nat) : (s.emptySlot i).mem = s.mem := by simp [State.emptySlot]

@[simp] theorem State.endTier_mem (s : State) (cmds : List (Issuer × Nat)) (status : Nat) :
    (s.endTier cmds status).mem = s.mem := by
  unfold State.endTier
  refine (State.foldl_mem (fun s x => ?_) _ _).trans ?_
  · split <;> simp
  · simp

@[simp] theorem State.answer_mem (s : State) (r : Requester) (a : Nat) (rep : Reply) : (s.answer r a rep).mem = s.mem := by
  unfold State.answer
  split <;> simp

@[simp] theorem State.readNow_mem (s : State) (r : Requester) (a n bad fails : Nat) (poison : Bool) :
    (s.readNow r a n bad fails poison).1.mem = s.mem := by simp [State.readNow]

theorem State.memWf_writeNow {s : State} {r : Requester} {a : Nat} {bs : List Byte} {shadow : Bool} (w : memWf s.mem = true) :
    memWf (s.writeNow r a bs shadow).1.mem = true := by
  unfold State.writeNow
  split
  · exact w
  · exact State.memWf_serveWrite w

theorem State.memWf_serve {s : State} {h : Held} {bad fails : Nat} {poison : Bool} (w : memWf s.mem = true) :
    memWf (s.serve h bad fails poison).mem = true := by
  unfold State.serve
  split
  · exact w
  · cases h.data with
    | none =>
      dsimp only
      split
      · exact w
      · simpa using w
    | some bs =>
      have wt : memWf (s.serveWrite h.req h.addr bs h.shadow).1.mem = true := State.memWf_serveWrite w
      dsimp only
      split
      · exact w
      · simpa using wt

theorem State.memWf_access {s : State} {r : Requester} {a n : Nat} {data : Option (List Byte)} {bad fails : Nat} {poison : Bool}
    (w : memWf s.mem = true) : memWf (s.access r a n data bad fails poison).mem = true := by
  unfold State.access
  exact State.memWf_serve w

theorem State.memWf_serveHeld {s : State} {pg : Nat} (w : memWf s.mem = true) : memWf (s.serveHeld pg).mem = true := by
  unfold State.serveHeld
  dsimp only
  refine State.memWf_foldl (fun s x w => ?_) ?_
  · exact State.memWf_serve w
  · exact w

theorem State.memWf_endHeld {s : State} {pg : Nat} (w : memWf s.mem = true) : memWf (s.endHeld pg).mem = true := by
  unfold State.endHeld
  split
  · refine State.memWf_serveHeld ?_
    simp [w]
  · exact w

theorem State.memWf_servePorts {s : State} (w : memWf s.mem = true) : memWf (s.servePorts).mem = true := by
  unfold State.servePorts
  dsimp only
  refine State.memWf_foldl (fun s x w => ?_) ?_
  · exact State.memWf_serve w
  · exact w

@[simp] theorem State.poisonSub_mem (s : State) (pg sub : Nat) : (s.poisonSub pg sub).mem = s.mem := by simp [State.poisonSub]

theorem State.memWf_poolLoss {s : State} {i : Nat} (w : memWf s.mem = true) : memWf (s.poolLoss i).mem = true := by
  unfold State.poolLoss
  dsimp only
  split
  · exact w
  · refine State.memWf_foldl (fun s x w => ?_) ?_
    · exact State.memWf_endHeld w
    · simp [w]

@[simp] theorem State.discardPoolWrites_mem (s : State) (p : Nat → Bool) : (s.discardPoolWrites p).mem = s.mem := by
  unfold State.discardPoolWrites
  dsimp only
  refine (State.foldl_mem (fun s x => ?_) _ _).trans ?_
  · rw [State.answer_mem]
    refine (State.foldl_mem (fun s x => ?_) _ _).trans ?_
    · split <;> simp
    · simp
  · simp

@[simp] theorem State.lostPages_mem (s : State) (p : Nat → Bool) : (s.lostPages p).mem = s.mem := by
  unfold State.lostPages
  dsimp only
  split <;> simp

theorem State.memWf_fenceStack {s : State} {k cause : Nat} (w : memWf s.mem = true) :
    memWf (s.fenceStack k cause).mem = true := by
  unfold State.fenceStack
  dsimp only
  split
  · exact w
  · rw [State.recordFault_mem, State.lostPages_mem]
    split
    · rw [State.classify_mem]
      refine State.memWf_foldl (fun s x w => ?_) ?_
      · exact State.memWf_poolLoss w
      · simp [w]
    · refine State.memWf_foldl (fun s x w => ?_) ?_
      · exact State.memWf_poolLoss w
      · simp [w]

theorem State.memWf_retirePage {s : State} {k q : Nat} (w : memWf s.mem = true) : memWf (s.retirePage k q).mem = true := by
  unfold State.retirePage
  dsimp only
  split
  · exact w
  · split
    · refine State.memWf_fenceStack ?_
      rw [State.recordFault_mem, State.lostPages_mem]
      refine State.memWf_foldl (fun s x w => ?_) ?_
      · exact State.memWf_poolLoss w
      · simp -implicitDefEqProofs [w]
    · rw [State.recordFault_mem, State.lostPages_mem]
      refine State.memWf_foldl (fun s x w => ?_) ?_
      · exact State.memWf_poolLoss w
      · simp -implicitDefEqProofs [w]

theorem State.memWf_applyDetection {s : State} {k off : Nat} (w : memWf s.mem = true) :
    memWf (s.applyDetection k off).mem = true := by
  unfold State.applyDetection
  dsimp only
  split
  · refine State.memWf_fenceStack ?_
    rw [State.classify_mem]
    refine State.memWf_retirePage ?_
    simp [w]
  · refine State.memWf_retirePage ?_
    simp [w]

theorem nextWf_execDetectionAtRest {stack : Fin 16} {quad : Fin 24576} {s : State} (w : memWf s.mem = true) :
    NextWf (execDetectionAtRest stack quad s) := by
  unfold execDetectionAtRest
  refine nextWf_act w ?_
  refine State.memWf_handleOne ?_ ?_
  · intro s e w
    split
    · exact State.memWf_applyDetection w
    · exact w
  · exact w

theorem nextWf_execStackFence {stack : Fin 16} {why : Fin 4} {s : State} (w : memWf s.mem = true) :
    NextWf (execStackFence stack why s) := by
  unfold execStackFence
  refine nextWf_act w ?_
  simp [w]

@[simp] theorem State.checkRetry_mem (s : State) (k : Nat) : (s.checkRetry k).mem = s.mem := by simp [State.checkRetry]

theorem nextWf_execMemoryRead {req : Requester} {addr len bad : Nat} {fails : Fin 3} {s : State} (w : memWf s.mem = true) :
    NextWf (execMemoryRead req addr len bad fails s) := by
  unfold execMemoryRead
  refine nextWf_act w ?_
  rw [State.checkRetry_mem]
  exact State.memWf_access w

@[simp] theorem State.flipBursts_mem (s : State) (req : Requester) (addr n : Nat) (flips : List Nat) :
    (s.flipBursts req addr n flips).mem = s.mem := by
  unfold State.flipBursts
  dsimp only
  split <;> simp

theorem nextWf_execMemoryWrite {req : Requester} {addr : Nat} {data : WriteData} {s : State} (w : memWf s.mem = true) :
    NextWf (execMemoryWrite req addr data s) := by
  unfold execMemoryWrite
  dsimp only
  refine nextWf_act w ?_
  rw [State.flipBursts_mem]
  exact State.memWf_access w

theorem nextWf_execScrubRead {stack : Fin 16} {off : Nat} {fails : Fin 3} {s : State} (w : memWf s.mem = true) :
    NextWf (execScrubRead stack off fails s) := by
  unfold execScrubRead
  refine nextWf_act w ?_
  simp [w]

@[simp] theorem State.setOwner_mem (s : State) (n o : Nat) : (s.setOwner n o).mem = s.mem := by simp [State.setOwner]

@[simp] theorem State.applyMemPageOwnerWrite_mem (word : Nat) (value : Word) (s : State) :
    (State.applyMemPageOwnerWrite word value s).mem = s.mem := by simp [State.applyMemPageOwnerWrite]

theorem nextWf_execMemPageOwnerWrite {fn : Func} {word : Fin 196608} {value : Word} {s : State} (w : memWf s.mem = true) :
    NextWf (execMemPageOwnerWrite fn word value s) := by
  unfold execMemPageOwnerWrite
  refine nextWf_act w ?_
  simp [w]

theorem nextWf_execPageZeroingComplete {page : Fin 393216} {s : State} (w : memWf s.mem = true) :
    NextWf (execPageZeroingComplete page s) := by
  unfold execPageZeroingComplete
  dsimp only
  refine nextWf_act w ?_
  split
  · rw [State.put_mem]
    split
    · exact w
    · exact State.memWf_hbmZero w
  · exact w

@[simp] theorem State.setQuadMode_mem (s : State) (q : Nat) (m : Bool) :
    (s.setQuadMode q m).mem = s.mem := by simp -implicitDefEqProofs [State.setQuadMode]

@[simp] theorem State.applyMemQuadModeWrite_mem (word : Nat) (value : Word) (s : State) :
    (State.applyMemQuadModeWrite word value s).mem = s.mem := by simp [State.applyMemQuadModeWrite]

theorem nextWf_execMemQuadModeWrite {fn : Func} {word : Fin 3072} {value : Word} {s : State} (w : memWf s.mem = true) :
    NextWf (execMemQuadModeWrite fn word value s) := by
  unfold execMemQuadModeWrite
  refine nextWf_act w ?_
  simp [w]

theorem State.memWf_applyMemRetireLimitWrite {value : Word} {s : State} (w : memWf s.mem = true) :
    memWf (State.applyMemRetireLimitWrite value s).mem = true := by
  unfold State.applyMemRetireLimitWrite
  refine State.memWf_foldl (fun s x w => ?_) ?_
  · exact State.memWf_fenceStack w
  · exact w

theorem nextWf_execMemRetireLimitWrite {fn : Func} {value : Word} {s : State} (w : memWf s.mem = true) :
    NextWf (execMemRetireLimitWrite fn value s) := by
  unfold execMemRetireLimitWrite
  refine nextWf_act w ?_
  simp [w]

@[simp] theorem State.markRetired_mem (s : State) :
    (s.markRetired).mem = s.mem := by simp -implicitDefEqProofs [State.markRetired]

theorem memWf_filter {m : Sparse Byte} (p : Nat × Byte → Bool) (w : memWf m = true) : memWf (m.filter p) = true := spWf_filter p w

theorem nextWf_execHbmInitComplete {s : State} (w : memWf s.mem = true) : NextWf (execHbmInitComplete s) := by
  unfold execHbmInitComplete
  refine nextWf_act w ?_
  split
  · rw [State.put_mem]
    refine memWf_filter _ ?_
    rw [State.foldl_mem (fun s g => State.put_mem _ _ _ _), State.markRetired_mem, State.clearRegs_mem]
    exact w
  · exact w

/-! ## Machine/Skew -/

@[simp] theorem State.endWait_mem (s : State) (l : List Nat) : (s.endWait l).mem = s.mem := by simp [State.endWait]

@[simp] theorem State.discard_mem (s : State) (cl n : Nat) : (s.discard cl n).mem = s.mem := by simp [State.discard]

@[simp] theorem State.noteStale_mem (s : State) (p : Nat) (e : Epoch) (n : Nat) : (s.noteStale p e n).mem = s.mem := by
  unfold State.noteStale
  dsimp only
  split <;> simp

@[simp] theorem State.seamDiscard_mem (s : State) (p cl : Nat) (e : Epoch) (n : Nat) :
    (s.seamDiscard p cl e n).mem = s.mem := by simp [State.seamDiscard]

@[simp] theorem State.loseCredit_mem (s : State) (t : Token) : (s.loseCredit t).mem = s.mem := by
  unfold State.loseCredit
  dsimp only
  split <;> simp

@[simp] theorem State.loseSlot_mem (s : State) (t : Token) : (s.loseSlot t).mem = s.mem := by simp [State.loseSlot]

@[simp] theorem State.discardLate_mem (s : State) (t : Token) : (s.discardLate t).mem = s.mem := by simp [State.discardLate]

theorem State.memWf_resvWrite {s : State} {k op port at_ : Nat} {bs : List Byte} (w : memWf s.mem = true) :
    memWf (s.resvWrite k op port at_ bs).mem = true := by
  unfold State.resvWrite
  split
  · exact State.memWf_store _ _ (State.memWf_store _ _ w)
  · exact w

theorem State.memWf_writeUnits {s : State} {r : Requester} {l : List Nat} {bs : List Byte} (w : memWf s.mem = true) :
    memWf (s.writeUnits r l bs).1.mem = true := by
  induction l generalizing s bs with
  | nil => exact w
  | cons a t ih =>
    unfold State.writeUnits
    split
    · exact w
    · split
      · exact w
      · split
        · rename_i h
          exact ih (State.memWf_of_fst h (State.memWf_serveWrite w))
        · exact w

theorem State.memWf_drainStaging {s : State} {cl : Nat} (w : memWf s.mem = true) : memWf (s.drainStaging cl).mem = true := by
  unfold State.drainStaging
  refine State.memWf_foldl (fun s x w => ?_) w
  split
  · split
    · exact w
    · simpa using State.memWf_writeUnits w
  · exact w

@[simp] theorem State.showSpill_mem (s : State) (cl : Nat) : (s.showSpill cl).mem = s.mem := by simp [State.showSpill]

@[simp] theorem State.assertHold_mem (s : State) (k op port : Nat) :
    (s.assertHold k op port).mem = s.mem := by simp [State.assertHold]

@[simp] theorem State.enterSpill_mem (s : State) (k op port : Nat) :
    (s.enterSpill k op port).mem = s.mem := by simp [State.enterSpill]

theorem State.memWf_intoResv {s : State} {i : Nat} {t : Token} {n : Nat} (w : memWf s.mem = true) :
    memWf (s.intoResv i t n).mem = true := by
  unfold State.intoResv
  dsimp only
  rw [State.setTok_mem, State.bump_mem]
  exact State.memWf_resvWrite w

theorem State.memWf_intoSpill {s : State} {i : Nat} {t : Token} {n : Nat} (w : memWf s.mem = true) :
    memWf (s.intoSpill i t n).mem = true := by
  unfold State.intoSpill
  dsimp only
  refine State.memWf_drainStaging ?_
  simp [w]

theorem State.memWf_pour {s : State} {i : Nat} (w : memWf s.mem = true) : memWf (s.pour i).mem = true := by
  unfold State.pour
  dsimp only
  split
  · exact w
  · split
    · exact w
    · rw [State.showSpill_mem, State.assertHold_mem]
      split
      · split
        · split
          · exact w
          · split
            · exact w
            · exact State.memWf_intoResv w
        · refine State.memWf_intoSpill ?_
          split
          · exact w
          · split
            · exact w
            · exact State.memWf_intoResv w
      · split
        · exact w
        · split
          · exact w
          · exact State.memWf_intoResv w

theorem State.memWf_divert {s : State} {i : Nat} {t : Token} (w : memWf s.mem = true) : memWf (s.divert i t).mem = true := by
  unfold State.divert
  exact State.memWf_pour w

theorem State.memWf_arrive {s : State} {n : Nat} {t : Token} {stream : Bool} (w : memWf s.mem = true) :
    memWf (s.arrive n t stream).mem = true := by
  unfold State.arrive
  dsimp only
  split
  · simp [w]
  · split
    · simp [w]
    · split
      · simp [w]
      · split
        · exact State.memWf_divert w
        · split
          · simp [w]
          · simp [w]
          · simp [w]
          · split
            · exact State.memWf_divert w
            · exact w
          · simp [w]

theorem State.memWf_landToken {s : State} {n : Nat} {t : Token} (w : memWf s.mem = true) :
    memWf (s.landToken n t).mem = true := by
  unfold State.landToken
  dsimp only
  split
  · rw [State.dropTok_mem]
    exact State.memWf_store _ _ w
  · exact w

theorem nextWf_execTokenDataLanded {n : Nat} {s : State} (w : memWf s.mem = true) : NextWf (execTokenDataLanded n s) := by
  unfold execTokenDataLanded
  refine nextWf_act w ?_
  split
  · split
    · exact State.memWf_landToken w
    · exact w
  · exact w

theorem nextWf_execReservoirDrain {core : CoreRef} {op : Fin 32} {port : Fin 8} {s : State} (w : memWf s.mem = true) :
    NextWf (execReservoirDrain core op port s) := by
  unfold execReservoirDrain
  dsimp only
  refine nextWf_act w ?_
  split
  · split
    · exact w
    · split
      · simp [w]
      · split
        · exact w
        · split
          · split
            · simp [w]
            · rw [State.setTok_mem]
              refine State.memWf_store _ _ ?_
              simp [w]
          · exact w
          · simp [w]
          · simp [w]
          · simp [w]
  · exact w

@[simp] theorem State.readUnits_mem (s : State) (r : Requester) (l : List Nat) : (s.readUnits r l).1.mem = s.mem := by
  induction l generalizing s with
  | nil => rfl
  | cons a t ih =>
    unfold State.readUnits
    split
    · rfl
    · split
      · rename_i h
        simp [ih, State.mem_of_fst h]
      · rename_i h
        simp [State.mem_of_fst h]

theorem nextWf_execSpillReadback {core : CoreRef} {op : Fin 32} {port : Fin 8} {s : State} (w : memWf s.mem = true) :
    NextWf (execSpillReadback core op port s) := by
  unfold execSpillReadback
  dsimp only
  refine nextWf_act w ?_
  split
  · rw [State.showSpill_mem]
    refine State.memWf_drainStaging ?_
    split
    · rw [State.setTok_mem]
      refine State.memWf_store _ _ ?_
      simp [w]
    · rw [State.setTok_mem]
      refine State.memWf_resvWrite ?_
      simp [w]
  · exact w

@[simp] theorem State.endHold_mem (s : State) (h : Hold) (cycles : Nat) :
    (s.endHold h cycles).mem = s.mem := by simp [State.endHold]

theorem nextWf_execHoldRelease {core : CoreRef} {op : Fin 32} {port : Fin 8} {cycles : Nat} {s : State} (w : memWf s.mem = true) :
    NextWf (execHoldRelease core op port cycles s) := by
  unfold execHoldRelease
  dsimp only
  refine nextWf_act w ?_
  split
  · split
    · rw [State.showSpill_mem, State.endHold_mem]
      exact State.memWf_drainStaging w
    · rw [State.showSpill_mem]
      exact State.memWf_drainStaging w
  · exact w

/-! ## Machine/Herding -/

@[simp] theorem State.setHrd_mem (s : State) (h : HrdState) : (s.setHrd h).mem = s.mem := by simp [State.setHrd]

@[simp] theorem State.showHrd_mem (s : State) : (s.showHrd).mem = s.mem := by simp -implicitDefEqProofs [State.showHrd]

@[simp] theorem State.mapVid_mem (s : State) (c vid t : Nat) : (s.mapVid c vid t).mem = s.mem := by simp [State.mapVid]

@[simp] theorem State.unmapVid_mem (s : State) (c vid t : Nat) : (s.unmapVid c vid t).mem = s.mem := by simp [State.unmapVid]

@[simp] theorem State.evalLeashes_mem (s : State) (t : Nat) (applied : Bool) :
    (s.evalLeashes t applied).mem = s.mem := by simp [State.evalLeashes]

@[simp] theorem State.addLeash_mem (s : State) (l : Leash) : (s.addLeash l).mem = s.mem := by simp [State.addLeash]

@[simp] theorem State.setLeash_mem (s : State) (c vid cond : Nat) (rep : Bool) (step threshold : Nat) (target : LeashTarget) :
    (s.setLeash c vid cond rep step threshold target).1.mem = s.mem := by
  unfold State.setLeash
  dsimp only
  split
  · simp
  · split
    · simp
    · split <;> simp

@[simp] theorem State.dropLeash_mem (s : State) (h : Nat) : (s.dropLeash h).mem = s.mem := by simp [State.dropLeash]

@[simp] theorem State.tallyApply_mem (s : State) (t act n : Nat) :
    (s.tallyApply t act n).1.mem = s.mem := by simp -implicitDefEqProofs [State.tallyApply]

@[simp] theorem State.poisonTally_mem (s : State) (t : Nat) :
    (s.poisonTally t).mem = s.mem := by simp -implicitDefEqProofs [State.poisonTally]

@[simp] theorem State.dropTallies_mem (s : State) (c : Nat) : (s.dropTallies c).mem = s.mem := by simp [State.dropTallies]

@[simp] theorem State.endHerd_mem (s : State) (iss : Issuer) (status value : Nat) : (s.endHerd iss status value).mem = s.mem := by
  unfold State.endHerd
  split <;> simp

@[simp] theorem State.herdCmd_mem {f : State → Nat → State} (s : State) (iss : Issuer) (h : ∀ s c, (f s c).mem = s.mem) :
    (s.herdCmd iss f).mem = s.mem := by
  unfold State.herdCmd
  split <;> simp [h]

@[simp] theorem State.herdSample_mem (s : State) (iss : Issuer) (c : Instr) : (s.herdSample iss c).mem = s.mem := by
  unfold State.herdSample
  split <;> simp

@[simp] theorem State.applyTallyCreate_mem (iss : Issuer) (home : Fin 4) (vid : Fin 1048576) (value : Word) (share : BitVec 31)
    (s : State) : (State.applyTallyCreate iss home vid value share s).mem = s.mem := by
  unfold State.applyTallyCreate
  dsimp only
  refine State.herdCmd_mem _ _ ?_
  intro s c
  split
  · simp -implicitDefEqProofs
  · split
    · simp -implicitDefEqProofs
    · split <;> simp -implicitDefEqProofs

theorem nextWf_execTallyCreate {iss : Issuer} {home : Fin 4} {vid : Fin 1048576} {value : Word} {share : BitVec 31} {s : State}
    (w : memWf s.mem = true) : NextWf (execTallyCreate iss home vid value share s) := by
  unfold execTallyCreate
  refine nextWf_act w ?_
  simp [w]

@[simp] theorem State.applyTallyImport_mem (iss : Issuer) (vid ownerVid : Fin 1048576) (owner : Fin 32) (s : State) :
    (State.applyTallyImport iss vid ownerVid owner s).mem = s.mem := by
  unfold State.applyTallyImport
  refine State.herdCmd_mem _ _ ?_
  intro s c
  split
  · simp
  · split <;> simp

theorem nextWf_execTallyImport {iss : Issuer} {vid ownerVid : Fin 1048576} {owner : Fin 32} {s : State} (w : memWf s.mem = true) :
    NextWf (execTallyImport iss vid ownerVid owner s) := by
  unfold execTallyImport
  refine nextWf_act w ?_
  simp [w]

@[simp] theorem State.applyTallyRelease_mem (iss : Issuer) (vid : Fin 1048576) (s : State) :
    (State.applyTallyRelease iss vid s).mem = s.mem := by
  unfold State.applyTallyRelease
  dsimp only
  refine State.herdCmd_mem _ _ ?_
  intro s c
  split <;> simp

theorem nextWf_execTallyRelease {iss : Issuer} {vid : Fin 1048576} {s : State} (w : memWf s.mem = true) :
    NextWf (execTallyRelease iss vid s) := by
  unfold execTallyRelease
  refine nextWf_act w ?_
  simp [w]

@[simp] theorem State.tallyCmd_mem (s : State) (iss : Issuer) (vid act n : Nat) : (s.tallyCmd iss vid act n).mem = s.mem := by
  unfold State.tallyCmd
  dsimp only
  refine State.herdCmd_mem _ _ ?_
  intro s c
  split <;> simp

@[simp] theorem State.applyTallyAdd_mem (iss : Issuer) (vid : Fin 1048576) (count : Word) (s : State) :
    (State.applyTallyAdd iss vid count s).mem = s.mem := by simp [State.applyTallyAdd]

theorem nextWf_execTallyAdd {iss : Issuer} {vid : Fin 1048576} {count : Word} {s : State} (w : memWf s.mem = true) :
    NextWf (execTallyAdd iss vid count s) := by
  unfold execTallyAdd
  refine nextWf_act w ?_
  simp [w]

@[simp] theorem State.applyTallySub_mem (iss : Issuer) (vid : Fin 1048576) (count : Word) (s : State) :
    (State.applyTallySub iss vid count s).mem = s.mem := by simp [State.applyTallySub]

theorem nextWf_execTallySub {iss : Issuer} {vid : Fin 1048576} {count : Word} {s : State} (w : memWf s.mem = true) :
    NextWf (execTallySub iss vid count s) := by
  unfold execTallySub
  refine nextWf_act w ?_
  simp [w]

@[simp] theorem State.applyTallyRead_mem (iss : Issuer) (vid : Fin 1048576) (s : State) :
    (State.applyTallyRead iss vid s).mem = s.mem := by simp [State.applyTallyRead]

theorem nextWf_execTallyRead {iss : Issuer} {vid : Fin 1048576} {s : State} (w : memWf s.mem = true) :
    NextWf (execTallyRead iss vid s) := by
  unfold execTallyRead
  refine nextWf_act w ?_
  simp [w]

@[simp] theorem State.applyLeashSet_mem (iss : Issuer) (vid : Fin 1048576) (cond : Fin 4) (rep : Bool) (step threshold : Word)
    (target : LeashDest) (s : State) : (State.applyLeashSet iss vid cond rep step threshold target s).mem = s.mem := by
  unfold State.applyLeashSet
  dsimp only
  refine State.herdCmd_mem _ _ ?_
  intro s c
  split <;> simp

theorem nextWf_execLeashSet {iss : Issuer} {vid : Fin 1048576} {cond : Fin 4} {rep : Bool} {step threshold : Word}
    {target : LeashDest} {s : State} (w : memWf s.mem =
      true) : NextWf (execLeashSet iss vid cond rep step threshold target s) := by
  unfold execLeashSet
  refine nextWf_act w ?_
  simp [w]

@[simp] theorem State.applyLeashClear_mem (iss : Issuer) (handle : Fin 32768) (s : State) :
    (State.applyLeashClear iss handle s).mem = s.mem := by simp [State.applyLeashClear]

theorem nextWf_execLeashClear {iss : Issuer} {handle : Fin 32768} {s : State} (w : memWf s.mem = true) :
    NextWf (execLeashClear iss handle s) := by
  unfold execLeashClear
  refine nextWf_act w ?_
  simp [w]

@[simp] theorem State.herdFail_mem (s : State) (m : HerdMsg) (status : Nat) :
    (s.herdFail m status).mem = s.mem := by simp [State.herdFail]

@[simp] theorem State.herdValue_mem (s : State) (m : HerdMsg) (v : Nat) :
    (s.herdValue m v).mem = s.mem := by simp [State.herdValue]

@[simp] theorem State.noteOrphan_mem (s : State) (m : HerdMsg) (t : Nat) :
    (s.noteOrphan m t).mem = s.mem := by simp [State.noteOrphan]

theorem nextWf_execTallyOperationApply {n : Nat} {s : State} (w : memWf s.mem = true) : NextWf (execTallyOperationApply n s) := by
  unfold execTallyOperationApply
  dsimp only
  refine nextWf_act w ?_
  split
  · exact w
  · split
    · exact w
    · split <;> simp [w]

@[simp] theorem State.barkFetcher_mem (s : State) (i : Nat) (l : Leash) :
    (s.barkFetcher i l).mem = s.mem := by simp [State.barkFetcher]

@[simp] theorem State.barkTo_mem (s : State) (l : Leash) : (s.barkTo l).mem = s.mem := by
  unfold State.barkTo
  cases l.target with
  | fetcher i => exact State.barkFetcher_mem _ _ _
  | token dst op port tag epoch => exact State.launch_getD_mem (State.discard_mem _ _ _)
  | record cookie => exact State.post_mem _ _ _
  | spine b => cases b <;> simp

@[simp] theorem State.deliverBark_mem (s : State) (l : Leash) : (s.deliverBark l).mem = s.mem := by simp [State.deliverBark]

theorem nextWf_execBarkDelivery {handle : Fin 32768} {s : State} (w : memWf s.mem = true) :
    NextWf (execBarkDelivery handle s) := by
  unfold execBarkDelivery
  refine nextWf_act w ?_
  split
  · simp [w]
  · exact w

@[simp] theorem State.deliverHeld_mem (s : State) (c : Nat) : (s.deliverHeld c).mem = s.mem := by simp [State.deliverHeld]

@[simp] theorem State.lastStandoff_mem (s : State) (cyc : List Nat) (fault : Bool) :
    (s.lastStandoff cyc fault).mem = s.mem := by simp -implicitDefEqProofs [State.lastStandoff]

@[simp] theorem State.breakStandoff_mem (s : State) (ws : List (Nat × Token)) (cyc : List Nat) :
    (s.breakStandoff ws cyc).mem = s.mem := by
  unfold State.breakStandoff
  dsimp only
  split <;> simp

@[simp] theorem State.breakStandoffs_mem (s : State) (ws : List (Nat × Token)) (lim n : Nat) :
    (s.breakStandoffs ws lim n).mem = s.mem := by
  induction n generalizing s with
  | zero => rfl
  | succ f ih =>
    unfold State.breakStandoffs
    split
    · simp [ih]
    · rfl

@[simp] theorem State.applyStandoffCheck_mem (s : State) :
    (s.applyStandoffCheck).mem = s.mem := by simp [State.applyStandoffCheck]

theorem nextWf_execStandoffCheck {s : State} (w : memWf s.mem = true) : NextWf (execStandoffCheck s) := by
  unfold execStandoffCheck
  exact nextWf_act w w

theorem nextWf_execStandoffSpillComplete {entry : Fin 256} {s : State} (w : memWf s.mem = true) :
    NextWf (execStandoffSpillComplete entry s) := by
  unfold execStandoffSpillComplete
  dsimp only
  refine nextWf_act w ?_
  split
  · split
    · split
      · exact w
      · rw [State.bump_mem, State.bump_mem, State.wn_mem, State.setHrd_mem, State.dropTok_mem]
        exact State.memWf_writeUnits w
    · exact w
  · exact w

@[simp] theorem State.applyStandoff_mem (s : State) (ps : List Nat) :
    (s.applyStandoff ps).mem = s.mem := by simp [State.applyStandoff]

theorem nextWf_execStandoffFault {s : State} (w : memWf s.mem = true) : NextWf (execStandoffFault s) := by
  unfold execStandoffFault
  refine nextWf_act w ?_
  refine State.memWf_handleOne ?_ ?_
  · intro s e w
    split
    · simp [w]
    · exact w
  · exact w

@[simp] theorem State.loadReserve_mem (s : State) (k : Nat) : (s.loadReserve k).mem = s.mem := by simp [State.loadReserve]

@[simp] theorem State.writeReserve_mem (s : State) (k word v : Nat) : (s.writeReserve k word v).mem = s.mem := by
  unfold State.writeReserve
  dsimp only
  split <;> simp

theorem nextWf_execHrdReserveWrite {fn : Func} {entry : Fin 256} {word : Fin 3} {value : DWord} {s : State}
    (w : memWf s.mem = true) : NextWf (execHrdReserveWrite fn entry word value s) := by
  unfold execHrdReserveWrite
  refine nextWf_act w ?_
  simp [w]

@[simp] theorem State.clearReserves_mem (s : State) (p : Nat) :
    (s.clearReserves p).mem = s.mem := by simp -implicitDefEqProofs [State.clearReserves]

/-! ## Machine/Visible -/

@[simp] theorem State.fnWrite_mem {s : State} {f : State → State} (fn : Func) (r : Reg) (i : Nat) (h : (f s).mem = s.mem) :
    (s.fnWrite fn r i f).mem = s.mem := by
  simp [State.fnWrite, h]

theorem State.memWf_fnWrite {s : State} {f : State → State} {fn : Func} {r : Reg} {i : Nat}
    (h : memWf (f s).mem = true) (w : memWf s.mem = true) : memWf (s.fnWrite fn r i f).mem = true := by
  unfold State.fnWrite
  split
  · exact w
  · split
    · exact h
    · simpa using w

@[simp] theorem State.fnSample_mem (s : State) (fn : Func) (r : Reg) (i c : Nat) (cmd : Instr) :
    (s.fnSample fn r i c cmd).mem = s.mem := by simp [State.fnSample]

/-! ## Machine/Fetcher -/

@[simp] theorem State.fchRecord_mem (s : State) (i status value : Nat) (irq : Bool) :
    (s.fchRecord i status value irq).mem = s.mem := by simp [State.fchRecord]

@[simp] theorem State.unleash_mem (s : State) (i : Nat) : (s.unleash i).mem = s.mem := by
  unfold State.unleash
  dsimp only
  split <;> simp

@[simp] theorem State.activate_mem (s : State) (i : Nat) (d : FchDesc) : (s.activate i d).mem = s.mem := by simp [State.activate]

@[simp] theorem State.emptyFslot_mem (s : State) (i : Nat) : (s.emptyFslot i).mem = s.mem := by simp [State.emptyFslot]

@[simp] theorem State.armSlot_mem (s : State) (i : Nat) (img : List Byte) :
    (s.armSlot i img).1.mem = s.mem := by simp [State.armSlot]

@[simp] theorem State.cancelSlot_mem (s : State) (i : Nat) : (s.cancelSlot i).mem = s.mem := by simp [State.cancelSlot]

theorem nextWf_execFchSlotArm {fn : Func} {p : Region} {ch : Fin 16} {slot : Fin 10} {s : State} (w : memWf s.mem = true) :
    NextWf (execFchSlotArm fn p ch slot s) := by
  unfold execFchSlotArm
  dsimp only
  refine nextWf_act w ?_
  simp -implicitDefEqProofs [w]

@[simp] theorem State.applyArm_mem (i : Nat) (img : List Byte) (s : State) :
    (State.applyArm i img s).mem = s.mem := by simp [State.applyArm]

@[simp] theorem State.applyFchSlotCancel_mem (p : Region) (ch : Fin 16) (slot : Fin 10) (s : State) :
    (State.applyFchSlotCancel p ch slot s).mem = s.mem := by simp [State.applyFchSlotCancel]

theorem nextWf_execFchSlotCancel {fn : Func} {p : Region} {ch : Fin 16} {slot : Fin 10} {s : State} (w : memWf s.mem = true) :
    NextWf (execFchSlotCancel fn p ch slot s) := by
  unfold execFchSlotCancel
  dsimp only
  refine nextWf_act w ?_
  simp [w]

@[simp] theorem State.applyFchArm_mem (iss : Issuer) (p : Region) (ch slot : Fin 16) (img : List Byte) (s : State) :
    (State.applyFchArm iss p ch slot img s).mem = s.mem := by simp [State.applyFchArm]

theorem nextWf_execFchArm {iss : Issuer} {p : Region} {ch slot : Fin 16} {img : List Byte} {s : State} (w : memWf s.mem = true) :
    NextWf (execFchArm iss p ch slot img s) := by
  unfold execFchArm
  refine nextWf_act w ?_
  simp [w]

@[simp] theorem State.applyFchCancel_mem (iss : Issuer) (p : Region) (ch slot : Fin 16) (s : State) :
    (State.applyFchCancel iss p ch slot s).mem = s.mem := by simp [State.applyFchCancel]

theorem nextWf_execFchCancel {iss : Issuer} {p : Region} {ch slot : Fin 16} {s : State} (w : memWf s.mem = true) :
    NextWf (execFchCancel iss p ch slot s) := by
  unfold execFchCancel
  refine nextWf_act w ?_
  simp [w]

@[simp] theorem State.settle_mem (s : State) (i : Nat) : (s.settle i).mem = s.mem := by
  unfold State.settle
  dsimp only
  split <;> simp

@[simp] theorem State.fchError_mem (s : State) (i status addr : Nat) :
    (s.fchError i status addr).mem = s.mem := by simp [State.fchError]

@[simp] theorem State.issueOne_mem (s : State) (ch : Nat) : (s.issueOne ch).mem = s.mem := by
  unfold State.issueOne
  dsimp only
  split
  · simp
  · split
    · simp
    · split
      · simp
      · split <;> simp

@[simp] theorem State.issueAll_mem (s : State) (ch : Nat) : (s.issueAll ch).mem = s.mem := by simp [State.issueAll]

theorem nextWf_execFetchTransferStart {p : Region} {ch : Fin 16} {slot : Fin 10} {waited : Nat} {s : State}
    (w : memWf s.mem = true) : NextWf (execFetchTransferStart p ch slot waited s) := by
  unfold execFetchTransferStart
  dsimp only
  refine nextWf_act w ?_
  split
  · simp [w]
  · exact w

theorem nextWf_execPassAlongCopy {p : Region} {ch : Fin 16} {slot : Fin 10} {waited : Nat} {s : State} (w : memWf s.mem = true) :
    NextWf (execPassAlongCopy p ch slot waited s) := by
  unfold execPassAlongCopy
  dsimp only
  refine nextWf_act w ?_
  split
  · simp [w]
  · exact w

theorem State.fchHeader_mem {s : State} {i : Nat} {d : FchDesc} {x : FchXfer} {t : State} (h : s.fchHeader i d x = some t) :
    t.mem = s.mem := by
  unfold State.fchHeader at h
  split at h
  · cases h
    rfl
  · exact State.launch_mem h

@[simp] theorem State.fchData_mem (s : State) (i : Nat) (bs : List Byte) : (s.fchData i bs).mem = s.mem := by simp [State.fchData]

@[simp] theorem State.fchCount_mem (s : State) (i : Nat) (d : FchDesc) (x : FchXfer) (n : Nat) :
    (s.fchCount i d x n).mem = s.mem := by simp [State.fchCount]

@[simp] theorem State.packetDone_mem (s : State) (i n : Nat) (f : FchXfer → FchXfer) :
    (s.packetDone i n f).mem = s.mem := by simp [State.packetDone]

theorem State.memWf_putPacket {s : State} {i n : Nat} {d : FchDesc} {x : FchXfer} {pk : Nat × Nat × Nat} {bs : List Byte}
    {peerBad : Bool} {t : State} (h : s.putPacket i n d x pk bs peerBad = some t) (w : memWf s.mem = true) :
    memWf t.mem = true := by
  unfold State.putPacket at h
  split at h
  · split at h
    · cases h
      simpa using w
    · rename_i s1 h1
      have e1 : s1.mem = s.mem := by
        split at h1
        · exact State.fchHeader_mem h1
        · cases h1
          rfl
      cases h
      simpa [e1] using w
  · split at h
    · cases h
      simpa using w
    · dsimp only at h
      split at h
      · cases h
      · rename_i h1
        cases h
        simpa using State.memWf_of_fst h1 (State.memWf_writeNow w)
      · rename_i h1
        cases h
        simpa using State.memWf_of_fst h1 (State.memWf_writeNow w)

@[simp] theorem State.discardReply_mem (s : State) (i : Nat) : (s.discardReply i).mem = s.mem := by simp [State.discardReply]

theorem State.memWf_landPacket {s : State} {i n : Nat} {read : State → Nat → Nat → State × Reply} {peerBad : Bool}
    (hr : ∀ a k, (read s a k).1.mem = s.mem) (w : memWf s.mem = true) : memWf (s.landPacket i n read peerBad).mem = true := by
  have hd : memWf (s.discardReply i).mem = true := by simpa using w
  unfold State.landPacket
  rw [State.issueAll_mem, State.settle_mem]
  split
  · split
    · split
      · exact hd
      · split
        · rename_i s1 bs h1
          have w1 : memWf s1.mem = true := State.memWf_of_fst h1 (by rwa [hr])
          split
          · simpa using w1
          · generalize hp : s1.putPacket i n _ _ _ bs peerBad = o
            cases o with
            | none => exact w
            | some t => exact State.memWf_putPacket hp w1
        · rename_i h1
          have w1 := State.memWf_of_fst h1 (by rwa [hr])
          simpa using w1
        · exact w
    · exact hd
  · exact hd

theorem State.memWf_flushHeld {s : State} {i : Nat} (w : memWf s.mem = true) : memWf (s.flushHeld i).mem = true := by
  unfold State.flushHeld
  split
  · refine State.memWf_foldl (fun s x w => ?_) w
    split
    · exact State.memWf_getD (fun _ h => State.memWf_putPacket h (State.memWf_of_mem (State.setFslot_mem _ _ _) w)) w
    · exact w
  · exact w

@[simp] theorem State.fetchNow_mem (s : State) (i n a k bad fails : Nat) (poison : Bool) :
    (s.fetchNow i n a k bad fails poison).1.mem = s.mem := by
  unfold State.fetchNow
  split <;> simp

theorem nextWf_execFetchReadReply {p : Region} {ch : Fin 16} {slot : Fin 10} {n : Nat} {reply : Fin 5} {bad : Nat} {s : State}
    (w : memWf s.mem = true) : NextWf (execFetchReadReply p ch slot n reply bad s) := by
  unfold execFetchReadReply
  dsimp only
  refine nextWf_act w ?_
  refine State.memWf_landPacket ?_ ?_
  · simp
  · exact w

@[simp] theorem State.landStray_mem (s : State) (i : Nat) (failed : Bool) : (s.landStray i failed).mem = s.mem := by
  unfold State.landStray
  dsimp only
  split <;> simp

theorem nextWf_execDmaCompletion {p : Region} {ch : Fin 16} {slot : Fin 10} {n : Nat} {resp : Fin 3} {s : State}
    (w : memWf s.mem = true) : NextWf (execDmaCompletion p ch slot n resp s) := by
  unfold execDmaCompletion
  dsimp only
  refine nextWf_act w ?_
  split
  · refine State.memWf_landPacket ?_ ?_
    · simp
    · exact w
  · simp [w]

theorem nextWf_execDmaTimeout {p : Region} {ch : Fin 16} {slot : Fin 10} {n : Nat} {s : State} (w : memWf s.mem = true) :
    NextWf (execDmaTimeout p ch slot n s) := by
  unfold execDmaTimeout
  dsimp only
  refine nextWf_act w ?_
  split
  · refine State.memWf_landPacket ?_ ?_
    · simp
    · exact w
  · simp [w]

@[simp] theorem State.chainSlot_mem (s : State) (i : Nat) : (s.chainSlot i).mem = s.mem := by simp [State.chainSlot]

@[simp] theorem State.fchTally_mem (s : State) (i : Nat) (d : FchDesc) : (s.fchTally i d).mem = s.mem := by simp [State.fchTally]

theorem nextWf_execFetchTransferComplete {p : Region} {ch : Fin 16} {slot : Fin 10} {s : State} (w : memWf s.mem = true) :
    NextWf (execFetchTransferComplete p ch slot s) := by
  unfold execFetchTransferComplete
  dsimp only
  refine nextWf_act w ?_
  split
  · simp [w]
  · exact w

@[simp] theorem State.flushFetchers_mem (s : State) (p : Nat) : (s.flushFetchers p).mem = s.mem := by
  unfold State.flushFetchers
  dsimp only
  refine (State.foldl_mem (fun s x => ?_) _ _).trans ?_
  · split
    · simp
    · rw [State.setFslot_mem, State.emptyFslot_mem]
      split <;> simp
  · simp

@[simp] theorem State.clearFetchers_mem (s : State) (p : Nat) : (s.clearFetchers p).mem = s.mem := by simp [State.clearFetchers]

@[simp] theorem State.freshCredits_mem (s : State) (p : Nat) : (s.freshCredits p).mem = s.mem := by simp [State.freshCredits]

theorem State.memWf_parkFetchers {s : State} {p : Nat} {on : Bool} (w : memWf s.mem = true) :
    memWf (s.parkFetchers p on).mem = true := by
  unfold State.parkFetchers
  dsimp only
  refine State.memWf_foldl (fun s x w => ?_) ?_
  · split
    · split
      · simp [w]
      · rw [State.issueAll_mem, State.settle_mem]
        refine State.memWf_flushHeld ?_
        simp [w]
    · exact w
  · exact w

@[simp] theorem State.applyFchModeWrite_mem (value : Word) (s : State) :
    (State.applyFchModeWrite value s).mem = s.mem := by simp [State.applyFchModeWrite]

theorem nextWf_execFchModeWrite {fn : Func} {value : Word} {s : State} (w : memWf s.mem = true) :
    NextWf (execFchModeWrite fn value s) := by
  unfold execFchModeWrite
  refine nextWf_act w ?_
  simp [w]

@[simp] theorem State.leadMode_mem (s : State) : (s.leadMode).mem = s.mem := by simp [State.leadMode]

/-! ## Machine/Network -/

@[simp] theorem State.tellFenced_mem (s : State) (t : Token) : (s.tellFenced t).mem = s.mem := by
  unfold State.tellFenced
  dsimp only
  split <;> simp

@[simp] theorem State.refuseTok_mem (s : State) (t : Token) (cl : Nat) :
    (s.refuseTok t cl).mem = s.mem := by simp [State.refuseTok]

@[simp] theorem State.dropFenced_mem (s : State) (n : Nat) (t : Token) (cl : Nat) :
    (s.dropFenced n t cl).mem = s.mem := by simp [State.dropFenced]

@[simp] theorem State.pushTok_mem (s : State) (t : Token) : (s.pushTok t).mem = s.mem := by simp [State.pushTok]

theorem State.memWf_streamGo {s : State} {n : Nat} {t : Token} (w : memWf s.mem = true) : memWf (s.streamGo n t).mem = true := by
  unfold State.streamGo
  dsimp only
  split
  · exact w
  · split
    · simp [w]
    · split
      · rw [State.countFlits_mem]
        exact State.memWf_arrive w
      · simp [w]

theorem State.memWf_streamOn {s : State} {n : Nat} {t : Token} (w : memWf s.mem = true) : memWf (s.streamOn n t).mem = true := by
  unfold State.streamOn
  dsimp only
  rw [State.countFlits_mem]
  exact State.memWf_pour w

@[simp] theorem State.showStraggler_mem (s : State) (cl : Nat) : (s.showStraggler cl).mem = s.mem := by simp [State.showStraggler]

@[simp] theorem State.freeBranch_mem (s : State) (t : Token) : (s.freeBranch t).mem = s.mem := by
  unfold State.freeBranch
  dsimp only
  split <;> simp

theorem nextWf_execTokenArrival {n : Nat} {s : State} (w : memWf s.mem = true) : NextWf (execTokenArrival n s) := by
  unfold execTokenArrival
  refine nextWf_act w ?_
  split
  · split
    · exact w
    · split
      · split
        · split
          · refine State.memWf_arrive ?_
            simp [w]
          · exact w
        · simp [w]
      · split
        · exact w
        · split
          · split
            · exact State.memWf_streamGo w
            · exact w
          · split
            · exact State.memWf_streamOn w
            · exact w
  · exact w

@[simp] theorem State.multicast_mem (s : State) (t : Token) (g : Nat) (stalls : List (Nat × Nat)) :
    (s.multicast t g stalls).mem = s.mem := by
  unfold State.multicast
  dsimp only
  refine (State.foldl_mem (fun s x => ?_) _ _).trans ?_
  · simp
  · dsimp only
    refine (State.foldl_mem (fun s x => ?_) _ _).trans ?_
    · simp
    · refine (State.foldl_mem (fun s x => ?_) _ _).trans ?_
      · split <;> simp
      · simp

@[simp] theorem State.sendCourier_mem (s : State) (t : Token) (stalls : List (Nat × Nat)) :
    (s.sendCourier t stalls).mem = s.mem := by
  unfold State.sendCourier
  split
  · simp
  · exact State.launch_getD_mem (State.refuseTok_mem _ _ _)
  · exact State.launch_getD_mem (State.refuseTok_mem _ _ _)

theorem nextWf_execCourierPacketRoute {n : Nat} {stalls : List (Fin 256 × Fin 5)} {s : State} (w : memWf s.mem = true) :
    NextWf (execCourierPacketRoute n stalls s) := by
  unfold execCourierPacketRoute
  refine nextWf_act w ?_
  split
  · simp [w]
  · exact w

theorem nextWf_execReserveReadback {entry : Fin 256} {s : State} (w : memWf s.mem = true) :
    NextWf (execReserveReadback entry s) := by
  unfold execReserveReadback
  dsimp only
  refine nextWf_act w ?_
  split
  · simp [w]
  · exact w

theorem nextWf_execStragglerTimeout {n : Nat} {s : State} (w : memWf s.mem = true) : NextWf (execStragglerTimeout n s) := by
  unfold execStragglerTimeout
  dsimp only
  refine nextWf_act w ?_
  split
  · split
    · simp -implicitDefEqProofs [w]
    · exact w
  · exact w

@[simp] theorem State.applyStraggler_mem (s : State) (cl g br l : Nat) :
    (s.applyStraggler cl g br l).mem = s.mem := by simp [State.applyStraggler]

@[simp] theorem State.nodeOut_mem (s : State) (cl nd : Nat) (t : Token) (leaf : Nat) (data : List Byte) :
    (s.nodeOut cl nd t leaf data).mem = s.mem := by simp [State.nodeOut]

theorem nextWf_execReductionContribution {n : Nat} {s : State} (w : memWf s.mem = true) :
    NextWf (execReductionContribution n s) := by
  unfold execReductionContribution
  dsimp only
  refine nextWf_act w ?_
  split
  · split
    · split
      · exact w
      · split
        · simp [w]
        · split
          · simp [w]
          · split <;> exact w
    · exact w
  · exact w

@[simp] theorem State.writeSpill_mem (s : State) (p : Nat) (size : Bool) (v : Nat) :
    (s.writeSpill p size v).mem = s.mem := by simp [State.writeSpill]

theorem nextWf_execNocSpillWrite {fn : Func} {p : Region} {size : Bool} {value : DWord} {s : State} (w : memWf s.mem = true) :
    NextWf (execNocSpillWrite fn p size value s) := by
  unfold execNocSpillWrite
  refine nextWf_act w ?_
  simp [w]

@[simp] theorem State.loadSpill_mem (s : State) (p : Nat) : (s.loadSpill p).mem = s.mem := by simp [State.loadSpill]

theorem State.memWf_loadCore {s : State} {k : Nat} (w : memWf s.mem = true) : memWf (s.loadCore k).mem = true := by
  unfold State.loadCore
  dsimp only
  split
  · exact State.memWf_store _ _ w
  · exact w

theorem nextWf_execSpareLoadComplete {core : CoreRef} {s : State} (w : memWf s.mem = true) :
    NextWf (execSpareLoadComplete core s) := by
  unfold execSpareLoadComplete
  dsimp only
  refine nextWf_act w ?_
  split
  · rw [State.modCore_mem]
    exact State.memWf_loadCore w
  · exact w

/-! ## Machine/Spine -/

@[simp] theorem State.engRead_mem (s : State) (c a n : Nat) : (s.engRead c a n).1.mem = s.mem := by
  unfold State.engRead
  dsimp only
  split
  · refine (State.foldl_fst_mem (fun s x => ?_) _ _).trans ?_
    · split
      · simp
      · split
        · dsimp only
          rename_i h
          rw [State.mem_of_fst h]
          simp
        · dsimp only
          rename_i h
          rw [State.mem_of_fst h]
          simp
    · simp
  · simp

theorem State.memWf_engWrite {s : State} {c a : Nat} {bs : List Byte} {shadow : Bool} (w : memWf s.mem = true) :
    memWf (s.engWrite c a bs shadow).mem = true := by
  unfold State.engWrite
  dsimp only
  split
  · refine State.memWf_foldl (fun s x w => ?_) ?_
    · split
      · exact State.memWf_serve w
      · split
        · exact State.memWf_poke w
        · exact State.memWf_poke w
        · exact w
    · exact w
  · exact w

@[simp] theorem State.herdAgent_mem (s : State) (src c vid n : Nat) :
    (s.herdAgent src c vid n).mem = s.mem := by simp [State.herdAgent]

theorem State.memWf_journalWrite {s : State} {bs : List Byte} (w : memWf s.mem = true) :
    memWf (s.journalWrite bs).mem = true := by
  unfold State.journalWrite
  dsimp only
  split
  · exact w
  · dsimp only
    exact State.memWf_engWrite w

theorem State.memWf_journalSetting {s : State} {c what seed : Nat} {digest : List Byte} (w : memWf s.mem = true) :
    memWf (s.journalSetting c what seed digest).mem = true := by
  unfold State.journalSetting
  split
  · exact State.memWf_journalWrite w
  · exact w

/-! ## Machine/Saving -/

theorem State.memWf_saveCopy {s : State} {c src dst n : Nat} (w : memWf s.mem = true) :
    memWf (s.saveCopy c src dst n).mem = true := by
  unfold State.saveCopy
  split
  · refine State.memWf_foldl (fun s x w => ?_) ?_
    · split
      · rw [State.countHbm_mem, State.mend_mem]
        exact State.memWf_copy _ _ _ w
      · exact w
    · exact w
  · exact w

theorem State.memWf_saveBack {s : State} {c src dst n : Nat} (w : memWf s.mem = true) :
    memWf (s.saveBack c src dst n).1.mem = true := by
  unfold State.saveBack
  dsimp only
  split
  · refine State.memWf_foldl_fst (fun s x w => ?_) ?_
    · split
      · split
        · simp [w]
        · dsimp only
          refine State.memWf_copy _ _ _ ?_
          simp [w]
      · exact w
    · exact w
  · exact w

@[simp] theorem State.loseBlock_mem (s : State) (c k : Nat) : (s.loseBlock c k).mem = s.mem := by simp [State.loseBlock]

theorem State.memWf_saveFree {s : State} {c a n : Nat} (w : memWf s.mem = true) : memWf (s.saveFree c a n).mem = true := by
  unfold State.saveFree
  exact State.memWf_engWrite w

theorem State.memWf_writeBlock {s : State} {c k p : Nat} {forced : Bool} (w : memWf s.mem = true) :
    memWf (s.writeBlock c k p forced).1.mem = true := by
  unfold State.writeBlock
  dsimp only
  refine State.memWf_foldl_fst (fun s x w => ?_) ?_
  · refine State.memWf_foldl_fst (fun s x w => ?_) ?_
    · dsimp only
      refine State.memWf_foldl (fun s x w => ?_) ?_
      · exact State.memWf_saveCopy w
      · split
        · exact State.memWf_engWrite (State.memWf_saveFree w)
        · exact State.memWf_saveFree w
    · exact w
  · dsimp only
    refine State.memWf_foldl (fun s x w => ?_) ?_
    · exact State.memWf_saveFree w
    · refine State.memWf_foldl (fun s x w => ?_) ?_
      · exact State.memWf_saveFree w
      · exact State.memWf_saveFree w

theorem State.memWf_saveRegion {s : State} {c k p : Nat} {forced : Bool} (w : memWf s.mem = true) :
    memWf (s.saveRegion c k p forced).1.mem = true := by
  unfold State.saveRegion
  dsimp only
  exact State.memWf_writeBlock w

@[simp] theorem State.emptyRegion_mem (s : State) (p : Nat) :
    (s.emptyRegion p).mem = s.mem := by simp -implicitDefEqProofs [State.emptyRegion]

theorem State.memWf_backOrLose {x : State × Bool} {c k : Nat} (w : memWf x.1.mem = true) :
    memWf (State.backOrLose x c k).mem = true := by
  unfold State.backOrLose
  split
  · exact w
  · simpa using w

theorem State.memWf_restoreSaved {s : State} {c k e : Nat} {r : SavedRegion} (w : memWf s.mem = true) :
    memWf (s.restoreSaved c k e r).mem = true := by
  unfold State.restoreSaved
  extract_lets ep at_ s₁ s₂ s₃ _ noc _ s₄ s₅ s₆ s₇
  have h₁ : memWf s₁.mem = true := State.memWf_foldl (fun s b w => State.memWf_foldl
    (fun s x w => State.memWf_backOrLose (State.memWf_saveBack w)) w) w
  have h₂ : s₂.mem = s₁.mem := State.foldl_mem (fun s x => State.setCore_mem _ _ _) _ _
  have h₃ : s₃.mem = s₂.mem := by
    refine State.foldl_mem (fun s b => ?_) _ _
    split
    · rename_i h
      rw [State.modCore_mem, State.mem_of_fst h, State.engRead_mem]
    · rename_i h
      rw [State.loseBlock_mem, State.mem_of_fst h, State.engRead_mem]
  have h₅ : s₅.mem = s₄.mem := State.foldl_mem (fun s x => State.setFslot_mem _ _ _) _ _
  have h₆ : s₆.mem = s₅.mem := by
    refine State.foldl_mem (fun s x => ?_) _ _
    rfl
  change memWf s₇.mem = true
  rw [State.put_mem, h₆, h₅]
  change memWf s₃.mem = true
  rw [h₃, h₂]
  exact h₁

theorem State.memWf_restoreRegion {s : State} {c p e : Nat} (w : memWf s.mem = true) :
    memWf (s.restoreRegion c p e).mem = true := by
  unfold State.restoreRegion
  split
  · split
    · exact State.memWf_restoreSaved w
    · exact w
  · exact w

/-! ## Machine/Binding -/

@[simp] theorem State.reject_mem (s : State) (r : Reject) (handle : Nat) :
    (s.reject r handle).mem = s.mem := by simp -implicitDefEqProofs [State.reject]

@[simp] theorem State.showBnd_mem (s : State) : (s.showBnd).mem = s.mem := by simp [State.showBnd]

@[simp] theorem State.applyStage_mem (iss : Issuer) (addr : BitVec 48) (dies : BitVec 4) (s : State) :
    (State.applyStage iss addr dies s).mem = s.mem := by simp [State.applyStage]

theorem nextWf_execStage {iss : Issuer} {addr : BitVec 48} {dies : BitVec 4} {s : State} (w : memWf s.mem = true) :
    NextWf (execStage iss addr dies s) := by
  unfold execStage
  exact nextWf_act w w

@[simp] theorem State.moveUnits_mem (s : State) (f : Folio) (take : Bool) :
    (s.moveUnits f take).mem = s.mem := by simp -implicitDefEqProofs [State.moveUnits]

theorem nextWf_execStageComplete {n : Nat} {s : State} (w : memWf s.mem = true) : NextWf (execStageComplete n s) := by
  unfold execStageComplete
  dsimp only
  refine nextWf_act w ?_
  split
  · exact w
  · split
    · exact w
    · split <;> simp [w]

@[simp] theorem State.dropFolio_mem (s : State) (f : Folio) : (s.dropFolio f).mem = s.mem := by simp [State.dropFolio]

@[simp] theorem State.applyRelease_mem (iss : Issuer) (handle : Byte) (s : State) :
    (State.applyRelease iss handle s).mem = s.mem := by
  unfold State.applyRelease
  dsimp only
  split <;> simp

theorem nextWf_execRelease {iss : Issuer} {handle : Byte} {s : State} (w : memWf s.mem = true) :
    NextWf (execRelease iss handle s) := by
  unfold execRelease
  exact nextWf_act w w

@[simp] theorem State.showPstate_mem (s : State) (c : Nat) : (s.showPstate c).mem = s.mem := by simp [State.showPstate]

@[simp] theorem State.setRegion_mem (s : State) (p state ctx epoch handle : Nat) (portable : Bool) :
    (s.setRegion p state ctx epoch handle portable).mem = s.mem := by simp -implicitDefEqProofs [State.setRegion]

@[simp] theorem State.showNoc_mem (s : State) (p : Nat) :
    (s.showNoc p).mem = s.mem := by simp -implicitDefEqProofs [State.showNoc]

@[simp] theorem State.endStepSet_mem (s : State) (c : Nat) :
    (s.endStepSet c).mem = s.mem := by simp -implicitDefEqProofs [State.endStepSet]

@[simp] theorem State.clearRouters_mem (s : State) (p : Nat) : (s.clearRouters p).mem = s.mem := by simp [State.clearRouters]

@[simp] theorem State.dropCores_mem (s : State) (p : Nat) : (s.dropCores p).mem = s.mem := by simp [State.dropCores]

@[simp] theorem State.flushRegion_mem (s : State) (p : Nat) :
    (s.flushRegion p).mem = s.mem := by simp -implicitDefEqProofs [State.flushRegion]

@[simp] theorem State.endBind_mem (s : State) (r : BindReq) (status : Nat) : (s.endBind r status).mem = s.mem := by
  unfold State.endBind
  split <;> simp

theorem State.memWf_startLoad {s : State} {r : BindReq} {f : Folio} {timedOut : Bool} (w : memWf s.mem = true) :
    memWf (s.startLoad r f timedOut).mem = true := by
  obtain ⟨zero, hz, wz⟩ : ∃ x, x = @State.zero ∧ ∀ s a n, memWf s.mem = true → memWf (x s a n).mem = true :=
    ⟨_, rfl, fun s a n => State.memWf_zero a n⟩
  unfold State.startLoad
  rw [State.showPstate_mem, State.setBnd_mem, ← hz]
  refine State.memWf_foldl (fun s p w => ?_) w
  rw [State.showNoc_mem, State.loadSpill_mem]
  dsimp only
  rw [State.clearRegs_mem]
  refine wz _ _ _ ?_
  simpa using w

@[simp] theorem State.fenceOut_mem (s : State) (r : BindReq) (f : Folio) : (s.fenceOut r f).mem = s.mem := by
  unfold State.fenceOut
  dsimp only
  rw [State.endBind_mem]
  split <;> simp

theorem State.memWf_afterUnbind {s : State} {r : BindReq} {timedOut : Bool} (w : memWf s.mem = true) :
    memWf (s.afterUnbind r timedOut).mem = true := by
  unfold State.afterUnbind
  dsimp only
  split
  · simp [w]
  · split
    · split
      · simp [w]
      · exact State.memWf_startLoad w
    · simp [w]

theorem State.memWf_applyBind {s : State} {r : BindReq} (w : memWf s.mem = true) : memWf (s.applyBind r).mem = true := by
  unfold State.applyBind
  dsimp only
  split
  · simp [w]
  · refine State.memWf_afterUnbind ?_
    simp [w]

theorem State.memWf_bindCmd {s : State} {r : BindReq} (w : memWf s.mem = true) : memWf (s.bindCmd r).mem = true := by
  unfold State.bindCmd
  dsimp only
  split
  · split
    · split
      · exact State.memWf_applyBind w
      · simp -implicitDefEqProofs [w]
    · simp -implicitDefEqProofs [w]
  · split
    · simp -implicitDefEqProofs [w]
    · split
      · simp -implicitDefEqProofs [w]
      · split
        · simp -implicitDefEqProofs [w]
        · split
          · split
            · exact State.memWf_applyBind w
            · simp -implicitDefEqProofs [w]
          · simp -implicitDefEqProofs [w]

theorem State.memWf_applyBindCommand {iss : Issuer} {handle : Byte} {target : Region} {s : State} (w : memWf s.mem = true) :
    memWf (State.applyBindCommand iss handle target s).mem = true := by
  unfold State.applyBindCommand
  refine State.memWf_bindCmd ?_
  simp [w]

theorem nextWf_execBind {iss : Issuer} {handle : Byte} {target : Region} {s : State} (w : memWf s.mem = true) :
    NextWf (execBind iss handle target s) := by
  unfold execBind
  refine nextWf_act w ?_
  simp [w]

theorem State.memWf_applyUnbind {iss : Issuer} {regions : BitVec 16} {drain : Bool} {s : State} (w : memWf s.mem = true) :
    memWf (State.applyUnbind iss regions drain s).mem = true := by
  unfold State.applyUnbind
  refine State.memWf_bindCmd ?_
  simp [w]

theorem nextWf_execUnbind {iss : Issuer} {regions : BitVec 16} {drain : Bool} {s : State} (w : memWf s.mem = true) :
    NextWf (execUnbind iss regions drain s) := by
  unfold execUnbind
  refine nextWf_act w ?_
  simp [w]

theorem State.memWf_applyRebind {iss : Issuer} {regions : BitVec 16} {drain : Bool} {handle : Byte} {s : State}
    (w : memWf s.mem = true) : memWf (State.applyRebind iss regions drain handle s).mem = true := by
  unfold State.applyRebind
  dsimp only
  refine State.memWf_bindCmd ?_
  simp [w]

theorem nextWf_execRebind {iss : Issuer} {regions : BitVec 16} {drain : Bool} {handle : Byte} {s : State} (w : memWf s.mem = true) :
    NextWf (execRebind iss regions drain handle s) := by
  unfold execRebind
  refine nextWf_act w ?_
  simp [w]

theorem State.memWf_loadCores {s : State} {p : Nat} {f : Folio} {l : Leaf} (w : memWf s.mem = true) :
    memWf (s.loadCores p f l).mem = true := by
  obtain ⟨store, hs, ws⟩ : ∃ x, x = @State.store ∧ ∀ s a b, memWf s.mem = true → memWf (x s a b).mem = true :=
    ⟨_, rfl, fun s a b => State.memWf_store a b⟩
  unfold State.loadCores
  rw [← hs]
  refine State.memWf_foldl (fun s sec w => State.memWf_foldl (fun s x w => ws _ _ _ ?_) w) ?_
  · rwa [State.modCore_mem]
  · exact State.memWf_foldl (fun s c w => State.memWf_foldl (fun s i w => w) w) w

@[simp] theorem State.loadRouters_mem (s : State) (p : Nat) (l : Leaf) :
    (s.loadRouters p l).mem = s.mem := by simp -implicitDefEqProofs [State.loadRouters]

@[simp] theorem State.takeEpoch_mem (s : State) (c : Nat) : (s.takeEpoch c).1.mem = s.mem := by simp [State.takeEpoch]

@[simp] theorem State.formStepSet_mem (s : State) (c : Nat) (ts : List Nat) (f : Folio) :
    (s.formStepSet c ts f).mem = s.mem := by simp -implicitDefEqProofs [State.formStepSet]

theorem State.loadReserves_mem (s : State) (p : Nat) (l : List Nat) : (l.foldl (fun (s : State) k =>
    if s.get HRD_RESERVE.region k = p ∨ bits (spGet (0, 0, 0) s.hrd.reserves k).1 3 0 = p then s.loadReserve k else s) s).mem =
      s.mem := by
  induction l generalizing s with
  | nil => rfl
  | cons k t ih => rw [List.foldl_cons, ih, State.ite_mem, State.loadReserve_mem, ite_self]

theorem State.memWf_startSet {s : State} {o : BindOp} {f : Folio} (w : memWf s.mem = true) :
    memWf (s.startSet o f).mem = true := by
  refine State.memWf_of_forall_eq fun u hu => ?_
  unfold State.startSet at hu
  extract_lets r leaf at hu
  split at hu
  rename_i s₀ e h₀
  extract_lets s₁ s₂ _ s₃ _ s₄ _ s₅ at hu
  have h₁ : memWf s₁.mem = true := by
    refine State.memWf_foldl (fun s p w => ?_) (State.memWf_of_fst h₀ (State.memWf_of_mem (State.takeEpoch_mem _ _) w))
    refine State.memWf_of_forall_eq fun u hu => ?_
    extract_lets l t₁ _ t₂ t₃ t₄ at hu
    have k₂ : t₂.mem = s.mem := (State.setBnd_mem _ _).trans (State.setRegion_mem _ _ _ _ _ _ _)
    clear_value t₂
    have k₃ : memWf t₃.mem = true := by
      have wl : memWf (t₂.loadCores p f l).mem = true := State.memWf_loadCores (State.memWf_of_mem k₂ w)
      refine State.memWf_of_mem ?_ wl
      rw [State.showNoc_mem, State.freshCredits_mem, State.clearFetchers_mem, State.loadRouters_mem]
    clear_value t₃
    have k₄ : memWf t₄.mem = true := State.memWf_of_mem (State.loadReserves_mem _ _ _) k₃
    clear_value t₄
    rw [← hu]
    split
    · exact State.memWf_restoreRegion k₄
    · exact k₄
  clear_value s₁
  have h₂ : s₂.mem = s₁.mem := by
    dsimp only [s₂]
    rw [State.ite_mem, State.ite_mem, State.formStepSet_mem, ite_self, ite_self]
  clear_value s₂
  have h₄ : s₄.mem = s₂.mem := State.setBnd_mem _ _
  clear_value s₄
  have h₅ : s₅.mem = s₄.mem := by
    dsimp only [s₅]
    rw [State.ite_mem, State.leadMode_mem, State.setBnd_mem, ite_self]
  rw [← hu, State.sample_mem, State.showPstate_mem, State.bump_mem, h₅, h₄, h₂]
  exact h₁

@[simp] theorem State.showClaims_mem (s : State) : (s.showClaims).mem = s.mem := by
  unfold State.showClaims
  refine (State.foldl_mem (fun s x => ?_) _ _).trans ?_
  · split <;> simp
  · simp

theorem State.memWf_applyBindStart {p : Region} {s : State} (w : memWf s.mem = true) :
    memWf (State.applyBindStart p s).mem = true := by
  unfold State.applyBindStart
  split
  · split
    · split
      · exact w
      · rw [State.showClaims_mem]
        exact State.memWf_startSet w
    · exact w
  · exact w

theorem nextWf_execBindStart {p : Region} {s : State} (w : memWf s.mem = true) : NextWf (execBindStart p s) := by
  unfold execBindStart
  refine nextWf_act w ?_
  simp [w]

theorem nextWf_execSlotTableActivation {p : Region} {s : State} (w : memWf s.mem = true) :
    NextWf (execSlotTableActivation p s) := by
  unfold execSlotTableActivation
  dsimp only
  refine nextWf_act w ?_
  simp [w]

@[simp] theorem State.applyFlushComplete_mem (p : Region) (s : State) : (State.applyFlushComplete p s).mem = s.mem := by
  unfold State.applyFlushComplete
  dsimp only
  split <;> simp

theorem nextWf_execFlushComplete {p : Region} {s : State} (w : memWf s.mem = true) : NextWf (execFlushComplete p s) := by
  unfold execFlushComplete
  refine nextWf_act w ?_
  simp [w]

theorem State.memWf_drainOut {s : State} {o : BindOp} {ps : List Nat} {timedOut : Bool} (w : memWf s.mem = true) :
    memWf (s.drainOut o ps timedOut).mem = true := by
  unfold State.drainOut
  dsimp only
  split
  · refine State.memWf_afterUnbind ?_
    simp [w]
  · simp [w]

theorem State.memWf_applyDrainSettled {p : Region} {s : State} (w : memWf s.mem = true) :
    memWf (State.applyDrainSettled p s).mem = true := by
  unfold State.applyDrainSettled
  split
  · exact State.memWf_drainOut w
  · exact w

theorem nextWf_execDrainSettled {p : Region} {s : State} (w : memWf s.mem = true) : NextWf (execDrainSettled p s) := by
  unfold execDrainSettled
  refine nextWf_act w ?_
  simp [w]

theorem State.memWf_applyDrainTimeout {p : Region} {s : State} (w : memWf s.mem = true) :
    memWf (State.applyDrainTimeout p s).mem = true := by
  unfold State.applyDrainTimeout
  split
  · split
    · exact w
    · refine State.memWf_drainOut ?_
      simp [w]
  · exact w

theorem nextWf_execDrainTimeout {p : Region} {s : State} (w : memWf s.mem = true) : NextWf (execDrainTimeout p s) := by
  unfold execDrainTimeout
  refine nextWf_act w ?_
  split
  · simp [w]
  · exact w

theorem State.memWf_applyWaitingBindCommand {p : Region} {s : State} (w : memWf s.mem = true) :
    memWf (State.applyWaitingBindCommand p s).mem = true := by
  unfold State.applyWaitingBindCommand
  dsimp only
  split
  · split
    · exact w
    · refine State.memWf_bindCmd ?_
      simp -implicitDefEqProofs [w]
  · exact w

theorem nextWf_execWaitingBindCommand {p : Region} {s : State} (w : memWf s.mem = true) : NextWf (execWaitingBindCommand p s) := by
  unfold execWaitingBindCommand
  refine nextWf_act w ?_
  split
  · simp [w]
  · exact w

@[simp] theorem State.reportStale_mem (s : State) (c p n : Nat) : (s.reportStale c p n).mem = s.mem := by simp [State.reportStale]

theorem nextWf_execEpochStaleReport {ctx : Ctx} {p : Region} {s : State} (w : memWf s.mem = true) :
    NextWf (execEpochStaleReport ctx p s) := by
  unfold execEpochStaleReport
  refine nextWf_act w ?_
  split
  · simp [w]
  · exact w

@[simp] theorem State.abandonLoad_mem (s : State) (o : BindOp) (status : Nat) : (s.abandonLoad o status).mem = s.mem := by
  unfold State.abandonLoad
  dsimp only
  rw [State.endBind_mem]
  refine (State.foldl_mem (fun s x => ?_) _ _).trans ?_
  · simp
  · split
    · simp
    · split <;> simp

@[simp] theorem State.abandonAll_mem (s : State) (p : Nat) : (s.abandonAll p).mem = s.mem := by
  unfold State.abandonAll
  split <;> simp

/-! ## Machine/Numerics -/

@[simp] theorem State.setNm_mem (s : State) (c : Nat) (n : CtxNum) : (s.setNm c n).mem = s.mem := by simp [State.setNm]

@[simp] theorem State.setMap_mem (s : State) (c : Nat) (m : List (List Byte)) :
    (s.setMap c m).mem = s.mem := by simp [State.setMap]

@[simp] theorem State.applyNumMapLoad_mem (ctx : Ctx) (s : State) :
    (State.applyNumMapLoad ctx s).mem = s.mem := by simp [State.applyNumMapLoad]

theorem nextWf_execNumMapLoad {fn : Func} {ctx : Ctx} {value : Word} {s : State} (w : memWf s.mem = true) :
    NextWf (execNumMapLoad fn ctx value s) := by
  unfold execNumMapLoad
  dsimp only
  refine nextWf_act w ?_
  simp [w]

@[simp] theorem State.endLoad_mem (s : State) (st en : Fld) (i : Nat) (bad : Option Nat) :
    (s.endLoad st en i bad).mem = s.mem := by
  unfold State.endLoad
  split <;> simp

theorem nextWf_execNumMapLoadComplete {ctx : Ctx} {s : State} (w : memWf s.mem = true) :
    NextWf (execNumMapLoadComplete ctx s) := by
  unfold execNumMapLoadComplete
  dsimp only
  refine nextWf_act w ?_
  split
  · exact w
  · split
    · simp [w]
    · split
      · simp [w]
      · split
        · simp [w]
        · split
          · simp [w]
          · refine State.memWf_journalSetting ?_
            simp [w]

@[simp] theorem State.modAcc_mem (s : State) (c i : Nat) (f : AmaxAcc → AmaxAcc) :
    (s.modAcc c i f).mem = s.mem := by simp [State.modAcc]

theorem nextWf_execAmaxReport {n : Nat} {s : State} (w : memWf s.mem = true) : NextWf (execAmaxReport n s) := by
  unfold execAmaxReport
  dsimp only
  refine nextWf_act w ?_
  split
  · exact w
  · split
    · exact w
    · split <;> simp [w]

theorem nextWf_execJitScalePublish {ctx : Ctx} {entry : Fin 4096} {s : State} (w : memWf s.mem = true) :
    NextWf (execJitScalePublish ctx entry s) := by
  unfold execJitScalePublish
  dsimp only
  refine nextWf_act w ?_
  split
  · rw [State.modAcc_mem]
    exact State.memWf_engWrite w
  · exact w

theorem nextWf_execJitPublishComplete {ctx : Ctx} {entry : Fin 4096} {s : State} (w : memWf s.mem = true) :
    NextWf (execJitPublishComplete ctx entry s) := by
  unfold execJitPublishComplete
  dsimp only
  refine nextWf_act w ?_
  simp [w]

@[simp] theorem State.agentToken_mem {f : State → Token → State} (s : State) (n op : Nat) (h : ∀ s t, (f s t).mem = s.mem) :
    (s.agentToken n op f).mem = s.mem := by
  unfold State.agentToken
  split <;> simp [h]

theorem State.memWf_agentToken {s : State} {n op : Nat} {f : State → Token → State}
    (h : ∀ s t,
      memWf s.mem = true → memWf (f s t).mem = true) (w : memWf s.mem = true) : memWf (s.agentToken n op f).mem = true := by
  unfold State.agentToken
  split
  · dsimp only
    split
    · split
      · exact h _ _ w
      · simpa using w
    · exact w
  · exact w

theorem nextWf_execRatioReport {n : Nat} {s : State} (w : memWf s.mem = true) : NextWf (execRatioReport n s) := by
  unfold execRatioReport
  dsimp only
  refine nextWf_act w ?_
  refine State.memWf_agentToken ?_ ?_
  · intro s t w
    split
    · simp [w]
    · split
      · simp [w]
      · refine State.memWf_engWrite ?_
        simp [w]
  · exact w

theorem State.memWf_numVote {s : State} {c k word voteTick : Nat} {copy : Bool} (w : memWf s.mem = true) :
    memWf (s.numVote c k word voteTick copy).mem = true := by
  unfold State.numVote
  dsimp only
  rw [State.setNm_mem]
  refine State.memWf_engWrite ?_
  refine State.memWf_foldl (fun s x w => ?_) ?_
  · split
    · rw [State.bump_mem]
      split
      · exact State.memWf_engWrite w
      · exact w
    · split
      · exact State.memWf_engWrite w
      · exact w
  · exact w

@[simp] theorem State.applyNonfinite_mem (s : State) (k op : Nat) (tag : Tag) (tensor : Nat) :
    (s.applyNonfinite k op tag tensor).mem = s.mem := by
  unfold State.applyNonfinite
  dsimp only
  split
  · simp
  · split <;> simp

theorem nextWf_execNonfiniteReportSampled {core : CoreRef} {s : State} (w : memWf s.mem = true) :
    NextWf (execNonfiniteReportSampled core s) := by
  unfold execNonfiniteReportSampled
  refine nextWf_act w ?_
  refine State.memWf_handleOne ?_ ?_
  · intro s e w
    split
    · simp [w]
    · exact w
  · exact w

@[simp] theorem State.clearNf_mem (s : State) (c : Nat) : (s.clearNf c).mem = s.mem := by simp [State.clearNf]

@[simp] theorem State.numDecided_mem (s : State) (c k : Nat) (commit : Bool) : (s.numDecided c k commit).mem = s.mem := by
  unfold State.numDecided
  dsimp only
  split <;> simp -implicitDefEqProofs

theorem nextWf_execNfRecordClear {fn : Func} {ctx : Ctx} {value : Word} {s : State} (w : memWf s.mem = true) :
    NextWf (execNfRecordClear fn ctx value s) := by
  unfold execNfRecordClear
  refine nextWf_act w ?_
  simp [w]

theorem State.memWf_writeSeed {s : State} {c : Nat} {value : DWord} (w : memWf s.mem = true) :
    memWf (s.writeSeed c value).mem = true := by
  unfold State.writeSeed
  dsimp only
  split
  · exact w
  · refine State.memWf_journalSetting ?_
    simp [w]

theorem nextWf_execNumSeedWrite {fn : Func} {ctx : Ctx} {value : DWord} {s : State} (w : memWf s.mem = true) :
    NextWf (execNumSeedWrite fn ctx value s) := by
  unfold execNumSeedWrite
  refine nextWf_act w ?_
  refine State.memWf_fnWrite ?_ ?_
  · exact State.memWf_writeSeed w
  · exact w

/-! ## Machine/Finishing -/

@[simp] theorem State.setFin_mem (s : State) (c : Nat) (f : CtxFin) : (s.setFin c f).mem = s.mem := by simp [State.setFin]

@[simp] theorem State.applyFinTableLoad_mem (ctx : Ctx) (s : State) :
    (State.applyFinTableLoad ctx s).mem = s.mem := by simp [State.applyFinTableLoad]

theorem nextWf_execFinTableLoad {fn : Func} {ctx : Ctx} {value : Word} {s : State} (w : memWf s.mem = true) :
    NextWf (execFinTableLoad fn ctx value s) := by
  unfold execFinTableLoad
  dsimp only
  refine nextWf_act w ?_
  simp [w]

theorem nextWf_execFinTableLoadComplete {ctx : Ctx} {s : State} (w : memWf s.mem = true) :
    NextWf (execFinTableLoadComplete ctx s) := by
  unfold execFinTableLoadComplete
  dsimp only
  refine nextWf_act w ?_
  split
  · exact w
  · split
    · simp [w]
    · split
      · simp [w]
      · split
        · simp [w]
        · split
          · simp [w]
          · refine State.memWf_journalSetting ?_
            simp [w]

@[simp] theorem State.showFin_mem (s : State) : (s.showFin).mem = s.mem := by simp [State.showFin]

@[simp] theorem State.startMovers_mem (s : State) (c sizesAt : Nat) (reshard : Bool) :
    (s.startMovers c sizesAt reshard).mem = s.mem := by simp [State.startMovers]

@[simp] theorem State.stopMovers_mem (s : State) (c : Nat) : (s.stopMovers c).mem = s.mem := by simp [State.stopMovers]

@[simp] theorem State.setMover_mem (s : State) (c i : Nat) (m : Mover) :
    (s.setMover c i m).mem = s.mem := by simp [State.setMover]

@[simp] theorem State.moverData_mem (s : State) (c : Nat) (m : Mover) : (s.moverData c m).1.mem = s.mem := by
  unfold State.moverData
  dsimp only
  split
  · simp
  · split
    · simp
    · split <;> simp

theorem nextWf_execMoverDeliver {ctx : Ctx} {entry : Fin 65536} {s : State} (w : memWf s.mem = true) :
    NextWf (execMoverDeliver ctx entry s) := by
  unfold execMoverDeliver
  refine nextWf_act w ?_
  split
  · dsimp only
    split
    · rw [State.setMover_mem, State.launch_getD_mem (State.refuseTok_mem _ _ _), State.moverData_mem]
      exact w
    · exact w
  · exact w

theorem State.memWf_shadowWrite {s : State} {c die a : Nat} {bs : List Byte} (w : memWf s.mem = true) :
    memWf (s.shadowWrite c die a bs).mem = true := by
  unfold State.shadowWrite
  split
  · rw [State.bump_mem]
    exact State.memWf_engWrite w
  · exact w

theorem nextWf_execMoverCollect {n : Nat} {s : State} (w : memWf s.mem = true) : NextWf (execMoverCollect n s) := by
  unfold execMoverCollect
  dsimp only
  refine nextWf_act w ?_
  refine State.memWf_agentToken ?_ ?_
  · intro s t w
    split
    · split
      · exact w
      · split
        · exact w
        · split
          · split
            · exact w
            · refine State.memWf_shadowWrite ?_
              simp [w]
          · rw [State.setMover_mem]
            split
            · exact w
            · refine State.memWf_shadowWrite ?_
              simp [w]
    · exact w
  · exact w

theorem nextWf_execMoverCopy {ctx : Ctx} {entry : Fin 65536} {s : State} (w : memWf s.mem = true) :
    NextWf (execMoverCopy ctx entry s) := by
  unfold execMoverCopy
  dsimp only
  refine nextWf_act w ?_
  split
  · split
    · exact w
    · rw [State.setMover_mem]
      split
      · refine State.memWf_shadowWrite ?_
        simp [w]
      · exact w
  · exact w

theorem nextWf_execMoverDone {ctx : Ctx} {die : Fin 4} {s : State} (w : memWf s.mem = true) :
    NextWf (execMoverDone ctx die s) := by
  unfold execMoverDone
  dsimp only
  refine nextWf_act w ?_
  simp [w]

theorem nextWf_execFinCountReport {n : Nat} {s : State} (w : memWf s.mem = true) : NextWf (execFinCountReport n s) := by
  unfold execFinCountReport
  dsimp only
  refine nextWf_act w ?_
  simp [w]

/-! ## Machine/Sentinel -/

@[simp] theorem State.applySentListLoad_mem (ctx : Ctx) (s : State) :
    (State.applySentListLoad ctx s).mem = s.mem := by simp [State.applySentListLoad]

theorem nextWf_execSentListLoad {fn : Func} {ctx : Ctx} {value : Word} {s : State} (w : memWf s.mem = true) :
    NextWf (execSentListLoad fn ctx value s) := by
  unfold execSentListLoad
  dsimp only
  refine nextWf_act w ?_
  simp [w]

theorem nextWf_execSentListLoadComplete {ctx : Ctx} {s : State} (w : memWf s.mem = true) :
    NextWf (execSentListLoadComplete ctx s) := by
  unfold execSentListLoadComplete
  dsimp only
  refine nextWf_act w ?_
  split
  · exact w
  · split
    · simp [w]
    · split <;> simp [w]

@[simp] theorem State.startSentinel_mem (s : State) (c k M : Nat) (B : Tag) :
    (s.startSentinel c k M B).mem = s.mem := by simp [State.startSentinel]

@[simp] theorem State.stopSentinel_mem (s : State) (c : Nat) : (s.stopSentinel c).mem = s.mem := by simp [State.stopSentinel]

@[simp] theorem State.setCaptures_mem (s : State) (f : List Capture → List Capture) :
    (s.setCaptures f).mem = s.mem := by simp [State.setCaptures]

theorem nextWf_execSentinelCapture {core : CoreRef} {s : State} (w : memWf s.mem = true) :
    NextWf (execSentinelCapture core s) := by
  unfold execSentinelCapture
  dsimp only
  refine nextWf_act w ?_
  split
  · split
    · exact w
    · split
      · exact w
      · split
        · exact w
        · split
          · simp [w]
          · rw [State.setCaptures_mem]
            exact State.memWf_engWrite w
  · exact w

theorem State.memWf_runPartner {s : State} {c : Nat} {x : Capture} {n : Nat} (w : memWf s.mem = true) :
    memWf (s.runPartner c x n).mem = true := by
  unfold State.runPartner
  split
  · rw [State.bump_mem]
    exact State.memWf_getD (fun _ h => State.memWf_wrSpad h w) w
  · exact w

theorem nextWf_execSentinelPhaseStart {ctx : Ctx} {s : State} (w : memWf s.mem = true) :
    NextWf (execSentinelPhaseStart ctx s) := by
  unfold execSentinelPhaseStart
  dsimp only
  refine nextWf_act w ?_
  split
  · exact w
  · rw [State.setFlt_mem]
    refine State.memWf_foldl (fun s x w => ?_) ?_
    · exact State.memWf_runPartner w
    · simp [w]

theorem nextWf_execSentinelCompare {core : CoreRef} {same : Bool} {second : Fin 3} {s : State} (w : memWf s.mem = true) :
    NextWf (execSentinelCompare core same second s) := by
  unfold execSentinelCompare
  dsimp only
  refine nextWf_act w ?_
  split
  · split
    · exact w
    · split
      · simp [w]
      · split
        · split
          · rw [State.sampleOnce_mem, State.bump_mem]
            refine State.memWf_runPartner ?_
            simp [w]
          · refine State.memWf_runPartner ?_
            simp [w]
        · rw [State.sample_mem, State.sampleOnce_mem, State.bump_mem]
          refine State.memWf_runPartner ?_
          simp [w]
        · rw [State.sample_mem, State.bump_mem]
          refine State.memWf_runPartner ?_
          simp [w]
  · exact w

@[simp] theorem State.applySentinel_mem (s : State) (c : Nat) : (s.applySentinel c).mem = s.mem := by simp [State.applySentinel]

/-! ## Machine/Snapshot -/

@[simp] theorem State.showSlots_mem (s : State) (c : Nat) :
    (s.showSlots c).mem = s.mem := by simp -implicitDefEqProofs [State.showSlots]

@[simp] theorem State.beginDrain_mem (s : State) (c : Nat) : (s.beginDrain c).mem = s.mem := by
  unfold State.beginDrain
  dsimp only
  split <;> simp

@[simp] theorem State.snapCapture_mem (s : State) (c : Nat) : (s.snapCapture c).mem = s.mem := by simp [State.snapCapture]

theorem nextWf_execCadenceRecord {interval : Fin 65536} {s : State} (w : memWf s.mem = true) :
    NextWf (execCadenceRecord interval s) := by
  unfold execCadenceRecord
  dsimp only
  refine nextWf_act w ?_
  simp [w]

@[simp] theorem State.finishDrain_mem (s : State) (t0 : Nat) : (s.finishDrain t0).mem = s.mem := by simp [State.finishDrain]

theorem State.memWf_drainCopy {s : State} {c base : Nat} {l : List (Nat × Nat × Nat)} (w : memWf s.mem = true) :
    memWf (s.drainCopy c base l).1.mem = true := by
  unfold State.drainCopy
  refine State.memWf_foldl_fst (fun s x w => ?_) ?_
  · split
    · exact w
    · split
      · split
        · dsimp only
          rename_i h _
          refine State.memWf_of_fst h ?_
          simp [w]
        · dsimp only
          refine State.memWf_engWrite ?_
          rename_i h _
          refine State.memWf_of_fst h ?_
          simp [w]
      · dsimp only
        rename_i h
        refine State.memWf_of_fst h ?_
        simp [w]
  · exact w

theorem nextWf_execSnapshotDrainComplete {s : State} (w : memWf s.mem = true) : NextWf (execSnapshotDrainComplete s) := by
  unfold execSnapshotDrainComplete
  dsimp only
  refine nextWf_act w ?_
  split
  · split
    · exact w
    · split
      · exact w
      · split
        · rename_i h
          exact State.memWf_of_fst h (State.memWf_drainCopy w)
        · rw [State.showSlots_mem, State.bump_mem, State.bump_mem, State.setFlt_mem]
          refine State.memWf_engWrite ?_
          rename_i h
          exact State.memWf_of_fst h (State.memWf_drainCopy w)
  · exact w

/-! ## Machine/TrainStep -/

@[simp] theorem State.clearVote_mem (s : State) (c : Nat) : (s.clearVote c).mem = s.mem := by simp [State.clearVote]

@[simp] theorem State.spineLeash_mem (s : State) (c vid threshold : Nat) (t : SpineTarget) :
    (s.spineLeash c vid threshold t).1.mem = s.mem := by simp [State.spineLeash]

@[simp] theorem State.dropColLeashes_mem (s : State) : (s.dropColLeashes).mem = s.mem := by simp [State.dropColLeashes]

@[simp] theorem State.startCollectives_mem (s : State) (c : Nat) :
    (s.startCollectives c).mem = s.mem := by simp [State.startCollectives]

@[simp] theorem State.haltSet_mem (s : State) (c : Nat) : (s.haltSet c).mem = s.mem := by simp [State.haltSet]

@[simp] theorem State.startStep_mem (s : State) (c : Nat) (r : List Byte) :
    (s.startStep c r).mem = s.mem := by simp -implicitDefEqProofs [State.startStep]

@[simp] theorem State.applyStep_mem (iss : Issuer) (record : List Byte) (s : State) :
    (State.applyStep iss record s).mem = s.mem := by simp [State.applyStep]

theorem nextWf_execStep {iss : Issuer} {record : List Byte} {s : State} (w : memWf s.mem = true) :
    NextWf (execStep iss record s) := by
  unfold execStep
  refine nextWf_act w ?_
  simp [w]

@[simp] theorem State.sendVote_mem (s : State) (a : Nat) (r : VoteRec) : (s.sendVote a r).mem = s.mem := by simp [State.sendVote]

@[simp] theorem State.reduceVotes_mem (s : State) (c fuel a : Nat) : (s.reduceVotes c fuel a).mem = s.mem := by
  induction fuel generalizing s a with
  | zero => rfl
  | succ f ih =>
    unfold State.reduceVotes
    dsimp only
    split
    · rfl
    · simp [ih]

@[simp] theorem State.postStep_mem (s : State) (c outcome : Nat) :
    (s.postStep c outcome).mem = s.mem := by simp -implicitDefEqProofs [State.postStep]

@[simp] theorem State.takeDecision_mem (s : State) (c : Nat) (commit : Bool) (flip : Nat) (snap : Bool) :
    (s.takeDecision c commit flip snap).mem = s.mem := by simp -implicitDefEqProofs [State.takeDecision]

@[simp] theorem State.mem_decide_ (s : State) (c : Nat) : (s.decide_ c).mem = s.mem := by
  unfold State.decide_
  dsimp only
  split <;> simp

theorem nextWf_execStepVote {ctx : Ctx} {s : State} (w : memWf s.mem = true) : NextWf (execStepVote ctx s) := by
  unfold execStepVote
  extract_lets c t reshard word M s₁ s₂ s₃ s₄ layout r _ t'
  refine nextWf_act w (State.memWf_of_forall_eq fun u hu => ?_)
  split at hu
  · rwa [← hu]
  · have h₁ : s₁.mem = s.mem := by
      dsimp only [s₁]
      split
      · exact State.dropLeash_mem _ _
      · rfl
    clear_value s₁
    have w₂ : memWf s₂.mem = true := State.memWf_numVote (State.memWf_of_mem ((State.wn_mem _ _ _ _).trans h₁) w)
    clear_value s₂
    have h₃ : s₃.mem = s₂.mem := by
      dsimp only [s₃]
      rw [State.ite_mem, State.wn_mem, ite_self]
    clear_value s₃
    have h₄ : s₄.mem = s₃.mem := by rw [State.put_mem, State.stopSentinel_mem, State.stopMovers_mem]
    clear_value s₄ t'
    refine State.memWf_of_mem ?_ w₂
    rw [← hu, ← h₃, ← h₄, State.ite_mem, State.mem_decide_, State.setStp_mem, State.ite_mem, State.setStp_mem,
      State.reduceVotes_mem, State.sendVote_mem, State.setStp_mem, ite_self, ite_self]

@[simp] theorem State.applyStepDeadline_mem (ctx : Ctx) (s : State) : (State.applyStepDeadline ctx s).mem = s.mem := by
  unfold State.applyStepDeadline
  dsimp only
  split <;> simp

theorem nextWf_execStepDeadline {ctx : Ctx} {s : State} (w : memWf s.mem = true) : NextWf (execStepDeadline ctx s) := by
  unfold execStepDeadline
  refine nextWf_act w ?_
  simp [w]

theorem nextWf_execVoteRecord {axis : Fin 4} {plus : Bool} {hop : Nat} {r : VoteRec} {s : State} (w : memWf s.mem = true) :
    NextWf (execVoteRecord axis plus hop r s) := by
  unfold execVoteRecord
  dsimp only
  refine nextWf_act w ?_
  split
  · simp [w]
  · exact w

theorem nextWf_execShepherdDecision {ctx : Ctx} {s : State} (w : memWf s.mem = true) : NextWf (execShepherdDecision ctx s) := by
  unfold execShepherdDecision
  dsimp only
  refine nextWf_act w ?_
  simp [w]

@[simp] theorem State.toIdle_mem (s : State) (c : Nat) : (s.toIdle c).mem = s.mem := by simp [State.toIdle]

@[simp] theorem State.applyAbort_mem (s : State) (c : Nat) : (s.applyAbort c).mem = s.mem := by
  unfold State.applyAbort
  dsimp only
  rw [State.toIdle_mem, State.wn_mem]
  split <;> simp

theorem nextWf_execDecisionRecord {step : DWord} {commit : Bool} {flip : DWord} {snap : Bool} {s : State} (w : memWf s.mem = true) :
    NextWf (execDecisionRecord step commit flip snap s) := by
  unfold execDecisionRecord
  refine nextWf_act w ?_
  split
  · simp [w]
  · exact w

theorem State.memWf_journalStep {s : State} {c k flip : Nat} (w : memWf s.mem = true) :
    memWf (s.journalStep c k flip).mem = true := by
  unfold State.journalStep
  dsimp only
  split
  · exact State.memWf_journalWrite w
  · exact w

theorem State.memWf_flip {s : State} {c : Nat} {d : Decision} (w : memWf s.mem = true) : memWf (s.flip c d).mem = true := by
  refine State.memWf_of_forall_eq fun u hu => ?_
  unfold State.flip at hu
  extract_lets k s₁ s₂ s₃ t₁ _ s₄ _ s₅ _ s₆ s₇ at hu
  have h₁ : s₁.mem = s.mem := State.put_mem _ _ _ _
  clear_value s₁
  have h₂ : s₂.mem = s₁.mem := by rw [State.wn_mem, State.bump_mem, State.numDecided_mem]
  clear_value s₂
  have h₃ : s₃.mem = s₂.mem := by
    dsimp only [s₃]
    rw [State.ite_mem, State.bump_mem, ite_self]
  clear_value s₃
  have w₃ : memWf s₃.mem = true := State.memWf_of_mem (h₃.trans (h₂.trans h₁)) w
  split at hu
  · rw [← hu, State.ite_mem, State.setStp_mem, State.bump_mem, State.wn_mem, State.wn_mem, ite_self]
    exact w₃
  · have w₄ : memWf s₄.mem = true := State.memWf_journalStep (State.memWf_of_mem (State.bump_mem _ _ _ _) w₃)
    clear_value s₄
    have h₅ : s₅.mem = s₄.mem := by
      dsimp only [s₅]
      rw [State.ite_mem, State.setFlt_mem, ite_self]
    clear_value s₅
    have h₆ : s₆.mem = s₅.mem := by
      dsimp only [s₆]
      rw [State.ite_mem, State.put_mem, State.put_mem, State.setFlt_mem, ite_self]
    rw [← hu, State.ite_mem, State.snapCapture_mem, ite_self, State.toIdle_mem, h₆, h₅]
    exact w₄

theorem nextWf_execCommitFlip {ctx : Ctx} {s : State} (w : memWf s.mem = true) : NextWf (execCommitFlip ctx s) := by
  unfold execCommitFlip
  dsimp only
  refine nextWf_act w ?_
  split
  · split
    · exact State.memWf_flip w
    · exact w
  · exact w

@[simp] theorem State.doubt_mem (s : State) (c : Nat) : (s.doubt c).mem = s.mem := by simp [State.doubt]

theorem nextWf_execVoteTimeout {ctx : Ctx} {s : State} (w : memWf s.mem = true) : NextWf (execVoteTimeout ctx s) := by
  unfold execVoteTimeout
  dsimp only
  refine nextWf_act w ?_
  simp [w]

theorem nextWf_execInDoubtResolution {ctx : Ctx} {anyCommit : Bool} {flip : DWord} {s : State} (w : memWf s.mem = true) :
    NextWf (execInDoubtResolution ctx anyCommit flip s) := by
  unfold execInDoubtResolution
  dsimp only
  refine nextWf_act w ?_
  simp [w]

@[simp] theorem State.setHeld_mem (s : State) (c : Nat) (b : Bool) : (s.setHeld c b).mem = s.mem := by simp [State.setHeld]

theorem State.memWf_beginReshard {s : State} {c : Nat} {r : Reshard} (w : memWf s.mem = true) :
    memWf (s.beginReshard c r).mem = true := by
  unfold State.beginReshard
  dsimp only
  split
  · simp [w]
  · rw [State.startMovers_mem]
    refine State.memWf_bindCmd ?_
    simp [w]

theorem State.memWf_runHeld {s : State} {c : Nat} (w : memWf s.mem = true) : memWf (s.runHeld c).mem = true := by
  unfold State.runHeld
  split
  · split
    · exact State.memWf_beginReshard w
    · exact w
  · exact w

theorem State.memWf_applyReshard {iss : Issuer} {record : List Byte} {s : State} (w : memWf s.mem = true) :
    memWf (State.applyReshard iss record s).mem = true := by
  unfold State.applyReshard
  dsimp only
  split
  · simp [w]
  · split
    · simp [w]
    · split
      · simp [w]
      · refine State.memWf_beginReshard ?_
        simp [w]

theorem nextWf_execReshard {iss : Issuer} {record : List Byte} {s : State} (w : memWf s.mem = true) :
    NextWf (execReshard iss record s) := by
  unfold execReshard
  dsimp only
  refine nextWf_act w ?_
  simp [w]

theorem State.memWf_applyReshardForce {iss : Issuer} {record : List Byte} {s : State} (w : memWf s.mem = true) :
    memWf (State.applyReshardForce iss record s).mem = true := by
  unfold State.applyReshardForce
  dsimp only
  split
  · simp [w]
  · exact State.memWf_applyReshard w

theorem nextWf_execReshardForce {iss : Issuer} {record : List Byte} {s : State} (w : memWf s.mem = true) :
    NextWf (execReshardForce iss record s) := by
  unfold execReshardForce
  dsimp only
  refine nextWf_act w ?_
  simp [w]

theorem nextWf_execReshardTargetBind {ctx : Ctx} {s : State} (w : memWf s.mem = true) : NextWf (execReshardTargetBind ctx s) := by
  unfold execReshardTargetBind
  dsimp only
  refine nextWf_act w ?_
  split
  · split
    · rw [State.toIdle_mem]
      refine State.memWf_bindCmd ?_
      simp [w]
    · exact w
  · exact w

/-! ## Machine/Identity -/

@[simp] theorem State.extend_mem (s : State) (h m : Nat) (d : List Byte) : (s.extend h m d).mem = s.mem := by simp [State.extend]

@[simp] theorem State.showWords_mem (s : State) (r : Reg) (i n : Nat) (d : List Byte) :
    (s.showWords r i n d).mem = s.mem := by simp -implicitDefEqProofs [State.showWords]

@[simp] theorem State.showMeas_mem (s : State) : (s.showMeas).mem = s.mem := by simp [State.showMeas]

@[simp] theorem State.deriveAlias_mem (s : State) : (s.deriveAlias).mem = s.mem := by simp [State.deriveAlias]

@[simp] theorem State.compareMeas_mem (s : State) (h : Nat) : (s.compareMeas h).mem = s.mem := by simp [State.compareMeas]

@[simp] theorem State.measureBoot_mem (s : State) (h : Nat) : (s.measureBoot h).mem = s.mem := by simp [State.measureBoot]

@[simp] theorem State.clearMeas_mem (s : State) (h : Nat) : (s.clearMeas h).mem = s.mem := by simp [State.clearMeas]

@[simp] theorem State.endKey_mem (s : State) (status : Nat) : (s.endKey status).mem = s.mem := by simp [State.endKey]

@[simp] theorem State.keyCommand_mem (s : State) (fn : Func) (cmd : Instr) :
    (s.keyCommand fn cmd).mem = s.mem := by simp [State.keyCommand]

@[simp] theorem State.applyEnrol_mem (fn : Func) (s : State) : (State.applyEnrol fn s).mem = s.mem := by
  unfold State.applyEnrol
  dsimp only
  split
  · simp
  · split
    · simp
    · split
      · simp
      · split
        · rw [State.endKey_mem, State.showWords_mem, State.put_mem, State.setSec_mem]
          rename_i h
          rw [State.mem_of_fst h]
          simp
        · rw [State.endKey_mem]
          rename_i h
          rw [State.mem_of_fst h]
          simp
        · rw [State.sampleRow_mem]
          rename_i h
          rw [State.mem_of_fst h]
          simp

theorem nextWf_execEnrol {fn : Func} {s : State} (w : memWf s.mem = true) : NextWf (execEnrol fn s) := by
  unfold execEnrol
  refine nextWf_act w ?_
  simp [w]

@[simp] theorem State.applySvnCommit_mem (s : State) : (s.applySvnCommit).mem = s.mem := by simp [State.applySvnCommit]

theorem nextWf_execSvnCommit {fn : Func} {s : State} (w : memWf s.mem = true) : NextWf (execSvnCommit fn s) := by
  unfold execSvnCommit
  refine nextWf_act w ?_
  simp [w]

@[simp] theorem State.applyKeyLock_mem (s : State) : (s.applyKeyLock).mem = s.mem := by simp [State.applyKeyLock]

theorem nextWf_execKeyLock {fn : Func} {s : State} (w : memWf s.mem = true) : NextWf (execKeyLock fn s) := by
  unfold execKeyLock
  refine nextWf_act w ?_
  simp [w]

@[simp] theorem State.spdmReply_mem (s : State) (code : Nat) (ok : Bool) (body : List Byte) :
    (s.spdmReply code ok body).mem = s.mem := by simp [State.spdmReply]

theorem nextWf_execGetVersion {s : State} (w : memWf s.mem = true) : NextWf (execGetVersion s) := by
  unfold execGetVersion
  refine nextWf_act w ?_
  simp [w]

theorem nextWf_execGetCapabilities {s : State} (w : memWf s.mem = true) : NextWf (execGetCapabilities s) := by
  unfold execGetCapabilities
  refine nextWf_act w ?_
  simp [w]

theorem nextWf_execNegotiateAlgorithms {mldsa87 sha3_512 : Bool} {s : State} (w : memWf s.mem = true) :
    NextWf (execNegotiateAlgorithms mldsa87 sha3_512 s) := by
  unfold execNegotiateAlgorithms
  refine nextWf_act w ?_
  simp [w]

theorem nextWf_execGetDigests {s : State} (w : memWf s.mem = true) : NextWf (execGetDigests s) := by
  unfold execGetDigests
  refine nextWf_act w ?_
  simp [w]

theorem nextWf_execGetCertificate {slot offset len : Nat} {s : State} (w : memWf s.mem = true) :
    NextWf (execGetCertificate slot offset len s) := by
  unfold execGetCertificate
  refine nextWf_act w ?_
  simp [w]

theorem nextWf_execChallenge {slot : Nat} {req : List Byte} {s : State} (w : memWf s.mem = true) :
    NextWf (execChallenge slot req s) := by
  unfold execChallenge
  refine nextWf_act w ?_
  simp [w]

theorem nextWf_execGetMeasurements {index : Byte} {sign : Bool} {req : List Byte} {s : State} (w : memWf s.mem = true) :
    NextWf (execGetMeasurements index sign req s) := by
  unfold execGetMeasurements
  dsimp only
  refine nextWf_act w ?_
  simp [w]

@[simp] theorem State.applyExpectTableLoad_mem (s : State) :
    (s.applyExpectTableLoad).mem = s.mem := by simp [State.applyExpectTableLoad]

theorem nextWf_execExpectTableLoad {fn : Func} {value : Word} {s : State} (w : memWf s.mem = true) :
    NextWf (execExpectTableLoad fn value s) := by
  unfold execExpectTableLoad
  refine nextWf_act w ?_
  simp [w]

theorem nextWf_execExpectTableLoadComplete {s : State} (w : memWf s.mem = true) : NextWf (execExpectTableLoadComplete s) := by
  unfold execExpectTableLoadComplete
  dsimp only
  refine nextWf_act w ?_
  split
  · exact w
  · split
    · exact w
    · split
      · rw [State.setSec_mem]
        rename_i h
        refine State.memWf_of_fst h ?_
        simp [w]
      · exact w
      · rw [State.setSec_mem]
        rename_i h
        refine State.memWf_of_fst h ?_
        simp [w]

@[simp] theorem State.setPortId_mem (s : State) (k : Nat) (p : PortId) :
    (s.setPortId k p).mem = s.mem := by simp [State.setPortId]

@[simp] theorem State.setPortState_mem (s : State) (k st : Nat) :
    (s.setPortState k st).mem = s.mem := by simp [State.setPortState]

@[simp] theorem State.askPort_mem (s : State) (k st : Nat) : (s.askPort k st).mem = s.mem := by simp [State.askPort]

@[simp] theorem State.applyPort_mem (s : State) (k st : Nat) : (s.applyPort k st).mem = s.mem := by simp [State.applyPort]

@[simp] theorem State.portsUp_mem (s : State) (coord : Nat) (digest : List Byte) (now : Bool) :
    (s.portsUp coord digest now).mem = s.mem := by simp [State.portsUp]

@[simp] theorem State.portsHold_mem (s : State) (coord : Nat) : (s.portsHold coord).mem = s.mem := by simp [State.portsHold]

@[simp] theorem State.admitPkg_mem (s : State) (coord : Nat) (digest : List Byte) (now : Bool) :
    (s.admitPkg coord digest now).mem = s.mem := by simp [State.admitPkg]

@[simp] theorem State.holdPkg_mem (s : State) (coord : Nat) (digest : List Byte) (good : Bool) (reason : Nat) :
    (s.holdPkg coord digest good reason).mem = s.mem := by simp -implicitDefEqProofs [State.holdPkg]

@[simp] theorem State.judgePkg_mem (s : State) (coord : Nat) (digest : List Byte) (good : Bool) :
    (s.judgePkg coord digest good).mem = s.mem := by
  unfold State.judgePkg
  dsimp only
  split <;> simp

@[simp] theorem State.rejudge_mem (s : State) : (s.rejudge).mem = s.mem := by simp [State.rejudge]

theorem nextWf_execIdentityChallenge {coord : Word} {nonce : Option (List Byte)} {s : State} (w : memWf s.mem = true) :
    NextWf (execIdentityChallenge coord nonce s) := by
  unfold execIdentityChallenge
  dsimp only
  refine nextWf_act w ?_
  split <;> simp [w]

theorem nextWf_execChallengeResponse {coord : Word} {digest : List Byte} {good : Bool} {s : State} (w : memWf s.mem = true) :
    NextWf (execChallengeResponse coord digest good s) := by
  unfold execChallengeResponse
  dsimp only
  refine nextWf_act w ?_
  simp [w]

theorem nextWf_execChallengeSilentTimeout {coord : Word} {s : State} (w : memWf s.mem = true) :
    NextWf (execChallengeSilentTimeout coord s) := by
  unfold execChallengeSilentTimeout
  dsimp only
  refine nextWf_act w ?_
  simp [w]

@[simp] theorem State.applyViolation_mem (s : State) : (s.applyViolation).mem = s.mem := by
  unfold State.applyViolation
  dsimp only
  split <;> simp

theorem nextWf_execSecurityViolation {half : Fin 2} {s : State} (w : memWf s.mem = true) :
    NextWf (execSecurityViolation half s) := by
  unfold execSecurityViolation
  exact nextWf_act w w

/-! ## Machine/Links -/

@[simp] theorem State.nextRecal_mem (s : State) (l : List Nat) : (s.nextRecal l).mem = s.mem := by
  induction l with
  | nil => simp [State.nextRecal]
  | cons k t ih =>
    unfold State.nextRecal
    dsimp only
    split
    · split
      · simp
      · exact ih
    · exact ih

@[simp] theorem State.requestRecal_mem (s : State) (k : Nat) : (s.requestRecal k).mem = s.mem := by simp [State.requestRecal]

@[simp] theorem State.portDown_mem (s : State) (k cause : Nat) : (s.portDown k cause).mem = s.mem := by
  unfold State.portDown
  dsimp only
  split
  · simp
  · split <;> simp

@[simp] theorem State.applyPortRoleWrite_mem (port : Fin 9) (value : Word) (s : State) :
    (State.applyPortRoleWrite port value s).mem = s.mem := by simp -implicitDefEqProofs [State.applyPortRoleWrite]

theorem nextWf_execPortRoleWrite {fn : Func} {port : Fin 9} {value : Word} {s : State} (w : memWf s.mem = true) :
    NextWf (execPortRoleWrite fn port value s) := by
  unfold execPortRoleWrite
  refine nextWf_act w ?_
  simp [w]

@[simp] theorem State.applyPortTrainingComplete_mem (port : Fin 9) (lanes : Fin 16) (s : State) :
    (State.applyPortTrainingComplete port lanes s).mem = s.mem := by simp [State.applyPortTrainingComplete]

theorem nextWf_execPortTrainingComplete {port : Fin 9} {lanes : Fin 16} {s : State} (w : memWf s.mem = true) :
    NextWf (execPortTrainingComplete port lanes s) := by
  unfold execPortTrainingComplete
  exact nextWf_act w w

@[simp] theorem State.applyIdentityFlit_mem (port : Fin 9) (job coord : Word) (digest : List Byte) (s : State) :
    (State.applyIdentityFlit port job coord digest s).mem = s.mem := by simp [State.applyIdentityFlit]

theorem nextWf_execIdentityFlit {port : Fin 9} {job coord : Word} {role : Fin 16} {digest : List Byte} {s : State}
    (w : memWf s.mem = true) : NextWf (execIdentityFlit port job coord role digest s) := by
  unfold execIdentityFlit
  exact nextWf_act w w

theorem nextWf_execLinkFlit {port : Fin 9} {cls : Fin 4} {seq : BitVec 24} {ack : Option (BitVec 24)} {good : Bool}
    {corrected uncorrected : Nat} {s : State} (w : memWf s.mem =
      true) : NextWf (execLinkFlit port cls seq ack good corrected uncorrected s) := by
  unfold execLinkFlit
  dsimp only
  refine nextWf_act w ?_
  split
  · exact w
  · split
    · simp [w]
    · split
      · split <;> simp [w]
      · rw [State.bump_mem, State.setPort_mem]
        split <;> simp [w]

theorem nextWf_execLinkNak {port : Fin 9} {ack : BitVec 24} {s : State} (w : memWf s.mem = true) :
    NextWf (execLinkNak port ack s) := by
  unfold execLinkNak
  dsimp only
  refine nextWf_act w ?_
  simp [w]

@[simp] theorem State.applyPortRecalRequest_mem (port : Fin 9) (s : State) :
    (State.applyPortRecalRequest port s).mem = s.mem := by simp [State.applyPortRecalRequest]

theorem nextWf_execPortRecalRequest {fn : Func} {port : Fin 9} {s : State} (w : memWf s.mem = true) :
    NextWf (execPortRecalRequest fn port s) := by
  unfold execPortRecalRequest
  refine nextWf_act w ?_
  simp [w]

@[simp] theorem State.applyRecalTimerExpiry_mem (port : Fin 9) (s : State) :
    (State.applyRecalTimerExpiry port s).mem = s.mem := by simp [State.applyRecalTimerExpiry]

theorem nextWf_execRecalTimerExpiry {port : Fin 9} {s : State} (w : memWf s.mem = true) :
    NextWf (execRecalTimerExpiry port s) := by
  unfold execRecalTimerExpiry
  refine nextWf_act w ?_
  simp [w]

@[simp] theorem State.applyRecalErrorThreshold_mem (port : Fin 9) (lane : Fin 4) (s : State) :
    (State.applyRecalErrorThreshold port lane s).mem = s.mem := by simp [State.applyRecalErrorThreshold]

theorem nextWf_execRecalErrorThreshold {port : Fin 9} {lane : Fin 4} {s : State} (w : memWf s.mem = true) :
    NextWf (execRecalErrorThreshold port lane s) := by
  unfold execRecalErrorThreshold
  refine nextWf_act w ?_
  simp [w]

@[simp] theorem State.takeLane_mem (s : State) (k l : Nat) : (s.takeLane k l).mem = s.mem := by
  unfold State.takeLane
  dsimp only
  split <;> simp

@[simp] theorem State.dropLane_mem (s : State) (k l : Nat) : (s.dropLane k l).mem = s.mem := by simp [State.dropLane]

@[simp] theorem State.applyLaneDrop_mem (port : Fin 9) (lane : Fin 4) (s : State) :
    (State.applyLaneDrop port lane s).mem = s.mem := by simp [State.applyLaneDrop]

theorem nextWf_execLaneDrop {port : Fin 9} {lane : Fin 4} {s : State} (w : memWf s.mem = true) :
    NextWf (execLaneDrop port lane s) := by
  unfold execLaneDrop
  refine nextWf_act w ?_
  simp [w]

@[simp] theorem State.applyLaneRecalComplete_mem (pass : Bool) (s : State) :
    (State.applyLaneRecalComplete pass s).mem = s.mem := by
  unfold State.applyLaneRecalComplete
  dsimp only
  split
  · split <;> simp
  · simp

theorem nextWf_execLaneRecalComplete {pass : Bool} {s : State} (w : memWf s.mem = true) :
    NextWf (execLaneRecalComplete pass s) := by
  unfold execLaneRecalComplete
  refine nextWf_act w ?_
  split
  · simp [w]
  · exact w

@[simp] theorem State.showFlock_mem (s : State) : (s.showFlock).mem = s.mem := by simp [State.showFlock]

@[simp] theorem State.join_mem (s : State) : (s.join).mem = s.mem := by simp -implicitDefEqProofs [State.join]

@[simp] theorem State.applyJoin_mem (s : State) : (s.applyJoin).mem = s.mem := by simp [State.applyJoin]

theorem nextWf_execJoin {fn : Func} {s : State} (w : memWf s.mem = true) : NextWf (execJoin fn s) := by
  unfold execJoin
  refine nextWf_act w ?_
  simp [w]

@[simp] theorem State.applyLeave_mem (s : State) : (s.applyLeave).mem = s.mem := by simp -implicitDefEqProofs [State.applyLeave]

theorem nextWf_execLeave {fn : Func} {s : State} (w : memWf s.mem = true) : NextWf (execLeave fn s) := by
  unfold execLeave
  refine nextWf_act w ?_
  simp [w]

theorem nextWf_execBeaconSend {s : State} (w : memWf s.mem = true) : NextWf (execBeaconSend s) := by
  unfold execBeaconSend
  refine nextWf_act w ?_
  simp [w]

theorem nextWf_execBeaconReceive {count : DWord} {phase : Nat} {s : State} (w : memWf s.mem = true) :
    NextWf (execBeaconReceive count phase s) := by
  unfold execBeaconReceive
  dsimp only
  refine nextWf_act w ?_
  simp [w]

theorem nextWf_execPeerWrite {src dst : Word} {addr : Nat} {bank : Fin 4} {data : List Byte} {s : State} (w : memWf s.mem = true) :
    NextWf (execPeerWrite src dst addr bank data s) := by
  unfold execPeerWrite
  dsimp only
  refine nextWf_act w ?_
  split
  · split <;> simp [w]
  · split
    · split
      · split
        · split
          · split
            · exact w
            · rw [State.sendTo_mem]
              rename_i h
              exact State.memWf_of_fst h (State.memWf_writeNow w)
            · rw [State.sendTo_mem]
              rename_i h
              exact State.memWf_of_fst h (State.memWf_writeNow w)
          · simp [w]
        · simp [w]
      · simp [w]
    · simp [w]

theorem nextWf_execShepherdHeartbeat {s : State} (w : memWf s.mem = true) : NextWf (execShepherdHeartbeat s) := by
  unfold execShepherdHeartbeat
  refine nextWf_act w ?_
  split
  · simp [w]
  · exact w

@[simp] theorem State.applyShepherdTimeout_mem (s : State) :
    (s.applyShepherdTimeout).mem = s.mem := by simp -implicitDefEqProofs [State.applyShepherdTimeout]

theorem nextWf_execShepherdTimeout {s : State} (w : memWf s.mem = true) : NextWf (execShepherdTimeout s) := by
  unfold execShepherdTimeout
  refine nextWf_act w ?_
  simp [w]

@[simp] theorem State.moveRole_mem (s : State) (coord : Nat) : (s.moveRole coord).mem = s.mem := by
  unfold State.moveRole
  dsimp only
  split
  · split <;> simp
  · simp

@[simp] theorem State.applyTakeover_mem (coord : Word) (job : Option (Word × Word × Ctx)) (s : State) :
    (State.applyTakeover coord job s).mem = s.mem := by
  unfold State.applyTakeover
  dsimp only
  split <;> simp

theorem nextWf_execTakeover {coord : Word} {job : Option (Word × Word × Ctx)} {s : State} (w : memWf s.mem = true) :
    NextWf (execTakeover coord job s) := by
  unfold execTakeover
  refine nextWf_act w ?_
  simp [w]

/-! ## Machine/Collective -/

@[simp] theorem State.applyColTableLoad_mem (s : State) : (s.applyColTableLoad).mem = s.mem := by simp [State.applyColTableLoad]

theorem nextWf_execColTableLoad {fn : Func} {value : Word} {s : State} (w : memWf s.mem = true) :
    NextWf (execColTableLoad fn value s) := by
  unfold execColTableLoad
  dsimp only
  refine nextWf_act w ?_
  simp [w]

theorem nextWf_execColTableLoadComplete {s : State} (w : memWf s.mem = true) : NextWf (execColTableLoadComplete s) := by
  unfold execColTableLoadComplete
  dsimp only
  refine nextWf_act w ?_
  split
  · exact w
  · split
    · simp [w]
    · split
      · simp [w]
      · split
        · simp [w]
        · split
          · simp [w]
          · refine State.memWf_journalSetting ?_
            simp [w]

@[simp] theorem State.countChunk_mem (s : State) (role n : Nat) : (s.countChunk role n).mem = s.mem := by
  unfold State.countChunk
  dsimp only
  split <;> simp

@[simp] theorem State.sendChunk_mem (s : State) (r : ColRun) (g : ColStage) (seg j : Nat) (vs : List Nat) :
    (s.sendChunk r g seg j vs).mem = s.mem := by simp [State.sendChunk]

@[simp] theorem State.sendSeg_mem (s : State) (r : ColRun) (g : ColStage) (seg : Nat) (vs : List Nat) :
    (s.sendSeg r g seg vs).mem = s.mem := by simp [State.sendSeg]

@[simp] theorem State.setRun_mem (s : State) (r : ColRun) : (s.setRun r).mem = s.mem := by simp [State.setRun]

@[simp] theorem State.beginStage_mem (s : State) (r : ColRun) (a : Nat) (gather : Bool) (len : Nat) (vs : List Nat) :
    (s.beginStage r a gather len vs).1.mem = s.mem := by simp [State.beginStage]

@[simp] theorem goOnFrom_mem (l : List (Nat × Bool)) (s : State) (r : ColRun) (was : Bool) (vs : List Nat) :
    (goOnFrom l s r was vs).mem = s.mem := by
  induction l generalizing s r was vs with
  | nil => simp [goOnFrom]
  | cons x t ih =>
    unfold goOnFrom
    dsimp only
    split <;> simp [ih]

@[simp] theorem State.goOn_mem (s : State) (r : ColRun) (was : Bool) (vs : List Nat) :
    (s.goOn r was vs).mem = s.mem := by simp [State.goOn]

@[simp] theorem State.feedStage_mem (s : State) (r : ColRun) (g : ColStage) (seg j : Nat) (payload : List Byte) :
    (s.feedStage r g seg j payload).1.mem = s.mem := by simp [State.feedStage]

@[simp] theorem State.feedRun_mem (s : State) (r : ColRun) (h payload : List Byte) : (s.feedRun r h payload).mem = s.mem := by
  unfold State.feedRun
  dsimp only
  split
  · split <;> simp
  · simp

@[simp] theorem State.sendPart_mem (s : State) (r : ColRun) (dst seg j : Nat) (payload : List Byte) :
    (s.sendPart r dst seg j payload).mem = s.mem := by
  unfold State.sendPart
  split <;> simp

@[simp] theorem State.mismatch_mem (s : State) (c port entry seg sender : Nat) :
    (s.mismatch c port entry seg sender).mem = s.mem := by simp -implicitDefEqProofs [State.mismatch]

@[simp] theorem State.endExchange_mem (s : State) (r : ColRun) (port : Nat) :
    (s.endExchange r port).mem = s.mem := by simp [State.endExchange]

@[simp] theorem State.feedExchange_mem (s : State) (r : ColRun) (port : Nat) (h payload : List Byte) :
    (s.feedExchange r port h payload).mem = s.mem := by simp [State.feedExchange]

@[simp] theorem State.beginExchange_mem (s : State) (r : ColRun) (counts : List Nat) (data : List Byte) :
    (s.beginExchange r counts data).mem = s.mem := by simp [State.beginExchange]

@[simp] theorem State.takeEarly_mem (s : State) (n : Nat) : (s.takeEarly n).mem = s.mem := by
  induction n generalizing s with
  | zero => rfl
  | succ f ih =>
    unfold State.takeEarly
    split
    · dsimp only
      split <;> simp [ih]
    · rfl

theorem nextWf_execCollectiveRun {entry : Fin 1024} {s : State} (w : memWf s.mem = true) : NextWf (execCollectiveRun entry s) := by
  unfold execCollectiveRun
  refine nextWf_act w (State.memWf_of_mem ?_ w)
  split
  · split
    · rfl
    · extract_lets _ s₁ _ s₂ s₃ r _ s₄ drop
      have h₄ : s₄.mem = s.mem := by
        rw [State.setLnk_mem, State.bump_mem, State.setHrd_mem, State.setLnk_mem]
      have hd : ∀ t, (drop t).mem = t.mem := fun t => State.setLnk_mem _ _
      clear_value s₄ drop
      split
      · split
        · rename_i h
          have ht := State.mem_of_fst h
          rw [State.engRead_mem, h₄] at ht
          extract_lets counts
          split
          · rename_i h'
            rw [State.takeEarly_mem, State.beginExchange_mem, State.mem_of_fst h', State.engRead_mem, ht]
          · rename_i h'
            rw [hd, State.mem_of_fst h', State.engRead_mem, ht]
        · rename_i h
          rw [hd, State.mem_of_fst h, State.engRead_mem, h₄]
      · split
        · rw [State.takeEarly_mem, State.goOn_mem, h₄]
        · split
          · rename_i h
            rw [State.takeEarly_mem, State.goOn_mem, State.mem_of_fst h, State.engRead_mem, h₄]
          · rename_i h
            rw [hd, State.mem_of_fst h, State.engRead_mem, h₄]
  · rfl

theorem nextWf_execCollectiveChunk {port : Fin 9} {dst : Word} {head payload : List Byte} {unitsDiffer : Bool} {s : State}
    (w : memWf s.mem = true) : NextWf (execCollectiveChunk port dst head payload unitsDiffer s) := by
  unfold execCollectiveChunk
  refine nextWf_act w ?_
  split
  · split
    · exact w
    · split
      · split
        · simp [w]
        · exact w
      · dsimp only
        split <;> simp [w]
  · exact w

@[simp] theorem State.endRun_mem (s : State) (c : Nat) (r : ColRun) : (s.endRun c r).mem = s.mem := by simp [State.endRun]

theorem nextWf_execCollectiveComplete {entry : Fin 1024} {s : State} (w : memWf s.mem = true) :
    NextWf (execCollectiveComplete entry s) := by
  unfold execCollectiveComplete
  refine nextWf_act w ?_
  split
  · split
    · dsimp only
      split
      · exact w
      · split
        · split
          · exact w
          · rw [State.endRun_mem]
            exact State.memWf_engWrite w
        · split
          · split
            · exact w
            · rw [State.bump_mem, State.setRun_mem]
              exact w
          · split
            · exact w
            · rw [State.endRun_mem, State.launch_getD_mem (State.refuseTok_mem _ _ _)]
              exact w
    · exact w
  · exact w

theorem nextWf_execParkedResultArrival {entry : Fin 1024} {s : State} (w : memWf s.mem = true) :
    NextWf (execParkedResultArrival entry s) := by
  unfold execParkedResultArrival
  dsimp only
  refine nextWf_act w ?_
  split
  · split
    · split
      · exact w
      · rw [State.endRun_mem]
        dsimp only
        refine State.memWf_engWrite ?_
        simp [w]
    · exact w
  · exact w

/-! ## Machine/Msix -/

@[simp] theorem State.setPending_mem (s : State) (fn v : Nat) (on : Bool) :
    (s.setPending fn v on).mem = s.mem := by simp [State.setPending]

@[simp] theorem State.sendMsix_mem (s : State) (fn v : Nat) : (s.sendMsix fn v).mem = s.mem := by simp [State.sendMsix]

@[simp] theorem State.sendPending_mem (s : State) (fn : Nat) : (s.sendPending fn).mem = s.mem := by simp [State.sendPending]

theorem nextWf_execMsixSend {s : State} (w : memWf s.mem = true) : NextWf (execMsixSend s) := by
  unfold execMsixSend
  dsimp only
  refine nextWf_act w ?_
  split
  · simp [w]
  · exact w

theorem nextWf_execMsixUnmask {fn : Func} {vector : Option (Fin 256)} {s : State} (w : memWf s.mem = true) :
    NextWf (execMsixUnmask fn vector s) := by
  unfold execMsixUnmask
  dsimp only
  refine nextWf_act w ?_
  split <;> simp -implicitDefEqProofs [w]

theorem nextWf_execPackageEventVector {s : State} (w : memWf s.mem = true) : NextWf (execPackageEventVector s) := by
  unfold execPackageEventVector
  refine nextWf_act w ?_
  simp [w]

/-! ## Machine/Context -/

@[simp] theorem State.setCtx_mem (s : State) (x : CtxState) : (s.setCtx x).mem = s.mem := by simp [State.setCtx]

@[simp] theorem State.ringOn_mem (s : State) (c : Nat) (b : Bool) :
    (s.ringOn c b).mem = s.mem := by simp -implicitDefEqProofs [State.ringOn]

@[simp] theorem State.showContexts_mem (s : State) : (s.showContexts).mem = s.mem := by simp [State.showContexts]

@[simp] theorem State.resetWindows_mem (s : State) (c : Nat) : (s.resetWindows c).mem = s.mem := by simp [State.resetWindows]

@[simp] theorem State.endAdmin_mem (s : State) (status : Nat) : (s.endAdmin status).mem = s.mem := by simp [State.endAdmin]

@[simp] theorem State.admin_mem (s : State) (fn : Func) (cmd : Instr) : (s.admin fn cmd).mem = s.mem := by simp [State.admin]

@[simp] theorem State.applyCtxCreate_mem (ctx function : Fin 32) (s : State) :
    (State.applyCtxCreate ctx function s).mem = s.mem := by simp [State.applyCtxCreate]

theorem nextWf_execCtxCreate {fn : Func} {ctx function : Fin 32} {s : State} (w : memWf s.mem = true) :
    NextWf (execCtxCreate fn ctx function s) := by
  unfold execCtxCreate
  refine nextWf_act w ?_
  simp [w]

@[simp] theorem State.endRequest_mem (s : State) (r : PreReq) : (s.endRequest r).mem = s.mem := by
  unfold State.endRequest
  dsimp only
  rw [State.showClaims_mem]
  split <;> simp

@[simp] theorem State.claim_mem (s : State) (r : PreReq) (ps : List Nat) : (s.claim r ps).mem = s.mem := by
  unfold State.claim
  dsimp only
  split <;> simp

@[simp] theorem State.holderFreed_mem (s : State) (c : Nat) (ps : List Nat) :
    (s.holderFreed c ps).mem = s.mem := by simp [State.holderFreed]

@[simp] theorem State.destroyCtx_mem (s : State) (c : Nat) :
    (s.destroyCtx c).mem = s.mem := by simp -implicitDefEqProofs [State.destroyCtx]

@[simp] theorem State.applyCtxDestroy_mem (ctx : Fin 32) (s : State) :
    (State.applyCtxDestroy ctx s).mem = s.mem := by simp [State.applyCtxDestroy]

theorem nextWf_execCtxDestroy {fn : Func} {ctx : Fin 32} {s : State} (w : memWf s.mem = true) :
    NextWf (execCtxDestroy fn ctx s) := by
  unfold execCtxDestroy
  refine nextWf_act w ?_
  simp [w]

@[simp] theorem State.applyCtxRingConfigWrite_mem (ctx : Ctx) (value : Word) (s : State) :
    (State.applyCtxRingConfigWrite ctx value s).mem = s.mem := by simp -implicitDefEqProofs [State.applyCtxRingConfigWrite]

theorem nextWf_execCtxRingConfigWrite {fn : Func} {ctx : Ctx} {value : Word} {s : State} (w : memWf s.mem = true) :
    NextWf (execCtxRingConfigWrite fn ctx value s) := by
  unfold execCtxRingConfigWrite
  refine nextWf_act w ?_
  simp [w]

@[simp] theorem State.readRing_mem (s : State) (c o n : Nat) : (s.readRing c o n).1.mem = s.mem := by
  unfold State.readRing
  dsimp only
  split
  · rename_i h
    split
    · rename_i h'
      simp [State.mem_of_fst h', State.mem_of_fst h]
    · rename_i h'
      simp [State.mem_of_fst h', State.mem_of_fst h]
  · rename_i h
    simp [State.mem_of_fst h]

theorem nextWf_execRingPoll {ctx : Ctx} {s : State} (w : memWf s.mem = true) : NextWf (execRingPoll ctx s) := by
  unfold execRingPoll
  extract_lets c q gap
  refine nextWf_act w (State.memWf_of_mem ?_ w)
  clear_value gap
  split
  · split
    · rename_i h
      have hm := State.mem_of_fst h
      rw [State.engRead_mem, State.setRing_mem] at hm
      extract_lets tail _ t' have_ n
      have ht : t'.mem = s.mem := by rw [State.setRing_mem, hm]
      clear_value t'
      split
      · rfl
      · split
        · rename_i h'
          rw [State.setRing_mem, State.mem_of_fst h', State.readRing_mem, ht]
        · rename_i h'
          rw [State.mem_of_fst h', State.readRing_mem, ht]
    · rename_i h
      rw [State.mem_of_fst h, State.engRead_mem, State.setRing_mem]
  · rfl

theorem State.takeOne_mem {s : State} {c : Nat} {t : State} (h : s.takeOne c = some t) : t.mem = s.mem := by
  unfold State.takeOne at h
  dsimp only at h
  split at h
  · cases h
  · split at h
    · cases h
      simp -implicitDefEqProofs
    · split at h
      · cases h
      · split at h
        · cases h
          simp -implicitDefEqProofs
        · split at h <;> cases h <;> simp -implicitDefEqProofs

@[simp] theorem State.takeAll_mem (s : State) (c n : Nat) : (s.takeAll c n).mem = s.mem := by
  induction n generalizing s with
  | zero => rfl
  | succ f ih =>
    unfold State.takeAll
    split
    · rename_i h
      rw [ih, State.takeOne_mem h]
    · rfl

theorem nextWf_execRingCommandTake {ctx : Ctx} {s : State} (w : memWf s.mem = true) : NextWf (execRingCommandTake ctx s) := by
  unfold execRingCommandTake
  dsimp only
  refine nextWf_act w ?_
  split
  · simp [w]
  · refine State.memWf_engWrite ?_
    simp [w]

@[simp] theorem State.applyNop_mem (iss : Issuer) (s : State) : (State.applyNop iss s).mem = s.mem := by simp [State.applyNop]

theorem nextWf_execNop {iss : Issuer} {s : State} (w : memWf s.mem = true) : NextWf (execNop iss s) := by
  unfold execNop
  exact nextWf_act w w

theorem nextWf_execCompletionRecordWrite {ctx : Ctx} {s : State} (w : memWf s.mem = true) :
    NextWf (execCompletionRecordWrite ctx s) := by
  unfold execCompletionRecordWrite
  dsimp only
  refine nextWf_act w ?_
  split
  · split
    · exact w
    · split
      · dsimp only
        refine State.memWf_engWrite ?_
        rw [State.bump_mem]
        exact State.memWf_engWrite w
      · refine State.memWf_engWrite ?_
        rw [State.bump_mem]
        exact State.memWf_engWrite w
  · exact w

@[simp] theorem State.badItem_mem (s : State) (c p n : Nat) : (s.badItem c p n).mem = s.mem := by simp [State.badItem]

@[simp] theorem State.applyBadItem_mem (s : State) (c p n : Nat) :
    (s.applyBadItem c p n).mem = s.mem := by simp [State.applyBadItem]

theorem nextWf_execBatchItemArm {ctx : Ctx} {s : State} (w : memWf s.mem = true) : NextWf (execBatchItemArm ctx s) := by
  unfold execBatchItemArm
  dsimp only
  refine nextWf_act w ?_
  split
  · simp [w]
  · exact w

@[simp] theorem State.applyCtxRegionReserveWrite_mem (p : Region) (value : Word) (s : State) :
    (State.applyCtxRegionReserveWrite p value s).mem = s.mem := by simp [State.applyCtxRegionReserveWrite]

theorem nextWf_execCtxRegionReserveWrite {fn : Func} {p : Region} {value : Word} {s : State} (w : memWf s.mem = true) :
    NextWf (execCtxRegionReserveWrite fn p value s) := by
  unfold execCtxRegionReserveWrite
  refine nextWf_act w ?_
  simp [w]

theorem State.memWf_startPreempt {s : State} {c : Nat} (w : memWf s.mem = true) : memWf (s.startPreempt c).mem = true := by
  unfold State.startPreempt
  dsimp only
  split
  · exact w
  · refine State.memWf_foldl (fun s x w => ?_) ?_
    · exact State.memWf_parkFetchers w
    · simp [w]

theorem State.memWf_applyPreempt {iss : Issuer} {regions : BitVec 16} {s : State} (w : memWf s.mem = true) :
    memWf (State.applyPreempt iss regions s).mem = true := by
  unfold State.applyPreempt
  dsimp only
  split
  · simp [w]
  · split
    · simp [w]
    · split
      · rw [State.endRequest_mem, State.claim_mem]
        refine State.memWf_foldl (fun s x w => ?_) ?_
        · exact State.memWf_startPreempt w
        · simp [w]
      · rw [State.claim_mem]
        refine State.memWf_foldl (fun s x w => ?_) ?_
        · exact State.memWf_startPreempt w
        · simp [w]

theorem nextWf_execPreempt {iss : Issuer} {regions : BitVec 16} {s : State} (w : memWf s.mem = true) :
    NextWf (execPreempt iss regions s) := by
  unfold execPreempt
  refine nextWf_act w ?_
  simp [w]

theorem State.memWf_applyCtxPreemptRequest {fn : Func} {ctx : Fin 32} {s : State} (w : memWf s.mem = true) :
    memWf (State.applyCtxPreemptRequest fn ctx s).mem = true := by
  unfold State.applyCtxPreemptRequest
  dsimp only
  split
  · exact w
  · split
    · simp [w]
    · exact State.memWf_startPreempt w

theorem nextWf_execCtxPreemptRequest {fn : Func} {ctx : Fin 32} {s : State} (w : memWf s.mem = true) :
    NextWf (execCtxPreemptRequest fn ctx s) := by
  unfold execCtxPreemptRequest
  refine nextWf_act w ?_
  simp [w]

@[simp] theorem State.setPre_mem (s : State) (q : Preempt) : (s.setPre q).mem = s.mem := by simp [State.setPre]

@[simp] theorem State.holdCores_mem (s : State) (p : Nat) (on : Bool) :
    (s.holdCores p on).mem = s.mem := by simp [State.holdCores]

@[simp] theorem State.takeYield_mem (s : State) (q : Preempt) : (s.takeYield q).mem = s.mem := by simp [State.takeYield]

theorem nextWf_execYieldPoint {ctx : Ctx} {s : State} (w : memWf s.mem = true) : NextWf (execYieldPoint ctx s) := by
  unfold execYieldPoint
  refine nextWf_act w ?_
  split
  · simp [w]
  · exact w

@[simp] theorem State.applyPreemptDeadline_mem (ctx : Ctx) (s : State) : (State.applyPreemptDeadline ctx s).mem = s.mem := by
  unfold State.applyPreemptDeadline
  split <;> simp

theorem nextWf_execPreemptDeadline {ctx : Ctx} {s : State} (w : memWf s.mem = true) : NextWf (execPreemptDeadline ctx s) := by
  unfold execPreemptDeadline
  refine nextWf_act w ?_
  split
  · simp [w]
  · exact w

theorem nextWf_execForcedSaveStart {ctx : Ctx} {s : State} (w : memWf s.mem = true) : NextWf (execForcedSaveStart ctx s) := by
  unfold execForcedSaveStart
  dsimp only
  refine nextWf_act w ?_
  split
  · simp [w]
  · exact w

theorem State.memWf_saveOne {s : State} {q : Preempt} {p : Nat} (w : memWf s.mem = true) :
    memWf (s.saveOne q p).1.mem = true := by
  unfold State.saveOne
  dsimp only
  rw [State.bump_mem, State.setPre_mem]
  exact State.memWf_saveRegion w

theorem nextWf_execForcedRegionSaved {ctx : Ctx} {die : Fin 4} {s : State} (w : memWf s.mem = true) :
    NextWf (execForcedRegionSaved ctx die s) := by
  unfold execForcedRegionSaved
  dsimp only
  refine nextWf_act w ?_
  split
  · split
    · split
      · exact State.memWf_saveOne w
      · exact w
    · exact w
  · exact w

theorem State.flushRegions_mem (l : List Nat) (s : State) :
    (l.foldl (fun s p => (s.emptyRegion p).flushRegion p) s).mem = s.mem := by
  induction l generalizing s with
  | nil => rfl
  | cons p t ih => rw [List.foldl_cons, ih, State.flushRegion_mem, State.emptyRegion_mem]

theorem State.memWf_applyPreemptSaveComplete {ctx : Ctx} {s : State} (w : memWf s.mem = true) :
    memWf (State.applyPreemptSaveComplete ctx s).mem = true := by
  refine State.memWf_of_forall_eq fun u hu => ?_
  unfold State.applyPreemptSaveComplete at hu
  split at hu
  · dsimp only at hu
    split at hu
    · rwa [← hu]
    · rw [← hu, State.sample_mem, State.foldl_mem (fun s x => State.claim_mem _ _ _),
        State.flushRegions_mem, State.setPre_mem]
      split
      · exact w
      · exact State.memWf_foldl_fst (fun s p w => State.memWf_saveOne w) w
  · rwa [← hu]

theorem nextWf_execPreemptSaveComplete {ctx : Ctx} {s : State} (w : memWf s.mem = true) :
    NextWf (execPreemptSaveComplete ctx s) := by
  unfold execPreemptSaveComplete
  refine nextWf_act w ?_
  split
  · simp [w]
  · exact w

@[simp] theorem State.applyPreempted_mem (s : State) (c : Nat) : (s.applyPreempted c).mem = s.mem := by
  unfold State.applyPreempted
  dsimp only
  split <;> simp

@[simp] theorem State.applyClaimExpiry_mem (p : Region) (s : State) :
    (State.applyClaimExpiry p s).mem = s.mem := by simp [State.applyClaimExpiry]

theorem nextWf_execClaimExpiry {p : Region} {s : State} (w : memWf s.mem = true) : NextWf (execClaimExpiry p s) := by
  unfold execClaimExpiry
  refine nextWf_act w ?_
  simp [w]

theorem State.memWf_applyContextResume {ctx : Ctx} {s : State} (w : memWf s.mem = true) :
    memWf (State.applyContextResume ctx s).mem = true := by
  unfold State.applyContextResume
  dsimp only
  split
  · split
    · refine State.memWf_foldl (fun s x w => ?_) ?_
      · exact State.memWf_bindCmd w
      · simp [w]
    · exact w
  · exact w

theorem nextWf_execContextResume {ctx : Ctx} {s : State} (w : memWf s.mem = true) : NextWf (execContextResume ctx s) := by
  unfold execContextResume
  refine nextWf_act w ?_
  simp [w]

@[simp] theorem State.haltLost_mem (s : State) (q : Preempt) : (s.haltLost q).mem = s.mem := by simp [State.haltLost]

theorem State.memWf_applyContextRestoreComplete {ctx : Ctx} {s : State} (w : memWf s.mem = true) :
    memWf (State.applyContextRestoreComplete ctx s).mem = true := by
  unfold State.applyContextRestoreComplete
  dsimp only
  split
  · split
    · rw [State.postCtx_mem, State.showPstate_mem, State.applyStepDeadline_mem, State.deliverHeld_mem]
      rw [State.haltLost_mem, State.bump_mem]
      refine State.memWf_foldl (fun s x w => ?_) ?_
      · exact State.memWf_parkFetchers w
      · simp [w]
    · exact w
  · exact w

theorem nextWf_execContextRestoreComplete {ctx : Ctx} {s : State} (w : memWf s.mem = true) :
    NextWf (execContextRestoreComplete ctx s) := by
  unfold execContextRestoreComplete
  refine nextWf_act w ?_
  split
  · simp [w]
  · exact w

@[simp] theorem State.accountCore_mem (s : State) (k : Nat) : (s.accountCore k).mem = s.mem := by simp [State.accountCore]

theorem nextWf_execAccountingTick {s : State} (w : memWf s.mem = true) : NextWf (execAccountingTick s) := by
  unfold execAccountingTick
  dsimp only
  refine nextWf_act w ?_
  simp [w]

/-! ## Machine/Tier -/

theorem State.memWf_writeBack {s : State} {i : Nat} (w : memWf s.mem = true) : memWf (s.writeBack i).1.mem = true := by
  obtain ⟨copy, hc, wc⟩ : ∃ x, x = @State.copy ∧ ∀ s a b n, memWf s.mem = true → memWf (x s a b n).mem = true :=
    ⟨_, rfl, fun s a b n => State.memWf_copy a b n⟩
  obtain ⟨count, hn, wn⟩ : ∃ x, x = @State.countHbm ∧ ∀ s r a n, (x s r a n).mem = s.mem := ⟨_, rfl, State.countHbm_mem⟩
  obtain ⟨put, hp, wp⟩ : ∃ x, x = @State.put ∧ ∀ s f i v, (x s f i v).mem = s.mem := ⟨_, rfl, State.put_mem⟩
  obtain ⟨badIn, hb⟩ : ∃ x, x = @State.badIn := ⟨_, rfl⟩
  unfold State.writeBack
  rw [← hc, ← hb, ← hn, ← hp]
  refine State.memWf_foldl_fst (fun x b w => ?_) w
  dsimp only
  split
  · rw [State.detectIn_mem, wn]
    exact w
  · rw [wp]
    refine State.memWf_foldl (fun s c w => wc _ _ _ _ w) ?_
    rw [wn]
    exact w

@[simp] theorem State.fillSlot_mem (s : State) (i pg : Nat) :
    (s.fillSlot i pg).mem = s.mem := by simp -implicitDefEqProofs [State.fillSlot]

@[simp] theorem State.setMove_mem (s : State) (m : Move) (f : Move → Move) :
    (s.setMove m f).mem = s.mem := by simp [State.setMove]

@[simp] theorem State.dropMove_mem (s : State) (m : Move) : (s.dropMove m).mem = s.mem := by simp [State.dropMove]

theorem State.memWf_endWriteBack {s : State} {m : Move} (w : memWf s.mem = true) : memWf (s.endWriteBack m).mem = true := by
  unfold State.endWriteBack
  dsimp only
  refine State.memWf_endHeld ?_
  rw [State.endTier_mem]
  split <;> simp [w]

theorem State.memWf_startMove {s : State} {m : Move} (w : memWf s.mem = true) : memWf (s.startMove m).mem = true := by
  unfold State.startMove
  dsimp only
  split
  · simp -implicitDefEqProofs [w]
  · split
    · refine State.memWf_endHeld ?_
      simp -implicitDefEqProofs [w]
    · split
      · split
        · refine State.memWf_endWriteBack ?_
          simp -implicitDefEqProofs [w]
        · simp -implicitDefEqProofs [w]
      · split
        · split
          · refine State.memWf_endWriteBack ?_
            rw [State.setMove_mem]
            refine State.memWf_writeBack ?_
            simp -implicitDefEqProofs [w]
          · rw [State.setMove_mem]
            refine State.memWf_writeBack ?_
            simp -implicitDefEqProofs [w]
        · split
          · refine State.memWf_endWriteBack ?_
            rw [State.setMove_mem]
            exact State.memWf_writeBack w
          · rw [State.setMove_mem]
            exact State.memWf_writeBack w

theorem State.memWf_startMoves {n : Nat} {s : State} (w : memWf s.mem = true) : memWf (State.startMoves n s).mem = true := by
  induction n generalizing s with
  | zero => exact w
  | succ f ih =>
    unfold State.startMoves
    split
    · exact ih (State.memWf_startMove w)
    · exact w

theorem State.memWf_runMoves {s : State} (w : memWf s.mem = true) : memWf (s.runMoves).mem = true := by
  unfold State.runMoves
  exact State.memWf_startMoves w

@[simp] theorem State.addMove_mem (s : State) (m : Move) : (s.addMove m).mem = s.mem := by simp [State.addMove]

@[simp] theorem State.freeSlot_mem (s : State) (i : Nat) : (s.freeSlot i).mem = s.mem := by simp [State.freeSlot]

theorem State.memWf_tierLoad {s : State} {iss : Issuer} {op pg c : Nat} (w : memWf s.mem = true) :
    memWf (s.tierLoad iss op pg c).mem = true := by
  unfold State.tierLoad
  dsimp only
  split
  · simp -implicitDefEqProofs [w]
  · split
    · simp -implicitDefEqProofs [w]
    · split
      · simp -implicitDefEqProofs [w]
      · split
        · simp -implicitDefEqProofs [w]
        · refine State.memWf_runMoves ?_
          simp -implicitDefEqProofs [w]

theorem State.memWf_tierEvict {s : State} {iss : Issuer} {pg : Nat} (w : memWf s.mem = true) :
    memWf (s.tierEvict iss pg).mem = true := by
  unfold State.tierEvict
  split
  · simp -implicitDefEqProofs [w]
  · split
    · simp -implicitDefEqProofs [w]
    · split
      · simp -implicitDefEqProofs [w]
      · split
        · simp -implicitDefEqProofs [w]
        · split
          · simp -implicitDefEqProofs [w]
          · refine State.memWf_runMoves ?_
            simp -implicitDefEqProofs [w]

theorem State.memWf_tierFlush {s : State} {iss : Issuer} {pg : Nat} (w : memWf s.mem = true) :
    memWf (s.tierFlush iss pg).mem = true := by
  unfold State.tierFlush
  split
  · simp [w]
  · split
    · simp [w]
    · refine State.memWf_runMoves ?_
      simp [w]

@[simp] theorem State.tierUnpin_mem (s : State) (iss : Issuer) (pg : Nat) :
    (s.tierUnpin iss pg).mem = s.mem := by simp -implicitDefEqProofs [State.tierUnpin]

@[simp] theorem State.tierCmd_mem {f : State → Nat → State} (s : State) (iss : Issuer) (pg : Nat) (h : ∀ s c, (f s c).mem = s.mem)
    :
    (s.tierCmd iss pg f).mem = s.mem := by
  obtain ⟨owner, ho⟩ : ∃ x, x = @State.tierCtx := ⟨_, rfl⟩
  unfold State.tierCmd
  rw [← ho]
  dsimp only
  split
  · split
    · exact State.endTier_mem ..
    · split
      · split
        · exact h _ _
        · exact State.endTier_mem ..
      · exact State.endTier_mem ..
  · split
    · split
      · exact (h _ _).trans (State.began_mem ..)
      · exact (State.endTier_mem ..).trans (State.began_mem ..)
    · exact (State.endTier_mem ..).trans (State.began_mem ..)

theorem State.memWf_tierCmd {s : State} {iss : Issuer} {pg : Nat} {f : State → Nat → State}
    (h : ∀ s c,
      memWf s.mem = true → memWf (f s c).mem = true) (w : memWf s.mem = true) : memWf (s.tierCmd iss pg f).mem = true := by
  obtain ⟨owner, ho⟩ : ∃ x, x = @State.tierCtx := ⟨_, rfl⟩
  have he : ∀ (t : State) l st, memWf t.mem = true → memWf (t.endTier l st).mem = true := by
    intro t l st wt
    rwa [State.endTier_mem]
  have hb : memWf (s.began iss 0x0B).mem = true := by rwa [State.began_mem]
  unfold State.tierCmd
  rw [← ho]
  dsimp only
  split
  · split
    · exact he _ _ _ w
    · split
      · split
        · exact h _ _ w
        · exact he _ _ _ w
      · exact he _ _ _ w
  · split
    · split
      · exact h _ _ hb
      · exact he _ _ _ hb
    · exact he _ _ _ hb

theorem State.memWf_applyTierLoad {iss : Issuer} {page : Nat} {s : State} (w : memWf s.mem = true) :
    memWf (State.applyTierLoad iss page s).mem = true := by
  unfold State.applyTierLoad
  refine State.memWf_tierCmd ?_ ?_
  · intro s c w
    exact State.memWf_tierLoad w
  · exact w

theorem State.memWf_applyTierLoadPin {iss : Issuer} {page : Nat} {s : State} (w : memWf s.mem = true) :
    memWf (State.applyTierLoadPin iss page s).mem = true := by
  unfold State.applyTierLoadPin
  refine State.memWf_tierCmd ?_ ?_
  · intro s c w
    exact State.memWf_tierLoad w
  · exact w

@[simp] theorem State.applyTierUnpin_mem (iss : Issuer) (page : Nat) (s : State) :
    (State.applyTierUnpin iss page s).mem = s.mem := by simp [State.applyTierUnpin]

theorem State.memWf_applyTierEvict {iss : Issuer} {page : Nat} {s : State} (w : memWf s.mem = true) :
    memWf (State.applyTierEvict iss page s).mem = true := by
  unfold State.applyTierEvict
  refine State.memWf_tierCmd ?_ ?_
  · intro s c w
    exact State.memWf_tierEvict w
  · exact w

theorem State.memWf_applyTierFlush {iss : Issuer} {page : Nat} {s : State} (w : memWf s.mem = true) :
    memWf (State.applyTierFlush iss page s).mem = true := by
  unfold State.applyTierFlush
  refine State.memWf_tierCmd ?_ ?_
  · intro s c w
    exact State.memWf_tierFlush w
  · exact w

@[simp] theorem State.tierSample_mem (s : State) (iss : Issuer) (c : Instr) : (s.tierSample iss c).mem = s.mem := by
  unfold State.tierSample
  split <;> simp

theorem nextWf_execTierLoad {iss : Issuer} {page : Fin 4194304} {s : State} (w : memWf s.mem = true) :
    NextWf (execTierLoad iss page s) := by
  unfold execTierLoad
  refine nextWf_act w ?_
  simp [w]

theorem nextWf_execTierLoadPin {iss : Issuer} {page : Fin 4194304} {s : State} (w : memWf s.mem = true) :
    NextWf (execTierLoadPin iss page s) := by
  unfold execTierLoadPin
  refine nextWf_act w ?_
  simp [w]

theorem nextWf_execTierUnpin {iss : Issuer} {page : Fin 4194304} {s : State} (w : memWf s.mem = true) :
    NextWf (execTierUnpin iss page s) := by
  unfold execTierUnpin
  refine nextWf_act w ?_
  simp [w]

theorem nextWf_execTierEvict {iss : Issuer} {page : Fin 4194304} {s : State} (w : memWf s.mem = true) :
    NextWf (execTierEvict iss page s) := by
  unfold execTierEvict
  refine nextWf_act w ?_
  simp [w]

theorem nextWf_execTierFlush {iss : Issuer} {page : Fin 4194304} {s : State} (w : memWf s.mem = true) :
    NextWf (execTierFlush iss page s) := by
  unfold execTierFlush
  refine nextWf_act w ?_
  simp [w]

theorem State.bumpTierBytes_mem (s : State) (o : Option Nat) (n : Nat) :
    (match o with | some c => s.bump .CTX_ACC_TIER_BYTES c n | none => s).mem = s.mem := by
  cases o with
  | none => rfl
  | some c => exact State.bump_mem _ _ _ _

theorem nextWf_execTierFillComplete {page : Fin 4194304} {poison : Bool} {hold : Nat} {s : State} (w : memWf s.mem = true) :
    NextWf (execTierFillComplete page poison hold s) := by
  unfold execTierFillComplete
  refine nextWf_act w (State.memWf_of_forall_eq fun u hu => ?_)
  split at hu
  · extract_lets o bad s₁ s₂ s₃ s₄ s₅ s₆ at hu
    have h₁ : memWf s₁.mem = true := State.memWf_of_mem (by rw [State.bump_mem, State.dropMove_mem]) w
    clear_value s₁
    have h₂ : memWf s₂.mem = true := State.memWf_foldl (fun s c w => State.memWf_copy _ _ _ w) h₁
    have h₃ : s₃.mem = s₂.mem := by rw [State.bump_mem, State.bump_mem, State.countHbm_mem]
    clear_value s₃
    have h₄ : s₄.mem = s₃.mem := State.bumpTierBytes_mem _ _ _
    clear_value s₄
    have h₅ : memWf s₅.mem = true := State.memWf_of_mem ((State.put_mem _ _ _ _).trans (h₄.trans h₃)) h₂
    clear_value s₅
    rw [← hu]
    refine State.memWf_runMoves (State.memWf_serveHeld ?_)
    dsimp only [s₆]
    split
    · rw [State.endTier_mem, State.emptySlot_mem, State.bump_mem]
      exact h₁
    · rw [State.endTier_mem, State.ite_mem, State.put_mem, ite_self]
      exact h₅
  · rw [← hu]
    exact w

theorem nextWf_execTierWritebackComplete {page : Fin 4194304} {hold : Nat} {s : State} (w : memWf s.mem = true) :
    NextWf (execTierWritebackComplete page hold s) := by
  unfold execTierWritebackComplete
  refine nextWf_act w ?_
  split
  · split
    · refine State.memWf_runMoves ?_
      refine State.memWf_endWriteBack ?_
      simp [w]
    · exact w
  · exact w

theorem nextWf_execCxlAccess {req : Requester} {addr len : Nat} {data : Option (List Byte)} {poison : Bool} {s : State}
    (w : memWf s.mem = true) : NextWf (execCxlAccess req addr len data poison s) := by
  unfold execCxlAccess
  exact nextWf_act w (State.memWf_access w)

theorem nextWf_execSlotAgeAdvance {s : State} (w : memWf s.mem = true) : NextWf (execSlotAgeAdvance s) := by
  unfold execSlotAgeAdvance
  refine nextWf_act w ?_
  simp -implicitDefEqProofs [w]

@[simp] theorem State.applyTirPoolWrite_mem (count : Bool) (value : Word) (s : State) :
    (State.applyTirPoolWrite count value s).mem = s.mem := by simp -implicitDefEqProofs [State.applyTirPoolWrite]

theorem nextWf_execTirPoolWrite {fn : Func} {count : Bool} {value : Word} {s : State} (w : memWf s.mem = true) :
    NextWf (execTirPoolWrite fn count value s) := by
  unfold execTirPoolWrite
  refine nextWf_act w ?_
  simp [w]

@[simp] theorem State.showSlotOwners_mem (s : State) :
    (s.showSlotOwners).mem = s.mem := by simp -implicitDefEqProofs [State.showSlotOwners]

@[simp] theorem State.trainCxl_mem (s : State) (k rate width : Nat) (cxl2 : Bool) (cap : Nat) :
    (s.trainCxl k rate width cxl2 cap).mem = s.mem := by simp -implicitDefEqProofs [State.trainCxl]

@[simp] theorem State.sampleCxl_mem (s : State) (k : Nat) (c : Instr) : (s.sampleCxl k c).mem = s.mem := by simp [State.sampleCxl]

@[simp] theorem State.applyCxlPortEnumerate_mem (port : Fin 2) (rate : Fin 4) (width : Nat) (cxl2 : Bool) (capGib : Nat)
    (s : State) : (State.applyCxlPortEnumerate port rate width cxl2 capGib s).mem = s.mem := by simp [State.applyCxlPortEnumerate]

theorem nextWf_execCxlPortEnumerate {port : Fin 2} {rate : Fin 4} {width : Nat} {cxl2 : Bool} {capGib : Nat} {s : State}
    (w : memWf s.mem = true) : NextWf (execCxlPortEnumerate port rate width cxl2 capGib s) := by
  unfold execCxlPortEnumerate
  refine nextWf_act w ?_
  simp [w]

theorem State.memWf_cxlDown {s : State} {k : Nat} (w : memWf s.mem = true) : memWf (s.cxlDown k).mem = true := by
  unfold State.cxlDown
  dsimp only
  split
  · refine State.memWf_foldl (fun s x w => ?_) ?_
    · refine State.memWf_endHeld ?_
      simp [w]
    · exact w
  · exact w

theorem State.memWf_applyCxlPortDown {port : Fin 2} {s : State} (w : memWf s.mem = true) :
    memWf (State.applyCxlPortDown port s).mem = true := by
  unfold State.applyCxlPortDown
  exact State.memWf_cxlDown w

theorem nextWf_execCxlPortDown {port : Fin 2} {s : State} (w : memWf s.mem = true) : NextWf (execCxlPortDown port s) := by
  unfold execCxlPortDown
  refine nextWf_act w ?_
  simp [w]

theorem State.memWf_applyCxlPortUp {port : Fin 2} {s : State} (w : memWf s.mem = true) :
    memWf (State.applyCxlPortUp port s).mem = true := by
  unfold State.applyCxlPortUp
  dsimp only
  split
  · refine State.memWf_runMoves ?_
    refine State.memWf_foldl (fun s x w => ?_) ?_
    · exact State.memWf_endHeld w
    · simp [w]
  · exact w

theorem nextWf_execCxlPortUp {port : Fin 2} {s : State} (w : memWf s.mem = true) : NextWf (execCxlPortUp port s) := by
  unfold execCxlPortUp
  refine nextWf_act w ?_
  simp [w]

@[simp] theorem State.applyCxlRetrain_mem (k rate width : Nat) (cxl2 : Bool) (capGib : Nat) (s : State) :
    (State.applyCxlRetrain k rate width cxl2 capGib s).mem = s.mem := by simp [State.applyCxlRetrain]

theorem nextWf_execCxlRetrain {fn : Func} {port : Fin 2} {rate : Fin 4} {width : Nat} {cxl2 : Bool} {capGib : Nat} {s : State}
    (w : memWf s.mem = true) : NextWf (execCxlRetrain fn port rate width cxl2 capGib s) := by
  unfold execCxlRetrain
  refine nextWf_act w ?_
  simp [w]

theorem nextWf_execCxlConfigAccess {fn : Func} {port : Fin 2} {offset : Fin 4096} {write : Option Word} {decoder : Bool}
    {value : Word} {s : State} (w : memWf s.mem = true) : NextWf (execCxlConfigAccess fn port offset write decoder value s) := by
  unfold execCxlConfigAccess
  refine nextWf_act w ?_
  rw [State.pfWrite_mem]
  · exact w
  · split <;> simp

/-! ## Machine/Fences -/

@[simp] theorem State.fenceBit_mem (s : State) (p : Nat) : (s.fenceBit p).mem = s.mem := by simp [State.fenceBit]

@[simp] theorem State.fenceHalt_mem (s : State) (p : Nat) : (s.fenceHalt p).mem = s.mem := by simp [State.fenceHalt]

@[simp] theorem State.dieHealth_mem (s : State) : (s.dieHealth).mem = s.mem := by
  unfold State.dieHealth
  split <;> simp

@[simp] theorem State.abandonUnfit_mem (s : State) : (s.abandonUnfit).mem = s.mem := by
  unfold State.abandonUnfit
  dsimp only
  refine (State.foldl_mem (fun s x => ?_) _ _).trans ?_
  · split <;> simp
  · simp

@[simp] theorem State.loseSaving_mem (s : State) (k : Nat) : (s.loseSaving k).mem = s.mem := by simp [State.loseSaving]

@[simp] theorem State.discardCore_mem (s : State) (k : Nat) (load : Bool) :
    (s.discardCore k load).mem = s.mem := by simp [State.discardCore]

@[simp] theorem State.discardCores_mem (s : State) (cl : Nat) : (s.discardCores cl).mem = s.mem := by simp [State.discardCores]

@[simp] theorem State.rename_mem (s : State) (cl l : Nat) (load : Bool) : (s.rename cl l load).mem = s.mem := by
  unfold State.rename
  dsimp only
  split <;> simp

@[simp] theorem State.fenceCore_mem (s : State) (u cause : Nat) : (s.fenceCore u cause).mem = s.mem := by
  unfold State.fenceCore
  dsimp only
  split
  · simp
  · rw [State.abandonUnfit_mem]
    split
    · simp
    · split <;> simp

@[simp] theorem State.loseFlying_mem (s : State) (cl : Nat) : (s.loseFlying cl).mem = s.mem := by
  unfold State.loseFlying
  dsimp only
  refine (State.foldl_mem (fun s x => ?_) _ _).trans ?_
  · split
    · split <;> simp
    · simp
  · simp

@[simp] theorem State.clearRouter_mem (s : State) (cl : Nat) : (s.clearRouter cl).mem = s.mem := by simp [State.clearRouter]

@[simp] theorem State.fenceRouter_mem (s : State) (cl cause : Nat) :
    (s.fenceRouter cl cause).mem = s.mem := by simp [State.fenceRouter]

@[simp] theorem State.hostLinkDown_mem (s : State) : (s.hostLinkDown).mem = s.mem := by simp [State.hostLinkDown]

theorem State.memWf_sideDown {s : State} {side : Nat} (w : memWf s.mem = true) : memWf (s.sideDown side).mem = true := by
  unfold State.sideDown
  dsimp only
  refine State.memWf_cxlDown ?_
  simp [w]

@[simp] theorem State.fenceDieCores_mem (s : State) (d : Nat) :
    (s.fenceDieCores d).mem = s.mem := by simp -implicitDefEqProofs [State.fenceDieCores]

@[simp] theorem State.loseDieCore_mem (s : State) (d : Nat) : (s.loseDieCore d).mem = s.mem := by simp [State.loseDieCore]

@[simp] theorem State.loseHerding_mem (s : State) (d : Nat) : (s.loseHerding d).mem = s.mem := by simp [State.loseHerding]

theorem State.memWf_loseDieBase {s : State} {d : Nat} (w : memWf s.mem = true) : memWf (s.loseDieBase d).mem = true := by
  simp only [State.loseDieBase]
  rw [State.loseHerding_mem]
  refine State.memWf_foldl (fun s k w => State.memWf_fenceStack w) ?_
  rw [State.foldl_mem (fun s c => State.fenceRouter_mem _ _ _), State.fenceDieCores_mem, State.dieHealth_mem,
    State.recordFault_mem]
  exact w

@[simp] theorem State.dropRegion_mem (s : State) (p : Nat) :
    (s.dropRegion p).mem = s.mem := by simp -implicitDefEqProofs [State.dropRegion]

theorem State.memWf_trip {s : State} {therm : Bool} (w : memWf s.mem = true) : memWf (s.trip therm).mem = true := by
  unfold State.trip
  dsimp only
  refine State.memWf_cxlDown ?_
  refine State.memWf_cxlDown ?_
  simp [w]

@[simp] theorem State.endFlt_mem (s : State) (status : Nat) : (s.endFlt status).mem = s.mem := by simp [State.endFlt]

@[simp] theorem State.showTesting_mem (s : State) :
    (s.showTesting).mem = s.mem := by simp -implicitDefEqProofs [State.showTesting]

@[simp] theorem State.beginTest_mem (s : State) (kind index : Nat) :
    (s.beginTest kind index).mem = s.mem := by simp [State.beginTest]

theorem State.memWf_fenceUnit {s : State} {kind index cause : Nat} (w : memWf s.mem = true) :
    memWf (s.fenceUnit kind index cause).mem = true := by
  unfold State.fenceUnit
  dsimp only
  split
  · simp [w]
  · simp [w]
  · exact State.memWf_retirePage w
  · exact State.memWf_fenceStack w
  · simp [w]
  · exact State.memWf_loseDieBase w
  · simp [w]
  · simp [w]

theorem State.memWf_applyUnit {s : State} {kind index cause : Nat} (w : memWf s.mem = true) :
    memWf (s.applyUnit kind index cause).mem = true := by
  unfold State.applyUnit
  dsimp only
  split
  · exact w
  · split
    · exact State.memWf_applyDetection w
    · simp [w]
    · simp [w]
    · split
      · simp [w]
      · split
        · simp [w]
        · split
          · rw [State.beginTest_mem]
            refine State.memWf_fenceUnit ?_
            simp [w]
          · refine State.memWf_fenceUnit ?_
            simp [w]

@[simp] theorem State.sampleUnit_mem (s : State) (kind index : Nat) (e : EvKind) :
    (s.sampleUnit kind index e).mem = s.mem := by simp [State.sampleUnit]

theorem nextWf_execFaultReport {kind : Fin 8} {index : Nat} {cause : Fin 16} {s : State} (w : memWf s.mem = true) :
    NextWf (execFaultReport kind index cause s) := by
  unfold execFaultReport
  refine nextWf_act w ?_
  simp [w]

@[simp] theorem State.liftUnit_mem (s : State) (kind index : Nat) : (s.liftUnit kind index).mem = s.mem := by
  unfold State.liftUnit
  dsimp only
  split <;> simp

theorem State.memWf_applySelfTestComplete {kind : Fin 8} {index : Nat} {pass : Bool} {s : State} (w : memWf s.mem = true) :
    memWf (State.applySelfTestComplete kind index pass s).mem = true := by
  unfold State.applySelfTestComplete
  dsimp only
  split
  · exact w
  · split
    · split
      · split
        · simp [w]
        · refine State.memWf_fenceUnit ?_
          simp [w]
      · split
        · simp [w]
        · refine State.memWf_fenceUnit ?_
          simp [w]
    · simp [w]

theorem nextWf_execSelfTestComplete {kind : Fin 8} {index : Nat} {pass : Bool} {s : State} (w : memWf s.mem = true) :
    NextWf (execSelfTestComplete kind index pass s) := by
  unfold execSelfTestComplete
  refine nextWf_act w ?_
  simp [w]

@[simp] theorem State.applyFenceLift_mem (kind : Fin 8) (index : Nat) (s : State) :
    (State.applyFenceLift kind index s).mem = s.mem := by simp [State.applyFenceLift]

theorem nextWf_execFenceLift {kind : Fin 8} {index : Nat} {s : State} (w : memWf s.mem = true) :
    NextWf (execFenceLift kind index s) := by
  unfold execFenceLift
  refine nextWf_act w ?_
  simp [w]

@[simp] theorem State.fltCommand_mem (s : State) (fn : Func) (cmd : Instr) :
    (s.fltCommand fn cmd).mem = s.mem := by simp [State.fltCommand]

@[simp] theorem State.fltCmd_mem {s : State} {f : State → State} (kind index : Nat) (h : (f s).mem = s.mem) :
    (s.fltCmd kind index f).mem = s.mem := by
  simp [State.fltCmd, h]

theorem State.memWf_applySoftwareFence {kind : Fin 16} {index : Fin 16777216} {s : State} (w : memWf s.mem = true) :
    memWf (State.applySoftwareFence kind index s).mem = true := by
  unfold State.applySoftwareFence State.fltCmd
  split
  · rw [State.endFlt_mem]
    exact w
  · split
    · rw [State.endFlt_mem]
      exact w
    · rw [State.endFlt_mem]
      exact State.memWf_fenceUnit w

theorem nextWf_execSoftwareFence {fn : Func} {kind : Fin 16} {index : Fin 16777216} {s : State} (w : memWf s.mem = true) :
    NextWf (execSoftwareFence fn kind index s) := by
  unfold execSoftwareFence
  refine nextWf_act w ?_
  simp [w]

@[simp] theorem State.applyRetest_mem (kind : Fin 16) (index : Fin 16777216) (s : State) :
    (State.applyRetest kind index s).mem = s.mem := by simp [State.applyRetest]

theorem nextWf_execRetest {fn : Func} {kind : Fin 16} {index : Fin 16777216} {s : State} (w : memWf s.mem = true) :
    NextWf (execRetest fn kind index s) := by
  unfold execRetest
  refine nextWf_act w ?_
  simp [w]

@[simp] theorem State.showLog_mem (s : State) : (s.showLog).mem = s.mem := by simp [State.showLog]

theorem nextWf_execFaultHistoryWrite {s : State} (w : memWf s.mem = true) : NextWf (execFaultHistoryWrite s) := by
  unfold execFaultHistoryWrite
  dsimp only
  refine nextWf_act w ?_
  split
  · simp -implicitDefEqProofs [w]
  · exact w

theorem nextWf_execFaultLogCompact {s : State} (w : memWf s.mem = true) : NextWf (execFaultLogCompact s) := by
  unfold execFaultLogCompact
  dsimp only
  refine nextWf_act w ?_
  simp -implicitDefEqProofs [w]

theorem nextWf_execServiceHour {s : State} (w : memWf s.mem = true) : NextWf (execServiceHour s) := by
  unfold execServiceHour
  dsimp only
  exact nextWf_act w w

/-! ## Machine/Stretch -/

@[simp] theorem State.showLevel_mem (s : State) (p : Nat) : (s.showLevel p).mem = s.mem := by simp [State.showLevel]

@[simp] theorem State.setLevel_mem (s : State) (f : Fld) (p v : Nat) : (s.setLevel f p v).mem = s.mem := by simp [State.setLevel]

@[simp] theorem State.putFlag_mem (s : State) (f : Fld) (b : Bool) : (s.putFlag f b).mem = s.mem := by simp [State.putFlag]

@[simp] theorem State.showThrottle_mem (s : State) : (s.showThrottle).mem = s.mem := by simp [State.showThrottle]

@[simp] theorem State.sagFall_mem (s : State) (p v : Nat) : (s.sagFall p v).mem = s.mem := by simp [State.sagFall]

theorem nextWf_execSagSensorLow {p : Region} {deep : Bool} {s : State} (w : memWf s.mem = true) :
    NextWf (execSagSensorLow p deep s) := by
  unfold execSagSensorLow
  refine nextWf_act w ?_
  simp [w]

theorem nextWf_execSagLevelRise {p : Region} {s : State} (w : memWf s.mem = true) : NextWf (execSagLevelRise p s) := by
  unfold execSagLevelRise
  dsimp only
  refine nextWf_act w ?_
  simp [w]

theorem nextWf_execSagInFall {s : State} (w : memWf s.mem = true) : NextWf (execSagInFall s) := by
  unfold execSagInFall
  dsimp only
  refine nextWf_act w ?_
  simp [w]

@[simp] theorem State.latchLimits_mem (s : State) : (s.latchLimits).mem = s.mem := by simp [State.latchLimits]

theorem nextWf_execSagInRise {s : State} (w : memWf s.mem = true) : NextWf (execSagInRise s) := by
  unfold execSagInRise
  exact nextWf_act w w

theorem nextWf_execPeakPower {s : State} (w : memWf s.mem = true) : NextWf (execPeakPower s) := by
  unfold execPeakPower
  dsimp only
  refine nextWf_act w ?_
  simp [w]

theorem nextWf_execPeakRecovery {s : State} (w : memWf s.mem = true) : NextWf (execPeakRecovery s) := by
  unfold execPeakRecovery
  refine nextWf_act w ?_
  simp [w]

theorem nextWf_execPowerTargetCompare {mean : Nat} {s : State} (w : memWf s.mem = true) :
    NextWf (execPowerTargetCompare mean s) := by
  unfold execPowerTargetCompare
  dsimp only
  refine nextWf_act w ?_
  simp -implicitDefEqProofs [w]

@[simp] theorem State.thermalStep_mem (s : State) (d : Nat) (t target : ℤ) :
    (s.thermalStep d t target).mem = s.mem := by simp [State.thermalStep]

theorem nextWf_execThermalLevelUpdate {temps : List Byte} {s : State} (w : memWf s.mem = true) :
    NextWf (execThermalLevelUpdate temps s) := by
  unfold execThermalLevelUpdate
  dsimp only
  refine nextWf_act w ?_
  simp -implicitDefEqProofs [w]

theorem nextWf_execEnergyTick {rails core base : List Nat} {s : State} (w : memWf s.mem = true) :
    NextWf (execEnergyTick rails core base s) := by
  unfold execEnergyTick
  dsimp only
  refine nextWf_act w ?_
  simp [w]

@[simp] theorem State.countLevels_mem (s : State) : (s.countLevels).mem = s.mem := by simp [State.countLevels]

/-! ## Machine/Management -/

@[simp] theorem State.setSlot_mem (s : State) (h v : Nat) : (s.setSlot h v).mem = s.mem := by simp [State.setSlot]

@[simp] theorem State.writeSlot_mem (s : State) (h v : Nat) (img : List Byte) :
    (s.writeSlot h v img).mem = s.mem := by simp [State.writeSlot]

@[simp] theorem State.claimLease_mem (s : State) (h : Nat) (t : Word) (cyc : Nat) :
    (s.claimLease h t cyc).mem = s.mem := by simp [State.claimLease]

theorem nextWf_execLeaseClaim {half : Fin 2} {term : Word} {cyc : Fin 16} {s : State} (w : memWf s.mem = true) :
    NextWf (execLeaseClaim half term cyc s) := by
  unfold execLeaseClaim
  refine nextWf_act w ?_
  simp [w]

theorem nextWf_execLeaseRenew {half : Fin 2} {term : Word} {cyc : Fin 16} {s : State} (w : memWf s.mem = true) :
    NextWf (execLeaseRenew half term cyc s) := by
  unfold execLeaseRenew
  dsimp only
  refine nextWf_act w ?_
  simp [w]

@[simp] theorem State.stepDown_mem (s : State) : (s.stepDown).mem = s.mem := by simp [State.stepDown]

@[simp] theorem State.releaseLease_mem (s : State) (h : Nat) : (s.releaseLease h).mem = s.mem := by simp [State.releaseLease]

theorem nextWf_execLeaseRelease {half : Fin 2} {s : State} (w : memWf s.mem = true) : NextWf (execLeaseRelease half s) := by
  unfold execLeaseRelease
  refine nextWf_act w ?_
  simp [w]

theorem nextWf_execLeaseRenewTimer {cyc : Fin 16} {s : State} (w : memWf s.mem = true) : NextWf (execLeaseRenewTimer cyc s) := by
  unfold execLeaseRenewTimer
  dsimp only
  refine nextWf_act w ?_
  simp [w]

theorem nextWf_execLeadExpiry {s : State} (w : memWf s.mem = true) : NextWf (execLeadExpiry s) := by
  unfold execLeadExpiry
  refine nextWf_act w ?_
  simp [w]

theorem nextWf_execLeasePoll {half : Fin 2} {cyc : Fin 16} {s : State} (w : memWf s.mem = true) :
    NextWf (execLeasePoll half cyc s) := by
  unfold execLeasePoll
  refine nextWf_act w ?_
  simp [w]

@[simp] theorem State.takeMirror_mem (s : State) : (s.takeMirror).mem = s.mem := by simp [State.takeMirror]

@[simp] theorem State.applyLeadChange_mem (s : State) (h : Nat) :
    (s.applyLeadChange h).mem = s.mem := by simp -implicitDefEqProofs [State.applyLeadChange]

theorem nextWf_execLeadChange {half : Fin 2} {s : State} (w : memWf s.mem = true) : NextWf (execLeadChange half s) := by
  unfold execLeadChange
  refine nextWf_act w ?_
  simp [w]

@[simp] theorem State.endFw_mem (s : State) (status : Nat) : (s.endFw status).mem = s.mem := by simp [State.endFw]

@[simp] theorem State.restartHalf_mem (s : State) (h : Nat) : (s.restartHalf h).mem = s.mem := by simp [State.restartHalf]

@[simp] theorem State.fallBack_mem (s : State) (h v : Nat) :
    (s.fallBack h v).mem = s.mem := by simp -implicitDefEqProofs [State.fallBack]

@[simp] theorem State.applyMgmtFault_mem (s : State) (h : Nat) : (s.applyMgmtFault h).mem = s.mem := by
  unfold State.applyMgmtFault
  dsimp only
  split <;> simp

theorem nextWf_execMgmtFault {half : Fin 2} {s : State} (w : memWf s.mem = true) : NextWf (execMgmtFault half s) := by
  unfold execMgmtFault
  refine nextWf_act w ?_
  simp [w]

theorem nextWf_execMgmtWatchdogExpiry {half : Fin 2} {s : State} (w : memWf s.mem = true) :
    NextWf (execMgmtWatchdogExpiry half s) := by
  unfold execMgmtWatchdogExpiry
  refine nextWf_act w ?_
  simp [w]

theorem nextWf_execHalfReady {half : Fin 2} {s : State} (w : memWf s.mem = true) : NextWf (execHalfReady half s) := by
  unfold execHalfReady
  dsimp only
  refine nextWf_act w ?_
  split
  · exact w
  · split
    · simp [w]
    · exact w

@[simp] theorem State.applyNoLeadTimeout_mem (s : State) :
    (s.applyNoLeadTimeout).mem = s.mem := by simp [State.applyNoLeadTimeout]

theorem nextWf_execNoLeadTimeout {s : State} (w : memWf s.mem = true) : NextWf (execNoLeadTimeout s) := by
  unfold execNoLeadTimeout
  refine nextWf_act w ?_
  simp [w]

theorem nextWf_execStartupLeadTimeout {s : State} (w : memWf s.mem = true) : NextWf (execStartupLeadTimeout s) := by
  unfold execStartupLeadTimeout
  dsimp only
  refine nextWf_act w ?_
  simp [w]

@[simp] theorem State.beginUpdate_mem (s : State) (mctp offline : Bool) (img : List Byte) :
    (s.beginUpdate mctp offline img).mem = s.mem := by simp [State.beginUpdate]

@[simp] theorem State.fwCommand_mem (s : State) (fn : Func) (cmd : Instr) :
    (s.fwCommand fn cmd).mem = s.mem := by simp [State.fwCommand]

@[simp] theorem State.applyFwUpdate_mem (fn : Func) (offline : Bool) (s : State) :
    (State.applyFwUpdate fn offline s).mem = s.mem := by
  unfold State.applyFwUpdate
  dsimp only
  split
  · simp
  · split
    · simp
    · split
      · simp
      · split
        · rw [State.beginUpdate_mem]
          rename_i h
          rw [State.mem_of_fst h]
          simp
        · rw [State.endFw_mem]
          rename_i h
          rw [State.mem_of_fst h]
          simp
        · rw [State.sampleRow_mem]
          rename_i h
          rw [State.mem_of_fst h]
          simp

theorem nextWf_execFwUpdate {fn : Func} {offline : Bool} {s : State} (w : memWf s.mem = true) :
    NextWf (execFwUpdate fn offline s) := by
  unfold execFwUpdate
  refine nextWf_act w ?_
  simp [w]

@[simp] theorem State.applyHandover_mem (s : State) : (s.applyHandover).mem = s.mem := by simp [State.applyHandover]

theorem nextWf_execHandover {fn : Func} {s : State} (w : memWf s.mem = true) : NextWf (execHandover fn s) := by
  unfold execHandover
  refine nextWf_act w ?_
  simp [w]

@[simp] theorem State.intoSlot_mem (s : State) (u : FwUpdate) (h : Nat) :
    (s.intoSlot u h).1.mem = s.mem := by simp -implicitDefEqProofs [State.intoSlot]

theorem nextWf_execFwCopyComplete {half : Fin 2} {good : Bool} {s : State} (w : memWf s.mem = true) :
    NextWf (execFwCopyComplete half good s) := by
  unfold execFwCopyComplete
  dsimp only
  refine nextWf_act w ?_
  split
  · simp -implicitDefEqProofs [w]
  · exact w

theorem nextWf_execFwReadyTimeout {half : Fin 2} {s : State} (w : memWf s.mem = true) : NextWf (execFwReadyTimeout half s) := by
  unfold execFwReadyTimeout
  dsimp only
  refine nextWf_act w ?_
  split
  · simp [w]
  · exact w

theorem nextWf_execFwProbationFault {half : Fin 2} {s : State} (w : memWf s.mem = true) :
    NextWf (execFwProbationFault half s) := by
  unfold execFwProbationFault
  refine nextWf_act w ?_
  simp [w]

@[simp] theorem State.applyMctpRequest_mem (body : List Byte) (term : Word) (s : State) :
    (State.applyMctpRequest body term s).mem = s.mem := by simp [State.applyMctpRequest]

theorem nextWf_execMctpRequest {pcie : Bool} {body : List Byte} {term : Word} {update : Bool} {s : State} (w : memWf s.mem = true) :
    NextWf (execMctpRequest pcie body term update s) := by
  unfold execMctpRequest
  refine nextWf_act w ?_
  simp [w]

theorem nextWf_execHbmPhyRecal {stack : Fin 16} {s : State} (w : memWf s.mem = true) : NextWf (execHbmPhyRecal stack s) := by
  unfold execHbmPhyRecal
  dsimp only
  refine nextWf_act w ?_
  simp [w]

theorem nextWf_execHbmPhyRecalComplete {stack : Fin 16} {s : State} (w : memWf s.mem = true) :
    NextWf (execHbmPhyRecalComplete stack s) := by
  unfold execHbmPhyRecalComplete
  dsimp only
  refine nextWf_act w ?_
  split
  · exact State.memWf_servePorts w
  · exact w

theorem nextWf_execFollowerSelfTest {s : State} (w : memWf s.mem = true) : NextWf (execFollowerSelfTest s) := by
  unfold execFollowerSelfTest
  exact nextWf_act w w

/-! ## Machine/Power -/

@[simp] theorem State.senseFuses_mem (s : State) : (s.senseFuses).mem = s.mem := by simp -implicitDefEqProofs [State.senseFuses]

theorem State.memWf_cleared {s : State} {cold : Bool} (w : memWf s.mem = true) : memWf (s.cleared cold).mem = true := by
  unfold State.cleared
  dsimp only
  split
  · exact spWf_filter _ w
  · exact w

theorem State.memWf_coldReset {s : State} (w : memWf s.mem = true) : memWf (s.coldReset).mem = true := by
  unfold State.coldReset
  dsimp only
  rw [State.senseFuses_mem]
  dsimp only
  exact State.memWf_cleared w

theorem State.memWf_packageReset {s : State} (w : memWf s.mem = true) : memWf (s.packageReset).mem = true := by
  unfold State.packageReset
  dsimp only
  rw [State.senseFuses_mem]
  split
  · rw [State.put_mem]
    exact w
  · exact w

theorem nextWf_execPwrokRise {s : State} (w : memWf s.mem = true) : NextWf (execPwrokRise s) := by
  unfold execPwrokRise
  dsimp only
  refine nextWf_next ?_
  simp [w]

theorem nextWf_execPwrokFall {s : State} (w : memWf s.mem = true) : NextWf (execPwrokFall s) := by
  unfold execPwrokFall
  refine nextWf_next ?_
  split
  · exact State.memWf_coldReset w
  · exact w

theorem nextWf_execPerstFall {s : State} (w : memWf s.mem = true) : NextWf (execPerstFall s) := by
  unfold execPerstFall
  dsimp only
  refine nextWf_next ?_
  split
  · exact State.memWf_packageReset w
  · exact w

theorem nextWf_execPerstRise {s : State} (w : memWf s.mem = true) : NextWf (execPerstRise s) := by
  unfold execPerstRise
  dsimp only
  refine nextWf_next ?_
  simp [w]

theorem State.memWf_applyPwrReset {s : State} (w : memWf s.mem = true) : memWf (s.applyPwrReset).mem = true := by
  unfold State.applyPwrReset
  exact State.memWf_packageReset w

theorem nextWf_execPwrReset {fn : Func} {s : State} (w : memWf s.mem = true) : NextWf (execPwrReset fn s) := by
  unfold execPwrReset
  refine nextWf_act w ?_
  simp [w]

@[simp] theorem State.mapCore_mem (s : State) (u : Nat) : (s.mapCore u).mem = s.mem := by
  unfold State.mapCore
  dsimp only
  rw [State.countCluster_mem]
  split
  · simp
  · split
    · split <;> simp
    · simp

@[simp] theorem State.mapRouter_mem (s : State) (cl : Nat) : (s.mapRouter cl).mem = s.mem := by simp [State.mapRouter]

@[simp] theorem State.mapStack_mem (s : State) (k : Nat) : (s.mapStack k).mem = s.mem := by simp [State.mapStack]

@[simp] theorem State.mapUnit_mem (s : State) (kind index : Nat) : (s.mapUnit kind index).mem = s.mem := by
  unfold State.mapUnit
  dsimp only
  split <;> simp

theorem nextWf_execNorLoadComplete {badA badB : List Nat} {s : State} (w : memWf s.mem = true) :
    NextWf (execNorLoadComplete badA badB s) := by
  unfold execNorLoadComplete
  dsimp only
  refine nextWf_act w ?_
  simp [w]

theorem nextWf_execHbmTrainingComplete {s : State} (w : memWf s.mem = true) : NextWf (execHbmTrainingComplete s) := by
  unfold execHbmTrainingComplete
  dsimp only
  exact nextWf_act w w

theorem nextWf_execHalfBootComplete {half : Fin 2} {a b : Bool} {cyc : Fin 16} {s : State} (w : memWf s.mem = true) :
    NextWf (execHalfBootComplete half a b cyc s) := by
  unfold execHalfBootComplete
  dsimp only
  refine nextWf_act w ?_
  simp [w]

@[simp] theorem State.abandonDie_mem (s : State) (d : Nat) : (s.abandonDie d).mem = s.mem := by simp [State.abandonDie]

theorem State.memWf_applyRailTrip {rail : Fin 17} {s : State} (w : memWf s.mem = true) :
    memWf (State.applyRailTrip rail s).mem = true := by
  unfold State.applyRailTrip
  dsimp only
  split
  · exact w
  · split
    · simp [w]
    · split
      · rw [State.abandonDie_mem]
        refine State.memWf_loseDieBase ?_
        simp [w]
      · split
        · rw [State.abandonDie_mem]
          refine State.memWf_foldl (fun s x w => ?_) ?_
          · exact State.memWf_fenceStack w
          · simp [w]
        · split
          · refine State.memWf_trip ?_
            simp [w]
          · split
            · rw [State.hostLinkDown_mem]
              refine State.memWf_sideDown ?_
              simp [w]
            · refine State.memWf_sideDown ?_
              simp [w]

theorem nextWf_execRailTrip {rail : Fin 17} {s : State} (w : memWf s.mem = true) : NextWf (execRailTrip rail s) := by
  unfold execRailTrip
  refine nextWf_act w ?_
  split
  · exact w
  · split
    · exact State.memWf_coldReset w
    · simp [w]

theorem State.memWf_applyThermalTrip {s : State} (w : memWf s.mem = true) : memWf (s.applyThermalTrip).mem = true := by
  unfold State.applyThermalTrip
  exact State.memWf_trip w

theorem nextWf_execThermalTrip {sensor : Fin 20} {reading : Byte} {s : State} (w : memWf s.mem = true) :
    NextWf (execThermalTrip sensor reading s) := by
  unfold execThermalTrip
  refine nextWf_act w ?_
  simp [w]

@[simp] theorem State.fallBackClock_mem (s : State) (c : Nat) : (s.fallBackClock c).mem = s.mem := by simp [State.fallBackClock]

theorem State.memWf_applyRefclkLoss {ref : Fin 4} {s : State} (w : memWf s.mem = true) :
    memWf (State.applyRefclkLoss ref s).mem = true := by
  unfold State.applyRefclkLoss
  dsimp only
  split
  · exact w
  · split
    · rw [State.fallBackClock_mem, State.fallBackClock_mem]
      exact State.memWf_sideDown w
    · simp [w]
    · exact State.memWf_trip w

theorem nextWf_execRefclkLoss {ref : Fin 4} {s : State} (w : memWf s.mem = true) : NextWf (execRefclkLoss ref s) := by
  unfold execRefclkLoss
  refine nextWf_act w ?_
  split
  · simp [w]
  · exact State.memWf_applyRefclkLoss w
  · simp [w]

theorem nextWf_execClockFallbackComplete {clock : Fin 3} {s : State} (w : memWf s.mem = true) :
    NextWf (execClockFallbackComplete clock s) := by
  unfold execClockFallbackComplete
  dsimp only
  refine nextWf_act w ?_
  split
  · split
    · refine State.memWf_servePorts ?_
      simp [w]
    · refine State.memWf_runMoves ?_
      refine State.memWf_foldl (fun s x w => ?_) ?_
      · exact State.memWf_endHeld w
      · simp [w]
    · simp [w]
  · exact w

@[simp] theorem State.sideBack_mem (s : State) (side : Nat) : (s.sideBack side).mem = s.mem := by simp [State.sideBack]

theorem nextWf_execRefclkReturn {ref : Fin 4} {s : State} (w : memWf s.mem = true) : NextWf (execRefclkReturn ref s) := by
  unfold execRefclkReturn
  dsimp only
  refine nextWf_act w ?_
  simp [w]

theorem nextWf_execAvddSdReturn {side : Fin 2} {s : State} (w : memWf s.mem = true) : NextWf (execAvddSdReturn side s) := by
  unfold execAvddSdReturn
  dsimp only
  refine nextWf_act w ?_
  simp [w]

theorem nextWf_execTapTckEdge {rising tms trst : Bool} {s : State} (tdi : Bool) (w : memWf s.mem = true) :
    NextWf (execTapTckEdge rising tms tdi trst s) := by
  unfold execTapTckEdge
  dsimp only
  refine nextWf_next ?_
  simp [w]

/-! ## Machine/HostIf -/

@[simp] theorem State.writeXlat_mem (s : State) (i : Nat) (v : DWord) : (s.writeXlat i v).mem = s.mem := by simp [State.writeXlat]

theorem State.memWf_writeOwn {s : State} {r : Reg} {i : Nat} {v : DWord} (w : memWf s.mem = true) :
    memWf (s.writeOwn r i v).mem = true := by
  unfold State.writeOwn
  split
  · simp [w]
  · simp [w]
  · simp [w]
  · simp [w]
  · exact w
  · exact w
  · exact State.memWf_writeSeed w
  · exact w

theorem State.memWf_writeReg {s : State} {fn : Func} {r : Reg} {i : Nat} {v mask : DWord} (w : memWf s.mem = true) :
    memWf (s.writeReg fn r i v mask).mem = true := by
  unfold State.writeReg
  dsimp only
  split
  · simp -implicitDefEqProofs [w]
  · split
    · exact State.memWf_writeOwn w
    · split
      · exact w
      · split <;> simp -implicitDefEqProofs [w]

theorem nextWf_execRegisterWrite {fn : Func} {offset : Fin 67108864} {wide : Bool} {value : DWord} {s : State}
    (w : memWf s.mem = true) : NextWf (execRegisterWrite fn offset wide value s) := by
  unfold execRegisterWrite
  extract_lets o part
  have hp : ∀ {s o v}, memWf s.mem = true → memWf (part s o v).mem = true := by
    intro s o v w
    dsimp only [part]
    split
    · exact State.memWf_writeReg w
    · exact State.memWf_writeReg w
    · exact w
  clear_value part
  refine nextWf_act w ?_
  generalize o % (if wide then 8 else 4) = m
  split
  · exact w
  · split
    · exact State.memWf_of_mem (State.badAccess_mem _ _) w
    · split
      · split
        · split
          · exact State.memWf_writeReg w
          · exact hp (hp w)
        · exact hp (hp w)
      · exact hp w

theorem nextWf_execBadRegisterAccess {fn : Func} {write : Bool} {offset width : Nat} {s : State} (w : memWf s.mem = true) :
    NextWf (execBadRegisterAccess fn write offset width s) := by
  unfold execBadRegisterAccess
  dsimp only
  refine nextWf_act w ?_
  simp [w]

theorem nextWf_execCounterSplitRead {fn : Func} {offset : Fin 67108864} {s : State} (w : memWf s.mem = true) :
    NextWf (execCounterSplitRead fn offset s) := by
  unfold execCounterSplitRead
  dsimp only
  refine nextWf_act w ?_
  split
  · exact w
  · split
    · simp [w]
    · split
      · simp [w]
      · exact w

@[simp] theorem State.linkTrained_mem (s : State) (rate width : Nat) :
    (s.linkTrained rate width).mem = s.mem := by simp [State.linkTrained]

theorem nextWf_execPcieLinkUp {rate : Fin 5} {width : Nat} {s : State} (w : memWf s.mem = true) :
    NextWf (execPcieLinkUp rate width s) := by
  unfold execPcieLinkUp
  refine nextWf_act w ?_
  simp [w]

theorem nextWf_execPcieLinkDown {s : State} (w : memWf s.mem = true) : NextWf (execPcieLinkDown s) := by
  unfold execPcieLinkDown
  refine nextWf_act w ?_
  simp [w]

theorem nextWf_execHotReset {rate : Fin 5} {width : Nat} {s : State} (w : memWf s.mem = true) :
    NextWf (execHotReset rate width s) := by
  unfold execHotReset
  refine nextWf_act w ?_
  simp [w]

theorem nextWf_execVfFlr {fn : Func} {s : State} (w : memWf s.mem = true) : NextWf (execVfFlr fn s) := by
  unfold execVfFlr
  dsimp only
  refine nextWf_act w ?_
  split
  · exact w
  · rw [State.setHif_mem]
    dsimp only
    rw [State.clearRegs_mem]
    split
    · simp [w]
    · exact w

theorem nextWf_execPfFlr {s : State} (w : memWf s.mem = true) : NextWf (execPfFlr s) := by
  unfold execPfFlr
  exact nextWf_act w (State.memWf_packageReset w)

theorem nextWf_execPowerStateChange {fn : Func} {d3 : Bool} {s : State} (w : memWf s.mem = true) :
    NextWf (execPowerStateChange fn d3 s) := by
  unfold execPowerStateChange
  dsimp only
  refine nextWf_act w ?_
  simp [w]

theorem nextWf_execConfigRequest {fn : Func} {req : ConfigReq} {s : State} (w : memWf s.mem = true) :
    NextWf (execConfigRequest fn req s) := by
  unfold execConfigRequest
  dsimp only
  refine nextWf_act w ?_
  split
  · exact w
  · split
    · exact w
    · split
      · exact w
      · simp [w]
      · simp [w]
      · exact w

theorem nextWf_execApertureRead {fn : Func} {off : Fin 4294967296} {len bad : Nat} {fails : Fin 3} {poison : Bool} {s : State}
    (w : memWf s.mem = true) : NextWf (execApertureRead fn off len bad fails poison s) := by
  unfold execApertureRead
  dsimp only
  refine nextWf_act w ?_
  split
  · exact w
  · split
    · simp [w]
    · split
      · exact State.memWf_access w
      · split
        · rw [State.emit_mem]
          rename_i h
          refine State.memWf_of_fst h ?_
          simp [w]
        · rw [State.emit_mem, State.badAccess_mem]
          rename_i h
          refine State.memWf_of_fst h ?_
          simp [w]

theorem nextWf_execApertureWrite {fn : Func} {off : Fin 4294967296} {data : List Byte} {s : State} (w : memWf s.mem = true) :
    NextWf (execApertureWrite fn off data s) := by
  unfold execApertureWrite
  dsimp only
  refine nextWf_act w ?_
  split
  · exact w
  · split
    · simp [w]
    · split
      · exact State.memWf_access w
      · split
        · split
          · rename_i h
            exact State.memWf_of_fst h (State.memWf_serveWrite w)
          · rw [State.badAccess_mem]
            rename_i h
            exact State.memWf_of_fst h (State.memWf_serveWrite w)
        · split
          · split
            · refine State.memWf_serveWrite ?_
              rename_i h
              refine State.memWf_of_fst h ?_
              simp [w]
            · rw [State.badAccess_mem]
              rename_i h
              refine State.memWf_of_fst h ?_
              simp [w]
          · simp [w]

theorem nextWf_execHifXlatWrite {who view : Func} {entry : Fin 16384} {value : DWord} {s : State} (w : memWf s.mem = true) :
    NextWf (execHifXlatWrite who view entry value s) := by
  unfold execHifXlatWrite
  refine nextWf_act w ?_
  simp [w]

theorem nextWf_execMctpPcieMessage {body : List Byte} {term : Word} {s : State} (w : memWf s.mem = true) :
    NextWf (execMctpPcieMessage body term s) := by
  unfold execMctpPcieMessage
  refine nextWf_act w ?_
  simp [w]

theorem nextWf_execDoeObject {body : List Byte} {spdm : Bool} {term : Word} {s : State} (w : memWf s.mem = true) :
    NextWf (execDoeObject body spdm term s) := by
  unfold execDoeObject
  refine nextWf_act w ?_
  simp [w]

/-! ## Machine/Resilience -/

@[simp] theorem State.sendPause_mem (s : State) (on handling : Bool) :
    (s.sendPause on handling).mem = s.mem := by simp [State.sendPause]

@[simp] theorem State.setPaused_mem (s : State) (row : Nat) : (s.setPaused row).mem = s.mem := by simp [State.setPaused]

@[simp] theorem State.setResumed_mem (s : State) : (s.setResumed).mem = s.mem := by simp [State.setResumed]

theorem nextWf_execFailureRecord {row : Fin 16} {src other : Word} {srcStrikes otherStrikes : Nat} {s : State}
    (w : memWf s.mem = true) : NextWf (execFailureRecord row src other srcStrikes otherStrikes s) := by
  unfold execFailureRecord
  dsimp only
  refine nextWf_act w ?_
  simp [w]

theorem nextWf_execPause {row : Fin 16} {s : State} (w : memWf s.mem = true) : NextWf (execPause row s) := by
  unfold execPause
  dsimp only
  refine nextWf_act w ?_
  simp [w]

theorem nextWf_execResume {done : Option Word} {s : State} (w : memWf s.mem = true) : NextWf (execResume done s) := by
  unfold execResume
  dsimp only
  refine nextWf_act w ?_
  split
  · exact w
  · split
    · simp [w]
    · split
      · split
        · exact w
        · simp [w]
      · exact w

@[simp] theorem State.applyRepairTimeout_mem (src : Word) (s : State) :
    (State.applyRepairTimeout src s).mem = s.mem := by simp [State.applyRepairTimeout]

theorem nextWf_execRepairTimeout {src : Word} {s : State} (w : memWf s.mem = true) : NextWf (execRepairTimeout src s) := by
  unfold execRepairTimeout
  refine nextWf_act w ?_
  simp [w]

theorem nextWf_execPortDownTimeout {port : Fin 9} {s : State} (w : memWf s.mem = true) : NextWf (execPortDownTimeout port s) := by
  unfold execPortDownTimeout
  dsimp only
  refine nextWf_act w ?_
  split
  · simp [w]
  · exact w

theorem nextWf_execTickSyncTimeout {s : State} (w : memWf s.mem = true) : NextWf (execTickSyncTimeout s) := by
  unfold execTickSyncTimeout
  dsimp only
  refine nextWf_act w ?_
  simp [w]

theorem nextWf_execFillReady {coord : Word} {live : List Word} {s : State} (w : memWf s.mem = true) :
    NextWf (execFillReady coord live s) := by
  unfold execFillReady
  dsimp only
  refine nextWf_act w ?_
  split
  · simp [w]
  · exact w

@[simp] theorem State.endFill_mem (s : State) (status : Nat) : (s.endFill status).mem = s.mem := by simp [State.endFill]

@[simp] theorem State.setValues_mem (s : State) (c seed step tagBase layout : Nat) :
    (s.setValues c seed step tagBase layout).mem = s.mem := by simp [State.setValues]

theorem nextWf_execFillValues {seed step : DWord} {tagBase : Tag} {layout : Word} {digests : List (List Byte)} {s : State}
    (w : memWf s.mem = true) : NextWf (execFillValues seed step tagBase layout digests s) := by
  unfold execFillValues
  dsimp only
  refine nextWf_act w ?_
  split
  · simp [w]
  · exact w

theorem nextWf_execFillComplete {s : State} (w : memWf s.mem = true) : NextWf (execFillComplete s) := by
  unfold execFillComplete
  refine nextWf_act w ?_
  simp [w]

@[simp] theorem State.endSnp_mem (s : State) (status : Nat) : (s.endSnp status).mem = s.mem := by simp [State.endSnp]

@[simp] theorem State.snpCommand_mem (s : State) (fn : Func) (cmd : Instr) :
    (s.snpCommand fn cmd).mem = s.mem := by simp [State.snpCommand]

@[simp] theorem State.beginRestore_mem (s : State) (c i : Nat) (values : List Byte) (good : Bool) :
    (s.beginRestore c i values good).mem = s.mem := by simp [State.beginRestore]

@[simp] theorem State.applyRestore_mem (fn : Func) (slot : Fin 64) (s : State) : (State.applyRestore fn slot s).mem = s.mem := by
  unfold State.applyRestore
  extract_lets i
  split
  · exact State.endSnp_mem _ _
  · split
    · exact State.endSnp_mem _ _
    · split
      · exact State.endSnp_mem _ _
      · split
        · exact State.endSnp_mem _ _
        · dsimp only
          split
          · exact State.sampleRow_mem _ _ _ _
          · split
            · rename_i h
              rw [State.endSnp_mem, State.mem_of_fst h, State.engRead_mem]
            · rename_i h
              rw [State.ite_mem, State.endSnp_mem, State.ite_mem, State.endSnp_mem, State.ite_mem, State.endSnp_mem,
                State.beginRestore_mem, ite_self, ite_self, ite_self, State.mem_of_fst h, State.engRead_mem]

theorem nextWf_execRestore {fn : Func} {slot : Fin 64} {s : State} (w : memWf s.mem = true) : NextWf (execRestore fn slot s) := by
  unfold execRestore
  refine nextWf_act w ?_
  simp [w]

@[simp] theorem State.startLoads_mem (s : State) (c nm ct cl : Nat) :
    (s.startLoads c nm ct cl).mem = s.mem := by simp [State.startLoads]

@[simp] theorem State.endRestore_mem (s : State) (op : RestoreOp) (status : Nat) :
    (s.endRestore op status).mem = s.mem := by simp [State.endRestore]

theorem State.memWf_engCopy {s : State} {c : Nat} {l : List (Nat × Nat × Nat)} (w : memWf s.mem = true) :
    memWf (s.engCopy c l).1.mem = true := by
  unfold State.engCopy
  refine State.memWf_foldl_fst (fun s x w => ?_) ?_
  · split
    · dsimp only
      refine State.memWf_engWrite ?_
      rename_i h
      refine State.memWf_of_fst h ?_
      simp [w]
    · dsimp only
      rename_i h
      refine State.memWf_of_fst h ?_
      simp [w]
  · exact w

theorem nextWf_execRestoreComplete {s : State} (w : memWf s.mem = true) : NextWf (execRestoreComplete s) := by
  unfold execRestoreComplete
  dsimp only
  refine nextWf_act w ?_
  split
  · split
    · split
      · exact w
      · split
        · rw [State.endRestore_mem, State.showSlots_mem, State.bump_mem, State.bump_mem]
          rw [State.startLoads_mem, State.setValues_mem]
          exact State.memWf_engCopy w
        · rw [State.endRestore_mem]
          exact State.memWf_engCopy w
    · split
      · exact w
      · split
        · rw [State.endRestore_mem, State.showSlots_mem, State.bump_mem, State.bump_mem]
          rw [State.startLoads_mem, State.setValues_mem]
          exact State.memWf_engCopy w
        · rw [State.endRestore_mem]
          exact State.memWf_engCopy w
  · exact w

@[simp] theorem State.applyReplay_mem (s : State) : (s.applyReplay).mem = s.mem := by simp [State.applyReplay]

theorem nextWf_execReplay {fn : Func} {s : State} (w : memWf s.mem = true) : NextWf (execReplay fn s) := by
  unfold execReplay
  refine nextWf_act w ?_
  simp [w]

/-! ## Machine/Sequencer -/

@[simp] theorem State.applyDigest_mem (s : State) (c port : Nat) :
    (s.applyDigest c port).mem = s.mem := by simp [State.applyDigest]

theorem State.memWf_applyRow {c : Instr} {s : State} (w : memWf s.mem = true) : memWf (State.applyRow c s).mem = true := by
  cases c with
  | stage => exact State.memWf_of_mem (State.applyStage_mem _ _ _ _) w
  | release => exact State.memWf_of_mem (State.applyRelease_mem _ _ _) w
  | bind => exact State.memWf_applyBindCommand w
  | unbind => exact State.memWf_applyUnbind w
  | rebind => exact State.memWf_applyRebind w
  | bindStart => exact State.memWf_applyBindStart w
  | flushComplete => exact State.memWf_of_mem (State.applyFlushComplete_mem _ _) w
  | drainSettled => exact State.memWf_applyDrainSettled w
  | drainTimeout => exact State.memWf_applyDrainTimeout w
  | waitingBindCommand => exact State.memWf_applyWaitingBindCommand w
  | colTableLoad => exact State.memWf_of_mem (State.applyColTableLoad_mem _) w
  | ctxCreate => exact State.memWf_of_mem (State.applyCtxCreate_mem _ _ _) w
  | ctxDestroy => exact State.memWf_of_mem (State.applyCtxDestroy_mem _ _) w
  | ctxRingConfigWrite => exact State.memWf_of_mem (State.applyCtxRingConfigWrite_mem _ _ _) w
  | nop => exact State.memWf_of_mem (State.applyNop_mem _ _) w
  | ctxRegionReserveWrite => exact State.memWf_of_mem (State.applyCtxRegionReserveWrite_mem _ _ _) w
  | preempt => exact State.memWf_applyPreempt w
  | ctxPreemptRequest => exact State.memWf_applyCtxPreemptRequest w
  | preemptDeadline => exact State.memWf_of_mem (State.applyPreemptDeadline_mem _ _) w
  | preemptSaveComplete => exact State.memWf_applyPreemptSaveComplete w
  | claimExpiry => exact State.memWf_of_mem (State.applyClaimExpiry_mem _ _) w
  | contextResume => exact State.memWf_applyContextResume w
  | contextRestoreComplete => exact State.memWf_applyContextRestoreComplete w
  | selfTestComplete => exact State.memWf_applySelfTestComplete w
  | fenceLift => exact State.memWf_of_mem (State.applyFenceLift_mem _ _ _) w
  | softwareFence => exact State.memWf_applySoftwareFence w
  | retest => exact State.memWf_of_mem (State.applyRetest_mem _ _ _) w
  | fchSlotCancel => exact State.memWf_of_mem (State.applyFchSlotCancel_mem _ _ _ _) w
  | fchArm => exact State.memWf_of_mem (State.applyFchArm_mem _ _ _ _ _ _) w
  | fchCancel => exact State.memWf_of_mem (State.applyFchCancel_mem _ _ _ _ _) w
  | fchModeWrite => exact State.memWf_of_mem (State.applyFchModeWrite_mem _ _) w
  | finTableLoad => exact State.memWf_of_mem (State.applyFinTableLoad_mem _ _) w
  | tallyCreate iss home vid value share => exact State.memWf_of_mem (State.applyTallyCreate_mem iss home vid value share s) w
  | tallyImport => exact State.memWf_of_mem (State.applyTallyImport_mem _ _ _ _ _) w
  | tallyRelease => exact State.memWf_of_mem (State.applyTallyRelease_mem _ _ _) w
  | tallyAdd => exact State.memWf_of_mem (State.applyTallyAdd_mem _ _ _ _) w
  | tallySub => exact State.memWf_of_mem (State.applyTallySub_mem _ _ _ _) w
  | tallyRead => exact State.memWf_of_mem (State.applyTallyRead_mem _ _ _) w
  | leashSet iss vid cond rep step threshold target =>
    exact State.memWf_of_mem (State.applyLeashSet_mem iss vid cond rep step threshold target s) w
  | leashClear => exact State.memWf_of_mem (State.applyLeashClear_mem _ _ _) w
  | standoffCheck => exact State.memWf_of_mem (State.applyStandoffCheck_mem _) w
  | enrol => exact State.memWf_of_mem (State.applyEnrol_mem _ _) w
  | svnCommit => exact State.memWf_of_mem (State.applySvnCommit_mem _) w
  | keyLock => exact State.memWf_of_mem (State.applyKeyLock_mem _) w
  | expectTableLoad => exact State.memWf_of_mem (State.applyExpectTableLoad_mem _) w
  | portRoleWrite => exact State.memWf_of_mem (State.applyPortRoleWrite_mem _ _ _) w
  | portTrainingComplete => exact State.memWf_of_mem (State.applyPortTrainingComplete_mem _ _ _) w
  | identityFlit => exact State.memWf_of_mem (State.applyIdentityFlit_mem _ _ _ _ _) w
  | portRecalRequest => exact State.memWf_of_mem (State.applyPortRecalRequest_mem _ _) w
  | recalTimerExpiry => exact State.memWf_of_mem (State.applyRecalTimerExpiry_mem _ _) w
  | recalErrorThreshold => exact State.memWf_of_mem (State.applyRecalErrorThreshold_mem _ _ _) w
  | laneDrop => exact State.memWf_of_mem (State.applyLaneDrop_mem _ _ _) w
  | laneRecalComplete => exact State.memWf_of_mem (State.applyLaneRecalComplete_mem _ _) w
  | join => exact State.memWf_of_mem (State.applyJoin_mem _) w
  | leave => exact State.memWf_of_mem (State.applyLeave_mem _) w
  | shepherdTimeout => exact State.memWf_of_mem (State.applyShepherdTimeout_mem _) w
  | takeover => exact State.memWf_of_mem (State.applyTakeover_mem _ _ _) w
  | noLeadTimeout => exact State.memWf_of_mem (State.applyNoLeadTimeout_mem _) w
  | fwUpdate => exact State.memWf_of_mem (State.applyFwUpdate_mem _ _ _) w
  | handover => exact State.memWf_of_mem (State.applyHandover_mem _) w
  | mctpRequest => exact State.memWf_of_mem (State.applyMctpRequest_mem _ _ _) w
  | memPageOwnerWrite => exact State.memWf_of_mem (State.applyMemPageOwnerWrite_mem _ _ _) w
  | memQuadModeWrite => exact State.memWf_of_mem (State.applyMemQuadModeWrite_mem _ _ _) w
  | memRetireLimitWrite => exact State.memWf_applyMemRetireLimitWrite w
  | numMapLoad => exact State.memWf_of_mem (State.applyNumMapLoad_mem _ _) w
  | pwrReset => exact State.memWf_applyPwrReset w
  | railTrip => exact State.memWf_applyRailTrip w
  | thermalTrip => exact State.memWf_applyThermalTrip w
  | refclkLoss => exact State.memWf_applyRefclkLoss w
  | repairTimeout => exact State.memWf_of_mem (State.applyRepairTimeout_mem _ _) w
  | restore => exact State.memWf_of_mem (State.applyRestore_mem _ _ _) w
  | replay => exact State.memWf_of_mem (State.applyReplay_mem _) w
  | sentListLoad => exact State.memWf_of_mem (State.applySentListLoad_mem _ _) w
  | tierLoad => exact State.memWf_applyTierLoad w
  | tierLoadPin => exact State.memWf_applyTierLoadPin w
  | tierUnpin => exact State.memWf_of_mem (State.applyTierUnpin_mem _ _ _) w
  | tierEvict => exact State.memWf_applyTierEvict w
  | tierFlush => exact State.memWf_applyTierFlush w
  | tirPoolWrite => exact State.memWf_of_mem (State.applyTirPoolWrite_mem _ _ _) w
  | cxlPortEnumerate => exact State.memWf_of_mem (State.applyCxlPortEnumerate_mem _ _ _ _ _ _) w
  | cxlPortDown => exact State.memWf_applyCxlPortDown w
  | cxlPortUp => exact State.memWf_applyCxlPortUp w
  | step => exact State.memWf_of_mem (State.applyStep_mem _ _ _) w
  | stepDeadline => exact State.memWf_of_mem (State.applyStepDeadline_mem _ _) w
  | reshard => exact State.memWf_applyReshard w
  | reshardForce => exact State.memWf_applyReshardForce w
  | cxlRetrain => exact State.memWf_of_mem (State.applyCxlRetrain_mem _ _ _ _ _ _) w
  | _ => exact w

theorem State.memWf_handleRow {s : State} {c : Instr} (w : memWf s.mem = true) : memWf (s.handleRow c).mem = true := by
  unfold State.handleRow
  split
  · split
    · exact w
    · split
      · exact State.memWf_applyRow w
      · simp [w]
  · exact State.memWf_applyRow w

theorem State.memWf_applyEvent {s : State} {e : EvKind} (w : memWf s.mem = true) : memWf (s.applyEvent e).mem = true := by
  unfold State.applyEvent
  split
  · simp [w]
  · simp [w]
  · simp [w]
  · simp [w]
  · simp [w]
  · exact State.memWf_applyDetection w
  · exact State.memWf_fenceStack w
  · exact State.memWf_applyUnit w
  · simp [w]
  · simp [w]
  · simp [w]
  · simp [w]
  · simp [w]
  · simp [w]
  · simp [w]
  · simp [w]
  · split
    · simp [w]
    · exact w
  · simp [w]
  · simp [w]
  · exact State.memWf_handleRow w

theorem State.memWf_handleEvent {s : State} {e : Sampled} (w : memWf s.mem = true) : memWf (s.handleEvent e).mem = true := by
  unfold State.handleEvent
  dsimp only
  split
  · rw [State.bump_mem]
    exact State.memWf_applyEvent w
  · exact State.memWf_applyEvent w

@[simp] theorem State.reportFenced_mem (s : State) : (s.reportFenced).mem = s.mem := by simp [State.reportFenced]

@[simp] theorem State.reportOrphans_mem (s : State) : (s.reportOrphans).mem = s.mem := by simp [State.reportOrphans]

@[simp] theorem State.reportAllStale_mem (s : State) : (s.reportAllStale).mem = s.mem := by simp [State.reportAllStale]

@[simp] theorem State.countTick_mem (s : State) : (s.countTick).mem = s.mem := by simp [State.countTick]

theorem State.memWf_handleAll {n : Nat} {s : State} (w : memWf s.mem = true) : memWf (State.handleAll n s).mem = true := by
  induction n generalizing s with
  | zero => exact w
  | succ f ih =>
    unfold State.handleAll
    split
    · exact ih (State.memWf_handleEvent w)
    · exact w

theorem State.memWf_endTick {s : State} (w : memWf s.mem = true) : memWf (s.endTick).mem = true := by
  unfold State.endTick
  dsimp only
  rw [State.takeMirror_mem]
  dsimp only
  refine State.memWf_foldl (fun s x w => ?_) ?_
  · refine State.memWf_runHeld ?_
    split
    · simp [w]
    · exact w
  · simp [w]

theorem nextWf_execEventTick {s : State} (w : memWf s.mem = true) : NextWf (execEventTick s) := by
  unfold execEventTick
  dsimp only
  refine nextWf_act w ?_
  split
  · split
    · refine State.memWf_endTick ?_
      refine State.memWf_handleAll ?_
      simp [w]
    · refine State.memWf_handleAll ?_
      simp [w]
  · split
    · refine State.memWf_endTick ?_
      refine State.memWf_handleAll ?_
      simp [w]
    · refine State.memWf_handleAll ?_
      simp [w]

/-! ## Machine/Dispatch -/

/-- Every instruction keeps the canonical form of the memory. -/
theorem nextWf_exec {i : Instr} {s : State} (w : memWf s.mem = true) : NextWf (exec i s) := by
  cases i with
  | counterSplitRead => exact nextWf_execCounterSplitRead w
  | badRegisterAccess => exact nextWf_execBadRegisterAccess w
  | registerWrite => exact nextWf_execRegisterWrite w
  | courierPacketRoute => exact nextWf_execCourierPacketRoute w
  | stragglerTimeout => exact nextWf_execStragglerTimeout w
  | reductionContribution => exact nextWf_execReductionContribution w
  | reservoirDrain => exact nextWf_execReservoirDrain w
  | spillReadback => exact nextWf_execSpillReadback w
  | holdRelease => exact nextWf_execHoldRelease w
  | nocSpillWrite => exact nextWf_execNocSpillWrite w
  | spareLoadComplete => exact nextWf_execSpareLoadComplete w
  | stage => exact nextWf_execStage w
  | stageComplete => exact nextWf_execStageComplete w
  | release => exact nextWf_execRelease w
  | bind => exact nextWf_execBind w
  | bindStart => exact nextWf_execBindStart w
  | slotTableActivation => exact nextWf_execSlotTableActivation w
  | unbind => exact nextWf_execUnbind w
  | rebind => exact nextWf_execRebind w
  | flushComplete => exact nextWf_execFlushComplete w
  | drainSettled => exact nextWf_execDrainSettled w
  | drainTimeout => exact nextWf_execDrainTimeout w
  | waitingBindCommand => exact nextWf_execWaitingBindCommand w
  | epochStaleReport => exact nextWf_execEpochStaleReport w
  | fchSlotArm => exact nextWf_execFchSlotArm w
  | fchSlotCancel => exact nextWf_execFchSlotCancel w
  | fchArm => exact nextWf_execFchArm w
  | fchCancel => exact nextWf_execFchCancel w
  | fetchTransferStart => exact nextWf_execFetchTransferStart w
  | fetchTransferComplete => exact nextWf_execFetchTransferComplete w
  | fetchReadReply => exact nextWf_execFetchReadReply w
  | passAlongCopy => exact nextWf_execPassAlongCopy w
  | fchModeWrite => exact nextWf_execFchModeWrite w
  | memoryRead => exact nextWf_execMemoryRead w
  | memoryWrite => exact nextWf_execMemoryWrite w
  | detectionAtRest => exact nextWf_execDetectionAtRest w
  | stackFence => exact nextWf_execStackFence w
  | scrubRead => exact nextWf_execScrubRead w
  | memPageOwnerWrite => exact nextWf_execMemPageOwnerWrite w
  | pageZeroingComplete => exact nextWf_execPageZeroingComplete w
  | memQuadModeWrite => exact nextWf_execMemQuadModeWrite w
  | memRetireLimitWrite => exact nextWf_execMemRetireLimitWrite w
  | hbmInitComplete => exact nextWf_execHbmInitComplete w
  | cxlAccess => exact nextWf_execCxlAccess w
  | tirPoolWrite => exact nextWf_execTirPoolWrite w
  | tierLoad => exact nextWf_execTierLoad w
  | tierLoadPin => exact nextWf_execTierLoadPin w
  | tierUnpin => exact nextWf_execTierUnpin w
  | tierEvict => exact nextWf_execTierEvict w
  | tierFlush => exact nextWf_execTierFlush w
  | tierFillComplete => exact nextWf_execTierFillComplete w
  | tierWritebackComplete => exact nextWf_execTierWritebackComplete w
  | slotAgeAdvance => exact nextWf_execSlotAgeAdvance w
  | cxlPortEnumerate => exact nextWf_execCxlPortEnumerate w
  | cxlPortDown => exact nextWf_execCxlPortDown w
  | cxlPortUp => exact nextWf_execCxlPortUp w
  | cxlRetrain => exact nextWf_execCxlRetrain w
  | cxlConfigAccess => exact nextWf_execCxlConfigAccess w
  | tallyCreate => exact nextWf_execTallyCreate w
  | tallyImport => exact nextWf_execTallyImport w
  | tallyRelease => exact nextWf_execTallyRelease w
  | tallyAdd => exact nextWf_execTallyAdd w
  | tallySub => exact nextWf_execTallySub w
  | tallyRead => exact nextWf_execTallyRead w
  | leashSet => exact nextWf_execLeashSet w
  | leashClear => exact nextWf_execLeashClear w
  | tallyOperationApply => exact nextWf_execTallyOperationApply w
  | barkDelivery => exact nextWf_execBarkDelivery w
  | herdHalt => exact nextWf_execHerdHalt w
  | standoffCheck => exact nextWf_execStandoffCheck w
  | standoffSpillComplete => exact nextWf_execStandoffSpillComplete w
  | reserveReadback => exact nextWf_execReserveReadback w
  | standoffFault => exact nextWf_execStandoffFault w
  | hrdReserveWrite => exact nextWf_execHrdReserveWrite w
  | step => exact nextWf_execStep w
  | stepVote => exact nextWf_execStepVote w
  | stepDeadline => exact nextWf_execStepDeadline w
  | voteRecord => exact nextWf_execVoteRecord w
  | shepherdDecision => exact nextWf_execShepherdDecision w
  | decisionRecord => exact nextWf_execDecisionRecord w
  | commitFlip => exact nextWf_execCommitFlip w
  | voteTimeout => exact nextWf_execVoteTimeout w
  | inDoubtResolution => exact nextWf_execInDoubtResolution w
  | reshard => exact nextWf_execReshard w
  | reshardForce => exact nextWf_execReshardForce w
  | reshardTargetBind => exact nextWf_execReshardTargetBind w
  | numMapLoad => exact nextWf_execNumMapLoad w
  | numMapLoadComplete => exact nextWf_execNumMapLoadComplete w
  | amaxReport => exact nextWf_execAmaxReport w
  | jitScalePublish => exact nextWf_execJitScalePublish w
  | jitPublishComplete => exact nextWf_execJitPublishComplete w
  | nonfiniteReportSampled => exact nextWf_execNonfiniteReportSampled w
  | nfRecordClear => exact nextWf_execNfRecordClear w
  | numSeedWrite => exact nextWf_execNumSeedWrite w
  | ratioReport => exact nextWf_execRatioReport w
  | finTableLoad => exact nextWf_execFinTableLoad w
  | finTableLoadComplete => exact nextWf_execFinTableLoadComplete w
  | moverDeliver => exact nextWf_execMoverDeliver w
  | moverCollect => exact nextWf_execMoverCollect w
  | moverCopy => exact nextWf_execMoverCopy w
  | moverDone => exact nextWf_execMoverDone w
  | finCountReport => exact nextWf_execFinCountReport w
  | ctxCreate => exact nextWf_execCtxCreate w
  | ctxDestroy => exact nextWf_execCtxDestroy w
  | ringPoll => exact nextWf_execRingPoll w
  | ringCommandTake => exact nextWf_execRingCommandTake w
  | nop => exact nextWf_execNop w
  | completionRecordWrite => exact nextWf_execCompletionRecordWrite w
  | batchItemArm => exact nextWf_execBatchItemArm w
  | ctxRegionReserveWrite => exact nextWf_execCtxRegionReserveWrite w
  | preempt => exact nextWf_execPreempt w
  | ctxPreemptRequest => exact nextWf_execCtxPreemptRequest w
  | yieldPoint => exact nextWf_execYieldPoint w
  | preemptSaveComplete => exact nextWf_execPreemptSaveComplete w
  | preemptDeadline => exact nextWf_execPreemptDeadline w
  | forcedSaveStart => exact nextWf_execForcedSaveStart w
  | forcedRegionSaved => exact nextWf_execForcedRegionSaved w
  | parkedResultArrival => exact nextWf_execParkedResultArrival w
  | claimExpiry => exact nextWf_execClaimExpiry w
  | contextResume => exact nextWf_execContextResume w
  | contextRestoreComplete => exact nextWf_execContextRestoreComplete w
  | accountingTick => exact nextWf_execAccountingTick w
  | portRoleWrite => exact nextWf_execPortRoleWrite w
  | portTrainingComplete => exact nextWf_execPortTrainingComplete w
  | identityFlit => exact nextWf_execIdentityFlit w
  | linkFlit => exact nextWf_execLinkFlit w
  | linkNak => exact nextWf_execLinkNak w
  | portRecalRequest => exact nextWf_execPortRecalRequest w
  | recalTimerExpiry => exact nextWf_execRecalTimerExpiry w
  | recalErrorThreshold => exact nextWf_execRecalErrorThreshold w
  | laneRecalComplete => exact nextWf_execLaneRecalComplete w
  | laneDrop => exact nextWf_execLaneDrop w
  | join => exact nextWf_execJoin w
  | leave => exact nextWf_execLeave w
  | beaconSend => exact nextWf_execBeaconSend w
  | beaconReceive => exact nextWf_execBeaconReceive w
  | peerWrite => exact nextWf_execPeerWrite w
  | colTableLoad => exact nextWf_execColTableLoad w
  | collectiveRun => exact nextWf_execCollectiveRun w
  | collectiveChunk => exact nextWf_execCollectiveChunk w
  | collectiveComplete => exact nextWf_execCollectiveComplete w
  | shepherdHeartbeat => exact nextWf_execShepherdHeartbeat w
  | shepherdTimeout => exact nextWf_execShepherdTimeout w
  | failureRecord => exact nextWf_execFailureRecord w
  | pause => exact nextWf_execPause w
  | resume => exact nextWf_execResume w
  | takeover => exact nextWf_execTakeover w
  | cadenceRecord => exact nextWf_execCadenceRecord w
  | faultReport => exact nextWf_execFaultReport w
  | faultHistoryWrite => exact nextWf_execFaultHistoryWrite w
  | faultLogCompact => exact nextWf_execFaultLogCompact w
  | serviceHour => exact nextWf_execServiceHour w
  | selfTestComplete => exact nextWf_execSelfTestComplete w
  | fenceLift => exact nextWf_execFenceLift w
  | softwareFence => exact nextWf_execSoftwareFence w
  | retest => exact nextWf_execRetest w
  | sentListLoad => exact nextWf_execSentListLoad w
  | sentinelCapture => exact nextWf_execSentinelCapture w
  | sentinelPhaseStart => exact nextWf_execSentinelPhaseStart w
  | sentinelCompare => exact nextWf_execSentinelCompare w
  | repairTimeout => exact nextWf_execRepairTimeout w
  | portDownTimeout => exact nextWf_execPortDownTimeout w
  | fillReady => exact nextWf_execFillReady w
  | fillValues => exact nextWf_execFillValues w
  | fillComplete => exact nextWf_execFillComplete w
  | snapshotDrainComplete => exact nextWf_execSnapshotDrainComplete w
  | restore => exact nextWf_execRestore w
  | restoreComplete => exact nextWf_execRestoreComplete w
  | replay => exact nextWf_execReplay w
  | eventTick => exact nextWf_execEventTick w
  | leaseClaim => exact nextWf_execLeaseClaim w
  | leaseRenew => exact nextWf_execLeaseRenew w
  | leaseRelease => exact nextWf_execLeaseRelease w
  | leaseRenewTimer => exact nextWf_execLeaseRenewTimer w
  | leadExpiry => exact nextWf_execLeadExpiry w
  | leasePoll => exact nextWf_execLeasePoll w
  | leadChange => exact nextWf_execLeadChange w
  | mgmtFault => exact nextWf_execMgmtFault w
  | mgmtWatchdogExpiry => exact nextWf_execMgmtWatchdogExpiry w
  | halfReady => exact nextWf_execHalfReady w
  | noLeadTimeout => exact nextWf_execNoLeadTimeout w
  | startupLeadTimeout => exact nextWf_execStartupLeadTimeout w
  | mctpRequest => exact nextWf_execMctpRequest w
  | fwUpdate => exact nextWf_execFwUpdate w
  | handover => exact nextWf_execHandover w
  | fwCopyComplete => exact nextWf_execFwCopyComplete w
  | fwReadyTimeout => exact nextWf_execFwReadyTimeout w
  | fwProbationFault => exact nextWf_execFwProbationFault w
  | hbmPhyRecal => exact nextWf_execHbmPhyRecal w
  | followerSelfTest => exact nextWf_execFollowerSelfTest w
  | enrol => exact nextWf_execEnrol w
  | svnCommit => exact nextWf_execSvnCommit w
  | keyLock => exact nextWf_execKeyLock w
  | expectTableLoad => exact nextWf_execExpectTableLoad w
  | identityChallenge => exact nextWf_execIdentityChallenge w
  | challengeResponse => exact nextWf_execChallengeResponse w
  | challengeSilentTimeout => exact nextWf_execChallengeSilentTimeout w
  | securityViolation => exact nextWf_execSecurityViolation w
  | getVersion => exact nextWf_execGetVersion w
  | getCapabilities => exact nextWf_execGetCapabilities w
  | negotiateAlgorithms => exact nextWf_execNegotiateAlgorithms w
  | getDigests => exact nextWf_execGetDigests w
  | getCertificate => exact nextWf_execGetCertificate w
  | challenge => exact nextWf_execChallenge w
  | getMeasurements => exact nextWf_execGetMeasurements w
  | railTrip => exact nextWf_execRailTrip w
  | refclkLoss => exact nextWf_execRefclkLoss w
  | sagSensorLow => exact nextWf_execSagSensorLow w
  | sagLevelRise => exact nextWf_execSagLevelRise w
  | sagInFall => exact nextWf_execSagInFall w
  | sagInRise => exact nextWf_execSagInRise w
  | peakPower => exact nextWf_execPeakPower w
  | peakRecovery => exact nextWf_execPeakRecovery w
  | powerTargetCompare => exact nextWf_execPowerTargetCompare w
  | thermalLevelUpdate => exact nextWf_execThermalLevelUpdate w
  | thermalTrip => exact nextWf_execThermalTrip w
  | energyTick => exact nextWf_execEnergyTick w
  | pwrokRise => exact nextWf_execPwrokRise w
  | pwrokFall => exact nextWf_execPwrokFall w
  | perstFall => exact nextWf_execPerstFall w
  | pwrReset => exact nextWf_execPwrReset w
  | norLoadComplete => exact nextWf_execNorLoadComplete w
  | hbmTrainingComplete => exact nextWf_execHbmTrainingComplete w
  | halfBootComplete => exact nextWf_execHalfBootComplete w
  | pcieLinkUp => exact nextWf_execPcieLinkUp w
  | pcieLinkDown => exact nextWf_execPcieLinkDown w
  | hotReset => exact nextWf_execHotReset w
  | vfFlr => exact nextWf_execVfFlr w
  | pfFlr => exact nextWf_execPfFlr w
  | powerStateChange => exact nextWf_execPowerStateChange w
  | configRequest => exact nextWf_execConfigRequest w
  | apertureRead => exact nextWf_execApertureRead w
  | apertureWrite => exact nextWf_execApertureWrite w
  | hifXlatWrite => exact nextWf_execHifXlatWrite w
  | dmaCompletion => exact nextWf_execDmaCompletion w
  | dmaTimeout => exact nextWf_execDmaTimeout w
  | msixSend => exact nextWf_execMsixSend w
  | packageEventVector => exact nextWf_execPackageEventVector w
  | mctpPcieMessage => exact nextWf_execMctpPcieMessage w
  | doeObject => exact nextWf_execDoeObject w
  | colTableLoadComplete => exact nextWf_execColTableLoadComplete w
  | sentListLoadComplete => exact nextWf_execSentListLoadComplete w
  | expectTableLoadComplete => exact nextWf_execExpectTableLoadComplete w
  | ctxRingConfigWrite => exact nextWf_execCtxRingConfigWrite w
  | perstRise => exact nextWf_execPerstRise w
  | refclkReturn => exact nextWf_execRefclkReturn w
  | avddSdReturn => exact nextWf_execAvddSdReturn w
  | clockFallbackComplete => exact nextWf_execClockFallbackComplete w
  | hbmPhyRecalComplete => exact nextWf_execHbmPhyRecalComplete w
  | tickSyncTimeout => exact nextWf_execTickSyncTimeout w
  | msixUnmask => exact nextWf_execMsixUnmask w
  | tapTckEdge rising tms tdi trst => exact nextWf_execTapTckEdge tdi w
  | add => exact nextWf_execAdd w
  | sub => exact nextWf_execSub w
  | andInsn => exact nextWf_execAndInsn w
  | orInsn => exact nextWf_execOrInsn w
  | xorInsn => exact nextWf_execXorInsn w
  | shl => exact nextWf_execShl w
  | shr => exact nextWf_execShr w
  | sra => exact nextWf_execSra w
  | slt => exact nextWf_execSlt w
  | sltu => exact nextWf_execSltu w
  | addi => exact nextWf_execAddi w
  | andi => exact nextWf_execAndi w
  | shli => exact nextWf_execShli w
  | shri => exact nextWf_execShri w
  | li => exact nextWf_execLi w
  | lui => exact nextWf_execLui w
  | beq => exact nextWf_execBeq w
  | bne => exact nextWf_execBne w
  | blt => exact nextWf_execBlt w
  | bltu => exact nextWf_execBltu w
  | jmp => exact nextWf_execJmp w
  | done => exact nextWf_execDone w
  | ldw => exact nextWf_execLdw w
  | stw => exact nextWf_execStw w
  | tens => exact nextWf_execTens w
  | vect => exact nextWf_execVect w
  | loop => exact nextWf_execLoop w
  | tsend => exact nextWf_execTsend w
  | herdIncrement => exact nextWf_execHerdIncrement w
  | herdDecrement => exact nextWf_execHerdDecrement w
  | herdRead => exact nextWf_execHerdRead w
  | herdReadReply => exact nextWf_execHerdReadReply w
  | yield => exact nextWf_execYield w
  | watchdog => exact nextWf_execWatchdog w
  | tokenArrival => exact nextWf_execTokenArrival w
  | tokenDataLanded => exact nextWf_execTokenDataLanded w
  | matcherDispatch => exact nextWf_execMatcherDispatch w
  | nullRetire => exact nextWf_execNullRetire w
  | engineCommandStart => exact nextWf_execEngineCommandStart w
  | engineCommandComplete => exact nextWf_execEngineCommandComplete w
  | accumulatorBankSwap => exact nextWf_execAccumulatorBankSwap w
  | programFaultHalt => exact nextWf_execProgramFaultHalt w

end Sys2Proof.Machine
end

