-- ==== Sys2Proof/Proofs/StepKeepsMemory.lean ====
section
/-! A step of the machine keeps the memory in its canonical form. -/

namespace Sys2Proof.Machine
open Sys2Proof

theorem nextWf_step {s : State} (w : memWf s.mem = true) : NextWf (step s) := by
  unfold step
  split
  · exact nextWf_next w
  · exact nextWf_exec w

/-- Settles O3: `NextWf` of a step, put together from what each instruction and each operation does to the memory. -/
theorem stepKeepsMemoryCanonical : Obligations.StepKeepsMemoryCanonical := by
  unfold Obligations.StepKeepsMemoryCanonical
  intro s t w h
  exact nextWf_step w t h

end Sys2Proof.Machine
end

