-- ==== Sys2Proof/Proofs/HbmAccess.lean ====
section
/-! Accesses of HBM: what the bookkeeping of an access leaves alone, which registers its route depends on, and what a served read
and a served write do. -/

namespace Sys2Proof.Machine
open Sys2Proof

/-! ## Bookkeeping -/

/-- `t` has the memory, the output and the cores of `s`: counters, records and events alone may differ. -/
def Quiet (s t : State) : Prop := t.mem = s.mem ∧ t.out = s.out ∧ t.cores = s.cores

theorem Quiet.refl (s : State) : Quiet s s := ⟨rfl, rfl, rfl⟩

theorem Quiet.trans {s t u : State} (h : Quiet s t) (k : Quiet t u) : Quiet s u := by
  obtain ⟨hm, ho, hc⟩ := h
  obtain ⟨km, ko, kc⟩ := k
  exact ⟨km.trans hm, ko.trans ho, kc.trans hc⟩

theorem Quiet.foldl {α : Type} {f : State → α → State} (h : ∀ s x, Quiet s (f s x)) (l : List α) (s : State) :
    Quiet s (l.foldl f s) := by
  induction l generalizing s with
  | nil => exact Quiet.refl s
  | cons x l ih => exact (h s x).trans (ih _)

theorem quiet_bump (s : State) (r : Reg) (i n : Nat) : Quiet s (s.bump r i n) :=
  ⟨State.bump_mem s r i n, State.bump_out s r i n, State.bump_cores s r i n⟩

theorem quiet_put (s : State) (f : Fld) (i v : Nat) : Quiet s (s.put f i v) := ⟨rfl, rfl, rfl⟩

theorem quiet_sample (s : State) (cls src : Nat) (ev : EvKind) : Quiet s (s.sample cls src ev) := ⟨rfl, rfl, rfl⟩

theorem quiet_sampleOnce (s : State) (cls src : Nat) (ev : EvKind) : Quiet s (s.sampleOnce cls src ev) := by
  unfold State.sampleOnce
  split
  · exact Quiet.refl s
  · exact quiet_sample s cls src ev

theorem quiet_signal (s : State) (f : Fld) (i : Nat) : Quiet s (s.signal f i) := by
  unfold State.signal
  split
  · exact Quiet.refl s
  · exact ⟨rfl, rfl, rfl⟩

theorem quiet_countFlits (s : State) (r : Reg) (path : List Nat) (n : Nat) : Quiet s (s.countFlits r path n) :=
  Quiet.foldl (fun s cl => quiet_bump s r cl n) path s

theorem quiet_countHbm (s : State) (r : Reg) (a n : Nat) : Quiet s (s.countHbm r a n) := by
  unfold State.countHbm
  exact Quiet.foldl (fun s c => quiet_bump s r _ _) _ s

/-- The flits of one way of a packet, and its detour (`State.countMesh`). -/
def State.countLeg (s : State) (x y n : Nat) : State :=
  match s.courierPath x y with
  | some (path, det) =>
    if det then (s.countFlits .NOC_COURIER_FLITS (x :: path) n).bump .NOC_DETOURS x
    else s.countFlits .NOC_COURIER_FLITS (x :: path) n
  | none => s

theorem State.countMesh_eq (s : State) (r : Requester) (a out back : Nat) : s.countMesh r a out back =
    match s.portRouter r a with
    | some (x, y) => (s.countLeg x y out).countLeg y x back
    | none => s := rfl

theorem quiet_countLeg (s : State) (x y n : Nat) : Quiet s (s.countLeg x y n) := by
  unfold State.countLeg
  split
  · split
    · exact (quiet_countFlits s _ _ n).trans (quiet_bump _ _ _ _)
    · exact quiet_countFlits s _ _ n
  · exact Quiet.refl s

theorem quiet_countMesh (s : State) (r : Requester) (a out back : Nat) : Quiet s (s.countMesh r a out back) := by
  rw [State.countMesh_eq]
  split
  · exact (quiet_countLeg s _ _ out).trans (quiet_countLeg _ _ _ back)
  · exact Quiet.refl s

theorem quiet_detect (s : State) (stack off : Nat) (scrub : Bool) : Quiet s (s.detect stack off scrub) := by
  unfold State.detect
  extract_lets b _ s₁ s₂
  have h₁ : Quiet s s₁ := by
    dsimp only [s₁]
    split
    · exact Quiet.refl s
    · exact ⟨rfl, rfl, rfl⟩
  have h₂ : Quiet s₁ s₂ := by
    clear_value s₁
    dsimp only [s₂]
    split
    · exact Quiet.refl s₁
    · exact ((((quiet_put _ _ _ _).trans (quiet_put _ _ _ _)).trans (quiet_put _ _ _ _)).trans (quiet_put _ _ _ _)).trans
        (quiet_signal _ _ _)
  clear_value s₁ s₂
  split
  · exact h₁
  · exact (h₁.trans h₂).trans ((quiet_bump _ _ _ _).trans (quiet_sample _ _ _ _))

theorem quiet_detectIn (s : State) (l : List (Nat × Nat)) : Quiet s (s.detectIn l) :=
  Quiet.foldl (fun s _ => quiet_detect s _ _ false) _ s

theorem quiet_readCheck (s : State) (a fails : Nat) : Quiet s (s.readCheck a fails) := by
  unfold State.readCheck
  dsimp only
  split
  · exact Quiet.refl s
  · split
    · exact quiet_bump _ _ _ _
    · exact quiet_detect _ _ _ _

theorem quiet_checkRetry (s : State) (k : Nat) : Quiet s (s.checkRetry k) := by
  unfold State.checkRetry
  split
  · exact quiet_sampleOnce s _ _ _
  · exact Quiet.refl s

theorem quiet_countRead_hbm (s : State) (a n : Nat) : Quiet s (s.countRead (.hbm a) n) :=
  quiet_countHbm s _ a n

/-! ## What a route to HBM depends on -/

/-- The registers that the checks on an access of HBM read. -/
def hbmRouteRegs : List Reg :=
  [.MEM_STATUS, .MEM_PAGE, .MEM_QUAD_MODE, .FLT_ROUTER_FENCE, .CTX_STEP_STATE, .CTX_BANK_BASE, .CTX_BANK_SIZE, .CTX_BANK_DELTA]

/-- `t` reads every register of `hbmRouteRegs` as `s` does. -/
def RoutesAs (s t : State) : Prop := ∀ r ∈ hbmRouteRegs, ∀ i, t.rn r i = s.rn r i

theorem RoutesAs.refl (s : State) : RoutesAs s s := fun _ _ _ => rfl

theorem RoutesAs.trans {s t u : State} (h : RoutesAs s t) (k : RoutesAs t u) : RoutesAs s u :=
  fun r hr i => (k r hr i).trans (h r hr i)

theorem RoutesAs.foldl {α : Type} {f : State → α → State} (h : ∀ s x, RoutesAs s (f s x)) (l : List α) (s : State) :
    RoutesAs s (l.foldl f s) := by
  induction l generalizing s with
  | nil => exact RoutesAs.refl s
  | cons x l ih => exact (h s x).trans (ih _)

/-- Copies of two registers of different numbers are different entries of the table. -/
theorem Reg.key_ne {r q : Reg} (hr : r.num < 512) (hq : q.num < 512) (h : r.num ≠ q.num) (i j : Nat) : r.key i ≠ q.key j :=
  fun e => h (Reg.key_inj hr hq e).1

/-- A counter that is none of `hbmRouteRegs` may advance. -/
theorem routesAs_bump {q : Reg} (h : ∀ r ∈ hbmRouteRegs, r.num ≠ q.num) (hq : q.num < 512) (s : State) (i n : Nat) :
    RoutesAs s (s.bump q i n) := by
  intro r hr j
  have hn : ∀ r ∈ hbmRouteRegs, r.num < 512 ∧ r.num ≠ Reg.num .MGT_SAT := by decide
  obtain ⟨h512, hsat⟩ := hn r hr
  exact State.rn_bump_ne s q r i j n (Reg.key_ne h512 (by decide) hsat j 0) (Reg.key_ne h512 hq (h r hr) j i)

theorem routesAs_countHbm_write (s : State) (a n : Nat) : RoutesAs s (s.countHbm .MEM_WRITE_BYTES a n) := by
  unfold State.countHbm
  exact RoutesAs.foldl (fun s c => routesAs_bump (by decide) (by decide) s _ _) _ s

theorem routesAs_countLeg (s : State) (x y n : Nat) : RoutesAs s (s.countLeg x y n) := by
  have hf : ∀ path : List Nat, RoutesAs s (s.countFlits .NOC_COURIER_FLITS path n) := fun path =>
    RoutesAs.foldl (fun s cl => routesAs_bump (by decide) (by decide) s cl n) path s
  unfold State.countLeg
  split
  · split
    · exact (hf _).trans (routesAs_bump (by decide) (by decide) _ _ _)
    · exact hf _
  · exact RoutesAs.refl s

theorem routesAs_countMesh (s : State) (r : Requester) (a out back : Nat) : RoutesAs s (s.countMesh r a out back) := by
  rw [State.countMesh_eq]
  split
  · exact (routesAs_countLeg s _ _ out).trans (routesAs_countLeg _ _ _ back)
  · exact RoutesAs.refl s

section
variable {s t : State} (h : RoutesAs s t)
include h

theorem RoutesAs.get {f : Fld} (hf : f.reg ∈ hbmRouteRegs) (i : Nat) : t.get f i = s.get f i := by
  rw [State.get, State.get, h _ hf]

theorem RoutesAs.flag {f : Fld} (hf : f.reg ∈ hbmRouteRegs) (i : Nat) : t.flag f i = s.flag f i := by
  rw [State.flag, State.flag, h.get hf]

theorem RoutesAs.quadMode (q : Nat) : t.quadMode q = s.quadMode q := by
  rw [State.quadMode, State.quadMode, h _ (by decide)]

theorem RoutesAs.locate (a : Nat) : t.locate a = s.locate a := by
  rw [State.locate, State.locate, h.quadMode]

theorem RoutesAs.memKey (a : Nat) : t.memKey a = s.memKey a := by
  rw [State.memKey, State.memKey, h.quadMode, h.locate]

theorem RoutesAs.courierPath (x y : Nat) : t.courierPath x y = s.courierPath x y := by
  have hr : t.fencedRouter = s.fencedRouter := by
    funext cl
    rw [State.fencedRouter, State.fencedRouter, h _ (by decide)]
  rw [State.courierPath, State.courierPath, hr]

theorem RoutesAs.meshFenced (r : Requester) (a : Nat) : t.meshFenced r a = s.meshFenced r a := by
  have hp : t.portRouter r a = s.portRouter r a := by
    cases r with
    | mesh c m => rw [State.portRouter, State.portRouter, h.locate]
    | _ => rfl
  have hc : t.courierPath = s.courierPath := by
    funext x y
    exact h.courierPath x y
  rw [State.meshFenced, State.meshFenced, hp, hc]

theorem RoutesAs.pageOwner (g : Nat) : t.pageOwner g = s.pageOwner g := by
  refine h.get ?_ _
  unfold pgOwner
  split <;> decide

theorem RoutesAs.pagePool (g : Nat) : t.pagePool g = s.pagePool g := by
  refine h.flag ?_ _
  unfold pgPool
  split <;> decide

theorem RoutesAs.pageRetired (g : Nat) : t.pageRetired g = s.pageRetired g := by
  refine h.flag ?_ _
  unfold pgRetired
  split <;> decide

theorem RoutesAs.pageFenced : t.pageFenced = s.pageFenced := by
  funext g
  have hs : t.stackFenced = s.stackFenced := by
    funext k
    rw [State.stackFenced, State.stackFenced, h.get (by decide)]
  rw [State.pageFenced, State.pageFenced, h.pageRetired, State.stacksOf, State.stacksOf, h.quadMode, hs]

theorem RoutesAs.mayUse (r : Requester) (g : Nat) : t.mayUse r g = s.mayUse r g := by
  rw [State.mayUse, State.mayUse, h.pageOwner, h.pagePool]

theorem RoutesAs.bankRefused (r : Requester) (a n : Nat) (shadow : Bool) : t.bankRefused r a n shadow = s.bankRefused r a n shadow := by
  have hi : ∀ c, t.inBanks c a n = s.inBanks c a n := fun c => by
    rw [State.inBanks, State.inBanks, h _ (by decide), h _ (by decide), h _ (by decide)]
  have hst : ∀ c, t.sstate c = s.sstate c := fun c => h.get (by decide) c
  unfold State.bankRefused
  split
  · rw [hst, hi]
  · rfl

theorem RoutesAs.routeHbm (r : Requester) (a n : Nat) (write shadow : Bool) :
    t.routeHbm r a n write shadow = s.routeHbm r a n write shadow := by
  have hu : (fun g => !t.mayUse r g) = fun g => !s.mayUse r g := by
    funext g
    rw [h.mayUse]
  rw [State.routeHbm, State.routeHbm, h.flag (by decide), hu, h.bankRefused, h.pageFenced]

theorem RoutesAs.route {a : Nat} (ha : a < hbmEnd) (r : Requester) (n : Nat) (write : Bool) :
    t.route r a n write = s.route r a n write := by
  rw [State.route, State.route, if_pos ha, if_pos ha, h.meshFenced, h.routeHbm]

end
end Sys2Proof.Machine
end

