-- ==== Sys2Proof/Proofs/HbmReadsWrites.lean ====
section
/-! Reads, writes and refusals of HBM (R12, R255 to R273). -/

namespace Sys2Proof.Machine
open Sys2Proof

/-! ## Routes -/

theorem route_of_lt {s : State} {r : Requester} {a n : Nat} {write : Bool} (ha : a < hbmEnd) (hm : s.meshFenced r a = false) :
    s.route r a n write = s.routeHbm r a n write false := by
  rw [State.route, hm, if_neg (by decide), if_pos ha]

theorem routeCxl_ne_hbm (s : State) (r : Requester) (a n b : Nat) : s.routeCxl r a n ≠ .to (.hbm b) := by
  unfold State.routeCxl
  dsimp only
  split
  · nofun
  · split
    · nofun
    · split
      · nofun
      · split
        · nofun
        · split
          · nofun
          · split
            · nofun
            · split <;> nofun

theorem routeHost_ne_hbm (s : State) (r : Requester) (a n : Nat) (write : Bool) (b : Nat) :
    s.routeHost r a n write ≠ .to (.hbm b) := by
  unfold State.routeHost
  dsimp only
  split
  · split
    · split <;> nofun
    · nofun
  · nofun

/-- Only the checks on HBM lead to HBM. -/
theorem lt_of_route_hbm {s : State} {r : Requester} {a n b : Nat} {write : Bool} (h : s.route r a n write = .to (.hbm b)) :
    a < hbmEnd := by
  by_contra ha
  rw [State.route, if_neg (show ¬ a < hbmEnd from ha)] at h
  split at h
  · cases h
  · split at h
    · exact absurd h (routeCxl_ne_hbm s r a n b)
    · split at h
      · unfold State.routeCore at h
        dsimp only at h
        split at h <;> cases h
      · split at h
        · exact absurd h (routeHost_ne_hbm s r a n write b)
        · cases h

/-! ## Served accesses -/

theorem State.emit_out (s : State) (o : Output) : (s.emit o).out = s.out ++ [o] := rfl

theorem access_write {s : State} {r : Requester} {a : Nat} {bs : List Byte} {p : Place}
    (hr : s.route r a bs.length true = .to p) (hp : s.portHolds r a bs.length true = false) :
    s.access r a bs.length (some bs) =
      ((s.poke p bs).countMesh r a (ceilDiv bs.length 32) 0).emit (.memReply r a stOK []) := by
  unfold State.access State.serve
  simp [hp, State.serveWrite, hr, State.answer]

/-- The state of a read before its outcome: counted, and its burst checked. -/
def State.countedRead (s : State) (a n bad fails : Nat) : State :=
  (s.countRead (.hbm a) n).readCheck (a / 32 * 32 + 32 * bad) fails

theorem quiet_countedRead (s : State) (a n bad fails : Nat) : Quiet s (s.countedRead a n bad fails) :=
  (quiet_countRead_hbm s a n).trans (quiet_readCheck _ _ _)

theorem serveRead_good {s : State} {r : Requester} {a n bad fails : Nat} (hr : s.route r a n false = .to (.hbm a))
    (hb : s.badBursts a n = []) (hf : fails < 2) :
    s.serveRead r a n bad fails = ((s.countedRead a n bad fails).countMesh r a 0 (ceilDiv n 32), .data (s.load a n)) := by
  unfold State.serveRead
  simp [hr, State.burstAt, State.badIn, State.hbmRanges, State.mediaRanges, hb, Nat.not_le.mpr hf, State.countedRead, State.peek]

theorem serveRead_bad {s : State} {r : Requester} {a n bad fails : Nat} (hr : s.route r a n false = .to (.hbm a))
    (h : s.badBursts a n ≠ [] ∨ 2 ≤ fails) :
    s.serveRead r a n bad fails = ((s.countedRead a n bad fails).detectIn [(a, n)], .failed stMEM_ERROR) := by
  have hc : (s.badIn (s.hbmRanges (.hbm a) n) || (s.burstAt (.hbm a) bad).isSome && decide (2 ≤ fails)) = true := by
    simpa [State.burstAt, State.badIn, State.hbmRanges, List.isEmpty_iff] using h
  unfold State.serveRead
  rw [hr]
  dsimp only
  rw [if_pos hc]
  rfl

theorem access_read {s t : State} {r : Requester} {a n bad fails : Nat} {rep : Reply} (hp : s.portHolds r a n false = false)
    (h : s.serveRead r a n bad fails = (t, rep)) (hrep : rep ≠ .held) : s.access r a n none bad fails = t.answer r a rep := by
  unfold State.access State.serve
  simp only [Option.isSome_none, hp, h]
  cases rep with
  | held => exact absurd rfl hrep
  | _ => rfl

/-- A read answered with `status` and `data`: the clause of the statement. -/
theorem completes_memoryRead {s t : State} {r : Requester} {a n bad : Nat} {fails : Fin 3} {status : Nat} {data : List Byte}
    (hl : s.live = true) (h : s.access r a n none bad fails.val = t.emit (.memReply r a status data)) (q : Quiet s t) :
    Completes (.memoryRead r a n bad fails) s fun u =>
      u.mem = s.mem ∧ u.out = s.out ++ [.memReply r a status data] ∧ u.cores = s.cores := by
  refine ⟨_, State.act_live _ hl, ?_⟩
  obtain ⟨qm, qo, qc⟩ := q
  obtain ⟨cm, co, cc⟩ := quiet_checkRetry (t.emit (.memReply r a status data)) (s.locate (a + 32 * bad)).1
  rw [h]
  exact ⟨cm.trans qm, co.trans (by rw [State.emit_out, qo]), cc.trans qc⟩

theorem completes_memoryRead_good {s : State} {r : Requester} {a n : Nat} (hl : s.live = true)
    (hr : s.route r a n false = .to (.hbm a)) (hp : s.portHolds r a n false = false) (hb : s.badBursts a n = []) (bad : Nat)
    (fails : Fin 3) (hf : fails.val < 2) : Completes (.memoryRead r a n bad fails) s fun u =>
      u.mem = s.mem ∧ u.out = s.out ++ [.memReply r a 0 (s.load a n)] ∧ u.cores = s.cores :=
  completes_memoryRead hl (access_read hp (serveRead_good hr hb hf) (by simp))
    ((quiet_countedRead s a n bad fails.val).trans (quiet_countMesh _ _ _ _ _))

theorem completes_memoryRead_bad {s : State} {r : Requester} {a n : Nat} (hl : s.live = true)
    (hr : s.route r a n false = .to (.hbm a)) (hp : s.portHolds r a n false = false) (bad : Nat) (fails : Fin 3)
    (h : s.badBursts a n ≠ [] ∨ 2 ≤ fails.val) : Completes (.memoryRead r a n bad fails) s fun u =>
      u.mem = s.mem ∧ u.out = s.out ++ [.memReply r a 9 []] ∧ u.cores = s.cores :=
  completes_memoryRead hl (access_read hp (serveRead_bad hr h) (by simp))
    ((quiet_countedRead s a n bad fails.val).trans (quiet_detectIn _ _))

/-! ## Writes -/

theorem quiet_store_hbmStore (s : State) (a : Nat) (bs : List Byte) : Quiet (s.store a bs) (s.hbmStore a bs) := ⟨rfl, rfl, rfl⟩

theorem store_out (s : State) (a : Nat) (bs : List Byte) : (s.store a bs).out = s.out := by
  unfold State.store
  split <;> rfl

theorem store_cores (s : State) (a : Nat) (bs : List Byte) : (s.store a bs).cores = s.cores := by
  unfold State.store
  split <;> rfl

theorem store_regs (s : State) (a : Nat) (bs : List Byte) : (s.store a bs).regs = s.regs := by
  unfold State.store
  split <;> rfl

theorem routesAs_hbmStore (s : State) (a : Nat) (bs : List Byte) : RoutesAs s (s.hbmStore a bs) := by
  intro r _ i
  unfold State.rn State.rd State.hbmStore State.mend
  dsimp only
  rw [store_regs]

/-- The burst that a write flips is bad afterwards: its check bits fit no data. -/
theorem checkBits_flipBursts {s t : State} {r : Requester} {a n f : Nat} {flips : List Nat} (hf : f ∈ flips) (hn : 32 * f < n)
    (ht : t.route r a n true = .to (.hbm a)) (hk : ∀ b, t.memKey b = s.memKey b) :
    (t.flipBursts r a n flips).checkBits (s.memKey (a / 32 * 32 + 32 * f) / 32) = none := by
  have hbad : s.memKey (a / 32 * 32 + 32 * f) / 32 ∈ (t.flipBursts r a n flips).mt.bad := by
    unfold State.flipBursts
    rw [ht, ← hk]
    dsimp only
    set b := t.memKey (a / 32 * 32 + 32 * f) / 32 with hb
    have hks : b ∈ flips.filterMap fun f => if 32 * f < n then (t.burstAt (.hbm a) f).map fun a => t.memKey a / 32 else none :=
      List.mem_filterMap.mpr ⟨f, hf, by rw [if_pos hn]; rfl⟩
    by_cases hin : b ∈ t.mt.bad
    · exact List.mem_append_left _ hin
    · exact List.mem_append_right _ (List.mem_filter.mpr ⟨hks, by simpa using hin⟩)
  rw [State.checkBits, if_pos hbad]

theorem quiet_flipBursts (s : State) (r : Requester) (a n : Nat) (flips : List Nat) : Quiet s (s.flipBursts r a n flips) := by
  unfold State.flipBursts
  split
  · exact ⟨rfl, rfl, rfl⟩
  · exact Quiet.refl s

/-- A write to HBM, before its acknowledgement. -/
def State.written (s : State) (r : Requester) (a : Nat) (bs : List Byte) : State :=
  (s.poke (.hbm a) bs).countMesh r a (ceilDiv bs.length 32) 0

theorem poke_hbm (s : State) (a : Nat) (bs : List Byte) :
    s.poke (.hbm a) bs = (s.hbmStore a bs).countHbm .MEM_WRITE_BYTES a bs.length := rfl

theorem routesAs_written (s : State) (r : Requester) (a : Nat) (bs : List Byte) : RoutesAs s (s.written r a bs) := by
  rw [State.written, poke_hbm]
  exact ((routesAs_hbmStore s a bs).trans (routesAs_countHbm_write _ _ _)).trans (routesAs_countMesh _ _ _ _ _)

theorem quiet_written (s : State) (r : Requester) (a : Nat) (bs : List Byte) : Quiet (s.store a bs) (s.written r a bs) := by
  rw [State.written, poke_hbm]
  exact ((quiet_store_hbmStore s a bs).trans (quiet_countHbm _ _ _ _)).trans (quiet_countMesh _ _ _ _ _)

theorem completes_memoryWrite {s : State} {r : Requester} {a : Nat} {data : List Byte} {flips : List Nat} (hl : s.live = true)
    (hr : s.route r a data.length true = .to (.hbm a)) (hp : s.portHolds r a data.length true = false) :
    Completes (.memoryWrite r a ⟨data, flips⟩) s fun u =>
      u.mem = (s.store a data).mem ∧ u.out = s.out ++ [.memReply r a 0 []] ∧ u.cores = s.cores ∧
      ∀ f ∈ flips, 32 * f < data.length → u.checkBits (s.memKey (a / 32 * 32 + 32 * f) / 32) = none := by
  set t := (s.written r a data).emit (.memReply r a stOK []) with ht
  have hacc : s.access r a data.length (some data) = t := access_write hr hp
  have hroute : RoutesAs s t := routesAs_written s r a data
  obtain ⟨wm, wo, wc⟩ := quiet_written s r a data
  obtain ⟨fm, fo, fc⟩ := quiet_flipBursts t r a data.length flips
  refine ⟨t.flipBursts r a data.length flips, ?_, fm.trans wm, ?_, fc.trans (wc.trans (store_cores s a data)), ?_⟩
  · rw [← hacc]
    exact State.act_live _ hl
  · rw [fo, ht, State.emit_out, wo, store_out]
    rfl
  · intro f hf hn
    exact checkBits_flipBursts hf hn ((hroute.route (lt_of_route_hbm hr) r _ true).trans hr) hroute.memKey

/-! ## Refusals -/

section
variable {s : State} {c : Ctx} {a n : Nat} {write : Bool}

theorem route_agent (ha : a < hbmEnd) : s.route (.agent c) a n write = s.routeHbm (.agent c) a n write false :=
  route_of_lt ha rfl

/-- An agent may use the pages of its own context. -/
theorem mayUse_agent (g : Nat) : s.mayUse (.agent c) g = decide (s.pageOwner g = c.val) := by
  simp [State.mayUse, Requester.owns, Requester.ctxNum, eq_comm]

theorem routeHbm_not_ready (h : s.flag MEM_STATUS.init_done = false) : s.routeHbm (.agent c) a n write false = .refuse 8 := by
  simp [State.routeHbm, h, stADDR_FAULT]

theorem routeHbm_misaligned (h : a % 64 ≠ 0 ∨ n % 64 ≠ 0) : s.routeHbm (.agent c) a n write false = .refuse 8 := by
  have hc : (!(Requester.agent c).isHost && (decide (a % 64 ≠ 0) || decide (n % 64 ≠ 0))) = true := by
    simpa [Requester.isHost] using h
  rw [State.routeHbm, if_pos hc, ite_self]
  rfl

theorem routeHbm_beyond (h : hbmEnd < a + n) : s.routeHbm (.agent c) a n write false = .refuse 8 := by
  rw [State.routeHbm, if_pos h, ite_self, ite_self]
  rfl

theorem routeHbm_foreign {g : Nat} (hg : g ∈ pagesIn a n) (h : s.pageOwner g ≠ c.val) :
    s.routeHbm (.agent c) a n write false = .refuse 8 := by
  have hc : (pagesIn a n).any (fun g => !s.mayUse (.agent c) g) = true :=
    List.any_eq_true.mpr ⟨g, hg, by simpa [mayUse_agent] using h⟩
  rw [State.routeHbm, if_pos hc, ite_self, ite_self, ite_self]
  rfl

/-- An access that passes every check but the fences. -/
theorem routeHbm_owned (hi : s.flag MEM_STATUS.init_done = true) (ha : a % 64 = 0) (hn : n % 64 = 0) (he : a + n ≤ hbmEnd)
    (ho : ∀ g ∈ pagesIn a n, s.pageOwner g = c.val) (hw : write = true → s.bankRefused (.agent c) a n false = false) :
    s.routeHbm (.agent c) a n write false = if (pagesIn a n).any s.pageFenced then .refuse 10 else .to (.hbm a) := by
  have hu : (pagesIn a n).any (fun g => !s.mayUse (.agent c) g) = false :=
    List.any_eq_false.mpr fun g hg => by simpa [mayUse_agent] using ho g hg
  have hb : (write && s.bankRefused (.agent c) a n false) = false := by
    cases write with
    | false => rfl
    | true => exact hw rfl
  rw [State.routeHbm, hu, hb, if_neg (show ¬ hbmEnd < a + n by omega)]
  simp [hi, ha, hn, stFENCED]

end

/-- Settles O16: a write and a read by their served forms, a refusal by its check of `routeHbm`. -/
theorem hbmReadsWritesAndRefusals : Obligations.HbmReadsWritesAndRefusals := by
  unfold Obligations.HbmReadsWritesAndRefusals
  refine ⟨fun s req a hl => ⟨fun data flips hr hp => completes_memoryWrite hl hr hp, fun n hr hp => ⟨fun hb => ⟨?_, ?_, ?_⟩, ?_⟩⟩, ?_⟩
  · exact fun bad => completes_memoryRead_good hl hr hp hb bad 0 (by decide)
  · exact fun bad => completes_memoryRead_good hl hr hp hb bad 1 (by decide)
  · exact fun bad => completes_memoryRead_bad hl hr hp bad 2 (.inr (by decide))
  · exact fun hb bad fails => completes_memoryRead_bad hl hr hp bad fails (.inl hb)
  · intro s c a n write ha
    dsimp only
    rw [route_agent ha]
    refine ⟨routeHbm_not_ready, routeHbm_misaligned, routeHbm_beyond, fun g hg => routeHbm_foreign hg, ?_, ?_⟩
    · intro hi h64 hn he ho hw
      rw [routeHbm_owned hi h64 hn he ho hw]
      refine ⟨fun ⟨g, hg, hf⟩ => if_pos (List.any_eq_true.mpr ⟨g, hg, hf⟩), fun hf => if_neg ?_⟩
      rw [Bool.not_eq_true, List.any_eq_false]
      exact fun g hg => by rw [hf g hg]; decide
    · intro m hm
      have hf : s.meshFenced (.mesh c m) a = true := by
        simp [State.meshFenced, State.portRouter, ha, hm]
      rw [State.route, if_pos hf]
      rfl

end Sys2Proof.Machine
end

