-- ==== Sys2Proof/Proofs/RegisterFields.lean ====
section
/-! Fields of a register word, and what a write under the access types does to them (R14, R15). -/

namespace Sys2Proof.Machine
open Sys2Proof

theorem testBit_bits (v hi lo k : Nat) : (bits v hi lo).testBit k = (decide (k < hi + 1 - lo) && v.testBit (k + lo)) := by
  rw [bits, Nat.testBit_mod_two_pow, Nat.testBit_div_two_pow, Nat.add_comm]

/-- Words that agree on the bits of a field have the same field. -/
theorem bits_congr {x y hi lo : Nat} (h : ∀ k, lo ≤ k → k ≤ hi → x.testBit k = y.testBit k) : bits x hi lo = bits y hi lo := by
  refine Nat.eq_of_testBit_eq fun k => ?_
  rw [testBit_bits, testBit_bits]
  by_cases hk : k < hi + 1 - lo
  · rw [h (k + lo) (by omega) (by omega)]
  · simp [hk]

theorem testBit_of_bits_eq_zero {v hi lo k : Nat} (h : bits v hi lo = 0) (hlo : lo ≤ k) (hhi : k ≤ hi) : v.testBit k = false := by
  have hb := testBit_bits v hi lo (k - lo)
  rw [h, Nat.zero_testBit, Nat.sub_add_cancel hlo, decide_eq_true (show k - lo < hi + 1 - lo by omega), Bool.true_and] at hb
  exact hb.symm

/-- The bits of a register that some write changes. -/
def Reg.writeMask (r : Reg) : Nat := accMask r (fun a => a = .rw) ||| accMask r (fun a => a = .w1c) ||| accMask r (fun a => a = .w1s)

/-- The fields of a register name it, and no write reaches a read-only one. -/
def Reg.fieldsKept (r : Reg) : Bool :=
  r.info.fields.all fun f => decide (f.reg = r) && decide (f.acc = .ro → bits r.writeMask f.hi f.lo = 0)

theorem Reg.fieldsKept_true (r : Reg) : r.fieldsKept = true := by
  cases r <;> rfl

theorem Reg.reg_of_mem_fields {r : Reg} {f : Fld} (hf : f ∈ r.info.fields) : f.reg = r := by
  have h := List.all_eq_true.mp r.fieldsKept_true f hf
  rw [Bool.and_eq_true, decide_eq_true_eq] at h
  exact h.1

theorem Reg.bits_writeMask_of_ro {r : Reg} {f : Fld} (hf : f ∈ r.info.fields) (ha : f.acc = .ro) :
    bits r.writeMask f.hi f.lo = 0 := by
  have h := List.all_eq_true.mp r.fieldsKept_true f hf
  rw [Bool.and_eq_true, decide_eq_true_eq, decide_eq_true_eq] at h
  exact h.2 ha

theorem Reg.getLsbD_written (r : Reg) (old v mask : DWord) {k : Nat} (hk : k < 64) :
    (r.written old v mask).getLsbD k =
      let m (p : Access → Bool) : Bool := (accMask r p).testBit k && mask.getLsbD k
      ((old.getLsbD k && !m fun a => a = .rw) || (v.getLsbD k && m fun a => a = .rw)) && !(v.getLsbD k && m fun a => a = .w1c) ||
        (v.getLsbD k && m fun a => a = .w1s) := by
  simp only [Reg.written, BitVec.getLsbD_or, BitVec.getLsbD_and, BitVec.getLsbD_not, BitVec.getLsbD_ofNat, hk, decide_true,
    Bool.true_and]

/-- A bit outside the mask, or of no field that a write changes, keeps its value. -/
theorem Reg.getLsbD_written_kept {r : Reg} {k : Nat} (old v mask : DWord) (hk : k < 64)
    (h : r.writeMask.testBit k = false ∨ mask.getLsbD k = false) : (r.written old v mask).getLsbD k = old.getLsbD k := by
  rw [Reg.getLsbD_written r old v mask hk]
  rcases h with h | h
  · simp only [Reg.writeMask, Nat.testBit_or, Bool.or_eq_false_iff] at h
    obtain ⟨⟨hrw, hc⟩, hs⟩ := h
    simp [hrw, hc, hs]
  · simp [h]

/-- A bit of a field that software may read and write takes the value written. -/
theorem Reg.getLsbD_written_rw {r : Reg} {k : Nat} (old v mask : DWord) (hk : k < 64) (hm : mask.getLsbD k = true)
    (hrw : (accMask r fun a => a = .rw).testBit k = true) (hc : (accMask r fun a => a = .w1c).testBit k = false)
    (hs : (accMask r fun a => a = .w1s).testBit k = false) : (r.written old v mask).getLsbD k = v.getLsbD k := by
  rw [Reg.getLsbD_written r old v mask hk]
  simp [hm, hrw, hc, hs]

/-- Writing a bit the value it has changes nothing, where no clearing or setting field lies. -/
theorem Reg.getLsbD_written_same {r : Reg} {k : Nat} (old v mask : DWord) (hk : k < 64) (h : v.getLsbD k = old.getLsbD k)
    (hc : (accMask r fun a => a = .w1c).testBit k = false) (hs : (accMask r fun a => a = .w1s).testBit k = false) :
    (r.written old v mask).getLsbD k = old.getLsbD k := by
  rw [Reg.getLsbD_written r old v mask hk]
  simp only [h, hc, hs]
  cases (accMask r fun a => a = .rw).testBit k && mask.getLsbD k <;> simp

/-- The mask of a 32-bit write. -/
theorem getLsbD_lowMask (k : Nat) : (0xFFFFFFFF#64).getLsbD k = decide (k < 32) := by
  have h : (0xFFFFFFFF#64) = BitVec.setWidth 64 (BitVec.allOnes 32) := rfl
  rw [h, BitVec.getLsbD_setWidth, BitVec.getLsbD_allOnes]
  by_cases hk : k < 32
  · simp [hk]
    omega
  · simp [hk]

end Sys2Proof.Machine
end

