-- ==== Sys2Proof/Proofs/RegisterAccesses.lean ====
section
/-! Reads and writes of registers, refused accesses and split reads of counters (R13 to R19). -/

namespace Sys2Proof.Machine
open Sys2Proof

theorem State.get_wr (s : State) (f : Fld) (i : Nat) (v : DWord) : (s.wr f.reg i v).get f i = bits v.toNat f.hi f.lo := by
  rw [State.get, State.rn, State.rd_wr_self]

/-! ## Refused accesses -/

/-- An access refused and counted (R19): the clause of the statement. -/
theorem badAccess_counted (s : State) (fn : Func) :
    (s.badAccess fn).rn .HIF_BAD_ACCESS fn.val = min (s.rn .HIF_BAD_ACCESS fn.val + 1) (2 ^ 64 - 1) ∧
      (s.badAccess fn).mem = s.mem ∧ (s.badAccess fn).cores = s.cores :=
  ⟨State.rn_bump_self s .HIF_BAD_ACCESS fn.val 1 (Reg.key_ne (by decide) (by decide) (by decide) _ _),
    State.bump_mem _ _ _ _, State.bump_cores _ _ _ _⟩

theorem badAccess_out (s : State) (fn : Func) : (s.badAccess fn).out = s.out := State.bump_out _ _ _ _

theorem registerWrite_asleep {s : State} {fn : Func} (hd : s.decodes fn = false) (off : Fin 67108864) (wide : Bool) (v : DWord) :
    exec (.registerWrite fn off wide v) s = .next s := by
  change execRegisterWrite fn off wide v s = _
  simp [execRegisterWrite, State.act, hd]

theorem counterSplitRead_asleep {s : State} {fn : Func} (hd : s.decodes fn = false) (off : Fin 67108864) :
    exec (.counterSplitRead fn off) s = .next s := by
  change execCounterSplitRead fn off s = _
  simp [execCounterSplitRead, State.act, hd]

theorem registerWrite_nowhere {s : State} {fn : Func} {off : Fin 67108864} (hd : s.decodes fn = true) (h4 : off.val % 4 = 0)
    (hf : findReg fn.val off.val = none) (v : DWord) : exec (.registerWrite fn off false v) s = .next s := by
  change execRegisterWrite fn off false v s = _
  simp [execRegisterWrite, hd, h4, hf, State.act]

section
variable {s : State} {fn : Func} {off : Fin 67108864} (hl : s.live = true)
include hl

theorem badRegisterAccess_ignored {write : Bool} {o w : Nat} (h : ¬(s.decodes fn = true ∧ ((w ≠ 4 ∧ w ≠ 8) ∨ o % w ≠ 0))) :
    exec (.badRegisterAccess fn write o w) s = .next s := by
  change execBadRegisterAccess fn write o w s = _
  rw [execBadRegisterAccess, if_neg h, State.act_live _ hl]

theorem badRegisterAccess_refused {o w : Nat} (hd : s.decodes fn = true) (h : (w ≠ 4 ∧ w ≠ 8) ∨ o % w ≠ 0) (write : Bool) :
    exec (.badRegisterAccess fn write o w) s =
      .next (if write then s.badAccess fn else (s.badAccess fn).emit (.regRead fn.val o (BitVec.allOnes 64))) := by
  change execBadRegisterAccess fn write o w s = _
  rw [execBadRegisterAccess, if_pos ⟨hd, h⟩, State.act_live _ hl]

/-! ## Writes -/

variable (hd : s.decodes fn = true)
include hd

theorem registerWrite_misaligned {wide : Bool} (v : DWord) (h : off.val % (if wide then 8 else 4) ≠ 0) :
    exec (.registerWrite fn off wide v) s = .next (s.badAccess fn) := by
  change execRegisterWrite fn off wide v s = _
  unfold execRegisterWrite
  dsimp only
  rw [hd, if_neg (by decide), if_pos h, State.act_live _ hl]

theorem registerWrite_narrow {r : Reg} {i : Nat} (v : DWord) (h4 : off.val % 4 = 0)
    (hf : findReg fn.val off.val = some (r, i, 0)) : exec (.registerWrite fn off false v) s =
      .next (s.writeReg fn r i (v &&& 0xFFFFFFFF#64) 0xFFFFFFFF#64) := by
  change execRegisterWrite fn off false v s = _
  simp [execRegisterWrite, hd, h4, hf, State.act, hl]

/-! ## Reads -/

theorem counterSplitRead_misaligned (h : off.val % 4 ≠ 0) : exec (.counterSplitRead fn off) s =
    .next ((s.badAccess fn).emit (.regRead fn.val off.val 0xFFFFFFFF#64)) := by
  change execCounterSplitRead fn off s = _
  simp [execCounterSplitRead, hd, h, State.act, hl]

theorem counterSplitRead_nowhere (h4 : off.val % 4 = 0) (hf : findReg fn.val off.val = none) :
    exec (.counterSplitRead fn off) s = .next (s.emit (.regRead fn.val off.val 0#64)) := by
  change execCounterSplitRead fn off s = _
  simp [execCounterSplitRead, hd, h4, hf, State.act, hl]

variable {r : Reg} {i b : Nat} (h4 : off.val % 4 = 0) (hf : findReg fn.val off.val = some (r, i, b))
include h4 hf

theorem counterSplitRead_hidden (hs : s.sees fn.val r i = false) : exec (.counterSplitRead fn off) s =
    .next ((s.badAccess fn).emit (.regRead fn.val off.val 0xFFFFFFFF#64)) := by
  change execCounterSplitRead fn off s = _
  simp [execCounterSplitRead, hd, h4, hf, hs, State.act, hl]

theorem counterSplitRead_narrow (hs : s.sees fn.val r i = true) (hw : r.info.wide = false) : exec (.counterSplitRead fn off) s =
    .next (s.emit (.regRead fn.val off.val (BitVec.ofNat 64 (s.view r i)))) := by
  change execCounterSplitRead fn off s = _
  simp [execCounterSplitRead, hd, h4, hf, hs, hw, State.act, hl]

theorem counterSplitRead_lower (hs : s.sees fn.val r i = true) (hw : r.info.wide = true) (hb : b = 0) :
    exec (.counterSplitRead fn off) s =
      .next ((s.setHif { s.hif with hold := spSet (0, 0) s.hif.hold fn.val (off.val + 1, s.view r i / 2 ^ 32) }).emit
        (.regRead fn.val off.val (BitVec.ofNat 64 (s.view r i % 2 ^ 32)))) := by
  subst hb
  change execCounterSplitRead fn off s = _
  simp [execCounterSplitRead, hd, h4, hf, hs, hw, State.act, hl]

theorem counterSplitRead_upper {hi : Nat} (hs : s.sees fn.val r i = true) (hw : r.info.wide = true) (hb : b ≠ 0)
    (hh : spGet (0, 0) s.hif.hold fn.val = (off.val - 4 + 1, hi)) : exec (.counterSplitRead fn off) s =
      .next ((s.setHif { s.hif with hold := spSet (0, 0) s.hif.hold fn.val (0, 0) }).emit
        (.regRead fn.val off.val (BitVec.ofNat 64 hi))) := by
  change execCounterSplitRead fn off s = _
  simp [execCounterSplitRead, hd, h4, hf, hs, hw, hb, hh, State.act, hl]

end

/-! ## What a write of a register does -/

/-- A write whose fields come within their limits. -/
def State.wrClamped (s : State) (r : Reg) (i : Nat) (v : DWord) : State :=
  (clampOf r).foldl (fun (s : State) c => s.put c.1 i (max c.2.1 (min c.2.2 (s.get c.1 i)))) (s.wr r i v)

/-- What the package does after a write of a register that it shows elsewhere. -/
def State.afterWrite (s : State) (r : Reg) (i : Nat) : State :=
  match r with
  | .HIF_MSIX_TABLE => s.sendPending (i / 512)
  | .LNK_FLOCK => if s.joined then s.showFlock else s
  | .TIR_EXTENT => s.showSlotOwners
  | _ => s

section
variable {s : State} {fn : Func} {r : Reg} {i : Nat} (v mask : DWord)

theorem writeReg_hidden (hs : s.sees fn.val r i = false) : s.writeReg fn r i v mask = s.badAccess fn := by
  simp [State.writeReg, hs]

variable (hs : s.sees fn.val r i = true)
include hs

theorem writeReg_own (ho : r.info.own = true) : s.writeReg fn r i v mask = s.writeOwn r i (r.written (s.rd r i) v mask) := by
  simp [State.writeReg, hs, ho]

theorem writeReg_locked (ho : r.info.own = false) (hk : s.writeLocked r i = true) : s.writeReg fn r i v mask = s := by
  simp [State.writeReg, hs, ho, hk]

/-- A write that the register takes: its fields change, come within their limits, and what depends on them follows. -/
theorem writeReg_taken (ho : r.info.own = false) (hk : s.writeLocked r i = false) :
    s.writeReg fn r i v mask = (s.wrClamped r i (r.written (s.rd r i) v mask)).afterWrite r i := by
  rw [State.writeReg, hs, ho, hk]
  rfl

end

theorem wrClamped_eq_wr {r : Reg} (hc : clampOf r = []) (s : State) (i : Nat) (v : DWord) : s.wrClamped r i v = s.wr r i v := by
  rw [State.wrClamped, hc, List.foldl_nil]

theorem afterWrite_eq_self {r : Reg} (h₁ : r ≠ .HIF_MSIX_TABLE) (h₂ : r ≠ .LNK_FLOCK) (h₃ : r ≠ .TIR_EXTENT) (s : State)
    (i : Nat) : s.afterWrite r i = s := by
  unfold State.afterWrite
  split
  · exact absurd rfl h₁
  · exact absurd rfl h₂
  · exact absurd rfl h₃
  · rfl

/-- A read-only field keeps its value under any write of its register. -/
theorem get_wr_written_ro {s : State} {r : Reg} {f : Fld} {i : Nat} (v mask : DWord) (hf : f ∈ r.info.fields) (ha : f.acc = .ro)
    (hh : f.hi < 64) : (s.wr r i (r.written (s.rd r i) v mask)).get f i = s.get f i := by
  obtain rfl := Reg.reg_of_mem_fields hf
  rw [State.get_wr, State.get, State.rn]
  refine bits_congr fun k hlo hhi => ?_
  rw [BitVec.testBit_toNat, BitVec.testBit_toNat]
  exact Reg.getLsbD_written_kept _ _ _ (by omega) (.inl (testBit_of_bits_eq_zero (Reg.bits_writeMask_of_ro hf ha) hlo hhi))

/-! ## The clauses of the statement on writes -/

section
variable {s : State} {fn : Func} {off : Fin 67108864} {i : Nat} (hl : s.live = true) (hd : s.decodes fn = true)
  (h4 : off.val % 4 = 0)
include hl hd h4

theorem registerWrite_locked {r : Reg} (v : DWord) (hf : findReg fn.val off.val = some (r, i, 0)) (hs : s.sees fn.val r i = true)
    (ho : r.info.own = false) (hk : s.writeLocked r i = true) : exec (.registerWrite fn off false v) s = .next s := by
  rw [registerWrite_narrow hl hd v h4 hf, writeReg_locked _ _ hs ho hk]

theorem registerWrite_own {r : Reg} (v : DWord) (hf : findReg fn.val off.val = some (r, i, 0)) (hs : s.sees fn.val r i = true)
    (ho : r.info.own = true) : exec (.registerWrite fn off false v) s =
      .next (s.writeOwn r i (r.written (s.rd r i) (v &&& 0xFFFFFFFF#64) 0xFFFFFFFF#64)) := by
  rw [registerWrite_narrow hl hd v h4 hf, writeReg_own _ _ hs ho]

/-- A register with no limits of its own. -/
theorem registerWrite_unclamped {r : Reg} (v : DWord) (hf : findReg fn.val off.val = some (r, i, 0))
    (hs : s.sees fn.val r i = true) (ho : r.info.own = false) (hk : s.writeLocked r i = false) (hc : clampOf r = []) :
    exec (.registerWrite fn off false v) s =
      .next ((s.wr r i (r.written (s.rd r i) (v &&& 0xFFFFFFFF#64) 0xFFFFFFFF#64)).afterWrite r i) := by
  rw [registerWrite_narrow hl hd v h4 hf, writeReg_taken _ _ hs ho hk, wrClamped_eq_wr hc]

end

/-- A bit of a narrow write that software may read and write takes the bit written. -/
theorem testBit_written_narrow {r : Reg} (old v : DWord) {k : Nat} (hk : k < 32)
    (hrw : (accMask r fun a => a = .rw).testBit k = true) (hc : (accMask r fun a => a = .w1c).testBit k = false)
    (hs : (accMask r fun a => a = .w1s).testBit k = false) :
    (r.written old (v &&& 0xFFFFFFFF#64) 0xFFFFFFFF#64).toNat.testBit k = v.toNat.testBit k := by
  rw [BitVec.testBit_toNat, BitVec.testBit_toNat,
    Reg.getLsbD_written_rw _ _ _ (by omega) (by simpa [getLsbD_lowMask] using hk) hrw hc hs, BitVec.getLsbD_and, getLsbD_lowMask,
    decide_eq_true hk, Bool.and_true]

/-- A field in the lower half that software may read and write takes the field written. -/
theorem bits_written_narrow {r : Reg} (old v : DWord) {hi lo : Nat} (hh : hi < 32)
    (hm : bits (accMask r fun a => a = .rw) hi lo = 2 ^ (hi + 1 - lo) - 1) (hc : (accMask r fun a => a = .w1c) = 0)
    (hs : (accMask r fun a => a = .w1s) = 0) :
    bits (r.written old (v &&& 0xFFFFFFFF#64) 0xFFFFFFFF#64).toNat hi lo = bits v.toNat hi lo := by
  refine bits_congr fun k hlo hhi => testBit_written_narrow old v (by omega) ?_ (by rw [hc, Nat.zero_testBit])
    (by rw [hs, Nat.zero_testBit])
  have h := testBit_bits (accMask r fun a => a = .rw) hi lo (k - lo)
  rw [hm, Nat.testBit_two_pow_sub_one, Nat.sub_add_cancel hlo, decide_eq_true (show k - lo < hi + 1 - lo by omega),
    Bool.true_and] at h
  exact h.symm

/-! ## Translation entries and the power target -/

/-- What a narrow write leaves in a translation entry: it goes through the access types twice. -/
def xlatWord (old v : DWord) : DWord :=
  Reg.written .HIF_XLAT old (Reg.written .HIF_XLAT old (v &&& 0xFFFFFFFF#64) 0xFFFFFFFF#64) (BitVec.allOnes 64)

theorem writeOwn_xlat {s : State} {i : Nat} (v : DWord) (hi : i % 16384 < s.xlatCount) :
    s.writeOwn .HIF_XLAT i (Reg.written .HIF_XLAT (s.rd .HIF_XLAT i) (v &&& 0xFFFFFFFF#64) 0xFFFFFFFF#64) =
      s.wr .HIF_XLAT i (xlatWord (s.rd .HIF_XLAT i) v) := by
  change s.writeXlat i _ = _
  rw [State.writeXlat, if_neg (Nat.not_le.mpr hi)]
  rfl

theorem testBit_xlatWord (old v : DWord) {k : Nat} (hk : k < 32)
    (hrw : (accMask .HIF_XLAT fun a => a = .rw).testBit k = true) : (xlatWord old v).toNat.testBit k = v.toNat.testBit k := by
  have hc : (accMask .HIF_XLAT fun a => a = .w1c) = 0 := rfl
  have hs : (accMask .HIF_XLAT fun a => a = .w1s) = 0 := rfl
  rw [← testBit_written_narrow old v hk hrw (by rw [hc, Nat.zero_testBit]) (by rw [hs, Nat.zero_testBit]), BitVec.testBit_toNat,
    BitVec.testBit_toNat]
  exact Reg.getLsbD_written_rw _ _ _ (by omega)
    (by rw [BitVec.getLsbD_allOnes]; exact decide_eq_true (by omega)) hrw (by rw [hc, Nat.zero_testBit]) (by rw [hs, Nat.zero_testBit])

theorem div_xlatWord (old v : DWord) : (xlatWord old v).toNat / 2 ^ 32 = old.toNat / 2 ^ 32 := by
  have hc : (accMask .HIF_XLAT fun a => a = .w1c) = 0 := rfl
  have hs : (accMask .HIF_XLAT fun a => a = .w1s) = 0 := rfl
  refine Nat.eq_of_testBit_eq fun k => ?_
  rw [Nat.testBit_div_two_pow, Nat.testBit_div_two_pow, BitVec.testBit_toNat, BitVec.testBit_toNat]
  by_cases hk : k + 32 < 64
  · refine Reg.getLsbD_written_same _ _ _ hk ?_ (by rw [hc, Nat.zero_testBit]) (by rw [hs, Nat.zero_testBit])
    exact Reg.getLsbD_written_kept _ _ _ hk (.inr (by simp [getLsbD_lowMask]))
  · rw [BitVec.getLsbD_of_ge _ _ (by omega), BitVec.getLsbD_of_ge _ _ (by omega)]

theorem registerWrite_xlat {s : State} {fn : Func} {off : Fin 67108864} {i : Nat} (hl : s.live = true) (hd : s.decodes fn = true)
    (h4 : off.val % 4 = 0) (v : DWord) (hf : findReg fn.val off.val = some (.HIF_XLAT, i, 0))
    (hs : s.sees fn.val .HIF_XLAT i = true) (hi : i % 16384 < s.xlatCount) :
    Completes (.registerWrite fn off false v) s fun u =>
      u.get HIF_XLAT.valid i = v.toNat % 2 ∧ u.get HIF_XLAT.write i = v.toNat / 2 % 2 ∧
      u.rn .HIF_XLAT i / 2 ^ 32 = s.rn .HIF_XLAT i / 2 ^ 32 ∧ u.mem = s.mem ∧ u.out = s.out := by
  refine ⟨s.wr .HIF_XLAT i (xlatWord (s.rd .HIF_XLAT i) v),
    (registerWrite_own hl hd h4 v hf hs rfl).trans (by rw [writeOwn_xlat v hi]), ?_, ?_, ?_, rfl, rfl⟩
  · have hb : bits (xlatWord (s.rd .HIF_XLAT i) v).toNat 0 0 = bits v.toNat 0 0 :=
      bits_congr fun k _ hk => testBit_xlatWord _ _ (by omega) (by rw [Nat.le_zero.mp hk]; rfl)
    exact (State.get_wr s HIF_XLAT.valid i _).trans (hb.trans (by simp [bits]))
  · have hb : bits (xlatWord (s.rd .HIF_XLAT i) v).toNat 1 1 = bits v.toNat 1 1 :=
      bits_congr fun k hk hk' => testBit_xlatWord _ _ (by omega) (by rw [Nat.le_antisymm hk' hk]; rfl)
    exact (State.get_wr s HIF_XLAT.write i _).trans (hb.trans (by simp [bits]))
  · rw [State.rn, State.rd_wr_self, div_xlatWord]
    rfl

theorem registerWrite_powerTarget {s : State} {fn : Func} {off : Fin 67108864} (hl : s.live = true) (hd : s.decodes fn = true)
    (h4 : off.val % 4 = 0) (v : DWord) (h0 : fn.val = 0) (hf : findReg 0 off.val = some (.PWR_TARGET, 0, 0)) :
    Completes (.registerWrite fn off false v) s fun u =>
      u.get PWR_TARGET.watts = max 1800 (min 3200 (v.toNat % 4096)) ∧ u.mem = s.mem := by
  have hs : s.sees fn.val .PWR_TARGET 0 = true := decide_eq_true h0
  have hf' : findReg fn.val off.val = some (.PWR_TARGET, 0, 0) := by rw [h0, hf]
  set t := s.wr .PWR_TARGET 0 (Reg.written .PWR_TARGET (s.rd .PWR_TARGET 0) (v &&& 0xFFFFFFFF#64) 0xFFFFFFFF#64) with ht
  have hw : t.get PWR_TARGET.watts 0 = v.toNat % 4096 := by
    refine (State.get_wr s PWR_TARGET.watts 0 _).trans ((bits_written_narrow _ v (by decide) rfl rfl rfl).trans ?_)
    simp [bits]
  have hc : s.wrClamped .PWR_TARGET 0 (Reg.written .PWR_TARGET (s.rd .PWR_TARGET 0) (v &&& 0xFFFFFFFF#64) 0xFFFFFFFF#64) =
      t.put PWR_TARGET.watts 0 (max 1800 (min 3200 (t.get PWR_TARGET.watts 0))) := rfl
  refine ⟨t.put PWR_TARGET.watts 0 (max 1800 (min 3200 (t.get PWR_TARGET.watts 0))), ?_, ?_, rfl⟩
  · rw [registerWrite_narrow hl hd v h4 hf', writeReg_taken _ _ hs rfl rfl, hc]
    rfl
  · rw [State.get_put_self _ _ _ _ (by decide) (by decide), hw]
    exact Nat.mod_eq_of_lt (show _ < 4096 by omega)

/-! ## Registers whose value the package makes when they are read -/

theorem view_eq_rn {r : Reg} (h₁ : r ≠ .CORE_STATUS) (h₂ : r ≠ .CORE_MATCH_ENTRY) (s : State) (i : Nat) :
    s.view r i = s.rn r i := by
  unfold State.view
  split
  · exact absurd rfl h₁
  · exact absurd rfl h₂
  · rfl

theorem view_coreStatus (s : State) (k : Nat) :
    bits (s.view .CORE_STATUS k) 15 8 = (s.core k).entries.length % 256 ∧
      bits (s.view .CORE_STATUS k) 31 16 = (s.core k).base.toNat ∧
      bits (s.view .CORE_STATUS k) 1 1 = if (s.core k).atIdle then 1 else 0 := by
  simp only [State.view]
  refine ⟨?_, ?_, ?_⟩
  · rw [bits_putBits_below _ _ _ _ _ _ (by decide), bits_putBits]
    rfl
  · rw [bits_putBits]
    exact Nat.mod_eq_of_lt (s.core k).base.isLt
  · rw [bits_putBits_below _ _ _ _ _ _ (by decide), bits_putBits_below _ _ _ _ _ _ (by decide), bits_putBits]
    split <;> rfl

theorem view_matchEntry {j : Nat} (hj : j < 128) (s : State) (k : Nat) : s.view .CORE_MATCH_ENTRY (128 * k + j) =
    (((s.core k).entries.find? fun m => 4 * m.op + m.tag.toNat % 4 = j).map MEntry.word).getD 0 := by
  simp only [State.view]
  rw [Nat.mul_add_div (by decide), Nat.div_eq_of_lt hj, Nat.add_zero, Nat.mul_add_mod, Nat.mod_eq_of_lt hj]

theorem view_matchEntry_none {j : Nat} (hj : j < 128) {s : State} {k : Nat}
    (h : ∀ m ∈ (s.core k).entries, 4 * m.op + m.tag.toNat % 4 ≠ j) : s.view .CORE_MATCH_ENTRY (128 * k + j) = 0 := by
  rw [view_matchEntry hj, List.find?_eq_none.mpr (by simpa using h)]
  rfl

/-- Settles O59: each clause by the form of its access. -/
theorem registerAccesses : Obligations.RegisterAccesses := by
  unfold Obligations.RegisterAccesses
  intro s fn off hl
  dsimp only
  refine ⟨fun hd => ⟨fun wide v => registerWrite_asleep hd off wide v, counterSplitRead_asleep hd off, fun write o w => ?_⟩,
    fun write o w hw ho => ?_, fun hd => ⟨fun v h => ?_, fun v h => ?_, fun r i v h4 hf => ?_, fun h => ?_, fun h4 hf => ?_,
    fun r i h₁ h₂ => view_eq_rn h₁ h₂ s i, fun k _ => ?_, fun r i hi h4 h4' hf hw hs hh => ?_,
    fun v h0 hf h4 => registerWrite_powerTarget hl hd h4 v h0 hf, fun write o w h => ?_⟩⟩
  · exact badRegisterAccess_ignored hl (by simp [hd])
  · exact badRegisterAccess_ignored hl (by omega)
  · exact ⟨_, registerWrite_misaligned hl hd v h, badAccess_counted s fn, badAccess_out s fn⟩
  · exact ⟨_, registerWrite_misaligned hl hd v h, badAccess_counted s fn, badAccess_out s fn⟩
  · refine ⟨fun hs => ⟨_, (registerWrite_narrow hl hd v h4 hf).trans (by rw [writeReg_hidden _ _ hs]), badAccess_counted s fn⟩,
      fun hs ho => registerWrite_own hl hd h4 v hf hs ho, ?_, fun hs ho hk => registerWrite_locked hl hd h4 v hf hs ho hk, ?_, ?_,
      fun hw hs => counterSplitRead_lower hl hd h4 hf hs hw rfl, fun hw hs => counterSplitRead_narrow hl hd h4 hf hs hw,
      fun hs => ⟨_, counterSplitRead_hidden hl hd h4 hf hs, badAccess_counted s fn, ?_⟩⟩
    · rintro rfl hs hi
      exact registerWrite_xlat hl hd h4 v hf hs hi
    · intro hs ho hk hc h₁ h₂ h₃
      refine ⟨_, (registerWrite_unclamped hl hd h4 v hf hs ho hk hc).trans (by rw [afterWrite_eq_self h₁ h₂ h₃]), rfl, ?_, ?_⟩
      · exact fun f hf ha hh _ => get_wr_written_ro _ _ hf ha hh
      · exact fun q j hq => by rw [State.rn, State.rd_wr_ne _ _ _ _ _ _ hq, State.rn]
    · intro hs
      refine ⟨?_, ?_, ?_⟩
      · rintro rfl
        exact registerWrite_unclamped hl hd h4 v hf hs rfl rfl rfl
      · rintro rfl
        exact registerWrite_unclamped hl hd h4 v hf hs rfl rfl rfl
      · rintro rfl
        exact registerWrite_unclamped hl hd h4 v hf hs rfl rfl rfl
    · rw [State.emit_out, badAccess_out]
  · exact ⟨_, counterSplitRead_misaligned hl hd h, badAccess_counted s fn, by rw [State.emit_out, badAccess_out]⟩
  · exact ⟨fun v => registerWrite_nowhere hd h4 hf v, counterSplitRead_nowhere hl hd h4 hf⟩
  · obtain ⟨hlen, hbase, hidle⟩ := view_coreStatus s k
    refine ⟨hlen, hbase, hidle, fun j m hj hm => ?_, fun j hj h => view_matchEntry_none hj h⟩
    rw [view_matchEntry hj, hm]
    rfl
  · refine ⟨_, counterSplitRead_upper hl hd h4 hf hs hw (by decide) hh, rfl, ?_, rfl, rfl⟩
    exact (spGet_spSet (0, 0) s.hif.hold fn.val fn.val (0, 0)).trans (if_pos rfl)
  · refine ⟨_, badRegisterAccess_refused hl hd h write, ?_⟩
    cases write with
    | true => exact ⟨badAccess_counted s fn, (badAccess_out s fn).trans (List.append_nil _).symm⟩
    | false => exact ⟨badAccess_counted s fn, congrArg (· ++ _) (badAccess_out s fn)⟩

end Sys2Proof.Machine
end

