-- ==== Sys2Proof/Proofs/Parts.lean ====
section
/-! The parts of the state: every operation changes a few of them and leaves the others (a frame). A part is a register with all
its copies, or a field of the state; `State.part` reads it. An operation's frame is one equation: a part that is not among
those the operation names reads as before. -/

namespace Sys2Proof.Machine
open Sys2Proof

/-- A part of the state: one register with all its copies, or one field. -/
inductive Part where
  | reg (r : Reg)
  | mem | cores | noc | mt | fch | bnd | step | flt | nor | ctx | hrd | num | fin | lnk | sec | mgt | pwr | hif | seq | mirror | fuse
  | pkgEvent | out | fresh | pending
  deriving DecidableEq

/-- The type of a part's value. -/
def Part.Val : Part → Type
  | .reg _ => Nat → DWord
  | .mem => Sparse Byte
  | .cores => Sparse CoreState
  | .noc => NocState
  | .mt => MemState
  | .fch => FchState
  | .bnd => BndState
  | .step => Sparse StepState
  | .flt => FltState
  | .nor => NorState
  | .ctx => CtxState
  | .hrd => HrdState
  | .num => NumState
  | .fin => FinState
  | .lnk => LnkState
  | .sec => SecState
  | .mgt => MgtState
  | .pwr => PwrState
  | .hif => HifState
  | .seq => SeqState
  | .mirror => Mirror
  | .fuse => FuseState
  | .pkgEvent => Bool
  | .out => List Output
  | .fresh => Nat
  | .pending => List Instr

/-- Read a part of the state. -/
def State.part (s : State) : (p : Part) → p.Val
  | .reg r => fun i => s.rd r i
  | .mem => s.mem
  | .cores => s.cores
  | .noc => s.noc
  | .mt => s.mt
  | .fch => s.fch
  | .bnd => s.bnd
  | .step => s.step
  | .flt => s.flt
  | .nor => s.nor
  | .ctx => s.ctx
  | .hrd => s.hrd
  | .num => s.num
  | .fin => s.fin
  | .lnk => s.lnk
  | .sec => s.sec
  | .mgt => s.mgt
  | .pwr => s.pwr
  | .hif => s.hif
  | .seq => s.seq
  | .mirror => s.mirror
  | .fuse => s.fuse
  | .pkgEvent => s.pkgEvent
  | .out => s.out
  | .fresh => s.fresh
  | .pending => s.pending

/-! ## From parts to what is read -/

theorem State.rn_of_part {s t : State} {r : Reg} (h : t.part (.reg r) = s.part (.reg r)) (i : Nat) : t.rn r i = s.rn r i :=
  congrArg BitVec.toNat (congrFun h i)

theorem State.get_of_part {s t : State} {f : Fld} (h : t.part (.reg f.reg) = s.part (.reg f.reg)) (i : Nat) :
    t.get f i = s.get f i := by
  rw [State.get, State.rn_of_part h, State.get]

theorem State.flag_of_part {s t : State} {f : Fld} (h : t.part (.reg f.reg) = s.part (.reg f.reg)) (i : Nat) :
    t.flag f i = s.flag f i := by
  rw [State.flag, State.get_of_part h, State.flag]

/-! ## Different registers have different copies -/

theorem Reg.num_lt (r : Reg) : r.num < 512 := by
  cases r <;> decide

theorem Reg.num_inj {r q : Reg} (h : r.num = q.num) : r = q := by
  rw [← Reg.ofNat_ctorIdx r, ← Reg.ofNat_ctorIdx q]
  exact congrArg Reg.ofNat h

theorem Reg.key_ne_of_ne {r q : Reg} (h : q ≠ r) (i j : Nat) : q.key j ≠ r.key i := fun hk =>
  h (Reg.num_inj (Reg.key_inj q.num_lt r.num_lt hk).1)

theorem Reg.key_ne_of_index_ne {r q : Reg} {i j : Nat} (h : j ≠ i) : q.key j ≠ r.key i := fun hk =>
  h (Reg.key_inj q.num_lt r.num_lt hk).2

@[simp] theorem State.rn_wn_of_ne {r q : Reg} (h : q ≠ r) (s : State) (i j v : Nat) : (s.wn r i v).rn q j = s.rn q j :=
  State.rn_wn_ne _ _ _ _ _ _ (Reg.key_ne_of_ne h i j)

@[simp] theorem State.get_wn_of_ne {r : Reg} {g : Fld} (h : g.reg ≠ r) (s : State) (i j v : Nat) :
    (s.wn r i v).get g j = s.get g j := by
  rw [State.get, State.rn_wn_of_ne h, State.get]

@[simp] theorem State.rn_put_of_ne {f : Fld} {q : Reg} (h : q ≠ f.reg) (s : State) (i j v : Nat) :
    (s.put f i v).rn q j = s.rn q j :=
  State.rn_wn_of_ne h _ _ _ _

@[simp] theorem State.get_put_of_ne {f g : Fld} (h : g.reg ≠ f.reg) (s : State) (i j v : Nat) :
    (s.put f i v).get g j = s.get g j :=
  State.get_wn_of_ne h _ _ _ _

@[simp] theorem State.flag_put_of_ne {f g : Fld} (h : g.reg ≠ f.reg) (s : State) (i j v : Nat) :
    (s.put f i v).flag g j = s.flag g j := by
  rw [State.flag, State.get_put_of_ne h, State.flag]

@[simp] theorem State.rn_bump_of_ne {r q : Reg} (h : q ≠ r) (hs : q ≠ .MGT_SAT) (s : State) (i j n : Nat) :
    (s.bump r i n).rn q j = s.rn q j :=
  State.rn_bump_ne _ _ _ _ _ _ (Reg.key_ne_of_ne hs 0 j) (Reg.key_ne_of_ne h i j)

@[simp] theorem State.get_bump_of_ne {r : Reg} {g : Fld} (h : g.reg ≠ r) (hs : g.reg ≠ .MGT_SAT) (s : State) (i j n : Nat) :
    (s.bump r i n).get g j = s.get g j := by
  rw [State.get, State.rn_bump_of_ne h hs, State.get]

theorem State.get_put_index {f g : Fld} {i j : Nat} (h : j ≠ i) (s : State) (v : Nat) : (s.put f i v).get g j = s.get g j :=
  State.get_put_ne _ _ _ _ _ _ (Reg.key_ne_of_index_ne h)

/-- A field reads what was written to it, where the value fits. -/
theorem State.get_put_fits {f : Fld} {v : Nat} (h : f.lo ≤ f.hi) (hh : f.hi < 64) (hv : v < 2 ^ (f.hi + 1 - f.lo)) (s : State)
    (i : Nat) : (s.put f i v).get f i = v := by
  rw [State.get_put_self _ _ _ _ h hh, Nat.mod_eq_of_lt hv]

/-- Another field of the same copy keeps its value. -/
theorem State.get_put_apart {f g : Fld} (hr : g.reg = f.reg) (h : f.lo ≤ f.hi ∧ f.hi < 64 ∧ (f.hi < g.lo ∨ g.hi < f.lo))
    (s : State) (i v : Nat) : (s.put f i v).get g i = s.get g i :=
  State.get_put_disjoint _ _ _ _ _ hr h.1 h.2.1 h.2.2

theorem State.flag_put_one {f : Fld} (h : f.lo ≤ f.hi ∧ f.hi < 64) (s : State) (i : Nat) : (s.put f i 1).flag f i = true := by
  rw [State.flag, State.get_put_fits h.1 h.2 (Nat.one_lt_two_pow (by omega))]
  rfl

theorem State.flag_put_zero {f : Fld} (h : f.lo ≤ f.hi ∧ f.hi < 64) (s : State) (i : Nat) : (s.put f i 0).flag f i = false := by
  rw [State.flag, State.get_put_fits h.1 h.2 (Nat.two_pow_pos _)]
  rfl

/-- A one-bit field reads the truth value that was written to it. -/
theorem State.flag_put_bool {f : Fld} (h : f.lo ≤ f.hi ∧ f.hi < 64) (s : State) (i : Nat) (b : Bool) :
    (s.put f i (if b then 1 else 0)).flag f i = b := by
  cases b with
  | false => exact State.flag_put_zero h s i
  | true => exact State.flag_put_one h s i

theorem State.flag_put_apart {f g : Fld} (hr : g.reg = f.reg) (h : f.lo ≤ f.hi ∧ f.hi < 64 ∧ (f.hi < g.lo ∨ g.hi < f.lo))
    (s : State) (i v : Nat) : (s.put f i v).flag g i = s.flag g i := by
  rw [State.flag, State.get_put_apart hr h, State.flag]

/-! ## Frames of the named updates -/

section
variable {p : Part}

theorem State.ite_part (c : Prop) [Decidable c] (a b : State) : (if c then a else b).part p = if c then a.part p else b.part p := by
  split <;> rfl

/-- An update that leaves a part alone in either branch leaves it alone. -/
theorem State.part_ite {s a b : State} {c : Prop} [Decidable c] (ha : c → a.part p = s.part p) (hb : ¬c → b.part p = s.part p) :
    (if c then a else b).part p = s.part p := by
  split
  · exact ha ‹_›
  · exact hb ‹_›

theorem State.part_foldl {α : Type} {f : State → α → State} (h : ∀ t x, (f t x).part p = t.part p) (l : List α) (s : State) :
    (l.foldl f s).part p = s.part p := by
  induction l generalizing s with
  | nil => rfl
  | cons x l ih => rw [List.foldl_cons, ih, h]

@[simp] theorem State.wr_part {r : Reg} (h : p ≠ .reg r) (s : State) (i : Nat) (v : DWord) : (s.wr r i v).part p = s.part p := by
  cases p with
  | reg q => exact funext fun j => State.rd_wr_ne _ _ _ _ _ _ (Reg.key_ne_of_ne (fun hq => h (congrArg Part.reg hq)) i j)
  | _ => rfl

@[simp] theorem State.wn_part {r : Reg} (h : p ≠ .reg r) (s : State) (i v : Nat) : (s.wn r i v).part p = s.part p :=
  State.wr_part h _ _ _

@[simp] theorem State.put_part {f : Fld} (h : p ≠ .reg f.reg) (s : State) (i v : Nat) : (s.put f i v).part p = s.part p :=
  State.wn_part h _ _ _

@[simp] theorem State.setSat_part (h : p ≠ .reg .MGT_SAT) (s : State) (b : Nat) : (s.setSat b).part p = s.part p :=
  State.wn_part h _ _ _

@[simp] theorem State.bump_part {r : Reg} (h : p ≠ .reg r) (hs : p ≠ .reg .MGT_SAT) (s : State) (i n : Nat) :
    (s.bump r i n).part p = s.part p := by
  unfold State.bump
  refine State.part_ite (fun _ => State.wn_part h _ _ _) fun _ => ?_
  rw [State.setSat_part hs, State.wn_part h]

theorem State.withMem_part (h : p ≠ .mem) (s : State) (x : Sparse Byte) : ({ s with mem := x } : State).part p = s.part p := by
  cases p with
  | mem => exact absurd rfl h
  | _ => rfl

theorem State.withCores_part (h : p ≠ .cores) (s : State) (x : Sparse CoreState) :
    ({ s with cores := x } : State).part p = s.part p := by
  cases p with
  | cores => exact absurd rfl h
  | _ => rfl

theorem State.withNoc_part (h : p ≠ .noc) (s : State) (x : NocState) : ({ s with noc := x } : State).part p = s.part p := by
  cases p with
  | noc => exact absurd rfl h
  | _ => rfl

theorem State.withMt_part (h : p ≠ .mt) (s : State) (x : MemState) : ({ s with mt := x } : State).part p = s.part p := by
  cases p with
  | mt => exact absurd rfl h
  | _ => rfl

theorem State.withFch_part (h : p ≠ .fch) (s : State) (x : FchState) : ({ s with fch := x } : State).part p = s.part p := by
  cases p with
  | fch => exact absurd rfl h
  | _ => rfl

theorem State.withBnd_part (h : p ≠ .bnd) (s : State) (x : BndState) : ({ s with bnd := x } : State).part p = s.part p := by
  cases p with
  | bnd => exact absurd rfl h
  | _ => rfl

theorem State.withStep_part (h : p ≠ .step) (s : State) (x : Sparse StepState) :
    ({ s with step := x } : State).part p = s.part p := by
  cases p with
  | step => exact absurd rfl h
  | _ => rfl

theorem State.withFlt_part (h : p ≠ .flt) (s : State) (x : FltState) : ({ s with flt := x } : State).part p = s.part p := by
  cases p with
  | flt => exact absurd rfl h
  | _ => rfl

theorem State.withNor_part (h : p ≠ .nor) (s : State) (x : NorState) : ({ s with nor := x } : State).part p = s.part p := by
  cases p with
  | nor => exact absurd rfl h
  | _ => rfl

theorem State.withCtx_part (h : p ≠ .ctx) (s : State) (x : CtxState) : ({ s with ctx := x } : State).part p = s.part p := by
  cases p with
  | ctx => exact absurd rfl h
  | _ => rfl

theorem State.withHrd_part (h : p ≠ .hrd) (s : State) (x : HrdState) : ({ s with hrd := x } : State).part p = s.part p := by
  cases p with
  | hrd => exact absurd rfl h
  | _ => rfl

theorem State.withNum_part (h : p ≠ .num) (s : State) (x : NumState) : ({ s with num := x } : State).part p = s.part p := by
  cases p with
  | num => exact absurd rfl h
  | _ => rfl

theorem State.withFin_part (h : p ≠ .fin) (s : State) (x : FinState) : ({ s with fin := x } : State).part p = s.part p := by
  cases p with
  | fin => exact absurd rfl h
  | _ => rfl

theorem State.withLnk_part (h : p ≠ .lnk) (s : State) (x : LnkState) : ({ s with lnk := x } : State).part p = s.part p := by
  cases p with
  | lnk => exact absurd rfl h
  | _ => rfl

theorem State.withSec_part (h : p ≠ .sec) (s : State) (x : SecState) : ({ s with sec := x } : State).part p = s.part p := by
  cases p with
  | sec => exact absurd rfl h
  | _ => rfl

theorem State.withMgt_part (h : p ≠ .mgt) (s : State) (x : MgtState) : ({ s with mgt := x } : State).part p = s.part p := by
  cases p with
  | mgt => exact absurd rfl h
  | _ => rfl

theorem State.withPwr_part (h : p ≠ .pwr) (s : State) (x : PwrState) : ({ s with pwr := x } : State).part p = s.part p := by
  cases p with
  | pwr => exact absurd rfl h
  | _ => rfl

theorem State.withSeq_part (h : p ≠ .seq) (s : State) (x : SeqState) : ({ s with seq := x } : State).part p = s.part p := by
  cases p with
  | seq => exact absurd rfl h
  | _ => rfl

theorem State.withMirror_part (h : p ≠ .mirror) (s : State) (x : Mirror) : ({ s with mirror := x } : State).part p = s.part p := by
  cases p with
  | mirror => exact absurd rfl h
  | _ => rfl

theorem State.withPkgEvent_part (h : p ≠ .pkgEvent) (s : State) (x : Bool) :
    ({ s with pkgEvent := x } : State).part p = s.part p := by
  cases p with
  | pkgEvent => exact absurd rfl h
  | _ => rfl

theorem State.withOut_part (h : p ≠ .out) (s : State) (x : List Output) : ({ s with out := x } : State).part p = s.part p := by
  cases p with
  | out => exact absurd rfl h
  | _ => rfl

theorem State.withFresh_part (h : p ≠ .fresh) (s : State) (x : Nat) : ({ s with fresh := x } : State).part p = s.part p := by
  cases p with
  | fresh => exact absurd rfl h
  | _ => rfl

end

end Sys2Proof.Machine
end

