-- ==== Sys2Proof/Proofs/Completions.lean ====
section
/-! Frames and rules of the operations that every command shares: the replacement of one block's state, events sampled, records
posted, and a ring command at its tick (R46, R394 to R398). -/

namespace Sys2Proof.Machine
open Sys2Proof

/-! ## Replacing one block's state -/

section
variable {p : Part}

@[simp] theorem State.setHrd_part (h : p ≠ .hrd) (s : State) (x : HrdState) : (s.setHrd x).part p = s.part p :=
  State.withHrd_part h s x

@[simp] theorem State.setBnd_part (h : p ≠ .bnd) (s : State) (x : BndState) : (s.setBnd x).part p = s.part p :=
  State.withBnd_part h s x

@[simp] theorem State.setFlt_part (h : p ≠ .flt) (s : State) (x : FltState) : (s.setFlt x).part p = s.part p :=
  State.withFlt_part h s x

@[simp] theorem State.setSec_part (h : p ≠ .sec) (s : State) (x : SecState) : (s.setSec x).part p = s.part p :=
  State.withSec_part h s x

@[simp] theorem State.setLnk_part (h : p ≠ .lnk) (s : State) (x : LnkState) : (s.setLnk x).part p = s.part p :=
  State.withLnk_part h s x

@[simp] theorem State.setCtx_part (h : p ≠ .ctx) (s : State) (x : CtxState) : (s.setCtx x).part p = s.part p :=
  State.withCtx_part h s x

@[simp] theorem State.setPwr_part (h : p ≠ .pwr) (s : State) (x : PwrState) : (s.setPwr x).part p = s.part p :=
  State.withPwr_part h s x

@[simp] theorem State.setMgt_part (h : p ≠ .mgt) (s : State) (x : MgtState) : (s.setMgt x).part p = s.part p :=
  State.withMgt_part h s x

@[simp] theorem State.setCore_part (h : p ≠ .cores) (s : State) (k : Nat) (c : CoreState) : (s.setCore k c).part p = s.part p :=
  State.withCores_part h s _

@[simp] theorem State.modCore_part (h : p ≠ .cores) (s : State) (k : Nat) (f : CoreState → CoreState) :
    (s.modCore k f).part p = s.part p :=
  State.setCore_part h s k _

@[simp] theorem State.setStp_part (h : p ≠ .step) (s : State) (c : Nat) (t : StepState) : (s.setStp c t).part p = s.part p :=
  State.withStep_part h s _

@[simp] theorem State.setPort_part (h : p ≠ .lnk) (s : State) (k : Nat) (x : PortState) : (s.setPort k x).part p = s.part p :=
  State.withLnk_part h s _

@[simp] theorem State.setNm_part (h : p ≠ .num) (s : State) (c : Nat) (n : CtxNum) : (s.setNm c n).part p = s.part p :=
  State.withNum_part h s _

@[simp] theorem State.setFin_part (h : p ≠ .fin) (s : State) (c : Nat) (f : CtxFin) : (s.setFin c f).part p = s.part p :=
  State.withFin_part h s _

@[simp] theorem State.setRing_part (h : p ≠ .ctx) (s : State) (c : Nat) (r : RingState) : (s.setRing c r).part p = s.part p :=
  State.withCtx_part h s _

@[simp] theorem State.emit_part (h : p ≠ .out) (s : State) (o : Output) : (s.emit o).part p = s.part p :=
  State.withOut_part h s _

@[simp] theorem State.sample_part (h : p ≠ .seq) (s : State) (cls src : Nat) (ev : EvKind) :
    (s.sample cls src ev).part p = s.part p :=
  State.withSeq_part h s _

@[simp] theorem State.sampleRow_part (h : p ≠ .seq) (s : State) (cls src : Nat) (c : Instr) :
    (s.sampleRow cls src c).part p = s.part p :=
  State.sample_part h s _ _ _

@[simp] theorem State.sampleOnce_part (h : p ≠ .seq) (s : State) (cls src : Nat) (ev : EvKind) :
    (s.sampleOnce cls src ev).part p = s.part p :=
  State.part_ite (fun _ => rfl) fun _ => State.sample_part h s _ _ _

@[simp] theorem State.signal_part {f : Fld} (h : p ≠ .reg f.reg) (he : p ≠ .pkgEvent) (s : State) (i : Nat) :
    (s.signal f i).part p = s.part p :=
  State.part_ite (fun _ => rfl) fun _ => (State.withPkgEvent_part he _ _).trans (State.put_part h s i 1)

/-! ## Completion records (R396, R398) -/

@[simp] theorem State.began_part (h : p ≠ .ctx) (s : State) (iss : Issuer) (op : Nat) : (s.began iss op).part p = s.part p := by
  cases iss with
  | ring c cookie irq => exact State.setRing_part h s _ _
  | reg c => rfl

@[simp] theorem State.post_part (h : p ≠ .ctx) (hl : p ≠ .reg .CTX_CPL_LOST) (hs : p ≠ .reg .MGT_SAT) (s : State) (c : Nat)
    (r : CplRec) : (s.post c r).part p = s.part p :=
  State.part_ite (fun _ => State.bump_part hl hs s c 1) fun _ => State.setRing_part h s _ _

end

/-- The kind 0 record that completes a command of a ring. -/
def ringRecord (cookie : DWord) (irq : Bool) (op status value : Nat) : CplRec :=
  { kind := 0, status := status, aux := op, tag := cookie.toNat, value := value, irq := irq }

/-- A record that no full queue turns away joins the queue. -/
theorem State.post_kept {r : CplRec} (h : ¬(r.kind = 3 ∨ r.kind = 4)) (s : State) (c : Nat) :
    s.post c r = s.setRing c { s.ring c with queue := (s.ring c).queue ++ [r] } :=
  if_neg fun hf => h hf.1

theorem State.complete_ring (s : State) (c : Ctx) (cookie : DWord) (irq : Bool) (op status value : Nat) :
    s.complete (.ring c cookie irq) op status value = (s.setRing c.val
      { s.ring c.val with inflight := (s.ring c.val).inflight - 1 }).post c.val (ringRecord cookie irq op status value) := rfl

@[simp] theorem State.complete_part {p : Part} (h : p ≠ .ctx) (s : State) (iss : Issuer) (op status value : Nat) :
    (s.complete iss op status value).part p = s.part p := by
  cases iss with
  | ring c cookie irq =>
    rw [State.complete_ring, State.post_kept (by simp [ringRecord]), State.setRing_part h, State.setRing_part h]
  | reg c => rfl

@[simp] theorem State.queue_complete (s : State) (c : Ctx) (cookie : DWord) (irq : Bool) (op status value : Nat) :
    ((s.complete (.ring c cookie irq) op status value).ring c.val).queue =
      (s.ring c.val).queue ++ [ringRecord cookie irq op status value] := by
  rw [State.complete_ring, State.post_kept (by simp [ringRecord]), State.ring_setRing_self, State.ring_setRing_self]

/-- A ring reads as before where the context manager's state does. -/
theorem State.ring_of_part {s t : State} (h : t.part .ctx = s.part .ctx) (c : Nat) : t.ring c = s.ring c :=
  congrArg (fun x : CtxState => spGet ({} : RingState) x.rings c) h

@[simp] theorem State.queue_began (s : State) (c : Ctx) (cookie : DWord) (irq : Bool) (op : Nat) :
    ((s.began (.ring c cookie irq) op).ring c.val).queue = (s.ring c.val).queue := by
  simp [State.began]

/-! ## A command of a ring at its tick (R394) -/

/-- A command of a ring whose context is not held, on a package with a lead, does at its tick what the command does. -/
theorem State.handleRow_ring {c : Instr} {x : Ctx} {cookie : DWord} {irq : Bool} {op : Nat} {s : State}
    (hc : hostCmd c = some (.ring x cookie irq, op)) (hh : (needsRegion op && s.ringHeld (.ring x cookie irq)) = false)
    (hl : s.leads = true) : s.handleRow c = s.applyRow c := by
  rw [State.handleRow, hc]
  simp [hh, hl]

/-- A command of a ring that needs no region, once its execution samples it: at its tick it does what the command does. -/
theorem atTick_ring {c : Instr} {x : Ctx} {cookie : DWord} {irq : Bool} {op : Nat} {s : State} {P : State → Prop}
    (hc : hostCmd c = some (.ring x cookie irq, op)) (hn : needsRegion op = false) (hl : s.leads = true)
    (he : exec c s = .next (s.sampleRow 9 (s.ctxSrc x.val) c)) (hP : P (s.applyRow c)) : AtTick c s 9 (s.ctxSrc x.val) P :=
  ⟨he, by rwa [State.handleRow_ring hc (by rw [hn, Bool.false_and]) hl]⟩

/-! ## Commands of the physical function, and events of a unit, at their tick (R46, R495) -/

/-- A command register of the physical function, written while its BARs decode, is sampled, and does at the tick what the command
does. -/
theorem atTick_pf {s : State} {i : Instr} {P : State → Prop} (hl : s.live = true) (hd : s.decodes 0 = true)
    (he : exec i s = s.act (s.pfSample 0 i)) (hc : hostCmd i = none) (hP : P (s.applyRow i)) : AtTick i s 9 64 P := by
  refine ⟨?_, by rwa [State.handleRow, hc]⟩
  rw [he, State.act_live _ hl, State.pfSample, State.pfWrite, hd]
  rfl

/-- An event of a unit that is sampled once comes at the tick as the command it is. -/
theorem onceAtTick_row {s : State} {i : Instr} {cls src : Nat} {P : State → Prop} (hl : s.live = true)
    (he : exec i s = s.act (s.sampleOnce cls src (.row i))) (hc : hostCmd i = none) (hP : P (s.applyRow i)) :
    OnceAtTick i s cls src P :=
  ⟨he.trans (State.act_live _ hl), by rwa [State.handleRow, hc]⟩

end Sys2Proof.Machine
end

