-- ==== Sys2Proof/Proofs/TallyCommands.lean ====
section
/-! The step's tie to the dispatch, and the tally commands of a ring at their tick (R290 to R292, R301). -/

namespace Sys2Proof.Machine
open Sys2Proof

/-- Settles O1: a step is by definition the front command on the queue's rest, and nothing on an empty queue. -/
theorem stepRunsFrontCommand : Obligations.StepRunsFrontCommand := by
  unfold Obligations.StepRunsFrontCommand
  refine ⟨fun c rest s => rfl, fun s h => ?_⟩
  rw [step, h]

/-! ## Translations (R290) -/

theorem State.tallyOf_of_part {s t : State} (h : t.part .hrd = s.part .hrd) (c vid : Nat) : t.tallyOf c vid = s.tallyOf c vid :=
  congrArg (fun x : HrdState => let n := spGet 0 x.trans (c * 2 ^ 20 + vid); if n = 0 then none else some (n - 1)) h

@[simp] theorem State.tallyOf_mapVid (s : State) (c vid t : Nat) : (s.mapVid c vid t).tallyOf c vid = some t := by
  simp [State.tallyOf, State.mapVid, State.setHrd, spGet_spSet]

section
variable {p : Part}

@[simp] theorem State.showHrd_part (h : p ≠ .reg .HRD_STATUS) (s : State) : s.showHrd.part p = s.part p := by
  rw [State.showHrd, State.put_part h, State.put_part h]

@[simp] theorem State.mapVid_part (h : p ≠ .hrd) (s : State) (c vid t : Nat) : (s.mapVid c vid t).part p = s.part p :=
  State.setHrd_part h s _

@[simp] theorem State.poisonTally_part (h : p ≠ .hrd) (ht : p ≠ .reg .HRD_TALLY) (s : State) (t : Nat) :
    (s.poisonTally t).part p = s.part p := by
  simp -implicitDefEqProofs [State.poisonTally, h, ht]

@[simp] theorem State.unmapVid_part (h : p ≠ .hrd) (ht : p ≠ .reg .HRD_TALLY) (s : State) (c vid t : Nat) :
    (s.unmapVid c vid t).part p = s.part p := by
  unfold State.unmapVid
  dsimp only
  refine (State.part_ite (s := s.setHrd _) (fun _ => ?_) fun _ => rfl).trans (State.setHrd_part h s _)
  simp [h, ht]

@[simp] theorem State.evalLeashes_part (h : p ≠ .hrd) (hs : p ≠ .reg .MGT_SAT) (s : State) (t : Nat) (applied : Bool) :
    (s.evalLeashes t applied).part p = s.part p := by
  unfold State.evalLeashes
  exact State.part_ite (fun _ => by simp [h, hs]) fun _ => State.setHrd_part h s _

end

/-- A release leaves the identifier naming no tally. -/
@[simp] theorem State.tallyOf_unmapVid (s : State) (c vid t : Nat) : (s.unmapVid c vid t).tallyOf c vid = none := by
  unfold State.unmapVid
  dsimp only
  split <;> simp [State.tallyOf, State.setHrd, spGet_spSet]

/-! ## Operations on a live tally (R292) -/

/-- What an operation on a tally may change. -/
def tallyParts : List Part :=
  [.hrd, .reg .HRD_TALLY, .reg .HRD_OPS, .reg .HRD_ORPHAN_OPS, .reg .HRD_OVERDRAWS, .reg .HRD_SATURATIONS, .reg .MGT_SAT]

theorem State.tallyApply_part {p : Part} (h : p ∉ tallyParts) (s : State) (t act n : Nat) :
    (s.tallyApply t act n).1.part p = s.part p := by
  simp only [tallyParts, List.mem_cons, List.not_mem_nil, or_false, not_or] at h
  obtain ⟨hh, ht, ho, hr, hd, ha, hs⟩ := h
  unfold State.tallyApply
  dsimp only
  split_ifs <;> simp -implicitDefEqProofs [*]

section
variable {s : State} {t : Nat} (hp : s.flag HRD_TALLY.poison t = false)
include hp

theorem State.tallyApply_add (n : Nat) : (s.tallyApply t 0 n).2 = (stOK, 0) ∧
    (s.tallyApply t 0 n).1.get HRD_TALLY.value t = min 0xFFFFFFFF (s.get HRD_TALLY.value t + n) := by
  simp only [State.tallyApply, hp, Bool.false_eq_true, if_false, if_true, show ¬(0 = 1 ∧ s.get HRD_TALLY.value t < n) by omega]
  rw [State.get_of_part (State.evalLeashes_part (by decide) (by decide) _ _ _),
    State.get_put_fits (by decide) (by decide) (Nat.lt_of_le_of_lt (Nat.min_le_left _ _) (by decide))]
  exact ⟨trivial, rfl⟩

theorem State.tallyApply_sub {n : Nat} (hn : n ≤ s.get HRD_TALLY.value t) : (s.tallyApply t 1 n).2 = (stOK, 0) ∧
    (s.tallyApply t 1 n).1.get HRD_TALLY.value t = s.get HRD_TALLY.value t - n := by
  have hv : s.get HRD_TALLY.value t < 2 ^ 32 := Nat.mod_lt _ (by decide)
  simp only [State.tallyApply, hp, Bool.false_eq_true, if_false, if_true, true_and, show ¬s.get HRD_TALLY.value t < n by omega,
    one_ne_zero]
  rw [State.get_of_part (State.evalLeashes_part (by decide) (by decide) _ _ _),
    State.get_put_fits (by decide) (by decide) (by simp; omega)]

theorem State.tallyApply_overdraw {n : Nat} (hn : s.get HRD_TALLY.value t < n) :
    (s.tallyApply t 1 n).2 = (stOVERDRAW, 0) ∧ (s.tallyApply t 1 n).1.get HRD_TALLY.value t = s.get HRD_TALLY.value t ∧
      (s.tallyApply t 1 n).1.flag HRD_TALLY.overdraw t = true := by
  simp only [State.tallyApply, hp, Bool.false_eq_true, if_false, if_true, hn, and_self]
  refine ⟨trivial, ?_, ?_⟩
  · rw [State.get_bump_of_ne (by decide) (by decide),
      State.get_put_disjoint _ _ _ _ _ (by rfl) (by decide) (by decide) (Or.inr (by decide))]
  · rw [State.flag, State.get_bump_of_ne (by decide) (by decide), State.get_put_fits (by decide) (by decide) (by decide)]
    rfl

theorem State.tallyApply_read : (s.tallyApply t 2 0).2 = (stOK, s.get HRD_TALLY.value t) ∧
    (s.tallyApply t 2 0).1.get HRD_TALLY.value t = s.get HRD_TALLY.value t := by
  simp only [State.tallyApply, hp, Bool.false_eq_true, if_false, OfNat.ofNat_ne_one, OfNat.ofNat_ne_zero, false_and]
  rw [State.get_of_part (State.evalLeashes_part (by decide) (by decide) _ _ _), State.get_bump_of_ne (by decide) (by decide)]
  exact ⟨trivial, rfl⟩

end

/-! ## Tally commands of a ring -/

/-- A tally command of a ring is sampled as every host command. -/
theorem State.act_herdSample_ring {s : State} (hl : s.live = true) (c : Ctx) (cookie : DWord) (irq : Bool) (i : Instr) :
    s.act (s.herdSample (.ring c cookie irq) i) = .next (s.sampleRow 9 (s.ctxSrc c.val) i) :=
  State.act_live _ hl

/-- What a herding command of a ring leaves, with its completion: the statement's clause. -/
def HerdDone (s : State) (c : Ctx) (cookie : DWord) (u : State) (status value : Nat) : Prop :=
  u.mem = s.mem ∧ u.cores = s.cores ∧ ∃ r, (u.ring c.val).queue = (s.ring c.val).queue ++ [r] ∧ r.kind = 0 ∧
    r.status = status ∧ r.aux = 0x0A ∧ r.tag = cookie.toNat ∧ r.value = value

/-- A herding command that leaves memory, cores and rings alone before it completes. -/
theorem herdDone_of_parts {s t : State} {c : Ctx} {cookie : DWord} {irq : Bool}
    (hm : t.part .mem = s.part .mem) (hc : t.part .cores = s.part .cores)
    (hr : t.part .ctx = (s.began (.ring c cookie irq) 0x0A).part .ctx) (status value : Nat) :
    HerdDone s c cookie (t.complete (.ring c cookie irq) 0x0A status value) status value := by
  refine ⟨(State.complete_part (p := .mem) (by decide) _ _ _ _ _).trans hm,
    (State.complete_part (p := .cores) (by decide) _ _ _ _ _).trans hc, ringRecord cookie irq 0x0A status value, ?_,
    rfl, rfl, rfl, rfl, rfl⟩
  rw [State.queue_complete, State.ring_of_part hr, State.queue_began]

section
variable {s : State} (c : Ctx) (cookie : DWord) (irq : Bool) {vid : Fin 1048576}

/-- An operation on a mapped tally of a live die: what the operation does, with its completion. -/
theorem State.tallyCmd_ring {t : Nat} (ht : s.tallyOf c.val vid.val = some t) (hd : s.hrdDead t = false) (act n : Nat) :
    let b := s.began (.ring c cookie irq) 0x0A
    s.tallyCmd (.ring c cookie irq) vid.val act n = (b.tallyApply t act n).1.complete (.ring c cookie irq) 0x0A
      (b.tallyApply t act n).2.1 (if (b.tallyApply t act n).2.1 = stOK then (b.tallyApply t act n).2.2 else 0) := by
  have hb : (s.began (.ring c cookie irq) 0x0A).tallyOf c.val vid.val = some t := by
    rw [State.tallyOf_of_part (State.began_part (by decide) _ _ _), ht]
  have hdb : (s.began (.ring c cookie irq) 0x0A).hrdDead t = false := hd
  simp only [State.tallyCmd, State.herdCmd, Issuer.ctxNum, hb, hdb, Bool.false_eq_true, if_false]
  rfl

/-- The statement's clause for an operation that answers with a status and a value; the tallies are as `tallyApply` leaves them. -/
theorem tallyCmd_done {t st v act n : Nat} (ht : s.tallyOf c.val vid.val = some t) (hd : s.hrdDead t = false)
    (hr : ((s.began (.ring c cookie irq) 0x0A).tallyApply t act n).2 = (st, v)) :
    HerdDone s c cookie (s.tallyCmd (.ring c cookie irq) vid.val act n) st (if st = stOK then v else 0) ∧
      (s.tallyCmd (.ring c cookie irq) vid.val act n).part (.reg .HRD_TALLY) =
        ((s.began (.ring c cookie irq) 0x0A).tallyApply t act n).1.part (.reg .HRD_TALLY) := by
  rw [State.tallyCmd_ring c cookie irq ht hd, hr]
  refine ⟨herdDone_of_parts ?_ ?_ ?_ _ _, State.complete_part (by decide) _ _ _ _ _⟩
  · rw [State.tallyApply_part (by decide), State.began_part (by decide)]
  · rw [State.tallyApply_part (by decide), State.began_part (by decide)]
  · rw [State.tallyApply_part (by decide)]

/-- The statement's clause for a command that maps its identifier, from a state that shares the herding state's frame. -/
theorem mapping_done {w : State} (hm : w.part .mem = s.part .mem) (hc : w.part .cores = s.part .cores)
    (hr : w.part .ctx = (s.began (.ring c cookie irq) 0x0A).part .ctx) (t : Nat) :
    let u := ((w.mapVid c.val vid.val t).showHrd).endHerd (.ring c cookie irq) stOK
    HerdDone s c cookie u 0 0 ∧ u.tallyOf c.val vid.val = some t ∧ u.part (.reg .HRD_TALLY) = w.part (.reg .HRD_TALLY) := by
  refine ⟨herdDone_of_parts ?_ ?_ ?_ _ _, ?_, ?_⟩
  · rw [State.showHrd_part (by decide), State.mapVid_part (by decide), hm]
  · rw [State.showHrd_part (by decide), State.mapVid_part (by decide), hc]
  · rw [State.showHrd_part (by decide), State.mapVid_part (by decide), hr]
  · rw [State.endHerd, State.tallyOf_of_part (State.complete_part (by decide) _ _ _ _ _),
      State.tallyOf_of_part (State.showHrd_part (by decide) _), State.tallyOf_mapVid]
  · rw [State.endHerd, State.complete_part (by decide), State.showHrd_part (by decide), State.mapVid_part (by decide)]

/-- A command that finds its identifier unmapped, or mapped, finds it so after it has left its ring's list. -/
theorem State.tallyOf_began (iss : Issuer) (d v : Nat) : (s.began iss 0x0A).tallyOf d v = s.tallyOf d v :=
  State.tallyOf_of_part (State.began_part (by decide) _ _ _) d v

theorem State.hrd_began (iss : Issuer) : (s.began iss 0x0A).hrd = s.hrd :=
  State.began_part (p := .hrd) (by decide) s iss 0x0A

/-- The tally that CREATE allocates (`State.applyTallyCreate`). -/
def State.newTally (s : State) (t c value share : Nat) : State :=
  let s := ((s.wn .HRD_TALLY t 0).put HRD_TALLY.value t value).put HRD_TALLY.owner t c
  s.setHrd { s.hrd with alloc := s.hrd.alloc ++ [t], shares := spSet 0 s.hrd.shares t share }

theorem State.newTally_part {p : Part} (h : p ≠ .hrd) (ht : p ≠ .reg .HRD_TALLY) (s : State) (t c value share : Nat) :
    (s.newTally t c value share).part p = s.part p := by
  rw [State.newTally, State.setHrd_part h, State.put_part ht, State.put_part ht, State.wn_part ht]

theorem State.value_newTally {value : Nat} (hv : value < 2 ^ 32) (s : State) (t c share : Nat) :
    (s.newTally t c value share).get HRD_TALLY.value t = value := by
  rw [State.newTally, State.get_of_part (State.setHrd_part (by decide) _ _),
    State.get_put_disjoint _ _ _ _ _ (by rfl) (by decide) (by decide) (Or.inr (by decide)),
    State.get_put_fits (by decide) (by decide) hv]

theorem State.owner_newTally {c : Nat} (hc : c < 32) (s : State) (t value share : Nat) :
    (s.newTally t c value share).get HRD_TALLY.owner t = c := by
  rw [State.newTally, State.get_of_part (State.setHrd_part (by decide) _ _), State.get_put_fits (by decide) (by decide) hc]

theorem applyTallyCreate_done (home : Fin 4) (value : Word) (share : BitVec 31) {i : Nat}
    (hn : s.tallyOf c.val vid.val = none) (hd : home.val ∉ s.hrd.dead)
    (hf : (upto 4096).find? (fun i => decide (4096 * home.val + i ∉ s.hrd.alloc)) = some i) (hr : s.hrd.trans.length < 16384) :
    let u := State.applyTallyCreate (.ring c cookie irq) home vid value share s
    HerdDone s c cookie u 0 0 ∧ u.tallyOf c.val vid.val = some (4096 * home.val + i) ∧
      u.get HRD_TALLY.value (4096 * home.val + i) = value.toNat ∧ u.get HRD_TALLY.owner (4096 * home.val + i) = c.val := by
  have heq : State.applyTallyCreate (.ring c cookie irq) home vid value share s =
      ((((s.began (.ring c cookie irq) 0x0A).newTally (4096 * home.val + i) c.val value.toNat share.toNat).mapVid c.val vid.val
        (4096 * home.val + i)).showHrd).endHerd (.ring c cookie irq) stOK := by
    have hf' := hf
    rw [← State.hrd_began (s := s) (.ring c cookie irq)] at hf'
    simp only [State.applyTallyCreate, State.herdCmd, Issuer.ctxNum, State.tallyOf_began, hn, hf', Option.isSome_none,
      Bool.false_eq_true, if_false]
    rw [State.hrd_began, if_neg hd, if_neg (by omega), State.newTally]
  obtain ⟨hdone, hmap, hreg⟩ := mapping_done (s := s) c cookie irq (vid := vid)
    (w := (s.began (.ring c cookie irq) 0x0A).newTally (4096 * home.val + i) c.val value.toNat share.toNat)
    ((State.newTally_part (by decide) (by decide) _ _ _ _ _).trans (State.began_part (by decide) _ _ _))
    ((State.newTally_part (by decide) (by decide) _ _ _ _ _).trans (State.began_part (by decide) _ _ _))
    (State.newTally_part (by decide) (by decide) _ _ _ _ _) (4096 * home.val + i)
  rw [heq]
  exact ⟨hdone, hmap, by rw [State.get_of_part hreg, State.value_newTally value.isLt],
    by rw [State.get_of_part hreg, State.owner_newTally (Nat.lt_trans c.isLt (by decide))]⟩

theorem applyTallyImport_done {owner : Fin 32} {ownerVid : Fin 1048576} {t : Nat} (hn : s.tallyOf c.val vid.val = none)
    (ht : s.tallyOf owner.val ownerVid.val = some t) (hs : bitAt (spGet 0 s.hrd.shares t) c.val = true)
    (hd : s.hrdDead t = false) (hr : s.hrd.trans.length < 16384) :
    let u := State.applyTallyImport (.ring c cookie irq) vid ownerVid owner s
    HerdDone s c cookie u 0 0 ∧ u.tallyOf c.val vid.val = some t := by
  have hdb : (s.began (.ring c cookie irq) 0x0A).hrdDead t = false := hd
  simp only [State.applyTallyImport, State.herdCmd, Issuer.ctxNum, State.tallyOf_began, State.hrd_began, hn, ht, hs, hdb,
    Option.isSome_none, Bool.true_eq_false, Bool.false_eq_true, if_false, show ¬16384 ≤ s.hrd.trans.length by omega]
  obtain ⟨hdone, hmap, -⟩ := mapping_done (s := s) c cookie irq (vid := vid) (State.began_part (by decide) _ _ _)
    (State.began_part (by decide) _ _ _) rfl t
  exact ⟨hdone, hmap⟩

theorem applyTallyRelease_done {t : Nat} (ht : s.tallyOf c.val vid.val = some t) :
    let u := State.applyTallyRelease (.ring c cookie irq) vid s
    HerdDone s c cookie u 0 0 ∧ u.tallyOf c.val vid.val = none := by
  simp only [State.applyTallyRelease, State.herdCmd, Issuer.ctxNum, State.tallyOf_began, ht]
  have frame {p : Part} (h : p ≠ .hrd) (hr : p ≠ .reg .HRD_TALLY) (hs : p ≠ .reg .HRD_STATUS) (b : State) :
      (((if b.get HRD_TALLY.owner t = c.val then b.poisonTally t else b).unmapVid c.val vid.val t).showHrd).part p = b.part p := by
    rw [State.showHrd_part hs, State.unmapVid_part h hr]
    exact State.part_ite (fun _ => State.poisonTally_part h hr b t) fun _ => rfl
  refine ⟨herdDone_of_parts ?_ ?_ (frame (by decide) (by decide) (by decide) _) _ _, ?_⟩
  · rw [frame (by decide) (by decide) (by decide), State.began_part (by decide)]
  · rw [frame (by decide) (by decide) (by decide), State.began_part (by decide)]
  · rw [State.endHerd, State.tallyOf_of_part (State.complete_part (by decide) _ _ _ _ _),
      State.tallyOf_of_part (State.showHrd_part (by decide) _), State.tallyOf_unmapVid]

theorem tallyCmd_unmapped (hn : s.tallyOf c.val vid.val = none) (act n : Nat) :
    HerdDone s c cookie (s.tallyCmd (.ring c cookie irq) vid.val act n) stNO_TALLY 0 := by
  simp only [State.tallyCmd, State.herdCmd, Issuer.ctxNum, State.tallyOf_began, hn]
  exact herdDone_of_parts (State.began_part (by decide) _ _ _) (State.began_part (by decide) _ _ _) rfl _ _

end

/-- Settles O19: each command's effect on its tally, read through the frames of the completion that follows it. -/
theorem tallyCommandResults : Obligations.TallyCommandResults := by
  unfold Obligations.TallyCommandResults
  intro s c cookie irq vid hl hlead
  dsimp only
  have tick {i : Instr} {P : State → Prop} (hc : hostCmd i = some (.ring c cookie irq, 0x0A))
      (he : exec i s = s.act (s.herdSample (.ring c cookie irq) i)) (hP : P (s.applyRow i)) :
      AtTick i s 9 (s.ctxSrc c.val) P :=
    atTick_ring hc (by decide) hlead (he.trans (State.act_herdSample_ring hl c cookie irq i)) hP
  have pois {t : Nat} (hp : s.flag HRD_TALLY.poison t = false) :
      (s.began (.ring c cookie irq) 0x0A).flag HRD_TALLY.poison t = false := by
    rw [State.flag_of_part (State.began_part (by decide) _ _ _), hp]
  have val (t : Nat) : (s.began (.ring c cookie irq) 0x0A).get HRD_TALLY.value t = s.get HRD_TALLY.value t :=
    State.get_of_part (State.began_part (by decide) _ _ _) t
  refine ⟨fun t count ht hd hp => ⟨?_, fun hle => ?_, fun hlt => ?_, ?_⟩, fun home value share i hn hd hf hr => ?_,
    fun owner ownerVid t hn ht hs hd hr => ?_, fun t ht => ?_, fun hn count => ?_⟩
  all_goals refine tick rfl rfl ?_
  · obtain ⟨hst, hv⟩ := State.tallyApply_add (pois hp) count.toNat
    obtain ⟨hdone, hu⟩ := tallyCmd_done c cookie irq ht hd hst
    exact ⟨hdone, by rw [State.get_of_part hu, hv, val]⟩
  · obtain ⟨hst, hv⟩ := State.tallyApply_sub (pois hp) ((val t).symm ▸ hle)
    obtain ⟨hdone, hu⟩ := tallyCmd_done c cookie irq ht hd hst
    exact ⟨hdone, by rw [State.get_of_part hu, hv, val]⟩
  · obtain ⟨hst, hv, ho⟩ := State.tallyApply_overdraw (pois hp) ((val t).symm ▸ hlt)
    obtain ⟨hdone, hu⟩ := tallyCmd_done c cookie irq ht hd hst
    exact ⟨hdone, by rw [State.get_of_part hu, hv, val], by rw [State.flag_of_part hu, ho]⟩
  · obtain ⟨hst, hv⟩ := State.tallyApply_read (pois hp)
    rw [val] at hst
    obtain ⟨hdone, hu⟩ := tallyCmd_done c cookie irq ht hd hst
    exact ⟨hdone, by rw [State.get_of_part hu, hv, val]⟩
  · exact applyTallyCreate_done c cookie irq home value share hn hd hf hr
  · exact applyTallyImport_done c cookie irq hn ht hs hd hr
  · exact applyTallyRelease_done c cookie irq ht
  · exact tallyCmd_unmapped c cookie irq hn 0 count.toNat

end Sys2Proof.Machine
end

