-- ==== Sys2Proof/Proofs/MemoryAccessFrames.lean ====
section
/-! Frames of the accesses of memory: stores, counts, detections, served and held accesses (R255 to R287). -/

namespace Sys2Proof.Machine
open Sys2Proof

/-! ## Lists of parts -/

theorem Part.ne {C : List Part} {p q : Part} (h : p ∉ C) (hq : q ∈ C := by decide) : p ≠ q :=
  fun e => h (e ▸ hq)

theorem Part.sub {C D : List Part} {p : Part} (h : p ∉ C) (hD : D ⊆ C := by decide) : p ∉ D :=
  fun hp => h (hD hp)

section
variable {p : Part}

/-! ## Stores -/

@[simp] theorem State.store_part (h : p ≠ .mem) (s : State) (a : Nat) (bs : List Byte) : (s.store a bs).part p = s.part p :=
  State.part_ite (fun _ => State.withMem_part h s _) fun _ => State.withMem_part h s _

@[simp] theorem State.zero_part (h : p ≠ .mem) (s : State) (a n : Nat) : (s.zero a n).part p = s.part p :=
  State.part_ite (fun _ => State.withMem_part h s _) fun _ => State.withMem_part h s _

@[simp] theorem State.copy_part (h : p ≠ .mem) (s : State) (a b n : Nat) : (s.copy a b n).part p = s.part p :=
  State.part_ite (fun _ => State.store_part h s _ _) fun _ => State.withMem_part h s _

@[simp] theorem State.cxlStore_part (h : p ≠ .mem) (s : State) (o : Nat) (bs : List Byte) :
    (s.cxlStore o bs).part p = s.part p :=
  State.part_foldl (fun t _ => State.store_part h t _ _) _ s

@[simp] theorem State.hbmStore_part (h : p ≠ .mem) (hm : p ≠ .mt) (s : State) (a : Nat) (bs : List Byte) :
    (s.hbmStore a bs).part p = s.part p :=
  (State.withMt_part hm _ _).trans (State.store_part h s a bs)

@[simp] theorem State.hbmZero_part (h : p ≠ .mem) (hm : p ≠ .mt) (s : State) (a n : Nat) : (s.hbmZero a n).part p = s.part p :=
  (State.withMt_part hm _ _).trans (State.zero_part h s a n)

/-! ## Counts -/

@[simp] theorem State.countHbm_part {r : Reg} (h : p ≠ .reg r) (hs : p ≠ .reg .MGT_SAT) (s : State) (a n : Nat) :
    (s.countHbm r a n).part p = s.part p :=
  State.part_foldl (fun t _ => State.bump_part h hs t _ _) _ s

@[simp] theorem State.countFlits_part {r : Reg} (h : p ≠ .reg r) (hs : p ≠ .reg .MGT_SAT) (s : State) (path : List Nat)
    (n : Nat) : (s.countFlits r path n).part p = s.part p :=
  State.part_foldl (fun t _ => State.bump_part h hs t _ _) path s

/-- The counters of the courier plane that an access advances. -/
def meshParts : List Part := [.reg .NOC_COURIER_FLITS, .reg .NOC_DETOURS, .reg .MGT_SAT]

theorem State.countLeg_part (h : p ∉ meshParts) (s : State) (x y n : Nat) : (s.countLeg x y n).part p = s.part p := by
  unfold State.countLeg
  split
  · split
    · rw [State.bump_part (Part.ne h) (Part.ne h), State.countFlits_part (Part.ne h) (Part.ne h)]
    · exact State.countFlits_part (Part.ne h) (Part.ne h) s _ n
  · rfl

theorem State.countMesh_part (h : p ∉ meshParts) (s : State) (r : Requester) (a out back : Nat) :
    (s.countMesh r a out back).part p = s.part p := by
  rw [State.countMesh_eq]
  split
  · rw [State.countLeg_part h, State.countLeg_part h]
  · rfl

/-! ## Detections -/

/-- What a detected burst changes. -/
def detectParts : List Part := [.mt, .seq, .pkgEvent, .reg .MEM_LAST_DETECT, .reg .MEM_AT_REST, .reg .MGT_SAT]

theorem State.detect_part (h : p ∉ detectParts) (s : State) (stack off : Nat) (scrub : Bool) :
    (s.detect stack off scrub).part p = s.part p := by
  unfold State.detect
  extract_lets b _ s₁ s₂
  have h₁ : s₁.part p = s.part p := State.part_ite (fun _ => rfl) fun _ => State.withMt_part (Part.ne h) s _
  refine (State.part_ite (fun _ => rfl) fun _ => ?_).trans h₁
  have h₂ : s₂.part p = s₁.part p := State.part_ite (fun _ => rfl) fun _ => by
    rw [State.signal_part (Part.ne h) (Part.ne h), State.put_part (Part.ne h), State.put_part (Part.ne h),
      State.put_part (Part.ne h), State.put_part (Part.ne h)]
  rw [State.sample_part (Part.ne h), State.bump_part (Part.ne h) (Part.ne h), h₂]

theorem State.detectIn_part (h : p ∉ detectParts) (s : State) (l : List (Nat × Nat)) : (s.detectIn l).part p = s.part p :=
  State.part_foldl (fun t _ => State.detect_part h t _ _ _) _ s

theorem State.readCheck_part (h : p ∉ .reg .MEM_RETRY_OK :: detectParts) (s : State) (a fails : Nat) :
    (s.readCheck a fails).part p = s.part p :=
  State.part_ite (fun _ => rfl) fun _ => State.part_ite (fun _ => State.bump_part (Part.ne h) (Part.ne h) s _ _)
    fun _ => State.detect_part (Part.sub h) s _ _ _

/-! ## Accesses served -/

@[simp] theorem State.touchSlot_part (h : p ≠ .reg .TIR_SLOT) (s : State) (i : Nat) : (s.touchSlot i).part p = s.part p :=
  State.put_part h s i 0

@[simp] theorem State.touchSlots_part (h : p ≠ .reg .TIR_SLOT) (s : State) (x : Place) (n : Nat) :
    (s.touchSlots x n).part p = s.part p := by
  unfold State.touchSlots
  split
  · refine State.part_foldl (fun t c => ?_) _ s
    cases c.2.2 with
    | none => rfl
    | some i => exact State.touchSlot_part h t i
  · rfl

/-- The counts of a read. -/
def readParts : List Part := [.reg .MEM_READ_BYTES, .reg .HIF_DMA_READ_BYTES, .reg .TIR_SLOT, .reg .MGT_SAT]

theorem State.countRead_part (h : p ∉ readParts) (s : State) (x : Place) (n : Nat) : (s.countRead x n).part p = s.part p := by
  have hc : ((s.hbmRanges x n).foldl (fun (s : State) c => s.countHbm .MEM_READ_BYTES c.1 c.2) s).part p = s.part p :=
    State.part_foldl (fun t _ => State.countHbm_part (Part.ne h) (Part.ne h) t _ _) _ s
  unfold State.countRead
  dsimp only
  split
  · rw [State.bump_part (Part.ne h) (Part.ne h), hc]
  · rw [State.touchSlots_part (Part.ne h), hc]

/-- What a served read changes. -/
def readAccessParts : List Part := .reg .TIR_POISON_READS :: .reg .MEM_RETRY_OK :: (meshParts ++ detectParts ++ readParts)

theorem State.serveRead_part (h : p ∉ readAccessParts) (s : State) (r : Requester) (a n bad fails : Nat) (poison : Bool) :
    (s.serveRead r a n bad fails poison).1.part p = s.part p := by
  unfold State.serveRead
  split
  · rfl
  · rfl
  · extract_lets s₁ twice
    have h₁ : s₁.part p = s.part p := by
      dsimp only [s₁]
      split
      · rw [State.readCheck_part (Part.sub h), State.countRead_part (Part.sub h)]
      · exact State.countRead_part (Part.sub h) s _ _
    clear_value s₁ twice
    split
    · exact (State.detectIn_part (Part.sub h) s₁ _).trans h₁
    · split
      · exact (State.bump_part (Part.ne h) (Part.ne h) s₁ _ _).trans h₁
      · exact (State.countMesh_part (Part.sub h) s₁ _ _ _ _).trans h₁

theorem State.readNow_part (h : p ∉ readAccessParts) (s : State) (r : Requester) (a n bad fails : Nat) (poison : Bool) :
    (s.readNow r a n bad fails poison).1.part p = s.part p := by
  unfold State.readNow
  split
  · rfl
  · exact State.serveRead_part h s r a n bad fails poison

/-- What a write at a place changes. -/
def pokeParts : List Part :=
  [.mem, .mt, .reg .MEM_WRITE_BYTES, .reg .HIF_DMA_WRITE_BYTES, .reg .TIR_SLOT, .reg .TIR_SLOT_DIRTY, .reg .MGT_SAT]

theorem State.poke_part (h : p ∉ pokeParts) (s : State) (x : Place) (bs : List Byte) : (s.poke x bs).part p = s.part p := by
  unfold State.poke
  split
  · rw [State.countHbm_part (Part.ne h) (Part.ne h), State.hbmStore_part (Part.ne h) (Part.ne h)]
  · exact State.store_part (Part.ne h) s _ _
  · refine State.part_foldl (fun t c => ?_) _ s
    dsimp only
    split
    · rw [State.put_part (Part.ne h), State.touchSlot_part (Part.ne h), State.countHbm_part (Part.ne h) (Part.ne h),
        State.hbmStore_part (Part.ne h) (Part.ne h)]
    · exact (State.withMt_part (Part.ne h) _ _).trans (State.cxlStore_part (Part.ne h) t _ _)
  · rw [State.bump_part (Part.ne h) (Part.ne h), State.store_part (Part.ne h)]

/-- What a served access changes. -/
def accessParts : List Part := .out :: (readAccessParts ++ pokeParts)

theorem State.serveWrite_part (h : p ∉ accessParts) (s : State) (r : Requester) (a : Nat) (bs : List Byte) (shadow : Bool) :
    (s.serveWrite r a bs shadow).1.part p = s.part p := by
  unfold State.serveWrite
  split
  · rfl
  · rfl
  · exact (State.countMesh_part (Part.sub h) _ _ _ _ _).trans (State.poke_part (Part.sub h) s _ _)

theorem State.answer_part (h : p ≠ .out) (s : State) (r : Requester) (a : Nat) (rep : Reply) :
    (s.answer r a rep).part p = s.part p := by
  cases rep with
  | held => rfl
  | _ => exact State.emit_part h s _

theorem State.serve_part (h : p ∉ accessParts) (s : State) (x : Held) (bad fails : Nat) (poison : Bool) :
    (s.serve x bad fails poison).part p = s.part p := by
  unfold State.serve
  refine State.part_ite (fun _ => State.withMt_part (Part.ne h) s _) fun _ => ?_
  obtain ⟨req, addr, len, data, since, shadow, engine⟩ := x
  cases data with
  | none =>
    have hr := State.serveRead_part (Part.sub h) s req addr len bad fails poison
    dsimp only
    split
    · exact State.withMt_part (Part.ne h) s _
    · exact State.part_ite (fun _ => hr) fun _ => (State.answer_part (Part.ne h) _ _ _ _).trans hr
  | some bs =>
    have hw := State.serveWrite_part h s req addr bs shadow
    dsimp only
    split
    · exact State.withMt_part (Part.ne h) s _
    · exact State.part_ite (fun _ => hw) fun _ => (State.answer_part (Part.ne h) _ _ _ _).trans hw

theorem State.serveHeld_part (h : p ∉ accessParts) (s : State) (pg : Nat) : (s.serveHeld pg).part p = s.part p :=
  (State.part_foldl (fun t x => State.serve_part h t x 0 0 false) _ _).trans (State.withMt_part (Part.ne h) s _)

theorem State.endHeld_part (h : p ∉ .reg .TIR_HOLD_NCLK :: accessParts) (s : State) (pg : Nat) :
    (s.endHeld pg).part p = s.part p := by
  unfold State.endHeld
  split
  · rw [State.serveHeld_part (Part.sub h), State.bump_part (Part.ne h) (Part.ne h)]
  · rfl

/-! ## Pool slots -/

@[simp] theorem State.emptySlot_part (h : p ≠ .reg .TIR_SLOT) (hd : p ≠ .reg .TIR_SLOT_DIRTY) (s : State) (i : Nat) :
    (s.emptySlot i).part p = s.part p := by
  rw [State.emptySlot, State.wn_part hd, State.wr_part h]

theorem State.endTier_part (h : p ≠ .ctx) (hs : p ≠ .reg .TIR_CMD_STATUS) (s : State) (l : List (Issuer × Nat)) (st : Nat) :
    (s.endTier l st).part p = s.part p := by
  refine State.part_foldl (fun t c => ?_) l s
  split
  · exact State.complete_part h t _ _ _ _
  · rw [State.put_part hs, State.put_part hs]

end

end Sys2Proof.Machine
end

