-- ==== Sys2Proof/Proofs/TierMoves.lean ====
section
/-! The far-memory tier: the page commands of a ring, the ends of a page's moves, accesses of the CXL tier, slot ages, the pool
registers and the ports (R260, R274 to R285, R562). -/

namespace Sys2Proof.Machine
open Sys2Proof

/-! ## What the tier's readers depend on -/

theorem State.slotOfPage_of_part {s t : State} (hc : t.part (.reg .TIR_POOL_COUNT) = s.part (.reg .TIR_POOL_COUNT))
    (hs : t.part (.reg .TIR_SLOT) = s.part (.reg .TIR_SLOT)) (pg : Nat) : t.slotOfPage pg = s.slotOfPage pg := by
  simp only [State.slotOfPage, State.poolSlots, State.get_of_part (f := TIR_POOL_COUNT.slots) hc,
    State.flag_of_part (f := TIR_SLOT.valid) hs, State.get_of_part (f := TIR_SLOT.page) hs]

theorem State.cxlUp_of_part {s t : State} (h : t.part (.reg .TIR_PORT_STATUS) = s.part (.reg .TIR_PORT_STATUS)) (k : Nat) :
    t.cxlUp k = s.cxlUp k :=
  State.flag_of_part h k

theorem State.cxlPopulated_of_part {s t : State} (hm : t.part .mt = s.part .mt)
    (h : t.part (.reg .TIR_PORT_STATUS) = s.part (.reg .TIR_PORT_STATUS)) (o : Nat) : t.cxlPopulated o = s.cxlPopulated o := by
  have hm' : t.mt = s.mt := hm
  have hc : t.cxlCap = s.cxlCap := funext fun k => congrArg (· * gib) (State.get_of_part (f := TIR_PORT_STATUS.capacity_gib) h k)
  rw [State.cxlPopulated, State.cxlPopulated, hc, hm']

theorem State.extentOwner_of_part {s t : State} (h : t.part (.reg .TIR_EXTENT) = s.part (.reg .TIR_EXTENT)) (o : Nat) :
    t.extentOwner o = s.extentOwner o := by
  simp only [State.extentOwner, State.rn_of_part h]

theorem State.flag_valid_of_slotOfPage {s : State} {pg i : Nat} (h : s.slotOfPage pg = some i) :
    s.flag TIR_SLOT.valid i = true := by
  have := List.find?_some h
  simp only [Bool.and_eq_true] at this
  exact this.1

/-- An emptied slot is not valid. -/
theorem State.valid_emptySlot (s : State) (i : Nat) : (s.emptySlot i).flag TIR_SLOT.valid i = false := by
  rw [State.emptySlot, State.flag, State.get_wn_of_ne (by decide), State.get_wr s TIR_SLOT.valid,
    show Reg.reset .TIR_SLOT i = Reg.reset .TIR_SLOT 0 from rfl]
  decide

/-- With no move waiting none starts. -/
theorem State.runMoves_nil {s : State} (h : s.mt.moves = []) : s.runMoves = s := by
  rw [State.runMoves, h]
  simp [State.startMoves, h]

/-! ## Page commands of a ring (R280, R282) -/

section
variable {s : State} {c : Ctx} {cookie : DWord} {irq : Bool} {pg i : Nat}

/-- What a page command of a ring leaves, with its completion: the statement's clause. -/
def TierDone (s : State) (c : Ctx) (cookie : DWord) (u : State) (status : Nat) : Prop :=
  u.mt.moves = [] ∧ u.mem = s.mem ∧ u.cores = s.cores ∧
    ∃ r, (u.ring c.val).queue = (s.ring c.val).queue ++ [r] ∧ r.kind = 0 ∧ r.status = status ∧ r.tag = cookie.toNat

/-- A page command that starts no move before it completes. -/
theorem tierDone_of_parts {t : State} (hv : s.mt.moves = []) (hm : t.part .mt = s.part .mt)
    (hmem : t.part .mem = s.part .mem) (hc : t.part .cores = s.part .cores)
    (hr : t.part .ctx = (s.began (.ring c cookie irq) 0x0B).part .ctx) (op status : Nat) :
    TierDone s c cookie (t.endTier [(.ring c cookie irq, op)] status) status := by
  refine ⟨?_, ?_, ?_, ringRecord cookie irq 0x0B status 0, ?_, rfl, rfl, rfl⟩
  · rw [← hv]
    exact congrArg MemState.moves ((State.endTier_part (p := .mt) (by decide) (by decide) t _ _).trans hm)
  · exact (State.endTier_part (p := .mem) (by decide) (by decide) t _ _).trans hmem
  · exact (State.endTier_part (p := .cores) (by decide) (by decide) t _ _).trans hc
  · rw [State.endTier, List.foldl_cons, List.foldl_nil]
    dsimp only
    rw [State.queue_complete, State.ring_of_part hr, State.queue_began]

variable (ho : s.extentOwner (pg * mib2) = c.val) (hp : s.cxlPopulated (pg * mib2) = true)
include ho hp

omit ho hp in
/-- A page command that a ring may give, once it has left its ring's list. `tierCtx` is held back: the kernel would compute it. -/
theorem State.tierCmd_of_tierCtx {iss : Issuer} {owner : Nat} (hi : ∀ x, iss ≠ .reg x) (h : (s.began iss 0x0B).tierCtx iss pg = some owner)
    (hp : (s.began iss 0x0B).cxlPopulated (pg * mib2) = true) (f : State → Nat → State) :
    s.tierCmd iss pg f = f (s.began iss 0x0B) owner := by
  obtain ⟨tierCtx, ht⟩ : ∃ x, x = @State.tierCtx := ⟨_, rfl⟩
  unfold State.tierCmd
  rw [← ht] at h ⊢
  dsimp only
  split
  · exact absurd rfl (hi _)
  · rw [h]
    exact if_pos hp
/-- A page command of a ring on a page of its context runs once it has left its ring's list. -/
theorem State.tierCmd_ring (f : State → Nat → State) :
    s.tierCmd (.ring c cookie irq) pg f = f (s.began (.ring c cookie irq) 0x0B) c.val := by
  have hb : (s.began (.ring c cookie irq) 0x0B).extentOwner (pg * mib2) = c.val := by
    rw [State.extentOwner_of_part (State.began_part (by decide) _ _ _), ho]
  have hq : (s.began (.ring c cookie irq) 0x0B).cxlPopulated (pg * mib2) = true := by
    rw [State.cxlPopulated_of_part (State.began_part (by decide) _ _ _) (State.began_part (by decide) _ _ _), hp]
  have ht : (s.began (.ring c cookie irq) 0x0B).tierCtx (.ring c cookie irq) pg = some c.val := by
    rw [State.tierCtx, hb]
    exact if_pos rfl
  exact State.tierCmd_of_tierCtx (by nofun) ht hq f

omit ho hp in
theorem State.moves_began (iss : Issuer) : (s.began iss 0x0B).mt = s.mt :=
  State.began_part (p := .mt) (by decide) s iss 0x0B

variable (hv : s.mt.moves = []) (hi : s.slotOfPage pg = some i)
include hv hi

omit ho hp hv in
theorem State.slotOfPage_began : (s.began (.ring c cookie irq) 0x0B).slotOfPage pg = some i := by
  rw [State.slotOfPage_of_part (State.began_part (by decide) _ _ _) (State.began_part (by decide) _ _ _), hi]

/-- LOAD and LOAD_PIN of a resident page. -/
theorem State.tierLoad_resident (op : Nat) :
    s.tierCmd (.ring c cookie irq) pg (fun s c' => s.tierLoad (.ring c cookie irq) op pg c') =
      (if op = 1 then (s.began (.ring c cookie irq) 0x0B).put TIR_SLOT.pinned i 1
        else s.began (.ring c cookie irq) 0x0B).endTier [(.ring c cookie irq, op)] stOK := by
  rw [State.tierCmd_ring ho hp]
  simp -implicitDefEqProofs [State.tierLoad, State.moves_began, State.pageBusy, hv, State.slotOfPage_began hi]

omit hv in
theorem State.tierUnpin_resident : State.applyTierUnpin (.ring c cookie irq) pg s =
    ((s.began (.ring c cookie irq) 0x0B).put TIR_SLOT.pinned i 0).endTier [(.ring c cookie irq, 2)] stOK := by
  rw [State.applyTierUnpin, State.tierCmd_ring ho hp, State.tierUnpin, State.slotOfPage_began hi, Option.elim_some]

theorem State.tierEvict_resident : State.applyTierEvict (.ring c cookie irq) pg s =
    let b := s.began (.ring c cookie irq) 0x0B
    if b.flag TIR_SLOT.pinned i then b.endTier [(.ring c cookie irq, 3)] stBUSY
    else if b.get TIR_SLOT_DIRTY.dirty i = 0 ∧ b.get TIR_SLOT.state i = 0 then (b.freeSlot i).endTier [(.ring c cookie irq, 3)] stOK
    else ((b.put TIR_SLOT.state i 2).addMove
      { kind := .evict, page := pg, slot := i, cmds := [(.ring c cookie irq, 3)] }).runMoves := by
  rw [State.applyTierEvict, State.tierCmd_ring ho hp]
  simp -implicitDefEqProofs [State.tierEvict, State.moves_began, hv, State.slotOfPage_began hi]

omit hv in
theorem State.tierFlush_resident : State.applyTierFlush (.ring c cookie irq) pg s =
    let b := s.began (.ring c cookie irq) 0x0B
    if b.get TIR_SLOT_DIRTY.dirty i = 0 then b.endTier [(.ring c cookie irq, 4)] stOK
    else (b.addMove { kind := .flush, page := pg, slot := i, cmds := [(.ring c cookie irq, 4)] }).runMoves := by
  rw [State.applyTierFlush, State.tierCmd_ring ho hp, State.tierFlush, State.slotOfPage_began hi]

/-! Each command's clause: what it leaves of its page's slot, with its completion. -/

omit ho hp hi in
theorem tierDone_began (op status : Nat) :
    TierDone s c cookie ((s.began (.ring c cookie irq) 0x0B).endTier [(.ring c cookie irq, op)] status) status :=
  tierDone_of_parts hv (State.began_part (by decide) _ _ _) (State.began_part (by decide) _ _ _)
    (State.began_part (by decide) _ _ _) rfl op status

omit ho hp hi in
theorem tierDone_pinned (op v : Nat) : TierDone s c cookie
    (((s.began (.ring c cookie irq) 0x0B).put TIR_SLOT.pinned i v).endTier [(.ring c cookie irq, op)] stOK) 0 :=
  tierDone_of_parts hv ((State.put_part (by decide) _ _ _).trans (State.began_part (by decide) _ _ _))
    ((State.put_part (by decide) _ _ _).trans (State.began_part (by decide) _ _ _))
    ((State.put_part (by decide) _ _ _).trans (State.began_part (by decide) _ _ _)) (State.put_part (by decide) _ _ _) op stOK

omit ho hp hv hi in
theorem State.pinned_endTier {v : Nat} (hv : v < 2) (b : State) (l : List (Issuer × Nat)) (st : Nat) :
    ((b.put TIR_SLOT.pinned i v).endTier l st).get TIR_SLOT.pinned i = v := by
  rw [State.get_of_part (State.endTier_part (by decide) (by decide) _ _ _), State.get_put_fits (by decide) (by decide) hv]

omit ho hp hv hi in
theorem State.get_slot_began (f : Fld) (hf : f.reg = .TIR_SLOT ∨ f.reg = .TIR_SLOT_DIRTY) (iss : Issuer) :
    (s.began iss 0x0B).get f i = s.get f i :=
  State.get_of_part (State.began_part (by rcases hf with hf | hf <;> rw [hf] <;> decide) _ _ _) i

omit ho hp hv hi in
theorem State.pinned_began (iss : Issuer) : (s.began iss 0x0B).flag TIR_SLOT.pinned i = s.flag TIR_SLOT.pinned i := by
  rw [State.flag, State.get_slot_began _ (Or.inl rfl), State.flag]

theorem tierLoad_done : TierDone s c cookie (State.applyTierLoad (.ring c cookie irq) pg s) 0 ∧
    (State.applyTierLoad (.ring c cookie irq) pg s).get TIR_SLOT.pinned i = s.get TIR_SLOT.pinned i := by
  rw [State.applyTierLoad, State.tierLoad_resident ho hp hv hi, if_neg (by decide)]
  refine ⟨tierDone_began hv 0 0, ?_⟩
  rw [State.get_of_part (State.endTier_part (by decide) (by decide) _ _ _), State.get_slot_began _ (Or.inl rfl)]

theorem tierLoadPin_done : TierDone s c cookie (State.applyTierLoadPin (.ring c cookie irq) pg s) 0 ∧
    (State.applyTierLoadPin (.ring c cookie irq) pg s).flag TIR_SLOT.pinned i = true := by
  rw [State.applyTierLoadPin, State.tierLoad_resident ho hp hv hi, if_pos rfl]
  exact ⟨tierDone_pinned hv 1 1, decide_eq_true (State.pinned_endTier (by decide) _ _ _)⟩

theorem tierUnpin_done : TierDone s c cookie (State.applyTierUnpin (.ring c cookie irq) pg s) 0 ∧
    (State.applyTierUnpin (.ring c cookie irq) pg s).flag TIR_SLOT.pinned i = false := by
  rw [State.tierUnpin_resident ho hp hi]
  refine ⟨tierDone_pinned hv 2 0, ?_⟩
  rw [State.flag, State.pinned_endTier (by decide)]
  rfl

theorem tierEvict_pinned (h : s.flag TIR_SLOT.pinned i = true) :
    TierDone s c cookie (State.applyTierEvict (.ring c cookie irq) pg s) 2 := by
  rw [State.tierEvict_resident ho hp hv hi]
  dsimp only
  rw [State.pinned_began, if_pos h]
  exact tierDone_began hv 3 2

theorem tierEvict_clean (h : s.flag TIR_SLOT.pinned i = false) (hd : s.get TIR_SLOT_DIRTY.dirty i = 0)
    (hs : s.get TIR_SLOT.state i = 0) : TierDone s c cookie (State.applyTierEvict (.ring c cookie irq) pg s) 0 ∧
      (State.applyTierEvict (.ring c cookie irq) pg s).flag TIR_SLOT.valid i = false := by
  rw [State.tierEvict_resident ho hp hv hi]
  dsimp only
  rw [State.pinned_began, h, if_neg (by decide), State.get_slot_began _ (Or.inr rfl), State.get_slot_began _ (Or.inl rfl), if_pos ⟨hd, hs⟩]
  have frame {p : Part} (h : p ∉ [.reg .TIR_SLOT, .reg .TIR_SLOT_DIRTY, .reg .TIR_EVICTIONS, .reg .MGT_SAT]) (b : State) :
      (b.freeSlot i).part p = b.part p := by
    rw [State.freeSlot, State.emptySlot_part (Part.ne h) (Part.ne h), State.bump_part (Part.ne h) (Part.ne h)]
  refine ⟨tierDone_of_parts hv ((frame (by decide) _).trans (State.began_part (by decide) _ _ _))
    ((frame (by decide) _).trans (State.began_part (by decide) _ _ _))
    ((frame (by decide) _).trans (State.began_part (by decide) _ _ _)) (frame (by decide) _) 3 0, ?_⟩
  rw [State.flag_of_part (State.endTier_part (by decide) (by decide) _ _ _), State.freeSlot, State.valid_emptySlot]

theorem tierFlush_clean (hd : s.get TIR_SLOT_DIRTY.dirty i = 0) :
    TierDone s c cookie (State.applyTierFlush (.ring c cookie irq) pg s) 0 ∧
      (State.applyTierFlush (.ring c cookie irq) pg s).flag TIR_SLOT.valid i = true := by
  rw [State.tierFlush_resident ho hp hi]
  dsimp only
  rw [State.get_slot_began _ (Or.inr rfl), if_pos hd]
  refine ⟨tierDone_began hv 4 0, ?_⟩
  rw [State.flag_of_part (State.endTier_part (by decide) (by decide) _ _ _), State.flag, State.get_slot_began _ (Or.inl rfl)]
  exact State.flag_valid_of_slotOfPage hi

end

/-! ## The ends of moves (R280, R283) -/

/-- A move that ends after its accesses were held by none leaves the tier mover without moves. -/
theorem State.serveHeld_nil {s : State} (h : s.mt.held = []) (pg : Nat) : s.serveHeld pg = s := by
  simp [State.serveHeld, h]
  rw [← h]

theorem State.endHeld_nil {s : State} (h : s.mt.held = []) (pg : Nat) : s.endHeld pg = s := by
  simp [State.endHeld, h]

theorem State.dropMove_part {p : Part} (h : p ≠ .mt) (s : State) (m : Move) : (s.dropMove m).part p = s.part p :=
  State.withMt_part h s _

theorem State.dropMove_mt (s : State) (m : Move) : (s.dropMove m).mt = { s.mt with moves := dropFirst (· = m) s.mt.moves } := rfl

theorem State.dropMove_single {s : State} {m : Move} (h : s.mt.moves = [m]) :
    s.dropMove m = { s with mt := { s.mt with moves := [] } } := by
  simp [State.dropMove, h, dropFirst]

/-- The copy of a page into its slot, with its counts (TIER_FILL_COMPLETE without poison). -/
def State.filled (s : State) (m : Move) : State :=
  let o := m.page * mib2
  let s := (cutAt 4096 o mib2).foldl (fun (s : State) c => s.copy (s.cxlKey c.1) (s.slotBase m.slot + (c.1 - o)) c.2) s
  ((s.countHbm .MEM_WRITE_BYTES (s.slotBase m.slot) mib2).bump .TIR_LOADS).bump .TIR_LOAD_BYTES 0 mib2

theorem State.filled_part {p : Part}
    (h : p ∉ [.mem, .reg .MEM_WRITE_BYTES, .reg .TIR_LOADS, .reg .TIR_LOAD_BYTES, .reg .MGT_SAT]) (s : State) (m : Move) :
    (s.filled m).part p = s.part p := by
  unfold State.filled
  dsimp only
  rw [State.bump_part (Part.ne h) (Part.ne h), State.bump_part (Part.ne h) (Part.ne h),
    State.countHbm_part (Part.ne h) (Part.ne h)]
  exact State.part_foldl (fun t _ => State.copy_part (Part.ne h) t _ _ _) _ s

theorem State.loads_filled (s : State) (m : Move) :
    (s.filled m).rn .TIR_LOADS = min (s.rn .TIR_LOADS + 1) (2 ^ 64 - 1) := by
  unfold State.filled
  dsimp only
  rw [State.rn_bump_of_ne (by decide) (by decide), State.rn_bump_self _ _ _ _ (Reg.key_ne_of_ne (by decide) _ _),
    State.rn_of_part (State.countHbm_part (by decide) (by decide) _ _ _),
    State.rn_of_part (State.part_foldl (fun t _ => State.copy_part (by decide) t _ _ _) _ s)]

/-- The state in which a fill ends, before the accesses held for its page are served. -/
def State.afterFill (s : State) (m : Move) (hold : Nat) : State :=
  let s := (((s.dropMove m).bump .TIR_HOLD_NCLK 0 hold).filled m).put TIR_SLOT.state m.slot 0
  if m.pin then s.put TIR_SLOT.pinned m.slot 1 else s

theorem execTierFillComplete_good {s : State} (hl : s.live = true) {pg : Fin 4194304} {m : Move}
    (hf : s.mt.moves.find? (fun m => m.kind = .fill && m.page = pg.val && m.started) = some m) (hpg : m.page = pg.val)
    (hc : m.cmds = []) (hp : s.mt.poison = []) (hold : Nat) : exec (.tierFillComplete pg false hold) s =
      .next ((s.afterFill m hold).serveHeld pg.val).runMoves := by
  change execTierFillComplete pg false hold s = _
  unfold execTierFillComplete
  dsimp only
  rw [hf, hp]
  rw [State.act_live _ hl]
  dsimp only
  rw [if_neg (by simp [meetsRange]), hc]
  simp only [List.head?_nil, Option.bind_none, State.endTier, List.foldl_nil, State.afterFill, State.filled, hpg]

theorem State.afterFill_part {p : Part} (h : p ∉ [.mem, .reg .MEM_WRITE_BYTES, .reg .TIR_LOADS, .reg .TIR_LOAD_BYTES,
    .reg .MGT_SAT, .reg .TIR_HOLD_NCLK, .reg .TIR_SLOT]) (s : State) (m : Move) (hold : Nat) :
    (s.afterFill m hold).part p = (s.dropMove m).part p := by
  unfold State.afterFill
  dsimp only
  have hb : ((((s.dropMove m).bump .TIR_HOLD_NCLK 0 hold).filled m).put TIR_SLOT.state m.slot 0).part p =
      (s.dropMove m).part p := by
    rw [State.put_part (Part.ne h), State.filled_part (Part.sub h), State.bump_part (Part.ne h) (Part.ne h)]
  exact State.part_ite (fun _ => (State.put_part (Part.ne h) _ _ _).trans hb) fun _ => hb

theorem State.state_afterFill (s : State) (m : Move) (hold : Nat) : (s.afterFill m hold).get TIR_SLOT.state m.slot = 0 := by
  unfold State.afterFill
  dsimp only
  split
  · rw [State.get_put_disjoint _ _ _ _ _ (by rfl) (by decide) (by decide) (Or.inl (by decide)),
      State.get_put_fits (by decide) (by decide) (by decide)]
  · rw [State.get_put_fits (by decide) (by decide) (by decide)]

theorem State.loads_afterFill (s : State) (m : Move) (hold : Nat) :
    (s.afterFill m hold).rn .TIR_LOADS = min (s.rn .TIR_LOADS + 1) (2 ^ 64 - 1) := by
  have hb : ((((s.dropMove m).bump .TIR_HOLD_NCLK 0 hold).filled m).put TIR_SLOT.state m.slot 0).rn .TIR_LOADS =
      min (s.rn .TIR_LOADS + 1) (2 ^ 64 - 1) := by
    rw [State.rn_put_of_ne (by decide), State.loads_filled, State.rn_bump_of_ne (by decide) (by decide)]
    rfl
  unfold State.afterFill
  dsimp only
  split
  · rw [State.rn_put_of_ne (by decide), hb]
  · exact hb

/-- The moves and the held accesses of a state whose tier mover is as the only move's end leaves it. -/
theorem quiet_mover {s t : State} {m : Move} (hm : s.mt.moves = [m]) (hh : s.mt.held = [])
    (ht : t.part .mt = (s.dropMove m).part .mt) : t.mt.moves = [] ∧ t.mt.held = [] := by
  have h : t.mt = { s.mt with moves := [] } := by
    rw [State.dropMove_single hm] at ht
    exact ht
  rw [h]
  exact ⟨rfl, hh⟩

theorem completes_tierFillComplete {s : State} (hl : s.live = true) {pg : Fin 4194304} {m : Move} (hm : s.mt.moves = [m])
    (hk : m.kind = .fill) (hpg : m.page = pg.val) (hs : m.started = true) (hc : m.cmds = []) (hh : s.mt.held = [])
    (hp : s.mt.poison = []) (hold : Nat) : Completes (.tierFillComplete pg false hold) s fun u =>
      u.mt.moves = [] ∧ u.get TIR_SLOT.state m.slot = 0 ∧
        u.rn .TIR_LOADS = min (s.rn .TIR_LOADS + 1) (2 ^ 64 - 1) ∧ u.cores = s.cores := by
  have hf : s.mt.moves.find? (fun m => m.kind = .fill && m.page = pg.val && m.started) = some m := by
    rw [hm]
    simp [hk, hpg, hs]
  obtain ⟨hm', hh'⟩ := quiet_mover hm hh (State.afterFill_part (by decide) s m hold)
  refine ⟨_, execTierFillComplete_good hl hf hpg hc hp hold, ?_⟩
  rw [State.serveHeld_nil hh', State.runMoves_nil hm']
  exact ⟨hm', State.state_afterFill s m hold, State.loads_afterFill s m hold,
    State.afterFill_part (p := .cores) (by decide) s m hold⟩

/-- The end of a write-back, before the accesses held for its page are served. -/
def State.afterWriteBack (s : State) (m : Move) (hold : Nat) : State :=
  let s := ((s.bump .TIR_HOLD_NCLK 0 hold).dropMove m).bump .TIR_WRITEBACK_BYTES 0 (65536 * m.subs)
  let s := if m.kind = .evict then s.bump .TIR_EVICTIONS else s
  if m.kind = .evict && decide (s.slotOfPage m.page = some m.slot) then s.emptySlot m.slot else s

theorem State.endWriteBack_eq {s : State} {m : Move} (hc : m.cmds = []) (hold : Nat) :
    (s.bump .TIR_HOLD_NCLK 0 hold).endWriteBack m = (s.afterWriteBack m hold).endHeld m.page := by
  unfold State.endWriteBack State.afterWriteBack
  rw [hc]
  rfl

theorem State.afterWriteBack_part {p : Part} (h : p ∉ [.reg .TIR_WRITEBACK_BYTES, .reg .TIR_EVICTIONS, .reg .MGT_SAT,
    .reg .TIR_SLOT, .reg .TIR_SLOT_DIRTY]) (s : State) (m : Move) (hold : Nat) :
    (s.afterWriteBack m hold).part p = ((s.bump .TIR_HOLD_NCLK 0 hold).dropMove m).part p := by
  unfold State.afterWriteBack
  dsimp only
  refine (State.part_ite (fun _ => State.emptySlot_part (Part.ne h) (Part.ne h) _ _) fun _ => rfl).trans ?_
  refine (State.part_ite (fun _ => State.bump_part (Part.ne h) (Part.ne h) _ _ _) fun _ => rfl).trans ?_
  exact State.bump_part (Part.ne h) (Part.ne h) _ _ _

theorem State.bytes_afterWriteBack (s : State) (m : Move) (hold : Nat) : (s.afterWriteBack m hold).rn .TIR_WRITEBACK_BYTES =
    min (s.rn .TIR_WRITEBACK_BYTES + 65536 * m.subs) (2 ^ 64 - 1) := by
  have hb : (((s.bump .TIR_HOLD_NCLK 0 hold).dropMove m).bump .TIR_WRITEBACK_BYTES 0 (65536 * m.subs)).rn .TIR_WRITEBACK_BYTES =
      min (s.rn .TIR_WRITEBACK_BYTES + 65536 * m.subs) (2 ^ 64 - 1) := by
    rw [State.rn_bump_self _ _ _ _ (Reg.key_ne_of_ne (by decide) _ _), State.rn_of_part (State.dropMove_part (by decide) _ _),
      State.rn_bump_of_ne (by decide) (by decide)]
  unfold State.afterWriteBack
  dsimp only
  rw [State.rn_of_part (State.part_ite (fun _ => State.emptySlot_part (by decide) (by decide) _ _) fun _ => rfl),
    State.rn_of_part (State.part_ite (fun _ => State.bump_part (by decide) (by decide) _ _ _) fun _ => rfl), hb]

/-- What the end of a write-back leaves: the statement's clause. -/
theorem ends_afterWriteBack {s : State} {m : Move} {hold : Nat} (h : (s.afterWriteBack m hold).mt.moves = []) :
    let u := s.afterWriteBack m hold
    u.mt.moves = [] ∧ u.rn .TIR_WRITEBACK_BYTES = min (s.rn .TIR_WRITEBACK_BYTES + 65536 * m.subs) (2 ^ 64 - 1) ∧
      u.mem = s.mem ∧ u.cores = s.cores :=
  ⟨h, State.bytes_afterWriteBack s m hold,
    (State.afterWriteBack_part (p := .mem) (by decide) s m hold).trans (State.bump_mem _ _ _ _),
    (State.afterWriteBack_part (p := .cores) (by decide) s m hold).trans (State.bump_cores _ _ _ _)⟩

theorem State.valid_afterWriteBack {s : State} {m : Move} (hk : m.kind = .evict) (hs : s.slotOfPage m.page = some m.slot)
    (hold : Nat) : (s.afterWriteBack m hold).flag TIR_SLOT.valid m.slot = false := by
  have hb : ((((s.bump .TIR_HOLD_NCLK 0 hold).dropMove m).bump .TIR_WRITEBACK_BYTES 0 (65536 * m.subs)).bump
      .TIR_EVICTIONS).slotOfPage m.page = some m.slot := by
    rw [← hs]
    have frame {r : Reg} (h : Part.reg r ∉ [Part.mt, .reg .TIR_WRITEBACK_BYTES, .reg .TIR_EVICTIONS, .reg .MGT_SAT, .reg .TIR_HOLD_NCLK]) :
        ((((s.bump .TIR_HOLD_NCLK 0 hold).dropMove m).bump .TIR_WRITEBACK_BYTES 0 (65536 * m.subs)).bump .TIR_EVICTIONS).part
          (.reg r) = s.part (.reg r) := by
      rw [State.bump_part (Part.ne h) (Part.ne h), State.bump_part (Part.ne h) (Part.ne h), State.dropMove_part (Part.ne h),
        State.bump_part (Part.ne h) (Part.ne h)]
    exact State.slotOfPage_of_part (frame (by decide)) (frame (by decide)) _
  unfold State.afterWriteBack
  dsimp only
  rw [if_pos hk, if_pos (by rw [hb]; simp [hk]), State.valid_emptySlot]

theorem completes_tierWritebackComplete {s : State} (hl : s.live = true) {pg : Fin 4194304} {m : Move} (hm : s.mt.moves = [m])
    (hpg : m.page = pg.val) (hs : m.started = true) (hc : m.cmds = []) (hh : s.mt.held = [])
    (hu : s.cxlPortUp (pg.val * mib2) = true) (hk : m.kind ≠ .fill)
    (hw : m.kind = .flush ∨ s.get TIR_SLOT_DIRTY.dirty m.slot = 0) (hold : Nat) {P : State → Prop}
    (hP : (s.afterWriteBack m hold).mt.moves = [] → P (s.afterWriteBack m hold)) :
    Completes (.tierWritebackComplete pg hold) s P := by
  have hf : s.mt.moves.find? (fun m => m.kind ≠ .fill && m.page = pg.val && m.started) = some m := by
    rw [hm]
    simp [hk, hpg, hs]
  have hg : (s.cxlPortUp (pg.val * mib2) && (m.kind = .flush || s.slotOfPage m.page ≠ some m.slot ||
      s.get TIR_SLOT_DIRTY.dirty m.slot = 0)) = true := by
    rcases hw with hw | hw <;> simp [hu, hw]
  have ht : (s.afterWriteBack m hold).part .mt = (s.dropMove m).part .mt := by
    rw [State.afterWriteBack_part (by decide)]
    change ((s.bump .TIR_HOLD_NCLK 0 hold).dropMove m).mt = (s.dropMove m).mt
    rw [State.dropMove_mt, State.dropMove_mt, State.bump_mt]
  obtain ⟨hm', hh'⟩ := quiet_mover hm hh ht
  refine ⟨s.afterWriteBack m hold, ?_, hP hm'⟩
  change execTierWritebackComplete pg hold s = _
  unfold execTierWritebackComplete
  rw [hf, State.act_live _ hl]
  dsimp only
  rw [if_pos hg, State.endWriteBack_eq hc, State.endHeld_nil hh', State.runMoves_nil hm']

end Sys2Proof.Machine
end

