-- ==== Sys2Proof/Proofs/TierAccesses.lean ====
section
/-! Accesses of the far-memory tier, slot ages, the pool registers and the ports, and the tier's statement (R260, R274 to R285,
R562). -/

namespace Sys2Proof.Machine
open Sys2Proof

/-! ## Accesses (R260, R277, R279, R284) -/

/-- `quiet` from the three parts. -/
theorem quiet_of_part {s t : State} (hm : t.part .mem = s.part .mem) (ho : t.part .out = s.part .out)
    (hc : t.part .cores = s.part .cores) : Quiet s t := ⟨hm, ho, hc⟩

theorem quiet_countRead (s : State) (x : Place) (n : Nat) : Quiet s (s.countRead x n) :=
  quiet_of_part (State.countRead_part (by decide) s x n) (State.countRead_part (by decide) s x n)
    (State.countRead_part (by decide) s x n)

/-- The state of a read of the tier before its outcome. -/
def State.countedFar (s : State) (o n : Nat) : State :=
  match s.burstAt (.far o) 0 with
  | some h => (s.countRead (.far o) n).readCheck h 0
  | none => s.countRead (.far o) n

theorem quiet_countedFar (s : State) (o n : Nat) : Quiet s (s.countedFar o n) := by
  unfold State.countedFar
  split
  · exact (quiet_countRead s _ n).trans (quiet_readCheck _ _ _)
  · exact quiet_countRead s _ n

section
variable {s : State} {req : Requester} {a n o : Nat} (hr : s.route req a n false = .to (.far o))
  (hb : s.badIn (s.hbmRanges (.far o) n) = false)
include hr hb

theorem serveRead_far (poison : Bool) : s.serveRead req a n 0 0 poison =
    if (s.mediaRanges (.far o) n).any (fun c => poison || meetsRange s.mt.poison c.1 c.2) then
      ((s.countedFar o n).bump .TIR_POISON_READS, .failed stMEM_ERROR)
    else ((s.countedFar o n).countMesh req a 0 (ceilDiv n 32), .data (s.peek (.far o) n)) := by
  have htwice : ((s.burstAt (.far o) 0).isSome && decide (2 ≤ 0)) = false := by simp
  unfold State.serveRead
  rw [hr]
  dsimp only
  rw [hb, htwice, if_neg (by decide)]
  rfl

variable (hl : s.live = true) (hp : s.portHolds req a n false = false)
include hl hp

omit hr hb in
/-- A read of the tier answered with `status` and `data`: the clause of the statement. -/
theorem completes_cxlRead {t : State} {rep : Reply} {status : Nat} {data : List Byte} {poison : Bool}
    (h : s.serveRead req a n 0 0 poison = (t, rep)) (hrep : t.answer req a rep = t.emit (.memReply req a status data))
    (hn : rep ≠ .held) (q : Quiet s t) : Completes (.cxlAccess req a n none poison) s fun u =>
      u.mem = s.mem ∧ u.out = s.out ++ [.memReply req a status data] ∧ u.cores = s.cores := by
  obtain ⟨qm, qo, qc⟩ := q
  have hacc : s.access req a n none 0 0 poison = t.emit (.memReply req a status data) := by
    rw [← hrep]
    unfold State.access State.serve
    simp only [Option.isSome_none, hp, h]
    cases rep with
    | held => exact absurd rfl hn
    | _ => rfl
  refine ⟨t.emit (.memReply req a status data), ?_, qm, by rw [State.emit_out, qo], qc⟩
  rw [← hacc]
  exact State.act_live _ hl

theorem completes_cxlRead_good (hm : (s.mediaRanges (.far o) n).any (fun c => meetsRange s.mt.poison c.1 c.2) = false) :
    Completes (.cxlAccess req a n none false) s fun u =>
      u.mem = s.mem ∧ u.out = s.out ++ [.memReply req a 0 (s.peek (.far o) n)] ∧ u.cores = s.cores := by
  have hs := serveRead_far hr hb false
  simp only [Bool.false_or, hm, Bool.false_eq_true, if_false] at hs
  exact completes_cxlRead hl hp hs rfl (by simp) ((quiet_countedFar s o n).trans (quiet_countMesh _ _ _ _ _))

theorem completes_cxlRead_poison (hm : s.mediaRanges (.far o) n ≠ []) : Completes (.cxlAccess req a n none true) s fun u =>
    u.mem = s.mem ∧ u.out = s.out ++ [.memReply req a 9 []] ∧ u.cores = s.cores := by
  have hs := serveRead_far hr hb true
  have hany : (s.mediaRanges (.far o) n).any (fun c => true || meetsRange s.mt.poison c.1 c.2) = true := by
    obtain ⟨c, hc⟩ := List.exists_mem_of_ne_nil _ hm
    exact List.any_eq_true.mpr ⟨c, hc, rfl⟩
  rw [if_pos hany] at hs
  exact completes_cxlRead hl hp hs rfl (by simp) ((quiet_countedFar s o n).trans (quiet_bump _ _ _ _))

end

theorem completes_cxlWrite {s : State} {req : Requester} {a o : Nat} {data : List Byte} (hl : s.live = true)
    (hr : s.route req a data.length true = .to (.far o)) (hp : s.portHolds req a data.length true = false) (n : Nat) :
    Completes (.cxlAccess req a n (some data) false) s fun u =>
      u.mem = (s.poke (.far o) data).mem ∧ u.out = s.out ++ [.memReply req a 0 []] ∧ u.cores = s.cores := by
  have hq : Quiet (s.poke (.far o) data) ((s.poke (.far o) data).countMesh req a (ceilDiv data.length 32) 0) :=
    quiet_countMesh _ _ _ _ _
  obtain ⟨qm, qo, qc⟩ := hq
  refine ⟨s.access req a data.length (some data), State.act_live _ hl, ?_⟩
  rw [access_write hr hp]
  refine ⟨qm, ?_, qc.trans (State.poke_part (p := .cores) (by decide) s _ _)⟩
  rw [State.emit_out, qo]
  exact congrArg (· ++ _) (State.poke_part (p := .out) (by decide) s _ _)

/-- A read held because a page of it moves (R284). -/
theorem completes_cxlHeld {s : State} {req : Requester} {a n pg : Nat} (hl : s.live = true)
    (hr : s.route req a n false = .hold pg) : Completes (.cxlAccess req a n none false) s fun u =>
      (∃ h : Held, u.mt.held = s.mt.held ++ [h] ∧ h.req = req ∧ h.addr = a ∧ h.len = n ∧ h.data = none) ∧
        u.out = s.out ∧ u.mem = s.mem ∧ u.regs = s.regs ∧ u.cores = s.cores := by
  have hp : s.portHolds req a n false = false := by rw [State.portHolds, hr]
  have hs : s.serveRead req a n 0 0 false = (s, .held) := by rw [State.serveRead, hr]
  have hacc : s.access req a n none = { s with mt := { s.mt with held := s.mt.held ++
      [{ req := req, addr := a, len := n, data := none, since := s.now }] } } := by
    unfold State.access State.serve
    simp only [Option.isSome_none, hp, hs]
    rfl
  refine ⟨s.access req a n none, State.act_live _ hl, ?_⟩
  rw [hacc]
  exact ⟨⟨_, rfl, rfl, rfl, rfl, rfl⟩, rfl, rfl, rfl, rfl⟩

/-- An access of the mesh whose port of its region cannot be reached is refused with FENCED (R260, R173). -/
theorem route_cxl_fenced {s : State} {c : Ctx} {m : Fin 256} {a : Nat} (hlo : cxlStart ≤ a) (hhi : a < cxlEnd)
    (hp : s.courierPath m.val (16 * (m.val / 16) + a / 2048 % 16) = none) (n : Nat) (write : Bool) :
    s.route (.mesh c m) a n write = .refuse 10 := by
  have ha : ¬a < hbmEnd := Nat.not_lt.mpr (Nat.le_trans (by decide) hlo)
  have hf : s.meshFenced (.mesh c m) a = true := by
    simp [State.meshFenced, State.portRouter, ha, hlo, hhi, hp]
  rw [State.route, if_pos hf]
  rfl

/-! ## Slot ages (R281) -/

/-- A step of SLOT_AGE_ADVANCE. -/
def State.ageSlot (s : State) (i : Nat) : State :=
  if s.flag TIR_SLOT.valid i then s.put TIR_SLOT.age i (min 0xFFFF (s.get TIR_SLOT.age i + 1)) else s

theorem State.ageSlot_part {p : Part} (h : p ≠ .reg .TIR_SLOT) (s : State) (i : Nat) : (s.ageSlot i).part p = s.part p :=
  State.part_ite (fun _ => State.put_part h s _ _) fun _ => rfl

theorem State.get_ageSlot_index {i j : Nat} (h : j ≠ i) (f : Fld) (s : State) : (s.ageSlot i).get f j = s.get f j := by
  unfold State.ageSlot
  split
  · exact State.get_put_index h s _
  · rfl

/-- A slot that the advance does not name keeps its fields. -/
theorem State.get_ageSlots_of_not_mem {l : List Nat} {j : Nat} (h : j ∉ l) (f : Fld) (s : State) :
    (l.foldl State.ageSlot s).get f j = s.get f j := by
  induction l generalizing s with
  | nil => rfl
  | cons i l ih =>
    rw [List.mem_cons, not_or] at h
    rw [List.foldl_cons, ih h.2, State.get_ageSlot_index h.1]

/-- A valid slot's age advances once, and stops at its largest value. -/
theorem State.age_ageSlots {l : List Nat} (hn : l.Nodup) {i : Nat} (hi : i ∈ l) {s : State} (hv : s.flag TIR_SLOT.valid i = true) :
    (l.foldl State.ageSlot s).get TIR_SLOT.age i = min 0xFFFF (s.get TIR_SLOT.age i + 1) := by
  induction l generalizing s with
  | nil => nomatch hi
  | cons j l ih =>
    rw [List.nodup_cons] at hn
    rw [List.foldl_cons]
    rcases List.mem_cons.mp hi with rfl | hl
    · rw [State.get_ageSlots_of_not_mem hn.1, State.ageSlot, if_pos hv, State.get_put_fits (by decide) (by decide)
        (Nat.lt_of_le_of_lt (Nat.min_le_left _ _) (by decide))]
    · have hij : i ≠ j := fun e => hn.1 (e ▸ hl)
      rw [ih hn.2 hl (by rw [State.flag, State.get_ageSlot_index hij]; exact hv), State.get_ageSlot_index hij]

theorem completes_slotAgeAdvance {s : State} (hl : s.live = true) {i : Nat} (hi : i < s.poolSlots)
    (hv : s.flag TIR_SLOT.valid i = true) : Completes .slotAgeAdvance s fun u =>
      u.get TIR_SLOT.age i = min 0xFFFF (s.get TIR_SLOT.age i + 1) ∧ u.mem = s.mem ∧ u.cores = s.cores := by
  have frame {p : Part} (h : p ≠ .reg .TIR_SLOT) : ((upto s.poolSlots).foldl State.ageSlot s).part p = s.part p :=
    State.part_foldl (fun t j => State.ageSlot_part h t j) _ s
  refine ⟨(upto s.poolSlots).foldl State.ageSlot s, State.act_live _ hl, ?_, frame (p := .mem) (by decide),
    frame (p := .cores) (by decide)⟩
  exact State.age_ageSlots List.nodup_range (List.mem_range.mpr hi) hv

/-! ## The pool registers (R278) -/

theorem poolPages_zero (b : Nat) : poolPages b 0 = [] := rfl

/-- The base of an empty pool moves to any place of HBM. -/
theorem applyTirPoolWrite_base {s : State} {v : Word} (hz : s.poolSlots = 0) (hb : bits v.toNat 18 0 ≤ 393216) :
    State.applyTirPoolWrite false v s = (s.put TIR_POOL_BASE.page 0 (bits v.toNat 18 0)).put TIR_POOL_COUNT.slots 0 0 := by
  unfold State.applyTirPoolWrite
  simp [hz, poolPages_zero, hb, upto]

/-! ## Ports (R274 to R277, R285, R562) -/

theorem State.trainCxl_part {p : Part} (h : p ≠ .mt) (hs : p ≠ .reg .TIR_PORT_STATUS) (s : State) (k rate width : Nat)
    (cxl2 : Bool) (cap : Nat) : (s.trainCxl k rate width cxl2 cap).part p = s.part p := by
  unfold State.trainCxl
  dsimp only
  refine (State.part_ite (fun _ => ?_) fun _ => State.wn_part hs _ _ _).trans (State.withMt_part h s _)
  rw [State.put_part hs, State.put_part hs, State.put_part hs, State.put_part hs, State.put_part hs, State.wn_part hs]

section
variable {s : State} {k rate width cap : Nat} {cxl2 : Bool}

theorem cxlUp_trainCxl : (s.trainCxl k rate width cxl2 cap).cxlUp k = cxlTrains rate width cxl2 := by
  unfold State.trainCxl State.cxlUp State.flag
  dsimp only
  split
  next ht =>
    rw [ht, State.get_put_apart (by rfl) (by decide), State.get_put_apart (by rfl) (by decide),
      State.get_put_apart (by rfl) (by decide), State.get_put_apart (by rfl) (by decide),
      State.get_put_fits (by decide) (by decide) (by decide)]
    rfl
  next ht =>
    rw [Bool.not_eq_true] at ht
    rw [ht, State.get, State.rn_wn_self]
    rfl

theorem rate_trainCxl (ht : cxlTrains rate width cxl2 = true) (hr : rate < 4) :
    (s.trainCxl k rate width cxl2 cap).get TIR_PORT_STATUS.rate k = rate := by
  unfold State.trainCxl
  dsimp only
  rw [if_pos ht, State.get_put_apart (by rfl) (by decide), State.get_put_apart (by rfl) (by decide),
    State.get_put_apart (by rfl) (by decide), State.get_put_fits (by decide) (by decide) hr]

theorem capacity_trainCxl (ht : cxlTrains rate width cxl2 = true) :
    (s.trainCxl k rate width cxl2 cap).get TIR_PORT_STATUS.capacity_gib k = min cap 4096 := by
  unfold State.trainCxl
  dsimp only
  rw [if_pos ht, State.get_put_fits (by decide) (by decide) (Nat.lt_of_le_of_lt (Nat.min_le_right _ _) (by decide))]

/-- What a training leaves: the statement's clause. -/
def Trained (s : State) (k rate width cap : Nat) (cxl2 : Bool) (u : State) : Prop :=
  u.cxlUp k = cxlTrains rate width cxl2 ∧
    (u.cxlUp k = true → u.get TIR_PORT_STATUS.rate k = rate ∧ u.get TIR_PORT_STATUS.capacity_gib k = min cap 4096) ∧
    u.mem = s.mem ∧ u.cores = s.cores

theorem trained_trainCxl (hr : rate < 4) : Trained s k rate width cap cxl2 (s.trainCxl k rate width cxl2 cap) := by
  refine ⟨cxlUp_trainCxl, fun hu => ?_, State.trainCxl_part (p := .mem) (by decide) (by decide) s _ _ _ _ _,
    State.trainCxl_part (p := .cores) (by decide) (by decide) s _ _ _ _ _⟩
  rw [cxlUp_trainCxl] at hu
  exact ⟨rate_trainCxl hu hr, capacity_trainCxl hu⟩

end

section
variable {s : State} {k : Fin 2}

theorem cxlDown_no_moves (hu : s.cxlUp k.val = true) (hm : s.mt.moves = []) :
    s.cxlDown k.val = s.put TIR_PORT_STATUS.up k.val 0 := by
  rw [State.cxlDown, if_pos hu]
  simp only [State.put_mt, hm, List.filter_nil, List.foldl_nil]
  rw [← hm, ← State.put_mt s TIR_PORT_STATUS.up k.val 0]

theorem applyCxlPortUp_quiet (hd : s.cxlUp k.val = false) (hr : s.get TIR_PORT_STATUS.rate k.val ≠ 0)
    (hp : s.mt.poisonDue = []) (hm : s.mt.moves = []) : State.applyCxlPortUp k s = s.put TIR_PORT_STATUS.up k.val 1 := by
  unfold State.applyCxlPortUp
  dsimp only
  rw [if_pos ⟨hr, hd⟩]
  simp only [State.put_mt, hp, List.filter_nil, List.foldl_nil, List.map_nil]
  rw [← hp, ← State.put_mt s TIR_PORT_STATUS.up k.val 1]
  exact State.runMoves_nil hm

theorem cxlConfigAccess_pf (hl : s.live = true) (hd : s.decodes 0 = true) (o : Fin 4096) (write : Option Word) (decoder : Bool)
    (v : Word) : exec (.cxlConfigAccess 0 k o write decoder v) s = .next (match write with
      | some w => if decoder || !s.cxlUp k.val then s else s.emit (.cxlConfig k.val o.val (some w) 0#32)
      | none => s.emit (.cxlConfig k.val o.val none (if s.cxlUp k.val then v else 0xFFFFFFFF#32))) := by
  change execCxlConfigAccess 0 k o write decoder v s = _
  rw [execCxlConfigAccess, State.act_live _ hl, State.pfWrite, hd]
  rfl

end

/-- Settles O18: each command's clause by the equation of what it does at its tick, and the frames of what follows it. -/
theorem tierCommandsPagesAndPorts : Obligations.TierCommandsPagesAndPorts := by
  unfold Obligations.TierCommandsPagesAndPorts
  refine ⟨?_, ?_, ?_⟩
  · intro s c cookie irq pg i hl hlead ho hp hm hi
    dsimp only
    have tick {c' : Instr} {P : State → Prop} (hc : hostCmd c' = some (.ring c cookie irq, 0x0B))
        (he : exec c' s = s.act (s.tierSample (.ring c cookie irq) c')) (hP : P (s.applyRow c')) :
        AtTick c' s 9 (s.ctxSrc c.val) P :=
      atTick_ring hc (by decide) hlead (he.trans (State.act_live _ hl)) hP
    refine ⟨?_, ?_, ?_, fun hpin => ?_, fun hpin hd hs => ?_, fun hd => ?_⟩
    all_goals refine tick rfl rfl ?_
    · exact tierLoad_done ho hp hm hi
    · exact tierLoadPin_done ho hp hm hi
    · exact tierUnpin_done ho hp hm hi
    · exact tierEvict_pinned ho hp hm hi hpin
    · exact tierEvict_clean ho hp hm hi hpin hd hs
    · exact tierFlush_clean ho hp hm hi hd
  · intro s hl
    refine ⟨fun pg m hold hm hk hpg hs hc hh hp => completes_tierFillComplete hl hm hk hpg hs hc hh hp hold,
      fun pg m hold hm hpg hs hc hh hu => ?_, fun req a n o hr hp hb => ?_, ?_, ?_, ?_⟩
    · exact ⟨fun hk => completes_tierWritebackComplete hl hm hpg hs hc hh hu (by simp [hk]) (.inl hk) hold ends_afterWriteBack,
        fun hk hslot hd => completes_tierWritebackComplete hl hm hpg hs hc hh hu (by simp [hk]) (.inr hd) hold fun h =>
          ⟨ends_afterWriteBack h, State.valid_afterWriteBack hk (hpg ▸ hslot) hold⟩⟩
    · exact ⟨completes_cxlRead_good hr hb hl hp, completes_cxlRead_poison hr hb hl hp⟩
    · exact fun req a n o data hr hp => completes_cxlWrite hl hr hp n
    · exact fun req a n pg hr => completes_cxlHeld hl hr
    · exact fun c m a n write hlo hhi hp => route_cxl_fenced hlo hhi hp n write
  · intro s hl hd
    refine ⟨fun i hi _ hv => completes_slotAgeAdvance hl hi hv, fun v hz hb => ?_, fun k rate width cap cxl2 _ => ?_,
      fun k hu hm => ?_, fun k hu hr hp hm => ?_, fun k o v w => ?_⟩
    · refine atTick_pf hl hd rfl rfl ?_
      rw [show s.applyRow (.tirPoolWrite 0 false v) = State.applyTirPoolWrite false v s from rfl, applyTirPoolWrite_base hz hb]
      refine ⟨?_, ?_, rfl, rfl⟩
      · rw [State.get_put_of_ne (by decide), State.get_put_fits (by decide) (by decide) (Nat.lt_of_le_of_lt hb (by decide))]
      · exact State.get_put_fits (by decide) (by decide) (by decide) _ _
    · have trained : Trained s k.val rate.val width cap cxl2 (s.trainCxl k.val rate.val width cxl2 cap) :=
        trained_trainCxl rate.isLt
      have retrain : s.applyRow (.cxlRetrain 0 k rate width cxl2 cap) =
          if s.portInUse k.val then s else s.trainCxl k.val rate.val width cxl2 cap := rfl
      refine ⟨onceAtTick_row hl rfl rfl trained, fun hu => atTick_pf hl hd rfl rfl ?_, fun hu => atTick_pf hl hd rfl rfl ?_⟩
      · rw [retrain, hu, if_neg (by decide)]
        exact trained
      · rw [retrain, if_pos hu]
    · exact onceAtTick_row hl rfl rfl (cxlDown_no_moves hu hm)
    · refine onceAtTick_row hl rfl rfl ?_
      rw [show s.applyRow (.cxlPortUp k) = State.applyCxlPortUp k s from rfl, applyCxlPortUp_quiet hu hr hp hm]
      exact ⟨decide_eq_true (State.get_put_fits (by decide) (by decide) (by decide) _ _), rfl, rfl⟩
    · refine ⟨fun hu => ⟨?_, ?_⟩, ?_, fun hu => ?_⟩
      all_goals rw [cxlConfigAccess_pf hl hd]
      · simp [hu]
      · simp [hu]
      · simp
      · simp [hu]

end Sys2Proof.Machine
end

