-- ==== Sys2Proof/Proofs/LinkFrames.lean ====
section
/-! Frames of the link complex: messages sent on the torus, strikes, a port that goes down; and what a package's place in the
job depends on (R422 to R431, R449, R457). -/

namespace Sys2Proof.Machine
open Sys2Proof

section
variable {p : Part}

/-! ## Messages (R422, R431) -/

/-- What flits handed to a port change. -/
def flitParts : List Part := [.lnk, .reg .LNK_TX_BYTES, .reg .MGT_SAT]

theorem State.txFlits_part (h : p ∉ flitParts) (s : State) (k n cls : Nat) : (s.txFlits k n cls).part p = s.part p := by
  unfold State.txFlits State.drainPort
  dsimp only
  rw [State.bump_part (Part.ne h) (Part.ne h), State.setPort_part (Part.ne h), State.setPort_part (Part.ne h)]

theorem State.txRole_part (h : p ∉ flitParts) (s : State) (role n cls : Nat) : (s.txRole role n cls).part p = s.part p := by
  unfold State.txRole
  split
  · exact State.part_ite (fun _ => State.txFlits_part h s _ _ _) fun _ => rfl
  · rfl

theorem State.sendTo_part (h : p ∉ .out :: flitParts) (s : State) (c : Nat) (o : Output) (n cls : Nat) :
    (s.sendTo c o n cls).part p = s.part p := by
  unfold State.sendTo
  split
  · rw [State.txRole_part (Part.sub h), State.emit_part (Part.ne h)]
  · exact State.emit_part (Part.ne h) s o

end

/-- A message that is sent joins the output, whether or not it takes flits of a port. -/
theorem State.sendTo_out (s : State) (c : Nat) (o : Output) (n cls : Nat) : (s.sendTo c o n cls).out = s.out ++ [o] := by
  unfold State.sendTo
  split
  · exact State.txRole_part (p := .out) (by decide) (s.emit o) _ _ _
  · rfl

section
variable {p : Part}

/-! ## Strikes and ports (R427, R428, R457) -/

theorem State.recordFault_part (h : p ≠ .flt) (s : State) (kind action cause index : Nat) :
    (s.recordFault kind action cause index).part p = s.part p :=
  State.withFlt_part h s _

/-- What a strike changes. -/
def strikeParts : List Part := [.flt, .pkgEvent, .reg .FLT_LAST, .reg .FLT_STRIKES, .reg .MGT_SAT]

theorem State.strike_part (h : p ∉ strikeParts) (s : State) (kind index cause : Nat) :
    (s.strike kind index cause).part p = s.part p := by
  unfold State.strike
  dsimp only
  rw [State.recordFault_part (Part.ne h), State.bump_part (Part.ne h) (Part.ne h)]
  refine State.part_ite (fun _ => rfl) fun _ => ?_
  rw [State.signal_part (Part.ne h) (Part.ne h), State.put_part (Part.ne h), State.put_part (Part.ne h),
    State.put_part (Part.ne h)]

theorem State.classify_part (h : p ≠ .flt) (s : State) (kind index : Nat) : (s.classify kind index).part p = s.part p :=
  State.part_ite (fun _ => rfl) fun _ => State.withFlt_part h s _

theorem State.nextRecal_part (h : p ≠ .lnk) (hs : p ≠ .reg .LNK_PORT_STATUS) (s : State) (l : List Nat) :
    (s.nextRecal l).part p = s.part p := by
  induction l with
  | nil => exact State.setLnk_part h s _
  | cons k rest ih =>
    unfold State.nextRecal
    dsimp only
    split
    · refine State.part_ite (fun _ => ?_) fun _ => ih
      rw [State.setLnk_part h, State.setPortState, State.put_part hs, State.put_part hs]
    · exact ih

/-- What a port that goes down changes. -/
def portDownParts : List Part := .lnk :: .reg .LNK_PORT_STATUS :: strikeParts

theorem State.portDown_part (h : p ∉ portDownParts) (s : State) (k cause : Nat) : (s.portDown k cause).part p = s.part p := by
  unfold State.portDown
  refine State.part_ite (fun _ => rfl) fun _ => ?_
  extract_lets s₁ s₂ s₃ s₄
  have h₁ : s₁.part p = s.part p := by
    dsimp only [s₁, State.setPortState]
    rw [State.put_part (Part.ne h), State.put_part (Part.ne h)]
  have h₂ : s₂.part p = s₁.part p := State.setPort_part (Part.ne h) s₁ _ _
  have h₃ : s₃.part p = s₂.part p := State.part_ite (fun _ => rfl) fun _ => State.strike_part (Part.sub h) s₂ _ _ _
  have h₄ : s₄.part p = s₃.part p := State.part_ite (fun _ => State.classify_part (Part.ne h) s₃ _ _) fun _ => rfl
  have h₀ : s₄.part p = s.part p := ((h₄.trans h₃).trans h₂).trans h₁
  clear_value s₄
  split
  · exact State.part_ite (fun _ => (State.nextRecal_part (Part.ne h) (Part.ne h) s₄ _).trans h₀) fun _ => h₀
  · exact h₀

end

/-! ## A package's place in the job (R429, R449) -/

section
variable {s t : State}

theorem State.coord_of_part (h : t.part (.reg .LNK_JOB_COORD) = s.part (.reg .LNK_JOB_COORD)) : t.coord = s.coord :=
  State.rn_of_part h 0

variable (hf : t.part (.reg .LNK_FLOCK) = s.part (.reg .LNK_FLOCK))
include hf

theorem State.blk_of_part : t.blk = s.blk := by
  funext a
  rw [State.blk, State.rn_of_part hf, State.blk]

theorem State.flockBase_of_part : t.flockBase = s.flockBase := by
  funext c
  rw [State.flockBase, State.blk_of_part hf, State.flockBase]

theorem State.shepherdOf_of_part : t.shepherdOf = s.shepherdOf := by
  funext c
  have ho : t.shepOff = s.shepOff := by
    funext a
    rw [State.shepOff, State.blk_of_part hf, State.shepOff]
  rw [State.shepherdOf, State.flockBase_of_part hf, ho, State.shepherdOf]

theorem State.deputyOf_of_part : t.deputyOf = s.deputyOf := by
  funext c
  have ho : t.shepOff = s.shepOff := by
    funext a
    rw [State.shepOff, State.blk_of_part hf, State.shepOff]
  rw [State.deputyOf, State.blk_of_part hf, State.shepherdOf_of_part hf, State.flockBase_of_part hf, ho, State.deputyOf]

end

end Sys2Proof.Machine
end

