-- ==== Sys2Proof/Proofs/JobMembership.lean ====
section
/-! Membership of the job: JOIN and LEAVE, beacons, shepherds and takeovers (R429, R432, R449 to R453). -/

namespace Sys2Proof.Machine
open Sys2Proof

/-! ## A package's place in its flock (R449) -/

/-- The three bits that say what a package is in its flock, each from the state before any is written. -/
theorem State.showFlock_eq (s : State) : s.showFlock =
    ((s.put LNK_STATUS.shepherd 0 (if s.joined && s.shepherdOf s.coord = s.coord then 1 else 0)).put LNK_STATUS.deputy 0
      (if s.joined && s.deputyOf s.coord = some s.coord then 1 else 0)).put LNK_STATUS.tick_root 0
      (if s.joined && s.shepherdOf 0 = s.coord then 1 else 0) := by
  have hp {r : Reg} (h : Part.reg r ≠ .reg .LNK_STATUS) (t : State) (f : Fld) (hr : f.reg = .LNK_STATUS) (v : Nat) :
      (t.put f 0 v).part (.reg r) = t.part (.reg r) :=
    State.put_part (by rw [hr]; exact h) t 0 v
  unfold State.showFlock
  dsimp only
  rw [State.coord_of_part (hp (by decide) _ LNK_STATUS.deputy rfl _), State.coord_of_part (hp (by decide) s LNK_STATUS.shepherd rfl _),
    State.shepherdOf_of_part (hp (by decide) _ LNK_STATUS.deputy rfl _),
    State.shepherdOf_of_part (hp (by decide) s LNK_STATUS.shepherd rfl _),
    State.deputyOf_of_part (hp (by decide) s LNK_STATUS.shepherd rfl _)]

theorem State.showFlock_part {p : Part} (h : p ≠ .reg .LNK_STATUS) (s : State) : s.showFlock.part p = s.part p := by
  rw [State.showFlock_eq, State.put_part h, State.put_part h, State.put_part h]

theorem State.shepherd_showFlock (s : State) :
    s.showFlock.flag LNK_STATUS.shepherd = (s.joined && decide (s.shepherdOf s.coord = s.coord)) := by
  rw [State.showFlock_eq, State.flag_put_apart (by rfl) (by decide), State.flag_put_apart (by rfl) (by decide),
    State.flag_put_bool (by decide)]

theorem State.deputy_showFlock (s : State) :
    s.showFlock.flag LNK_STATUS.deputy = (s.joined && decide (s.deputyOf s.coord = some s.coord)) := by
  rw [State.showFlock_eq, State.flag_put_apart (by rfl) (by decide), State.flag_put_bool (by decide)]

theorem State.root_showFlock (s : State) :
    s.showFlock.flag LNK_STATUS.tick_root = (s.joined && decide (s.shepherdOf 0 = s.coord)) := by
  rw [State.showFlock_eq, State.flag_put_bool (by decide)]

/-- A field of the status that is none of the three keeps its value. -/
theorem State.flag_showFlock {f : Fld} (hr : f.reg = .LNK_STATUS) (hf : f.hi < 1 ∨ 3 < f.lo) (s : State) :
    s.showFlock.flag f = s.flag f := by
  have apart (g : Fld) (hg : g.reg = .LNK_STATUS ∧ 1 ≤ g.lo ∧ g.lo ≤ g.hi ∧ g.hi ≤ 3) (u : State) (v : Nat) :
      (u.put g 0 v).flag f = u.flag f :=
    State.flag_put_apart (hr.trans hg.1.symm) ⟨hg.2.2.1, by omega, by omega⟩ u 0 v
  rw [State.showFlock_eq, apart _ (by decide), apart _ (by decide), apart _ (by decide)]

/-! ## JOIN (R429, R432) -/

/-- A package that joins, before it shows its place in the flock. -/
def State.joining (s : State) : State := ((s.put LNK_STATUS.joined 0 1).put LNK_STATUS.sync_lost 0 0).wn .LNK_TICK 0 0

theorem State.joining_part {p : Part} (h : p ≠ .reg .LNK_STATUS) (ht : p ≠ .reg .LNK_TICK) (s : State) :
    s.joining.part p = s.part p := by
  rw [State.joining, State.wn_part ht, State.put_part h, State.put_part h]

theorem State.joined_joining (s : State) : s.joining.joined = true := by
  rw [State.joined, State.joining, State.flag_of_part (State.wn_part (by decide) _ _ _), State.flag_put_apart (by rfl) (by decide)]
  exact State.flag_put_one (by decide) s 0

theorem State.sync_joining (s : State) : s.joining.flag LNK_STATUS.sync_lost = false := by
  rw [State.joining, State.flag_of_part (State.wn_part (by decide) _ _ _)]
  exact State.flag_put_zero (by decide) _ 0

/-- A part that neither the job's state nor the fault manager's is, after the join. -/
theorem State.join_part {p : Part} (hl : p ≠ .lnk) (hf : p ≠ .flt) (s : State) : s.join.part p = s.joining.showFlock.part p := by
  unfold State.join
  dsimp only
  rw [State.setFlt_part hf, State.setLnk_part hl]
  rfl

theorem State.join_frame {p : Part} (h : p ∉ [.reg .LNK_STATUS, .reg .LNK_TICK, .lnk, .flt]) (s : State) :
    s.join.part p = s.part p := by
  rw [State.join_part (Part.ne h) (Part.ne h), State.showFlock_part (Part.ne h), State.joining_part (Part.ne h) (Part.ne h)]

theorem State.flag_join {f : Fld} (hr : f.reg = .LNK_STATUS) (s : State) : s.join.flag f = s.joining.showFlock.flag f :=
  State.flag_of_part (State.join_part (by rw [hr]; decide) (by rw [hr]; decide) s) 0

theorem State.joined_join (s : State) : s.join.joined = true := by
  rw [State.joined, State.flag_join rfl, State.flag_showFlock rfl (by decide)]
  exact State.joined_joining s

theorem State.tick_join (s : State) : s.join.rn .LNK_TICK = 0 := by
  rw [State.rn_of_part (State.join_part (by decide) (by decide) s), State.rn_of_part (State.showFlock_part (by decide) _),
    State.joining, State.rn_wn_self]
  rfl

theorem State.coord_joining (s : State) : s.joining.coord = s.coord :=
  State.coord_of_part (State.joining_part (by decide) (by decide) s)

theorem State.shepherdOf_joining (s : State) : s.joining.shepherdOf = s.shepherdOf :=
  State.shepherdOf_of_part (State.joining_part (by decide) (by decide) s)

/-- What JOIN leaves: the clause of the statement. -/
theorem join_joins (s : State) : s.join.joined = true ∧ s.join.rn .LNK_TICK = 0 ∧
    s.join.flag LNK_STATUS.sync_lost = false ∧ s.join.lnk.runs = [] ∧ s.join.mem = s.mem ∧ s.join.cores = s.cores ∧
    s.join.flag LNK_STATUS.shepherd = decide (s.shepherdOf s.coord = s.coord) ∧
    s.join.flag LNK_STATUS.tick_root = decide (s.shepherdOf 0 = s.coord) := by
  refine ⟨State.joined_join s, State.tick_join s, ?_, rfl, State.join_frame (p := .mem) (by decide) s,
    State.join_frame (p := .cores) (by decide) s, ?_, ?_⟩
  · rw [State.flag_join rfl, State.flag_showFlock rfl (by decide), State.sync_joining]
  · rw [State.flag_join rfl, State.shepherd_showFlock, State.joined_joining, State.coord_joining, State.shepherdOf_joining,
      Bool.true_and]
  · rw [State.flag_join rfl, State.root_showFlock, State.joined_joining, State.coord_joining, State.shepherdOf_joining,
      Bool.true_and]

/-! ## LEAVE -/

theorem applyLeave_leaves {s : State} (hl : s.leads = true) (hj : s.joined = true) :
    let u := State.applyLeave s
    u.joined = false ∧ u.flag LNK_STATUS.shepherd = false ∧ u.flag LNK_STATUS.deputy = false ∧
      u.flag LNK_STATUS.tick_root = false ∧ u.lnk.runs = [] ∧ u.mem = s.mem := by
  set v := (s.put LNK_STATUS.joined 0 0).put LNK_STATUS.sync_lost 0 0 with hv
  have hoff : v.joined = false := by
    rw [State.joined, hv, State.flag_put_apart (by rfl) (by decide)]
    exact State.flag_put_zero (by decide) s 0
  have heq : State.applyLeave s = v.showFlock.setLnk { v.showFlock.lnk with aligned := false, runs := [], early := [] } := by
    rw [State.applyLeave, hl, hj]
    rfl
  have flag {f : Fld} (hr : f.reg = .LNK_STATUS) : (State.applyLeave s).flag f = v.showFlock.flag f := by
    rw [heq]
    exact State.flag_of_part (State.setLnk_part (by rw [hr]; decide) _ _) 0
  dsimp only
  refine ⟨?_, ?_, ?_, ?_, by rw [heq]; rfl, by rw [heq]; exact State.showFlock_part (p := .mem) (by decide) v⟩
  · rw [State.joined, flag rfl, State.flag_showFlock rfl (by decide)]
    exact hoff
  · rw [flag rfl, State.shepherd_showFlock, hoff, Bool.false_and]
  · rw [flag rfl, State.deputy_showFlock, hoff, Bool.false_and]
  · rw [flag rfl, State.root_showFlock, hoff, Bool.false_and]

/-! ## Beacons (R432) -/

theorem completes_beaconSend {s : State} (hl : s.live = true) (hj : s.joined = true) (hr : s.flag LNK_STATUS.tick_root = true)
    (ht : s.rn .LNK_TICK % 1024 = 0) : Completes .beaconSend s fun u =>
      u.out = s.out ++ [.beacon (s.rn .LNK_TICK)] ∧ u.mem = s.mem ∧ u.rn .LNK_TICK = s.rn .LNK_TICK := by
  have frame {p : Part} (h : p ∉ flitParts) : ((upto 8).foldl (fun (s : State) r => s.txRole r)
      (s.emit (.beacon (s.rn .LNK_TICK)))).part p = (s.emit (.beacon (s.rn .LNK_TICK))).part p :=
    State.part_foldl (fun t r => State.txRole_part h t r 1 0) _ _
  refine ⟨(upto 8).foldl (fun (s : State) r => s.txRole r) (s.emit (.beacon (s.rn .LNK_TICK))), ?_,
    frame (p := .out) (by decide), frame (p := .mem) (by decide), State.rn_of_part (frame (by decide)) 0⟩
  change execBeaconSend s = _
  rw [execBeaconSend, State.act_live _ hl, hj, hr, ht]
  rfl

theorem beaconSend_between {s : State} (ht : s.rn .LNK_TICK % 1024 ≠ 0) : exec .beaconSend s = .next s := by
  change execBeaconSend s = _
  rw [execBeaconSend, if_neg (by simp [ht])]
  unfold State.act
  rw [ite_self]

/-- A beacon's correction of the package's count, in ns. -/
def State.beaconErr (s : State) (count : DWord) (phase : Nat) : Nat :=
  160 * (if s.rn .LNK_TICK ≤ count.toNat then count.toNat - s.rn .LNK_TICK else s.rn .LNK_TICK - count.toNat) + phase

section
variable {s : State} (count : DWord) (phase : Nat) (hl : s.live = true) (hj : s.joined = true)
  (hr : s.flag LNK_STATUS.tick_root = false)
include hl hj hr

theorem beaconReceive_eq : exec (.beaconReceive count phase) s = .next (
    let s := s.emit (.beacon count.toNat)
    if s.lnk.aligned && decide (10000 < s.beaconErr count phase) then
      let s := s.wn .LNK_TICK 0 count.toNat
      if s.flag LNK_STATUS.sync_lost then s
      else ((s.put LNK_STATUS.sync_lost 0 1).setLnk { s.lnk with lostTick := s.now }).sample 4 45 (.port 9 0)
    else ((s.wn .LNK_TICK 0 count.toNat).put LNK_STATUS.sync_lost 0 0).setLnk { s.lnk with aligned := true }) := by
  change execBeaconReceive count phase s = _
  rw [execBeaconReceive, State.act_live _ hl, hj, hr]
  rfl

theorem completes_beaconReceive_far (ha : s.lnk.aligned = true) (he : 10000 < s.beaconErr count phase) :
    Completes (.beaconReceive count phase) s fun u => u.rd .LNK_TICK = count ∧ u.flag LNK_STATUS.sync_lost = true ∧
      u.out = s.out ++ [.beacon count.toNat] ∧ u.mem = s.mem := by
  set w := (s.emit (.beacon count.toNat)).wn .LNK_TICK 0 count.toNat with hw
  have htick : w.rd .LNK_TICK = count := by
    rw [hw, State.wn, State.rd_wr_self, BitVec.ofNat_toNat]
    exact BitVec.setWidth_eq count
  have hcond : ((s.emit (.beacon count.toNat)).lnk.aligned &&
      decide (10000 < (s.emit (.beacon count.toNat)).beaconErr count phase)) = true := by
    rw [Bool.and_eq_true, decide_eq_true_eq]
    exact ⟨ha, he⟩
  refine ⟨_, beaconReceive_eq count phase hl hj hr, ?_⟩
  dsimp only
  rw [if_pos hcond, ← hw]
  split
  next hs => exact ⟨htick, hs, rfl, rfl⟩
  next hs =>
    refine ⟨?_, State.flag_put_one (by decide) w 0, rfl, rfl⟩
    rw [← htick]
    exact congrFun (State.put_part (p := .reg .LNK_TICK) (f := LNK_STATUS.sync_lost) (by decide) w 0 1) 0

theorem completes_beaconReceive_near (h : s.lnk.aligned = false ∨ s.beaconErr count phase ≤ 10000) :
    Completes (.beaconReceive count phase) s fun u => u.rd .LNK_TICK = count ∧ u.flag LNK_STATUS.sync_lost = false ∧
      u.lnk.aligned = true ∧ u.out = s.out ++ [.beacon count.toNat] ∧ u.mem = s.mem := by
  have hcond : ¬((s.emit (.beacon count.toNat)).lnk.aligned &&
      decide (10000 < (s.emit (.beacon count.toNat)).beaconErr count phase)) = true := by
    rw [Bool.and_eq_true, decide_eq_true_eq, not_and, Nat.not_lt]
    exact fun ha => h.resolve_left (by rw [show s.lnk.aligned = true from ha]; decide)
  refine ⟨_, beaconReceive_eq count phase hl hj hr, ?_⟩
  dsimp only
  rw [if_neg hcond]
  refine ⟨?_, State.flag_put_zero (by decide) _ 0, rfl, rfl, rfl⟩
  refine (congrFun (State.put_part (p := .reg .LNK_TICK) (f := LNK_STATUS.sync_lost) (by decide) _ 0 0) 0).trans ?_
  change ((s.emit (.beacon count.toNat)).wn .LNK_TICK 0 count.toNat).rd .LNK_TICK = count
  rw [State.wn, State.rd_wr_self, BitVec.ofNat_toNat]
  exact BitVec.setWidth_eq count

end

/-! ## Shepherds (R450) -/

theorem completes_shepherdHeartbeat {s : State} {d : Nat} (hl : s.live = true) (hd : s.deputyOf s.coord = some d)
    (hs : s.flag LNK_STATUS.shepherd = true) (ht : s.rn .LNK_TICK % 64 = 0) (hne : d ≠ s.coord) (hled : s.led = true) :
    Completes .shepherdHeartbeat s fun u => u.out = s.out ++ [.heartbeat d] ∧ u.mem = s.mem := by
  refine ⟨s.sendTo d (.heartbeat d), ?_, State.sendTo_out s d _ 1 0, State.sendTo_part (p := .mem) (by decide) s d _ 1 0⟩
  change execShepherdHeartbeat s = _
  rw [execShepherdHeartbeat, State.act_live _ hl, hd]
  exact congrArg Host.Outcome.next (if_pos (by simp [hled, hs, ht, hne]))

theorem applyShepherdTimeout_takes {s : State} (hd : s.flag LNK_STATUS.deputy = true)
    (hs : s.flag LNK_STATUS.shepherd = false) (hled : s.led = true) :
    let u := State.applyShepherdTimeout s
    u.flag LNK_STATUS.shepherd = true ∧ u.flag LNK_STATUS.deputy = false ∧ u.out = s.out ++ [.newShepherd s.coord] ∧
      (s.shepherdOf 0 = s.shepherdOf s.coord → u.flag LNK_STATUS.tick_root = true) ∧ u.mem = s.mem := by
  set v := (s.put LNK_STATUS.shepherd 0 1).put LNK_STATUS.deputy 0 0 with hv
  have hshep : v.flag LNK_STATUS.shepherd = true := by
    rw [hv, State.flag_put_apart (by rfl) (by decide)]
    exact State.flag_put_one (by decide) s 0
  have hdep : v.flag LNK_STATUS.deputy = false := State.flag_put_zero (by decide) _ 0
  have hc : v.coord = s.coord := State.coord_of_part (by rw [hv, State.put_part (by decide), State.put_part (by decide)])
  unfold State.applyShepherdTimeout
  dsimp only
  rw [if_pos (by simp [hled, hd, hs]), ← hv]
  have emitted (w : State) (o : Output) (f : Fld) (hf : f.reg = .LNK_STATUS) : (w.emit o).flag f = w.flag f :=
    State.flag_of_part (State.emit_part (by rw [hf]; decide) w o) 0
  have ho : v.out = s.out := rfl
  have hm : v.mem = s.mem := rfl
  clear_value v
  rw [emitted _ _ _ rfl, emitted _ _ _ rfl, emitted _ _ _ rfl, hc]
  split
  next hroot =>
    rw [State.flag_put_apart (by rfl) (by decide), State.flag_put_apart (by rfl) (by decide), hshep, hdep]
    exact ⟨rfl, rfl, congrArg (· ++ _) ho, fun _ => State.flag_put_one (by decide) v 0, hm⟩
  next hroot => exact ⟨hshep, hdep, congrArg (· ++ _) ho, fun h => absurd h hroot, hm⟩

/-! ## TAKEOVER (R452) -/

/-- A standby that brings the settings of its coordinate joins with them. -/
theorem takeover_joins {s : State} (coord id dims : Word) (c : Ctx) (hj : s.joined = false)
    (hsize : ((((s.wn .LNK_JOB_ID 0 id.toNat).wn .LNK_JOB_DIMS 0 dims.toNat).wn .LNK_JOB_COORD 0 coord.toNat).put
      LNK_JOB_CTX.context 0 c.val).jobSize ≤ 65536)
    (hc : ((((s.wn .LNK_JOB_ID 0 id.toNat).wn .LNK_JOB_DIMS 0 dims.toNat).wn .LNK_JOB_COORD 0 coord.toNat).put
      LNK_JOB_CTX.context 0 c.val).coordOk coord.toNat = true) :
    let u := State.applyTakeover coord (some (id, dims, c)) s
    u.joined = true ∧ u.rn .LNK_JOB_ID = id.toNat ∧ u.rn .LNK_JOB_DIMS = dims.toNat ∧ u.coord = coord.toNat ∧
      u.get LNK_JOB_CTX.context = c.val ∧ u.rn .LNK_TICK = 0 := by
  set v := (((s.wn .LNK_JOB_ID 0 id.toNat).wn .LNK_JOB_DIMS 0 dims.toNat).wn .LNK_JOB_COORD 0 coord.toNat).put
    LNK_JOB_CTX.context 0 c.val with hv
  have word (x : Word) : x.toNat % 2 ^ 64 = x.toNat := Nat.mod_eq_of_lt (Nat.lt_trans x.isLt (by decide))
  unfold State.applyTakeover
  dsimp only
  rw [hj, if_neg (by decide), ← hv, if_neg (by rw [hc]; simpa using hsize)]
  refine ⟨State.joined_join v, ?_, ?_, ?_, ?_, State.tick_join v⟩
  · rw [State.rn_of_part (State.join_frame (by decide) v), hv, State.rn_put_of_ne (by decide), State.rn_wn_of_ne (by decide),
      State.rn_wn_of_ne (by decide), State.rn_wn_self, word]
  · rw [State.rn_of_part (State.join_frame (by decide) v), hv, State.rn_put_of_ne (by decide), State.rn_wn_of_ne (by decide),
      State.rn_wn_self, word]
  · rw [State.coord, State.rn_of_part (State.join_frame (by decide) v), hv, State.rn_put_of_ne (by decide), State.rn_wn_self,
      word]
  · rw [State.get_of_part (State.join_frame (by decide) v), hv,
      State.get_put_fits (by decide) (by decide) (Nat.lt_trans c.isLt (by decide))]

theorem State.moveRole_part {p : Part} (h : p ∉ .reg .LNK_PORT_CFG :: portDownParts) (s : State) (coord : Nat) :
    (s.moveRole coord).part p = s.part p := by
  unfold State.moveRole
  split
  · split
    · rw [State.setPort_part (Part.ne h), State.portDown_part (Part.sub h), State.portDown_part (Part.sub h),
        State.put_part (Part.ne h), State.put_part (Part.ne h)]
    · rfl
  · rfl

/-- A package whose neighbour is replaced remembers that its coordinate is a standby's. -/
theorem takeover_taken {s : State} {coord : Word} (hj : s.joined = true) (hne : coord.toNat ≠ s.coord) :
    let u := State.applyTakeover coord none s
    coord.toNat ∈ u.sec.taken ∧ (∀ a ∈ u.sec.admitted, a.1 ≠ coord.toNat) ∧ u.mem = s.mem := by
  have frame {p : Part} (h : p ∉ .out :: .lnk :: .reg .LNK_TX_BYTES :: .reg .LNK_PORT_CFG :: portDownParts) :
      (State.applyTakeover coord none s).part p = (s.setSec { s.sec with
        taken := s.sec.taken.filter (· ≠ coord.toNat) ++ [coord.toNat]
        admitted := s.sec.admitted.filter fun a => a.1 ≠ coord.toNat }).part p := by
    unfold State.applyTakeover
    dsimp only
    rw [if_neg (by simp [hj, hne]), State.moveRole_part (Part.sub h)]
    refine State.part_ite (fun _ => ?_) fun _ => rfl
    rw [State.txRole_part (Part.sub h), State.emit_part (Part.ne h)]
  have hsec := frame (p := .sec) (by decide)
  have hmem := frame (p := .mem) (by decide)
  change (State.applyTakeover coord none s).sec = _ at hsec
  change (State.applyTakeover coord none s).mem = _ at hmem
  dsimp only
  rw [hsec, hmem]
  refine ⟨List.mem_append_right _ (List.mem_singleton.mpr rfl), fun a ha => ?_, rfl⟩
  exact of_decide_eq_true (List.mem_filter.mp ha).2

/-- Settles O44: JOIN and LEAVE through the bits that show the package's place, the beacons and takeovers by their equations. -/
theorem jobMembershipAndTicks : Obligations.JobMembershipAndTicks := by
  unfold Obligations.JobMembershipAndTicks
  intro s hl
  refine ⟨fun hd => ⟨fun hle hj hsz hc => ?_, fun h => ?_, fun h => ?_, fun hle hj => ?_⟩, completes_beaconSend hl,
    beaconSend_between, fun count phase hj hr => ?_, fun d r hdep hs ht hne _ hled => ?_, fun hdep hs hled => ?_,
    fun coord job => State.act_live _ hl, fun coord id dims c => ?_, fun coord hj hne => takeover_taken hj hne⟩
  · refine atTick_pf hl hd rfl rfl ?_
    rw [show s.applyRow (.join 0) = State.applyJoin s from rfl, State.applyJoin, if_neg (by simp [hle, hj, hsz, hc])]
    exact join_joins s
  · exact atTick_pf hl hd rfl rfl (if_pos h)
  · refine atTick_pf hl hd rfl rfl (if_neg ?_)
    rcases h with h | h <;> simp [h]
  · exact atTick_pf hl hd rfl rfl (applyLeave_leaves hle hj)
  · exact ⟨completes_beaconReceive_far count phase hl hj hr, completes_beaconReceive_near count phase hl hj hr⟩
  · exact completes_shepherdHeartbeat hl hdep hs ht hne hled
  · exact onceAtTick_row hl rfl rfl (applyShepherdTimeout_takes hdep hs hled)
  · exact fun hj hsz hc => takeover_joins coord id dims c hj hsz hc

end Sys2Proof.Machine
end

