-- ==== Sys2Proof/Proofs/HaltFrames.lean ====
section
/-! Vote bits, and regions that halt (R70, R83, R210, R315, R325). -/

namespace Sys2Proof.Machine
open Sys2Proof

section
variable {p : Part}

/-! ## Frames -/

theorem State.voteBit_part (h : p ≠ .step) (hr : p ≠ .reg .CTX_HEALTH) (s : State) (c b : Nat) :
    (s.voteBit c b).part p = s.part p :=
  State.part_ite (fun _ => State.part_ite (fun _ => State.put_part hr s _ _) fun _ => rfl) fun _ =>
    State.part_ite (fun _ => State.put_part hr s _ _) fun _ =>
      State.part_ite (fun _ => State.setStp_part h s _ _) fun _ => rfl

theorem State.haltCores_part (h : p ≠ .cores) (hr : p ≠ .reg .BND_REGION_STATE) (s : State) (q : Nat) :
    (s.haltCores q).part p = s.part p :=
  (State.put_part hr _ _ _).trans (State.withCores_part h s _)

/-- What a halt changes. -/
def haltParts : List Part := [.cores, .step, .reg .BND_REGION_STATE, .reg .CTX_HEALTH]

/-- A step of the close of a step: a region of the step bind set that computes halts. -/
def State.closeRegion (c : Nat) (s : State) (q : Nat) : State :=
  if s.rctx q = c && s.flag BND_REGION_STATE.step q && s.runs q then s.haltCores q else s

theorem State.closeStep_eq (s : State) (c : Nat) : s.closeStep c =
    if s.stepOpen c && !(s.stp c).closed then
      (upto 16).foldl (State.closeRegion c) ((s.voteBit c vbIncomplete).setStp c { s.stp c with closed := true })
    else s := rfl

theorem State.closeStep_part (h : p ∉ haltParts) (s : State) (c : Nat) : (s.closeStep c).part p = s.part p := by
  rw [State.closeStep_eq]
  refine State.part_ite (fun _ => ?_) fun _ => rfl
  refine (State.part_foldl (fun t q => ?_) _ _).trans ?_
  · exact State.part_ite (fun _ => State.haltCores_part (Part.ne h) (Part.ne h) t q) fun _ => rfl
  · rw [State.setStp_part (Part.ne h), State.voteBit_part (Part.ne h) (Part.ne h)]

theorem State.halt_part (h : p ∉ haltParts) (s : State) (q : Nat) : (s.halt q).part p = s.part p := by
  unfold State.halt
  refine State.part_ite (fun _ => ?_) fun _ => rfl
  dsimp only
  refine (State.part_ite (fun _ => State.closeStep_part h _ _) fun _ => rfl).trans ?_
  exact State.haltCores_part (Part.ne h) (Part.ne h) s q

/-- What a record of a context or of a region changes. -/
def recordParts : List Part := [.ctx, .reg .CTX_CPL_LOST, .reg .MGT_SAT]

theorem State.postCtx_part (h : p ∉ recordParts) (s : State) (c status mask : Nat) :
    (s.postCtx c status mask).part p = s.part p :=
  State.post_part (Part.ne h) (Part.ne h) (Part.ne h) s c _

theorem State.postEvent_part (h : p ∉ recordParts) (s : State) (c status region count value : Nat) :
    (s.postEvent c status region count value).part p = s.part p :=
  (State.post_part (Part.ne h) (Part.ne h) (Part.ne h) _ c _).trans
    (State.part_ite (fun _ => rfl) fun _ => State.setSat_part (Part.ne h) s 1)

theorem State.haltEvent_part (h : p ∉ haltParts ++ recordParts) (s : State) (q status : Nat) :
    (s.haltEvent q status).part p = s.part p :=
  State.part_ite (fun _ => (State.postEvent_part (Part.sub h) _ _ _ _ _ _).trans (State.halt_part (Part.sub h) s q)) fun _ => rfl

theorem State.haltCtx_part (h : p ∉ haltParts ++ recordParts) (s : State) (q status : Nat) :
    (s.haltCtx q status).part p = s.part p :=
  State.part_ite (fun _ => (State.postCtx_part (Part.sub h) _ _ _ _).trans (State.halt_part (Part.sub h) s q)) fun _ => rfl

end

/-! ## Which regions halt -/

/-- From `s` to `t` regions that compute may halt; every other region, and every other field of a region, is as before. -/
def Halts (s t : State) : Prop :=
  (∀ q, t.rstate q = s.rstate q ∨ (s.runs q = true ∧ t.rstate q = rsHalted)) ∧
    ∀ f : Fld, f.reg = .BND_REGION_STATE → 3 ≤ f.lo → ∀ q, t.get f q = s.get f q

theorem Halts.of_part {s t : State} (h : t.part (.reg .BND_REGION_STATE) = s.part (.reg .BND_REGION_STATE)) : Halts s t :=
  ⟨fun q => Or.inl (State.get_of_part (f := BND_REGION_STATE.state) h q), fun f hf _ q =>
    State.get_of_part (f := f) (by rw [hf]; exact h) q⟩

theorem Halts.refl (s : State) : Halts s s := Halts.of_part rfl

theorem State.runs_of_halted {s : State} {q : Nat} (h : s.rstate q = rsHalted) : s.runs q = false := by
  rw [State.runs, h]
  rfl

theorem State.runs_of_rstate {s t : State} {q : Nat} (h : t.rstate q = s.rstate q) : t.runs q = s.runs q := by
  rw [State.runs, h, State.runs]

theorem Halts.trans {s t u : State} (h : Halts s t) (k : Halts t u) : Halts s u := by
  refine ⟨fun q => ?_, fun f hf hl q => (k.2 f hf hl q).trans (h.2 f hf hl q)⟩
  rcases h.1 q with hq | ⟨hr, hq⟩
  · rcases k.1 q with kq | ⟨kr, kq⟩
    · exact Or.inl (kq.trans hq)
    · exact Or.inr ⟨(State.runs_of_rstate hq).symm.trans kr, kq⟩
  · rcases k.1 q with kq | ⟨kr, -⟩
    · exact Or.inr ⟨hr, kq.trans hq⟩
    · rw [State.runs_of_halted hq] at kr
      nomatch kr

theorem Halts.foldl {α : Type} {f : State → α → State} (h : ∀ s x, Halts s (f s x)) (l : List α) (s : State) :
    Halts s (l.foldl f s) := by
  induction l generalizing s with
  | nil => exact Halts.refl s
  | cons x l ih => exact (h s x).trans (ih _)

theorem Halts.rctx {s t : State} (h : Halts s t) (q : Nat) : t.rctx q = s.rctx q :=
  h.2 BND_REGION_STATE.context rfl (by decide) q

/-- A region that has halted stays so. -/
theorem Halts.halted {s t : State} (h : Halts s t) {q : Nat} (hq : s.rstate q = rsHalted) : t.rstate q = rsHalted := by
  rcases h.1 q with ht | ⟨-, ht⟩
  · exact ht.trans hq
  · exact ht

theorem State.rstate_haltCores (s : State) (q : Nat) : (s.haltCores q).rstate q = rsHalted :=
  State.get_put_fits (by decide) (by decide) (by decide) _ q

theorem halts_haltCores {s : State} {q : Nat} (h : s.runs q = true) : Halts s (s.haltCores q) := by
  refine ⟨fun j => ?_, fun f hf hl j => ?_⟩
  · by_cases hj : j = q
    · subst hj
      exact Or.inr ⟨h, State.rstate_haltCores s j⟩
    · exact Or.inl (State.get_put_index hj (s.stopRegion q) rsHalted)
  · by_cases hj : j = q
    · subst hj
      exact State.get_put_apart hf ⟨by decide, by decide, Or.inl (Nat.lt_of_lt_of_le (by decide) hl)⟩ (s.stopRegion j) j rsHalted
    · exact State.get_put_index hj (s.stopRegion q) rsHalted

theorem halts_closeStep (s : State) (c : Nat) : Halts s (s.closeStep c) := by
  rw [State.closeStep_eq]
  split
  · refine Halts.trans (Halts.of_part ?_) (Halts.foldl (fun t q => ?_) _ _)
    · rw [State.setStp_part (by decide), State.voteBit_part (by decide) (by decide)]
    · unfold State.closeRegion
      split
      next hc =>
        rw [Bool.and_eq_true] at hc
        exact halts_haltCores hc.2
      next => exact Halts.refl t
  · exact Halts.refl s

theorem halts_halt (s : State) (q : Nat) : Halts s (s.halt q) := by
  unfold State.halt
  split
  next hr =>
    dsimp only
    split
    · exact (halts_haltCores hr).trans (halts_closeStep _ _)
    · exact halts_haltCores hr
  next => exact Halts.refl s

/-- A region that computes has halted after its halt. -/
theorem rstate_halt {s : State} {q : Nat} (h : s.runs q = true) : (s.halt q).rstate q = rsHalted := by
  unfold State.halt
  rw [if_pos h]
  dsimp only
  split
  · exact (halts_closeStep _ _).halted (State.rstate_haltCores s q)
  · exact State.rstate_haltCores s q

theorem halts_haltCtx (s : State) (q status : Nat) : Halts s (s.haltCtx q status) := by
  unfold State.haltCtx
  split
  · exact (halts_halt s q).trans (Halts.of_part (State.postCtx_part (by decide) _ _ _ _))
  · exact Halts.refl s

theorem rstate_haltCtx {s : State} {q : Nat} (h : s.runs q = true) (status : Nat) :
    (s.haltCtx q status).rstate q = rsHalted := by
  rw [State.haltCtx, if_pos h]
  exact (State.get_of_part (f := BND_REGION_STATE.state) (State.postCtx_part (by decide) _ _ _ _) q).trans (rstate_halt h)

/-- After a halt of each region of a list, one of them that computed has halted. -/
theorem rstate_haltAll {l : List Nat} {q : Nat} (hq : q ∈ l) {s : State} (h : s.runs q = true) (status : Nat) :
    (l.foldl (fun (s : State) p => s.haltCtx p status) s).rstate q = rsHalted := by
  induction l generalizing s with
  | nil => nomatch hq
  | cons p l ih =>
    have hrest (t : State) : Halts t (l.foldl (fun (s : State) p => s.haltCtx p status) t) :=
      Halts.foldl (fun t p => halts_haltCtx t p status) l t
    rw [List.foldl_cons]
    rcases List.mem_cons.mp hq with rfl | hl
    · exact (hrest _).halted (rstate_haltCtx h status)
    · rcases (halts_haltCtx s p status).1 q with hs | ⟨-, hs⟩
      · exact ih hl (by rw [State.runs_of_rstate hs, h])
      · exact (hrest _).halted hs

end Sys2Proof.Machine
end

