-- ==== Sys2Proof/Proofs/SecurityKeys.lean ====
section
/-! The security subsystem: key commands, the key lock, SVN commits and violations (R510, R513, R517 to R519). -/

namespace Sys2Proof.Machine
open Sys2Proof

/-! ## Key commands (R510, R519) -/

theorem State.endKey_part {p : Part} (h : p ≠ .reg .SEC_KEY_STATUS) (s : State) (st : Nat) : (s.endKey st).part p = s.part p := by
  rw [State.endKey, State.put_part h, State.put_part h]

theorem State.status_endKey {st : Nat} (h : st < 256) (s : State) : (s.endKey st).get SEC_KEY_STATUS.status = st := by
  rw [State.endKey, State.get_put_apart (by rfl) (by decide), State.get_put_fits (by decide) (by decide) h]

theorem State.busy_endKey (s : State) (st : Nat) : (s.endKey st).flag SEC_KEY_STATUS.busy = false :=
  State.flag_put_zero (by decide) _ 0

theorem State.showWords_part {p : Part} {r : Reg} (h : p ≠ .reg r) (s : State) (i n : Nat) (d : List Byte) :
    (s.showWords r i n d).part p = s.part p :=
  State.part_foldl (fun t _ => State.wn_part h t _ _) _ s

/-- A key command is taken while none is in progress. -/
theorem keyCommand_taken {s : State} {i : Instr} (hl : s.live = true) (hd : s.decodes 0 = true)
    (he : exec i s = s.act (s.keyCommand 0 i)) : (s.flag SEC_KEY_STATUS.busy = true → exec i s = .next s) ∧
      (s.flag SEC_KEY_STATUS.busy = false → exec i s = .next ((s.put SEC_KEY_STATUS.busy 0 1).sampleRow 9 64 i)) := by
  have hk : s.keyCommand 0 i = if s.flag SEC_KEY_STATUS.busy then s else (s.put SEC_KEY_STATUS.busy 0 1).sampleRow 9 64 i := by
    rw [State.keyCommand, State.pfWrite, hd]
    rfl
  rw [he, State.act_live _ hl, hk]
  exact ⟨fun hb => by rw [if_pos hb], fun hb => by rw [hb]; rfl⟩

/-! ## ENROL (R510) -/

/-- The state after a key has been enrolled (`State.applyEnrol`). -/
def State.enrolled (s : State) (bs : List Byte) : State :=
  let key := bs.take 2592
  let n := s.sec.keys.length
  let s := (s.setSec { s.sec with keys := s.sec.keys ++ [key] }).put SEC_STATUS.keys 0 (n + 1)
  (s.showWords .SEC_KEY_ID (14 * n) 14 ((Config.sha3 key).take 56)).endKey stOK

theorem State.enrolled_part {p : Part} (h : p ∉ [.sec, .reg .SEC_STATUS, .reg .SEC_KEY_ID, .reg .SEC_KEY_STATUS]) (s : State)
    (bs : List Byte) : (s.enrolled bs).part p = s.part p := by
  unfold State.enrolled
  dsimp only
  rw [State.endKey_part (Part.ne h), State.showWords_part (Part.ne h), State.put_part (Part.ne h), State.setSec_part (Part.ne h)]

theorem State.keys_enrolled (s : State) (bs : List Byte) : (s.enrolled bs).sec.keys = s.sec.keys ++ [bs.take 2592] := by
  have h : (s.enrolled bs).part .sec = (s.setSec { s.sec with keys := s.sec.keys ++ [bs.take 2592] }).part .sec := by
    unfold State.enrolled
    dsimp only
    rw [State.endKey_part (by decide), State.showWords_part (by decide), State.put_part (by decide)]
  exact congrArg SecState.keys h

theorem State.count_enrolled {s : State} (h : s.sec.keys.length < 16) (bs : List Byte) :
    (s.enrolled bs).get SEC_STATUS.keys = s.sec.keys.length + 1 := by
  unfold State.enrolled
  dsimp only
  rw [State.get_of_part (State.endKey_part (by decide) _ _), State.get_of_part (State.showWords_part (by decide) _ _ _ _),
    State.get_put_fits (by decide) (by decide) (Nat.lt_of_lt_of_le (Nat.succ_lt_succ h) (by decide))]

section
variable {s : State} (hlead : s.leads = true) (hopen : s.flag SEC_STATUS.key_lock = false) (hroom : s.sec.keys.length < 16)
include hlead hopen hroom

/-- While the key set is open and has room, an enrolment whose read is served enrols what it reads. -/
theorem applyEnrol_served {s₁ : State} {bs : List Byte} (hr : s.readNow .engine (s.rn .SEC_KEY_ADDR) 2624 = (s₁, .data bs)) :
    State.applyEnrol 0 s = s₁.enrolled bs := by
  unfold State.applyEnrol
  rw [hlead, hopen, if_neg (by decide), if_neg (by decide), if_neg (Nat.not_le.mpr hroom), hr]
  rfl

theorem applyEnrol_data {s₁ : State} {bs : List Byte} (hr : s.readNow .engine (s.rn .SEC_KEY_ADDR) 2624 = (s₁, .data bs)) :
    let u := State.applyEnrol 0 s
    u.sec.keys = s.sec.keys ++ [bs.take 2592] ∧ u.get SEC_STATUS.keys = s.sec.keys.length + 1 ∧
      u.get SEC_KEY_STATUS.status = 0 ∧ u.flag SEC_KEY_STATUS.busy = false ∧ u.mem = s.mem ∧ u.cores = s.cores := by
  have frame {p : Part} (h : p ∉ readAccessParts) : s₁.part p = s.part p := by
    rw [← State.readNow_part h s .engine (s.rn .SEC_KEY_ADDR) 2624 0 0 false, hr]
  have hsec : s₁.sec = s.sec := frame (p := .sec) (by decide)
  rw [applyEnrol_served hlead hopen hroom hr]
  dsimp only
  rw [← hsec] at hroom ⊢
  exact ⟨State.keys_enrolled s₁ bs, State.count_enrolled hroom bs, State.status_endKey (by decide) _, State.busy_endKey _ _,
    (State.enrolled_part (p := .mem) (by decide) s₁ bs).trans (frame (by decide)),
    (State.enrolled_part (p := .cores) (by decide) s₁ bs).trans (frame (by decide))⟩

theorem applyEnrol_held {s₁ : State} (hr : s.readNow .engine (s.rn .SEC_KEY_ADDR) 2624 = (s₁, .held)) :
    State.applyEnrol 0 s = s₁.sampleRow 9 64 (.enrol 0) := by
  unfold State.applyEnrol
  rw [hlead, hopen, if_neg (by decide), if_neg (by decide), if_neg (Nat.not_le.mpr hroom), hr]

end

/-- A refused enrolment leaves a status and the key set as it was. -/
theorem endKey_refused {st : Nat} (h : st < 256) (s : State) :
    (s.endKey st).get SEC_KEY_STATUS.status = st ∧ (s.endKey st).sec = s.sec :=
  ⟨State.status_endKey h s, State.endKey_part (p := .sec) (by decide) s st⟩

/-! ## SVN_COMMIT (R513) -/

theorem applySvnCommit_commits {s : State} (hlead : s.leads = true) : let u := State.applySvnCommit s
    u.mem = s.mem ∧ u.fuse = (if Config.imageSvn (s.image 0) = Config.imageSvn (s.image 1) then
      { s.fuse with svn := max s.fuse.svn (min 64 (Config.imageSvn (s.image 0))) } else s.fuse) ∧
      u.get SEC_KEY_STATUS.status = if Config.imageSvn (s.image 0) = Config.imageSvn (s.image 1) then 0x00 else 0x02 := by
  unfold State.applySvnCommit
  dsimp only
  rw [hlead, if_neg (by decide)]
  by_cases hw : Config.imageSvn (s.image 0) = Config.imageSvn (s.image 1)
  · rw [if_neg (not_not.mpr hw), if_pos hw, if_pos hw]
    refine ⟨State.endKey_part (p := .mem) (by decide) _ stOK, ?_, State.status_endKey (by decide) _⟩
    exact State.endKey_part (p := .fuse) (by decide) _ stOK
  · rw [if_pos hw, if_neg hw, if_neg hw]
    exact ⟨State.endKey_part (p := .mem) (by decide) s stBUSY, State.endKey_part (p := .fuse) (by decide) s stBUSY,
      State.status_endKey (by decide) s⟩

/-! ## KEY_LOCK (R509, R513) -/

theorem State.extend_part {p : Part} (h : p ≠ .sec) (s : State) (x m : Nat) (d : List Byte) :
    (s.extend x m d).part p = s.part p :=
  State.part_ite (fun _ => State.setSec_part h s _) fun _ => State.setSec_part h s _

theorem State.showMeas_part {p : Part} (h : p ≠ .reg .SEC_MEAS) (s : State) : s.showMeas.part p = s.part p :=
  State.part_foldl (fun t _ => State.showWords_part h t _ _ _) _ s

theorem State.meas_of_part {s t : State} (h : t.part .sec = s.part .sec) (x m : Nat) : t.meas x m = s.meas x m := by
  have hs : t.sec = s.sec := h
  rw [State.meas, State.meas, hs]

theorem State.keys_extend (s : State) (x m : Nat) (d : List Byte) : (s.extend x m d).sec.keys = s.sec.keys := by
  unfold State.extend
  dsimp only
  split <;> rfl

section
variable (s : State) {x m k : Nat} (d : List Byte)

/-- The measurements of a half once one of its registers has been extended. -/
theorem State.meas_extend (hx : x < 2) (hk : k < 8) :
    (s.extend x m d).meas x k = if k = m then Config.sha3 (s.meas x m ++ d) else s.meas x k := by
  have hget (f : Nat → List Byte) (v e : List Byte) :
      ((((upto 8).map f).set m v).getD k e) = if k = m then v else f k := by
    rw [List.getD_eq_getElem _ _ (by simpa [upto] using hk), List.getElem_set]
    simp [upto, eq_comm]
  rcases (by omega : x = 0 ∨ x = 1) with rfl | rfl
  · exact hget _ _ _
  · exact hget _ _ _

/-- The other half keeps its measurements. -/
theorem State.meas_extend_west (m : Nat) : (s.extend 0 m d).meas 1 k = s.meas 1 k := rfl

theorem State.meas_extend_east (m : Nat) : (s.extend 1 m d).meas 0 k = s.meas 0 k := rfl

end

/-- The lock extends M4 of both halves with the digest of the key set (`State.applyKeyLock`). -/
theorem applyKeyLock_open {s : State} (h : s.flag SEC_STATUS.key_lock = false) :
    let d := Config.sha3 s.sec.keys.flatten
    State.applyKeyLock s = ((((s.put SEC_STATUS.key_lock 0 1).setSec { s.sec with keyDigest := d }).extend 0 4 d).extend 1 4
      d).showMeas := by
  rw [State.applyKeyLock, if_neg (by rw [h]; decide)]

theorem applyKeyLock_locks {s : State} (h : s.flag SEC_STATUS.key_lock = false) :
    let u := State.applyKeyLock s
    u.flag SEC_STATUS.key_lock = true ∧ u.sec.keys = s.sec.keys ∧ u.mem = s.mem ∧
      u.meas 0 4 = Config.sha3 (s.meas 0 4 ++ Config.sha3 s.sec.keys.flatten) ∧
      u.meas 1 4 = Config.sha3 (s.meas 1 4 ++ Config.sha3 s.sec.keys.flatten) ∧
      (∀ x m, x < 2 → m < 8 → m ≠ 4 → u.meas x m = s.meas x m) := by
  set d := Config.sha3 s.sec.keys.flatten with hd
  set v := (s.put SEC_STATUS.key_lock 0 1).setSec { s.sec with keyDigest := d } with hv
  have frame {p : Part} (h : p ≠ .sec) (hm : p ≠ .reg .SEC_MEAS) :
      (((v.extend 0 4 d).extend 1 4 d).showMeas).part p = v.part p := by
    rw [State.showMeas_part hm, State.extend_part h, State.extend_part h]
  have hsec : (((v.extend 0 4 d).extend 1 4 d).showMeas).part .sec = ((v.extend 0 4 d).extend 1 4 d).part .sec :=
    State.showMeas_part (by decide) _
  have west (k : Nat) (hk : k < 8) : (((v.extend 0 4 d).extend 1 4 d).showMeas).meas 0 k =
      if k = 4 then Config.sha3 (s.meas 0 4 ++ d) else s.meas 0 k := by
    rw [State.meas_of_part hsec, State.meas_extend_east, State.meas_extend v d (by decide) hk]
    rfl
  have east (k : Nat) (hk : k < 8) : (((v.extend 0 4 d).extend 1 4 d).showMeas).meas 1 k =
      if k = 4 then Config.sha3 (s.meas 1 4 ++ d) else s.meas 1 k := by
    rw [State.meas_of_part hsec, State.meas_extend _ d (by decide) hk, State.meas_extend_west, State.meas_extend_west]
    rfl
  rw [applyKeyLock_open h, ← hd, ← hv]
  refine ⟨?_, ?_, frame (p := .mem) (by decide) (by decide), by rw [west 4 (by decide), if_pos rfl],
    by rw [east 4 (by decide), if_pos rfl], fun x m hx hm hne => ?_⟩
  · rw [State.flag_of_part (frame (by decide) (by decide)), hv, State.flag_of_part (State.setSec_part (by decide) _ _)]
    exact State.flag_put_one (by decide) s 0
  · refine (congrArg SecState.keys hsec).trans ?_
    change ((v.extend 0 4 d).extend 1 4 d).sec.keys = s.sec.keys
    rw [State.keys_extend, State.keys_extend]
    rfl
  · rcases (by omega : x = 0 ∨ x = 1) with rfl | rfl
    · rw [west m hm, if_neg hne]
    · rw [east m hm, if_neg hne]

/-! ## Violations (R517) -/

/-- What a violation does before it ends staging and an update. -/
def State.violated (s : State) : State :=
  let s := (s.bump .SEC_VIOLATIONS).put SEC_STATUS.violated 0 1
  let s := s.setSec { s.sec with erased := true, aliasSeed := [] }
  { s with nor := { s.nor with violations := s.nor.violations + 1 } }

theorem State.violated_part {p : Part} (h : p ∉ [.sec, .nor, .reg .SEC_VIOLATIONS, .reg .SEC_STATUS, .reg .MGT_SAT])
    (s : State) : s.violated.part p = s.part p := by
  unfold State.violated
  dsimp only
  rw [State.withNor_part (Part.ne h), State.setSec_part (Part.ne h), State.put_part (Part.ne h),
    State.bump_part (Part.ne h) (Part.ne h)]

/-- A register of the security subsystem once the violation is counted and shown. -/
theorem State.violated_reg (r : Reg) (s : State) :
    s.violated.part (.reg r) = ((s.bump .SEC_VIOLATIONS).put SEC_STATUS.violated 0 1).part (.reg r) := by
  unfold State.violated
  dsimp only
  rw [State.withNor_part (by simp), State.setSec_part (by simp)]

theorem State.nor_violated (s : State) : s.violated.nor.violations = s.nor.violations + 1 := by
  unfold State.violated
  simp -implicitDefEqProofs

/-- Staging ends with AUTH_FAIL. -/
def State.endStaging (s : State) : State :=
  let s := s.bnd.staging.foldl (fun (s : State) o => (s.complete o.iss 0x03 stAUTH_FAIL)) s
  (s.setBnd { s.bnd with staging := [] }).showBnd

/-- An update in progress ends with UPDATE_FAIL. -/
def State.endUpdate (s : State) : State :=
  match s.mgt.update with
  | some _ =>
    let s := ((s.put MGT_FW_STATUS.status 0 stUPDATE_FAIL).put MGT_FW_STATUS.stage 0 0).put MGT_FW_STATUS.busy 0 0
    { s with mgt := { s.mgt with update := none } }
  | none => s

theorem applyViolation_eq (s : State) :
    s.applyViolation = (((upto 16).foldl (fun (s : State) p => s.haltCtx p stFENCED) s.violated).endStaging).endUpdate := rfl

theorem State.showBnd_part {p : Part} (h : p ≠ .reg .BND_STATUS) (s : State) : s.showBnd.part p = s.part p := by
  rw [State.showBnd, State.put_part h, State.put_part h]

theorem State.endStaging_part {p : Part} (h : p ∉ [.ctx, .bnd, .reg .BND_STATUS]) (s : State) :
    s.endStaging.part p = s.part p := by
  unfold State.endStaging
  dsimp only
  rw [State.showBnd_part (Part.ne h), State.setBnd_part (Part.ne h)]
  exact State.part_foldl (fun t o => State.complete_part (Part.ne h) t _ _ _ _) _ s

theorem State.endUpdate_part {p : Part} (h : p ∉ [.mgt, .reg .MGT_FW_STATUS]) (s : State) : s.endUpdate.part p = s.part p := by
  unfold State.endUpdate
  split
  · refine (State.withMgt_part (Part.ne h) _ _).trans ?_
    rw [State.put_part (Part.ne h), State.put_part (Part.ne h), State.put_part (Part.ne h)]
  · rfl

theorem State.staging_endStaging (s : State) : s.endStaging.bnd.staging = [] := by
  unfold State.endStaging
  exact congrArg BndState.staging (State.showBnd_part (p := .bnd) (by decide) _)

theorem State.update_endUpdate (s : State) : s.endUpdate.mgt.update = none := by
  unfold State.endUpdate
  split
  · rfl
  next h => exact h

theorem applyViolation_effects (s : State) : let u := s.applyViolation
    u.flag SEC_STATUS.violated = true ∧ u.sec.erased = true ∧
      u.rn .SEC_VIOLATIONS = min (s.rn .SEC_VIOLATIONS + 1) (2 ^ 64 - 1) ∧
      u.nor.violations = s.nor.violations + 1 ∧ u.bnd.staging = [] ∧ u.mgt.update = none ∧ u.mem = s.mem ∧
      (∀ p : Region, s.runs p.val = true → u.rstate p.val = 4) := by
  set w := (upto 16).foldl (fun (s : State) p => s.haltCtx p stFENCED) s.violated with hw
  have later {p : Part} (h : p ∉ [.ctx, .bnd, .reg .BND_STATUS, .mgt, .reg .MGT_FW_STATUS]) :
      (w.endStaging.endUpdate).part p = w.part p := by
    rw [State.endUpdate_part (Part.sub h), State.endStaging_part (Part.sub h)]
  have frame {p : Part} (h : p ∉ [.ctx, .bnd, .reg .BND_STATUS, .mgt, .reg .MGT_FW_STATUS] ++ (haltParts ++ recordParts)) :
      (w.endStaging.endUpdate).part p = s.violated.part p :=
    (later (Part.sub h)).trans (State.part_foldl (fun t q => State.haltCtx_part (Part.sub h) t q _) _ _)
  rw [applyViolation_eq, ← hw]
  refine ⟨?_, ?_, ?_, ?_, ?_, State.update_endUpdate _, ?_, fun p hp => ?_⟩
  · rw [State.flag_of_part (frame (by decide)), State.flag_of_part (State.violated_reg _ s)]
    exact State.flag_put_one (by decide) _ 0
  · exact congrArg SecState.erased (frame (p := .sec) (by decide))
  · rw [State.rn_of_part (frame (by decide)), State.rn_of_part (State.violated_reg _ s), State.rn_put_of_ne (by decide),
      State.rn_bump_self _ _ _ _ (Reg.key_ne_of_ne (by decide) _ _)]
  · exact (congrArg NorState.violations (frame (p := .nor) (by decide))).trans (State.nor_violated s)
  · exact (congrArg BndState.staging (State.endUpdate_part (p := .bnd) (by decide) _)).trans (State.staging_endStaging _)
  · exact (frame (p := .mem) (by decide)).trans (State.violated_part (p := .mem) (by decide) s)
  · have hr : s.violated.runs p.val = true := by
      rw [State.runs_of_rstate (State.get_of_part (f := BND_REGION_STATE.state) (State.violated_part (by decide) s) p.val), hp]
    refine (State.get_of_part (f := BND_REGION_STATE.state) (later (by decide)) p.val).trans ?_
    exact rstate_haltAll (List.mem_range.mpr p.isLt) hr stFENCED

/-- Settles O50: the key commands by the state an enrolment or a lock leaves, a violation through the regions it halts. -/
theorem securityKeysAndViolations : Obligations.SecurityKeysAndViolations := by
  unfold Obligations.SecurityKeysAndViolations
  intro s hl hd
  refine ⟨fun cmd hc => ?_, ⟨fun hlead => ?_, fun hlead => ⟨fun hk => ?_, fun hk hroom => ?_, fun s₁ bs hk hroom hr => ?_,
    fun s₁ hk hroom hr => ?_⟩⟩, applySvnCommit_commits, fun hk => ?_, fun hk => ?_, fun half => ?_⟩
  · rcases List.mem_cons.mp hc with rfl | hc
    · exact keyCommand_taken hl hd rfl
    · rw [List.mem_singleton.mp hc]
      exact keyCommand_taken hl hd rfl
  · rw [show s.handleRow (.enrol 0) = s.endKey stNOT_LEAD from if_pos (by rw [hlead]; rfl)]
    exact endKey_refused (by decide) s
  · rw [show s.handleRow (.enrol 0) = s.endKey stBUSY by
      change State.applyEnrol 0 s = _
      unfold State.applyEnrol
      rw [hlead, if_neg (by decide), if_pos hk]]
    exact endKey_refused (by decide) s
  · rw [show s.handleRow (.enrol 0) = s.endKey stNO_SPACE by
      change State.applyEnrol 0 s = _
      unfold State.applyEnrol
      rw [hlead, if_neg (by decide), hk, if_neg (by decide), if_pos hroom]]
    exact endKey_refused (by decide) s
  · exact applyEnrol_data hlead hk hroom hr
  · exact applyEnrol_held hlead hk hroom hr
  · exact atTick_pf hl hd rfl rfl (applyKeyLock_locks hk)
  · exact atTick_pf hl hd rfl rfl (if_pos hk)
  · exact ⟨State.act_live _ hl, applyViolation_effects s⟩

end Sys2Proof.Machine
end

