-- ==== Sys2Proof/Proofs/EventOrder.lean ====
section
/-! The event sequencers: the order of a tick's events, their shares, and the tick itself (R46, R47, R493 to R495). -/

namespace Sys2Proof.Machine
open Sys2Proof

/-! ## Order (R495) -/

theorem Sampled.before_iff (a b : Sampled) : a.before b = true ↔
    a.cls < b.cls ∨ a.cls = b.cls ∧ (a.src < b.src ∨ a.src = b.src ∧ a.ev.rank < b.ev.rank) := by
  simp [Sampled.before]

theorem Sampled.not_before_of_before {a b : Sampled} (h : a.before b = true) : b.before a = false := by
  rw [Bool.eq_false_iff, Ne, Sampled.before_iff]
  rw [Sampled.before_iff] at h
  omega

/-- What does not come before an event does not come before an earlier one. -/
theorem Sampled.not_before_trans {a b c : Sampled} (hab : a.before b = true) (hcb : c.before b = false) : c.before a = false := by
  rw [Bool.eq_false_iff, Ne, Sampled.before_iff] at *
  omega

theorem insertEvent_perm (e : Sampled) (l : List Sampled) : (insertEvent e l).Perm (e :: l) := by
  induction l with
  | nil => exact .refl _
  | cons x l ih =>
    rw [insertEvent]
    split
    · exact .refl _
    · exact (ih.cons x).trans (.swap e x l)

theorem insertEvent_pairwise {e : Sampled} {l : List Sampled} (h : l.Pairwise fun a b => b.before a = false) :
    (insertEvent e l).Pairwise fun a b => b.before a = false := by
  induction l with
  | nil => exact List.pairwise_singleton _ _
  | cons x l ih =>
    obtain ⟨hx, hl⟩ := List.pairwise_cons.1 h
    rw [insertEvent]
    split
    next hb =>
      refine List.pairwise_cons.2 ⟨fun y hy => ?_, h⟩
      rcases List.mem_cons.1 hy with rfl | hy
      · exact Sampled.not_before_of_before hb
      · exact Sampled.not_before_trans hb (hx y hy)
    next hb =>
      refine List.pairwise_cons.2 ⟨fun y hy => ?_, ih hl⟩
      rcases List.mem_cons.1 ((insertEvent_perm e l).mem_iff.1 hy) with rfl | hy
      · exact Bool.eq_false_iff.2 hb
      · exact hx y hy

theorem foldl_insertEvent_perm (l m : List Sampled) : (l.foldl (fun m e => insertEvent e m) m).Perm (m ++ l) := by
  induction l generalizing m with
  | nil => rw [List.append_nil]; exact .refl _
  | cons e l ih => exact (ih _).trans (((insertEvent_perm e m).append_right l).trans List.perm_middle.symm)

theorem foldl_insertEvent_pairwise (l : List Sampled) {m : List Sampled} (h : m.Pairwise fun a b => b.before a = false) :
    (l.foldl (fun m e => insertEvent e m) m).Pairwise fun a b => b.before a = false := by
  induction l generalizing m with
  | nil => exact h
  | cons e l ih => exact ih (insertEvent_pairwise h)

/-! ## Shares (R494) -/

/-- The events a tick handles and those it carries are the tick's events. -/
theorem shareTick_perm (l : List Sampled) (used : List Nat) : ((shareTick l used).1 ++ (shareTick l used).2).Perm l := by
  induction l generalizing used with
  | nil => exact .refl _
  | cons e l ih =>
    rw [shareTick]
    split
    · exact (ih _).cons e
    · exact List.perm_middle.trans ((ih _).cons e)

theorem shareTick_handled_sublist (l : List Sampled) (used : List Nat) : (shareTick l used).1.Sublist l := by
  induction l generalizing used with
  | nil => exact .slnil
  | cons e l ih =>
    rw [shareTick]
    split
    · exact (ih _).cons_cons e
    · exact (ih _).cons e

theorem shareTick_carried_sublist (l : List Sampled) (used : List Nat) : (shareTick l used).2.Sublist l := by
  induction l generalizing used with
  | nil => exact .slnil
  | cons e l ih =>
    rw [shareTick]
    split
    · exact (ih _).cons e
    · exact (ih _).cons_cons e

/-- A sequencer that has handled some events handles the first of its others, up to 256 in all. -/
theorem shareTick_filter {d : Nat} (hd : d < 4) (l : List Sampled) {used : List Nat} (hu : used.length = 4) :
    (shareTick l used).1.filter (fun e => e.die = d) = (l.filter fun e => e.die = d).take (256 - used.getD d 0) := by
  induction l generalizing used with
  | nil => simp [shareTick]
  | cons e l ih =>
    rw [shareTick]
    by_cases he : e.die = d
    · subst he
      split
      next hn =>
        have hg : (used.set e.die (used.getD e.die 0 + 1)).getD e.die 0 = used.getD e.die 0 + 1 := by
          simp [List.getD_eq_getElem?_getD, hu, hd]
        have hsub : 256 - used.getD e.die 0 = 256 - (used.getD e.die 0 + 1) + 1 := by omega
        rw [List.filter_cons_of_pos (by simp), List.filter_cons_of_pos (by simp), ih (by simp [hu]), hg, hsub,
          List.take_succ_cons]
      next hn =>
        have hz : 256 - used.getD e.die 0 = 0 := by omega
        rw [ih hu, hz, List.take_zero, List.take_zero]
    · have hs (n : Nat) : (used.set e.die n).getD d 0 = used.getD d 0 := by
        simp [List.getD_eq_getElem?_getD, he]
      rw [List.filter_cons_of_neg (a := e) (l := l) (by simpa using he)]
      split
      · rw [List.filter_cons_of_neg (by simpa using he), ih (by simp [hu]), hs]
      · exact ih hu

theorem shareTick_singleton (e : Sampled) (he : e.die < 4) : shareTick [e] [0, 0, 0, 0] = ([e], []) := by
  have h : [0, 0, 0, 0].getD e.die 0 < 256 := by
    match e.die, he with
    | 0, _ | 1, _ | 2, _ | 3, _ => decide
  rw [shareTick, if_pos h]
  rfl

end Sys2Proof.Machine
end

