-- ==== Sys2Proof/Proofs/EventTicks.lean ====
section
/-! The event tick (R46, R47, R493 to R495, R541, R542). -/

namespace Sys2Proof.Machine
open Sys2Proof

section
variable {p : Part}

/-! ## Counts of a tick (R541) -/

/-- A fold that touches what is seen at one element alone shows what that element's step shows. -/
theorem foldl_at {α β γ : Type} [DecidableEq α] {f : β → α → β} {g : β → γ} {x : α} (hne : ∀ b y, y ≠ x → g (f b y) = g b)
    {l : List α} (hl : l.Nodup) (hx : x ∈ l) (b : β) : ∃ c, g c = g b ∧ g (l.foldl f b) = g (f c x) := by
  induction l generalizing b with
  | nil => cases hx
  | cons y l ih =>
    obtain ⟨hy, hl⟩ := List.nodup_cons.1 hl
    by_cases he : y = x
    · subst he
      have hkeep (m : List α) (hm : y ∉ m) : ∀ c, g (m.foldl f c) = g c := by
        induction m with
        | nil => exact fun _ => rfl
        | cons z m ihm =>
          obtain ⟨hz, hm⟩ := not_or.1 (fun h => hm (List.mem_cons.2 h))
          exact fun c => (ihm hm _).trans (hne c z (Ne.symm hz))
      exact ⟨b, rfl, hkeep l hy _⟩
    · obtain ⟨c, hc, hr⟩ := ih hl ((List.mem_cons.1 hx).resolve_left (Ne.symm he)) (f b y)
      exact ⟨c, hc.trans (hne b y he), hr⟩

/-- The tick's counts of a region. -/
def State.countLevel (s : State) (q : Nat) : State :=
  let s1 := if s.get PWR_REGION_ACLK.sag q < 32 ∨ s.get PWR_REGION_ACLK.peak q < 32 then s.bump .PWR_REGION_STRETCH_TICKS q else s
  if s.get PWR_REGION_ACLK.cap q < 32 ∨ s.get PWR_REGION_ACLK.thermal q < 32 then s1.bump .PWR_REGION_CAP_TICKS q else s1

theorem State.countLevels_eq (s : State) : s.countLevels = (upto 16).foldl State.countLevel s := by
  rw [State.countLevels]
  simp only [Bool.or_eq_true, decide_eq_true_eq]
  rfl

theorem State.countLevel_part (hs : p ≠ .reg .PWR_REGION_STRETCH_TICKS) (hc : p ≠ .reg .PWR_REGION_CAP_TICKS)
    (hm : p ≠ .reg .MGT_SAT) (s : State) (q : Nat) : (s.countLevel q).part p = s.part p :=
  (State.part_ite (s := ite _ _ _) (fun _ => State.bump_part hc hm ..) fun _ => rfl).trans
    (State.part_ite (fun _ => State.bump_part hs hm ..) fun _ => rfl)

theorem State.stretch_countLevel (s : State) (q j : Nat) : (s.countLevel q).rn .PWR_REGION_STRETCH_TICKS j =
    if j = q ∧ (s.get PWR_REGION_ACLK.sag q < 32 ∨ s.get PWR_REGION_ACLK.peak q < 32) then
      min (s.rn .PWR_REGION_STRETCH_TICKS j + 1) (2 ^ 64 - 1)
    else s.rn .PWR_REGION_STRETCH_TICKS j := by
  set s1 := if s.get PWR_REGION_ACLK.sag q < 32 ∨ s.get PWR_REGION_ACLK.peak q < 32 then s.bump .PWR_REGION_STRETCH_TICKS q
    else s with h1
  have hcap : (s.countLevel q).rn .PWR_REGION_STRETCH_TICKS j = s1.rn .PWR_REGION_STRETCH_TICKS j :=
    State.rn_of_part (State.part_ite (s := s1) (fun _ => State.bump_part (by decide) (by decide) ..) fun _ => rfl) j
  rw [hcap, h1]
  by_cases hlow : s.get PWR_REGION_ACLK.sag q < 32 ∨ s.get PWR_REGION_ACLK.peak q < 32
  · rw [if_pos hlow]
    by_cases hj : j = q
    · rw [if_pos ⟨hj, hlow⟩, hj, State.rn_bump_self _ _ _ _ (Reg.key_ne_of_ne (by decide) _ _)]
    · rw [if_neg (fun h => hj h.1), State.rn_bump_ne _ _ _ _ _ _ (Reg.key_ne_of_ne (by decide) _ _) (Reg.key_ne_of_index_ne hj)]
  · rw [if_neg hlow, if_neg (fun h => hlow h.2)]

theorem State.countLevels_part (h : p ∉ [Part.reg .PWR_REGION_STRETCH_TICKS, .reg .PWR_REGION_CAP_TICKS, .reg .MGT_SAT])
    (s : State) : s.countLevels.part p = s.part p := by
  obtain ⟨hs, hc, hm⟩ : p ≠ .reg .PWR_REGION_STRETCH_TICKS ∧ p ≠ .reg .PWR_REGION_CAP_TICKS ∧ p ≠ .reg .MGT_SAT := by
    simpa using h
  rw [State.countLevels_eq]
  exact State.part_foldl (fun t q => State.countLevel_part hs hc hm t q) _ s

/-- A region whose sag or peak level is below 32 counts the tick (R541). -/
theorem State.stretch_countLevels {q : Nat} (hq : q < 16) (s : State) : s.countLevels.rn .PWR_REGION_STRETCH_TICKS q =
    if s.get PWR_REGION_ACLK.sag q < 32 ∨ s.get PWR_REGION_ACLK.peak q < 32 then
      min (s.rn .PWR_REGION_STRETCH_TICKS q + 1) (2 ^ 64 - 1)
    else s.rn .PWR_REGION_STRETCH_TICKS q := by
  obtain ⟨c, hc, hr⟩ := foldl_at (f := State.countLevel) (x := q)
    (g := fun t => (t.rn .PWR_REGION_STRETCH_TICKS q, t.part (.reg .PWR_REGION_ACLK)))
    (fun t j hj => Prod.ext ((t.stretch_countLevel j q).trans (if_neg fun h => hj h.1.symm))
      (State.countLevel_part (p := .reg .PWR_REGION_ACLK) (by decide) (by decide) (by decide) t j))
    (l := upto 16) List.nodup_range (List.mem_range.2 hq) s
  obtain ⟨hn, hp⟩ := Prod.mk.inj hc
  rw [State.countLevels_eq, (Prod.mk.inj hr).1, State.stretch_countLevel, hn, State.get_of_part (f := PWR_REGION_ACLK.sag) hp,
    State.get_of_part (f := PWR_REGION_ACLK.peak) hp]
  simp only [true_and]

/-- The counts of a tick but those of the regions' levels. -/
def State.countNow (s : State) : State :=
  let s := s.bump .MGT_TICK
  let s := if s.flag LNK_STATUS.joined then s.bump .LNK_TICK else s
  if s.now % 6250000 = 0 then s.bump .FLT_SERVICE_S else s

theorem State.countTick_eq (s : State) : s.countTick = s.countNow.countLevels := rfl

theorem State.countNow_part (h : p ∉ [Part.reg .MGT_TICK, .reg .LNK_TICK, .reg .FLT_SERVICE_S, .reg .MGT_SAT]) (s : State) :
    s.countNow.part p = s.part p := by
  refine (State.part_ite (s := ite _ _ _) (fun _ => State.bump_part (Part.ne h) (Part.ne h) ..) fun _ => rfl).trans ?_
  refine (State.part_ite (s := s.bump _) (fun _ => State.bump_part (Part.ne h) (Part.ne h) ..) fun _ => rfl).trans ?_
  exact State.bump_part (Part.ne h) (Part.ne h) ..

theorem State.tick_countTick (s : State) : s.countTick.rn .MGT_TICK = min (s.now + 1) (2 ^ 64 - 1) := by
  rw [State.countTick_eq, State.rn_of_part (State.countLevels_part (by decide) _)]
  have hb : s.countNow.part (.reg .MGT_TICK) = (s.bump .MGT_TICK).part (.reg .MGT_TICK) :=
    (State.part_ite (s := ite _ _ _) (fun _ => State.bump_part (by decide) (by decide) ..) fun _ => rfl).trans
      (State.part_ite (s := s.bump _) (fun _ => State.bump_part (by decide) (by decide) ..) fun _ => rfl)
  rw [State.rn_of_part hb, State.rn_bump_self _ _ _ _ (by decide)]
  rfl

theorem State.jobTick_countTick (s : State) : s.countTick.rn .LNK_TICK =
    if s.flag LNK_STATUS.joined then min (s.rn .LNK_TICK + 1) (2 ^ 64 - 1) else s.rn .LNK_TICK := by
  rw [State.countTick_eq, State.rn_of_part (State.countLevels_part (by decide) _)]
  have hb : s.countNow.part (.reg .LNK_TICK) =
      (if (s.bump .MGT_TICK).flag LNK_STATUS.joined then (s.bump .MGT_TICK).bump .LNK_TICK else s.bump .MGT_TICK).part
        (.reg .LNK_TICK) :=
    State.part_ite (fun _ => State.bump_part (by decide) (by decide) ..) fun _ => rfl
  have hj : (s.bump .MGT_TICK).flag LNK_STATUS.joined = s.flag LNK_STATUS.joined :=
    State.flag_of_part (State.bump_part (by decide) (by decide) ..) 0
  rw [State.rn_of_part hb, hj]
  split
  · rw [State.rn_bump_self _ _ _ _ (by decide), State.rn_bump_of_ne (by decide) (by decide)]
  · rw [State.rn_bump_of_ne (by decide) (by decide)]

theorem State.stretch_countTick {q : Nat} (hq : q < 16) (s : State) : s.countTick.rn .PWR_REGION_STRETCH_TICKS q =
    if s.get PWR_REGION_ACLK.sag q < 32 ∨ s.get PWR_REGION_ACLK.peak q < 32 then
      min (s.rn .PWR_REGION_STRETCH_TICKS q + 1) (2 ^ 64 - 1)
    else s.rn .PWR_REGION_STRETCH_TICKS q := by
  have hn {r : Reg} (h : Part.reg r ∉ [Part.reg .MGT_TICK, .reg .LNK_TICK, .reg .FLT_SERVICE_S, .reg .MGT_SAT]) :=
    State.countNow_part h s
  rw [State.countTick_eq, State.stretch_countLevels hq, State.rn_of_part (hn (by decide)),
    State.get_of_part (f := PWR_REGION_ACLK.sag) (hn (by decide)), State.get_of_part (f := PWR_REGION_ACLK.peak) (hn (by decide))]

/-- What a tick's own counts may change. -/
def tickCounts : List Part :=
  [.reg .MGT_TICK, .reg .LNK_TICK, .reg .FLT_SERVICE_S, .reg .PWR_REGION_STRETCH_TICKS, .reg .PWR_REGION_CAP_TICKS, .reg .MGT_SAT]

theorem State.countTick_part (h : p ∉ tickCounts) (s : State) : s.countTick.part p = s.part p := by
  rw [State.countTick_eq, State.countLevels_part (Part.sub h), State.countNow_part (Part.sub h)]

/-! ## Limits (R542) -/

theorem State.setLevel_part {f : Fld} (h : p ≠ .reg .PWR_REGION_ACLK) (hf : f.reg = .PWR_REGION_ACLK) (s : State) (q v : Nat) :
    (s.setLevel f q v).part p = s.part p := by
  rw [State.setLevel, State.showLevel, State.put_part h, State.put_part (by rwa [hf])]

/-- What a fall of sag levels may change. -/
def sagParts : List Part := [.reg .PWR_REGION_ACLK, .reg .PWR_REGION_SAG_EVENTS, .reg .MGT_SAT]

theorem State.sagFall_part (h : p ∉ sagParts) (s : State) (q v : Nat) : (s.sagFall q v).part p = s.part p := by
  rw [State.sagFall]
  refine State.part_ite (fun _ => ?_) fun _ => rfl
  rw [State.bump_part (Part.ne h) (Part.ne h), State.setLevel_part (Part.ne h) (by rfl)]

theorem State.latchLimits_part (h : p ∉ Part.pwr :: sagParts) (s : State) : s.latchLimits.part p = s.part p := by
  rw [State.latchLimits]
  refine (State.part_ite (s := s.setPwr _) (fun _ => ?_) fun _ => rfl).trans (State.setPwr_part (Part.ne h) s _)
  exact State.part_foldl (fun t q => State.sagFall_part (Part.sub h) t q _) _ _

/-- The limits in force are those of the registers. -/
theorem State.pwr_latchLimits (s : State) :
    s.latchLimits.pwr = { s.pwr with inForce := (s.rn .PWR_TARGET, s.rn .PWR_TJ, s.rn .PWR_SAG) } := by
  rw [State.latchLimits]
  refine (State.part_ite (p := .pwr) (s := s.setPwr _) (fun _ => ?_) fun _ => rfl)
  exact State.part_foldl (fun t q => State.sagFall_part (by decide) t q _) _ _

/-! ## The end of a tick without reports (R494) -/

theorem foldl_fixed {α β : Type} {f : β → α → β} {s : β} {l : List α} (h : ∀ x ∈ l, f s x = s) : l.foldl f s = s := by
  induction l with
  | nil => rfl
  | cons x l ih => rw [List.foldl_cons, h x List.mem_cons_self, ih fun y hy => h y (List.mem_cons_of_mem x hy)]

/-- No report waits for the end of the tick, no package is to be judged again, no decision or re-shard is held. -/
structure State.Quiescent (s : State) : Prop where
  fenced : s.noc.fenced = []
  orphans : s.hrd.orphans = []
  stale : s.bnd.stale = []
  judged : s.sec.rejudge = false
  job : s.jobCtx = none
  steps : ∀ c, c < 31 → (s.stp c).decision = none ∧ (s.stp c).reshard = none

theorem State.jobCtx_of_part {s t : State} (hj : t.part (.reg .LNK_JOB_CTX) = s.part (.reg .LNK_JOB_CTX))
    (hc : t.part (.reg .CTX_CONFIG) = s.part (.reg .CTX_CONFIG)) : t.jobCtx = s.jobCtx := by
  have hg : t.get LNK_JOB_CTX.context = s.get LNK_JOB_CTX.context := State.get_of_part hj 0
  have hx (c : Nat) : t.ctxExists c = s.ctxExists c := State.flag_of_part hc c
  simp only [State.jobCtx, hg, hx]

/-- The parts that tell whether the end of a tick has work. -/
def quietParts : List Part := [.noc, .hrd, .bnd, .sec, .step, .reg .LNK_JOB_CTX, .reg .CTX_CONFIG]

theorem State.Quiescent.of_parts {s t : State} (q : s.Quiescent) (h : ∀ p ∈ quietParts, t.part p = s.part p) : t.Quiescent where
  fenced := (congrArg (fun x : NocState => x.fenced) (h .noc (by decide))).trans q.fenced
  orphans := (congrArg (fun x : HrdState => x.orphans) (h .hrd (by decide))).trans q.orphans
  stale := (congrArg (fun x : BndState => x.stale) (h .bnd (by decide))).trans q.stale
  judged := (congrArg (fun x : SecState => x.rejudge) (h .sec (by decide))).trans q.judged
  job := (State.jobCtx_of_part (h (.reg .LNK_JOB_CTX) (by decide)) (h (.reg .CTX_CONFIG) (by decide))).trans q.job
  steps c hc := by
    have hs : t.stp c = s.stp c := congrArg (fun x : Sparse StepState => spGet ({} : StepState) x c) (h .step (by decide))
    exact hs ▸ q.steps c hc

/-- The reports of a tick that gathered none. -/
def State.noReports (s : State) : State :=
  let s : State := { s with noc := { s.noc with fenced := [] } }
  s.setHrd { s.hrd with orphans := [] }

theorem State.noReports_part (h : p ≠ .noc) (hh : p ≠ .hrd) (s : State) : s.noReports.part p = s.part p := by
  rw [State.noReports, State.setHrd_part hh, State.withNoc_part h]

theorem State.Quiescent.noReports {s : State} (q : s.Quiescent) : s.noReports.Quiescent where
  fenced := rfl
  orphans := rfl
  stale := (congrArg (fun x : BndState => x.stale) (s.noReports_part (p := .bnd) (by decide) (by decide))).trans q.stale
  judged := (congrArg (fun x : SecState => x.rejudge) (s.noReports_part (p := .sec) (by decide) (by decide))).trans q.judged
  job := (State.jobCtx_of_part (s.noReports_part (by decide) (by decide)) (s.noReports_part (by decide) (by decide))).trans q.job
  steps := q.steps

theorem State.reportFenced_nil {s : State} (h : s.noc.fenced = []) :
    s.reportFenced = { s with noc := { s.noc with fenced := [] } } := by
  unfold State.reportFenced
  rw [h]
  rfl

theorem State.reportOrphans_nil {s : State} (h : s.hrd.orphans = []) : s.reportOrphans = s.setHrd { s.hrd with orphans := [] } := by
  unfold State.reportOrphans
  rw [h]
  rfl

theorem State.reportAllStale_nil {s : State} (h : s.bnd.stale = []) : s.reportAllStale = s := by
  unfold State.reportAllStale
  rw [h]
  rfl

theorem State.rejudge_unset {s : State} (h : s.sec.rejudge = false) : s.rejudge = s := by
  unfold State.rejudge
  rw [if_neg (by rw [h]; decide)]

theorem State.drainStalls_of_no_job {s : State} (h : s.jobCtx = none) : s.drainStalls = false := by
  unfold State.drainStalls
  rw [h]

theorem State.runHeld_none {s : State} {c : Nat} (h : (s.stp c).reshard = none) : s.runHeld c = s := by
  unfold State.runHeld
  rw [h]

theorem State.reports_of_quiescent {s : State} (q : s.Quiescent) :
    ((s.reportFenced.reportOrphans).reportAllStale).rejudge = s.noReports := by
  have hf : s.reportFenced.reportOrphans = s.noReports := by
    rw [State.reportFenced_nil q.fenced, State.reportOrphans_nil (by exact q.orphans), State.noReports]
  rw [hf, State.reportAllStale_nil q.noReports.stale, State.rejudge_unset q.noReports.judged]

/-- What the end of a tick does for a context: an abort that came at an earlier tick is applied, a held re-shard begins. -/
def State.endTickOf (s : State) (c : Nat) : State :=
  State.runHeld (match (s.stp c).decision with
    | some d => if d.commit = false ∧ d.tick < s.now then s.applyAbort c else s
    | none => s) c

theorem State.endTickOf_none {s : State} {c : Nat} (hd : (s.stp c).decision = none) (hr : (s.stp c).reshard = none) :
    s.endTickOf c = s := by
  rw [State.endTickOf, hd]
  exact State.runHeld_none hr

/-- A tick that a drain stalls is counted. -/
def State.countStall (s : State) : State := if s.drainStalls then s.bump .SNP_STALL_TICKS else s

/-- The pending events are offered again and the mirror follows. -/
def State.offerAll (s : State) : State := ({ s with seq := s.seq.offer } : State).takeMirror

theorem State.endTick_eq (s : State) : s.endTick =
    ((upto 31).foldl State.endTickOf (((s.reportFenced.reportOrphans).reportAllStale).rejudge).countStall).offerAll := rfl

/-- A tick's end with nothing to report offers the pending events again and renews the mirror. -/
theorem State.endTick_quiescent {s : State} (q : s.Quiescent) :
    s.endTick = s.noReports.offerAll := by
  have hfold : (upto 31).foldl State.endTickOf s.noReports = s.noReports := foldl_fixed fun c hc => by
    obtain ⟨hd, hr⟩ := q.noReports.steps c (List.mem_range.1 hc)
    exact State.endTickOf_none hd hr
  rw [State.endTick_eq, State.reports_of_quiescent q, State.countStall, State.drainStalls_of_no_job q.noReports.job,
    if_neg (by decide), hfold]

theorem State.endTick_part (h : p ∉ [Part.noc, .hrd, .seq, .mirror]) {s : State} (q : s.Quiescent) : s.endTick.part p = s.part p := by
  rw [State.endTick_quiescent q, State.offerAll, State.takeMirror, State.withMirror_part (Part.ne h), State.withSeq_part (Part.ne h),
    State.noReports_part (Part.ne h) (Part.ne h)]

/-! ## The events of a tick (R46, R495) -/

/-- Events that do nothing but count: the completion of a bind without an issuer, and a state of no port. -/
def EvKind.Inert (e : EvKind) : Prop := (∃ op st, e = .done none op st) ∨ ∃ k st, 9 ≤ k ∧ e = .port k st

theorem State.handleEvent_inert {e : Sampled} (h : e.ev.Inert) (s : State) : s.handleEvent e = s.bump .MGT_CLASS_EVENTS e.cls := by
  rw [State.handleEvent]
  rcases h with ⟨op, st, he⟩ | ⟨k, st, hk, he⟩ <;> rw [he]
  · rfl
  · rw [State.applyEvent, if_neg (Nat.not_lt.2 hk)]
    rfl

theorem State.handleAll_cons {s : State} {e : Sampled} {l : List Sampled} (h : s.seq.carried = e :: l) (n : Nat) :
    State.handleAll (n + 1) s = State.handleAll n (({ s with seq := { s.seq with carried := l } } : State).handleEvent e) := by
  rw [State.handleAll, h]

/-- Inert events leave the state but for their counts. -/
theorem State.handleAll_inert_part (h : p ∉ [Part.seq, .reg .MGT_CLASS_EVENTS, .reg .MGT_SAT]) {l : List Sampled}
    (hl : ∀ e ∈ l, e.ev.Inert) {m : List Sampled} {s : State} (hs : s.seq.carried = l ++ m) :
    (State.handleAll l.length s).part p = s.part p := by
  induction l generalizing s with
  | nil => rfl
  | cons e l ih =>
    rw [List.length_cons, State.handleAll_cons hs, State.handleEvent_inert (hl e List.mem_cons_self)]
    refine (ih (fun x hx => hl x (List.mem_cons_of_mem e hx)) (congrArg (fun q : SeqState => q.carried)
      (State.bump_part (p := .seq) (by decide) (by decide) _ _ _))).trans ?_
    rw [State.bump_part (Part.ne h) (Part.ne h), State.withSeq_part (Part.ne h)]

/-- They leave the events behind them. -/
theorem State.handleAll_inert_seq {l : List Sampled} (hl : ∀ e ∈ l, e.ev.Inert) {m : List Sampled} {s : State}
    (hs : s.seq.carried = l ++ m) : (State.handleAll l.length s).seq = { s.seq with carried := m } := by
  induction l generalizing s with
  | nil => rw [← List.nil_append m, ← hs]; rfl
  | cons e l ih =>
    have hb (t : State) : (t.bump .MGT_CLASS_EVENTS e.cls).seq = t.seq :=
      State.bump_part (p := .seq) (by decide) (by decide) t _ _
    rw [List.length_cons, State.handleAll_cons hs, State.handleEvent_inert (hl e List.mem_cons_self),
      ih (fun x hx => hl x (List.mem_cons_of_mem e hx)) (by rw [hb]; rfl), hb]

/-- Each counts in its class. -/
theorem State.handleAll_inert_count {l : List Sampled} (hl : ∀ e ∈ l, e.ev.Inert) {m : List Sampled} {s : State}
    (hs : s.seq.carried = l ++ m) (cls : Nat) : (State.handleAll l.length s).rn .MGT_CLASS_EVENTS cls =
      min (s.rn .MGT_CLASS_EVENTS cls + (l.filter fun e => e.cls = cls).length) (2 ^ 64 - 1) := by
  induction l generalizing s with
  | nil =>
    have hlt := s.rn_lt .MGT_CLASS_EVENTS cls
    simp only [List.length_nil, State.handleAll, List.filter_nil]
    omega
  | cons e l ih =>
    have hb (t : State) : (t.bump .MGT_CLASS_EVENTS e.cls).seq = t.seq :=
      State.bump_part (p := .seq) (by decide) (by decide) t _ _
    have hq (x : SeqState) : ({ s with seq := x } : State).rn .MGT_CLASS_EVENTS cls = s.rn .MGT_CLASS_EVENTS cls :=
      State.rn_of_part (State.withSeq_part (by decide) s x) cls
    rw [List.length_cons, State.handleAll_cons hs, State.handleEvent_inert (hl e List.mem_cons_self),
      ih (fun x hx => hl x (List.mem_cons_of_mem e hx)) (by rw [hb]; rfl)]
    by_cases hc : e.cls = cls
    · rw [hc, State.rn_bump_self _ _ _ _ (Reg.key_ne_of_ne (by decide) _ _), hq, List.filter_cons_of_pos (by simpa using hc),
        List.length_cons]
      omega
    · rw [State.rn_bump_ne _ _ _ _ _ _ (Reg.key_ne_of_ne (by decide) _ _) (Reg.key_ne_of_index_ne (Ne.symm hc)), hq,
        List.filter_cons_of_neg (by simpa using hc)]

end

/-! ## The tick (R493, R494) -/

/-- The state in which the tick handles its events: the tick has counted, the limits hold, the events are shared. -/
def State.tickStart (s : State) : State :=
  let s := s.countTick.latchLimits
  let l := shareTick s.seq.order [0, 0, 0, 0]
  let s : State := { s with seq := { s.seq with
    sampled := [], carried := l.1 ++ l.2, turned := s.seq.turned && !s.seq.carried.isEmpty } }
  if l.2.isEmpty then s else s.bump .MGT_TICK_OVERRUN

theorem State.seq_latched (s : State) : s.countTick.latchLimits.seq = s.seq :=
  (State.latchLimits_part (p := .seq) (by decide) _).trans (State.countTick_part (p := .seq) (by decide) s)

theorem State.seq_tickStart (s : State) : s.tickStart.seq =
    let l := shareTick s.seq.order [0, 0, 0, 0]
    { s.seq with sampled := [], carried := l.1 ++ l.2, turned := s.seq.turned && !s.seq.carried.isEmpty } := by
  rw [State.tickStart, State.seq_latched]
  exact State.part_ite (p := .seq) (fun _ => rfl) fun _ => State.bump_part (p := .seq) (by decide) (by decide) ..

theorem State.tickStart_part {p : Part} (h : p ∉ [Part.seq, .reg .MGT_TICK_OVERRUN, .reg .MGT_SAT]) (s : State) :
    s.tickStart.part p = s.countTick.latchLimits.part p := by
  rw [State.tickStart]
  refine (State.part_ite (s := { s.countTick.latchLimits with seq := _ }) (fun _ => rfl)
    fun _ => State.bump_part (Part.ne h) (Part.ne h) ..).trans ?_
  exact State.withSeq_part (Part.ne h) _ _

/-- The limits in force do not tell whether the package acts. -/
theorem State.live_tickStart (s : State) : s.tickStart.live = s.live := by
  have hp : s.tickStart.pwr = s.countTick.latchLimits.pwr := State.tickStart_part (p := .pwr) (by decide) s
  have hc : s.countTick.pwr = s.pwr := State.countTick_part (p := .pwr) (by decide) s
  rw [State.live, State.live, hp, State.pwr_latchLimits, hc]

theorem exec_eventTick {s : State} (hl : s.live = true) : exec .eventTick s = .next
    (let t := State.handleAll (shareTick s.seq.order [0, 0, 0, 0]).1.length s.tickStart
     if t.live then t.endTick else t) := by
  rw [← State.seq_latched]
  exact State.act_live _ hl

theorem exec_eventTick_live {s t : State} (hl : s.live = true)
    (ht : State.handleAll (shareTick s.seq.order [0, 0, 0, 0]).1.length s.tickStart = t) (htl : t.live = true) :
    exec .eventTick s = .next t.endTick := by
  rw [exec_eventTick hl, ht]
  exact congrArg _ (if_pos htl)

/-- A tick that carries nothing. -/
theorem State.tickStart_of_all {s : State} {l : List Sampled} (h : shareTick s.seq.order [0, 0, 0, 0] = (l, [])) :
    s.tickStart = { s.countTick.latchLimits with seq := { s.seq with
      sampled := [], carried := l, turned := s.seq.turned && !s.seq.carried.isEmpty } } := by
  rw [State.tickStart, State.seq_latched, h, List.append_nil]
  rfl

theorem SeqState.carried_of_order_nil {q : SeqState} (h : q.order = []) : q.carried = [] := by
  obtain ⟨h, -⟩ := List.append_eq_nil_iff.1 h
  exact (List.append_eq_nil_iff.1 h).2

theorem eventTick_nil {s : State} (hl : s.live = true) (h : s.seq.order = []) : exec .eventTick s = .next
    ({ s.countTick.latchLimits with seq := { s.seq with sampled := [], carried := [], turned := false } } : State).endTick := by
  have hsh : shareTick s.seq.order [0, 0, 0, 0] = ([], []) := by rw [h, shareTick]
  have hst := State.tickStart_of_all hsh
  rw [SeqState.carried_of_order_nil h, List.isEmpty_nil, Bool.not_true, Bool.and_false] at hst
  rw [exec_eventTick_live hl (t := s.tickStart) (by rw [hsh, List.length_nil, State.handleAll])
    ((State.live_tickStart s).trans hl), hst]

theorem eventTick_one {s : State} {e : Sampled} (hl : s.live = true) (h : s.seq.order = [e]) (he : e.die < 4) :
    let t := ({ s.countTick.latchLimits with seq := { s.seq with
      sampled := [], carried := [], turned := s.seq.turned && !s.seq.carried.isEmpty } } : State).handleEvent e
    exec .eventTick s = .next (if t.live then t.endTick else t) := by
  have hsh : shareTick s.seq.order [0, 0, 0, 0] = ([e], []) := by rw [h, shareTick_singleton e he]
  rw [exec_eventTick hl, hsh, List.length_singleton, State.tickStart_of_all hsh,
    State.handleAll_cons (l := []) rfl, State.handleAll]

/-! ## A tick whose events do nothing but count -/

theorem SeqState.offer_nil {q : SeqState} (h : q.offered = []) : q.offer = q := by
  rw [SeqState.offer, h, List.foldl_nil, ← h]

theorem State.overrun_tickStart (s : State) : s.tickStart.rn .MGT_TICK_OVERRUN =
    if (shareTick s.seq.order [0, 0, 0, 0]).2 = [] then s.rn .MGT_TICK_OVERRUN
    else min (s.rn .MGT_TICK_OVERRUN + 1) (2 ^ 64 - 1) := by
  have hr (x : SeqState) : ({ s.countTick.latchLimits with seq := x } : State).rn .MGT_TICK_OVERRUN = s.rn .MGT_TICK_OVERRUN := by
    rw [State.rn_of_part (State.withSeq_part (by decide) _ x), State.rn_of_part (State.latchLimits_part (by decide) _),
      State.rn_of_part (State.countTick_part (by decide) s)]
  rw [State.tickStart, State.seq_latched]
  by_cases h : (shareTick s.seq.order [0, 0, 0, 0]).2 = []
  · rw [if_pos h]
    dsimp only
    rw [if_pos (by rw [h]; rfl), hr]
  · rw [if_neg h]
    dsimp only
    rw [if_neg (by simpa using h), State.rn_bump_self _ _ _ _ (by decide), hr]

section
variable {s : State}

/-- The state when a tick has handled its events. -/
def State.tickHandled (s : State) : State := State.handleAll (shareTick s.seq.order [0, 0, 0, 0]).1.length s.tickStart

theorem State.carried_tickStart (s : State) : s.tickStart.seq.carried =
    (shareTick s.seq.order [0, 0, 0, 0]).1 ++ (shareTick s.seq.order [0, 0, 0, 0]).2 := by
  rw [State.seq_tickStart]

variable (hi : ∀ e ∈ s.seq.order, e.ev.Inert)
include hi

theorem shareTick_inert : ∀ e ∈ (shareTick s.seq.order [0, 0, 0, 0]).1, e.ev.Inert :=
  fun e he => hi e ((shareTick_handled_sublist _ _).subset he)

theorem State.tickHandled_part {p : Part} (h : p ∉ [Part.seq, .reg .MGT_TICK_OVERRUN, .reg .MGT_CLASS_EVENTS, .reg .MGT_SAT]) :
    s.tickHandled.part p = s.countTick.latchLimits.part p :=
  (State.handleAll_inert_part (Part.sub h) (shareTick_inert hi) (State.carried_tickStart s)).trans
    (State.tickStart_part (Part.sub h) s)

/-- What a tick whose events only count changes before its end. -/
theorem State.tickHandled_frame {p : Part} (h : p ∉ Part.seq :: .reg .MGT_TICK_OVERRUN :: .reg .MGT_CLASS_EVENTS :: .pwr ::
    .reg .PWR_REGION_ACLK :: .reg .PWR_REGION_SAG_EVENTS :: tickCounts) : s.tickHandled.part p = s.part p := by
  rw [State.tickHandled_part hi (Part.sub h), State.latchLimits_part (Part.sub h), State.countTick_part (Part.sub h)]

theorem State.seq_tickHandled : s.tickHandled.seq = { s.seq with
    sampled := [], carried := (shareTick s.seq.order [0, 0, 0, 0]).2, turned := s.seq.turned && !s.seq.carried.isEmpty } := by
  rw [State.tickHandled, State.handleAll_inert_seq (shareTick_inert hi) (State.carried_tickStart s), State.seq_tickStart]

theorem State.pwr_tickHandled : s.tickHandled.pwr = { s.pwr with inForce := (s.rn .PWR_TARGET, s.rn .PWR_TJ, s.rn .PWR_SAG) } := by
  have hc {p : Part} (h : p ∉ tickCounts) := State.countTick_part h s
  have hp : s.countTick.pwr = s.pwr := hc (p := .pwr) (by decide)
  have hh : s.tickHandled.pwr = s.countTick.latchLimits.pwr := State.tickHandled_part (p := .pwr) hi (by decide)
  rw [hh, State.pwr_latchLimits, hp, State.rn_of_part (hc (by decide)), State.rn_of_part (hc (by decide)),
    State.rn_of_part (hc (by decide))]

theorem State.count_tickHandled (cls : Nat) : s.tickHandled.rn .MGT_CLASS_EVENTS cls = min (s.rn .MGT_CLASS_EVENTS cls +
    ((shareTick s.seq.order [0, 0, 0, 0]).1.filter fun e => e.cls = cls).length) (2 ^ 64 - 1) := by
  rw [State.tickHandled, State.handleAll_inert_count (shareTick_inert hi) (State.carried_tickStart s),
    State.rn_of_part (State.tickStart_part (by decide) s), State.rn_of_part (State.latchLimits_part (by decide) _),
    State.rn_of_part (State.countTick_part (by decide) s)]

theorem State.overrun_tickHandled : s.tickHandled.rn .MGT_TICK_OVERRUN =
    if (shareTick s.seq.order [0, 0, 0, 0]).2 = [] then s.rn .MGT_TICK_OVERRUN
    else min (s.rn .MGT_TICK_OVERRUN + 1) (2 ^ 64 - 1) := by
  rw [← State.overrun_tickStart]
  exact State.rn_of_part (State.handleAll_inert_part (by decide) (shareTick_inert hi) (State.carried_tickStart s)) 0

/-- The counts of the tick stand when its events are handled. -/
theorem State.rn_tickHandled {r : Reg} (h : Part.reg r ∉ Part.seq :: .reg .MGT_TICK_OVERRUN :: .reg .MGT_CLASS_EVENTS :: .pwr ::
    sagParts) (i : Nat) : s.tickHandled.rn r i = s.countTick.rn r i := by
  rw [State.rn_of_part (State.tickHandled_part hi (Part.sub h)), State.rn_of_part (State.latchLimits_part (Part.sub h) _)]

theorem State.live_tickHandled (hl : s.live = true) : s.tickHandled.live = true := by
  rw [← hl, State.live, State.live, State.pwr_tickHandled hi]

/-- A tick without reports whose events only count (R493 to R495, R541, R542). -/
theorem eventTick_inert (hl : s.live = true) (q : s.Quiescent) (ho : s.seq.offered = []) :
    let r := shareTick s.seq.order [0, 0, 0, 0]
    Completes .eventTick s fun u => u.now = min (s.now + 1) (2 ^ 64 - 1) ∧
      u.seq.sampled = [] ∧ u.seq.carried = r.2 ∧
      u.rn .MGT_TICK_OVERRUN = (if r.2 = [] then s.rn .MGT_TICK_OVERRUN else min (s.rn .MGT_TICK_OVERRUN + 1) (2 ^ 64 - 1)) ∧
      u.pwr.inForce = (s.rn .PWR_TARGET, s.rn .PWR_TJ, s.rn .PWR_SAG) ∧
      u.rn .LNK_TICK = (if s.flag LNK_STATUS.joined then min (s.rn .LNK_TICK + 1) (2 ^ 64 - 1) else s.rn .LNK_TICK) ∧
      (∀ cls, cls < 13 → u.rn .MGT_CLASS_EVENTS cls =
        min (s.rn .MGT_CLASS_EVENTS cls + (r.1.filter fun e => e.cls = cls).length) (2 ^ 64 - 1)) ∧
      (∀ p, p < 16 → u.rn .PWR_REGION_STRETCH_TICKS p =
        (if s.get PWR_REGION_ACLK.sag p < 32 ∨ s.get PWR_REGION_ACLK.peak p < 32 then
          min (s.rn .PWR_REGION_STRETCH_TICKS p + 1) (2 ^ 64 - 1) else s.rn .PWR_REGION_STRETCH_TICKS p)) ∧
      u.mirror = { flt := u.flt, sec := u.sec, pwr := u.pwr } ∧ u.flt = s.flt ∧ u.sec = s.sec ∧
      u.mem = s.mem ∧ u.cores = s.cores := by
  have hq : s.tickHandled.Quiescent := q.of_parts fun p hp => State.tickHandled_frame hi (by
    revert p
    decide)
  have hu {p : Part} (h : p ∉ [Part.noc, .hrd, .seq, .mirror]) := State.endTick_part h hq
  have hseq : s.tickHandled.endTick.seq = s.tickHandled.seq := by
    rw [State.endTick_quiescent hq]
    exact SeqState.offer_nil (q := s.tickHandled.seq) (by rw [State.seq_tickHandled hi]; exact ho)
  refine ⟨s.tickHandled.endTick, exec_eventTick_live hl rfl (State.live_tickHandled hi hl), ?_⟩
  refine ⟨?_, ?_, ?_, ?_, ?_, ?_, fun cls _ => ?_, fun j hj => ?_, ?_, ?_, ?_, ?_, ?_⟩
  · exact (State.rn_of_part (hu (by decide)) 0).trans ((State.rn_tickHandled hi (by decide) 0).trans (State.tick_countTick s))
  · exact congrArg (·.sampled) (hseq.trans (State.seq_tickHandled hi))
  · exact congrArg (·.carried) (hseq.trans (State.seq_tickHandled hi))
  · exact (State.rn_of_part (hu (by decide)) 0).trans (State.overrun_tickHandled hi)
  · have hp : s.tickHandled.endTick.pwr = s.tickHandled.pwr := hu (p := .pwr) (by decide)
    rw [hp, State.pwr_tickHandled hi]
  · exact (State.rn_of_part (hu (by decide)) 0).trans ((State.rn_tickHandled hi (by decide) 0).trans (State.jobTick_countTick s))
  · exact (State.rn_of_part (hu (by decide)) cls).trans (State.count_tickHandled hi cls)
  · exact (State.rn_of_part (hu (by decide)) j).trans ((State.rn_tickHandled hi (by decide) j).trans (State.stretch_countTick hj s))
  · rw [State.endTick_quiescent hq]
    rfl
  · exact (hu (p := .flt) (by decide)).trans (State.tickHandled_frame (p := .flt) hi (by decide))
  · exact (hu (p := .sec) (by decide)).trans (State.tickHandled_frame (p := .sec) hi (by decide))
  · exact (hu (p := .mem) (by decide)).trans (State.tickHandled_frame (p := .mem) hi (by decide))
  · exact (hu (p := .cores) (by decide)).trans (State.tickHandled_frame (p := .cores) hi (by decide))

end

/-! ## A command of a ring without a lead (R41, R409, R489) -/

theorem State.handleRow_held {c : Instr} {x : Ctx} {cookie : DWord} {irq : Bool} {op : Nat} {s : State}
    (hc : hostCmd c = some (.ring x cookie irq, op)) (hn : needsRegion op = true) (hp : 2 ≤ s.get CTX_PSTATE.state x.val) :
    s.handleRow c = s := by
  rw [State.handleRow, hc]
  exact if_pos (by simpa [State.ringHeld, hn] using hp)

theorem State.handleRow_leadless {c : Instr} {x : Ctx} {cookie : DWord} {irq : Bool} {op : Nat} {s : State}
    (hc : hostCmd c = some (.ring x cookie irq, op)) (hn : needsRegion op = false ∨ s.get CTX_PSTATE.state x.val < 2)
    (hl : s.leads = false) :
    s.handleRow c = (s.began (.ring x cookie irq) op).complete (.ring x cookie irq) op stNOT_LEAD := by
  have hh : (needsRegion op && s.ringHeld (.ring x cookie irq)) = false := by
    rcases hn with hn | hp
    · rw [hn, Bool.false_and]
    · rw [State.ringHeld, decide_eq_false (Nat.not_le.2 hp), Bool.and_false]
  rw [State.handleRow, hc]
  exact (if_neg (by rw [hh]; decide)).trans (if_neg (by rw [hl]; decide))

/-- Settles O58: the order by insertion, the shares by induction on the events with the counts handled so far, and the tick as its
counts, the limits, the shared events and an end that has nothing to report. -/
theorem eventTickCountsAndOrders : Obligations.EventTickCountsAndOrders := by
  refine ⟨fun l => ⟨foldl_insertEvent_perm l [], foldl_insertEvent_pairwise l .nil⟩,
    fun l _ => ⟨shareTick_perm l _, shareTick_handled_sublist l _, shareTick_carried_sublist l _, fun d hd => ?_⟩,
    fun s hl => ⟨eventTick_nil hl, fun e h he => eventTick_one hl h he⟩, fun s e => rfl, fun s c x cookie irq op hc => ?_, ?_⟩
  · have hz : [0, 0, 0, 0].getD d 0 = 0 := by
      match d, hd with
      | 0, _ | 1, _ | 2, _ | 3, _ => rfl
    have h := shareTick_filter hd l (used := [0, 0, 0, 0]) rfl
    rwa [hz] at h
  · exact ⟨State.handleRow_held hc, State.handleRow_leadless hc⟩
  · intro s hl hj hf ho hb hr hst hof hi
    exact eventTick_inert (fun e he => (hi e he).2) hl ⟨hf, ho, hb, hr, hj, hst⟩ hof

end Sys2Proof.Machine
end

