-- ==== Sys2Proof/Proofs/FlushFrames.lean ====
section
/-! Frames of an unbind at once (R214), of an abandoned command (R221), and what they do to a region's state. -/

namespace Sys2Proof.Machine
open Sys2Proof

/-! ## Registers set back to their reset values -/

/-- An entry stays where a filter keeps its key. -/
theorem spGet_filter_of_keep {α : Type} (d : α) {P : Nat × α → Bool} {k : Nat} {m : Sparse α} (h : ∀ e ∈ m, e.1 = k → P e = true) :
    spGet d (m.filter P) k = spGet d m k := by
  induction m with
  | nil => rfl
  | cons e m ih =>
    obtain ⟨j, v⟩ := e
    have hm := ih fun x hx => h x (List.mem_cons_of_mem _ hx)
    by_cases hj : k = j
    · rw [List.filter_cons_of_pos (h _ List.mem_cons_self hj.symm), spGet, spGet, if_pos hj, if_pos hj]
    · rw [spGet, if_neg hj, ← hm]
      by_cases hP : P (j, v) = true
      · rw [List.filter_cons_of_pos hP, spGet, if_neg hj]
      · rw [List.filter_cons_of_neg hP]

/-- A copy that the clear does not name keeps its value. -/
theorem State.rd_clearRegs {s : State} {P : Reg → Nat → Bool} {r : Reg} {i : Nat} (h : P r i = false) :
    (s.clearRegs P).rd r i = s.rd r i := by
  refine spGet_filter_of_keep _ fun e _ he => ?_
  have hn : e.1 % 512 = r.num := by
    have hlt := r.num_lt
    rw [he, Reg.key]
    omega
  have hi : e.1 / 512 = i := by
    have hlt := r.num_lt
    rw [he, Reg.key]
    omega
  rw [hi, hn]
  cases hf : Reg.all.find? fun q => decide (q.num = r.num) with
  | none => rfl
  | some q =>
    have hq : q = r := Reg.num_inj (by simpa using List.find?_some hf)
    simp [hq, h]

section
variable {p : Part}

theorem State.clearRegs_part {P : Reg → Nat → Bool} (h : ∀ r, p = .reg r → ∀ i, P r i = false) (s : State) :
    (s.clearRegs P).part p = s.part p := by
  cases p
  case reg r => exact funext fun i => State.rd_clearRegs (h r rfl i)
  all_goals rfl

/-! ## The fetchers of a region -/

theorem State.setFslot_part (h : p ≠ .fch) (hr : p ≠ .reg .FCH_SLOT_STATUS) (s : State) (i : Nat) (f : FchSlot) :
    (s.setFslot i f).part p = s.part p := by
  rw [State.setFslot, State.put_part hr, State.put_part hr, State.withFch_part h]

/-- What a fetch slot that empties changes. -/
def fslotParts : List Part := [.fch, .hrd, .reg .FCH_SLOT_STATUS]

theorem State.unleash_part (h : p ∉ fslotParts) (s : State) (i : Nat) : (s.unleash i).part p = s.part p := by
  unfold State.unleash
  split
  · rw [State.setFslot_part (Part.ne h) (Part.ne h), State.dropLeash, State.setHrd_part (Part.ne h)]
  · rfl

theorem State.emptyFslot_part (h : p ∉ fslotParts) (s : State) (i : Nat) : (s.emptyFslot i).part p = s.part p := by
  rw [State.emptyFslot, State.put_part (Part.ne h), State.setFslot_part (Part.ne h) (Part.ne h), State.unleash_part h]

theorem State.fchRecord_part (h : p ∉ .reg .FCH_SLOT_STATUS :: recordParts) (s : State) (i status value : Nat) (irq : Bool) :
    (s.fchRecord i status value irq).part p = s.part p := by
  refine (State.part_ite (s := s.put FCH_SLOT_STATUS.last_status i status) (fun _ => ?_) fun _ => rfl).trans
    (State.put_part (Part.ne h) s _ _)
  exact State.post_part (Part.ne h) (Part.ne h) (Part.ne h) _ _ _

theorem State.flushFetchers_part (h : p ∉ fslotParts ++ recordParts) (s : State) (q : Nat) : (s.flushFetchers q).part p = s.part p := by
  refine State.part_foldl (fun t i => State.part_ite (fun _ => rfl) fun _ => ?_) _ s
  rw [State.setFslot_part (Part.ne h) (Part.ne h), State.emptyFslot_part (Part.sub h)]
  split
  · exact State.fchRecord_part (Part.sub h) ..
  · rfl

/-! ## The routers and cores of a region -/

theorem State.discard_part (h : p ≠ .reg .NOC_DISCARDS) (hs : p ≠ .reg .MGT_SAT) (s : State) (cl n : Nat) :
    (s.discard cl n).part p = s.part p :=
  State.bump_part h hs s cl n

theorem State.endWait_part (h : p ≠ .hrd) (s : State) (l : List Nat) : (s.endWait l).part p = s.part p :=
  State.withHrd_part h s _

theorem State.showSpill_part (h : p ≠ .reg .NOC_STATUS) (s : State) (cl : Nat) : (s.showSpill cl).part p = s.part p := by
  rw [State.showSpill, State.put_part h, State.put_part h]

theorem State.endHold_part (h : p ∉ [Part.noc, .hrd, .reg .NOC_HOLD_CYCLES, .reg .MGT_SAT]) (s : State) (x : Hold) (n : Nat) :
    (s.endHold x n).part p = s.part p := by
  rw [State.endHold, State.bump_part (Part.ne h) (Part.ne h), State.endWait_part (Part.ne h), State.withNoc_part (Part.ne h)]

/-- What a cleared router changes. -/
def routerParts : List Part := [.noc, .hrd, .bnd, .reg .NOC_SLOT, .reg .NOC_GROUP, .reg .NOC_NODE, .reg .NOC_STATUS,
  .reg .NOC_DISCARDS, .reg .NOC_HOLD_CYCLES, .reg .MGT_SAT]

theorem State.clearRouters_part (h : p ∉ routerParts) (s : State) (q : Nat) : (s.clearRouters q).part p = s.part p := by
  rw [State.clearRouters]
  have hd {α : Type} (f : α → Nat) (l : List α) (t : State) : (l.foldl (fun (s : State) x => s.discard (f x)) t).part p = t.part p :=
    State.part_foldl (fun t x => State.discard_part (Part.ne h) (Part.ne h) t _ _) l t
  refine (State.part_foldl (fun t c => State.showSpill_part (Part.ne h) t _) _ _).trans ?_
  rw [State.setBnd_part (Part.ne h), State.withNoc_part (Part.ne h)]
  refine (State.part_foldl (fun t x => State.endHold_part (Part.sub h) t x _) _ _).trans ?_
  rw [State.clearRegs_part (fun r hr i => ?_), hd, hd]
  have hs : r ≠ .NOC_SLOT := fun e => Part.ne h (q := .reg .NOC_SLOT) (by decide) (e ▸ hr)
  have hg : r ≠ .NOC_GROUP := fun e => Part.ne h (q := .reg .NOC_GROUP) (by decide) (e ▸ hr)
  have hn : r ≠ .NOC_NODE := fun e => Part.ne h (q := .reg .NOC_NODE) (by decide) (e ▸ hr)
  split
  · exact absurd rfl hs
  · exact absurd rfl hg
  · exact absurd rfl hn
  · rfl

theorem State.withCoresNocHrd_part (hc : p ≠ .cores) (hn : p ≠ .noc) (hh : p ≠ .hrd) (s : State) (c : Sparse CoreState) (n : NocState)
    (x : HrdState) : ({ s with cores := c, noc := n, hrd := x } : State).part p = s.part p := by
  cases p with
  | cores => exact absurd rfl hc
  | noc => exact absurd rfl hn
  | hrd => exact absurd rfl hh
  | _ => rfl

theorem State.dropCores_part (h : p ∉ [Part.cores, .noc, .hrd]) (s : State) (q : Nat) : (s.dropCores q).part p = s.part p :=
  (State.withCoresNocHrd_part (Part.ne h) (Part.ne h) (Part.ne h) _ _ _ _).trans (State.endWait_part (Part.ne h) s _)

theorem State.clearReserves_part (h : p ∉ [Part.hrd, .reg .NOC_DISCARDS, .reg .HRD_RESERVE_USED, .reg .MGT_SAT]) (s : State) (q : Nat) :
    (s.clearReserves q).part p = s.part p := by
  rw [State.clearReserves, State.setHrd_part (Part.ne h)]
  refine (State.part_foldl (fun t k => State.wn_part (Part.ne h) t _ _) _ _).trans ?_
  exact State.part_foldl (fun t r => State.discard_part (Part.ne h) (Part.ne h) t _ _) _ s

/-! ## What a region shows -/

theorem State.setRegion_part (h : p ≠ .reg .BND_REGION_STATE) (s : State) (q st c e x : Nat) (b : Bool) :
    (s.setRegion q st c e x b).part p = s.part p := by
  rw [State.setRegion, State.put_part h, State.put_part h, State.put_part h, State.put_part h, State.put_part h]

theorem State.endStepSet_part (h : p ≠ .reg .BND_REGION_STATE) (s : State) (c : Nat) : (s.endStepSet c).part p = s.part p :=
  State.part_foldl (fun t _ => State.part_ite (fun _ => State.put_part h t _ _) fun _ => rfl) _ s

theorem State.showNoc_part (h : p ≠ .reg .NOC_STATUS) (s : State) (q : Nat) : (s.showNoc q).part p = s.part p := by
  refine State.part_foldl (fun t c => ?_) _ s
  rw [State.put_part h, State.put_part h]

theorem State.showPstate_part (h : p ≠ .reg .CTX_PSTATE) (s : State) (c : Nat) : (s.showPstate c).part p = s.part p := by
  unfold State.showPstate
  refine State.part_ite (fun _ => rfl) fun _ => ?_
  exact (State.part_ite (s := s.put _ _ _) (fun _ => State.put_part h _ _ _) fun _ => rfl).trans (State.put_part h s _ _)

/-! ## The flush of a region -/

/-- A flush, up to the registers that show the region's state. -/
def State.flushed (s : State) (q : Nat) : State :=
  let held := (s.cores.filter fun e => e.1 / 256 = q).map fun e => e.2.heldTokens
  let waiting := (s.noc.tokens.filter fun t => regionOf t.dst = q && t.phase = .diverted).length
  ((((s.bump .BND_REGION_DISCARDS q (held.foldl (· + ·) 0 + waiting)).flushFetchers q).clearRouters q).dropCores q).clearReserves q

/-- The region is shown unbound. -/
def State.showUnbound (s : State) (q : Nat) : State :=
  (s.setRegion q rsUnbound 0x1F 0 0 false).put BND_REGION_STATE.step q 0

theorem State.flushRegion_eq (s : State) (q : Nat) : s.flushRegion q =
    let c := s.rctx q
    let s := s.flushed q
    let s := (if s.flag BND_REGION_STATE.step q then s.endStepSet c else s).showUnbound q
    ((s.setBnd { s.bnd with leafOf := spSet 0 s.bnd.leafOf q 0 }).showNoc q).showPstate c := rfl

/-- What the flush of a region may change. -/
def flushParts : List Part := .reg .BND_REGION_STATE :: .reg .BND_REGION_DISCARDS :: .reg .HRD_RESERVE_USED :: .reg .CTX_PSTATE ::
  .cores :: fslotParts ++ recordParts ++ routerParts

theorem State.flushed_part (h : p ∉ .reg .BND_REGION_DISCARDS :: .reg .HRD_RESERVE_USED :: .cores :: fslotParts ++ recordParts ++
    routerParts) (s : State) (q : Nat) : (s.flushed q).part p = s.part p := by
  rw [State.flushed, State.clearReserves_part (Part.sub h), State.dropCores_part (Part.sub h), State.clearRouters_part (Part.sub h),
    State.flushFetchers_part (Part.sub h), State.bump_part (Part.ne h) (Part.ne h)]

theorem State.flushRegion_part (h : p ∉ flushParts) (s : State) (q : Nat) : (s.flushRegion q).part p = s.part p := by
  rw [State.flushRegion_eq]
  dsimp only
  rw [State.showPstate_part (Part.ne h), State.showNoc_part (Part.ne h), State.setBnd_part (Part.ne h), State.showUnbound,
    State.put_part (Part.ne h), State.setRegion_part (Part.ne h)]
  exact (State.part_ite (fun _ => State.endStepSet_part (Part.ne h) _ _) fun _ => rfl).trans (State.flushed_part (Part.sub h) s q)

theorem State.endBind_part (h : p ≠ .ctx) (s : State) (r : BindReq) (st : Nat) : (s.endBind r st).part p = s.part p := by
  rw [State.endBind]
  split
  · exact State.complete_part h ..
  · rfl

end

/-! ## Regions that a flush has unbound -/

/-- From s to t each region keeps its state and its context, or is unbound. -/
def Flushes (s t : State) : Prop := ∀ q, t.rstate q = 0 ∨ (t.rstate q = s.rstate q ∧ t.rctx q = s.rctx q)

theorem Flushes.refl (s : State) : Flushes s s := fun _ => .inr ⟨rfl, rfl⟩

theorem Flushes.trans {s t u : State} (h : Flushes s t) (k : Flushes t u) : Flushes s u := fun q => by
  rcases k q with hk | ⟨hk, hc⟩
  · exact .inl hk
  · rw [hk, hc]
    exact h q

theorem Flushes.unbound {s t : State} (h : Flushes s t) {q : Nat} (hq : s.rstate q = 0) : t.rstate q = 0 :=
  (h q).elim id fun k => k.1.trans hq

theorem Flushes.of_part {s t : State} (h : t.part (.reg .BND_REGION_STATE) = s.part (.reg .BND_REGION_STATE)) : Flushes s t :=
  fun q => .inr ⟨State.get_of_part (f := BND_REGION_STATE.state) h q, State.get_of_part (f := BND_REGION_STATE.context) h q⟩

theorem Flushes.foldl {α : Type} {f : State → α → State} (h : ∀ s x, Flushes s (f s x)) (l : List α) (s : State) :
    Flushes s (l.foldl f s) := by
  induction l generalizing s with
  | nil => exact .refl s
  | cons x l ih => exact (h s x).trans (ih _)

/-- A fold of steps that each unbind their region unbinds them all. -/
theorem rstate_foldl {f : State → Nat → State} (h : ∀ s x, Flushes s (f s x)) (h0 : ∀ s x, (f s x).rstate x = 0) {l : List Nat}
    {q : Nat} (hq : q ∈ l) (s : State) : (l.foldl f s).rstate q = 0 := by
  induction l generalizing s with
  | nil => cases hq
  | cons x l ih =>
    rcases List.mem_cons.1 hq with rfl | hq
    · exact (Flushes.foldl h l _).unbound (h0 s q)
    · exact ih hq _

theorem State.rstate_showUnbound (s : State) (q : Nat) : (s.showUnbound q).rstate q = 0 := by
  simp only [State.rstate, State.showUnbound, State.setRegion]
  rw [State.get_put_apart (by rfl) (by decide), State.get_put_apart (by rfl) (by decide), State.get_put_apart (by rfl) (by decide),
    State.get_put_apart (by rfl) (by decide), State.get_put_apart (by rfl) (by decide),
    State.get_put_fits (by decide) (by decide) (by decide)]
  rfl

theorem State.get_showUnbound_ne {q j : Nat} (h : j ≠ q) (g : Fld) (s : State) : (s.showUnbound q).get g j = s.get g j := by
  rw [State.showUnbound, State.setRegion]
  simp only [State.get_put_index h]

theorem flushes_showUnbound (s : State) (q : Nat) : Flushes s (s.showUnbound q) := fun j => by
  by_cases h : j = q
  · subst h
    exact .inl (State.rstate_showUnbound s j)
  · exact .inr ⟨State.get_showUnbound_ne h BND_REGION_STATE.state s, State.get_showUnbound_ne h BND_REGION_STATE.context s⟩

theorem flushes_endStepSet (s : State) (c : Nat) : Flushes s (s.endStepSet c) := by
  refine Flushes.foldl (fun t q => ?_) _ s
  split
  next =>
    refine fun j => .inr ?_
    by_cases h : j = q
    · subst h
      exact ⟨State.get_put_apart (g := BND_REGION_STATE.state) (by rfl) (by decide) ..,
        State.get_put_apart (g := BND_REGION_STATE.context) (by rfl) (by decide) ..⟩
    · exact ⟨State.get_put_index (g := BND_REGION_STATE.state) h t _, State.get_put_index (g := BND_REGION_STATE.context) h t _⟩
  next => exact .refl t

/-- The state of the regions after a flush is that of the last write to the region. -/
theorem State.flushRegion_shown (s : State) (q : Nat) : (s.flushRegion q).part (.reg .BND_REGION_STATE) =
    ((if (s.flushed q).flag BND_REGION_STATE.step q then (s.flushed q).endStepSet (s.rctx q) else s.flushed q).showUnbound q).part
      (.reg .BND_REGION_STATE) := by
  rw [State.flushRegion_eq]
  dsimp only
  rw [State.showPstate_part (by decide), State.showNoc_part (by decide), State.setBnd_part (by decide)]

theorem State.rstate_flushRegion (s : State) (q : Nat) : (s.flushRegion q).rstate q = 0 :=
  (State.get_of_part (f := BND_REGION_STATE.state) (s.flushRegion_shown q) q).trans (State.rstate_showUnbound _ q)

theorem flushes_flushRegion (s : State) (q : Nat) : Flushes s (s.flushRegion q) := by
  refine .trans ?_ (Flushes.of_part (s.flushRegion_shown q))
  refine .trans ?_ (flushes_showUnbound _ q)
  have hf : Flushes s (s.flushed q) := Flushes.of_part (State.flushed_part (by decide) s q)
  split
  · exact hf.trans (flushes_endStepSet _ _)
  · exact hf

end Sys2Proof.Machine
end

