-- ==== Sys2Proof/Proofs/Contexts.lean ====
section
/-! Contexts: CTX_CREATE and CTX_DESTROY (R387, R388, R417). -/

namespace Sys2Proof.Machine
open Sys2Proof

section
variable {p : Part}

/-! ## The administration of contexts (R417) -/

theorem State.endAdmin_part (h : p ≠ .reg .CTX_ADMIN_STATUS) (s : State) (st : Nat) : (s.endAdmin st).part p = s.part p := by
  rw [State.endAdmin, State.put_part h, State.put_part h]

theorem State.status_endAdmin {st : Nat} (h : st < 256) (s : State) : (s.endAdmin st).get CTX_ADMIN_STATUS.status = st := by
  rw [State.endAdmin, State.get_put_apart (by rfl) (by decide), State.get_put_fits (by decide) (by decide) (by simpa using h)]

theorem State.busy_endAdmin (s : State) (st : Nat) : (s.endAdmin st).flag CTX_ADMIN_STATUS.busy = false :=
  State.flag_put_zero (by decide) _ 0

theorem exec_admin {s : State} {i : Instr} (hl : s.live = true) (hd : s.decodes 0 = true) (he : exec i s = s.act (s.admin 0 i)) :
    exec i s = .next (if s.flag CTX_ADMIN_STATUS.busy then s else (s.put CTX_ADMIN_STATUS.busy 0 1).sampleRow 9 64 i) := by
  rw [he, State.act_live _ hl, State.admin, State.pfWrite, hd]
  rfl

/-! ## CTX_CREATE (R387) -/

theorem State.showContexts_part (h : p ≠ .reg .CTX_STATUS) (s : State) : s.showContexts.part p = s.part p := State.put_part h s _ _

/-- A context as it is made, up to the end of its command. -/
def State.made (s : State) (c f : Nat) : State :=
  (((s.resetWindows c).put CTX_CONFIG.function c f).put CTX_CONFIG.exists c 1).showContexts

theorem State.made_part (h : p ∉ [Part.reg .CTX_CONFIG, .reg .CTX_STATUS]) (s : State) (c f : Nat) :
    (s.made c f).part p = (s.resetWindows c).part p := by
  rw [State.made, State.showContexts_part (Part.ne h), State.put_part (Part.ne h), State.put_part (Part.ne h)]

theorem applyCtxCreate_made {s : State} {c f : Fin 32} (hl : s.leads = true) (hc : c.val ≠ 31) (hf : f.val ≤ 16)
    (he : s.ctxExists c.val = false) (hfn : f.val = 0 ∨ ∀ d, d < 31 → s.isFnOf f.val d = false) :
    State.applyCtxCreate c f s = (s.made c.val f.val).endAdmin stOK := by
  have hfree : (decide (1 ≤ f.val) && (upto 31).any fun d => s.isFnOf f.val d) = false := by
    rcases hfn with h | h
    · rw [h]; rfl
    · rw [Bool.and_eq_false_iff]
      refine .inr (List.any_eq_false.2 fun d hd => ?_)
      rw [h d (List.mem_range.1 hd)]
      decide
  rw [State.applyCtxCreate, if_neg (by rw [hl]; decide), if_neg (by omega), if_neg (by rw [he, hfree]; decide)]
  rfl

theorem State.resetWindows_part (h : p ∉ [Part.step, .num, .fin, .flt, .ctx]) (hr : ∀ r, p ≠ .reg r) (s : State) (c : Nat) :
    (s.resetWindows c).part p = s.part p := by
  rw [State.resetWindows, State.setRing_part (Part.ne h), State.setFlt_part (Part.ne h), State.setFin_part (Part.ne h),
    State.setNm_part (Part.ne h), State.setStp_part (Part.ne h)]
  exact State.clearRegs_part (fun r he => absurd he (hr r)) s

/-! ## CTX_DESTROY (R388) -/

theorem State.showClaims_part (h : p ≠ .reg .CTX_REGION_RESERVE) (s : State) : s.showClaims.part p = s.part p := by
  refine State.part_foldl (fun t q => ?_) _ s
  split
  · rw [State.put_part h, State.put_part h]
  · rw [State.put_part h, State.put_part h]

/-- What the requests that wait for a destroyed context change. -/
def claimParts : List Part := .reg .CTX_REGION_RESERVE :: recordParts

theorem State.endRequest_part (h : p ∉ claimParts) (s : State) (r : PreReq) : (s.endRequest r).part p = s.part p := by
  rw [State.endRequest, State.showClaims_part (Part.ne h)]
  split
  · rw [State.complete_part (Part.ne h), State.setCtx_part (Part.ne h)]
  · rw [State.setCtx_part (Part.ne h)]

theorem State.claim_part (h : p ∉ claimParts) (s : State) (r : PreReq) (ps : List Nat) : (s.claim r ps).part p = s.part p := by
  rw [State.claim]
  split
  · rw [State.showClaims_part (Part.ne h)]
    exact State.part_foldl (fun t q => State.part_ite (fun _ => State.setCtx_part (Part.ne h) t _) fun _ => rfl) ps s
  · rfl

theorem State.holderFreed_part (h : p ∉ claimParts) (s : State) (c : Nat) (ps : List Nat) : (s.holderFreed c ps).part p = s.part p := by
  refine State.part_foldl (fun t r => State.part_ite (fun _ => ?_) fun _ => rfl) _ s
  refine (State.part_ite (s := State.claim _ _ _) (fun _ => State.endRequest_part h _ _) fun _ => rfl).trans ?_
  rw [State.claim_part h, State.setCtx_part (Part.ne h)]

theorem State.dropTallies_part (h : p ∉ [Part.hrd, .reg .HRD_TALLY, .reg .HRD_STATUS]) (s : State) (c : Nat) :
    (s.dropTallies c).part p = s.part p := by
  rw [State.dropTallies, State.showHrd_part (Part.ne h)]
  refine (State.part_foldl (fun t e => State.unmapVid_part (Part.ne h) (Part.ne h) t _ _ _) _ _).trans ?_
  refine (State.part_foldl (fun t q => State.poisonTally_part (Part.ne h) (Part.ne h) t _) _ _).trans ?_
  exact State.setHrd_part (Part.ne h) s _

theorem State.showFin_part (h : p ≠ .reg .FIN_STATUS) (s : State) : s.showFin.part p = s.part p := State.put_part h s _ _

theorem State.stopMovers_part (h : p ≠ .fin) (hr : p ≠ .reg .FIN_STATUS) (s : State) (c : Nat) : (s.stopMovers c).part p = s.part p := by
  rw [State.stopMovers, State.showFin_part hr, State.setFin_part h]

theorem State.stopSentinel_part (h : p ≠ .flt) (s : State) (c : Nat) : (s.stopSentinel c).part p = s.part p := State.setFlt_part h s _

end

theorem flushes_abandonLoad {s : State} {o : BindOp} {status : Nat} (h : status ≠ stFENCED) : Flushes s (s.abandonLoad o status) := by
  rw [State.abandonLoad, if_pos (.inl h)]
  refine .trans ?_ (Flushes.of_part (State.endBind_part (by decide) ..))
  exact .trans (Flushes.of_part (s.setBnd_part (by decide) _)) (Flushes.foldl flushes_flushRegion o.regions _)

/-- The binds of a context and their waiting requests go with it. -/
def State.dropBinds (s : State) (c : Nat) : State :=
  let s := (s.bnd.ops.filter fun o => o.req.ctx = c).foldl (fun (s : State) o => s.abandonLoad o stFLUSHED) s
  s.setBnd { s.bnd with waits := s.bnd.waits.filter fun r => r.ctx ≠ c }

theorem flushes_dropBinds (s : State) (c : Nat) : Flushes s (s.dropBinds c) :=
  (Flushes.foldl (fun _ _ => flushes_abandonLoad (by decide)) _ s).trans (Flushes.of_part (State.setBnd_part (by decide) _ _))

/-- A destroyed context's binds are dropped and its regions flushed. -/
def State.unbindAll (s : State) (c : Nat) : State :=
  ((s.dropBinds c).regionsOf c).foldl (fun (s : State) p => s.flushRegion p) (s.dropBinds c)

/-- Its regions are unbound, whichever of the two unbound them. -/
theorem State.rstate_unbindAll {s : State} {c q : Nat} (hq : q < 16) (hc : s.rctx q = c) : (s.unbindAll c).rstate q = 0 := by
  by_cases h0 : (s.dropBinds c).rstate q = 0
  · exact (Flushes.foldl flushes_flushRegion _ _).unbound h0
  · refine rstate_foldl flushes_flushRegion State.rstate_flushRegion ?_ _
    obtain ⟨-, hk⟩ := (flushes_dropBinds s c q).resolve_left h0
    exact List.mem_filter.2 ⟨List.mem_range.2 hq, decide_eq_true ⟨hk.trans hc, h0⟩⟩

/-- What a destroyed context holds besides its regions goes. -/
def State.dropCtx (s : State) (c : Nat) (ps : List Nat) : State :=
  let s := s.setCtx { s.ctx with
    preempts := s.ctx.preempts.filter fun q => q.ctx ≠ c
    claims := s.ctx.claims.filter fun x => x.ctx ≠ c
    reqs := s.ctx.reqs.filter fun r => r.claimant ≠ some c }
  (((s.holderFreed c ps).showClaims.dropTallies c).stopSentinel c).stopMovers c

theorem State.dropCtx_regions (s : State) (c : Nat) (ps : List Nat) :
    (s.dropCtx c ps).part (.reg .BND_REGION_STATE) = s.part (.reg .BND_REGION_STATE) := by
  rw [State.dropCtx, State.stopMovers_part (by decide) (by decide), State.stopSentinel_part (by decide),
    State.dropTallies_part (by decide), State.showClaims_part (by decide), State.holderFreed_part (by decide),
    State.setCtx_part (by decide)]

theorem State.destroyCtx_eq (s : State) (c : Nat) : s.destroyCtx c =
    let t := (s.unbindAll c).dropCtx c ((s.dropBinds c).regionsOf c)
    ((((((t.setStp c {}).put CTX_STEP_STATE.state c ssIdle).ringOn c false).setRing c {}).wn .CTX_PSTATE c 0).put
      CTX_CONFIG.exists c 0).showContexts := rfl

/-! ## What a created and a destroyed context show -/

theorem State.destroyCtx_part {p : Part} (h : p ∉ [Part.step, .ctx, .reg .CTX_STEP_STATE, .reg .CTX_RING_CONFIG, .reg .CTX_PSTATE,
    .reg .CTX_CONFIG, .reg .CTX_STATUS]) (s : State) (c : Nat) :
    (s.destroyCtx c).part p = ((s.unbindAll c).dropCtx c ((s.dropBinds c).regionsOf c)).part p := by
  rw [State.destroyCtx_eq]
  dsimp only
  rw [State.showContexts_part (Part.ne h), State.put_part (Part.ne h), State.wn_part (Part.ne h), State.setRing_part (Part.ne h),
    State.ringOn, State.put_part (Part.ne h), State.put_part (Part.ne h), State.setStp_part (Part.ne h)]

theorem State.rstate_destroyCtx {s : State} {c q : Nat} (hq : q < 16) (hc : s.rctx q = c) : (s.destroyCtx c).rstate q = 0 := by
  rw [State.rstate, State.get_of_part (f := BND_REGION_STATE.state) (State.destroyCtx_part (by decide) s c),
    State.get_of_part (f := BND_REGION_STATE.state) (State.dropCtx_regions _ _ _)]
  exact State.rstate_unbindAll hq hc

theorem State.ctxExists_destroyCtx (s : State) (c : Nat) : (s.destroyCtx c).ctxExists c = false := by
  rw [State.ctxExists, State.destroyCtx_eq]
  dsimp only
  rw [State.flag_of_part (f := CTX_CONFIG.exists) (State.showContexts_part (by decide) _), State.flag_put_zero (by decide)]

theorem State.ring_destroyCtx (s : State) (c : Nat) : (s.destroyCtx c).ring c = {} := by
  rw [State.destroyCtx_eq]
  dsimp only
  rw [State.ring_of_part (State.showContexts_part (by decide) _), State.ring_of_part (State.put_part (by decide) _ _ _),
    State.ring_of_part (State.wn_part (by decide) _ _ _), State.ring_setRing_self]

theorem State.sstate_destroyCtx (s : State) (c : Nat) : (s.destroyCtx c).sstate c = 0 := by
  rw [State.sstate, State.destroyCtx_eq]
  dsimp only
  rw [State.get_of_part (f := CTX_STEP_STATE.state) (State.showContexts_part (by decide) _),
    State.get_put_of_ne (by decide), State.get_wn_of_ne (by decide),
    State.get_of_part (f := CTX_STEP_STATE.state) (State.setRing_part (by decide) _ _ _), State.ringOn,
    State.get_put_of_ne (by decide), State.get_put_fits (by decide) (by decide) (by decide)]
  rfl

theorem State.ring_setRing_ne {c d : Nat} (h : d ≠ c) (s : State) (r : RingState) : (s.setRing c r).ring d = s.ring d :=
  spGet_spSet_ne _ _ _ _ _ _ h

theorem State.ring_resetWindows (s : State) (c : Nat) : (s.resetWindows c).ring c = {} := State.ring_setRing_self _ _ _

theorem State.ring_resetWindows_ne {c d : Nat} (h : d ≠ c) (s : State) : (s.resetWindows c).ring d = s.ring d := by
  rw [State.resetWindows, State.ring_setRing_ne h, State.ring_of_part (State.setFlt_part (by decide) _ _),
    State.ring_of_part (State.setFin_part (by decide) _ _ _), State.ring_of_part (State.setNm_part (by decide) _ _ _),
    State.ring_of_part (State.setStp_part (by decide) _ _ _)]
  rfl

theorem State.stp_of_part {s t : State} (h : t.part .step = s.part .step) (c : Nat) : t.stp c = s.stp c :=
  congrArg (fun x : Sparse StepState => spGet ({} : StepState) x c) h

theorem State.stp_resetWindows (s : State) (c : Nat) : (s.resetWindows c).stp c = {} := by
  rw [State.resetWindows, State.stp_of_part (State.setRing_part (by decide) _ _ _), State.stp_of_part (State.setFlt_part (by decide) _ _),
    State.stp_of_part (State.setFin_part (by decide) _ _ _), State.stp_of_part (State.setNm_part (by decide) _ _ _)]
  exact (spGet_spSet ({} : StepState) _ c c {}).trans (if_pos rfl)

section
variable {s : State}

theorem applyCtxCreate_makes {c : Ctx} {f : Fin 32} (hl : s.leads = true) (hf : f.val ≤ 16) (he : s.ctxExists c.val = false)
    (hfn : f.val = 0 ∨ ∀ d, d < 31 → s.isFnOf f.val d = false) :
    let u := State.applyCtxCreate ⟨c.val, by omega⟩ f s
    u.ctxExists c.val = true ∧ u.get CTX_CONFIG.function c.val = f.val ∧ u.ring c.val = {} ∧ u.stp c.val = {} ∧
      u.get CTX_ADMIN_STATUS.status = 0 ∧ u.flag CTX_ADMIN_STATUS.busy = false ∧ u.mem = s.mem ∧ u.cores = s.cores ∧
      (∀ d, d ≠ c.val → u.ring d = s.ring d) := by
  rw [applyCtxCreate_made (c := ⟨c.val, by omega⟩) hl (by have := c.isLt; dsimp only; omega) hf he hfn]
  dsimp only
  set r := s.resetWindows c.val with hr
  have keep {p : Part} (h : p ≠ .reg .CTX_ADMIN_STATUS) := State.endAdmin_part h (s.made c.val f.val) stOK
  have shown {p : Part} (h : p ∉ [Part.reg .CTX_CONFIG, .reg .CTX_STATUS, .reg .CTX_ADMIN_STATUS]) :
      ((s.made c.val f.val).endAdmin stOK).part p = r.part p :=
    (keep (Part.ne h)).trans (State.made_part (Part.sub h) s _ _)
  have hconfig : (s.made c.val f.val).part (.reg .CTX_CONFIG) =
      ((r.put CTX_CONFIG.function c.val f.val).put CTX_CONFIG.exists c.val 1).part (.reg .CTX_CONFIG) :=
    State.showContexts_part (by decide) _
  refine ⟨?_, ?_, ?_, ?_, State.status_endAdmin (by decide) _, State.busy_endAdmin _ _, ?_, ?_, fun d hd => ?_⟩
  · rw [State.ctxExists, State.flag_of_part (f := CTX_CONFIG.exists) (keep (by decide)),
      State.flag_of_part (f := CTX_CONFIG.exists) hconfig, State.flag_put_one (by decide)]
  · rw [State.get_of_part (f := CTX_CONFIG.function) (keep (by decide)),
      State.get_of_part (f := CTX_CONFIG.function) hconfig, State.get_put_apart (by rfl) (by decide),
      State.get_put_fits (by decide) (by decide) (by have := f.isLt; change f.val < 32; omega)]
  · rw [State.ring_of_part (shown (by decide)), hr, State.ring_resetWindows]
  · rw [State.stp_of_part (shown (by decide)), hr, State.stp_resetWindows]
  · exact (shown (p := .mem) (by decide)).trans (State.resetWindows_part (by decide) (fun _ => by simp) s _)
  · exact (shown (p := .cores) (by decide)).trans (State.resetWindows_part (by decide) (fun _ => by simp) s _)
  · rw [State.ring_of_part (shown (by decide)), hr, State.ring_resetWindows_ne hd]

/-- A command of CTX_ADMIN that ends with a status alone. -/
theorem endAdmin_only (st : Nat) (h : st < 256) : (s.endAdmin st).get CTX_ADMIN_STATUS.status = st ∧ (s.endAdmin st).ctx = s.ctx ∧
    (s.endAdmin st).step = s.step :=
  ⟨State.status_endAdmin h s, State.endAdmin_part (p := .ctx) (by decide) s st, State.endAdmin_part (p := .step) (by decide) s st⟩

theorem applyCtxDestroy_ends {c : Fin 32} (hl : s.leads = true) (hc : c.val ≠ 31) (he : s.ctxExists c.val = true) :
    let v := State.applyCtxDestroy c s
    v.ctxExists c.val = false ∧ v.ring c.val = {} ∧ v.sstate c.val = 0 ∧ v.get CTX_ADMIN_STATUS.status = 0 ∧
      v.flag CTX_ADMIN_STATUS.busy = false ∧ v.mem = s.mem ∧
      (∀ p, p < 16 → s.rctx p = c.val → s.rstate p ≠ 0 → v.rstate p = 0) := by
  have hv : State.applyCtxDestroy c s = (s.destroyCtx c.val).endAdmin stOK := by
    rw [State.applyCtxDestroy, if_neg (by rw [hl]; decide), if_neg (by rw [he]; simpa using hc)]
  have keep {p : Part} (h : p ≠ .reg .CTX_ADMIN_STATUS) := State.endAdmin_part h (s.destroyCtx c.val) stOK
  rw [hv]
  refine ⟨?_, ?_, ?_, State.status_endAdmin (by decide) _, State.busy_endAdmin _ _, ?_, fun q hq hc _ => ?_⟩
  · exact (State.flag_of_part (f := CTX_CONFIG.exists) (keep (by decide)) _).trans (State.ctxExists_destroyCtx s _)
  · rw [State.ring_of_part (keep (by decide)), State.ring_destroyCtx]
  · exact (State.get_of_part (f := CTX_STEP_STATE.state) (keep (by decide)) _).trans (State.sstate_destroyCtx s _)
  · exact (keep (p := .mem) (by decide)).trans (State.destroyCtx_mem s _)
  · exact (State.get_of_part (f := BND_REGION_STATE.state) (keep (by decide)) q).trans (State.rstate_destroyCtx hq hc)

theorem applyCtxCreate_refuses {c f : Fin 32} :
    (s.leads = false → State.applyCtxCreate c f s = s.endAdmin stNOT_LEAD) ∧
    (s.leads = true → c.val = 31 ∨ 16 < f.val → State.applyCtxCreate c f s = s.endAdmin stBAD_DESCRIPTOR) ∧
    (s.leads = true → c.val ≠ 31 → f.val ≤ 16 → s.ctxExists c.val = true → State.applyCtxCreate c f s = s.endAdmin stBUSY) := by
  refine ⟨fun hl => ?_, fun hl hc => ?_, fun hl hc hf he => ?_⟩
  · rw [State.applyCtxCreate, if_pos (by rw [hl]; rfl)]
  · rw [State.applyCtxCreate, if_neg (by rw [hl]; decide), if_pos hc]
  · rw [State.applyCtxCreate, if_neg (by rw [hl]; decide), if_neg (by omega), if_pos (by rw [he]; rfl)]

theorem applyCtxDestroy_refuses {c : Fin 32} :
    (s.leads = false → State.applyCtxDestroy c s = s.endAdmin stNOT_LEAD) ∧
    (s.leads = true → c.val = 31 ∨ s.ctxExists c.val = false → State.applyCtxDestroy c s = s.endAdmin stBAD_DESCRIPTOR) := by
  refine ⟨fun hl => ?_, fun hl hc => ?_⟩
  · rw [State.applyCtxDestroy, if_pos (by rw [hl]; rfl)]
  · rw [State.applyCtxDestroy, if_neg (by rw [hl]; decide), if_pos hc]

end

/-- Settles O38: a destroyed context's regions are unbound by the binds it drops or by the flush of those it still has, and no later
step of the command writes a region's state. -/
theorem contextsCreateAndDestroy : Obligations.ContextsCreateAndDestroy := by
  intro s hl hd
  refine ⟨fun c f cmd hcmd => ?_, fun c f hlead hf he hfn => applyCtxCreate_makes hlead hf he hfn, fun c f => ?_⟩
  · have hex : exec cmd s = .next (if s.flag CTX_ADMIN_STATUS.busy then s else (s.put CTX_ADMIN_STATUS.busy 0 1).sampleRow 9 64 cmd) := by
      rcases List.mem_cons.1 hcmd with rfl | hcmd
      · exact exec_admin hl hd rfl
      · obtain rfl := List.mem_singleton.1 hcmd
        exact exec_admin hl hd rfl
    exact ⟨fun hb => by rw [hex, if_pos hb], fun hb => by rw [hex, if_neg (by rw [hb]; decide)]⟩
  · obtain ⟨hcNot, hcBad, hcBusy⟩ := applyCtxCreate_refuses (s := s) (c := c) (f := f)
    obtain ⟨hdNot, hdBad⟩ := applyCtxDestroy_refuses (s := s) (c := c)
    have hu : s.handleRow (.ctxCreate 0 c f) = State.applyCtxCreate c f s := rfl
    have hv : s.handleRow (.ctxDestroy 0 c) = State.applyCtxDestroy c s := rfl
    rw [hu, hv]
    refine ⟨fun hn => ?_, fun hlead hc hf he => ?_, fun hlead hc => ?_, fun hlead hc => ?_, fun hlead hc he => ?_⟩
    · rw [hcNot hn, hdNot hn]
      obtain ⟨hst, hctx, -⟩ := endAdmin_only (s := s) stNOT_LEAD (by decide)
      exact ⟨hst, hctx, hst, hctx⟩
    · rw [hcBusy hlead hc hf he]
      exact endAdmin_only _ (by decide)
    · rw [hcBad hlead hc]
      exact endAdmin_only _ (by decide)
    · rw [hdBad hlead hc]
      exact endAdmin_only _ (by decide)
    · exact applyCtxDestroy_ends hlead hc he

end Sys2Proof.Machine
end

