-- ==== Sys2Proof/Proofs/StepDecisions.lean ====
section
/-! Votes and decisions of a step (R327 to R330, R333). -/

namespace Sys2Proof.Machine
open Sys2Proof

/-! ## Step states -/

theorem State.stp_setStp_self (s : State) (c : Nat) (t : StepState) : (s.setStp c t).stp c = t :=
  (spGet_spSet ({} : StepState) _ c c t).trans (if_pos rfl)

theorem State.sstate_put {v : Nat} (h : v < 8) (s : State) (c : Nat) : (s.put CTX_STEP_STATE.state c v).sstate c = v :=
  State.get_put_fits (by decide) (by decide) (by simpa using h) s c

theorem State.sstate_of_part {s t : State} (h : t.part (.reg .CTX_STEP_STATE) = s.part (.reg .CTX_STEP_STATE)) (c : Nat) :
    t.sstate c = s.sstate c :=
  State.get_of_part (f := CTX_STEP_STATE.state) h c

/-! ## The record of a decision (R341, R396) -/

theorem State.draw_part {p : Part} (h : p ≠ .fresh) (s : State) : s.draw.part p = s.part p := State.withFresh_part h s _

/-- What the record of a decision changes. -/
def stepRecordParts : List Part := .fresh :: .reg .CTX_HEALTH :: recordParts

theorem State.postStep_part {p : Part} (h : p ∉ stepRecordParts) (s : State) (c o : Nat) : (s.postStep c o).part p = s.part p := by
  rw [State.postStep, State.post_part (Part.ne h) (Part.ne h) (Part.ne h), State.draw_part (Part.ne h), State.put_part (Part.ne h),
    State.put_part (Part.ne h)]

/-- The vote word a decision is about: the job's, or the package's own. -/
def State.decidedWord (s : State) (c : Nat) : Nat := ((s.stp c).combined.map (·.word)).getD (s.get CTX_HEALTH.local_ c)

/-- A decision queues one record of kind 2 with its outcome, its status and its step. -/
theorem State.queue_postStep (s : State) (c o : Nat) : ∃ q, ((s.postStep c o).ring c).queue = (s.ring c).queue ++ [q] ∧ q.kind = 2 ∧
    q.aux = o ∧ q.tag = s.rn .CTX_STEP c ∧
    q.status = (if o = 1 then stOK else if o = 3 then stIN_DOUBT else s.voteStatus (s.decidedWord c)) := by
  rw [State.postStep, State.post_kept (by simp), State.ring_setRing_self,
    State.ring_of_part ((State.draw_part (by decide) _).trans ((State.put_part (by decide) _ _ _).trans (State.put_part (by decide) s _ _)))]
  refine ⟨_, rfl, rfl, rfl, ?_, rfl⟩
  exact (State.rn_put_of_ne (by decide) _ _ _ _).trans (State.rn_put_of_ne (by decide) _ _ _ _)

/-! ## A decision reaches the package (R329, R330) -/

/-- What a decision changes. -/
def decisionParts : List Part := .step :: .reg .CTX_STEP_STATE :: stepRecordParts

theorem State.takeDecision_part {p : Part} (h : p ∉ decisionParts) (s : State) (c : Nat) (commit : Bool) (flip : Nat) (snap : Bool) :
    (s.takeDecision c commit flip snap).part p = s.part p := by
  rw [State.takeDecision]
  refine (State.part_ite (s := State.setStp _ _ _) (fun _ => State.put_part (Part.ne h) _ _ _) fun _ => rfl).trans ?_
  rw [State.setStp_part (Part.ne h), State.postStep_part (Part.sub h)]

theorem State.sstate_takeDecision_commit (s : State) (c flip : Nat) (snap : Bool) : (s.takeDecision c true flip snap).sstate c = 3 :=
  State.sstate_put (by decide) _ c

theorem State.sstate_takeDecision_abort (s : State) (c flip : Nat) (snap : Bool) :
    (s.takeDecision c false flip snap).sstate c = s.sstate c :=
  State.sstate_of_part ((State.setStp_part (by decide) _ _ _).trans (State.postStep_part (by decide) s _ _)) c

/-- The decision is kept with the tick at which it came. -/
theorem State.decision_takeDecision (s : State) (c : Nat) (commit : Bool) (flip : Nat) (snap : Bool) :
    ∃ d, ((s.takeDecision c commit flip snap).stp c).decision = some d ∧ d.commit = commit ∧ d.flip = flip ∧ d.tick = s.now := by
  have hp : (s.takeDecision c commit flip snap).part .step = ((s.postStep c (if commit then 1 else 2)).setStp c _).part .step :=
    State.part_ite (fun _ => State.put_part (by decide) _ _ _) fun _ => rfl
  rw [State.stp_of_part hp, State.stp_setStp_self]
  exact ⟨_, rfl, rfl, rfl, State.rn_of_part (State.postStep_part (by decide) s _ _) 0⟩

theorem State.queue_takeDecision (s : State) (c : Nat) (commit : Bool) (flip : Nat) (snap : Bool) :
    ((s.takeDecision c commit flip snap).ring c).queue = ((s.postStep c (if commit then 1 else 2)).ring c).queue := by
  have hp : (s.takeDecision c commit flip snap).part .ctx = (s.postStep c (if commit then 1 else 2)).part .ctx := by
    rw [State.takeDecision]
    refine (State.part_ite (s := State.setStp _ _ _) (fun _ => State.put_part (by decide) _ _ _) fun _ => rfl).trans ?_
    exact State.setStp_part (by decide) _ _ _
  rw [State.ring_of_part hp]

/-! ## The shepherd decides (R329, R333) -/

/-- The workers whose votes a decision needs. -/
def State.workers (s : State) (c : Nat) : Nat := if s.solo c then 1 else s.jobSize

/-- Does a combined record commit the step? -/
def State.commits (s : State) (c : Nat) (r : VoteRec) : Bool := r.word = 0 && r.votes = s.workers c

/-- The members of its flock that a shepherd tells its decision. -/
def State.flock (s : State) : List Nat :=
  ((upto s.jobSize).map s.unlinear).filter fun x => x ≠ s.coord && s.sameFlock x s.coord

/-- The decision goes to the members of the flock, but in a job of one package. -/
def State.tellFlock (s : State) (c k : Nat) (commit : Bool) (flip : Nat) (snap : Bool) : State :=
  if s.solo c then s else s.flock.foldl (fun (s : State) x => s.sendTo x (.decision x k commit flip snap)) s

theorem State.tellFlock_part {p : Part} (h : p ∉ .out :: flitParts) (s : State) (c k : Nat) (commit : Bool) (flip : Nat) (snap : Bool) :
    (s.tellFlock c k commit flip snap).part p = s.part p :=
  State.part_ite (fun _ => rfl) fun _ => State.part_foldl (fun t _ => State.sendTo_part h t _ _ _ _) _ s

theorem State.out_foldl_sendTo (o : Nat → Output) (l : List Nat) (s : State) :
    (l.foldl (fun (s : State) x => s.sendTo x (o x)) s).out = s.out ++ l.map o := by
  induction l generalizing s with
  | nil => simp
  | cons x l ih => rw [List.foldl_cons, ih, State.sendTo_out, List.map_cons, List.append_assoc, List.singleton_append]

/-- A shepherd of a job of several packages tells each member of its flock. -/
theorem State.mem_out_tellFlock {s : State} {c x : Nat} (hs : s.solo c = false) (hx : x ∈ s.flock) (k : Nat) (commit : Bool) (flip : Nat)
    (snap : Bool) : .decision x k commit flip snap ∈ (s.tellFlock c k commit flip snap).out := by
  rw [State.tellFlock, if_neg (by rw [hs]; decide), State.out_foldl_sendTo]
  exact List.mem_append_right _ (List.mem_map_of_mem hx)

/-- The state in which a shepherd takes its own decision. -/
def State.decided (s : State) (c : Nat) (r : VoteRec) : State :=
  let commit := s.commits c r
  (s.setStp c { s.stp c with sent := some (s.rn .CTX_STEP c, commit) }).tellFlock c (s.rn .CTX_STEP c) commit
    (r.tick + (s.stp c).margin) (commit && s.snapFlag c)

theorem State.stp_decided (s : State) (c : Nat) (r : VoteRec) :
    (s.decided c r).stp c = { s.stp c with sent := some (s.rn .CTX_STEP c, s.commits c r) } := by
  rw [State.decided, State.stp_of_part (State.tellFlock_part (by decide) _ _ _ _ _ _), State.stp_setStp_self]

theorem State.flock_setStp (s : State) (c : Nat) (t : StepState) : (s.setStp c t).flock = s.flock := rfl

theorem State.solo_setStp (s : State) (c d : Nat) (t : StepState) : (s.setStp c t).solo d = s.solo d := rfl

theorem State.decided_part {p : Part} (h : p ∉ .step :: .out :: flitParts) (s : State) (c : Nat) (r : VoteRec) :
    (s.decided c r).part p = s.part p :=
  (State.tellFlock_part (Part.sub h) _ _ _ _ _ _).trans (State.setStp_part (Part.ne h) s c _)

section
variable {s : State} {c : Nat} {r : VoteRec}

theorem State.decide_leadless (h : s.led = false) : s.decide_ c = s := by
  unfold State.decide_
  dsimp only
  split
  · rfl
  · exact if_pos (.inr (.inr h))

section
variable (hr : (s.stp c).combined = some r) (hs : s.sstate c = 2) (hd : (s.stp c).decision = none) (hl : s.led = true)
include hr

theorem State.decidedWord_decided : (s.decided c r).decidedWord c = r.word := by
  rw [State.decidedWord, State.stp_decided, hr]
  rfl

include hs hd hl

theorem State.decide_eq : s.decide_ c =
    (s.decided c r).takeDecision c (s.commits c r) (r.tick + (s.stp c).margin) (s.commits c r && s.snapFlag c) := by
  have hgo : ¬(s.sstate c ≠ ssVoted ∨ (s.stp c).decision.isSome = true ∨ s.led = false) := by
    rw [hs, hd, hl]
    decide
  unfold State.decide_
  dsimp only
  split
  next hn => exact absurd (hr.symm.trans hn) nofun
  next q hq =>
    obtain rfl : r = q := Option.some.inj (hr.symm.trans hq)
    rw [if_neg hgo]
    rfl

theorem State.decide_part {p : Part} (h : p ∉ decisionParts ++ .out :: flitParts) : (s.decide_ c).part p = s.part p := by
  rw [State.decide_eq hr hs hd hl, State.takeDecision_part (Part.sub h), State.decided_part (Part.sub h)]

theorem State.decide_commit (hw : r.word = 0) (hv : r.votes = s.workers c) : (s.decide_ c).sstate c = 3 ∧ (s.decide_ c).mem = s.mem ∧
    (∃ d, ((s.decide_ c).stp c).decision = some d ∧ d.commit = true ∧ d.flip = r.tick + (s.stp c).margin) ∧
    (s.solo c = false → ∀ x ∈ s.flock,
      .decision x (s.rn .CTX_STEP c) true (r.tick + (s.stp c).margin) (s.snapFlag c) ∈ (s.decide_ c).out) ∧
    ∃ q, ((s.decide_ c).ring c).queue = (s.ring c).queue ++ [q] ∧ q.kind = 2 ∧ q.status = 0 ∧ q.aux = 1 ∧ q.tag = s.rn .CTX_STEP c := by
  have hc : s.commits c r = true := by rw [State.commits, hw, hv]; simp
  have hk {p : Part} (h : p ∉ decisionParts ++ .out :: flitParts) :
      ((s.decided c r).takeDecision c true (r.tick + (s.stp c).margin) (true && s.snapFlag c)).part p = s.part p :=
    (State.takeDecision_part (Part.sub h) ..).trans (State.decided_part (Part.sub h) s c r)
  rw [State.decide_eq hr hs hd hl, hc]
  obtain ⟨d, hdec, hcom, hflip, -⟩ := (s.decided c r).decision_takeDecision c true (r.tick + (s.stp c).margin) (true && s.snapFlag c)
  refine ⟨State.sstate_takeDecision_commit _ _ _ _, hk (p := .mem) (by decide), ⟨d, hdec, hcom, hflip⟩, fun hsolo x hx => ?_, ?_⟩
  · have ho : ((s.decided c r).takeDecision c true (r.tick + (s.stp c).margin) (true && s.snapFlag c)).out = (s.decided c r).out :=
      State.takeDecision_part (p := .out) (by decide) ..
    rw [ho, State.decided, hc, Bool.true_and]
    exact State.mem_out_tellFlock (by rwa [State.solo_setStp]) (by rwa [State.flock_setStp]) _ _ _ _
  · obtain ⟨q, hq, hkind, haux, htag, hst⟩ := (s.decided c r).queue_postStep c 1
    rw [State.ring_of_part (State.decided_part (by decide) s c r)] at hq
    rw [State.rn_of_part (State.decided_part (by decide) s c r)] at htag
    exact ⟨q, (State.queue_takeDecision ..).trans hq, hkind, hst, haux, htag⟩

theorem State.decide_abort (hw : r.word ≠ 0 ∨ r.votes ≠ s.workers c) : (s.decide_ c).sstate c = 2 ∧ (s.decide_ c).mem = s.mem ∧
    (∃ d, ((s.decide_ c).stp c).decision = some d ∧ d.commit = false) ∧
    ∃ q, ((s.decide_ c).ring c).queue = (s.ring c).queue ++ [q] ∧ q.kind = 2 ∧ q.aux = 2 ∧ q.status = s.voteStatus r.word ∧
      q.tag = s.rn .CTX_STEP c := by
  have hc : s.commits c r = false := by
    rw [State.commits, Bool.and_eq_false_iff]
    exact hw.imp decide_eq_false decide_eq_false
  rw [State.decide_eq hr hs hd hl, hc]
  obtain ⟨d, hdec, hcom, -⟩ := (s.decided c r).decision_takeDecision c false (r.tick + (s.stp c).margin) (false && s.snapFlag c)
  refine ⟨?_, ?_, ⟨d, hdec, hcom⟩, ?_⟩
  · rw [State.sstate_takeDecision_abort, State.sstate_of_part (State.decided_part (by decide) s c r), hs]
  · exact (State.takeDecision_part (p := .mem) (by decide) ..).trans (State.decided_part (p := .mem) (by decide) s c r)
  · obtain ⟨q, hq, hkind, haux, htag, hst⟩ := (s.decided c r).queue_postStep c 2
    rw [State.ring_of_part (State.decided_part (by decide) s c r)] at hq
    rw [State.rn_of_part (State.decided_part (by decide) s c r)] at htag
    have hfresh : (s.decided c r).fresh = s.fresh := State.decided_part (p := .fresh) (by decide) s c r
    have hv : (s.decided c r).voteStatus r.word = s.voteStatus r.word := by
      simp only [State.voteStatus, hfresh]
    rw [if_neg (by decide), if_neg (by decide), State.decidedWord_decided hr, hv] at hst
    exact ⟨q, (State.queue_takeDecision ..).trans hq, hkind, haux, hst, htag⟩

end
end

/-! ## Vote records of a job (R328) -/

/-- A vote record is kept under its sender's offset. -/
def State.keepVote (s : State) (c a off : Nat) (r : VoteRec) : State :=
  s.setStp c { s.stp c with got := (s.stp c).got ++ [(a, off, r)] }

/-- It is passed on until it has made the hops of its direction. -/
def State.passVote (s : State) (a : Nat) (plus : Bool) (hop : Nat) (r : VoteRec) : State :=
  if hop < voteHops (s.ring_ a) plus then (s.emit (.vote a plus (hop + 1) r)).txRole (2 * a + if plus then 0 else 1) else s

theorem State.passVote_part {p : Part} (h : p ∉ .out :: flitParts) (s : State) (a : Nat) (plus : Bool) (hop : Nat) (r : VoteRec) :
    (s.passVote a plus hop r).part p = s.part p :=
  State.part_ite (fun _ => (State.txRole_part (Part.sub h) _ _ _ _).trans (State.emit_part (Part.ne h) s _)) fun _ => rfl

theorem State.mem_out_passVote {s : State} {a hop : Nat} {plus : Bool} (h : hop < voteHops (s.ring_ a) plus) (r : VoteRec) :
    .vote a plus (hop + 1) r ∈ (s.passVote a plus hop r).out := by
  have ho : ((s.emit (.vote a plus (hop + 1) r)).txRole (2 * a + if plus then 0 else 1)).out = s.out ++ [.vote a plus (hop + 1) r] :=
    State.txRole_part (p := .out) (by decide) _ _ _ _
  rw [State.passVote, if_pos h, ho]
  exact List.mem_append_right _ List.mem_cons_self

/-- An axis without an own record waits. -/
theorem State.reduceVotes_none {s : State} {c a : Nat} (h : ∀ x ∈ (s.stp c).own, x.1 ≠ a) (fuel : Nat) : s.reduceVotes c fuel a = s := by
  cases fuel with
  | zero => rfl
  | succ fuel =>
    have hf : ((s.stp c).own.find? fun x => x.1 = a) = none := List.find?_eq_none.2 fun x hx => by simpa using h x hx
    unfold State.reduceVotes
    dsimp only
    rw [hf]
    rfl

/-- The other record of a last axis of two completes the job's record. -/
theorem State.reduceVotes_last {s : State} {c : Nat} {r0 r : VoteRec} (ho : (s.stp c).own.find? (fun x => x.1 = 3) = some (3, r0))
    (hn : s.ring_ 3 = 2) (hg : ((s.stp c).got.filter fun g => g.1 = 3) = [(3, 1, r)]) (fuel : Nat) :
    s.reduceVotes c (fuel + 1) 3 = s.setStp c { s.stp c with
      got := (s.stp c).got.filter fun g => g.1 ≠ 3, own := (s.stp c).own.filter fun x => x.1 ≠ 3
      combined := some (joinVote r0 r) } := by
  unfold State.reduceVotes
  dsimp only
  rw [ho, hn, hg]
  rfl

/-- The sizes of the rings are those of the job's dimensions. -/
theorem ring_of_dims {s t : State} (h : t.part (.reg .LNK_JOB_DIMS) = s.part (.reg .LNK_JOB_DIMS)) : t.ring_ = s.ring_ := by
  funext a
  rw [State.ring_, State.rn_of_part h, State.ring_]

section
variable {s : State} {c hop : Nat} {axis : Fin 4} {plus : Bool}

/-- The offset of the sender of a record, by its direction and its hops. -/
def voteOff (n : Nat) (plus : Bool) (hop : Nat) : Nat := if plus then (n - hop) % n else hop % n

theorem exec_voteRecord (hl : s.live = true) (hj : s.jobCtx = some c) (hjoin : s.joined = true) (h0 : 0 < hop)
    (hh : hop ≤ voteHops (s.ring_ axis.val) plus)
    (hg : ∀ g ∈ (s.stp c).got, ¬(g.1 = axis.val ∧ g.2.1 = voteOff (s.ring_ axis.val) plus hop)) (r : VoteRec) :
    exec (.voteRecord axis plus hop r) s = .next
      (((s.keepVote c axis.val (voteOff (s.ring_ axis.val) plus hop) r).passVote axis.val plus hop r).reduceVotes c 4 axis.val) := by
  have hin : (!s.joined || decide (hop = 0) || decide (voteHops (s.ring_ axis.val) plus < hop)) = false := by
    rw [hjoin, decide_eq_false (by omega), decide_eq_false (by omega)]
    rfl
  have hnew : ((s.stp c).got.any fun g => g.1 = axis.val && g.2.1 = voteOff (s.ring_ axis.val) plus hop) = false :=
    List.any_eq_false.2 fun g hm => by simpa using hg g hm
  refine (State.act_live _ hl).trans (congrArg _ ?_)
  rw [hj]
  exact (if_neg (by rw [hin]; decide)).trans (if_neg (by rw [← voteOff, hnew]; decide))

end

/-! ## Decision records (R330, R470) -/

section
variable {s : State} {c : Nat}

theorem exec_decisionRecord (hl : s.live = true) (hj : s.jobCtx = some c) (hjoin : s.joined = true) {step : DWord}
    (hs : s.sstate c = 2) (hd : (s.stp c).decision = none) (hk : step.toNat = s.rn .CTX_STEP c) (commit : Bool) (flip : DWord)
    (snap : Bool) : exec (.decisionRecord step commit flip snap) s = .next (s.takeDecision c commit flip.toNat snap) := by
  refine (State.act_live _ hl).trans (congrArg _ ?_)
  rw [hj]
  refine (if_neg (by rw [hjoin]; decide)).trans ((if_neg (by simpa using hk)).trans (if_neg ?_))
  rw [hs, hd]
  decide

theorem exec_decisionRecord_other (hl : s.live = true) (hj : s.jobCtx = some c) (hjoin : s.joined = true) {step : DWord}
    (hk : step.toNat ≠ s.rn .CTX_STEP c) (commit : Bool) (flip : DWord) (snap : Bool) :
    exec (.decisionRecord step commit flip snap) s = .next (s.sendFailure 12) := by
  refine (State.act_live _ hl).trans (congrArg _ ?_)
  rw [hj]
  exact (if_neg (by rw [hjoin]; decide)).trans (if_pos hk)

end

/-! ## An abort is applied (R330, R334) -/

section
variable {p : Part}

/-- What an undone non-finite record changes. -/
def decidedParts : List Part := [.num, .reg .NUM_CTX_NF_WHERE, .reg .NUM_CTX_NF_TENSOR, .reg .NUM_CTX_NF_BATCH, .reg .NUM_CTX_NF_STEP,
  .reg .NUM_CTX_NF_TICK, .reg .NUM_CTX_NF_COUNT]

theorem State.numDecided_part (h : p ∉ decidedParts) (s : State) (c k : Nat) (commit : Bool) :
    (s.numDecided c k commit).part p = s.part p := by
  unfold State.numDecided
  dsimp only
  split
  · exact State.setNm_part (Part.ne h) s _ _
  · refine (State.part_ite (s := s.setNm _ _) (fun _ => rfl) fun _ => ?_).trans (State.setNm_part (Part.ne h) s _ _)
    rw [State.wn_part (Part.ne h), State.wn_part (Part.ne h), State.wn_part (Part.ne h), State.wn_part (Part.ne h),
      State.wn_part (Part.ne h), State.wn_part (Part.ne h)]

theorem State.dropLeash_part (h : p ≠ .hrd) (s : State) (x : Nat) : (s.dropLeash x).part p = s.part p := State.setHrd_part h s _

theorem State.dropColLeashes_part (h : p ≠ .hrd) (hl : p ≠ .lnk) (s : State) : s.dropColLeashes.part p = s.part p := by
  rw [State.dropColLeashes, State.withLnk_part hl]
  exact State.part_foldl (fun t l => State.dropLeash_part h t _) _ s

theorem State.toIdle_part (h : p ≠ .step) (hr : p ≠ .reg .CTX_STEP_STATE) (s : State) (c : Nat) : (s.toIdle c).part p = s.part p := by
  rw [State.toIdle, State.put_part hr, State.setStp_part h]

/-- A replay that an abort ends, and the job's state that shows it. -/
def State.endReplay (s : State) (c : Nat) : State :=
  let s := if s.replaying c then
      ((s.setFlt { s.flt with replay := false }).put SNP_STATUS.diverged 0 1).put SNP_STATUS.state 0 (if s.flt.drain.isSome then 1 else 0)
    else s
  if s.get FLT_JOB_STATE.state = 4 ∧ s.flt.replay = false then s.put FLT_JOB_STATE.state 0 0 else s

theorem State.endReplay_part (h : p ∉ [Part.flt, .reg .SNP_STATUS, .reg .FLT_JOB_STATE]) (s : State) (c : Nat) :
    (s.endReplay c).part p = s.part p := by
  refine (State.part_ite (s := ite _ _ _) (fun _ => State.put_part (Part.ne h) _ _ _) fun _ => rfl).trans ?_
  refine State.part_ite (fun _ => ?_) fun _ => rfl
  rw [State.put_part (Part.ne h), State.put_part (Part.ne h), State.setFlt_part (Part.ne h)]

/-- A re-shard that has begun ends with the abort of its step. -/
def State.endMove (s : State) (c : Nat) : State :=
  match (s.stp c).reshard with
  | some r => if r.phase = ReshardPhase.held then s else s.setStp c { s.stp c with reshard := none }
  | none => s

theorem State.endMove_part (h : p ≠ .step) (s : State) (c : Nat) : (s.endMove c).part p = s.part p := by
  unfold State.endMove
  split
  · exact State.part_ite (fun _ => rfl) fun _ => State.setStp_part h s _ _
  · rfl

/-- The collective runs of the job's context end. -/
def State.endRuns (s : State) (c : Nat) : State :=
  if s.get LNK_JOB_CTX.context = c then
    let s := s.dropColLeashes
    { s with lnk := { s.lnk with runs := [], early := [] } }
  else s

theorem State.endRuns_part (h : p ≠ .hrd) (hl : p ≠ .lnk) (s : State) (c : Nat) : (s.endRuns c).part p = s.part p :=
  State.part_ite (fun _ => (State.withLnk_part hl _ _).trans (State.dropColLeashes_part h hl s)) fun _ => rfl

theorem State.applyAbort_eq (s : State) (c : Nat) : s.applyAbort c =
    (((((((s.numDecided c (s.rn .CTX_STEP c) false).bump .CTX_ABORTS c).endReplay c).endMove c).endRuns c).wn .CTX_PENDING_EPOCH c 0).toIdle c) :=
  rfl

/-- What an abort changes. -/
def abortParts : List Part := [.step, .hrd, .lnk, .flt, .reg .CTX_STEP_STATE, .reg .CTX_PENDING_EPOCH, .reg .CTX_ABORTS, .reg .MGT_SAT,
  .reg .SNP_STATUS, .reg .FLT_JOB_STATE] ++ decidedParts

theorem State.applyAbort_part (h : p ∉ abortParts) (s : State) (c : Nat) : (s.applyAbort c).part p = s.part p := by
  rw [State.applyAbort_eq, State.toIdle_part (Part.ne h) (Part.ne h), State.wn_part (Part.ne h),
    State.endRuns_part (Part.ne h) (Part.ne h), State.endMove_part (Part.ne h), State.endReplay_part (Part.sub h),
    State.bump_part (Part.ne h) (Part.ne h), State.numDecided_part (Part.sub h)]

end

theorem State.sstate_toIdle (s : State) (c : Nat) : (s.toIdle c).sstate c = 0 := State.sstate_put (by decide) _ c

theorem State.decision_toIdle (s : State) (c : Nat) : ((s.toIdle c).stp c).decision = none := by
  rw [State.toIdle, State.stp_of_part (State.put_part (by decide) _ _ _), State.stp_setStp_self]

theorem State.aborts_applyAbort (s : State) (c : Nat) :
    (s.applyAbort c).rn .CTX_ABORTS c = min (s.rn .CTX_ABORTS c + 1) (2 ^ 64 - 1) := by
  rw [State.applyAbort_eq, State.rn_of_part (State.toIdle_part (by decide) (by decide) _ _), State.rn_wn_of_ne (by decide),
    State.rn_of_part (State.endRuns_part (by decide) (by decide) _ _), State.rn_of_part (State.endMove_part (by decide) _ _),
    State.rn_of_part (State.endReplay_part (by decide) _ _), State.rn_bump_self _ _ _ _ (Reg.key_ne_of_ne (by decide) _ _),
    State.rn_of_part (State.numDecided_part (by decide) s _ _ _)]

/-- The selector lies beside the state in CTX_STEP_STATE: what an abort writes of it is the state alone. -/
theorem State.sel_applyAbort (s : State) (c : Nat) : (s.applyAbort c).get CTX_STEP_STATE.sel c = s.get CTX_STEP_STATE.sel c := by
  rw [State.applyAbort_eq, State.toIdle, State.get_put_apart (by rfl) (by decide),
    State.get_of_part (f := CTX_STEP_STATE.sel) (State.setStp_part (by decide) _ _ _), State.get_wn_of_ne (by decide),
    State.get_of_part (f := CTX_STEP_STATE.sel) (State.endRuns_part (by decide) (by decide) _ _),
    State.get_of_part (f := CTX_STEP_STATE.sel) (State.endMove_part (by decide) _ _),
    State.get_of_part (f := CTX_STEP_STATE.sel) (State.endReplay_part (by decide) _ _), State.get_bump_of_ne (by decide) (by decide),
    State.get_of_part (f := CTX_STEP_STATE.sel) (State.numDecided_part (by decide) s _ _ _)]

/-! ## The obligation -/

section
variable {s : State} {c hop : Nat} {axis : Fin 4} {plus : Bool} {r : VoteRec}

theorem voteRecord_waits (hl : s.live = true) (hj : s.jobCtx = some c) (hjoin : s.joined = true) (h0 : 0 < hop)
    (hh : hop ≤ voteHops (s.ring_ axis.val) plus)
    (hg : ∀ g ∈ (s.stp c).got, ¬(g.1 = axis.val ∧ g.2.1 = voteOff (s.ring_ axis.val) plus hop))
    (ho : ∀ x ∈ (s.stp c).own, x.1 ≠ axis.val) : Completes (.voteRecord axis plus hop r) s fun u =>
      (u.stp c).got = (s.stp c).got ++ [(axis.val, voteOff (s.ring_ axis.val) plus hop, r)] ∧ u.mem = s.mem ∧
      (hop < voteHops (s.ring_ axis.val) plus → .vote axis.val plus (hop + 1) r ∈ u.out) ∧
      (hop = voteHops (s.ring_ axis.val) plus → u.out = s.out) := by
  set k := s.keepVote c axis.val (voteOff (s.ring_ axis.val) plus hop) r with hk
  have hstp : (k.passVote axis.val plus hop r).stp c =
      { s.stp c with got := (s.stp c).got ++ [(axis.val, voteOff (s.ring_ axis.val) plus hop, r)] } :=
    (State.stp_of_part (State.passVote_part (by decide) k _ _ _ _) c).trans (State.stp_setStp_self _ _ _)
  have hred : (k.passVote axis.val plus hop r).reduceVotes c 4 axis.val = k.passVote axis.val plus hop r :=
    State.reduceVotes_none (fun x hx => by rw [hstp] at hx; exact ho x hx) 4
  refine ⟨k.passVote axis.val plus hop r, ?_, ?_, ?_, fun h => State.mem_out_passVote (s := k) h r, fun h => ?_⟩
  · rw [exec_voteRecord hl hj hjoin h0 hh hg, ← hk, hred]
  · rw [hstp]
  · exact (State.passVote_part (p := .mem) (by decide) k _ _ _ _).trans (State.setStp_part (p := .mem) (by decide) s c _)
  · rw [State.passVote, if_neg (by rw [h]; exact lt_irrefl _)]
    exact State.setStp_part (p := .out) (by decide) s c _

theorem voteRecord_completes {r0 : VoteRec} (hl : s.live = true) (hj : s.jobCtx = some c) (hjoin : s.joined = true) (h0 : 0 < hop)
    (hh : hop ≤ voteHops (s.ring_ 3) plus)
    (hg : ∀ g ∈ (s.stp c).got, ¬(g.1 = 3 ∧ g.2.1 = voteOff (s.ring_ 3) plus hop)) (hn : s.ring_ 3 = 2)
    (ho : (s.stp c).own.find? (fun x => x.1 = 3) = some (3, r0)) (hnew : ∀ g ∈ (s.stp c).got, g.1 ≠ 3) :
    Completes (.voteRecord 3 plus hop r) s fun u => (u.stp c).combined = some (joinVote r0 r) ∧ u.mem = s.mem := by
  obtain ⟨rfl, rfl⟩ : plus = true ∧ hop = 1 := by
    rw [hn] at hh
    cases plus
    · exact absurd h0 (Nat.not_lt.2 hh)
    · exact ⟨rfl, le_antisymm hh h0⟩
  set k := (s.keepVote c 3 (voteOff (s.ring_ 3) true 1) r).passVote 3 true 1 r with hk
  have hstp : k.stp c = { s.stp c with got := (s.stp c).got ++ [(3, 1, r)] } := by
    rw [hk, State.stp_of_part (State.passVote_part (by decide) _ _ _ _ _), hn]
    exact State.stp_setStp_self _ _ _
  have hold : ((s.stp c).got.filter fun g => g.1 = 3) = [] := List.filter_eq_nil_iff.2 fun g hm => by simpa using hnew g hm
  have hred := State.reduceVotes_last (s := k) (c := c) (r0 := r0) (r := r) (by rw [hstp]; exact ho)
    ((congrFun (ring_of_dims (State.passVote_part (by decide) _ _ _ _ _)) 3).trans hn)
    (by rw [hstp, List.filter_append, hold]; rfl) 3
  refine ⟨_, exec_voteRecord (axis := 3) hl hj hjoin h0 hh hg r, ?_⟩
  change ((k.reduceVotes c 4 3).stp c).combined = _ ∧ (k.reduceVotes c 4 3).mem = _
  rw [hred]
  refine ⟨by rw [State.stp_setStp_self], ?_⟩
  exact (State.setStp_part (p := .mem) (by decide) k c _).trans ((State.passVote_part (p := .mem) (by decide) _ _ _ _ _).trans
    (State.setStp_part (p := .mem) (by decide) s c _))

end

/-- Settles O35: the records of a ring by the reduction's step, decisions by what `takeDecision` keeps, and an abort by the frames of
its parts. -/
theorem votesAndDecisionsOfAJob : Obligations.VotesAndDecisionsOfAJob := by
  intro s hl
  refine ⟨fun c axis plus hop r hj hjoin h0 hh hg => ⟨fun ho => voteRecord_waits hl hj hjoin h0 hh hg ho, ?_⟩, fun c r hsh hr hs hd => ?_,
    fun c step flip snap hj hjoin => ?_, fun c => ?_⟩
  · rintro r0 rfl hn ho hnew
    exact voteRecord_completes hl hj hjoin h0 hh hg hn ho hnew
  · have hex : exec (.shepherdDecision c) s = .next (s.decide_ c.val) := by
      refine (State.act_live _ hl).trans (congrArg _ (if_pos ?_))
      rwa [Bool.or_eq_true]
    refine ⟨fun hled => by rw [hex, State.decide_leadless hled], fun hled => ⟨fun hw hv => ?_, fun hw => ?_⟩⟩
    · obtain ⟨hst, hmem, hdec, hout, -⟩ := State.decide_commit hr hs hd hled hw hv
      refine ⟨_, hex, hst, hmem, hdec, fun hsolo n hn hne hfl => ⟨_, hout hsolo _ ?_⟩⟩
      refine List.mem_filter.2 ⟨List.mem_map_of_mem (List.mem_range.2 hn), ?_⟩
      rw [hfl, decide_eq_true hne, Bool.and_self]
    · obtain ⟨hst, hmem, hdec, q, hq, hkind, haux, hstat, -⟩ := State.decide_abort hr hs hd hled hw
      exact ⟨_, hex, hst, hmem, hdec, q, hq, hkind, haux, hstat⟩
  · refine ⟨fun commit hk => exec_decisionRecord_other hl hj hjoin hk commit flip snap, ?_, fun hk hs hd => ?_⟩
    · rw [State.sendFailure, State.sendTo_out]
      exact List.mem_append_right _ List.mem_cons_self
    · refine ⟨⟨_, exec_decisionRecord hl hj hjoin hs hd hk true flip snap, ?_⟩,
        ⟨_, exec_decisionRecord hl hj hjoin hs hd hk false flip snap, ?_⟩⟩
      · obtain ⟨d, hdec, hcom, hflip, -⟩ := s.decision_takeDecision c true flip.toNat snap
        exact ⟨State.sstate_takeDecision_commit s c _ _, State.takeDecision_part (p := .mem) (by decide) .., d, hdec, hcom, hflip⟩
      · obtain ⟨d, hdec, hcom, -, htick⟩ := s.decision_takeDecision c false flip.toNat snap
        exact ⟨(State.sstate_takeDecision_abort s c _ _).trans hs, State.takeDecision_part (p := .mem) (by decide) ..,
          State.rn_of_part (State.takeDecision_part (by decide) ..) c, d, hdec, hcom, htick⟩
  · exact ⟨State.sstate_toIdle _ _, State.applyAbort_mem s c, State.decision_toIdle _ _, State.aborts_applyAbort s c,
      State.rn_of_part (State.applyAbort_part (by decide) s c) _, State.sel_applyAbort s c⟩

end Sys2Proof.Machine
end

