-- ==== Sys2Proof/Proofs/TrainingSteps.lean ====
section
/-! A training step: its record, its vote, its deadline (R312 to R316, R327, R333). -/

namespace Sys2Proof.Machine
open Sys2Proof

section
variable {p : Part}

/-! ## Accesses of an engine (R284) -/

/-- A fold over pairs that leaves a part of the states alone leaves it alone. -/
theorem State.part_foldl_fst {α β : Type} {f : State × β → α → State × β} (h : ∀ x a, (f x a).1.part p = x.1.part p) (l : List α)
    (x : State × β) : (l.foldl f x).1.part p = x.1.part p := by
  induction l generalizing x with
  | nil => rfl
  | cons a l ih => rw [List.foldl_cons, ih, h]

theorem State.engRead_part (h : p ∉ readAccessParts) (s : State) (c a n : Nat) : (s.engRead c a n).1.part p = s.part p := by
  unfold State.engRead
  dsimp only
  split
  · refine State.part_foldl_fst (fun x q => ?_) _ (s, some [])
    split
    · rfl
    · have hr (r : Requester) (lo len : Nat) : (x.1.serveRead r lo len).1.part p = x.1.part p := State.serveRead_part h ..
      split
      next he => exact (congrArg (fun y : State × Reply => y.1.part p) he).symm.trans (hr _ _ _)
      next he => exact (congrArg (fun y : State × Reply => y.1.part p) he).symm.trans (hr _ _ _)
  · rfl

theorem State.engWrite_part (h : p ∉ accessParts) (s : State) (c a : Nat) (bs : List Byte) (shadow : Bool) :
    (s.engWrite c a bs shadow).part p = s.part p := by
  unfold State.engWrite
  split
  · refine State.part_foldl (fun t q => ?_) _ s
    dsimp only
    split
    · exact State.serve_part h ..
    · split
      · exact State.poke_part (Part.sub h) ..
      · exact State.poke_part (Part.sub h) ..
      · rfl
  · rfl

/-! ## The parts of a step's start (R299, R313, R380, R435, R464) -/

theorem State.spineLeash_part (h : p ≠ .hrd) (s : State) (c vid n : Nat) (t : SpineTarget) :
    (s.spineLeash c vid n t).1.part p = s.part p := by
  unfold State.spineLeash State.setLeash
  split
  · rfl
  · split
    · rfl
    · split
      · rfl
      · exact State.setHrd_part h s _

theorem State.startSentinel_part (h : p ≠ .flt) (s : State) (c k M : Nat) (B : Tag) : (s.startSentinel c k M B).part p = s.part p :=
  State.part_ite (fun _ => State.setFlt_part h s _) fun _ => rfl

theorem State.startCollectives_part (h : p ≠ .hrd) (hl : p ≠ .lnk) (s : State) (c : Nat) :
    (s.startCollectives c).part p = s.part p := by
  refine State.part_ite (fun _ => ?_) fun _ => rfl
  exact (State.part_foldl (fun t e => State.spineLeash_part h t _ _ _ _) _ _).trans (State.dropColLeashes_part h hl s)

/-- What a start of the movers changes. -/
def moverParts : List Part := .fin :: .reg .FIN_STATUS :: readAccessParts

theorem State.startMovers_part (h : p ∉ moverParts) (s : State) (c a : Nat) (b : Bool) : (s.startMovers c a b).part p = s.part p := by
  unfold State.startMovers
  dsimp only
  rw [State.showFin_part (Part.ne h), State.setFin_part (Part.ne h), State.engRead_part (Part.sub h), State.engRead_part (Part.sub h)]

/-! ## The start of a step (R313) -/

/-- A step that starts: its vote word, its start tick and its leash. -/
def State.stepLeashed (s : State) (c : Nat) (r : List Byte) : State × Nat × Option Nat :=
  let s := (s.clearVote c).wn .CTX_STEP_START c (s.jobTick c)
  let s : State := { s with noc := { s.noc with spilled := s.noc.spilled.filter fun e => e.2 ≠ c } }
  s.spineLeash c (recEndVid r) (recEndCount r) (.step c)

/-- What a step keeps of its record and of the settings at its start. -/
def State.stepTaken (s : State) (c : Nat) (r : List Byte) (h : Option Nat) : StepState :=
  { s.stp c with
    next := 0, record := r, digests := s.stepDigests c r, leash := h
    deadline := if recDeadline r = 0 then none else some (s.now + usTicks (recDeadline r))
    margin := s.marginOf c, timeout := s.timeoutOf c
    barked := (s.stp c).barked && h.isNone, readyTick := s.now, closed := false
    items := s.batchItems c r, item := 0, decision := none, combined := none, own := [] }

/-- The state that shows the step running. -/
def State.stepShown (s : State) (c : Nat) (r : List Byte) : State :=
  let x := s.stepLeashed c r
  ((x.1.setStp c (x.1.stepTaken c r x.2.2)).put CTX_STEP_STATE.state c ssRunning).put CTX_STEP_STATE.microbatches c (recM r)

/-- The engines that start with a step of number k. -/
def State.stepEngines (s : State) (c k : Nat) (r : List Byte) : State :=
  let s := s.setBnd { s.bnd with keys := (s.regionsOf c).foldl (fun m p => spSet 0 m p (s.genKey c)) s.bnd.keys }
  let s := s.setNm c { s.nm c with off := s.get NUM_CTX_MAP_STATUS.state c ≠ 2 }
  ((s.startMovers c (recSizes r) false).startSentinel c k (recM r) (BitVec.ofNat 16 (s.rn .CTX_TAG_BASE c))).startCollectives c

theorem State.startStep_eq (s : State) (c : Nat) (r : List Byte) : s.startStep c r =
    let s := (s.stepShown c r).stepEngines c (s.rn .CTX_STEP c) r
    if s.tableHalt c then (s.postEvent c stBAD_DESCRIPTOR ((s.stepSet c).headD 0)).haltSet c else s := rfl

/-- What the engines of a step change as it starts. -/
def engineParts : List Part := .bnd :: .num :: .flt :: .hrd :: .lnk :: moverParts

theorem State.stepEngines_part (h : p ∉ engineParts) (s : State) (c k : Nat) (r : List Byte) :
    (s.stepEngines c k r).part p = s.part p := by
  unfold State.stepEngines
  dsimp only
  rw [State.startCollectives_part (Part.ne h) (Part.ne h), State.startSentinel_part (Part.ne h), State.startMovers_part (Part.sub h),
    State.setNm_part (Part.ne h), State.setBnd_part (Part.ne h)]

theorem State.stepLeashed_part (h : p ∉ [Part.reg .CTX_HEALTH, .reg .CTX_STEP_START, .noc, .hrd]) (s : State) (c : Nat)
    (r : List Byte) : (s.stepLeashed c r).1.part p = s.part p := by
  unfold State.stepLeashed
  dsimp only
  rw [State.spineLeash_part (Part.ne h), State.withNoc_part (Part.ne h), State.wn_part (Part.ne h), State.clearVote,
    State.put_part (Part.ne h)]

theorem State.stepShown_part (h : p ∉ [Part.step, .reg .CTX_STEP_STATE, .reg .CTX_HEALTH, .reg .CTX_STEP_START, .noc, .hrd])
    (s : State) (c : Nat) (r : List Byte) : (s.stepShown c r).part p = s.part p := by
  unfold State.stepShown
  dsimp only
  rw [State.put_part (Part.ne h), State.put_part (Part.ne h), State.setStp_part (Part.ne h), State.stepLeashed_part (Part.sub h)]

/-- What the start of a step changes. -/
def stepParts : List Part :=
  .step :: .noc :: .reg .CTX_STEP_STATE :: .reg .CTX_HEALTH :: .reg .CTX_STEP_START :: engineParts

theorem State.tableHalt_of_parts {s t : State} (hf : t.part (.reg .FIN_CTX_TABLE_STATUS) = s.part (.reg .FIN_CTX_TABLE_STATUS))
    (hj : t.part (.reg .LNK_JOB_CTX) = s.part (.reg .LNK_JOB_CTX)) (hc : t.part (.reg .COL_STATUS) = s.part (.reg .COL_STATUS))
    (c : Nat) : t.tableHalt c = s.tableHalt c := by
  rw [State.tableHalt, State.tableHalt, State.get_of_part (f := FIN_CTX_TABLE_STATUS.state) hf,
    State.get_of_part (f := LNK_JOB_CTX.context) hj, State.get_of_part (f := COL_STATUS.state) hc]

end

theorem State.jobTick_lt (s : State) (c : Nat) : s.jobTick c < 2 ^ 64 := by
  unfold State.jobTick
  split
  · exact s.rn_lt _ _
  · exact s.rn_lt _ _

section
variable {s : State} {c : Nat} {r : List Byte}

/-- A step of a context whose tables are good starts without a halt. -/
theorem State.startStep_running (h : s.tableHalt c = false) :
    s.startStep c r = (s.stepShown c r).stepEngines c (s.rn .CTX_STEP c) r := by
  have ht : ((s.stepShown c r).stepEngines c (s.rn .CTX_STEP c) r).tableHalt c = s.tableHalt c :=
    State.tableHalt_of_parts ((State.stepEngines_part (by decide) _ _ _ _).trans (State.stepShown_part (by decide) s c r))
      ((State.stepEngines_part (by decide) _ _ _ _).trans (State.stepShown_part (by decide) s c r))
      ((State.stepEngines_part (by decide) _ _ _ _).trans (State.stepShown_part (by decide) s c r)) c
  rw [State.startStep_eq]
  exact if_neg (by rw [ht, h]; decide)

variable (h : s.tableHalt c = false)
include h

theorem State.startStep_part {p : Part} (hp : p ∉ stepParts) : (s.startStep c r).part p = s.part p := by
  rw [State.startStep_running h, State.stepEngines_part (Part.sub hp), State.stepShown_part (Part.sub hp)]

theorem State.stp_startStep : ((s.startStep c r).stp c).record = r ∧ ((s.startStep c r).stp c).closed = false := by
  have hp : (s.startStep c r).part .step =
      ((s.stepLeashed c r).1.setStp c ((s.stepLeashed c r).1.stepTaken c r (s.stepLeashed c r).2.2)).part .step := by
    rw [State.startStep_running h, State.stepEngines_part (by decide), State.stepShown]
    exact (State.put_part (by decide) _ _ _).trans (State.put_part (by decide) _ _ _)
  rw [State.stp_of_part hp, State.stp_setStp_self]
  exact ⟨rfl, rfl⟩

theorem State.state_startStep (hM : recM r < 2 ^ 13) :
    (s.startStep c r).sstate c = 1 ∧ (s.startStep c r).get CTX_STEP_STATE.microbatches c = recM r := by
  have hp : (s.startStep c r).part (.reg .CTX_STEP_STATE) = (s.stepShown c r).part (.reg .CTX_STEP_STATE) := by
    rw [State.startStep_running h, State.stepEngines_part (by decide)]
  refine ⟨?_, ?_⟩
  · rw [State.sstate_of_part hp, State.sstate, State.stepShown, State.get_put_apart (by rfl) (by decide)]
    exact State.sstate_put (by decide) _ c
  · rw [State.get_of_part (f := CTX_STEP_STATE.microbatches) hp]
    exact State.get_put_fits (by decide) (by decide) hM _ _

theorem State.startTick_startStep : (s.startStep c r).rn .CTX_STEP_START c = s.jobTick c := by
  have hp : (s.startStep c r).part (.reg .CTX_STEP_START) = (s.stepLeashed c r).1.part (.reg .CTX_STEP_START) := by
    rw [State.startStep_running h, State.stepEngines_part (by decide), State.stepShown]
    exact (State.put_part (by decide) _ _ _).trans ((State.put_part (by decide) _ _ _).trans (State.setStp_part (by decide) _ _ _))
  rw [State.rn_of_part hp]
  unfold State.stepLeashed
  dsimp only
  rw [State.rn_of_part (State.spineLeash_part (by decide) _ _ _ _ _), State.rn_of_part (State.withNoc_part (by decide) _ _),
    State.rn_wn_self, Nat.mod_eq_of_lt (State.jobTick_lt s c)]

end

/-! ## The STEP record (R312, R316) -/

section
variable {s : State} {c : Ctx} {cookie : DWord} {irq : Bool} {record : List Byte}

theorem exec_step_held (hl : s.live = true) (h : s.stepHeld c.val = true) : exec (.step (.ring c cookie irq) record) s = .next s :=
  (State.act_live _ hl).trans (congrArg _ (if_pos h))

/-- A step that is not held is sampled, and applied at its tick. -/
theorem atTick_step {P : State → Prop} (hl : s.live = true) (hlead : s.leads = true) (h : s.stepHeld c.val = false)
    (hP : P (State.applyStep (.ring c cookie irq) record s)) : AtTick (.step (.ring c cookie irq) record) s 9 (s.ctxSrc c.val) P := by
  refine ⟨(State.act_live _ hl).trans (congrArg _ (if_neg (by rw [Issuer.ctxNum]; simp [h]))), ?_⟩
  have hr : s.ringHeld (.ring c cookie irq) = false := by
    simp only [State.stepHeld, Bool.or_eq_false_iff] at h
    exact h.1.1.1.2
  rwa [State.handleRow_ring (x := c) (cookie := cookie) (irq := irq) (op := 1) rfl (by rw [hr, Bool.and_false]) hlead]

theorem State.jobTick_of_parts {s t : State} (hs : t.part (.reg .LNK_STATUS) = s.part (.reg .LNK_STATUS))
    (hj : t.part (.reg .LNK_JOB_CTX) = s.part (.reg .LNK_JOB_CTX)) (hl : t.part (.reg .LNK_TICK) = s.part (.reg .LNK_TICK))
    (hm : t.part (.reg .MGT_TICK) = s.part (.reg .MGT_TICK)) (c : Nat) : t.jobTick c = s.jobTick c := by
  rw [State.jobTick, State.jobTick, State.flag_of_part (f := LNK_STATUS.joined) hs, State.get_of_part (f := LNK_JOB_CTX.context) hj,
    State.rn_of_part hl, State.rn_of_part hm]

/-- An accepted record has a number of microbatches in its range. -/
theorem recM_le_of_judge {c : Nat} (h : s.judgeStep c record = 0) : recM record ≤ 4096 := by
  by_contra hM
  rw [State.judgeStep, if_pos (by simp; omega)] at h
  exact absurd h (by decide)

/-- A judged record's command has begun; a mismatch with the journal is counted. -/
def State.judged (s : State) (iss : Issuer) (st : Nat) : State :=
  if st = stJOURNAL_MISMATCH then (s.began iss 0x01).bump .SNP_JOURNAL_MISMATCH else s.began iss 0x01

theorem applyStep_judged (hheld : s.stepHeld c.val = false) : State.applyStep (.ring c cookie irq) record s =
    (if s.judgeStep c.val record = stOK then
      (s.judged (.ring c cookie irq) (s.judgeStep c.val record)).startStep c.val record
    else s.judged (.ring c cookie irq) (s.judgeStep c.val record)).complete (.ring c cookie irq) 0x01 (s.judgeStep c.val record) :=
  if_neg (by rw [Issuer.ctxNum]; simp [hheld])

theorem applyStep_starts (hheld : s.stepHeld c.val = false) (hj : s.judgeStep c.val record = 0) (ht : s.tableHalt c.val = false) :
    let u := State.applyStep (.ring c cookie irq) record s
    (u.mem = s.mem ∧ ∃ r, (u.ring c.val).queue = (s.ring c.val).queue ++ [r] ∧ r.kind = 0 ∧ r.status = 0 ∧ r.aux = 0x01 ∧
      r.tag = cookie.toNat) ∧ u.sstate c.val = 1 ∧
      u.get CTX_STEP_STATE.microbatches c.val = recM record ∧ (u.stp c.val).record = record ∧ (u.stp c.val).closed = false ∧
      u.rn .CTX_STEP_START c.val = s.jobTick c.val ∧ u.rn .CTX_STEP c.val = s.rn .CTX_STEP c.val ∧ u.cores = s.cores := by
  set b := s.began (.ring c cookie irq) 0x01 with hb
  have hbegan {p : Part} (h : p ≠ .ctx) : b.part p = s.part p := State.began_part h s _ _
  have htb : b.tableHalt c.val = false := by
    rw [State.tableHalt_of_parts (hbegan (by decide)) (hbegan (by decide)) (hbegan (by decide)), ht]
  have hu : State.applyStep (.ring c cookie irq) record s =
      (b.startStep c.val record).complete (.ring c cookie irq) 0x01 stOK := by
    rw [applyStep_judged hheld, hj, if_pos (show 0 = stOK from rfl), State.judged, if_neg (by decide)]
    rfl
  have hc {p : Part} (h : p ≠ .ctx) : ((b.startStep c.val record).complete (.ring c cookie irq) 0x01 stOK).part p =
      (b.startStep c.val record).part p := State.complete_part h ..
  rw [hu]
  obtain ⟨hst, hmb⟩ := State.state_startStep htb (r := record) (by have := recM_le_of_judge hj; omega)
  obtain ⟨hrec, hcl⟩ := State.stp_startStep htb (r := record)
  refine ⟨⟨?_, ringRecord cookie irq 0x01 stOK 0, ?_, rfl, rfl, rfl, rfl⟩, ?_, ?_, ?_, ?_, ?_, ?_, ?_⟩
  · exact (hc (p := .mem) (by decide)).trans ((State.startStep_mem b _ _).trans (hbegan (p := .mem) (by decide)))
  · rw [State.queue_complete, State.ring_of_part (State.startStep_part htb (by decide)), hb, State.queue_began]
  · rw [State.sstate_of_part (hc (by decide)), hst]
  · rw [State.get_of_part (f := CTX_STEP_STATE.microbatches) (hc (by decide)), hmb]
  · rw [State.stp_of_part (hc (by decide)), hrec]
  · rw [State.stp_of_part (hc (by decide)), hcl]
  · rw [State.rn_of_part (hc (by decide)), State.startTick_startStep htb,
      State.jobTick_of_parts (hbegan (by decide)) (hbegan (by decide)) (hbegan (by decide)) (hbegan (by decide))]
  · rw [State.rn_of_part (hc (by decide)), State.rn_of_part (State.startStep_part htb (by decide)), State.rn_of_part (hbegan (by decide))]
  · exact (hc (p := .cores) (by decide)).trans ((State.startStep_part (p := .cores) htb (by decide)).trans
      (hbegan (p := .cores) (by decide)))

theorem applyStep_refuses (hheld : s.stepHeld c.val = false) (hj : s.judgeStep c.val record ≠ 0) :
    let u := State.applyStep (.ring c cookie irq) record s
    (u.mem = s.mem ∧ ∃ r, (u.ring c.val).queue = (s.ring c.val).queue ++ [r] ∧ r.kind = 0 ∧ r.status = s.judgeStep c.val record ∧
      r.aux = 0x01 ∧ r.tag = cookie.toNat) ∧ u.sstate c.val = s.sstate c.val ∧ u.step = s.step ∧ u.cores = s.cores := by
  set b := s.began (.ring c cookie irq) 0x01 with hb
  set st := s.judgeStep c.val record with hst
  set m := s.judged (.ring c cookie irq) st with hm
  have hu : State.applyStep (.ring c cookie irq) record s = m.complete (.ring c cookie irq) 0x01 st := by
    rw [applyStep_judged hheld, ← hst, if_neg (show st ≠ stOK from hj), hm]
  have hmb {p : Part} (h : p ∉ [Part.reg .SNP_JOURNAL_MISMATCH, .reg .MGT_SAT]) : m.part p = b.part p :=
    State.part_ite (fun _ => State.bump_part (Part.ne h) (Part.ne h) ..) fun _ => rfl
  have hc {p : Part} (h : p ∉ [Part.ctx, .reg .SNP_JOURNAL_MISMATCH, .reg .MGT_SAT]) :
      (m.complete (.ring c cookie irq) 0x01 st).part p = s.part p :=
    (State.complete_part (Part.ne h) ..).trans ((hmb (Part.sub h)).trans (State.began_part (Part.ne h) s _ _))
  rw [hu]
  refine ⟨⟨hc (p := .mem) (by decide), ringRecord cookie irq 0x01 st 0, ?_, rfl, rfl, rfl, rfl⟩, State.sstate_of_part (hc (by decide)) _,
    hc (p := .step) (by decide), hc (p := .cores) (by decide)⟩
  rw [State.queue_complete, State.ring_of_part (hmb (by decide)), hb, State.queue_began]

end

/-! ## The vote (R314, R327, R333) -/

section
variable {p : Part}

/-- What the numerics block's part of a vote changes. -/
def numVoteParts : List Part := .num :: .reg .NUM_OVER_SCALE :: accessParts

theorem State.numVote_part (h : p ∉ numVoteParts) (s : State) (c k word tick : Nat) (copy : Bool) :
    (s.numVote c k word tick copy).part p = s.part p := by
  unfold State.numVote
  dsimp only
  rw [State.setNm_part (Part.ne h), State.engWrite_part (Part.sub h)]
  refine State.part_foldl (fun t o => ?_) _ s
  refine (State.part_ite (s := match t.blockAddr c o.1 2 with | some a => t.engWrite c a o.2.1 true | none => t)
    (fun _ => State.bump_part (Part.ne h) (Part.ne h) _ _ _) fun _ => rfl).trans ?_
  split
  · exact State.engWrite_part (Part.sub h) _ _ _ _ _
  · rfl

/-- The leash of the step goes with its vote. -/
def State.endLeash (s : State) (c : Nat) : State :=
  match (s.stp c).leash with
  | some h => s.dropLeash h
  | none => s

theorem State.endLeash_part (h : p ≠ .hrd) (s : State) (c : Nat) : (s.endLeash c).part p = s.part p := by
  unfold State.endLeash
  split
  · exact State.dropLeash_part h s _
  · rfl

/-- The vote tick is shown and the statistics of the step are written. -/
def State.voteStats (s : State) (c : Nat) (word : Nat) (reshard : Bool) : State :=
  let s := s.endLeash c
  (s.wn .CTX_VOTE_TICK c (s.jobTick c)).numVote c (s.rn .CTX_STEP c) word (s.jobTick c) reshard

theorem State.voteStats_part (h : p ∉ .hrd :: .reg .CTX_VOTE_TICK :: numVoteParts) (s : State) (c word : Nat) (b : Bool) :
    (s.voteStats c word b).part p = s.part p := by
  rw [State.voteStats, State.numVote_part (Part.sub h), State.wn_part (Part.ne h), State.endLeash_part (Part.ne h)]

/-- A step that is complete advances the tag base past its microbatches. -/
def State.advanceTags (s : State) (c word M : Nat) (reshard : Bool) : State :=
  if bitAt word vbIncomplete || reshard then s else s.wn .CTX_TAG_BASE c ((s.rn .CTX_TAG_BASE c + M) % 65536)

theorem State.advanceTags_part (h : p ≠ .reg .CTX_TAG_BASE) (s : State) (c word M : Nat) (b : Bool) :
    (s.advanceTags c word M b).part p = s.part p :=
  State.part_ite (fun _ => rfl) fun _ => State.wn_part h s _ _

/-- The state of a package that votes. -/
def State.votes (s : State) (c : Nat) (reshard : Bool) : State :=
  let word := s.get CTX_HEALTH.local_ c
  let M := s.get CTX_STEP_STATE.microbatches c
  ((((s.voteStats c word reshard).advanceTags c word M reshard).stopMovers c).stopSentinel c).put CTX_STEP_STATE.state c ssVoted

/-- What a vote changes. -/
def voteParts : List Part := .hrd :: .fin :: .flt :: .reg .CTX_VOTE_TICK :: .reg .CTX_TAG_BASE :: .reg .FIN_STATUS ::
  .reg .CTX_STEP_STATE :: numVoteParts

theorem State.votes_part (h : p ∉ voteParts) (s : State) (c : Nat) (b : Bool) : (s.votes c b).part p = s.part p := by
  rw [State.votes, State.put_part (Part.ne h), State.stopSentinel_part (Part.ne h), State.stopMovers_part (Part.ne h) (Part.ne h),
    State.advanceTags_part (Part.ne h), State.voteStats_part (Part.sub h)]

end

theorem State.solo_of_parts {s t : State} (hs : t.part (.reg .LNK_STATUS) = s.part (.reg .LNK_STATUS))
    (hj : t.part (.reg .LNK_JOB_CTX) = s.part (.reg .LNK_JOB_CTX)) (c : Nat) : t.solo c = s.solo c := by
  rw [State.solo, State.solo, State.joined, State.flag_of_part (f := LNK_STATUS.joined) hs,
    State.get_of_part (f := LNK_JOB_CTX.context) hj, State.joined]

/-- A package's own vote record. -/
def State.voteOf (s : State) (c word : Nat) (reshard : Bool) : VoteRec :=
  { step := s.rn .CTX_STEP c, word := word, votes := 1, tick := s.jobTick c
    layout := if reshard then s.rn .CTX_PENDING_EPOCH c else s.rn .CTX_LAYOUT_EPOCH c }

/-- A package alone in its job has its own record for the job's. -/
def State.votesAlone (s : State) (c : Nat) (word : Nat) (reshard : Bool) : State :=
  s.setStp c { s.stp c with
    leash := none, barked := false, items := [], deadline := none, voteTick := s.now, combined := some (s.voteOf c word reshard) }

section
variable {s : State} {c : Ctx}

theorem exec_stepVote_waits (hl : s.live = true) (hr : s.voteReady c.val = false) : exec (.stepVote c) s = .next s :=
  (State.act_live _ hl).trans (congrArg _ (if_pos (by rw [hr, Bool.not_false, Bool.or_true])))

theorem exec_stepVote_solo (hl : s.live = true) (hs : s.sstate c.val = 1) (hr : s.voteReady c.val = true) (hsolo : s.solo c.val = true) :
    exec (.stepVote c) s = .next (((s.votes c.val false).votesAlone c.val (s.get CTX_HEALTH.local_ c.val) false).decide_ c.val) := by
  have hopen : s.stepOpen c.val = true := by rw [State.stepOpen, hs]; rfl
  have hmove : decide (s.sstate c.val = ssResharding) = false := by rw [hs]; rfl
  have hv : (s.votes c.val false).solo c.val = true :=
    (State.solo_of_parts (State.votes_part (by decide) s _ _) (State.votes_part (by decide) s _ _) _).trans hsolo
  refine (State.act_live _ hl).trans (congrArg _ ((if_neg (by rw [hopen, hr]; decide)).trans ?_))
  dsimp only
  rw [hmove]
  exact if_pos hv

/-- The state in which a package alone in its job decides. -/
def State.solely (s : State) (c : Nat) : State := (s.votes c false).votesAlone c (s.get CTX_HEALTH.local_ c) false

theorem State.solely_part {p : Part} (h : p ∉ .step :: voteParts) (s : State) (c : Nat) : (s.solely c).part p = s.part p :=
  (State.setStp_part (Part.ne h) _ _ _).trans (State.votes_part (Part.sub h) s c false)

theorem State.stp_solely (s : State) (c : Nat) : (s.solely c).stp c =
    { s.stp c with
      leash := none, barked := false, items := [], deadline := none, voteTick := (s.votes c false).now
      combined := some ((s.votes c false).voteOf c (s.get CTX_HEALTH.local_ c) false) } := by
  rw [State.solely, State.votesAlone, State.stp_setStp_self, State.stp_of_part (State.votes_part (by decide) s c false)]

theorem State.sstate_solely (s : State) (c : Nat) : (s.solely c).sstate c = 2 :=
  (State.sstate_of_part (State.setStp_part (by decide) _ _ _) c).trans (State.sstate_put (by decide) _ c)

theorem State.workers_solely {s : State} {c : Nat} (h : s.solo c = true) : (s.solely c).workers c = 1 := by
  rw [State.workers, State.solo_of_parts (State.solely_part (by decide) s c) (State.solely_part (by decide) s c), if_pos h]

theorem State.jobTick_votes (s : State) (c : Nat) (b : Bool) : (s.votes c b).jobTick c = s.jobTick c :=
  State.jobTick_of_parts (State.votes_part (by decide) s c b) (State.votes_part (by decide) s c b) (State.votes_part (by decide) s c b)
    (State.votes_part (by decide) s c b) c

theorem State.voteTick_solely (s : State) (c : Nat) : (s.solely c).rn .CTX_VOTE_TICK c = s.jobTick c := by
  have hp : (s.solely c).part (.reg .CTX_VOTE_TICK) =
      ((s.endLeash c).wn .CTX_VOTE_TICK c ((s.endLeash c).jobTick c)).part (.reg .CTX_VOTE_TICK) := by
    refine (State.setStp_part (by decide) _ _ _).trans ?_
    rw [State.votes, State.put_part (by decide), State.stopSentinel_part (by decide), State.stopMovers_part (by decide) (by decide),
      State.advanceTags_part (by decide), State.voteStats, State.numVote_part (by decide)]
  rw [State.rn_of_part hp, State.rn_wn_self, Nat.mod_eq_of_lt (State.jobTick_lt _ c)]
  exact State.jobTick_of_parts (State.endLeash_part (by decide) s c) (State.endLeash_part (by decide) s c)
    (State.endLeash_part (by decide) s c) (State.endLeash_part (by decide) s c) c

theorem State.tagBase_solely {s : State} {c : Nat} (hw : s.get CTX_HEALTH.local_ c = 0) : (s.solely c).rn .CTX_TAG_BASE c =
    (s.rn .CTX_TAG_BASE c + s.get CTX_STEP_STATE.microbatches c) % 65536 := by
  have hp : (s.solely c).part (.reg .CTX_TAG_BASE) = ((s.voteStats c 0 false).advanceTags c 0
      (s.get CTX_STEP_STATE.microbatches c) false).part (.reg .CTX_TAG_BASE) := by
    refine (State.setStp_part (by decide) _ _ _).trans ?_
    rw [State.votes, State.put_part (by decide), State.stopSentinel_part (by decide), State.stopMovers_part (by decide) (by decide), hw]
  have h0 : (bitAt 0 vbIncomplete || false) = false := by decide
  rw [State.rn_of_part hp, State.advanceTags, h0, if_neg (by decide), State.rn_wn_self,
    State.rn_of_part (State.voteStats_part (by decide) s c 0 false)]
  omega

variable (hd : (s.stp c.val).decision = none) (hled : s.led = true)
include hd hled

/-- It has the job's record, and nothing keeps it from its decision. -/
theorem State.solely_ready : ((s.solely c.val).stp c.val).combined =
      some ((s.votes c.val false).voteOf c.val (s.get CTX_HEALTH.local_ c.val) false) ∧ (s.solely c.val).sstate c.val = 2 ∧
    ((s.solely c.val).stp c.val).decision = none ∧ (s.solely c.val).led = true :=
  ⟨by rw [State.stp_solely], State.sstate_solely s _, by rw [State.stp_solely]; exact hd,
    (State.flag_of_part (f := MGT_STATUS.led) (State.solely_part (by decide) s _) 0).trans hled⟩

theorem solely_commits (hsolo : s.solo c.val = true) (hw : s.get CTX_HEALTH.local_ c.val = 0) : let u := (s.solely c.val).decide_ c.val
    u.sstate c.val = 3 ∧ u.rn .CTX_VOTE_TICK c.val = s.jobTick c.val ∧
      (∃ d, (u.stp c.val).decision = some d ∧ d.commit = true ∧ d.flip = s.jobTick c.val + (s.stp c.val).margin) ∧
      u.rn .CTX_TAG_BASE c.val = (s.rn .CTX_TAG_BASE c.val + s.get CTX_STEP_STATE.microbatches c.val) % 65536 ∧
      ∃ r, (u.ring c.val).queue = (s.ring c.val).queue ++ [r] ∧ r.kind = 2 ∧ r.status = 0 ∧ r.aux = 1 ∧
        r.tag = s.rn .CTX_STEP c.val := by
  obtain ⟨hr, hs, hdec, hl⟩ := State.solely_ready hd hled
  obtain ⟨hst, -, ⟨d, hd, hcom, hflip⟩, -, q, hq, hk, hstat, haux, htag⟩ :=
    State.decide_commit hr hs hdec hl hw (State.workers_solely hsolo).symm
  refine ⟨hst, ?_, ⟨d, hd, hcom, ?_⟩, ?_, q, ?_, hk, hstat, haux, ?_⟩
  · rw [State.rn_of_part (State.decide_part hr hs hdec hl (by decide)), State.voteTick_solely]
  · rw [hflip, State.stp_solely]
    exact congrArg (· + (s.stp c.val).margin) (State.jobTick_votes s _ false)
  · rw [State.rn_of_part (State.decide_part hr hs hdec hl (by decide)), State.tagBase_solely hw]
  · rw [hq, State.ring_of_part (State.solely_part (by decide) s _)]
  · rw [htag, State.rn_of_part (State.solely_part (by decide) s _)]

theorem solely_aborts (hw : s.get CTX_HEALTH.local_ c.val ≠ 0) : let u := (s.solely c.val).decide_ c.val
    u.sstate c.val = 2 ∧ (∃ d, (u.stp c.val).decision = some d ∧ d.commit = false) ∧
      ∃ r, (u.ring c.val).queue = (s.ring c.val).queue ++ [r] ∧ r.kind = 2 ∧ r.aux = 2 ∧ r.tag = s.rn .CTX_STEP c.val := by
  obtain ⟨hr, hs, hdec, hl⟩ := State.solely_ready hd hled
  obtain ⟨hst, -, hex, q, hq, hk, haux, -, htag⟩ := State.decide_abort hr hs hdec hl (.inl hw)
  refine ⟨hst, hex, q, ?_, hk, haux, ?_⟩
  · rw [hq, State.ring_of_part (State.solely_part (by decide) s _)]
  · rw [htag, State.rn_of_part (State.solely_part (by decide) s _)]

end

/-! ## The deadline (R315) -/

section
variable {s : State} {c : Nat}

theorem rstate_haltOf {s : State} {q : Nat} (h : s.runs q = true) : (if s.runs q then s.haltCores q else s).rstate q = rsHalted := by
  rw [if_pos h]
  exact State.rstate_haltCores s q

theorem halts_haltOf (s : State) (q : Nat) : Halts s (if s.runs q then s.haltCores q else s) := by
  split
  next h => exact halts_haltCores h
  next => exact .refl s

/-- A halt of each region of a list halts those that compute. -/
theorem rstate_foldl_haltOf {l : List Nat} {q : Nat} (hq : q ∈ l) {s : State} (h : s.runs q = true ∨ s.rstate q = rsHalted) :
    (l.foldl (fun (s : State) p => if s.runs p then s.haltCores p else s) s).rstate q = rsHalted := by
  induction l generalizing s with
  | nil => nomatch hq
  | cons p l ih =>
    rw [List.foldl_cons]
    have hrest := Halts.foldl (f := fun (s : State) p => if s.runs p then s.haltCores p else s) halts_haltOf l
    rcases h with h | h
    · rcases List.mem_cons.1 hq with rfl | hl
      · exact (hrest _).halted (rstate_haltOf h)
      · rcases (halts_haltOf s p).1 q with hs | ⟨-, hs⟩
        · exact ih hl (.inl (by rw [State.runs_of_rstate hs, h]))
        · exact (hrest _).halted hs
    · exact (hrest _).halted ((halts_haltOf s p).halted h)

/-- The regions of the step bind set that compute halt. -/
theorem State.rstate_haltSet {q : Nat} (hq : q ∈ s.stepSet c) (h : s.runs q = true) : (s.haltSet c).rstate q = rsHalted := by
  refine rstate_foldl_haltOf hq ?_
  rcases (halts_closeStep s c).1 q with hs | ⟨-, hs⟩
  · exact .inl (by rw [State.runs_of_rstate hs, h])
  · exact .inr hs

theorem State.closed_haltSet (ho : s.stepOpen c = true) (hc : (s.stp c).closed = false) : ((s.haltSet c).stp c).closed = true := by
  have hcores (t : State) (q : Nat) : (t.haltCores q).part .step = t.part .step := State.haltCores_part (by decide) (by decide) t q
  have hp : (s.haltSet c).part .step = (s.closeStep c).part .step :=
    State.part_foldl (fun t q => State.part_ite (fun _ => hcores t q) fun _ => rfl) _ _
  have hq : (s.closeStep c).part .step = ((s.voteBit c vbIncomplete).setStp c { s.stp c with closed := true }).part .step := by
    rw [State.closeStep_eq, if_pos (by rw [ho, hc]; rfl)]
    exact State.part_foldl (fun t q => State.part_ite (fun _ => hcores t q) fun _ => rfl) _ _
  rw [State.stp_of_part (hp.trans hq), State.stp_setStp_self]

end

section
variable {s : State} {c : Ctx} {d : Nat}

theorem exec_stepDeadline_early (hl : s.live = true) (hd : (s.stp c.val).deadline = some d) (h : s.now + 1 < d) :
    exec (.stepDeadline c) s = .next s := by
  refine (State.act_live _ hl).trans (congrArg _ (if_neg ?_))
  rw [hd]
  simpa using h

theorem stepDeadline_closes (hl : s.live = true) (hd : (s.stp c.val).deadline = some d) (hs : s.sstate c.val = 1) (hn : d ≤ s.now)
    (hr : s.voteReady c.val = false) (hb : (s.stp c.val).barked = false) (hh : s.barksHeld c.val = false) :
    OnceAtTick (.stepDeadline c) s 11 ((s.stepSet c.val).headD 0) fun u => (u.stp c.val).closed = true ∧
      (∀ p ∈ s.stepSet c.val, s.runs p = true → u.rstate p = 4) ∧ u.mem = s.mem := by
  have hclosed : (s.stp c.val).closed = false := (Bool.or_eq_false_iff.1 hr).1
  have hwork : s.workDone c.val = false := by rw [State.workDone, hb, Bool.false_and]
  have hu : s.handleRow (.stepDeadline c) = s.haltSet c.val := by
    change State.applyStepDeadline c s = _
    unfold State.applyStepDeadline
    dsimp only
    rw [hd]
    exact if_pos ⟨hs, hn, hclosed, hwork, hh⟩
  refine ⟨(State.act_live _ hl).trans (congrArg _ (if_pos ?_)), ?_⟩
  · rw [hd]
    simpa using Nat.le_succ_of_le hn
  · rw [hu]
    exact ⟨State.closed_haltSet (by rw [State.stepOpen, hs]; rfl) hclosed, fun q hq hrun => State.rstate_haltSet hq hrun,
      State.haltSet_mem s _⟩

end

/-- Settles O34: a step's start through the frames of the engines it starts, its vote through the decision of a package alone, and its
deadline by what a halt leaves halted. -/
theorem stepStartsVotesAndEnds : Obligations.StepStartsVotesAndEnds := by
  refine ⟨fun s c cookie irq record hl hlead => ⟨fun hh => exec_step_held hl hh, fun hh hj ht => ?_, fun hh hj => ?_⟩,
    fun s c hl => ⟨fun hs hr hsolo hd hled => ⟨fun hw => ?_, fun hw => ?_⟩, fun _ hr => exec_stepVote_waits hl hr,
      fun d hd => ⟨exec_stepDeadline_early hl hd, fun hs hn hr hb hh => stepDeadline_closes hl hd hs hn hr hb hh⟩⟩⟩
  · exact atTick_step hl hlead hh (applyStep_starts hh hj ht)
  · exact atTick_step hl hlead hh (applyStep_refuses hh hj)
  · exact ⟨_, exec_stepVote_solo hl hs hr hsolo, solely_commits hd hled hsolo hw⟩
  · exact ⟨_, exec_stepVote_solo hl hs hr hsolo, solely_aborts hd hled hw⟩

end Sys2Proof.Machine
end

