-- ==== Sys2Proof/Proofs/FenceFrames.lean ====
section
/-! The registers of the fences: what the effects of a fence leave alone (R23 to R30, R39, R159, R173, R210, R221, R273). -/

namespace Sys2Proof.Machine
open Sys2Proof

/-- The registers of the fences of cores, routers and stacks, and the count of strikes. -/
def faultRegs : List Part := [.reg .FLT_CORE_FENCE, .reg .FLT_ROUTER_FENCE, .reg .FLT_STRIKES, .reg .MEM_STATUS]

theorem Part.ne_of_mem {p q : Part} (h : p ∈ faultRegs) (hq : q ∉ faultRegs := by decide) : p ≠ q := fun e => hq (e ▸ h)

theorem Part.not_mem_of_mem {p : Part} {D : List Part} (h : p ∈ faultRegs) (hd : ∀ q ∈ faultRegs, q ∉ D := by decide) : p ∉ D := hd p h

/-- Bit u of a register of bits, 32 to a copy. -/
def State.bitOf (s : State) (r : Reg) (u : Nat) : Bool := bitAt (s.rn r (u / 32)) (u % 32)

/-- Set bit u of a register of bits. -/
def State.setBit (s : State) (r : Reg) (u : Nat) : State := s.wn r (u / 32) (putBits (s.rn r (u / 32)) (u % 32) (u % 32) 1)

/-- Every core of a die is marked. -/
def State.setDie (s : State) (d : Nat) : State :=
  (upto 32).foldl (fun (s : State) i => s.wn .FLT_CORE_FENCE (32 * d + i) (2 ^ 32 - 1)) s

/-! ## A fetch slot that stops (R236) -/

section
variable {p : Part}

/-- What a fetch slot that stops changes. -/
def stopParts : List Part := .reg .FCH_SLOT_FAULT_ADDR :: fslotParts ++ recordParts

theorem State.settle_part (h : p ∉ stopParts) (s : State) (i : Nat) : (s.settle i).part p = s.part p := by
  unfold State.settle
  dsimp only
  split
  · refine State.part_ite (fun _ => rfl) fun _ => ?_
    refine (State.part_ite (s := State.fchRecord _ _ _ _ _) (fun _ => State.emptyFslot_part (Part.sub h) _ _) fun _ => rfl).trans ?_
    rw [State.fchRecord_part (Part.sub h), State.put_part (Part.ne h), State.wn_part (Part.ne h),
      State.setFslot_part (Part.ne h) (Part.ne h), State.unleash_part (Part.sub h)]
  · rfl

theorem State.fchError_part (h : p ∉ stopParts) (s : State) (i st a : Nat) : (s.fchError i st a).part p = s.part p := by
  unfold State.fchError
  exact State.part_ite (fun _ => rfl) fun _ => (State.settle_part h _ i).trans (State.setFslot_part (Part.ne h) (Part.ne h) s i _)

end

section
variable {p : Part} (h : p ∈ faultRegs)
include h

/-! ## Regions and their steps -/

theorem State.voteBit_faultReg (s : State) (c b : Nat) : (s.voteBit c b).part p = s.part p :=
  State.voteBit_part (Part.ne_of_mem h) (Part.ne_of_mem h) s c b

theorem State.fenceBit_faultReg (s : State) (q : Nat) : (s.fenceBit q).part p = s.part p :=
  State.part_ite (fun _ => State.voteBit_faultReg h s _ _) fun _ => rfl

theorem State.sendFailure_faultReg (s : State) (row : Nat) : (s.sendFailure row).part p = s.part p :=
  State.sendTo_part (Part.not_mem_of_mem h) s _ _ _ _

theorem State.fenceHalt_faultReg (s : State) (q : Nat) : (s.fenceHalt q).part p = s.part p :=
  have hc : (s.haltCtx q stFENCED).part p = s.part p := State.haltCtx_part (Part.not_mem_of_mem h) s q _
  State.part_ite (fun _ => (State.sendFailure_faultReg h _ _).trans hc) fun _ => hc

theorem State.dieHealth_faultReg (s : State) : s.dieHealth.part p = s.part p := by
  unfold State.dieHealth
  split
  · rw [State.sendFailure_faultReg h, State.voteBit_faultReg h]
  · rfl

theorem State.reject_faultReg (s : State) (r : Reject) (x : Nat) : (s.reject r x).part p = s.part p := by
  unfold State.reject
  refine (State.part_ite (s := s.bump .BND_REJECTS) (fun _ => rfl) fun _ => ?_).trans
    (State.bump_part (Part.ne_of_mem h) (Part.ne_of_mem h) s _ _)
  rw [State.put_part (Part.ne_of_mem h), State.put_part (Part.ne_of_mem h), State.put_part (Part.ne_of_mem h),
    State.put_part (Part.ne_of_mem h), State.put_part (Part.ne_of_mem h), State.put_part (Part.ne_of_mem h)]

theorem State.abandonLoad_faultReg (s : State) (o : BindOp) (st : Nat) : (s.abandonLoad o st).part p = s.part p := by
  rw [State.abandonLoad, State.endBind_part (Part.ne_of_mem h)]
  refine (State.part_foldl (fun t q => State.flushRegion_part (Part.not_mem_of_mem h) t q) _ _).trans ?_
  refine (State.part_ite (s := s.setBnd _) (fun _ => rfl) fun _ => ?_).trans (State.setBnd_part (Part.ne_of_mem h) s _)
  split
  · exact State.reject_faultReg h _ _ _
  · exact State.reject_faultReg h _ _ _

theorem State.abandonUnfit_faultReg (s : State) : s.abandonUnfit.part p = s.part p := by
  refine State.part_foldl (fun t o => ?_) _ s
  split
  · refine State.part_ite (fun _ => ?_) fun _ => rfl
    have ha := State.abandonLoad_faultReg h t o stFENCED
    exact State.part_ite (fun _ => (State.closeStep_part (Part.not_mem_of_mem h) _ _).trans ha) fun _ => ha
  · rfl

/-! ## Cores -/

theorem State.loseSlot_faultReg (s : State) (t : Token) : (s.loseSlot t).part p = s.part p :=
  State.part_ite (fun _ => State.withFch_part (Part.ne_of_mem h) s _) fun _ => rfl

theorem State.loseSaving_faultReg (s : State) (k : Nat) : (s.loseSaving k).part p = s.part p :=
  State.part_foldl (fun t _ => State.withCtx_part (Part.ne_of_mem h) t _) _ s

omit h in
theorem State.withNocFchHrd_part (hn : p ≠ .noc) (hf : p ≠ .fch) (hh : p ≠ .hrd) (s : State) (n : NocState) (f : FchState)
    (x : HrdState) : ({ s with noc := n, fch := f, hrd := x } : State).part p = s.part p := by
  cases p with
  | noc => exact absurd rfl hn
  | fch => exact absurd rfl hf
  | hrd => exact absurd rfl hh
  | _ => rfl

theorem State.discardCore_faultReg (s : State) (k : Nat) (load : Bool) : (s.discardCore k load).part p = s.part p := by
  rw [State.discardCore, State.setCore_part (Part.ne_of_mem h), State.loseSaving_faultReg h, State.setCaptures,
    State.setFlt_part (Part.ne_of_mem h)]
  refine (State.withNocFchHrd_part (Part.ne_of_mem h) (Part.ne_of_mem h) (Part.ne_of_mem h) _ _ _ _).trans ?_
  refine (State.part_foldl (fun t x => State.loseSlot_faultReg h t x) _ _).trans ?_
  rw [State.discard_part (Part.ne_of_mem h) (Part.ne_of_mem h), State.endWait_part (Part.ne_of_mem h)]

theorem State.discardCores_faultReg (s : State) (cl : Nat) : (s.discardCores cl).part p = s.part p :=
  State.part_foldl (fun t _ => State.discardCore_faultReg h t _ _) _ s

theorem State.setPhys_faultReg (s : State) (k : Nat) (x : Option Nat) : (s.setPhys k x).part p = s.part p := by
  rw [State.setPhys, State.put_part (Part.ne_of_mem h), State.put_part (Part.ne_of_mem h), State.wn_part (Part.ne_of_mem h)]

theorem State.unmap_faultReg (s : State) (cl : Nat) (ls : List Nat) : (s.unmap cl ls).part p = s.part p :=
  State.part_foldl (fun t _ => State.setPhys_faultReg h t _ _) ls s

theorem State.rename_faultReg (s : State) (cl l : Nat) (load : Bool) : (s.rename cl l load).part p = s.part p := by
  unfold State.rename
  dsimp only
  split
  · rw [State.setPhys_faultReg h, State.discardCore_faultReg h, State.unmap_faultReg h, State.discardCore_faultReg h]
  · rw [State.setPhys_faultReg h, State.discardCore_faultReg h]
  · rw [State.unmap_faultReg h, State.discardCore_faultReg h]

theorem State.countCluster_faultReg (s : State) (cl : Nat) : (s.countCluster cl).part p = s.part p := by
  rw [State.countCluster, State.put_part (Part.ne_of_mem h), State.put_part (Part.ne_of_mem h), State.put_part (Part.ne_of_mem h)]

/-! ## Routers -/

theorem State.tellFenced_faultReg (s : State) (t : Token) : (s.tellFenced t).part p = s.part p := by
  unfold State.tellFenced
  split
  · exact State.withNoc_part (Part.ne_of_mem h) s _
  · exact State.fchError_part (Part.not_mem_of_mem h) s _ _ _
  · rfl

theorem State.dropFenced_faultReg (s : State) (n : Nat) (t : Token) (cl : Nat) : (s.dropFenced n t cl).part p = s.part p := by
  rw [State.dropFenced, State.refuseTok, State.tellFenced_faultReg h, State.discard_part (Part.ne_of_mem h) (Part.ne_of_mem h),
    State.dropTok, State.withNoc_part (Part.ne_of_mem h)]

theorem State.loseFlying_faultReg (s : State) (cl : Nat) : (s.loseFlying cl).part p = s.part p := by
  refine State.part_foldl (fun t x => State.part_ite (fun _ => ?_) fun _ => rfl) _ s
  dsimp only
  split
  · exact State.dropFenced_faultReg h _ _ _ _
  · rfl

theorem State.clearRouter_faultReg (s : State) (cl : Nat) : (s.clearRouter cl).part p = s.part p := by
  rw [State.clearRouter, State.showSpill_part (Part.ne_of_mem h)]
  refine (State.part_foldl (fun t x => State.endHold_part (Part.not_mem_of_mem h) t x _) _ _).trans ?_
  rw [State.withNoc_part (Part.ne_of_mem h), State.endWait_part (Part.ne_of_mem h), State.discard_part (Part.ne_of_mem h) (Part.ne_of_mem h)]

/-! ## Stacks and pages (R269, R272, R273, R285) -/

theorem State.poisonSub_faultReg (s : State) (pg b : Nat) : (s.poisonSub pg b).part p = s.part p :=
  State.part_ite (fun _ => State.withMt_part (Part.ne_of_mem h) s _) fun _ => State.withMt_part (Part.ne_of_mem h) s _

theorem State.poolLoss_faultReg (s : State) (i : Nat) : (s.poolLoss i).part p = s.part p := by
  unfold State.poolLoss
  refine State.part_ite (fun _ => rfl) fun _ => ?_
  dsimp only
  refine (State.part_foldl (fun t m => State.endHeld_part (Part.not_mem_of_mem h) t _) _ _).trans ?_
  refine (State.part_foldl (fun t m => State.endTier_part (Part.ne_of_mem h) (Part.ne_of_mem h) t _ _) _ _).trans ?_
  rw [State.emptySlot_part (Part.ne_of_mem h) (Part.ne_of_mem h), State.withMt_part (Part.ne_of_mem h),
    State.bump_part (Part.ne_of_mem h) (Part.ne_of_mem h)]
  exact State.part_foldl (fun t b => State.poisonSub_faultReg h t _ b) _ s

theorem State.discardPoolWrites_faultReg (s : State) (f : Nat → Bool) : (s.discardPoolWrites f).part p = s.part p := by
  unfold State.discardPoolWrites
  dsimp only
  refine (State.part_foldl (fun t x => ?_) _ _).trans (State.withMt_part (Part.ne_of_mem h) s _)
  rw [State.answer_part (Part.ne_of_mem h)]
  refine State.part_foldl (fun t c => ?_) _ t
  split
  · exact State.put_part (Part.ne_of_mem h) t _ _
  · rfl

theorem State.lostPages_faultReg (s : State) (f : Nat → Bool) : (s.lostPages f).part p = s.part p := by
  have hv (l : List Nat) : (l.foldl (fun (s : State) c => s.voteBit c vbFence) s).part p = s.part p :=
    State.part_foldl (fun t c => State.voteBit_faultReg h t c _) l s
  unfold State.lostPages
  dsimp only
  split
  · exact (State.part_ite (fun _ => State.sendFailure_faultReg h _ _) fun _ => rfl).trans (hv _)
  · exact hv _

/-! ## What the fence of a unit does to the registers of the fences is the write of its own bit -/

theorem State.fenceStack_shown (s : State) (k cause : Nat) (hf : s.stackFenced k = false) :
    (s.fenceStack k cause).part p = (s.put MEM_STATUS.fenced 0 (s.get MEM_STATUS.fenced ||| 2 ^ k)).part p := by
  unfold State.fenceStack
  rw [if_neg (by rw [hf]; decide)]
  dsimp only
  rw [State.recordFault_part (Part.ne_of_mem h), State.lostPages_faultReg h]
  refine (State.part_ite (s := List.foldl _ _ _) (fun _ => State.classify_part (Part.ne_of_mem h) _ _ _) fun _ => rfl).trans ?_
  refine (State.part_foldl (fun t i => State.poolLoss_faultReg h t i) _ _).trans ?_
  exact State.discardPoolWrites_faultReg h _ _

theorem State.fenceStack_faultReg (hm : p ≠ .reg .MEM_STATUS) (s : State) (k cause : Nat) : (s.fenceStack k cause).part p = s.part p := by
  cases hf : s.stackFenced k with
  | true => rw [State.fenceStack, if_pos hf]
  | false => rw [State.fenceStack_shown h s k cause hf, State.put_part hm]

theorem State.fenceRouter_shown (s : State) (cl cause : Nat) (hf : s.fencedRouter cl = false) :
    (s.fenceRouter cl cause).part p = (s.setBit .FLT_ROUTER_FENCE cl).part p := by
  unfold State.fenceRouter
  rw [if_neg (by rw [hf]; decide)]
  dsimp only
  rw [State.abandonUnfit_faultReg h, State.fenceHalt_faultReg h, State.countCluster_faultReg h, State.unmap_faultReg h,
    State.discardCores_faultReg h, State.clearRouter_faultReg h, State.loseFlying_faultReg h, State.fenceBit_faultReg h,
    State.recordFault_part (Part.ne_of_mem h), State.put_part (Part.ne_of_mem h), State.setBit]

theorem State.fenceRouter_faultReg (hr : p ≠ .reg .FLT_ROUTER_FENCE) (s : State) (cl cause : Nat) :
    (s.fenceRouter cl cause).part p = s.part p := by
  cases hf : s.fencedRouter cl with
  | true => rw [State.fenceRouter, if_pos hf]
  | false => rw [State.fenceRouter_shown h s cl cause hf, State.setBit, State.wn_part hr]

theorem State.fenceCore_shown (s : State) (u cause : Nat) (hf : s.fencedCore (u / 16) (u % 16) = false) :
    (s.fenceCore u cause).part p = (s.setBit .FLT_CORE_FENCE u).part p := by
  have hhalt (t : State) (c : Prop) [Decidable c] (q : Nat) : (if c then t.fenceHalt q else t).part p = t.part p :=
    State.part_ite (fun _ => State.fenceHalt_faultReg h t q) fun _ => rfl
  unfold State.fenceCore
  dsimp only
  rw [if_neg (by rw [hf]; decide), State.abandonUnfit_faultReg h, hhalt, State.countCluster_faultReg h]
  have hbit : (((s.setBit .FLT_CORE_FENCE u).recordFault 0 2 cause u).fenceBit (u / 16 / 16)).part p =
      (s.setBit .FLT_CORE_FENCE u).part p := by
    rw [State.fenceBit_faultReg h, State.recordFault_part (Part.ne_of_mem h)]
  refine Eq.trans ?_ hbit
  refine State.part_ite (fun _ => ?_) fun _ => ?_
  · exact (State.unmap_faultReg h _ _ _).trans (State.discardCores_faultReg h _ _)
  · split
    · exact State.rename_faultReg h _ _ _ _
    · rfl

theorem State.fenceDieCores_shown (s : State) (d : Nat) : (s.fenceDieCores d).part p = (s.setDie d).part p := by
  rw [State.fenceDieCores, State.abandonUnfit_faultReg h]
  refine (State.part_foldl (fun t q => State.haltCtx_part (Part.not_mem_of_mem h) t _ _) _ _).trans ?_
  refine (State.part_foldl (fun t c => ?_) _ _).trans ?_
  · rw [State.countCluster_faultReg h, State.unmap_faultReg h, State.discardCores_faultReg h]
  · exact State.part_foldl (fun t q => State.fenceBit_faultReg h t _) _ _

theorem State.beginTest_faultReg (s : State) (kind index : Nat) : (s.beginTest kind index).part p = s.part p := by
  rw [State.beginTest, State.showTesting, State.leadMode, State.put_part (Part.ne_of_mem h), State.put_part (Part.ne_of_mem h),
    State.setFlt_part (Part.ne_of_mem h), State.bump_part (Part.ne_of_mem h) (Part.ne_of_mem h)]

theorem State.loseHerding_faultReg (s : State) (d : Nat) : (s.loseHerding d).part p = s.part p := by
  unfold State.loseHerding
  refine State.part_ite (fun _ => rfl) fun _ => ?_
  dsimp only
  rw [State.showHrd_part (Part.ne_of_mem h), State.setHrd_part (Part.ne_of_mem h)]

end

end Sys2Proof.Machine
end

