-- ==== Sys2Proof/Proofs/FaultReports.lean ====
section
/-! Fault reports: strikes and fences of units (R23, R25, R272, R273, R428, R457, R460). -/

namespace Sys2Proof.Machine
open Sys2Proof

/-! ## Bits of a register -/

theorem bitAt_eq_bits (v n : Nat) : bitAt v n = decide (bits v n n = 1) := by
  rw [bitAt, bits, show n + 1 - n = 1 by omega, pow_one]

theorem bitAt_eq_testBit (v n : Nat) : bitAt v n = v.testBit n := by
  rw [bitAt, Nat.testBit_eq_decide_div_mod_eq]

theorem bitAt_putBits (v u w f : Nat) : bitAt (putBits v u u f) w = if w = u then decide (f % 2 = 1) else bitAt v w := by
  rw [bitAt_eq_bits]
  split
  next h => rw [h, bits_putBits, show u + 1 - u = 1 by omega, pow_one]
  next h =>
    rw [bitAt_eq_bits]
    rcases Nat.lt_or_gt_of_ne h with hlt | hgt
    · rw [bits_putBits_below _ _ _ _ _ _ hlt]
    · rw [bits_putBits_above _ _ _ _ _ _ le_rfl hgt]

theorem State.bitOf_setBit (s : State) (r : Reg) (u v : Nat) : (s.setBit r u).bitOf r v = (decide (v = u) || s.bitOf r v) := by
  rw [State.bitOf, State.setBit]
  by_cases hw : v / 32 = u / 32
  · rw [hw, State.rn_wn_self, Nat.mod_eq_of_lt (putBits_lt _ _ _ _ le_rfl (by omega) (s.rn_lt _ _)), bitAt_putBits]
    by_cases hb : v % 32 = u % 32
    · rw [if_pos hb, decide_eq_true (show v = u by omega)]
      rfl
    · rw [if_neg hb, decide_eq_false (show ¬v = u by omega), Bool.false_or, State.bitOf, hw]
  · rw [State.rn_wn_ne _ _ _ _ _ _ (Reg.key_ne_of_index_ne hw), decide_eq_false (show ¬v = u by omega), Bool.false_or, State.bitOf]

theorem State.bitOf_of_part {s t : State} {r : Reg} (h : t.part (.reg r) = s.part (.reg r)) (u : Nat) : t.bitOf r u = s.bitOf r u := by
  rw [State.bitOf, State.rn_of_part h, State.bitOf]

/-- Marks that each step of a fold adds to are there for every element when it ends. -/
theorem marked_foldl {f : State → Nat → State} {g : Nat → Nat} {P : State → Nat → Bool} {l : List Nat}
    (h : ∀ s, ∀ a ∈ l, ∀ x, P (f s a) x = (decide (x = g a) || P s x)) {a : Nat} (ha : a ∈ l) (s : State) :
    P (l.foldl f s) (g a) = true := by
  have hkeep (m : List Nat) (hm : m ⊆ l) (x : Nat) : ∀ t, P t x = true → P (m.foldl f t) x = true := by
    induction m with
    | nil => exact fun _ ht => ht
    | cons b m ih =>
      intro t ht
      refine ih (fun y hy => hm (List.mem_cons_of_mem b hy)) _ ?_
      rw [h t b (hm List.mem_cons_self), ht, Bool.or_true]
  obtain ⟨l1, l2, rfl⟩ := List.append_of_mem ha
  rw [List.foldl_append, List.foldl_cons]
  refine hkeep l2 (fun y hy => List.mem_append_right _ (List.mem_cons_of_mem a hy)) _ _ ?_
  rw [h _ a ha, decide_eq_true rfl, Bool.true_or]

/-! ## What a fence marks -/

theorem State.fencedCore_eq (s : State) (cl q : Nat) : s.fencedCore cl q = s.bitOf .FLT_CORE_FENCE (16 * cl + q) := rfl

theorem State.fencedRouter_eq (s : State) (cl : Nat) : s.fencedRouter cl = s.bitOf .FLT_ROUTER_FENCE cl := rfl

theorem State.fencedCore_fenceCore {s : State} {u : Nat} (hf : s.fencedCore (u / 16) (u % 16) = false) (cause : Nat) :
    (s.fenceCore u cause).fencedCore (u / 16) (u % 16) = true := by
  rw [State.fencedCore_eq, State.bitOf_of_part (State.fenceCore_shown (by decide) s u cause hf), State.bitOf_setBit,
    decide_eq_true (Nat.div_add_mod u 16), Bool.true_or]

theorem State.fencedRouter_fenceRouter (s : State) (cl cause x : Nat) :
    (s.fenceRouter cl cause).fencedRouter x = (decide (x = cl) || s.fencedRouter x) := by
  cases hf : s.fencedRouter cl with
  | true =>
    rw [State.fenceRouter, if_pos hf]
    by_cases hx : x = cl
    · rw [hx, hf, Bool.or_true]
    · rw [decide_eq_false hx, Bool.false_or]
  | false =>
    rw [State.fencedRouter_eq, State.bitOf_of_part (State.fenceRouter_shown (by decide) s cl cause hf), State.bitOf_setBit,
      State.fencedRouter_eq]

theorem State.fencedStacks_lt (s : State) : s.get MEM_STATUS.fenced < 2 ^ 16 := Nat.mod_lt _ (by decide)

theorem State.stackFenced_fenceStack {k : Nat} (hk : k < 16) (s : State) (cause x : Nat) :
    (s.fenceStack k cause).stackFenced x = (decide (x = k) || s.stackFenced x) := by
  cases hf : s.stackFenced k with
  | true =>
    rw [State.fenceStack, if_pos hf]
    by_cases hx : x = k
    · rw [hx, hf, Bool.or_true]
    · rw [decide_eq_false hx, Bool.false_or]
  | false =>
    have hlt : s.get MEM_STATUS.fenced ||| 2 ^ k < 2 ^ 16 :=
      Nat.or_lt_two_pow s.fencedStacks_lt (Nat.pow_lt_pow_right (by decide) hk)
    rw [State.stackFenced, State.get_of_part (f := MEM_STATUS.fenced) (State.fenceStack_shown (by decide) s k cause hf),
      State.get_put_fits (by decide) (by decide) hlt, State.stackFenced, bitAt_eq_testBit, bitAt_eq_testBit, Nat.testBit_or,
      Nat.testBit_two_pow, Bool.or_comm, decide_eq_decide.2 eq_comm]

/-- Every core of a die that is lost is marked. -/
theorem State.fencedCore_setDie {d i : Nat} (hi : i < 1024) (s : State) : (s.setDie d).fencedCore (64 * d + i / 16) (i % 16) = true := by
  obtain ⟨c, -, hc⟩ := foldl_at (f := fun (s : State) i => s.wn .FLT_CORE_FENCE (32 * d + i) (2 ^ 32 - 1)) (x := i / 32)
    (g := fun t => t.rn .FLT_CORE_FENCE (32 * d + i / 32))
    (fun t j hj => State.rn_wn_ne _ _ _ _ _ _ (Reg.key_ne_of_index_ne (by omega)))
    (l := upto 32) List.nodup_range (List.mem_range.2 (by omega)) s
  have hval : (s.setDie d).rn .FLT_CORE_FENCE (32 * d + i / 32) = 2 ^ 32 - 1 := hc.trans ((State.rn_wn_self ..).trans (by decide))
  have hones : ∀ b, b < 32 → bitAt (2 ^ 32 - 1) b = true := by decide
  rw [State.fencedCore_eq, State.bitOf, show (16 * (64 * d + i / 16) + i % 16) / 32 = 32 * d + i / 32 by omega, hval]
  exact hones _ (Nat.mod_lt _ (by decide))

theorem State.coresFenced_of_part {s t : State} {d : Nat} (h : t.part (.reg .FLT_CORE_FENCE) = (s.setDie d).part (.reg .FLT_CORE_FENCE)) :
    t.unitFenced 4 d = true := by
  refine List.all_eq_true.2 fun i hi => ?_
  rw [State.fencedCore_eq, State.bitOf_of_part h, ← State.fencedCore_eq]
  exact State.fencedCore_setDie (List.mem_range.1 hi) s

/-! ## Strikes (R460) -/

theorem State.strikes_strike (s : State) (kind index cause : Nat) :
    (s.strike kind index cause).rn .FLT_STRIKES = min (s.rn .FLT_STRIKES + 1) (2 ^ 64 - 1) := by
  unfold State.strike
  dsimp only
  rw [State.rn_of_part (State.recordFault_part (by decide) _ _ _ _ _), State.rn_bump_self _ _ _ _ (by decide)]
  refine congrArg (fun n => min (n + 1) _) (State.rn_of_part (State.part_ite (fun _ => rfl) fun _ => ?_) 0)
  rw [State.signal_part (by decide) (by decide), State.put_part (by decide), State.put_part (by decide), State.put_part (by decide)]

theorem State.testing_recordFault (s : State) (kind action cause index : Nat) :
    (s.recordFault kind action cause index).flt.testing = s.flt.testing := rfl

theorem State.testing_strike (s : State) (kind index cause : Nat) : (s.strike kind index cause).flt.testing = s.flt.testing := by
  unfold State.strike
  dsimp only
  rw [State.testing_recordFault]
  refine congrArg (fun x : FltState => x.testing) (?_ : State.part _ .flt = s.part .flt)
  rw [State.bump_part (by decide) (by decide)]
  refine State.part_ite (fun _ => rfl) fun _ => ?_
  rw [State.signal_part (by decide) (by decide), State.put_part (by decide), State.put_part (by decide), State.put_part (by decide)]

/-- What is fenced is told by the registers of the fences. -/
theorem State.unitFenced_of_parts {s t : State} {kind : Nat} (hk : kind < 6) (h2 : kind ≠ 2)
    (h : ∀ p ∈ faultRegs, p ≠ .reg .FLT_STRIKES → t.part p = s.part p) (index : Nat) :
    t.unitFenced kind index = s.unitFenced kind index := by
  have hc (cl q : Nat) : t.fencedCore cl q = s.fencedCore cl q :=
    State.bitOf_of_part (h (.reg .FLT_CORE_FENCE) (by decide) (by decide)) (16 * cl + q)
  have hr (cl : Nat) : t.fencedRouter cl = s.fencedRouter cl :=
    State.bitOf_of_part (h (.reg .FLT_ROUTER_FENCE) (by decide) (by decide)) cl
  have hs : t.stackFenced index = s.stackFenced index := by
    rw [State.stackFenced, State.get_of_part (f := MEM_STATUS.fenced) (h (.reg .MEM_STATUS) (by decide) (by decide)), State.stackFenced]
  match kind, hk, h2 with
  | 0, _, _ => exact hc _ _
  | 1, _, _ => exact hr _
  | 3, _, _ => exact hs
  | 4, _, _ => simp only [State.unitFenced, hc]
  | 5, _, _ => simp only [State.unitFenced, hr]

theorem State.strike_faultReg {p : Part} (h : p ∈ faultRegs) (hp : p ≠ .reg .FLT_STRIKES) (s : State) (kind index cause : Nat) :
    (s.strike kind index cause).part p = s.part p := by
  refine State.strike_part (fun hm => ?_) s kind index cause
  revert p
  decide

/-- What a strike against a unit leads to: a mark while it is under test, nothing while it is fenced, else its fence. -/
def State.struck (s : State) (kind index cause : Nat) : State :=
  if (kind, index) ∈ s.flt.testing then s.setFlt { s.flt with again := s.flt.again ++ [(kind, index)] }
  else if s.unitFenced kind index then s
  else
    let s := s.fenceUnit kind index cause
    if kind ≤ 1 then s.beginTest kind index else s

section
variable {s : State} {kind index : Nat} {cause : Nat}

theorem State.applyUnit_eq (hk : kind < 6) (h2 : kind ≠ 2) (ho : unitOk kind index = true) :
    s.applyUnit kind index cause = (s.strike kind index cause).struck kind index cause := by
  match kind, hk, h2, ho with
  | 0, _, _, ho | 1, _, _, ho | 3, _, _, ho | 4, _, _, ho | 5, _, _, ho => exact if_neg (by rw [ho]; decide)

/-- The report of a unit that is neither tested nor fenced fences it. -/
theorem State.applyUnit_fresh (hk : kind < 6) (h2 : kind ≠ 2) (ht : (kind, index) ∉ s.flt.testing)
    (hf : s.unitFenced kind index = false) (ho : unitOk kind index = true) : s.applyUnit kind index cause =
      (let t := (s.strike kind index cause).fenceUnit kind index cause
       if kind ≤ 1 then t.beginTest kind index else t) ∧ (s.strike kind index cause).unitFenced kind index = false := by
  have hu : (s.strike kind index cause).unitFenced kind index = false :=
    (State.unitFenced_of_parts hk h2 (fun p hp hne => State.strike_faultReg hp hne s kind index cause) index).trans hf
  refine ⟨?_, hu⟩
  rw [State.applyUnit_eq hk h2 ho, State.struck, if_neg (by rwa [State.testing_strike]), if_neg (by rw [hu]; decide)]

/-- Another report while the unit is fenced is a strike alone. -/
theorem State.applyUnit_fenced (hk : kind < 6) (h2 : kind ≠ 2) (ho : unitOk kind index = true) (hf : s.unitFenced kind index = true)
    (ht : (kind, index) ∉ s.flt.testing) : s.applyUnit kind index cause = s.strike kind index cause := by
  have hu : (s.strike kind index cause).unitFenced kind index = true :=
    (State.unitFenced_of_parts hk h2 (fun p hp hne => State.strike_faultReg hp hne s kind index cause) index).trans hf
  rw [State.applyUnit_eq hk h2 ho, State.struck, if_neg (by rwa [State.testing_strike]), if_pos hu]

/-- A strike during its self-test is kept for its end. -/
theorem State.applyUnit_tested (hk : kind < 6) (h2 : kind ≠ 2) (ho : unitOk kind index = true) (ht : (kind, index) ∈ s.flt.testing) :
    s.applyUnit kind index cause = (s.strike kind index cause).setFlt { (s.strike kind index cause).flt with
      again := (s.strike kind index cause).flt.again ++ [(kind, index)] } := by
  rw [State.applyUnit_eq hk h2 ho, State.struck, if_pos (by rwa [State.testing_strike])]

end

/-! ## Cores and routers (R23, R25, R457) -/

theorem State.fenceUnit_core (s : State) (u cause : Nat) : s.fenceUnit 0 u cause = s.fenceCore u cause := rfl

theorem State.fenceUnit_router (s : State) (cl cause : Nat) : s.fenceUnit 1 cl cause = s.fenceRouter cl cause := rfl

theorem State.fenceUnit_stack (s : State) (k cause : Nat) : s.fenceUnit 3 k cause = s.fenceStack k cause := rfl

theorem State.fenceUnit_dieCores (s : State) (d cause : Nat) :
    s.fenceUnit 4 d cause = (s.recordFault 4 2 0x06 d).dieHealth.fenceDieCores d := rfl

/-- The number of the kind stands as a variable: the kernel then does not unfold the loss of the die to compare the two sides. -/
theorem State.fenceUnit_die {kind : Nat} (hk : kind = 5) (s : State) (d cause : Nat) : s.fenceUnit kind d cause = s.loseDieBase d := by
  unfold State.fenceUnit
  split
  case h_6 => rfl
  case h_8 h5 _ => exact absurd hk h5
  all_goals exact absurd hk (by decide)

theorem State.showTesting_part {p : Part} (h : p ≠ .reg .FLT_STATUS) (hm : p ≠ .reg .FCH_MODE) (s : State) :
    s.showTesting.part p = s.part p := by
  rw [State.showTesting, State.leadMode, State.put_part hm, State.put_part h]

theorem State.testing_beginTest (s : State) (kind index : Nat) : (kind, index) ∈ (s.beginTest kind index).flt.testing := by
  have hp : (s.beginTest kind index).flt.testing = s.flt.testing ++ [(kind, index)] :=
    congrArg (fun x : FltState => x.testing) (State.showTesting_part (p := .flt) (by decide) (by decide) _)
  rw [hp]
  exact List.mem_append_right _ List.mem_cons_self

section
variable {s : State} {index : Nat} {cause : Nat}

theorem applyUnit_core (ht : (0, index) ∉ s.flt.testing) (hf : s.unitFenced 0 index = false) (ho : unitOk 0 index = true) :
    let u := s.applyUnit 0 index cause
    u.fencedCore (index / 16) (index % 16) = true ∧ (0, index) ∈ u.flt.testing ∧
      u.rn .FLT_STRIKES = min (s.rn .FLT_STRIKES + 1) (2 ^ 64 - 1) ∧ u.mem = s.mem := by
  obtain ⟨hu, hfresh⟩ := State.applyUnit_fresh (cause := cause) (by decide) (by decide) ht hf ho
  rw [hu, if_pos (by decide)]
  dsimp only
  rw [State.fenceUnit_core]
  refine ⟨?_, State.testing_beginTest _ _ _, ?_, ?_⟩
  · rw [State.fencedCore_eq, State.bitOf_of_part (State.beginTest_faultReg (by decide) _ _ _), ← State.fencedCore_eq]
    exact State.fencedCore_fenceCore hfresh cause
  · rw [State.rn_of_part (State.beginTest_faultReg (by decide) _ _ _), State.rn_of_part (State.fenceCore_shown (by decide) _ _ _ hfresh),
      State.setBit, State.rn_wn_of_ne (by decide), State.strikes_strike]
  · rw [State.beginTest_mem, State.fenceCore_mem, State.strike_mem]

theorem applyUnit_router (ht : (1, index) ∉ s.flt.testing) (hf : s.unitFenced 1 index = false) (ho : unitOk 1 index = true) :
    let u := s.applyUnit 1 index cause
    u.fencedRouter index = true ∧ (1, index) ∈ u.flt.testing ∧ u.rn .FLT_STRIKES = min (s.rn .FLT_STRIKES + 1) (2 ^ 64 - 1) ∧
      u.mem = s.mem ∧ u.goodCores index = [] := by
  obtain ⟨hu, -⟩ := State.applyUnit_fresh (cause := cause) (by decide) (by decide) ht hf ho
  rw [hu, if_pos (by decide)]
  dsimp only
  rw [State.fenceUnit_router]
  have hr : (((s.strike 1 index cause).fenceRouter index cause).beginTest 1 index).fencedRouter index = true := by
    rw [State.fencedRouter_eq, State.bitOf_of_part (State.beginTest_faultReg (by decide) _ _ _), ← State.fencedRouter_eq,
      State.fencedRouter_fenceRouter, decide_eq_true rfl, Bool.true_or]
  refine ⟨hr, State.testing_beginTest _ _ _, ?_, ?_, if_pos hr⟩
  · rw [State.rn_of_part (State.beginTest_faultReg (by decide) _ _ _),
      State.rn_of_part (State.fenceRouter_faultReg (by decide) (by decide) _ _ _), State.strikes_strike]
  · rw [State.beginTest_mem, State.fenceRouter_mem, State.strike_mem]

/-! ## Stacks and dies (R39, R273) -/

theorem applyUnit_stack (ht : (3, index) ∉ s.flt.testing) (hf : s.unitFenced 3 index = false) (ho : unitOk 3 index = true) :
    let u := s.applyUnit 3 index cause
    u.stackFenced index = true ∧ u.rn .FLT_STRIKES = min (s.rn .FLT_STRIKES + 1) (2 ^ 64 - 1) := by
  obtain ⟨hu, -⟩ := State.applyUnit_fresh (cause := cause) (by decide) (by decide) ht hf ho
  rw [hu, if_neg (by decide)]
  dsimp only
  rw [State.fenceUnit_stack]
  refine ⟨?_, ?_⟩
  · rw [State.stackFenced_fenceStack (of_decide_eq_true ho), decide_eq_true rfl, Bool.true_or]
  · rw [State.rn_of_part (State.fenceStack_faultReg (by decide) (by decide) _ _ _), State.strikes_strike]

/-- The state in which a die's cores are fenced, after its record. -/
theorem State.loseDie_shown {p : Part} (h : p ∈ faultRegs) (s : State) (kind d : Nat) :
    ((s.recordFault kind 2 0x06 d).dieHealth.fenceDieCores d).part p =
      (State.setDie (s.recordFault kind 2 0x06 d).dieHealth d).part p :=
  State.fenceDieCores_shown h _ d

theorem State.setDie_part {p : Part} (h : p ≠ .reg .FLT_CORE_FENCE) (s : State) (d : Nat) : (s.setDie d).part p = s.part p :=
  State.part_foldl (fun t _ => State.wn_part h t _ _) _ s

/-- The loss of a die's cores leaves the other registers of the fences. -/
theorem State.loseDie_faultReg {p : Part} (h : p ∈ faultRegs) (hc : p ≠ .reg .FLT_CORE_FENCE) (s : State) (kind d : Nat) :
    ((s.recordFault kind 2 0x06 d).dieHealth.fenceDieCores d).part p = s.part p := by
  rw [State.fenceDieCores_shown h, State.setDie_part hc, State.dieHealth_faultReg h, State.recordFault_part (Part.ne_of_mem h)]

theorem applyUnit_dieCores (ht : (4, index) ∉ s.flt.testing) (hf : s.unitFenced 4 index = false) (ho : unitOk 4 index = true) :
    let u := s.applyUnit 4 index cause
    u.unitFenced 4 index = true ∧ u.rn .FLT_STRIKES = min (s.rn .FLT_STRIKES + 1) (2 ^ 64 - 1) := by
  obtain ⟨hu, -⟩ := State.applyUnit_fresh (cause := cause) (by decide) (by decide) ht hf ho
  rw [hu, if_neg (by decide)]
  dsimp only
  rw [State.fenceUnit_dieCores]
  refine ⟨State.coresFenced_of_part (State.fenceDieCores_shown (by decide) _ _), ?_⟩
  rw [State.rn_of_part (State.loseDie_faultReg (by decide) (by decide) _ _ _), State.strikes_strike]

/-- The routers of a die are fenced. -/
def State.fenceRouters (s : State) (d : Nat) : State :=
  (upto 64).foldl (fun (s : State) c => s.fenceRouter (64 * d + c) 0x06) s

/-- The stacks of a die are fenced. -/
def State.fenceStacks (s : State) (d : Nat) : State :=
  (upto 4).foldl (fun (s : State) k => s.fenceStack (4 * d + k) 0x06) s

theorem State.loseDieBase_eq (s : State) (d : Nat) : s.loseDieBase d =
    ((((s.recordFault 5 2 0x06 d).dieHealth.fenceDieCores d).fenceRouters d).fenceStacks d).loseHerding d := rfl

theorem State.fenceRouters_faultReg {p : Part} (h : p ∈ faultRegs) (hr : p ≠ .reg .FLT_ROUTER_FENCE) (s : State) (d : Nat) :
    (s.fenceRouters d).part p = s.part p :=
  State.part_foldl (fun t _ => State.fenceRouter_faultReg h hr t _ _) _ s

theorem State.fenceStacks_faultReg {p : Part} (h : p ∈ faultRegs) (hm : p ≠ .reg .MEM_STATUS) (s : State) (d : Nat) :
    (s.fenceStacks d).part p = s.part p :=
  State.part_foldl (fun t _ => State.fenceStack_faultReg h hm t _ _) _ s

theorem State.fencedRouter_fenceRouters {c : Nat} (hc : c < 64) (s : State) (d : Nat) :
    (s.fenceRouters d).fencedRouter (64 * d + c) = true :=
  marked_foldl (g := fun c => 64 * d + c) (P := State.fencedRouter) (fun t _ _ x => State.fencedRouter_fenceRouter t _ 0x06 x)
    (List.mem_range.2 hc) s

theorem State.stackFenced_fenceStacks {d k : Nat} (hd : d < 4) (hk : k < 4) (s : State) :
    (s.fenceStacks d).stackFenced (4 * d + k) = true :=
  marked_foldl (g := fun k => 4 * d + k) (P := State.stackFenced)
    (fun t a ha x => State.stackFenced_fenceStack (by have := List.mem_range.1 ha; omega) t 0x06 x) (List.mem_range.2 hk) s

theorem applyUnit_die (ht : (5, index) ∉ s.flt.testing) (hf : s.unitFenced 5 index = false) (ho : unitOk 5 index = true) :
    let u := s.applyUnit 5 index cause
    u.unitFenced 5 index = true ∧ u.unitFenced 4 index = true ∧ (∀ k, k < 4 → u.stackFenced (4 * index + k) = true) ∧
      u.rn .FLT_STRIKES = min (s.rn .FLT_STRIKES + 1) (2 ^ 64 - 1) := by
  obtain ⟨hu, -⟩ := State.applyUnit_fresh (cause := cause) (by decide) (by decide) ht hf ho
  rw [hu, if_neg (by decide)]
  dsimp only
  rw [State.fenceUnit_die rfl, State.loseDieBase_eq]
  have hend {p : Part} (h : p ∈ faultRegs) (t : State) := State.loseHerding_faultReg h t index
  refine ⟨?_, State.coresFenced_of_part (s := ((s.strike 5 index cause).recordFault 5 2 0x06 index).dieHealth) ?_,
    fun k hk => ?_, ?_⟩
  · refine List.all_eq_true.2 fun i hi => ?_
    rw [State.fencedRouter_eq, State.bitOf_of_part (hend (by decide) _),
      State.bitOf_of_part (State.fenceStacks_faultReg (by decide) (by decide) _ _), ← State.fencedRouter_eq]
    exact State.fencedRouter_fenceRouters (List.mem_range.1 hi) _ _
  · rw [hend (by decide), State.fenceStacks_faultReg (by decide) (by decide), State.fenceRouters_faultReg (by decide) (by decide),
      State.fenceDieCores_shown (by decide)]
  · rw [State.stackFenced, State.get_of_part (f := MEM_STATUS.fenced) (hend (by decide) _)]
    exact State.stackFenced_fenceStacks (of_decide_eq_true ho) hk _
  · rw [State.rn_of_part (hend (by decide) _), State.rn_of_part (State.fenceStacks_faultReg (by decide) (by decide) _ _),
      State.rn_of_part (State.fenceRouters_faultReg (by decide) (by decide) _ _),
      State.rn_of_part (State.loseDie_faultReg (by decide) (by decide) _ _ _), State.strikes_strike]

end

/-! ## Lanes and ports (R428) -/

section
variable {s : State}

/-- A port that is not up takes no part in the recalibration of the next. -/
theorem State.get_nextRecal {k : Nat} (hk : s.get LNK_PORT_STATUS.state k ≠ 2) {f : Fld} (l : List Nat) :
    (s.nextRecal l).get f k = s.get f k := by
  induction l with
  | nil => exact State.get_of_part (f := f) (State.setLnk_part (by simp) s _) k
  | cons j rest ih =>
    unfold State.nextRecal
    dsimp only
    split
    · split
      next hj =>
        have hne : k ≠ j := fun e => hk (e ▸ hj)
        rw [State.get_of_part (f := f) (State.setLnk_part (by simp) _ _), State.setPortState, State.get_put_index hne,
          State.get_put_index hne]
      next => exact ih
    · exact ih

/-- A port that goes down shows no state and no lane. -/
theorem State.portDown_shown {k : Nat} (hk : s.get LNK_PORT_STATUS.state k ≠ 0) (cause : Nat) :
    (s.portDown k cause).get LNK_PORT_STATUS.state k = 0 ∧ (s.portDown k cause).get LNK_PORT_STATUS.lanes k = 0 := by
  unfold State.portDown
  rw [if_neg hk]
  extract_lets s₁ s₂ s₃ s₄
  have hp : s₄.part (.reg .LNK_PORT_STATUS) = s₁.part (.reg .LNK_PORT_STATUS) := by
    refine (State.part_ite (s := s₃) (fun _ => State.classify_part (by decide) s₃ _ _) fun _ => rfl).trans ?_
    refine (State.part_ite (s := s₂) (fun _ => rfl) fun _ => State.strike_part (by decide) s₂ _ _ _).trans ?_
    exact State.setPort_part (by decide) s₁ _ _
  have hstate : s₁.get LNK_PORT_STATUS.state k = 0 := State.get_put_fits (by decide) (by decide) (by decide) _ k
  have hlanes : s₁.get LNK_PORT_STATUS.lanes k = 0 := by
    dsimp only [s₁]
    rw [State.setPortState, State.get_put_apart (by rfl) (by decide), State.get_put_fits (by decide) (by decide) (by decide)]
  have h₄ : s₄.get LNK_PORT_STATUS.state k = 0 ∧ s₄.get LNK_PORT_STATUS.lanes k = 0 :=
    ⟨(State.get_of_part (f := LNK_PORT_STATUS.state) hp k).trans hstate,
      (State.get_of_part (f := LNK_PORT_STATUS.lanes) hp k).trans hlanes⟩
  have hne : s₄.get LNK_PORT_STATUS.state k ≠ 2 := by rw [h₄.1]; decide
  clear_value s₄
  split
  · split
    · rw [State.get_nextRecal hne, State.get_nextRecal hne]
      exact h₄
    · exact h₄
  · exact h₄

/-- A lane that is out of service, up to the port's own end. -/
def State.laneOut (s : State) (k l : Nat) : State :=
  let s := s.put LNK_PORT_STATUS.lanes k (putBits (s.get LNK_PORT_STATUS.lanes k) l l 0)
  let s := s.bump .LNK_LANE_DROPS k
  match s.lnk.recal with
  | some (j, x :: rest) => if j = k then s.setLnk { s.lnk with recal := some (j, x :: rest.filter (· ≠ l)) } else s
  | _ => s

theorem State.laneOut_part {p : Part} (h : p ≠ .lnk) (k l : Nat) : (s.laneOut k l).part p =
    ((s.put LNK_PORT_STATUS.lanes k (putBits (s.get LNK_PORT_STATUS.lanes k) l l 0)).bump .LNK_LANE_DROPS k).part p := by
  unfold State.laneOut
  dsimp only
  split
  · exact State.part_ite (fun _ => State.setLnk_part h _ _) fun _ => rfl
  · rfl

theorem State.takeLane_eq (k l : Nat) : s.takeLane k l = s.laneOut k l ∨ s.takeLane k l = (s.laneOut k l).portDown k 0x08 :=
  Or.symm (ite_eq_or_eq _ _ _)

theorem putBits_zero_lt {v n l : Nat} (h : v < 2 ^ n) : putBits v l l 0 < 2 ^ n := by
  rw [putBits, Nat.zero_mod, zero_mul, Nat.add_zero]
  exact Nat.lt_of_le_of_lt (Nat.sub_le _ _) h

theorem State.lane_laneOut (k l : Nat) : bitAt ((s.laneOut k l).get LNK_PORT_STATUS.lanes k) l = false := by
  have hlt : putBits (s.get LNK_PORT_STATUS.lanes k) l l 0 < 2 ^ 4 := putBits_zero_lt (Nat.mod_lt _ (by decide))
  rw [State.get_of_part (f := LNK_PORT_STATUS.lanes) (State.laneOut_part (by decide) k l), State.get_bump_of_ne (by decide) (by decide),
    State.get_put_fits (by decide) (by decide) hlt, bitAt_putBits, if_pos rfl]
  rfl

theorem State.drops_laneOut (k l : Nat) :
    (s.laneOut k l).rn .LNK_LANE_DROPS k = min (s.rn .LNK_LANE_DROPS k + 1) (2 ^ 64 - 1) := by
  rw [State.rn_of_part (State.laneOut_part (by decide) k l), State.rn_bump_self _ _ _ _ (Reg.key_ne_of_ne (by decide) _ _),
    State.rn_put_of_ne (by decide)]

/-- A lane that is taken is out of service, whether or not its port goes down with it. -/
theorem State.takeLane_shown (k l : Nat) : bitAt ((s.takeLane k l).get LNK_PORT_STATUS.lanes k) l = false ∧
    (s.takeLane k l).rn .LNK_LANE_DROPS k = min (s.rn .LNK_LANE_DROPS k + 1) (2 ^ 64 - 1) := by
  rcases State.takeLane_eq (s := s) k l with h | h
  · rw [h]
    exact ⟨State.lane_laneOut k l, State.drops_laneOut k l⟩
  · rw [h]
    refine ⟨?_, by rw [State.rn_of_part (State.portDown_part (by decide) _ _ _), State.drops_laneOut]⟩
    by_cases hst : (s.laneOut k l).get LNK_PORT_STATUS.state k = 0
    · rw [State.portDown, if_pos hst]
      exact State.lane_laneOut k l
    · rw [(State.portDown_shown hst 0x08).2, bitAt, Nat.zero_div]
      rfl

theorem applyUnit_lane {index : Nat} (hi : index < 36) (cause : Nat) : let u := s.applyUnit 6 index cause
    bitAt (u.get LNK_PORT_STATUS.lanes (index / 4)) (index % 4) = false ∧
      u.rn .LNK_LANE_DROPS (index / 4) = min (s.rn .LNK_LANE_DROPS (index / 4) + 1) (2 ^ 64 - 1) ∧ u.mem = s.mem := by
  have hu : s.applyUnit 6 index cause = s.dropLane (index / 4) (index % 4) := if_neg (by simp [unitOk, hi])
  rw [hu]
  obtain ⟨hbit, hdrops⟩ := State.takeLane_shown (s := if 3 ≤ (s.strike 6 (4 * (index / 4) + index % 4) 0x07).strikes 6
      (· = 4 * (index / 4) + index % 4) then (s.strike 6 (4 * (index / 4) + index % 4) 0x07).classify 6 (4 * (index / 4) + index % 4)
    else s.strike 6 (4 * (index / 4) + index % 4) 0x07) (index / 4) (index % 4)
  refine ⟨hbit, hdrops.trans ?_, State.dropLane_mem s _ _⟩
  refine congrArg (fun n => min (n + 1) _) (State.rn_of_part ?_ _)
  exact (State.part_ite (fun _ => State.classify_part (by decide) _ _ _) fun _ => rfl).trans (State.strike_part (by decide) s _ _ _)

theorem applyUnit_port {index : Nat} (hi : index < 9) (hs : s.get LNK_PORT_STATUS.state index ≠ 0) (cause : Nat) :
    let u := s.applyUnit 7 index cause
    u.get LNK_PORT_STATUS.state index = 0 ∧ u.get LNK_PORT_STATUS.lanes index = 0 ∧ u.mem = s.mem := by
  have hu : s.applyUnit 7 index cause = s.portDown index cause := if_neg (by simp [unitOk, hi])
  rw [hu]
  obtain ⟨hst, hl⟩ := State.portDown_shown hs cause
  exact ⟨hst, hl, State.portDown_mem s _ _⟩

end

/-! ## Retired pages (R272) -/

/-- The stack pages that have been retired. -/
def State.retired (s : State) : List (Nat × Nat) := s.mt.retired

section
variable {s t : State}

theorem State.retired_of_part (h : t.part .mt = s.part .mt) : t.retired = s.retired := congrArg (fun x : MemState => x.retired) h

theorem State.retired_foldl {α : Type} {f : State → α → State} (h : ∀ t a, (f t a).retired = t.retired) (l : List α) (s : State) :
    (l.foldl f s).retired = s.retired := by
  induction l generalizing s with
  | nil => rfl
  | cons a l ih => rw [List.foldl_cons, ih, h]

theorem State.retired_ite {a b : State} {c : Prop} [Decidable c] (ha : c → a.retired = s.retired) (hb : ¬c → b.retired = s.retired) :
    (if c then a else b).retired = s.retired := by
  split
  next hc => exact ha hc
  next hc => exact hb hc

end

theorem State.retired_detect (s : State) (stack off : Nat) (scrub : Bool) : (s.detect stack off scrub).retired = s.retired := by
  unfold State.detect
  extract_lets b _ s₁ s₂
  have h₁ : s₁.retired = s.retired := State.retired_ite (fun _ => rfl) fun _ => rfl
  refine State.retired_ite (fun _ => h₁) fun _ => ?_
  have h₂ : s₂.part .mt = s₁.part .mt := State.part_ite (fun _ => rfl) fun _ => by
    rw [State.signal_part (by decide) (by decide), State.put_part (by decide), State.put_part (by decide), State.put_part (by decide),
      State.put_part (by decide)]
  rw [State.retired_of_part (State.sample_part (by decide) _ _ _ _), State.retired_of_part (State.bump_part (by decide) (by decide) _ _ _),
    State.retired_of_part h₂, h₁]

theorem State.retired_detectIn (s : State) (l : List (Nat × Nat)) : (s.detectIn l).retired = s.retired :=
  State.retired_foldl (fun t _ => State.retired_detect t _ _ _) _ s

theorem State.retired_readCheck (s : State) (a fails : Nat) : (s.readCheck a fails).retired = s.retired :=
  State.retired_ite (fun _ => rfl) fun _ => State.retired_ite (fun _ => State.retired_of_part (State.bump_part (by decide) (by decide) s _ _))
    fun _ => State.retired_detect s _ _ _

theorem State.retired_mend (s : State) (a n : Nat) : (s.mend a n).retired = s.retired := rfl

theorem State.retired_hbmStore (s : State) (a : Nat) (bs : List Byte) : (s.hbmStore a bs).retired = s.retired := by
  rw [State.hbmStore, State.retired_mend, State.retired_of_part (State.store_part (by decide) s a bs)]

theorem State.retired_poke (s : State) (x : Place) (bs : List Byte) : (s.poke x bs).retired = s.retired := by
  unfold State.poke
  split
  · rw [State.retired_of_part (State.countHbm_part (by decide) (by decide) _ _ _), State.retired_hbmStore]
  · exact State.retired_of_part (State.store_part (by decide) s _ _)
  · refine State.retired_foldl (fun t c => ?_) _ s
    dsimp only
    split
    · rw [State.retired_of_part (State.put_part (by decide) _ _ _), State.retired_of_part (State.touchSlot_part (by decide) _ _),
        State.retired_of_part (State.countHbm_part (by decide) (by decide) _ _ _), State.retired_hbmStore]
    · rfl
  · rw [State.retired_of_part (State.bump_part (by decide) (by decide) _ _ _), State.retired_of_part (State.store_part (by decide) s _ _)]

theorem State.retired_serveRead (s : State) (r : Requester) (a n bad fails : Nat) (poison : Bool) :
    (s.serveRead r a n bad fails poison).1.retired = s.retired := by
  unfold State.serveRead
  split
  · rfl
  · rfl
  · extract_lets s₁ twice
    have h₁ : s₁.retired = s.retired := by
      dsimp only [s₁]
      split
      · rw [State.retired_readCheck, State.retired_of_part (State.countRead_part (by decide) s _ _)]
      · exact State.retired_of_part (State.countRead_part (by decide) s _ _)
    clear_value s₁ twice
    split
    · exact (State.retired_detectIn s₁ _).trans h₁
    · split
      · exact (State.retired_of_part (State.bump_part (by decide) (by decide) s₁ _ _)).trans h₁
      · exact (State.retired_of_part (State.countMesh_part (by decide) s₁ _ _ _ _)).trans h₁

theorem State.retired_serveWrite (s : State) (r : Requester) (a : Nat) (bs : List Byte) (shadow : Bool) :
    (s.serveWrite r a bs shadow).1.retired = s.retired := by
  unfold State.serveWrite
  split
  · rfl
  · rfl
  · exact (State.retired_of_part (State.countMesh_part (by decide) _ _ _ _ _)).trans (State.retired_poke s _ _)

theorem State.retired_answer (s : State) (r : Requester) (a : Nat) (rep : Reply) : (s.answer r a rep).retired = s.retired :=
  State.retired_of_part (State.answer_part (by decide) s r a rep)

theorem State.retired_serve (s : State) (x : Held) (bad fails : Nat) (poison : Bool) :
    (s.serve x bad fails poison).retired = s.retired := by
  unfold State.serve
  refine State.retired_ite (fun _ => rfl) fun _ => ?_
  obtain ⟨req, addr, len, data, since, shadow, engine⟩ := x
  cases data with
  | none =>
    have hr := State.retired_serveRead s req addr len bad fails poison
    dsimp only
    split
    · rfl
    · exact State.retired_ite (fun _ => hr) fun _ => (State.retired_answer _ _ _ _).trans hr
  | some bs =>
    have hw := State.retired_serveWrite s req addr bs shadow
    dsimp only
    split
    · rfl
    · exact State.retired_ite (fun _ => hw) fun _ => (State.retired_answer _ _ _ _).trans hw

theorem State.retired_serveHeld (s : State) (pg : Nat) : (s.serveHeld pg).retired = s.retired :=
  (State.retired_foldl (fun t x => State.retired_serve t x 0 0 false) _ _).trans rfl

theorem State.retired_endHeld (s : State) (pg : Nat) : (s.endHeld pg).retired = s.retired := by
  unfold State.endHeld
  split
  · rw [State.retired_serveHeld, State.retired_of_part (State.bump_part (by decide) (by decide) s _ _)]
  · rfl

theorem State.retired_poisonSub (s : State) (pg b : Nat) : (s.poisonSub pg b).retired = s.retired :=
  State.retired_ite (fun _ => rfl) fun _ => rfl

theorem State.retired_poolLoss (s : State) (i : Nat) : (s.poolLoss i).retired = s.retired := by
  unfold State.poolLoss
  refine State.retired_ite (fun _ => rfl) fun _ => ?_
  dsimp only
  refine (State.retired_foldl (fun t m => State.retired_endHeld t _) _ _).trans ?_
  refine (State.retired_foldl (fun t m => State.retired_of_part (State.endTier_part (by decide) (by decide) t _ _)) _ _).trans ?_
  rw [State.retired_of_part (State.emptySlot_part (by decide) (by decide) _ _)]
  refine Eq.trans rfl ((State.retired_of_part (State.bump_part (r := .TIR_LOST_SUBBLOCKS) (by decide) (by decide) _ _ _)).trans ?_)
  exact State.retired_foldl (fun t b => State.retired_poisonSub t _ b) _ s

theorem State.retired_discardPoolWrites (s : State) (f : Nat → Bool) : (s.discardPoolWrites f).retired = s.retired := by
  unfold State.discardPoolWrites
  dsimp only
  refine State.retired_foldl (fun t x => ?_) _ _
  rw [State.retired_answer]
  refine State.retired_foldl (fun t c => ?_) _ t
  split
  · exact State.retired_of_part (State.put_part (by decide) t _ _)
  · rfl

theorem State.retired_lostPages (s : State) (f : Nat → Bool) : (s.lostPages f).retired = s.retired := by
  have hv (l : List Nat) : (l.foldl (fun (s : State) c => s.voteBit c vbFence) s).retired = s.retired :=
    State.retired_foldl (fun t c => State.retired_of_part (State.voteBit_part (by decide) (by decide) t c _)) l s
  unfold State.lostPages
  dsimp only
  split
  · refine (State.retired_ite (fun _ => ?_) fun _ => rfl).trans (hv _)
    exact State.retired_of_part (State.sendTo_part (by decide) _ _ _ _ _)
  · exact hv _

theorem State.retired_fenceStack (s : State) (k cause : Nat) : (s.fenceStack k cause).retired = s.retired := by
  unfold State.fenceStack
  refine State.retired_ite (fun _ => rfl) fun _ => ?_
  dsimp only
  rw [State.retired_of_part (State.recordFault_part (by decide) _ _ _ _ _), State.retired_lostPages]
  refine (State.retired_ite (fun _ => State.retired_of_part (State.classify_part (by decide) _ _ _)) fun _ => rfl).trans ?_
  refine (State.retired_foldl State.retired_poolLoss _ _).trans ?_
  rw [State.retired_discardPoolWrites, State.retired_of_part (State.put_part (by decide) s _ _)]

theorem pgRetired_reg {p : Part} (h : p ≠ .reg .MEM_PAGE) (n : Nat) : p ≠ .reg (pgRetired n).reg := by
  unfold pgRetired
  split <;> exact h

theorem State.retired_putPages (l : List Nat) (s : State) :
    (l.foldl (fun (s : State) n => s.put (pgRetired n) (n / 2) 1) s).retired = s.retired :=
  State.retired_foldl (fun t n => State.retired_of_part (State.put_part (pgRetired_reg (by decide) n) t _ _)) l s

theorem State.mem_retired_retirePage (s : State) (k q : Nat) : (k, q) ∈ (s.retirePage k q).retired := by
  unfold State.retirePage
  split
  next h => exact h
  next h =>
    dsimp only
    suffices hr : ∀ t : State, t.retired = s.retired ++ [(k, q)] → (k, q) ∈ t.retired by
      refine hr _ ((State.retired_ite (fun _ => State.retired_fenceStack _ _ _) fun _ => rfl).trans ?_)
      rw [State.retired_of_part (State.recordFault_part (by decide) _ _ _ _ _), State.retired_lostPages,
        State.retired_foldl State.retired_poolLoss, State.retired_putPages, State.retired_of_part (State.put_part (by decide) _ _ _)]
      rfl
    intro t ht
    rw [ht]
    exact List.mem_append_right _ List.mem_cons_self

theorem State.retirePage_faultReg {p : Part} (h : p ∈ faultRegs) (hm : p ≠ .reg .MEM_STATUS) (s : State) (k q : Nat) :
    (s.retirePage k q).part p = s.part p := by
  unfold State.retirePage
  refine State.part_ite (fun _ => rfl) fun _ => ?_
  dsimp only
  refine (State.part_ite (s := State.recordFault _ _ _ _ _) (fun _ => State.fenceStack_faultReg h hm _ _ _) fun _ => rfl).trans ?_
  rw [State.recordFault_part (Part.ne_of_mem h), State.lostPages_faultReg h]
  refine (State.part_foldl (fun t i => State.poolLoss_faultReg h t i) _ _).trans ?_
  refine (State.part_foldl (fun t n => State.put_part (pgRetired_reg (Part.ne_of_mem h) n) t _ _) _ _).trans ?_
  rw [State.put_part (Part.ne_of_mem h), State.withMt_part (Part.ne_of_mem h)]

/-- A detection at rest retires its page and is one strike. -/
theorem State.applyDetection_shown (s : State) (k off : Nat) : (k, off / mib2) ∈ (s.applyDetection k off).retired ∧
    (s.applyDetection k off).rn .FLT_STRIKES = min (s.rn .FLT_STRIKES + 1) (2 ^ 64 - 1) := by
  unfold State.applyDetection
  extract_lets t
  have hr : (k, off / mib2) ∈ t.retired := State.mem_retired_retirePage _ _ _
  have hs : t.rn .FLT_STRIKES = min (s.rn .FLT_STRIKES + 1) (2 ^ 64 - 1) :=
    (State.rn_of_part (State.retirePage_faultReg (by decide) (by decide) _ _ _) 0).trans (State.strikes_strike s _ _ _)
  clear_value t
  split
  · refine ⟨?_, ?_⟩
    · rwa [State.retired_fenceStack, State.retired_of_part (State.classify_part (by decide) _ _ _)]
    · rwa [State.rn_of_part (State.fenceStack_faultReg (by decide) (by decide) _ _ _),
        State.rn_of_part (State.classify_part (by decide) _ _ _)]
  · exact ⟨hr, hs⟩

theorem applyUnit_page {s : State} {index cause : Nat} (ho : unitOk 2 index = true) : let u := s.applyUnit 2 index cause
    (index / 24576, index % 24576) ∈ u.mt.retired ∧ u.rn .FLT_STRIKES = min (s.rn .FLT_STRIKES + 1) (2 ^ 64 - 1) := by
  have hu : s.applyUnit 2 index cause = s.applyDetection (index / 24576) (index % 24576 * mib2) := if_neg (by rw [ho]; decide)
  have hd := State.applyDetection_shown s (index / 24576) (index % 24576 * mib2)
  rw [Nat.mul_div_cancel _ (by decide)] at hd
  rw [hu]
  exact hd

/-! ## The report (R457) -/

section
variable {s : State} {kind index : Nat} {cause : Nat}

theorem exec_faultReport_ok (hl : s.live = true) {kind : Fin 8} (ho : unitOk kind.val index = true) (cause : Fin 16) :
    exec (.faultReport kind index cause) s =
      .next (s.sampleOnce (unitEvent kind.val index).1 (unitEvent kind.val index).2 (.unit kind.val index cause.val)) := by
  refine (State.act_live _ hl).trans (congrArg _ ?_)
  rw [State.sampleUnit, if_pos ho]

theorem exec_faultReport_not_ok (hl : s.live = true) {kind : Fin 8} (ho : unitOk kind.val index = false) (cause : Fin 16) :
    exec (.faultReport kind index cause) s = .next s := by
  refine (State.act_live _ hl).trans (congrArg _ ?_)
  rw [State.sampleUnit, if_neg (by rw [ho]; decide)]

theorem applyUnit_of_fenced (hk : kind < 6) (h2 : kind ≠ 2) (ho : unitOk kind index = true) (hf : s.unitFenced kind index = true)
    (ht : (kind, index) ∉ s.flt.testing) : let u := s.applyUnit kind index cause
    u.rn .FLT_STRIKES = min (s.rn .FLT_STRIKES + 1) (2 ^ 64 - 1) ∧ u.cores = s.cores ∧
      u.flt.testing = s.flt.testing ∧ u.mem = s.mem := by
  rw [State.applyUnit_fenced hk h2 ho hf ht]
  exact ⟨State.strikes_strike s _ _ _, State.strike_part (p := .cores) (by decide) s _ _ _, State.testing_strike s _ _ _,
    State.strike_mem s _ _ _⟩

theorem applyUnit_of_tested (hk : kind < 2) (ho : unitOk kind index = true) (ht : (kind, index) ∈ s.flt.testing) :
    let u := s.applyUnit kind index cause
    u.rn .FLT_STRIKES = min (s.rn .FLT_STRIKES + 1) (2 ^ 64 - 1) ∧ (kind, index) ∈ u.flt.again ∧
      u.cores = s.cores ∧ u.mem = s.mem := by
  rw [State.applyUnit_tested (by omega) (by omega) ho ht]
  exact ⟨(State.rn_of_part (State.setFlt_part (by decide) _ _) 0).trans (State.strikes_strike s _ _ _),
    List.mem_append_right _ List.mem_cons_self, State.strike_part (p := .cores) (by decide) s _ _ _, State.strike_mem s _ _ _⟩

end

/-- Settles O47: a fence writes the bit of its unit, and none of its effects on regions, tokens and memory writes a register of the
fences or the count of strikes; a retired page stays retired through the losses that follow it. -/
theorem faultReportsFenceUnits : Obligations.FaultReportsFenceUnits := by
  intro s index cause hl struck fresh done
  refine ⟨fun kind ho => exec_faultReport_ok hl ho cause, fun kind ho => exec_faultReport_not_ok hl ho cause,
    fun ⟨ht, hf, ho⟩ => applyUnit_core (cause := cause.val) ht hf ho,
    fun ⟨ht, hf, ho⟩ => applyUnit_router (cause := cause.val) ht hf ho,
    applyUnit_page (cause := cause.val),
    fun ⟨ht, hf, ho⟩ => applyUnit_stack (cause := cause.val) ht hf ho,
    fun ⟨ht, hf, ho⟩ => applyUnit_dieCores (cause := cause.val) ht hf ho,
    fun ⟨ht, hf, ho⟩ => applyUnit_die (cause := cause.val) ht hf ho,
    fun hi => applyUnit_lane hi cause.val,
    fun hi hs => applyUnit_port hi hs cause.val,
    fun kind hk h2 ho hf ht => applyUnit_of_fenced (cause := cause.val) hk h2 ho hf ht,
    fun kind hk ho ht => applyUnit_of_tested (cause := cause.val) hk ho ht⟩

end Sys2Proof.Machine
end

