-- ==== Sys2Proof/Proofs/PilotWords.lean ====
section
/-! The pilot's instruction words: which word spells which instruction, and that decoder and encoder agree (R73 to R81, R580, R581). -/

namespace Sys2Proof.Machine
open Sys2Proof

/-- Word w spells instruction i: its opcode is that of i, its reserved bits are zero, each field holds its operand (R73 to R81,
R580, R581). -/
inductive Spells (w : Word) : PilotInsn → Prop where
  | alu (f : AluR) (hop : w.toNat / 2 ^ 26 = f.code) (hz : bits w.toNat 13 0 = 0) {d a b : BitVec 4}
      (hd : bits w.toNat 25 22 = d.toNat) (ha : bits w.toNat 21 18 = a.toNat) (hb : bits w.toNat 17 14 = b.toNat) :
      Spells w (.alu f d a b)
  | alui (f : AluI) (hop : w.toNat / 2 ^ 26 = f.code) (hz : bits w.toNat 17 16 = 0) {d a : BitVec 4} {imm : BitVec 16}
      (hd : bits w.toNat 25 22 = d.toNat) (ha : bits w.toNat 21 18 = a.toNat) (hi : bits w.toNat 15 0 = imm.toNat) :
      Spells w (.alui f d a imm)
  | li (hop : w.toNat / 2 ^ 26 = 14) (hz : bits w.toNat 21 16 = 0) {d : BitVec 4} {imm : BitVec 16}
      (hd : bits w.toNat 25 22 = d.toNat) (hi : bits w.toNat 15 0 = imm.toNat) : Spells w (.li d imm)
  | br (f : Br) (hop : w.toNat / 2 ^ 26 = f.code) (hz : bits w.toNat 17 12 = 0) {a b : BitVec 4} {off : BitVec 12}
      (ha : bits w.toNat 25 22 = a.toNat) (hb : bits w.toNat 21 18 = b.toNat) (ho : bits w.toNat 11 0 = off.toNat) :
      Spells w (.br f a b off)
  | jmp (hop : w.toNat / 2 ^ 26 = 20) (hz : bits w.toNat 25 10 = 0) {t : BitVec 10} (ht : bits w.toNat 9 0 = t.toNat) :
      Spells w (.jmp t)
  | done (hop : w.toNat / 2 ^ 26 = 23) (hz : bits w.toNat 25 0 = 0) : Spells w .done
  | ldw (hop : w.toNat / 2 ^ 26 = 24) (hz : bits w.toNat 17 16 = 0) {d a : BitVec 4} {imm : BitVec 16}
      (hd : bits w.toNat 25 22 = d.toNat) (ha : bits w.toNat 21 18 = a.toNat) (hi : bits w.toNat 15 0 = imm.toNat) :
      Spells w (.ldw d a imm)
  | stw (hop : w.toNat / 2 ^ 26 = 25) (hz : bits w.toNat 17 16 = 0) {v a : BitVec 4} {imm : BitVec 16}
      (hv : bits w.toNat 25 22 = v.toNat) (ha : bits w.toNat 21 18 = a.toNat) (hi : bits w.toNat 15 0 = imm.toNat) :
      Spells w (.stw v a imm)
  | tens (hop : w.toNat / 2 ^ 26 = 32) {desc : BitVec 6} {fa fb sa sb sc : BitVec 4} (hd : bits w.toNat 25 20 = desc.toNat)
      (hfa : bits w.toNat 19 16 = fa.toNat) (hfb : bits w.toNat 15 12 = fb.toNat) (ha : bits w.toNat 11 8 = sa.toNat)
      (hb : bits w.toNat 7 4 = sb.toNat) (hc : bits w.toNat 3 0 = sc.toNat) : Spells w (.tens desc fa fb sa sb sc)
  | vect (hop : w.toNat / 2 ^ 26 = 33) {desc vop : BitVec 6} {fmt sn sd : BitVec 4} {rnd : BitVec 2}
      (hd : bits w.toNat 25 20 = desc.toNat) (hv : bits w.toNat 19 14 = vop.toNat) (hf : bits w.toNat 13 10 = fmt.toNat)
      (hr : bits w.toNat 9 8 = rnd.toNat) (hn : bits w.toNat 7 4 = sn.toNat) (hs : bits w.toNat 3 0 = sd.toNat) :
      Spells w (.vect desc vop fmt rnd sn sd)
  | loop (hop : w.toNat / 2 ^ 26 = 34) (hz : bits w.toNat 11 8 = 0) {desc : BitVec 6} {kind width ss sd : BitVec 4}
      (hd : bits w.toNat 25 20 = desc.toNat) (hk : bits w.toNat 19 16 = kind.toNat) (hw : bits w.toNat 15 12 = width.toNat)
      (hs : bits w.toNat 7 4 = ss.toNat) (ht : bits w.toNat 3 0 = sd.toNat) : Spells w (.loop desc kind width ss sd)
  | tsend (hop : w.toNat / 2 ^ 26 = 36) (hz : bits w.toNat 19 8 = 0) {out : BitVec 3} {null : BitVec 1} {delta : BitVec 2}
      {len addr : BitVec 4} (ho : bits w.toNat 25 23 = out.toNat) (hn : bits w.toNat 22 22 = null.toNat)
      (hd : bits w.toNat 21 20 = delta.toNat) (hl : bits w.toNat 7 4 = len.toNat) (ha : bits w.toNat 3 0 = addr.toNat) :
      Spells w (.tsend out null delta len addr)
  | herd (hop : w.toNat / 2 ^ 26 = 40) {act : BitVec 2} {cnt : BitVec 4} {vid : BitVec 20}
      (ha : bits w.toNat 25 24 = act.toNat) (hc : bits w.toNat 23 20 = cnt.toNat) (hv : bits w.toNat 19 0 = vid.toNat) :
      Spells w (.herd act cnt vid)
  | yield (hop : w.toNat / 2 ^ 26 = 44) (hz : bits w.toNat 25 16 = 0) {m : BitVec 16} (hm : bits w.toNat 15 0 = m.toNat) :
      Spells w (.yield m)

theorem toNat_fieldAt (w : Word) {n lo hi : Nat} (hn : hi + 1 - lo = n := by decide) (hh : lo + n - 1 = hi := by decide) :
    bits w.toNat hi lo = (fieldAt w n lo).toNat := by
  rw [fieldAt, BitVec.toNat_ofNat, bits, bits, hh, hn, Nat.mod_mod]

theorem Spells.decodes {w : Word} {i : PilotInsn} (h : Spells w i) : decodePilot w = some i := by
  cases h with
  | alu f => cases f <;> simp [decodePilot, fieldAt, *, AluR.code, -Nat.reducePow]
  | alui f => cases f <;> simp [decodePilot, fieldAt, *, AluI.code, -Nat.reducePow]
  | br f => cases f <;> simp [decodePilot, fieldAt, *, Br.code, -Nat.reducePow]
  | _ => simp [decodePilot, fieldAt, *, -Nat.reducePow]

theorem spells_of_decodePilot {w : Word} {i : PilotInsn} (h : decodePilot w = some i) : Spells w i := by
  unfold decodePilot at h
  dsimp only at h
  split at h
  all_goals simp only [Option.ite_none_right_eq_some, Option.some.injEq, reduceCtorEq] at h
  case h_1 hop => exact h.2 ▸ .alu .add hop h.1 (toNat_fieldAt w) (toNat_fieldAt w) (toNat_fieldAt w)
  case h_2 hop => exact h.2 ▸ .alu .sub hop h.1 (toNat_fieldAt w) (toNat_fieldAt w) (toNat_fieldAt w)
  case h_3 hop => exact h.2 ▸ .alu .and hop h.1 (toNat_fieldAt w) (toNat_fieldAt w) (toNat_fieldAt w)
  case h_4 hop => exact h.2 ▸ .alu .or hop h.1 (toNat_fieldAt w) (toNat_fieldAt w) (toNat_fieldAt w)
  case h_5 hop => exact h.2 ▸ .alu .xor hop h.1 (toNat_fieldAt w) (toNat_fieldAt w) (toNat_fieldAt w)
  case h_6 hop => exact h.2 ▸ .alu .shl hop h.1 (toNat_fieldAt w) (toNat_fieldAt w) (toNat_fieldAt w)
  case h_7 hop => exact h.2 ▸ .alu .shr hop h.1 (toNat_fieldAt w) (toNat_fieldAt w) (toNat_fieldAt w)
  case h_8 hop => exact h.2 ▸ .alu .sra hop h.1 (toNat_fieldAt w) (toNat_fieldAt w) (toNat_fieldAt w)
  case h_9 hop => exact h.2 ▸ .alu .slt hop h.1 (toNat_fieldAt w) (toNat_fieldAt w) (toNat_fieldAt w)
  case h_10 hop => exact h.2 ▸ .alu .sltu hop h.1 (toNat_fieldAt w) (toNat_fieldAt w) (toNat_fieldAt w)
  case h_11 hop => exact h.2 ▸ .alui .addi hop h.1 (toNat_fieldAt w) (toNat_fieldAt w) (toNat_fieldAt w)
  case h_12 hop => exact h.2 ▸ .alui .andi hop h.1 (toNat_fieldAt w) (toNat_fieldAt w) (toNat_fieldAt w)
  case h_13 hop => exact h.2 ▸ .alui .shli hop h.1 (toNat_fieldAt w) (toNat_fieldAt w) (toNat_fieldAt w)
  case h_14 hop => exact h.2 ▸ .alui .shri hop h.1 (toNat_fieldAt w) (toNat_fieldAt w) (toNat_fieldAt w)
  case h_15 hop => exact h.2 ▸ .li hop h.1 (toNat_fieldAt w) (toNat_fieldAt w)
  case h_16 hop => exact h.2 ▸ .alui .lui hop h.1 (toNat_fieldAt w) (toNat_fieldAt w) (toNat_fieldAt w)
  case h_17 hop => exact h.2 ▸ .br .beq hop h.1 (toNat_fieldAt w) (toNat_fieldAt w) (toNat_fieldAt w)
  case h_18 hop => exact h.2 ▸ .br .bne hop h.1 (toNat_fieldAt w) (toNat_fieldAt w) (toNat_fieldAt w)
  case h_19 hop => exact h.2 ▸ .br .blt hop h.1 (toNat_fieldAt w) (toNat_fieldAt w) (toNat_fieldAt w)
  case h_20 hop => exact h.2 ▸ .br .bltu hop h.1 (toNat_fieldAt w) (toNat_fieldAt w) (toNat_fieldAt w)
  case h_21 hop => exact h.2 ▸ .jmp hop h.1 (toNat_fieldAt w)
  case h_22 hop => exact h.2 ▸ .done hop h.1
  case h_23 hop => exact h.2 ▸ .ldw hop h.1 (toNat_fieldAt w) (toNat_fieldAt w) (toNat_fieldAt w)
  case h_24 hop => exact h.2 ▸ .stw hop h.1 (toNat_fieldAt w) (toNat_fieldAt w) (toNat_fieldAt w)
  case h_25 hop =>
    exact h ▸ .tens hop (toNat_fieldAt w) (toNat_fieldAt w) (toNat_fieldAt w) (toNat_fieldAt w) (toNat_fieldAt w)
      (toNat_fieldAt w)
  case h_26 hop =>
    exact h ▸ .vect hop (toNat_fieldAt w) (toNat_fieldAt w) (toNat_fieldAt w) (toNat_fieldAt w) (toNat_fieldAt w)
      (toNat_fieldAt w)
  case h_27 hop => exact h.2 ▸ .loop hop h.1 (toNat_fieldAt w) (toNat_fieldAt w) (toNat_fieldAt w) (toNat_fieldAt w) (toNat_fieldAt w)
  case h_28 hop => exact h.2 ▸ .tsend hop h.1 (toNat_fieldAt w) (toNat_fieldAt w) (toNat_fieldAt w) (toNat_fieldAt w) (toNat_fieldAt w)
  case h_29 hop => exact h ▸ .herd hop (toNat_fieldAt w) (toNat_fieldAt w) (toNat_fieldAt w)
  case h_30 hop => exact h.2 ▸ .yield hop h.1 (toNat_fieldAt w)

/-- The number that the fields of a word make, each at its place. -/
def placed (fs : List (Nat × Nat)) : Nat := (fs.map fun f => f.2 * 2 ^ f.1).foldr (· + ·) 0

theorem placed_nil : placed [] = 0 := rfl

/- Not by `rfl`: the kernel would unfold the product with a power of two. -/
theorem placed_cons (n v : Nat) (fs : List (Nat × Nat)) : placed ((n, v) :: fs) = v * 2 ^ n + placed fs := by
  simp only [placed, List.map_cons, List.foldr_cons]

theorem wordOf_eq {w : Word} {fs : List (Nat × Nat)} (h : placed fs = w.toNat) : wordOf fs = w := by
  rw [wordOf, ← placed, h, BitVec.ofNat_toNat, BitVec.setWidth_eq]

theorem toNat_of_wordOf {w : Word} {fs : List (Nat × Nat)} (h : wordOf fs = w) (hs : placed fs < 2 ^ 32) : w.toNat = placed fs := by
  rw [← h, wordOf, BitVec.toNat_ofNat, ← placed, Nat.mod_eq_of_lt hs]

theorem aluR_code_le (f : AluR) : f.code ≤ 9 := by cases f <;> decide
theorem aluI_code_le (f : AluI) : f.code ≤ 15 := by cases f <;> decide
theorem br_code_le (f : Br) : f.code ≤ 19 := by cases f <;> decide

theorem Spells.encodes {w : Word} {i : PilotInsn} (h : Spells w i) : encodePilot i = w := by
  cases h
  all_goals
    refine wordOf_eq ?_
    simp only [placed_cons, placed_nil, bits] at *
    omega

theorem spells_encodePilot (i : PilotInsn) : Spells (encodePilot i) i := by
  generalize hw : encodePilot i = w
  cases i with
  | alu f d a b =>
    have := aluR_code_le f
    have hv := toNat_of_wordOf hw (by simp only [placed_cons, placed_nil]; omega)
    simp only [placed_cons, placed_nil] at hv
    constructor <;> simp -failIfUnchanged only [bits] <;> omega
  | alui f d a imm =>
    have := aluI_code_le f
    have hv := toNat_of_wordOf hw (by simp only [placed_cons, placed_nil]; omega)
    simp only [placed_cons, placed_nil] at hv
    constructor <;> simp -failIfUnchanged only [bits] <;> omega
  | br f a b off =>
    have := br_code_le f
    have hv := toNat_of_wordOf hw (by simp only [placed_cons, placed_nil]; omega)
    simp only [placed_cons, placed_nil] at hv
    constructor <;> simp -failIfUnchanged only [bits] <;> omega
  | _ =>
    have hv := toNat_of_wordOf hw (by simp only [placed_cons, placed_nil]; omega)
    simp only [placed_cons, placed_nil] at hv
    constructor <;> simp -failIfUnchanged only [bits] <;> omega

theorem decodePilot_eq_some_iff {w : Word} {i : PilotInsn} : decodePilot w = some i ↔ encodePilot i = w :=
  ⟨fun h => (spells_of_decodePilot h).encodes, fun h => h ▸ (spells_encodePilot i).decodes⟩

/-- Settles O6: a word decodes to an instruction where it spells it, which is where the encoder writes it. -/
theorem pilotDecodeOfEncode : Obligations.PilotDecodeOfEncode :=
  ⟨fun _ => decodePilot_eq_some_iff.mpr rfl, fun _ _ => decodePilot_eq_some_iff.mp⟩

/-- Settles O7: the decoder is run on each word. -/
theorem pilotWordsDecode : Obligations.PilotWordsDecode := by
  unfold Obligations.PilotWordsDecode
  decide +kernel

end Sys2Proof.Machine
end

