-- ==== Sys2Proof/Proofs/PilotScalars.lean ====
section
/-! The pilot's scalar instructions (R71, R580, R581): registers, arithmetic, branches, and the accesses of the scratchpad with their
program faults (R83). -/

namespace Sys2Proof.Machine
open Sys2Proof

/-! ## The core behind a reference -/

@[simp] theorem regionOf_key (k : CoreRef) : regionOf k.key = k.p.val := by
  have := k.c.isLt
  have := k.l.isLt
  rw [regionOf, CoreRef.key]
  omega

/-! ## Registers (R71, R581) -/

section
variable (c : CoreState) (i j : BitVec 4) (v : Word)

@[simp] theorem CoreState.sreg_zero : c.sreg 0 = 0#32 := rfl

@[simp] theorem CoreState.setSreg_zero : c.setSreg 0 v = c := rfl

@[simp] theorem CoreState.handler_setSreg : (c.setSreg i v).handler = c.handler := by
  unfold CoreState.setSreg
  split <;> rfl

@[simp] theorem CoreState.block_setSreg : (c.setSreg i v).block = c.block := by
  unfold CoreState.setSreg
  split <;> rfl

variable {i j}

theorem CoreState.setSreg_of_ne (h : i ≠ 0) :
    c.setSreg i v = { c with regs := (c.regs ++ List.replicate (16 - c.regs.length) 0#32).set i.toNat v } :=
  if_neg h

theorem CoreState.sreg_of_ne (h : i ≠ 0) : c.sreg i = c.regs.getD i.toNat 0#32 := if_neg h

theorem CoreState.sreg_setSreg_self (h : i ≠ 0) : (c.setSreg i v).sreg i = v := by
  have hi := i.isLt
  rw [c.setSreg_of_ne v h, CoreState.sreg_of_ne _ h]
  have hn : i.toNat < (c.regs ++ List.replicate (16 - c.regs.length) 0#32).length := by
    rw [List.length_append, List.length_replicate]
    omega
  rw [List.getD_eq_getElem?_getD, List.getElem?_set_self hn, Option.getD_some]

/-- The padding of a short register list reads zero, as what lies beyond it does. -/
theorem getD_append_replicate (l : List Word) (n k : Nat) : (l ++ List.replicate n 0#32).getD k 0#32 = l.getD k 0#32 := by
  simp only [List.getD_eq_getElem?_getD, List.getElem?_append, List.getElem?_replicate]
  split
  · rfl
  · split <;> simp [*]

theorem CoreState.sreg_setSreg_ne (h : j ≠ i) : (c.setSreg i v).sreg j = c.sreg j := by
  by_cases hi : i = 0
  · rw [hi, CoreState.setSreg_zero]
  by_cases hj : j = 0
  · rw [hj, CoreState.sreg_zero, CoreState.sreg_zero]
  have hn : i.toNat ≠ j.toNat := fun e => h (BitVec.eq_of_toNat_eq e.symm)
  rw [c.setSreg_of_ne v hi, CoreState.sreg_of_ne _ hj, c.sreg_of_ne hj, ← getD_append_replicate c.regs (16 - c.regs.length) j.toNat]
  simp only [List.getD_eq_getElem?_getD, List.getElem?_set_ne hn]

end

/-! ## The instruction at the pc -/

section
variable {k : Nat} {s : State} {h : Handler} {i : PilotInsn}

/-- The instruction at the pc is what a command of the pilot acts on. -/
theorem State.onInsn_eq (hi : s.pilotInsn k = some (h, i)) (f : CoreState → Handler → PilotInsn → Option State) :
    s.onInsn k f = (f (s.core k) h i).getD s := by
  rw [State.onInsn, hi]

theorem act_aluR {f : AluR} {d a b : BitVec 4} (hl : s.live = true) (hi : s.pilotInsn k = some (h, .alu f d a b)) :
    s.act (s.aluR f k) = .next (s.setCore k
      (((s.core k).setSreg d (aluRVal f ((s.core k).sreg a) ((s.core k).sreg b))).advance h (h.pc + 1))) := by
  rw [State.act_live _ hl, State.aluR, State.onInsn_eq hi]
  simp

theorem act_aluI {f : AluI} {d a : BitVec 4} {imm : BitVec 16} (hl : s.live = true)
    (hi : s.pilotInsn k = some (h, .alui f d a imm)) :
    s.act (s.aluI f k) = .next (s.setCore k
      (((s.core k).setSreg d (aluIVal f ((s.core k).sreg a) imm)).advance h (h.pc + 1))) := by
  rw [State.act_live _ hl, State.aluI, State.onInsn_eq hi]
  simp

theorem act_branch {f : Br} {a b : BitVec 4} {off : BitVec 12} (hl : s.live = true)
    (hi : s.pilotInsn k = some (h, .br f a b off)) :
    s.act (s.branch f k) = .next (s.setCore k ((s.core k).advance h
      (if brTaken f ((s.core k).sreg a) ((s.core k).sreg b) then brTarget h.pc off else h.pc + 1))) := by
  rw [State.act_live _ hl, State.branch, State.onInsn_eq hi]
  simp

end

/-! ## Scalar arithmetic (R580) -/

theorem aluRVal_slt (a b : Word) : aluRVal .slt a b = if a.toInt < b.toInt then 1#32 else 0#32 := by
  simp [aluRVal, BitVec.slt]

theorem aluRVal_sltu (a b : Word) : aluRVal .sltu a b = if a.toNat < b.toNat then 1#32 else 0#32 := by
  simp [aluRVal, BitVec.ult]

theorem aluIVal_lui (a : Word) (imm : BitVec 16) : aluIVal .lui a imm = imm ++ a.extractLsb' 0 16 := by
  apply BitVec.eq_of_toNat_eq
  have := imm.isLt
  rw [aluIVal, BitVec.toNat_append, BitVec.toNat_ofNat, BitVec.extractLsb'_toNat, Nat.shiftRight_zero,
    ← Nat.shiftLeft_add_eq_or_of_lt (Nat.mod_lt _ (by decide)), Nat.shiftLeft_eq]
  omega

theorem Spells.opcode_alu {w : Word} {f : AluR} {d a b : BitVec 4} (h : Spells w (.alu f d a b)) : w.toNat / 2 ^ 26 = f.code := by
  cases h
  assumption

theorem Spells.opcode_alui {w : Word} {f : AluI} {d a : BitVec 4} {imm : BitVec 16} (h : Spells w (.alui f d a imm)) :
    w.toNat / 2 ^ 26 = f.code := by
  cases h
  assumption

theorem Spells.opcode_li {w : Word} {d : BitVec 4} {imm : BitVec 16} (h : Spells w (.li d imm)) : w.toNat / 2 ^ 26 = 14 := by
  cases h
  assumption

/-- Settles O8: each instruction by the rule of its form, each opcode by the word that spells it. -/
theorem pilotScalarArithmeticResults : Obligations.PilotScalarArithmeticResults := by
  intro k s h i hl hi c writes
  have regForm {f : AluR} {d a b : BitVec 4} (e : i = .alu f d a b) := act_aluR hl (e ▸ hi)
  have immForm {f : AluI} {d a : BitVec 4} {imm : BitVec 16} (e : i = .alui f d a imm) := act_aluI hl (e ▸ hi)
  refine ⟨fun d a b e => regForm e, fun d a b e => regForm e, fun d a b e => regForm e, fun d a b e => regForm e,
    fun d a b e => regForm e, fun d a b e => regForm e, fun d a b e => regForm e, fun d a b e => regForm e,
    fun d a b e => ?slt, fun d a b e => ?sltu, fun d a imm e => immForm e, fun d a imm e => immForm e,
    fun d a imm e => immForm e, fun d a imm e => immForm e, fun d imm e => ?li, fun d a imm e => ?lui,
    fun w f d a b hw => (spells_of_decodePilot hw).opcode_alu, fun w f d a imm hw => (spells_of_decodePilot hw).opcode_alui,
    fun w d imm hw => (spells_of_decodePilot hw).opcode_li, rfl, rfl⟩
  case slt => exact aluRVal_slt (c.sreg a) (c.sreg b) ▸ regForm e
  case sltu => exact aluRVal_sltu (c.sreg a) (c.sreg b) ▸ regForm e
  case lui => exact aluIVal_lui (c.sreg a) imm ▸ immForm e
  case li =>
    refine (State.act_live _ hl).trans ?_
    rw [State.pilotLi, State.onInsn_eq (e ▸ hi)]
    rfl

end Sys2Proof.Machine
end

