-- ==== Sys2Proof/Proofs/PilotAccesses.lean ====
section
/-! Program faults (R83, R94), and the pilot's branches, jumps, scratchpad accesses and tokens sent (R79, R581, R583). -/

namespace Sys2Proof.Machine
open Sys2Proof

/-! ## What a core reads as -/

@[simp] theorem State.core_modCore_self (s : State) (k : Nat) (f : CoreState → CoreState) :
    (s.modCore k f).core k = f (s.core k) := State.core_setCore_self _ _ _

@[simp] theorem State.core_sample (s : State) (cls src : Nat) (ev : EvKind) (j : Nat) :
    (s.sample cls src ev).core j = s.core j := rfl

/-! ## Program faults -/

/-- What a program fault changes. -/
def faultParts : List Part := [.reg .CORE_FAULT, .cores, .seq]

/-- The registers of a core after a program fault. -/
def State.faultShown (s : State) (k : Nat) (cause : Fld) (pc : Nat) : State :=
  (if s.noFault k then s.put CORE_FAULT.first_pc k pc else s).put cause k 1

theorem State.programFault_eq (s : State) (k : Nat) (cause : Fld) (pc : Nat) : s.programFault k cause pc =
    if (s.core k).faulted then s.faultShown k cause pc
    else ((s.faultShown k cause pc).modCore k fun c => { c with faulted := true }).sample 6 (s.coreUnit k) (.programFault k) := rfl

@[simp] theorem State.core_faultShown (s : State) (k : Nat) (cause : Fld) (pc j : Nat) :
    (s.faultShown k cause pc).core j = s.core j := by
  unfold State.faultShown
  split <;> rfl

section
variable {k : Nat} {cause : Fld} {pc : Nat}

theorem State.faultShown_part {p : Part} (hc : cause.reg = .CORE_FAULT) (h : p ≠ .reg .CORE_FAULT) (s : State) :
    (s.faultShown k cause pc).part p = s.part p :=
  (State.put_part (hc ▸ h) _ _ _).trans (State.part_ite (fun _ => State.put_part h s _ _) fun _ => rfl)

theorem State.programFault_shown {p : Part} (hk : p ≠ .cores) (hs : p ≠ .seq) (s : State) :
    (s.programFault k cause pc).part p = (s.faultShown k cause pc).part p := by
  rw [State.programFault_eq]
  refine State.part_ite (fun _ => rfl) fun _ => ?_
  rw [State.sample_part hs, State.modCore_part hk]

theorem State.programFault_part {p : Part} (hc : cause.reg = .CORE_FAULT) (h : p ∉ faultParts) (s : State) :
    (s.programFault k cause pc).part p = s.part p :=
  (State.programFault_shown (Part.ne h) (Part.ne h) s).trans (State.faultShown_part hc (Part.ne h) s)

@[simp] theorem State.core_programFault_self (s : State) :
    (s.programFault k cause pc).core k = { s.core k with faulted := true } := by
  rw [State.programFault_eq]
  split
  next h => rw [State.core_faultShown, ← h]
  next => rw [State.core_sample, State.core_modCore_self, State.core_faultShown]

/-- The cause of a program fault shows in CORE_FAULT (R94). -/
theorem State.flag_programFault (hc : cause.reg = .CORE_FAULT) (hw : cause.lo ≤ cause.hi ∧ cause.hi < 64) (s : State) :
    (s.programFault k cause pc).flag cause k = true :=
  (State.flag_of_part (State.programFault_shown (by rw [hc]; decide) (by rw [hc]; decide) s) k).trans (State.flag_put_one hw _ k)

/-- The first fault of a core leaves the index of its instruction (R94). -/
theorem State.firstPc_programFault (hc : cause.reg = .CORE_FAULT) (hw : cause.lo ≤ cause.hi ∧ cause.hi < 16) {s : State}
    (hn : s.noFault k = true) : (s.programFault k cause pc).get CORE_FAULT.first_pc k = pc % 1024 := by
  rw [State.get_of_part (f := CORE_FAULT.first_pc) (State.programFault_shown (by decide) (by decide) s), State.faultShown, if_pos hn,
    State.get_put_apart hc.symm ⟨hw.1, by omega, Or.inl hw.2⟩, State.get_put_self _ _ _ _ (by decide) (by decide)]
  rfl

end

/-- What an instruction does that has one effect under a condition, as `State.onInsn` takes it. -/
theorem getD_ite {c : Prop} [Decidable c] (a s : State) (o : Option State) :
    (if c then some a else o).getD s = if c then a else o.getD s := by
  split <;> rfl

/-! ## Branches (R581) -/

/-- A branch's target is its own index plus the signed offset, modulo the 1,024 words of the program store. -/
theorem brTarget_eq (pc : Nat) (off : BitVec 12) : brTarget pc off = (((pc : Int) + off.toInt) % 1024).toNat := by
  have : ((off.signExtend 32).toNat : Int) = off.toInt % 4294967296 := by
    rw [BitVec.signExtend, BitVec.toNat_ofInt]
    omega
  rw [brTarget]
  omega

/-! ## Accesses of the scratchpad (R83, R581) -/

theorem spadWordOk_iff {a : Nat} : spadWordOk a = true ↔ a % 4 = 0 ∧ a + 4 ≤ 786432 := by
  unfold spadWordOk
  exact Bool.and_eq_true_iff.trans (and_congr decide_eq_true_iff decide_eq_true_iff)

section
variable {k : Nat} {s : State} {h : Handler} {d a : BitVec 4} {imm : BitVec 16}

theorem act_ldw (hl : s.live = true) (hi : s.pilotInsn k = some (h, .ldw d a imm)) : s.act (s.pilotLdw k) =
    .next (if spadWordOk (ldwAddr (s.core k) a imm) then
      s.setCore k (((s.core k).setSreg d (BitVec.ofNat 32 (s.loadN (s.spad k + ldwAddr (s.core k) a imm) 4))).advance h (h.pc + 1))
    else s.programFault k CORE_FAULT.bad_address h.pc) := by
  rw [State.act_live _ hl, State.pilotLdw, State.onInsn_eq hi]
  dsimp only
  rw [getD_ite, Option.getD_some]

theorem act_stw (hl : s.live = true) (hi : s.pilotInsn k = some (h, .stw d a imm)) : s.act (s.pilotStw k) =
    .next (if spadWordOk (ldwAddr (s.core k) a imm) then
      (s.setCore k ((s.core k).advance h (h.pc + 1))).storeN (s.spad k + ldwAddr (s.core k) a imm) 4 ((s.core k).sreg d).toNat
    else s.programFault k CORE_FAULT.bad_address h.pc) := by
  rw [State.act_live _ hl, State.pilotStw, State.onInsn_eq hi]
  dsimp only
  rw [getD_ite, Option.getD_some]

end

/-- Settles O9: the register rules, the branch rule with its target, and the two outcomes of a scratchpad access. -/
theorem pilotRegistersBranchesAndMemory : Obligations.PilotRegistersBranchesAndMemory := by
  refine ⟨fun c i j v => ⟨rfl, rfl, c.sreg_setSreg_self v, c.sreg_setSreg_ne v, c.handler_setSreg i v, c.block_setSreg i v⟩,
    fun k s h i hl hi => ?_, fun k s h d a imm hl => ?_⟩
  · have branch {f : Br} {a b : BitVec 4} {off : BitVec 12} (e : i = .br f a b off) := act_branch hl (e ▸ hi)
    simp only [brTarget_eq] at branch
    refine ⟨fun a b off e => branch e, fun a b off e => branch e, fun a b off e => branch e, fun a b off e => branch e, fun t e => ?_⟩
    refine (State.act_live _ hl).trans ?_
    rw [State.pilotJmp, State.onInsn_eq (e ▸ hi)]
    rfl
  · refine ⟨fun hi => ?_, fun hi => ?_, State.programFault_mem s _ _ _, by rw [State.core_programFault_self]⟩
    · exact ⟨fun ha => (act_ldw hl hi).trans (congrArg _ (if_pos (spadWordOk_iff.mpr ha))),
        fun ha => (act_ldw hl hi).trans (congrArg _ (if_neg (mt spadWordOk_iff.mp ha)))⟩
    · exact ⟨fun ha => (act_stw hl hi).trans (congrArg _ (if_pos (spadWordOk_iff.mpr ha))),
        fun ha => (act_stw hl hi).trans (congrArg _ (if_neg (mt spadWordOk_iff.mp ha)))⟩

/-! ## Tokens sent (R79, R583) -/

/-- The token that a handler puts on output j (R79, R167). -/
def State.outToken (s : State) (k op slot : Nat) (t : Tag) (j : Nat) (null : Bool) (len addr : Nat) : Token :=
  let e := (s.core k).block.route op j
  { epoch := BitVec.ofNat 12 (s.repoch (regionOf k)), tag := t,
    dst := 256 * rtRegion e + 16 * rtCluster e + rtCore e, op := rtOp e, port := rtPort e, null := null,
    courier := rtCourier e, length := len, addr := addr, cls := rtClass e,
    src := .core k op j slot, from_ := clusterOf k,
    mode := if rtMode e = 1 then .multicast (rtGroup e)
      else if rtMode e = 2 then .reduction (16 * rtRegion e + rtCluster e) (rtNode e) (rtLeaf e) (rtRedOp e)
      else .unicast }

theorem State.sendOut_eq (s : State) (k op slot : Nat) (t : Tag) (j : Nat) (null : Bool) (len addr : Nat) :
    s.sendOut k op slot t j null len addr =
      { s with noc := { s.noc with tokens := s.noc.tokens ++ [s.outToken k op slot t j null len addr] } } := rfl

theorem State.repoch_lt (s : State) (p : Nat) : s.repoch p < 2 ^ 12 := Nat.mod_lt _ (by decide)

/-- The bytes of a token that waits stand in its sender's scratchpad (R79). -/
theorem State.stagedData_of_core {t : Token} {a b d f : Nat} (hs : t.src = .core a b d f) (hp : t.phase = .waiting) (s : State) :
    s.stagedData t = s.load (s.spad a + t.addr) (64 * t.length) := by
  simp only [State.stagedData, hs, hp, if_true]

section
variable {k : CoreRef} {s : State} {h : Handler} {out : BitVec 3} {null : BitVec 1} {delta : BitVec 2} {len addr : BitVec 4}

/-- The pilot moves on and one token leaves on an output of its operation. -/
def State.tsent (s : State) (k : Nat) (h : Handler) (out : BitVec 3) (delta : BitVec 2) (null : Bool) (len addr : Nat) : State :=
  (s.setCore k ((s.core k).advance h (h.pc + 1))).sendOut k h.op (slotOf (s.core k).block h.op h.tag)
    (h.tag + delta.zeroExtend 16) out.toNat null len addr

/-- TSEND by its outcomes: a null token, a fault of its length, a fault of its address, a token with data (R583). -/
theorem exec_tsend (hl : s.live = true) (hi : s.pilotInsn k.key = some (h, .tsend out null delta len addr)) :
    exec (.tsend k) s = .next (if null = 1 then s.tsent k.key h out delta true 0 0
      else if 16383 < ((s.core k.key).sreg len).toNat then s.programFault k.key CORE_FAULT.oversize h.pc
      else if ((s.core k.key).sreg addr).toNat % 64 ≠ 0 ∨
          spadSize < ((s.core k.key).sreg addr).toNat + 64 * ((s.core k.key).sreg len).toNat then
        s.programFault k.key CORE_FAULT.bad_address h.pc
      else s.tsent k.key h out delta false ((s.core k.key).sreg len).toNat ((s.core k.key).sreg addr).toNat) := by
  refine (State.act_live _ hl).trans (congrArg _ ?_)
  rw [State.pilotTsend, State.onInsn_eq hi]
  dsimp only
  rw [getD_ite, getD_ite, getD_ite, Option.getD_some, State.tsent, State.tsent]

end

/-- Settles O10: the four outcomes of TSEND; a sent token has its route's destination and waits, a fault shows in CORE_FAULT. -/
theorem tsendSendsOrFaults : Obligations.TsendSendsOrFaults := by
  intro k s h out null delta len addr hl hi c n a sends
  have he := exec_tsend hl hi
  have one_ne {x : BitVec 1} (hx : x = 0) : x ≠ 1 := by rw [hx]; decide
  have sent {b : Bool} {m at_ : Nat} (hb : b = decide (null = 1))
      (ht : exec (.tsend k) s = .next (s.tsent k.key h out delta b m at_)) : sends m at_ := by
    refine ⟨_, ht, _, State.sendOut_eq _ _ _ _ _ _ _ _ _, rfl, hb, rfl, rfl, rfl, ?op, ?port, ?epoch, rfl,
      State.stagedData_of_core rfl rfl s⟩
    case op => simp only [State.outToken, State.core_setCore_self]; rfl
    case port => simp only [State.outToken, State.core_setCore_self]; rfl
    case epoch =>
      rw [← regionOf_key, ← Nat.mod_eq_of_lt (s.repoch_lt (regionOf k.key))]
      exact BitVec.toNat_ofNat _ _
  refine ⟨fun h1 => sent (by simp [h1]) (he.trans (congrArg _ (if_pos h1))),
    fun h0 hn => he.trans (congrArg _ ((if_neg (one_ne h0)).trans (if_pos hn))),
    fun h0 hn ha => he.trans (congrArg _ ((if_neg (one_ne h0)).trans ((if_neg (Nat.not_lt.mpr hn)).trans (if_pos ha)))),
    fun h0 hn ha hs => sent (by simp [h0]) (he.trans (congrArg _ ((if_neg (one_ne h0)).trans ((if_neg (Nat.not_lt.mpr hn)).trans
      (if_neg fun hx => hx.elim (fun hx => hx ha) (Nat.not_lt.mpr hs)))))), fun cause hc => ?_⟩
  have hr : cause.reg = .CORE_FAULT ∧ cause.lo ≤ cause.hi ∧ cause.hi < 16 := by
    rcases List.mem_pair.mp hc with rfl | rfl <;> decide
  exact ⟨State.programFault_part (p := .noc) hr.1 (by decide) s, State.flag_programFault hr.1 ⟨hr.2.1, by omega⟩ s,
    State.firstPc_programFault hr.1 hr.2⟩

end Sys2Proof.Machine
end

