-- ==== Sys2Proof/Proofs/Dispatch.lean ====
section
/-! The matcher's dispatch (R65 to R71), the end of a handler and null retirement (R63, R68). -/

namespace Sys2Proof.Machine
open Sys2Proof

/-! ## The registers at dispatch (R71) -/

theorem portBit_eq_twoPow (k : Fin 8) : portBit k.val = BitVec.twoPow 8 k.val := by
  revert k
  decide

theorem portBit_ne_zero (k : Fin 8) : portBit k.val ≠ 0#8 := by
  revert k
  decide

/-- A mask meets the bit of a port where it has that bit. -/
theorem and_portBit_ne_zero_iff (m : BitVec 8) (k : Fin 8) : m &&& portBit k.val ≠ 0#8 ↔ m.getLsbD k.val = true := by
  rw [portBit_eq_twoPow, BitVec.and_twoPow, ← portBit_eq_twoPow]
  split
  next h => exact iff_of_true (portBit_ne_zero k) h
  next h => exact iff_of_false (fun hn => hn rfl) h

section
variable (c : CoreState) (m : MEntry) (finish : Bool)

/-- What s1 to s8 hold: the address of the port's slot, all ones for a null port or one that the operation has not (R71). -/
def CoreState.portReg (k : Nat) : Word :=
  if opPorts (c.block.op m.op) ≤ k ∨ m.nulls &&& portBit k ≠ 0#8 then 0xFFFFFFFF#32
  else BitVec.ofNat 32 (portSlotAddr (c.block.port m.op k) (m.tag.toNat % opDepth (c.block.op m.op)))

/-- What s10 holds: the mask of null ports, the operation, the low bits of the tag, the finish bit (R71). -/
def MEntry.infoReg : Word :=
  BitVec.ofNat 32 (m.nulls.toNat + m.op * 256 + m.tag.toNat % 4 * 8192 + (if finish then 32768 else 0))

theorem CoreState.dispatchRegs_eq : c.dispatchRegs m finish =
    [0#32, c.portReg m 0, c.portReg m 1, c.portReg m 2, c.portReg m 3, c.portReg m 4, c.portReg m 5, c.portReg m 6, c.portReg m 7,
      m.tag.zeroExtend 32, m.infoReg finish, BitVec.ofNat 32 (stagingAddr (c.block.op m.op) m.tag), 0#32, 0#32, 0#32, 0#32] := rfl

theorem CoreState.getElem?_dispatchRegs_port (k : Fin 8) : (c.dispatchRegs m finish)[1 + k.val]? = some (c.portReg m k.val) := by
  rw [CoreState.dispatchRegs_eq]
  fin_cases k <;> rfl

theorem CoreState.portReg_eq (k : Fin 8) : c.portReg m k.val =
    if opPorts (c.block.op m.op) ≤ k.val ∨ m.nulls.getLsbD k.val = true then 0xFFFFFFFF#32
    else BitVec.ofNat 32 (portSlotAddr (c.block.port m.op k.val) (m.tag.toNat % opDepth (c.block.op m.op))) :=
  if_congr (or_congr_right (and_portBit_ne_zero_iff _ _)) rfl rfl

variable {m}

theorem MEntry.toNat_infoReg (hop : m.op < 32) : (m.infoReg finish).toNat =
    m.nulls.toNat + m.op * 256 + m.tag.toNat % 4 * 8192 + (if finish then 32768 else 0) := by
  have := m.nulls.isLt
  rw [MEntry.infoReg, BitVec.toNat_ofNat]
  split <;> omega

theorem MEntry.infoReg_fields (hop : m.op < 32) : (m.infoReg finish).extractLsb' 0 8 = m.nulls ∧
    ((m.infoReg finish).extractLsb' 8 5).toNat = m.op ∧ (m.infoReg finish).extractLsb' 13 2 = m.tag.extractLsb' 0 2 ∧
    (m.infoReg finish).getLsbD 15 = finish ∧ (m.infoReg finish).extractLsb' 16 16 = 0#16 := by
  have hv := MEntry.toNat_infoReg finish hop
  have := m.nulls.isLt
  generalize m.infoReg finish = w at hv
  refine ⟨BitVec.eq_of_toNat_eq ?_, ?_, BitVec.eq_of_toNat_eq ?_, ?_, BitVec.eq_of_toNat_eq ?_⟩
  · rw [BitVec.extractLsb'_toNat, Nat.shiftRight_eq_div_pow, hv]
    split <;> omega
  · rw [BitVec.extractLsb'_toNat, Nat.shiftRight_eq_div_pow, hv]
    split <;> omega
  · rw [BitVec.extractLsb'_toNat, BitVec.extractLsb'_toNat, Nat.shiftRight_eq_div_pow, Nat.shiftRight_eq_div_pow, hv]
    split <;> omega
  · rw [BitVec.getLsbD, Nat.testBit_eq_decide_div_mod_eq, hv]
    cases finish <;> simp <;> omega
  · rw [BitVec.extractLsb'_toNat, Nat.shiftRight_eq_div_pow, hv, BitVec.toNat_ofNat]
    split <;> omega

end

/-! ## Counters -/

/-- A counter after an advance (R498). -/
theorem State.rn_bump {r : Reg} (h : r ≠ .MGT_SAT) (s : State) (i n : Nat) :
    (s.bump r i n).rn r i = min (s.rn r i + n) (2 ^ 64 - 1) :=
  State.rn_bump_self s r i n (Reg.key_ne_of_ne h 0 i)

@[simp] theorem State.core_bump (s : State) (r : Reg) (i n j : Nat) : (s.bump r i n).core j = s.core j := by
  rw [State.core, State.bump_cores, State.core]

@[simp] theorem State.rn_setCore (s : State) (k : Nat) (c : CoreState) (r : Reg) (i : Nat) : (s.setCore k c).rn r i = s.rn r i := rfl

/-! ## Null tokens on every output (R63) -/

/-- What a number of sends leave: the tokens sent stand behind the others, in order. -/
theorem State.sendOuts_eq (k op slot : Nat) (t : Tag) (l : List Nat) (s : State) :
    ∃ sent : List Token, l.foldl (fun s j => s.sendOut k op slot t j true 0 0) s =
        { s with noc := { s.noc with tokens := s.noc.tokens ++ sent } } ∧
      sent.length = l.length ∧ ∀ x ∈ sent, x.null = true ∧ x.tag = t ∧ x.length = 0 := by
  induction l generalizing s with
  | nil => exact ⟨[], by simp, rfl, nofun⟩
  | cons j l ih =>
    obtain ⟨sent, hs, hn, hx⟩ := ih (s.sendOut k op slot t j true 0 0)
    refine ⟨s.outToken k op slot t j true 0 0 :: sent, ?_, congrArg Nat.succ hn, List.forall_mem_cons.mpr ⟨⟨rfl, rfl, rfl⟩, hx⟩⟩
    rw [List.foldl_cons, hs, State.sendOut_eq]
    simp

/-! ## The rows -/

section
variable {k : CoreRef} {s : State}

theorem matcherDispatch_starts (hl : s.live = true) {m : MEntry} (hon : s.matcherOn k.key = true)
    (hh : (s.core k.key).handler = none) (hm : firstEntry (s.core k.key).base ((s.core k.key).entries.filter fun x =>
      s.dispatchable k.key x && !(x.state = .ready && (s.core k.key).allNull x)) = some m) :
    Completes (.matcherDispatch k) s fun u =>
      let fin := decide (m.state = .finishReady)
      let e := (s.core k.key).block.op m.op
      (u.core k.key).regs = (s.core k.key).dispatchRegs m fin ∧
      (u.core k.key).handler =
        some { op := m.op, tag := m.tag, finish := fin, pc := if fin then opFinishPc e else opIssuePc e } ∧
      u.rn .CORE_FIRE_COUNT k.key =
        (if fin then s.rn .CORE_FIRE_COUNT k.key else min (s.rn .CORE_FIRE_COUNT k.key + 1) (2 ^ 64 - 1)) ∧ u.mem = s.mem := by
  refine ⟨_, State.act_live _ hl, ?_⟩
  rw [hon, hh]
  simp only [Option.isNone_none, Bool.and_self, if_true]
  rw [hm]
  by_cases hf : m.state = .finishReady
  · simp [hf]
  · simp [hf, State.rn_bump]

theorem nullRetire_retires (hl : s.live = true) {m : MEntry} (hon : s.matcherOn k.key = true)
    (hm : firstEntry (s.core k.key).base ((s.core k.key).entries.filter fun x =>
      x.state = .ready && (s.core k.key).allNull x && s.dispatchable k.key x) = some m) :
    Completes (.nullRetire k) s fun u =>
      u.core k.key = (s.core k.key).retire m.op m.tag ∧ u.mem = s.mem ∧
      u.rn .CORE_NULL_COUNT k.key = min (s.rn .CORE_NULL_COUNT k.key + 1) (2 ^ 64 - 1) ∧
      ∃ sent : List Token, u.noc.tokens = s.noc.tokens ++ sent ∧ sent.length = opOuts ((s.core k.key).block.op m.op) ∧
        ∀ x ∈ sent, x.null = true ∧ x.tag = m.tag ∧ x.length = 0 := by
  refine ⟨_, State.act_live _ hl, ?_⟩
  rw [hon, if_pos rfl, hm]
  obtain ⟨sent, hs, hn, hx⟩ := State.sendOuts_eq k.key m.op (slotOf (s.core k.key).block m.op m.tag) m.tag
    (upto (opOuts ((s.core k.key).block.op m.op))) s
  dsimp only
  rw [hs]
  refine ⟨by simp, by simp, ?_, sent, by simp, by rw [hn, upto, List.length_range], hx⟩
  rw [State.rn_bump (by decide)]
  rfl

end

/-- Settles O14: the register file at dispatch word by word, each row by the entry that the matcher finds or the handler that ends. -/
theorem handlersDispatchAndRetire : Obligations.HandlersDispatchAndRetire := by
  refine ⟨fun c m finish hop => ?_, fun k s hl => ?_⟩
  · intro r e
    have hs : stagingAddr e m.tag = opOutBase e * 64 + (m.tag.toNat % opDepth e) * (opOutSlot e * 64) := by
      rw [stagingAddr, Nat.mul_assoc]
    refine ⟨rfl, rfl, fun k => ?_, rfl, ⟨_, rfl, MEntry.infoReg_fields finish hop⟩, hs ▸ rfl, rfl, rfl, rfl, rfl⟩
    rw [← CoreState.portReg_eq]
    exact c.getElem?_dispatchRegs_port m finish k
  · refine ⟨fun m hon hh hm => ?_, fun h m hi hf hm => ?_, fun h hi hf => ?_, fun m hon hm => nullRetire_retires hl hon hm⟩
    · obtain ⟨u, hu, hregs, hhandler, hcount, hmem⟩ := matcherDispatch_starts hl hon hh hm
      exact ⟨u, hu, hregs, ⟨_, hhandler, rfl, rfl, rfl, rfl, rfl⟩, hcount, hmem⟩
    · refine (State.act_live _ hl).trans (congrArg _ ?_)
      rw [State.pilotDone, State.onInsn_eq hi]
      simp only [hf]
      have hm' : ({ s.core k.key with handler := none } : CoreState).entry h.op h.tag = some m := hm
      rw [hm']
      rfl
    · refine (State.act_live _ hl).trans (congrArg _ ?_)
      rw [State.pilotDone, State.onInsn_eq hi]
      simp only [hf]
      rfl

end Sys2Proof.Machine
end

