-- ==== Sys2Proof/Proofs/HerdsAndHalts.lean ====
section
/-! HERD and YIELD (R80, R81, R293), the watchdog (R83), and the halt of a region by a sampled fault (R70, R83, R293). -/

namespace Sys2Proof.Machine
open Sys2Proof

/-- A core reads as before where the cores do. -/
theorem State.core_of_part {s t : State} (h : t.part .cores = s.part .cores) (j : Nat) : t.core j = s.core j :=
  congrArg (fun m : Sparse CoreState => spGet ({} : CoreState) m j) h

/-! ## HERD (R80, R293) -/

section
variable {k : CoreRef} {s : State} {h : Handler}

/-- A HERD operation on its way to the herding unit; the handler of its core goes on as `h'`. -/
def State.herdSent (s : State) (k : CoreRef) (h' : Handler) (m : HerdMsg) : State :=
  let t := s.setCore k.key { s.core k.key with handler := some h' }
  { t with hrd := { t.hrd with msgs := t.hrd.msgs ++ [m] } }

/-- The operation carries the context of its region. -/
theorem act_herd {a : BitVec 2} {cnt : BitVec 4} {vid : BitVec 20} (hl : s.live = true)
    (hi : s.pilotInsn k.key = some (h, .herd a cnt vid)) : s.act (s.pilotHerd a k.key) = .next (s.herdSent k
      (if a = 2 then { h.next (h.pc + 1) with wait := .herd } else h.next (h.pc + 1))
      { core := k.key, op := h.op, ctx := s.rctx k.p.val, vid := vid.toNat, act := a.toNat,
        count := ((s.core k.key).sreg cnt).toNat }) := by
  rw [State.act_live _ hl, State.pilotHerd, State.onInsn_eq hi]
  dsimp only
  rw [if_pos rfl, Option.getD_some, regionOf_key]
  rfl

/-- The reply to a read frees the pilot that waits for it. -/
theorem herdReply_resumes {v : Word} (hl : s.live = true) (hh : (s.core k.key).handler = some h) (hw : h.wait = .herd)
    (hr : s.hrd.replies.find? (fun r => r.1 = k.key) = some (k.key, v)) : Completes (.herdReadReply k) s fun t =>
      (t.core k.key).sreg 12 = v ∧ (t.core k.key).handler = some { h with wait := .none } ∧
      t.hrd.replies = dropFirst (fun x => x.1 = k.key) s.hrd.replies ∧ t.mem = s.mem ∧ t.regs = s.regs := by
  refine ⟨_, State.act_live _ hl, ?_⟩
  have hc : s.herdReply k.key = { s.setCore k.key { (s.core k.key).setSreg 12 v with handler := some { h with wait := .none } } with
      hrd := { s.hrd with replies := dropFirst (fun x => x.1 = k.key) s.hrd.replies } } := by
    simp only [State.herdReply, hr, hh, hw, if_true]
    rfl
  have hk : (s.herdReply k.key).core k.key =
      { (s.core k.key).setSreg 12 v with handler := some { h with wait := .none } } := by
    rw [hc]
    exact State.core_setCore_self s _ _
  dsimp only
  rw [hk, hc]
  exact ⟨(s.core k.key).sreg_setSreg_self (i := 12) v (by decide), rfl, rfl, rfl, rfl⟩

end

/-! ## YIELD (R81) -/

/-- A pilot that waits in YIELD reports at once where its engines are idle, later where they are not. -/
theorem CoreState.reportYield_yielding (c : CoreState) (h : Handler) (m : BitVec 16) :
    ({ c with handler := some { h with wait := .yielding m } } : CoreState).reportYield =
      { c with handler := some { h with wait := .yielding m }, yielded := if c.enginesIdle then some m else c.yielded } := by
  have hi : ({ c with handler := some { h with wait := .yielding m } } : CoreState).enginesIdle = c.enginesIdle := rfl
  rw [CoreState.reportYield]
  dsimp only
  rw [hi]
  split <;> rfl

/-- Where a pre-emption is pending, YIELD waits (R81). -/
theorem yield_waits {k : CoreRef} {s : State} {h : Handler} {m : BitVec 16} (hl : s.live = true)
    (hi : s.pilotInsn k.key = some (h, .yield m)) (hp : s.preemptPending k.p.val = true) : Completes (.yield k) s fun t =>
      (t.core k.key).handler = some { h.next (h.pc + 1) with wait := .yielding m } ∧
      (t.core k.key).yielded = (if (s.core k.key).enginesIdle then some m else (s.core k.key).yielded) ∧
      t.mem = s.mem ∧ t.regs = s.regs := by
  refine ⟨_, State.act_live _ hl, ?_⟩
  rw [State.pilotYield, State.onInsn_eq hi]
  dsimp only
  rw [regionOf_key, hp, if_pos rfl, Option.getD_some, CoreState.reportYield_yielding, State.core_setCore_self]
  exact ⟨rfl, rfl, rfl, rfl⟩

/-! ## The halt of a region by a sampled event (R70, R83, R293, R494) -/

theorem State.dropEvent_part {p : Part} (h : p ≠ .seq) (s : State) (f : EvKind → Bool) : (s.dropEvent f).part p = s.part p := by
  rw [State.dropEvent]
  split
  · exact State.withSeq_part h s _
  · rfl

/-- Every core of a region that stops is a stopped core; the others keep their state. -/
theorem State.core_stopRegion (s : State) (p j : Nat) :
    if j / 256 = p then ∃ c : CoreState, (s.stopRegion p).core j = c.stop else (s.stopRegion p).core j = s.core j := by
  unfold State.core State.stopRegion
  dsimp only
  induction s.cores with
  | nil =>
    split
    · exact ⟨{}, rfl⟩
    · rfl
  | cons e t ih =>
    obtain ⟨i, v⟩ := e
    by_cases hi : i / 256 = p
    · by_cases hs : v.stop = {}
      · rw [List.filterMap_cons_none (by rw [if_pos hi, if_pos hs])]
        split at ih
        next h => rwa [if_pos h]
        next h => rw [if_neg h, ih, spGet, if_neg fun hj : j = i => h (hj ▸ hi)]
      · rw [List.filterMap_cons_some (by rw [if_pos hi, if_neg hs]), spGet, spGet]
        by_cases hj : j = i
        · rw [if_pos (hj ▸ hi), if_pos hj]
          exact ⟨v, rfl⟩
        · rwa [if_neg hj, if_neg hj]
    · rw [List.filterMap_cons_some (by rw [if_neg hi]), spGet, spGet]
      by_cases hj : j = i
      · rw [if_neg (hj ▸ hi), if_pos hj, if_pos hj]
      · rwa [if_neg hj, if_neg hj]

theorem State.stopRegion_part {p : Part} (h : p ≠ .cores) (s : State) (q : Nat) : (s.stopRegion q).part p = s.part p :=
  State.withCores_part h s _

theorem State.core_haltCores (s : State) (p j : Nat) : (s.haltCores p).core j = (s.stopRegion p).core j := rfl

theorem CoreRef.p_eq_iff {j k : CoreRef} : j.key / 256 = k.p.val ↔ j.p = k.p := by
  rw [← regionOf, regionOf_key, Fin.val_inj]

/-- A record of kind 4 joins the queue of its context unless that is full. -/
theorem State.queue_postEvent {c : Nat} {s : State} (h : (s.ring c).queue.length < 256) (status region : Nat) :
    ∃ r, ((s.postEvent c status region).ring c).queue = (s.ring c).queue ++ [r] ∧ r.kind = 4 ∧ r.status = status ∧
      r.aux = region := by
  rw [State.postEvent, if_pos (by decide), State.post, if_neg fun hq => Nat.not_le.mpr h hq.2, State.ring_setRing_self]
  exact ⟨_, rfl, rfl, rfl, rfl⟩

section
variable {k : CoreRef} {s : State} {f : EvKind → Bool} {e : Sampled}

/-- A halt of a region that has no step in progress: its cores halt and its context gets a record. -/
theorem State.haltEvent_eq {p : Nat} (hr : s.runs p = true) (hs : s.flag BND_REGION_STATE.step p = false) (status : Nat) :
    s.haltEvent p status = (s.haltCores p).postEvent (s.rctx p) status p := by
  have hs' : (s.haltCores p).flag BND_REGION_STATE.step p = false := by
    rw [State.haltCores, State.flag_put_apart (f := BND_REGION_STATE.state) (g := BND_REGION_STATE.step) rfl (by decide),
      State.flag_of_part (State.stopRegion_part (by decide) s p), hs]
  rw [State.haltEvent, if_pos hr, State.halt, if_pos hr]
  dsimp only
  rw [hs']
  rfl

/-- What an event that halts its region leaves (R70, R83). -/
theorem handleOne_halts {cmd : Instr} {status : Nat} {g : State → Sampled → State} (hl : s.live = true)
    (hr : s.runs k.p.val = true) (hs : s.flag BND_REGION_STATE.step k.p.val = false) (he : s.findEvent f = some e)
    (hg : g (s.dropEvent f) e = (s.dropEvent f).haltEvent (regionOf k.key) status)
    (hc : exec cmd s = s.act (s.handleOne f g)) : Completes cmd s fun u =>
      u.rstate k.p.val = 4 ∧ u.mem = s.mem ∧
      (∀ j : CoreRef, j.p = k.p → (u.core j.key).handler = none ∧ (u.core j.key).entries = [] ∧ (u.core j.key).tx = none) ∧
      (∀ j : CoreRef, j.p ≠ k.p → u.core j.key = s.core j.key) ∧
      ((s.ring (s.rctx k.p.val)).queue.length < 256 → ∃ r, (u.ring (s.rctx k.p.val)).queue =
        (s.ring (s.rctx k.p.val)).queue ++ [r] ∧ r.kind = 4 ∧ r.status = status ∧ r.aux = k.p.val) := by
  refine ⟨_, hc.trans (State.act_live _ hl), ?_⟩
  have hd {p : Part} (h : p ≠ .seq) := State.dropEvent_part h s f
  rw [State.handleOne, he]
  dsimp only
  rw [hg, regionOf_key, State.haltEvent_eq ((State.runs_of_rstate (State.get_of_part (hd (by decide)) _)).trans hr)
    ((State.flag_of_part (hd (by decide)) _).trans hs), State.rctx, State.get_of_part (hd (by decide)), ← State.rctx]
  have hp {p : Part} (h : p ∉ .reg .MGT_CLASS_EVENTS :: recordParts) (t : State) (c : Nat) :
      ((t.postEvent c status k.p.val).bump .MGT_CLASS_EVENTS e.cls).part p = t.part p :=
    (State.bump_part (Part.ne h) (Part.ne h) _ _ _).trans (State.postEvent_part (Part.sub h) t _ _ _ _ _)
  refine ⟨(State.get_of_part (hp (by decide) _ _) _).trans (State.rstate_haltCores _ _), by simp, fun j hj => ?_, fun j hj => ?_,
    fun hq => ?_⟩
  · rw [State.core_of_part (hp (by decide) _ _), State.core_haltCores]
    have := State.core_stopRegion (s.dropEvent f) k.p.val j.key
    rw [if_pos (CoreRef.p_eq_iff.mpr hj)] at this
    obtain ⟨c, hc⟩ := this
    rw [hc]
    exact ⟨rfl, rfl, rfl⟩
  · rw [State.core_of_part (hp (by decide) _ _), State.core_haltCores]
    have := State.core_stopRegion (s.dropEvent f) k.p.val j.key
    rw [if_neg (mt CoreRef.p_eq_iff.mp hj)] at this
    exact this.trans (State.core_of_part (hd (by decide)) _)
  · have hx : ((s.dropEvent f).haltCores k.p.val).ring (s.rctx k.p.val) = s.ring (s.rctx k.p.val) :=
      State.ring_of_part ((State.haltCores_part (by decide) (by decide) _ _).trans (hd (by decide))) _
    rw [State.ring_of_part (State.bump_part (by decide) (by decide) _ _ _), ← hx]
    exact State.queue_postEvent (hx ▸ hq) _ _

end

/-- Settles O12: HERD, its reply, YIELD and the watchdog each by its rule; a sampled fault by the rule of events that halt. -/
theorem herdYieldWatchdogAndHalts : Obligations.HerdYieldWatchdogAndHalts := by
  refine ⟨fun k s h hl => ⟨fun cnt vid hi => act_herd hl hi, fun cnt vid hi => act_herd hl hi, fun cnt vid hi => act_herd hl hi,
    fun v hh hw hr => herdReply_resumes hl hh hw hr, fun m hi => ⟨fun hp => ?_, yield_waits hl hi⟩, fun hh hr hf hn => ?_⟩,
    fun k s hl hr hs => ⟨fun ⟨e, he⟩ => ?_, fun e st he hev => ?_⟩⟩
  · refine (State.act_live _ hl).trans ?_
    rw [State.pilotYield, State.onInsn_eq hi]
    dsimp only
    rw [regionOf_key, hp]
    rfl
  · refine (State.act_live _ hl).trans ?_
    rw [State.watchdog, hh]
    dsimp only
    rw [regionOf_key, hr, hf, decide_eq_true hn]
    rfl
  · exact handleOne_halts hl hr hs he rfl rfl
  · exact handleOne_halts hl hr hs he (by rw [hev]; rfl) rfl

end Sys2Proof.Machine
end

