-- ==== Sys2Proof/Proofs/EngineRuns.lean ====
section
/-! The runs of the engines over their elements (R83 to R91, R117 to R126): what they leave as it was. -/

namespace Sys2Proof.Machine
open Sys2Proof

/-! ## Results of steps that may fault -/

section
variable {α β : Type} {P : β → Prop}

theorem forall_mem_bind {o : Option α} {f : α → Option β} (h : ∀ a, ∀ u ∈ f a, P u) : ∀ u ∈ o.bind f, P u := by
  intro u hu
  obtain ⟨a, -, ha⟩ := Option.mem_bind_iff.mp hu
  exact h a u ha

theorem forall_mem_map {o : Option α} {f : α → β} (h : ∀ a ∈ o, P (f a)) : ∀ u ∈ o.map f, P u := by
  intro u hu
  obtain ⟨a, ha, rfl⟩ := Option.mem_map.mp hu
  exact h a ha

theorem forall_mem_some {b : β} (h : P b) : ∀ u ∈ some b, P u := by
  intro u hu
  rwa [← Option.mem_some.mp hu]

theorem forall_mem_ite {c : Prop} [Decidable c] {o o' : Option β} (h : c → ∀ u ∈ o, P u) (h' : ¬c → ∀ u ∈ o', P u) :
    ∀ u ∈ if c then o else o', P u := by
  split
  next hc => exact h hc
  next hc => exact h' hc

end

/-- A run keeps what each of its steps keeps. -/
theorem runList_keeps {α σ β : Type} {f : σ → α → Option σ} {g : σ → β} (h : ∀ s a, ∀ u ∈ f s a, g u = g s) (l : List α)
    (s : σ) :
    g (runList f l s).1 = g s := by
  induction l generalizing s with
  | nil => rfl
  | cons a t ih =>
    rw [runList]
    split
    next u hu => exact (ih u).trans (h s a u hu)
    next => rfl

theorem foldlM_keeps {α σ β : Type} {f : σ → α → Option σ} {g : σ → β} (h : ∀ s a, ∀ u ∈ f s a, g u = g s) (l : List α)
    (s : σ) :
    ∀ u ∈ l.foldlM f s, g u = g s := by
  induction l generalizing s with
  | nil => exact forall_mem_some rfl
  | cons a t ih =>
    intro u hu
    obtain ⟨x, hx, ht⟩ := Option.bind_eq_some_iff.mp hu
    exact (ih x u ht).trans (h s a x hx)

/-! ## The queues and the commands that execute -/

/-- The queues, the executing commands and the bank that fills. -/
structure Engines where
  tq : List EngCmd
  vq : List EngCmd
  mq : List EngCmd
  tx : Option TensRun
  dx : Option Drain
  vx : Option (EngCmd × Option Nat)
  mx : Option EngCmd
  fillOne : Bool

def CoreState.engines (c : CoreState) : Engines := ⟨c.tq, c.vq, c.mq, c.tx, c.dx, c.vx, c.mx, c.fillOne⟩

def State.engines (s : State) (k : Nat) : Engines := (s.core k).engines

section
variable {k : Nat} {q : EngCmd}

/-- A change of a core that leaves its engines. -/
theorem State.engines_modCore {f : CoreState → CoreState} (h : ∀ c, (f c).engines = c.engines) (s : State) :
    (s.modCore k f).engines k = s.engines k := by
  rw [State.engines, State.core_modCore_self, h, ← State.engines]

@[simp] theorem State.engines_bump (s : State) (r : Reg) (i n : Nat) : (s.bump r i n).engines k = s.engines k := by
  rw [State.engines, State.core_bump, ← State.engines]

@[simp] theorem State.core_store (s : State) (a : Nat) (bs : List Byte) (j : Nat) : (s.store a bs).core j = s.core j :=
  State.core_of_part (State.store_part (by decide) s a bs) j

@[simp] theorem State.engines_store (s : State) (a : Nat) (bs : List Byte) : (s.store a bs).engines k = s.engines k := by
  rw [State.engines, State.core_store, ← State.engines]

@[simp] theorem State.engines_reportNf (s : State) (t : Nat) : (s.reportNf k q t).engines k = s.engines k := by
  unfold State.reportNf
  dsimp only
  split
  · rfl
  · rw [State.engines, State.core_sample, State.core_setCore_self]
    rfl

@[simp] theorem State.engines_engFault (s : State) (e pc : Nat) : (s.engFault k e pc).engines k = s.engines k := by
  rw [State.engFault, State.engines, State.core_programFault_self, State.core_modCore_self]
  rfl

/-- Bytes written to the scratchpad. -/
theorem State.wrSpad_eq {s u : State} {a : Nat} {bs : List Byte} (h : u ∈ s.wrSpad k a bs) : u = s.store (s.spad k + a) bs := by
  rw [State.wrSpad] at h
  split at h
  · exact (Option.mem_some.mp h).symm
  · exact absurd h (Option.not_mem_none u)

theorem State.engines_wrSpad (s : State) (a : Nat) (bs : List Byte) : ∀ u ∈ s.wrSpad k a bs, u.engines k = s.engines k := by
  intro u hu
  rw [State.wrSpad_eq hu, State.engines_store]

/-- A result with its report of a non-finite value. -/
theorem State.engines_ite_reportNf {s u : State} (h : u.engines k = s.engines k) (c : Prop) [Decidable c] (t : Nat) :
    (if c then u.reportNf k q t else u).engines k = s.engines k := by
  split
  · rw [State.engines_reportNf, h]
  · exact h

/-! ## Vector commands -/

theorem State.engines_vecPut (s : State) (v : VecArgs) (a : Nat) (x : FVal) :
    ∀ u ∈ s.vecPut k q v a x, u.engines k = s.engines k :=
  forall_mem_map fun u hu => State.engines_ite_reportNf (s.engines_wrSpad _ _ u hu) _ _

theorem State.engines_vecElem (s : State) (v : VecArgs) (i : IVec) (n : Nat) :
    ∀ u ∈ s.vecElem k q v i n, u.engines k = s.engines k := by
  rw [State.vecElem]
  refine forall_mem_bind fun masked => ?_
  split
  · exact forall_mem_some rfl
  split
  · exact forall_mem_map fun u hu => State.engines_ite_reportNf (s.engines_wrSpad _ _ u hu) _ _
  split
  · refine forall_mem_bind fun ib => ?_
    dsimp only
    split
    · exact fun u hu => absurd hu (Option.not_mem_none u)
    split
    · exact forall_mem_bind fun bs => s.engines_vecPut v _ _
    · exact forall_mem_bind fun x => s.engines_vecPut v _ _
  · refine forall_mem_bind fun a => forall_mem_bind fun b => forall_mem_bind fun c => ?_
    split
    · exact s.engines_vecPut v _ _
    · exact forall_mem_some rfl

theorem State.engines_vecBlock (s : State) (v : VecArgs) (is : List IVec) :
    ∀ u ∈ s.vecBlock k q v is, u.engines k = s.engines k := by
  rw [State.vecBlock]
  refine forall_mem_bind fun xs => ?_
  dsimp only
  refine forall_mem_bind fun old => forall_mem_map fun u hu => ?_
  exact State.engines_ite_reportNf ((u.engines_store _ _).trans (s.engines_wrSpad _ _ u hu)) _ _

theorem State.engines_vecReduce (s : State) (v : VecArgs) (acc : FVal) (o : IVec) :
    ∀ u ∈ s.vecReduce k q v acc o, u.1.engines k = s.engines k := by
  rw [State.vecReduce]
  dsimp only
  refine forall_mem_bind fun gone => forall_mem_ite (fun _ => forall_mem_some rfl) fun _ => forall_mem_bind fun xs => ?_
  have put {a : Nat} {x : FVal} {b : FVal} : ∀ u ∈ (s.vecPut k q v a x).map fun t => (t, b), u.1.engines k = s.engines k :=
    forall_mem_map fun u hu => s.engines_vecPut v a x u hu
  split
  · exact put
  · exact put
  · refine forall_mem_map fun u hu => ?_
    obtain ⟨t, ht, hu⟩ := Option.mem_bind_iff.mp hu
    exact (t.engines_vecPut v _ _ u hu).trans (s.engines_vecPut v _ _ t ht)
  · exact put
  · refine forall_mem_map fun u hu => foldlM_keeps (g := fun t : State => t.engines k) (fun t j => ?_) _ s u hu
    split
    all_goals
      intro u hu
      obtain ⟨x, hx, hu⟩ := Option.mem_bind_iff.mp hu
      refine (x.engines_wrSpad _ _ u hu).trans ?_
    · exact t.engines_vecPut v _ _ x hx
    · exact t.engines_wrSpad _ _ x hx

/-- The end of a run: a run that made a faulting access stops its engine. -/
theorem State.engines_fin (s : State) (b : Bool) (e pc : Nat) :
    (if b then s else s.engFault k e pc).engines k = s.engines k := by
  split
  · rfl
  · exact State.engines_engFault _ _ _

end

end Sys2Proof.Machine
end

