-- ==== Sys2Proof/Proofs/EngineCommands.lean ====
section
/-! Engine commands (R68, R72, R84, R89, R111): queued by the pilot, taken and completed by their engines; the accumulator banks swap. -/

namespace Sys2Proof.Machine
open Sys2Proof

/-! ## Starts by the pilot (R72, R84) -/

section
variable {k : CoreRef} {s : State} {h : Handler}

/-- A TENS that is noted for its capture changes the fault unit's state alone. -/
theorem State.noteTens_eq (s : State) (j : Nat) (q : EngCmd) : ∃ x : FltState, s.noteTens j q = { s with flt := x } := by
  unfold State.noteTens
  split
  · exact ⟨s.flt, rfl⟩
  · exact ⟨_, rfl⟩

theorem act_tens {desc : BitVec 6} {fa fb : BitVec 4} {sa sb sc : BitVec 4} (hl : s.live = true)
    (hi : s.pilotInsn k.key = some (h, .tens desc fa fb sa sb sc)) (hq : (s.core k.key).tq.length < 4) :
    Completes (.tens k) s fun t => t.core k.key =
      { (s.core k.key).advance h (h.pc + 1) with tq := (s.core k.key).tq ++ [engCmdOf (s.core k.key) h] } ∧
      t.mem = s.mem ∧ t.regs = s.regs := by
  refine ⟨_, State.act_live _ hl, ?_⟩
  rw [State.pilotTens, State.onInsn_eq hi]
  dsimp only
  rw [if_pos hq, Option.getD_some, State.startEngine, if_pos hq]
  obtain ⟨x, hx⟩ := State.noteTens_eq (s.setCore k.key
    { (s.core k.key).advance h (h.pc + 1) with tq := (s.core k.key).tq ++ [engCmdOf (s.core k.key) h] }) k.key
    (engCmdOf (s.core k.key) h)
  rw [hx]
  exact ⟨State.core_setCore_self s _ _, rfl, rfl⟩

theorem act_vect {desc vop : BitVec 6} {fmt : BitVec 4} {rnd : BitVec 2} {sn sd : BitVec 4} (hl : s.live = true)
    (hi : s.pilotInsn k.key = some (h, .vect desc vop fmt rnd sn sd)) :
    exec (.vect k) s = .next (s.startEngine k.key h (s.core k.key).vq fun q c => { c with vq := q }) := by
  refine (State.act_live _ hl).trans ?_
  rw [State.pilotVect, State.onInsn_eq hi]
  rfl

theorem act_loop {desc : BitVec 6} {kind width ss sd : BitVec 4} (hl : s.live = true)
    (hi : s.pilotInsn k.key = some (h, .loop desc kind width ss sd)) :
    exec (.loop k) s = .next (s.startEngine k.key h (s.core k.key).mq fun q c => { c with mq := q }) := by
  refine (State.act_live _ hl).trans ?_
  rw [State.pilotLoop, State.onInsn_eq hi]
  rfl

theorem tens_stalls {desc : BitVec 6} {fa fb : BitVec 4} {sa sb sc : BitVec 4} (hl : s.live = true)
    (hi : s.pilotInsn k.key = some (h, .tens desc fa fb sa sb sc)) (hq : 4 ≤ (s.core k.key).tq.length) :
    exec (.tens k) s = .next (s.bump .CORE_ENGINE_STALL k.key) := by
  refine (State.act_live _ hl).trans (congrArg _ ?_)
  rw [State.pilotTens, State.onInsn_eq hi]
  dsimp only
  rw [if_neg (Nat.not_lt.mpr hq), Option.getD_some, State.startEngine, if_neg (Nat.not_lt.mpr hq)]

end

/-! ## A command leaves its queue (R84) -/

section
variable {k : Nat} {s : State}

theorem CoreState.engines_setFill (c : CoreState) (b : List (BitVec 48)) : (c.setFill b).engines = c.engines := by
  unfold CoreState.setFill
  split <;> rfl

theorem State.engines_takeTile (s : State) (r : TensRun) :
    (s.takeTile k r).engines k = { s.engines k with tx := some r } := by
  have hx : (s.modCore k fun c => { c with tx := some r }).engines k = { s.engines k with tx := some r } := by
    rw [State.engines, State.core_modCore_self]
    rfl
  rw [State.takeTile, ← hx]
  split
  · split
    · rw [State.engines_bump, State.engines_modCore fun c => c.engines_setFill _]
    · rw [State.engines_engFault]
  · split
    · rw [State.engines_engFault]
    · rfl

/-- The tensor unit holds the command that it has taken. -/
theorem State.engines_startTensor (s : State) (q : EngCmd) (rest : List EngCmd) : ∃ r : TensRun, r.cmd = q ∧
    (s.startTensor k q rest).engines k = { s.engines k with tq := rest, tx := some r } := by
  have hx : (s.modCore k fun c => { c with tq := rest }).engines k = { s.engines k with tq := rest } := by
    rw [State.engines, State.core_modCore_self]
    rfl
  rw [State.startTensor]
  dsimp only
  split
  · exact ⟨_, rfl, by rw [State.engines_takeTile, hx]⟩
  · exact ⟨_, rfl, by rw [State.engines_takeTile, hx]⟩

theorem State.engines_putVx (s : State) (x : Option (EngCmd × Option Nat)) :
    (s.modCore k fun c => { c with vx := x }).engines k = { s.engines k with vx := x } := by
  rw [State.engines, State.core_modCore_self]
  rfl

/-- The vector unit holds the command that it has taken, and what an AMAX command reports. -/
theorem State.engines_startVector (s : State) (q : EngCmd) (rest : List EngCmd) : ∃ x : Option Nat,
    (s.startVector k q rest).engines k = { s.engines k with vq := rest, vx := some (q, x) } := by
  have hx : (s.modCore k fun c => { c with vq := rest, vx := some (q, none) }).engines k =
      { s.engines k with vq := rest, vx := some (q, none) } := by
    rw [State.engines, State.core_modCore_self]
    rfl
  rw [State.startVector]
  dsimp only
  split
  next v _ =>
    split
    · have hr := runList_keeps (g := fun st : State × FVal => st.1.engines k) (fun st o => st.1.engines_vecReduce (q := q) v st.2 o)
        (v.d.walk fun l => v.d.role l ≠ 3)
        ((s.modCore k fun c => { c with vq := rest, vx := some (q, none) }).bump .CORE_VECTOR_BUSY k (vecCycles v), fvZero)
      dsimp only at hr
      rw [State.engines_bump, hx] at hr
      rw [State.engines_fin]
      split
      · rw [State.engines_putVx, hr]
        exact ⟨_, rfl⟩
      · exact ⟨none, hr⟩
    · refine ⟨none, ?_⟩
      split
      · rw [State.engines_fin, runList_keeps (g := fun t : State => t.engines k) fun t b => t.engines_vecBlock v b]
        rw [State.engines_bump, hx]
      · rw [State.engines_fin,
          runList_keeps (g := fun t : State => t.engines k) fun t (x : IVec × Nat) => t.engines_vecElem v x.1 x.2]
        rw [State.engines_bump, hx]
  next => exact ⟨none, hx⟩

theorem State.engines_wrMove (s : State) (under : Bool) (a : Nat) (bs : List Byte) :
    ∀ u ∈ s.wrMove k under a bs, u.engines k = s.engines k := by
  rw [State.wrMove]
  split
  · exact forall_mem_ite (fun _ => forall_mem_some (s.engines_store _ _)) fun _ u hu => absurd hu (Option.not_mem_none u)
  · exact s.engines_wrSpad a bs

/-- The movement engine holds the command that it has taken. -/
theorem State.engines_startEngMove (s : State) (q : EngCmd) (rest : List EngCmd) :
    (s.startEngMove k q rest).engines k = { s.engines k with mq := rest, mx := some q } := by
  have hx : (s.modCore k fun c => { c with mq := rest, mx := some q }).engines k = { s.engines k with mq := rest, mx := some q } := by
    rw [State.engines, State.core_modCore_self]
    rfl
  rw [State.startEngMove]
  dsimp only
  split
  · rw [State.engines_fin, runList_keeps (g := fun t : State => t.engines k), hx]
    exact fun t i => forall_mem_bind fun bs => t.engines_wrMove _ _ bs
  · exact hx

/-- The banks swap over an empty drain bank: the tile drains, and the next one fills (R111). -/
theorem State.engines_swapBanks {r : TensRun} {i : IVec} {rest : List IVec} (hr : (s.core k).tx = some r) (ht : r.tiles = i :: rest)
    (hd : (s.core k).dx = none) (ho : s.engOk k 0 = true) : (s.swapBanks k).engines k =
      { s.engines k with
        fillOne := !(s.core k).fillOne
        dx := some ⟨r.cmd, i, 0, rest.isEmpty && !r.bad⟩
        tx := if rest.isEmpty && !r.bad then none else some { r with tiles := rest } } := by
  have he : s.endDrain k = s := by rw [State.endDrain, hd]
  have hx : (s.modCore k fun c => { c with
      fillOne := !c.fillOne, dx := some ⟨r.cmd, i, 0, rest.isEmpty && !r.bad⟩, tx := none }).engines k =
      { s.engines k with fillOne := !(s.core k).fillOne, dx := some ⟨r.cmd, i, 0, rest.isEmpty && !r.bad⟩, tx := none } := by
    rw [State.engines, State.core_modCore_self]
    rfl
  rw [State.swapBanks, hr]
  dsimp only
  rw [ht]
  dsimp only
  rw [he, if_pos ho]
  split
  · exact hx
  · rw [State.engines_takeTile, hx]

theorem State.swapBanks_mem {r : TensRun} (hr : (s.core k).tx = some r) (hd : (s.core k).dx = none) :
    (s.swapBanks k).mem = s.mem := by
  have he : s.endDrain k = s := by rw [State.endDrain, hd]
  rw [State.swapBanks, hr]
  dsimp only
  split
  · rw [he]
    split
    · split <;> simp
    · rfl
  · rfl

end

/-! ## What the end of a command changes (R83, R113, R118) -/

/-- What the run of an engine over its elements changes. -/
def runParts : List Part := .mem :: faultParts

section
variable {k : Nat} {p : Part}

theorem State.reportNf_part (hc : p ≠ .cores) (hs : p ≠ .seq) (s : State) (q : EngCmd) (t : Nat) :
    (s.reportNf k q t).part p = s.part p :=
  State.part_ite (fun _ => rfl) fun _ => (State.sample_part hs _ _ _ _).trans (State.setCore_part hc _ _ _)

theorem State.engFault_part (h : p ∉ faultParts) (s : State) (e pc : Nat) : (s.engFault k e pc).part p = s.part p :=
  (State.programFault_part rfl h _).trans (State.modCore_part (Part.ne h) _ _ _)

theorem State.drainEntry_part (h : p ≠ .mem) (s : State) (t : TensArgs) (i : IVec) (v : BitVec 48) (x : Nat) :
    ∀ u ∈ s.drainEntry k t i v x, u.1.part p = s.part p :=
  forall_mem_map fun u hu => by rw [State.wrSpad_eq hu, State.store_part h]

theorem State.drainTile_part (h : p ∉ runParts) (s : State) (x : Drain) (t : TensArgs) (bank : List (BitVec 48)) :
    (s.drainTile k x t bank).1.part p = s.part p := by
  refine runList_keeps (g := fun u : State => u.part p) (fun u r => ?_) _ s
  have row := runList_keeps (g := fun u : State => u.part p) (f := fun (u : State) n =>
    if t.d.rows x.tile ≤ r ∨ t.d.cols x.tile ≤ n then some u
    else (u.drainEntry k t x.tile (bank.getD (16 * r + n) 0#48) (16 * r + n)).map fun y =>
      if y.2 then y.1.reportNf k x.cmd t.d.tensorId else y.1) (fun u n => ?entry) (upto 16) u
  · exact forall_mem_ite (fun _ => forall_mem_some ((State.modCore_part (Part.ne h) _ _ _).trans row))
      fun _ u hu => absurd hu (Option.not_mem_none u)
  case entry =>
    refine forall_mem_ite (fun _ => forall_mem_some rfl) fun _ => forall_mem_map fun y hy => ?_
    refine (State.part_ite (fun _ => ?_) fun _ => rfl).trans (State.drainEntry_part (Part.ne h) u t _ _ _ y hy)
    exact State.reportNf_part (Part.ne h) (Part.ne h) _ _ _

theorem State.endDrain_part (h : p ∉ runParts) (s : State) : (s.endDrain k).part p = s.part p := by
  rw [State.endDrain]
  split
  next x _ =>
    split
    next t _ =>
      rw [← s.drainTile_part (k := k) h x t (s.core k).drainBank]
      refine State.part_ite (fun _ => ?_) fun _ => ?_
      · exact State.modCore_part (Part.ne h) _ _ _
      · exact State.engFault_part (Part.sub h) _ _ _
    next => rfl
  next => rfl

theorem State.endTensor_part (h : p ∉ runParts) (s : State) : (s.endTensor k).part p = s.part p := by
  rw [State.endTensor]
  split
  · exact State.part_ite (fun _ => s.endDrain_part h) fun _ => rfl
  · exact State.part_ite (fun _ => State.setCore_part (Part.ne h) _ _ _) fun _ => rfl
  · rfl

theorem State.endCommand_part (h : p ∉ .num :: runParts) (s : State) (e : Nat) : (s.endCommand k e).part p = s.part p := by
  unfold State.endCommand
  dsimp only
  split
  · exact s.endTensor_part (Part.sub h)
  · split
    · exact (State.withNum_part (Part.ne h) _ _).trans (State.setCore_part (Part.ne h) _ _ _)
    · exact State.setCore_part (Part.ne h) _ _ _
  · exact State.setCore_part (Part.ne h) _ _ _
  · rfl

end

/-! ## The rows -/

section
variable {k : CoreRef} {s : State}

theorem exec_engineCommandComplete (hl : s.live = true) {e : Fin 3} {n : Nat} (ho : s.engineOn k.key e.val = true) :
    exec (.engineCommandComplete k ⟨e, n⟩) s = .next ((s.bump .CORE_BANK_CONFLICT k.key n).endCommand k.key e.val) :=
  (State.act_live _ hl).trans (congrArg _ (if_pos ho))

/-- Every end of a command advances CORE_BANK_CONFLICT by the cycles lost (R89). -/
theorem engineCommandComplete_counts (hl : s.live = true) {e : Fin 3} {n : Nat} (ho : s.engineOn k.key e.val = true) :
    Completes (.engineCommandComplete k ⟨e, n⟩) s fun u =>
      u.rn .CORE_BANK_CONFLICT k.key = min (s.rn .CORE_BANK_CONFLICT k.key + n) (2 ^ 64 - 1) :=
  ⟨_, exec_engineCommandComplete hl ho,
    (State.rn_of_part (State.endCommand_part (by decide) _ _) _).trans (State.rn_bump (by decide) _ _ _)⟩

end

section
variable {k : Nat} {s : State} {c : CoreState} (hc : s.core k = c)
include hc

/-- The last tile of a TENS drains and its command is done (R111, R113). -/
theorem State.endTensor_drained {x : Drain} {a : TensArgs} (hd : c.dx = some x) (hx : x.last = true)
    (ha : tensArgs c x.cmd = some a) (hr : (s.drainTile k x a c.drainBank).2 = true) : s.endTensor k =
      (s.drainTile k x a c.drainBank).1.modCore k fun c => ({ c with dx := none } : CoreState).cmdDone x.cmd := by
  rw [State.endTensor, hc, hd]
  dsimp only
  rw [if_pos hx, State.endDrain, hc, hd]
  dsimp only
  rw [ha]
  dsimp only
  rw [if_pos hr]
  simp only [hx, if_true]

/-- A TENS without a tile to take is done (R586). -/
theorem State.endTensor_empty {r : TensRun} (hd : c.dx = none) (hr : c.tx = some r) (ht : r.tiles = []) :
    s.endTensor k = s.setCore k (({ c with tx := none } : CoreState).cmdDone r.cmd) := by
  rw [State.endTensor, hc, hd, hr]
  dsimp only
  rw [ht]
  rfl

theorem State.endCommand_vector {q : EngCmd} (hv : c.vx = some (q, none)) :
    s.endCommand k 1 = s.setCore k (({ c with vx := none } : CoreState).cmdDone q) := by
  unfold State.endCommand
  dsimp only
  rw [hc, hv]
  rfl

/-- An AMAX command sends its report (R346). -/
theorem State.endCommand_amax {q : EngCmd} {v : Nat} {a : VecArgs} (hv : c.vx = some (q, some v)) (ha : vecArgs c q = some a) :
    s.endCommand k 1 = { s.setCore k (({ c with vx := none } : CoreState).cmdDone q) with
      num := { s.num with amax := s.num.amax ++ [⟨k, a.d.tensorId, q.tag, v⟩] } } := by
  unfold State.endCommand
  dsimp only
  rw [hc, hv]
  simp only [ha]
  rfl

theorem State.endCommand_movement {q : EngCmd} (hm : c.mx = some q) :
    s.endCommand k 2 = s.setCore k (({ c with mx := none } : CoreState).cmdDone q) := by
  unfold State.endCommand
  dsimp only
  rw [hc, hm]
  rfl

end

/-- Settles O11: a start by the pilot per engine, a command taken per engine, the swap of the banks, and the ends of commands. -/
theorem enginesQueueAndRunCommands : Obligations.EnginesQueueAndRunCommands := by
  refine ⟨fun k s h i hl hi => ?starts, fun k s hl => ?engines⟩
  case starts =>
    refine ⟨fun desc fa fb sa sb sc e => ?_, fun desc vop fmt rnd sn sd e => ?_, fun desc kind width ss sd e => ?_⟩
    all_goals subst e
    · exact ⟨act_tens hl hi, tens_stalls hl hi⟩
    · exact ⟨fun hq => (act_vect hl hi).trans (congrArg _ (if_pos hq)),
        fun hq => (act_vect hl hi).trans (congrArg _ (if_neg (Nat.not_lt.mpr hq)))⟩
    · exact ⟨fun hq => (act_loop hl hi).trans (congrArg _ (if_pos hq)),
        fun hq => (act_loop hl hi).trans (congrArg _ (if_neg (Nat.not_lt.mpr hq)))⟩
  case engines =>
    refine ⟨fun ho q rest hq hx => ?tensor, fun ho q rest hq hx => ?vector, fun ho q rest hq hx => ?movement,
      fun ho r i rest hr ht hd => ?swap, fun e n ho => engineCommandComplete_counts hl ho, fun n => ?ends⟩
    case tensor =>
      obtain ⟨r, hr, he⟩ := s.engines_startTensor (k := k.key) q rest
      refine ⟨s.startTensor k.key q rest, (State.act_live _ hl).trans (congrArg _ ((if_pos ho).trans ?_)), congrArg Engines.tq he,
        ?_, by simp⟩
      · rw [hq, hx]
        rfl
      · exact (congrArg (fun e : Engines => e.tx.map fun r => r.cmd) he).trans (congrArg some hr)
    case vector =>
      obtain ⟨x, he⟩ := s.engines_startVector (k := k.key) q rest
      refine ⟨s.startVector k.key q rest, (State.act_live _ hl).trans (congrArg _ ((if_pos ho).trans ?_)), congrArg Engines.vq he,
        congrArg (fun e : Engines => e.vx.map fun r => r.1) he⟩
      rw [hq, hx]
      rfl
    case movement =>
      have he := s.engines_startEngMove (k := k.key) q rest
      refine ⟨s.startEngMove k.key q rest, (State.act_live _ hl).trans (congrArg _ ((if_pos ho).trans ?_)), congrArg Engines.mq he,
        congrArg Engines.mx he⟩
      rw [hq, hx]
      rfl
    case swap =>
      have hk : s.engOk k.key 0 = true := (Bool.and_eq_true_iff.mp ho).2
      have he := State.engines_swapBanks hr ht hd hk
      exact ⟨s.swapBanks k.key, (State.act_live _ hl).trans (congrArg _ (if_pos ho)), congrArg Engines.fillOne he,
        congrArg Engines.tq he, State.swapBanks_mem hr hd, congrArg Engines.dx he, congrArg Engines.tx he⟩
    case ends =>
      have hc : (s.bump .CORE_BANK_CONFLICT k.key n).core k.key = s.core k.key := State.core_bump s _ _ _ _
      refine ⟨fun ho x a hd hx ha hr => ?_, fun ho r hd hr ht => ?_, fun ho q hv => ?_, fun ho q v a hv ha => ?_, fun ho q hm => ?_⟩
      · exact (exec_engineCommandComplete hl ho).trans (congrArg _ (State.endTensor_drained hc hd hx ha hr))
      · exact (exec_engineCommandComplete hl ho).trans (congrArg _ (State.endTensor_empty hc hd hr ht))
      · exact (exec_engineCommandComplete hl ho).trans (congrArg _ (State.endCommand_vector hc hv))
      · refine ⟨_, (exec_engineCommandComplete hl ho).trans (congrArg _ (State.endCommand_amax hc hv ha)),
          State.core_setCore_self _ _ _, ?_, by simp⟩
        rw [State.bump_num]
      · exact (exec_engineCommandComplete hl ho).trans (congrArg _ (State.endCommand_movement hc hm))

end Sys2Proof.Machine
end

