-- ==== Sys2Proof/Proofs/Couriers.lean ====
section
/-! Courier packets and their paths (R79, R171, R173, R190), stragglers (R177), reduction nodes (R179), the registers of the spill areas
(R191) and the load of a spare (R160, R210). -/

namespace Sys2Proof.Machine
open Sys2Proof

/-! ## Flits counted on a path (R190) -/

section
variable {r : Reg} (hr : r ≠ .MGT_SAT)
include hr

theorem State.rn_countFlits_of_not_mem {l : List Nat} {i : Nat} (hi : i ∉ l) (s : State) (n : Nat) :
    (s.countFlits r l n).rn r i = s.rn r i := by
  induction l generalizing s with
  | nil => rfl
  | cons j l ih =>
    obtain ⟨hj, hl⟩ := List.ne_and_not_mem_of_not_mem_cons hi
    exact (ih hl _).trans (State.rn_bump_ne _ _ _ _ _ _ (Reg.key_ne_of_ne hr 0 i) (Reg.key_ne_of_index_ne hj))

/-- A path that visits no router twice counts the flits once at each of its routers. -/
theorem State.rn_countFlits {l : List Nat} (hl : l.Nodup) {i : Nat} (hi : i ∈ l) (s : State) (n : Nat) :
    (s.countFlits r l n).rn r i = min (s.rn r i + n) (2 ^ 64 - 1) := by
  induction l generalizing s with
  | nil => exact absurd hi List.not_mem_nil
  | cons j l ih =>
    obtain ⟨hj, hl⟩ := List.nodup_cons.mp hl
    rcases List.mem_cons.mp hi with rfl | hi
    · exact (State.rn_countFlits_of_not_mem hr hj _ n).trans (State.rn_bump hr s i n)
    · have hne : i ≠ j := fun e => hj (e ▸ hi)
      refine (ih hl hi _).trans ?_
      rw [State.rn_bump_ne _ _ _ _ _ _ (Reg.key_ne_of_ne hr 0 i) (Reg.key_ne_of_index_ne hne)]

end

/-! ## Paths (R171, R173) -/

section
variable {s : State} {a b : Nat}

/-- A path is free where none of its routers is fenced. -/
def State.pathFree (s : State) (l : List Nat) : Prop := ∀ r ∈ l, s.fencedRouter r = false

theorem State.all_unfenced_iff {l : List Nat} : (l.all fun r => !s.fencedRouter r) = true ↔ s.pathFree l := by
  simp [State.pathFree, List.all_eq_true]

theorem State.courierPath_xFirst (hb : s.fencedRouter b = false) (h : s.pathFree (pathXY a b)) :
    s.courierPath a b = some (pathXY a b, false) := by
  rw [State.courierPath, if_neg (Bool.eq_false_iff.mp hb), if_pos (State.all_unfenced_iff.mpr h)]

theorem State.courierPath_yFirst (hb : s.fencedRouter b = false) (hx : ¬s.pathFree (pathXY a b)) (h : s.pathFree (pathYX a b)) :
    s.courierPath a b = some (pathYX a b, true) := by
  rw [State.courierPath, if_neg (Bool.eq_false_iff.mp hb), if_neg fun h => hx (State.all_unfenced_iff.mp h),
    if_pos (State.all_unfenced_iff.mpr h)]

theorem State.courierPath_fenced (hb : s.fencedRouter b = true) : s.courierPath a b = none := by
  rw [State.courierPath, if_pos hb]

theorem State.courierPath_blocked (hx : ¬s.pathFree (pathXY a b)) (hy : ¬s.pathFree (pathYX a b)) : s.courierPath a b = none := by
  rw [State.courierPath, if_neg fun h => hx (State.all_unfenced_iff.mp h), if_neg fun h => hy (State.all_unfenced_iff.mp h), ite_self]

end

/-! ## A courier token leaves (R79, R171) -/

section
variable {s : State} {n : Nat} {t : Token}

/-- A staged unicast token that may leave, leaves by a path or is discarded. -/
theorem exec_courierPacketRoute (hl : s.live = true) (ht : s.noc.tokens[n]? = some t) (hc : t.courier = true) (hp : t.phase = .waiting)
    (hm : t.mode = .unicast) (he : s.egressStopped t = false) (ho : s.oldestOfStream n t = true) (hr : s.streamReserved t = false)
    (hg : s.mayLeave t = true) :
    let v := (s.endWait (streamOf t).toList).dropTok n
    exec (.courierPacketRoute n []) s = .next ((v.launch { t with data := s.stagedData t } (clusterOf t.dst)).getD
      (v.refuseTok { t with data := s.stagedData t } t.from_)) := by
  refine (State.act_live _ hl).trans (congrArg _ ?_)
  rw [ht]
  dsimp only
  rw [if_neg (by simp [hc, hp, he, ho, hr, hg])]
  simp only [State.sendCourier, hm]

/-- What a launched token leaves: it flies with its bytes, and every router that it enters counts its flits (R190). -/
theorem launch_flies {v : State} {cl : Nat} {path : List Nat} {detour : Bool} {t : Token}
    (hp : v.courierPath t.from_ cl = some (path, detour)) (hn : (t.from_ :: path).Nodup) : ∃ u, v.launch t cl = some u ∧
      u.noc.tokens = v.noc.tokens ++ [{ t with phase := .flying, detour := detour }] ∧ u.mem = v.mem ∧ u.cores = v.cores ∧
      ∀ r ∈ t.from_ :: path, u.rn .NOC_COURIER_FLITS r = min (v.rn .NOC_COURIER_FLITS r + t.flits) (2 ^ 64 - 1) := by
  have hf {p : Part} (h : p ∉ [.reg .NOC_COURIER_FLITS, .reg .MGT_SAT]) :=
    State.countFlits_part (r := .NOC_COURIER_FLITS) (Part.ne h) (Part.ne h) v (t.from_ :: path) t.flits
  have hd {p : Part} (h : p ∉ [.reg .NOC_DETOURS, .reg .MGT_SAT]) (s : State) :
      (if detour then s.bump .NOC_DETOURS t.from_ t.packets else s).part p = s.part p :=
    State.part_ite (fun _ => State.bump_part (Part.ne h) (Part.ne h) s _ _) fun _ => rfl
  have hnoc := (hd (p := .noc) (by decide) _).trans (hf (by decide))
  refine ⟨_, congrArg (Option.map _) hp, congrArg (fun x : NocState => x.tokens ++ _) hnoc,
    (hd (p := .mem) (by decide) _).trans (hf (by decide)), (hd (p := .cores) (by decide) _).trans (hf (by decide)), fun r hr => ?_⟩
  exact (State.rn_of_part (hd (by decide) _) r).trans (State.rn_countFlits (by decide) hn hr v t.flits)

/-- A staged token with its credit leaves on the path that `path` names. -/
theorem courierPacketRoute_leaves (hl : s.live = true) (ht : s.noc.tokens[n]? = some t) (hc : t.courier = true)
    (hp : t.phase = .waiting) (hm : t.mode = .unicast) (he : s.egressStopped t = false) (ho : s.oldestOfStream n t = true)
    (hr : s.streamReserved t = false) {path : List Nat} {detour : Bool}
    (hpath : s.courierPath t.from_ (clusterOf t.dst) = some (path, detour)) (hcr : s.lacksCredit t = false)
    (hn : (t.from_ :: path).Nodup) : Completes (.courierPacketRoute n []) s fun u =>
      u.noc.tokens = ((s.endWait (streamOf t).toList).dropTok n).noc.tokens ++
        [{ t with phase := .flying, detour := detour, data := s.stagedData t }] ∧ u.mem = s.mem ∧
      u.cores = s.cores ∧ ∀ r ∈ t.from_ :: path, u.rn .NOC_COURIER_FLITS r =
        min (s.rn .NOC_COURIER_FLITS r + t.flits) (2 ^ 64 - 1) := by
  have he := exec_courierPacketRoute hl ht hc hp hm he ho hr (by rw [State.mayLeave, hcr]; rfl)
  obtain ⟨u, hu, htok, hmem, hcores, hflits⟩ := launch_flies (t := { t with data := s.stagedData t })
    (v := (s.endWait (streamOf t).toList).dropTok n) hpath hn
  exact ⟨u, he.trans (by rw [hu, Option.getD_some]), htok, hmem, hcores, hflits⟩

/-- A staged token that no path takes is discarded with FENCED (R173). -/
theorem courierPacketRoute_lost (hl : s.live = true) (ht : s.noc.tokens[n]? = some t) (hc : t.courier = true)
    (hp : t.phase = .waiting) (hm : t.mode = .unicast) (he : s.egressStopped t = false) (ho : s.oldestOfStream n t = true)
    (hr : s.streamReserved t = false) (hpath : s.courierPath t.from_ (clusterOf t.dst) = none) :
    exec (.courierPacketRoute n []) s =
      .next (((s.endWait (streamOf t).toList).dropTok n).refuseTok { t with data := s.stagedData t } t.from_) := by
  have hg : s.mayLeave t = true := by
    rw [State.mayLeave, hm]
    dsimp only
    rw [hpath]
    exact Bool.or_true _
  have hx : ((s.endWait (streamOf t).toList).dropTok n).launch { t with data := s.stagedData t } (clusterOf t.dst) = none :=
    congrArg (Option.map _) hpath
  refine (exec_courierPacketRoute hl ht hc hp hm he ho hr hg).trans ?_
  rw [hx, Option.getD_none]

end

/-! ## Stragglers (R177) -/

theorem SeqState.mem_add (q : SeqState) (e : Sampled) : e ∈ (q.add e).sampled ++ (q.add e).carried ++ (q.add e).offered := by
  unfold SeqState.add
  split <;> simp

/-- An event is in its sequencer's queues once it is sampled. -/
theorem State.mem_sampleOnce (s : State) (cls src : Nat) (ev : EvKind) :
    ∃ e ∈ (s.sampleOnce cls src ev).seq.sampled ++ (s.sampleOnce cls src ev).seq.carried ++ (s.sampleOnce cls src ev).seq.offered,
      e.ev = ev := by
  unfold State.sampleOnce
  split
  next h =>
    obtain ⟨e, he, hv⟩ := List.any_eq_true.mp h
    exact ⟨e, he, of_decide_eq_true hv⟩
  next => exact ⟨_, SeqState.mem_add _ _, rfl⟩

/-- The record of a straggler: its group, its branch and, at a core's branch, its core. -/
def State.showStragglerEvent (s : State) (cl g br l : Nat) : State :=
  (((s.put NOC_STRAGGLER_EVENT.group cl g).put NOC_STRAGGLER_EVENT.branch cl br).put NOC_STRAGGLER_EVENT.core cl l).put
    NOC_STRAGGLER_EVENT.valid cl 1

theorem State.showStragglerEvent_part {p : Part} (h : p ≠ .reg .NOC_STRAGGLER_EVENT) (s : State) {cl g br l : Nat} :
    (s.showStragglerEvent cl g br l).part p = s.part p := by
  rw [State.showStragglerEvent, State.put_part h, State.put_part h, State.put_part h, State.put_part h]

theorem State.flag_showStragglerEvent (s : State) (cl g br l : Nat) :
    (s.showStragglerEvent cl g br l).flag NOC_STRAGGLER_EVENT.valid cl = true :=
  State.flag_put_one (f := NOC_STRAGGLER_EVENT.valid) (by decide) _ _

theorem State.branch_showStragglerEvent (s : State) {br : Nat} (h : br < 8) (cl g l : Nat) :
    (s.showStragglerEvent cl g br l).get NOC_STRAGGLER_EVENT.branch cl = br := by
  rw [State.showStragglerEvent, State.get_put_apart (f := NOC_STRAGGLER_EVENT.valid) (g := NOC_STRAGGLER_EVENT.branch) rfl (by decide),
    State.get_put_apart (f := NOC_STRAGGLER_EVENT.core) (g := NOC_STRAGGLER_EVENT.branch) rfl (by decide),
    State.get_put_fits (f := NOC_STRAGGLER_EVENT.branch) (by decide) (by decide) h]

theorem stragglerTimeout_recorded {s : State} {n : Nat} {t : Token} {cl br : Nat} (hl : s.live = true)
    (ht : s.noc.tokens[n]? = some t) (hs : t.stalled = some (cl, br)) (hb : s.branchFree n t = true)
    (hv : s.flag NOC_STRAGGLER_EVENT.valid cl = false) (h8 : br < 8) : Completes (.stragglerTimeout n) s fun u =>
      u.flag NOC_STRAGGLER_EVENT.valid cl = true ∧ u.get NOC_STRAGGLER_EVENT.branch cl = br ∧ u.noc = s.noc ∧
      u.mem = s.mem ∧ ∃ e ∈ u.seq.sampled ++ u.seq.carried ++ u.seq.offered, ∃ g l, e.ev = .straggler cl g br l := by
  let g := t.group.getD 0
  let l := if br = 4 then lcoreOf t.dst else 0
  have hk {p : Part} (h : p ≠ .seq) :=
    State.sampleOnce_part h (s.showStragglerEvent cl g br l) 11 (16 + cl) (.straggler cl g br l)
  refine ⟨(s.showStragglerEvent cl g br l).sampleOnce 11 (16 + cl) (.straggler cl g br l), ?_, ?_, ?_, ?_, ?_, ?_⟩
  · refine (State.act_live _ hl).trans (congrArg _ ?_)
    rw [ht]
    dsimp only
    rw [if_pos hb, hs]
    dsimp only
    rw [hv]
    rfl
  · rw [State.flag_of_part (f := NOC_STRAGGLER_EVENT.valid) (hk (by decide)), State.flag_showStragglerEvent]
  · rw [State.get_of_part (f := NOC_STRAGGLER_EVENT.branch) (hk (by decide)), State.branch_showStragglerEvent _ h8]
  · exact (hk (p := .noc) (by decide)).trans (State.showStragglerEvent_part (by decide) s)
  · exact (hk (p := .mem) (by decide)).trans (State.showStragglerEvent_part (by decide) s)
  · obtain ⟨e, he, hv⟩ := (s.showStragglerEvent cl g br l).mem_sampleOnce 11 (16 + cl) (.straggler cl g br l)
    exact ⟨e, he, g, l, hv⟩

/-! ## Reduction nodes (R179) -/

section
variable {s : State} {n : Nat} {t : Token} {cl nd leaf op : Nat}

/-- What a node makes of a contribution: it stands there, or it is combined with the one that stands there. -/
def State.contribute (s : State) (n : Nat) (t : Token) (cl nd leaf : Nat) (first : Option Combine) : State :=
  match first with
  | some c =>
    let e := s.rn .NOC_NODE (64 * cl + nd)
    let left := decide (leaf < ndSplit e)
    let data := if left then combineBytes (ndOp e) t.data c.data else combineBytes (ndOp e) c.data t.data
    let rest := s.noc.combine.filter fun x => !(x.router = cl && x.node = nd && x.tag = t.tag)
    (({ s with noc := { s.noc with combine := rest } } : State).dropTok n).nodeOut cl nd t (if left then leaf else c.leaf) data
  | none =>
    ({ s with noc := { s.noc with combine := s.noc.combine ++ [⟨cl, nd, t.tag, leaf, t.epoch, t.data⟩] } } : State).dropTok n

theorem exec_reductionContribution (hl : s.live = true) (ht : s.noc.tokens[n]? = some t) (hm : t.mode = .reduction cl nd leaf op)
    (hp : t.phase = .flying) (ho : s.inOrder n t = true) (hs : s.seamPass (cl / 16) t.epoch = true)
    (hv : bitAt (s.rn .NOC_NODE (64 * cl + nd)) 0 = true) : exec (.reductionContribution n) s = .next
      (s.contribute n t cl nd leaf (s.noc.combine.find? fun c => c.router = cl && c.node = nd && c.tag = t.tag)) := by
  refine (State.act_live _ hl).trans (congrArg _ ?_)
  rw [ht]
  dsimp only
  rw [hm]
  dsimp only
  rw [if_neg (by simp [hp, ho]), if_neg (by simp [hs]), if_neg (by simp [hv])]
  rfl

theorem reductionContribution_combined (hl : s.live = true) (ht : s.noc.tokens[n]? = some t) (hm : t.mode = .reduction cl nd leaf op)
    (hp : t.phase = .flying) (ho : s.inOrder n t = true) (hs : s.seamPass (cl / 16) t.epoch = true)
    (hv : bitAt (s.rn .NOC_NODE (64 * cl + nd)) 0 = true) {c : Combine}
    (hc : s.noc.combine.find? (fun c => c.router = cl && c.node = nd && c.tag = t.tag) = some c) :
    let e := s.rn .NOC_NODE (64 * cl + nd)
    Completes (.reductionContribution n) s fun u => ∃ x, u.noc.tokens = s.noc.tokens.eraseIdx n ++ [x] ∧
      x.data = (if leaf < ndSplit e then combineBytes (ndOp e) t.data c.data else combineBytes (ndOp e) c.data t.data) ∧
      x.tag = t.tag ∧ x.phase = .waiting ∧ u.mem = s.mem ∧ u.regs = s.regs := by
  refine ⟨_, exec_reductionContribution hl ht hm hp ho hs hv, ?_⟩
  rw [hc]
  dsimp only [State.contribute, State.nodeOut]
  refine ⟨_, rfl, ?_, rfl, rfl, rfl, rfl⟩
  simp only [decide_eq_true_eq]

end

/-! ## The load of a spare (R160, R210) -/

theorem State.store_modCore_kept (s : State) (k a : Nat) (f : CoreState → CoreState) (bs : List Byte) :
    ((s.modCore k f).store a bs).regs = s.regs ∧ ((s.modCore k f).store a bs).noc = s.noc := by
  rw [State.store_regs, State.store_noc, State.modCore_regs, State.modCore_noc]
  exact ⟨rfl, rfl⟩

theorem State.loadCore_kept (s : State) (k : Nat) : (s.loadCore k).regs = s.regs ∧ (s.loadCore k).noc = s.noc := by
  unfold State.loadCore
  cases s.coreSec k with
  | none => exact ⟨rfl, rfl⟩
  | some x => exact s.store_modCore_kept k _ _ _

/-- The register of a spill area that a write names. -/
def spillReg (size : Bool) : Reg := if size then .NOC_SPILL_SIZE else .NOC_SPILL_BASE

theorem State.sees_spillReg (s : State) (size : Bool) (i : Nat) : s.sees (0 : Func).val (spillReg size) i = true := by
  cases size <;> rfl

theorem exec_nocSpillWrite {s : State} (hl : s.live = true) (p : Region) (size : Bool) (v : DWord) :
    exec (.nocSpillWrite 0 p size v) s =
      .next (s.fnWrite 0 (spillReg size) p.val fun s => s.writeSpill p.val size v.toNat) :=
  State.act_live _ hl

/-- A register of a spill area takes a value that the physical function writes (R191). -/
theorem nocSpillWrite_written {s : State} (hl : s.live = true) (hd : s.decodes 0 = true) (p : Region) (size : Bool) (v : DWord) :
    exec (.nocSpillWrite 0 p size v) s = .next (s.wn (spillReg size) p.val (v.toNat % 2 ^ 48)) := by
  rw [exec_nocSpillWrite hl, State.fnWrite, hd, State.sees_spillReg, if_neg (by decide), if_pos rfl, State.writeSpill, spillReg]

/-- Settles O15: the paths of a courier token, the record of a straggler, the two outcomes at a node, the spill registers and the spare. -/
theorem couriersNodesAndSpares : Obligations.CouriersNodesAndSpares := by
  refine ⟨fun n s t hl ht hc hp hm he ho hr => ?_, fun s hl => ⟨fun n t cl br ht hs hb hv h8 => ?_,
    fun n t cl nd leaf op ht hm hp ho hs hv => ⟨fun hn => ?_, fun c hf => ?_⟩, fun p v hd => ?_, fun k hk => ?_⟩⟩
  · have leaves {path : List Nat} {detour : Bool} := courierPacketRoute_leaves (path := path) (detour := detour) hl ht hc hp hm he ho hr
    have lost := courierPacketRoute_lost hl ht hc hp hm he ho hr
    exact ⟨fun hb hx => leaves (State.courierPath_xFirst hb hx), fun hb hx hy => leaves (State.courierPath_yFirst hb hx hy),
      fun hb => lost (State.courierPath_fenced hb), fun hx hy => lost (State.courierPath_blocked hx hy)⟩
  · exact stragglerTimeout_recorded hl ht hs hb hv h8
  · refine ⟨_, exec_reductionContribution hl ht hm hp ho hs hv, ?_⟩
    rw [hn]
    exact ⟨rfl, rfl, rfl, rfl⟩
  · exact reductionContribution_combined hl ht hm hp ho hs hv hf
  · exact ⟨nocSpillWrite_written hl hd p false v, nocSpillWrite_written hl hd p true v⟩
  · refine ⟨_, (State.act_live _ hl).trans (congrArg _ (if_pos hk)), ?_, s.loadCore_kept k.key⟩
    rw [State.core_modCore_self]

end Sys2Proof.Machine
end

