-- ==== Sys2Proof/Proofs/TokenArrivals.lean ====
section
/-! Tokens at the consumer's side (R61, R62, R64, R79, R83, R212, R215, R591): the checks before the matcher, the matcher's entrance, and
the arrival of courier and stream tokens. -/

namespace Sys2Proof.Machine
open Sys2Proof

/-! ## The checks before the matcher (R212, R215, R591) -/

section
variable {s u : State}

theorem State.seamPass_of_part (h : u.part (.reg .BND_REGION_STATE) = s.part (.reg .BND_REGION_STATE)) (p : Nat) (e : Epoch) :
    u.seamPass p e = s.seamPass p e := by
  have hs : u.rstate p = s.rstate p := State.get_of_part (f := BND_REGION_STATE.state) h p
  have he : u.repoch p = s.repoch p := State.get_of_part (f := BND_REGION_STATE.epoch) h p
  rw [State.seamPass, hs, he, ← State.seamPass]

theorem State.runs_of_part (h : u.part (.reg .BND_REGION_STATE) = s.part (.reg .BND_REGION_STATE)) (p : Nat) : u.runs p = s.runs p :=
  State.runs_of_rstate (State.get_of_part (f := BND_REGION_STATE.state) h p)

theorem State.nameable_of_parts (hb : u.part .bnd = s.part .bnd) (h : u.part (.reg .BND_REGION_STATE) = s.part (.reg .BND_REGION_STATE))
    (hc : u.part (.reg .CORE_STATUS) = s.part (.reg .CORE_STATUS)) (k : Nat) : u.nameable k = s.nameable k := by
  have hx : u.hasCore k = s.hasCore k := by
    rw [State.hasCore, State.flag_of_part (f := CORE_STATUS.short) hc, ← State.hasCore]
  have hbnd : u.bnd = s.bnd := hb
  have hf : u.rfolio (regionOf k) = s.rfolio (regionOf k) := by
    rw [State.rfolio, State.folio, State.get_of_part (f := BND_REGION_STATE.handle) h, hbnd, ← State.folio, ← State.rfolio]
  rw [State.nameable, hx, hf, ← State.nameable]

end

/-- What the checks before the matcher find of a token that they let pass. -/
structure State.Admits (s : State) (t : Token) : Prop where
  seam : s.seamPass (regionOf t.dst) t.epoch = true
  named : s.nameable t.dst = true
  loaded : (s.core t.dst).loading = false
  computes : s.runs (regionOf t.dst) = true
  within : (s.core t.dst).beyond t.tag = false

/-- What the checks before the matcher read. -/
def admitParts : List Part := [.cores, .bnd, .reg .BND_REGION_STATE, .reg .CORE_STATUS]

theorem State.Admits.of_parts {s u : State} {t : Token} (ha : s.Admits t) (h : ∀ p ∈ admitParts, u.part p = s.part p) :
    u.Admits t := by
  have hr := h (.reg .BND_REGION_STATE) (by decide)
  have hc := State.core_of_part (h .cores (by decide)) t.dst
  obtain ⟨hseam, hnamed, hloaded, hruns, hwithin⟩ := ha
  exact ⟨(State.seamPass_of_part hr _ _).trans hseam,
    (State.nameable_of_parts (h .bnd (by decide)) hr (h (.reg .CORE_STATUS) (by decide)) _).trans hnamed,
    hc ▸ hloaded, (State.runs_of_part hr _).trans hruns, hc ▸ hwithin⟩

/-! ## The entrance of the matcher (R61, R62, R83) -/

section
variable {c : CoreState} {t : Token}

theorem CoreState.entrance_bad (h : c.block.opCount ≤ t.op ∨ opPorts (c.block.op t.op) ≤ t.port) : c.entrance t = .bad := by
  rw [CoreState.entrance, if_pos h]

section
variable (hop : t.op < c.block.opCount) (hport : t.port < opPorts (c.block.op t.op))
include hop hport

theorem CoreState.entrance_of_after (h : tagAfter c.base t.tag = true) : c.entrance t = .stale := by
  rw [CoreState.entrance, if_neg (by omega), if_pos h]

theorem CoreState.entrance_of_arrived {m : MEntry} (h : c.entry t.op t.tag = some m) (hm : m.arrived &&& portBit t.port ≠ 0#8) :
    c.entrance t = .stale := by
  rw [CoreState.entrance, if_neg (by omega), h]
  split
  · rfl
  · rw [if_pos (by simp [hm])]

variable (hb : tagAfter c.base t.tag = false) (hret : (t.op, t.tag) ∉ c.retired) (hn : c.entry t.op t.tag = none)
include hb hret hn

theorem CoreState.entrance_oversize (h : portSlotSize (c.block.port t.op t.port) < t.length) : c.entrance t = .oversize := by
  rw [CoreState.entrance, if_neg (by omega), if_neg (by simp [hb]), if_neg (by simp [hret, hn]), if_pos h]

variable (hlen : t.length ≤ portSlotSize (c.block.port t.op t.port))
include hlen

theorem CoreState.entrance_ahead (h : 3 < (t.tag - c.base).toNat) : c.entrance t = .wait := by
  rw [CoreState.entrance, if_neg (by omega), if_neg (by simp [hb]), if_neg (by simp [hret, hn]), if_neg (Nat.not_lt.mpr hlen),
    if_pos (by rw [decide_eq_true h, Bool.true_or])]

theorem CoreState.entrance_ok (h : (t.tag - c.base).toNat ≤ 3) (he : c.entries = []) : c.entrance t = .ok := by
  rw [CoreState.entrance, if_neg (by omega), if_neg (by simp [hb]), if_neg (by simp [hret, hn]), if_neg (Nat.not_lt.mpr hlen), he,
    decide_eq_false (Nat.not_lt.mpr h)]
  rfl

end

end

/-! ## Headers admitted (R64) -/

/-- What an entry holds once a header has arrived. -/
theorem MEntry.arrive_eq (m : MEntry) (e : Nat) (t : Token) : ∃ (st : MState) (late : Bool), m.arrive e t =
    { m with
      arrived := m.arrived ||| portBit t.port
      landed := if t.null then m.landed ||| portBit t.port else m.landed
      nulls := if t.null then m.nulls ||| portBit t.port else m.nulls
      state := st
      late := late } := by
  rw [MEntry.arrive]
  cases t.null
  all_goals
    simp only [Bool.false_eq_true, if_false, if_true]
    split
    · split
      · exact ⟨_, _, rfl⟩
      · exact ⟨_, _, rfl⟩
    · exact ⟨_, _, rfl⟩

/-- An entry in which nothing has arrived. -/
def State.freshEntry (s : State) (t : Token) : MEntry :=
  { op := t.op, tag := t.tag, epoch := BitVec.ofNat 12 (s.repoch (regionOf t.dst)) }

section
variable {s : State} {t : Token}

/-- What an admitted header changes. -/
def headerParts : List Part := [.cores, .reg .CORE_LATE_EVENT, .reg .MGT_SAT]

theorem State.admitHeader_part {p : Part} (h : p ∉ headerParts) (s : State) (t : Token) : (s.admitHeader t).part p = s.part p :=
  (State.part_ite (fun _ => State.bump_part (Part.ne h) (Part.ne h) _ _ _) fun _ => rfl).trans (State.setCore_part (Part.ne h) s _ _)

theorem State.core_admitHeader (s : State) (t : Token) : (s.admitHeader t).core t.dst = (s.core t.dst).putEntry
    ((((s.core t.dst).entry t.op t.tag).getD (s.freshEntry t)).arrive ((s.core t.dst).block.op t.op) t) := by
  rw [State.admitHeader]
  split
  · rw [State.core_bump, State.core_setCore_self]
    rfl
  · rw [State.core_setCore_self]
    rfl

/-- The first header that a core admits. -/
theorem State.admitHeader_first (he : (s.core t.dst).entries = []) : ∃ m, ((s.admitHeader t).core t.dst).entry t.op t.tag = some m ∧
    m.arrived = portBit t.port ∧ m.nulls = (if t.null then portBit t.port else 0#8) ∧ m.landed = m.nulls := by
  have hn (n : Nat) (x : Tag) : (s.core t.dst).entry n x = none := by rw [CoreState.entry, he, List.find?_nil]
  obtain ⟨st, late, hm⟩ := (s.freshEntry t).arrive_eq ((s.core t.dst).block.op t.op) t
  rw [State.core_admitHeader, hn, Option.getD_none, hm, CoreState.putEntry, hn, if_neg (by decide), CoreState.entry, he, List.nil_append,
    List.find?_cons_of_pos (by simp [State.freshEntry])]
  exact ⟨_, rfl, BitVec.zero_or, if_congr Iff.rfl BitVec.zero_or rfl, rfl⟩

end

/-! ## Arrival (R61, R62, R183, R212) -/

section
variable {s : State} {t : Token}

theorem State.arrive_seam (h : s.seamPass (regionOf t.dst) t.epoch = false) (n : Nat) (stream : Bool) : s.arrive n t stream =
    ((s.seamDiscard (regionOf t.dst) (clusterOf t.dst) t.epoch t.pieces).loseCredit t).dropTok n := by
  rw [State.arrive, h, if_pos (by decide)]

theorem State.arrive_unnamed (h : s.seamPass (regionOf t.dst) t.epoch = true)
    (hn : s.nameable t.dst = false ∨ (s.core t.dst).loading = true ∨ s.runs (regionOf t.dst) = false) (n : Nat) (stream : Bool) :
    s.arrive n t stream = ((s.discard (clusterOf t.dst) t.pieces).loseSlot t).dropTok n := by
  rw [State.arrive, h, if_neg (by decide), if_pos]
  rcases hn with hn | hn | hn
  all_goals simp [hn]

theorem State.arrive_beyond (h : s.seamPass (regionOf t.dst) t.epoch = true) (hn : s.nameable t.dst = true)
    (hl : (s.core t.dst).loading = false) (hr : s.runs (regionOf t.dst) = true) (hb : (s.core t.dst).beyond t.tag = true) (n : Nat)
    (stream : Bool) : s.arrive n t stream = ((s.discardLate t).loseSlot t).dropTok n := by
  rw [State.arrive, h, hn, hl, hr, hb, if_neg (by decide), if_neg (by decide), if_pos rfl]

/-- The program fault that the matcher finds of a token (R62, R83). -/
def Admit.cause : Admit → Option Fld
  | .bad => some CORE_FAULT.bad_token
  | .stale => some CORE_FAULT.dup_token
  | .oversize => some CORE_FAULT.oversize
  | .wait => none
  | .ok => none

/-- A token whose header is admitted, all of its data on the way to its slot. -/
def Token.taken (t : Token) (data : List Byte) : Token :=
  { t with phase := .admitted, stalled := none, buffered := [], unsent := 0, data := data }

/-- What the matcher makes of a token that the checks before it let pass. -/
def State.atMatcher (s : State) (n : Nat) (t : Token) (stream : Bool) (a : Admit) : State :=
  match a with
  | .bad => (s.programFault t.dst CORE_FAULT.bad_token 0).dropTok n
  | .stale => (s.programFault t.dst CORE_FAULT.dup_token 0).dropTok n
  | .oversize => (s.programFault t.dst CORE_FAULT.oversize 0).dropTok n
  | .wait => if stream then s.divert n t else s
  | .ok =>
    let s := s.admitHeader t
    if t.null then s.dropTok n
    else s.setTok n (t.taken (if stream then s.egress t t.unsent else t.data))

theorem State.atMatcher_cause {a : Admit} {f : Fld} (h : a.cause = some f) (n : Nat) (stream : Bool) :
    s.atMatcher n t stream a = (s.programFault t.dst f 0).dropTok n := by
  cases a with
  | wait => exact absurd h (Option.some_ne_none f).symm
  | ok => exact absurd h (Option.some_ne_none f).symm
  | _ => exact congrArg (fun f => (s.programFault t.dst f 0).dropTok n) (Option.some.inj h)

theorem State.arrive_admitted (ha : s.Admits t) {stream : Bool} (hb : (stream && s.backlog t.dst t.op t.port) = false) (n : Nat) :
    s.arrive n t stream = s.atMatcher n t stream ((s.core t.dst).entrance t) := by
  obtain ⟨hseam, hnamed, hloaded, hruns, hwithin⟩ := ha
  rw [State.arrive, hseam, hnamed, hloaded, hruns, hwithin, hb, if_neg (by decide), if_neg (by decide), if_neg (by decide),
    if_neg (by decide)]
  rfl

end

/-! ## A branch that takes a token again (R176) -/

/-- What a branch that takes a token changes. -/
def branchParts : List Part := [.noc, .reg .NOC_STATUS]

theorem State.freeBranch_part {p : Part} (h : p ∉ branchParts) (s : State) (t : Token) : (s.freeBranch t).part p = s.part p := by
  unfold State.freeBranch
  split
  · rfl
  · exact (State.put_part (Part.ne h) _ _ _).trans (State.withNoc_part (Part.ne h) s _)

/-- The token as it reaches its core: no branch holds it. -/
def Token.freed (t : Token) : Token := { t with stalled := none, buffered := [] }

/-! ## A courier token arrives (R61, R62, R64) -/

section
variable {s : State} {n : Nat} {t : Token}

theorem exec_tokenArrival_courier (hl : s.live = true) (ht : s.noc.tokens[n]? = some t) (h15 : lcoreOf t.dst ≠ 15)
    (hc : t.courier = true) (hp : t.phase = .flying) (hm : t.mode = .unicast) (ho : s.inOrder n t = true)
    (hb : s.branchFree n t = true) : exec (.tokenArrival n) s = .next ((s.freeBranch t).arrive n t.freed false) := by
  refine (State.act_live _ hl).trans (congrArg _ ?_)
  rw [ht]
  dsimp only
  rw [if_neg h15, if_pos hc, if_pos (by simp [hp, hm, ho, hb])]
  rfl

/-- A header admitted to an empty matcher: its entry, and its token gone where it is null, admitted where it has data. -/
theorem State.atMatcher_first (he : (s.core t.dst).entries = []) {stream : Bool} : ∃ m,
    ((s.atMatcher n t stream .ok).core t.dst).entry t.op t.tag = some m ∧ m.arrived = portBit t.port ∧
      m.nulls = (if t.null then portBit t.port else 0#8) ∧ m.landed = m.nulls ∧ (s.atMatcher n t stream .ok).mem = s.mem ∧
      (s.atMatcher n t stream .ok).noc.tokens = if t.null then s.noc.tokens.eraseIdx n
        else s.noc.tokens.set n (t.taken (if stream then (s.admitHeader t).egress t t.unsent else t.data)) := by
  obtain ⟨m, hm, harr, hnull, hland⟩ := State.admitHeader_first he
  have hnoc : (s.admitHeader t).noc = s.noc := State.admitHeader_part (p := .noc) (by decide) s t
  have hmem : (s.admitHeader t).mem = s.mem := State.admitHeader_part (p := .mem) (by decide) s t
  refine ⟨m, ?_, harr, hnull, hland, ?_⟩
  · rw [State.atMatcher]
    split
    · exact hm
    · exact hm
  · rw [State.atMatcher]
    split
    · exact ⟨hmem, by rw [State.dropTok, hnoc]⟩
    · exact ⟨hmem, by rw [State.setTok, hnoc]⟩

end

section
variable {s : State} {n : Nat} {t : Token} (hl : s.live = true) (ht : s.noc.tokens[n]? = some t) (h15 : lcoreOf t.dst ≠ 15)
  (hc : t.courier = true) (hp : t.phase = .flying) (hm : t.mode = .unicast) (ho : s.inOrder n t = true)
  (hb : s.branchFree n t = true)
include hl ht h15 hc hp hm ho hb

theorem tokenArrival_seam (h : s.seamPass (regionOf t.dst) t.epoch = false) : exec (.tokenArrival n) s =
    .next ((((s.freeBranch t).seamDiscard (regionOf t.dst) (clusterOf t.dst) t.epoch t.pieces).loseCredit t).dropTok n) :=
  (exec_tokenArrival_courier hl ht h15 hc hp hm ho hb).trans (congrArg _ (State.arrive_seam (t := t.freed)
    ((State.seamPass_of_part (State.freeBranch_part (by decide) s t) _ _).trans h) n false))

theorem tokenArrival_unnamed (h : s.seamPass (regionOf t.dst) t.epoch = true)
    (hn : s.nameable t.dst = false ∨ (s.core t.dst).loading = true ∨ s.runs (regionOf t.dst) = false) : exec (.tokenArrival n) s =
      .next ((((s.freeBranch t).discard (clusterOf t.dst) t.pieces).loseSlot t).dropTok n) := by
  have hv {p : Part} (h : p ∉ branchParts) := State.freeBranch_part h s t
  rw [← State.nameable_of_parts (hv (by decide)) (hv (by decide)) (hv (by decide)) t.dst, ← State.core_of_part (hv (by decide)) t.dst,
    ← State.runs_of_part (hv (by decide)) (regionOf t.dst)] at hn
  exact (exec_tokenArrival_courier hl ht h15 hc hp hm ho hb).trans (congrArg _ (State.arrive_unnamed (t := t.freed)
    ((State.seamPass_of_part (hv (by decide)) _ _).trans h) hn n false))

theorem tokenArrival_beyond (h : s.seamPass (regionOf t.dst) t.epoch = true) (hn : s.nameable t.dst = true)
    (hld : (s.core t.dst).loading = false) (hr : s.runs (regionOf t.dst) = true) (hbey : (s.core t.dst).beyond t.tag = true) :
    exec (.tokenArrival n) s = .next ((((s.freeBranch t).discardLate t).loseSlot t).dropTok n) := by
  have hv {p : Part} (h : p ∉ branchParts) := State.freeBranch_part h s t
  have hcore := State.core_of_part (hv (by decide)) t.dst
  exact (exec_tokenArrival_courier hl ht h15 hc hp hm ho hb).trans (congrArg _ (State.arrive_beyond (t := t.freed)
    ((State.seamPass_of_part (hv (by decide)) _ _).trans h)
    ((State.nameable_of_parts (hv (by decide)) (hv (by decide)) (hv (by decide)) _).trans hn)
    ((congrArg CoreState.loading hcore).trans hld) ((State.runs_of_part (hv (by decide)) _).trans hr)
    ((congrArg (CoreState.beyond · t.tag) hcore).trans hbey) n false))

/-- A courier token that no check before the matcher discards. -/
theorem tokenArrival_matcher (ha : s.Admits t) : exec (.tokenArrival n) s =
    .next ((s.freeBranch t).atMatcher n t.freed false ((s.core t.dst).entrance t)) := by
  have ha' : (s.freeBranch t).Admits t := ha.of_parts fun p hp => State.freeBranch_part (by revert p; decide) s t
  have hcore := State.core_of_part (State.freeBranch_part (by decide) s t) t.dst
  obtain ⟨hseam, hnamed, hloaded, hruns, hwithin⟩ := ha'
  refine (exec_tokenArrival_courier hl ht h15 hc hp hm ho hb).trans (congrArg _ ?_)
  rw [State.arrive_admitted (t := t.freed) ⟨hseam, hnamed, hloaded, hruns, hwithin⟩ rfl]
  exact congrArg (fun c : CoreState => (s.freeBranch t).atMatcher n t.freed false (c.entrance t.freed)) hcore

theorem tokenArrival_gone (ha : s.Admits t) {a : Admit} (he : (s.core t.dst).entrance t = a) {f : Fld} (hf : a.cause = some f) :
    exec (.tokenArrival n) s = .next (((s.freeBranch t).programFault t.dst f 0).dropTok n) := by
  rw [tokenArrival_matcher hl ht h15 hc hp hm ho hb ha, he, State.atMatcher_cause hf]
  rfl

/-- A token without a free slot stays where it is (R61). -/
theorem tokenArrival_waits (ha : s.Admits t) (he : (s.core t.dst).entrance t = .wait) :
    exec (.tokenArrival n) s = .next (s.freeBranch t) := by
  rw [tokenArrival_matcher hl ht h15 hc hp hm ho hb ha, he]
  rfl

theorem tokenArrival_first (ha : s.Admits t) (he : (s.core t.dst).entrance t = .ok) (hn : (s.core t.dst).entries = []) :
    Completes (.tokenArrival n) s fun u => ∃ m, (u.core t.dst).entry t.op t.tag = some m ∧ m.arrived = portBit t.port ∧
      m.nulls = (if t.null then portBit t.port else 0#8) ∧ m.landed = m.nulls ∧ u.mem = s.mem ∧
      u.noc.tokens = (if t.null then (s.freeBranch t).noc.tokens.eraseIdx n
        else (s.freeBranch t).noc.tokens.set n { t with phase := .admitted, stalled := none, buffered := [], unsent := 0 }) := by
  have hv {p : Part} (h : p ∉ branchParts) := State.freeBranch_part h s t
  obtain ⟨m, hm', harr, hnull, hland, hmem, htok⟩ := State.atMatcher_first (s := s.freeBranch t) (t := t.freed) (n := n)
    (stream := false) ((congrArg CoreState.entries (State.core_of_part (hv (by decide)) t.dst)).trans hn)
  exact ⟨_, (tokenArrival_matcher hl ht h15 hc hp hm ho hb ha).trans (by rw [he]), m, hm', harr, hnull, hland,
    hmem.trans (hv (p := .mem) (by decide)), htok⟩

end

/-! ## A stream token arrives (R79, R183) -/

theorem State.load_of_parts {s u : State} (hm : u.part .mem = s.part .mem)
    (hq : u.part (.reg .MEM_QUAD_MODE) = s.part (.reg .MEM_QUAD_MODE)) (a n : Nat) : u.load a n = s.load a n := by
  have hmem : u.mem = s.mem := hm
  have hquad : u.quadMode = s.quadMode := by
    funext q
    rw [State.quadMode, State.rn_of_part hq, ← State.quadMode]
  have hkey : u.memKey = s.memKey := by
    funext b
    rw [State.memKey, State.locate, hquad, ← State.locate, ← State.memKey]
  rw [State.load, State.spread, hquad, hkey, hmem, ← State.spread, ← State.load]

theorem State.spad_of_part {s u : State} (h : u.part (.reg .NOC_REMAP) = s.part (.reg .NOC_REMAP)) (k : Nat) : u.spad k = s.spad k := by
  rw [State.spad, State.phys, State.rn_of_part h, ← State.phys, ← State.spad]

theorem State.egress_of_core {t : Token} {a b d f : Nat} (hs : t.src = .core a b d f) (s : State) (n : Nat) :
    s.egress t n = s.load (s.spad a + t.addr + (64 * t.length - t.unsent)) n := by
  rw [State.egress, hs]

/-- A stream token before which new beats of its port queue (R183). -/
def Token.pends (k op port : Nat) (x : Token) : Bool :=
  (!x.courier && x.dst = k && x.op = op && x.port = port && (x.phase = .diverted || x.phase = .admitted)) &&
    (x.phase = .diverted || decide (0 < x.spilt + x.unsent))

theorem State.backlog_eq (s : State) (k op port : Nat) : s.backlog k op port = s.noc.tokens.any (Token.pends k op port) := by
  rw [State.backlog, State.portTokens, List.any_filter, ← congrArg (List.any · _) (List.zipIdx_map_fst 0 s.noc.tokens), List.any_map]
  rfl

section
variable {s : State} {n : Nat} {t : Token} {k : Nat}

/-- The token as it leaves its staging for a core. -/
def Token.leaving (t : Token) (k : Nat) : Token := { t with dst := k, unsent := 64 * t.length }

/-- The package once the token has left its staging. -/
def State.entering (s : State) (n : Nat) (t : Token) (k : Nat) : State :=
  ((s.endWait (streamOf t).toList).dropTok n).pushTok (t.leaving k)

theorem State.entering_part {p : Part} (hh : p ≠ .hrd) (hn : p ≠ .noc) : (s.entering n t k).part p = s.part p :=
  (State.withNoc_part hn _ _).trans ((State.withNoc_part hn _ _).trans (State.endWait_part hh s _))

theorem State.tokens_entering : (s.entering n t k).noc.tokens = s.noc.tokens.eraseIdx n ++ [t.leaving k] := rfl

theorem State.backlog_entering (hp : t.phase = .waiting) {op port : Nat} (hb : s.backlog k op port = false) :
    (s.entering n t k).backlog k op port = false := by
  rw [State.backlog_eq, List.any_eq_false] at hb
  rw [State.backlog_eq, State.tokens_entering, List.any_append, Bool.or_eq_false_iff]
  refine ⟨List.any_eq_false.mpr fun x hx => hb x ((List.eraseIdx_sublist _ _).mem hx), ?_⟩
  simp [Token.pends, Token.leaving, hp]

/-- A route past no fenced router leads the token to its core. -/
theorem State.streamGo_reaches {r : List Nat × Nat × Option Nat} {l : Nat} (hp : s.streamPath t = some r) (hl : r.2.2 = some l)
    (hf : ∀ x ∈ r.1 ++ [r.2.1], s.fencedRouter x = false) : ∃ j, s.streamGo n t =
      ((s.entering n t (16 * r.2.1 + l)).arrive (s.noc.tokens.eraseIdx n).length (t.leaving (16 * r.2.1 + l)) true).countFlits
        .NOC_STREAM_FLITS r.1 j := by
  have hx : (r.1 ++ [r.2.1]).find? ((s.endWait (streamOf t).toList).dropTok n).fencedRouter = none :=
    List.find?_eq_none.mpr fun x h => Bool.eq_false_iff.mp (hf x h)
  rw [State.streamGo, hp]
  dsimp only
  rw [hx]
  dsimp only
  rw [hl]
  exact ⟨_, rfl⟩

theorem exec_tokenArrival_stream (hl : s.live = true) (ht : s.noc.tokens[n]? = some t) (h15 : lcoreOf t.dst ≠ 15)
    (hc : t.courier = false) (hp : t.phase = .waiting) (he : s.egressStopped t = false) (hh : s.onHold t.dst t.op t.port = false)
    (ho : s.oldestOfStream n t = true) : exec (.tokenArrival n) s = .next (s.streamGo n t) := by
  refine (State.act_live _ hl).trans (congrArg _ ?_)
  rw [ht]
  dsimp only
  rw [if_neg h15, if_neg (Bool.eq_false_iff.mp hc), he, hh, if_neg (by decide), if_pos hp, if_pos ho]

/-- A stream token that its core admits stands in the matcher with its sender's bytes (R64, R79). -/
theorem State.arrive_stream (ha : s.Admits (t.leaving k)) (hb : s.backlog k t.op t.port = false) (he : (s.core k).entries = [])
    (hok : (s.core k).entrance (t.leaving k) = .ok) (hp : t.phase = .waiting) (hn : t.null = false) {a b d f : Nat}
    (hs : t.src = .core a b d f) : let u := (s.entering n t k).arrive (s.noc.tokens.eraseIdx n).length (t.leaving k) true
      (∃ m, (u.core k).entry t.op t.tag = some m ∧ m.arrived = portBit t.port ∧ m.landed = 0#8) ∧ u.mem = s.mem ∧
      ∃ x, u.noc.tokens = s.noc.tokens.eraseIdx n ++ [x] ∧ x.phase = .admitted ∧ x.dst = k ∧ x.unsent = 0 ∧
        x.data = s.load (s.spad a + t.addr) (64 * t.length) := by
  have hw {p : Part} (hh : p ≠ .hrd) (hn : p ≠ .noc) := State.entering_part (s := s) (n := n) (t := t) (k := k) hh hn
  have hcore : (s.entering n t k).core k = s.core k := State.core_of_part (hw (by decide) (by decide)) k
  have ha' : (s.entering n t k).Admits (t.leaving k) := ha.of_parts fun p hp =>
    hw (by revert p; decide) (by revert p; decide)
  have hdata : ((s.entering n t k).admitHeader (t.leaving k)).egress (t.leaving k) (t.leaving k).unsent =
      s.load (s.spad a + t.addr) (64 * t.length) := by
    have hh {p : Part} (h : p ∉ headerParts) := State.admitHeader_part h (s.entering n t k) (t.leaving k)
    rw [State.egress_of_core (t := t.leaving k) hs, State.load_of_parts ((hh (by decide)).trans (hw (by decide) (by decide)))
      ((hh (by decide)).trans (hw (by decide) (by decide))), State.spad_of_part ((hh (by decide)).trans (hw (by decide) (by decide)))]
    exact congrArg (fun i => s.load i (64 * t.length)) (by rw [Token.leaving, Nat.sub_self, Nat.add_zero])
  obtain ⟨m, hm, harr, hnull, hland, hmem, htok⟩ := State.atMatcher_first (s := s.entering n t k) (t := t.leaving k)
    (n := (s.noc.tokens.eraseIdx n).length) (stream := true) (hcore.symm ▸ he)
  have hnull' : (t.leaving k).null = false := hn
  have hok' : ((s.entering n t k).core (t.leaving k).dst).entrance (t.leaving k) = .ok := hcore.symm ▸ hok
  have hb' : (true && (s.entering n t k).backlog (t.leaving k).dst (t.leaving k).op (t.leaving k).port) = false :=
    State.backlog_entering hp hb
  rw [hnull'] at hnull htok
  dsimp only
  rw [State.arrive_admitted ha' hb', hok']
  refine ⟨⟨m, hm, harr, hland.trans hnull⟩, hmem.trans (hw (p := .mem) (by decide) (by decide)), (t.leaving k).taken _, ?_, rfl, rfl, rfl,
    hdata⟩
  rw [htok, State.tokens_entering, if_neg (by decide), List.set_append_right _ _ (Nat.le_refl _), Nat.sub_self]
  rfl

end

end Sys2Proof.Machine
end

