-- ==== Sys2Proof/Proofs/TokenSpills.lean ====
section
/-! Data landed in its slot (R64), reservoirs drained, spilled bytes read back, and holds released (R183 to R185). -/

namespace Sys2Proof.Machine
open Sys2Proof

/-! ## Landing (R57, R64) -/

theorem MEntry.landed_land (m : MEntry) (e k : Nat) : (m.land e k).landed = m.landed ||| portBit k := by
  rw [MEntry.land]
  split <;> rfl

section
variable {s : State} {n : Nat} {t : Token}

theorem exec_tokenDataLanded (hl : s.live = true) (ht : s.noc.tokens[n]? = some t) (hp : t.phase = .admitted)
    (hd : t.inSlot + t.data.length = 64 * t.length) (ha : t.area = []) (hs : t.staged = []) (hu : t.unsent = 0) {m : MEntry}
    (hm : (s.core t.dst).entry t.op t.tag = some m) : exec (.tokenDataLanded n) s =
      .next (((s.setCore t.dst ((s.core t.dst).putEntry (m.land ((s.core t.dst).block.op t.op) t.port))).store
        (s.slotOfTok t + t.inSlot) t.data).dropTok n) := by
  have hz : t.spilt + t.unsent = 0 := by
    rw [Token.spilt, ha, hs, hu]
    rfl
  refine (State.act_live _ hl).trans (congrArg _ ?_)
  rw [ht]
  dsimp only
  rw [if_pos (by simp [hp, hd, hz]), State.landToken, hm]

theorem exec_reservoirDrain {k : CoreRef} {op : Fin 32} {port : Fin 8} (hl : s.live = true)
    (hf : s.frontDiverted k.key op.val port.val = some (t, n)) (hr : s.runs k.p.val = true)
    (hb : (s.core k.key).beyond t.tag = false) (hi : 0 < t.inResv) (he : (s.core k.key).entrance t = .ok) (hn : t.null = false) :
    exec (.reservoirDrain k op port) s = .next (((s.admitHeader t).store ((s.admitHeader t).slotOfTok t)
      ((s.admitHeader t).resvRead t.dst t.op t.port t.resvAt t.inResv)).setTok n
        { t with phase := .admitted, inSlot := t.inResv, inResv := 0 }) := by
  refine (State.act_live _ hl).trans (congrArg _ ?_)
  rw [hf]
  dsimp only
  rw [regionOf_key, hr, hb, if_neg (by decide), if_neg (by decide), if_neg (by omega), he]
  dsimp only
  rw [hn]
  rfl

end

/-! ## Staging and areas (R184) -/

section
variable {p : Part}

theorem State.writeUnits_part (h : p ∉ accessParts) (r : Requester) (l : List Nat) (s : State) (bs : List Byte) :
    (s.writeUnits r l bs).1.part p = s.part p := by
  induction l generalizing s bs with
  | nil => rfl
  | cons a l ih =>
    rw [State.writeUnits]
    split
    · rfl
    split
    · rfl
    split
    next u hu => exact (ih u _).trans ((congrArg (·.1.part p) hu).symm.trans (s.serveWrite_part h r a _ false))
    next => rfl

theorem State.readUnits_part (h : p ∉ readAccessParts) (r : Requester) (l : List Nat) (s : State) :
    (s.readUnits r l).1.part p = s.part p := by
  induction l generalizing s with
  | nil => rfl
  | cons a l ih =>
    have hs := s.serveRead_part h r a 64 0 0 false
    rw [State.readUnits]
    split
    · rfl
    split
    next u bs hu => exact (ih u).trans ((congrArg (·.1.part p) hu).symm.trans hs)
    next u x _ hu => exact (congrArg (·.1.part p) hu).symm.trans hs

/-- One token's share of the drain of a router's staging. -/
def State.drainToken (cl : Nat) (s : State) (n : Nat) : State :=
  match s.noc.tokens[n]? with
  | some t =>
    if clusterOf t.dst ≠ cl ∨ t.staged = [] then s
    else
      let w := s.writeUnits (s.spillReq t.dst) (s.areaFree (regionOf t.dst) (t.staged.length / 64)) t.staged
      w.1.setTok n { t with area := t.area ++ w.2, staged := t.staged.drop (64 * w.2.length) }
  | none => s

theorem State.drainStaging_eq (s : State) (cl : Nat) :
    s.drainStaging cl = (upto s.noc.tokens.length).foldl (State.drainToken cl) s := rfl

theorem State.drainToken_part (h : p ∉ .noc :: accessParts) (cl : Nat) (s : State) (n : Nat) :
    (s.drainToken cl n).part p = s.part p := by
  rw [State.drainToken]
  split
  · refine State.part_ite (fun _ => rfl) fun _ => ?_
    exact (State.withNoc_part (Part.ne h) _ _).trans (State.writeUnits_part (Part.sub h) _ _ s _)
  · rfl

theorem State.drainStaging_part (h : p ∉ .noc :: accessParts) (s : State) (cl : Nat) : (s.drainStaging cl).part p = s.part p := by
  rw [State.drainStaging_eq]
  exact State.part_foldl (State.drainToken_part h cl) _ s

end

theorem State.holds_drainToken (cl : Nat) (s : State) (n : Nat) : (s.drainToken cl n).noc.holds = s.noc.holds := by
  rw [State.drainToken]
  split
  next t _ =>
    split
    · rfl
    · have hw := congrArg (fun x : NocState => x.holds) (State.writeUnits_part (p := .noc) (by decide) (s.spillReq t.dst)
        (s.areaFree (regionOf t.dst) (t.staged.length / 64)) s t.staged)
      exact hw
  next => rfl

theorem State.holds_drainStaging (s : State) (cl : Nat) : (s.drainStaging cl).noc.holds = s.noc.holds := by
  rw [State.drainStaging_eq]
  induction upto s.noc.tokens.length generalizing s with
  | nil => rfl
  | cons n l ih => exact (ih _).trans (s.holds_drainToken cl n)

/-- Nothing leaves a staging in which nothing stands. -/
theorem State.drainStaging_of_unstaged {s : State} {cl : Nat} (h : ∀ t ∈ s.noc.tokens, clusterOf t.dst = cl → t.staged = []) :
    s.drainStaging cl = s := by
  have hn (n : Nat) : s.drainToken cl n = s := by
    rw [State.drainToken]
    split
    next t ht =>
      refine if_pos ?_
      by_cases hc : clusterOf t.dst = cl
      · exact Or.inr (h t (List.mem_of_getElem? ht) hc)
      · exact Or.inl hc
    next => rfl
  rw [State.drainStaging_eq]
  induction upto s.noc.tokens.length with
  | nil => rfl
  | cons n l ih => rw [List.foldl_cons, hn, ih]

/-! ## A hold ends (R185) -/

theorem State.holds_endHold (s : State) (h : Hold) (n : Nat) : (s.endHold h n).noc.holds = s.noc.holds.filter (· ≠ h) := by
  rw [State.endHold, State.bump_noc]
  rfl

theorem State.rn_endHold (s : State) (h : Hold) (n : Nat) : (s.endHold h n).rn .NOC_HOLD_CYCLES (clusterOf h.core) =
    min (s.rn .NOC_HOLD_CYCLES (clusterOf h.core) + n) (2 ^ 64 - 1) :=
  State.rn_bump (by decide) _ _ n

theorem holdRelease_ends {s : State} {k : CoreRef} {op : Fin 32} {port : Fin 8} {cycles : Nat} {h : Hold} (hl : s.live = true)
    (hh : s.noc.holds.find? (fun h => h.core = k.key && h.op = op.val && h.port = port.val) = some h)
    (hs : (s.drainStaging (clusterOf k.key)).stagingUsed (clusterOf k.key) < 8192)
    (ha : (s.drainStaging (clusterOf k.key)).areaUnits k.p.val = 0 ∨ (s.drainStaging (clusterOf k.key)).areaFull k.p.val = false) :
    Completes (.holdRelease k op port cycles) s fun u =>
      u.noc.holds = s.noc.holds.filter (· ≠ h) ∧ u.mem = (s.drainStaging (clusterOf k.key)).mem ∧ u.cores = s.cores ∧
      u.rn .NOC_HOLD_CYCLES (clusterOf k.key) = min (s.rn .NOC_HOLD_CYCLES (clusterOf k.key) + cycles) (2 ^ 64 - 1) := by
  have hk : h.core = k.key := by
    have := List.find?_some hh
    simp only [Bool.and_eq_true, decide_eq_true_eq] at this
    exact this.1.1
  have hd {p : Part} (hp : p ∉ .noc :: accessParts) := s.drainStaging_part hp (clusterOf k.key)
  have hshow {p : Part} (hp : p ≠ .reg .NOC_STATUS) (u : State) := u.showSpill_part hp (clusterOf k.key)
  refine ⟨((s.drainStaging (clusterOf k.key)).endHold h cycles).showSpill (clusterOf k.key),
    (State.act_live _ hl).trans (congrArg _ ?_), ?_, ?_, ?_, ?_⟩
  · rw [hh]
    dsimp only
    rw [regionOf_key, if_pos ⟨hs, ha⟩]
  · rw [← s.holds_drainStaging (clusterOf k.key), ← State.holds_endHold _ h cycles]
    exact congrArg (fun x : NocState => x.holds) (hshow (p := .noc) (by decide) _)
  · exact (hshow (p := .mem) (by decide) _).trans (State.endHold_part (p := .mem) (by decide) _ h cycles)
  · exact (hshow (p := .cores) (by decide) _).trans ((State.endHold_part (p := .cores) (by decide) _ h cycles).trans
      (hd (p := .cores) (by decide)))
  · rw [State.rn_of_part (hshow (by decide) _), ← hk, State.rn_endHold, State.rn_of_part (s.drainStaging_part (by decide) _)]

/-! ## Spilled bytes are read back (R184) -/

section
variable {s : State} {n : Nat} {t : Token} {cl : Nat}

/-- The staging of a router holds the bytes of a token and those of the others. -/
theorem State.stagingUsed_eq (ht : s.noc.tokens[n]? = some t) (hc : clusterOf t.dst = cl) : s.stagingUsed cl = t.staged.length +
    (((s.noc.tokens.eraseIdx n).filter fun x => clusterOf x.dst = cl).map fun x => x.staged.length).sum := by
  obtain ⟨hn, rfl⟩ := List.getElem?_eq_some_iff.mp ht
  rw [State.stagingUsed, ← List.sum_eq_foldl_nat,
    ← (((List.getElem_cons_eraseIdx_perm hn).filter fun x => clusterOf x.dst = cl).map fun x => x.staged.length).sum_nat,
    List.filter_cons_of_pos (p := fun x : Token => decide (clusterOf x.dst = cl)) (decide_eq_true hc), List.map_cons, List.sum_cons]

/-- A staging that holds one token's bytes alone is empty once they are read back. -/
theorem State.unstaged_setTok (ht : s.noc.tokens[n]? = some t) (hc : clusterOf t.dst = cl) (hu : s.stagingUsed cl = t.staged.length)
    {x : Token} (hx : x.staged = []) : ∀ y ∈ s.noc.tokens.set n x, clusterOf y.dst = cl → y.staged = [] := by
  intro y hy hcl
  rw [State.stagingUsed_eq ht hc, Nat.add_eq_left] at hu
  have hn := (List.getElem?_eq_some_iff.mp ht).1
  rcases List.mem_cons.mp ((List.set_perm_cons_eraseIdx hn x).mem_iff.mp hy) with rfl | hy
  · exact hx
  · exact List.length_eq_zero_iff.mp (List.sum_eq_zero_iff_forall_eq_nat.mp hu _
      (List.mem_map.mpr ⟨y, List.mem_filter.mpr ⟨hy, decide_eq_true hcl⟩, rfl⟩))

/-- With the bytes of one token the staging of its router empties, and nothing is left to drain. -/
theorem State.settled_setTok {w : State} (hw : w.noc = s.noc) (ht : s.noc.tokens[n]? = some t) (hc : clusterOf t.dst = cl)
    (hu : s.stagingUsed cl = t.staged.length) {x : Token} (hx : x.staged = []) :
    (((w.setTok n x).drainStaging cl).showSpill cl).noc.tokens = s.noc.tokens.set n x ∧
      (((w.setTok n x).drainStaging cl).showSpill cl).mem = w.mem ∧
      (((w.setTok n x).drainStaging cl).showSpill cl).cores = w.cores := by
  have htok : (w.setTok n x).noc.tokens = s.noc.tokens.set n x := by rw [State.setTok, hw]
  have hshow {p : Part} (h : p ≠ .reg .NOC_STATUS) := (w.setTok n x).showSpill_part h cl
  rw [State.drainStaging_of_unstaged (by rw [htok]; exact State.unstaged_setTok ht hc hu hx)]
  exact ⟨(congrArg (fun y : NocState => y.tokens) (hshow (p := .noc) (by decide))).trans htok, hshow (p := .mem) (by decide),
    hshow (p := .cores) (by decide)⟩

theorem State.mem_portTokens {k op port : Nat} (h : (t, n) ∈ s.portTokens k op port) : s.noc.tokens[n]? = some t ∧ t.dst = k := by
  obtain ⟨hz, hp⟩ := List.mem_filter.mp h
  refine ⟨List.mem_zipIdx_iff_getElem?.mp hz, ?_⟩
  simp only [Bool.and_eq_true, decide_eq_true_eq] at hp
  exact hp.1.1.1.2

theorem State.resvWrite_noc (s : State) (k op port at_ : Nat) (bs : List Byte) : (s.resvWrite k op port at_ bs).noc = s.noc :=
  (State.store_noc _ _ _).trans (State.store_noc s _ _)

theorem State.resvWrite_cores (s : State) (k op port at_ : Nat) (bs : List Byte) : (s.resvWrite k op port at_ bs).cores = s.cores :=
  (State.store_cores _ _ _).trans (State.store_cores s _ _)

/-- What lies in a port's reservoir reads as before where the tokens and the cores do. -/
theorem State.resvTail_of_parts {u : State} (hn : u.part .noc = s.part .noc) (hc : u.part .cores = s.part .cores) (k op port : Nat) :
    u.resvTail k op port = s.resvTail k op port := by
  have hnoc : u.noc = s.noc := hn
  have ht : u.portTokens k op port = s.portTokens k op port := by
    rw [State.portTokens, hnoc, ← State.portTokens]
  have hr : u.resvUsed k op port = s.resvUsed k op port := by
    rw [State.resvUsed, ht, ← State.resvUsed]
  rw [State.resvTail, ht, hr, State.core_of_part hc, ← State.resvTail]

/-- A diverted token whose spilled bytes stand in the reservoir, behind those that stood there. -/
def Token.refilled (t : Token) (tail : Nat) : Token :=
  { t with area := [], staged := [], resvAt := if t.inResv = 0 then tail else t.resvAt, inResv := t.inResv + t.spilt }

/-- A readback for which the reservoir has room and which the memory answers in full. -/
theorem exec_spillReadback {k : CoreRef} {op : Fin 32} {port : Fin 8} {v : State} {bs : List Byte} (hl : s.live = true)
    (hf : (s.portTokens k.key op.val port.val).find? (fun x => decide (0 < x.1.spilt)) = some (t, n)) (hp : t.phase = .diverted)
    (hr : s.readUnits (s.spillReq k.key) t.area = (v, bs)) (hb : bs.length = 64 * t.area.length)
    (hw : t.spilt ≤ ((s.core k.key).block.resvSize op.val port.val - s.resvUsed k.key op.val port.val) / 64 * 64) :
    exec (.spillReadback k op port) s = .next
      ((((v.resvWrite k.key op.val port.val (v.resvTail k.key op.val port.val) (bs ++ t.staged)).setTok n
        (t.refilled (v.resvTail k.key op.val port.val))).drainStaging (clusterOf k.key)).showSpill (clusterOf k.key)) := by
  have hspilt : t.spilt = 64 * t.area.length + t.staged.length := rfl
  have hunits : t.area.take (t.spilt / 64) = t.area := List.take_of_length_le (by omega)
  have harea : t.area.drop (bs.length / 64) = [] := List.drop_of_length_le (by omega)
  have hstaged : t.staged.take (t.spilt - bs.length) = t.staged := List.take_of_length_le (by omega)
  have hsum : (bs ++ t.staged).length = t.spilt := by rw [List.length_append, hb, hspilt]
  refine (State.act_live _ hl).trans (congrArg _ ?_)
  rw [hf]
  simp only [hp, reduceCtorEq, if_false, Nat.min_eq_left hw, hunits, hr, harea, if_true, hstaged, hsum, List.drop_length, Token.refilled]

theorem spillReadback_refills {k : CoreRef} {op : Fin 32} {port : Fin 8} {v : State} {bs : List Byte} (hl : s.live = true)
    (hf : (s.portTokens k.key op.val port.val).find? (fun x => decide (0 < x.1.spilt)) = some (t, n)) (hp : t.phase = .diverted)
    (hu : s.stagingUsed (clusterOf k.key) = t.staged.length)
    (hr : s.readUnits (s.spillReq k.key) t.area = (v, bs)) (hb : bs.length = 64 * t.area.length)
    (hw : t.spilt ≤ ((s.core k.key).block.resvSize op.val port.val - s.resvUsed k.key op.val port.val) / 64 * 64) :
    Completes (.spillReadback k op port) s fun u =>
      (∃ x, u.noc.tokens = s.noc.tokens.set n x ∧ x.staged = [] ∧ x.area = [] ∧ x.inResv = t.inResv + t.spilt ∧
        x.phase = .diverted) ∧
      u.mem = (v.resvWrite k.key op.val port.val (s.resvTail k.key op.val port.val) (bs ++ t.staged)).mem ∧ u.cores = s.cores := by
  obtain ⟨ht, hk⟩ := State.mem_portTokens (List.mem_of_find?_eq_some hf)
  have hv {p : Part} (h : p ∉ readAccessParts) : v.part p = s.part p :=
    (congrArg (·.1.part p) hr).symm.trans (State.readUnits_part h _ _ s)
  have htail := State.resvTail_of_parts (hv (by decide)) (hv (by decide)) k.key op.val port.val
  have hnoc : v.noc = s.noc := hv (p := .noc) (by decide)
  have hcore : v.cores = s.cores := hv (p := .cores) (by decide)
  obtain ⟨htok, hmem, hcores⟩ := State.settled_setTok ((v.resvWrite_noc k.key op.val port.val _ _).trans hnoc) ht
    (congrArg clusterOf hk) hu (x := t.refilled (s.resvTail k.key op.val port.val)) rfl
  have he := exec_spillReadback hl hf hp hr hb hw
  rw [htail] at he
  exact ⟨_, he, ⟨_, htok, rfl, rfl, rfl, hp⟩, hmem, hcores.trans ((v.resvWrite_cores _ _ _ _ _).trans hcore)⟩

end

/-- Settles O13: a courier token by what the checks and the matcher find, a stream token at its core, and the four rows of its data. -/
theorem tokensArriveAndLand : Obligations.TokensArriveAndLand := by
  refine ⟨fun n s t hl ht h15 => ⟨fun hc hp hm ho hb => ?courier, fun hc hp he hh ho hn a b d f r l hs hpath hr hf => ?stream⟩,
    fun s hl => ⟨fun n t m ht hp hd ha hs hu hm => ⟨?landed, m.landed_land _ _⟩, fun k op port n t hf hr hb hi he hn => ?drain,
      fun k op port n t hf hp hu v bs hr hb hw => ?readback, fun k op port cycles h hh => ?release⟩⟩
  case courier =>
    refine ⟨tokenArrival_seam hl ht h15 hc hp hm ho hb, tokenArrival_unnamed hl ht h15 hc hp hm ho hb,
      fun hseam hname hload hruns => ⟨tokenArrival_beyond hl ht h15 hc hp hm ho hb hseam hname hload hruns, fun hbey => ?_⟩⟩
    have ha : s.Admits t := ⟨hseam, hname, hload, hruns, hbey⟩
    have gone {a : Admit} (he : (s.core t.dst).entrance t = a) {f : Fld} (hf : a.cause = some f) :=
      tokenArrival_gone hl ht h15 hc hp hm ho hb ha he hf
    refine ⟨fun hbad => gone (CoreState.entrance_bad hbad) rfl, fun hop hport => ⟨fun hbase => ?_, fun m hm' harr => ?_,
      fun hbase hret hnone => ⟨fun hlen => ?_, fun hlen => ⟨fun hahead => ?_, fun hwin hempty => ?_⟩⟩⟩⟩
    · exact gone (CoreState.entrance_of_after hop hport hbase) rfl
    · exact gone (CoreState.entrance_of_arrived hop hport hm' harr) rfl
    · exact gone (CoreState.entrance_oversize hop hport hbase hret hnone hlen) rfl
    · exact tokenArrival_waits hl ht h15 hc hp hm ho hb ha (CoreState.entrance_ahead hop hport hbase hret hnone hlen hahead)
    · exact tokenArrival_first hl ht h15 hc hp hm ho hb ha (CoreState.entrance_ok hop hport hbase hret hnone hlen hwin hempty) hempty
  case stream =>
    intro k c hseam hname hload hruns hbey hback hempty hok
    obtain ⟨j, hj⟩ := State.streamGo_reaches (n := n) hpath hr hf
    obtain ⟨⟨m, hm, harr, hland⟩, hmem, x, htok, hx⟩ :=
      State.arrive_stream (n := n) (k := k) ⟨hseam, hname, hload, hruns, hbey⟩ hback hempty hok hp hn hs
    have hcount {p : Part} (h : p ≠ .reg .NOC_STREAM_FLITS) (hsat : p ≠ .reg .MGT_SAT) (u : State) :=
      State.countFlits_part h hsat u r.1 j
    refine ⟨_, (exec_tokenArrival_stream hl ht h15 hc hp he hh ho).trans (congrArg _ hj), ⟨m, ?_, harr, hland⟩, ?_, x, ?_, hx⟩
    · rw [State.core_of_part (hcount (by decide) (by decide) _)]
      exact hm
    · exact (hcount (p := .mem) (by decide) (by decide) _).trans hmem
    · exact (congrArg (fun y : NocState => y.tokens) (hcount (p := .noc) (by decide) (by decide) _)).trans htok
  case landed => exact exec_tokenDataLanded hl ht hp hd ha hs hu hm
  case drain => exact exec_reservoirDrain hl hf hr hb hi he hn
  case readback => exact spillReadback_refills hl hf hp hu hr hb hw
  case release => exact holdRelease_ends hl hh

end Sys2Proof.Machine
end
